-- ==== Sys2Proof/Word.lean ====
section
/-! DEFINITION. The word types of the K4 and their plainest arithmetic. -/

namespace Sys2Proof

/-- One byte. -/
abbrev Byte := BitVec 8
/-- One 32-bit word: a slot word, a lane of a vector, a scratchpad word. -/
abbrev W32 := BitVec 32
/-- One 64-bit word: a `g` register, an `m` register, a walk word. -/
abbrev W64 := BitVec 64
/-- A 6-bit register field. -/
abbrev Reg := BitVec 6
/-- A 3-bit register field: a mask, a predicate, a ring. -/
abbrev Reg3 := BitVec 3
/-- A 4-bit register field: a walk register. -/
abbrev Reg4 := BitVec 4
/-- A 2-bit register field: a tile, a latch, an `nf` register, a range slot. -/
abbrev Reg2 := BitVec 2

end Sys2Proof
end

