-- ==== Sys2Proof/Syntax.lean ====
section
/-! DEFINITION. The instructions of the K4 and the events of the device, one constructor per row of the opcode table. -/

namespace Sys2Proof

/-- The element types of the vector family (R54). -/
inductive ElemType where
  | f32 | bf16 | f16 | i32 | n32 | i16 | n16 | i8 | n8
  | nf (n : Reg2)
  deriving DecidableEq, Repr

/-- The operand and target types of the matrix family (R63). -/
inductive MatType where
  | nf (n : Reg2)
  | bf16 | f16 | f32
  deriving DecidableEq, Repr

/-- The coherence policies of an access (R55). -/
inductive Policy where
  | own | wt | si | wi
  deriving DecidableEq, Repr

/-- The rounding codes of `vcvt`, `vpack` and `tcvt` (R60). -/
inductive Rounding where
  | rne | rz | rd | ru
  deriving DecidableEq, Repr

/-- The conditions of `cmp` (R289). -/
inductive Cond where
  | eq | ne | lt | le | gt | ge | ltn | gen
  deriving DecidableEq, Repr

/-- The conditions of `vcmp` (R359). -/
inductive VCond where
  | eq | ne | lt | le | gt | ge
  deriving DecidableEq, Repr

/-- The operations of a reduction and of a commutative range (R60, R168). -/
inductive RedOp where
  | add | max | min
  deriving DecidableEq, Repr

/-- The atomic operations F of R277, as a host or a peer request carries them. -/
inductive AtomicOp where
  | add | and | or | xor | min | max | minU | maxU | swp | cas
  deriving DecidableEq, Repr

/-- The system registers by the numbers of R35. -/
inductive SysReg where
  | lc | ec | rb | qbits | fflags | apeer
  | pack | gearst | leash | droopth | pack3 | image
  | reusemiss | undecl | emis
  | crng (n : Reg2)
  | nf (n : Reg2)
  | walk (i : Reg4) (j : Reg2)
  deriving DecidableEq, Repr

/-- Second source of a format V operation: a vector register, or a `g` register broadcast into every lane (R59). -/
inductive VSrc where
  | vec (b : Reg)
  | scalar (b : Reg)
  deriving DecidableEq, Repr

/-- A write that arrives over the fabric (R267): the sending device, the space (3 or 4), the level-3 pack and the
position in it for space 4, the physical address or window offset, the barrier object of a space-4 copy, and the data. -/
structure FabricWrite where
  src     : Nat
  space   : Nat
  packId  : Nat
  core    : Nat
  pos     : Nat
  addr    : Nat
  barrier : Nat
  data    : List Byte
  deriving DecidableEq, Repr

/-- A request of a peer atomic (R195): the sending device, an identifying number of the request there, the physical
address here, the operation, the width in bytes and the operands. -/
structure PeerAtomic where
  src   : Nat
  tag   : Nat
  pa    : Nat
  op    : AtomicOp
  width : Nat
  b     : W64
  c     : W64
  deriving DecidableEq, Repr

/-- What a signal of another device says of its members at a `pbar 3`: all have arrived; the requests that they dropped stand again and
their cores have been raised; their cores have settled in the gear named (R191, R192, R245). -/
inductive Phase3 where
  | arrived | raised | settled
  deriving DecidableEq, Repr

/-- A signal of another device about a `pbar 3`: its number, what the device takes for `pack3`, the gear its members name, whether one
dropped its request, and how far they are (R191, R192, R245). -/
structure Arrival3 where
  nth   : Nat
  pack3 : Nat
  gear  : Option Bool
  drop  : Bool
  phase : Phase3
  deriving DecidableEq, Repr

/-- An ordered barrier signal of a peer device (R182, R191, R267): a `level3` of a number above 0 speaks of the members on the
sending device at their `pbar 3` of that number; otherwise bytes are counted at a barrier object of a context, with the index of a copy
fault. -/
structure BarrierSignal where
  src     : Nat
  packId  : Nat
  level3  : Arrival3
  core    : Nat
  pos     : Nat
  barrier : Nat
  bytes   : Nat
  fault   : Option Nat
  deriving DecidableEq, Repr

/-- A fetch for the read stream that a register number is bound to: words of the entry that lies `ahead` past the next pop (R119). -/
structure StreamWords where
  reg   : Nat
  ahead : Nat
  words : W64
  deriving DecidableEq, Repr

/-- An error response of a peer to a copy (R183): the first byte of the copy that it concerns, and how many of those sent were not
written. -/
structure PeerError where
  first   : Nat
  refused : Nat
  deriving DecidableEq, Repr

/-- A copy on a channel whose barrier object cannot be reached (R183): the first byte of it that was not written (R206). -/
structure LostCopy where
  ch    : Nat
  first : Nat
  deriving DecidableEq, Repr

/-- One row of the opcode table each: the slot words in the table's order, then the events. An event carries the numbers
that pick its subject: `h` a hardware context, `c` a core, `ch` a copy channel of it, `i` a registry index, `d` a die,
`line` a line number (physical address / 64). -/
inductive Instr where
  | nop
  | add (d a b : Reg) (w : Bool)
  | sub (d a b : Reg) (w : Bool)
  | mul (d a b : Reg) (w : Bool)
  | mulh (d a b : Reg) (w : Bool)
  | div (d a b : Reg) (w : Bool)
  | rem (d a b : Reg) (w : Bool)
  | and (d a b : Reg)
  | or (d a b : Reg)
  | xor (d a b : Reg)
  | andn (d a b : Reg)
  | shl (d a b : Reg) (w : Bool)
  | shr (d a b : Reg) (w : Bool)
  | sra (d a b : Reg) (w : Bool)
  | min (d a b : Reg) (w : Bool)
  | max (d a b : Reg) (w : Bool)
  | clz (d a : Reg)
  | popc (d a : Reg)
  | movGG (d a : Reg)
  | movMG (d : Reg3) (a : Reg)
  | movGM (d : Reg) (a : Reg3)
  | sel (d a b : Reg) (j : Reg3)
  | cmp (n : Reg3) (a b : Reg) (w : Bool) (c : Cond)
  | addi (d a : Reg) (i : BitVec 14)
  | li (d : Reg) (i : BitVec 20)
  | lih (d : Reg) (i : BitVec 20)
  | addr (d a b : Reg) (s : BitVec 3)
  | mand (d a b : Reg3)
  | mor (d a b : Reg3)
  | mnot (d a : Reg3)
  | mpop (d : Reg) (a : Reg3)
  | mfirst (d : Reg) (a : Reg3)
  | ld (d a : Reg) (z : Bool) (o : BitVec 11) (p : Policy)
  | st (d a : Reg) (z : Bool) (o : BitVec 11) (p : Policy)
  | lds (d a : Reg) (i : BitVec 14)
  | sts (d a : Reg) (i : BitVec 14)
  | ldf (d a : Reg) (k : Bool) (o : BitVec 13)
  | ste (d a : Reg) (o : BitVec 13)
  | br (o : BitVec 22)
  | bc (s : Bool) (n : Reg3) (o : BitVec 22)
  | call (o : BitVec 22)
  | jr (d a : Reg)
  | ret
  | loop (o : BitVec 22)
  | lsetup (a : Reg) (e : BitVec 3) (r : Bool)
  | wait (l s c t : BitVec 4)
  | fenceEng
  | fenceSysAcq
  | fenceSysRel
  | fenceSys
  | gear (g : Bool) (w : Bool)
  | phase (o : BitVec 12) (i : BitVec 4) (e : BitVec 3) (m : BitVec 7)
  | fmtsetImm (n : Reg2) (r : BitVec 14)
  | fmtsetReg (n : Reg2) (a : Reg)
  | time (d : Reg)
  | cycles (d : Reg)
  | done (a : Reg)
  | yield
  | park (a b : Reg) (w : Bool)
  | trap (c : BitVec 20)
  | rdsr (d : Reg) (n : SysReg)
  | wrsr (a : Reg) (n : SysReg)
  | brk (c : BitVec 20)
  | vadd (d a : Reg) (b : VSrc) (m : Reg3) (t : ElemType)
  | vsub (d a : Reg) (b : VSrc) (m : Reg3) (t : ElemType)
  | vmul (d a : Reg) (b : VSrc) (m : Reg3) (t : ElemType)
  | vfma (d a : Reg) (b : VSrc) (m : Reg3) (t : ElemType)
  | vmin (d a : Reg) (b : VSrc) (m : Reg3) (t : ElemType)
  | vmax (d a : Reg) (b : VSrc) (m : Reg3) (t : ElemType)
  | vabs (d a : Reg) (m : Reg3) (t : ElemType)
  | vneg (d a : Reg) (m : Reg3) (t : ElemType)
  | vand (d a : Reg) (b : VSrc) (m : Reg3) (t : ElemType)
  | vor (d a : Reg) (b : VSrc) (m : Reg3) (t : ElemType)
  | vxor (d a : Reg) (b : VSrc) (m : Reg3) (t : ElemType)
  | vshl (d a : Reg) (b : VSrc) (m : Reg3) (t : ElemType)
  | vshr (d a : Reg) (b : VSrc) (m : Reg3) (t : ElemType)
  | vsra (d a : Reg) (b : VSrc) (m : Reg3) (t : ElemType)
  | vcmp (c : VCond) (d : Reg3) (a : Reg) (b : VSrc) (m : Reg3) (t : ElemType)
  | vsel (d a : Reg) (b : VSrc) (m : Reg3) (t : ElemType)
  | vmov (d a : Reg) (m : Reg3) (t : ElemType)
  | vbcast (d a : Reg) (l : BitVec 6) (m : Reg3) (t : ElemType)
  | vperm (d a : Reg) (b : VSrc) (m : Reg3) (t : ElemType)
  | vrot (d a : Reg) (n : BitVec 6) (m : Reg3) (t : ElemType)
  | vcvt (d a : Reg) (r : Rounding) (s : ElemType) (m : Reg3) (q : Bool) (t : ElemType)
  | vpack (d a : Reg) (q : Bool) (r : Rounding) (t : ElemType)
  | vunpk (d a : Reg) (p : BitVec 2) (t : ElemType)
  | vdot4 (d a : Reg) (b : VSrc) (m : Reg3) (t : ElemType)
  | vscan (d a : Reg) (m : Reg3) (t : ElemType)
  | vrcp (d a : Reg) (m : Reg3) (t : ElemType)
  | vrsq (d a : Reg) (m : Reg3) (t : ElemType)
  | vsqrt (d a : Reg) (m : Reg3) (t : ElemType)
  | vexp2 (d a : Reg) (m : Reg3) (t : ElemType)
  | vlog2 (d a : Reg) (m : Reg3) (t : ElemType)
  | vtanh (d a : Reg) (m : Reg3) (t : ElemType)
  | vred (o : RedOp) (n : Reg2) (a : Reg) (m : Reg3) (t : ElemType)
  | vdrain (d : Reg) (n : Reg2) (m : Reg3) (t : ElemType)
  | vld (d a : Reg) (o : BitVec 9) (m : Reg3)
  | vst (d a : Reg) (o : BitVec 9) (m : Reg3)
  | vldf (d a : Reg) (o : BitVec 9) (m : Reg3) (k : Bool)
  | vste (d a : Reg) (o : BitVec 9) (m : Reg3)
  | vldm (d a : Reg) (o : BitVec 9) (m : Reg3) (p : Policy)
  | vstm (d a : Reg) (o : BitVec 9) (m : Reg3) (p : Policy)
  | vgath (d a i : Reg) (m : Reg3) (p : Policy)
  | vscat (d a i : Reg) (m : Reg3) (p : Policy)
  | feset (d a : Reg) (f : Bool)
  | sbind (d : Reg) (w : Bool) (n : Reg4)
  | sfree (d : Reg)
  | hold (a b c d : BitVec 5) (n : BitVec 4)
  | mma (t : Reg2) (a b : Reg3) (x y : MatType) (z s : Bool)
  | tzero (t : Reg2)
  | tld (t : Reg2) (g : Reg) (n : Reg4)
  | tst (t : Reg2) (g : Reg) (n : Reg4)
  | tcvt (t : Reg2) (g : Reg) (n : Reg4) (x : MatType) (r : Rounding) (s : Bool)
  | rdef (n : Reg3) (a b : Reg)
  | rpush (n : Reg3) (c : BitVec 8)
  | rstat (n : Reg3) (d : Reg)
  | scl (s : Bool) (a : Reg)
  | copy (s d : Reg) (w v : Reg4) (b : Reg)
  | bini (a n k : Reg)
  | barv (a b : Reg) (r : Bool)
  | bwait (a p : Reg)
  | pbar (l : Reg2) (g : Option Bool) (x : Bool)
  | atadd (d a b : Reg) (w : Bool)
  | atand (d a b : Reg) (w : Bool)
  | ator (d a b : Reg) (w : Bool)
  | atxor (d a b : Reg) (w : Bool)
  | atmin (d a b : Reg) (w s : Bool)
  | atmax (d a b : Reg) (w s : Bool)
  | atswp (d a b : Reg) (w : Bool)
  | atcas (d a b c : Reg) (w : Bool)
  | cadd (v a : Reg) (m : Reg3)
  | crng (n : Reg2) (b l : Reg) (t : ElemType) (o : RedOp)
  | rflush (a l b : Reg)
  | rinv (a l b : Reg)
  | pref (a l : Reg) (p : Policy)
  -- the events of the device, which have no word
  | resultLanding (h : Nat)
  | deliver (h k : Nat)
  | translationResult (h : Nat)
  | storePerformed (h : Nat)
  | feEntryPerform (h : Nat)
  | streamFetch (h : Nat) (x : StreamWords)
  | matrixOpStart (c : Nat)
  | matrixOpRetire (c : Nat)
  | holdLimitExpiry (h : Nat)
  | copyBytesLanded (c ch off n : Nat)
  | barrierCount (c k : Nat)
  | barvUpdate (h : Nat)
  | copyFault (c ch : Nat) (peerError : Option PeerError)
  | copyLost (c : Nat) (ch : LostCopy)
  | copyComplete (c ch : Nat)
  | pbarArrival (h : Nat)
  | pbarRelease (h : Nat)
  | homeLoadRequest (h : Nat)
  | homeStoreRequest (h : Nat)
  | homeOwnRequest (h : Nat)
  | homeAtomicRequest (h : Nat)
  | caddPartialRequest (h : Nat)
  | recallOwner (line : Nat)
  | invalidation (line d : Nat)
  | combineRecall (line d : Nat)
  | ownerWriteback (line : Nat)
  | evictionAnnounce (line c : Nat)
  | backInvalidationResponse (line : Nat) (dirty : Option (List Byte))
  | hostRead (pa : Nat)
  | hostReadShared (pa : Nat)
  | hostWrite (pa : Nat) (data : List Byte) (own : Bool)
  | directoryError (die : Option Nat) (line : Nat) (hostDirty : Option (List Byte)) (dataLost : Bool)
  | tlbSoftError (k : Nat)
  | start (i : Nat)
  | parkCmd (i : Nat)
  | unpark (i : Nat)
  | kill (i : Nat)
  | resumeFault (i : Nat)
  | resumeHostCall (i : Nat)
  | refresh (i : Nat)
  | registerBlock (i : Nat)
  | unregisterBlock (i : Nat)
  | waitListEvaluation (i : Nat)
  | waitListPoll (i : Nat)
  | parkWake (h : Nat)
  | parkPoll (h : Nat)
  | shootDownRange
  | shootDownAsid
  | shootDownAll
  | shootDownComplete
  | sealImage
  | sealComplete
  | sealRelease
  | attestation
  | controlFieldWrite (pa : Nat) (data : List Byte)
  | deviceHeartbeat
  | heartbeatLoss
  | resourceReport (c : Nat)
  | gangIssueStart (i : Nat)
  | kennelRestore (i : Nat)
  | priorityBoost (i : Nat)
  | blockingTimeout (i : Nat)
  | haltComplete (i : Nat)
  | watchdogExpiry (i : Nat)
  | watchdogStage2 (i : Nat)
  | watchdogStage3 (i c : Nat)
  | timestampRebase
  | ptsTick
  | gearSettleStart (c : Nat)
  | gearChangeover (c : Nat)
  | changeoverEnd (c : Nat)
  | energyWindowRoll (c : Nat)
  | energyStall (c : Nat)
  | emisRunClose (h : Nat)
  | surchargeDecay (h : Nat)
  | leashRecompute (d : Nat)
  | tokenRing
  | bark (d q : Nat) (run : Bool)
  | barkEnd (c : Nat)
  | idleEntry (level : Nat)
  | idleResume
  | fabricWrite (w : FabricWrite)
  | fabricBarrierSignal (src packId : Nat) (level3 : Arrival3) (core pos barrier bytes : Nat) (fault : Option Nat)
  | peerAtomicRequest (r : PeerAtomic)
  | peerAtomicResponse (h : Nat) (error : Bool) (old : W64)
  | fabricPortFailure (port : Nat)
  | deviceReset (status : Nat)
  | malformedCommand (i : Nat)
  | shootDownUnassignedKind
  | sealUnassignedKind
  | hostAtomic (pa : Nat) (op : AtomicOp) (width : Nat) (b c : W64)
  | hostWriteCompletion (k : Nat)
  | issueRotation (h : Nat)
  | residencyFloorExpiry (i : Nat)
  deriving DecidableEq, Repr

end Sys2Proof
end

