-- ==== Sys2Proof/WellFormed.lean ====
section
/-! DEFINITION. When an instruction is one that sealing accepts: the limits that its fields' widths do not already impose. -/

namespace Sys2Proof

/-- The element types of a row of R58, as a test on a type. -/
def ElemType.upTo8 : ElemType → Bool
  | .nf _ => false
  | _ => true

/-- Types 0 to 3, which `vfma` accepts. -/
def ElemType.fmaOk : ElemType → Bool
  | .f32 | .bf16 | .f16 | .i32 => true
  | _ => false

/-- Types 0, 1, 2, 3, 5 and 7, which `vabs` and `vneg` accept. -/
def ElemType.signedOk : ElemType → Bool
  | .f32 | .bf16 | .f16 | .i32 | .i16 | .i8 => true
  | _ => false

/-- Types 3 to 8, which the vector shifts accept. -/
def ElemType.intOk : ElemType → Bool
  | .i32 | .n32 | .i16 | .n16 | .i8 | .n8 => true
  | _ => false

/-- Types 0, 1 and 2, which the special functions accept. -/
def ElemType.floatOk : ElemType → Bool
  | .f32 | .bf16 | .f16 => true
  | _ => false

/-- Types 0 and 3, which `vscan`, `vred` and `vdrain` accept. -/
def ElemType.scanOk : ElemType → Bool
  | .f32 | .i32 => true
  | _ => false

/-- Types 7 to 12, which `vdot4` accepts. -/
def ElemType.dotOk : ElemType → Bool
  | .i8 | .n8 | .nf _ => true
  | _ => false

/-- Types 1, 2 and 5 to 12, which `vpack` and `vunpk` accept. -/
def ElemType.packOk : ElemType → Bool
  | .f32 | .i32 | .n32 => false
  | _ => true

/-- Types 0, 1 and 3, which `crng` accepts (R64). -/
def ElemType.rangeOk : ElemType → Bool
  | .f32 | .bf16 | .i32 => true
  | _ => false

/-- Elements of a type in one 32-bit lane (R54). -/
def ElemType.perLane : ElemType → Nat
  | .f32 | .i32 | .n32 => 1
  | .bf16 | .f16 | .i16 | .n16 => 2
  | .i8 | .n8 | .nf _ => 4

/-- Width of an element of a type in bits (R54). -/
def ElemType.width (t : ElemType) : Nat := 32 / t.perLane

/-- The class of a matrix type: two operands of one `mma` share it (R63). -/
def MatType.cls : MatType → Nat
  | .nf _ => 0
  | .bf16 | .f16 => 1
  | .f32 => 2

/-- An immediate narrow-format record is ill-formed under R76. Fields: s, e, m, spec, adj of R75. -/
def illRecord (r : BitVec 14) : Bool :=
  let s := (r.extractLsb' 13 1).toNat
  let e := (r.extractLsb' 10 3).toNat
  let m := (r.extractLsb' 7 3).toNat
  let spec := (r.extractLsb' 5 2).toNat
  let w := s + e + m
  w < 2 || w > 8 || spec == 3 || (e == 0 && spec != 0) || (spec == 1 && (e < 2 || m == 0))

/-- The limits of a slot instruction that the seal engine checks in its word alone (R56 to R65). Every event is well-formed. -/
def WellFormed : Instr → Bool
  | .loop o => o.toInt ≤ 0
  | .fmtsetImm _ r => !illRecord r
  | .vadd _ _ _ _ t | .vsub _ _ _ _ t | .vmul _ _ _ _ t | .vmin _ _ _ _ t | .vmax _ _ _ _ t => t.upTo8
  | .vcmp _ _ _ _ _ t => t.upTo8
  | .vfma _ _ _ _ t => t.fmaOk
  | .vabs _ _ _ t | .vneg _ _ _ t => t.signedOk
  | .vshl _ _ _ _ t | .vshr _ _ _ _ t | .vsra _ _ _ _ t => t.intOk
  | .vdot4 _ _ _ _ t => t.dotOk
  | .vscan _ _ _ t | .vred _ _ _ _ t | .vdrain _ _ _ t => t.scanOk
  | .vrcp _ _ _ t | .vrsq _ _ _ t | .vsqrt _ _ _ t | .vexp2 _ _ _ t | .vlog2 _ _ _ t | .vtanh _ _ _ t => t.floatOk
  | .vpack _ a _ _ t => t.packOk && a.toNat % t.perLane == 0
  | .vunpk _ _ p t => t.packOk && p.toNat < t.perLane
  | .sbind d _ _ | .sfree d => 56 ≤ d.toNat
  | .hold _ _ _ _ n => n != 0
  | .mma _ _ _ x y _ _ => x.cls == y.cls
  | .rpush _ c => c != 0
  | .crng _ _ _ t _ => t.rangeOk
  | _ => true

end Sys2Proof
end

