-- ==== Sys2Proof/Decode.lean ====
section
/-! DEFINITION. Reading a slot word in the family of its slot, as the seal engine reads it (R49 to R65), the schedule word
(R25), and the words of a well-formed instruction. -/

namespace Sys2Proof

/-- The refusal codes of R40, by name. -/
inductive SealCode where
  | unassignedMajor | wrongSlot | zeroField | unassignedFunction | badElemType | badMatType | badKind | badGearOption
  | illFormedRecord | conflict | unassignedSubop | targetOutside | zeroCount | typeNotAccepted | notStreamRegister
  | unassignedSysReg | guardOnEmpty | noWordForm | noBroadcast | forwardLoop | badMagic | badSegments | badEntry
  | sealedMemoryFull | reservedHeader | badWalkRecord | badRingRecord | scratchTooLarge | fallThrough | holdWindow
  | nestedHold
  deriving DecidableEq, Repr

/-- The number of a refusal code, 1 to 31 (R40). -/
def SealCode.num : SealCode → Nat
  | .unassignedMajor => 1 | .wrongSlot => 2 | .zeroField => 3 | .unassignedFunction => 4 | .badElemType => 5
  | .badMatType => 6 | .badKind => 7 | .badGearOption => 8 | .illFormedRecord => 9 | .conflict => 10
  | .unassignedSubop => 11 | .targetOutside => 12 | .zeroCount => 13 | .typeNotAccepted => 14
  | .notStreamRegister => 15 | .unassignedSysReg => 16 | .guardOnEmpty => 17 | .noWordForm => 18 | .noBroadcast => 19
  | .forwardLoop => 20 | .badMagic => 21 | .badSegments => 22 | .badEntry => 23 | .sealedMemoryFull => 24
  | .reservedHeader => 25 | .badWalkRecord => 26 | .badRingRecord => 27 | .scratchTooLarge => 28 | .fallThrough => 29
  | .holdWindow => 30 | .nestedHold => 31

/-- What a slot word reads as: an instruction, or the lowest code charged to the word (R39). -/
abbrev Decoded := Except SealCode Instr

/-- The element type of a code of R54; codes 13 to 15 are reserved. -/
def elemTypeOf (c : BitVec 4) : Option ElemType :=
  match c.toNat with
  | 0 => some .f32 | 1 => some .bf16 | 2 => some .f16 | 3 => some .i32 | 4 => some .n32 | 5 => some .i16
  | 6 => some .n16 | 7 => some .i8 | 8 => some .n8 | 9 => some (.nf 0) | 10 => some (.nf 1) | 11 => some (.nf 2)
  | 12 => some (.nf 3) | _ => none

/-- The code of an element type (R54). -/
def elemTypeCode : ElemType → BitVec 4
  | .f32 => 0 | .bf16 => 1 | .f16 => 2 | .i32 => 3 | .n32 => 4 | .i16 => 5 | .n16 => 6 | .i8 => 7 | .n8 => 8
  | .nf n => 9 + n.zeroExtend 4

/-- The matrix type of a code of R63; code 7 is refused. -/
def matTypeOf (c : BitVec 3) : Option MatType :=
  match c.toNat with
  | 0 => some (.nf 0) | 1 => some (.nf 1) | 2 => some (.nf 2) | 3 => some (.nf 3) | 4 => some .bf16 | 5 => some .f16
  | 6 => some .f32 | _ => none

/-- The code of a matrix type (R63). -/
def matTypeCode : MatType → BitVec 3
  | .nf n => n.zeroExtend 3 | .bf16 => 4 | .f16 => 5 | .f32 => 6

/-- The policy of a code of R55. -/
def policyOf (c : BitVec 2) : Policy :=
  match c.toNat with
  | 0 => .own | 1 => .wt | 2 => .si | _ => .wi

/-- The code of a policy (R55). -/
def policyCode : Policy → BitVec 2
  | .own => 0 | .wt => 1 | .si => 2 | .wi => 3

/-- The rounding of a code of R60. -/
def roundingOf (c : BitVec 2) : Rounding :=
  match c.toNat with
  | 0 => .rne | 1 => .rz | 2 => .rd | _ => .ru

/-- The code of a rounding (R60). -/
def roundingCode : Rounding → BitVec 2
  | .rne => 0 | .rz => 1 | .rd => 2 | .ru => 3

/-- The condition of `cmp` with the low bits c of its function (R289). -/
def condOf (c : BitVec 3) : Cond :=
  match c.toNat with
  | 0 => .eq | 1 => .ne | 2 => .lt | 3 => .le | 4 => .gt | 5 => .ge | 6 => .ltn | _ => .gen

/-- The code of a condition of `cmp` (R289). -/
def condCode : Cond → BitVec 3
  | .eq => 0 | .ne => 1 | .lt => 2 | .le => 3 | .gt => 4 | .ge => 5 | .ltn => 6 | .gen => 7

/-- The condition of `vcmp`; codes 6 and 7 are refused (R60). -/
def vcondOf (c : BitVec 3) : Option VCond :=
  match c.toNat with
  | 0 => some .eq | 1 => some .ne | 2 => some .lt | 3 => some .le | 4 => some .gt | 5 => some .ge | _ => none

/-- The code of a condition of `vcmp` (R60). -/
def vcondCode : VCond → BitVec 3
  | .eq => 0 | .ne => 1 | .lt => 2 | .le => 3 | .gt => 4 | .ge => 5

/-- The operation of a reduction or range; codes 3 and above are refused (R60, R64). -/
def redOpOf (c : Nat) : Option RedOp :=
  match c with
  | 0 => some .add | 1 => some .max | 2 => some .min | _ => none

/-- The code of a reduction operation (R60). -/
def redOpCode : RedOp → Nat
  | .add => 0 | .max => 1 | .min => 2

/-- The system register of a 14-bit number; a number not in R35 has none. -/
def sysRegOf (n : BitVec 14) : Option SysReg :=
  match n.toNat with
  | 0x0000 => some .lc | 0x0001 => some .ec | 0x0002 => some .rb | 0x0003 => some .qbits | 0x0004 => some .fflags
  | 0x0006 => some .apeer | 0x0010 => some .pack | 0x0011 => some .gearst | 0x0012 => some .leash
  | 0x0013 => some .droopth | 0x0014 => some .pack3 | 0x0015 => some .image | 0x0020 => some .reusemiss
  | 0x0021 => some .undecl | 0x0022 => some .emis
  | _ =>
    if n.extractLsb' 2 12 = 0x00C then some (.crng (n.extractLsb' 0 2))
    else if n.extractLsb' 2 12 = 0x010 then some (.nf (n.extractLsb' 0 2))
    else if n.extractLsb' 6 8 = 0x04 then some (.walk (n.extractLsb' 2 4) (n.extractLsb' 0 2))
    else none

/-- The number of a system register (R35). -/
def sysRegNumber : SysReg → BitVec 14
  | .lc => 0x0000 | .ec => 0x0001 | .rb => 0x0002 | .qbits => 0x0003 | .fflags => 0x0004 | .apeer => 0x0006
  | .pack => 0x0010 | .gearst => 0x0011 | .leash => 0x0012 | .droopth => 0x0013 | .pack3 => 0x0014 | .image => 0x0015
  | .reusemiss => 0x0020 | .undecl => 0x0021 | .emis => 0x0022
  | .crng n => (0x00C : BitVec 12) ++ n
  | .nf n => (0x010 : BitVec 12) ++ n
  | .walk i j => (0x04 : BitVec 8) ++ i ++ j

/-- The tests of one row, lowest code first: the first one that fails is the code charged (R39). -/
def accept (checks : List (SealCode × Bool)) (i : Option Instr) : Decoded :=
  match checks.find? (·.2) with
  | some c => .error c.1
  | none =>
    match i with
    | some i => .ok i
    | none => .error .unassignedMajor

/-- Field of `n` bits at bit `lo` of a slot word. -/
abbrev fld (w : W32) (lo n : Nat) : BitVec n := w.extractLsb' lo n

/-- A zero field that holds a non-zero value (E-03, R50). -/
def nz {n : Nat} (x : BitVec n) : Bool := x != 0

/-- The `alu` group (R57): an operation with a `.w` form. -/
def aluW (w : W32) (f : Reg → Reg → Reg → Bool → Instr) : Decoded :=
  .ok (f (fld w 20 6) (fld w 14 6) (fld w 8 6) (fld w 7 1 == 1))

/-- The `alu` group (R57): an operation without a `.w` form. -/
def alu3 (w : W32) (f : Reg → Reg → Reg → Instr) : Decoded :=
  accept [(.noWordForm, fld w 7 1 == 1)] (some (f (fld w 20 6) (fld w 14 6) (fld w 8 6)))

/-- The `alu` group (R57): one source, b a zero field, no `.w` form. -/
def alu2 (w : W32) (f : Reg → Reg → Instr) : Decoded :=
  accept [(.zeroField, nz (fld w 8 6)), (.noWordForm, fld w 7 1 == 1)] (some (f (fld w 20 6) (fld w 14 6)))

/-- The `alu` group, major 0x01 (R57). -/
def decodeAlu (w : W32) : Decoded :=
  match (fld w 0 7).toNat with
  | 0x00 => aluW w .add
  | 0x01 => aluW w .sub
  | 0x02 => aluW w .mul
  | 0x03 => aluW w .mulh
  | 0x04 => aluW w .div
  | 0x05 => aluW w .rem
  | 0x08 => alu3 w .and
  | 0x09 => alu3 w .or
  | 0x0A => alu3 w .xor
  | 0x0B => alu3 w .andn
  | 0x0C => aluW w .shl
  | 0x0D => aluW w .shr
  | 0x0E => aluW w .sra
  | 0x10 => aluW w .min
  | 0x11 => aluW w .max
  | 0x14 => alu2 w .clz
  | 0x15 => alu2 w .popc
  | 0x18 => alu2 w .movGG
  | 0x19 => accept [(.zeroField, nz (fld w 23 3) || nz (fld w 8 6)), (.noWordForm, fld w 7 1 == 1)]
      (some (.movMG (fld w 20 3) (fld w 14 6)))
  | 0x1A => accept [(.zeroField, nz (fld w 17 3) || nz (fld w 8 6)), (.noWordForm, fld w 7 1 == 1)]
      (some (.movGM (fld w 20 6) (fld w 14 3)))
  | f =>
    if 0x20 ≤ f ∧ f ≤ 0x27 then
      accept [(.noWordForm, fld w 7 1 == 1)] (some (.sel (fld w 20 6) (fld w 14 6) (fld w 8 6) (fld w 0 3)))
    else if 0x40 ≤ f ∧ f ≤ 0x47 then
      accept [(.zeroField, nz (fld w 23 3))]
        (some (.cmp (fld w 20 3) (fld w 14 6) (fld w 8 6) (fld w 7 1 == 1) (condOf (fld w 0 3))))
    else .error .unassignedFunction

/-- The scalar majors that slot C alone or slot S alone carries (R56). -/
def scalarSlotOk (slotC : Bool) (major : Nat) : Bool :=
  if 0x09 ≤ major ∧ major ≤ 0x0E then !slotC
  else if major = 0x01 ∨ (0x02 ≤ major ∧ major ≤ 0x08) ∨ major = 0x1C ∨ major = 0x1D ∨ major = 0x22 ∨ major = 0x23
    then true
  else slotC

/-- A scalar word whose major is assigned and carried by its slot (R56). -/
def decodeScalarMajor (w : W32) : Decoded :=
  let d : Reg := fld w 20 6
  let a : Reg := fld w 14 6
  let b : Reg := fld w 8 6
  match (fld w 26 6).toNat with
  | 0x01 => decodeAlu w
  | 0x02 => .ok (.addi d a (fld w 0 14))
  | 0x03 => .ok (.li d (fld w 0 20))
  | 0x04 => .ok (.lih d (fld w 0 20))
  | 0x05 => accept [(.zeroField, nz (fld w 3 5))] (some (.addr d a b (fld w 0 3)))
  | 0x06 =>
    match (fld w 0 8).toNat with
    | 0 => accept [(.zeroField, nz (fld w 23 3) || nz (fld w 17 3) || nz (fld w 11 3))]
        (some (.mand (fld w 20 3) (fld w 14 3) (fld w 8 3)))
    | 1 => accept [(.zeroField, nz (fld w 23 3) || nz (fld w 17 3) || nz (fld w 11 3))]
        (some (.mor (fld w 20 3) (fld w 14 3) (fld w 8 3)))
    | 2 => accept [(.zeroField, nz (fld w 23 3) || nz (fld w 17 3) || nz b)] (some (.mnot (fld w 20 3) (fld w 14 3)))
    | _ => .error .unassignedFunction
  | 0x07 => accept [(.zeroField, nz (fld w 17 3) || nz (fld w 0 14))] (some (.mpop d (fld w 14 3)))
  | 0x08 => accept [(.zeroField, nz (fld w 17 3) || nz (fld w 0 14))] (some (.mfirst d (fld w 14 3)))
  | 0x09 => .ok (.ld d a (fld w 13 1 == 1) (fld w 2 11) (policyOf (fld w 0 2)))
  | 0x0A => .ok (.st d a (fld w 13 1 == 1) (fld w 2 11) (policyOf (fld w 0 2)))
  | 0x0B => .ok (.lds d a (fld w 0 14))
  | 0x0C => .ok (.sts d a (fld w 0 14))
  | 0x0D => .ok (.ldf d a (fld w 13 1 == 1) (fld w 0 13))
  | 0x0E => accept [(.zeroField, nz (fld w 13 1))] (some (.ste d a (fld w 0 13)))
  | 0x10 => accept [(.zeroField, nz (fld w 22 4))] (some (.br (fld w 0 22)))
  | 0x11 => .ok (.bc (fld w 25 1 == 1) (fld w 22 3) (fld w 0 22))
  | 0x12 => accept [(.zeroField, nz (fld w 22 4))] (some (.call (fld w 0 22)))
  | 0x13 => accept [(.zeroField, nz (fld w 0 14))] (some (.jr d a))
  | 0x14 => accept [(.zeroField, nz (fld w 0 26))] (some .ret)
  | 0x15 => accept [(.zeroField, nz (fld w 22 4)), (.forwardLoop, 0 < (fld w 0 22).toInt)] (some (.loop (fld w 0 22)))
  | 0x16 => accept [(.zeroField, nz d || nz (fld w 0 10))] (some (.lsetup a (fld w 11 3) (fld w 10 1 == 1)))
  | 0x17 => accept [(.zeroField, nz (fld w 0 10))] (some (.wait (fld w 22 4) (fld w 18 4) (fld w 14 4) (fld w 10 4)))
  | 0x18 =>
    let z := nz (fld w 0 22)
    match (fld w 22 4).toNat with
    | 0 => accept [(.zeroField, z)] (some .fenceEng)
    | 1 => accept [(.zeroField, z)] (some .fenceSysAcq)
    | 2 => accept [(.zeroField, z)] (some .fenceSysRel)
    | 3 => accept [(.zeroField, z)] (some .fenceSys)
    | _ => accept [(.zeroField, z), (.unassignedSubop, true)] none
  | 0x19 => accept [(.zeroField, nz (fld w 0 24))] (some (.gear (fld w 25 1 == 1) (fld w 24 1 == 1)))
  | 0x1A => .ok (.phase (fld w 14 12) (fld w 10 4) (fld w 7 3) (fld w 0 7))
  | 0x1B =>
    if fld w 25 1 = 1 then
      accept [(.zeroField, nz (fld w 22 3) || nz (fld w 0 14))] (some (.fmtsetReg (fld w 20 2) a))
    else
      accept [(.zeroField, nz (fld w 22 3) || nz a), (.illFormedRecord, illRecord (fld w 0 14))]
        (some (.fmtsetImm (fld w 20 2) (fld w 0 14)))
  | 0x1C => accept [(.zeroField, nz (fld w 0 20))] (some (.time d))
  | 0x1D => accept [(.zeroField, nz (fld w 0 20))] (some (.cycles d))
  | 0x1E => accept [(.zeroField, nz d || nz (fld w 0 14))] (some (.done a))
  | 0x1F => accept [(.zeroField, nz (fld w 0 26))] (some .yield)
  | 0x20 => accept [(.zeroField, nz d || nz (fld w 1 7))] (some (.park a b (fld w 0 1 == 1)))
  | 0x21 => accept [(.zeroField, nz d)] (some (.trap (fld w 0 20)))
  | 0x22 => accept [(.zeroField, nz a), (.unassignedSysReg, (sysRegOf (fld w 0 14)).isNone)]
      ((sysRegOf (fld w 0 14)).map (.rdsr d))
  | 0x23 => accept [(.zeroField, nz d), (.unassignedSysReg, (sysRegOf (fld w 0 14)).isNone)]
      ((sysRegOf (fld w 0 14)).map (.wrsr a))
  | 0x24 => accept [(.zeroField, nz d)] (some (.brk (fld w 0 20)))
  | _ => .error .unassignedMajor

/-- A word of slot C (`slotC` true) or S (R56). -/
def decodeScalar (slotC : Bool) (w : W32) : Decoded :=
  let major := (fld w 26 6).toNat
  if major = 0x0F ∨ 0x25 ≤ major then .error .unassignedMajor
  else if !scalarSlotOk slotC major then .error .wrongSlot
  else decodeScalarMajor w

/-- The second source that a format V word names: fn[4] makes it a `g` register (R59). -/
def vsrcOf (w : W32) : VSrc := if fld w 4 1 = 1 then .scalar (fld w 8 6) else .vec (fld w 8 6)

/-- A format V row with a vector b operand and the types `ok` (R58). -/
def vec3 (w : W32) (ok : ElemType → Bool) (f : Reg → Reg → VSrc → Reg3 → ElemType → Instr) : Decoded :=
  match elemTypeOf (fld w 0 4) with
  | none => .error .badElemType
  | some t => accept [(.typeNotAccepted, !ok t)] (some (f (fld w 20 6) (fld w 14 6) (vsrcOf w) (fld w 5 3) t))

/-- A format V row whose b is a zero field when fn[4] = 0, with the types `ok` (R58, R59). -/
def vec2 (w : W32) (ok : ElemType → Bool) (more : List (SealCode × Bool)) (i : ElemType → Option Instr) : Decoded :=
  let br := fld w 4 1 == 1
  let z := !br && nz (fld w 8 6)
  match elemTypeOf (fld w 0 4) with
  | none => accept [(.zeroField, z), (.badElemType, true)] none
  | some t => accept ([(.zeroField, z)] ++ more ++ [(.typeNotAccepted, !ok t), (.noBroadcast, br)]) (i t)

/-- A format V row whose b is an immediate, with every type accepted (R58). -/
def vecImm (w : W32) (f : Reg → Reg → BitVec 6 → Reg3 → ElemType → Instr) : Decoded :=
  match elemTypeOf (fld w 0 4) with
  | none => .error .badElemType
  | some t => accept [(.noBroadcast, fld w 4 1 == 1)] (some (f (fld w 20 6) (fld w 14 6) (fld w 8 6) (fld w 5 3) t))

/-- A word of slot VA (`slotA` true) or VB (R58, R60). -/
def decodeVector (slotA : Bool) (w : W32) : Decoded :=
  let d : Reg := fld w 20 6
  let a : Reg := fld w 14 6
  let m : Reg3 := fld w 5 3
  let anyType : ElemType → Bool := fun _ => true
  let unary := fun (ok : ElemType → Bool) (f : Reg → Reg → Reg3 → ElemType → Instr) =>
    vec2 w ok [] (fun t => some (f d a m t))
  let major := (fld w 26 6).toNat
  if slotA && (0x20 ≤ major && major ≤ 0x27) then .error .wrongSlot
  else match major with
  | 0x01 => vec3 w ElemType.upTo8 .vadd
  | 0x02 => vec3 w ElemType.upTo8 .vsub
  | 0x03 => vec3 w ElemType.upTo8 .vmul
  | 0x04 => vec3 w ElemType.fmaOk .vfma
  | 0x05 => vec3 w ElemType.upTo8 .vmin
  | 0x06 => vec3 w ElemType.upTo8 .vmax
  | 0x07 => unary ElemType.signedOk .vabs
  | 0x08 => unary ElemType.signedOk .vneg
  | 0x09 => vec3 w anyType .vand
  | 0x0A => vec3 w anyType .vor
  | 0x0B => vec3 w anyType .vxor
  | 0x0C => vec3 w ElemType.intOk .vshl
  | 0x0D => vec3 w ElemType.intOk .vshr
  | 0x0E => vec3 w ElemType.intOk .vsra
  | 0x0F =>
    match elemTypeOf (fld w 0 4) with
    | none => .error .badElemType
    | some t =>
      accept [(.unassignedSubop, (vcondOf (fld w 23 3)).isNone), (.typeNotAccepted, !t.upTo8)]
        ((vcondOf (fld w 23 3)).map fun c => .vcmp c (fld w 20 3) a (vsrcOf w) m t)
  | 0x10 => vec3 w anyType .vsel
  | 0x11 => unary anyType .vmov
  | 0x12 => vecImm w .vbcast
  | 0x13 => vec3 w anyType .vperm
  | 0x14 => vecImm w .vrot
  | 0x15 =>
    match elemTypeOf (fld w 0 4), elemTypeOf (fld w 8 4) with
    | some t, some s => .ok (.vcvt d a (roundingOf (fld w 12 2)) s m (fld w 4 1 == 1) t)
    | _, _ => .error .badElemType
  | 0x16 =>
    let z := nz m || nz (fld w 11 3)
    match elemTypeOf (fld w 0 4) with
    | none => accept [(.zeroField, z || a.toNat % 4 != 0), (.badElemType, true)] none
    | some t =>
      accept [(.zeroField, z || a.toNat % (if t.perLane == 2 then 2 else 4) != 0), (.typeNotAccepted, !t.packOk),
          (.noBroadcast, fld w 4 1 == 1)]
        (some (.vpack d a (fld w 10 1 == 1) (roundingOf (fld w 8 2)) t))
  | 0x17 =>
    let z := nz m || nz (fld w 10 4)
    match elemTypeOf (fld w 0 4) with
    | none => accept [(.zeroField, z), (.badElemType, true)] none
    | some t =>
      accept [(.zeroField, z || (t.packOk && t.perLane == 2 && nz (fld w 9 1))), (.typeNotAccepted, !t.packOk),
          (.noBroadcast, fld w 4 1 == 1)]
        (some (.vunpk d a (fld w 8 2) t))
  | 0x18 => vec3 w ElemType.dotOk .vdot4
  | 0x19 => unary ElemType.scanOk .vscan
  | 0x20 => unary ElemType.floatOk .vrcp
  | 0x21 => unary ElemType.floatOk .vrsq
  | 0x22 => unary ElemType.floatOk .vsqrt
  | 0x23 => unary ElemType.floatOk .vexp2
  | 0x24 => unary ElemType.floatOk .vlog2
  | 0x25 => unary ElemType.floatOk .vtanh
  | 0x26 =>
    vec2 w ElemType.scanOk [(.unassignedSubop, (redOpOf (fld w 22 4).toNat).isNone)]
      (fun t => (redOpOf (fld w 22 4).toNat).map fun o => .vred o (fld w 20 2) a m t)
  | 0x27 =>
    match vec2 w ElemType.scanOk [] (fun t => some (.vdrain d (fld w 14 2) m t)) with
    | .ok i => accept [(.zeroField, nz (fld w 16 4))] (some i)
    | .error c => if nz (fld w 16 4) then .error .zeroField else .error c
  | _ => .error .unassignedMajor

/-- A word of slot VM (R61). -/
def decodeVm (w : W32) : Decoded :=
  let d : Reg := fld w 20 6
  let a : Reg := fld w 14 6
  let o : BitVec 9 := fld w 5 9
  let m : Reg3 := fld w 2 3
  let x := fld w 0 2
  match (fld w 26 6).toNat with
  | 0x01 => accept [(.zeroField, nz x)] (some (.vld d a o m))
  | 0x02 => accept [(.zeroField, nz x)] (some (.vst d a o m))
  | 0x03 => accept [(.zeroField, nz (fld w 1 1))] (some (.vldf d a o m (fld w 0 1 == 1)))
  | 0x04 => accept [(.zeroField, nz x)] (some (.vste d a o m))
  | 0x05 => .ok (.vldm d a o m (policyOf x))
  | 0x06 => .ok (.vstm d a o m (policyOf x))
  | 0x07 => accept [(.zeroField, nz (fld w 11 3))] (some (.vgath d a (fld w 5 6) m (policyOf x)))
  | 0x08 => accept [(.zeroField, nz (fld w 11 3))] (some (.vscat d a (fld w 5 6) m (policyOf x)))
  | 0x09 => accept [(.zeroField, nz (fld w 1 13))] (some (.feset d a (fld w 0 1 == 1)))
  | 0x0A => accept [(.zeroField, nz a || nz (fld w 10 4) || nz (fld w 0 5)), (.notStreamRegister, d.toNat < 56)]
      (some (.sbind d (fld w 9 1 == 1) (fld w 5 4)))
  | 0x0B => accept [(.zeroField, nz (fld w 0 20)), (.notStreamRegister, d.toNat < 56)] (some (.sfree d))
  | 0x0C => accept [(.zeroField, nz x), (.zeroCount, !nz (fld w 2 4))]
      (some (.hold (fld w 21 5) (fld w 16 5) (fld w 11 5) (fld w 6 5) (fld w 2 4)))
  | _ => .error .unassignedMajor

/-- A word of slot MX (R62, R63). -/
def decodeMatrix (w : W32) : Decoded :=
  let t : Reg2 := fld w 24 2
  let n : Reg3 := fld w 23 3
  match (fld w 26 6).toNat with
  | 0x01 =>
    let z := nz (fld w 0 8)
    let k := nz (fld w 10 2)
    match matTypeOf (fld w 15 3), matTypeOf (fld w 12 3) with
    | some x, some y =>
      accept [(.zeroField, z), (.badKind, k), (.typeNotAccepted, x.cls != y.cls)]
        (some (.mma t (fld w 21 3) (fld w 18 3) x y (fld w 9 1 == 1) (fld w 8 1 == 1)))
    | _, _ => accept [(.zeroField, z), (.badMatType, true)] none
  | 0x02 => accept [(.zeroField, nz (fld w 0 24))] (some (.tzero t))
  | 0x03 => accept [(.zeroField, nz (fld w 0 14))] (some (.tld t (fld w 18 6) (fld w 14 4)))
  | 0x04 => accept [(.zeroField, nz (fld w 0 14))] (some (.tst t (fld w 18 6) (fld w 14 4)))
  | 0x05 =>
    match matTypeOf (fld w 11 3) with
    | some x => accept [(.zeroField, nz (fld w 0 8))]
        (some (.tcvt t (fld w 18 6) (fld w 14 4) x (roundingOf (fld w 9 2)) (fld w 8 1 == 1)))
    | none => accept [(.zeroField, nz (fld w 0 8)), (.badMatType, true)] none
  | 0x06 => accept [(.zeroField, nz (fld w 0 11))] (some (.rdef n (fld w 17 6) (fld w 11 6)))
  | 0x07 => accept [(.zeroField, nz (fld w 0 15)), (.zeroCount, !nz (fld w 15 8))] (some (.rpush n (fld w 15 8)))
  | 0x08 => accept [(.zeroField, nz (fld w 0 17))] (some (.rstat n (fld w 17 6)))
  | 0x09 => accept [(.zeroField, nz (fld w 0 19))] (some (.scl (fld w 25 1 == 1) (fld w 19 6)))
  | _ => .error .unassignedMajor

/-- An atomic whose compare field and signed bit are zero fields (R65). -/
def atomic3 (w : W32) (f : Reg → Reg → Reg → Bool → Instr) : Decoded :=
  accept [(.zeroField, nz (fld w 2 6) || nz (fld w 0 1))]
    (some (f (fld w 20 6) (fld w 14 6) (fld w 8 6) (fld w 1 1 == 1)))

/-- `atmin` and `atmax`, which use the signed bit (R65). -/
def atomicS (w : W32) (f : Reg → Reg → Reg → Bool → Bool → Instr) : Decoded :=
  accept [(.zeroField, nz (fld w 2 6))]
    (some (f (fld w 20 6) (fld w 14 6) (fld w 8 6) (fld w 1 1 == 1) (fld w 0 1 == 1)))

/-- A word of slot EN (R64, R65). -/
def decodeEngine (w : W32) : Decoded :=
  let a : Reg := fld w 20 6
  let b : Reg := fld w 14 6
  let c : Reg := fld w 8 6
  match (fld w 26 6).toNat with
  | 0x01 => .ok (.copy a b (fld w 10 4) (fld w 6 4) (fld w 0 6))
  | 0x02 => accept [(.zeroField, nz (fld w 0 8))] (some (.bini a b c))
  | 0x03 => accept [(.zeroField, nz (fld w 0 13))] (some (.barv a b (fld w 13 1 == 1)))
  | 0x04 => accept [(.zeroField, nz (fld w 0 14))] (some (.bwait a b))
  | 0x05 =>
    let g : Option (Option Bool) := match (fld w 22 2).toNat with
      | 0 => some none | 1 => some (some false) | 2 => some (some true) | _ => none
    accept [(.zeroField, nz (fld w 0 21)), (.badGearOption, g.isNone)]
      (g.map fun g => .pbar (fld w 24 2) g (fld w 21 1 == 1))
  | 0x06 => atomic3 w .atadd
  | 0x07 => atomic3 w .atand
  | 0x08 => atomic3 w .ator
  | 0x09 => atomic3 w .atxor
  | 0x0A => atomicS w .atmin
  | 0x0B => atomicS w .atmax
  | 0x0C => atomic3 w .atswp
  | 0x0D => accept [(.zeroField, nz (fld w 0 1))] (some (.atcas a b c (fld w 2 6) (fld w 1 1 == 1)))
  | 0x0E => accept [(.zeroField, nz (fld w 0 11))] (some (.cadd a b (fld w 11 3)))
  | 0x0F =>
    let t := match elemTypeOf (fld w 8 4) with
      | some t => if t.rangeOk then some t else none
      | none => none
    let o := redOpOf (fld w 6 2).toNat
    accept [(.zeroField, nz (fld w 0 6)), (.badElemType, (elemTypeOf (fld w 8 4)).isNone), (.unassignedSubop, o.isNone),
        (.typeNotAccepted, t.isNone)]
      (match t, o with
        | some t, some o => some (.crng (fld w 24 2) (fld w 18 6) (fld w 12 6) t o)
        | _, _ => none)
  | 0x10 => accept [(.zeroField, nz (fld w 0 8))] (some (.rflush a b c))
  | 0x11 => accept [(.zeroField, nz (fld w 0 8))] (some (.rinv a b c))
  | 0x12 => accept [(.zeroField, nz (fld w 0 12))] (some (.pref a b (policyOf (fld w 12 2))))
  | _ => .error .unassignedMajor

/-- The word of slot k, 0 to 6, in the family of its slot (R22, R49). -/
def decodeSlot (k : Nat) (w : W32) : Decoded :=
  if w = 0 then .ok .nop
  else if fld w 26 6 = 0 then .error .zeroField
  else match k with
  | 0 => decodeScalar true w
  | 1 => decodeScalar false w
  | 2 => decodeVector true w
  | 3 => decodeVector false w
  | 4 => decodeVm w
  | 5 => decodeMatrix w
  | _ => decodeEngine w

/-- Schedule word, R25. -/
structure Sched where
  stall : BitVec 4
  wt    : BitVec 5
  guard : List (BitVec 3)
  reuseA : Bool
  reuseB : Bool
  deriving DecidableEq, Repr

/-- The schedule word of slot 7: every value is legal in itself (R25). -/
def decodeSched (w : W32) : Sched :=
  { stall := fld w 0 4, wt := fld w 4 5,
    guard := [fld w 9 3, fld w 12 3, fld w 15 3, fld w 18 3, fld w 21 3, fld w 24 3, fld w 27 3],
    reuseA := fld w 30 1 == 1, reuseB := fld w 31 1 == 1 }

/-- One bundle as sealed: the instructions of slots 0 to 6 and the schedule word. -/
structure Bundle where
  slots : List Instr
  sched : Sched
  deriving DecidableEq, Repr

/-- Slot words to instructions, in slot order from slot k; the first refused slot stops the reading (R39). -/
def decodeSlots (k : Nat) : List W32 → Except (Nat × SealCode) (List Instr)
  | [] => .ok []
  | w :: ws =>
    match decodeSlot k w with
    | .error c => .error (k, c)
    | .ok i =>
      match decodeSlots (k + 1) ws with
      | .error c => .error c
      | .ok is => .ok (i :: is)

/-- The eight words of a bundle (R22). The pair of a refusal names the slot. -/
def decodeBundle (ws : List W32) : Except (Nat × SealCode) Bundle :=
  match decodeSlots 0 (ws.take 7) with
  | .error c => .error c
  | .ok is => .ok { slots := is, sched := decodeSched (ws.getD 7 0) }

/-- The slots in the order in which a word without its slot is tried: C, S, VA, VB, VM, MX, EN. -/
def slotOfWord (w : W32) : Option (Nat × Instr) :=
  [0, 1, 2, 3, 4, 5, 6].findSome? fun k =>
    match decodeSlot k w with
    | .ok i => some (k, i)
    | .error _ => none

/-- The instruction that the decoder reads from a table word. The table's word does not say its slot, so the first slot
of `slotOfWord` that carries the word gives the instruction (log entry 2). -/
def decodeTableWord (nbits w : Nat) : Option Instr :=
  if nbits ≤ 32 ∧ w < 2 ^ nbits then (slotOfWord (BitVec.ofNat 32 w)).map (·.2) else none

/-! ### The words of an instruction -/

/-- A flag as one bit. -/
def bit (b : Bool) : BitVec 1 := if b then 1 else 0

/-- Format A: op, d, a, b, fn (R51). -/
def encA (op d a b : BitVec 6) (fn : BitVec 8) : W32 := op ++ d ++ a ++ b ++ fn
/-- Format I: op, d, a, imm14 (R51). -/
def encI (op d a : BitVec 6) (i : BitVec 14) : W32 := op ++ d ++ a ++ i
/-- Format L: op, d, imm20 (R51). -/
def encL (op d : BitVec 6) (i : BitVec 20) : W32 := op ++ d ++ i
/-- Format B: op, field, offset (R52). -/
def encB (op : BitVec 6) (f : BitVec 4) (o : BitVec 22) : W32 := op ++ f ++ o
/-- Format M: op, d, a, size, offset, policy (R53). -/
def encM (op d a : BitVec 6) (z : Bool) (o : BitVec 11) (p : Policy) : W32 := op ++ d ++ a ++ bit z ++ o ++ policyCode p
/-- Format V: op, d, a, b, m, fn (R53). -/
def encV (op d a b : BitVec 6) (m : Reg3) (br : Bool) (t : ElemType) : W32 :=
  op ++ d ++ a ++ b ++ m ++ bit br ++ elemTypeCode t
/-- Format V with a vector or broadcast second source (R59). -/
def encV3 (op d a : BitVec 6) (b : VSrc) (m : Reg3) (t : ElemType) : W32 :=
  match b with
  | .vec b => encV op d a b m false t
  | .scalar b => encV op d a b m true t
/-- Format VM: op, d, a, off9, m, x (R53). -/
def encVm (op d a : BitVec 6) (o : BitVec 9) (m : Reg3) (x : BitVec 2) : W32 := op ++ d ++ a ++ o ++ m ++ x
/-- The `alu` group: function and `.w` bit (R57). -/
def encAlu (d a b : BitVec 6) (w : Bool) (fn : BitVec 7) : W32 := (0x01 : BitVec 6) ++ d ++ a ++ b ++ bit w ++ fn
/-- A mask, predicate or latch number in a 6-bit field (R32). -/
def r3 (x : Reg3) : Reg := (0 : BitVec 3) ++ x
/-- An engine word of three `g` registers and eight further bits (R64). -/
def encE (op a b c : BitVec 6) (x : BitVec 8) : W32 := op ++ a ++ b ++ c ++ x
/-- A tile operation: tile, base, walk, target, rounding, saturation (R137). -/
def encT (op : BitVec 6) (t : Reg2) (g : Reg) (n : Reg4) (x : BitVec 3) (r : BitVec 2) (s : Bool) : W32 :=
  op ++ t ++ g ++ n ++ x ++ r ++ bit s ++ (0 : BitVec 8)
/-- An atomic (R65). -/
def encAt (op d a b c : BitVec 6) (w s : Bool) : W32 := op ++ d ++ a ++ b ++ c ++ bit w ++ bit s

/-- Slot word of an instruction, 0 for an event, which has none. -/
def encode : Instr → W32
  | .nop => 0
  | .add d a b w => encAlu d a b w 0x00
  | .sub d a b w => encAlu d a b w 0x01
  | .mul d a b w => encAlu d a b w 0x02
  | .mulh d a b w => encAlu d a b w 0x03
  | .div d a b w => encAlu d a b w 0x04
  | .rem d a b w => encAlu d a b w 0x05
  | .and d a b => encAlu d a b false 0x08
  | .or d a b => encAlu d a b false 0x09
  | .xor d a b => encAlu d a b false 0x0A
  | .andn d a b => encAlu d a b false 0x0B
  | .shl d a b w => encAlu d a b w 0x0C
  | .shr d a b w => encAlu d a b w 0x0D
  | .sra d a b w => encAlu d a b w 0x0E
  | .min d a b w => encAlu d a b w 0x10
  | .max d a b w => encAlu d a b w 0x11
  | .clz d a => encAlu d a 0 false 0x14
  | .popc d a => encAlu d a 0 false 0x15
  | .movGG d a => encAlu d a 0 false 0x18
  | .movMG d a => encAlu (r3 d) a 0 false 0x19
  | .movGM d a => encAlu d (r3 a) 0 false 0x1A
  | .sel d a b j => encAlu d a b false ((0x4 : BitVec 4) ++ j)
  | .cmp n a b w c => encAlu (r3 n) a b w ((0x8 : BitVec 4) ++ condCode c)
  | .addi d a i => encI 0x02 d a i
  | .li d i => encL 0x03 d i
  | .lih d i => encL 0x04 d i
  | .addr d a b s => encA 0x05 d a b ((0 : BitVec 5) ++ s)
  | .mand d a b => encA 0x06 (r3 d) (r3 a) (r3 b) 0
  | .mor d a b => encA 0x06 (r3 d) (r3 a) (r3 b) 1
  | .mnot d a => encA 0x06 (r3 d) (r3 a) 0 2
  | .mpop d a => encA 0x07 d (r3 a) 0 0
  | .mfirst d a => encA 0x08 d (r3 a) 0 0
  | .ld d a z o p => encM 0x09 d a z o p
  | .st d a z o p => encM 0x0A d a z o p
  | .lds d a i => encI 0x0B d a i
  | .sts d a i => encI 0x0C d a i
  | .ldf d a k o => encI 0x0D d a (bit k ++ o)
  | .ste d a o => encI 0x0E d a (bit false ++ o)
  | .br o => encB 0x10 0 o
  | .bc s n o => encB 0x11 (bit s ++ n) o
  | .call o => encB 0x12 0 o
  | .jr d a => encA 0x13 d a 0 0
  | .ret => encA 0x14 0 0 0 0
  | .loop o => encB 0x15 0 o
  | .lsetup a e r => encI 0x16 0 a (e ++ bit r ++ (0 : BitVec 10))
  | .wait l s c t => (0x17 : BitVec 6) ++ l ++ s ++ c ++ t ++ (0 : BitVec 10)
  | .fenceEng => encB 0x18 0 0
  | .fenceSysAcq => encB 0x18 1 0
  | .fenceSysRel => encB 0x18 2 0
  | .fenceSys => encB 0x18 3 0
  | .gear g w => (0x19 : BitVec 6) ++ bit g ++ bit w ++ (0 : BitVec 24)
  | .phase o i e m => (0x1A : BitVec 6) ++ o ++ i ++ e ++ m
  | .fmtsetImm n r => encI 0x1B ((0 : BitVec 4) ++ n) 0 r
  | .fmtsetReg n a => encI 0x1B ((8 : BitVec 4) ++ n) a 0
  | .time d => encL 0x1C d 0
  | .cycles d => encL 0x1D d 0
  | .done a => encA 0x1E 0 a 0 0
  | .yield => encA 0x1F 0 0 0 0
  | .park a b w => encA 0x20 0 a b ((0 : BitVec 7) ++ bit w)
  | .trap c => encL 0x21 0 c
  | .rdsr d n => encI 0x22 d 0 (sysRegNumber n)
  | .wrsr a n => encI 0x23 0 a (sysRegNumber n)
  | .brk c => encL 0x24 0 c
  | .vadd d a b m t => encV3 0x01 d a b m t
  | .vsub d a b m t => encV3 0x02 d a b m t
  | .vmul d a b m t => encV3 0x03 d a b m t
  | .vfma d a b m t => encV3 0x04 d a b m t
  | .vmin d a b m t => encV3 0x05 d a b m t
  | .vmax d a b m t => encV3 0x06 d a b m t
  | .vabs d a m t => encV 0x07 d a 0 m false t
  | .vneg d a m t => encV 0x08 d a 0 m false t
  | .vand d a b m t => encV3 0x09 d a b m t
  | .vor d a b m t => encV3 0x0A d a b m t
  | .vxor d a b m t => encV3 0x0B d a b m t
  | .vshl d a b m t => encV3 0x0C d a b m t
  | .vshr d a b m t => encV3 0x0D d a b m t
  | .vsra d a b m t => encV3 0x0E d a b m t
  | .vcmp c d a b m t => encV3 0x0F (vcondCode c ++ d) a b m t
  | .vsel d a b m t => encV3 0x10 d a b m t
  | .vmov d a m t => encV 0x11 d a 0 m false t
  | .vbcast d a l m t => encV 0x12 d a l m false t
  | .vperm d a b m t => encV3 0x13 d a b m t
  | .vrot d a n m t => encV 0x14 d a n m false t
  | .vcvt d a r s m q t => encV 0x15 d a (roundingCode r ++ elemTypeCode s) m q t
  | .vpack d a q r t => encV 0x16 d a ((0 : BitVec 3) ++ bit q ++ roundingCode r) 0 false t
  | .vunpk d a p t => encV 0x17 d a ((0 : BitVec 4) ++ p) 0 false t
  | .vdot4 d a b m t => encV3 0x18 d a b m t
  | .vscan d a m t => encV 0x19 d a 0 m false t
  | .vrcp d a m t => encV 0x20 d a 0 m false t
  | .vrsq d a m t => encV 0x21 d a 0 m false t
  | .vsqrt d a m t => encV 0x22 d a 0 m false t
  | .vexp2 d a m t => encV 0x23 d a 0 m false t
  | .vlog2 d a m t => encV 0x24 d a 0 m false t
  | .vtanh d a m t => encV 0x25 d a 0 m false t
  | .vred o n a m t => encV 0x26 (BitVec.ofNat 4 (redOpCode o) ++ n) a 0 m false t
  | .vdrain d n m t => encV 0x27 d ((0 : BitVec 4) ++ n) 0 m false t
  | .vld d a o m => encVm 0x01 d a o m 0
  | .vst d a o m => encVm 0x02 d a o m 0
  | .vldf d a o m k => encVm 0x03 d a o m (bit false ++ bit k)
  | .vste d a o m => encVm 0x04 d a o m 0
  | .vldm d a o m p => encVm 0x05 d a o m (policyCode p)
  | .vstm d a o m p => encVm 0x06 d a o m (policyCode p)
  | .vgath d a i m p => encVm 0x07 d a ((0 : BitVec 3) ++ i) m (policyCode p)
  | .vscat d a i m p => encVm 0x08 d a ((0 : BitVec 3) ++ i) m (policyCode p)
  | .feset d a f => encVm 0x09 d a 0 0 (bit false ++ bit f)
  | .sbind d w n => encVm 0x0A d 0 ((0 : BitVec 4) ++ bit w ++ n) 0 0
  | .sfree d => encVm 0x0B d 0 0 0 0
  | .hold a b c d n => (0x0C : BitVec 6) ++ a ++ b ++ c ++ d ++ n ++ (0 : BitVec 2)
  | .mma t a b x y z s =>
    (0x01 : BitVec 6) ++ t ++ a ++ b ++ matTypeCode x ++ matTypeCode y ++ (0 : BitVec 2) ++ bit z ++ bit s ++ (0 : BitVec 8)
  | .tzero t => encT 0x02 t 0 0 0 0 false
  | .tld t g n => encT 0x03 t g n 0 0 false
  | .tst t g n => encT 0x04 t g n 0 0 false
  | .tcvt t g n x r s => encT 0x05 t g n (matTypeCode x) (roundingCode r) s
  | .rdef n a b => (0x06 : BitVec 6) ++ n ++ a ++ b ++ (0 : BitVec 11)
  | .rpush n c => (0x07 : BitVec 6) ++ n ++ c ++ (0 : BitVec 15)
  | .rstat n d => (0x08 : BitVec 6) ++ n ++ d ++ (0 : BitVec 17)
  | .scl s a => (0x09 : BitVec 6) ++ bit s ++ a ++ (0 : BitVec 19)
  | .copy s d w v b => (0x01 : BitVec 6) ++ s ++ d ++ w ++ v ++ b
  | .bini a n k => encE 0x02 a n k 0
  | .barv a b r => (0x03 : BitVec 6) ++ a ++ b ++ bit r ++ (0 : BitVec 13)
  | .bwait a p => encE 0x04 a p 0 0
  | .pbar l g x =>
    (0x05 : BitVec 6) ++ l ++ (match g with | none => (0 : BitVec 2) | some false => 1 | some true => 2) ++ bit x
      ++ (0 : BitVec 21)
  | .atadd d a b w => encAt 0x06 d a b 0 w false
  | .atand d a b w => encAt 0x07 d a b 0 w false
  | .ator d a b w => encAt 0x08 d a b 0 w false
  | .atxor d a b w => encAt 0x09 d a b 0 w false
  | .atmin d a b w s => encAt 0x0A d a b 0 w s
  | .atmax d a b w s => encAt 0x0B d a b 0 w s
  | .atswp d a b w => encAt 0x0C d a b 0 w false
  | .atcas d a b c w => encAt 0x0D d a b c w false
  | .cadd v a m => (0x0E : BitVec 6) ++ v ++ a ++ m ++ (0 : BitVec 11)
  | .crng n b l t o =>
    (0x0F : BitVec 6) ++ n ++ b ++ l ++ elemTypeCode t ++ BitVec.ofNat 2 (redOpCode o) ++ (0 : BitVec 6)
  | .rflush a l b => encE 0x10 a l b 0
  | .rinv a l b => encE 0x11 a l b 0
  | .pref a l p => (0x12 : BitVec 6) ++ a ++ l ++ policyCode p ++ (0 : BitVec 12)
  | _ => 0

/-- A slot that carries an instruction: the lowest of its family; none for an event (R22, R56 to R65). -/
def slotOf : Instr → Option Nat
  | .nop | .add .. | .sub .. | .mul .. | .mulh .. | .div .. | .rem .. | .and .. | .or .. | .xor .. | .andn .. | .shl ..
  | .shr .. | .sra .. | .min .. | .max .. | .clz .. | .popc .. | .movGG .. | .movMG .. | .movGM .. | .sel .. | .cmp ..
  | .addi .. | .li .. | .lih .. | .addr .. | .mand .. | .mor .. | .mnot .. | .mpop .. | .mfirst .. | .br .. | .bc ..
  | .call .. | .jr .. | .ret | .loop .. | .lsetup .. | .wait .. | .fenceEng | .fenceSysAcq | .fenceSysRel | .fenceSys
  | .gear .. | .phase .. | .fmtsetImm .. | .fmtsetReg .. | .time .. | .cycles .. | .done .. | .yield | .park ..
  | .trap .. | .rdsr .. | .wrsr .. | .brk .. => some 0
  | .ld .. | .st .. | .lds .. | .sts .. | .ldf .. | .ste .. => some 1
  | .vadd .. | .vsub .. | .vmul .. | .vfma .. | .vmin .. | .vmax .. | .vabs .. | .vneg .. | .vand .. | .vor .. | .vxor ..
  | .vshl .. | .vshr .. | .vsra .. | .vcmp .. | .vsel .. | .vmov .. | .vbcast .. | .vperm .. | .vrot .. | .vcvt ..
  | .vpack .. | .vunpk .. | .vdot4 .. | .vscan .. => some 2
  | .vrcp .. | .vrsq .. | .vsqrt .. | .vexp2 .. | .vlog2 .. | .vtanh .. | .vred .. | .vdrain .. => some 3
  | .vld .. | .vst .. | .vldf .. | .vste .. | .vldm .. | .vstm .. | .vgath .. | .vscat .. | .feset .. | .sbind ..
  | .sfree .. | .hold .. => some 4
  | .mma .. | .tzero .. | .tld .. | .tst .. | .tcvt .. | .rdef .. | .rpush .. | .rstat .. | .scl .. => some 5
  | .copy .. | .bini .. | .barv .. | .bwait .. | .pbar .. | .atadd .. | .atand .. | .ator .. | .atxor .. | .atmin ..
  | .atmax .. | .atswp .. | .atcas .. | .cadd .. | .crng .. | .rflush .. | .rinv .. | .pref .. => some 6
  | _ => none

end Sys2Proof
end

