-- ==== Sys2Proof/Machine/Sparse.lean ====
section
/-! DEFINITION. Tables kept as lists of key and value, keys strictly rising. Reading an absent key gives the default, and
storing the default removes the entry, so that equal tables are equal lists. -/

namespace Sys2Proof.Machine

/-- A table: keys strictly rising. -/
abbrev Sparse (α : Type) := List (Nat × α)

/-- The entry of a key. -/
def Sparse.find {α : Type} : Sparse α → Nat → Option α
  | [], _ => none
  | (j, x) :: r, k => if j = k then some x else if k < j then none else Sparse.find r k

/-- The value at a key, or the default. -/
def Sparse.get {α : Type} (d : α) (m : Sparse α) (k : Nat) : α := (m.find k).getD d

/-- The table with an entry at a key. -/
def Sparse.put {α : Type} : Sparse α → Nat → α → Sparse α
  | [], k, x => [(k, x)]
  | (j, y) :: r, k, x =>
    if k < j then (k, x) :: (j, y) :: r
    else if k = j then (k, x) :: r
    else (j, y) :: Sparse.put r k x

/-- The table without a key. -/
def Sparse.erase {α : Type} : Sparse α → Nat → Sparse α
  | [], _ => []
  | (j, y) :: r, k => if k < j then (j, y) :: r else if k = j then r else (j, y) :: Sparse.erase r k

/-- Storing a value; the default removes the entry. -/
def Sparse.set {α : Type} [DecidableEq α] (d : α) (m : Sparse α) (k : Nat) (x : α) : Sparse α :=
  if x = d then m.erase k else m.put k x

/-- Keys strictly rising, all above `lo` where one is given. -/
def Sparse.risingFrom {α : Type} : Option Nat → Sparse α → Bool
  | _, [] => true
  | none, (j, _) :: r => Sparse.risingFrom (some j) r
  | some lo, (j, _) :: r => decide (lo < j) && Sparse.risingFrom (some j) r

/-- The canonical form: keys strictly rising and no entry equal to the default. -/
def Sparse.wf {α : Type} [DecidableEq α] (d : α) (m : Sparse α) : Bool :=
  Sparse.risingFrom none m && m.all (fun e => decide (e.2 ≠ d))

/-- A change of the entry at a key, for a table without a default. -/
def Sparse.adjust {α : Type} (m : Sparse α) (k : Nat) (f : α → α) : Sparse α :=
  match m.find k with
  | some x => m.put k (f x)
  | none => m

end Sys2Proof.Machine
end

