-- ==== Sys2Proof/Machine/State.lean ====
section
/-! DEFINITION. The state of the device as plain data: contexts, cores, memory and directories, continuations, the device's
own structures; the reasons a step can stop; and the state after reset. -/

namespace Sys2Proof.Machine

/-- Why the machine stops. -/
inductive Fault where
  /-- The pc of the issuing context lies in no sealed code segment of its image: raised by `step` when it fetches. The seal
  engine refuses images that could get there (E-12, E-29), and the spec gives such a fetch no effect. Safe. -/
  | fetchOutsideCode
  /-- A word at the pc is one that sealing refuses: raised by `step` when it fetches. Sealed memory holds accepted bundles
  only (R37), and the spec gives the issue of a refused word no effect. Safe. -/
  | refusedWord
  deriving DecidableEq, Repr

/-- No meaning for the instruction. -/
inductive Refusal where
  /-- An instruction that the model does not give a meaning yet: raised by `exec`. Safe. -/
  | notModelled (mnemonic : String)
  deriving DecidableEq, Repr

/-! ### Faults of a context -/

/-- The fault classes of R204. -/
inductive FaultClass where
  | translation | permission | poison | privilegedRegister | badValue | badFormat | badTarget | window | shape | range
  | stream | tile | ring | hold | copyLost | badLaunch | kennel
  deriving DecidableEq, Repr

/-- The intent of a translation (R199). -/
inductive Intent where
  | read | write | execute
  deriving DecidableEq, Repr

/-- The memory tiers (R198). -/
inductive Tier where
  | gddr | lpddr | host | peer
  deriving DecidableEq, Repr

/-- What a fault record says of one fault (R206), and whether it can be repaired (R205). `level` and `entry` are those of
the walk. -/
structure FaultInfo where
  cls : FaultClass
  addr : Nat
  intent : Option Intent
  slot : Nat
  replay : Nat
  ctx : Nat
  rank : Nat
  pc : Nat
  asid : Nat
  level : Nat
  entry : Nat
  repairable : Bool
  deriving DecidableEq, Repr

/-- What the instruction executed last in the focus slot asks of its bundle: nothing, a stall of the whole bundle (an
engine wait, R93), or a precise fault of a class with the address its record gives (R96). -/
inductive Signal where
  | none
  | waits
  | fault (cls : FaultClass) (addr : Nat)
  deriving DecidableEq, Repr

/-! ### What a context holds -/

/-- A stream bound to a register number (R114): the captured walk words 0 to 2 and start, the entries popped or pushed at
issue, the entries written, and the words read ahead, word i of entry j at key 64j + i (R119). -/
structure Stream where
  id : Nat
  writes : Bool
  w0 : W64
  w1 : W64
  w2 : W64
  start : W32
  taken : Nat
  written : Nat
  words : Sparse W32
  deriving DecidableEq, Repr

/-- What lands in a context by count (R89). A vector effect names the physical register and the lanes written. -/
inductive Effect where
  | g (r : Nat) (x : W64)
  | v (p : Nat) (mask : W64) (x : List W32)
  | m (r : Nat) (mask x : W64)
  | q (mask x : BitVec 8)
  | lc (x : W32)
  | ec (x : BitVec 8)
  | rb (x : BitVec 5)
  | fflags (x : BitVec 5)
  | raise (x : BitVec 5)
  | apeer (x : BitVec 20)
  | walk (i : Nat) (x : W64)
  | nf (n : Nat) (r : BitVec 14)
  | ps (n : Nat) (op : RedOp) (t : ElemType) (x : W32)
  | scale (side : Bool) (x : List Byte)
  | crng (n : Nat) (x : W64)
  | bind (x : Nat) (st : Stream)
  | unbind (x : Nat)
  | push (id : Nat) (x : List W32)
  | gear (run : Bool)
  deriving DecidableEq, Repr

/-- An entry of the landing buffer (R90): the count it waits for, its rank in program order, the effect. `held` marks a
variable-latency value that arrived behind an older fixed-latency write (R94). -/
structure Pending where
  due : Nat
  age : Nat
  eff : Effect
  held : Bool
  deriving DecidableEq, Repr

/-- Where a variable-latency value goes (R93): a `g` register, lanes of a physical `v` register, or a write stream. -/
inductive DeliverTo where
  | g (r : Nat)
  | v (p : Nat) (mask : W64)
  | push (id : Nat) (mask : W64)
  deriving DecidableEq, Repr

/-- A value on its way to a register whose busy bit it holds: the 64-bit or lane values that arrive. `load` says that it
counts in `OutLoads` (R95), `peer` that it is the old value of an atomic at a peer, before which no later access performs (R195), `lines`
how many requests it has outstanding (R97), `counter` which counter it reads (R330). -/
structure Deliver where
  dest : DeliverTo
  age : Nat
  value : List W64
  load : Bool
  peer : Bool
  lines : Nat
  counter : Option SysReg
  deriving DecidableEq, Repr

/-- The kinds of memory operation (R97). -/
inductive MemKind where
  | load
  | store
  | atomic (op : AtomicOp) (b c : W64) (peer : BitVec 20)
  | combine (t : ElemType) (op : RedOp)
  deriving DecidableEq, Repr

/-- One element of a memory operation: its lane, its virtual address, the data it stores. -/
structure Item where
  lane : Nat
  va : W64
  data : W64
  deriving DecidableEq, Repr

/-- One access in S (R140): the line and tier it translated to, and its elements with byte offsets in the line. -/
structure Access where
  line : Nat
  tier : Tier
  items : List (Nat × Nat × W64)
  deriving DecidableEq, Repr

/-- A memory operation between its issue and its retirement: what was captured at issue, the accesses left once its
translation is taken, the values its loads have fixed. `perLane` keeps one access per lane (R140); `cycle` is the core cycle of
its issue, by which the `cadd`s of a core combine (R88). -/
structure MemOp where
  kind : MemKind
  dest : Option DeliverTo
  width : Nat
  policy : Policy
  perLane : Bool
  items : List Item
  seq : Nat
  age : Nat
  cycle : Nat
  slot : Nat
  pc : Nat
  translated : Bool
  accesses : List Access
  got : List (Nat × W64)
  sent : Bool
  deriving DecidableEq, Repr

/-- An entry of the full/empty queue (R110): a take or keep into a destination, or a release of captured words. -/
structure FeEntry where
  load : Option DeliverTo
  keep : Bool
  words : List (Nat × Nat)
  data : List W32
  seq : Nat
  age : Nat
  deriving DecidableEq, Repr

/-- A `feset` whose wait is not over (R112): its words, and how many of them its steps have done; a halt stops it between
steps. -/
structure FesetLeft where
  addr : Nat
  words : Nat
  done : Nat
  full : Bool
  deriving DecidableEq, Repr

/-- An open bank hold window (R120): the core banks, the bundles left, the core cycles since, and the sequence below which full/empty
entries were queued before the window (R121). -/
structure HoldWindow where
  banks : List Nat
  left : Nat
  cycles : Nat
  entries : Nat
  deriving DecidableEq, Repr

/-- A `pbar` that its context waits in (R191, R192). `raised` says that the dropped requests of its pack stand again, so that release waits
for the cores only (R245). -/
structure PbarWait where
  level : Nat
  nth : Nat
  gear : Option Bool
  drop : Bool
  gate : Nat
  arrived : Bool
  raised : Bool
  released : Bool
  deriving DecidableEq, Repr

/-- A `park` that its context waits in (R321), with its place in program order. -/
structure ParkWait where
  seq : Nat
  va : W64
  width : Nat
  expected : W64
  seen : Bool
  asleep : Bool
  line : Nat
  since : Nat
  pc : Nat
  deriving DecidableEq, Repr

/-- A `pref` that waits for the gate of a `fence.eng` (R148, R153, R196), with the timestamp captured at its issue. -/
structure PrefWait where
  va : W64
  bytes : Nat
  policy : Policy
  pts : Nat
  gate : Nat
  deriving DecidableEq, Repr

/-- A `barv` whose update has not taken place (R188). -/
structure Barv where
  addr : Nat
  bytes : Nat
  arrive : Bool
  gate : Nat
  deriving DecidableEq, Repr

/-- A declared power phase (R252): core cycles left before its start, its length left, its intensity, the stagger. -/
structure PhaseDecl where
  onset : Nat
  left : Nat
  intensity : Nat
  stagger : Nat
  deriving DecidableEq, Repr

/-- A halt in a host call, a device trap or `brk` (R222): the code as the state line gives it. -/
structure CallInfo where
  code : Nat
  deriving DecidableEq, Repr

/-- A ring descriptor (R126). -/
structure Ring where
  base : Nat
  cap : Nat
  head : BitVec 32
  tail : BitVec 32
  deriving DecidableEq, Repr

/-- The energy account of a context (R250). -/
structure Energy where
  step : Nat
  declared : Nat
  measured : Nat
  windows : Nat
  quiet : Nat
  index : Nat
  deriving DecidableEq, Repr

/-- The register files of a context (R31, R35). An absent latch of `ps` is empty. -/
structure Regs where
  g : Sparse W64
  v : Sparse (List W32)
  m : Sparse W64
  q : BitVec 8
  lc : W32
  ec : BitVec 8
  rb : BitVec 5
  fflags : BitVec 5
  apeer : BitVec 20
  pack : W64
  pack3 : W64
  image : W64
  nf : Sparse (BitVec 14)
  ps : Sparse W32
  walks : Sparse W64
  rings : Sparse Ring
  scaleA : Sparse Byte
  scaleB : Sparse Byte
  crng : Sparse W64
  reusemiss : Nat
  undecl : Nat
  emis : Nat
  deriving DecidableEq, Repr

/-- The matrix operations (R125), with what they captured (R134). -/
inductive MatKind where
  | mma (ringA ringB : Nat) (a b : MatType) (ra rb : BitVec 14) (zero scaled : Bool) (sa sb : Sparse Byte)
  | tzero
  | tld
  | tst
  | tcvt (t : MatType) (rec : BitVec 14) (rm : Rounding) (sat : Bool)
  deriving DecidableEq, Repr

/-- An entry of the matrix queue (R130): its hardware context, its logical tile, what it captured. Once started it has the core cycles of the
step that runs and those left of it, the steps completed (R139), the array cycles used (R254), the intensity that covers it, 0 for none, as
decided at the start (R253), its charge a cycle (R246), and the flags of the rows converted so far (R138). -/
structure MatOp where
  ctx : Nat
  tile : Nat
  kind : MatKind
  start : Nat
  walk : List W64
  age : Nat
  started : Bool
  running : Bool
  left : Nat
  step : Nat
  done : Nat
  used : Nat
  rate : Nat
  charge : Nat
  flags : BitVec 5
  deriving DecidableEq, Repr

/-- What waits in a context: engine waits, operations in flight, streams. -/
structure Work where
  landing : List Pending
  memOps : List MemOp
  replay : List MemOp
  delivers : List Deliver
  feq : List FeEntry
  feset : Option FesetLeft
  streams : List Stream
  binds : Sparse Nat
  nextStream : Nat
  hold : Option HoldWindow
  holdFault : Bool
  bwait : Option (Nat × Bool)
  pbar : Option PbarWait
  park : Option ParkWait
  gearWait : Bool
  gate : Nat
  barvs : List Barv
  prefs : List PrefWait
  frozen : List MatOp
  deriving DecidableEq, Repr

/-- A hardware context that holds a context of a continuation. `count` is the issue-cycle count of its next bundle, which it reaches when
the core cycles of `stallLeft` are over, the last `span` of which count (R26); `tried` says that its next bundle has stalled in this core
cycle (R93). -/
structure Ctx where
  regs : Regs
  work : Work
  cont : Nat
  rank : Nat
  base : Nat
  winLog : Nat
  tiles : List Nat
  pc : W64
  count : Nat
  retired : Nat
  branchTo : Option W64
  stallLeft : Nat
  span : Nat
  tried : Bool
  fault : Option FaultInfo
  call : Option CallInfo
  ended : Option W64
  halted : Bool
  started : Bool
  gearReq : Bool
  dropped : Bool
  phase : Option PhaseDecl
  phaseAt : Nat
  energy : Energy
  vecSince : Option Nat
  runCycles : Nat
  pts : Nat
  ptsTicks : Nat
  pbarCount : Sparse Nat
  ffDue : Nat
  ffAge : Nat
  lost : Option FaultInfo
  deriving DecidableEq, Repr

/-! ### What a core holds -/

/-- The engine commands that a channel carries (R180, R172). -/
inductive CopyKind where
  | copy
  | flush
  | inv
  deriving DecidableEq, Repr

/-- An engine command in progress on one channel (R180): its issuer, captured walks and bases, the barrier object, the
bytes landed as ranges, the bytes counted, the gate of `fence.eng`, a fault found. -/
structure Channel where
  kind : CopyKind
  ctx : Nat
  cont : Nat
  rank : Nat
  asid : Nat
  src : List W64
  dst : List W64
  srcBase : Nat
  dstBase : Nat
  bar : Nat
  total : Nat
  landed : List (Nat × Nat)
  counted : Nat
  gate : Nat
  pc : Nat
  stopped : Bool
  deriving DecidableEq, Repr

/-- A counting update on its way to a barrier object (R182): the context whose window holds the object, its offset there, the
bytes it adds, the timestamp of their writes, and the channel of its core that they came by. -/
structure CountMsg where
  cont : Nat
  rank : Nat
  off : Nat
  bytes : Nat
  ts : Nat
  chan : Nat
  deriving DecidableEq, Repr

/-- Who asks an engine port for a bank (R107): a context's full/empty queue, a stream of a context by register number, a push of a
context by its age, the matrix array, a copy by core and channel, the counts of a core's copies, a context's `barv`s, a peer device. -/
inductive PortUser where
  | entry (h : Nat)
  | stream (h reg : Nat)
  | push (h age : Nat)
  | matrix
  | copy (c ch : Nat)
  | count (c : Nat)
  | barv (h : Nat)
  | peer (src : Nat)
  deriving DecidableEq, Repr

/-- A request that waits at the engine port (R107, R121): its requester, its banks, the core cycle of its arrival. -/
structure PortWait where
  user : PortUser
  banks : List Nat
  since : Nat
  deriving DecidableEq, Repr

/-- A scratchpad write held in the staging buffer during a changeover pause (R244). -/
structure Staged where
  addr : Nat
  data : List Byte
  deriving DecidableEq, Repr

/-- The operand latch of slot VA or VB (R29): the context and physical register read, and whether no write to it has
landed since. -/
structure OperandLatch where
  cont : Nat
  rank : Nat
  reg : Nat
  fresh : Bool
  value : List W32
  deriving DecidableEq, Repr

/-- One core: gear and settling (R240 to R244), energy window (R246 to R249), bark (R256), issue (R232), engines. `long` says
that the current cycle is a stretched one; `port` lists the banks whose engine port has served a request in it, `portWaits` the requests
that wait, `portLast` the number of the requester served last (R107, R121). -/
structure Core where
  run : Bool
  settling : Option Bool
  readying : Nat
  pause : Nat
  cycleLeft : Nat
  long : Bool
  cycles : Nat
  issued : Bool
  lastPos : Nat
  rotated : Bool
  grant : Nat
  nextGrant : Nat
  sum : Nat
  stalled : Bool
  windowCycle : Nat
  charges : List Nat
  stretch : Nat
  halve : Nat
  halveOwed : Bool
  barkOwed : Bool
  queue : List MatOp
  channels : Sparse Channel
  counts : List CountMsg
  staging : List Staged
  latchA : Option OperandLatch
  latchB : Option OperandLatch
  port : List Nat
  portWaits : List PortWait
  portLast : Nat
  fenced : Bool
  gated : Bool
  deriving DecidableEq, Repr

/-! ### Memory, directories, caches, translations -/

/-- The states of a home directory entry (R161). The owner of `E` is a die 0 to 3, or 4 for the engine of the home die.
Sharers and partial holders are bits for dies 0 to 3; bit 4 is the host. -/
inductive HomeState where
  | untracked
  | tracked (sharers : BitVec 5)
  | owned (owner : Nat)
  | ownedByHost
  | partials (dies : BitVec 5) (t : ElemType) (op : RedOp)
  deriving DecidableEq, Repr

/-- A home directory entry, or the proxy entry of a host-homed line (R161, R155). -/
structure DirEntry where
  state : HomeState
  wts : Nat
  rts : Nat
  poison : Bool
  watched : Bool
  deriving DecidableEq, Repr

/-- The states of a cached copy (R162): leased, tracked, owned clean, owned dirty, partial, host-dirty. -/
inductive CopyState where
  | leased | shared | owned | modified | combining (t : ElemType) (op : RedOp) | hostDirty
  deriving DecidableEq, Repr

/-- A copy of a line in an L1, an L2 or an engine: data, timestamps (of a lease: `rts` is its expiry), word mask; of a
partial: `wts` is `tsmax` and `rts` the granted one. -/
structure Copy where
  state : CopyState
  data : BitVec 512
  mask : BitVec 16
  wts : Nat
  rts : Nat
  deriving DecidableEq, Repr

/-- A TLB entry (R200): holder 0 to 255 a core, 256 to 259 a die; the span it covers, the leaf it came from. -/
structure TlbEntry where
  holder : Nat
  asid : Nat
  base : Nat
  span : Nat
  frame : Nat
  level : Nat
  leaf : W64
  deriving DecidableEq, Repr

/-- A walk-cache entry (R200): the table that a non-leaf entry at `level` names for the addresses of a span. -/
structure WalkEntry where
  asid : Nat
  level : Nat
  base : Nat
  table : Nat
  deriving DecidableEq, Repr

/-- Memory, scratchpads, tiles, and everything that caches or tracks them. Device physical addresses lie below 2^52; a
host physical address a is the key 2^52 + a. `released` holds, for a barrier object or full/empty word of a core, the timestamps
that its last flip or fill carries to an observer, and those counted since (R111, R150); `engineUse` the lines that engines used,
the last one first (R194). -/
structure Store where
  mem : List Host.Cell
  scratch : Sparse W32
  full : Sparse Bool
  marks : List Nat
  released : Sparse (Nat × Nat)
  tiles : Sparse (List W32)
  dirs : Sparse DirEntry
  copies : Sparse Copy
  tlbs : List TlbEntry
  walks : List WalkEntry
  engineUse : List Nat
  deriving DecidableEq, Repr

/-! ### Continuations and the device's own structures -/

/-- The states of a continuation (R212). -/
inductive ContState where
  | idle | waiting | queued | running | parked | faulted | done | killed
  deriving DecidableEq, Repr

/-- What a halt is for (R231): pre-emption for a waiting continuation, PARK and KILL with the sequence they acknowledge, the
watchdog, a rebase. -/
inductive HaltFor where
  | preempt (waiting : Nat)
  | park (ack : Nat)
  | kill (ack : Option Nat)
  | watchdog
  | rebase
  deriving DecidableEq, Repr

/-- One core of a gang: the core, positions, window bases, tiles per context (R227). -/
structure Seat where
  core : Nat
  positions : List Nat
  bases : List Nat
  tiles : List (List Nat)
  deriving DecidableEq, Repr

/-- What a continuation holds on a core: positions, windows by base and size, tiles. -/
structure Room where
  positions : List Nat
  windows : List (Nat × Nat)
  tiles : List Nat
  deriving DecidableEq, Repr

/-- What the launch line and image gave a continuation at START (R213, R216). -/
structure Launch where
  image : W64
  entry : Nat
  contexts : Nat
  perCore : Nat
  gear : Bool
  tether : Bool
  shared : Bool
  priority : Nat
  watchdog : Nat
  winLog : Nat
  tiles : Nat
  asid : Nat
  pack : Nat
  l3index : Nat
  l3count : Nat
  sealed : Nat
  args : List W64
  waits : List (W64 × W64)
  waitLines : List Nat
  deriving DecidableEq, Repr

/-- A part that a kennel save has moved out (R235): a context, a window with its full/empty bits, marks and release timestamps, tiles. -/
inductive KennelPart where
  | ctx (rank : Nat) (c : Ctx)
  | window (seat pos : Nat) (words : Sparse W32) (full : Sparse Bool) (marks : List Nat) (released : Sparse (Nat × Nat))
  | tile (rank logical : Nat) (rows : Sparse (List W32))
  deriving DecidableEq, Repr

/-- A save in a kennel slot: first byte, length, and the digest of its bytes (R236). -/
structure KennelSave where
  first : Nat
  len : Nat
  digest : List Byte
  deriving DecidableEq, Repr

/-- A registered control block and its continuation (R209, R212), by registry index. `placing` says that the saves its placement
needs are not complete, and whether it is its first; `leaving` are the seats whose state is still to be saved (R235, R236); `reserved` is the
room that victims have given up for it, by victim and core (R230, R377); `endTop` is the greatest timestamp of its ended contexts (R151);
`raised3` and `settled3` are the numbers of the last `pbar 3` at which another device said so, and `sentRaised` and `sentSettled` those at
which this one did (R245). -/
structure Cont where
  block : Nat
  state : ContState
  ineligible : Bool
  faultPending : Bool
  callPending : Bool
  kennelled : Bool
  result : Nat
  cause : Nat
  ack : Nat
  exit : W64
  faults : Nat
  code : Nat
  callRank : Nat
  launch : Launch
  bundles : Nat
  parks : Nat
  undecl : Nat
  emis : Nat
  copyFaults : Nat
  seats : List Seat
  leaving : List Seat
  placing : Option Bool
  halt : Option HaltFor
  queuedAge : Nat
  boost : Nat
  boostAge : Nat
  residentAge : Nat
  blocking : Bool
  reserved : List (Nat × Nat × Room)
  clock : Nat
  clockOn : Bool
  stage : Nat
  stageAge : Nat
  faultQueue : List Nat
  faultOf : Option Nat
  callQueue : List Nat
  callOf : Option Nat
  kennel : List KennelPart
  kennelAddr : Nat
  kennelSaves : List KennelSave
  ended : List Nat
  endTop : Nat
  exitSeen : W64
  pollAge : Nat
  arrivals3 : Sparse Arrival3
  signals3 : Nat
  raised3 : Sparse Nat
  settled3 : Sparse Nat
  sentRaised : Nat
  sentSettled : Nat
  deriving DecidableEq, Repr

/-- A resident sealed copy (R17): its seal, the segments' code words by word address, the code ranges, the image's scratch
bytes, walk and ring records, entry. -/
structure SealedCopy where
  digest : List Byte
  code : Sparse W32
  ranges : List (Nat × Nat)
  scratch : List Byte
  walkMask : Nat
  walks : List W64
  ringMask : Nat
  rings : List W64
  entry : Nat
  deriving DecidableEq, Repr

/-- What the configuration record sets (R268). -/
structure Record where
  device : BitVec 20
  lease : Nat
  droop : List W64
  budget : Nat
  shares : List Nat
  sealedSize : Nat
  ports : BitVec 16
  deriving DecidableEq, Repr

/-- One die's power account (R248, R258): the units spent in this microsecond and in the one before, the budget, when it last set the
grants. -/
structure Die where
  spent : Nat
  last : Nat
  budget : Nat
  leashAge : Nat
  deriving DecidableEq, Repr

/-- What leaves the device: interrupts, notices to the management controller, replies to the host, fabric messages. -/
inductive Output where
  | interrupt (vector : Nat)
  | management (kind : Nat)
  | hostData (pa : Nat) (data : List Byte) (poisoned : Bool)
  | hostError (pa : Nat)
  | hostOld (pa : Nat) (old : W64)
  | backInvalidate (line : Nat)
  | copyWrite (dev space packId core pos addr barrier : Nat) (data : List Byte)
  | signal (dev packId core pos barrier bytes : Nat) (fault : Option Nat)
  | acknowledge (dev packId core pos barrier bytes : Nat)
  | arrival (packId : Nat) (level3 : Arrival3)
  | atomic (dev tag pa : Nat) (op : AtomicOp) (width : Nat) (b c : W64)
  | response (dev tag : Nat) (error : Bool) (old : W64)
  | error (dev : Nat) (cls : Nat)
  deriving DecidableEq, Repr

/-- The answer of a peer to an atomic of a context (R195, R267): the device, the continuation, rank and age of the atomic, whether it is an
error response, the old value. -/
structure PeerAnswer where
  src : Nat
  cont : Nat
  rank : Nat
  age : Nat
  error : Bool
  old : W64
  deriving DecidableEq, Repr

/-- A message of a peer that has reached the device (R267): a write, an arrival or count signal, an atomic, the answer to one. -/
inductive FabricMsg where
  | write (w : FabricWrite)
  | signal (m : BarrierSignal)
  | atomic (r : PeerAtomic)
  | answer (a : PeerAnswer)
  deriving DecidableEq, Repr

/-- A die's report on one of its cores (R226): bits of the free positions, banks and tiles, the gear, the fence. -/
structure Report where
  positions : BitVec 4
  banks : BitVec 32
  tiles : BitVec 4
  run : Bool
  fenced : Bool
  deriving DecidableEq, Repr

/-- A notice that its load of the target has not sent yet (R221): the block, the notice word. -/
structure Notice where
  block : Nat
  word : W64
  deriving DecidableEq, Repr

/-- What the distributor has begun and a line that the host must first give up holds back, so that it follows in order (R164): a write of
bytes, an interrupt. -/
inductive DevAct where
  | write (pa : Nat) (data : List Byte)
  | interrupt (vector : Nat)
  deriving DecidableEq, Repr

/-- An arrival at a `pbar 3` of a pack that no continuation here has started yet (R191): pack, device, what arrived. -/
structure EarlyArrival where
  packId : Nat
  src : Nat
  level3 : Arrival3
  deriving DecidableEq, Repr

/-- Where a peer's copy counts its bytes: device, pack, core, position, barrier offset (R177, R182). -/
structure PeerObject where
  src : Nat
  packId : Nat
  core : Nat
  pos : Nat
  barrier : Nat
  deriving DecidableEq, Repr

/-- Bytes of a peer's copies that were refused and are not counted yet (R183): their object, how many a signal is still to name, and how many
signals have named. -/
structure RefusedBytes where
  object : PeerObject
  unnamed : Nat
  named : Nat
  deriving DecidableEq, Repr

/-- The distributor, the device control block and the links. `reports` are those last sent, by core; `fabricIn` the messages of
peers that wait, oldest first; `early` the arrivals of packs not started yet; `refused` the bytes of peers' copies that were not written and are
not counted (R183); `acts` what a line of the host holds back; `passDue` a pass that waits for such a line. -/
structure Device where
  boot : Nat
  record : Record
  gddr : Nat
  lpddr : Nat
  dcb : Nat
  registry : Nat
  roots : Nat
  errorLog : Nat
  errorNext : Nat
  errorSeq : Nat
  faultWrite : Nat
  conts : Sparse Cont
  images : Sparse SealedCopy
  commandWakes : List Nat
  registryWakes : List Nat
  waitWakes : List Nat
  shootWake : Bool
  shootBusy : Option (Nat × List (Nat × Nat × Nat))
  shootSeen : Nat
  sealWake : Bool
  sealBusy : Option (Nat × Nat)
  sealSeen : Nat
  attestWake : Bool
  attestSeen : Nat
  hostSilent : Bool
  hostCount : W64
  hostAge : Nat
  beats : Nat
  beatAge : Nat
  largest : Nat
  rebase : Bool
  hostWrites : List (Nat × Nat)
  backInv : List Nat
  hdmGddr : Nat
  hdmLpddr : Nat
  notices : List Notice
  fabricIn : List FabricMsg
  early : List EarlyArrival
  refused : List RefusedBytes
  acts : List DevAct
  passDue : Bool
  reports : Sparse Report
  dies : Sparse Die
  tokenAge : Nat
  blank : Sparse Nat
  idle : Nat
  idleAge : Nat
  hostQuiet : Nat
  outputs : List Output
  deriving DecidableEq, Repr

/-- What moves next: an event of the table, the issue of a context's next bundle, or half a reference tick of time. -/
inductive Move where
  | event (i : Instr)
  | issue (h : Nat)
  | tick
  deriving DecidableEq, Repr

/-- The whole device. `focus` is the hardware context and slot that the instruction executed next belongs to; `signal` what
it answered; `agenda` which agents move next, before the default order (log entry 3). `refHalf` counts half reference
ticks since device reset. -/
structure State where
  focusCtx : Nat
  focusSlot : Nat
  signal : Signal
  agenda : List Move
  refHalf : Nat
  ctxs : Sparse Ctx
  cores : Sparse Core
  store : Store
  dev : Device
  deriving DecidableEq, Repr

/-! ### After reset -/

/-- Registers at placement (R31, R35, R100). -/
def Regs.placed : Regs :=
  { g := [], v := [], m := [], q := 0, lc := 0, ec := 0, rb := 0, fflags := 0, apeer := 0, pack := 0, pack3 := 0, image := 0,
    nf := [], ps := [], walks := [], rings := [], scaleA := [], scaleB := [], crng := [], reusemiss := 0, undecl := 0,
    emis := 0 }

/-- Nothing in flight. -/
def Work.empty : Work :=
  { landing := [], memOps := [], replay := [], delivers := [], feq := [], feset := none, streams := [], binds := [],
    nextStream := 0, hold := none, holdFault := false, bwait := none, pbar := none, park := none, gearWait := false,
    gate := 0, barvs := [], prefs := [], frozen := [] }

/-- The energy account at placement (R100). -/
def Energy.zero : Energy := { step := 0, declared := 0, measured := 0, windows := 0, quiet := 0, index := 0 }

/-- A context at its first placement, before its launch values are loaded (R31, R100). -/
def Ctx.placed : Ctx :=
  { regs := .placed, work := .empty, cont := 0, rank := 0, base := 0, winLog := 16, tiles := [], pc := 0, count := 0,
    retired := 0, branchTo := none, stallLeft := 0, span := 1, tried := false, fault := none, call := none, ended := none, halted := false,
    started := true, gearReq := false, dropped := false, phase := none, phaseAt := 0, energy := .zero, vecSince := none, runCycles := 0,
    pts := 0, ptsTicks := 0, pbarCount := [], ffDue := 0, ffAge := 0, lost := none }

/-- A core out of device reset: in HEEL, without grant (R240, R248), 5 half ticks a cycle. That its round of contexts begins with position 0 is a
DESIGN CHOICE (log entry 101). -/
def Core.atReset : Core :=
  { run := false, settling := none, readying := 0, pause := 0, cycleLeft := 5, long := false, cycles := 0, issued := false, lastPos := 3,
    rotated := false, grant := 0, nextGrant := 0, sum := 0, stalled := false, windowCycle := 0, charges := [],
    stretch := 0, halve := 0, halveOwed := false, barkOwed := false, queue := [], channels := [], counts := [],
    staging := [], latchA := none, latchB := none, port := [], portWaits := [], portLast := 0, fenced := false, gated := false }

/-- Directory entry after bring-up: `U` with timestamps 0 (R268). -/
def DirEntry.clear : DirEntry := { state := .untracked, wts := 0, rts := 0, poison := false, watched := false }

/-- Stores after bring-up: memory with nothing listed, every directory entry clear, every cache empty (R268). -/
def Store.empty : Store :=
  { mem := [], scratch := [], full := [], marks := [], released := [], tiles := [], dirs := [], copies := [], tlbs := [], walks := [],
    engineUse := [] }

/-- No launch yet. -/
def Launch.none : Launch :=
  { image := 0, entry := 0, contexts := 1, perCore := 1, gear := false, tether := false, shared := false, priority := 0,
    watchdog := 0, winLog := 16, tiles := 0, asid := 0, pack := 0, l3index := 0, l3count := 0, sealed := 0, args := [],
    waits := [], waitLines := [] }

/-- A control block just registered: IDLE, acknowledged sequence 0, fault count 0 (R210). -/
def Cont.idle (block : Nat) : Cont :=
  { block := block, state := .idle, ineligible := false, faultPending := false, callPending := false, kennelled := false,
    result := 0, cause := 0, ack := 0, exit := 0, faults := 0, code := 0, callRank := 0, launch := .none, bundles := 0,
    parks := 0, undecl := 0, emis := 0, copyFaults := 0, seats := [], leaving := [], placing := none, halt := none, queuedAge := 0, boost := 0, boostAge := 0,
    residentAge := 0, blocking := false, reserved := [], clock := 0, clockOn := false, stage := 0, stageAge := 0,
    faultQueue := [], faultOf := none, callQueue := [], callOf := none, kennel := [], kennelAddr := 0,
    kennelSaves := [], ended := [], endTop := 0, exitSeen := 0, pollAge := 0, arrivals3 := [], signals3 := 0,
    raised3 := [], settled3 := [], sentRaised := 0, sentSettled := 0 }

/-- The record's defaults (R268): `Lease` 32, 40 mV and W = 32 in each quadrant; the fields without a default are the
model's (log entry 4). -/
def Record.defaults : Record :=
  { device := 0, lease := 32, droop := List.replicate 16 (BitVec.ofNat 64 (32 * 1024 + 40)), budget := 4194304,
    shares := List.replicate 4 1048576, sealedSize := 67108864, ports := 0xFFFF }

/-- The device once bring-up has set boot status 1 (R268), with the model's places for its structures (log entry 5). -/
def Device.booted : Device :=
  { boot := 1, record := .defaults, gddr := 128000000000, lpddr := 768000000000, dcb := 0x10000,
    registry := 0x100000, roots := 0x200000, errorLog := 0x20000, errorNext := 0, errorSeq := 0, faultWrite := 0,
    conts := [], images := [], commandWakes := [], registryWakes := [], waitWakes := [],
    shootWake := false, shootBusy := none, shootSeen := 0, sealWake := false, sealBusy := none, sealSeen := 0, attestWake := false,
    attestSeen := 0,
    hostSilent := false, hostCount := 0, hostAge := 0, beats := 0, beatAge := 0, largest := 0, rebase := false,
    hostWrites := [], backInv := [], hdmGddr := 0x400000000000, hdmLpddr := 0x500000000000, notices := [], fabricIn := [], early := [],
    refused := [], acts := [], passDue := false,
    reports := [], dies := [], tokenAge := 0, blank := [], idle := 0, idleAge := 0, hostQuiet := 0,
    outputs := [] }

/-- The machine right after device reset and bring-up: no context resident, nothing registered, memory with nothing
listed, every core in HEEL (R240, R268). -/
def State.reset : State :=
  { focusCtx := 0, focusSlot := 0, signal := .none, agenda := [], refHalf := 0, ctxs := [], cores := [], store := .empty,
    dev := .booted }

end Sys2Proof.Machine
end

