-- ==== Sys2Proof/Machine/Memory.lean ====
section
/-! DEFINITION. Device and host memory by bytes and lines, the scratchpads by words, full/empty bits and barrier marks. -/

namespace Sys2Proof.Machine

/-- The little-endian bytes of a number. -/
def leBytes : Nat → Nat → List Byte
  | 0, _ => []
  | n + 1, x => BitVec.ofNat 8 x :: leBytes n (x / 256)

/-- The number of little-endian bytes. -/
def ofLeBytes : List Byte → Nat
  | [] => 0
  | b :: bs => b.toNat + 256 * ofLeBytes bs

/-- The fields of the device control block that are not zero after bring-up: offset, size, value (R265). -/
def dcbFields : List (Nat × Nat × Nat) :=
  [(0x0000, 8, 0x4B344443425F5631), (0x0008, 8, Device.booted.registry), (0x0010, 8, Device.booted.roots),
    (0x0018, 8, Device.booted.errorLog), (0x0024, 4, Record.defaults.lease), (0x0030, 8, Device.booted.gddr),
    (0x0038, 8, Device.booted.lpddr), (0x00F0, 8, Device.booted.gddr - Record.defaults.sealedSize),
    (0x00F8, 8, Record.defaults.sealedSize)]

/-- The byte at an offset among fields. -/
def fieldByte : List (Nat × Nat × Nat) → Nat → Byte
  | [], _ => 0
  | (o, n, x) :: fs, a => if o ≤ a ∧ a < o + n then BitVec.ofNat 8 (x / 256 ^ (a - o)) else fieldByte fs a

/-- What a byte of memory that nothing has written reads as: the device control block as bring-up builds it (R268), and 0
elsewhere (log entry 6). -/
def initialByte (a : Nat) : Byte :=
  if Device.booted.dcb ≤ a ∧ a < Device.booted.dcb + 0x200 then fieldByte dcbFields (a - Device.booted.dcb) else 0

/-- One byte of memory. -/
def memRead (m : List Host.Cell) (a : Nat) : Byte := (Sparse.find m a).getD (initialByte a)

/-- Whether an offset of the device control block holds a field; the other bytes are reserved and read zero (R265). -/
def dcbField (o : Nat) : Bool :=
  [(0x0, 0x2C), (0x30, 0x100), (0x100, 0x108), (0x400, 0x800), (0x1000, 0x1040)].any fun r => decide (r.1 ≤ o) && decide (o < r.2)

/-- Whether a line is one of the 16 KiB of the device control block. -/
def isDcbLine (line : Nat) : Bool := decide (Device.booted.dcb / 64 ≤ line) && decide (line < Device.booted.dcb / 64 + 256)

/-- Whether a byte of memory is a reserved one of the device control block (R265). -/
def isReserved (a : Nat) : Bool := isDcbLine (a / 64) && !dcbField (a - Device.booted.dcb)

/-- Storing one byte; a byte equal to the initial one is not listed, and a reserved byte of the control block keeps reading zero
whoever stores (R265). -/
def memWrite (m : List Host.Cell) (a : Nat) (b : Byte) : List Host.Cell :=
  if isReserved a then m else if b = initialByte a then Sparse.erase m a else Sparse.put m a b

/-- The canonical form of memory: addresses strictly rising, no entry equal to what an unlisted address reads as, none of a
reserved byte. -/
def Memory.wf (m : List Host.Cell) : Bool :=
  Sparse.risingFrom none m && m.all (fun e => decide (e.2 ≠ initialByte e.1) && !isReserved e.1)

/-- n bytes of memory from an address. -/
def memBytes (m : List Host.Cell) (a : Nat) : Nat → List Byte
  | 0 => []
  | n + 1 => memRead m a :: memBytes m (a + 1) n

/-- Storing bytes from an address. -/
def memPutBytes (m : List Host.Cell) (a : Nat) : List Byte → List Host.Cell
  | [] => m
  | b :: bs => memPutBytes (memWrite m a b) (a + 1) bs

/-- An n-byte little-endian number of memory. -/
def memNat (m : List Host.Cell) (a n : Nat) : Nat := ofLeBytes (memBytes m a n)

/-- The keys of host memory begin here; a host physical address a is the key `hostBase` + a (R155). -/
def hostBase : Nat := 2 ^ 52

/-- Whether a line belongs to host memory. -/
def isHostLine (line : Nat) : Bool := hostBase / 64 ≤ line

/-- The home die of a line: bits [13:12] of its address (R18); of a host-homed line, the die of its proxy entry (R155). -/
def homeDie (line : Nat) : Nat := line / 64 % 4

/-- The 64 bytes of a line in memory. -/
def lineData (m : List Host.Cell) (line : Nat) : BitVec 512 := BitVec.ofNat 512 (memNat m (64 * line) 64)

/-- One word, 0 to 15, of a line. -/
def lineWord (x : BitVec 512) (w : Nat) : W32 := x.extractLsb' (32 * w) 32

/-- n bytes of a line from an offset. -/
def lineNat (x : BitVec 512) (off n : Nat) : Nat := x.toNat / 256 ^ off % 256 ^ n

/-- A line with n bytes from an offset replaced. -/
def lineSet (x : BitVec 512) (off n v : Nat) : BitVec 512 :=
  BitVec.ofNat 512 (x.toNat - lineNat x off n * 256 ^ off + v % 256 ^ n * 256 ^ off)

/-- A line's data as a copy of it holds them: the reserved bytes of the control block are zero (R265). -/
def withoutReserved (line : Nat) (x : BitVec 512) : BitVec 512 :=
  if isDcbLine line then
    (List.range 64).foldl (fun x j => if isReserved (64 * line + j) then lineSet x j 1 0 else x) x
  else x

/-- The words of `y` whose mask bit is set, over `x`. -/
def lineMerge (x y : BitVec 512) (mask : BitVec 16) : BitVec 512 :=
  (List.range 16).foldl (fun z w => if mask.getLsbD w then lineSet z (4 * w) 4 (lineWord y w).toNat else z) x

/-- The words of a line that bytes off to off + n − 1 touch (R167). -/
def wordMask (off n : Nat) : BitVec 16 :=
  BitVec.ofNat 16 (((List.range 16).filter (fun w => off < 4 * w + 4 && 4 * w < off + n)).foldl (fun x w => x + 2 ^ w) 0)

/-- Memory with a line replaced in the masked words. -/
def memPutLine (m : List Host.Cell) (line : Nat) (x : BitVec 512) (mask : BitVec 16) : List Host.Cell :=
  (List.range 16).foldl
    (fun m w => if mask.getLsbD w then memPutBytes m (64 * line + 4 * w) (leBytes 4 (lineWord x w).toNat) else m) m

/-- Half reference ticks in n microseconds (R257). -/
def micros (n : Nat) : Nat := 2600 * n

/-! ### Scratchpads (R105, R109) -/

/-- Words of one core's 2 MiB. -/
def coreWords : Nat := 2 ^ 19

/-- The key of the word at a core address of a core. -/
def scratchKey (core addr : Nat) : Nat := core * coreWords + addr / 4

/-- The word at a core address. -/
def scratchWord (st : Store) (core addr : Nat) : W32 := Sparse.get 0 st.scratch (scratchKey core addr)

/-- The barrier objects, by key of their first word, of which a byte lies in a word. -/
def markOf (key : Nat) : Nat := key / 4 * 4

/-- Storing a word by an ordinary store, which removes a barrier object's mark (R150, R186). -/
def scratchStore (st : Store) (core addr : Nat) (x : W32) : Store :=
  let k := scratchKey core addr
  { st with scratch := Sparse.set 0 st.scratch k x, marks := st.marks.filter (· != markOf k) }

/-- Storing a word by a counting update, which leaves the marks (R150). -/
def scratchCount (st : Store) (core addr : Nat) (x : W32) : Store :=
  { st with scratch := Sparse.set 0 st.scratch (scratchKey core addr) x }

/-- One byte of the scratchpad. -/
def scratchByte (st : Store) (core addr : Nat) : Byte := (scratchWord st core addr).extractLsb' (8 * (addr % 4)) 8

/-- Storing one byte (R181, R138). -/
def scratchStoreByte (st : Store) (core addr : Nat) (b : Byte) : Store :=
  let w := (scratchWord st core addr).toNat
  let sh := 256 ^ (addr % 4)
  scratchStore st core addr (BitVec.ofNat 32 (w - w / sh % 256 * sh + b.toNat * sh))

/-- n bytes of the scratchpad from a core address. -/
def scratchBytes (st : Store) (core addr n : Nat) : List Byte := (List.range n).map fun j => scratchByte st core (addr + j)

/-- Storing bytes from a core address. -/
def scratchPutBytes (st : Store) (core addr : Nat) : List Byte → Store
  | [] => st
  | b :: bs => scratchPutBytes (scratchStoreByte st core addr b) core (addr + 1) bs

/-- n consecutive words from a core address. -/
def scratchWords (st : Store) (core addr n : Nat) : List W32 :=
  (List.range n).map fun j => scratchWord st core (addr + 4 * j)

/-- Storing words at core addresses. -/
def scratchPutWords (st : Store) (core : Nat) (ws : List (Nat × W32)) : Store :=
  ws.foldl (fun st e => scratchStore st core e.1 e.2) st

/-- The full/empty bit of the word at a core address (R109); an unlisted bit is empty. -/
def isFull (st : Store) (core addr : Nat) : Bool := Sparse.get false st.full (scratchKey core addr)

/-- Setting a full/empty bit. -/
def setFull (st : Store) (core addr : Nat) (b : Bool) : Store :=
  { st with full := Sparse.set false st.full (scratchKey core addr) b }

/-- Setting the bits of n words from a core address, which removes the marks of objects they touch (R110, R150). -/
def setFullRange (st : Store) (core addr n : Nat) (b : Bool) : Store :=
  (List.range n).foldl
    (fun st j =>
      let st := setFull st core (addr + 4 * j) b
      { st with marks := st.marks.filter (· != markOf (scratchKey core (addr + 4 * j))) })
    st

/-- Whether the barrier object at a core address is marked (R150). -/
def isMarked (st : Store) (core addr : Nat) : Bool := st.marks.contains (scratchKey core addr)

/-- Marking the barrier object at a core address (R187). -/
def setMark (st : Store) (core addr : Nat) : Store :=
  if isMarked st core addr then st else { st with marks := scratchKey core addr :: st.marks }

/-- Clearing bytes of a core: data, full/empty bits and marks (R48, R150). -/
def scratchClear (st : Store) (core addr n : Nat) : Store :=
  let lo := scratchKey core addr
  let hi := lo + n / 4
  let out := fun k => decide (k < lo) || decide (hi ≤ k)
  { st with
    scratch := st.scratch.filter (fun e => out e.1), full := st.full.filter (fun e => out e.1),
    marks := st.marks.filter out, released := st.released.filter (fun e => out (e.1 / 2)) }

/-! ### What full/empty words and barrier objects carry (R111, R150) -/

/-- The key of what the full/empty word at a core address carries. -/
def wordKey (core addr : Nat) : Nat := 2 * scratchKey core addr

/-- The key of what the barrier object at a core address carries. -/
def objectKey (core addr : Nat) : Nat := 2 * scratchKey core addr + 1

/-- What a key carries to an observer, and what has been counted since. -/
def carried (st : Store) (k : Nat) : Nat × Nat := Sparse.get (0, 0) st.released k

/-- Changing what a key carries. -/
def setCarried (st : Store) (k : Nat) (x : Nat × Nat) : Store := { st with released := Sparse.set (0, 0) st.released k x }

end Sys2Proof.Machine
end

