-- ==== Sys2Proof/Machine/Flags.lean ====
section
/-! DEFINITION. Exact values, number formats, and the rounding of R79 with the flags of R74 that it raises. -/

namespace Sys2Proof.Machine

/-- The five bits of `fflags` (R35): invalid, division by zero, overflow, underflow, inexact. -/
abbrev Flags5 := BitVec 5

/-- invalid, bit 4 (R74). -/
def flagInvalid : Flags5 := 16
/-- division by zero, bit 3 (R74). -/
def flagDivZero : Flags5 := 8
/-- overflow, bit 2 (R74). -/
def flagOverflow : Flags5 := 4
/-- underflow, bit 1 (R74). -/
def flagUnderflow : Flags5 := 2
/-- inexact, bit 0 (R74). -/
def flagInexact : Flags5 := 1

/-- A flag when a condition holds. -/
def flagIf (c : Bool) (f : Flags5) : Flags5 := if c then f else 0

/-- The value of an element: a NaN (signalling or quiet, R71), an infinity, or ± mant × 2 ^ exp exactly. -/
inductive Num where
  | nan (signalling : Bool)
  | inf (neg : Bool)
  | fin (neg : Bool) (mant : Nat) (exp : Int)
  deriving DecidableEq, Repr

/-- The special values of a float format: the spec field of R75; the IEEE formats use `ieee`. -/
inductive Special where
  | allFinite | ieee | oneNaN
  deriving DecidableEq, Repr

/-- A float format: sign bit present, exponent bits, mantissa bits, bias, special values (R70, R75). -/
structure FloatFmt where
  signed : Bool
  e : Nat
  m : Nat
  bias : Int
  special : Special
  deriving DecidableEq, Repr

/-- binary32 (R70). -/
def fmtF32 : FloatFmt := ⟨true, 8, 23, 127, .ieee⟩
/-- binary16 (R70). -/
def fmtF16 : FloatFmt := ⟨true, 5, 10, 15, .ieee⟩
/-- bf16: the upper half of a binary32 (R70). -/
def fmtBf16 : FloatFmt := ⟨true, 8, 7, 127, .ieee⟩

/-- How the code of an element is read (R80): an integer, a scaled integer of a narrow record, or a float. The flag of
`float` says that a NaN whose top mantissa bit is 0 signals, which no narrow format does (R71). -/
inductive NumTy where
  | int (signed : Bool) (width : Nat)
  | scaled (signed : Bool) (width : Nat) (adj : Int)
  | float (f : FloatFmt) (signals : Bool)
  deriving DecidableEq, Repr

/-- The record's fields (R75): s, e, m, spec, adj. -/
def narrowTy (r : BitVec 14) : NumTy :=
  let s := r.extractLsb' 13 1 == 1
  let e := (r.extractLsb' 10 3).toNat
  let m := (r.extractLsb' 7 3).toNat
  let adj := (r.extractLsb' 0 5).toInt
  if e = 0 then .scaled s ((if s then 1 else 0) + m) adj
  else
    .float
      { signed := s, e := e, m := m, bias := 2 ^ (e - 1) - 1 + adj,
        special := if r.extractLsb' 5 2 = 1 then .ieee else if r.extractLsb' 5 2 = 2 then .oneNaN else .allFinite }
      false

/-- The width of a narrow code, s + e + m (R75). -/
def narrowWidth (r : BitVec 14) : Nat :=
  (r.extractLsb' 13 1).toNat + (r.extractLsb' 10 3).toNat + (r.extractLsb' 7 3).toNat

/-- How elements of a type are read, with the four records in force (R54, R78). -/
def elemNumTy (nf : Reg2 → BitVec 14) : ElemType → NumTy
  | .f32 => .float fmtF32 true
  | .bf16 => .float fmtBf16 true
  | .f16 => .float fmtF16 true
  | .i32 => .int true 32
  | .n32 => .int false 32
  | .i16 => .int true 16
  | .n16 => .int false 16
  | .i8 => .int true 8
  | .n8 => .int false 8
  | .nf n => narrowTy (nf n)

/-- How operands of a matrix type are read (R63). -/
def matNumTy (nf : Reg2 → BitVec 14) : MatType → NumTy
  | .nf n => narrowTy (nf n)
  | .bf16 => .float fmtBf16 true
  | .f16 => .float fmtF16 true
  | .f32 => .float fmtF32 true

/-- The low w bits of a code as two's complement. -/
def signedOf (w c : Nat) : Int :=
  let n := c % 2 ^ w
  if 2 * n < 2 ^ w then n else (n : Int) - 2 ^ w

/-- An integer as an exact value with step 2 ^ e. -/
def Num.ofInt (n e : Int) : Num := .fin (n < 0) n.natAbs e

/-- The magnitude code (exponent and mantissa fields) that separates finite codes from special ones: the largest finite
magnitude code of a format (R71, R77). -/
def FloatFmt.maxCode (f : FloatFmt) : Nat :=
  match f.special with
  | .allFinite => 2 ^ (f.e + f.m) - 1
  | .ieee => 2 ^ (f.e + f.m) - 1 - 2 ^ f.m
  | .oneNaN => 2 ^ (f.e + f.m) - 2

/-- The sign bit of a format, as a value added to a magnitude code. -/
def FloatFmt.signBit (f : FloatFmt) (neg : Bool) : Nat := if f.signed && neg then 2 ^ (f.e + f.m) else 0

/-- Whether a format has a NaN. -/
def FloatFmt.hasNaN (f : FloatFmt) : Bool := f.special != .allFinite
/-- Whether a format has infinities. -/
def FloatFmt.hasInf (f : FloatFmt) : Bool := f.special == .ieee

/-- The canonical NaN (R71, R77). -/
def FloatFmt.canonNaN (f : FloatFmt) : Nat :=
  match f.special with
  | .ieee => 2 ^ (f.e + f.m) - 2 ^ f.m + 2 ^ (f.m - 1)
  | _ => 2 ^ (f.e + f.m) - 1

/-- The code of an infinity, for a format that has one. -/
def FloatFmt.infCode (f : FloatFmt) (neg : Bool) : Nat := f.signBit neg + (2 ^ (f.e + f.m) - 2 ^ f.m)

/-- The exponent of the smallest step of a format. -/
def FloatFmt.minExp (f : FloatFmt) : Int := 1 - f.bias - f.m

/-- Decode of R77, and of the IEEE formats, which have the same shape. -/
def FloatFmt.decode (f : FloatFmt) (signals : Bool) (code : Nat) : Num :=
  let mag := code % 2 ^ (f.e + f.m)
  let neg := f.signed && code.testBit (f.e + f.m)
  let E := mag / 2 ^ f.m
  let M := mag % 2 ^ f.m
  if f.special = .ieee ∧ E = 2 ^ f.e - 1 then
    if M = 0 then .inf neg else .nan (signals && !M.testBit (f.m - 1))
  else if f.special = .oneNaN ∧ mag = 2 ^ (f.e + f.m) - 1 then .nan false
  else if E = 0 then .fin neg M f.minExp
  else .fin neg (2 ^ f.m + M) (f.minExp + E - 1)

/-- The value of a code (R68, R77). -/
def NumTy.decode : NumTy → Nat → Num
  | .int true w, c => .ofInt (signedOf w c) 0
  | .int false w, c => .fin false (c % 2 ^ w) 0
  | .scaled true w adj, c => .ofInt (signedOf w c) adj
  | .scaled false w adj, c => .fin false (c % 2 ^ w) adj
  | .float f signals, c => f.decode signals c

/-- What a rounding does with the part below the last place: `up` from the magnitude (R79). `rem` and `half` compare the
discarded part with half a step; `odd` is the lowest bit of the lower neighbour's code. -/
def roundsUp (rm : Rounding) (neg odd exact aboveHalf atHalf : Bool) : Bool :=
  match rm with
  | .rne => aboveHalf || (atHalf && odd)
  | .rz => false
  | .rd => neg && !exact
  | .ru => !neg && !exact

/-- A magnitude m × 2 ^ e cut at step 2 ^ q: the quotient, and whether the rest is nothing, more than half a step, or
exactly half a step. -/
def cutAt (m : Nat) (e q : Int) : Nat × Bool × Bool × Bool :=
  if q ≤ e then (m * 2 ^ (e - q).toNat, true, false, false)
  else
    let k := (q - e).toNat
    let d := m / 2 ^ k
    let r := m % 2 ^ k
    (d, r = 0, 2 ^ k < 2 * r, 2 * r = 2 ^ k)

/-- `Round` of R79 on the exact value ± m × 2 ^ e: the code and the flags raised. -/
def FloatFmt.round (f : FloatFmt) (rm : Rounding) (sat neg : Bool) (m : Nat) (e : Int) : Nat × Flags5 :=
  if m = 0 then (f.signBit neg, 0)
  else
    let q := max (e + Nat.log2 m - f.m) f.minExp
    let (n, exact, above, half) := cutAt m e q
    let low := (q - f.minExp).toNat * 2 ^ f.m + n
    let code := if roundsUp rm neg (low % 2 == 1) exact above half then low + 1 else low
    if f.maxCode < code then
      let toInf := f.hasInf && !sat && (match rm with | .rne => true | .rz => false | .rd => neg | .ru => !neg)
      (if toInf then f.infCode neg else f.signBit neg + f.maxCode, flagOverflow ||| flagInexact)
    else
      (f.signBit neg + code,
        flagIf (!exact) flagInexact ||| flagIf (!exact && code != 0 && code < 2 ^ f.m) flagUnderflow)

/-- The result of an operation whose exact result is a `Num`, in a format that has NaN and infinities: R70, R71. -/
def FloatFmt.result (f : FloatFmt) : Num → Nat × Flags5
  | .nan _ => (f.canonNaN, 0)
  | .inf neg => (f.infCode neg, 0)
  | .fin neg m e => f.round .rne false neg m e

/-- A NaN that signals raises invalid (R71). -/
def Num.raises : Num → Flags5
  | .nan true => flagInvalid
  | _ => 0

/-- Whether a value is a NaN. -/
def Num.isNaN : Num → Bool
  | .nan _ => true
  | _ => false

/-- The flags of rounding to nearest even, in binary32. -/
def roundF32 (x : Num) : Nat × Flags5 := fmtF32.result x

end Sys2Proof.Machine
end

