-- ==== Sys2Proof/Machine/Numbers.lean ====
section
/-! DEFINITION. Exact arithmetic on element values: sums, products, comparisons, conversion (R80), the special functions
(R72), and the operations of vector elements, of the reduction tree and of combining (R70, R73, R87, R88). -/

namespace Sys2Proof.Machine

/-- A magnitude with its sign. -/
def signedInt (neg : Bool) (m : Nat) : Int := if neg then -(m : Int) else m

/-- The exact product; the flag is an infinity times a zero (R356). -/
def Num.mul : Num → Num → Num × Bool
  | .nan _, _ => (.nan false, false)
  | _, .nan _ => (.nan false, false)
  | .inf s, .inf t => (.inf (s != t), false)
  | .inf s, .fin t m _ => if m = 0 then (.nan false, true) else (.inf (s != t), false)
  | .fin s m _, .inf t => if m = 0 then (.nan false, true) else (.inf (s != t), false)
  | .fin s m e, .fin t n f => (.fin (s != t) (m * n) (e + f), false)

/-- The other sign. -/
def Num.negate : Num → Num
  | .nan q => .nan q
  | .inf s => .inf (!s)
  | .fin s m e => .fin (!s) m e

/-- The smallest exponent among finite terms. -/
def minExpOf : List Num → Int
  | [] => 0
  | [.fin _ _ e] => e
  | .fin _ _ e :: xs => min e (minExpOf xs)
  | _ :: xs => minExpOf xs

/-- The sum of the finite terms in steps of 2 ^ q. -/
def sumAt (q : Int) : List Num → Int
  | [] => 0
  | .fin s m e :: xs => signedInt s (m * 2 ^ (e - q).toNat) + sumAt q xs
  | _ :: xs => sumAt q xs

/-- Whether a term is the number −0. -/
def Num.isNegZero : Num → Bool
  | .fin true 0 _ => true
  | _ => false

/-- The exact sum of terms, with the signs of zero of R70 and R85; the flag is a sum of opposite infinities. -/
def sumNums (xs : List Num) : Num × Bool :=
  if xs.any Num.isNaN then (.nan false, false)
  else
    let pos := xs.any (· == .inf false)
    let neg := xs.any (· == .inf true)
    if pos && neg then (.nan false, true)
    else if pos then (.inf false, false)
    else if neg then (.inf true, false)
    else
      let q := minExpOf xs
      let n := sumAt q xs
      if n = 0 then (.fin (!xs.isEmpty && xs.all Num.isNegZero) 0 0, false)
      else (.fin (n < 0) n.natAbs q, false)

/-- Whether x < y; false when either is a NaN; −0 and +0 are equal (R73). -/
def Num.lt : Num → Num → Bool
  | .nan _, _ => false
  | _, .nan _ => false
  | .inf s, .inf t => s && !t
  | .inf s, .fin .. => s
  | .fin .., .inf t => !t
  | .fin s m e, .fin t n f =>
    let q := min e f
    signedInt s (m * 2 ^ (e - q).toNat) < signedInt t (n * 2 ^ (f - q).toNat)

/-- Whether x = y; false when either is a NaN; −0 and +0 are equal (R73). -/
def Num.eq (x y : Num) : Bool := !x.isNaN && !y.isNaN && !x.lt y && !y.lt x

/-- Whether the sign bit of a number is set. -/
def Num.isNeg : Num → Bool
  | .nan _ => false
  | .inf s => s
  | .fin s _ _ => s

/-- −0 below +0, otherwise the order of `Num.lt` (R73). -/
def Num.below (x y : Num) : Bool := x.lt y || (x.eq y && x.isNeg && !y.isNeg)

/-! ### Conversion (R80) -/

/-- The least and the greatest integer of an integer of width w. -/
def intMin (signed : Bool) (w : Nat) : Int := if signed then -(2 ^ (w - 1)) else 0
/-- The greatest integer of width w. -/
def intMax (signed : Bool) (w : Nat) : Int := if signed then 2 ^ (w - 1) - 1 else 2 ^ w - 1

/-- The code of an integer of width w, modulo 2 ^ w. -/
def intCode (w : Nat) (n : Int) : Nat := (n % (2 ^ w : Int)).toNat

/-- A value in steps of 2 ^ q, rounded to an integer by `rm`, and whether that is exact. -/
def toInteger (rm : Rounding) (neg : Bool) (m : Nat) (e q : Int) : Int × Bool :=
  let (n, exact, above, half) := cutAt m e q
  (signedInt neg (if roundsUp rm neg (n % 2 == 1) exact above half then n + 1 else n), exact)

/-- The integer or scaled target of R80. -/
def convertToInt (rm : Rounding) (signed : Bool) (w : Nat) (step : Int) (v : Num) : Nat × Flags5 :=
  let lo := intMin signed w
  let hi := intMax signed w
  match v with
  | .nan _ => (intCode w hi, flagInvalid)
  | .inf neg => (intCode w (if neg then lo else hi), flagInvalid)
  | .fin neg m e =>
    let (n, exact) := toInteger rm neg m e step
    if n < lo then (intCode w lo, flagInvalid)
    else if hi < n then (intCode w hi, flagInvalid)
    else (intCode w n, flagIf (!exact) flagInexact)

/-- The float target of R80. -/
def convertToFloat (rm : Rounding) (sat : Bool) (f : FloatFmt) (v : Num) : Nat × Flags5 :=
  match v with
  | .nan _ => if f.hasNaN then (f.canonNaN, 0) else (f.maxCode, flagInvalid)
  | .inf neg =>
    if f.hasInf && !sat then (f.infCode neg, 0)
    else if sat then (f.signBit neg + f.maxCode, 0)
    else if f.hasNaN then (f.canonNaN, flagInvalid)
    else (f.signBit neg + f.maxCode, flagInvalid)
  | .fin neg m e => f.round rm sat neg m e

/-- Whether a value is below zero. -/
def Num.isBelowZero : Num → Bool
  | .inf s => s
  | .fin s m _ => s && m != 0
  | .nan _ => false

/-- `Convert` of R80, on codes. A signalling NaN also raises invalid (R71). -/
def convert (S T : NumTy) (rm : Rounding) (sat : Bool) (c : Nat) : Nat × Flags5 :=
  let v := S.decode c
  match S, T with
  | .int sg w, .int tg u =>
    let n : Int := if sg then signedOf w c else ((c % 2 ^ w : Nat) : Int)
    (intCode u (if sat then max (intMin tg u) (min (intMax tg u) n) else n), 0)
  | _, .int tg u => convertToInt rm tg u 0 v
  | _, .scaled tg u adj =>
    if !tg && v.isBelowZero then (0, flagInvalid) else convertToInt rm tg u adj v
  | _, .float f _ =>
    if !f.signed && v.isBelowZero then (0, flagInvalid)
    else
      let (r, fl) := convertToFloat rm sat f v
      (r, fl ||| v.raises)

/-! ### The special functions (R72) -/

/-- Square root of n, rounded down, one bit at a time from bit k. -/
def isqrtFrom : Nat → Nat → Nat → Nat
  | 0, n, r => if (r + 1) * (r + 1) ≤ n then r + 1 else r
  | k + 1, n, r =>
    let t := r + 2 ^ (k + 1)
    isqrtFrom k n (if t * t ≤ n then t else r)

/-- Square root of n, rounded down. -/
def isqrt (n : Nat) : Nat := isqrtFrom (Nat.log2 n / 2 + 1) n 0

/-- Places after the point in the fixed-point work of the transcendental functions. -/
def fxBits : Nat := 256
/-- One, in fixed point. -/
def fxOne : Nat := 2 ^ fxBits
/-- ln 2, rounded down at the last place. -/
def fxLn2 : Nat := 80260960185991308862233904206310070533990667611589946606122867505419956976171
/-- 1 / ln 2, rounded down at the last place. -/
def fxLog2e : Nat := 167052672916848388242985626561247531987276682633131050150846402744536260568207

/-- Σ y^n / n! from the term `t` of index n on. -/
def expSeries : Nat → Nat → Nat → Nat → Nat
  | 0, _, _, _ => 0
  | fuel + 1, n, y, t => t + expSeries fuel (n + 1) y (t * y / fxOne / (n + 1))

/-- 2 ^ f for a fraction f, in fixed point. -/
def fxExp2 (f : Nat) : Nat := expSeries 64 0 (f * fxLn2 / fxOne) fxOne

/-- Σ z^(2i+1) / (2i+1) from the power `p` with odd index n on. -/
def atanhSeries : Nat → Nat → Nat → Nat → Nat
  | 0, _, _, _ => 0
  | fuel + 1, n, z2, p => p / n + atanhSeries fuel (n + 2) z2 (p * z2 / fxOne)

/-- log2 of x in [1, 2), in fixed point, by 2 · atanh((x − 1) / (x + 1)) / ln 2. -/
def fxLog2 (x : Nat) : Nat :=
  let z := (x - fxOne) * fxOne / (x + fxOne)
  2 * atanhSeries 100 1 (z * z / fxOne) z * fxLog2e / fxOne

/-- An irrational value of which m in steps of 2 ^ e is the part above the last place: one more place, set, stands for
the rest, so that rounding sees a value strictly between two neighbours (log entry 12). -/
def sticky (neg : Bool) (m : Nat) (e : Int) (rest : Bool) : Num := .fin neg (2 * m + (if rest then 1 else 0)) (e - 1)

/-- 1 / x for a finite non-zero x. -/
def recipNum (neg : Bool) (m : Nat) (e : Int) : Num :=
  let K := Nat.log2 m + 64
  sticky neg (2 ^ K / m) (-(K : Int) - e) (2 ^ K % m != 0)

/-- A finite magnitude with an even exponent: the mantissa and half the exponent. -/
def evenExp (m : Nat) (e : Int) : Nat × Int := if e % 2 = 0 then (m, e / 2) else (2 * m, (e - 1) / 2)

/-- √x for a finite positive x. -/
def sqrtNum (m : Nat) (e : Int) : Num :=
  let (n, h) := evenExp m e
  let s := n * 2 ^ 128
  let r := isqrt s
  sticky false r (h - 64) (r * r != s)

/-- 1 / √x for a finite positive x. -/
def rsqrtNum (m : Nat) (e : Int) : Num :=
  let (n, h) := evenExp m e
  let K := Nat.log2 n + 64
  let r := isqrt (2 ^ (2 * K) / n)
  sticky false r (-(K : Int) - h) (r * r * n != 2 ^ (2 * K))

/-- 2 ^ x for a finite x: exact at integers; irrational elsewhere. -/
def exp2Num (neg : Bool) (m : Nat) (e : Int) : Num :=
  if m = 0 then .fin false 1 0
  else if 16 < e + Nat.log2 m then .fin false 1 (if neg then -65536 else 65536)
  else if 0 ≤ e ∨ m % 2 ^ (-e).toNat = 0 then .fin false 1 (signedInt neg (if 0 ≤ e then m * 2 ^ e.toNat else m / 2 ^ (-e).toNat))
  else if e + Nat.log2 m < -90 then .fin false (if neg then 2 ^ 300 - 1 else 2 ^ 300 + 1) (-300)
  else
    let x := signedInt neg (m * 2 ^ (e + fxBits).toNat)
    sticky false (fxExp2 (x % (fxOne : Int)).toNat) (x / (fxOne : Int) - fxBits) true

/-- log2 x for a finite positive x: exact at powers of two; irrational elsewhere. -/
def log2Num (m : Nat) (e : Int) : Num :=
  let L := Nat.log2 m
  if m = 2 ^ L then .ofInt (e + L) 0
  else
    let t := (e + L) * (fxOne : Int) + fxLog2 (m * fxOne / 2 ^ L)
    sticky (t < 0) t.natAbs (-fxBits) true

/-- tanh x for a finite non-zero x, which is irrational. -/
def tanhNum (neg : Bool) (m : Nat) (e : Int) : Num :=
  let L := e + Nat.log2 m
  if L < -60 then .fin neg (m * 2 ^ 200 - 1) (e - 200)
  else if 6 ≤ L then .fin neg (2 ^ 300 - 1) (-300)
  else
    let y := 2 * (m * 2 ^ (e + fxBits).toNat) * fxLog2e / fxOne
    let x := fxExp2 (y % fxOne) * 2 ^ (y / fxOne)
    sticky neg ((x - fxOne) * fxOne / (x + fxOne)) (-fxBits) true

/-- The six special functions (R363). -/
inductive SpecialFn where
  | rcp | rsq | sqrt | exp2 | log2 | tanh
  deriving DecidableEq, Repr

/-- The exact value of a special function and the flags of its special cases (R72). -/
def SpecialFn.eval (fn : SpecialFn) (x : Num) : Num × Flags5 :=
  match fn, x with
  | _, .nan s => (.nan false, flagIf s flagInvalid)
  | .rcp, .inf s => (.fin s 0 0, 0)
  | .rcp, .fin s m e => if m = 0 then (.inf s, flagDivZero) else (recipNum s m e, 0)
  | .rsq, .inf s => if s then (.nan false, flagInvalid) else (.fin false 0 0, 0)
  | .rsq, .fin s m e =>
    if m = 0 then (.inf s, flagDivZero) else if s then (.nan false, flagInvalid) else (rsqrtNum m e, 0)
  | .sqrt, .inf s => if s then (.nan false, flagInvalid) else (.inf false, 0)
  | .sqrt, .fin s m e =>
    if m = 0 then (.fin s 0 0, 0) else if s then (.nan false, flagInvalid) else (sqrtNum m e, 0)
  | .exp2, .inf s => if s then (.fin false 0 0, 0) else (.inf false, 0)
  | .exp2, .fin s m e => (exp2Num s m e, 0)
  | .log2, .inf s => if s then (.nan false, flagInvalid) else (.inf false, 0)
  | .log2, .fin s m e =>
    if m = 0 then (.inf true, flagDivZero) else if s then (.nan false, flagInvalid) else (log2Num m e, 0)
  | .tanh, .inf s => (.fin s 1 0, 0)
  | .tanh, .fin s m e => if m = 0 then (.fin s 0 0, 0) else (tanhNum s m e, 0)

/-- A special function on a code, rounded once (R363). -/
def specialOn (fn : SpecialFn) (f : FloatFmt) (c : Nat) : Nat × Flags5 :=
  let (v, fl) := fn.eval (f.decode true c)
  let (r, gl) := f.result v
  (r, fl ||| gl)

/-! ### Operations on elements -/

/-- The exact float result of x + y, x − y, x × y or x × y + z, rounded once, with the flags (R70, R71, R356). -/
def floatSum (f : FloatFmt) (raised : Flags5) (terms : List Num) (invalidProduct : Bool) : Nat × Flags5 :=
  let (s, bad) := sumNums terms
  let (r, fl) := f.result s
  (r, fl ||| raised ||| flagIf (bad || invalidProduct) flagInvalid)

/-- x + y in a float format. -/
def floatAdd (f : FloatFmt) (x y : Nat) : Nat × Flags5 :=
  let a := f.decode true x
  let b := f.decode true y
  floatSum f (a.raises ||| b.raises) [a, b] false

/-- x − y in a float format. -/
def floatSub (f : FloatFmt) (x y : Nat) : Nat × Flags5 :=
  let a := f.decode true x
  let b := f.decode true y
  floatSum f (a.raises ||| b.raises) [a, b.negate] false

/-- x × y in a float format. -/
def floatMul (f : FloatFmt) (x y : Nat) : Nat × Flags5 :=
  let a := f.decode true x
  let b := f.decode true y
  let (p, bad) := a.mul b
  let (r, fl) := f.result p
  (r, fl ||| a.raises ||| b.raises ||| flagIf bad flagInvalid)

/-- x × y + z in a float format, rounded once. -/
def floatFma (f : FloatFmt) (x y z : Nat) : Nat × Flags5 :=
  let a := f.decode true x
  let b := f.decode true y
  let c := f.decode true z
  let (p, bad) := a.mul b
  floatSum f (a.raises ||| b.raises ||| c.raises) [p, c] bad

/-- `vmin` (`isMax` false) or `vmax` of R73 in a float format. -/
def floatMinMax (isMax : Bool) (f : FloatFmt) (x y : Nat) : Nat × Flags5 :=
  let a := f.decode true x
  let b := f.decode true y
  let fl := a.raises ||| b.raises
  if a.isNaN && b.isNaN then (f.canonNaN, fl)
  else if a.isNaN then (y, fl)
  else if b.isNaN then (x, fl)
  else (if isMax then (if a.below b then y else x) else (if b.below a then y else x), fl)

/-- `vabs` and `vneg` of a float: only the sign bit of a non-NaN changes (R356). -/
def floatSign (isNeg : Bool) (f : FloatFmt) (x : Nat) : Nat × Flags5 :=
  let a := f.decode true x
  if a.isNaN then (f.canonNaN, a.raises)
  else
    let mag := x % 2 ^ (f.e + f.m)
    (if isNeg && !a.isNeg then 2 ^ (f.e + f.m) + mag else mag, 0)

/-- The float format of a vector type that has one (R54). -/
def vecFloat : ElemType → Option FloatFmt
  | .f32 => some fmtF32
  | .bf16 => some fmtBf16
  | .f16 => some fmtF16
  | _ => none

/-- Whether an integer element type is signed (R68). -/
def isSignedType : ElemType → Bool
  | .i32 | .i16 | .i8 => true
  | _ => false

/-- The value of an integer element: signed or plain (R68). -/
def elemInt (t : ElemType) (x : Nat) : Int :=
  if isSignedType t then signedOf t.width x else ((x % 2 ^ t.width : Nat) : Int)

/-- Binary vector operations on elements (R356). -/
inductive ElemOp where
  | add | sub | mul | min | max
  deriving DecidableEq, Repr

/-- A binary operation on the float codes of a format (R356, R73). -/
def ElemOp.onFloat : ElemOp → FloatFmt → Nat → Nat → Nat × Flags5
  | .add => floatAdd
  | .sub => floatSub
  | .mul => floatMul
  | .min => floatMinMax false
  | .max => floatMinMax true

/-- A binary operation on integers, before it wraps (R68). -/
def ElemOp.onInt : ElemOp → Int → Int → Int
  | .add, x, y => x + y
  | .sub, x, y => x - y
  | .mul, x, y => x * y
  | .min, x, y => if y < x then y else x
  | .max, x, y => if x < y then y else x

/-- A binary operation on elements of a type 0 to 8: the element and its flags. -/
def ElemOp.on (op : ElemOp) (t : ElemType) (x y : Nat) : Nat × Flags5 :=
  match vecFloat t with
  | some f => op.onFloat f x y
  | none => (intCode t.width (op.onInt (elemInt t x) (elemInt t y)), 0)

/-- x × y + z on an element of a type 0 to 3 (R356). -/
def elemFma (t : ElemType) (x y z : Nat) : Nat × Flags5 :=
  match vecFloat t with
  | some f => floatFma f x y z
  | none => (intCode t.width (elemInt t x * elemInt t y + elemInt t z), 0)

/-- `vabs` or `vneg` on an element (R356, R68). -/
def elemSign (isNeg : Bool) (t : ElemType) (x : Nat) : Nat × Flags5 :=
  match vecFloat t with
  | some f => floatSign isNeg f x
  | none => (intCode t.width (if isNeg || elemInt t x < 0 then - elemInt t x else elemInt t x), 0)

/-- A condition from "below" and "equal" (R359). -/
def VCond.holds (c : VCond) (lt eq gt : Bool) : Bool :=
  match c with
  | .eq => eq
  | .ne => !eq
  | .lt => lt
  | .le => lt || eq
  | .gt => gt
  | .ge => gt || eq

/-- `vcmp` on one element: whether the condition holds, and its flags (R359, R73). -/
def elemCmp (c : VCond) (t : ElemType) (x y : Nat) : Bool × Flags5 :=
  match vecFloat t with
  | some f =>
    let a := f.decode true x
    let b := f.decode true y
    (VCond.holds c (a.lt b) (a.eq b) (b.lt a), a.raises ||| b.raises)
  | none =>
    let a := elemInt t x
    let b := elemInt t y
    (VCond.holds c (decide (a < b)) (a == b) (decide (b < a)), 0)

/-- The vector shifts (R370): 0 left, 1 right, 2 right with the sign of `i` types. -/
inductive ShiftOp where
  | shl | shr | sra
  deriving DecidableEq, Repr

/-- A shift of an element by a count taken modulo its width (R68, R370). -/
def ShiftOp.on (op : ShiftOp) (t : ElemType) (x n : Nat) : Nat :=
  let w := t.width
  let k := n % w
  match op with
  | .shl => x * 2 ^ k % 2 ^ w
  | .shr => x % 2 ^ w / 2 ^ k
  | .sra => intCode w (elemInt t x / (2 ^ k : Int))

/-- Operation of the reduction tree and of a commutative range as an element operation. -/
def redElemOp : RedOp → ElemOp
  | .add => .add
  | .max => .max
  | .min => .min

/-- A node of the reduction tree, the latch step of R87, and `Combine` of R88, on the codes of one type. -/
def combine (op : RedOp) (t : ElemType) (x y : Nat) : Nat × Flags5 := (redElemOp op).on t x y

/-- One element pair of `vdot4`: the product and whether it raises invalid (R81). A zero product of narrow elements takes its sign from the
signs of the two codes, that of a scaled (e = 0) code 0, to which the spec gives none, being plus: −3 × 0 is −0 there, while the integer
types have no −0 (log entry 59). -/
def dotProduct (T : NumTy) (x y : Nat) : Num × Bool :=
  match T with
  | .int true w => (.ofInt (signedOf w x * signedOf w y) 0, false)
  | .int false w => (.ofInt ((x % 2 ^ w : Nat) * (y % 2 ^ w : Nat) : Int) 0, false)
  | _ =>
    let a := T.decode x
    let b := T.decode y
    let (p, bad) := a.mul b
    (p, bad || a.isNaN || b.isNaN)

/-- `vdot4` on one lane (R81): the four products and d, read as `f32`, rounded once. -/
def dot4 (T : NumTy) (xs ys : List Nat) (d : Nat) : Nat × Flags5 :=
  let ps := List.zipWith (dotProduct T) xs ys
  let z := fmtF32.decode true d
  floatSum fmtF32 z.raises (ps.map (·.1) ++ [z]) (ps.any (·.2))

end Sys2Proof.Machine
end

