-- ==== Sys2Proof/Machine/Home.lean ====
section
/-! DEFINITION. Home directories, die directories and caches: the actions and the table of R164, the steps of R144, the
partials of R170 and R171, host-homed lines (R155), poison (R174). -/

namespace Sys2Proof.Machine

/-- The compute die of a core (R10). -/
def dieOf (core : Nat) : Nat := core / 64

/-- Holder numbers of copies: an L1 is its core's number. -/
def l2Holder (die : Nat) : Nat := 256 + die
/-- Holder of the lines of a die's synchronisation engine (R194). -/
def engineHolder (die : Nat) : Nat := 260 + die
/-- Holder of the device's words of host-homed lines, at their proxy (R155). -/
def proxyHolder : Nat := 264

/-- The die that a holder belongs to; the engine of die d counts as agent 4 (R161). -/
def holderDie (h : Nat) : Nat := if h < 256 then h / 64 else if h < 260 then h - 256 else 4

/-- The key of a copy. -/
def copyKey (holder line : Nat) : Nat := line * 512 + holder

/-- The copy of a line at a holder. -/
def copyAt (st : Store) (holder line : Nat) : Option Copy := Sparse.find st.copies (copyKey holder line)

/-- Placing a copy. -/
def putCopy (st : Store) (holder line : Nat) (c : Copy) : Store :=
  { st with copies := Sparse.put st.copies (copyKey holder line) c }

/-- Dropping a copy. -/
def dropCopy (st : Store) (holder line : Nat) : Store := { st with copies := Sparse.erase st.copies (copyKey holder line) }

/-- Every copy of a line, with its holder. -/
def copiesOf (st : Store) (line : Nat) : List (Nat × Copy) :=
  (st.copies.filter (fun e => e.1 / 512 == line)).map fun e => (e.1 % 512, e.2)

/-- Dropping the copies of a line that a test on holder and copy picks. -/
def dropWhere (st : Store) (line : Nat) (p : Nat → Copy → Bool) : Store :=
  { st with copies := st.copies.filter (fun e => !(e.1 / 512 == line && p (e.1 % 512) e.2)) }

/-- The lines that are always watched: the registry, and the shoot-down, seal and attestation lines (R210, R265). -/
def alwaysWatched (line : Nat) : Bool :=
  let d := Device.booted
  let a := 64 * line
  decide (d.registry ≤ a) && decide (a < d.registry + 524288) || a == d.dcb + 0x40 || a == d.dcb + 0x80 || a == d.dcb + 0x1000

/-- The entry of a line after bring-up: `U` with timestamps 0, watched where the device watches (R161, R268). -/
def clearDir (line : Nat) : DirEntry := { DirEntry.clear with watched := alwaysWatched line }

/-- A line's directory or proxy entry. -/
def dirOf (st : Store) (line : Nat) : DirEntry := Sparse.get (clearDir line) st.dirs line

/-- Storing a line's entry. -/
def setDir (st : Store) (line : Nat) (d : DirEntry) : Store := { st with dirs := Sparse.set (clearDir line) st.dirs line d }

/-- Whether a copy state owns the line (R162). -/
def CopyState.owns : CopyState → Bool
  | .owned | .modified => true
  | _ => false

/-- Whether a copy state is a partial. -/
def CopyState.isPartial : CopyState → Bool
  | .combining _ _ => true
  | _ => false

/-- The holder and copy that own a line in state `E`. -/
def ownerCopy (st : Store) (line : Nat) : Option (Nat × Copy) := (copiesOf st line).find? (fun e => e.2.state.owns)

/-- Combining one partial into line data (R171): masked words only, element by element. -/
def combineWords (t : ElemType) (op : RedOp) (x : BitVec 512) (c : Copy) : BitVec 512 :=
  (List.range 16).foldl
    (fun x w =>
      if c.mask.getLsbD w then
        let n := t.width / 8
        (List.range t.perLane).foldl
          (fun x e =>
            let off := 4 * w + n * e
            lineSet x off n (combine op t (lineNat x off n) (lineNat c.data off n)).1)
          x
      else x)
    x

/-- The greatest timestamp at which a tracked copy that a test picks was read. -/
def readTop (st : Store) (line : Nat) (p : Nat → Bool) : Nat :=
  (copiesOf st line).foldl (fun r e => if e.2.state == .shared && p e.1 then max r e.2.rts else r) 0

/-- The read timestamp of an acknowledgement folded in: at the owner's copy of a line in `E`, at the home otherwise (R163, R164). -/
def foldRead (st : Store) (line ts : Nat) : Store :=
  match (dirOf st line).state with
  | .owned _ =>
    match ownerCopy st line with
    | some (h, c) => putCopy st h line { c with rts := max c.rts ts }
    | none => st
  | _ => setDir st line { dirOf st line with rts := max (dirOf st line).rts ts }

/-- `inv` of R164 for the holders that a test picks: their tracked copies are dropped and the read timestamps folded. -/
def invalidateWhere (st : Store) (line : Nat) (p : Nat → Bool) : Store :=
  foldRead (dropWhere st line fun h c => c.state == .shared && p h) line (readTop st line p)

/-- One partial taken into the owner's copy of a line in `E` (R163: the die directory combines), or into the home (R171). -/
def takePartial (line : Nat) (st : Store) (e : Nat × Copy) : Store :=
  match e.2.state with
  | .combining t op =>
    let st := dropCopy st e.1 line
    let d := dirOf st line
    match d.state, ownerCopy st line with
    | .owned _, some (h, c) =>
      let w := max c.wts e.2.wts
      putCopy st h line
        { c with state := .modified, data := withoutReserved line (combineWords t op c.data e.2), wts := w, rts := max c.rts w }
    | _, _ =>
      let w := max d.wts e.2.wts
      setDir { st with mem := memPutLine st.mem line (combineWords t op (lineData st.mem line) e.2) 0xFFFF } line
        { d with wts := w, rts := max d.rts w }
  | _ => st

/-- The partials of a line, core by core (log entry 62). -/
def partialsOf (st : Store) (line : Nat) : List (Nat × Copy) := (copiesOf st line).filter fun e => e.2.state.isPartial

/-- The combine recall of one die: its partials are taken, and its bit leaves the entry (R171). -/
def combineDie (st : Store) (line die : Nat) : Store :=
  let st := ((partialsOf st line).filter fun e => e.1 / 64 == die).foldl (takePartial line) st
  let d := dirOf st line
  match d.state with
  | .partials dies t op =>
    let left := dies &&& ~~~(BitVec.ofNat 5 (2 ^ die))
    setDir st line { d with state := if left = 0 then .untracked else .partials left t op }
  | _ => st

/-- `comb` of R171: every die's partials, die by die (log entry 62); the entry becomes `U`. -/
def combineLine (st : Store) (line : Nat) : Store :=
  let st := (List.range 4).foldl (fun st die => combineDie st line die) st
  setDir st line { dirOf st line with state := .untracked }

/-- `comb` within the die that owns a line: its cores' partials go into the owner's copy (R163). -/
def combineInDie (st : Store) (line : Nat) : Store := (partialsOf st line).foldl (takePartial line) st

/-- `recall` of R164: the owner's die combines its partials and drops its tracked copies, and the owner's data and timestamps go to the
home. -/
def recallLine (st : Store) (line : Nat) : Store :=
  let st := invalidateWhere (combineInDie st line) line fun _ => true
  let d := dirOf st line
  match ownerCopy st line with
  | some (h, c) =>
    let st := dropCopy { st with mem := memPutLine st.mem line c.data 0xFFFF, engineUse := st.engineUse.filter (· != line) } h line
    setDir st line { d with state := .untracked, wts := c.wts, rts := max c.rts d.rts }
  | none => setDir st line { d with state := .untracked }

/-- `inv` of every sharer; the entry becomes `U`. -/
def invalidateAll (st : Store) (line : Nat) : Store :=
  let st := invalidateWhere st line (fun _ => true)
  setDir st line { dirOf st line with state := .untracked }

/-- Whether the host owns a line. -/
def ownedByHost (st : Store) (line : Nat) : Bool := (dirOf st line).state == .ownedByHost

/-- Whether an access waits for the host's answer to a back-invalidation (R164): the host owns the line, or, for one that writes,
shares it. -/
def hostBlocks (st : Store) (line : Nat) (writes : Bool) : Bool :=
  match (dirOf st line).state with
  | .ownedByHost => true
  | .tracked hs => writes && hs.getLsbD 4
  | _ => false

/-- The home made ready for a reader that keeps sharers: recall, or combine (R164). -/
def readyToRead (st : Store) (line : Nat) : Store :=
  match (dirOf st line).state with
  | .owned _ => recallLine st line
  | .partials .. => combineLine st line
  | _ => st

/-- The home made ready for a writer: as a reader, with every sharer invalidated (R164). -/
def readyToWrite (st : Store) (line : Nat) : Store :=
  match (dirOf st line).state with
  | .tracked _ => invalidateAll st line
  | _ => readyToRead st line

/-! ### Evictions, and the room of the caches (R1, R2, R162, R164) -/

/-- The die bit of a sharer set. -/
def dieBit (die : Nat) : BitVec 5 := BitVec.ofNat 5 (2 ^ die)

/-- A tracked copy evicted: its read timestamp is folded in, and the die leaves the sharers with its last copy (R164). -/
def evictShared (st : Store) (line holder : Nat) : Store :=
  let st := invalidateWhere st line (· == holder)
  let die := holderDie holder
  let left := (copiesOf st line).any fun e => e.2.state == .shared && holderDie e.1 == die
  match (dirOf st line).state with
  | .tracked hs =>
    let hs := if left then hs else hs &&& ~~~(dieBit die)
    setDir st line { dirOf st line with state := if hs = 0 then .untracked else .tracked hs }
  | _ => st

/-- The partial of a line at a core announced and combined (R164: announced `PA` eviction). -/
def evictPartial (st : Store) (core line : Nat) : Store :=
  match copyAt st core line with
  | some c =>
    if c.state.isPartial then
      let st := takePartial line st (core, c)
      let die := dieOf core
      let left := (partialsOf st line).any fun e => e.1 / 64 == die
      let d := dirOf st line
      match d.state with
      | .partials dies t op =>
        let dies := if left then dies else dies &&& ~~~(dieBit die)
        setDir st line { d with state := if dies = 0 then .untracked else .partials dies t op }
      | _ => st
    else st
  | none => st

/-- A copy evicted as its state asks: a lease silently, a tracked copy or a partial announced, an owned line as a write-back. Dirty
words of a host-homed line leave only under R155. -/
def evictCopy (st : Store) (holder line : Nat) : Store :=
  match (copyAt st holder line).map Copy.state with
  | some .leased => dropCopy st holder line
  | some .shared => evictShared st line holder
  | some .owned | some .modified => recallLine st line
  | some (.combining _ _) => evictPartial st holder line
  | _ => st

/-- Lines that a holder has room for: an L1 of 256 KiB (R2), an L2 of 384 MiB (R1). -/
def lineRoom (holder : Nat) : Nat := if holder < 256 then 4096 else 6291456

/-- Which copies leave first when a holder is full (log entry 63). -/
def CopyState.rank : CopyState → Nat
  | .leased => 0
  | .shared => 1
  | .owned | .modified => 2
  | .combining _ _ => 3
  | .hostDirty => 4

/-- The line that a full holder evicts: of the lowest rank, the lowest line (log entry 63). -/
def victimOf (st : Store) (holder : Nat) : Option Nat :=
  let mine := st.copies.filter fun e => e.1 % 512 == holder
  ((List.range 4).findSome? fun k => mine.find? fun e => e.2.state.rank == k).map (·.1 / 512)

/-- A copy installed in an L1 or L2; where the holder is full another line leaves first. -/
def fillCopy (st : Store) (holder line : Nat) (c : Copy) : Store :=
  let full := (copyAt st holder line).isNone && decide (lineRoom holder ≤ (st.copies.filter fun e => e.1 % 512 == holder).length)
  let st := match full, victimOf st holder with
    | true, some l => evictCopy st holder l
    | _, _ => st
  putCopy st holder line c

/-- Whether a core holds a partial of a line (R162). -/
def holdsPartial (st : Store) (core line : Nat) : Bool := (copyAt st core line).any fun c => c.state.isPartial

/-! ### The steps of R144 -/

/-- Load at timestamps (wts, rts): the reader's timestamp and the new `rts`. -/
def loadStep (pts wts rts lease : Nat) : Nat × Nat :=
  let ts := max pts wts
  (ts, max rts (ts + lease))

/-- Store and Atomic: the timestamp past every lease. -/
def storeStep (pts rts : Nat) : Nat := max pts (rts + 1)

/-! ### Host-homed lines (R155) -/

/-- Words of a host-homed line that some core holds dirty. -/
def dirtyMask (st : Store) (line : Nat) : BitVec 16 :=
  (copiesOf st line).foldl (fun m e => if e.2.state == .hostDirty then m ||| e.2.mask else m) 0

/-- The device's words of a host-homed line, fetching the rest from host memory. Fetched words enter S past the proxy's
leases (R155). -/
def proxyFetch (st : Store) (line : Nat) : Store :=
  let c := (copyAt st proxyHolder line).getD { state := .leased, data := 0, mask := 0, wts := 0, rts := 0 }
  if c.mask = 0xFFFF then st
  else
    let d := dirOf st line
    let ts := d.rts + 1
    let st := putCopy st proxyHolder line { c with data := lineMerge (lineData st.mem line) c.data c.mask, mask := 0xFFFF }
    setDir st line { d with wts := ts, rts := ts }

/-- Only dirty words of a host-homed line stay the device's own, so that the next load fetches the rest (R155, R321). -/
def refetchHost (st : Store) (line : Nat) : Store :=
  match copyAt st proxyHolder line with
  | some c => putCopy st proxyHolder line { c with mask := c.mask &&& dirtyMask st line }
  | none => st

/-- The device's data of a host-homed line. -/
def proxyData (st : Store) (line : Nat) : BitVec 512 :=
  match copyAt st proxyHolder line with
  | some c => lineMerge (lineData st.mem line) c.data c.mask
  | none => lineData st.mem line

/-- The words that one core has marked dirty are written to host memory with the device's values, so that no older value follows a
newer one of another core (R153, R155). -/
def writeBackHost (st : Store) (core line : Nat) : Store :=
  match copyAt st core line with
  | some c =>
    if c.state == .hostDirty then dropCopy { st with mem := memPutLine st.mem line (proxyData st line) c.mask } core line else st
  | none => st

/-- The lines of host memory that a core holds dirty. -/
def dirtyHostLines (st : Store) (core : Nat) : List Nat :=
  (st.copies.filter (fun e => e.1 % 512 == core && e.2.state == .hostDirty)).map (·.1 / 512)

/-- The drop of `fence.sys.acq` (R153): clean copies of host-homed lines leave the core's L1 and its die's L2, and only
dirty words stay the device's own. -/
def dropHostClean (st : Store) (core : Nat) : Store :=
  let gone := fun (k : Nat) (c : Copy) =>
    isHostLine (k / 512) && c.state != .hostDirty && (k % 512 == core || k % 512 == l2Holder (dieOf core))
  let kept := st.copies.filter (fun e => !gone e.1 e.2)
  { st with
    copies := (kept.map fun e =>
      if e.1 % 512 == proxyHolder then (e.1, { e.2 with mask := e.2.mask &&& dirtyMask st (e.1 / 512) }) else e) }

/-! ### Accesses of a core (R160, R163, R164) -/

/-- The load of a line as a core's access: its data, the context's new timestamp, the stores. -/
abbrev Served := BitVec 512 × Nat × Store

/-- A load at a copy that the core may use (R162). -/
def loadAtCopy (st : Store) (holder line pts lease : Nat) (c : Copy) : Served :=
  match c.state with
  | .leased => (c.data, max pts c.wts, st)
  | .shared =>
    let ts := max pts c.wts
    (c.data, ts, putCopy st holder line { c with rts := max c.rts ts })
  | _ =>
    let (ts, rts) := loadStep pts c.wts c.rts lease
    (c.data, ts, putCopy st holder line { c with rts := rts })

/-- Whether a copy may serve a load of a policy at a timestamp (R162, R163). -/
def copyServes (c : Copy) (pol : Policy) (pts : Nat) : Bool :=
  match c.state, pol with
  | .owned, _ => true
  | .modified, _ => true
  | .shared, .wi => true
  | .shared, .si => true
  | .leased, .si => decide (pts ≤ c.rts)
  | _, _ => false

/-- A load of a host-homed line at its proxy, which fetches what it does not hold (R155). -/
def loadAtProxy (st : Store) (line pts lease : Nat) : Served :=
  let st := proxyFetch st line
  let d := dirOf st line
  let (ts, rts) := loadStep pts d.wts d.rts lease
  (proxyData st line, ts, setDir st line { d with rts := rts })

/-- A host-homed line loaded by a core: `.own` and `.wi` as `.si`, from a valid lease or at the proxy; `.wt` at the proxy, keeping no
copy (R155, R160). -/
def loadHost (st : Store) (core line : Nat) (pol : Policy) (pts lease : Nat) : Served :=
  let served := loadAtProxy st line pts lease
  let (data, ts, st') := served
  let d := dirOf st' line
  let leased : Copy := { state := .leased, data := data, mask := 0, wts := d.wts, rts := d.rts }
  let dirty := (copyAt st core line).any (fun c => c.state == .hostDirty)
  let atProxy : Served := if dirty then served else (data, ts, fillCopy st' core line leased)
  if pol = .wt then served
  else match copyAt st core line with
    | some c => if copyServes c .si pts then loadAtCopy st core line pts lease c else atProxy
    | none => atProxy

/-- A die that owns the line brings it from an owning L1 into its L2, its partials combined (R163: the die directory applies R164). -/
def bringToL2 (st : Store) (die line : Nat) : Store :=
  match ownerCopy st line with
  | some (h, c) => combineInDie (if h = l2Holder die then st else fillCopy (dropCopy st h line) (l2Holder die) line c) line
  | none => st

/-- As for a reader; for a writer the die's tracked copies are dropped too, with their timestamps folded. -/
def readyInDie (st : Store) (die line : Nat) (writes : Bool) : Store :=
  let st := bringToL2 st die line
  if writes then invalidateWhere st line (fun _ => true) else st

/-- The L2's owned line moves to a core's L1. -/
def grantInDie (st : Store) (core line : Nat) : Store :=
  let die := dieOf core
  let st := readyInDie st die line true
  match copyAt st (l2Holder die) line with
  | some c => fillCopy (dropCopy st (l2Holder die) line) core line c
  | none => st

/-- Exclusive ownership for a core's L1 (`.own` of R164): none while the host must answer first. Leases stay where they are. -/
def acquireOwn (st : Store) (core line : Nat) : Option Store :=
  let die := dieOf core
  if (copyAt st core line).any (fun c => c.state.owns) then some st
  else if hostBlocks st line true then none
  else if (dirOf st line).state = .owned die then some (grantInDie st core line)
  else
    let st := readyToWrite st line
    let d := dirOf st line
    let st := fillCopy st core line { state := .owned, data := lineData st.mem line, mask := 0, wts := d.wts, rts := d.rts }
    some (setDir st line { d with state := .owned die })

/-- A load of a device-homed line at its home, or in the owning die: the copies of the policy are installed (R160, R164). -/
def loadAtHome (st : Store) (core line : Nat) (pol : Policy) (pts lease : Nat) : Option Served :=
  let die := dieOf core
  let l2 := l2Holder die
  if hostBlocks st line false then none
  else if (dirOf st line).state = .owned die then
    let st := readyInDie st die line false
    (copyAt st l2 line).map fun c =>
      let (ts, rts) := loadStep pts c.wts c.rts lease
      let st := putCopy st l2 line { c with rts := rts }
      let copy : Copy := { state := .leased, data := c.data, mask := 0, wts := c.wts, rts := rts }
      (c.data, ts,
        match pol with
        | .si => fillCopy st core line copy
        | .wi => fillCopy st core line { copy with state := .shared, rts := ts }
        | _ => st)
  else
    let st := readyToRead st line
    let d := dirOf st line
    let (ts, rts) := loadStep pts d.wts d.rts lease
    let data := lineData st.mem line
    let st := setDir st line { d with rts := rts }
    let copy : Copy := { state := .leased, data := data, mask := 0, wts := d.wts, rts := rts }
    let both := fun (st : Store) (c : Copy) => fillCopy (fillCopy st core line c) l2 line c
    some (data, ts,
      match pol with
      | .si => both st copy
      | .wi =>
        let sharers := match d.state with | .tracked x => x | _ => 0
        setDir (both st { copy with state := .shared, rts := ts }) line
          { d with rts := rts, state := .tracked (sharers ||| dieBit die) }
      | _ => st)

/-- A load that a valid copy of the die's L2 serves (R163): a tracked copy there leases as the home would, and keeps the lease's end. -/
def loadAtL2 (st : Store) (core line : Nat) (pol : Policy) (pts lease : Nat) (c : Copy) : Served :=
  let l2 := l2Holder (dieOf core)
  match c.state, pol with
  | .shared, .si =>
    let (ts, rts) := loadStep pts c.wts c.rts lease
    (c.data, ts, fillCopy (putCopy st l2 line { c with rts := rts }) core line { c with state := .leased, rts := rts })
  | _, _ =>
    let (x, ts, st) := loadAtCopy st l2 line pts lease c
    (x, ts, fillCopy st core line { c with rts := if c.state == .shared then ts else c.rts })

/-- A core's load of a line under a policy: from its L1, its die, or the home; none while the host must answer first. A core that holds a
partial of the line asks the home, which combines it (R143, R162). -/
def serveLoad (st : Store) (core line : Nat) (pol : Policy) (pts lease : Nat) : Option Served :=
  if isHostLine line then some (loadHost st core line pol pts lease)
  else
    match copyAt st core line with
    | some c =>
      if copyServes c pol pts then some (loadAtCopy st core line pts lease c) else elsewhere
    | none => elsewhere
where
  elsewhere : Option Served :=
    if pol = .own then
      (acquireOwn st core line).bind fun st => (copyAt st core line).map fun c => loadAtCopy st core line pts lease c
    else
      match copyAt st (l2Holder (dieOf core)) line with
      | some c =>
        if copyServes c pol pts && !c.state.owns && !holdsPartial st core line then some (loadAtL2 st core line pol pts lease c)
        else loadAtHome st core line pol pts lease
      | none => loadAtHome st core line pol pts lease

/-- Store of masked words into line data at a copy (R144), clearing poison when all 16 are stored (R174). -/
def storeAtCopy (st : Store) (holder line pts : Nat) (mask : BitVec 16) (x : BitVec 512) : Option (Nat × Store) :=
  (copyAt st holder line).map fun c =>
    let ts := storeStep pts c.rts
    let d := dirOf st line
    (ts, setDir (putCopy st holder line { c with state := .modified, data := withoutReserved line (lineMerge c.data x mask), wts := ts, rts := ts }) line
      { d with poison := d.poison && mask != 0xFFFF })

/-- Store of masked words at the home (R144, R167), clearing poison when all 16 are stored (R174). -/
def storeAtHome (st : Store) (line pts : Nat) (mask : BitVec 16) (x : BitVec 512) : Nat × Store :=
  let d := dirOf st line
  let ts := storeStep pts d.rts
  let st := { st with mem := memPutLine st.mem line x mask }
  (ts, setDir st line { d with wts := ts, rts := ts, poison := d.poison && mask != 0xFFFF })

/-- A store to a host-homed line (R155): the device's words, marked dirty in the core's L1, or written through past the
512th line. -/
def storeHost (st : Store) (core line pts : Nat) (mask : BitVec 16) (x : BitVec 512) : Nat × Store :=
  let d := dirOf st line
  let ts := storeStep pts d.rts
  let p := (copyAt st proxyHolder line).getD { state := .leased, data := 0, mask := 0, wts := 0, rts := 0 }
  let st := putCopy st proxyHolder line { p with data := lineMerge p.data x mask, mask := p.mask ||| mask }
  let st := setDir st line { d with wts := ts, rts := ts }
  let h : Copy := match copyAt st core line with
    | some c => if c.state == .hostDirty then c else { state := .hostDirty, data := 0, mask := 0, wts := 0, rts := 0 }
    | none => { state := .hostDirty, data := 0, mask := 0, wts := 0, rts := 0 }
  if h.mask = 0 ∧ 512 ≤ (dirtyHostLines st core).length then
    (ts, dropCopy { st with mem := memPutLine st.mem line x mask } core line)
  else
    (ts, fillCopy st core line { h with data := lineMerge h.data x mask, mask := h.mask ||| mask, wts := ts, rts := ts })

/-- The writer's copy after a store at its home (R160, R164): its line data, its timestamp. -/
def keepAtHome (st : Store) (core line : Nat) (pol : Policy) (ts lease : Nat) : Store :=
  let die := dieOf core
  let d := dirOf st line
  let copy : Copy := { state := .leased, data := lineData st.mem line, mask := 0, wts := ts, rts := ts + lease }
  match pol with
  | .si => setDir (fillCopy st core line copy) line { d with rts := max d.rts (ts + lease) }
  | .wi =>
    let copy := { copy with state := .shared, rts := ts }
    setDir (fillCopy (fillCopy st core line copy) (l2Holder die) line copy) line { d with state := .tracked (dieBit die) }
  | _ => dropCopy st core line

/-- The writer's copy after a store in the die that owns the line (R160, R163). -/
def keepInDie (st : Store) (core line : Nat) (pol : Policy) (ts lease : Nat) : Store :=
  let l2 := l2Holder (dieOf core)
  match copyAt st l2 line with
  | none => st
  | some c =>
    let copy : Copy := { state := .leased, data := c.data, mask := 0, wts := ts, rts := ts + lease }
    match pol with
    | .si => putCopy (fillCopy st core line copy) l2 line { c with rts := max c.rts (ts + lease) }
    | .wi => fillCopy st core line { copy with state := .shared, rts := ts }
    | _ => dropCopy st core line

/-- A core's store of masked words of a line under a policy (R160, R164); none while the host must answer first. -/
def serveStore (st : Store) (core line : Nat) (pol : Policy) (pts lease : Nat) (mask : BitVec 16) (x : BitVec 512) :
    Option (Nat × Store) :=
  let die := dieOf core
  if isHostLine line then some (storeHost st core line pts mask x)
  else if pol = .own then (acquireOwn st core line).bind fun st => storeAtCopy st core line pts mask x
  else if hostBlocks st line true then none
  else if (dirOf st line).state = .owned die then
    (storeAtCopy (readyInDie st die line true) (l2Holder die) line pts mask x).map fun r => (r.1, keepInDie r.2 core line pol r.1 lease)
  else
    let (ts, st) := storeAtHome (readyToWrite st line) line pts mask x
    some (ts, keepAtHome st core line pol ts lease)

/-! ### The synchronisation engine (R193, R194) -/

/-- F of R65 and R277 on values of w bits. -/
def atomicFn (op : AtomicOp) (w : Nat) (old b c : Nat) : Nat :=
  let n := 2 ^ w
  match op with
  | .add => (old + b) % n
  | .and => old &&& b
  | .or => old ||| b
  | .xor => old ^^^ b
  | .min => if signedOf w b < signedOf w old then b else old
  | .max => if signedOf w old < signedOf w b then b else old
  | .minU => if b < old then b else old
  | .maxU => if old < b then b else old
  | .swp => b
  | .cas => if old = c then b else old

/-- Lines of a synchronisation engine's 2 MiB of SRAM (R194). -/
def engineRoom : Nat := 32768

/-- A line used by its engine is the last used one; an engine past its room writes the least recently used one back (R164, R194). -/
def useEngine (st : Store) (line : Nat) : Store :=
  let uses := line :: st.engineUse.filter (· != line)
  let mine := uses.filter fun l => homeDie l == homeDie line
  let st := { st with engineUse := uses }
  match decide (engineRoom < mine.length), mine.getLast? with
  | true, some l => recallLine st l
  | _, _ => st

/-- Every dirty word of a host-homed line written back (R155). -/
def writeBackLine (st : Store) (line : Nat) : Store :=
  ((copiesOf st line).filter fun e => e.2.state == .hostDirty).foldl (fun st e => writeBackHost st e.1 line) st

/-- The read of an atomic on a host-homed line: no dirty word of it remains in the device, and the proxy's engine reads the line from host
memory (R155). -/
def openHostAtomic (st : Store) (line : Nat) : Store :=
  let st := writeBackLine st line
  proxyFetch { st with copies := Sparse.erase st.copies (copyKey proxyHolder line) } line

/-- An atomic on n bytes at an offset of a line, at the engine of its home die (R144, R155): the old value and timestamp. Of a host-homed
line it takes the value that the proxy has read, and writes the new one through to host memory over whatever the host wrote since. -/
def serveAtomic (st : Store) (line off n pts : Nat) (op : AtomicOp) (b c : Nat) : Option (Nat × Nat × Store) :=
  if isHostLine line then
    let st := proxyFetch (writeBackLine st line) line
    let d := dirOf st line
    let x := proxyData st line
    let old := lineNat x off n
    let y := lineSet x off n (atomicFn op (8 * n) old (b % 256 ^ n) (c % 256 ^ n))
    let ts := storeStep pts d.rts
    let st := putCopy { st with mem := memPutLine st.mem line y (wordMask off n) } proxyHolder line
      { state := .leased, data := y, mask := 0xFFFF, wts := 0, rts := 0 }
    some (old, ts, setDir st line { d with wts := ts, rts := ts })
  else
    let home := homeDie line
    let taken : Option Store :=
      if (dirOf st line).state = .owned 4 then some st
      else if hostBlocks st line true then none
      else
        let st := readyToWrite st line
        let d := dirOf st line
        let st := putCopy st (engineHolder home) line
          { state := .owned, data := lineData st.mem line, mask := 0, wts := d.wts, rts := d.rts }
        some (setDir st line { d with state := .owned 4 })
    match taken with
    | none => none
    | some st =>
      let st := useEngine st line
      match copyAt st (engineHolder home) line with
      | none => none
      | some k =>
        let old := lineNat k.data off n
        let y := lineSet k.data off n (atomicFn op (8 * n) old (b % 256 ^ n) (c % 256 ^ n))
        let ts := storeStep pts k.rts
        some (old, ts, putCopy st (engineHolder home) line { k with state := .modified, data := withoutReserved line y, wts := ts, rts := ts })

/-! ### Commutative combining at a core (R170) -/

/-- A partial of a kind granted to a core, at the home or in the die that owns the line (R163, R164); none while the host must
answer first. -/
def grantPartial (st : Store) (core line : Nat) (t : ElemType) (op : RedOp) : Option Store :=
  let die := dieOf core
  let grant := fun (st : Store) (rts : Nat) =>
    fillCopy (dropCopy st core line) core line { state := .combining t op, data := 0, mask := 0, wts := 0, rts := rts }
  if hostBlocks st line true then none
  else if (dirOf st line).state = .owned die then
    let same := (partialsOf st line).all fun e => e.2.state == .combining t op
    let st := if same && !(partialsOf st line).isEmpty then st else readyInDie st die line true
    (copyAt st (l2Holder die) line).map fun c => grant st c.rts
  else
    let same : Option (BitVec 5) := match (dirOf st line).state with
      | .partials dies t' op' => if t' = t ∧ op' = op then some dies else none
      | _ => none
    let (dies, st) := match same with
      | some dies => (dies, st)
      | none => (0, readyToWrite st line)
    let d := dirOf st line
    some (setDir (grant st d.rts) line { d with state := .partials (dies ||| dieBit die) t op })

/-- `cadd` of one line (R170): the new timestamp and the stores. The words are (word, value). -/
def serveCombine (st : Store) (core line pts : Nat) (t : ElemType) (op : RedOp) (words : List (Nat × W32)) :
    Option (Nat × Store) :=
  let st := match copyAt st core line with
    | some c => if c.state.isPartial && c.state != .combining t op then evictPartial st core line else st
    | none => st
  let ready : Option Store := match copyAt st core line with
    | some c => if c.state.isPartial then some st else grantPartial st core line t op
    | none => grantPartial st core line t op
  match ready with
  | none => none
  | some st =>
    (copyAt st core line).map fun c =>
      let ts := max pts (c.rts + 1)
      let c := words.foldl
        (fun (c : Copy) e =>
          let bit : BitVec 16 := BitVec.ofNat 16 (2 ^ e.1)
          let one : Copy := { c with data := lineSet 0 (4 * e.1) 4 e.2.toNat, mask := bit }
          if c.mask.getLsbD e.1 then { c with data := combineWords t op c.data one }
          else { c with data := lineSet c.data (4 * e.1) 4 e.2.toNat, mask := c.mask ||| bit })
        c
      (ts, putCopy st core line { c with wts := max c.wts ts })

/-! ### Accesses of the device's own units and of the host -/

/-- The latest value of a line, seen without an access in S: what walks and the seal engine read (R199). -/
def latestData (st : Store) (line : Nat) : BitVec 512 :=
  if isHostLine line then proxyData st line
  else
    match (dirOf st line).state with
    | .owned _ => allCombined (((ownerCopy st line).map (·.2.data)).getD (lineData st.mem line))
    | .partials .. => allCombined (lineData st.mem line)
    | _ => lineData st.mem line
where
  allCombined (x : BitVec 512) : BitVec 512 :=
    withoutReserved line ((partialsOf st line).foldl
      (fun x e => match e.2.state with | .combining t op => combineWords t op x e.2 | _ => x) x)

/-- The latest bytes from an address. -/
def latestBytes (st : Store) (pa n : Nat) : List Byte :=
  (List.range n).map fun j => BitVec.ofNat 8 (lineNat (latestData st ((pa + j) / 64)) ((pa + j) % 64) 1)

/-- The latest n-byte number at an address. -/
def latestNat (st : Store) (pa n : Nat) : Nat := ofLeBytes (latestBytes st pa n)

/-- One line's part of bytes stored at the home by the device itself (a `.wt` store with no copy kept), once the host has given the line
up (R164). Dirty words of a host-homed line take the new bytes too. -/
def homeStoreLine (st : Store) (line off pts : Nat) (data : List Byte) : Nat × Store :=
  let x := lineSet (latestData st line) off data.length (ofLeBytes data)
  let mask := wordMask off data.length
  if isHostLine line then
    let d := dirOf st line
    let ts := storeStep pts d.rts
    let p := copyAt st proxyHolder line
    let st := { st with mem := memPutBytes st.mem (64 * line + off) data }
    let st := match p with
      | some c => putCopy st proxyHolder line { c with data := lineMerge c.data x mask }
      | none => st
    let st := ((copiesOf st line).filter fun e => e.2.state == .hostDirty).foldl
      (fun st e => putCopy st e.1 line { e.2 with data := lineMerge e.2.data x (e.2.mask &&& mask) }) st
    (ts, setDir st line { d with wts := ts, rts := ts })
  else storeAtHome (readyToWrite st line) line pts mask x

/-- Bytes stored at the home by the device itself, line by line; `fuel` bounds the lines. -/
def homeStoreFrom : Nat → Store → Nat → Nat → List Byte → Nat × Store
  | 0, st, _, pts, _ => (pts, st)
  | fuel + 1, st, pa, pts, data =>
    if data.isEmpty then (pts, st)
    else
      let n := 64 - pa % 64
      let (ts, st) := homeStoreLine st (pa / 64) (pa % 64) pts (data.take n)
      homeStoreFrom fuel st (pa + n) ts (data.drop n)

/-- Bytes stored at the home by the device itself (R144, R156, R212). -/
def homeStore (st : Store) (pa pts : Nat) (data : List Byte) : Nat × Store :=
  homeStoreFrom (data.length / 64 + 2) st pa pts data

end Sys2Proof.Machine
end

