-- ==== Sys2Proof/Machine/Ops.lean ====
section
/-! DEFINITION. The named operations over registers, the landing buffer and busy bits, and taking an exception: the fault
record, the routes of R205, and the return from one. -/

namespace Sys2Proof.Machine

/-- What a meaning answers. -/
abbrev Out := Host.Outcome State Fault Refusal

/-! ### Contexts and cores -/

/-- The context in a hardware context; one that holds none reads as just placed. -/
def State.ctx (s : State) (h : Nat) : Ctx := Sparse.get .placed s.ctxs h

/-- Storing a hardware context. -/
def State.setCtx (s : State) (h : Nat) (c : Ctx) : State := { s with ctxs := Sparse.put s.ctxs h c }

/-- Changing a hardware context. -/
def State.mapCtx (s : State) (h : Nat) (f : Ctx → Ctx) : State := s.setCtx h (f (s.ctx h))

/-- The context that the instruction executed next belongs to. -/
def State.here (s : State) : Ctx := s.ctx s.focusCtx

/-- Changing it. -/
def State.mapHere (s : State) (f : Ctx → Ctx) : State := s.mapCtx s.focusCtx f

/-- The core of a hardware context (R10). -/
def coreOf (h : Nat) : Nat := h / 4

/-- A core; one that nothing has touched has run in HEEL since device reset, 5 half ticks a cycle (R240, R257). -/
def State.core (s : State) (c : Nat) : Core :=
  Sparse.get { Core.atReset with cycles := s.refHalf / 5, cycleLeft := 5 - s.refHalf % 5, windowCycle := s.refHalf / 5 % 256 } s.cores c

/-- Storing a core. -/
def State.setCore (s : State) (c : Nat) (k : Core) : State := { s with cores := Sparse.put s.cores c k }

/-- Changing a core. -/
def State.mapCore (s : State) (c : Nat) (f : Core → Core) : State := s.setCore c (f (s.core c))

/-- The power account of a die; before the first token its budget is its reserved share (R258). -/
def State.die (s : State) (d : Nat) : Die :=
  Sparse.get { spent := 0, last := 0, budget := s.dev.record.shares.getD d 0, leashAge := 0 } s.dev.dies d

/-- Changing it. -/
def State.mapDie (s : State) (d : Nat) (f : Die → Die) : State :=
  { s with dev := { s.dev with dies := Sparse.put s.dev.dies d (f (s.die d)) } }

/-- n budget units charged to a core's window and its die (R246, R258). -/
def charge (c n : Nat) (s : State) : State :=
  if n = 0 then s
  else (s.mapCore c fun k => { k with sum := k.sum + n }).mapDie (c / 64) fun d => { d with spent := d.spent + n }

/-- What a die may spend: its reserved share with what it took, and the share alone while its token is late (R258). -/
def State.budgetNow (s : State) (d : Nat) : Nat :=
  if s.refHalf < s.dev.tokenAge + micros 1 then (s.die d).budget else s.dev.record.shares.getD d 0

/-- What a die has spent in this microsecond, with the rest of the matrix groups that its cores have begun. -/
def State.committed (s : State) (d : Nat) : Nat :=
  ((s.cores.filter fun e => e.1 / 64 == d).map fun e =>
    ((e.2.queue.filter fun o => o.running && o.left != o.step).map fun o => o.charge * o.left).sum).sum + (s.die d).spent

/-- Whether the die of a core may spend n units more (R258). -/
def State.dieRoom (s : State) (c n : Nat) : Bool := decide (s.committed (c / 64) + n ≤ s.budgetNow (c / 64))

/-- Whether a core's running sum has passed its grant; in HEEL three times the sum stands against eight times the grant
(R246, R249). -/
def Core.pastGrant (k : Core) : Bool := if k.run then decide (k.grant < k.sum) else decide (8 * k.grant < 3 * k.sum)

/-- The hold window of a context while it is open: 64 core cycles after its `hold` it is closed (R122). -/
def Work.openHold (w : Work) : Option HoldWindow := w.hold.filter fun x => decide (x.cycles < 64)

/-- Whether a hold window has reached its cycle limit with bundles of it still to come. -/
def Work.overran (w : Work) : Bool := w.hold.any fun x => decide (64 ≤ x.cycles)

/-- A hold window closes; at its cycle limit the next bundle of it will take a hold fault (R122). -/
def Work.closeHold (w : Work) : Work := { w with hold := none, holdFault := w.holdFault || w.overran }

/-- Whether a context of a core has a bank hold window open (R121). -/
def State.coreHeld (s : State) (c : Nat) : Bool := s.ctxs.any fun e => coreOf e.1 == c && e.2.work.openHold.isSome

/-- Whether an open window of a context that a test picks holds the core bank of an address (R121). -/
def heldWhere (p : Nat → Bool) (s : State) (core addr : Nat) : Bool :=
  s.ctxs.any fun e => coreOf e.1 == core && p e.1 && e.2.work.openHold.any fun w => w.banks.contains (addr / 65536)

/-- Whether any window holds it. -/
def bankHeld (s : State) (core addr : Nat) : Bool := heldWhere (fun _ => true) s core addr

/-- Whether a window of another context than h holds it. -/
def heldByOther (s : State) (h addr : Nat) : Bool := heldWhere (· != h) s (coreOf h) addr

/-- Whether the energy controller stalls a core (R249); never while a bank hold window is open (R121). -/
def State.leashed (s : State) (c : Nat) : Bool := ((s.core c).stalled || (s.core c).pastGrant) && !s.coreHeld c

/-- The end of an idle state: every core is clocked again (R260). -/
def leaveIdle (s : State) : State :=
  if s.dev.idle = 0 then s
  else { s with cores := s.cores.map fun e => (e.1, { e.2 with gated := false }), dev := { s.dev with idle := 0, idleAge := 0 } }

/-- Changing the stores. -/
def State.mapStore (s : State) (f : Store → Store) : State := { s with store := f s.store }

/-- Changing the device record. -/
def State.mapDev (s : State) (f : Device → Device) : State := { s with dev := f s.dev }

/-- Changing one continuation. -/
def State.mapCont (s : State) (i : Nat) (f : Cont → Cont) : State :=
  s.mapDev fun d => { d with conts := Sparse.adjust d.conts i f }

/-- A continuation by registry index. -/
def State.cont (s : State) (i : Nat) : Cont := Sparse.get (.idle 0) s.dev.conts i

/-- The hardware context that holds a context of a continuation, by its rank; none while it is not on a core. -/
def State.hwOf (s : State) (i rank : Nat) : Option Nat :=
  (s.ctxs.find? fun e => e.2.cont == i && e.2.rank == rank).map (·.1)

/-- A context of a continuation wherever it is: on a core, or in the kennel (R235). -/
def State.ctxOf (s : State) (i rank : Nat) : Option Ctx :=
  match s.hwOf i rank with
  | some h => some (s.ctx h)
  | none => (s.cont i).kennel.findSome? fun p => match p with | .ctx r c => if r = rank then some c else none | _ => none

/-- Changing a context of a continuation wherever it is. -/
def State.mapRank (s : State) (i rank : Nat) (f : Ctx → Ctx) : State :=
  match s.hwOf i rank with
  | some h => s.mapCtx h f
  | none => s.mapCont i fun c =>
    { c with kennel := c.kennel.map fun p => match p with | .ctx r x => .ctx r (if r = rank then f x else x) | p => p }

/-- An output appended. -/
def State.output (s : State) (o : Output) : State := s.mapDev fun d => { d with outputs := d.outputs ++ [o] }

/-- The host is asked to give a line up, once (R164). -/
def askHost (line : Nat) (s : State) : State :=
  if s.dev.backInv.contains line then s
  else (s.mapDev fun d => { d with backInv := line :: d.backInv }).output (.backInvalidate line)

/-- Whether a context of a continuation is in the kennel (R235). -/
def Cont.savedCtx (c : Cont) (rank : Nat) : Bool := c.kennel.any fun p => match p with | .ctx r _ => r == rank | _ => false

/-- Whether a window of a seat is in the kennel. -/
def Cont.savedWindow (c : Cont) (seat pos : Nat) : Bool :=
  c.kennel.any fun p => match p with | .window a b _ _ _ _ => a == seat && b == pos | _ => false

/-- Whether a tile of a context is in the kennel. -/
def Cont.savedTile (c : Cont) (rank t : Nat) : Bool :=
  c.kennel.any fun p => match p with | .tile r j _ => r == rank && j == t | _ => false

/-- The hardware context on whose core the window of a context lies; none while the context or its window is in the kennel (R181). -/
def State.windowHw (s : State) (i rank : Nat) : Option Nat :=
  let c := s.cont i
  let pos := if c.launch.shared then 0 else rank % c.launch.perCore
  if c.savedWindow (rank / c.launch.perCore) pos then none else s.hwOf i rank

/-- The lease length in force (R145). -/
def State.lease (s : State) : Nat := s.dev.record.lease

/-! ### Registers (R31 to R35) -/

/-- `g` register r: `g0` reads zero (R32). -/
def Regs.readG (r : Regs) (i : Nat) : W64 := if i = 0 then 0 else Sparse.get 0 r.g i

/-- Writing a `g` register; `g0` discards (R32). -/
def Regs.writeG (r : Regs) (i : Nat) (x : W64) : Regs := if i = 0 then r else { r with g := Sparse.set 0 r.g i x }

/-- Every lane zero. -/
def zeroLanes : List W32 := List.replicate 64 0

/-- Physical `v` register p. -/
def Regs.readV (r : Regs) (p : Nat) : List W32 := Sparse.get zeroLanes r.v p

/-- The lanes of `x` whose mask bit is 1, over `old`. -/
def mergeLanes (mask : W64) (old x : List W32) : List W32 :=
  (List.range 64).map fun i => if mask.getLsbD i then x.getD i 0 else old.getD i 0

/-- Writing lanes of a physical `v` register. -/
def Regs.writeV (r : Regs) (p : Nat) (mask : W64) (x : List W32) : Regs :=
  { r with v := Sparse.set zeroLanes r.v p (mergeLanes mask (r.readV p) x) }

/-- `m` register: `m0` reads all ones (R32). -/
def Regs.readM (r : Regs) (i : Nat) : W64 := if i = 0 then BitVec.allOnes 64 else Sparse.get 0 r.m i

/-- Writing bits of an `m` register; `m0` discards (R32). -/
def Regs.writeM (r : Regs) (i : Nat) (mask x : W64) : Regs :=
  if i = 0 then r else { r with m := Sparse.set 0 r.m i ((r.readM i &&& ~~~mask) ||| (x &&& mask)) }

/-- `Phys(X)` of R33. -/
def phys (rb : BitVec 5) (x : Nat) : Nat := if x < 32 then x else 32 + (x - 32 + rb.toNat) % 32

/-- The narrow-format record of `nf` n; 0x31C0 at placement (R31). -/
def Regs.readNf (r : Regs) (n : Reg2) : BitVec 14 := Sparse.get 0x31C0 r.nf n.toNat

/-- Word j of walk register i (R176). -/
def Regs.walk (r : Regs) (i j : Nat) : W64 := Sparse.get 0 r.walks (4 * i + j)

/-- The four words of walk register i. -/
def Regs.walkWords (r : Regs) (i : Nat) : List W64 := [r.walk i 0, r.walk i 1, r.walk i 2, r.walk i 3]

/-- A ring descriptor; undefined (C = 0) where no record or `rdef` set it (R126). -/
def Regs.ring (r : Regs) (n : Nat) : Ring := Sparse.get { base := 0, cap := 0, head := 0, tail := 0 } r.rings n

/-! ### Busy bits (R93), which are those of the results on their way -/

/-- Whether a destination is the `g` register r. -/
def DeliverTo.isG (d : DeliverTo) (r : Nat) : Bool :=
  match d with
  | .g i => i == r
  | _ => false

/-- Whether a destination lies in the physical `v` register p. -/
def DeliverTo.isV (d : DeliverTo) (p : Nat) : Bool :=
  match d with
  | .v i _ => i == p
  | _ => false

/-- Whether a destination is the write stream of an id. -/
def DeliverTo.isPush (d : DeliverTo) (id : Nat) : Bool :=
  match d with
  | .push i _ => i == id
  | _ => false

/-- Every destination whose busy bit an earlier bundle has set: a bundle does not wait for its own operations (R93). -/
def Ctx.busyDests (c : Ctx) : List DeliverTo :=
  let old := fun (age : Nat) => decide (age < 8 * c.retired)
  (c.work.memOps.filter (fun o => old o.age)).filterMap MemOp.dest ++ c.work.replay.filterMap MemOp.dest ++
    (c.work.delivers.filter (fun d => old d.age)).map Deliver.dest ++
    (c.work.feq.filter (fun e => old e.age)).filterMap FeEntry.load

/-- The busy bit of `g` register r. `g0` is never busy: a write to it is discarded (R32, log entry 8). -/
def Ctx.busyG (c : Ctx) (r : Nat) : Bool := r != 0 && c.busyDests.any (·.isG r)

/-- The busy bit of physical `v` register p. -/
def Ctx.busyV (c : Ctx) (p : Nat) : Bool := c.busyDests.any (·.isV p)

/-- Whether a push to a write stream is on its way by `Deliver` (R117). -/
def Ctx.busyPush (c : Ctx) (id : Nat) : Bool := c.busyDests.any (·.isPush id)

/-- Whether a coherent operation is untranslated (R97, R98). -/
def Ctx.untranslated (c : Ctx) : Bool := c.work.memOps.any (fun o => !o.translated) || !c.work.replay.isEmpty

/-- `OutLoads` of R95. -/
def Ctx.outLoads (c : Ctx) : Nat :=
  let isLoad := fun (o : MemOp) => match o.kind with | .load => true | .atomic .. => true | _ => false
  (c.work.memOps.filter isLoad).length + (c.work.replay.filter isLoad).length + (c.work.delivers.filter (·.load)).length

/-- `OutStores` of R95; an atomic at a peer counts until its old value is delivered (R195). -/
def Ctx.outStores (c : Ctx) : Nat :=
  let isStore := fun (o : MemOp) => match o.kind with | .load => false | _ => true
  (c.work.memOps.filter isStore).length + (c.work.replay.filter isStore).length + (c.work.delivers.filter (·.peer)).length +
    c.work.barvs.length

/-- The engine commands of a continuation's context on every core's channels, with core and channel number (R180). -/
def State.channelsOf (s : State) (i rank : Nat) : List (Nat × Nat × Channel) :=
  (s.cores.map fun e => (e.2.channels.filter (fun x => x.2.cont == i && x.2.rank == rank)).map fun x => (e.1, x.1, x.2)).flatten

/-- `OutCopies` of R95: the engine commands of the context that have not left their channels, on whichever core. -/
def State.outCopies (s : State) (h : Nat) : Nat := (s.channelsOf (s.ctx h).cont (s.ctx h).rank).length

/-- The tile operations of a context that have not retired: queued on its core, or frozen by a halt (R130, R139). -/
def State.tileOps (s : State) (h : Nat) : List MatOp :=
  (s.core (coreOf h)).queue.filter (fun o => o.ctx == h) ++ (s.ctx h).work.frozen

/-- `OutTiles` of R95. -/
def State.outTiles (s : State) (h : Nat) : Nat := (s.tileOps h).length

/-- Whether a landing effect is a push to a write stream. -/
def Effect.isPush : Effect → Bool
  | .push .. => true
  | _ => false

/-- The sequence number that gates compare, of the bundle whose result has an age. -/
def seqOfAge (age : Nat) : Nat := 2 * (age / 8)

/-- Whether every access of sequence below a gate has performed: coherent operations, a `park`, full/empty entries, pushes to write streams
(R108, R140, R149, R151, R153, log entry 28). -/
def Ctx.performedBelow (c : Ctx) (gate : Nat) : Bool :=
  c.work.memOps.all (fun o => decide (gate ≤ o.seq)) && c.work.replay.all (fun o => decide (gate ≤ o.seq)) &&
    c.work.park.all (fun p => decide (gate ≤ p.seq)) && c.work.feq.all (fun e => decide (gate ≤ e.seq)) &&
    c.work.landing.all (fun p => !p.eff.isPush || decide (gate ≤ seqOfAge p.age)) &&
    c.work.delivers.all (fun d => (match d.dest with | .push .. => false | _ => true) || decide (gate ≤ seqOfAge d.age))

/-! ### The engine port (R107, R121) -/

/-- A requester's number: the port goes round in their order (R107). -/
def PortUser.number : PortUser → Nat
  | .entry h => 8 * h
  | .stream h r => 8 * (64 * h + r) + 1
  | .push h _ => 8 * h + 2
  | .barv h => 8 * h + 3
  | .matrix => 4
  | .copy c ch => 8 * (8 * c + ch) + 5
  | .count c => 8 * c + 6
  | .peer d => 8 * d + 7

/-- Whether a requester comes before another in the round that follows the one served last. -/
def roundBefore (last : Nat) (u v : PortUser) : Bool :=
  let a := u.number
  let b := v.number
  if last < a then decide (b ≤ last) || decide (a < b) else decide (b ≤ last) && decide (a < b)

/-- The context that a request serves, for those that leave with it. -/
def PortUser.serves : PortUser → Option Nat
  | .entry h | .stream h _ | .push h _ | .barv h => some h
  | _ => none

/-- Whether the hold window of a context h lets a requester through: the holder's streams, and its full/empty entries from before the window
(R121). -/
def PortUser.passes (s : State) (h : Nat) (w : HoldWindow) : PortUser → Bool
  | .stream x _ | .push x _ => x == h
  | .entry x => x == h && (s.ctx h).work.feq.head?.any fun e => decide (e.seq < w.entries)
  | _ => false

/-- Whether an open window of the core holds a core bank against a requester (R121). -/
def heldAgainst (s : State) (u : PortUser) (core bank : Nat) : Bool :=
  s.ctxs.any fun e => coreOf e.1 == core && e.2.work.openHold.any fun w => w.banks.contains bank && !u.passes s e.1 w

/-- Whether banks of a core can serve a requester now: no window holds them against it (R121), and their ports have served none in this
cycle (R107). -/
def banksOpen (s : State) (u : PortUser) (core : Nat) (banks : List Nat) : Bool :=
  banks.all fun b => !(s.core core).port.contains b && !heldAgainst s u core b

/-- Whether two requests name a bank in common. -/
def PortWait.meets (v w : PortWait) : Bool := v.user != w.user && v.banks.any w.banks.contains

/-- Arrival order; the round decides between requests that arrived in one cycle (R107, R121). -/
def PortWait.before (last : Nat) (v w : PortWait) : Bool :=
  decide (v.since < w.since) || v.since == w.since && roundBefore last v.user w.user

/-- Whether a waiting request stands before another at a core: it comes before it, its banks there can serve it, and so can those that it
needs at other cores, with nothing before it there. -/
def portBefore (s : State) (core : Nat) (v w : PortWait) : Bool :=
  v.meets w && v.before (s.core core).portLast w && banksOpen s v.user core v.banks &&
    s.cores.all fun e => e.1 == core || (e.2.portWaits.filter (·.user == v.user)).all fun x =>
      banksOpen s x.user e.1 x.banks && !e.2.portWaits.any fun y => y.meets x && y.before e.2.portLast x

/-- The banks of core addresses. -/
def banksOf (addrs : List Nat) : List Nat := (addrs.map (· / 65536)).dedup

/-- The request that a requester makes: the one that waits, or one that arrives now. -/
def Core.request (k : Core) (u : PortUser) (banks : List Nat) : PortWait :=
  (k.portWaits.find? fun w => w.user == u && w.banks == banks).getD { user := u, banks := banks, since := k.cycles }

/-- Whether the engine ports of the banks of core addresses serve a requester now (R107, R121). A request is served in the cycle after that of
its arrival at the earliest, so that all that arrived with it stand against it in the round (log entry 73). -/
def portFree (s : State) (u : PortUser) (core : Nat) (addrs : List Nat) : Bool :=
  let w := (s.core core).request u (banksOf addrs)
  addrs.isEmpty ||
    decide (w.since < (s.core core).cycles) && banksOpen s u core w.banks && !(s.core core).portWaits.any fun v => portBefore s core v w

/-- A requester served: each of its banks serves no other one before the next cycle. -/
def usePort (u : PortUser) (core : Nat) (addrs : List Nat) (s : State) : State :=
  if addrs.isEmpty then s
  else s.mapCore core fun k =>
    { k with port := ((banksOf addrs).filter fun b => !k.port.contains b) ++ k.port
             portWaits := k.portWaits.filter fun w => w.user != u
             portLast := u.number }

/-- A request that arrives in a cycle, if it does not wait already. -/
def Core.ask (k : Core) (u : PortUser) (banks : List Nat) (since : Nat) : Core :=
  if k.portWaits.any fun w => w.user == u && w.banks == banks then k
  else { k with portWaits := k.portWaits.filter (fun w => w.user != u) ++ [{ user := u, banks := banks, since := since }] }

/-- A requester that the ports do not serve now waits, from the cycle in which it arrived. -/
def queuePort (u : PortUser) (core : Nat) (addrs : List Nat) (s : State) : State :=
  if addrs.isEmpty then s else s.mapCore core fun k => k.ask u (banksOf addrs) k.cycles

/-- A requester waits at no engine port any more. -/
def leavePorts (u : PortUser) (s : State) : State :=
  { s with cores := s.cores.map fun e => (e.1, { e.2 with portWaits := e.2.portWaits.filter fun w => w.user != u }) }

/-- What the ports serve happens, and what they do not serve waits for them. -/
def throughPort (u : PortUser) (core : Nat) (addrs : List Nat) (f : State → State) (s : State) : State :=
  if portFree s u core addrs then f (usePort u core addrs s) else queuePort u core addrs s

/-! ### Writes of engines, and the staging buffer of a changeover pause (R244) -/

/-- A scratchpad write of an engine: during a changeover pause it waits in the staging buffer (R244). -/
def engineWrite (core addr : Nat) (data : List Byte) (s : State) : State :=
  if (s.core core).pause = 0 then s.mapStore fun st => scratchPutBytes st core addr data
  else s.mapCore core fun k => { k with staging := k.staging ++ [{ addr := addr, data := data }] }

/-- Whether n more bytes find room in the staging buffer of 16 KiB, if they must wait there (R244). -/
def stagingRoom (s : State) (core n : Nat) : Bool :=
  (s.core core).pause == 0 || decide (((s.core core).staging.map (·.data.length)).sum + n ≤ 16384)

/-! ### Landing (R89, R90, R94) -/

/-- The rank of the focus slot's results in program order. -/
def State.age (s : State) : Nat := s.here.retired * 8 + s.focusSlot

/-- `Land` of R36: an effect that lands L issue-cycles after the focus bundle. -/
def land (L : Nat) (e : Effect) (s : State) : State :=
  s.mapHere fun c =>
    { c with work := { c.work with landing := c.work.landing ++ [{ due := c.count + L, age := s.age, eff := e, held := false }] } }

/-- Words 256-byte entry j of a stream covers: for each lane, the window offset of each of its four bytes, or none past the
end of the sequence (R115). -/
structure WalkShape where
  esize : Nat
  c0 : Nat
  c1 : Nat
  c2 : Nat
  s0 : Int
  s1 : Int
  deriving DecidableEq, Repr

/-- The fields of walk words 0 to 2 (R176). -/
def walkShape (w0 w1 w2 : W64) : WalkShape :=
  { esize := (w0.extractLsb' 4 3).toNat, c0 := (w1.extractLsb' 0 20).toNat, c1 := (w1.extractLsb' 20 20).toNat,
    c2 := (w1.extractLsb' 40 20).toNat, s0 := (w2.extractLsb' 0 32).toInt, s1 := (w2.extractLsb' 32 32).toInt }

/-- Byte total of a walk (R178). -/
def WalkShape.total (w : WalkShape) : Nat := w.c0 * w.c1 * w.c2 * 2 ^ w.esize

/-- The displacement of element n, counted with i0 fastest (R115). -/
def WalkShape.element (w : WalkShape) (n : Nat) : Int :=
  let i0 := n % w.c0
  let i1 := n / w.c0 % w.c1
  let i2 := n / (w.c0 * w.c1)
  (i0 * 2 ^ w.esize : Nat) + (i1 : Int) * w.s0 + (i2 : Int) * w.s1

/-- The displacement of byte j (R178). -/
def WalkShape.byte (w : WalkShape) (j : Nat) : Int := w.element (j / 2 ^ w.esize) + (j % 2 ^ w.esize : Nat)

/-- The least displacement of a walk that is not empty. -/
def WalkShape.low (w : WalkShape) : Int := min 0 (((w.c1 : Int) - 1) * w.s0) + min 0 (((w.c2 : Int) - 1) * w.s1)

/-- The greatest displacement of a byte of a walk that is not empty. -/
def WalkShape.high (w : WalkShape) : Int :=
  ((w.c0 * 2 ^ w.esize : Nat) : Int) - 1 + max 0 (((w.c1 : Int) - 1) * w.s0) + max 0 (((w.c2 : Int) - 1) * w.s1)

/-- Whether every byte of a walk based at `start` lies below a size; an empty walk has none. -/
def WalkShape.inside (w : WalkShape) (start size : Nat) : Bool :=
  w.total == 0 || (decide (0 ≤ (start : Int) + w.low) && decide ((start : Int) + w.high < (size : Int)))

/-- Where byte j of a walk based at `start` lies, as an exact integer. -/
def WalkShape.at (w : WalkShape) (start j : Nat) : Int := start + w.byte j

/-- The shape of a stream. -/
def Stream.shape (x : Stream) : WalkShape := walkShape x.w0 x.w1 x.w2

/-- Entries of a stream (R115). -/
def Stream.length (x : Stream) : Nat := (x.shape.total + 255) / 256

/-- The bytes of entry j that lie in the sequence: byte of the entry and window offset. -/
def Stream.entryBytes (x : Stream) (j : Nat) : List (Nat × Int) :=
  ((List.range 256).filter (fun b => decide (256 * j + b < x.shape.total))).map fun b =>
    (b, x.shape.at x.start.toNat (256 * j + b))

/-- Whether every byte of entry j lies in a window of a size (R118). -/
def Stream.entryInside (x : Stream) (j size : Nat) : Bool :=
  (x.entryBytes j).all fun e => decide (0 ≤ e.2) && decide (e.2 < (size : Int))

/-- The bytes of one lane of an entry that lie in the sequence. -/
def Stream.laneBytes (x : Stream) (j lane : Nat) : List (Nat × Int) := (x.entryBytes j).filter fun e => e.1 / 4 == lane

/-- One lane of entry j as read from the scratchpad: bytes past the end of the sequence read zero (R115). -/
def Stream.readLane (x : Stream) (st : Store) (core base j lane : Nat) : W32 :=
  let bytes := (x.laneBytes j lane).map fun e => (e.1, scratchByte st core (base + e.2.toNat))
  BitVec.ofNat 32 (ofLeBytes ((List.range 4).map fun k => ((bytes.find? (fun e => e.1 == 4 * lane + k)).map (·.2)).getD 0))

/-- The lanes of entry j that hold a byte of the sequence. -/
def Stream.lanesOf (x : Stream) (j : Nat) : List Nat := (List.range 64).filter fun lane => !(x.laneBytes j lane).isEmpty

/-- Where the words of a stream's entry j are kept. -/
def wordsKey (j : Nat) : Nat := 64 * j

/-- Whether a word of entry j has been read (R119). -/
def Stream.hasRead (x : Stream) (j lane : Nat) : Bool := (x.words.find (wordsKey j + lane)).isSome

/-- Whether entry j has been fetched: each of its words has been read (R119). -/
def Stream.fetched (x : Stream) (j : Nat) : Bool := (x.lanesOf j).all (x.hasRead j)

/-- The lanes of entry j as they were read. -/
def Stream.entry (x : Stream) (j : Nat) : List W32 := (List.range 64).map fun i => Sparse.get 0 x.words (wordsKey j + i)

/-- One more entry popped or pushed: its words are kept no more. -/
def Stream.take (x : Stream) : Stream :=
  { x with taken := x.taken + 1, words := x.words.filter fun e => decide (wordsKey (x.taken + 1) ≤ e.1) }

/-- A halt drops what a stream has fetched (R119). -/
def Stream.dropFetched (x : Stream) : Stream := { x with words := [] }

/-- A pushed entry's bytes with their core addresses (R117, R119); bytes past the end of the sequence write nothing. -/
def Stream.pushBytes (x : Stream) (base : Nat) (lanes : List W32) : List (Nat × Byte) :=
  (x.entryBytes x.written).map fun e => (base + e.2.toNat, (lanes.getD (e.1 / 4) 0).extractLsb' (8 * (e.1 % 4)) 8)

/-- A push lands: the entry is written after those before it (R117). -/
def pushEntry (h id : Nat) (bytes : List (Nat × Byte)) (s : State) : State :=
  (bytes.foldl (fun s e => engineWrite (coreOf h) e.1 [e.2] s) s).mapCtx h fun c =>
    { c with work := { c.work with
        streams := c.work.streams.map fun y => if y.id == id then { y with written := y.written + 1 } else y } }

/-- A latch of slot VA or VB is stale once a write to its register has landed (R29). -/
def staleLatch (c : Ctx) (p : Nat) (l : Option OperandLatch) : Option OperandLatch :=
  l.map fun l => if l.cont == c.cont && l.rank == c.rank && l.reg == p then { l with fresh := false } else l

/-- An event that a counter counts, caused by the bundle of an age: the reads of later bundles on their way see it too (R330). -/
def Ctx.countEvent (c : Ctx) (n : SysReg) (age : Nat) : Ctx :=
  let r := c.regs
  { c with
    regs := match n with
      | .reusemiss => { r with reusemiss := r.reusemiss + 1 }
      | .undecl => { r with undecl := r.undecl + 1 }
      | .emis => { r with emis := r.emis + 1 }
      | _ => r
    work := { c.work with delivers := c.work.delivers.map fun d =>
      if d.counter == some n && decide (age / 8 < d.age / 8) then { d with value := d.value.map fun x => x + 1 } else d } }

/-- The reduction latch after a contribution (R87): an empty latch takes it unchanged. The flags are the rounding's. -/
def Regs.reduce (r : Regs) (n : Nat) (op : RedOp) (t : ElemType) (x : W32) : Regs × Flags5 :=
  match Sparse.find r.ps n with
  | none => ({ r with ps := Sparse.put r.ps n x }, 0)
  | some y =>
    let (z, fl) := combine op t y.toNat x.toNat
    ({ r with ps := Sparse.put r.ps n (BitVec.ofNat 32 z) }, fl)

/-- Scale latch bytes as a table over the placement value 0x7F (R136). -/
def scaleTable (x : List Byte) : Sparse Byte :=
  ((List.range 256).map fun j => (j, x.getD j 0)).filter (fun e => e.2 != 0x7F)

/-- Releasing a binding of a register number (R114). A read stream goes; a write stream stays until its pushes land. -/
def Work.unbind (w : Work) (x : Nat) : Work :=
  match Sparse.find w.binds x with
  | none => w
  | some id =>
    { w with binds := Sparse.erase w.binds x, streams := w.streams.filter (fun y => y.id != id || y.writes && y.written < y.taken) }

/-- An effect on registers alone, at landing count `due`, age `age`. -/
def Ctx.applyEffect (c : Ctx) (due age : Nat) (e : Effect) : Ctx :=
  let r := c.regs
  match e with
  | .g i x => { c with regs := r.writeG i x }
  | .v p mask x => { c with regs := r.writeV p mask x }
  | .m i mask x => { c with regs := r.writeM i mask x }
  | .q mask x => { c with regs := { r with q := (r.q &&& ~~~mask) ||| (x &&& mask) } }
  | .lc x => { c with regs := { r with lc := x } }
  | .ec x => { c with regs := { r with ec := x } }
  | .rb x => { c with regs := { r with rb := x } }
  | .fflags x => { c with regs := { r with fflags := x }, ffDue := due, ffAge := age }
  | .raise x => { c with regs := { r with fflags := r.fflags ||| x } }
  | .apeer x => { c with regs := { r with apeer := x } }
  | .walk i x => { c with regs := { r with walks := Sparse.set 0 r.walks i x } }
  | .nf n x => { c with regs := { r with nf := Sparse.set 0x31C0 r.nf n x } }
  | .ps n op t x =>
    let (r, fl) := r.reduce n op t x
    { c with regs := { r with fflags := r.fflags ||| fl } }
  | .scale side x =>
    { c with regs := if side then { r with scaleB := scaleTable x } else { r with scaleA := scaleTable x } }
  | .crng n x => { c with regs := { r with crng := Sparse.set 0 r.crng n x } }
  | .bind x st =>
    let w := c.work.unbind x
    { c with work := { w with binds := Sparse.put w.binds x st.id, streams := w.streams ++ [st] } }
  | .unbind x => { c with work := c.work.unbind x }
  | .push _ _ => c
  | .gear run => { c with gearReq := run }

/-- The issue-cycle count that a context has reached in the current cycle (R26): the declared stall of its last bundle counts as it
passes, after the cost of a branch (log entry 60). -/
def Ctx.nowCount (c : Ctx) : Nat := c.count - min c.stallLeft c.span

/-- Whether an effect's landing count has come (R89). -/
def Ctx.hasCome (c : Ctx) (p : Pending) : Bool := decide (p.due ≤ c.nowCount)

/-- Whether a push whose count has come is still to be written. -/
def Ctx.pushWaits (c : Ctx) : Bool := c.work.landing.any fun p => p.eff.isPush && c.hasCome p

/-- A push goes back to the landing buffer. -/
def keepPush (h : Nat) (p : Pending) (s : State) : State :=
  s.mapCtx h fun c => { c with work := { c.work with landing := c.work.landing ++ [p] } }

/-- A push of an entry to a stream, behind those of its context that wait (R117). It waits while its window is on no core (R181), the staging
buffer is full (R244), or the engine port does not serve it (R107, R121). One of a stream that is gone has nowhere to go. -/
def landPush (h id : Nat) (lanes : List W32) (p : Pending) (s : State) : State :=
  let c := s.ctx h
  match c.work.streams.find? fun x => x.id == id with
  | none => s
  | some x =>
    let bytes := x.pushBytes c.base lanes
    let addrs := bytes.map (·.1)
    if c.pushWaits || s.windowHw c.cont c.rank != some h || !stagingRoom s (coreOf h) bytes.length then keepPush h p s
    else if portFree s (.push h p.age) (coreOf h) addrs then pushEntry h id bytes (usePort (.push h p.age) (coreOf h) addrs s)
    else keepPush h p (queuePort (.push h p.age) (coreOf h) addrs s)

/-- An effect lands in a hardware context. A write of a vector register makes the operand latches that hold it stale, on every core
(R29). -/
def applyPending (h : Nat) (s : State) (p : Pending) : State :=
  match p.eff with
  | .push id x => landPush h id x p s
  | .v r _ _ =>
    let s := s.mapCtx h fun c => c.applyEffect p.due p.age p.eff
    { s with
      cores := s.cores.map fun e =>
        (e.1, { e.2 with latchA := staleLatch (s.ctx h) r e.2.latchA, latchB := staleLatch (s.ctx h) r e.2.latchB }) }
  | e => s.mapCtx h fun c => c.applyEffect p.due p.age e

/-- Landing order: by count, then by program order (R94). -/
def Pending.before (p q : Pending) : Bool := p.due < q.due || (p.due == q.due && p.age < q.age)

/-- Insertion into landing order. -/
def insertPending (p : Pending) : List Pending → List Pending
  | [] => [p]
  | q :: qs => if p.before q then p :: q :: qs else q :: insertPending p qs

/-- Entries in landing order. -/
def sortPending : List Pending → List Pending
  | [] => []
  | p :: ps => insertPending p (sortPending ps)

/-- Every entry whose count has come lands, in landing order (R89, R94). -/
def landDue (h : Nat) (s : State) : State :=
  let c := s.ctx h
  let due := c.work.landing.filter c.hasCome
  if due.isEmpty then s
  else
    let s := s.mapCtx h fun c => { c with work := { c.work with landing := c.work.landing.filter fun p => !c.hasCome p } }
    (sortPending due).foldl (applyPending h) s

/-- The pushes of a context whose count comes with this core cycle ask for the engine port as of the cycle before, since their count was known
then (R107, R119, log entry 73). -/
def askPushes (h : Nat) (s : State) : State :=
  let c := s.ctx h
  (sortPending (c.work.landing.filter fun p => p.eff.isPush && c.hasCome p)).foldl
    (fun s p => match p.eff with
      | .push id x => match c.work.streams.find? fun y => y.id == id with
        | some y =>
          let banks := banksOf ((y.pushBytes c.base x).map (·.1))
          if banks.isEmpty then s else s.mapCore (coreOf h) fun k => k.ask (.push h p.age) banks (k.cycles - 1)
        | none => s
      | _ => s)
    s

/-- The effect of a delivered value. -/
def Deliver.effect (d : Deliver) : Effect :=
  let lanes := d.value.map (fun x => x.setWidth 32)
  match d.dest with
  | .g r => .g r (d.value.getD 0 0)
  | .v p mask => .v p mask lanes
  | .push id mask => .push id (mergeLanes mask zeroLanes lanes)

/-- Whether a landing effect writes the register of a destination (R94). -/
def Effect.hits (e : Effect) (d : DeliverTo) : Bool :=
  match e, d with
  | .g i _, .g r => i == r
  | .v i _ _, .v p _ => i == p
  | _, _ => false

/-- A variable-latency value arrives: it is written, or held one count above the last older fixed-latency write to its register that
has not landed (R93, R94). That a load so held leaves `OutLoads` when it arrives is a DESIGN CHOICE (log entry 61). A push lands now, or
waits (R117, R121). -/
def arrive (h : Nat) (d : Deliver) (s : State) : State :=
  let c := s.ctx h
  let older := c.work.landing.filter fun p => !p.held && decide (p.age < d.age) && p.eff.hits d.dest
  let value := fun (due : Nat) => ({ due := due, age := d.age, eff := d.effect, held := true } : Pending)
  if older.isEmpty then applyPending h s (value c.nowCount)
  else s.mapCtx h fun c =>
    { c with work := { c.work with landing := c.work.landing ++ [value (older.foldl (fun m p => max m p.due) 0 + 1)] } }

/-! ### The state line, the fault record, notices (R206, R212, R214, R221) -/

/-- The number of a fault class (R204). -/
def FaultClass.code : FaultClass → Nat
  | .translation => 1 | .permission => 2 | .poison => 3 | .privilegedRegister => 4 | .badValue => 5 | .badFormat => 6
  | .badTarget => 7 | .window => 8 | .shape => 9 | .range => 10 | .stream => 11 | .tile => 12 | .ring => 13 | .hold => 14
  | .copyLost => 15 | .badLaunch => 16 | .kennel => 17

/-- The number of a continuation state (R212). -/
def ContState.code : ContState → Nat
  | .idle => 0 | .waiting => 1 | .queued => 2 | .running => 3 | .parked => 4 | .faulted => 5 | .done => 6 | .killed => 7

/-- Whether a state is an end state. -/
def ContState.isEnd : ContState → Bool
  | .faulted | .done | .killed => true
  | _ => false

/-- A write to a line wakes the waiters that watch it: `park`s of R321, wait lists of R218. A write to a block's command line wakes the
`park`s on every line of the block (R21). -/
def noteWaiters (line : Nat) (s : State) : State :=
  let command := s.dev.conts.any fun e => e.2.block == 64 * line
  let woken := fun (c : Ctx) =>
    match c.work.park with
    | some p => if p.asleep && (p.line == line || command && p.line / 64 == line / 64) then { c with work := { c.work with park := some { p with asleep := false } } } else c
    | none => c
  let lists := (s.dev.conts.filter (fun e => e.2.state == .waiting && e.2.launch.waitLines.contains line)).map (·.1)
  { s with
    ctxs := s.ctxs.map fun e => (e.1, woken e.2)
    dev := { s.dev with waitWakes := s.dev.waitWakes ++ lists } }

/-- Whether a line has a watcher (R161). -/
def hasWatcher (line : Nat) (s : State) : Bool :=
  alwaysWatched line || s.dev.conts.any (fun e => e.2.block == 64 * line || (e.2.state == .waiting && e.2.launch.waitLines.contains line)) ||
    s.ctxs.any fun e => e.2.work.park.any fun p => p.asleep && p.line == line

/-- The watched bit of a device-homed line follows its watchers (R161). -/
def refreshWatch (line : Nat) (s : State) : State :=
  if isHostLine line then s else s.mapStore fun st => setDir st line { dirOf st line with watched := hasWatcher line s }

/-- A write to a watched line of the device's own structures wakes the distributor: command lines, the registry, the
shoot-down, seal and attestation lines (R20, R202, R210, R211, R265), and shows a host heartbeat (R225). -/
def noteDevice (line : Nat) (s : State) : State :=
  s.mapDev fun d =>
    let first := line * 64
    let entries := if d.registry ≤ first ∧ first < d.registry + 524288 then
      (List.range 8).map (fun k => (first - d.registry) / 8 + k) else []
    { d with
      commandWakes := d.commandWakes ++ (d.conts.filter (fun e => e.2.block == first)).map (·.1)
      registryWakes := d.registryWakes ++ entries
      shootWake := d.shootWake || first == d.dcb + 0x40
      sealWake := d.sealWake || first == d.dcb + 0x80
      attestWake := d.attestWake || first == d.dcb + 0x1000
      hostCount := if first = d.dcb + 0xC0 then BitVec.ofNat 64 (latestNat s.store (d.dcb + 0xC8) 8) else d.hostCount
      hostAge := if first = d.dcb + 0xC0 ∧ BitVec.ofNat 64 (latestNat s.store (d.dcb + 0xC8) 8) ≠ d.hostCount then s.refHalf else d.hostAge }

/-- A write that has performed at a line, by a program, an engine or the host. -/
def noteWrite (line : Nat) (s : State) : State := noteDevice line (noteWaiters line s)

/-- The lines with partials. -/
def partialLines (st : Store) : List Nat := ((st.copies.filter fun e => e.2.state.isPartial).map (·.1 / 512)).dedup

/-- Lines of which a partial has been combined count as written (R321): a core holds it no more, or one of another kind in its place. -/
def noteCombines (before s : State) : State :=
  (partialLines before.store).foldl
    (fun s line =>
      if (partialsOf before.store line).all fun e => (copyAt s.store e.1 line).any fun c => c.state == e.2.state then s else noteWrite line s)
    s

/-- The lines of n bytes from an address. -/
def lineSpan (pa n : Nat) : List Nat := (List.range ((pa + n - 1) / 64 + 1 - pa / 64)).map fun k => pa / 64 + k

/-- The largest timestamp handed out: that of the distributor, of every line and copy, of every context (R146, R156, R216, log entry 18). -/
def topTimestamp (s : State) : Nat :=
  let m := s.store.dirs.foldl (fun m e => max m (max e.2.wts e.2.rts)) s.dev.largest
  let m := s.store.copies.foldl (fun m e => max m (max e.2.wts e.2.rts)) m
  let m := s.dev.conts.foldl (fun m e => e.2.kennel.foldl (fun m p => match p with | .ctx _ c => max m c.pts | _ => m) m) m
  s.ctxs.foldl (fun m e => max m e.2.pts) m

/-- Bytes stored at their home by the distributor: the store follows in S every timestamp handed out before (R156, R212). -/
def distStore (pa : Nat) (data : List Byte) (s : State) : State :=
  let (ts, st) := homeStore s.store pa (topTimestamp s) data
  (lineSpan pa data.length).foldl (fun s l => noteWaiters l s) (noteCombines s { s with store := st, dev := { s.dev with largest := ts } })

/-- The lines that the host must give up before bytes are stored (R164). -/
def hostHolds (s : State) (pa n : Nat) : List Nat := (lineSpan pa n).filter fun l => hostBlocks s.store l true

/-- The host is asked to give lines up. -/
def askLines (ls : List Nat) (s : State) : State := ls.foldl (fun s l => askHost l s) s

/-- What the distributor has begun is done in order, as far as the host holds no line of it (R164). -/
def runActs : List DevAct → State → State
  | [], s => s.mapDev fun d => { d with acts := [] }
  | .interrupt v :: as, s => runActs as (if s.dev.hostSilent then s else s.output (.interrupt v))
  | .write pa data :: as, s =>
    if (hostHolds s pa data.length).isEmpty then runActs as (distStore pa data s)
    else askLines (hostHolds s pa data.length) (s.mapDev fun d => { d with acts := .write pa data :: as })

/-- What waits for the host goes on. -/
def flushActs (s : State) : State := if s.dev.acts.isEmpty then s else runActs s.dev.acts s

/-- A store by the distributor. Where the host must first give a line up, it and what follows it wait (R164). -/
def distWrite (pa : Nat) (data : List Byte) (s : State) : State :=
  if s.dev.acts.isEmpty && (hostHolds s pa data.length).isEmpty then distStore pa data s
  else askLines (hostHolds s pa data.length) (s.mapDev fun d => { d with acts := d.acts ++ [.write pa data] })

/-- The state that the state line shows: QUEUED until a placement is complete (R20). -/
def Cont.shown (c : Cont) : ContState := if c.state == .running && c.placing.isSome then .queued else c.state

/-- The 64 bytes of the state line (R212). -/
def stateLine (c : Cont) : List Byte :=
  let bit := fun (b : Bool) (n : Nat) => if b then 2 ^ n else 0
  leBytes 1 c.shown.code ++ leBytes 1 (bit c.ineligible 0 + bit c.faultPending 1 + bit c.callPending 2 + bit c.kennelled 3) ++
    leBytes 1 c.result ++ leBytes 1 c.cause ++ leBytes 4 c.ack ++ leBytes 8 c.exit.toNat ++ leBytes 4 c.faults ++
    leBytes 4 c.code ++ leBytes 2 c.callRank ++ leBytes 38 0

/-- The contexts of a continuation on the cores, by hardware context number. -/
def State.ctxsOf (s : State) (i : Nat) : List Nat := (s.ctxs.filter (fun e => e.2.cont == i)).map (·.1)

/-- The contexts of a continuation, on the cores and in the kennel. -/
def State.contexts (s : State) (i : Nat) : List Ctx :=
  (s.ctxs.filter fun e => e.2.cont == i).map (·.2) ++
    (s.cont i).kennel.filterMap fun p => match p with | .ctx _ c => some c | _ => none

/-- The counters line (R214): bundles retired, undeclared bursts, energy mismatches, park count. -/
def countersLine (s : State) (i : Nat) : List Byte :=
  let c := s.cont i
  let sum := fun (f : Ctx → Nat) => ((s.contexts i).map f).sum
  leBytes 8 (c.bundles + sum (·.retired)) ++ leBytes 8 (c.undecl + sum (·.regs.undecl)) ++
    leBytes 8 (c.emis + sum (·.regs.emis)) ++ leBytes 8 c.parks

/-- The distributor writes a continuation's state line (R212). -/
def writeLine (i : Nat) (s : State) : State := distWrite ((s.cont i).block + 0x40) (stateLine (s.cont i)) s

/-- At a state change and on REFRESH the distributor writes the counters too, and at no other time (R214). -/
def writeState (i : Nat) (s : State) : State :=
  let c := s.cont i
  distWrite (c.block + 0x40) (stateLine c) (distWrite (c.block + 0x200) (countersLine s i) s)

/-- A notice word that the device is to send (R221): it loads the target when it sends. -/
def sendNotice (i kind : Nat) (s : State) : State :=
  let c := s.cont i
  let word : W64 := BitVec.ofNat 64 (kind + 2 ^ 8 * c.shown.code + 2 ^ 32 * c.ack)
  s.mapDev fun d => { d with notices := d.notices ++ [{ block := c.block, word := word }] }

/-- An interrupt to the host driver, after the writes that precede it, unless the host is fenced off (R164, R225, R264). -/
def interrupt (vector : Nat) (s : State) : State :=
  if s.dev.hostSilent then s
  else if s.dev.acts.isEmpty then s.output (.interrupt vector)
  else s.mapDev fun d => { d with acts := d.acts ++ [.interrupt vector] }

/-- An error-log entry, its interrupt and the management controller's notice (R207). That its bytes +22, +23 and +28 to +31 are 0 is a
DESIGN CHOICE (log entry 98). -/
def logError (pa source kind die ctx : Nat) (s : State) : State :=
  let d := s.dev
  let entry := leBytes 8 pa ++ leBytes 8 (s.refHalf / 2) ++ leBytes 1 source ++ leBytes 1 kind ++ leBytes 2 die ++
    leBytes 2 ctx ++ leBytes 2 0 ++ leBytes 4 (d.errorSeq + 1) ++ leBytes 4 0
  let s := distWrite (d.errorLog + 32 * d.errorNext) entry s
  let next := (d.errorNext + 1) % 256
  let s := distWrite (d.dcb + 0x20) (leBytes 4 next) s
  let s := s.mapDev fun d => { d with errorNext := next, errorSeq := d.errorSeq + 1 }
  (interrupt 1 s).output (.management kind)

/-- The 64 bytes of a fault record after `count` faults (R206). -/
def faultRecord (f : FaultInfo) (count : Nat) : List Byte :=
  leBytes 8 f.addr ++
    leBytes 1 (match f.intent with | some .read => 0 | some .write => 1 | some .execute => 2 | none => 0xFF) ++
    leBytes 1 f.cls.code ++ leBytes 1 f.slot ++ leBytes 1 f.replay ++ leBytes 2 f.ctx ++ leBytes 2 f.rank ++ leBytes 8 f.pc ++
    leBytes 2 f.asid ++ leBytes 1 f.level ++ leBytes 1 0xFF ++ leBytes 4 count ++ leBytes 8 f.entry ++ leBytes 24 0

/-! ### Halting (R234) and the end of a continuation -/

/-- The frozen form of a queued matrix operation (R139): it stands at its last completed step, and work inside the unfinished one is
discarded. -/
def MatOp.freeze (o : MatOp) : MatOp := { o with running := false, left := o.step }

/-- What a halt does to a context: streams drop what they fetched, the hold window is closed; cancelled full/empty entries
stand at the head of the queue they will enter again (R113, R119, R122, R234). -/
def Ctx.halt (c : Ctx) : Ctx :=
  { c with
    halted := true, runCycles := 0, tried := false
    work := { c.work.closeHold with streams := c.work.streams.map Stream.dropFetched } }

/-- Whether a halt is one of KILL. -/
def HaltFor.kills : HaltFor → Bool
  | .kill _ => true
  | _ => false

/-- A halt is requested for a continuation, for a purpose (R231, R234). KILL closes its hold windows (R122). -/
def requestHalt (i : Nat) (why : HaltFor) (s : State) : State :=
  let s := if why.kills then
      { s with ctxs := s.ctxs.map fun e => (e.1, if e.2.cont = i then { e.2 with work := { e.2.work with hold := none } } else e.2) }
    else s
  s.mapCont i fun c => { c with halt := some why }

/-- A PARK or KILL whose halt an end of the continuation overtakes is answered as in the end state (R215, R237). -/
def Cont.abandonHalt (c : Cont) : Cont :=
  match c.halt with
  | some (.park a) => { c with ack := a, result := 1, halt := none }
  | some (.kill (some a)) => { c with ack := a, result := 1, halt := none }
  | _ => { c with halt := none }

/-- A pre-emption whose victim ends before it has halted is abandoned: nothing of the victim is reserved any more (R237). -/
def abandonPreempt (i : Nat) (s : State) : State :=
  match (s.cont i).halt with
  | some (.preempt w) => s.mapCont w fun c => { c with reserved := c.reserved.filter fun x => x.1 != i }
  | _ => s

/-- Entry into an end state (R212): cause, exit status, flags cleared, the kennel abandoned, the owner's notice (R221). The list of
saved parts goes with the continuation's room. -/
def enterEnd (i : Nat) (st : ContState) (cause : Nat) (exit : W64) (s : State) : State :=
  let s := (abandonPreempt i s).mapCont i fun c =>
    { c.abandonHalt with
      state := st, cause := cause, exit := exit, ineligible := false, faultPending := false, callPending := false,
      kennelled := false, faultOf := none, callOf := none, callQueue := [], faultQueue := [],
      blocking := false, clockOn := false }
  sendNotice i 1 (writeState i s)

/-- The record of a fault, written by the distributor, and the count it raises (R205, R206). -/
def writeFault (i : Nat) (f : FaultInfo) (s : State) : State :=
  let s := s.mapCont i fun c => { c with faults := c.faults + 1 }
  distWrite ((s.cont i).block + 0x1C0) (faultRecord f (s.cont i).faults) s

/-- A repairable fault is recorded: flag, ring entry, interrupt (R205, R264, R265). -/
def recordRepairable (i : Nat) (f : FaultInfo) (s : State) : State :=
  let s := writeFault i f s
  let s := s.mapCont i fun c => { c with faultPending := true, faultOf := some f.rank }
  let s := writeLine i s
  let w := s.dev.faultWrite
  let s := distWrite (s.dev.dcb + 0x400 + 4 * (w % 256)) (leBytes 4 i) s
  let s := distWrite (s.dev.dcb + 0x100) (leBytes 8 (w + 1)) s
  interrupt 0 (s.mapDev fun d => { d with faultWrite := w + 1 })

/-- An unrepairable fault: the record, then FAULTED with cause 2, and the other contexts halt as for KILL (R205). A stage of the
watchdog that has begun runs to its end (R239). -/
def recordUnrepairable (i : Nat) (f : FaultInfo) (s : State) : State :=
  let s := writeFault i f s
  if (s.cont i).stage = 0 then requestHalt i (.kill none) (enterEnd i .faulted 2 0 s) else s

/-- The route of a fault of a context (R205): one that can be repaired waits its turn, oldest first; one that cannot is
recorded at once. A continuation in an end state takes no fault. -/
def routeFault (h : Nat) (f : FaultInfo) (s : State) : State :=
  let i := (s.ctx h).cont
  if (s.cont i).state.isEnd then s
  else if f.repairable then
    match (s.cont i).faultOf with
    | some _ => s.mapCont i fun c => { c with faultQueue := c.faultQueue ++ [f.rank] }
    | none => recordRepairable i f s
  else recordUnrepairable i f s

/-! ### Taking an exception (R96, R97) and the return from one (R99, R205) -/

/-- The fault of a precise class at the current bundle of a context (R206). -/
def preciseInfo (h slot : Nat) (cls : FaultClass) (addr : Nat) (s : State) : FaultInfo :=
  let c := s.ctx h
  { cls := cls, addr := addr, intent := none, slot := if cls = .hold then 0xFF else slot, replay := 0, ctx := h,
    rank := c.rank, pc := c.pc.toNat, asid := (s.cont c.cont).launch.asid, level := 0xFF, entry := 0, repairable := false }

/-- The matrix operations of a context leave its core's queue and freeze (R139). -/
def freezeQueue (h : Nat) (s : State) : State :=
  let mine := (s.core (coreOf h)).queue.filter fun o => o.ctx == h
  if mine.isEmpty then s
  else
    let s := s.mapCore (coreOf h) fun k => { k with queue := k.queue.filter fun o => o.ctx != h }
    s.mapCtx h fun c => { c with work := { c.work with frozen := mine.map MatOp.freeze ++ c.work.frozen } }

/-- A context parks for a fault: its hold window closes (R122), its streams drop what they fetched (R119), and its matrix work stops
(R139). -/
def parkFor (h : Nat) (f : FaultInfo) (s : State) : State :=
  freezeQueue h (s.mapCtx h fun c =>
    { c with
      fault := some f, runCycles := 0,
      work := { c.work.closeHold with streams := c.work.streams.map Stream.dropFetched } })

/-- TAKING AN EXCEPTION: the context parks with the fault, and the distributor routes it (R96, R205). -/
def takeFault (h : Nat) (f : FaultInfo) (s : State) : State := routeFault h f (parkFor h f s)

/-- A precise fault of the current bundle, which is suppressed whole (R96). -/
def takePrecise (h slot : Nat) (cls : FaultClass) (addr : Nat) (s : State) : State :=
  takeFault h (preciseInfo h slot cls addr s) s

/-- A deferred fault (R97): the park count rises (R214). -/
def takeLate (h : Nat) (f : FaultInfo) (s : State) : State :=
  takeFault h f (s.mapCont (s.ctx h).cont fun c => { c with parks := c.parks + 1 })

/-- A deferred fault of the oldest operation that is not translated: it and every later one enter the replay list in
program order, and the context parks (R97). `more` counts a `park` that replays with them (R321). -/
def takeDeferred (h : Nat) (f : FaultInfo) (more : Nat) (s : State) : State :=
  let s := s.mapCtx h fun c =>
    let later := c.work.memOps.filter (fun o => !o.translated)
    { c with work := { c.work with memOps := c.work.memOps.filter (·.translated), replay := later ++ c.work.replay } }
  takeLate h { f with replay := (s.ctx h).work.replay.length + more } s

/-- The next fault of a continuation that waits to be recorded (R205). -/
def nextFault (i : Nat) (s : State) : State :=
  match (s.cont i).faultQueue with
  | [] => s
  | r :: rs =>
    let s := s.mapCont i fun c => { c with faultQueue := rs }
    match (s.ctxOf i r).bind (·.fault) with
    | some f => recordRepairable i f s
    | none => s

/-- THE RETURN FROM AN EXCEPTION: disposition 0 of RESUME. The context is no longer parked, and its replay list stands at the
head of its operations, to translate again as issues of the core cycle `now` (R99, R205). -/
def Ctx.resume (now : Nat) (c : Ctx) : Ctx :=
  { c with
    fault := none
    work := { c.work with memOps := c.work.memOps ++ c.work.replay.map fun o => { o with cycle := now }, replay := [] } }

/-! ### What a meaning of a slot answers -/

/-- The slot has its effect. -/
def effect (s : State) : Out := .next { s with signal := .none }

/-- The slot's bundle stalls whole: nothing takes effect (R93). -/
def waits (s : State) : Out := .next { s with signal := .waits }

/-- The slot takes a precise fault. -/
def precise (cls : FaultClass) (addr : Nat) (s : State) : Out :=
  .next { takePrecise s.focusCtx s.focusSlot cls addr s with signal := .fault cls addr }

/-- Stall when a condition holds. -/
def stallOr (b : Bool) (s : State) (k : Out) : Out := if b then waits s else k

/-- Fault when a condition holds. -/
def faultOr (b : Bool) (cls : FaultClass) (addr : Nat) (s : State) (k : Out) : Out := if b then precise cls addr s else k

end Sys2Proof.Machine
end

