-- ==== Sys2Proof/Machine/Operands.lean ====
section
/-! DEFINITION. The operand forms: scalar sources and destinations, vector sources and destinations with streams and lane
masks, elements of lanes, scratchpad and coherent addresses. -/

namespace Sys2Proof.Machine

/-! ### Checks of a slot -/

/-- What an operand check finds: nothing, a stall of the bundle (R93), or a precise fault (R96). -/
inductive Check where
  | ok
  | stall
  | fault (cls : FaultClass) (addr : Nat)
  deriving DecidableEq, Repr

/-- A stall when a condition holds. -/
def stallWhen (b : Bool) : Check := if b then .stall else .ok

/-- A fault when a condition holds. -/
def faultWhen (b : Bool) (cls : FaultClass) (addr : Nat) : Check := if b then .fault cls addr else .ok

/-- The checks of a slot together: a stall stands first, for a stalled bundle has detected nothing yet (R93); of several
faults the first counts. -/
def checks : List Check → Check
  | [] => .ok
  | .stall :: _ => .stall
  | .ok :: cs => checks cs
  | .fault f a :: cs => if checks cs = .stall then .stall else .fault f a

/-- A slot's outcome under its checks. -/
@[inline] def under (c : Check) (s : State) (k : Out) : Out :=
  match c with
  | .ok => k
  | .stall => waits s
  | .fault cls addr => precise cls addr s

/-! ### Scalar operands -/

/-- The value of a `g` source of the focus context. -/
def srcG (s : State) (r : Reg) : W64 := s.here.regs.readG r.toNat

/-- Stall while any of these `g` registers is busy (R93). -/
def readyG (s : State) (rs : List Reg) : Check := stallWhen (rs.any fun r => s.here.busyG r.toNat)

/-- A scalar operation: sources and destination ready, then the result lands L later (R92). -/
def scalarOp (d : Reg) (srcs : List Reg) (L : Nat) (x : W64) (s : State) : Out :=
  under (readyG s (d :: srcs)) s (effect (land L (.g d.toNat x) s))

/-- The low 32 bits, sign-extended: the result form of `.w` (R57). -/
def word32 (x : W64) : W64 := (x.setWidth 32).signExtend 64

/-! ### Vector operands -/

/-- The stream that a register number is bound to (R114). -/
def Ctx.bound (c : Ctx) (x : Nat) : Option Stream :=
  (Sparse.find c.work.binds x).bind fun id => c.work.streams.find? (fun y => y.id == id)

/-- The window size of a context (R16). -/
def Ctx.window (c : Ctx) : Nat := 2 ^ c.winLog

/-- The physical register that a name maps to (R33). -/
def Ctx.phys (c : Ctx) (x : Nat) : Nat := Sys2Proof.Machine.phys c.regs.rb x

/-- The window offset a record gives for an entry that leaves the window: its first byte outside (R118, R206). -/
def Stream.outsideAt (x : Stream) (j size : Nat) : Nat :=
  match (x.entryBytes j).find? (fun e => !(decide (0 ≤ e.2) && decide (e.2 < (size : Int)))) with
  | some e => (e.2 % (2 ^ 64 : Int)).toNat
  | none => 0

/-- A vector source: a read stream pops its next entry, a write stream faults, any other name waits for its busy bit
(R93, R116, R118). -/
def Ctx.checkSrcV (c : Ctx) (x : Reg) : Check :=
  match c.bound x.toNat with
  | none => stallWhen (c.busyV (c.phys x.toNat))
  | some y =>
    if y.writes then .fault .stream 0
    else if y.length ≤ y.taken then .fault .stream 0
    else if !y.entryInside y.taken c.window then .fault .window (y.outsideAt y.taken c.window)
    else stallWhen (!y.fetched y.taken)

/-- The lanes of a vector source. -/
def Ctx.readSrcV (c : Ctx) (x : Reg) : List W32 :=
  match c.bound x.toNat with
  | none => c.regs.readV (c.phys x.toNat)
  | some y => y.entry y.taken

/-- A vector destination: a write stream takes one more entry, a read stream faults, any other name waits for its busy bit
(R93, R117, R118). -/
def Ctx.checkDestV (c : Ctx) (x : Reg) : Check :=
  match c.bound x.toNat with
  | none => stallWhen (c.busyV (c.phys x.toNat))
  | some y =>
    if !y.writes then .fault .stream 0
    else if y.length ≤ y.taken then .fault .stream 0
    else if !y.entryInside y.taken c.window then .fault .window (y.outsideAt y.taken c.window)
    else stallWhen (c.busyPush y.id)

/-- One more entry of a stream taken, by its id. -/
def Work.take (w : Work) (id : Nat) : Work :=
  { w with streams := w.streams.map fun y => if y.id == id then y.take else y }

/-- The ids of the read streams among source names, each once (R116). -/
def Ctx.popIds (c : Ctx) (xs : List Reg) : List Nat :=
  (xs.filterMap fun x => (c.bound x.toNat).bind fun y => if y.writes then none else some y.id).dedup

/-- A slot pops each read stream it names once (R116). -/
def popSources (xs : List Reg) (s : State) : State :=
  (s.here.popIds xs).foldl (fun s id => s.mapHere fun c => { c with work := c.work.take id }) s

/-- A vector result lands: in lanes of the physical register, or as a push of one whole entry (R89, R117). -/
def landV (d : Reg) (L : Nat) (mask : W64) (x : List W32) (s : State) : State :=
  match s.here.bound d.toNat with
  | none => land L (.v (s.here.phys d.toNat) mask x) s
  | some y => land L (.push y.id (mergeLanes mask zeroLanes x)) (s.mapHere fun c => { c with work := c.work.take y.id })

/-- Where a variable-latency vector result goes (R93, R117). -/
def Ctx.deliverV (c : Ctx) (d : Reg) (mask : W64) : DeliverTo :=
  match c.bound d.toNat with
  | none => .v (c.phys d.toNat) mask
  | some y => .push y.id mask

/-- The stream of a variable-latency destination takes its entry at issue (R117, R118). -/
def takeDest (d : Reg) (s : State) : State :=
  match s.here.bound d.toNat with
  | none => s
  | some y => s.mapHere fun c => { c with work := c.work.take y.id }

/-- The register sources that a second source names. -/
def vsrcRegs : VSrc → List Reg
  | .vec b => [b]
  | .scalar _ => []

/-- The check of a second source (R59). -/
def Ctx.checkVSrc (c : Ctx) : VSrc → Check
  | .vec b => c.checkSrcV b
  | .scalar b => stallWhen (c.busyG b.toNat)

/-- The lanes of a second source: a broadcast fills every lane with bits [31:0] (R59). -/
def Ctx.readVSrc (c : Ctx) : VSrc → List W32
  | .vec b => c.readSrcV b
  | .scalar b => List.replicate 64 ((c.regs.readG b.toNat).setWidth 32)

/-- The lane mask that a vector slot names. -/
def srcM (s : State) (m : Reg3) : W64 := s.here.regs.readM m.toNat

/-! ### Elements of lanes (R54) -/

/-- Element j of a lane. -/
def laneElem (t : ElemType) (x : W32) (j : Nat) : Nat := x.toNat / 2 ^ (t.width * j) % 2 ^ t.width

/-- The elements of a lane. -/
def laneElems (t : ElemType) (x : W32) : List Nat := (List.range t.perLane).map (laneElem t x)

/-- A lane from elements of w bits. -/
def laneOf (w : Nat) : List Nat → Nat
  | [] => 0
  | e :: es => e % 2 ^ w + 2 ^ w * laneOf w es

/-- A lane from the elements of a type. -/
def packLane (t : ElemType) (es : List Nat) : W32 := BitVec.ofNat 32 (laneOf t.width es)

/-- A result lane with its flags. -/
abbrev LaneFlags := W32 × Flags5

/-- One lane of an elementwise operation on one source. -/
def lane1 (t : ElemType) (f : Nat → Nat × Flags5) (x : W32) : LaneFlags :=
  let rs := (laneElems t x).map f
  (packLane t (rs.map (·.1)), rs.foldl (fun fl r => fl ||| r.2) 0)

/-- One lane of an elementwise operation on two sources. -/
def lane2 (t : ElemType) (f : Nat → Nat → Nat × Flags5) (x y : W32) : LaneFlags :=
  let rs := (List.range t.perLane).map fun j => f (laneElem t x j) (laneElem t y j)
  (packLane t (rs.map (·.1)), rs.foldl (fun fl r => fl ||| r.2) 0)

/-- One lane of an elementwise operation on three sources. -/
def lane3 (t : ElemType) (f : Nat → Nat → Nat → Nat × Flags5) (x y z : W32) : LaneFlags :=
  let rs := (List.range t.perLane).map fun j => f (laneElem t x j) (laneElem t y j) (laneElem t z j)
  (packLane t (rs.map (·.1)), rs.foldl (fun fl r => fl ||| r.2) 0)

/-- The lanes of a result, and the flags of the active ones (R74, R103). -/
def maskedFlags (mask : W64) (rs : List LaneFlags) : List W32 × Flags5 :=
  (rs.map (·.1), (List.range 64).foldl (fun fl i => if mask.getLsbD i then fl ||| (rs.getD i (0, 0)).2 else fl) 0)

/-- Flags that land with their result; none raised leaves nothing to land (R74). -/
def landFlags (L : Nat) (fl : Flags5) (s : State) : State := if fl = 0 then s else land L (.raise fl) s

/-- The records in force for the bundle (R78). -/
def recordsOf (s : State) : Reg2 → BitVec 14 := s.here.regs.readNf

/-- A vector operation (R353): the checks of its register operands, then pops, result and flags land together. -/
def vectorOp (d : Reg) (srcs : List Reg) (more : List Check) (L : Nat) (mask : W64) (r : List W32 × Flags5) (s : State) : Out :=
  under (checks (s.here.checkDestV d :: srcs.map s.here.checkSrcV ++ more)) s
    (effect (landFlags L r.2 (landV d L mask r.1 (popSources srcs s))))

/-- An elementwise operation of one source. -/
def vector1 (d a : Reg) (m : Reg3) (L : Nat) (f : W32 → LaneFlags) (s : State) : Out :=
  vectorOp d [a] [] L (srcM s m) (maskedFlags (srcM s m) ((s.here.readSrcV a).map f)) s

/-- An elementwise operation of two sources. -/
def vector2 (d a : Reg) (b : VSrc) (m : Reg3) (L : Nat) (f : W32 → W32 → LaneFlags) (s : State) : Out :=
  vectorOp d (a :: vsrcRegs b) [s.here.checkVSrc b] L (srcM s m)
    (maskedFlags (srcM s m) (List.zipWith f (s.here.readSrcV a) (s.here.readVSrc b))) s

/-- The lanes of three sources combined. -/
def zip3 (f : W32 → W32 → W32 → LaneFlags) : List W32 → List W32 → List W32 → List LaneFlags
  | x :: xs, y :: ys, z :: zs => f x y z :: zip3 f xs ys zs
  | _, _, _ => []

/-- An elementwise operation of two sources and the destination as a third (R356, R361). -/
def vector3 (d a : Reg) (b : VSrc) (m : Reg3) (L : Nat) (f : W32 → W32 → W32 → LaneFlags) (s : State) : Out :=
  vectorOp d (d :: a :: vsrcRegs b) [s.here.checkVSrc b] L (srcM s m)
    (maskedFlags (srcM s m) (zip3 f (s.here.readSrcV a) (s.here.readVSrc b) (s.here.readSrcV d))) s

/-! ### Addresses -/

/-- A coherent or window address: base plus a signed offset in units, modulo 2^64. -/
def addrOf (base : W64) (off : Int) (unit : Nat) : W64 := base + BitVec.ofInt 64 (off * unit)

/-- Whether a scratchpad access of n bytes, aligned to n, breaks R106. -/
def outsideWindow (c : Ctx) (p n : Nat) : Bool := p % n != 0 || c.window ≤ p

/-- The core address of a window offset (R105). -/
def Ctx.coreAddr (c : Ctx) (p : Nat) : Nat := c.base + p

/-- Active lanes of a mask, ascending. -/
def activeLanes (mask : W64) : List Nat := (List.range 64).filter fun i => mask.getLsbD i

/-- An issue-port access waits while the full/empty queue holds an entry of an earlier bundle (R110). -/
def feqEmpty (s : State) : Check := stallWhen (s.here.work.feq.any fun e => decide (e.age < 8 * s.here.retired))

/-- Requests of a memory operation that are outstanding (R97): of a store each line until it has performed, of a load or an atomic every
line until the value has been delivered. -/
def MemOp.requests (o : MemOp) : Nat :=
  if o.dest.isNone && o.translated then (o.accesses.map Access.line).dedup.length
  else (o.items.map fun x => x.va.toNat / 64).dedup.length

/-- The outstanding requests of a context (R97). -/
def Ctx.requests (c : Ctx) : Nat := ((c.work.memOps ++ c.work.replay).map MemOp.requests).sum + (c.work.delivers.map Deliver.lines).sum

/-- A bundle whose coherent operation would pass 64 untranslated ones stalls, as does one past 512 requests of the context
or 2,048 of the core (R97). -/
def memLimit (s : State) (lines : Nat) : Check :=
  let mates := s.ctxs.filter (fun e => coreOf e.1 == coreOf s.focusCtx)
  stallWhen (64 ≤ (s.here.work.memOps.filter (fun o => !o.translated)).length || 512 < s.here.requests + lines ||
    2048 < (mates.map fun e => e.2.requests).sum + lines)

/-- The sequence number of the focus bundle's coherent operations (R111). -/
def State.seqMem (s : State) : Nat := 2 * s.here.retired

/-- A memory operation enters its context (R97). -/
def issueMem (kind : MemKind) (dest : Option DeliverTo) (width : Nat) (pol : Policy) (perLane : Bool) (items : List Item)
    (s : State) : State :=
  s.mapHere fun c =>
    { c with work := { c.work with
        memOps := c.work.memOps ++
          [{ kind := kind, dest := dest, width := width, policy := pol, perLane := perLane, items := items, seq := s.seqMem,
             age := s.age, cycle := (s.core (coreOf s.focusCtx)).cycles, slot := s.focusSlot, pc := c.pc.toNat, translated := false, accesses := [], got := [],
             sent := false }] } }

/-- A value on its way that no memory operation carries. -/
def issueDeliver (dest : DeliverTo) (value : List W64) (load : Bool) (s : State) : State :=
  s.mapHere fun c =>
    { c with work := { c.work with delivers := c.work.delivers ++ [{ dest := dest, age := s.age, value := value, load := load, peer := false, lines := 0, counter := none }] } }

/-- A read of a marked barrier object's +12 word by a context observes its flip, which acquires what was counted up to it (R150). -/
def observeBy (h core addr : Nat) (s : State) : State :=
  if isMarked s.store core (addr - 12) && addr % 16 == 12 then
    s.mapCtx h fun c => { c with pts := max c.pts (carried s.store (objectKey core (addr - 12))).1 }
  else s

/-- The same by the focus context. -/
def observeFlip (core addr : Nat) (s : State) : State := observeBy s.focusCtx core addr s

/-- Whether a `feset` of another context of the core has words in a range still to do (R112): no other bundle accesses them. -/
def fesetOver (s : State) (h lo n : Nat) : Bool :=
  s.ctxs.any fun e => e.1 != h && coreOf e.1 == coreOf h &&
    e.2.work.feset.any fun f => decide (f.addr < lo + n) && decide (lo < f.addr + 4 * f.words)

/-- A bundle that accesses words of the scratchpad through the issue port waits for such a `feset`. -/
def fesetClear (s : State) (lo n : Nat) : Check := stallWhen (fesetOver s s.focusCtx lo n)

end Sys2Proof.Machine
end

