-- ==== Sys2Proof/Machine/ScalarMem.lean ====
section
/-! DEFINITION. The memory accesses of slot S: coherent loads and stores, scratchpad words, full/empty words. -/

namespace Sys2Proof.Machine

/-- The access size of `ld` and `st` in bytes (R46). -/
def accessSize (z : Bool) : Nat := if z then 4 else 8

/-- The address of `ld` and `st` (R302, R343). -/
def coherentAddr (s : State) (a : Reg) (z : Bool) (o : BitVec 11) : W64 := addrOf (srcG s a) o.toInt (accessSize z)

/-- A coherent operation of one element: aligned, within the limits of R97, its registers ready. -/
def checkCoherent (s : State) (va : W64) (w : Nat) (regs : List Reg) : Check :=
  checks [readyG s regs, memLimit s 1, faultWhen (va.toNat % w != 0) .badValue va.toNat]

/-- `ld` (R302). -/
def execLd (d a : Reg) (z : Bool) (o : BitVec 11) (p : Policy) (s : State) : Out :=
  let va := coherentAddr s a z o
  under (checkCoherent s va (accessSize z) [d, a]) s
    (effect (issueMem .load (some (.g d.toNat)) (accessSize z) p false [{ lane := 0, va := va, data := 0 }] s))

/-- `st` (R343): address and data are captured at issue. -/
def execSt (d a : Reg) (z : Bool) (o : BitVec 11) (p : Policy) (s : State) : Out :=
  let va := coherentAddr s a z o
  let x := if z then (srcG s d).setWidth 32 |>.setWidth 64 else srcG s d
  under (checkCoherent s va (accessSize z) [d, a]) s
    (effect (issueMem .store none (accessSize z) p false [{ lane := 0, va := va, data := x }] s))

/-- The check of a scratchpad word (R106): a record shows the window offset (R206). -/
def checkWord (s : State) (p : W64) : Check := faultWhen (outsideWindow s.here p.toNat 4) .window p.toNat

/-- The core address of a window offset of the focus context (R105). -/
def hereAddr (s : State) (p : W64) : Nat := s.here.coreAddr p.toNat

/-- `lds` (R305): read at issue. -/
def execLds (d a : Reg) (i : BitVec 14) (s : State) : Out :=
  let p := addrOf (srcG s a) i.toInt 4
  let core := coreOf s.focusCtx
  under (checks [readyG s [d, a], feqEmpty s, fesetClear s (hereAddr s p) 4, checkWord s p]) s
    (effect (land 4 (.g d.toNat ((scratchWord s.store core (hereAddr s p)).setWidth 64)) (observeFlip core (hereAddr s p) s)))

/-- `sts` (R346): written at issue; a mark on the word goes (R150). -/
def execSts (d a : Reg) (i : BitVec 14) (s : State) : Out :=
  let p := addrOf (srcG s a) i.toInt 4
  under (checks [readyG s [d, a], feqEmpty s, fesetClear s (hereAddr s p) 4, checkWord s p]) s
    (effect (s.mapStore fun st => scratchStore st (coreOf s.focusCtx) (hereAddr s p) ((srcG s d).setWidth 32)))

/-- An entry of the full/empty queue, which holds at most four (R110). -/
def enqueueFe (e : FeEntry) (s : State) : State := s.mapHere fun c => { c with work := { c.work with feq := c.work.feq ++ [e] } }

/-- The stall of a fifth entry (R110). -/
def feqRoom (s : State) : Check := stallWhen (4 ≤ s.here.work.feq.length)

/-- The sequence number of the focus bundle's full/empty entries: its coherent operations count as earlier (R111). -/
def State.seqFe (s : State) : Nat := 2 * s.here.retired + 1

/-- `ldf` (R304). -/
def execLdf (d a : Reg) (k : Bool) (o : BitVec 13) (s : State) : Out :=
  let p := addrOf (srcG s a) o.toInt 4
  under (checks [readyG s [d, a], feqRoom s, checkWord s p]) s
    (effect (enqueueFe
      { load := some (.g d.toNat), keep := k, words := [(0, hereAddr s p)], data := [], seq := s.seqFe, age := s.age } s))

/-- `ste` (R345): the data is captured at issue. -/
def execSte (d a : Reg) (o : BitVec 13) (s : State) : Out :=
  let p := addrOf (srcG s a) o.toInt 4
  under (checks [readyG s [d, a], feqRoom s, checkWord s p]) s
    (effect (enqueueFe
      { load := none, keep := false, words := [(0, hereAddr s p)], data := [(srcG s d).setWidth 32], seq := s.seqFe, age := s.age } s))

end Sys2Proof.Machine
end

