-- ==== Sys2Proof/Machine/VectorMem.lean ====
section
/-! DEFINITION. The vector memory family of slot VM: windows, coherent memory, full/empty words, streams, bank holds. -/

namespace Sys2Proof.Machine

/-- The address base + 256 × off9 (R61). -/
def vmAddr (s : State) (a : Reg) (o : BitVec 9) : W64 := addrOf (srcG s a) o.toInt 256

/-- The check of a 256-byte window access (R354). -/
def checkBlock (s : State) (p : W64) : Check := faultWhen (outsideWindow s.here p.toNat 256) .window p.toNat

/-- A read of words observes the flips of marked barrier objects among them (R150). -/
def observeWords (core : Nat) (addrs : List Nat) (s : State) : State := addrs.foldl (fun s a => observeFlip core a s) s

/-- The core addresses of the active lanes of a block, with their lanes. -/
def blockWords (s : State) (p : W64) (mask : W64) : List (Nat × Nat) :=
  (activeLanes mask).map fun i => (i, hereAddr s p + 4 * i)

/-- A block access through the issue port waits for a `feset` over one of its active words (R112). -/
def blockClear (s : State) (p : W64) (mask : W64) : Check := checks ((blockWords s p mask).map fun w => fesetClear s w.2 4)

/-- `vld` (R365): read at issue. -/
def execVld (d a : Reg) (o : BitVec 9) (m : Reg3) (s : State) : Out :=
  let p := vmAddr s a o
  let core := coreOf s.focusCtx
  let mask := srcM s m
  let x := scratchWords s.store core (hereAddr s p) 64
  under (checks [readyG s [a], s.here.checkDestV d, feqEmpty s, blockClear s p mask, checkBlock s p]) s
    (effect (observeWords core ((blockWords s p mask).map (·.2)) (landV d 6 mask x s)))

/-- `vst` (R365): written at issue. -/
def execVst (d a : Reg) (o : BitVec 9) (m : Reg3) (s : State) : Out :=
  let p := vmAddr s a o
  let x := s.here.readSrcV d
  let ws := (blockWords s p (srcM s m)).map fun e => (e.2, x.getD e.1 0)
  under (checks [readyG s [a], s.here.checkSrcV d, feqEmpty s, blockClear s p (srcM s m), checkBlock s p]) s
    (effect ((popSources [d] s).mapStore fun st => scratchPutWords st (coreOf s.focusCtx) ws))

/-- A load of no lanes is done at once: its busy bit is set and cleared in one cycle (R104, R366). -/
def noLanes (dest : DeliverTo) (s : State) : State :=
  arrive s.focusCtx
    { dest := dest, age := s.age, value := List.replicate 64 0, load := false, peer := false, lines := 0, counter := none } s

/-- `vldf` (R366): with no active lane its entry performs at once. -/
def execVldf (d a : Reg) (o : BitVec 9) (m : Reg3) (k : Bool) (s : State) : Out :=
  let p := vmAddr s a o
  let mask := srcM s m
  let dest := s.here.deliverV d mask
  let ws := blockWords s p mask
  under (checks [readyG s [a], s.here.checkDestV d, feqRoom s, checkBlock s p]) s
    (effect (if ws.isEmpty then noLanes dest (takeDest d s)
      else enqueueFe { load := some dest, keep := k, words := ws, data := [], seq := s.seqFe, age := s.age } (takeDest d s)))

/-- `vste` (R366): the data is captured at issue; with no active lane its entry performs at once. -/
def execVste (d a : Reg) (o : BitVec 9) (m : Reg3) (s : State) : Out :=
  let p := vmAddr s a o
  let ws := blockWords s p (srcM s m)
  let x := s.here.readSrcV d
  under (checks [readyG s [a], s.here.checkSrcV d, feqRoom s, checkBlock s p]) s
    (effect (if ws.isEmpty then popSources [d] s
      else enqueueFe { load := none, keep := false, words := ws, data := ws.map (fun e => x.getD e.1 0), seq := s.seqFe, age := s.age }
        (popSources [d] s)))

/-! ### Coherent vectors (R355) -/

/-- The distinct lines that items touch. -/
def linesOf (items : List Item) : List Nat := (items.map fun x => x.va.toNat / 64).dedup

/-- The first misaligned item's address (R355). -/
def misaligned (items : List Item) : Check :=
  match items.find? (fun x => x.va.toNat % 4 != 0) with
  | some x => .fault .badValue x.va.toNat
  | none => .ok

/-- A coherent vector load: with no active lane it makes no access and is done at once (R104). -/
def loadLanes (d : Reg) (mask : W64) (pol : Policy) (perLane : Bool) (items : List Item) (more : List Check) (srcs : List Reg)
    (s : State) : Out :=
  let dest := s.here.deliverV d mask
  let s1 := takeDest d (popSources srcs s)
  under (checks (s.here.checkDestV d :: more ++ [misaligned items, memLimit s (linesOf items).length])) s
    (effect (if items.isEmpty then noLanes dest s1
      else issueMem .load (some dest) 4 pol perLane items s1))

/-- A coherent vector store, its data captured. -/
def storeLanes (pol : Policy) (perLane : Bool) (items : List Item) (more : List Check) (srcs : List Reg) (s : State) : Out :=
  let s1 := popSources srcs s
  under (checks (more ++ [misaligned items, memLimit s (linesOf items).length])) s
    (effect (if items.isEmpty then s1 else issueMem .store none 4 pol perLane items s1))

/-- The items of lanes at base + 4i (R367). -/
def rowItems (base : W64) (mask : W64) (x : List W32) : List Item :=
  (activeLanes mask).map fun i => { lane := i, va := base + BitVec.ofNat 64 (4 * i), data := (x.getD i 0).setWidth 64 }

/-- `vldm` (R367). -/
def execVldm (d a : Reg) (o : BitVec 9) (m : Reg3) (p : Policy) (s : State) : Out :=
  loadLanes d (srcM s m) p false (rowItems (vmAddr s a o) (srcM s m) []) [readyG s [a]] [] s

/-- `vstm` (R367). -/
def execVstm (d a : Reg) (o : BitVec 9) (m : Reg3) (p : Policy) (s : State) : Out :=
  storeLanes p false (rowItems (vmAddr s a o) (srcM s m) (s.here.readSrcV d)) [readyG s [a], s.here.checkSrcV d] [d] s

/-- The items of lanes at base + index (R364). -/
def indexedItems (base : W64) (idx : List W32) (mask : W64) (x : List W32) : List Item :=
  (activeLanes mask).map fun i => { lane := i, va := base + (idx.getD i 0).setWidth 64, data := (x.getD i 0).setWidth 64 }

/-- `vgath` (R364). -/
def execVgath (d a i : Reg) (m : Reg3) (p : Policy) (s : State) : Out :=
  loadLanes d (srcM s m) p true (indexedItems (srcG s a) (s.here.readSrcV i) (srcM s m) [])
    [readyG s [a], s.here.checkSrcV i] [i] s

/-- `vscat` (R364). -/
def execVscat (d a i : Reg) (m : Reg3) (p : Policy) (s : State) : Out :=
  storeLanes p true (indexedItems (srcG s a) (s.here.readSrcV i) (srcM s m) (s.here.readSrcV d))
    [readyG s [a], s.here.checkSrcV d, s.here.checkSrcV i] [d, i] s

/-! ### Full/empty ranges, streams, holds -/

/-- `feset` (R112, R296): the bits change at issue, and no other bundle accesses the words until the steps of R112 are over. -/
def execFeset (d a : Reg) (f : Bool) (s : State) : Out :=
  let n := (srcG s d).toNat
  let p := srcG s a
  let bad := p.toNat % 4 != 0 || (n != 0 && decide (s.here.window < p.toNat + 4 * n))
  under (checks [readyG s [d, a], feqEmpty s, fesetClear s (hereAddr s p) (4 * n), faultWhen bad .window p.toNat]) s
    (effect (if n = 0 then s
      else
        (s.mapStore fun st => setFullRange st (coreOf s.focusCtx) (hereAddr s p) n f).mapHere fun c =>
          { c with work := { c.work with feset := some { addr := hereAddr s p, words := n, done := 0, full := f } } }))

/-- The busy bit of a register number that a stream may be bound to: of the physical register, or of the write stream (R93, R117). -/
def Ctx.nameReady (c : Ctx) (x : Reg) : Check :=
  match c.bound x.toNat with
  | none => stallWhen (c.busyV (c.phys x.toNat))
  | some y => stallWhen (c.busyPush y.id)

/-- `sbind` (R114, R337): the walk is captured, and the binding lands. -/
def execSbind (d : Reg) (w : Bool) (n : Reg4) (s : State) : Out :=
  let r := s.here.regs
  let i := n.toNat
  let esize := ((r.walk i 0).extractLsb' 4 3).toNat
  let start := (r.walk i 3).setWidth 32
  let bad := (r.walk i 0).extractLsb' 0 4 != 1 || decide (3 < esize) || start.toNat % 2 ^ esize != 0
  let st : Stream :=
    { id := s.here.work.nextStream, writes := w, w0 := r.walk i 0, w1 := r.walk i 1, w2 := r.walk i 2, start := start, taken := 0,
      written := 0, words := [] }
  under (checks [s.here.nameReady d, faultWhen bad .stream 0]) s
    (effect (land 1 (.bind d.toNat st)
      (s.mapHere fun c => { c with work := { c.work with nextStream := c.work.nextStream + 1 } })))

/-- `sfree` (R341). -/
def execSfree (d : Reg) (s : State) : Out := under (s.here.nameReady d) s (effect (land 1 (.unbind d.toNat) s))

/-- The banks of a window (R105). -/
def Ctx.banks (c : Ctx) : Nat := if c.winLog ≤ 16 then 1 else 2 ^ (c.winLog - 16)

/-- `hold` (R120, R300). -/
def execHold (a b c d : BitVec 5) (n : BitVec 4) (s : State) : Out :=
  let named := [a, b, c, d].map BitVec.toNat
  let core := (named.map fun j => s.here.base / 65536 + j).dedup
  let taken := core.any fun b => heldByOther s s.focusCtx (65536 * b)
  under (faultWhen (named.any fun j => decide (s.here.banks ≤ j)) .window 0) s
    (stallOr taken s (effect (s.mapHere fun x =>
      { x with work := { x.work with hold := some { banks := core, left := n.toNat, cycles := 0, entries := 2 * x.retired + 2 } } })))

end Sys2Proof.Machine
end

