-- ==== Sys2Proof/Machine/Matrix.lean ====
section
/-! DEFINITION. The matrix family of slot MX: tiles, rings, scale latches, the operation queue, and the events of the array. -/

namespace Sys2Proof.Machine

/-! ### Tiles -/

/-- A row of zero words. -/
def zeroRow : List W32 := List.replicate 128 0

/-- The key of a row of a physical tile of a core. -/
def tileKey (core phys row : Nat) : Nat := (core * 4 + phys) * 128 + row

/-- The row of a logical tile of a context. -/
def tileRow (s : State) (h t row : Nat) : List W32 :=
  Sparse.get zeroRow s.store.tiles (tileKey (coreOf h) ((s.ctx h).tiles.getD t 0) row)

/-- Storing a row of a logical tile. -/
def setTileRow (h t row : Nat) (x : List W32) (s : State) : State :=
  let k := tileKey (coreOf h) ((s.ctx h).tiles.getD t 0) row
  s.mapStore fun st => { st with tiles := Sparse.set zeroRow st.tiles k x }

/-- Word (i, c) of a logical tile. -/
def tileWord (s : State) (h t i c : Nat) : W32 := (tileRow s h t i).getD c 0

/-- The tile words row by row. -/
def tileRows (s : State) (h t : Nat) : List (List W32) := (List.range 128).map fun i => (List.range 128).map (tileWord s h t i)

/-- Storing every row. -/
def setTile (h t : Nat) (rows : List (List W32)) (s : State) : State :=
  (List.range 128).foldl (fun s i => setTileRow h t i (rows.getD i zeroRow) s) s

/-! ### Issue (R124, R125, R130) -/

/-- The tile fault of R124. -/
def tileGranted (s : State) (t : Reg2) : Check := faultWhen (s.here.tiles.length ≤ t.toNat) .tile 0

/-- Whether an operation writes the scratchpad. -/
def MatOp.stores (o : MatOp) : Bool :=
  match o.kind with
  | .tst | .tcvt .. => true
  | _ => false

/-- The stalls of R93 and R130 on a tile operation: its tile is busy, the queue is full, or frozen operations come first. An operation holds
its tile until it retires; the last rows of a `tst` or `tcvt` are read out in the very step that retires it (R93, R125, R348; log entry 85). -/
def tileReady (s : State) (t : Reg2) : Check :=
  stallWhen ((s.tileOps s.focusCtx).any (fun o => o.tile == t.toNat) || decide (4 ≤ (s.core (coreOf s.focusCtx)).queue.length) ||
    !s.here.work.frozen.isEmpty)

/-- A tile operation enters the queue (R130). -/
def enqueueTile (t : Reg2) (k : MatKind) (start : Nat) (walk : List W64) (s : State) : State :=
  let o : MatOp :=
    { ctx := s.focusCtx, tile := t.toNat, kind := k, start := start, walk := walk, age := s.age, started := false, running := false,
      left := 1, step := 1, done := 0, used := 0, rate := 0, charge := 0, flags := 0 }
  s.mapCore (coreOf s.focusCtx) fun c => { c with queue := c.queue ++ [o] }

/-- Whether a matrix type is narrow. -/
def isNarrow : MatType → Bool
  | .nf _ => true
  | _ => false

/-- The record a matrix type captures (R134). -/
def capturedRecord (s : State) : MatType → BitVec 14
  | .nf n => s.here.regs.readNf n
  | _ => 0

/-- How an operand of a captured type is read. -/
def operandTy (t : MatType) (rec : BitVec 14) : NumTy := matNumTy (fun _ => rec) t

/-- Whether a captured operand is narrow with e = 0 (R86). -/
def isScaledInt (t : MatType) (rec : BitVec 14) : Bool := isNarrow t && rec.extractLsb' 10 3 == 0

/-- The bad-format faults of `mma` (R314). -/
def badMma (x y : MatType) (rx ry : BitVec 14) (sc : Bool) : Bool :=
  (isNarrow x && isNarrow y && decide (narrowWidth rx ≤ 4) != decide (narrowWidth ry ≤ 4)) ||
    (isScaledInt x rx && isScaledInt y ry && sc)

/-- `mma` (R133, R313). -/
def execMma (t : Reg2) (a b : Reg3) (x y : MatType) (z sc : Bool) (s : State) : Out :=
  let r := s.here.regs
  let rx := capturedRecord s x
  let ry := capturedRecord s y
  let ka := r.ring a.toNat
  let kb := r.ring b.toNat
  under (checks [tileReady s t, tileGranted s t, faultWhen (ka.cap == 0 || kb.cap == 0 || (a == b && decide (ka.cap < 2))) .ring 0,
      faultWhen (badMma x y rx ry sc) .badFormat 0]) s
    (effect (enqueueTile t
      (.mma a.toNat b.toNat x y rx ry z sc (if sc then r.scaleA else []) (if sc then r.scaleB else [])) 0 [] s))

/-- `tzero` (R348). -/
def execTzero (t : Reg2) (s : State) : Out :=
  under (checks [tileReady s t, tileGranted s t]) s (effect (enqueueTile t .tzero 0 [] s))

/-- The bytes of one element that a tile transfer moves (R137). -/
def transferBytes : MatKind → Nat
  | .tcvt (.nf _) _ _ _ => 1
  | .tcvt .f32 _ _ _ => 4
  | .tcvt _ _ _ _ => 2
  | _ => 4

/-- The shape fault of R137. -/
def badTransfer (w0 : W64) (w : WalkShape) (n : Nat) : Bool :=
  w0.extractLsb' 0 4 != 1 || w.c0 * w.c1 * w.c2 != 16384 || 2 ^ w.esize != n

/-- A tile transfer: its checks at issue, then the queue (R137, R348). -/
def transfer (t : Reg2) (g : Reg) (n : Reg4) (k : MatKind) (s : State) : Out :=
  let r := s.here.regs
  let words := r.walkWords n.toNat
  let w := walkShape (r.walk n.toNat 0) (r.walk n.toNat 1) (r.walk n.toNat 2)
  let base := (srcG s g).toNat
  under (checks [readyG s [g], tileReady s t, tileGranted s t,
      faultWhen (badTransfer (r.walk n.toNat 0) w (transferBytes k)) .shape 0,
      faultWhen (!w.inside base s.here.window) .window base]) s
    (effect (enqueueTile t k base words s))

/-- `tld` (R348). -/
def execTld (t : Reg2) (g : Reg) (n : Reg4) (s : State) : Out := transfer t g n .tld s

/-- `tst` (R348). -/
def execTst (t : Reg2) (g : Reg) (n : Reg4) (s : State) : Out := transfer t g n .tst s

/-- `tcvt` (R348). -/
def execTcvt (t : Reg2) (g : Reg) (n : Reg4) (x : MatType) (r : Rounding) (q : Bool) (s : State) : Out :=
  transfer t g n (.tcvt x (capturedRecord s x) r q) s

/-! ### Rings (R126 to R128) -/

/-- Blocks that a ring holds (R126). -/
def Ring.held (k : Ring) : Nat := (k.tail - k.head).toNat

/-- What breaks R127 in the base and geometry of a ring. -/
def badRing (base geo : W64) : Bool :=
  base.toNat % 0x2000 != 0 || decide (2 ^ 21 ≤ base.toNat) || geo.toNat == 0 || decide (256 ≤ geo.toNat) ||
    decide (0x200000 < base.toNat + geo.toNat * 0x2000)

/-- Whether a queued operation of the focus context names a ring (R128). -/
def ringInUse (s : State) (n : Nat) : Bool :=
  (s.tileOps s.focusCtx).any fun o => match o.kind with | .mma a b .. => a == n || b == n | _ => false

/-- Storing a ring descriptor of a context. -/
def setRing (h n : Nat) (k : Ring) (s : State) : State :=
  s.mapCtx h fun c =>
    { c with regs := { c.regs with rings := Sparse.set { base := 0, cap := 0, head := 0, tail := 0 } c.regs.rings n k } }

/-- `rdef` (R128, R328). -/
def execRdef (n : Reg3) (a b : Reg) (s : State) : Out :=
  let base := srcG s a
  let geo := srcG s b
  under (checks [readyG s [a, b], faultWhen (badRing base geo) .badValue 0,
      faultWhen (decide (s.here.window < base.toNat + geo.toNat * 0x2000)) .window base.toNat]) s
    (stallOr (ringInUse s n.toNat) s
      (effect (setRing s.focusCtx n.toNat { base := base.toNat, cap := geo.toNat, head := 0, tail := 0 } s)))

/-- `rpush` (R128, R335). -/
def execRpush (n : Reg3) (c : BitVec 8) (s : State) : Out :=
  let k := s.here.regs.ring n.toNat
  under (faultWhen (k.cap == 0 || decide (k.cap < c.toNat)) .ring 0) s
    (stallOr (decide (k.cap < k.held + c.toNat)) s
      (effect (setRing s.focusCtx n.toNat { k with tail := k.tail + c.setWidth 32 } s)))

/-- `rstat` (R336). -/
def execRstat (n : Reg3) (d : Reg) (s : State) : Out :=
  let k := s.here.regs.ring n.toNat
  under (checks [readyG s [d], faultWhen (k.cap == 0) .ring 0]) s
    (effect (land 2 (.g d.toNat (k.tail.setWidth 64 <<< 32 ||| k.head.setWidth 64)) s))

/-- `scl` (R136, R339): read at issue, visible six issue-cycles later. -/
def execScl (side : Bool) (a : Reg) (s : State) : Out :=
  let p := srcG s a
  let core := coreOf s.focusCtx
  under (checks [readyG s [a], feqEmpty s, checkBlock s p]) s
    (effect (land 6 (.scale side (scratchBytes s.store core (hereAddr s p) 256)) s))

/-! ### The arithmetic of `mma` (R84 to R86) -/

/-- A block in the order of R129: for each of 128 rows (or columns), its K codes. -/
def blockCodes (bytes : List Byte) (K w : Nat) : List (List Nat) :=
  (List.range 128).map fun i => (List.range K).map fun k => ofLeBytes ((bytes.drop ((i * K + k) * w)).take w)

/-- Reduction length and element size of an operand class (R132, R129). -/
def classShape : MatType → Nat × Nat
  | .nf _ => (64, 1)
  | .bf16 | .f16 => (32, 2)
  | .f32 => (16, 4)

/-- A factor of a block scale (R83): none for the code 0xFF. -/
def scaleExp (x : Sparse Byte) (i k : Nat) : Option Int :=
  let c := Sparse.get 0x7F x (2 * i + k / 32)
  if c = 0xFF then none else some ((c.toNat : Int) - 127)

/-- A product with two block scales: the flag says that the group is a NaN. A zero product takes its sign from the signs of the two codes, that
of a scaled (e = 0) code 0, to which the spec gives none, being plus: with a negative factor it counts as −0 (log entry 59). -/
def scaledProduct (x y : Num) (sx sy : Option Int) : Num × Bool :=
  match sx, sy with
  | some p, some q =>
    match x.mul y with
    | (.fin n m e, bad) => (.fin n m (e + p + q), bad)
    | (.nan _, _) => (.nan false, true)
    | r => r
  | _, _ => (.nan false, true)

/-- G of R84 from a group's products. -/
def groupSum (ps : List (Num × Bool)) : Nat :=
  if ps.any (·.2) then fmtF32.canonNaN
  else
    let (v, bad) := sumNums (ps.map (·.1))
    if bad then fmtF32.canonNaN else (fmtF32.result v).1

/-- acc + G in `f32` (R84). -/
def accumulate (acc g : Nat) : Nat := (floatAdd fmtF32 acc g).1

/-- Lists cut in groups of n. -/
def groupsOf {α : Type} (n : Nat) : Nat → List α → List (List α)
  | 0, _ => []
  | k + 1, xs => xs.take n :: groupsOf n k (xs.drop n)

/-- One output in float mode: the products come with their scales. -/
def floatElem (acc : Nat) (ps : List (Num × Bool)) : Nat :=
  (groupsOf 16 (ps.length / 16) ps).foldl (fun acc g => accumulate acc (groupSum g)) acc

/-- One output in integer mode (R86): clamped after each group. -/
def intElem (acc : Int) (ps : List Int) : Int :=
  (groupsOf 16 (ps.length / 16) ps).foldl (fun acc g => max (-(2 ^ 31)) (min (2 ^ 31 - 1) (acc + g.sum))) acc

/-- The integer a scaled code stands for, without its step (R86). -/
def codeInt : NumTy → Nat → Int
  | .scaled true w _, c => signedOf w c
  | .scaled false w _, c => ((c % 2 ^ w : Nat) : Int)
  | _, _ => 0

/-- The new words of a tile: outputs (i, c) from A's row i and B's column c, of the codes from k = `first` on (R84, R86). -/
def mmaTile (x y : MatType) (rx ry : BitVec 14) (zero scaled : Bool) (sa sb : Sparse Byte) (first : Nat) (A B : List (List Nat))
    (tile : List (List W32)) : List (List W32) :=
  let tx := operandTy x rx
  let ty := operandTy y ry
  if isScaledInt x rx && isScaledInt y ry then
    let As := A.map fun r => r.map (codeInt tx)
    let Bs := B.map fun r => r.map (codeInt ty)
    List.zipWith
      (fun row ws => List.zipWith
        (fun col (w : W32) => BitVec.ofInt 32 (intElem (if zero then 0 else w.toInt) (List.zipWith (· * ·) row col))) Bs ws)
      As tile
  else
    let scale := fun (t : Sparse Byte) (i k : Nat) => if scaled then scaleExp t i k else some 0
    let read := fun (ty : NumTy) (t : Sparse Byte) (rows : List (List Nat)) =>
      rows.mapIdx fun i r => r.mapIdx fun k c => (ty.decode c, scale t i (first + k))
    let As := read tx sa A
    let Bs := read ty sb B
    List.zipWith
      (fun row ws => List.zipWith
        (fun col (w : W32) =>
          BitVec.ofNat 32 (floatElem (if zero then 0 else w.toNat)
            (List.zipWith (fun p q => scaledProduct p.1 q.1 p.2 q.2) row col)))
        Bs ws)
      As tile

/-! ### The array (R130, R132, R138, R252, R253) -/

/-- The blocks that an `mma` needs of its rings (R130). -/
def ringsHold (c : Ctx) : MatKind → Bool
  | .mma a b .. =>
    let ka := c.regs.ring a
    let kb := c.regs.ring b
    if a = b then decide (2 ≤ ka.held) else decide (1 ≤ ka.held) && decide (1 ≤ kb.held)
  | _ => true

/-- Whether a declaration holds an `mma` back (R252): its interval plus stagger has not begun, or the declaration changed in
this very cycle. -/
def heldByPhase (s : State) (h : Nat) : MatKind → Bool
  | .mma .. =>
    let c := s.ctx h
    (match c.phase with | some d => d.onset != 0 || d.stagger != 0 | none => false) ||
      c.phaseAt == (s.core (coreOf h)).cycles + 1
  | _ => false

/-- The oldest ready operation of a queue (R130). A declaration holds no operation that had started and resumes (R139, R252). -/
def readyOp (s : State) : List Nat → List MatOp → Option MatOp
  | _, [] => none
  | before, o :: os =>
    if !before.contains o.ctx && ringsHold (s.ctx o.ctx) o.kind && (o.started || !heldByPhase s o.ctx o.kind) then some o
    else readyOp s (o.ctx :: before) os

/-- Core cycles of one step at full rate, and the steps: the groups of an `mma` (R132), 8 rows of a transfer (R138, R139), of which `tzero`
does two in a core cycle. -/
def groupCycles : MatKind → Nat × Nat
  | .mma _ _ x y rx ry .. =>
    match x with
    | .nf _ => (if isNarrow y && narrowWidth rx ≤ 4 && narrowWidth ry ≤ 4 then 8 else 16, 4)
    | .f32 => (128, 1)
    | _ => (32, 2)
  | .tzero => (1, 8)
  | _ => (8, 16)

/-- The steps of an operation. -/
def MatOp.steps (o : MatOp) : Nat := (groupCycles o.kind).2

/-- Core cycles of the step that comes next: a covered group by its intensity, one that is not covered and starts within the first 256 array
cycles of its `mma` twice its time (R253, R254). -/
def MatOp.cycles (o : MatOp) : Nat :=
  let g := (groupCycles o.kind).1
  match o.kind with
  | .mma .. => if o.rate = 0 then (if o.used < 256 then 2 * g else g) else (8 * g + o.rate - 1) / o.rate
  | _ => g

/-- The operation at the beginning of that step. -/
def MatOp.arm (o : MatOp) : MatOp := { o with step := o.cycles, left := o.cycles }

/-- The operation as the array starts it: covered, muzzled, or a transfer (R138, R246, R253). A frozen one keeps its coverage, and counts on
from the steps and array cycles that it had (R139, R254). -/
def MatOp.begin (o : MatOp) (d : Option PhaseDecl) : MatOp :=
  if o.started then MatOp.arm { o with running := true }
  else
    match o.kind with
    | .mma .. =>
      let rate := (d.map PhaseDecl.intensity).getD 0
      MatOp.arm { o with started := true, running := true, rate := rate, charge := if rate = 8 then 20 else 10 }
    | _ => MatOp.arm { o with started := true, running := true, charge := 6 }

/-- A queue with operations of a context after the last that it holds of that context, else at its head. -/
def insertOps (h : Nat) (os queue : List MatOp) : List MatOp :=
  let n := ((queue.mapIdx fun j o => if o.ctx = h then j + 1 else 0).foldl max 0)
  queue.take n ++ os ++ queue.drop n

/-- Frozen operations of contexts that run again return to the queue ahead of new ones (R139), as room allows; those of the core's other
contexts they precede (log entry 64). -/
def refillQueue (c : Nat) (s : State) : State :=
  (List.range 4).foldl
    (fun s p =>
      let h := 4 * c + p
      let x := s.ctx h
      let room := 4 - (s.core c).queue.length
      if x.halted || x.fault.isSome || x.work.frozen.isEmpty || room = 0 then s
      else
        let s := s.mapCore c fun k => { k with queue := insertOps h (x.work.frozen.take room) k.queue }
        s.mapCtx h fun x => { x with work := { x.work with frozen := x.work.frozen.drop room } })
    s

/-- `MATRIX_OP_START` (R130): the array, when free, starts the oldest ready operation; an `mma` outside every declaration is
muzzled and counted (R253). -/
def execMatrixOpStart (c : Nat) (s : State) : Out :=
  let s := refillQueue c s
  let k := s.core c
  if k.queue.any (·.running) || s.leashed c || k.gated || decide (0 < k.pause) then .next s
  else
    match readyOp s [] k.queue with
    | none => .next s
    | some o =>
      let d := (s.ctx o.ctx).phase
      let isMma := match o.kind with | .mma .. => true | _ => false
      let s := s.mapCore c fun k => { k with queue := k.queue.map fun q => if q = o then q.begin d else q }
      .next (if isMma && !o.started && d.isNone then
        s.mapCtx o.ctx fun x => x.countEvent .undecl o.age else s)

/-- The window offset of element n of a transfer's walk. -/
def MatOp.elementAt (o : MatOp) (n : Nat) : Nat :=
  ((o.start : Int) + (walkShape (o.walk.getD 0 0) (o.walk.getD 1 0) (o.walk.getD 2 0)).element n).toNat

/-- The bytes that a transfer writes, with the rows' flags (R138). -/
def transferRow (o : MatOp) (row : List W32) : List (List Byte × Flags5) :=
  row.map fun w =>
    match o.kind with
    | .tcvt t rec rm sat =>
      let (r, fl) := convert (.float fmtF32 true) (operandTy t rec) rm sat w.toNat
      (leBytes (transferBytes o.kind) r, fl)
    | _ => (leBytes 4 w.toNat, 0)

/-- The tile rows of the step that a transfer is at. -/
def MatOp.rows (o : MatOp) : List Nat := (List.range (128 / o.steps)).map (128 / o.steps * o.done + ·)

/-- Every element that a step of a `tst` or `tcvt` writes, and its flags. -/
def transferOut (o : MatOp) (s : State) : List (Nat × List Byte × Flags5) :=
  (o.rows.map fun i =>
    (transferRow o (tileRow s o.ctx o.tile i)).mapIdx fun c e => ((s.ctx o.ctx).coreAddr (o.elementAt (128 * i + c)), e)).flatten

/-- A tile row that a `tld` reads. -/
def transferIn (o : MatOp) (s : State) (i : Nat) : List W32 :=
  (List.range 128).map fun c =>
    BitVec.ofNat 32 (ofLeBytes (scratchBytes s.store (coreOf o.ctx) ((s.ctx o.ctx).coreAddr (o.elementAt (128 * i + c))) 4))

/-- The core address of the block `past` counts behind the head of a ring (R126). -/
def ringBlockAt (s : State) (h n past : Nat) : Nat :=
  let c := s.ctx h
  let k := c.regs.ring n
  c.coreAddr (k.base + (k.head.toNat + past) % 2 ^ 32 % k.cap * 0x2000)

/-- The codes of that block (R129). -/
def ringBlock (s : State) (h n past : Nat) (t : MatType) : List (List Nat) :=
  let (K, w) := classShape t
  blockCodes (scratchBytes s.store (coreOf h) (ringBlockAt s h n past) 0x2000) K w

/-- Heads advance by the blocks popped (R130). -/
def popRing (h n count : Nat) (s : State) : State :=
  let k := (s.ctx h).regs.ring n
  setRing h n { k with head := k.head + BitVec.ofNat 32 count } s

/-- The flags of a retired `tcvt` join `fflags` at the next bundle's count: where it has come, unless a younger write landed there; else
they land then, in the order of the `tcvt`'s own bundle (R138). -/
def raiseAtRetire (h age : Nat) (fl : Flags5) (s : State) : State :=
  s.mapCtx h fun c =>
    if c.nowCount < c.count then
      { c with work := { c.work with landing := c.work.landing ++ [{ due := c.count, age := age, eff := .raise fl, held := false }] } }
    else if c.ffDue = c.count ∧ age < c.ffAge then c
    else { c with regs := { c.regs with fflags := c.regs.fflags ||| fl } }

/-- The codes of one group of 16 k. -/
def groupAt (k : Nat) (rows : List (List Nat)) : List (List Nat) := rows.map fun r => (r.drop (16 * k)).take 16

/-- What the step that an operation is at does to tiles and the scratchpad (R84, R86, R138, R139), and its flags. -/
def MatOp.perform (o : MatOp) (s : State) : Flags5 × State :=
  match o.kind with
  | .tzero => (0, o.rows.foldl (fun s i => setTileRow o.ctx o.tile i zeroRow s) s)
  | .tld => (0, o.rows.foldl (fun s i => setTileRow o.ctx o.tile i (transferIn o s i) s) s)
  | .tst | .tcvt .. =>
    let out := transferOut o s
    (out.foldl (fun fl e => fl ||| e.2.2) 0, out.foldl (fun s e => engineWrite (coreOf o.ctx) e.1 e.2.1 s) s)
  | .mma a b x y rx ry z sc sa sb =>
    let A := groupAt o.done (ringBlock s o.ctx a 0 x)
    let B := groupAt o.done (ringBlock s o.ctx b (if a = b then 1 else 0) y)
    (0, setTile o.ctx o.tile (mmaTile x y rx ry (z && o.done == 0) sc sa sb (16 * o.done) A B (tileRows s o.ctx o.tile)) s)

/-- What an operation does as it retires, its last step done: an `mma` pops its rings, the flags of a `tcvt` are raised (R130, R138). -/
def MatOp.retire (o : MatOp) (s : State) : State :=
  match o.kind with
  | .mma a b .. => if a = b then popRing o.ctx a 2 s else popRing o.ctx b 1 (popRing o.ctx a 1 s)
  | .tcvt .. => raiseAtRetire o.ctx o.age o.flags s
  | _ => s

/-- The core addresses that the step of an operation reads or writes in the scratchpad, those of every bank among them: a block lies in one
bank, an element of a transfer may lie in two (R107, R129, R135). -/
def MatOp.touches (o : MatOp) (s : State) : List Nat :=
  match o.kind with
  | .tzero => []
  | .mma a b .. => [ringBlockAt s o.ctx a 0, ringBlockAt s o.ctx b (if a = b then 1 else 0)]
  | k =>
    (o.rows.map fun i => ((List.range 128).map fun c =>
      let at' := (s.ctx o.ctx).coreAddr (o.elementAt (128 * i + c))
      [at', at' + (transferBytes k - 1)]).flatten).flatten

/-- The step of an operation is done: through the engine port, and with room for what it writes in the staging buffer of a changeover pause
(R121, R135, R244); until then it waits. -/
def throughArray (c : Nat) (o : MatOp) (f : MatOp → State → State) (s : State) : State :=
  if o.stores && !stagingRoom s c (1024 * transferBytes o.kind) then leavePorts .matrix s
  else
    throughPort .matrix c (o.touches s)
      (fun s =>
        let (fl, s) := o.perform s
        f { o with done := o.done + 1, flags := o.flags ||| fl } s)
      s

/-- A step before the last is done, and the array goes on with the next one (R139). -/
def stepArray (c : Nat) (o : MatOp) (s : State) : State :=
  throughArray c o (fun o' s => s.mapCore c fun k => { k with queue := k.queue.map fun q => if q = o then o'.arm else q }) s

/-- `MATRIX_OP_RETIRE` (R130, R138): the last step of an operation is done, and it leaves the queue; a held bank or a full staging buffer keeps
it waiting (R121, R244). -/
def execMatrixOpRetire (c : Nat) (s : State) : Out :=
  match (s.core c).queue.find? (fun o => o.running && o.left == 0 && o.done + 1 == o.steps) with
  | none => .next s
  | some o => .next (throughArray c o (fun o' s => o'.retire (s.mapCore c fun k => { k with queue := k.queue.erase o })) s)

end Sys2Proof.Machine
end

