-- ==== Sys2Proof/Machine/Translate.lean ====
section
/-! DEFINITION. Translation of virtual addresses (R197 to R203, R376): entries, walks, permissions, TLBs, the walk cache. -/

namespace Sys2Proof.Machine

/-! ### The physical address space (R376) -/

/-- Where LPDDR-6 begins (R376). -/
def lpddrBase : Nat := 0x10000000000

/-- First byte of sealed instruction memory (R17, R376). -/
def Device.sealedBase (d : Device) : Nat := d.gddr - d.record.sealedSize

/-- Whether a device physical address lies in installed memory (R376). -/
def Device.installed (d : Device) (pa : Nat) : Bool := pa < d.gddr || lpddrBase ≤ pa && pa < lpddrBase + d.lpddr

/-- Whether a device physical address lies in sealed instruction memory. -/
def Device.isSealed (d : Device) (pa : Nat) : Bool := d.sealedBase ≤ pa && pa < d.gddr

/-- Whether bytes from an address are outside installed memory or inside sealed instruction memory (R208). -/
def Device.breaksAccess (d : Device) (pa n : Nat) : Bool :=
  !d.installed pa || d.isSealed pa || !d.installed (pa + n - 1) || d.isSealed (pa + n - 1)

/-! ### Entries (R197, R198) -/

/-- The frame of an entry. -/
def entryFrame (e : W64) : Nat := (e.extractLsb' 12 40).toNat * 4096

/-- The tier of a leaf. -/
def entryTier (e : W64) : Tier :=
  match (e.extractLsb' 6 2).toNat with
  | 0 => .gddr
  | 1 => .lpddr
  | 2 => .host
  | _ => .peer

/-- Whether a frame may hold a table. -/
def Device.tableFrame (d : Device) (f : Nat) : Bool := d.installed f && !d.isSealed f

/-- A root entry that is malformed (R197). -/
def badRoot (d : Device) (e : W64) : Bool :=
  e.extractLsb' 1 11 != 0 || e.extractLsb' 52 12 != 0 || !d.tableFrame (entryFrame e)

/-- The page size of a leaf at a level. -/
def pageSize (level : Nat) : Nat := 2 ^ (39 - 9 * level)

/-- A leaf whose frame is misaligned, or reaches outside its tier or into sealed instruction memory, which only the seal engine and
fetch touch (R17): the entries that the error log names (R198, R208). DEDUCED (log entry 57). Level 0 has no page size, so that of a
leaf there only the frame's own 4 KiB count. -/
def badLeafFrame (d : Device) (e : W64) (level : Nat) : Bool :=
  let f := entryFrame e
  let n := if level = 0 then 4096 else pageSize level
  f % n != 0 ||
    (match entryTier e with
     | .gddr => decide (d.sealedBase < f + n)
     | .lpddr => decide (f < lpddrBase) || decide (lpddrBase + d.lpddr < f + n)
     | _ => false)

/-- The other malformed entries of R198. -/
def badEntry (d : Device) (e : W64) (level : Nat) : Bool :=
  let leaf := e.getLsbD 4
  e.getLsbD 5 || (leaf && level == 0) || (!leaf && level == 3) ||
    (!leaf && (e.extractLsb' 6 3 != 0 || e.extractLsb' 1 3 != 0)) || (leaf && e.getLsbD 8 && decide (level < 3)) ||
    (!leaf && !d.tableFrame (entryFrame e))

/-! ### Permissions (R199) -/

/-- Who translates (R199). -/
inductive Requester where
  | reader | writer | atomic | combine | peerCopy | sealEngine | sealWriter | prefetch
  deriving DecidableEq, Repr

/-- The intent that a fault record shows (R199, R206). -/
def Requester.intent : Requester → Intent
  | .reader | .prefetch => .read
  | .sealEngine => .execute
  | _ => .write

/-- `Permits` of R199 on a leaf. -/
def permits (q : Requester) (e : W64) : Bool :=
  let r := e.getLsbD 1
  let w := e.getLsbD 2
  let t := entryTier e
  let device := t == .gddr || t == .lpddr
  match q with
  | .reader | .prefetch => r && t != .peer
  | .writer => w && t != .peer
  | .atomic => r && w
  | .combine => r && w && device
  | .peerCopy => w && t == .peer
  | .sealEngine => e.getLsbD 3 && device
  | .sealWriter => w && device

/-- Whether a refused permission is beyond repair: `cadd` on host and peer pages (R170, R204). -/
def beyondRepair (q : Requester) (e : W64) : Bool :=
  q == .combine && (entryTier e == .host || entryTier e == .peer)

/-! ### Walks -/

/-- What a translation answers: an address and tier with the leaf it came from, or a fault with level, entry and the error
log's kind and address where R208 logs it. -/
inductive Walked where
  | found (pa : Nat) (tier : Tier) (level : Nat) (leaf : W64)
  | failed (cls : FaultClass) (level : Nat) (entry : W64) (repairable : Bool) (logged : Option (Nat × Nat))
  deriving DecidableEq, Repr

/-- The physical key of an address under a leaf: host memory has its own keys (R155). -/
def leafAddress (e : W64) (level va : Nat) : Nat :=
  entryFrame e + va % pageSize level + (if entryTier e = .host then hostBase else 0)

/-- The walk from a table at a level; `fuel` is the number of levels left. It collects the tables it passed. The log takes a bad leaf frame
whatever else is wrong with its entry (R208), at the frame's own address (log entry 68). That a fault record shows 0 for an entry that
cannot be read is a DESIGN CHOICE (log entry 97). -/
def walkFrom (s : State) (q : Requester) (va : Nat) : Nat → Nat → Nat → List (Nat × Nat) → Walked × List (Nat × Nat)
  | 0, _, _, seen => (.failed .translation 3 0 true none, seen)
  | fuel + 1, level, table, seen =>
    let at' := table + va / 2 ^ (39 - 9 * level) % 512 * 8
    if (dirOf s.store (at' / 64)).poison then (.failed .translation level 0 true (some (5, at')), seen)
    else
      let e : W64 := BitVec.ofNat 64 (latestNat s.store at' 8)
      if !e.getLsbD 0 then (.failed .translation level e true none, seen)
      else if e.getLsbD 4 && badLeafFrame s.dev e level then (.failed .translation level e true (some (3, entryFrame e)), seen)
      else if badEntry s.dev e level then (.failed .translation level e true none, seen)
      else if e.getLsbD 4 then
        if permits q e then (.found (leafAddress e level va) (entryTier e) level e, seen)
        else (.failed .permission level e (!beyondRepair q e) none, seen)
      else walkFrom s q va fuel (level + 1) (entryFrame e) ((level + 1, entryFrame e) :: seen)

/-- The walk-cache entry of the deepest level that covers an address (R200). -/
def walkHit (s : State) (asid va : Nat) : Option WalkEntry :=
  let hit := fun (l : Nat) => s.store.walks.find? (fun w => w.asid == asid && w.level == l && w.base == va / 2 ^ (48 - 9 * l))
  match hit 3 with
  | some w => some w
  | none => match hit 2 with
    | some w => some w
    | none => hit 1

/-- The walk of R199 from the root or from a cached table, with the tables it passed. -/
def walkTables (s : State) (asid va : Nat) (q : Requester) : Walked × List (Nat × Nat) :=
  match walkHit s asid va with
  | some w => walkFrom s q va (4 - w.level) w.level w.table []
  | none =>
    let at' := s.dev.roots + 8 * asid
    let e : W64 := BitVec.ofNat 64 (latestNat s.store at' 8)
    if (dirOf s.store (at' / 64)).poison then (.failed .translation 7 0 true (some (5, at')), [])
    else if !e.getLsbD 0 || badRoot s.dev e then (.failed .translation 7 e true none, [])
    else walkFrom s q va 4 0 (entryFrame e) []

/-- A TLB entry that covers an address. -/
def tlbHit (s : State) (holder asid va : Nat) : Option TlbEntry :=
  s.store.tlbs.find? (fun t => t.holder == holder && t.asid == asid && decide (t.base ≤ va) && decide (va < t.base + t.span))

/-- The translation that a TLB entry gives (R200, R201). -/
def TlbEntry.answer (t : TlbEntry) (va : Nat) (q : Requester) : Walked :=
  if permits q t.leaf then
    .found (t.frame + (va - t.base) + (if entryTier t.leaf = .host then hostBase else 0)) (entryTier t.leaf) t.level t.leaf
  else .failed .permission t.level t.leaf (!beyondRepair q t.leaf) none

/-- Entries of one holder in a TLB (R200). -/
def tlbRoom (holder : Nat) : Nat := if holder < 256 then 256 else 32768

/-- The list with the last entry that a test picks removed. -/
def dropLast' {α : Type} (p : α → Bool) (xs : List α) : List α :=
  match xs.reverse.find? p with
  | some _ => (xs.reverse.eraseP p).reverse
  | none => xs

/-- A new TLB entry; a full TLB drops its oldest (R200). -/
def tlbInsert (t : TlbEntry) (ts : List TlbEntry) : List TlbEntry :=
  let mine := fun (x : TlbEntry) => x.holder == t.holder
  t :: (if tlbRoom t.holder ≤ (ts.filter mine).length then dropLast' mine ts else ts)

/-- The TLB entry that a successful walk fills; the contiguity hint widens it to 64 KiB (R201). -/
def tlbOf (holder asid va level : Nat) (leaf : W64) : TlbEntry :=
  if leaf.getLsbD 8 && level == 3 && decide (va / 4096 % 16 * 4096 ≤ entryFrame leaf) then
    { holder := holder, asid := asid, base := va / 65536 * 65536, span := 65536,
      frame := entryFrame leaf - va / 4096 % 16 * 4096, level := level, leaf := leaf }
  else
    let n := pageSize level
    { holder := holder, asid := asid, base := va / n * n, span := n, frame := entryFrame leaf, level := level, leaf := leaf }

/-- Tables that a successful walk passed enter the walk cache of 1,024 entries (R200, R201). -/
def cacheTables (asid va : Nat) (seen : List (Nat × Nat)) (ws : List WalkEntry) : List WalkEntry :=
  seen.foldr
    (fun e ws =>
      let w : WalkEntry := { asid := asid, level := e.1, base := va / 2 ^ (48 - 9 * e.1), table := e.2 }
      if ws.contains w then ws else (w :: ws).take 1024)
    ws

/-- `Translate` of R36 and R199 for a core: through its TLB, its die's, or a walk, whose success fills both (R200, R201). A walk takes
no time (log entry 74). -/
def translate (core asid : Nat) (va : W64) (q : Requester) (s : State) : Walked × State :=
  if va.extractLsb' 48 16 ≠ 0 then (.failed .translation 0xFF 0 false none, s)
  else
    match tlbHit s core asid va.toNat with
    | some t => (t.answer va.toNat q, s)
    | none =>
      match tlbHit s (l2Holder (dieOf core)) asid va.toNat with
      | some t =>
        (t.answer va.toNat q, s.mapStore fun st => { st with tlbs := tlbInsert { t with holder := core } st.tlbs })
      | none =>
        match walkTables s asid va.toNat q with
        | (.found pa tier level leaf, seen) =>
          let fill := fun holder => tlbOf holder asid va.toNat level leaf
          (.found pa tier level leaf,
            s.mapStore fun st =>
              { st with tlbs := tlbInsert (fill core) (tlbInsert (fill (l2Holder (dieOf core))) st.tlbs),
                        walks := cacheTables asid va.toNat seen st.walks })
        | (w, _) => (w, s)

/-- The first byte of the page on which a translation of an address failed (R333): the page of the leaf where the walk stopped, and where it
met none the 4 KiB page (log entry 84). -/
def Walked.page (w : Walked) (va : Nat) : Nat :=
  let n := match w with
    | .failed _ level e _ _ => if e.getLsbD 0 && e.getLsbD 4 && decide (1 ≤ level) && decide (level ≤ 3) then pageSize level else 4096
    | _ => 4096
  va / n * n

/-- The log entry that R208 asks for of a failed translation. -/
def logWalk (core h : Nat) (w : Walked) (s : State) : State :=
  match w with
  | .failed _ _ _ _ (some (kind, pa)) => logError pa (if kind = 5 then 6 else 5) kind (dieOf core) h s
  | _ => s

/-- The fault information of a failed translation of an operation of a context (R206). -/
def walkFault (h slot pc : Nat) (va : W64) (q : Requester) (cls : FaultClass) (level : Nat) (entry : W64) (repairable : Bool)
    (s : State) : FaultInfo :=
  let c := s.ctx h
  { cls := cls, addr := va.toNat, intent := some q.intent, slot := slot, replay := 0, ctx := h, rank := c.rank, pc := pc,
    asid := (s.cont c.cont).launch.asid, level := level, entry := entry.toNat, repairable := repairable }

end Sys2Proof.Machine
end

