-- ==== Sys2Proof/Machine/Engine.lean ====
section
/-! DEFINITION. The engine family of slot EN: copies, cache walks and prefetches, barrier objects, packs, atomics, commutative
ranges; and what the engines do of their own. -/

namespace Sys2Proof.Machine

/-! ### Contexts of a continuation -/

/-- Cores of a continuation and contexts on each (R12). -/
def Launch.gang (l : Launch) : Nat := l.contexts / l.perCore

/-- Whether (core, position) names a context of a continuation (R180). -/
def Launch.names (l : Launch) (core pos : Nat) : Bool := decide (core < l.gang) && decide (pos < l.perCore)

/-! ### Barrier objects (R185 to R189) -/

/-- The check of a barrier offset (R187). -/
def badObject (c : Ctx) (p : Nat) : Bool := p % 16 != 0 || decide (c.window < p + 16)

/-- The window check of a slot that names an object: its record shows the offset. -/
def checkObject (s : State) (a : Reg) : Check := faultWhen (badObject s.here (srcG s a).toNat) .window (srcG s a).toNat

/-- The phase bit of an object at a core address. -/
def phaseOf (st : Store) (core addr : Nat) : Bool := (scratchWord st core (addr + 12)).getLsbD 0

/-- The words of an object after `Count` of R186. -/
def countWords (need got arr fl : W32) (b : Nat) (arrive : Bool) : W32 × W32 × W32 :=
  let sat := decide (0xFFFFFFFF < got.toNat + b)
  let got' : W32 := if sat then 0xFFFFFFFF else got + BitVec.ofNat 32 b
  let needA := arr.extractLsb' 16 16
  let gotA := arr.extractLsb' 0 16
  let overrun := arrive && gotA == needA
  let gotA' := if arrive && !overrun then gotA + 1 else gotA
  let fl := if sat || overrun then fl ||| 2 else fl
  if need.toNat ≤ got'.toNat ∧ gotA' = needA then
    (got' - need, needA ++ (0 : BitVec 16), fl ^^^ 1)
  else (got', needA ++ gotA', fl)

/-- `Count` of R186 on the object at a core address. -/
def countObject (core addr b : Nat) (arrive : Bool) (st : Store) : Store :=
  let w := fun j => scratchWord st core (addr + 4 * j)
  let (got, arr, fl) := countWords (w 0) (w 1) (w 2) (w 3) b arrive
  scratchCount (scratchCount (scratchCount st core (addr + 4) got) core (addr + 8) arr) core (addr + 12) fl

/-- The error bit of an object, with the copy-fault index where its field is 0 (R183). -/
def markError (core addr n : Nat) (st : Store) : Store :=
  let w := scratchWord st core (addr + 12)
  let w := w ||| 2
  scratchCount st core (addr + 12) (if w.extractLsb' 8 24 = 0 then w ||| (BitVec.ofNat 32 n <<< 8) else w)

/-- Whether a context can observe what happens on its core: resident, neither halted nor parked (R285). -/
def Ctx.awake (c : Ctx) : Bool := !c.halted && c.fault.isNone

/-- Whether the core evaluates a context's `bwait`: not while it is halted, its halt in a host call included, or parked (R285). -/
def Ctx.watches (c : Ctx) : Bool := c.awake && c.call.isNone

/-- A context whose `bwait` the phase of its object now satisfies has waited, and acquires what was counted up to the flip (R150, R189). -/
def endWait (s : State) (h : Nat) (c : Ctx) : Ctx :=
  match c.work.bwait with
  | some (addr, p) =>
    if c.watches && phaseOf s.store (coreOf h) addr == p then
      { c with pts := max c.pts (carried s.store (objectKey (coreOf h) addr)).1, work := { c.work with bwait := none } }
    else c
  | none => c

/-- The `bwait`s of every context evaluated: after each update of an object, and on a context's return (R285). -/
def endWaits (s : State) : State := { s with ctxs := s.ctxs.map fun e => (e.1, endWait s e.1 e.2) }

/-- What counted accesses of a timestamp carry to whoever acquires the flip of an object (R150). -/
def releaseTo (core obj ts : Nat) (s : State) : State :=
  s.mapStore fun st =>
    let k := objectKey core obj
    setCarried st k ((carried st k).1, max (carried st k).2 ts)

/-- A flip carries all that has been counted at its object (R150). -/
def carryFlip (core obj : Nat) (before : Bool) (s : State) : State :=
  if phaseOf s.store core obj = before then s
  else
    s.mapStore fun st =>
      let k := objectKey core obj
      setCarried st k ((carried st k).2, (carried st k).2)

/-- A counting update at an object of a core: its bytes and arrival, what a flip carries, the waiters it ends (R186). -/
def countAt (core addr b : Nat) (arrive : Bool) (s : State) : State :=
  endWaits (carryFlip core addr (phaseOf s.store core addr) (s.mapStore (countObject core addr b arrive)))

/-- An engine's update of an object at a core address: in a changeover pause it waits (R244), and it goes through the engine port (R107,
R121). -/
def engineUpdate (u : PortUser) (core addr : Nat) (f : State → State) (s : State) : State :=
  if (s.core core).pause = 0 then throughPort u core [addr] f s else s

/-- `bini` (R187, R282): what an earlier state of the object had counted is carried no more. -/
def execBini (a n k : Reg) (s : State) : Out :=
  let core := coreOf s.focusCtx
  let at' := hereAddr s (srcG s a)
  let need := (srcG s n).toNat
  let arr := (srcG s k).toNat
  under (checks [readyG s [a, n, k], fesetClear s at' 16, checkObject s a,
      faultWhen (decide (0xFFFFFFFF < need) || decide (0xFFFF < arr) || (need == 0 && arr == 0)) .badValue 0]) s
    (effect (endWaits (s.mapStore fun st =>
      setCarried (setMark (scratchPutWords st core
        [(at', BitVec.ofNat 32 need), (at' + 4, 0), (at' + 8, BitVec.ofNat 32 (arr * 65536)), (at' + 12, 0)]) core at') (objectKey core at') (0, 0))))

/-- `barv` (R188, R279): the update waits for every access up to this bundle. -/
def execBarv (a b : Reg) (r : Bool) (s : State) : Out :=
  let n := (srcG s b).toNat
  under (checks [readyG s [a, b], checkObject s a, faultWhen (decide (0xFFFFFFFF < n)) .badValue 0]) s
    (effect (s.mapHere fun c =>
      { c with work := { c.work with
          barvs := c.work.barvs ++
            [{ addr := hereAddr s (srcG s a), bytes := n, arrive := r, gate := 2 * c.retired + 2 }] } }))

/-- `bwait` (R189, R285): a phase already reached ends the wait at once. -/
def execBwait (a p : Reg) (s : State) : Out :=
  let at' := hereAddr s (srcG s a)
  under (checks [readyG s [a, p], checkObject s a]) s
    (effect (endWaits
      (s.mapHere fun c => { c with work := { c.work with bwait := some (at', (srcG s p).getLsbD 0) } })))

/-! ### Packs (R190 to R192) -/

/-- `pbar` (R191, R323). -/
def execPbar (l : Reg2) (g : Option Bool) (x : Bool) (s : State) : Out :=
  let n := Sparse.get 0 s.here.pbarCount l.toNat + 1
  under (faultWhen (l == 3 && !s.here.regs.pack.getLsbD 63) .badValue 0) s
    (effect (s.mapHere fun c =>
      { c with
        pbarCount := Sparse.set 0 c.pbarCount l.toNat n
        work := { c.work with
          pbar := some { level := l.toNat, nth := n, gear := g, drop := x, gate := 2 * c.retired + 2, arrived := false, raised := false,
                         released := false } } }))

/-! ### Atomics (R193, R277) -/

/-- An atomic: its word aligned to its width, its old value delivered (R193, R278). -/
def atomic (op : AtomicOp) (d a b c : Reg) (w : Bool) (s : State) : Out :=
  let n := accessSize w
  let va := srcG s a
  under (checks [readyG s [d, a, b, c], memLimit s 1, faultWhen (va.toNat % n != 0) .badValue va.toNat]) s
    (effect (issueMem (.atomic op (srcG s b) (srcG s c) s.here.regs.apeer) (some (.g d.toNat)) n .wt false
      [{ lane := 0, va := va, data := 0 }] s))

/-- `atadd` (R277). -/
def execAtadd (d a b : Reg) (w : Bool) (s : State) : Out := atomic .add d a b 0 w s
/-- `atand` (R277). -/
def execAtand (d a b : Reg) (w : Bool) (s : State) : Out := atomic .and d a b 0 w s
/-- `ator` (R277). -/
def execAtor (d a b : Reg) (w : Bool) (s : State) : Out := atomic .or d a b 0 w s
/-- `atxor` (R277). -/
def execAtxor (d a b : Reg) (w : Bool) (s : State) : Out := atomic .xor d a b 0 w s
/-- `atmin` (R277). -/
def execAtmin (d a b : Reg) (w sg : Bool) (s : State) : Out := atomic (if sg then .min else .minU) d a b 0 w s
/-- `atmax` (R277). -/
def execAtmax (d a b : Reg) (w sg : Bool) (s : State) : Out := atomic (if sg then .max else .maxU) d a b 0 w s
/-- `atswp` (R277). -/
def execAtswp (d a b : Reg) (w : Bool) (s : State) : Out := atomic .swp d a b 0 w s
/-- `atcas` (R277): b is the new value, c the compare value. -/
def execAtcas (d a b c : Reg) (w : Bool) (s : State) : Out := atomic .cas d a b c w s

/-! ### Commutative ranges (R168 to R170) -/

/-- The code of an element type of a range (R168). -/
def rangeCode : ElemType → Nat
  | .bf16 => 1
  | .i32 => 3
  | _ => 0

/-- The element type of a range's code (R169). -/
def rangeType (n : Nat) : ElemType := if n = 1 then .bf16 else if n = 3 then .i32 else .f32

/-- The code of a range's operation (R168). -/
def rangeOpCode : RedOp → Nat
  | .add => 0
  | .max => 1
  | .min => 2

/-- The operation of a range's code. -/
def rangeOp (n : Nat) : RedOp := if n = 1 then .max else if n = 2 then .min else .add

/-- A declared range: first byte, length, and kind (R169). -/
structure Range where
  base : Nat
  len : Nat
  t : ElemType
  op : RedOp
  deriving DecidableEq, Repr

/-- The range that a slot's register holds, if it is valid (R169). -/
def rangeOf (x : W64) : Option Range :=
  if x.getLsbD 0 then
    some { base := (x.extractLsb' 6 42).toNat * 64, len := ((x.extractLsb' 48 14).toNat + 1) * 64,
           t := rangeType (x.extractLsb' 2 4).toNat, op := rangeOp (x.extractLsb' 62 2).toNat }
  else none

/-- The register value of a range (R169). -/
def rangeWord (base len : Nat) (t : ElemType) (op : RedOp) : W64 :=
  BitVec.ofNat 64 (rangeOpCode op * 2 ^ 62 + (len / 64 - 1) * 2 ^ 48 + base + rangeCode t * 4 + 1)

/-- The valid ranges of a context, by slot. -/
def Regs.ranges (r : Regs) : List (Nat × Range) :=
  (List.range 4).filterMap fun n => (rangeOf (Sparse.get 0 r.crng n)).map fun x => (n, x)

/-- `crng` (R168, R291). -/
def execCrng (n : Reg2) (b l : Reg) (t : ElemType) (o : RedOp) (s : State) : Out :=
  let base := (srcG s b).toNat
  let len := (srcG s l).toNat
  let overlaps := s.here.regs.ranges.any fun e =>
    e.1 != n.toNat && decide (base < e.2.base + e.2.len) && decide (e.2.base < base + len)
  let bad := base % 64 != 0 || len % 64 != 0 || decide (2 ^ 20 < len) || decide (2 ^ 48 < base + len) || overlaps
  under (checks [readyG s [b, l], faultWhen (len != 0 && bad) .badValue 0]) s
    (effect (land 1 (.crng n.toNat (if len = 0 then 0 else rangeWord base len t o)) s))

/-- `cadd` (R170, R286): the kind is that of the range which holds every active lane. -/
def execCadd (v a : Reg) (m : Reg3) (s : State) : Out :=
  let base := (srcG s a).toNat
  let mask := srcM s m
  let x := s.here.readSrcV v
  let items := rowItems (srcG s a) mask x
  let holds := fun (r : Range) => (activeLanes mask).all fun i => decide (r.base ≤ base + 4 * i) && decide (base + 4 * i + 4 ≤ r.base + r.len)
  let range := s.here.regs.ranges.find? fun e => holds e.2
  under (checks [readyG s [a], s.here.checkSrcV v,
      faultWhen (!items.isEmpty && (base % 4 != 0 || range.isNone)) .range 0, memLimit s (linesOf items).length]) s
    (effect (
      let s := popSources [v] s
      match range with
      | some r => if items.isEmpty then s else issueMem (.combine r.2.t r.2.op) none 4 .wt false items s
      | none => s))

/-! ### Issue of copies and cache walks (R180, R333) -/

/-- Space, core and position fields of walk word 0 (R176). -/
def walkSpace (w0 : W64) : Nat := (w0.extractLsb' 0 4).toNat
/-- The level-2 core index of a walk. -/
def walkCore (w0 : W64) : Nat := (w0.extractLsb' 8 16).toNat
/-- The level-0 position of a walk. -/
def walkPos (w0 : W64) : Nat := (w0.extractLsb' 24 2).toNat
/-- The peer device of a walk. -/
def walkPeer (w3 : W64) : Nat := (w3.extractLsb' 32 20).toNat

/-- The shape of a captured walk. -/
def shapeOf (w : List W64) : WalkShape := walkShape (w.getD 0 0) (w.getD 1 0) (w.getD 2 0)

/-- The checks of one walk of a copy against its window (R180). -/
def checkCopyWalk (s : State) (w : List W64) (base : Nat) : Check :=
  let w0 := w.getD 0 0
  let sp := walkSpace w0
  if sp = 1 ∨ sp = 2 then
    if !(shapeOf w).inside base s.here.window then .fault .window base
    else if sp = 2 ∧ !(s.cont s.here.cont).launch.names (walkCore w0) (walkPos w0) then .fault .window base
    else .ok
  else .ok

/-- The lowest free channel of a core's eight (R180). -/
def freeChannel (s : State) (core : Nat) : Option Nat := (List.range 8).find? fun n => ((s.core core).channels.find n).isNone

/-- An engine command takes a channel; with none free its bundle stalls (R180). -/
def startChannel (ch : Channel) (s : State) : Out :=
  let core := coreOf s.focusCtx
  match freeChannel s core with
  | none => waits s
  | some n => effect (s.mapCore core fun k => { k with channels := Sparse.put k.channels n ch })

/-- A command of the focus context, its fields captured. -/
def newChannel (s : State) (kind : CopyKind) (src dst : List W64) (a b bar total : Nat) : Channel :=
  let c := s.here
  { kind := kind, ctx := s.focusCtx, cont := c.cont, rank := c.rank, asid := (s.cont c.cont).launch.asid, src := src, dst := dst,
    srcBase := a, dstBase := b, bar := bar, total := total, landed := [], counted := 0, gate := c.work.gate, pc := c.pc.toNat,
    stopped := false }

/-- `copy` (R180, R290). -/
def execCopy (gs gd : Reg) (ws wd : Reg4) (gb : Reg) (s : State) : Out :=
  let r := s.here.regs
  let src := r.walkWords ws.toNat
  let dst := r.walkWords wd.toNat
  let a := (srcG s gs).toNat
  let b := (srcG s gd).toNat
  let x := shapeOf src
  let y := shapeOf dst
  let shape := decide (2 < walkSpace (src.getD 0 0)) || decide (4 < walkSpace (dst.getD 0 0)) || decide (3 < x.esize) ||
    decide (3 < y.esize) || x.total != y.total || decide (0xFFFFFFFF < x.total)
  under (checks [readyG s [gs, gd, gb], faultWhen shape .shape 0, checkCopyWalk s src a, checkCopyWalk s dst b, checkObject s gb]) s
    (if x.total = 0 then effect s
     else startChannel (newChannel s .copy src dst a b (srcG s gb).toNat x.total) s)

/-- A cache walk (R172, R333). -/
def cacheWalk (kind : CopyKind) (a l b : Reg) (s : State) : Out :=
  let base := (srcG s a).toNat
  let len := (srcG s l).toNat
  under (checks [readyG s [a, l, b], checkObject s b,
      faultWhen (decide (0xFFFFFFFF < len) || decide (2 ^ 48 < base + len)) .badValue 0]) s
    (if len = 0 then effect s
     else startChannel (newChannel s kind [] [] base base (srcG s b).toNat len) s)

/-- `rflush` (R333). -/
def execRflush (a l b : Reg) (s : State) : Out := cacheWalk .flush a l b s
/-- `rinv` (R333). -/
def execRinv (a l b : Reg) (s : State) : Out := cacheWalk .inv a l b s

/-! ### Prefetches (R196, R326, R327) -/

/-- One line of a prefetch into a core: a page that does not translate is skipped (R196, R326), and so is a poisoned line; what the walk or the
read finds wrong is logged (R208, log entry 106). The flag says that the host must first give the line up. -/
def prefetchLine (h core asid pts : Nat) (pol : Policy) (va : Nat) (s : State) : State × Bool :=
  match translate core asid (BitVec.ofNat 64 va) .prefetch s with
  | (.found pa _ _ _, s) =>
    let line := pa / 64
    let st := s.store
    let l2 := copyAt st (l2Holder (dieOf core)) line
    let keeps := (copyAt st core line).any fun c => c.state.owns || (c.state == .shared && pol != .own)
    if pol = .wt ∨ keeps then (s, false)
    else if (dirOf st line).poison then (logError (64 * line) 5 4 (dieOf core) h s, false)
    else
      let done : Option Store :=
        if isHostLine line then some (loadHost st core line .si pts s.lease).2.2
        else match pol, l2 with
          | .own, _ => acquireOwn st core line
          | .si, some c => if c.state = .shared ∧ !holdsPartial st core line then some (loadAtL2 st core line .si pts s.lease c).2.2
                           else (loadAtHome st core line .si pts s.lease).map (·.2.2)
          | .si, none => (loadAtHome st core line .si pts s.lease).map (·.2.2)
          | _, _ => (serveLoad st core line .wi pts s.lease).map (·.2.2)
      match done with
      | some st => (noteCombines s { s with store := st }, false)
      | none => (askHost line s, true)
  | (w, s) => (logWalk core h w s, false)

/-- The lines of a prefetch in ascending order, clipped to 64 KiB and at 2^48. -/
def prefetchLines (va : W64) (n : Nat) : List Nat :=
  let a := va.toNat
  let n := min (min n 65536) (2 ^ 48 - a)
  if n = 0 then [] else (lineSpan a n).map fun l => max a (64 * l)

/-- A prefetch runs for a context; what waits for the host stays listed. -/
def runPrefetch (h : Nat) (p : PrefWait) (s : State) : State :=
  let asid := (s.cont (s.ctx h).cont).launch.asid
  (prefetchLines p.va p.bytes).foldl
    (fun s va =>
      match prefetchLine h (coreOf h) asid p.pts p.policy va s with
      | (s, true) => s.mapCtx h fun c =>
          { c with work := { c.work with prefs := c.work.prefs ++ [{ p with va := BitVec.ofNat 64 va, bytes := 1 }] } }
      | (s, false) => s)
    s

/-- Prefetches whose gate has opened run, in order (R148, R153). -/
def runPrefetches (h : Nat) (s : State) : State :=
  let c := s.ctx h
  let ready := c.work.prefs.filter fun p => c.performedBelow p.gate
  if ready.isEmpty then s
  else
    let s := s.mapCtx h fun c => { c with work := { c.work with prefs := c.work.prefs.filter fun p => !c.performedBelow p.gate } }
    ready.foldl (fun s p => runPrefetch h p s) s

/-- `pref` (R196, R326): an engine command, which runs once the gate of an earlier `fence.eng` is open. -/
def execPref (a l : Reg) (p : Policy) (s : State) : Out :=
  under (readyG s [a, l]) s
    (effect (runPrefetches s.focusCtx (s.mapHere fun c =>
      { c with work := { c.work with
          prefs := c.work.prefs ++
            [{ va := srcG s a, bytes := (srcG s l).toNat, policy := p, pts := c.pts, gate := c.work.gate }] } })))

/-! ### Copies in progress (R181 to R184) -/

/-- Where byte j of one side of a copy lies: a byte of memory, a byte of a scratchpad, a place on a peer; or it must wait, or it
cannot be reached, with the class of R184. -/
inductive Spot where
  | byte (pa : Nat)
  | cell (core addr : Nat)
  | remote (addr : Nat)
  | blocked
  | bad (cls : Nat)
  deriving DecidableEq, Repr

/-- The address that a walk gives byte j: virtual, or a window offset. -/
def copyAddr (w : List W64) (base j : Nat) : W64 := BitVec.ofInt 64 ((shapeOf w).at base j)

/-- The context whose window a walk of space 1 or 2 names: the issuer's own, or (core, position) of the continuation (R177). -/
def windowRank (s : State) (ch : Channel) (w0 : W64) : Nat :=
  if walkSpace w0 = 2 then walkCore w0 * (s.cont ch.cont).launch.perCore + walkPos w0 else ch.rank

/-- A byte of the window of a context of the continuation; it waits while the window is in the kennel (R181). -/
def windowSpot (s : State) (ch : Channel) (w0 : W64) (off : Nat) : Spot :=
  match s.windowHw ch.cont (windowRank s ch w0) with
  | none => .blocked
  | some h => .cell (coreOf h) ((s.ctx h).coreAddr off)

/-- A byte of coherent memory under the issuer's ASID; a poisoned line cannot be read (R174, R183). That a copy's translation fills no TLB and
no walk cache is a DESIGN CHOICE (log entry 99). -/
def memorySpot (s : State) (core : Nat) (ch : Channel) (q : Requester) (va : W64) : Spot :=
  match (translate core ch.asid va q s).1 with
  | .found pa _ _ _ => if q = .peerCopy then .remote pa else if q = .reader ∧ (dirOf s.store (pa / 64)).poison then .bad 3 else .byte pa
  | .failed cls .. => .bad (if cls = .permission then 2 else 1)

/-- Where a copy reads byte j. -/
def sourceSpot (s : State) (core : Nat) (ch : Channel) (j : Nat) : Spot :=
  let w0 := ch.src.getD 0 0
  let a := copyAddr ch.src ch.srcBase j
  if walkSpace w0 = 0 then memorySpot s core ch .reader a else windowSpot s ch w0 a.toNat

/-- Where a copy writes byte j. That a peer is reached as long as any port is enabled is a DESIGN CHOICE (log entry 105). -/
def destSpot (s : State) (core : Nat) (ch : Channel) (j : Nat) : Spot :=
  let w0 := ch.dst.getD 0 0
  let a := copyAddr ch.dst ch.dstBase j
  match walkSpace w0 with
  | 0 => memorySpot s core ch .writer a
  | 3 => if s.dev.record.ports = 0 then .bad 4 else memorySpot s core ch .peerCopy a
  | 4 => if s.dev.record.ports = 0 then .blocked else .remote a.toNat
  | _ => windowSpot s ch w0 a.toNat

/-- The physical byte that a spot names in memory. -/
def Spot.physical : Spot → Option Nat
  | .byte pa => some pa
  | _ => none

/-- Whether a copy can touch a spot now. -/
def Spot.usable : Spot → Bool
  | .blocked | .bad _ => false
  | _ => true

/-- The timestamp at which an engine command of a context accesses memory: past what its issuer has observed. -/
def engineTs (s : State) (ch : Channel) : Nat := ((s.ctxOf ch.cont ch.rank).map (·.pts)).getD 0

/-- Lines read as `.wt` loads of the engine, one by one, or the line that the host must first give up. -/
def engineLoads (core pts lease : Nat) : List Nat → Store → Except Nat (List (Nat × BitVec 512) × Store)
  | [], st => .ok ([], st)
  | l :: ls, st =>
    match serveLoad st core l .wt pts lease with
    | none => .error l
    | some (x, _, st) => (engineLoads core pts lease ls st).map fun r => ((l, x) :: r.1, r.2)

/-- One line written as a `.wt` store of the engine, at its bytes. -/
def engineStoreLine (core pts : Nat) (line : Nat) (bytes : List (Nat × Byte)) (s : State) : Option (Nat × State) :=
  let x := bytes.foldl (fun x e => lineSet x (e.1 % 64) 1 e.2.toNat) (latestData s.store line)
  let mask := bytes.foldl (fun m e => m ||| wordMask (e.1 % 64) 1) 0
  (serveStore s.store core line .wt pts s.lease mask x).map fun r => (r.1, noteWrite line { s with store := r.2 })

/-- Lines written one by one, with the greatest timestamp of these writes, or the line that the host must first give up. -/
def engineStores (core pts : Nat) (bytes : List (Nat × Byte)) : List Nat → State → Except Nat (Nat × State)
  | [], s => .ok (0, s)
  | l :: ls, s =>
    match engineStoreLine core pts l (bytes.filter fun e => e.1 / 64 == l) s with
    | none => .error l
    | some (ts, s) => (engineStores core pts bytes ls s).map fun r => (max ts r.1, r.2)

/-- The bytes of memory among spots with their values. -/
def memoryBytes (xs : List (Spot × Byte)) : List (Nat × Byte) := xs.filterMap fun e => e.1.physical.map fun pa => (pa, e.2)

/-- The bytes that leave for a peer (R267). -/
def sendBytes (s : State) (ch : Channel) (xs : List (Spot × Byte)) : State :=
  let w0 := ch.dst.getD 0 0
  let pack := (s.cont ch.cont).launch.pack
  xs.foldl
    (fun s e => match e.1 with
      | .remote a => s.output (.copyWrite (walkPeer (ch.dst.getD 3 0)) (walkSpace w0) pack (walkCore w0) (walkPos w0) a ch.bar [e.2])
      | _ => s)
    s

/-- Scratchpad bytes written by the engine; during a changeover pause they wait in the staging buffer (R181, R244). -/
def cellBytes (xs : List (Spot × Byte)) (s : State) : State :=
  xs.foldl (fun s e => match e.1 with | .cell core a => engineWrite core a [e.2] s | _ => s) s

/-- The byte that a spot holds, of lines already read. -/
def Spot.value (st : Store) (lines : List (Nat × BitVec 512)) : Spot → Byte
  | .byte pa => BitVec.ofNat 8 (lineNat (((lines.find? fun e => e.1 == pa / 64).map (·.2)).getD 0) (pa % 64) 1)
  | .cell core a => scratchByte st core a
  | _ => 0

/-- Whether bytes off to off + n − 1 of a command are still to land. -/
def Channel.fresh (ch : Channel) (off n : Nat) : Bool :=
  decide (0 < n) && decide (off + n ≤ ch.total) && ch.landed.all fun r => decide (r.1 + r.2 ≤ off) || decide (off + n ≤ r.1)

/-- The bytes of a command that have landed. -/
def Channel.landedBytes (ch : Channel) : Nat := (ch.landed.map (·.2)).sum

/-- Whether the gate of an engine command is open: what `fence.eng` put before it has performed (R153). -/
def gateOpen (s : State) (ch : Channel) : Bool :=
  match s.ctxOf ch.cont ch.rank with
  | some c => c.performedBelow ch.gate
  | none => true

/-- Bytes of a command have landed, their coherent writes at a timestamp, 0 where there are none (R150): they travel to its barrier object.
For space 4 it lies at the peer: a signal follows the bytes, and the peer's acknowledgement is `COPY_COMPLETE` (R182). -/
def landChannel (c n off len ts : Nat) (ch : Channel) (s : State) : State :=
  let w0 := ch.dst.getD 0 0
  let ch' := { ch with landed := (off, len) :: ch.landed }
  if ch.kind = .copy ∧ walkSpace w0 = 4 then
    let s := s.mapCore c fun k => { k with channels := Sparse.put k.channels n ch' }
    s.output (.signal (walkPeer (ch.dst.getD 3 0)) (s.cont ch.cont).launch.pack (walkCore w0) (walkPos w0) ch.bar len none)
  else
    let rank := if ch.kind = .copy then windowRank s ch w0 else ch.rank
    s.mapCore c fun k =>
      { k with channels := Sparse.put k.channels n ch',
               counts := k.counts ++ [{ cont := ch.cont, rank := rank, off := ch.bar, bytes := len, ts := ts, chan := n }] }

/-- The scratchpad bytes among spots: core and address. -/
def cellsOf (xs : List Spot) : List (Nat × Nat) := xs.filterMap fun p => match p with | .cell core a => some (core, a) | _ => none

/-- The cells of one core. -/
def cellsAt (cells : List (Nat × Nat)) (core : Nat) : List Nat := (cells.filter fun e => e.1 == core).map (·.2)

/-- The cores of cells. -/
def cellCores (cells : List (Nat × Nat)) : List Nat := (cells.map (·.1)).dedup

/-- Whether the engine ports serve a copy at every bank that its cells lie in (R107, R121). -/
def portsFree (s : State) (u : PortUser) (cells : List (Nat × Nat)) : Bool :=
  (cellCores cells).all fun core => portFree s u core (cellsAt cells core)

/-- The engine ports of the banks that cells lie in serve a copy's request (R107). -/
def usePorts (u : PortUser) (cells : List (Nat × Nat)) (s : State) : State :=
  (cellCores cells).foldl (fun s core => usePort u core (cellsAt cells core) s) s

/-- A copy waits at the engine ports (R107, R121). -/
def queuePorts (u : PortUser) (cells : List (Nat × Nat)) (s : State) : State :=
  (cellCores cells).foldl (fun s core => queuePort u core (cellsAt cells core) s) s

/-- The budget units of n bytes more of a command: one for each 64 bytes that its engine writes (R246). -/
def Channel.units (ch : Channel) (n : Nat) : Nat := (ch.landedBytes + n) / 64 - ch.landedBytes / 64

/-- Bytes off to off + len − 1 of a copy move: each is read once and written, with no other access in between (R181, log entry 66), and
their energy is charged (R246). Where the engine ports do not serve them they wait there (R107, R121); where the host must first give a line
up, it is asked. -/
def moveBytes (c n off len : Nat) (ch : Channel) (s : State) : Option State :=
  let js := (List.range len).map (off + ·)
  let from' := js.map (sourceSpot s c ch)
  let to' := js.map (destSpot s c ch)
  let cells := cellsOf from' ++ cellsOf to'
  let room := (cellsOf to').all fun e => stagingRoom s e.1 len
  if !(from'.all Spot.usable && to'.all Spot.usable && room) then none
  else if !portsFree s (.copy c n) cells then some (queuePorts (.copy c n) cells s)
  else
    let pts := engineTs s ch
    match engineLoads c pts s.lease ((from'.filterMap Spot.physical).map (· / 64)).dedup s.store with
    | .error l => some (askHost l (leavePorts (.copy c n) s))
    | .ok (lines, st) =>
      let s1 := noteCombines s { s with store := st }
      let xs := List.zip to' (from'.map (Spot.value s1.store lines))
      let bytes := memoryBytes xs
      match engineStores c pts bytes (bytes.map (·.1 / 64)).dedup s1 with
      | .error l => some (askHost l (leavePorts (.copy c n) s))
      | .ok (ts, s) =>
        some (charge c (ch.units len) (landChannel c n off len ts ch (usePorts (.copy c n) cells (sendBytes (cellBytes xs s) ch xs))))

/-! ### The cache walker (R172, R333, R334) -/

/-- Dirty copies of a device-homed line written back, staying valid and clean; partials are combined (R172). -/
def flushLine (st : Store) (line : Nat) : Store :=
  let st := match (dirOf st line).state with | .partials .. => combineLine st line | _ => combineInDie st line
  match ownerCopy st line with
  | some (h, k) =>
    if k.state = .modified then putCopy { st with mem := memPutLine st.mem line k.data 0xFFFF } h line { k with state := .owned } else st
  | none => st

/-- Every copy of a line dropped from every L1 and L2, its timestamps folded into the home (R164, R172). -/
def dropEverywhere (st : Store) (line : Nat) : Store :=
  if isHostLine line then
    refetchHost (dropWhere st line (fun h k => h < 260 && k.state != .hostDirty)) line
  else
    let st := match (dirOf st line).state with
      | .owned 4 => st
      | .owned _ => recallLine st line
      | .tracked hs =>
        let st := invalidateWhere st line fun _ => true
        setDir st line { dirOf st line with state := if hs.getLsbD 4 then .tracked 0x10 else .untracked }
      | _ => st
    dropWhere st line (fun h _ => h < 260)

/-- Cores that hold dirty words of a host-homed line. -/
def dirtyCores (st : Store) (line : Nat) : List Nat :=
  ((copiesOf st line).filter fun e => e.2.state == .hostDirty).map (·.1)

/-- Write-backs of a host-homed line that the host has not been asked for yet are asked for (R155). -/
def askWriteBack (line : Nat) (s : State) : State :=
  let cores := (dirtyCores s.store line).filter fun k => !s.dev.hostWrites.contains (k, line)
  s.mapDev fun d => { d with hostWrites := d.hostWrites ++ cores.map fun k => (k, line) }

/-- An entry of the copy-fault log (R184). -/
def logCopyFault (ch : Channel) (addr : Nat) (space : Nat) (dst : Bool) (cls written : Nat) (s : State) : State :=
  let s := s.mapCont ch.cont fun x => { x with copyFaults := x.copyFaults + 1 }
  let n := (s.cont ch.cont).copyFaults
  let kind := space % 16 + (if dst then 16 else 0) + 256 * cls
  distWrite ((s.cont ch.cont).block + 0x800 + 32 * (n % 16))
    (leBytes 8 addr ++ leBytes 4 n ++ leBytes 2 kind ++ leBytes 2 ch.ctx ++ leBytes 8 ch.pc ++ leBytes 4 written ++ leBytes 4 0) s

/-- Whether a walk failed for want of a permission (R184). -/
def Walked.permission : Walked → Bool
  | .failed .permission .. => true
  | _ => false

/-- One line of a cache walk. The flag of the channel says that a copy fault has been logged for this command (R333). -/
def walkLine (c n off : Nat) (ch : Channel) (s : State) : Option State :=
  let va := ch.srcBase + off
  let first := max ch.srcBase (va / 64 * 64)
  let last := min (ch.srcBase + ch.total) (va / 64 * 64 + 64)
  let at' := first - ch.srcBase
  let len := last - first
  if !ch.fresh at' len then none
  else
    match translate c ch.asid (BitVec.ofNat 64 va) .reader s with
    | (.found pa _ _ _, s) =>
      let line := pa / 64
      if isHostLine line ∧ !(dirtyCores s.store line).isEmpty then some (askWriteBack line s)
      else
        let t := s.mapStore fun st =>
          let st := if isHostLine line then st else flushLine st line
          if ch.kind = .inv then dropEverywhere st line else st
        some (landChannel c n at' len 0 ch (noteCombines s t))
    | (w, s) =>
      match s.windowHw ch.cont ch.rank with
      | none => none
      | some h =>
        let obj := (s.ctx h).coreAddr ch.bar
        some (engineUpdate (.copy c n) (coreOf h) obj
          (fun s =>
            let s := if ch.stopped then s
              else logCopyFault ch (w.page va) 0 false (if w.permission then 2 else 1) ch.counted (logWalk c ch.ctx w s)
            let s := s.mapStore (markError (coreOf h) obj (s.cont ch.cont).copyFaults)
            landChannel c n at' len 0 { ch with stopped := true } s)
          s)

/-- `COPY_BYTES_LANDED` (R181, R182): bytes off to off + n − 1 of the command on a channel have landed, once its gate is open;
of a cache walk, the line of byte off is done. The engine of a core in a changeover pause reads nothing (R244), and its die spends no more than
it has (R258). -/
def execCopyBytesLanded (c ch off n : Nat) (s : State) : Out :=
  match (s.core c).channels.find ch with
  | none => .next s
  | some k =>
    if !gateOpen s k then .next s
    else
      match k.kind with
      | .copy =>
        if k.stopped || !k.fresh off n || (s.core c).pause != 0 || !s.dieRoom c (k.units n) then .next s
        else .next ((moveBytes c ch off n k s).getD (leavePorts (.copy c ch) s))
      | _ => .next ((walkLine c ch off k s).getD s)

/-- `BARRIER_COUNT` (R186): the k-th counting update on its way from a core is applied at its object. It waits while the window is
not on a core, its bank is held, or its core pauses (R121, R181, R244). -/
def execBarrierCount (c k : Nat) (s : State) : Out :=
  match (s.core c).counts[k]? with
  | none => .next s
  | some m =>
    match s.windowHw m.cont m.rank with
    | none => .next s
    | some h =>
      let obj := (s.ctx h).coreAddr m.off
      let counted := fun (s : State) => s.mapCore c fun x =>
        { x with counts := x.counts.eraseIdx k,
                 channels := Sparse.adjust x.channels m.chan fun y => { y with counted := y.counted + m.bytes } }
      .next (engineUpdate (.count c) (coreOf h) obj
        (fun s => countAt (coreOf h) obj m.bytes false (releaseTo (coreOf h) obj m.ts (counted s))) s)

/-- `BARV_UPDATE` (R188): the oldest `barv` of a context whose gate is open is applied, while its window is on the core (R181). It releases
(R149). One with no bytes and no arrival changes nothing, but has waited its turn (R279). That it waits for what its own bundle accesses, a
`park` there included, is DEDUCED (log entry 27). -/
def execBarvUpdate (h : Nat) (s : State) : Out :=
  let c := s.ctx h
  match c.work.barvs with
  | [] => .next s
  | b :: bs =>
    if !c.performedBelow b.gate || s.windowHw c.cont c.rank != some h then .next s
    else
      let gone := fun (s : State) => s.mapCtx h fun c => { c with work := { c.work with barvs := bs } }
      .next (if b.bytes = 0 ∧ !b.arrive then gone s
        else engineUpdate (.barv h) (coreOf h) b.addr
          (fun s => countAt (coreOf h) b.addr b.bytes b.arrive (releaseTo (coreOf h) b.addr c.pts (gone s))) s)

/-! ### The end of a command (R182, R183) -/

/-- The ranges of a command in the order of their landing, without the first n bytes, which have been counted. -/
def uncounted : Nat → List (Nat × Nat) → List (Nat × Nat)
  | _, [] => []
  | n, r :: rs => if r.2 ≤ n then uncounted (n - r.2) rs else (r.1 + n, r.2 - n) :: rs

/-- Whether a byte of a copy has been sent and not counted yet: the peer may still refuse it (R183). -/
def Channel.sent (ch : Channel) (j : Nat) : Bool :=
  (uncounted ch.counted ch.landed.reverse).any fun r => decide (r.1 ≤ j) && decide (j < r.1 + r.2)

/-- The first byte of a copy that cannot be reached: its side, address and class. A read is looked at before a write. -/
def ownFault (s : State) (c : Nat) (ch : Channel) : Option (Bool × W64 × Nat) :=
  (List.range ch.total).findSome? fun j =>
    if ch.fresh j 1 then
      match sourceSpot s c ch j, destSpot s c ch j with
      | .bad cls, _ => some (false, copyAddr ch.src ch.srcBase j, cls)
      | _, .bad cls => some (true, copyAddr ch.dst ch.dstBase j, cls)
      | _, _ => none
    else none

/-- Whether a peer can so answer a copy: it refuses bytes that were sent to it and not counted, of which one is the first (R183). -/
def Channel.refuses (ch : Channel) (e : PeerError) : Bool :=
  decide (3 ≤ walkSpace (ch.dst.getD 0 0)) && ch.sent e.first && decide (0 < e.refused) && decide (e.refused ≤ ch.landedBytes - ch.counted)

/-- What stops a copy: a byte of its own that cannot be reached, or the peer's error response. -/
def firstFault (s : State) (c : Nat) (ch : Channel) (peerError : Option PeerError) : Option (Bool × W64 × Nat) :=
  match peerError with
  | none => ownFault s c ch
  | some e => if ch.refuses e then some (true, copyAddr ch.dst ch.dstBase e.first, if walkSpace (ch.dst.getD 0 0) = 4 then 5 else 4) else none

/-- The error log's entry for the byte at which a copy faults: a poisoned line read, or a leaf that breaks the access rules (R207, R208). -/
def logSpot (s : State) (c : Nat) (ch : Channel) (side : Bool) (a : W64) (cls : Nat) : State :=
  let w := (if side then ch.dst else ch.src).getD 0 0
  let q : Requester := if !side then .reader else if walkSpace w = 3 then .peerCopy else .writer
  if walkSpace w ≠ 0 ∧ walkSpace w ≠ 3 then s
  else
    match (translate c ch.asid a q s).1 with
    | .found pa _ _ _ => if cls = 3 then logError (pa / 64 * 64) 5 4 (dieOf c) ch.ctx s else s
    | w => logWalk c ch.ctx w s

/-- `COPY_FAULT` (R183): the first byte that cannot be reached stops a copy. Every byte not yet counted is counted with the error
bit set, as one update, and the log takes an entry; bytes that the peer refused have not been written. At a peer's object the signal names the
bytes that were never sent, and the peer adds those that it refused (log entry 34). A space-4 copy whose peer is unreachable ends otherwise
(R267). -/
def execCopyFault (c ch : Nat) (peerError : Option PeerError) (s : State) : Out :=
  match (s.core c).channels.find ch with
  | none => .next s
  | some k =>
    if k.kind ≠ .copy || k.stopped || !gateOpen s k || (walkSpace (k.dst.getD 0 0) == 4 && s.dev.record.ports == 0) then .next s
    else
      match firstFault s c k peerError with
      | none => .next s
      | some (side, a, cls) =>
        let w := if side then k.dst else k.src
        let w0 := k.dst.getD 0 0
        let written := k.landedBytes - (peerError.map PeerError.refused).getD 0
        let log := fun (s : State) => logCopyFault k a.toNat (walkSpace (w.getD 0 0)) side cls written (logSpot s c k side a cls)
        let stop := fun (s : State) => s.mapCore c fun x =>
          { x with counts := x.counts.filter (fun m => m.chan != ch),
                   channels := Sparse.put x.channels ch { k with stopped := true, counted := k.total } }
        if walkSpace w0 = 4 then
          .next (log (stop (s.output
            (.signal (walkPeer (k.dst.getD 3 0)) (s.cont k.cont).launch.pack (walkCore w0) (walkPos w0) k.bar (k.total - k.landedBytes)
              (some ((s.cont k.cont).copyFaults + 1))))))
        else
          match s.windowHw k.cont (windowRank s k w0) with
          | none => .next s
          | some h =>
            let obj := (s.ctx h).coreAddr k.bar
            let ts := (((s.core c).counts.filter fun m => m.chan == ch).map CountMsg.ts).foldl max 0
            .next (engineUpdate (.copy c ch) (coreOf h) obj
              (fun s =>
                let s := log (stop s)
                let s := s.mapStore (markError (coreOf h) obj (s.cont k.cont).copyFaults)
                countAt (coreOf h) obj (k.total - k.counted) false (releaseTo (coreOf h) obj ts s))
              s)

/-- The first byte of a command that has not landed. -/
def Channel.firstUnsent (ch : Channel) : Nat := ((List.range ch.total).find? fun j => ch.fresh j 1).getD ch.total

/-- `COPY_LOST` (R183): the barrier object of a space-4 copy cannot be reached. Its context stops at its next bundle boundary with
class copy-lost; the record names the copy and its first byte that was not written: one that the peer refused, or at the latest the first that
was never sent (R206). A context in the kennel stands at a boundary. -/
def execCopyLost (c : Nat) (lost : LostCopy) (s : State) : Out :=
  let ch := lost.ch
  match (s.core c).channels.find ch with
  | none => .next s
  | some k =>
    if k.kind ≠ .copy || k.stopped || walkSpace (k.dst.getD 0 0) ≠ 4 ||
        !gateOpen s k || decide (k.total ≤ lost.first) || decide (k.firstUnsent < lost.first) then .next s
    else
      let f : FaultInfo :=
        { cls := .copyLost, addr := (copyAddr k.dst k.dstBase lost.first).toNat, intent := some .write, slot := 0xFF, replay := 0,
          ctx := k.ctx, rank := k.rank, pc := k.pc, asid := k.asid, level := 0xFF, entry := 0, repairable := false }
      let s := s.mapCore c fun x => { x with channels := Sparse.erase x.channels ch }
      match s.hwOf k.cont k.rank with
      | some h => .next (s.mapCtx h fun x => { x with lost := some f })
      | none => .next (if (s.cont k.cont).state.isEnd then s else recordUnrepairable k.cont f s)

/-- Whether a command has ended: its last byte has been counted; of space 4, all of it has been sent, or a fault reported, and the peer has
acknowledged it, which is this event (R182). -/
def Channel.ended (ch : Channel) : Bool :=
  if ch.kind = .copy ∧ walkSpace (ch.dst.getD 0 0) = 4 then ch.stopped || ch.landedBytes == ch.total else ch.counted == ch.total

/-- `COPY_COMPLETE` (R182): the channel is free. -/
def execCopyComplete (c ch : Nat) (s : State) : Out :=
  match (s.core c).channels.find ch with
  | none => .next s
  | some k => if k.ended then .next (s.mapCore c fun x => { x with channels := Sparse.erase x.channels ch }) else .next s

/-! ### Gears of a core (R240, R242, R245) -/

/-- The contexts that a core holds. -/
def residents (s : State) (c : Nat) : List (Nat × Ctx) := s.ctxs.filter fun e => coreOf e.1 == c

/-- Whether a resident context counts towards its core's target gear (R240). -/
def Ctx.countsForGear (c : Ctx) : Bool := c.ended.isNone && !c.halted && c.call.isNone && c.fault.isNone

/-- The gear that a context requests, after a `.drop` (R192, R240). -/
def Ctx.wantsRun (c : Ctx) : Bool := c.gearReq && !c.dropped

/-- The target gear of a core (R240): RUN when a counting context requests it. -/
def targetRun (s : State) (c : Nat) : Bool := (residents s c).any fun e => e.2.countsForGear && e.2.wantsRun

/-- Whether a core has settled in its target gear (R242, R245). -/
def settledCore (s : State) (c : Nat) : Bool := (s.core c).settling.isNone && (s.core c).run == targetRun s c

/-! ### The members of a pack (R191) -/

/-- Whether a rank is a member of a context's level-L pack on this device (R12, R191). -/
def isMember (s : State) (i rank level other : Nat) : Bool :=
  let l := (s.cont i).launch
  let seat := fun r => ((s.cont i).seats[r / l.perCore]?.map (·.core)).getD 0
  match level with
  | 0 => rank / l.perCore == other / l.perCore
  | 1 => seat rank / 64 == seat other / 64
  | _ => true

/-- The ranks of a context's level-L pack on this device. -/
def members (s : State) (i rank level : Nat) : List Nat :=
  (List.range (s.cont i).launch.contexts).filter fun r => isMember s i rank level r

/-- Whether a context counts as arrived at its n-th `pbar` of a level: it waits there, or has passed it. -/
def Ctx.arrivedAt (c : Ctx) (level n : Nat) : Bool :=
  match c.work.pbar with
  | some p => if p.level = level ∧ p.nth = n then p.arrived else decide (n ≤ Sparse.get 0 c.pbarCount level)
  | none => decide (n ≤ Sparse.get 0 c.pbarCount level)

/-- Whether every local member has arrived; one that has ended counts as arrived (R191, R294). -/
def allArrived (s : State) (i rank level n : Nat) : Bool :=
  (members s i rank level).all fun r => (s.cont i).ended.contains r || (s.ctxOf i r).any fun c => c.arrivedAt level n

/-- Whether a command still moves data into a window of the pack (R191). -/
def intoPack (s : State) (i rank level : Nat) (ch : Channel) : Bool :=
  let w0 := ch.dst.getD 0 0
  ch.kind == .copy && (walkSpace w0 == 4 || !ch.stopped && decide (ch.landedBytes < ch.total)) &&
    (match walkSpace w0 with
     | 1 => true
     | 2 => isMember s i rank level (windowRank s ch w0)
     | 4 => level == 3
     | _ => false)

/-- The gear that the local members' `pbar`s name, in rank order (R192). -/
def releaseGear (s : State) (i level n : Nat) (rs : List Nat) : Option Bool :=
  rs.foldl
    (fun g r => match (s.ctxOf i r).bind (·.work.pbar) with
      | some p => if p.level = level ∧ p.nth = n ∧ p.gear.isSome then p.gear else g
      | none => g)
    none

/-- Whether a context waits in the n-th `pbar` of a level. -/
def Ctx.waitsAt (c : Ctx) (level n : Nat) (p : PbarWait → Bool) : Bool := c.work.pbar.any fun q => q.level == level && q.nth == n && p q

/-- Whether a member that waits in it satisfies a test. -/
def anyWaits (s : State) (i level n : Nat) (rs : List Nat) (p : PbarWait → Bool) : Bool :=
  rs.any fun r => (s.ctxOf i r).any fun c => c.waitsAt level n p

/-- The number by which a device whose members have all ended counts as arrived at every `pbar 3` (R191). -/
def lastNth : Nat := 2 ^ 64 - 1

/-- Every local member has arrived at the next `pbar 3` of a level-3 pack: the other devices of the pack learn of it, of the members' `pack3`,
of the gear they name and of a dropped request by an ordered signal (R191, R192). Members that have ended count as arrived at every later
one. -/
def signalLevel3 (i : Nat) (s : State) : State :=
  let c := s.cont i
  let all := List.range c.launch.contexts
  let n := if all.all c.ended.contains then lastNth else c.signals3 + 1
  if c.launch.pack = 0 ∨ n ≤ c.signals3 ∨ !allArrived s i 0 3 n then s
  else (s.mapCont i fun x => { x with signals3 := n }).output (.arrival c.launch.pack
    { nth := n, pack3 := c.launch.l3count, gear := releaseGear s i 3 n all, drop := anyWaits s i 3 n all (·.drop), phase := .arrived })

/-- `PBAR_ARRIVAL` (R191, R192): the member's accesses have performed, and its copies into the pack have landed. -/
def execPbarArrival (h : Nat) (s : State) : Out :=
  let c := s.ctx h
  match c.work.pbar with
  | none => .next s
  | some p =>
    let i := c.cont
    if p.arrived || !c.awake || !c.performedBelow p.gate || c.work.barvs.any (fun b => decide (b.gate < p.gate)) ||
        (s.channelsOf i c.rank).any (fun e => intoPack s i c.rank p.level e.2.2) then .next s
    else
      let s := s.mapCtx h fun c =>
        { c with dropped := c.dropped || p.drop, work := { c.work with pbar := some { p with arrived := true } } }
      .next (if p.level = 3 then signalLevel3 i s else s)

/-- The latest arrivals of the other devices of a level-3 pack at a `pbar 3`: those of each device that has come so far. -/
def Cont.arrivals (c : Cont) (n : Nat) : List Arrival3 := (c.arrivals3.filter fun e => decide (n ≤ e.2.nth)).map (·.2)

/-- Whether every other device of a level-3 pack has arrived at a `pbar 3`; devices whose `pack3` values differ wait together (R191). -/
def Cont.allDevices (c : Cont) (n : Nat) : Bool :=
  let sources := ((c.arrivals3.filter fun e => decide (n ≤ e.2.nth)).map (·.1 / 2 ^ 65)).dedup
  decide (c.launch.l3count ≤ sources.length) && (c.arrivals n).all fun a => a.pack3 == c.launch.l3count

/-- The devices that have arrived at a `pbar 3` with members that can still wait in it. -/
def Cont.devicesAt (c : Cont) (n : Nat) : List Nat :=
  ((c.arrivals3.filter fun e => decide (n ≤ e.2.nth) && e.2.nth != lastNth).map (·.1 / 2 ^ 65)).dedup

/-- Whether each of them has said of it what a table by device keeps (R245). -/
def Cont.allSaid (c : Cont) (said : Sparse Nat) (n : Nat) : Bool := (c.devicesAt n).all fun src => decide (n ≤ Sparse.get 0 said src)

/-- Whether another device has a member that dropped its request at a `pbar 3` (R192). -/
def Cont.remoteDrop (c : Cont) (n : Nat) : Bool := (c.arrivals n).any fun a => a.nth == n && a.drop

/-- The gear that another device names at a `pbar 3` (R192). -/
def Cont.remoteGear (c : Cont) (n : Nat) : Option Bool := (c.arrivals n).findSome? fun a => if a.nth = n then a.gear else none

/-- A waiting member before release: its dropped request returns, and where the gear named is RUN its core is raised at once (R192, R245). -/
def Ctx.raisePbar (level n : Nat) (g : Option Bool) (c : Ctx) : Ctx :=
  match c.work.pbar with
  | some p =>
    if p.level = level ∧ p.nth = n then
      { c with dropped := false, gearReq := c.gearReq || p.drop && g == some true, work := { c.work with pbar := some { p with raised := true } } }
    else c
  | none => c

/-- One waiting member at release: the gear named is set (R192), and its later accesses follow those of every member before its arrival (R151).
`d` says that a member dropped its request. -/
def Ctx.releasePbar (level n : Nat) (g : Option Bool) (d : Bool) (top : Nat) (c : Ctx) : Ctx :=
  let c := match c.work.pbar with
    | some p =>
      if p.level = level ∧ p.nth = n then
        { c with dropped := false, pts := max c.pts top, work := { c.work with pbar := some { p with released := true, gear := g, drop := d } } }
      else c
    | none => c
  match g with
  | some x => { c with gearReq := x }
  | none => c

/-- The greatest timestamp among members of a pack, those that have ended included (R151). -/
def memberTop (s : State) (i : Nat) (rs : List Nat) : Nat :=
  let ended := if rs.any (s.cont i).ended.contains then (s.cont i).endTop else 0
  rs.foldl (fun m r => max m (((s.ctxOf i r).map (·.pts)).getD 0)) ended

/-- A change of every member of a pack, on the cores and in the kennel. -/
def State.mapPack (s : State) (i : Nat) (rs : List Nat) (f : Ctx → Ctx) : State :=
  { s with
    ctxs := s.ctxs.map fun e => if e.2.cont = i ∧ rs.contains e.2.rank then (e.1, f e.2) else e
    dev := { s.dev with conts := Sparse.adjust s.dev.conts i fun x =>
      { x with kennel := x.kennel.map fun q => match q with
          | .ctx r k => .ctx r (if rs.contains r then f k else k)
          | q => q } } }

/-- Whether the core of every member that stands on one has settled (R245). -/
def packSettled (s : State) (i : Nat) (rs : List Nat) : Bool :=
  rs.all fun r => match s.hwOf i r with | some h => settledCore s (coreOf h) | none => true

/-- Whether the core of every member that dropped its request, and asks for RUN again, has been raised (R245). -/
def packRaised (s : State) (i level n : Nat) (rs : List Nat) : Bool :=
  rs.all fun r => match s.hwOf i r with
    | some h => !(s.ctx h).waitsAt level n (fun q => q.drop) || !(s.ctx h).wantsRun || settledCore s (coreOf h)
    | none => true

/-- `PBAR_RELEASE` (R191, R192, R245): every member has arrived at the `pbar` that context h waits in. Where one dropped its request, the requests
return first, and release waits until the cores have been raised, at level 3 those of the other devices too. -/
def execPbarRelease (h : Nat) (s : State) : Out :=
  let c := s.ctx h
  match c.work.pbar with
  | none => .next s
  | some p =>
    let i := c.cont
    if p.released || !p.arrived || !allArrived s i c.rank p.level p.nth || !(p.level != 3 || (s.cont i).allDevices p.nth) then .next s
    else
      let rs := members s i c.rank p.level
      let remote := if p.level = 3 then (s.cont i).remoteGear p.nth else none
      let g := (releaseGear s i p.level p.nth rs).or remote
      let d := anyWaits s i p.level p.nth rs (·.drop) || p.level == 3 && (s.cont i).remoteDrop p.nth
      if d && !p.raised then .next (s.mapPack i rs (Ctx.raisePbar p.level p.nth g))
      else if d && !(packRaised s i p.level p.nth rs && (p.level != 3 || (s.cont i).allSaid (s.cont i).raised3 p.nth)) then .next s
      else .next (s.mapPack i rs (Ctx.releasePbar p.level p.nth g d (memberTop s i rs)))

/-- This device tells the others of a level-3 pack that its cores have been raised, or have settled (R245). -/
def say3 (i n : Nat) (x : Phase3) (s : State) : State :=
  let c := s.cont i
  s.output (.arrival c.launch.pack { nth := n, pack3 := c.launch.l3count, gear := none, drop := false, phase := x })

/-- What a level-3 pack's members on this device have come to, and the other devices are to learn: before release, that the cores of those that
dropped their requests are raised; after it, that every core has settled in the gear named (R192, R245). -/
def settlePack3 (s : State) (i : Nat) : State :=
  let c := s.cont i
  let n := c.signals3
  let all := List.range c.launch.contexts
  if c.launch.pack = 0 then s
  else
    let s := if c.sentRaised < n ∧ anyWaits s i 3 n all (·.raised) ∧ packRaised s i 3 n all then
        say3 i n .raised (s.mapCont i fun x => { x with sentRaised := n })
      else s
    if c.sentSettled < n ∧ anyWaits s i 3 n all (fun q => q.released && q.gear.isSome) ∧ packSettled s i all then
      say3 i n .settled (s.mapCont i fun x => { x with sentSettled := n })
    else s

end Sys2Proof.Machine
end

