-- ==== Sys2Proof/Machine/Pipeline.lean ====
section
/-! DEFINITION. Operations on their way: landing and delivery, translation, the accesses of a context in the single order,
full/empty entries, streams, `park`. -/

namespace Sys2Proof.Machine

/-! ### Landing and delivery -/

/-- `RESULT_LANDING` (R89): what is due lands. -/
def execResultLanding (h : Nat) (s : State) : Out := .next (landDue h s)

/-- `DELIVER` (R93): the k-th value on its way to a context arrives; loads deliver in program order (R97). -/
def execDeliver (h k : Nat) (s : State) : Out :=
  let c := s.ctx h
  match c.work.delivers[k]? with
  | none => .next s
  | some d =>
    if d.load && (c.work.delivers.take k).any (·.load) then .next s
    else .next (arrive h d (s.mapCtx h fun c => { c with work := { c.work with delivers := c.work.delivers.eraseIdx k } }))

/-! ### Translation (R97, R140, R199) -/

/-- Who asks for a translation. -/
def MemKind.requester : MemKind → Requester
  | .load => .reader
  | .store => .writer
  | .atomic .. => .atomic
  | .combine .. => .combine

/-- Changing the first operation of an age in a context. -/
def mapOp (h age : Nat) (f : MemOp → MemOp) (s : State) : State :=
  s.mapCtx h fun c => { c with work := { c.work with memOps := c.work.memOps.map fun o => if o.age = age then f o else o } }

/-- The translations of an operation's elements in order: physical addresses and tiers, or the first that fails. -/
def translateItems (core asid : Nat) (q : Requester) : List Item → State → (List (Item × Nat × Tier) × Option (W64 × Walked)) × State
  | [], s => (([], none), s)
  | x :: xs, s =>
    match translate core asid x.va q s with
    | (.found pa tier _ _, s) =>
      let (r, s) := translateItems core asid q xs s
      (((x, pa, tier) :: r.1, r.2), s)
    | (w, s) => (([], some (x.va, w)), s)

/-- The accesses of an operation (R140): one for each line in ascending order, or one for each lane. -/
def accessesOf (perLane : Bool) (xs : List (Item × Nat × Tier)) : List Access :=
  let item := fun (e : Item × Nat × Tier) => (e.1.lane, e.2.1 % 64, e.1.data)
  if perLane then xs.map fun e => { line := e.2.1 / 64, tier := e.2.2, items := [item e] }
  else
    (xs.map fun e => e.2.1 / 64).dedup.map fun l =>
      let mine := xs.filter fun e => e.2.1 / 64 == l
      { line := l, tier := ((mine.head?).map (·.2.2)).getD .gddr, items := mine.map item }

/-- The replay entries that a waiting `park` of a context makes: it counts as one memory operation (R321). -/
def Ctx.parkEntries (c : Ctx) : Nat := if c.work.park.isSome then 1 else 0

/-- A deferred fault of a context's operation that the tables cannot have repaired or can (R97, R199). -/
def failedOp (h : Nat) (o : MemOp) (va : W64) (w : Walked) (s : State) : State :=
  match w with
  | .failed cls level entry repairable _ =>
    takeDeferred h (walkFault h o.slot o.pc va o.kind.requester cls level entry repairable s) (s.ctx h).parkEntries
      (logWalk (coreOf h) h w s)
  | _ => s

/-- Whether an atomic translated to a peer page names its own device (R195). -/
def selfPeer (s : State) (o : MemOp) (xs : List (Item × Nat × Tier)) : Bool :=
  match o.kind with
  | .atomic _ _ _ peer => xs.any (fun e => e.2.2 == .peer) && peer == s.dev.record.device
  | _ => false

/-- An atomic on a peer page that names its own device takes a permission fault beyond repair, at the leaf where its walk stopped (R195,
R206). -/
def selfPeerFault (h : Nat) (o : MemOp) (s : State) : State :=
  let va := (o.items.head?.map (·.va)).getD 0
  match (translate (coreOf h) (s.cont (s.ctx h).cont).launch.asid va .atomic s).1 with
  | .found _ _ level leaf => takeDeferred h (walkFault h o.slot o.pc va .atomic .permission level leaf false s) (s.ctx h).parkEntries s
  | _ => s

/-- `TRANSLATION_RESULT` (R97): the translation of a context's oldest untranslated operation is taken. A failure is a deferred fault; found
after the context has parked for the precise fault of a younger bundle it is taken no more, so that of two found in one cycle it is found
first or not in that cycle (R99, log entry 78). -/
def execTranslationResult (h : Nat) (s0 : State) : Out :=
  let s := s0
  let c := s.ctx h
  match c.work.memOps.find? (fun o => !o.translated) with
  | none => .next s
  | some o =>
    let asid := (s.cont c.cont).launch.asid
    let ((xs, bad), s) := translateItems (coreOf h) asid o.kind.requester o.items s
    match bad with
    | some (va, w) => if c.fault.isSome then .next s0 else .next (failedOp h o va w s)
    | none =>
      if selfPeer s o xs then if c.fault.isSome then .next s0 else .next (selfPeerFault h o s)
      else .next (mapOp h o.age (fun o => { o with translated := true, accesses := accessesOf o.perLane xs }) s)

/-! ### Accesses in the single order (R140 to R144) -/

/-- The operation of a context that performs next: program order holds whatever the policies (R141, R159), an `ldf` or `vldf` queued before
it comes first (R111), and so does the delivery of a peer atomic's old value (R195). -/
def Ctx.current (c : Ctx) : Option (MemOp × Access) :=
  match c.work.memOps.find? (fun o => !o.translated || !o.accesses.isEmpty) with
  | some o =>
    if !o.translated || c.work.delivers.any (·.peer) || c.work.feq.any (fun e => e.load.isSome && decide (e.seq < o.seq)) then none
    else o.accesses.head?.map fun a => (o, a)
  | none => none

/-- The virtual address of an access's first element. -/
def MemOp.vaAt (o : MemOp) (a : Access) : Nat :=
  let lane := (a.items.head?.map (·.1)).getD 0
  ((o.items.find? fun x => x.lane == lane).map (·.va.toNat)).getD 0

/-- The record of a fault beyond repair that an access of an operation meets after its walk (R174, R195, R206). Of a peer atomic that its
route or its peer fails it is of class 2 with level 0xFF, entry 0, replay length 0: a DESIGN CHOICE (log entry 79). -/
def accessFault (h : Nat) (o : MemOp) (a : Access) (cls : FaultClass) (s : State) : FaultInfo :=
  let c := s.ctx h
  { cls := cls, addr := o.vaAt a, intent := some o.kind.requester.intent, slot := o.slot, replay := 0, ctx := h,
    rank := c.rank, pc := o.pc, asid := (s.cont c.cont).launch.asid, level := 0xFF, entry := 0, repairable := false }

/-- An operation that faults after its translation, and every one behind it, performs no more: they stand where a parked context's held back
operations do (R141, R174). -/
def holdBack (h : Nat) (o : MemOp) (s : State) : State :=
  s.mapCtx h fun c =>
    { c with work := { c.work with
        memOps := c.work.memOps.takeWhile fun x => x.age != o.age
        replay := (c.work.memOps.dropWhile fun x => x.age != o.age) ++ c.work.replay } }

/-- A poisoned line stops the access: a fault beyond repair, and the error log (R174, R208). -/
def poisonFault (h : Nat) (o : MemOp) (a : Access) (s : State) : State :=
  takeLate h (accessFault h o a .poison s) (logError (64 * a.line) 5 4 (dieOf (coreOf h)) h (holdBack h o s))

/-- A peer atomic that cannot complete faults beyond repair (R195). -/
def peerFault (h : Nat) (o : MemOp) (a : Access) (s : State) : State := takeLate h (accessFault h o a .permission s) (holdBack h o s)

/-- The value list of a destination: one value for a `g` register, 64 lanes for a vector. -/
def valuesFor (d : DeliverTo) (got : List (Nat × W64)) : List W64 :=
  match d with
  | .g _ => [(got.head?.map (·.2)).getD 0]
  | _ => (List.range 64).map fun i => ((got.find? fun e => e.1 == i).map (·.2)).getD 0

/-- The value of an operation on its way, once all of it is fixed (R95, R97, R195). -/
def MemOp.delivered (o : MemOp) (d : DeliverTo) (got : List (Nat × W64)) : Deliver :=
  { dest := d, age := o.age, value := valuesFor d got, load := true, peer := o.accesses.any fun a => a.tier == .peer
    lines := o.requests, counter := none }

/-- An access has performed: its values are kept, and an operation that has fixed all of them sends them on its way (R95). -/
def finishAccess (h : Nat) (o : MemOp) (got : List (Nat × W64)) (s : State) : State :=
  let o' := { o with accesses := o.accesses.drop 1, got := o.got ++ got, sent := false }
  match o'.dest, o'.accesses with
  | some d, [] =>
    s.mapCtx h fun c =>
      { c with work := { c.work with
          memOps := c.work.memOps.filter (fun x => x.age != o.age)
          delivers := c.work.delivers ++ [o.delivered d o'.got] } }
  | _, _ => mapOp h o.age (fun _ => o') s

/-- The timestamp of a context after an access (R144). -/
def setPts (h ts : Nat) (s : State) : State := s.mapCtx h fun c => { c with pts := ts }

/-- A load access of a context (R144, R160). Every load acquires, whatever its policy: those after it in program order perform after it
(R141, R159). -/
def performLoad (h : Nat) (o : MemOp) (a : Access) (s : State) : State :=
  if (dirOf s.store a.line).poison then poisonFault h o a s
  else
    match serveLoad s.store (coreOf h) a.line o.policy (s.ctx h).pts s.lease with
    | none => askHost a.line s
    | some (x, ts, st) =>
      let got := a.items.map fun e => (e.1, (BitVec.ofNat 64 (lineNat x e.2.1 o.width) : W64))
      finishAccess h o got (setPts h ts (noteCombines s { s with store := st }))

/-- The words and data that a store access writes (R167). -/
def storeLine (o : MemOp) (a : Access) : BitVec 16 × BitVec 512 :=
  a.items.foldl (fun r e => (r.1 ||| wordMask e.2.1 o.width, lineSet r.2 e.2.1 o.width e.2.2.toNat)) (0, 0)

/-- A store access of a context (R144, R160, R174). Every store releases: it performs after those before it in program order (R141,
R159). -/
def performStore (h : Nat) (o : MemOp) (a : Access) (s : State) : State :=
  let (mask, x) := storeLine o a
  if (dirOf s.store a.line).poison && mask != 0xFFFF then poisonFault h o a s
  else
    match serveStore s.store (coreOf h) a.line o.policy (s.ctx h).pts s.lease mask x with
    | none => askHost a.line s
    | some (ts, st) => finishAccess h o [] (setPts h ts (noteWrite a.line (noteCombines s { s with store := st })))

/-- `HOME_LOAD_REQUEST` (R164): the load that a context performs next is served. -/
def execHomeLoadRequest (h : Nat) (s : State) : Out :=
  match (s.ctx h).current with
  | some (o, a) => if o.kind = .load ∧ o.policy ≠ .own then .next (performLoad h o a s) else .next s
  | none => .next s

/-- `HOME_STORE_REQUEST` (R164): the store that a context performs next is served. -/
def execHomeStoreRequest (h : Nat) (s : State) : Out :=
  match (s.ctx h).current with
  | some (o, a) => if o.kind = .store ∧ o.policy ≠ .own then .next (performStore h o a s) else .next s
  | none => .next s

/-- `HOME_OWN_REQUEST` (R164, R165): a load or store under `.own` is granted the line and performs. -/
def execHomeOwnRequest (h : Nat) (s : State) : Out :=
  match (s.ctx h).current with
  | some (o, a) =>
    if o.policy ≠ .own then .next s
    else if o.kind = .load then .next (performLoad h o a s)
    else if o.kind = .store then .next (performStore h o a s)
    else .next s
  | none => .next s

/-- Where a host-homed atomic waits for the host's write completion (R155). -/
def atomicWaiter (h : Nat) : Nat := 512 + h

/-- An atomic performs at the engine of the line's home die, and its old value is on its way (R144, R193): as one access of S it goes on
any release sequence (R159). -/
def performAtomic (h : Nat) (o : MemOp) (a : Access) (op : AtomicOp) (b c : W64) (s : State) : State :=
  match a.items.head? with
  | none => s
  | some (lane, off, _) =>
    match serveAtomic s.store a.line off o.width (s.ctx h).pts op b.toNat c.toNat with
    | none => askHost a.line s
    | some (old, ts, st) =>
      finishAccess h o [(lane, BitVec.ofNat 64 old)] (setPts h ts (noteWrite a.line (noteCombines s { s with store := st })))

/-- The bits of a value of n bytes. -/
def widthMask (n : Nat) : W64 := BitVec.ofNat 64 (256 ^ n - 1)

/-- `HOME_ATOMIC_REQUEST` (R194, R195): the atomic that a context performs next goes to its engine: on a device line it performs;
of a host-homed line the engine reads the value, and the host must first complete the write; on a peer page it is sent to the peer with its
operands of its width (R193), or faults where no enabled port reaches it (R267). -/
def execHomeAtomicRequest (h : Nat) (s : State) : Out :=
  match (s.ctx h).current with
  | none => .next s
  | some (o, a) =>
    match o.kind with
    | .atomic op b c peer =>
      if o.sent then .next s
      else if a.tier = .peer ∧ s.dev.record.ports = 0 then .next (peerFault h o a s)
      else if a.tier = .peer then
        match a.items.head? with
        | none => .next s
        | some (_, off, _) =>
          .next (mapOp h o.age (fun o => { o with sent := true })
            (s.output (.atomic peer.toNat h (64 * a.line + off) op o.width (b &&& widthMask o.width) (c &&& widthMask o.width))))
      else if (dirOf s.store a.line).poison then .next (poisonFault h o a s)
      else if isHostLine a.line then
        .next (mapOp h o.age (fun o => { o with sent := true })
          ((s.mapStore fun st => openHostAtomic st a.line).mapDev fun d =>
            { d with hostWrites := d.hostWrites ++ [(atomicWaiter h, a.line)] }))
      else .next (performAtomic h o a op b c s)
    | _ => .next s

/-- `HOST_WRITE_COMPLETION` (R155): the host completes the k-th write of host-homed words: a write-back of a core's dirty words, or
the write-through of an atomic, which then has performed. -/
def execHostWriteCompletion (k : Nat) (s : State) : Out :=
  match s.dev.hostWrites[k]? with
  | none => .next s
  | some (who, line) =>
    let s := s.mapDev fun d => { d with hostWrites := d.hostWrites.eraseIdx k }
    if who < 512 then .next (s.mapStore fun st => writeBackHost st who line)
    else
      let h := who - 512
      match (s.ctx h).current with
      | some (o, a) =>
        match o.kind with
        | .atomic op b c _ => if o.sent ∧ a.line = line then .next (performAtomic h o a op b c s) else .next s
        | _ => .next s
      | none => .next s

/-- Whether a `cadd` of another context of the core, issued earlier, may still enter the partial of a line: those of a core combine in its
issue order (R88). -/
def olderCadd (s : State) (h : Nat) (o : MemOp) (line : Nat) : Bool :=
  s.ctxs.any fun e => e.1 != h && coreOf e.1 == coreOf h && e.2.work.memOps.any fun x =>
    (match x.kind with | .combine .. => true | _ => false) && decide (x.cycle < o.cycle) &&
      (!x.translated || x.accesses.any fun b => b.line == line)

/-- `CADD_PARTIAL_REQUEST` (R164, R170): the `cadd` that a context performs next enters the core's partial, granted by the home
where the core holds none of its kind. -/
def execCaddPartialRequest (h : Nat) (s : State) : Out :=
  match (s.ctx h).current with
  | none => .next s
  | some (o, a) =>
    match o.kind with
    | .combine t op =>
      if olderCadd s h o a.line then .next s
      else if (dirOf s.store a.line).poison then .next (poisonFault h o a s)
      else
        let words := a.items.map fun e => (e.2.1 / 4, (e.2.2.setWidth 32 : W32))
        match serveCombine s.store (coreOf h) a.line (s.ctx h).pts t op words with
        | none => .next (askHost a.line s)
        | some (ts, st) => .next (finishAccess h o [] (setPts h ts (noteCombines s { s with store := st })))
    | _ => .next s

/-- `STORE_PERFORMED` (R142): the oldest operation of a context, a store whose accesses have all taken their places, leaves
`OutStores`. -/
def execStorePerformed (h : Nat) (s : State) : Out :=
  match (s.ctx h).work.memOps with
  | o :: os =>
    if o.translated && o.accesses.isEmpty && o.dest.isNone then
      .next (s.mapCtx h fun c => { c with work := { c.work with memOps := os } })
    else .next s
  | [] => .next s

/-! ### Full/empty entries and streams -/

/-- A take or keep performs: its words leave for the destination (R110), and it acquires what their fills, and the flips of barrier objects
among them, carry (R111, R150). -/
def performTake (h : Nat) (e : FeEntry) (d : DeliverTo) (s : State) : State :=
  let core := coreOf h
  let got := e.words.map fun w => (w.1, ((scratchWord s.store core w.2).setWidth 64 : W64))
  let s := e.words.foldl
    (fun s w => observeBy h core w.2 (s.mapCtx h fun c => { c with pts := max c.pts (carried s.store (wordKey core w.2)).1 })) s
  let s := if e.keep then s else s.mapStore fun st => e.words.foldl (fun st w => setFull st core w.2 false) st
  arrive h { dest := d, age := e.age, value := valuesFor d got, load := false, peer := false, lines := 0, counter := none } s

/-- A release performs: its captured words are stored and become full (R110), and carry the context's timestamp (R111). -/
def performRelease (h : Nat) (e : FeEntry) (s : State) : State :=
  let core := coreOf h
  let pts := (s.ctx h).pts
  s.mapStore fun st =>
    (List.zip e.words e.data).foldl
      (fun st w => setCarried (setFull (scratchStore st core w.1.2 w.2) core w.1.2 true) (wordKey core w.1.2) (pts, 0)) st

/-- Whether a full/empty entry of a context may perform now, as far as the engine port does not hold it back: its words are in the state
it waits for, no `feset` of another context is over them (R112); a release also waits for the context's earlier coherent accesses, a
`park` of its bundle among them (R111, log entry 69). -/
def feReady (s : State) (h : Nat) (e : FeEntry) : Bool :=
  let c := s.ctx h
  let core := coreOf h
  let want := e.load.isSome
  e.words.all (fun w => isFull s.store core w.2 == want && !fesetOver s h w.2 4) &&
    (want || (c.work.memOps ++ c.work.replay).all (fun o => decide (e.seq ≤ o.seq)) && c.work.park.all fun p => decide (e.seq ≤ p.seq))

/-- `FE_ENTRY_PERFORM` (R110, R111): the head of a context's full/empty queue performs, through the engine port (R107, R121). -/
def execFeEntryPerform (h : Nat) (s : State) : Out :=
  let c := s.ctx h
  match c.work.feq with
  | [] => .next s
  | e :: es =>
    if !feReady s h e || !c.awake || (s.core (coreOf h)).pause != 0 then .next s
    else
      .next (throughPort (.entry h) (coreOf h) (e.words.map (·.2))
        (fun s =>
          let s := s.mapCtx h fun c => { c with work := { c.work with feq := es } }
          match e.load with
          | some d => performTake h e d s
          | none => performRelease h e s)
        s)

/-- Words of entry j of a stream read: those of the lanes given (R119). -/
def Stream.fetchWords (x : Stream) (st : Store) (core base j : Nat) (lanes : List Nat) : Stream :=
  { x with words := lanes.foldl (fun p i => Sparse.put p (wordsKey j + i) (x.readLane st core base j i)) x.words }

/-- The words of entry j of a read stream that a fetch asks for and that have not been read, and their core addresses. -/
def fetchPlan (c : Ctx) (y : Stream) (j : Nat) (words : W64) : List Nat × List Nat :=
  let lanes := (y.lanesOf j).filter fun i => words.getLsbD i && !y.hasRead j i
  (lanes, (lanes.map fun i => (y.laneBytes j i).map fun e => c.coreAddr e.2.toNat).flatten)

/-- `STREAM_FETCH` (R119): the read stream bound to a register number reads words of an entry up to four ahead of the pops, through the
engine port (R107, R121). Each word is read once, and of the entries any words may be read first. -/
def execStreamFetch (h : Nat) (x : StreamWords) (s : State) : Out :=
  let c := s.ctx h
  match c.bound x.reg with
  | none => .next s
  | some y =>
    let j := y.taken + x.ahead
    let core := coreOf h
    let (lanes, addrs) := fetchPlan c y j x.words
    if y.writes || decide (4 ≤ x.ahead) || decide (y.length ≤ j) || !y.entryInside j c.window || !c.awake || lanes.isEmpty ||
        (s.core core).pause != 0 then .next s
    else
      .next (throughPort (.stream h x.reg) core addrs
        (fun s => s.mapCtx h fun c =>
          { c with work := { c.work with
              streams := c.work.streams.map fun z => if z.id = y.id then z.fetchWords s.store core c.base j lanes else z } })
        s)

/-- `HOLD_LIMIT_EXPIRY` (R122): a window that has been open for 64 core cycles closes; the next bundle of it will take a hold fault. -/
def execHoldLimitExpiry (h : Nat) (s : State) : Out :=
  if (s.ctx h).work.overran then .next (s.mapCtx h fun c => { c with work := c.work.closeHold }) else .next s

/-! ### `park` (R320 to R322) -/

/-- A `park` takes a deferred fault: it is the oldest operation of its context, so that the operations behind it replay too (R321). -/
def parkFault (h : Nat) (p : ParkWait) (w : Walked) (s : State) : State :=
  match w with
  | .failed cls level entry repairable _ =>
    let f := walkFault h 0 p.pc p.va .reader cls level entry repairable s
    takeDeferred h f 1 (logWalk (coreOf h) h w s)
  | _ => s

/-- Whether a `park` may evaluate: every earlier coherent access of its context has performed (R141), those of its own bundle among them
(log entry 69), and so has every earlier `ldf` and `vldf` (R111). -/
def parkReady (c : Ctx) (p : ParkWait) : Bool :=
  c.awake && c.work.replay.isEmpty && c.work.memOps.all (fun o => o.translated && o.accesses.isEmpty) &&
    !c.work.delivers.any (·.peer) && c.work.feq.all fun e => e.load.isNone || decide (p.seq < e.seq)

/-- One evaluation of a `park` (R320, R321): a load at the line's home, combining its partials, past every cached copy; it acquires.
The line is watched while the wait goes on. That every evaluation translates anew is a DESIGN CHOICE (log entry 83). -/
def evaluatePark (h : Nat) (p : ParkWait) (s : State) : State :=
  let c := s.ctx h
  match translate (coreOf h) (s.cont c.cont).launch.asid p.va .reader s with
  | (.found pa _ _ _, s) =>
    let line := pa / 64
    let served : Option Served :=
      if isHostLine line then some (loadAtProxy (refetchHost s.store line) line c.pts s.lease)
      else if hostBlocks s.store line false then none
      else
        let st := readyToRead s.store line
        let d := dirOf st line
        let (ts, rts) := loadStep c.pts d.wts d.rts s.lease
        some (lineData st.mem line, ts, setDir st line { d with rts := rts })
    if (dirOf s.store line).poison then
      poisonFault h
        { kind := .load, dest := none, width := p.width, policy := .si, perLane := false, items := [{ lane := 0, va := p.va, data := 0 }],
          seq := p.seq, age := 0, cycle := 0, slot := 0, pc := p.pc, translated := true, accesses := [], got := [], sent := false }
        { line := line, tier := .gddr, items := [(0, pa % 64, 0)] } s
    else
      match served with
      | none => askHost line s
      | some (x, ts, st) =>
        let hit := lineNat x (pa % 64) p.width == p.expected.toNat
        let s := setPts h ts (noteCombines s { s with store := st })
        refreshWatch line (s.mapCtx h fun c =>
          { c with work := { c.work with
              park := if hit then none else some { p with seen := true, asleep := true, line := line, since := s.refHalf } } })
  | (w, s) => parkFault h p w s

/-- `PARK_WAKE` (R321): a waiter whose watched line was written, or that has not evaluated yet, evaluates. -/
def execParkWake (h : Nat) (s : State) : Out :=
  match (s.ctx h).work.park with
  | some p => if p.asleep || !parkReady (s.ctx h) p then .next s else .next (evaluatePark h p s)
  | none => .next s

/-- `PARK_POLL` (R321): a waiter on a host-homed line evaluates every 10 µs. The park table has room for every hardware context, so
that no waiter is without an entry. -/
def execParkPoll (h : Nat) (s : State) : Out :=
  match (s.ctx h).work.park with
  | some p =>
    if parkReady (s.ctx h) p && p.asleep && isHostLine p.line && decide (p.since + micros 10 ≤ s.refHalf) then .next (evaluatePark h p s) else .next s
  | none => .next s

end Sys2Proof.Machine
end

