-- ==== Sys2Proof/Machine/Coherence.lean ====
section
/-! DEFINITION. What directories and caches do between requests, accesses of the host, and errors of directories and TLBs. -/

namespace Sys2Proof.Machine

/-! ### Messages of R164 -/

/-- `RECALL` (R164): the owner of a line returns data and timestamps and drops its copy. -/
def execRecallOwner (line : Nat) (s : State) : Out :=
  match (dirOf s.store line).state with
  | .owned _ => .next (noteCombines s (s.mapStore fun st => recallLine st line))
  | _ => .next s

/-- `INVALIDATION` (R164): a sharing die drops its copies and acknowledges with its read timestamp. -/
def execInvalidation (line d : Nat) (s : State) : Out :=
  match (dirOf s.store line).state with
  | .tracked hs =>
    if d < 4 ∧ hs.getLsbD d then
      .next (s.mapStore fun st =>
        let st := invalidateWhere st line (fun h => holderDie h == d)
        let left := hs &&& ~~~(dieBit d)
        setDir st line { dirOf st line with state := if left = 0 then .untracked else .tracked left })
    else .next s
  | _ => .next s

/-- `COMBINE_RECALL` (R171): a die's partials go to the home. -/
def execCombineRecall (line d : Nat) (s : State) : Out :=
  match (dirOf s.store line).state with
  | .partials .. => .next (noteCombines s (s.mapStore fun st => combineDie st line d))
  | _ => .next s

/-- `OWNER_WRITEBACK` (R164, R166): the owner's eviction write-back arrives. -/
def execOwnerWriteback (line : Nat) (s : State) : Out :=
  match (dirOf s.store line).state with
  | .owned _ => .next (noteCombines s (s.mapStore fun st => recallLine st line))
  | _ => .next s

/-- `EVICTION_ANNOUNCE` (R164, R162): holder c, an L1, from 256 on an L2, from 260 on an engine, gives up its copy of a line. Dirty words of
a host-homed line leave when the host has completed their write-back (R155). -/
def execEvictionAnnounce (line c : Nat) (s : State) : Out :=
  match (copyAt s.store c line).map Copy.state with
  | some .hostDirty =>
    if s.dev.hostWrites.contains (c, line) then .next s
    else .next (s.mapDev fun d => { d with hostWrites := d.hostWrites ++ [(c, line)] })
  | some _ => if c < proxyHolder then .next (noteCombines s (s.mapStore fun st => evictCopy st c line)) else .next s
  | none => .next s

/-- The home made ready for an access of the host, which its own ownership never hinders (R164). -/
def readyForHost (st : Store) (line : Nat) (writes : Bool) : Store :=
  if ownedByHost st line then setDir st line { dirOf st line with state := .untracked }
  else if writes then readyToWrite st line else readyToRead st line

/-- A host write of a line performs at its home as a store (R154). One of fewer than 16 words leaves the line's poison (R174, log
entry 67); reserved bytes of the control block keep reading zero (R265). -/
def hostStore (line : Nat) (x : BitVec 512) (mask : BitVec 16) (own : Bool) (s : State) : State :=
  let st := readyForHost s.store line true
  let st := (storeAtHome st line 0 mask x).2
  let st := if own then setDir st line { dirOf st line with state := .ownedByHost } else st
  noteWrite line (noteCombines s { s with store := st })

/-! ### What the host addresses (R155, R262, R263) -/

/-- The device physical address that a host physical address names in one of the two HDM ranges (R262); the ranges' bases and sizes are
the model's (log entry 70). -/
def Device.hdm (d : Device) (a : Nat) : Option Nat :=
  if d.hdmGddr ≤ a ∧ a < d.hdmGddr + lpddrBase then some (a - d.hdmGddr)
  else if d.hdmLpddr ≤ a ∧ a < d.hdmLpddr + 2 ^ 44 then some (a - d.hdmLpddr + lpddrBase)
  else none

/-- Where configuration space lies among the host's addresses: offset o of the capability of R263 is `configBase` + o (log entry 70). -/
def configBase : Nat := 2 ^ 60

/-- The bytes of the device's capability in configuration space (R263); the header that the spec does not give reads 0 (log entry 70). -/
def Device.capability (d : Device) : List Byte :=
  leBytes 10 0 ++ leBytes 2 1 ++ leBytes 8 d.dcb ++ leBytes 1 d.boot ++ leBytes 3 d.record.device.toNat

/-- 64 zero bytes with the poison indication, in answer to a read (R262). -/
def poisonedData (a : Nat) (s : State) : State := s.output (.hostData a (List.replicate 64 0) true)

/-- Whether the link refuses the host: bring-up is not complete, or the host is fenced off (R225, R263). -/
def State.hostRefused (s : State) : Bool := s.dev.boot != 1 || s.dev.hostSilent

/-- A host access that breaks an access rule is logged (R208). -/
def logHostAccess (pa : Nat) (s : State) : State := logError pa 3 3 (homeDie (pa / 64)) 0xFFFF s

/-! ### The host gives a line up (R164) -/

/-- The state of a line at its home once a die, or as 4 the host, holds nothing of it. -/
def HomeState.without (d : Nat) : HomeState → HomeState
  | .tracked hs => if hs &&& ~~~(dieBit d) = 0 then .untracked else .tracked (hs &&& ~~~(dieBit d))
  | .owned o => if o = d then .untracked else .owned o
  | x => x

/-- `BACK_INVALIDATION_RESPONSE` (R164): the host gives a line up, as owner or as sharer. Dirty data of its owner is taken as a host write,
which a silent host's is not (R225). -/
def execBackInvalidationResponse (line : Nat) (dirty : Option (List Byte)) (s : State) : Out :=
  let s := s.mapDev fun d => { d with backInv := d.backInv.filter (· != line) }
  let free := s.mapStore fun st =>
    setDir st line { dirOf st line with state := match (dirOf st line).state with
      | .ownedByHost => .untracked
      | .tracked hs => HomeState.without 4 (.tracked hs)
      | x => x }
  match ownedByHost s.store line, dirty with
  | true, some bytes =>
    if s.dev.hostSilent then .next (free.output (.hostError (64 * line)))
    else .next (hostStore line (BitVec.ofNat 512 (ofLeBytes bytes)) 0xFFFF false s)
  | _, _ => .next free

/-! ### Accesses of the host (R154, R208, R262, R263) -/

/-- Something the host does: it ends the quiet of the link and any idle state (R259, R260). -/
def hostActive (s : State) : State := (leaveIdle s).mapDev fun d => { d with hostQuiet := s.refHalf }

/-- A host read of the line of a device physical address, asked for at a host physical address, cached shared or not (R154, R164): it
grants no lease. -/
def hostLoad (a pa : Nat) (keep : Bool) (s : State) : State :=
  let s := hostActive s
  let line := pa / 64
  if s.hostRefused then poisonedData a s
  else if s.dev.breaksAccess (64 * line) 64 then logHostAccess pa (poisonedData a s)
  else if (dirOf s.store line).poison then logError (64 * line) 3 4 (homeDie line) 0xFFFF (poisonedData a s)
  else
    let st := readyForHost s.store line false
    let s := noteCombines s { s with store := st }
    let sharers := match (dirOf st line).state with | .tracked x => x | _ => 0
    let s := if keep then s.mapStore fun st => setDir st line { dirOf st line with state := .tracked (sharers ||| 0x10) } else s
    s.output (.hostData a (memBytes s.store.mem (64 * line) 64) false)

/-- A read by the host: of configuration space (R263), of device memory, or of its own memory, which the device does not see. -/
def hostReadAt (a : Nat) (keep : Bool) (s : State) : State :=
  if configBase ≤ a then s.output (.hostData a (s.dev.capability.drop (a - configBase)) false)
  else match s.dev.hdm a with
    | some pa => hostLoad a pa keep s
    | none => s

/-- `HOST_READ` (R154, R262). -/
def execHostRead (a : Nat) (s : State) : Out := .next (hostReadAt a false s)

/-- `HOST_READ_SHARED` (R164). -/
def execHostReadShared (a : Nat) (s : State) : Out := .next (hostReadAt a true s)

/-- The words that bytes from an offset of a line touch, and the line data with the bytes in place. -/
def hostWords (s : State) (pa : Nat) (data : List Byte) : BitVec 512 × BitVec 16 :=
  let off := pa % 64
  (lineSet (latestData s.store (pa / 64)) off data.length (ofLeBytes data), wordMask off data.length)

/-- Whether bytes lie in one line. -/
def inOneLine (pa n : Nat) : Bool := decide (0 < n) && decide (pa % 64 + n ≤ 64)

/-- A host write of bytes of one line at a device physical address (R154, R164). One of no bytes is a read for ownership. An access that
reaches no memory is dropped with an error completion, or read as poisoned data (R208, R225, R263). -/
def hostWriteAt (a pa : Nat) (data : List Byte) (own : Bool) (s : State) : State :=
  let s := hostActive s
  let line := pa / 64
  let refuse := if data.isEmpty then poisonedData a s else s.output (.hostError a)
  if s.hostRefused then refuse
  else if s.dev.breaksAccess pa (max 1 data.length) then logHostAccess pa refuse
  else if data.isEmpty && (dirOf s.store line).poison then logError (64 * line) 3 4 (homeDie line) 0xFFFF refuse
  else
    let (x, mask) := hostWords s pa data
    let t := hostStore line x mask own s
    if data.isEmpty then t.output (.hostData a (memBytes t.store.mem (64 * line) 64) false) else t

/-- `HOST_WRITE` (R154, R155, R164): a write, or a read for ownership. The host's own memory changes as it writes, and the device sees that
when it fetches; configuration space is read-only (R263). -/
def execHostWrite (a : Nat) (data : List Byte) (own : Bool) (s : State) : Out :=
  if configBase ≤ a || !(inOneLine a data.length || (data.isEmpty && own)) then .next s
  else match s.dev.hdm a with
    | some pa => .next (hostWriteAt a pa data own s)
    | none => .next (if a < hostBase then s.mapStore fun st => { st with mem := memPutBytes st.mem (hostBase + a) data } else s)

/-- A host atomic at a device physical address (R154, R262), on the engine of the line's home die. -/
def hostAtomicAt (a pa : Nat) (op : AtomicOp) (width : Nat) (b c : W64) (s : State) : State :=
  let s := hostActive s
  let line := pa / 64
  if s.hostRefused then s.output (.hostError a)
  else if s.dev.breaksAccess pa width then logHostAccess pa (s.output (.hostError a))
  else if (dirOf s.store line).poison then logError (64 * line) 3 4 (homeDie line) 0xFFFF (s.output (.hostError a))
  else
    let st := readyForHost s.store line true
    let old := memNat st.mem pa width
    let new := atomicFn op (8 * width) old (b.toNat % 256 ^ width) (c.toNat % 256 ^ width)
    let x := lineSet (lineData st.mem line) (pa % 64) width new
    let st := (storeAtHome st line 0 (wordMask (pa % 64) width) x).2
    (noteWrite line (noteCombines s { s with store := st })).output (.hostOld a (BitVec.ofNat 64 old))

/-- `HOST_ATOMIC` (R262): a host atomic on device memory performs at the line's home as one access in S. -/
def execHostAtomic (a : Nat) (op : AtomicOp) (width : Nat) (b c : W64) (s : State) : Out :=
  if !inOneLine a width then .next s
  else match s.dev.hdm a with
    | some pa => .next (hostAtomicAt a pa op width b c s)
    | none => .next s

/-- `CONTROL_FIELD_WRITE` (R265): a host write to a control field that has no behaviour of its own is a write of its bytes; in the
heartbeat field it ends the host's silence so far (R225). -/
def execControlFieldWrite (a : Nat) (data : List Byte) (s : State) : Out := execHostWrite a data false s

/-! ### Errors (R173, R201) -/

/-- The newest dirty copy of a line (R173). -/
def newestDirty (st : Store) (line : Nat) : Option Copy :=
  ((copiesOf st line).filter fun e => e.2.state == .modified).foldl
    (fun (b : Option Copy) e => match b with | some c => if c.wts < e.2.wts then some e.2 else b | none => some e.2) none

/-- An entry of the home directory is lost and recovered (R173): partials are combined, the newest dirty copy, the host's among them, or
else memory is taken, every copy is dropped, and the timestamps follow all that the distributor has handed out. `dataLost` says that the
copy taken is uncorrectable too, which sets poison. The host is back-invalidated; a silent host's data is dropped with an error completion
(R225). -/
def homeDirectoryError (line : Nat) (hostDirty : Option (List Byte)) (dataLost : Bool) (s : State) : State :=
  let returned := if ownedByHost s.store line then hostDirty else none
  let fromHost := if s.dev.hostSilent then none else returned
  let st := match (dirOf s.store line).state with | .partials .. => combineLine s.store line | _ => combineInDie s.store line
  let st := match newestDirty st line, fromHost with
    | some c, _ => { st with mem := memPutLine st.mem line c.data 0xFFFF }
    | none, some bytes => { st with mem := memPutLine st.mem line (BitVec.ofNat 512 (ofLeBytes bytes)) 0xFFFF }
    | none, none => st
  let st := dropWhere { st with engineUse := st.engineUse.filter (· != line) } line (fun _ _ => true)
  let top := topTimestamp s
  let st := setDir st line
    { dirOf st line with state := .untracked, wts := top, rts := top, poison := dataLost || (dirOf st line).poison }
  let s := noteCombines s { s with store := st }
  let s := if fromHost.isSome then noteWrite line s else s
  let s := s.output (.backInvalidate line)
  let s := if s.dev.hostSilent && returned.isSome then s.output (.hostError (64 * line)) else s
  let s := logError (64 * line) 1 1 (homeDie line) 0xFFFF s
  if dataLost then logError (64 * line) 1 2 (homeDie line) 0xFFFF s else s

/-- An entry of the die directory of die d is lost and recovered within the die (R173): its partials are combined, its newest dirty copy
goes on to the home as a write-back, and every copy of the die is dropped. -/
def dieDirectoryError (d line : Nat) (dataLost : Bool) (s : State) : State :=
  let st := match (dirOf s.store line).state with
    | .partials .. => combineDie s.store line d
    | .owned o => if o = d then combineInDie s.store line else s.store
    | _ => s.store
  let dirty := ((copiesOf st line).filter fun e => holderDie e.1 == d && e.2.state == .modified)
  let newest := newestDirty { st with copies := dirty.map fun e => (copyKey e.1 line, e.2) } line
  let st := match newest with
    | some c => { st with mem := memPutLine st.mem line c.data 0xFFFF }
    | none => st
  let st := dropWhere st line (fun h _ => holderDie h == d)
  let top := topTimestamp s
  let e := dirOf st line
  let st := setDir st line { e with state := e.state.without d, wts := top, rts := top, poison := dataLost || e.poison }
  let s := logError (64 * line) 2 1 d 0xFFFF (noteCombines s { s with store := st })
  if dataLost then logError (64 * line) 2 2 d 0xFFFF s else s

/-- `DIRECTORY_ERROR` (R173): an uncorrectable error in the home directory entry of a line, or in that of a die's directory. -/
def execDirectoryError (die : Option Nat) (line : Nat) (hostDirty : Option (List Byte)) (dataLost : Bool) (s : State) : Out :=
  if isHostLine line then .next s
  else
    match die with
    | none => .next (homeDirectoryError line hostDirty dataLost s)
    | some d => .next (if d < 4 then dieDirectoryError d line dataLost s else s)

/-- `TLB_SOFT_ERROR` (R201): the k-th entry of the TLBs, or after them of the walk cache, is dropped and will be walked again. -/
def execTlbSoftError (k : Nat) (s : State) : Out :=
  .next (s.mapStore fun st =>
    if k < st.tlbs.length then { st with tlbs := st.tlbs.eraseIdx k }
    else { st with walks := st.walks.eraseIdx (k - st.tlbs.length) })

end Sys2Proof.Machine
end

