-- ==== Sys2Proof/Machine/Control.lean ====
section
/-! DEFINITION. The control family of slot C: branches and loops, waits and fences, gears and phases, and the instructions
that end, halt or park their context. -/

namespace Sys2Proof.Machine

/-! ### Branches (R24, R280) -/

/-- Address of the bundle o bundles away from the issuing one (R24). -/
def bundleAt (c : Ctx) (o : BitVec 22) : W64 := c.pc + BitVec.ofInt 64 (32 * o.toInt)

/-- Address of the next bundle, which `call` and `jr` link (R287). -/
def linkOf (c : Ctx) : W64 := c.pc + 32

/-- A taken branch: the context's next bundle is the target's. -/
def branch (t : W64) (s : State) : State := s.mapHere fun c => { c with branchTo := some t }

/-- The sealed image that a context runs (R17). -/
def State.imageOf (s : State) (i : Nat) : SealedCopy :=
  Sparse.get { digest := [], code := [], ranges := [], scratch := [], walkMask := 0, walks := [], ringMask := 0, rings := [], entry := 0 }
    s.dev.images (s.cont i).launch.sealed

/-- Whether a whole bundle at an image virtual address lies in a sealed code segment of the context's image (R24). -/
def inCode (s : State) (c : Ctx) (t : W64) : Bool :=
  let off := (t - c.regs.image).toNat
  (s.imageOf c.cont).ranges.any fun r => decide (r.1 ≤ off) && decide (off + 32 ≤ r.1 + r.2)

/-- The test of R24 on a `jr` or `ret` target. -/
def badTarget (s : State) (t : W64) : Bool := t.toNat % 32 != 0 || !inCode s s.here t

/-- `br` (R283). -/
def execBr (o : BitVec 22) (s : State) : Out := effect (branch (bundleAt s.here o) s)

/-- `bc` (R281). -/
def execBc (sense : Bool) (n : Reg3) (o : BitVec 22) (s : State) : Out :=
  effect (if s.here.regs.q.getLsbD n.toNat == sense then branch (bundleAt s.here o) s else s)

/-- `call` (R287): the link lands in `g63`. -/
def execCall (o : BitVec 22) (s : State) : Out :=
  under (readyG s [63]) s (effect (branch (bundleAt s.here o) (land 1 (.g 63 (linkOf s.here)) s)))

/-- `jr` (R301). -/
def execJr (d a : Reg) (s : State) : Out :=
  let t := srcG s a
  under (checks [readyG s [d, a], faultWhen (badTarget s t) .badTarget 0]) s
    (effect (branch t (land 1 (.g d.toNat (linkOf s.here)) s)))

/-- `ret` (R332). -/
def execRet (s : State) : Out :=
  let t := srcG s 63
  under (checks [readyG s [63], faultWhen (badTarget s t) .badTarget 0]) s (effect (branch t s))

/-- The loop state: `lc`, `ec`, `rb`, `q` (R34). -/
structure LoopState where
  lc : W32
  ec : BitVec 8
  rb : BitVec 5
  q : BitVec 8
  deriving DecidableEq, Repr

/-- The loop state a context sees. -/
def Regs.loopState (r : Regs) : LoopState := { lc := r.lc, ec := r.ec, rb := r.rb, q := r.q }

/-- The loop state after a taken `loop` shifts in a bit. -/
def LoopState.shift (l : LoopState) (bit : Bool) : LoopState :=
  { l with q := (l.q <<< 1) ||| (if bit then 1 else 0), rb := if l.ec.getLsbD 7 then l.rb - 1 else l.rb }

/-- `loop` of R34: the state after a taken loop, or none where it falls through. -/
def loopStep (l : LoopState) : Option LoopState :=
  if l.lc ≠ 0 then some (({ l with lc := l.lc - 1 } : LoopState).shift true)
  else if l.ec &&& 7 ≠ 0 then some (({ l with ec := l.ec - 1 } : LoopState).shift false)
  else none

/-- A new loop state lands, latency 1 (R34). -/
def landLoop (l : LoopState) (s : State) : State := land 1 (.q 0xFF l.q) (land 1 (.ec l.ec) (land 1 (.lc l.lc) s))

/-- `loop` (R308). -/
def execLoop (o : BitVec 22) (s : State) : Out :=
  match loopStep s.here.regs.loopState with
  | some l => effect (branch (bundleAt s.here o) (landLoop l (land 1 (.rb l.rb) s)))
  | none => effect s

/-- `lsetup` of R34 on a trip count. -/
def loopSetup (n : W64) (e : BitVec 3) (rot : Bool) (l : LoopState) : LoopState :=
  let k := min n.toNat 0xFFFFFFFF
  let flag : BitVec 8 := if rot then 0x80 else 0
  if k = 0 then { l with lc := 0, ec := flag, q := 0 }
  else { l with lc := BitVec.ofNat 32 (k - 1), ec := flag ||| e.setWidth 8, q := 1 }

/-- `lsetup` (R309). -/
def execLsetup (a : Reg) (e : BitVec 3) (r : Bool) (s : State) : Out :=
  under (readyG s [a]) s (effect (landLoop (loopSetup (srcG s a) e r s.here.regs.loopState) s))

/-! ### Waits and fences -/

/-- One bound of `wait`: 15 bounds nothing (R95). -/
def within (bound : BitVec 4) (n : Nat) : Bool := bound == 15 || decide (n ≤ bound.toNat)

/-- `wait` (R95, R371). -/
def execWait (l st c t : BitVec 4) (s : State) : Out :=
  let k := s.here
  stallOr (!(within l k.outLoads && within st k.outStores && within c (s.outCopies s.focusCtx) && within t (s.outTiles s.focusCtx)))
    s (effect s)

/-- `fence.eng` (R153): engine commands of this bundle and later ones wait for every access before the next bundle. -/
def execFenceEng (s : State) : Out :=
  effect (s.mapHere fun c => { c with work := { c.work with gate := 2 * c.retired + 2 } })

/-- Whether every coherent store of a context's earlier bundles has performed (R142). -/
def Ctx.storesDone (c : Ctx) : Bool :=
  (c.work.memOps ++ c.work.replay).all fun o => o.kind == .load || decide (8 * c.retired ≤ o.age)

/-- One step of `fence.sys.rel` for a context (R153, R155): its stores, then the write-back of every dirty host-homed line
of its core, which the host completes one by one. The flag says that the fence is complete. -/
def releaseStep (h : Nat) (s : State) : State × Bool :=
  let core := coreOf h
  if !(s.ctx h).storesDone then (s, false)
  else
    let lines := dirtyHostLines s.store core
    let fresh := lines.filter fun l => !s.dev.hostWrites.contains (core, l)
    if fresh.isEmpty then (s, lines.isEmpty)
    else (s.mapDev fun d => { d with hostWrites := d.hostWrites ++ fresh.map fun l => (core, l) }, false)

/-- `fence.sys.acq` for a context (R153). -/
def acquireDrop (h : Nat) (s : State) : State := s.mapStore fun st => dropHostClean st (coreOf h)

/-- `fence.sys.acq` (R153, R297). -/
def execFenceSysAcq (s : State) : Out := effect (acquireDrop s.focusCtx s)

/-- `fence.sys.rel` (R153, R297). -/
def execFenceSysRel (s : State) : Out :=
  let (s, ready) := releaseStep s.focusCtx s
  if ready then effect s else waits s

/-- `fence.sys` (R153, R297). -/
def execFenceSys (s : State) : Out :=
  let (s, ready) := releaseStep s.focusCtx s
  if ready then effect (acquireDrop s.focusCtx s) else waits s

/-! ### Gears and phases -/

/-- The stall of R98: a memory operation of an earlier bundle is untranslated. -/
def translated98 (s : State) : Check :=
  stallWhen (s.here.work.memOps.any (fun o => !o.translated) || !s.here.work.replay.isEmpty)

/-- `gear` (R242, R299): the requested gear lands; `.w` holds the next bundle until the core has settled. -/
def execGear (g w : Bool) (s : State) : Out :=
  under (translated98 s) s
    (effect (land 1 (.gear g) (s.mapHere fun c => { c with work := { c.work with gearWait := w || c.work.gearWait } })))

/-- The declaration of R252 that the fields of `phase` make. -/
def declaration (core : Nat) (o : BitVec 12) (i : BitVec 4) (e : BitVec 3) (m : BitVec 7) : Option PhaseDecl :=
  if i = 0 then none
  else
    some { onset := o.toNat, left := (m.toNat + 1) * 2 ^ (2 * e.toNat), intensity := min i.toNat 8, stagger := 2 * (core % 16) }

/-- `phase` (R252, R324). -/
def execPhase (o : BitVec 12) (i : BitVec 4) (e : BitVec 3) (m : BitVec 7) (s : State) : Out :=
  let core := coreOf s.focusCtx
  effect (s.mapHere fun c => { c with phase := declaration core o i e m, phaseAt := (s.core core).cycles + 1 })

/-! ### Ends and halts of a context -/

/-- `done` (R294): with nothing untranslated, no copy outstanding and no full/empty entry left, the context ends with its
status. The bundle's other slots still execute; the rest of R294 follows when the bundle has issued. -/
def execDone (a : Reg) (s : State) : Out :=
  under (checks [readyG s [a], translated98 s, stallWhen (s.outCopies s.focusCtx != 0), feqEmpty s]) s
    (effect (s.mapHere fun c => { c with ended := some (srcG s a) }))

/-- A context goes behind every ready context of its core with the same or higher priority (R232, R233). -/
def goBehind (h : Nat) (s : State) : State :=
  let s := s.mapCtx h fun c => { c with runCycles := 0 }
  s.mapCore (coreOf h) fun k => { k with rotated := true, lastPos := h % 4 }

/-- `yield` (R233, R374). -/
def execYield (s : State) : Out := under (translated98 s) s (effect (goBehind s.focusCtx s))

/-- `park` (R320): the next bundle waits until the word equals the expected value. -/
def execPark (a b : Reg) (w : Bool) (s : State) : Out :=
  let width := if w then 4 else 8
  let va := srcG s a
  let e : W64 := if w then (srcG s b).setWidth 32 |>.setWidth 64 else srcG s b
  under (checks [readyG s [a, b], translated98 s, faultWhen (va.toNat % width != 0) .badValue va.toNat]) s
    (effect (s.mapHere fun c =>
      { c with work := { c.work with park := some { seq := s.seqMem, va := va, width := width, expected := e, seen := false, asleep := false, line := 0, since := 0, pc := c.pc.toNat } } }))

/-- A context halts for its owner before its next bundle, with the code its state line will show (R222). -/
def callOwner (code : Nat) (s : State) : Out :=
  under (translated98 s) s (effect (s.mapHere fun c => { c with call := some { code := code } }))

/-- `trap` (R351, R352). -/
def execTrap (code : BitVec 20) (s : State) : Out := callOwner code.toNat s

/-- `brk` (R284): bit 31 of the code marks it. -/
def execBrk (code : BitVec 20) (s : State) : Out := callOwner (2 ^ 31 + code.toNat) s

end Sys2Proof.Machine
end

