-- ==== Sys2Proof/Config.lean ====
section
/-! DEFINITION. What the spec leaves to the part or to the world: constants without a body, so that no proof can lean on a value. -/

namespace Sys2Proof.Config

/-- The energy, in budget units, that the sensors of a core attribute to a context in its n-th window since placement
(R250: measured, never given by the spec). Arguments: hardware context, window number. -/
opaque measuredEnergy : Nat → Nat → Nat

/-- Byte n of the evidence of R269 from its signature on: what the device's identity key gives a message, and what may follow it (R268, R269:
neither the key nor the length is in the spec). -/
opaque signature : List Byte → Nat → Byte

/-- Byte n of the identity public key of the device, which has 2,592 bytes (R269). -/
opaque identityKey : Nat → Byte

/-- The firmware image and configuration record bytes that the measurement of R269 covers. -/
opaque firmwareBytes : List Byte

/-- The configuration record as it stands in flash (R268). -/
opaque recordBytes : List Byte

/-- The bytes that the distributor writes to the kennel slot for a context it saves (R235, R236: the layout is its own). Arguments: the time of
the save, the context's rank, the byte. -/
opaque kennelByte : Nat → Nat → Nat → Byte

/-- The fabric port through which traffic of a peer device arrives (R207 logs it, R267 leaves the routing to the fabric). -/
opaque portOf : Nat → Nat

end Sys2Proof.Config
end

