-- ==== Sys2Proof/Machine/Sha3.lean ====
section
/-! DEFINITION. SHA3-512 (R37, R38, R236, R268), which the spec names without defining: as FIPS 202 has it (log entry 15). The state is
the list of its 25 lanes, lane (x, y) at 5y + x; every table of the standard is generated as the standard derives it. -/

namespace Sys2Proof.Machine

/-- A sponge state. -/
abbrev Lanes := List W64

/-- The shift register that yields the round constants, one step on. -/
def sponge8 (r : BitVec 8) : BitVec 8 := if r.getLsbD 7 then (r <<< 1) ^^^ 0x71 else r <<< 1

/-- The constant of one round, and the register after it: the register's bit after each of seven steps stands at bit 2^j − 1. -/
def iotaWord (r : BitVec 8) : W64 × BitVec 8 :=
  [0, 1, 3, 7, 15, 31, 63].foldl
    (fun acc bit =>
      let r := sponge8 acc.2
      (if r.getLsbD 1 then acc.1 ||| (1#64 <<< bit) else acc.1, r))
    (0, r)

/-- The parity of each of the five columns. -/
def columns (a : Lanes) : Lanes := (a.take 5).mapIdx fun x l => ((a.drop 5).mapIdx fun i w => if i % 5 = x then w else 0).foldl (· ^^^ ·) l

/-- Every lane joined by the parities of the columns beside it. -/
def mixColumns (a : Lanes) : Lanes :=
  let p := columns a
  a.mapIdx fun i l => l ^^^ p.getD ((i + 4) % 5) 0 ^^^ (p.getD ((i + 1) % 5) 0).rotateLeft 1

/-- One stop of the walk through the lanes: where it stands, the lane in hand, the state. -/
structure LaneWalk where
  x : Nat
  y : Nat
  hand : W64
  lanes : Lanes

/-- The lane in hand is put down at the next place, turned by the triangular number of the stop, and the lane there is taken up. -/
def LaneWalk.stop (w : LaneWalk) (t : Nat) : LaneWalk :=
  let y := (2 * w.x + 3 * w.y) % 5
  let at' := 5 * y + w.y
  { x := w.y, y := y, hand := w.lanes.getD at' 0, lanes := w.lanes.set at' (w.hand.rotateLeft ((t + 1) * (t + 2) / 2 % 64)) }

/-- Every lane but the first turned and moved: 24 stops of the walk from lane (1, 0). -/
def carryLanes (a : Lanes) : Lanes := ((List.range 24).foldl LaneWalk.stop { x := 1, y := 0, hand := a.getD 1 0, lanes := a }).lanes

/-- A row of five lanes, each joined by the next two. -/
def mixRow : Lanes → Lanes
  | [a, b, c, d, e] => [a ^^^ (c &&& ~~~b), b ^^^ (d &&& ~~~c), c ^^^ (e &&& ~~~d), d ^^^ (a &&& ~~~e), e ^^^ (b &&& ~~~a)]
  | r => r

/-- The five rows mixed. -/
def mixRows (a : Lanes) : Lanes := ((List.range 5).map fun y => mixRow ((a.drop (5 * y)).take 5)).flatten

/-- One round on a state with the shift register as the round finds it. -/
def spongeRound (s : Lanes × BitVec 8) : Lanes × BitVec 8 :=
  let (k, r) := iotaWord s.2
  ((mixRows (carryLanes (mixColumns s.1))).modify 0 (· ^^^ k), r)

/-- n rounds. -/
def spongeRounds : Nat → Lanes × BitVec 8 → Lanes × BitVec 8
  | 0, s => s
  | n + 1, s => spongeRounds n (spongeRound s)

/-- The permutation: 24 rounds, the register starting at 1. -/
def permute (a : Lanes) : Lanes := (spongeRounds 24 (a, 1)).1

/-- The number of eight bytes, low byte first. -/
def laneIn : List Byte → W64
  | [] => 0
  | b :: bs => (laneIn bs <<< 8) ||| b.setWidth 64

/-- The eight bytes of a lane, low byte first. -/
def laneOut (x : W64) : List Byte := [0, 8, 16, 24, 32, 40, 48, 56].map fun n => x.extractLsb' n 8

/-- Nine lanes of the message, 72 bytes, join the state, which is permuted. -/
def absorb (a : Lanes) (block : List Byte) : Lanes :=
  permute (((List.range 9).map fun i => a.getD i 0 ^^^ laneIn ((block.drop (8 * i)).take 8)) ++ a.drop 9)

/-- The padding of a message of n bytes up to a multiple of 72: the bits 0110 0000 first, the last bit of the last byte set. -/
def sha3Padding (n : Nat) : List Byte :=
  (List.replicate (72 - n % 72) (0 : Byte)).mapIdx fun i b =>
    b ||| (if i = 0 then 0x06 else 0) ||| (if i + 1 = 72 - n % 72 then 0x80 else 0)

/-- n blocks of a padded message absorbed. -/
def absorbAll : Nat → Lanes → List Byte → Lanes
  | 0, a, _ => a
  | n + 1, a, m => absorbAll n (absorb a (m.take 72)) (m.drop 72)

/-- SHA3-512 of a message: 64 bytes. -/
def sha3 (m : List Byte) : List Byte :=
  ((absorbAll (m.length / 72 + 1) (List.replicate 25 0) (m ++ sha3Padding m.length)).take 8).flatMap laneOut

end Sys2Proof.Machine
end

