-- ==== Sys2Proof/Machine/Distributor.lean ====
section
/-! DEFINITION. The distributor: registration and commands (R210 to R222), placement and pre-emption (R226 to R236), halts,
the watchdog (R239), the rebase (R147). -/

namespace Sys2Proof.Machine

/-! ### Reads of the distributor -/

/-- Whether bring-up has succeeded: boot status 1, or 5 once the host has been fenced off. With any other status no image is sealed and
nothing starts (R225, R268). -/
def Device.up (d : Device) : Bool := d.boot == 1 || d.boot == 5

/-- A number of a control block's field. -/
def blockNat (s : State) (i off n : Nat) : Nat := latestNat s.store ((s.cont i).block + off) n

/-- Bytes at virtual addresses under an ASID, read outside S: none where one does not translate (R216, R266). That they fill no TLB and no
walk cache is a DESIGN CHOICE (log entry 99). -/
def readVirtual (s : State) (asid : Nat) (q : Requester) (va : Nat) : Nat → Option (List Byte)
  | 0 => some []
  | n + 1 =>
    match (walkTables s asid va q).1 with
    | .found pa _ _ _ =>
      if va < 2 ^ 48 then (readVirtual s asid q (va + 1) n).map fun bs => latestBytes s.store pa 1 ++ bs else none
    | .failed .. => none

/-- What a read of bytes at virtual addresses finds wrong, for the error log: page-table lines it cannot read, and poisoned lines (R208): kind
and address, in the order of the bytes. -/
def readTroubles (s : State) (asid : Nat) (q : Requester) (va : Nat) : Nat → List (Nat × Nat)
  | 0 => []
  | n + 1 =>
    if va < 2 ^ 48 then
      match (walkTables s asid va q).1 with
      | .found pa _ _ _ =>
        (if (dirOf s.store (pa / 64)).poison then [(4, 64 * (pa / 64))] else []) ++ readTroubles s asid q (va + 1) n
      | .failed _ _ _ _ (some (5, at')) => [(5, at')]
      | .failed .. => []
    else []

/-- They are logged, each once (R207, R208, log entry 76). -/
def logTroubles (ts : List (Nat × Nat)) (s : State) : State :=
  ts.dedup.foldl (fun s t => logError t.2 (if t.1 = 5 then 6 else 1) t.1 (homeDie (t.2 / 64)) 0xFFFF s) s

/-- A load by the distributor in S, at the line's home: its bytes, or none while the host must answer first (R218, R221). A poisoned line is
logged (R208, log entry 76). -/
def distLoad (pa n : Nat) (s : State) : Option (Nat × State) :=
  let line := pa / 64
  let s := if (dirOf s.store line).poison then logTroubles [(4, 64 * line)] s else s
  if isHostLine line then
    let (x, ts, st) := loadAtProxy (refetchHost s.store line) line s.dev.largest s.lease
    some (lineNat x (pa % 64) n, { s with store := st, dev := { s.dev with largest := ts } })
  else if hostBlocks s.store line false then none
  else
    let st := readyToRead s.store line
    let d := dirOf st line
    let (ts, rts) := loadStep s.dev.largest d.wts d.rts s.lease
    let st := setDir st line { d with rts := rts }
    some (lineNat (lineData st.mem line) (pa % 64) n,
      noteCombines s { s with store := st, dev := { s.dev with largest := ts } })

/-- The lines that the host must give up before the distributor can load them (R164). -/
def hostKeeps (s : State) (ls : List Nat) : List Nat := ls.filter fun l => hostBlocks s.store l false

/-- Lines of the device's own structures loaded one after another in S (R164, R208). -/
def readLines (ls : List Nat) (s : State) : State :=
  ls.foldl (fun s l => match distLoad (64 * l) 1 s with | some (_, s) => s | none => s) s

/-- What the distributor does with lines that it must load: where the host owns one, it is first asked for it, and nothing else happens. -/
def withLines (ls : List Nat) (k : State → Out) (s : State) : Out :=
  if (hostKeeps s ls).isEmpty then k s else .next (askLines (hostKeeps s ls) s)

/-- The lines of the fields at offsets of a control block. -/
def blockLines (s : State) (i : Nat) (offs : List Nat) : List Nat := offs.map fun o => ((s.cont i).block + o) / 64

/-- The lines that a read of bytes at virtual addresses meets (R266). -/
def linesRead (s : State) (asid : Nat) (q : Requester) (va n : Nat) : List Nat :=
  ((List.range (n / 64 + 2)).filterMap fun k =>
    let a := if k = 0 then va else va / 64 * 64 + 64 * k
    if a < va + n then
      match (walkTables s asid a q).1 with
      | .found pa _ _ _ => some (pa / 64)
      | .failed .. => none
    else none)

/-! ### Room on the cores (R226, R227) -/

/-- The window of a seat's context on its core. -/
def Launch.window (l : Launch) : Nat := 2 ^ l.winLog

/-- What the k-th seat of a continuation holds: all of it, or what no save has moved out (R235). -/
def Cont.roomAt (c : Cont) (all : Bool) (k : Nat) (x : Seat) : Room :=
  let p := c.launch.perCore
  { positions := (x.positions.mapIdx fun j pos => (j, pos)).filterMap fun e =>
      if all || !c.savedCtx (k * p + e.1) then some e.2 else none
    windows := (x.bases.mapIdx fun j b => (j, b)).filterMap fun e =>
      if all || !c.savedWindow k (if c.launch.shared then 0 else e.1) then some (e.2, c.launch.window) else none
    tiles := ((x.tiles.mapIdx fun j ts => (ts.mapIdx fun t y => (j, t, y))).flatten).filterMap fun e =>
      if all || !c.savedTile (k * p + e.1) e.2.1 then some e.2.2 else none }

/-- Seats with their numbers. -/
def numbered (xs : List Seat) : List (Nat × Seat) := xs.mapIdx fun k x => (k, x)

/-- Every room of a continuation, by core: that of its seats, all of it while it runs, and what still stands on seats it leaves. -/
def Cont.rooms (c : Cont) : List (Nat × Room) :=
  ((numbered c.seats).map fun x => (x.2.core, c.roomAt (c.state == .running) x.1 x.2)) ++
    (numbered c.leaving).map fun x => (x.2.core, c.roomAt false x.1 x.2)

/-- Where the state of a continuation stands on the cores: nowhere before its first placement is complete, on the seats it leaves until they are
saved (R235, R236). -/
def Cont.standing (c : Cont) : List (Nat × Seat) :=
  if c.placing = some true then [] else if c.leaving.isEmpty then numbered c.seats else numbered c.leaving

/-- The room that a continuation's victims have given up for it (R230, R377). -/
def Cont.kept (c : Cont) : List (Nat × Room) := c.reserved.map (·.2)

/-- Rooms of a core taken together. -/
def joinRooms (core : Nat) (xs : List (Nat × Room)) : Room :=
  let rs := (xs.filter fun x => x.1 == core).map (·.2)
  { positions := (rs.map Room.positions).flatten, windows := (rs.map Room.windows).flatten, tiles := (rs.map Room.tiles).flatten }

/-- What the continuations hold on a core. -/
def standingOn (s : State) (core : Nat) : Room := joinRooms core (s.dev.conts.map fun e => e.2.rooms).flatten

/-- What stands against the placement of i on a core: what the other continuations outside a set hold, and what is reserved for others,
whoever they are (R230, R377). -/
def heldOn (s : State) (i : Nat) (except : List Nat) (core : Nat) : Room :=
  joinRooms core (s.dev.conts.map fun e =>
    (if e.1 == i || except.contains e.1 then [] else e.2.rooms) ++ if e.1 == i then [] else e.2.kept).flatten

/-- Whether two windows overlap. -/
def overlap (a n b m : Nat) : Bool := decide (a < b + m) && decide (b < a + n)

/-- The n lowest aligned window bases that lie over free banks. -/
def lowestWindows (size : Nat) (taken : List (Nat × Nat)) : Nat → List Nat → List Nat
  | 0, _ => []
  | n + 1, bases =>
    match bases with
    | [] => []
    | b :: bs =>
      if taken.any fun w => overlap b size w.1 w.2 then lowestWindows size taken (n + 1) bs
      else b :: lowestWindows size taken n bs

/-- The seat that a core offers the gang of continuation i, with the lowest positions, windows and tiles (R227). -/
def seatOn (s : State) (i : Nat) (l : Launch) (except : List Nat) (core : Nat) : Option Seat :=
  if (s.core core).fenced then none
  else
    let r := heldOn s i except core
    let free := (List.range 4).filter fun p => !r.positions.contains p
    let tiles := (List.range 4).filter fun t => !r.tiles.contains t
    let size := l.window
    let bases := (List.range (2 ^ 21 / size)).map (· * size)
    let n := if l.shared then 1 else l.perCore
    let ws := lowestWindows size r.windows n bases
    if free.length < l.perCore ∨ ws.length < n ∨ tiles.length < l.perCore * l.tiles then none
    else
      some { core := core, positions := free.take l.perCore,
             bases := if l.shared then List.replicate l.perCore (ws.headD 0) else ws,
             tiles := (List.range l.perCore).map fun j => (tiles.drop (j * l.tiles)).take l.tiles }

/-- Lexicographic order of sorted core lists. -/
def lexLess : List Nat → List Nat → Bool
  | [], _ => true
  | _, [] => false
  | a :: as, b :: bs => a < b || (a == b && lexLess as bs)

/-- The sets of dies of a size. -/
def dieSets (n : Nat) : List (List Nat) := ([0, 1, 2, 3].sublists).filter fun d => d.length == n

/-- The seats of a gang over the fewest dies, the lowest list of cores among those (R227). -/
def fitGang (s : State) (i : Nat) (l : Launch) (except : List Nat) : Option (List Seat) :=
  let seats := (List.range 256).filterMap (seatOn s i l except)
  let n := l.gang
  let spread := fun (k : Nat) => ((dieSets k).filterMap fun ds =>
    let mine := (seats.filter fun x => ds.contains (dieOf x.core)).take n
    if mine.length = n then some mine else none)
  let best := fun (xs : List (List Seat)) => xs.foldl
    (fun (b : Option (List Seat)) x => match b with
      | none => some x
      | some y => if lexLess (x.map Seat.core) (y.map Seat.core) then some x else b)
    none
  [1, 2, 3, 4].findSome? fun k => best (spread k)

/-! ### The kennel (R220, R235, R236) -/

/-- The bytes that a full save of a continuation needs (R220). -/
def Launch.kennelNeed (l : Launch) : Nat :=
  l.contexts * 32768 + (if l.shared then l.gang else l.contexts) * l.window + l.contexts * l.tiles * 65536

/-- Whether a continuation can be evicted: its kennel slot is large enough (R220, R230). -/
def evictable (s : State) (i : Nat) : Bool :=
  blockNat s i 0x400 8 != 0 && decide ((s.cont i).launch.kennelNeed ≤ blockNat s i 0x408 8)

/-- Whether a halt in a call is one of a device trap (R352); `brk` sets bit 31 (R284). -/
def isDeviceTrap (code : Nat) : Bool := decide (0x10000 ≤ code) && decide (code < 0x100000)

/-- Whether the release of a context that has ended, or halted in a host call, still goes on (R156): the lines that it waits for are those of
the core on which it stands. -/
def releasing (s : State) (c : Ctx) : Bool :=
  let k := s.cont c.cont
  !k.state.isEnd &&
    (c.ended.isSome && !k.ended.contains c.rank ||
      c.call.any fun x => !isDeviceTrap x.code && k.callOf != some c.rank && !k.callQueue.contains c.rank)

/-- Whether the operations of a continuation's contexts have all delivered or entered their replay lists (R235), and none of its contexts is in
the middle of a release (R351). -/
def quiescent (s : State) (i : Nat) : Bool :=
  (s.ctxs.filter fun e => e.2.cont == i).all fun e => e.2.work.memOps.isEmpty && e.2.work.delivers.isEmpty && !releasing s e.2

/-- Words, full/empty bits or marks of a window, from its base. -/
def cutWindow {α : Type} (xs : List (Nat × α)) (lo n : Nat) : List (Nat × α) :=
  (xs.filter fun e => decide (lo ≤ e.1) && decide (e.1 < lo + n)).map fun e => (e.1 - lo, e.2)

/-- A window saved: its data, full/empty bits, marks and what they carry leave its banks, which are cleared (R48, R235). -/
def saveWindow (core base size seat pos : Nat) (st : Store) : KennelPart × Store :=
  let lo := scratchKey core base
  let n := size / 4
  (.window seat pos (cutWindow st.scratch lo n) (cutWindow st.full lo n)
      ((st.marks.filter fun k => decide (lo ≤ k) && decide (k < lo + n)).map (· - lo)) (cutWindow st.released (2 * lo) (2 * n)),
    scratchClear st core base size)

/-- A tile saved: its rows leave the physical tile, which becomes zero. -/
def saveTile (core phys rank t : Nat) (st : Store) : KennelPart × Store :=
  let lo := tileKey core phys 0
  (.tile rank t (cutWindow st.tiles lo 128),
    { st with tiles := st.tiles.filter fun e => decide (e.1 < lo) || decide (lo + 128 ≤ e.1) })

/-- The bytes of a saved part in the kennel slot: the data of a window or tile; what stands for a context is free (R235, R236, log entry
72). -/
def partBytes (now : Nat) (l : Launch) : KennelPart → List Byte
  | .ctx r _ => (List.range 32768).map (Config.kennelByte now r)
  | .window _ _ words .. => ((List.range (l.window / 4)).map fun w => leBytes 4 (Sparse.get 0 words w).toNat).flatten
  | .tile _ _ rows =>
    ((List.range 128).map fun y =>
      let row := Sparse.get [] rows y
      ((List.range 128).map fun x => leBytes 4 (row.getD x 0).toNat).flatten).flatten

/-- A part goes to the kennel slot, behind the parts that stand there; the distributor keeps the digest of its bytes (R220, R235, R236). The
first part of a save reads the kennel line. -/
def keepPart (i : Nat) (p : KennelPart) (s : State) : State :=
  let c := s.cont i
  let s := if c.kennelSaves.isEmpty then readLines (blockLines s i [0x400]) s else s
  let addr := if c.kennelSaves.isEmpty then blockNat s i 0x400 8 else c.kennelAddr
  let first := c.kennelSaves.foldl (fun m x => max m (x.first + x.len)) addr
  let bytes := partBytes s.refHalf c.launch p
  (distWrite first bytes s).mapCont i fun c =>
    { c with
      kennel := c.kennel ++ [p], kennelAddr := addr
      kennelSaves := c.kennelSaves ++ [{ first := first, len := bytes.length, digest := sha3 bytes }] }

/-- What a placement needs of a core: everything that stands there, or its new seat with windows of a size. -/
inductive Need where
  | everything
  | seat (x : Seat) (size : Nat)
  deriving DecidableEq, Repr

/-- Whether a need takes a position. -/
def Need.position : Need → Nat → Bool
  | .everything, _ => true
  | .seat x _, p => x.positions.contains p

/-- Whether it takes a part of a window. -/
def Need.window : Need → Nat → Nat → Bool
  | .everything, _, _ => true
  | .seat x size, base, n => x.bases.any fun b => overlap b size base n

/-- Whether it takes a tile. -/
def Need.tile : Need → Nat → Bool
  | .everything, _ => true
  | .seat x _, t => x.tiles.flatten.contains t

/-- The contexts of the k-th seat x of a holder that a need takes and no save has moved, by their place in the seat. -/
def Cont.ctxsTaken (c : Cont) (k : Nat) (x : Seat) (n : Need) : List Nat :=
  (List.range c.launch.perCore).filter fun j => n.position (x.positions.getD j 0) && !c.savedCtx (k * c.launch.perCore + j)

/-- The windows that it takes; a shared one is its seat's first. -/
def Cont.windowsTaken (c : Cont) (k : Nat) (x : Seat) (n : Need) : List Nat :=
  (List.range (if c.launch.shared then 1 else c.launch.perCore)).filter fun j =>
    n.window (x.bases.getD j 0) c.launch.window && !c.savedWindow k j

/-- The tiles that it takes: context's place and logical tile. -/
def Cont.tilesTaken (c : Cont) (k : Nat) (x : Seat) (n : Need) : List (Nat × Nat) :=
  ((List.range c.launch.perCore).map fun j => (List.range c.launch.tiles).map fun t => (j, t)).flatten.filter fun e =>
    n.tile ((x.tiles.getD e.1 []).getD e.2 0) && !c.savedTile (k * c.launch.perCore + e.1) e.2

/-- Whether a need takes anything of a seat. -/
def Cont.gives (c : Cont) (k : Nat) (x : Seat) (n : Need) : Bool :=
  !(c.ctxsTaken k x n).isEmpty || !(c.windowsTaken k x n).isEmpty || !(c.tilesTaken k x n).isEmpty

/-- The parts of the k-th seat of a holder that a need takes go to the kennel: contexts by position, windows that overlap, tiles granted
(R235). -/
def saveSeat (i k : Nat) (x : Seat) (n : Need) (s : State) : State :=
  let c := s.cont i
  let rank := fun (j : Nat) => k * c.launch.perCore + j
  let s := (c.ctxsTaken k x n).foldl
    (fun s j =>
      let h := 4 * x.core + x.positions.getD j 0
      let s := keepPart i (.ctx (rank j) (s.ctx h)) s
      { s with ctxs := Sparse.erase s.ctxs h })
    s
  let s := (c.windowsTaken k x n).foldl
    (fun s j =>
      let (p, st) := saveWindow x.core (x.bases.getD j 0) c.launch.window k j s.store
      keepPart i p { s with store := st })
    s
  (c.tilesTaken k x n).foldl
    (fun s e =>
      let (p, st) := saveTile x.core ((x.tiles.getD e.1 []).getD e.2 0) (rank e.1) e.2 s.store
      keepPart i p { s with store := st })
    s

/-- The flag of a save (R220, R235). -/
def markKennel (i : Nat) (s : State) : State :=
  let c := s.cont i
  if c.kennel.isEmpty ∨ c.kennelled ∨ c.state.isEnd then s else writeLine i (s.mapCont i fun c => { c with kennelled := true })

/-- The seats of other continuations of which the seats of i take something: those of one that does not run, and those that one placed
elsewhere leaves (R235, R236, R377): holder, seat number, seat, need. -/
def takenFrom (s : State) (i : Nat) : List (Nat × Nat × Seat × Need) :=
  let c := s.cont i
  let others := s.dev.conts.filter fun e => e.1 != i && (e.2.state != .running || !e.2.leaving.isEmpty)
  (others.map fun e => (e.2.standing.map fun x => (c.seats.filter fun w => w.core == x.2.core).filterMap fun w =>
    let n := Need.seat w c.launch.window
    if e.2.gives x.1 x.2 n then some (e.1, x.1, x.2, n) else none).flatten).flatten

/-- What the placement of i has to move: what its seats take from others, and all that stands on the seats it leaves (R235, R236). -/
def savesDue (s : State) (i : Nat) : List (Nat × Nat × Seat × Need) :=
  let c := s.cont i
  takenFrom s i ++ ((numbered c.leaving).filter fun x => c.gives x.1 x.2 .everything).map fun x => (i, x.1, x.2, .everything)

/-- Whether a placement's saves can be done: the operations of their contexts have delivered or entered replay lists, no core that they or
the placement touch is in a changeover pause (R235, R244), and the host owns no kennel line of theirs (R164). -/
def savesReady (s : State) (i : Nat) : Bool :=
  let due := savesDue s i
  (due.all fun e => quiescent s e.1 && (s.core e.2.2.1.core).pause == 0) && ((s.cont i).seats.all fun x => (s.core x.core).pause == 0) &&
    due.all fun e => (hostKeeps s (blockLines s e.1 [0x400])).isEmpty

/-- Every save that a placement needs. -/
def saveAll (i : Nat) (s : State) : State :=
  (savesDue s i).foldl (fun s e => markKennel e.1 (saveSeat e.1 e.2.1 e.2.2.1 e.2.2.2 s)) s

/-! ### Contexts of a placement (R13, R31, R48, R100, R227) -/

/-- The cores of a seat list on one die. -/
def onDie (seats : List Seat) (die : Nat) : List Nat := (seats.map Seat.core).filter fun c => dieOf c == die

/-- `pack` of a context (R13). -/
def packWord (l : Launch) (seats : List Seat) (k j : Nat) : W64 :=
  let core := (seats[k]?.map Seat.core).getD 0
  let mates := onDie seats (dieOf core)
  let low := j + 4 * (l.perCore - 1) + 16 * (mates.filter (· < core)).length + 1024 * (mates.length - 1) + 65536 * k +
    16777216 * (seats.length - 1)
  BitVec.ofNat 64 (if l.pack = 0 then low else low + l.l3index * 2 ^ 32 + 2 ^ 63)

/-- The ring descriptors of an image (R127). -/
def imageRings (im : SealedCopy) : Sparse Ring :=
  ((List.range 8).filter fun n => im.ringMask / 2 ^ n % 2 == 1).map fun n =>
    (n, { base := (im.rings.getD (2 * n) 0).toNat, cap := (im.rings.getD (2 * n + 1) 0).toNat, head := 0, tail := 0 })

/-- The walk registers of an image (R31). -/
def imageWalks (im : SealedCopy) : Sparse W64 :=
  ((List.range 64).filter fun n => im.walkMask / 2 ^ (n / 4) % 2 == 1 && im.walks.getD n 0 != 0).map fun n => (n, im.walks.getD n 0)

/-- The registers that placement loads (R31, R100). -/
def placedRegs (l : Launch) (im : SealedCopy) (seats : List Seat) (k j : Nat) : Regs :=
  let g := (l.args.mapIdx fun n x => (n + 1, x)).filter fun e => e.2 != 0
  { Regs.placed with
    g := g, pack := packWord l seats k j, pack3 := if l.pack = 0 then 0 else BitVec.ofNat 64 l.l3count, image := l.image,
    walks := imageWalks im, rings := imageRings im }

/-- A context at its first placement, not yet issuing (R146, R227). -/
def newCtx (s : State) (i : Nat) (seats : List Seat) (k j : Nat) (x : Seat) : Ctx :=
  let l := (s.cont i).launch
  { Ctx.placed with
    regs := placedRegs l (s.imageOf i) seats k j, cont := i, rank := k * l.perCore + j, base := x.bases.getD j 0, winLog := l.winLog,
    tiles := x.tiles.getD j [], pc := l.image + BitVec.ofNat 64 l.entry, gearReq := l.gear, started := false, pts := topTimestamp s }

/-- The scratch segment copied into a window: its words start full (R48). -/
def loadScratch (core base : Nat) (bytes : List Byte) (st : Store) : Store :=
  (List.range ((bytes.length + 3) / 4)).foldl
    (fun st w =>
      let st := scratchStore st core (base + 4 * w) (BitVec.ofNat 32 (ofLeBytes ((bytes.drop (4 * w)).take 4)))
      setFull st core (base + 4 * w) true)
    st

/-- A gang's first placement. -/
def placeNew (i : Nat) (seats : List Seat) (s : State) : State :=
  let scratch := (s.imageOf i).scratch
  (numbered seats).foldl
    (fun s e => (List.range (s.cont i).launch.perCore).foldl
      (fun s j =>
        let s := s.setCtx (4 * e.2.core + e.2.positions.getD j 0) (newCtx s i seats e.1 j e.2)
        if (s.cont i).launch.shared ∧ j ≠ 0 then s
        else s.mapStore (loadScratch e.2.core (e.2.bases.getD j 0) scratch))
      s)
    s

/-- A context that moves to another window base: its core addresses move with it. -/
def Ctx.rebase (c : Ctx) (base : Nat) : Ctx :=
  let mv := fun (a : Nat) => a - c.base + base
  { c with
    base := base
    work := { c.work with
      feq := c.work.feq.map fun e => { e with words := e.words.map fun w => (w.1, mv w.2) }
      feset := c.work.feset.map fun f => { f with addr := mv f.addr }
      bwait := c.work.bwait.map fun b => (mv b.1, b.2)
      barvs := c.work.barvs.map fun b => { b with addr := mv b.addr } } }

/-- A context of hardware context h that runs again evaluates its waits again (R234), and a frozen declaration counts on with
at least 64 cycles of onset (R254). -/
def Ctx.again (h : Nat) (c : Ctx) : Ctx :=
  { c with
    halted := false
    phase := if c.halted then c.phase.map fun d => { d with onset := max d.onset 64, stagger := 2 * (coreOf h % 16) } else c.phase
    work := { c.work with park := c.work.park.map fun p => { p with asleep := false } } }

/-- A restored context in its place (R236); its frozen matrix work is that of its new hardware context (R139). -/
def restoreCtx (s : State) (i : Nat) (seats : List Seat) (k j : Nat) (x : Seat) (c : Ctx) : Ctx :=
  let h := 4 * x.core + x.positions.getD j 0
  let c := c.rebase (x.bases.getD j 0)
  { c with
    tiles := x.tiles.getD j [], started := false, vecSince := none
    regs := { c.regs with pack := packWord (s.cont i).launch seats k j }
    work := { c.work with frozen := c.work.frozen.map fun o => { o with ctx := h } } }

/-! ### Freeing (R48, R215, R295) -/

/-- The counters of contexts about to leave join those of their continuation (R214). -/
def foldCounters (i : Nat) (s : State) : State :=
  let live := s.contexts i
  s.mapCont i fun c =>
    { c with bundles := c.bundles + (live.map (·.retired)).sum, undecl := c.undecl + (live.map (·.regs.undecl)).sum,
             emis := c.emis + (live.map (·.regs.emis)).sum }

/-- The room that a continuation's own state takes on the cores. -/
def Cont.occupied (c : Cont) : List (Nat × Room) := c.standing.map fun e => (e.2.core, c.roomAt false e.1 e.2)

/-- The windows of a room are cleared, and its tiles (R48, R124). -/
def clearRoom (core : Nat) (r : Room) (st : Store) : Store :=
  let st := r.windows.foldl (fun st w => scratchClear st core w.1 w.2) st
  r.tiles.foldl (fun st t => (saveTile core t 0 0 st).2) st

/-- Whether no core that a continuation stands on is in a changeover pause, in which its banks could not be cleared (R244). -/
def unpaused (s : State) (i : Nat) : Bool := (s.cont i).occupied.all fun x => (s.core x.1).pause == 0

/-- What a core holds for a continuation that leaves it: queued operations of its contexts, commands, counts on their way, latches, bytes
staged for its windows (R181, R244). -/
def Core.forget (i : Nat) (hs : List Nat) (rooms : List Room) (k : Core) : Core :=
  let freed := fun (a : Nat) => rooms.any fun r => r.windows.any fun w => decide (w.1 ≤ a) && decide (a < w.1 + w.2)
  { k with
    queue := k.queue.filter fun o => !hs.contains o.ctx
    channels := k.channels.filter fun x => x.2.cont != i
    counts := k.counts.filter fun m => m.cont != i
    portWaits := k.portWaits.filter fun w => w.user.serves.all fun h => !hs.contains h
    staging := k.staging.filter fun x => !freed x.addr
    latchA := k.latchA.filter fun l => l.cont != i
    latchB := k.latchB.filter fun l => l.cont != i }

/-- The resources of a continuation are freed: the windows it stands in are cleared, its commands stop, its contexts leave, and nothing is
reserved for it any more (R48, R181, R215, R377). What a save has moved out is another's room by now, and stays. -/
def freeCont (i : Nat) (s : State) : State :=
  let s := foldCounters i s
  let hs := s.ctxsOf i
  let rooms := (s.cont i).occupied
  let s := { s with
    store := rooms.foldl (fun st (r : Nat × Room) => clearRoom r.1 r.2 st) s.store
    ctxs := s.ctxs.filter fun e => e.2.cont != i
    cores := s.cores.map fun (e : Nat × Core) => (e.1, e.2.forget i hs ((rooms.filter fun (r : Nat × Room) => r.1 == e.1).map Prod.snd)) }
  s.mapCont i fun c =>
    { c with seats := [], leaving := [], placing := none, kennel := [], kennelSaves := [], kennelled := false, reserved := [], ended := [],
             endTop := 0 }

/-! ### The pass (R228 to R230, R377) -/

/-- Effective priority (R229). -/
def Cont.effective (c : Cont) : Nat :=
  if c.state = .running then c.launch.priority else c.launch.priority + min 2 c.boost

/-- Whether a QUEUED continuation may be placed now. -/
def Cont.waiting (c : Cont) : Bool := c.state == .queued && !c.ineligible && c.halt.isNone

/-- Order of the pass: priority, then the longest wait (R228). -/
def standsBefore (a b : Cont) : Bool :=
  decide (b.effective < a.effective) || (a.effective == b.effective && decide (a.queuedAge < b.queuedAge))

/-- Insertion into the order of the pass. Of two that neither order decides, the higher registry index stands first: a DESIGN CHOICE (log
entry 90). -/
def insertWaiting (x : Nat × Cont) : List (Nat × Cont) → List (Nat × Cont)
  | [] => [x]
  | y :: ys => if standsBefore x.2 y.2 then x :: y :: ys else y :: insertWaiting x ys

/-- QUEUED continuations in the order of the pass. -/
def waitingOrder (s : State) : List Nat :=
  ((s.dev.conts.filter fun e => e.2.waiting).foldr insertWaiting []).map (·.1)

/-- Whether a continuation is a victim whose room is reserved for another (R377). -/
def Cont.victim (c : Cont) (v : Nat) : Bool := c.reserved.any fun x => x.1 == v

/-- Holders whose room a continuation may take by saving their parts (R230, R377). -/
def takeable (s : State) (i : Nat) : List Nat :=
  (s.dev.conts.filter fun e =>
    e.1 != i && e.2.halt.isNone && evictable s e.1 &&
      (e.2.state == .parked || (e.2.state == .queued && ((s.cont i).victim e.1 || standsBefore (s.cont i) e.2)))).map (·.1)

/-- Whether nobody outside a set has the room of the seats that a continuation left. -/
def roomFree (s : State) (i : Nat) (except : List Nat) : Bool :=
  let c := s.cont i
  c.seats.all fun x =>
    let r := heldOn s i except x.core
    x.positions.all (fun p => !r.positions.contains p) &&
      x.bases.all (fun b => !r.windows.any fun w => overlap b c.launch.window w.1 w.2) &&
      x.tiles.flatten.all (fun t => !r.tiles.contains t)

/-- Whether a continuation can return to the seats it left (R236). -/
def canReturn (s : State) (i : Nat) (except : List Nat) : Bool :=
  let c := s.cont i
  !c.seats.isEmpty && (c.seats.all fun x => !(s.core x.core).fenced) && roomFree s i except

/-- Die power control grants a core that receives a placement its leash from its next window on (R20, R248). One that held no context has had
no grant, and takes it in the window that runs: a DESIGN CHOICE (log entry 92). -/
def grantPlaced (busy : Bool) (k : Core) : Core :=
  if busy then { k with nextGrant := 8192 } else { k with grant := 8192, nextGrant := 8192, stalled := false }

/-- A continuation takes its seats; no context issues yet (R227), and what stands in its way is saved when it can be (R235, R236). Until then its
state line goes on to show QUEUED (R20). Nothing is reserved for it any more (R377). -/
def settleSeats (i : Nat) (seats : List Seat) (fresh : Bool) (s : State) : State :=
  s.mapCont i fun c =>
    { c with state := .running, seats := seats, leaving := if seats = c.seats then [] else c.seats, placing := some fresh,
             residentAge := s.refHalf, boost := 0, blocking := false, reserved := [], clock := if c.clockOn then c.clock else 0, clockOn := true }

/-- One continuation placed, if it fits with what is free, its own reserved room among it, and what may be taken from a set of holders (R227,
R236, R377). -/
def tryPlace (i : Nat) (except : List Nat) (s : State) : Option State :=
  let c := s.cont i
  if c.seats.isEmpty then (fitGang s i c.launch except).map fun seats => settleSeats i seats true s
  else if canReturn s i except then some (settleSeats i c.seats false s)
  else (fitGang s i c.launch except).map fun seats => settleSeats i seats false s

/-- The leash of each core of a placement is granted (R20). -/
def grantSeats (seats : List Seat) (s : State) : State :=
  let busy := fun (core : Nat) => s.ctxs.any fun e => coreOf e.1 == core
  seats.foldl (fun t x => t.mapCore x.core (grantPlaced (busy x.core))) s

/-- The saves of a placement come about as soon as they can; then a new gang's contexts and windows stand in their places, the continuation is
RUNNING, and its cores are granted their leash (R20, R227, R235). -/
def finishPlacing (s : State) (i : Nat) : State :=
  match (s.cont i).placing with
  | none => s
  | some fresh =>
    if !savesReady s i then s
    else
      let s := (saveAll i s).mapCont i fun c => { c with placing := none, leaving := [] }
      let seats := (s.cont i).seats
      let t := grantSeats seats s
      writeState i (if fresh then placeNew i seats t else t)

/-- Every placement goes on as far as it can. -/
def finishPlacings (s : State) : State := (s.dev.conts.map (·.1)).foldl finishPlacing s

/-- Victims in the order they are taken: the lowest priority first, the most recently placed among equals (R230), and where neither
decides the higher registry index: a DESIGN CHOICE (log entry 90). -/
def insertVictim (x : Nat × Cont) : List (Nat × Cont) → List (Nat × Cont)
  | [] => [x]
  | y :: ys =>
    if x.2.effective < y.2.effective || (x.2.effective == y.2.effective && y.2.residentAge < x.2.residentAge) then x :: y :: ys
    else y :: insertVictim x ys

/-- The continuations that one may pre-empt (R230). -/
def victims (s : State) (i : Nat) : List Nat :=
  let c := s.cont i
  ((s.dev.conts.filter fun e =>
    e.2.state == .running && e.2.halt.isNone && decide (e.2.effective < c.effective) && evictable s e.1 &&
      (decide (e.2.launch.priority < c.launch.priority) || decide (e.2.residentAge + micros 100 ≤ s.refHalf))).foldr
    insertVictim []).map (·.1)

/-- The first set of victims, in order, that makes room (R230). -/
def enoughVictims (s : State) (i : Nat) (except : List Nat) : List Nat → List Nat → Option (List Nat)
  | taken, [] => if taken.isEmpty then none else
      if (fitGang s i (s.cont i).launch (except ++ taken)).isSome then some taken else none
  | taken, v :: vs =>
    if !taken.isEmpty && (fitGang s i (s.cont i).launch (except ++ taken)).isSome then some taken
    else enoughVictims s i except (taken ++ [v]) vs

/-- The room that a continuation has on the cores, for another for which it is to give it up. -/
def roomOf (s : State) (v : Nat) : List (Nat × Nat × Room) :=
  (numbered (s.cont v).seats).map fun x => (v, x.2.core, (s.cont v).roomAt true x.1 x.2)

/-- Pre-emption for a continuation that does not fit: its victims are asked to halt, and their room is reserved for it (R230, R377). -/
def preempt (i : Nat) (s : State) : Option State :=
  if s.dev.conts.any (fun e => e.2.halt == some (.preempt i)) then some s
  else
    (enoughVictims s i (takeable s i) [] (victims s i)).map fun vs =>
      vs.foldl (fun s v => requestHalt v (.preempt i) (s.mapCont i fun c => { c with reserved := c.reserved ++ roomOf s v })) s

/-- The pass over an order of continuations; nothing is placed after a blocking one that found no room, nor after one whose
victims are about to halt (R228, R230). -/
def passOver : List Nat → State → State
  | [], s => s
  | i :: is, s =>
    match tryPlace i [] s with
    | some s => passOver is s
    | none =>
      match tryPlace i (takeable s i) s with
      | some s => passOver is s
      | none =>
        match preempt i s with
        | some s => s
        | none => if (s.cont i).blocking then s else passOver is s

/-- The kennel lines of the continuations that have room, which decide whether it may be taken (R220). -/
def kennelReads (s : State) : List Nat :=
  (s.dev.conts.filter fun e => e.2.state == .running || e.2.state == .queued || e.2.state == .parked).map fun e => (e.2.block + 0x400) / 64

/-- Those that the host owns. -/
def kennelKept (s : State) : List Nat := hostKeeps s (kennelReads s)

/-- THE DISTRIBUTOR'S PASS (R228). It loads the kennel lines (R208); where the host owns one, it must first give it up (R164). -/
def pass (s : State) : State :=
  let order := waitingOrder s
  let due := !order.isEmpty && !(kennelKept s).isEmpty
  let s := if s.dev.passDue = due then s else s.mapDev fun d => { d with passDue := due }
  if order.isEmpty then s else if due then askLines (kennelKept s) s else passOver order (readLines (kennelReads s) s)

/-- A pass that waits for the host goes on. -/
def passAgain (s : State) : State := if s.dev.passDue then pass s else s

/-- Entry into QUEUED, with the wait measured from now (R229), and the pass. -/
def enterQueued (i : Nat) (s : State) : State :=
  let s := s.mapCont i fun c => { c with state := .queued, queuedAge := s.refHalf, boost := 0, boostAge := s.refHalf }
  pass (writeState i s)

/-- What a die reports of a core (R226): a position, bank or tile that a halted continuation holds counts as occupied. -/
def reportOf (s : State) (c : Nat) : Report :=
  let r := standingOn s c
  let bits := fun (n : Nat) (p : Nat → Bool) => ((List.range n).filter p).foldl (fun m j => m + 2 ^ j) 0
  { positions := BitVec.ofNat 4 (bits 4 fun j => !r.positions.contains j)
    banks := BitVec.ofNat 32 (bits 32 fun j => !r.windows.any fun w => overlap (65536 * j) 65536 w.1 w.2)
    tiles := BitVec.ofNat 4 (bits 4 fun j => !r.tiles.contains j)
    run := (s.core c).run
    fenced := (s.core c).fenced }

/-- The report last sent of a core; before the first, that everything is free. -/
def lastReport (s : State) (c : Nat) : Report :=
  Sparse.get { positions := BitVec.allOnes 4, banks := BitVec.allOnes 32, tiles := BitVec.allOnes 4, run := false, fenced := false }
    s.dev.reports c

/-- Whether a core's free resources have changed since its last report; a change of gear alone sends none (R226). -/
def reportDue (s : State) (c : Nat) : Bool := { reportOf s c with run := (lastReport s c).run } != lastReport s c

/-- `RESOURCE_REPORT` (R226): a die's report of a core whose free resources have changed reaches the distributor, whose pass runs (R228). -/
def execResourceReport (c : Nat) (s : State) : Out :=
  if c < 256 ∧ reportDue s c then
    .next (pass (s.mapDev fun d => { d with reports := Sparse.put d.reports c (reportOf s c) }))
  else .next s

/-- The cores whose reports may be due, in order of core, and so of die (R226). -/
def reportCores (s : State) : List Nat :=
  let named := (s.dev.conts.map fun e => e.2.rooms.map (·.1)).flatten ++ s.dev.reports.map (·.1) ++
    (s.cores.filter fun e => e.2.fenced).map (·.1)
  (List.range 256).filter named.contains

/-- `GANG_ISSUE_START` (R227, R235): with every part of the gang on its cores, its contexts begin to issue. -/
def execGangIssueStart (i : Nat) (s : State) : Out :=
  let c := s.cont i
  if c.state = .running ∧ c.placing.isNone ∧ c.kennel.isEmpty then
    .next { s with ctxs := s.ctxs.map fun e =>
      if e.2.cont = i ∧ (!e.2.started ∨ (e.2.halted ∧ c.halt.isNone)) then (e.1, { e.2.again e.1 with started := true }) else e }
  else .next s

/-- Moving one saved part to its place. -/
def restorePart (i : Nat) (s : State) (p : KennelPart) : State :=
  let c := s.cont i
  let pc := c.launch.perCore
  match p with
  | .ctx r x =>
    match c.seats[r / pc]? with
    | some seat =>
      let h := 4 * seat.core + seat.positions.getD (r % pc) 0
      acquireDrop h (s.setCtx h (restoreCtx s i c.seats (r / pc) (r % pc) seat x))
    | none => s
  | .window k j words full marks released =>
    match c.seats[k]? with
    | some seat =>
      let lo := scratchKey seat.core (seat.bases.getD j 0)
      s.mapStore fun st =>
        { st with
          scratch := words.foldl (fun m e => Sparse.put m (lo + e.1) e.2) st.scratch
          full := full.foldl (fun m e => Sparse.put m (lo + e.1) e.2) st.full
          marks := marks.map (· + lo) ++ st.marks
          released := released.foldl (fun m e => Sparse.put m (2 * lo + e.1) e.2) st.released }
    | none => s
  | .tile r t rows =>
    match c.seats[r / pc]? with
    | some seat =>
      let lo := tileKey seat.core ((seat.tiles.getD (r % pc) []).getD t 0) 0
      s.mapStore fun st => { st with tiles := rows.foldl (fun m e => Sparse.put m (lo + e.1) e.2) st.tiles }
    | none => s

/-- The lines of the kennel slot that hold saved parts. -/
def kennelLines (c : Cont) : List Nat := (c.kennelSaves.map fun x => lineSpan x.first x.len).flatten.dedup

/-- The poisoned ones among lines, for the error log (R208). -/
def poisonedLines (s : State) (ls : List Nat) : List (Nat × Nat) :=
  (ls.filter fun l => (dirOf s.store l).poison).map fun l => (4, 64 * l)

/-- Whether every save in the kennel slot still has the bytes of its digest (R236). -/
def kennelIntact (s : State) (c : Cont) : Bool := c.kennelSaves.all fun x => sha3 (latestBytes s.store x.first x.len) == x.digest

/-- `KENNEL_RESTORE` (R236): the saved parts of a continuation placed again are checked and restored; bytes that the host changed
end it with class kennel. What the distributor still has to write, and the lines that the host owns, come first (R164). -/
def execKennelRestore (i : Nat) (s : State) : Out :=
  let c := s.cont i
  if c.state ≠ .running ∨ c.placing.isSome ∨ c.kennel.isEmpty ∨ c.seats.any (fun x => (s.core x.core).pause != 0) ∨ !s.dev.acts.isEmpty then
    .next s
  else
    withLines (kennelLines c)
      (fun s =>
        let t := logTroubles (poisonedLines s (kennelLines c)) s
        if !kennelIntact s c then
          let f : FaultInfo :=
            { cls := .kennel, addr := 0, intent := none, slot := 0xFF, replay := 0, ctx := 0xFFFF, rank := 0xFFFF, pc := 0,
              asid := c.launch.asid, level := 0xFF, entry := 0, repairable := false }
          .next (recordUnrepairable i f t)
        else
          let s := c.kennel.foldl (restorePart i) t
          .next (writeLine i (s.mapCont i fun c => { c with kennel := [], kennelSaves := [], kennelled := false })))
      s

/-- `PRIORITY_BOOST` (R229): 250 µs more in QUEUED gain one level, up to two, and the pass may pre-empt for it. -/
def execPriorityBoost (i : Nat) (s : State) : Out :=
  let c := s.cont i
  if c.state = .queued ∧ !c.ineligible ∧ c.boost < 2 ∧ c.boostAge + micros 250 ≤ s.refHalf then
    .next (pass (s.mapCont i fun c => { c with boost := c.boost + 1, boostAge := c.boostAge + micros 250 }))
  else .next s

/-- `BLOCKING_TIMEOUT` (R228): after 1,000 µs in QUEUED a continuation blocks those behind it. -/
def execBlockingTimeout (i : Nat) (s : State) : Out :=
  let c := s.cont i
  if c.state = .queued ∧ !c.blocking ∧ c.queuedAge + micros 1000 ≤ s.refHalf then
    .next (pass (s.mapCont i fun c => { c with blocking := true }))
  else .next s

/-- `RESIDENCY_FLOOR_EXPIRY` (R230): 100 µs after its placement a continuation may be a victim; the pass runs. -/
def execResidencyFloorExpiry (i : Nat) (s : State) : Out :=
  if (s.cont i).state = .running ∧ (s.cont i).residentAge + micros 100 ≤ s.refHalf then .next (pass s) else .next s

/-! ### Halts (R231, R234) -/

/-- Whether every core of a continuation can stop: its placement has finished (R237), and no context of it has a hold window open (R121,
R234). -/
def canHalt (s : State) (i : Nat) : Bool :=
  let c := s.cont i
  c.placing.isNone && (c.state != .running || c.kennel.isEmpty) &&
    (s.ctxs.filter fun e => e.2.cont == i).all fun e => e.2.work.openHold.isNone

/-- Every context of a continuation stops at its bundle boundary (R234). -/
def haltAll (i : Nat) (s : State) : State :=
  (s.ctxsOf i).foldl (fun s h => (freezeQueue h s).mapCtx h Ctx.halt) s

/-- A continuation ends and frees its resources; the pass runs (R215, R228). -/
def endAndFree (i : Nat) (st : ContState) (cause : Nat) (exit : W64) (s : State) : State :=
  pass ((freeCont i (enterEnd i st cause exit s)).mapCont i fun c => { c with halt := none, stage := 0 })

/-- Whether every context of a continuation has executed `done`: what is still waited for is its end, which overtakes a halt that would keep
it (R224, R237). -/
def allDone (s : State) (i : Nat) : Bool :=
  !(s.contexts i).isEmpty && (s.contexts i).all (·.ended.isSome) && !(s.cont i).faultPending

/-- Whether a halt keeps its continuation: one for pre-emption or PARK. -/
def HaltFor.keeps : HaltFor → Bool
  | .preempt _ | .park _ => true
  | _ => false

/-- Whether a halt ends its continuation and frees its room. -/
def HaltFor.frees : HaltFor → Bool
  | .kill _ | .watchdog => true
  | _ => false

/-- `HALT_COMPLETE` (R234): every core of the continuation has halted, and what asked for the halt goes on (R231). An end waits for the
changeover pauses of its cores (R244). Where every context has executed `done`, the end comes before PARK or a pre-emption (R224, R237). -/
def execHaltComplete (i : Nat) (s : State) : Out :=
  match (s.cont i).halt with
  | none => .next s
  | some why =>
    if !canHalt s i || (why.frees && !unpaused s i) || (why.keeps && allDone s i) then .next s
    else
      let s := haltAll i s
      let clear := fun (s : State) => s.mapCont i fun c => { c with halt := none }
      match why with
      | .preempt _ => .next (enterQueued i (clear s))
      | .park ack =>
        .next (writeState i ((clear s).mapCont i fun c =>
          { c with state := .parked, ineligible := true, ack := ack, result := 0, parks := c.parks + 1 }))
      | .kill ack =>
        if (s.cont i).state.isEnd then .next (pass (clear (freeCont i s)))
        else .next (endAndFree i .killed 4 0 ((clear s).mapCont i fun c => { c with ack := ack.getD c.ack, result := 0 }))
      | .watchdog => .next (endAndFree i .killed 5 0 (clear s))
      | .rebase => .next s

/-! ### Commands (R211, R215, R216) -/

/-- The command word as the distributor reads it. -/
def commandWord (s : State) (i : Nat) : W64 := BitVec.ofNat 64 (blockNat s i 0 8)

/-- Whether a command word is malformed (R211). -/
def badCommand (w : W64) : Bool :=
  let op := (w.extractLsb' 0 8).toNat
  op == 0 || decide (6 < op) || w.extractLsb' 9 23 != 0 || (w.getLsbD 8 && op != 5)

/-- Whether a well-formed word is a command of an op and selector. -/
def isCommand (op : Nat) (sel : Bool) (w : W64) : Bool :=
  !badCommand w && (w.extractLsb' 0 8).toNat == op && w.getLsbD 8 == sel

/-- Whether a block's command may be handled now: those behind it wait for an unfinished halt (R19, R237). -/
def mayHandle (s : State) (i : Nat) (kill : Bool) : Bool :=
  match (s.cont i).halt with
  | none => true
  | some (.preempt _) => kill
  | some _ => false

/-- The wake of a command line is over: the line has been loaded (R211). -/
def takeCommand (i : Nat) (s : State) : State :=
  readLines (blockLines s i [0]) (s.mapDev fun d => { d with commandWakes := d.commandWakes.filter (· != i) })

/-- One command (R211): the word is read at a wake; a sequence already acknowledged is ignored; otherwise the command's effect comes
about with the sequence acknowledged, and the state line is written. `may` says that it can be handled now; `ls` are the lines that its effect
reads, which the host must first give up where it owns them (R164). -/
def command (i : Nat) (mine : W64 → Bool) (may : Bool) (ls : List Nat) (act : Nat → State → State) (s : State) : Out :=
  if !s.dev.commandWakes.contains i || !(Sparse.find s.dev.conts i).isSome || !may then .next s
  else
    withLines (blockLines s i [0])
      (fun s =>
        let w := commandWord s i
        let seq := (w.extractLsb' 32 32).toNat
        if seq = (s.cont i).ack then .next (takeCommand i s)
        else if mine w then withLines ls (fun s => .next (act seq (takeCommand i s))) s
        else .next s)
      s

/-- The answer to a command: its result, acknowledged, in the state line (R211, R212). -/
def answer (i seq result : Nat) (s : State) : State :=
  writeLine i (s.mapCont i fun c => { c with ack := seq, result := result })

/-- The sequence and result 0 stand in the record before an effect that writes the state line itself. -/
def acknowledged (i seq : Nat) (s : State) : State := s.mapCont i fun c => { c with ack := seq, result := 0 }

/-- A state that takes START (R215). -/
def ContState.startable : ContState → Bool
  | .idle => true
  | st => st.isEnd

/-- The entries of a wait list: the address word and the value of each valid one (R218). -/
def waitEntries (s : State) (i : Nat) : List (W64 × W64) :=
  ((List.range 12).map fun n =>
    ((BitVec.ofNat 64 (blockNat s i (0x100 + 16 * n) 8) : W64), (BitVec.ofNat 64 (blockNat s i (0x108 + 16 * n) 8) : W64))).filter
    fun e => e.1.getLsbD 63

/-- The width of a wait entry in bytes. -/
def waitWidth (w : W64) : Nat := if w.getLsbD 52 then 4 else 8

/-- The virtual address of a wait entry. -/
def waitVa (w : W64) : Nat := (w.extractLsb' 0 48).toNat

/-- Where a wait entry's word lies: none where it does not translate with read intent (R218). -/
def waitPlace (s : State) (asid : Nat) (w : W64) : Option Nat :=
  match (walkTables s asid (waitVa w) .reader).1 with
  | .found pa _ _ _ => some pa
  | .failed .. => none

/-- A wait entry that START refuses (R218). -/
def badWait (s : State) (asid : Nat) (w : W64) : Bool :=
  decide (4 ≤ (w.extractLsb' 48 4).toNat) || w.extractLsb' 53 10 != 0 || waitVa w % waitWidth w != 0 || (waitPlace s asid w).isNone

/-- The launch line of a block (R213), with its sealed copy, arguments and wait list. -/
def readLaunch (s : State) (i key : Nat) : Launch :=
  let f := fun off n => blockNat s i (0x80 + off) n
  let flags := f 0xF 1
  let im := Sparse.get { digest := [], code := [], ranges := [], scratch := [], walkMask := 0, walks := [], ringMask := 0, rings := [], entry := 0 }
    s.dev.images key
  let asid := f 0x16 2
  let ws := waitEntries s i
  { image := BitVec.ofNat 64 (f 0 8), entry := if f 8 4 = 0 then im.entry else f 8 4, contexts := f 0xC 2, perCore := f 0xE 1,
    gear := flags % 2 == 1, tether := flags / 2 % 2 == 1, shared := flags / 4 % 2 == 1, priority := flags / 8 % 8,
    watchdog := f 0x10 4, winLog := f 0x14 1, tiles := f 0x15 1, asid := asid, pack := f 0x18 4, l3index := f 0x1C 4,
    l3count := f 0x20 4, sealed := key,
    args := (List.range 8).map fun n => BitVec.ofNat 64 (blockNat s i (0xC0 + 8 * n) 8), waits := ws,
    waitLines := ws.filterMap fun e => (waitPlace s asid e.1).map (· / 64) }

/-- The checks of R213, R48 and R127 on a launch. -/
def badLaunch (s : State) (i : Nat) (l : Launch) (im : SealedCopy) : Bool :=
  let zero := fun off n => blockNat s i (0x80 + off) n == 0
  let size := l.window
  decide (l.contexts < 1) || decide (1024 < l.contexts) || decide (l.perCore < 1) || decide (4 < l.perCore) ||
    decide (l.winLog < 16) || decide (21 < l.winLog) || l.contexts % l.perCore != 0 || decide (256 < l.gang) ||
    decide (4 < l.perCore * l.tiles) || (!l.shared && decide (2 ^ 21 < l.perCore * size)) ||
    blockNat s i 0x8F 1 / 64 != 0 || decide (2 ^ 20 ≤ l.l3index) || decide (2 ^ 20 ≤ l.l3count) || !zero 0x24 28 ||
    l.entry % 32 != 0 || !(im.ranges.any fun r => decide (r.1 ≤ l.entry) && decide (l.entry + 32 ≤ r.1 + r.2)) ||
    l.waits.any (fun e => badWait s l.asid e.1) ||
    (l.pack != 0 && s.dev.conts.any fun e => e.1 != i && !e.2.state.isEnd && e.2.launch.pack == l.pack) ||
    (l.pack == 0 && (l.l3index != 0 || l.l3count != 0)) || (l.pack != 0 && decide (l.l3count < l.l3index)) ||
    decide (size < im.scratch.length) ||
    (imageRings im).any (fun e => decide (size < e.2.base + e.2.cap * 0x2000))

/-- The sealed copy that an image header's seal names (R17, R216). -/
def sealedOf (s : State) (asid image : Nat) : Option Nat :=
  match readVirtual s asid .reader (image + 0x40) 64 with
  | some d => (s.dev.images.find? fun e => e.2.digest == d).map (·.1)
  | none => none

/-- The log entries of that read (R208). -/
def sealTroubles (s : State) (i : Nat) : List (Nat × Nat) := readTroubles s (blockNat s i 0x96 2) .reader (blockNat s i 0x80 8 + 0x40) 64

/-- The log entries of the walks of a wait list: page-table lines that cannot be read (R208). -/
def waitTroubles (s : State) (i : Nat) : List (Nat × Nat) :=
  ((waitEntries s i).map fun e => readTroubles s (blockNat s i 0x96 2) .reader (waitVa e.1) 1).flatten.filter fun t => t.1 == 5

/-- A signal of a device about a `pbar 3`: each device's arrivals stand beside one another (R191), and of what it says later of its cores the
last (R245). -/
def Cont.arrive3 (src : Nat) (a : Arrival3) (c : Cont) : Cont :=
  match a.phase with
  | .arrived => { c with arrivals3 := Sparse.put c.arrivals3 (src * 2 ^ 65 + min a.nth lastNth) a }
  | .raised => { c with raised3 := Sparse.put c.raised3 src a.nth }
  | .settled => { c with settled3 := Sparse.put c.settled3 src a.nth }

/-- The arrivals of other devices that came before their pack's continuation was started here join it (R191, log entry 94); bytes refused to an
earlier one of the pack are forgotten. -/
def takeEarly (i : Nat) (s : State) : State :=
  let pack := (s.cont i).launch.pack
  let mine := s.dev.early.filter fun a => a.packId == pack
  let s := mine.foldl (fun s a => s.mapCont i (Cont.arrive3 a.src a.level3)) s
  s.mapDev fun d => { d with early := d.early.filter fun a => a.packId != pack, refused := d.refused.filter fun r => r.object.packId != pack }

/-- The offsets of the lines that hold a block's arguments and wait list (R209, R218). -/
def launchLists : List Nat := [0xC0, 0x100, 0x140, 0x180]

/-- Steps 2 to 5 of START once the image is found (R216). -/
def startWith (i seq key : Nat) (s : State) : State :=
  let s := readLines (blockLines s i launchLists) s
  let l := readLaunch s i key
  let im := Sparse.get { digest := [], code := [], ranges := [], scratch := [], walkMask := 0, walks := [], ringMask := 0, rings := [], entry := 0 }
    s.dev.images key
  let bad := badLaunch s i l im
  let s := distWrite ((s.cont i).block + 0x1C0) (leBytes 64 0) s
  let s := s.mapCont i fun c =>
    { Cont.idle c.block with ack := seq, launch := l, queuedAge := c.queuedAge, pollAge := s.refHalf }
  if bad then
    let f : FaultInfo :=
      { cls := .badLaunch, addr := 0, intent := none, slot := 0xFF, replay := 0, ctx := 0xFFFF, rank := 0xFFFF, pc := 0,
        asid := l.asid, level := 0xFF, entry := 0, repairable := false }
    enterEnd i .faulted 6 0 (writeFault i f s)
  else if l.waits.isEmpty then enterQueued i (takeEarly i s)
  else
    let s := takeEarly i s
    let s := l.waitLines.foldl (fun s n => refreshWatch n s) (writeState i (s.mapCont i fun c => { c with state := .waiting }))
    s.mapDev fun d => { d with waitWakes := d.waitWakes ++ [i] }

/-- The lines of the image header's seal that the host owns: it must give them up before START can read them (R164, R216). -/
def sealLines (s : State) (i : Nat) : List Nat := linesRead s (blockNat s i 0x96 2) .reader (blockNat s i 0x80 8 + 0x40) 64

/-- The lines that a START reads: none in a state that refuses it (R216, R224). -/
def startLines (s : State) (i : Nat) : List Nat :=
  if (s.cont i).state.startable then blockLines s i (0x80 :: launchLists) ++ sealLines s i else []

/-- `START` (R216): with result 3 nothing starts, and not before bring-up has succeeded (R268). That what the reads find wrong is logged and
interrupts the host driver also where the result is 3 is a DESIGN CHOICE (log entry 89). -/
def execStart (i : Nat) (s : State) : Out :=
  command i (isCommand 1 false) (mayHandle s i false) (startLines s i)
    (fun seq s =>
      if !(s.cont i).state.startable then answer i seq 1 s
      else
        let s := readLines (blockLines s i [0x80]) s
        let key := if s.dev.up then sealedOf s (blockNat s i 0x96 2) (blockNat s i 0x80 8) else none
        let s := logTroubles (sealTroubles s i) s
        match key with
        | none => answer i seq 3 s
        | some key => startWith i seq key (logTroubles (waitTroubles s i) s))
    s

/-- `PARK` (R215, R220). That the park count rises only where a RUNNING continuation is halted is a DESIGN CHOICE (log entry 86). -/
def execParkCmd (i : Nat) (s : State) : Out :=
  command i (isCommand 2 false) (mayHandle s i false) []
    (fun seq s =>
      match (s.cont i).state with
      | .waiting | .queued => answer i seq 0 (s.mapCont i fun c => { c with ineligible := true })
      | .running => requestHalt i (.park seq) s
      | .parked => answer i seq 0 s
      | _ => answer i seq 1 s)
    s

/-- `UNPARK` (R215, R220): what is not in the kennel, nor about to be saved for another placement, runs again in place (R224). -/
def execUnpark (i : Nat) (s : State) : Out :=
  command i (isCommand 3 false) (mayHandle s i false) []
    (fun seq s =>
      match (s.cont i).state with
      | .waiting => answer i seq 0 (s.mapCont i fun c => { c with ineligible := false })
      | .queued => pass (answer i seq 0 (s.mapCont i fun c => { c with ineligible := false }))
      | .running => answer i seq 0 s
      | .parked =>
        let s := (acknowledged i seq s).mapCont i fun c => { c with ineligible := false }
        if (s.cont i).kennelled || !roomFree s i [] then enterQueued i s
        else
          let s := writeState i (s.mapCont i fun c => { c with state := .running })
          { s with ctxs := s.ctxs.map fun e => if e.2.cont = i then (e.1, e.2.again e.1) else e }
      | _ => answer i seq 1 s)
    s

/-- `KILL` (R215): KILLED once every context has halted. It waits for the changeover pauses of its cores (R244). -/
def execKill (i : Nat) (s : State) : Out :=
  command i (isCommand 4 false) (mayHandle s i true && unpaused s i) []
    (fun seq s =>
      match (s.cont i).state with
      | .running => requestHalt i (.kill (some seq)) s
      | .waiting | .queued | .parked => endAndFree i .killed 4 0 (acknowledged i seq s)
      | _ => answer i seq 1 s)
    s

/-- The cycle count of the core on which a context stands; 0 in the kennel. -/
def State.coreCycles (s : State) (i rank : Nat) : Nat :=
  match s.hwOf i rank with
  | some h => (s.core (coreOf h)).cycles
  | none => 0

/-- RESUME with selector 0 on a pending fault: the disposition of the record (R205). -/
def applyDisposition (i seq rank : Nat) (s : State) : State :=
  let s := readLines (blockLines s i [0x1C0]) s
  match blockNat s i 0x1DB 1 with
  | 0 =>
    let s := s.mapCont i fun c => { c with faultPending := false, faultOf := none }
    answer i seq 0 (nextFault i (s.mapRank i rank (Ctx.resume (s.coreCycles i rank))))
  | 1 => requestHalt i (.kill none) (enterEnd i .faulted 3 0 (acknowledged i seq s))
  | _ => answer i seq 2 s

/-- The result of RESUME in a state where nothing can be pending, or the act (R215, R221). -/
def resumeWith (i seq : Nat) (act : State → State) (s : State) : State :=
  match (s.cont i).state with
  | .waiting => answer i seq 4 s
  | .queued | .running | .parked => act s
  | _ => answer i seq 1 s

/-- The line that a RESUME reads, at an offset of the block, where what it answers is pending: none elsewhere (R205, R222). -/
def resumeLines (s : State) (i off : Nat) (pending : Option Nat) : List Nat :=
  if pending.isSome && !(s.cont i).state.startable && (s.cont i).state != .waiting then blockLines s i [off] else []

/-- `RESUME`, selector 0 (R205). -/
def execResumeFault (i : Nat) (s : State) : Out :=
  command i (isCommand 5 false) (mayHandle s i false) (resumeLines s i 0x1C0 (s.cont i).faultOf)
    (fun seq s => resumeWith i seq
      (fun s => match (s.cont i).faultOf with
        | some rank => applyDisposition i seq rank s
        | none => answer i seq 4 s) s)
    s

/-- Whether a landing effect writes one of g1 to g8. -/
def Effect.isArg : Effect → Bool
  | .g r _ => decide (1 ≤ r) && decide (r ≤ 8)
  | _ => false

/-- The answer to a host call enters the context: g1 to g8 are the argument line's. They stand as the youngest writes at the next bundle's
count: what lands in these registers by then comes before them, and nothing was on its way to them when the call was presented (R222). -/
def Ctx.answered (args : List W64) (c : Ctx) : Ctx :=
  { c with
    call := none, regs := (args.mapIdx fun n x => (n + 1, x)).foldl (fun r e => r.writeG e.1 e.2) c.regs
    work := { c.work with landing := c.work.landing.filter fun p => !(p.eff.isArg && decide (p.due ≤ c.count)) } }

/-- `RESUME`, selector 1 (R222, R284): the values land at the next bundle's count, and the context acquires where it runs, but not after a
device trap (R352). -/
def execResumeHostCall (i : Nat) (s : State) : Out :=
  command i (isCommand 5 true) (mayHandle s i false) (resumeLines s i 0xC0 (s.cont i).callOf)
    (fun seq s => resumeWith i seq
      (fun s => match (s.cont i).callOf with
        | some rank =>
          let s := readLines (blockLines s i [0xC0]) s
          let args : List W64 := (List.range 8).map fun n => BitVec.ofNat 64 (blockNat s i (0xC0 + 8 * n) 8)
          let device := isDeviceTrap (s.cont i).code
          let s := s.mapRank i rank (Ctx.answered args)
          let s := match s.hwOf i rank with | some h => if device then s else acquireDrop h s | none => s
          answer i seq 0 (s.mapCont i fun c => { c with callPending := false, callOf := none, code := 0, callRank := 0 })
        | none => answer i seq 4 s) s)
    s

/-- `REFRESH` (R214): the counters are written with the answer. -/
def execRefresh (i : Nat) (s : State) : Out :=
  command i (isCommand 6 false) (mayHandle s i false) [] (fun seq s => writeState i (acknowledged i seq s)) s

/-- `MALFORMED_COMMAND` (R211). -/
def execMalformedCommand (i : Nat) (s : State) : Out := command i badCommand (mayHandle s i false) [] (fun seq s => answer i seq 2 s) s

/-! ### Registration (R210) -/

/-- The address of a registry entry. -/
def registryEntry (s : State) (i : Nat) : Nat := s.dev.registry + 8 * i

/-- The wake of a registry entry is over. -/
def dropRegistryWake (i : Nat) (s : State) : State :=
  s.mapDev fun d => { d with registryWakes := d.registryWakes.filter (· != i) }

/-- What the distributor does at the wake of a registry entry, once the entry's line can be loaded (R164, R210). -/
def servingEntry (i : Nat) (k : State → Out) (s : State) : Out :=
  if s.dev.registryWakes.contains i then withLines [registryEntry s i / 64] k s else .next s

/-- The entry has been loaded, and its wake is over. -/
def takeEntry (i : Nat) (s : State) : State := readLines [registryEntry s i / 64] (dropRegistryWake i s)

/-- `REGISTER_BLOCK` (R210): a block in a free entry becomes IDLE, its command line watched and read once; not where bring-up has failed
(R268). Another address in an occupied entry does nothing, and no address is refused: DESIGN CHOICE (log entry 87). -/
def execRegisterBlock (i : Nat) (s : State) : Out :=
  servingEntry i
    (fun s =>
      let block := latestNat s.store (registryEntry s i) 8
      if block = 0 || !s.dev.up then .next s
      else
        let s := takeEntry i s
        if (Sparse.find s.dev.conts i).isSome then .next s
        else
          let s := s.mapDev fun d => { d with conts := Sparse.put d.conts i (.idle block), commandWakes := d.commandWakes ++ [i] }
          .next (writeState i (refreshWatch (block / 64) s)))
    s

/-- `UNREGISTER_BLOCK` (R210): it takes effect only in IDLE and the end states; otherwise the entry is written back and logged.
Contexts of an ended continuation that still halt are waited for. -/
def execUnregisterBlock (i : Nat) (s : State) : Out :=
  servingEntry i
    (fun s0 =>
      let at' := registryEntry s0 i
      if latestNat s0.store at' 8 ≠ 0 then .next s0
      else
        let s := takeEntry i s0
        match Sparse.find s.dev.conts i with
        | none => .next s
        | some c =>
          if c.state.startable then
            if c.halt.isNone then .next (refreshWatch (c.block / 64) (s.mapDev fun d => { d with conts := Sparse.erase d.conts i }))
            else .next s0
          else .next (logError at' 3 3 (homeDie (at' / 64)) 0xFFFF (distWrite at' (leBytes 8 c.block) s)))
    s

/-! ### The wait list (R218) -/

/-- Whether a condition of R218 holds of a word and the entry's value. -/
def waitHolds (w value : W64) (x : Nat) : Bool :=
  let v := if w.getLsbD 52 then (value.extractLsb' 0 32).toNat else value.toNat
  match (w.extractLsb' 48 4).toNat with
  | 0 => x == v
  | 1 => x != v
  | 2 => decide (v ≤ x)
  | _ => decide (x < v)

/-- One evaluation in entry order: whether all held, or none while the host must give a line up (R218). An entry that translated at START and
does no longer does not hold: a DESIGN CHOICE (log entry 88). -/
def evaluateList (asid : Nat) : List (W64 × W64) → State → Option Bool × State
  | [], s => (some true, s)
  | e :: es, s =>
    match waitPlace s asid e.1 with
    | none => (some false, logTroubles ((readTroubles s asid .reader (waitVa e.1) 1).filter fun t => t.1 == 5) s)
    | some pa =>
      match distLoad pa (waitWidth e.1) s with
      | none => (none, askHost (pa / 64) s)
      | some (x, s) =>
        let (r, s) := evaluateList asid es s
        (r.map fun b => b && waitHolds e.1 e.2 x, s)

/-- The evaluation of a WAITING continuation's list; where it holds, QUEUED. -/
def evaluateWaits (i : Nat) (s : State) : State :=
  let l := (s.cont i).launch
  match evaluateList l.asid l.waits s with
  | (none, s) => s
  | (some held, s) =>
    let s := s.mapDev fun d => { d with waitWakes := d.waitWakes.filter (· != i) }
    if held then l.waitLines.foldl (fun s n => refreshWatch n s) (enterQueued i s) else s

/-- `WAIT_LIST_EVALUATION` (R218): at START, and after a write to a watched line of the list. -/
def execWaitListEvaluation (i : Nat) (s : State) : Out :=
  if (s.cont i).state = .waiting ∧ s.dev.waitWakes.contains i then .next (evaluateWaits i s) else .next s

/-- `WAIT_LIST_POLL` (R218): every 10 µs while an entry names host memory. -/
def execWaitListPoll (i : Nat) (s : State) : Out :=
  let c := s.cont i
  if c.state = .waiting ∧ c.launch.waitLines.any isHostLine ∧ c.pollAge + micros 10 ≤ s.refHalf then
    .next (evaluateWaits i (leaveIdle (s.mapCont i fun c => { c with pollAge := s.refHalf })))
  else .next s

/-! ### The watchdog (R239) -/

/-- The window of a continuation's watchdog in half reference ticks. -/
def Launch.watchdogWindow (l : Launch) : Nat := micros (if l.watchdog = 0 then 100000 else l.watchdog)

/-- `WATCHDOG_EXPIRY` (R239): stage 1 requests a halt. A PARK that still halts is answered as in the end state to come; a KILL that still
halts ends the continuation itself. -/
def execWatchdogExpiry (i : Nat) (s : State) : Out :=
  let c := s.cont i
  let live := c.state == .running || c.state == .queued || c.state == .parked
  let killed := match c.halt with | some (.kill _) => true | _ => false
  if live ∧ !killed ∧ c.stage = 0 ∧ c.launch.watchdogWindow ≤ c.clock then
    .next (requestHalt i .watchdog (s.mapCont i fun c => { c.abandonHalt with stage := 1, stageAge := s.refHalf }))
  else .next s

/-- Whether a core has not stopped for a continuation: a context of it holds a window open there. -/
def stillRuns (s : State) (i c : Nat) : Bool := s.ctxs.any fun e => e.2.cont == i && coreOf e.1 == c && e.2.work.openHold.isSome

/-- What a core discards of a continuation: queued matrix operations of its contexts, its commands, its counts (R239). -/
def Core.reset (i : Nat) (hs : List Nat) (k : Core) : Core :=
  { k with
    queue := k.queue.filter fun o => !hs.contains o.ctx
    channels := k.channels.filter fun x => x.2.cont != i
    counts := k.counts.filter fun m => m.cont != i }

/-- `WATCHDOG_STAGE_2` (R239): 20 µs later, cores that have not halted reset the continuation's issue and engine state. -/
def execWatchdogStage2 (i : Nat) (s : State) : Out :=
  let c := s.cont i
  if c.stage = 1 ∧ c.halt = some .watchdog ∧ c.stageAge + micros 20 ≤ s.refHalf then
    let hs := s.ctxsOf i
    .next { s.mapCont i (fun c => { c with stage := 2, stageAge := s.refHalf }) with
      ctxs := s.ctxs.map fun e =>
        if e.2.cont = i ∧ stillRuns s i (coreOf e.1) then
          (e.1, { e.2 with work := { Work.empty with nextStream := e.2.work.nextStream } })
        else e
      cores := s.cores.map fun e => if stillRuns s i e.1 then (e.1, e.2.reset i hs) else e }
  else .next s

/-- The fenced-core mask of the device control block (R265). -/
def fencedMask (s : State) : Nat := ((List.range 256).filter fun c => (s.core c).fenced).foldl (fun m c => m + 2 ^ c) 0

/-- `WATCHDOG_STAGE_3` (R239): 100 µs later, a core that has not acknowledged is fenced out of service with any other that still runs, and
the continuation is KILLED. The kind 0x80 of the notice to the management controller is a DESIGN CHOICE (log entry 102). -/
def execWatchdogStage3 (i c : Nat) (s : State) : Out :=
  let k := s.cont i
  if k.stage = 2 ∧ k.halt = some .watchdog ∧ k.stageAge + micros 100 ≤ s.refHalf ∧ k.seats.any (fun x => x.core == c) ∧ unpaused s i then
    let lost := (k.seats.map Seat.core).filter fun x => x == c || stillRuns s i x
    let s := lost.foldl (fun s x => s.mapCore x fun y => { y with fenced := true }) s
    let s := distWrite (s.dev.dcb + 0xD0) (leBytes 32 (fencedMask s)) s
    .next (endAndFree i .killed 5 0 (s.output (.management 0x80)))
  else .next s

/-! ### The rebase (R147) -/

/-- What barrier objects and full/empty words carry, less an amount. -/
def shiftReleased (n : Nat) (xs : Sparse (Nat × Nat)) : Sparse (Nat × Nat) :=
  (xs.map fun e => (e.1, (e.2.1 - n, e.2.2 - n))).filter fun e => e.2 != (0, 0)

/-- The parts of a continuation in the kennel with every timestamp less an amount. -/
def shiftKennel (n : Nat) (f : Ctx → Ctx) (ps : List KennelPart) : List KennelPart :=
  ps.map fun p => match p with
    | .ctx r c => .ctx r (f c)
    | .window k j words full marks released => .window k j words full marks (shiftReleased n released)
    | p => p

/-- The least timestamp of a context, by which the model chooses what a rebase subtracts (log entry 65). -/
def leastPts (s : State) : Nat :=
  let m := s.ctxs.foldl (fun m e => min m e.2.pts) s.dev.largest
  s.dev.conts.foldl (fun m e => e.2.kennel.foldl (fun m p => match p with | .ctx _ c => min m c.pts | _ => m) m) m

/-- Every timestamp less an amount; those below it become the new zero (R147). -/
def shiftTimes (n : Nat) (s : State) : State :=
  let ctx := fun (c : Ctx) => { c with pts := c.pts - n, work := { c.work with prefs := c.work.prefs.map fun p => { p with pts := p.pts - n } } }
  { s with
    ctxs := s.ctxs.map fun e => (e.1, ctx e.2)
    cores := s.cores.map fun e => (e.1, { e.2 with counts := e.2.counts.map fun m => { m with ts := m.ts - n } })
    store := { s.store with
      dirs := (s.store.dirs.map fun e => (e.1, { e.2 with wts := e.2.wts - n, rts := e.2.rts - n })).filter fun e => e.2 != clearDir e.1
      copies := s.store.copies.map fun e => (e.1, { e.2 with wts := e.2.wts - n, rts := e.2.rts - n })
      released := shiftReleased n s.store.released }
    dev := { s.dev with
      largest := s.dev.largest - n
      conts := s.dev.conts.map fun e => (e.1, { e.2 with kennel := shiftKennel n ctx e.2.kennel, endTop := e.2.endTop - n }) } }

/-- What a rebase subtracts: one less than the least timestamp of a context, so that every lease that has expired everywhere stays expired
(R147, log entry 65). -/
def rebaseAmount (s : State) : Nat := leastPts s - 1

/-- `TIMESTAMP_REBASE` (R147): once a timestamp has passed 2^47, every core halts; then all timestamps shift and issue resumes. -/
def execTimestampRebase (s : State) : Out :=
  let runs := (s.dev.conts.filter fun e => e.2.state == .running).map (·.1)
  if s.dev.rebase then
    if runs.all fun i => (s.cont i).halt == some .rebase && canHalt s i && (s.ctxs.all fun e => e.2.cont != i || e.2.halted) then
      let s := shiftTimes (rebaseAmount s) s
      let s := runs.foldl (fun s i => s.mapCont i fun c => { c with halt := none }) s
      .next (pass { s.mapDev (fun d => { d with rebase := false }) with
        ctxs := s.ctxs.map fun e => if runs.contains e.2.cont then (e.1, e.2.again e.1) else e })
    else
      .next (runs.foldl (fun s i => if (s.cont i).halt.isNone then requestHalt i .rebase s else s) s)
  else if 2 ^ 47 < topTimestamp s then
    .next (runs.foldl (fun s i => if (s.cont i).halt.isNone then requestHalt i .rebase s else s)
      (s.mapDev fun d => { d with rebase := true }))
  else .next s

/-- Whether a context is able to issue, in the sense of R145. -/
def Ctx.able (c : Ctx) : Bool := !c.halted && c.fault.isNone && c.call.isNone && c.ended.isNone

/-- A context's timestamp advances by 1 for every 16 reference ticks that it has been able to issue (R145). -/
def Ctx.ptsTick (c : Ctx) : Ctx := if 32 ≤ c.ptsTicks then { c with ptsTicks := c.ptsTicks - 32, pts := c.pts + 1 } else c

/-- `PTS_TICK` (R145): each context that has been able to issue for 16 reference ticks advances its timestamp. Time itself sees to it at every
tick. -/
def execPtsTick (s : State) : Out := .next { s with ctxs := s.ctxs.map fun e => (e.1, e.2.ptsTick) }

end Sys2Proof.Machine
end

