-- ==== Sys2Proof/Machine/Power.lean ====
section
/-! DEFINITION. Gears (R240 to R245), energy windows, the leash and the token ring (R246 to R250, R258), the bark (R255, R256),
idle states (R259, R260), the rotation of contexts (R232). -/

namespace Sys2Proof.Machine

/-! ### Gears -/

/-- Half reference ticks of one core cycle in a gear (R240, R256, R257). -/
def cycleLength (run : Bool) : Nat := if run then 2 else 5

/-- Readying of a rail takes at most 142 ns, in half reference ticks (R242). -/
def readyingTime : Nat := 369

/-- `GEAR_SETTLE_START` (R242): the target differs from the core gear and no settling runs. -/
def execGearSettleStart (c : Nat) (s : State) : Out :=
  let k := s.core c
  let t := targetRun s c
  if k.settling.isNone ∧ t ≠ k.run then .next (s.mapCore c fun k => { k with settling := some t, readying := readyingTime })
  else .next s

/-- Half reference ticks of the core's current cycle, which a bark may stretch (R256). -/
def Core.thisCycle (k : Core) : Nat := cycleLength k.run * if k.long then 2 else 1

/-- Whether a core stands at the start of one of its cycles. -/
def Core.atCycleStart (k : Core) : Bool := k.cycleLeft == k.thisCycle

/-- `GEAR_CHANGEOVER` (R242): the rail is ready, at the latest when its time is over, and the core pauses for four cycles of the
old clock, from the start of a cycle. The counter stands one above the cycles left. -/
def execGearChangeover (c : Nat) (s : State) : Out :=
  let k := s.core c
  if k.settling.isSome ∧ k.pause = 0 ∧ !k.issued ∧ k.atCycleStart then .next (s.mapCore c fun k => { k with pause := 5 })
  else .next s

/-- A bark reaches a core in its current cycle (R256): six stretched cycles, and 64 cycles of halving, which an open hold window
defers (R121); in a changeover pause it is taken when the pause ends. The counter of the halving stands one above the cycles left. -/
def Core.takeBark (held : Bool) (k : Core) : Core :=
  if k.pause ≠ 0 then { k with barkOwed := true }
  else if held then { k with stretch := 6, halve := 0, halveOwed := true, barkOwed := false }
  else { k with stretch := 6, halve := 65, barkOwed := false }

/-- `CHANGEOVER_END` (R242, R244): the clock of the new gear runs, still stretched where a bark says so (R256), and the staging buffer
writes its contents in arrival order. -/
def execChangeoverEnd (c : Nat) (s : State) : Out :=
  let k := s.core c
  match k.settling with
  | some t =>
    if k.pause ≠ 1 then .next s
    else
      let s := s.mapStore fun st => k.staging.foldl (fun st w => scratchPutBytes st c w.addr w.data) st
      let s := s.mapCore c fun k =>
        { k with
          run := t, settling := none, readying := 0, pause := 0, staging := []
          cycleLeft := Core.thisCycle { k with run := t } }
      .next (if k.barkOwed then s.mapCore c (Core.takeBark (s.coreHeld c)) else s)
  | none => .next s

/-! ### Energy windows (R246, R249, R250) -/

/-- Whether a run of 16 windows of a context on a core waits to be closed. -/
def runDue (s : State) (c : Nat) : Bool := (residents s c).any fun e => decide (16 ≤ e.2.energy.windows)

/-- A window more in the energy account of a context, with what the sensors measured of it (R250). -/
def Ctx.window1 (h : Nat) (c : Ctx) : Ctx :=
  let e := c.energy
  { c with energy := { e with
      windows := e.windows + 1, quiet := e.quiet + 1, index := e.index + 1, measured := e.measured + Config.measuredEnergy h e.index } }

/-- What the sum of a window exceeds the grant by, in the scale of the comparison of R246. -/
def Core.overrun (k : Core) : Nat := if k.run then k.sum - k.grant else (3 * k.sum - 8 * k.grant) / 8

/-- `ENERGY_WINDOW_ROLL` (R246, R249): after 256 core cycles; the excess is deducted from the grant of the next window. -/
def execEnergyWindowRoll (c : Nat) (s : State) : Out :=
  let k := s.core c
  if k.windowCycle < 256 ∨ runDue s c then .next s
  else
    let s := s.mapCore c fun k =>
      { k with charges := (k.sum :: k.charges).take 4, grant := k.nextGrant - k.overrun, sum := 0, stalled := false,
               windowCycle := k.windowCycle - 256 }
    let roll := fun (e : Nat × Ctx) => if coreOf e.1 = c ∧ !e.2.halted then (e.1, e.2.window1 e.1) else e
    .next { s with ctxs := s.ctxs.map roll }

/-- `ENERGY_STALL` (R249): the running sum has passed the grant, and no bundle issues for the rest of the window. -/
def execEnergyStall (c : Nat) (s : State) : Out :=
  if (s.core c).pastGrant ∧ !s.coreHeld c then .next (s.mapCore c fun k => { k with stalled := true }) else .next s

/-- `EMIS_RUN_CLOSE` (R250): the sixteenth window of a run has closed. -/
def execEmisRunClose (h : Nat) (s : State) : Out :=
  let e := (s.ctx h).energy
  if !(Sparse.find s.ctxs h).isSome || decide (e.windows < 16) then .next s
  else
    let e' := { e with declared := 0, measured := 0, windows := 0 }
    if 8 * e.declared < 7 * e.measured then
      .next (s.mapCtx h fun c =>
        { c.countEvent .emis 0 with energy := { e' with step := min 3 (e.step + 1), quiet := 0 } })
    else .next (s.mapCtx h fun c => { c with energy := e' })

/-- `SURCHARGE_DECAY` (R250): 64 windows in a row without a mismatch; a run whose last window has closed is judged first. -/
def execSurchargeDecay (h : Nat) (s : State) : Out :=
  let e := (s.ctx h).energy
  if (Sparse.find s.ctxs h).isSome ∧ 64 ≤ e.quiet ∧ e.windows < 16 then
    .next (s.mapCtx h fun c => { c with energy := { e with step := e.step - 1, quiet := 0 } })
  else .next s

/-! ### The leash and the module budget (R248, R258) -/

/-- The demand of a core (R248). -/
def Core.demand (k : Core) : Nat := max 1024 (5 * k.charges.foldl max 0 / 4)

/-- The cores of a die that hold a context. -/
def busyCores (s : State) (d : Nat) : List Nat :=
  ((List.range 64).map (64 * d + ·)).filter fun c => !(residents s c).isEmpty

/-- The demands of a die together: those of the cores that hold a context, to which an empty core adds no least demand, a DESIGN CHOICE (log entry
103). -/
def dieDemand (s : State) (d : Nat) : Nat := ((busyCores s d).map fun c => (s.core c).demand).sum

/-- The grant for a demand when a die's demands exceed its budget: what lies above 1,024 is scaled down in proportion (R248). -/
def scaledGrant (budget total demand : Nat) : Nat :=
  min 16383 (if total ≤ budget then demand else max 1024 (demand * budget / total))

/-- `LEASH_RECOMPUTE` (R248): every microsecond the die sets the grants that its cores' next windows take, against the budget that it has now
(R258). -/
def execLeashRecompute (d : Nat) (s : State) : Out :=
  if 4 ≤ d ∨ s.refHalf < (s.die d).leashAge + micros 1 then .next s
  else
    let total := dieDemand s d
    let budget := s.budgetNow d
    let busy := busyCores s d
    let s := s.mapDie d fun x => { x with leashAge := s.refHalf }
    .next { s with cores := s.cores.map fun e =>
      if e.1 / 64 = d then
        (e.1, { e.2 with nextGrant := if busy.contains e.1 then scaledGrant budget total e.2.demand else 0 })
      else e }

/-- One die's turn with the token: it gives what it did not spend in the microsecond just ended and takes up to its shortfall (R258). -/
def dieToken (t : Nat × State) (d : Nat) : Nat × State :=
  let (token, s) := t
  let share := s.dev.record.shares.getD d 0
  let token := token + (share - (s.die d).last)
  let take := min token (dieDemand s d - share)
  (token - take, s.mapDie d fun x => { x with budget := share + take })

/-- The start of the microsecond that runs. -/
def State.microStart (s : State) : Nat := s.refHalf / micros 1 * micros 1

/-- `TOKEN_RING` (R258): every microsecond the token goes round the dies; what is left on it is dropped. What it gave holds until the
microsecond in which it came is over. -/
def execTokenRing (s : State) : Out :=
  if s.refHalf < s.dev.tokenAge + micros 1 then .next s
  else .next (([0, 1, 2, 3].foldl dieToken (0, s)).2.mapDev fun d => { d with tokenAge := s.microStart })

/-! ### The bark (R255, R256) -/

/-- The key of a droop detector: die, quadrant, rail. -/
def detector (d q : Nat) (run : Bool) : Nat := 8 * d + 2 * q + if run then 1 else 0

/-- Whether a detector ignores its triggers; the counter stands one above the time left (R256). -/
def blanked (s : State) (d q : Nat) (run : Bool) : Bool := 1 < Sparse.get 0 s.dev.blank (detector d q run)

/-- The cores on whose rail a detector barks: clocked, of its quadrant and rail. -/
def barkCores (s : State) (d q : Nat) (run : Bool) : List Nat :=
  ((List.range 16).map (64 * d + 16 * q + ·)).filter fun c => (s.core c).run == run && !(s.core c).gated

/-- Half reference ticks from a bark until its detector hears triggers again (R256): the rest of the cycle in which it reaches its cores, then
64 cycles of the rail's clock, six of them stretched. -/
def blankTime (s : State) (cores : List Nat) (run : Bool) : Nat :=
  cores.foldl (fun m c => max m (s.core c).cycleLeft) 0 + 70 * cycleLength run

/-- A bark is raised (R255, R256): it reaches the cores of the quadrant on the rail, and the detector is blanked. -/
def raiseBark (d q : Nat) (run : Bool) (s : State) : State :=
  let cores := barkCores s d q run
  let t := cores.foldl (fun s c => s.mapCore c (Core.takeBark (s.coreHeld c))) s
  t.mapDev fun x => { x with blank := Sparse.put x.blank (detector d q run) (blankTime s cores run + 1) }

/-- `BARK` (R255): the rail trigger, which a voltage outside the model pulls. -/
def execBark (d q : Nat) (run : Bool) (s : State) : Out :=
  if 4 ≤ d ∨ 4 ≤ q ∨ blanked s d q run then .next s else .next (raiseBark d q run s)

/-- `BARK_END` (R256): the halving of a core and the blanking of its detector have run out. -/
def execBarkEnd (c : Nat) (s : State) : Out :=
  let k := s.core c
  let key := detector (c / 64) (c % 64 / 16) k.run
  let s := if k.halve = 1 then s.mapCore c fun k => { k with halve := 0 } else s
  .next (if Sparse.get 0 s.dev.blank key = 1 then s.mapDev fun d => { d with blank := Sparse.erase d.blank key } else s)

/-- The active lanes of the VA and VB slots of a bundle reach the threshold of the quadrant (R255). -/
def wakeTriggered (s : State) (h lanes : Nat) : Bool :=
  let c := coreOf h
  let w := ((s.dev.record.droop.getD (c / 16) 0).extractLsb' 10 7).toNat
  let slept := match (s.ctx h).vecSince with | none => true | some x => decide (x + 256 < (s.core c).cycles)
  w != 0 && decide (w ≤ lanes) && slept

/-- The wake trigger at the issue of a bundle (R255). -/
def wakeTrigger (h lanes : Nat) (s : State) : State :=
  let c := coreOf h
  let run := (s.core c).run
  if wakeTriggered s h lanes && !blanked s (c / 64) (c % 64 / 16) run then raiseBark (c / 64) (c % 64 / 16) run s else s

/-! ### Idle states (R259, R260) -/

/-- A context around which the package may be idle (R259). -/
def Ctx.idles (c : Ctx) : Bool := c.halted || c.fault.isSome || c.call.isSome || c.work.park.isSome

/-- Whether the package is idle (R259). -/
def packageIdle (s : State) : Bool :=
  s.ctxs.all (fun e => e.2.idles) && s.cores.all (fun e => e.2.channels.isEmpty) && s.dev.sealBusy.isNone && s.dev.shootBusy.isNone &&
    !s.dev.rebase && decide (s.dev.hostQuiet + micros 10 ≤ s.refHalf)

/-- The latency tolerance in the device control block (R265). -/
def tolerance (s : State) : Nat := latestNat s.store (s.dev.dcb + 0x28) 4

/-- Whether the polling of a wait list bars S2 and S3 (R259). -/
def pollsHost (s : State) : Bool := s.dev.conts.any fun e => e.2.state == .waiting && e.2.launch.waitLines.any isHostLine

/-- The resume time of an idle state in microseconds (R259). -/
def resumeTime : Nat → Nat
  | 1 => 2
  | 2 => 40
  | _ => 400

/-- The deepest permitted idle state (R259). -/
def deepestIdle (s : State) : Nat :=
  let t := tolerance s
  if 400 ≤ t ∧ !pollsHost s then 3 else if 40 ≤ t ∧ !pollsHost s then 2 else if 2 ≤ t then 1 else 0

/-- `IDLE_ENTRY` (R259): the package has been idle for the resume time of the deepest permitted state. The cores are gated; all state
survives (R260). The tolerance is loaded, which the host must first give up where it owns its line (R164). -/
def execIdleEntry (level : Nat) (s : State) : Out :=
  if s.dev.idle = 0 ∧ level ≠ 0 ∧ packageIdle s ∧ micros 2 ≤ s.dev.idleAge then
    withLines [(s.dev.dcb + 0x28) / 64]
      (fun s =>
        if level = deepestIdle s ∧ micros (resumeTime level) ≤ s.dev.idleAge then
          let s := readLines [(s.dev.dcb + 0x28) / 64] s
          let s := (List.range 256).foldl (fun s c => s.mapCore c fun k => { k with gated := true }) s
          .next (s.mapDev fun d => { d with idle := level })
        else .next s)
      s
  else .next s

/-- `IDLE_RESUME` (R260): what ends an idle state lies with the host, the fabric, the management controller or a timer. -/
def execIdleResume (s : State) : Out := .next (leaveIdle s)

/-! ### Rotation (R232) -/

/-- `ISSUE_ROTATION` (R232): after 4,096 core cycles of issue the context goes behind the ready ones of its priority; an open hold window
defers it. -/
def execIssueRotation (h : Nat) (s : State) : Out :=
  if 4096 ≤ (s.ctx h).runCycles ∧ (Sparse.find s.ctxs h).isSome ∧ !s.coreHeld (coreOf h) then .next (goBehind h s) else .next s

end Sys2Proof.Machine
end

