-- ==== Sys2Proof/Machine/Seal.lean ====
section
/-! DEFINITION. The seal engine's checks of an image and the seal it gives (R37 to R41). -/

namespace Sys2Proof.Machine

/-! ### Destinations (R41) -/

/-- One destination. -/
inductive Dest where
  | g (n : Nat)
  | v (n : Nat)
  | m (n : Nat)
  | q (n : Nat)
  | ps (n : Nat)
  | nf (n : Nat)
  | sys (n : Nat)
  deriving DecidableEq, Repr

/-- A `g` register as a destination; `g0` is none. -/
def destG (d : Reg) : List Dest := if d = 0 then [] else [.g d.toNat]

/-- An `m` register as a destination; `m0` is none. -/
def destM (d : Reg3) : List Dest := if d = 0 then [] else [.m d.toNat]

/-- Every stage predicate. -/
def destQ : List Dest := (List.range 8).map Dest.q

/-- A system register as a destination of `wrsr`: `qbits` stands for the predicates. Flags raised and counts added are no
destinations, but two `wrsr` of one register conflict, whichever it is (R41, R372). -/
def destSys : SysReg → List Dest
  | .qbits => destQ
  | n => [.sys (sysRegNumber n).toNat]

/-- The destinations that an instruction names or writes implicitly (R41). A `wrsr` of `rb` conflicts with `lsetup` too (R372). -/
def destinations : Instr → List Dest
  | .add d .. | .sub d .. | .mul d .. | .mulh d .. | .div d .. | .rem d .. | .and d .. | .or d .. | .xor d .. | .andn d .. | .shl d ..
  | .shr d .. | .sra d .. | .min d .. | .max d .. | .clz d .. | .popc d .. | .movGG d .. | .movGM d .. | .sel d .. | .addi d ..
  | .li d .. | .lih d .. | .addr d .. | .mpop d .. | .mfirst d .. | .ld d .. | .lds d .. | .ldf d .. | .jr d .. | .time d
  | .cycles d | .rdsr d .. | .rstat _ d | .atadd d .. | .atand d .. | .ator d .. | .atxor d .. | .atmin d .. | .atmax d ..
  | .atswp d .. | .atcas d .. => destG d
  | .call _ => [.g 63]
  | .movMG d _ | .mand d .. | .mor d .. | .mnot d _ | .vcmp _ d .. => destM d
  | .cmp n .. => [.q n.toNat]
  | .loop _ => [.sys 0, .sys 1, .sys 2] ++ destQ
  | .lsetup .. => [.sys 0, .sys 1, .sys 2] ++ destQ
  | .wrsr _ n => destSys n
  | .fmtsetImm n _ | .fmtsetReg n _ => [.nf n.toNat]
  | .vadd d .. | .vsub d .. | .vmul d .. | .vfma d .. | .vmin d .. | .vmax d .. | .vabs d .. | .vneg d .. | .vand d .. | .vor d ..
  | .vxor d .. | .vshl d .. | .vshr d .. | .vsra d .. | .vsel d .. | .vmov d .. | .vbcast d .. | .vperm d .. | .vrot d ..
  | .vcvt d .. | .vpack d .. | .vunpk d .. | .vdot4 d .. | .vscan d .. | .vrcp d .. | .vrsq d .. | .vsqrt d .. | .vexp2 d ..
  | .vlog2 d .. | .vtanh d .. | .vld d .. | .vldf d .. | .vldm d .. | .vgath d .. | .sbind d .. | .sfree d => [.v d.toNat]
  | .vred _ n .. => [.ps n.toNat]
  | .vdrain d n .. => [.ps n.toNat, .v d.toNat]
  | _ => []

/-! ### Bundles (R39, R40) -/

/-- A bundle as read for sealing: its words, and what slots 0 to 6 read as. -/
structure RawBundle where
  words : List W32
  slots : List Decoded

/-- Words to a bundle. -/
def rawBundle (ws : List W32) : RawBundle := { words := ws, slots := (ws.take 7).mapIdx decodeSlot }

/-- The instruction of a slot, where its word is one. -/
def RawBundle.instr? (b : RawBundle) (k : Nat) : Option Instr :=
  match b.slots[k]? with
  | some (.ok i) => some i
  | _ => none

/-- The guard code of a slot (R28). -/
def RawBundle.guardOf (b : RawBundle) (k : Nat) : Nat := ((decodeSched (b.words.getD 7 0)).guard.getD k 0).toNat

/-- The destinations of a slot; a word that is no instruction names none. -/
def RawBundle.dests (b : RawBundle) (k : Nat) : List Dest := ((b.instr? k).map destinations).getD []

/-- Whether a slot names a destination that a lower one names (E-10). -/
def RawBundle.conflicts (b : RawBundle) (k : Nat) : Bool := (b.dests k).any fun d => (List.range k).any fun j => (b.dests j).contains d

/-- Instructions that no hold window contains (E-30). -/
def barredFromHold : Instr → Bool
  | .br _ | .bc .. | .call _ | .jr .. | .ret | .loop _ | .done _ | .yield | .park .. | .wait .. | .trap _ | .brk _ | .gear ..
  | .bwait .. | .pbar .. | .ldf .. | .vldf .. | .ste .. | .vste .. => true
  | _ => false

/-- The bundles that the window of a bundle's `hold` covers; 0 where it holds none. -/
def RawBundle.holds (b : RawBundle) : Nat :=
  match b.instr? 4 with
  | some (.hold _ _ _ _ n) => n.toNat
  | _ => 0

/-- Whether slot 0 of a bundle is a `loop` refused for its forward target (E-20). -/
def RawBundle.forwardLoop (b : RawBundle) : Bool := match b.slots with | .error .forwardLoop :: _ => true | _ => false

/-- Whether a bundle holds an instruction that a hold window may not contain; a `loop` with a forward target is one too. That no other
refused word counts as one is a DESIGN CHOICE (log entry 58). -/
def RawBundle.barred (b : RawBundle) : Bool :=
  b.forwardLoop || (List.range 7).any fun k => ((b.instr? k).map barredFromHold).getD false

/-- Whether slot 0 of a bundle ends a code segment (E-29). -/
def RawBundle.closes (b : RawBundle) : Bool :=
  b.guardOf 0 == 0 &&
    (match b.instr? 0 with
     | some (.br _) | some (.jr ..) | some .ret | some (.done _) => true
     | _ => false)

/-- The byte offset that a branch word of slot 0 in the bundle at `off` names (R52). -/
def branchTarget (off : Nat) (w : W32) : Option Int :=
  let m := (fld w 26 6).toNat
  if m = 0x10 ∨ m = 0x11 ∨ m = 0x12 ∨ m = 0x15 then some ((off : Int) + 32 * (fld w 0 22).toInt) else none

/-- Every code charged to a slot of the j-th bundle of a segment at `off` (R39, R40). -/
def slotCodes (inside : Int → Bool) (off : Nat) (bs : List RawBundle) (j : Nat) (b : RawBundle) (k : Nat) : List SealCode :=
  let word := match b.slots[k]? with | some (.error c) => [c] | _ => []
  let w := b.words.getD k 0
  let code := fun (c : SealCode) (p : Bool) => if p then [c] else []
  let far := match branchTarget (off + 32 * j) w with | some t => !inside t | none => false
  let n := b.holds
  let window := (bs.drop (j + 1)).take n
  let inner := ((bs.take j).mapIdx fun i x => (i, x)).any fun e => decide (j ≤ e.1 + e.2.holds)
  word ++ code .conflict (b.conflicts k) ++ code .guardOnEmpty (w == 0 && b.guardOf k != 0) ++
    (if k = 0 then code .targetOutside far ++ code .fallThrough (j + 1 == bs.length && !b.closes) else []) ++
    (if k = 4 && n != 0 then
      code .holdWindow (decide (bs.length ≤ j + n) || window.any RawBundle.barred) ++ code .nestedHold inner
     else [])

/-- The lowest of a list of codes. -/
def lowestCode (cs : List SealCode) : Option SealCode :=
  cs.foldl (fun (b : Option SealCode) c => match b with | some x => if c.num < x.num then some c else b | none => some c) none

/-- The verdict on one bundle: the lowest code of its lowest faulting slot (R39). -/
def bundleCode (inside : Int → Bool) (off : Nat) (bs : List RawBundle) (j : Nat) (b : RawBundle) : Option SealCode :=
  (List.range 7).findSome? fun k => lowestCode (slotCodes inside off bs j b k)

/-- The verdict on a code segment: bundle offset and code of its lowest refused bundle. -/
def segmentCode (inside : Int → Bool) (off : Nat) (bs : List RawBundle) : Option (Nat × SealCode) :=
  (bs.mapIdx fun j b => (j, b)).findSome? fun e => (bundleCode inside off bs e.1 e.2).map fun c => (off / 32 + e.1, c)

/-! ### The header (R38, R40) -/

/-- A segment of an image: kind, offset, size. -/
structure Segment where
  kind : Nat
  off : Nat
  size : Nat
  deriving DecidableEq, Repr

/-- A little-endian field of a header. -/
def headerNat (h : List Byte) (off n : Nat) : Nat := ofLeBytes ((h.drop off).take n)

/-- Whether header bytes are all zero. -/
def headerZero (h : List Byte) (off n : Nat) : Bool := ((h.drop off).take n).all (· == 0)

/-- The segments that the table lists, at most sixteen. -/
def headerSegments (h : List Byte) : List Segment :=
  (List.range (min (headerNat h 0xC 2) 16)).map fun i =>
    { kind := headerNat h (0x100 + 16 * i) 4, off := headerNat h (0x104 + 16 * i) 4, size := headerNat h (0x108 + 16 * i) 4 }

/-- Whether two byte ranges share a byte. -/
def sharesByte (a n b m : Nat) : Bool := decide (0 < n) && decide (0 < m) && decide (a < b + m) && decide (b < a + n)

/-- Whether two segments of a list overlap. -/
def overlapping : List Segment → Bool
  | [] => false
  | x :: xs => xs.any (fun y => sharesByte x.off x.size y.off y.size) || overlapping xs

/-- E-22. A segment count of 0 or above 16 makes the table malformed. -/
def badSegmentTable (h : List Byte) (segs : List Segment) : Bool :=
  headerNat h 0xC 2 == 0 || decide (16 < headerNat h 0xC 2) || overlapping segs || decide (1 < (segs.filter (·.kind == 2)).length) ||
    segs.any fun x => x.kind == 0 || decide (3 < x.kind) || sharesByte 0 0x500 x.off x.size || decide (headerNat h 8 4 < x.off + x.size) ||
      (x.kind == 1 && (x.off % 32 != 0 || x.size % 32 != 0))

/-- E-25: the fields that R38 does not list. That kind, offset and size of the segment entries beyond the segment count are among them
is a DESIGN CHOICE (log entry 58). -/
def badReserved (h : List Byte) (segs : List Segment) : Bool :=
  !headerZero h 0x15 3 || !headerZero h 0x20 32 || !headerZero h 0x88 120 || !headerZero h 0x480 128 ||
    !headerZero h (0x100 + 16 * segs.length) (16 * (16 - segs.length)) ||
    (List.range segs.length).any fun i => headerNat h (0x10C + 16 * i) 4 != 0

/-- A walk record that E-26 refuses. -/
def badWalkRecord (h : List Byte) (i : Nat) : Bool :=
  let w := fun j => headerNat h (0x200 + 32 * i + 8 * j) 8
  if headerNat h 0xE 2 / 2 ^ i % 2 = 0 then w 0 != 0 || w 1 != 0 || w 2 != 0 || w 3 != 0
  else
    decide (4 < w 0 % 16) || decide (3 < w 0 / 16 % 8) || w 0 / 128 % 2 != 0 || w 0 / 2 ^ 26 != 0 || w 1 / 2 ^ 60 != 0 || w 3 / 2 ^ 52 != 0

/-- A ring record that E-27 refuses (R127). -/
def badRingRecord (h : List Byte) (i : Nat) : Bool :=
  let base := headerNat h (0x400 + 16 * i) 8
  let geo := headerNat h (0x408 + 16 * i) 8
  if headerNat h 0x14 1 / 2 ^ i % 2 = 0 then base != 0 || geo != 0
  else badRing (BitVec.ofNat 64 base) (BitVec.ofNat 64 geo)

/-- The code segments of an image. -/
def codeSegments (segs : List Segment) : List Segment := segs.filter (·.kind == 1)

/-- The bytes of sealed memory that code segments need. -/
def codeBytes (segs : List Segment) : Nat := ((codeSegments segs).map Segment.size).sum

/-- Whether a byte offset lies in a code segment. -/
def insideCode (segs : List Segment) (t : Int) : Bool :=
  (codeSegments segs).any fun x => decide ((x.off : Int) ≤ t) && decide (t < ((x.off + x.size : Nat) : Int))

/-- The header-level codes that apply, with the bytes free in sealed memory (R40). -/
def headerCodes (h : List Byte) (free : Nat) : List SealCode :=
  let segs := headerSegments h
  let code := fun (c : SealCode) (p : Bool) => if p then [c] else []
  let entry := headerNat h 0x10 4
  code .badMagic (headerNat h 0 8 != 0x5A5553414C494D31) ++ code .badSegments (badSegmentTable h segs) ++
    code .badEntry (entry % 32 != 0 || !insideCode segs entry) ++ code .sealedMemoryFull (decide (free < codeBytes segs)) ++
    code .reservedHeader (badReserved h segs) ++ code .badWalkRecord ((List.range 16).any (badWalkRecord h)) ++
    code .badRingRecord ((List.range 8).any (badRingRecord h)) ++
    code .scratchTooLarge (segs.any fun x => x.kind == 2 && decide (2097152 < x.size))

/-! ### Verdict and seal (R38, R39) -/

/-- An image as the seal engine read it: header, and the bytes of its code and scratch segments in table order. -/
structure RawImage where
  header : List Byte
  parts : List (Segment × List Byte)
  deriving DecidableEq, Repr

/-- Words of bytes. -/
def wordsOf (bs : List Byte) : List W32 := (groupsOf 4 (bs.length / 4) bs).map fun b => BitVec.ofNat 32 (ofLeBytes b)

/-- The bundles of a code segment. -/
def bundlesOf (bs : List Byte) : List RawBundle := (groupsOf 8 (bs.length / 32) (wordsOf bs)).map rawBundle

/-- Insertion of a segment by its offset. -/
def insertSegment (x : Segment × List Byte) : List (Segment × List Byte) → List (Segment × List Byte)
  | [] => [x]
  | y :: ys => if x.1.off ≤ y.1.off then x :: y :: ys else y :: insertSegment x ys

/-- The code segments of an image in address order (R37). -/
def RawImage.code (r : RawImage) : List (Segment × List Byte) := (r.parts.filter fun p => p.1.kind == 1).foldr insertSegment []

/-- The verdict word (R38): code in [7:0], bundle offset or all ones in [63:32]. -/
def verdictWord (code off : Nat) : Nat := code + off * 2 ^ 32

/-- The verdict on an image (R38, R39). Two points are DESIGN CHOICES: that [63:32] is 0 where it is accepted (log entry 80), and that of
several header-level codes the lowest is recorded (log entry 81). -/
def verdict (r : RawImage) (free : Nat) : Nat × Nat :=
  match lowestCode (headerCodes r.header free) with
  | some c => (c.num, 0xFFFFFFFF)
  | none =>
    let inside := insideCode (headerSegments r.header)
    match r.code.findSome? fun p => segmentCode inside p.1.off (bundlesOf p.2) with
    | some (off, c) => (c.num, off)
    | none => (0, 0)

/-- The seal for a verdict (R38): SHA3-512 of the header, its seal field zero and its verdict field the new one, and of the code and
scratch segments in table order. -/
def sealOf (r : RawImage) (v : Nat × Nat) : List Byte :=
  let h := r.header.take 0x40 ++ List.replicate 64 0 ++ leBytes 8 (verdictWord v.1 v.2) ++ r.header.drop 0x88
  sha3 (h ++ (r.parts.map (·.2)).flatten)

/-- The resident copy of an accepted image (R17, R216). -/
def sealedCopy (r : RawImage) (digest : List Byte) : SealedCopy :=
  let words := fun (p : Segment × List Byte) => ((wordsOf p.2).mapIdx fun i w => (p.1.off / 4 + i, w)).filter fun e => e.2 != 0
  { digest := digest, code := (r.code.map words).flatten, ranges := r.code.map fun p => (p.1.off, p.1.size)
    scratch := ((r.parts.filter fun p => p.1.kind == 2).map (·.2)).flatten
    walkMask := headerNat r.header 0xE 2
    walks := (List.range 64).map fun n => BitVec.ofNat 64 (headerNat r.header (0x200 + 8 * n) 8)
    ringMask := headerNat r.header 0x14 1
    rings := (List.range 16).map fun n => BitVec.ofNat 64 (headerNat r.header (0x400 + 8 * n) 8)
    entry := headerNat r.header 0x10 4 }

end Sys2Proof.Machine
end

