-- ==== Sys2Proof/Machine/Device.lean ====
section
/-! DEFINITION. The lines of the device control block: shoot-down (R202, R203), sealing and release (R266), attestation (R269);
heartbeats (R225), the fabric (R195, R208, R267), device reset (R268). -/

namespace Sys2Proof.Machine

/-! ### Shoot-down (R202, R203) -/

/-- A field of the device control block. -/
def dcbNat (s : State) (off n : Nat) : Nat := latestNat s.store (s.dev.dcb + off) n

/-- The line of a field of the device control block. -/
def dcbLine (s : State) (off : Nat) : Nat := (s.dev.dcb + off) / 64

/-- Whether a range request is malformed (R202). -/
def badShootRange (base count : Nat) : Bool := count == 0 || base % 4096 != 0 || decide (2 ^ 48 < base + 4096 * count)

/-- The status and completion sequence of a shoot-down request, then vector 2 (R202, R264). -/
def finishShoot (seq status : Nat) (s : State) : State :=
  interrupt 2 (distWrite (s.dev.dcb + 0x60) (leBytes 8 seq) (distWrite (s.dev.dcb + 0x68) (leBytes 1 status) s))

/-- The request is read, once per wake. -/
def takeShoot (s : State) : State :=
  readLines [dcbLine s 0x40] (s.mapDev fun d => { d with shootWake := false, shootSeen := dcbNat s 0x40 8 })

/-- A request of the kinds that a test picks is served: its line was written, none is unfinished (R203), and the host, where it owns the
line, has given it up (R164). That a sequence served already asks for nothing is a DESIGN CHOICE (log entry 104). -/
def shootRequest (mine : Nat → Bool) (act : State → State) (s : State) : Out :=
  if !s.dev.shootWake || s.dev.shootBusy.isSome then .next s
  else
    withLines [dcbLine s 0x40]
      (fun s =>
        if dcbNat s 0x40 8 = s.dev.shootSeen then .next (takeShoot s)
        else if mine (dcbNat s 0x4A 1) then .next (act s)
        else .next s)
      s

/-- The operations on their way that translated pages that a test picks: continuation, rank, age. -/
def translatedThrough (s : State) (hit : Nat → Nat → Bool) : List (Nat × Nat × Nat) :=
  let ctxs := s.ctxs.map (·.2) ++ (s.dev.conts.map fun e => e.2.kennel.filterMap fun p => match p with | .ctx _ c => some c | _ => none).flatten
  (ctxs.map fun c =>
    let asid := (s.cont c.cont).launch.asid
    (c.work.memOps.filter fun o => o.translated && o.items.any fun i => hit asid i.va.toNat).map fun o => (c.cont, c.rank, o.age)).flatten

/-- What TLB and walk-cache entries cover that a test on ASID, base and span picks: ASID, base, span. -/
def droppedSpans (drop : Nat → Nat → Nat → Bool) (st : Store) : List (Nat × Nat × Nat) :=
  ((st.tlbs.map fun (t : TlbEntry) => (t.asid, t.base, t.span)) ++
    st.walks.map fun (w : WalkEntry) => (w.asid, w.base * 2 ^ (48 - 9 * w.level), 2 ^ (48 - 9 * w.level))).filter fun e => drop e.1 e.2.1 e.2.2

/-- Whether an address lies in one of them. -/
def inSpans (spans : List (Nat × Nat × Nat)) (asid va : Nat) : Bool :=
  spans.any fun e => e.1 == asid && decide (e.2.1 ≤ va) && decide (va < e.2.1 + e.2.2)

/-- Steps 1 to 3 of R203 begin: entries that a test on ASID, base and span picks are dropped. Operations that lie in the pages of the request or
in what a dropped entry covers, and so may have translated through it, are waited for. -/
def shootDown (drop : Nat → Nat → Nat → Bool) (s : State) : State :=
  let seq := dcbNat s 0x40 8
  let spans := droppedSpans drop s.store
  let ops := translatedThrough s fun asid va => drop asid va 1 || inSpans spans asid va
  let s := (takeShoot s).mapStore fun st =>
    { st with
      tlbs := st.tlbs.filter fun t => !drop t.asid t.base t.span
      walks := st.walks.filter fun w => !drop w.asid (w.base * 2 ^ (48 - 9 * w.level)) (2 ^ (48 - 9 * w.level)) }
  s.mapDev fun d => { d with shootBusy := some (seq, ops) }

/-- `SHOOT_DOWN_RANGE` (R202, R203). -/
def execShootDownRange (s : State) : Out :=
  shootRequest (· == 0)
    (fun s =>
      let base := dcbNat s 0x50 8
      let count := dcbNat s 0x58 8
      let asid := dcbNat s 0x48 2
      if badShootRange base count then finishShoot (dcbNat s 0x40 8) 1 (takeShoot s)
      else shootDown (fun a b n => a == asid && decide (b < base + 4096 * count) && decide (base < b + n)) s)
    s

/-- `SHOOT_DOWN_ASID` (R203). -/
def execShootDownAsid (s : State) : Out :=
  shootRequest (· == 1) (fun s => let asid := dcbNat s 0x48 2; shootDown (fun a _ _ => a == asid) s) s

/-- `SHOOT_DOWN_ALL` (R203). -/
def execShootDownAll (s : State) : Out := shootRequest (· == 2) (shootDown fun _ _ _ => true) s

/-- `SHOOT_DOWN_UNASSIGNED_KIND` (R202): status 1 at once, and nothing is dropped. -/
def execShootDownUnassignedKind (s : State) : Out :=
  shootRequest (fun k => decide (3 ≤ k)) (fun s => finishShoot (dcbNat s 0x40 8) 1 (takeShoot s)) s

/-- Whether an operation that translated before a shoot-down is still to perform. -/
def stillToPerform (s : State) (x : Nat × Nat × Nat) : Bool :=
  match s.ctxOf x.1 x.2.1 with
  | some c => c.work.memOps.any fun o => o.age == x.2.2 && o.translated
  | none => false

/-- `SHOOT_DOWN_COMPLETE` (R203): every operation that translated through a dropped entry has performed. -/
def execShootDownComplete (s : State) : Out :=
  match s.dev.shootBusy with
  | some (seq, ops) =>
    if ops.any (stillToPerform s) then .next s else .next (finishShoot seq 0 (s.mapDev fun d => { d with shootBusy := none }))
  | none => .next s

/-! ### Sealing and release (R266) -/

/-- The request is read, once per wake (R266). -/
def takeSeal (s : State) : State :=
  readLines [dcbLine s 0x80] (s.mapDev fun d => { d with sealWake := false, sealSeen := dcbNat s 0x80 8 })

/-- The request is read, and answered with a status by `SEAL_COMPLETE`. -/
def answerSeal (status : Nat) (s : State) : State :=
  (takeSeal s).mapDev fun d => { d with sealBusy := some (dcbNat s 0x80 8, status) }

/-- A seal-line request of the kinds that a test picks is served, once the host, where it owns the line, has given it up (R164, R266); never
where bring-up has failed (R268). That a sequence served already, 0 after reset, asks for nothing is a DESIGN CHOICE (log entry 104). -/
def sealRequest (mine : Nat → Bool) (act : State → Out) (s : State) : Out :=
  if !s.dev.up || !s.dev.sealWake || s.dev.sealBusy.isSome then .next s
  else
    withLines [dcbLine s 0x80]
      (fun s =>
        if dcbNat s 0x80 8 = s.dev.sealSeen then .next (takeSeal s)
        else if mine (dcbNat s 0x92 1) then act s
        else .next s)
      s

/-- Bytes stored at virtual addresses that translate with write intent. -/
def putVirtual (asid va : Nat) : List Byte → State → State
  | [], s => s
  | b :: bs, s =>
    let s := match (walkTables s asid va .sealWriter).1 with
      | .found pa _ _ _ => distWrite pa [b] s
      | .failed .. => s
    putVirtual asid (va + 1) bs s

/-- Whether the header at an address translates for writing (R266). -/
def headerWritable (s : State) (asid va : Nat) : Bool :=
  [va, va + 0x4FF].all fun a =>
    decide (a < 2 ^ 48) && (match (walkTables s asid a .sealWriter).1 with | .found .. => true | .failed .. => false)

/-- The image as the seal engine reads it, with execute intent (R37, R266). -/
def readImage (s : State) (asid va : Nat) : Option RawImage :=
  match readVirtual s asid .sealEngine va 0x500 with
  | none => none
  | some h =>
    let segs := (headerSegments h).filter fun x => x.kind == 1 || x.kind == 2
    let parts := segs.map fun x => (readVirtual s asid .sealEngine (va + x.off) x.size).map fun b => (x, b)
    if parts.all Option.isSome then some { header := h, parts := parts.filterMap id } else none

/-- The segments that the seal engine reads of an image. -/
def imageSegments (s : State) (asid va : Nat) : List Segment :=
  match readVirtual s asid .sealEngine va 0x500 with
  | none => []
  | some h => (headerSegments h).filter fun x => x.kind == 1 || x.kind == 2

/-- What those reads find wrong, for the error log (R208). -/
def imageTroubles (s : State) (asid va : Nat) : List (Nat × Nat) :=
  readTroubles s asid .sealEngine va 0x500 ++
    ((imageSegments s asid va).map fun x => readTroubles s asid .sealEngine (va + x.off) x.size).flatten

/-- The lines of an image that the seal engine reads, once its header is at hand. -/
def imageLines (s : State) (asid va : Nat) : List Nat :=
  ((imageSegments s asid va).map fun x => linesRead s asid .sealEngine (va + x.off) x.size).flatten

/-- The bytes of sealed instruction memory that no resident copy takes (R17). -/
def sealedFree (s : State) : Nat := s.dev.record.sealedSize - (s.dev.images.map fun e => (e.2.ranges.map (·.2)).sum).sum

/-- Whether a resident copy carries a seal. -/
def isResident (s : State) (digest : List Byte) : Bool := s.dev.images.any fun e => e.2.digest == digest

/-- The verdict and seal of an image; a copy that is resident already takes no further room (R17, R266). -/
def judge (s : State) (r : RawImage) : (Nat × Nat) × List Byte :=
  let again := verdict r (codeBytes (headerSegments r.header))
  if again.1 = 0 ∧ isResident s (sealOf r again) then (again, sealOf r again)
  else
    let v := verdict r (sealedFree s)
    (v, sealOf r v)

/-- A key that no resident copy has. -/
def freshImage (s : State) : Nat := s.dev.images.foldl (fun m e => max m (e.1 + 1)) 0

/-- An image is judged, verdict and seal go into its header, and an accepted one becomes resident (R17, R37, R266). -/
def sealImage (asid va : Nat) (s : State) : State :=
  let image := readImage s asid va
  let s := logTroubles (imageTroubles s asid va) s
  match image with
  | none => answerSeal 1 s
  | some r =>
    if !headerWritable s asid va then answerSeal 1 s
    else
      let (v, digest) := judge s r
      let fresh := v.1 == 0 && !isResident s digest
      let s := putVirtual asid (va + 0x80) (leBytes 8 (verdictWord v.1 v.2)) (putVirtual asid (va + 0x40) digest s)
      let s := if fresh then s.mapDev fun d => { d with images := Sparse.put d.images (freshImage s) (sealedCopy r digest) } else s
      answerSeal (if v.1 = 24 then 2 else 0) s

/-- `SEAL` (R37, R266): the image is read, once the host has given up the lines of it that it owns (R164), and checked. -/
def execSealImage (s : State) : Out :=
  sealRequest (· == 0)
    (fun s =>
      let va := dcbNat s 0x88 8
      let asid := dcbNat s 0x90 2
      withLines (linesRead s asid .sealEngine va 0x500)
        (fun s => withLines (imageLines s asid va) (fun s => .next (sealImage asid va s)) s) s)
    s

/-- Whether a continuation that started from a resident copy has not ended (R266). -/
def imageInUse (s : State) (key : Nat) : Bool :=
  s.dev.conts.any fun e => e.2.launch.sealed == key && e.2.state != .idle && !e.2.state.isEnd

/-- The answer to a release of the resident copy that a seal names (R17, R266). -/
def releaseSeal (digest : List Byte) (s : State) : State :=
  match s.dev.images.find? fun e => e.2.digest == digest with
  | none => answerSeal 4 s
  | some (key, _) =>
    if imageInUse s key then answerSeal 3 s
    else answerSeal 0 (s.mapDev fun d => { d with images := Sparse.erase d.images key })

/-- `SEAL_RELEASE` (R17, R266). That the header's seal is read with execute intent is a DESIGN CHOICE (log entry 91). -/
def execSealRelease (s : State) : Out :=
  sealRequest (· == 1)
    (fun s =>
      let at' := dcbNat s 0x88 8 + 0x40
      let asid := dcbNat s 0x90 2
      withLines (linesRead s asid .sealEngine at' 64)
        (fun s =>
          let t := logTroubles (readTroubles s asid .sealEngine at' 64) s
          .next (match readVirtual s asid .sealEngine at' 64 with
            | none => answerSeal 1 t
            | some digest => releaseSeal digest t)) s)
    s

/-- `SEAL_UNASSIGNED_KIND` (R266). -/
def execSealUnassignedKind (s : State) : Out := sealRequest (fun k => decide (2 ≤ k)) (fun s => .next (answerSeal 5 s)) s

/-- `SEAL_COMPLETE` (R266): status, then completion sequence, then vector 2. -/
def execSealComplete (s : State) : Out :=
  match s.dev.sealBusy with
  | some (seq, status) =>
    let s := s.mapDev fun d => { d with sealBusy := none }
    .next (interrupt 2 (distWrite (s.dev.dcb + 0xA0) (leBytes 8 seq) (distWrite (s.dev.dcb + 0xA8) (leBytes 1 status) s)))
  | none => .next s

/-! ### Attestation and heartbeats (R225, R269) -/

/-- The 8,192 bytes of evidence for a nonce (R269): the measurement, the device identifier, the identity public key, and from there on the
signature. Their order is the model's (log entry 71). -/
def evidence (device : Nat) (nonce : List Byte) : List Byte :=
  let m := sha3 (Config.firmwareBytes ++ Config.recordBytes ++ nonce)
  m ++ leBytes 3 device ++ (List.range 2592).map Config.identityKey ++ (List.range 5533).map (Config.signature m)

/-- Bytes written to host memory with CXL.cache (R155, R262). -/
def writeHost (a : Nat) (data : List Byte) (s : State) : State :=
  s.mapStore fun st => { st with mem := memPutBytes st.mem (hostBase + a) data }

/-- The notices that wait are sent in order (R221): each loads its block's target in S, and waits while the host must give that line up.
None goes to a silent host (R225). -/
def flushFrom : List Notice → State → State
  | [], s => s.mapDev fun d => { d with notices := [] }
  | n :: ns, s =>
    if s.dev.hostSilent then flushFrom ns s
    else match distLoad (n.block + 0x240) 8 s with
      | none => askHost ((n.block + 0x240) / 64) (s.mapDev fun d => { d with notices := n :: ns })
      | some (target, s) => flushFrom ns (if target = 0 then s else writeHost target (leBytes 8 n.word.toNat) s)

/-- The same for those that wait now, after the stores that they tell of (R221). -/
def flushNotices (s : State) : State := if s.dev.notices.isEmpty || !s.dev.acts.isEmpty then s else flushFrom s.dev.notices s

/-- The request is read, once per wake (R269). -/
def takeAttest (s : State) : State :=
  readLines [dcbLine s 0x1000] (s.mapDev fun d => { d with attestWake := false, attestSeen := dcbNat s 0x1000 8 })

/-- `ATTESTATION` (R269), once the host, where it owns the request's line, has given it up (R164). That a sequence served already asks for
nothing is a DESIGN CHOICE (log entry 104). -/
def execAttestation (s : State) : Out :=
  if !s.dev.attestWake then .next s
  else
    withLines [dcbLine s 0x1000]
      (fun s =>
        let seq := dcbNat s 0x1000 8
        let nonce := latestBytes s.store (s.dev.dcb + 0x1010) 32
        let target := dcbNat s 0x1008 8
        if seq = s.dev.attestSeen then .next (takeAttest s)
        else
          .next (distWrite (s.dev.dcb + 0x1030) (leBytes 8 seq)
            (writeHost target (evidence s.dev.record.device.toNat nonce) (takeAttest s))))
      s

/-- `DEVICE_HEARTBEAT` (R225): every 50 µs the device writes its count to the host's address, which it loads. -/
def execDeviceHeartbeat (s : State) : Out :=
  if s.refHalf < s.dev.beatAge + micros 50 ∨ !s.dev.up then .next s
  else
    withLines [dcbLine s 0xC0]
      (fun s =>
        let target := dcbNat s 0xC0 8
        let s := readLines [dcbLine s 0xC0] (s.mapDev fun d => { d with beats := d.beats + 1, beatAge := s.refHalf })
        .next (if target = 0 then s else writeHost target (leBytes 8 s.dev.beats) s))
      s

/-- `HEARTBEAT_LOSS` (R225): 500 µs without a change of the host's count; the device fences the host off, and logs it. -/
def execHeartbeatLoss (s : State) : Out :=
  if s.dev.boot ≠ 1 ∨ s.dev.hostSilent ∨ s.refHalf < s.dev.hostAge + micros 500 then .next s
  else
    let at' := s.dev.dcb + 0xC8
    .next (logError at' 3 3 (homeDie (at' / 64)) 0xFFFF (s.mapDev fun d => { d with hostSilent := true, boot := 5 }))

/-! ### The fabric (R195, R208, R267) -/

/-- An access of a peer that breaks a rule: an error response, and the log (R208). The address that the log shows of a refused write or signal
into a window, which has no physical one, is a DESIGN CHOICE (log entry 82). -/
def refusePeer (src pa cls : Nat) (s : State) : State :=
  (logError pa 4 3 (Config.portOf src) 0xFFFF s).output (.error src cls)

/-- A write of space 3 (R177, R267): it performs at the home as a store. The flag says that it is done with. -/
def peerStore (w : FabricWrite) (s : State) : Bool × State :=
  if s.dev.breaksAccess w.addr w.data.length ∨ hostBase ≤ w.addr + w.data.length then (true, refusePeer w.src w.addr 4 s)
  else
    match hostHolds s w.addr w.data.length with
    | l :: _ => (false, askHost l s)
    | [] =>
      let (_, st) := homeStore s.store w.addr 0 w.data
      (true, (lineSpan w.addr w.data.length).foldl (fun s l => noteWrite l s) (noteCombines s { s with store := st }))

/-- The continuation of a level-3 pack on this device that has not ended (R183). -/
def packCont (s : State) (packId : Nat) : Option Nat :=
  if packId = 0 then none
  else (s.dev.conts.find? fun e => e.2.launch.pack == packId && e.2.state != .idle && !e.2.state.isEnd).map (·.1)

/-- A context that a peer names, where the continuation has it (R183). -/
def peerRank (s : State) (i core pos : Nat) : Option Nat :=
  let l := (s.cont i).launch
  if pos < l.perCore ∧ core * l.perCore + pos < l.contexts then some (core * l.perCore + pos) else none

/-- Whether a barrier object lies in the windows of a continuation (R185). -/
def objectInWindow (s : State) (i bar : Nat) : Bool := bar % 16 == 0 && decide (bar + 16 ≤ (s.cont i).launch.window)

/-- Bytes of a peer's copy that were not written, for the object at which they would count (R183). -/
def State.refusedAt (s : State) (o : PeerObject) : RefusedBytes :=
  (s.dev.refused.find? fun e => e.object == o).getD { object := o, unnamed := 0, named := 0 }

/-- Their numbers set. -/
def setRefused (r : RefusedBytes) (s : State) : State :=
  s.mapDev fun d =>
    { d with refused := (d.refused.filter fun e => e.object != r.object) ++ if r.unnamed = 0 ∧ r.named = 0 then [] else [r] }

/-- The object at which a write's bytes count. -/
def writeObject (w : FabricWrite) : PeerObject :=
  { src := w.src, packId := w.packId, core := w.core, pos := w.pos, barrier := w.barrier }

/-- The object that a signal counts at. -/
def signalObject (m : BarrierSignal) : PeerObject :=
  { src := m.src, packId := m.packId, core := m.core, pos := m.pos, barrier := m.barrier }

/-- Bytes of a space-4 write that reach the window of hardware context h (R181, R208): those outside it are refused, and are not counted.
They wait for room in the staging buffer, and at the engine port for a held bank or one that serves another (R107, R121, R244). -/
def peerWindow (h : Nat) (w : FabricWrite) (s : State) : Bool × State :=
  let c := s.ctx h
  let core := coreOf h
  let bytes := (w.data.mapIdx fun j b => (w.addr + j, b))
  let inside := bytes.filter fun e => decide (e.1 < c.window)
  let addrs := inside.map fun e => c.coreAddr e.1
  let lost := bytes.length - inside.length
  if !stagingRoom s core inside.length then (false, s)
  else if !portFree s (.peer w.src) core addrs then (false, queuePort (.peer w.src) core addrs s)
  else
    let s := inside.foldl (fun s e => engineWrite core (c.coreAddr e.1) [e.2] s) (usePort (.peer w.src) core addrs s)
    let r := s.refusedAt (writeObject w)
    (true, if lost = 0 then s else setRefused { r with unnamed := r.unnamed + lost } (refusePeer w.src w.addr 5 s))

/-- A write of a peer served (R208, R267): into a window it waits while the window is on no core (R181). -/
def serveWrite (w : FabricWrite) (s : State) : Bool × State :=
  if w.data = [] then (true, s)
  else if w.space = 3 then peerStore w s
  else
    match packCont s w.packId with
    | none => (true, refusePeer w.src w.addr 0 s)
    | some i =>
      match peerRank s i w.core w.pos with
      | none => (true, refusePeer w.src w.addr 0 s)
      | some r =>
        if !objectInWindow s i w.barrier then (true, refusePeer w.src w.addr 0 s)
        else match s.windowHw i r with
          | none => (false, s)
          | some h => peerWindow h w s

/-- What a signal counts, and what is left of the bytes refused for its object: of a copy that goes on, the bytes that have been written; with the
error of a copy fault, those that were never sent and all those that were refused, so that every byte of the copy counts (R182, R183). -/
def countedBy (m : BarrierSignal) (r : RefusedBytes) : Nat × RefusedBytes :=
  if m.fault.isSome then (m.bytes + r.named, { r with named := 0 })
  else
    let lost := min m.bytes r.unnamed
    (m.bytes - lost, { r with unnamed := r.unnamed - lost, named := r.named + lost })

/-- Bytes counted at an object, with the error of a copy fault, and acknowledged (R182, R183). The update goes through the engine port, and waits
for the end of a changeover pause (R107, R121, R244). -/
def peerCount (h : Nat) (m : BarrierSignal) (s : State) : Bool × State :=
  let core := coreOf h
  let obj := (s.ctx h).coreAddr m.barrier
  let (bytes, left) := countedBy m (s.refusedAt (signalObject m))
  if (s.core core).pause != 0 then (false, s)
  else if !portFree s (.peer m.src) core [obj] then (false, queuePort (.peer m.src) core [obj] s)
  else
    let s := usePort (.peer m.src) core [obj] (setRefused left s)
    let s := match m.fault with | some n => s.mapStore (markError core obj n) | none => s
    let s := if bytes = 0 ∧ m.fault.isNone then s else countAt core obj bytes false s
    (true, s.output (.acknowledge m.src m.packId m.core m.pos m.barrier m.bytes))

/-- Whether a device has said that its members of a continuation have all ended (R191). -/
def Cont.finished3 (c : Cont) (src : Nat) : Bool := c.arrivals3.any fun e => e.1 / 2 ^ 65 == src && e.2.nth == lastNth

/-- Whether an arrival at a `pbar 3` of a pack with no continuation here that runs is kept for one that is still to be started (R191): any of a
pack that has had none here; else the first of its device, and where it says that the device's members have ended one that the members of an
ended continuation have said already, or that follows a kept one. A later one can only be of members that this device's own had joined. A
DEDUCED rule (log entry 94). -/
def keepsEarly (s : State) (m : BarrierSignal) : Bool :=
  let mine := s.dev.conts.filter fun e => e.2.launch.pack == m.packId
  m.packId != 0 && m.level3.phase == .arrived &&
    (m.level3.nth == 1 || mine.isEmpty ||
      m.level3.nth == lastNth &&
        (mine.any (fun e => e.2.finished3 m.src) || s.dev.early.any fun a => a.packId == m.packId && a.src == m.src))

/-- An arrival before its pack's continuation was started: the latest of each device stands (R191). What is not kept is of one that has ended. -/
def arriveEarly (m : BarrierSignal) (s : State) : State :=
  if keepsEarly s m then
    s.mapDev fun d => { d with
      early := (d.early.filter fun a => !(a.packId == m.packId && a.src == m.src)) ++ [{ packId := m.packId, src := m.src, level3 := m.level3 }] }
  else (s.dev.conts.filter fun e => e.2.launch.pack == m.packId).foldl (fun s e => s.mapCont e.1 (Cont.arrive3 m.src m.level3)) s

/-- A barrier signal of a peer served (R182, R191, R267): an arrival, or bytes counted at a barrier object. -/
def serveSignal (m : BarrierSignal) (s : State) : Bool × State :=
  match packCont s m.packId with
  | none => (true, if m.level3.nth = 0 then refusePeer m.src m.barrier 0 s else arriveEarly m s)
  | some i =>
    if m.level3.nth ≠ 0 then (true, s.mapCont i (Cont.arrive3 m.src m.level3))
    else
      match peerRank s i m.core m.pos with
      | none => (true, refusePeer m.src m.barrier 0 s)
      | some r =>
        if !objectInWindow s i m.barrier then (true, refusePeer m.src m.barrier 0 s)
        else match s.windowHw i r with
          | none => (false, s)
          | some h => peerCount h m s

/-- An atomic of a peer served (R195): it runs at the engine of its home die, and its old value returns. -/
def servePeerAtomic (r : PeerAtomic) (s : State) : Bool × State :=
  let line := r.pa / 64
  if !inOneLine r.pa r.width then (true, s)
  else if s.dev.breaksAccess r.pa r.width ∨ isHostLine line then
    (true, (logError r.pa 4 3 (Config.portOf r.src) 0xFFFF s).output (.response r.src r.tag true 0))
  else if (dirOf s.store line).poison then
    (true, (logError (64 * line) 4 4 (Config.portOf r.src) 0xFFFF s).output (.response r.src r.tag true 0))
  else
    match serveAtomic s.store line (r.pa % 64) r.width 0 r.op (r.b.toNat % 256 ^ r.width) (r.c.toNat % 256 ^ r.width) with
    | none => (false, askHost line s)
    | some (old, _, st) =>
      (true, (noteWrite line (noteCombines s { s with store := st })).output (.response r.src r.tag false (BitVec.ofNat 64 old)))

/-- The answer of a peer to an atomic: its old value is delivered, zero-extended from its width, or it faults beyond repair (R193, R195, R277). -/
def serveAnswer (x : PeerAnswer) (s : State) : State :=
  match s.hwOf x.cont x.rank with
  | none => s
  | some h =>
    match (s.ctx h).current with
    | none => s
    | some (o, a) =>
      if o.age ≠ x.age ∨ !o.sent ∨ a.tier ≠ .peer then s
      else if x.error then peerFault h o a s
      else finishAccess h o [((a.items.head?.map (·.1)).getD 0, x.old &&& widthMask o.width)] s

/-- The device that a message comes from. -/
def FabricMsg.src : FabricMsg → Nat
  | .write w => w.src
  | .signal m => m.src
  | .atomic r => r.src
  | .answer x => x.src

/-- A message served, or not yet. -/
def FabricMsg.serve : FabricMsg → State → Bool × State
  | .write w, s => serveWrite w s
  | .signal m, s => serveSignal m s
  | .atomic r, s => servePeerAtomic r s
  | .answer x, s => (true, serveAnswer x s)

/-- Waiting messages served in the order of their arrival; one that must wait holds up those behind it from its device, which travel on one
ordered path (R267). -/
def drainFrom : List FabricMsg → List Nat → State → State
  | [], _, s => s
  | m :: ms, late, s =>
    let keep := fun (s : State) => s.mapDev fun d => { d with fabricIn := d.fabricIn ++ [m] }
    if late.contains m.src then drainFrom ms late (keep s)
    else
      match m.serve s with
      | (true, s) => drainFrom ms late s
      | (false, s) => drainFrom ms (m.src :: late) (keep s)

/-- Every message that can be served now, those of one peer in the order of their arrival (R267, log entry 75). -/
def drainFabric (s : State) : State :=
  if s.dev.fabricIn.isEmpty then s else drainFrom s.dev.fabricIn [] (s.mapDev fun d => { d with fabricIn := [] })

/-- A message of a peer has reached the device: it ends an idle state (R260) and takes its turn. With bring-up not complete no port is up
(R268). -/
def arriveFabric (m : FabricMsg) (s : State) : State :=
  if s.dev.up then drainFabric ((leaveIdle s).mapDev fun d => { d with fabricIn := d.fabricIn ++ [m] }) else s

/-- `FABRIC_WRITE` (R208, R267). -/
def execFabricWrite (w : FabricWrite) (s : State) : Out := .next (arriveFabric (.write w) s)

/-- `FABRIC_BARRIER_SIGNAL` (R182, R191, R267). -/
def execFabricBarrierSignal (src packId : Nat) (level3 : Arrival3) (core pos barrier bytes : Nat) (fault : Option Nat) (s : State) : Out :=
  .next (arriveFabric
    (.signal { src := src, packId := packId, level3 := level3, core := core, pos := pos, barrier := barrier, bytes := bytes, fault := fault }) s)

/-- `PEER_ATOMIC_REQUEST` (R195). -/
def execPeerAtomicRequest (r : PeerAtomic) (s : State) : Out := .next (arriveFabric (.atomic r) s)

/-- `PEER_ATOMIC_RESPONSE` (R195, R260, R267): the old value of a context's peer atomic comes back, or an error response, on the ordered path of
its peer, behind what that has sent before. -/
def execPeerAtomicResponse (h : Nat) (error : Bool) (old : W64) (s : State) : Out :=
  match (s.ctx h).current with
  | none => .next s
  | some (o, a) =>
    match o.kind with
    | .atomic _ _ _ peer =>
      if !o.sent || a.tier ≠ .peer then .next s
      else .next (arriveFabric
        (.answer { src := peer.toNat, cont := (s.ctx h).cont, rank := (s.ctx h).rank, age := o.age, error := error, old := old }) s)
    | _ => .next s

/-- `FABRIC_PORT_FAILURE` (R267): the port is removed; traffic goes on over the others. -/
def execFabricPortFailure (port : Nat) (s : State) : Out :=
  .next (s.mapDev fun d => { d with record := { d.record with ports := d.record.ports &&& ~~~(BitVec.ofNat 16 (2 ^ port)) } })

/-! ### Device reset (R268) -/

/-- Memory after bring-up: the device control block as it is built, the rest as it was (log entry 16). -/
def memAfterReset (m : List Host.Cell) : List Host.Cell :=
  let dcb := Device.booted.dcb
  m.filter fun e => decide (e.1 < dcb) || decide (dcb + 0x4000 ≤ e.1)

/-- `DEVICE_RESET` (R268): the device boots, with status 0, or its bring-up ends, with status 1, or a step of it fails, with status 2 to 4. -/
def execDeviceReset (status : Nat) (s : State) : Out :=
  if 4 < status then .next s
  else
    .next { State.reset with
      agenda := s.agenda, store := { Store.empty with mem := memAfterReset s.store.mem }
      dev := { Device.booted with boot := status, outputs := s.dev.outputs } }

end Sys2Proof.Machine
end

