-- ==== Sys2Proof/Machine/Scalar.lean ====
section
/-! DEFINITION. The scalar family of slots C and S: the `alu` group, immediates, masks, counters and system registers. -/

namespace Sys2Proof.Machine

/-- The two forms of an `alu` operation (R270): 64 bits, or `.w` on bits [31:0] with the result sign-extended. -/
def alu (w : Bool) (f : (n : Nat) → BitVec n → BitVec n → BitVec n) (x y : W64) : W64 :=
  if w then (f 32 (x.setWidth 32) (y.setWidth 32)).signExtend 64 else f 64 x y

/-- `nop` (R23, R318). -/
def execNop (s : State) : Out := effect s

/-- `add` (R271). -/
def execAdd (d a b : Reg) (w : Bool) (s : State) : Out :=
  scalarOp d [a, b] 1 (alu w (fun _ x y => x + y) (srcG s a) (srcG s b)) s

/-- `sub` (R347). -/
def execSub (d a b : Reg) (w : Bool) (s : State) : Out :=
  scalarOp d [a, b] 1 (alu w (fun _ x y => x - y) (srcG s a) (srcG s b)) s

/-- `mul` (R317). -/
def execMul (d a b : Reg) (w : Bool) (s : State) : Out :=
  scalarOp d [a, b] 3 (alu w (fun _ x y => x * y) (srcG s a) (srcG s b)) s

/-- High half of the signed product (R69). -/
def mulHigh (n : Nat) (x y : BitVec n) : BitVec n := BitVec.ofInt n (x.toInt * y.toInt / (2 ^ n : Int))

/-- `mulh` (R69, R317). -/
def execMulh (d a b : Reg) (w : Bool) (s : State) : Out :=
  scalarOp d [a, b] 3 (alu w mulHigh (srcG s a) (srcG s b)) s

/-- Quotient truncated toward zero; all ones by zero (R69, R293). The most negative value by −1 wraps to itself. -/
def quotient (n : Nat) (x y : BitVec n) : BitVec n :=
  if y = 0 then BitVec.allOnes n else BitVec.ofInt n (x.toInt.tdiv y.toInt)

/-- Remainder with the sign of the dividend; the dividend by zero (R69, R331). -/
def remainder (n : Nat) (x y : BitVec n) : BitVec n :=
  if y = 0 then x else BitVec.ofInt n (x.toInt.tmod y.toInt)

/-- A variable-latency scalar result (R93): its busy bit is set until the value arrives. -/
def deliverOp (d : Reg) (srcs : List Reg) (x : W64) (s : State) : Out :=
  under (readyG s (d :: srcs)) s (effect (issueDeliver (.g d.toNat) [x] false s))

/-- `div` (R293). -/
def execDiv (d a b : Reg) (w : Bool) (s : State) : Out := deliverOp d [a, b] (alu w quotient (srcG s a) (srcG s b)) s

/-- `rem` (R331). -/
def execRem (d a b : Reg) (w : Bool) (s : State) : Out := deliverOp d [a, b] (alu w remainder (srcG s a) (srcG s b)) s

/-- `and` (R274). -/
def execAnd (d a b : Reg) (s : State) : Out := scalarOp d [a, b] 1 (srcG s a &&& srcG s b) s

/-- `or` (R319). -/
def execOr (d a b : Reg) (s : State) : Out := scalarOp d [a, b] 1 (srcG s a ||| srcG s b) s

/-- `xor` (R373). -/
def execXor (d a b : Reg) (s : State) : Out := scalarOp d [a, b] 1 (srcG s a ^^^ srcG s b) s

/-- `andn` (R275). -/
def execAndn (d a b : Reg) (s : State) : Out := scalarOp d [a, b] 1 (srcG s a &&& ~~~(srcG s b)) s

/-- `shl`: count modulo the width (R342). -/
def execShl (d a b : Reg) (w : Bool) (s : State) : Out :=
  scalarOp d [a, b] 1 (alu w (fun n x y => x <<< (y.toNat % n)) (srcG s a) (srcG s b)) s

/-- `shr` (R342). -/
def execShr (d a b : Reg) (w : Bool) (s : State) : Out :=
  scalarOp d [a, b] 1 (alu w (fun n x y => x >>> (y.toNat % n)) (srcG s a) (srcG s b)) s

/-- `sra` (R342). -/
def execSra (d a b : Reg) (w : Bool) (s : State) : Out :=
  scalarOp d [a, b] 1 (alu w (fun n x y => x.sshiftRight (y.toNat % n)) (srcG s a) (srcG s b)) s

/-- `min`, signed (R311). -/
def execMin (d a b : Reg) (w : Bool) (s : State) : Out :=
  scalarOp d [a, b] 1 (alu w (fun _ x y => if y.toInt < x.toInt then y else x) (srcG s a) (srcG s b)) s

/-- `max`, signed (R311). -/
def execMax (d a b : Reg) (w : Bool) (s : State) : Out :=
  scalarOp d [a, b] 1 (alu w (fun _ x y => if x.toInt < y.toInt then y else x) (srcG s a) (srcG s b)) s

/-- Zero bits above the highest set bit (R288). -/
def leadingZeros (x : W64) : Nat := if x = 0 then 64 else 63 - Nat.log2 x.toNat

/-- Set bits (R316, R325). -/
def popCount (x : W64) : Nat := ((List.range 64).filter fun i => x.getLsbD i).length

/-- The lowest set bit, or 64 (R312). -/
def firstSet (x : W64) : Nat := ((List.range 64).find? fun i => x.getLsbD i).getD 64

/-- `clz` (R288). -/
def execClz (d a : Reg) (s : State) : Out := scalarOp d [a] 1 (BitVec.ofNat 64 (leadingZeros (srcG s a))) s

/-- `popc` (R325). -/
def execPopc (d a : Reg) (s : State) : Out := scalarOp d [a] 1 (BitVec.ofNat 64 (popCount (srcG s a))) s

/-- `mov gD, gA` (R315). -/
def execMovGG (d a : Reg) (s : State) : Out := scalarOp d [a] 1 (srcG s a) s

/-- A mask result: every bit written, latency 1. -/
def landMask (d : Reg3) (x : W64) (s : State) : State := land 1 (.m d.toNat (BitVec.allOnes 64) x) s

/-- `mov mD, gA` (R315). -/
def execMovMG (d : Reg3) (a : Reg) (s : State) : Out := under (readyG s [a]) s (effect (landMask d (srcG s a) s))

/-- `mov gD, mA` (R315). -/
def execMovGM (d : Reg) (a : Reg3) (s : State) : Out := scalarOp d [] 1 (srcM s a) s

/-- `sel` (R340). -/
def execSel (d a b : Reg) (j : Reg3) (s : State) : Out :=
  scalarOp d [a, b] 1 (if s.here.regs.q.getLsbD j.toNat then srcG s a else srcG s b) s

/-- A condition of `cmp` on n-bit values (R289). -/
def condHolds (c : Cond) {n : Nat} (x y : BitVec n) : Bool :=
  match c with
  | .eq => x == y
  | .ne => x != y
  | .lt => decide (x.toInt < y.toInt)
  | .le => decide (x.toInt ≤ y.toInt)
  | .gt => decide (y.toInt < x.toInt)
  | .ge => decide (y.toInt ≤ x.toInt)
  | .ltn => decide (x.toNat < y.toNat)
  | .gen => decide (y.toNat ≤ x.toNat)

/-- The bit of one predicate among `q0` to `q7`. -/
def predBit (n : Nat) : BitVec 8 := BitVec.ofNat 8 (2 ^ n)

/-- `cmp` (R289). -/
def execCmp (n : Reg3) (a b : Reg) (w : Bool) (c : Cond) (s : State) : Out :=
  let x := srcG s a
  let y := srcG s b
  let r := if w then condHolds c (x.setWidth 32) (y.setWidth 32) else condHolds c x y
  under (readyG s [a, b]) s (effect (land 1 (.q (predBit n.toNat) (if r then predBit n.toNat else 0)) s))

/-- `addi` (R272). -/
def execAddi (d a : Reg) (i : BitVec 14) (s : State) : Out := scalarOp d [a] 1 (srcG s a + i.signExtend 64) s

/-- `li` (R306). -/
def execLi (d : Reg) (i : BitVec 20) (s : State) : Out := scalarOp d [] 1 (i.signExtend 64) s

/-- `lih` (R307): gD is a source and the destination. -/
def execLih (d : Reg) (i : BitVec 20) (s : State) : Out := scalarOp d [d] 1 ((srcG s d <<< 20) ||| i.setWidth 64) s

/-- `addr` (R273). -/
def execAddr (d a b : Reg) (sh : BitVec 3) (s : State) : Out :=
  scalarOp d [a, b] 1 (srcG s a + (srcG s b <<< sh.toNat)) s

/-- `mand` (R310). -/
def execMand (d a b : Reg3) (s : State) : Out := effect (landMask d (srcM s a &&& srcM s b) s)

/-- `mor` (R310). -/
def execMor (d a b : Reg3) (s : State) : Out := effect (landMask d (srcM s a ||| srcM s b) s)

/-- `mnot` (R310). -/
def execMnot (d a : Reg3) (s : State) : Out := effect (landMask d (~~~(srcM s a)) s)

/-- `mpop` (R316). -/
def execMpop (d : Reg) (a : Reg3) (s : State) : Out := scalarOp d [] 1 (BitVec.ofNat 64 (popCount (srcM s a))) s

/-- `mfirst` (R312). -/
def execMfirst (d : Reg) (a : Reg3) (s : State) : Out := scalarOp d [] 1 (BitVec.ofNat 64 (firstSet (srcM s a))) s

/-- `time`: `RefTicks` (R257, R350). -/
def execTime (d : Reg) (s : State) : Out := scalarOp d [] 1 (BitVec.ofNat 64 (s.refHalf / 2)) s

/-- `cycles`: `CoreCycles` of the issuing core (R257, R292). -/
def execCycles (d : Reg) (s : State) : Out := scalarOp d [] 1 (BitVec.ofNat 64 (s.core (coreOf s.focusCtx)).cycles) s

/-- `fmtset nfN, rec` (R298). -/
def execFmtsetImm (n : Reg2) (r : BitVec 14) (s : State) : Out := effect (land 4 (.nf n.toNat r) s)

/-- `fmtset nfN, gA` (R298): an ill-formed record is a precise bad-format fault. -/
def execFmtsetReg (n : Reg2) (a : Reg) (s : State) : Out :=
  let x := srcG s a
  under (checks [readyG s [a], faultWhen (x.extractLsb' 14 50 != 0 || illRecord (x.setWidth 14)) .badFormat 0]) s
    (effect (land 4 (.nf n.toNat (x.setWidth 14)) s))

/-! ### System registers (R35, R329, R330, R372) -/

/-- The gear register as its context sees it (R243): requested gear after any `.drop`, core gear, settling. -/
def gearStatus (s : State) (h : Nat) : W64 :=
  let c := s.ctx h
  let k := s.core (coreOf h)
  BitVec.ofNat 64 ((if c.gearReq && !c.dropped then 1 else 0) + (if k.run then 2 else 0) + (if k.settling.isSome then 4 else 0))

/-- The leash register (R248): the surcharge step of the reader and the grant. -/
def leashValue (s : State) (h : Nat) : W64 :=
  BitVec.ofNat 64 ((s.ctx h).energy.step % 4 * 2 ^ 14 + (s.core (coreOf h)).grant % 2 ^ 14)

/-- The droop register of a core's quadrant (R255). -/
def droopValue (s : State) (h : Nat) : W64 := s.dev.record.droop.getD (coreOf h / 16) 0

/-- A counter of R35, which `rdsr` delivers. -/
def counterOf (r : Regs) : SysReg → Option Nat
  | .reusemiss => some r.reusemiss
  | .undecl => some r.undecl
  | .emis => some r.emis
  | _ => none

/-- The value of a system register other than a counter, zero-extended (R35, R169). -/
def sysValue (s : State) (n : SysReg) : W64 :=
  let r := s.here.regs
  match n with
  | .lc => r.lc.setWidth 64
  | .ec => r.ec.setWidth 64
  | .rb => r.rb.setWidth 64
  | .qbits => r.q.setWidth 64
  | .fflags => r.fflags.setWidth 64
  | .apeer => r.apeer.setWidth 64
  | .pack => r.pack
  | .gearst => gearStatus s s.focusCtx
  | .leash => leashValue s s.focusCtx
  | .droopth => droopValue s s.focusCtx
  | .pack3 => r.pack3
  | .image => r.image
  | .reusemiss => BitVec.ofNat 64 r.reusemiss
  | .undecl => BitVec.ofNat 64 r.undecl
  | .emis => BitVec.ofNat 64 r.emis
  | .crng n => Sparse.get 0 r.crng n.toNat
  | .nf n => (r.readNf n).setWidth 64
  | .walk i j => r.walk i.toNat j.toNat

/-- A counter's value on its way: the events of earlier bundles still join it (R330). -/
def issueCounter (d : Reg) (n : SysReg) (x : Nat) (s : State) : State :=
  s.mapHere fun c =>
    { c with work := { c.work with delivers := c.work.delivers ++
        [{ dest := .g d.toNat, age := s.age, value := [BitVec.ofNat 64 x], load := false, peer := false, lines := 0, counter := some n }] } }

/-- `rdsr` (R329): a counter is delivered, any other register lands with latency 1. -/
def execRdsr (d : Reg) (n : SysReg) (s : State) : Out :=
  match counterOf s.here.regs n with
  | some x => under (readyG s [d]) s (effect (issueCounter d n x s))
  | none => scalarOp d [] 1 (sysValue s n) s

/-- The defined bits of a walk word (R176). -/
def walkBits (j : Nat) : W64 :=
  match j with
  | 0 => 0x3FFFF7F
  | 1 => 0x0FFFFFFFFFFFFFFF
  | 2 => BitVec.allOnes 64
  | _ => 0x000FFFFFFFFFFFFF

/-- The defined bits of a writable system register (R372); a read-only one has none to write. -/
def definedBits : SysReg → Option W64
  | .lc => some 0xFFFFFFFF
  | .ec => some 0x87
  | .rb => some 0x1F
  | .qbits => some 0xFF
  | .fflags => some 0x1F
  | .apeer => some 0xFFFFF
  | .walk _ j => some (walkBits j.toNat)
  | _ => none

/-- The effect of a write to a writable system register. -/
def sysEffect (n : SysReg) (x : W64) : Effect :=
  match n with
  | .lc => .lc (x.setWidth 32)
  | .ec => .ec (x.setWidth 8)
  | .rb => .rb (x.setWidth 5)
  | .qbits => .q 0xFF (x.setWidth 8)
  | .fflags => .fflags (x.setWidth 5)
  | .apeer => .apeer (x.setWidth 20)
  | .walk i j => .walk (4 * i.toNat + j.toNat) x
  | _ => .raise 0

/-- `wrsr` (R372): read-only registers and undefined bits are precise faults; the value lands with latency 1. -/
def execWrsr (a : Reg) (n : SysReg) (s : State) : Out :=
  match definedBits n with
  | none => under (checks [readyG s [a], .fault .privilegedRegister 0]) s (effect s)
  | some bits =>
    let x := srcG s a
    under (checks [readyG s [a], faultWhen (x &&& ~~~bits != 0) .badValue 0]) s (effect (land 1 (sysEffect n x) s))

end Sys2Proof.Machine
end

