-- ==== Sys2Proof/Machine/Vector.lean ====
section
/-! DEFINITION. The vector family of slots VA and VB. -/

namespace Sys2Proof.Machine

/-- An elementwise arithmetic operation of two sources (R356). -/
def arith2 (op : ElemOp) (L : Nat) (d a : Reg) (b : VSrc) (m : Reg3) (t : ElemType) (s : State) : Out :=
  vector2 d a b m L (lane2 t (op.on t)) s

/-- `vadd` (R356). -/
def execVadd (d a : Reg) (b : VSrc) (m : Reg3) (t : ElemType) (s : State) : Out := arith2 .add 4 d a b m t s

/-- `vsub` (R356). -/
def execVsub (d a : Reg) (b : VSrc) (m : Reg3) (t : ElemType) (s : State) : Out := arith2 .sub 4 d a b m t s

/-- `vmul` (R356). -/
def execVmul (d a : Reg) (b : VSrc) (m : Reg3) (t : ElemType) (s : State) : Out := arith2 .mul 6 d a b m t s

/-- `vmin` (R356). -/
def execVmin (d a : Reg) (b : VSrc) (m : Reg3) (t : ElemType) (s : State) : Out := arith2 .min 4 d a b m t s

/-- `vmax` (R356). -/
def execVmax (d a : Reg) (b : VSrc) (m : Reg3) (t : ElemType) (s : State) : Out := arith2 .max 4 d a b m t s

/-- `vfma` (R356). -/
def execVfma (d a : Reg) (b : VSrc) (m : Reg3) (t : ElemType) (s : State) : Out :=
  vector3 d a b m 6 (lane3 t (elemFma t)) s

/-- `vabs` (R356). -/
def execVabs (d a : Reg) (m : Reg3) (t : ElemType) (s : State) : Out := vector1 d a m 4 (lane1 t (elemSign false t)) s

/-- `vneg` (R356). -/
def execVneg (d a : Reg) (m : Reg3) (t : ElemType) (s : State) : Out := vector1 d a m 4 (lane1 t (elemSign true t)) s

/-! ### Whole lanes (R357, R358), which ignore the type -/

/-- `vand` (R357). -/
def execVand (d a : Reg) (b : VSrc) (m : Reg3) (_ : ElemType) (s : State) : Out :=
  vector2 d a b m 4 (fun x y => (x &&& y, 0)) s

/-- `vor` (R357). -/
def execVor (d a : Reg) (b : VSrc) (m : Reg3) (_ : ElemType) (s : State) : Out :=
  vector2 d a b m 4 (fun x y => (x ||| y, 0)) s

/-- `vxor` (R357). -/
def execVxor (d a : Reg) (b : VSrc) (m : Reg3) (_ : ElemType) (s : State) : Out :=
  vector2 d a b m 4 (fun x y => (x ^^^ y, 0)) s

/-- Whole lanes moved from the lanes of a source. -/
def moveLanes (d a : Reg) (L : Nat) (mask : W64) (f : Nat → Nat) (s : State) : Out :=
  let x := s.here.readSrcV a
  vectorOp d [a] [] L mask ((List.range 64).map fun i => x.getD (f i) 0, 0) s

/-- `vsel` (R357): the mask selects, and every lane is written. -/
def execVsel (d a : Reg) (b : VSrc) (m : Reg3) (_ : ElemType) (s : State) : Out :=
  let mask := srcM s m
  let x := s.here.readSrcV a
  let y := s.here.readVSrc b
  vectorOp d (a :: vsrcRegs b) [s.here.checkVSrc b] 4 (BitVec.allOnes 64) (mergeLanes mask y x, 0) s

/-- `vmov` (R357). -/
def execVmov (d a : Reg) (m : Reg3) (_ : ElemType) (s : State) : Out := moveLanes d a 4 (srcM s m) id s

/-- `vbcast` (R358). -/
def execVbcast (d a : Reg) (l : BitVec 6) (m : Reg3) (_ : ElemType) (s : State) : Out :=
  moveLanes d a 3 (srcM s m) (fun _ => l.toNat) s

/-- `vrot` (R358). -/
def execVrot (d a : Reg) (n : BitVec 6) (m : Reg3) (_ : ElemType) (s : State) : Out :=
  moveLanes d a 3 (srcM s m) (fun i => (i + n.toNat) % 64) s

/-- `vperm` (R358). -/
def execVperm (d a : Reg) (b : VSrc) (m : Reg3) (_ : ElemType) (s : State) : Out :=
  let x := s.here.readSrcV a
  let y := s.here.readVSrc b
  vectorOp d (a :: vsrcRegs b) [s.here.checkVSrc b] 3 (srcM s m)
    ((List.range 64).map fun i => x.getD ((y.getD i 0).toNat % 64) 0, 0) s

/-! ### Shifts, comparison, conversion -/

/-- A vector shift (R370). -/
def shiftOp (op : ShiftOp) (d a : Reg) (b : VSrc) (m : Reg3) (t : ElemType) (s : State) : Out :=
  vector2 d a b m 4 (lane2 t fun x n => (op.on t x n, 0)) s

/-- `vshl` (R370). -/
def execVshl (d a : Reg) (b : VSrc) (m : Reg3) (t : ElemType) (s : State) : Out := shiftOp .shl d a b m t s

/-- `vshr` (R370). -/
def execVshr (d a : Reg) (b : VSrc) (m : Reg3) (t : ElemType) (s : State) : Out := shiftOp .shr d a b m t s

/-- `vsra` (R370). -/
def execVsra (d a : Reg) (b : VSrc) (m : Reg3) (t : ElemType) (s : State) : Out := shiftOp .sra d a b m t s

/-- One lane of `vcmp`: whether the condition holds for every element, and the flags. -/
def cmpLane (c : VCond) (t : ElemType) (x y : W32) : Bool × Flags5 :=
  let rs := (List.range t.perLane).map fun j => elemCmp c t (laneElem t x j) (laneElem t y j)
  (rs.all (·.1), rs.foldl (fun fl r => fl ||| r.2) 0)

/-- A mask from one bit a lane. -/
def maskOf (f : Nat → Bool) : W64 := BitVec.ofNat 64 ((List.range 64).foldl (fun n i => if f i then n + 2 ^ i else n) 0)

/-- `vcmp` (R359). -/
def execVcmp (c : VCond) (d : Reg3) (a : Reg) (b : VSrc) (m : Reg3) (t : ElemType) (s : State) : Out :=
  let mask := srcM s m
  let rs := List.zipWith (cmpLane c t) (s.here.readSrcV a) (s.here.readVSrc b)
  let bits := maskOf fun i => (rs.getD i (false, 0)).1
  let fl := (List.range 64).foldl (fun (fl : Flags5) i => if mask.getLsbD i then fl ||| (rs.getD i (false, 0)).2 else fl) 0
  under (checks [s.here.checkSrcV a, s.here.checkVSrc b]) s
    (effect (landFlags 4 fl (land 4 (.m d.toNat mask bits) (popSources (a :: vsrcRegs b) s))))

/-- One lane of `vcvt` (R360): position by position, the rest zero. -/
def cvtLane (nf : Reg2 → BitVec 14) (S T : ElemType) (rm : Rounding) (sat : Bool) (x : W32) : LaneFlags :=
  let rs := (List.range T.perLane).map fun j =>
    if j < S.perLane then convert (elemNumTy nf S) (elemNumTy nf T) rm sat (laneElem S x j) else (0, 0)
  (packLane T (rs.map (·.1)), rs.foldl (fun fl r => fl ||| r.2) 0)

/-- `vcvt` (R360). -/
def execVcvt (d a : Reg) (r : Rounding) (src : ElemType) (m : Reg3) (q : Bool) (t : ElemType) (s : State) : Out :=
  vector1 d a m 4 (cvtLane (recordsOf s) src t r q) s

/-- Whether an element type is an integer type (R80). -/
def isIntType : ElemType → Bool
  | .i32 | .n32 | .i16 | .n16 | .i8 | .n8 => true
  | _ => false

/-- The 32-bit type that `vpack` reads and `vunpk` writes for an element type (R368). -/
def wideTy (t : ElemType) : NumTy := if isIntType t then .int true 32 else .float fmtF32 true

/-- The source registers of `vpack`: k consecutive names (R368). -/
def packSources (a : Reg) (t : ElemType) : List Reg := (List.range t.perLane).map fun j => a + BitVec.ofNat 6 j

/-- Lane i of a `vpack` result from the source registers' lanes. -/
def narrowLane (nf : Reg2 → BitVec 14) (t : ElemType) (rm : Rounding) (sat : Bool) (xs : List (List W32)) (i : Nat) : LaneFlags :=
  let rs := xs.map fun x => convert (wideTy t) (elemNumTy nf t) rm sat (x.getD i 0).toNat
  (packLane t (rs.map (·.1)), rs.foldl (fun fl r => fl ||| r.2) 0)

/-- `vpack` (R368). -/
def execVpack (d a : Reg) (q : Bool) (r : Rounding) (t : ElemType) (s : State) : Out :=
  let srcs := packSources a t
  let xs := srcs.map s.here.readSrcV
  let all := BitVec.allOnes 64
  vectorOp d srcs [] 4 all (maskedFlags all ((List.range 64).map (narrowLane (recordsOf s) t r q xs))) s

/-- One lane of `vunpk` (R368). -/
def widenLane (nf : Reg2 → BitVec 14) (t : ElemType) (p : Nat) (x : W32) : LaneFlags :=
  let (r, fl) := convert (elemNumTy nf t) (wideTy t) .rne false (laneElem t x p)
  (BitVec.ofNat 32 r, fl)

/-- `vunpk` (R368). -/
def execVunpk (d a : Reg) (p : BitVec 2) (t : ElemType) (s : State) : Out :=
  let all := BitVec.allOnes 64
  vectorOp d [a] [] 4 all (maskedFlags all ((s.here.readSrcV a).map (widenLane (recordsOf s) t p.toNat))) s

/-! ### Dot product, prefix, special functions, reduction -/

/-- `vdot4` (R361). -/
def execVdot4 (d a : Reg) (b : VSrc) (m : Reg3) (t : ElemType) (s : State) : Out :=
  let T := elemNumTy (recordsOf s) t
  vector3 d a b m 6
    (fun x y z =>
      let (r, fl) := dot4 T (laneElems t x) (laneElems t y) z.toNat
      (BitVec.ofNat 32 r, fl)) s

/-- The inclusive prefix over active lanes (R82), from the running value. That the first active lane keeps its bits, a NaN's too, and raises
nothing is DEDUCED from R82 (log entry 96). -/
def scanLanes (t : ElemType) (mask : W64) : Nat → Option Nat → List W32 → List LaneFlags
  | _, _, [] => []
  | i, run, x :: xs =>
    if mask.getLsbD i then
      match run with
      | none => (x, 0) :: scanLanes t mask (i + 1) (some x.toNat) xs
      | some y =>
        let (r, fl) := ElemOp.add.on t y x.toNat
        (BitVec.ofNat 32 r, fl) :: scanLanes t mask (i + 1) (some r) xs
    else (x, 0) :: scanLanes t mask (i + 1) run xs

/-- `vscan` (R369). -/
def execVscan (d a : Reg) (m : Reg3) (t : ElemType) (s : State) : Out :=
  vectorOp d [a] [] 8 (srcM s m) (maskedFlags (srcM s m) (scanLanes t (srcM s m) 0 none (s.here.readSrcV a))) s

/-- A special function on the elements of a type that has a float format (R363). -/
def elemSpecial (fn : SpecialFn) (t : ElemType) (x : Nat) : Nat × Flags5 := specialOn fn ((vecFloat t).getD fmtF32) x

/-- A special function of slot VB. -/
def specialVec (fn : SpecialFn) (d a : Reg) (m : Reg3) (t : ElemType) (s : State) : Out :=
  vector1 d a m 12 (lane1 t (elemSpecial fn t)) s

/-- `vrcp` (R363). -/
def execVrcp (d a : Reg) (m : Reg3) (t : ElemType) (s : State) : Out := specialVec .rcp d a m t s

/-- `vrsq` (R363). -/
def execVrsq (d a : Reg) (m : Reg3) (t : ElemType) (s : State) : Out := specialVec .rsq d a m t s

/-- `vsqrt` (R363). -/
def execVsqrt (d a : Reg) (m : Reg3) (t : ElemType) (s : State) : Out := specialVec .sqrt d a m t s

/-- `vexp2` (R363). -/
def execVexp2 (d a : Reg) (m : Reg3) (t : ElemType) (s : State) : Out := specialVec .exp2 d a m t s

/-- `vlog2` (R363). -/
def execVlog2 (d a : Reg) (m : Reg3) (t : ElemType) (s : State) : Out := specialVec .log2 d a m t s

/-- `vtanh` (R363). -/
def execVtanh (d a : Reg) (m : Reg3) (t : ElemType) (s : State) : Out := specialVec .tanh d a m t s

/-- A node of the reduction tree (R87). -/
def treeNode (op : RedOp) (t : ElemType) (x y : Option Nat × Flags5) : Option Nat × Flags5 :=
  match x.1, y.1 with
  | some a, some b =>
    let (r, fl) := combine op t a b
    (some r, x.2 ||| y.2 ||| fl)
  | some a, none => (some a, x.2 ||| y.2)
  | none, b => (b, x.2 ||| y.2)

/-- One level of the tree. -/
def treeLevel (op : RedOp) (t : ElemType) : List (Option Nat × Flags5) → List (Option Nat × Flags5)
  | x :: y :: xs => treeNode op t x y :: treeLevel op t xs
  | xs => xs

/-- The root after six levels, with every flag raised on the way (R87). -/
def treeRoot (op : RedOp) (t : ElemType) (mask : W64) (x : List W32) : Option Nat × Flags5 :=
  let leaves := (List.range 64).map fun i => (if mask.getLsbD i then some (x.getD i 0).toNat else none, (0 : Flags5))
  ((List.range 6).foldl (fun l _ => treeLevel op t l) leaves).headD (none, 0)

/-- `vred` (R362): the root reaches the latch ten issue-cycles later. -/
def execVred (o : RedOp) (n : Reg2) (a : Reg) (m : Reg3) (t : ElemType) (s : State) : Out :=
  let (root, fl) := treeRoot o t (srcM s m) (s.here.readSrcV a)
  let s1 := popSources [a] s
  under (s.here.checkSrcV a) s
    (effect (match root with
      | some x => landFlags 10 fl (land 10 (.ps n.toNat o t (BitVec.ofNat 32 x)) s1)
      | none => s1))

/-- `vdrain` (R123, R362): the latch as visible goes to the active lanes, and is left empty. -/
def execVdrain (d : Reg) (n : Reg2) (m : Reg3) (_ : ElemType) (s : State) : Out :=
  let x := (Sparse.find s.here.regs.ps n.toNat).getD 0
  under (s.here.checkDestV d) s
    (effect (landV d 4 (srcM s m) (List.replicate 64 x)
      (s.mapHere fun c => { c with regs := { c.regs with ps := Sparse.erase c.regs.ps n.toNat } })))

end Sys2Proof.Machine
end

