-- ==== Sys2Proof/Machine/Dispatch.lean ====
section
/-! DEFINITION. The meaning of every instruction: one direct call each. -/

namespace Sys2Proof.Machine

def exec (i : Instr) (s : State) : Host.Outcome State Fault Refusal :=
  match i with
  | .nop => Sys2Proof.Machine.execNop s
  | .add d a b w => Sys2Proof.Machine.execAdd d a b w s
  | .sub d a b w => Sys2Proof.Machine.execSub d a b w s
  | .mul d a b w => Sys2Proof.Machine.execMul d a b w s
  | .mulh d a b w => Sys2Proof.Machine.execMulh d a b w s
  | .div d a b w => Sys2Proof.Machine.execDiv d a b w s
  | .rem d a b w => Sys2Proof.Machine.execRem d a b w s
  | .and d a b => Sys2Proof.Machine.execAnd d a b s
  | .or d a b => Sys2Proof.Machine.execOr d a b s
  | .xor d a b => Sys2Proof.Machine.execXor d a b s
  | .andn d a b => Sys2Proof.Machine.execAndn d a b s
  | .shl d a b w => Sys2Proof.Machine.execShl d a b w s
  | .shr d a b w => Sys2Proof.Machine.execShr d a b w s
  | .sra d a b w => Sys2Proof.Machine.execSra d a b w s
  | .min d a b w => Sys2Proof.Machine.execMin d a b w s
  | .max d a b w => Sys2Proof.Machine.execMax d a b w s
  | .clz d a => Sys2Proof.Machine.execClz d a s
  | .popc d a => Sys2Proof.Machine.execPopc d a s
  | .movGG d a => Sys2Proof.Machine.execMovGG d a s
  | .movMG d a => Sys2Proof.Machine.execMovMG d a s
  | .movGM d a => Sys2Proof.Machine.execMovGM d a s
  | .sel d a b j => Sys2Proof.Machine.execSel d a b j s
  | .cmp n a b w c => Sys2Proof.Machine.execCmp n a b w c s
  | .addi d a im => Sys2Proof.Machine.execAddi d a im s
  | .li d im => Sys2Proof.Machine.execLi d im s
  | .lih d im => Sys2Proof.Machine.execLih d im s
  | .addr d a b u => Sys2Proof.Machine.execAddr d a b u s
  | .mand d a b => Sys2Proof.Machine.execMand d a b s
  | .mor d a b => Sys2Proof.Machine.execMor d a b s
  | .mnot d a => Sys2Proof.Machine.execMnot d a s
  | .mpop d a => Sys2Proof.Machine.execMpop d a s
  | .mfirst d a => Sys2Proof.Machine.execMfirst d a s
  | .ld d a z o p => Sys2Proof.Machine.execLd d a z o p s
  | .st d a z o p => Sys2Proof.Machine.execSt d a z o p s
  | .lds d a im => Sys2Proof.Machine.execLds d a im s
  | .sts d a im => Sys2Proof.Machine.execSts d a im s
  | .ldf d a k o => Sys2Proof.Machine.execLdf d a k o s
  | .ste d a o => Sys2Proof.Machine.execSte d a o s
  | .br o => Sys2Proof.Machine.execBr o s
  | .bc u n o => Sys2Proof.Machine.execBc u n o s
  | .call o => Sys2Proof.Machine.execCall o s
  | .jr d a => Sys2Proof.Machine.execJr d a s
  | .ret => Sys2Proof.Machine.execRet s
  | .loop o => Sys2Proof.Machine.execLoop o s
  | .lsetup a e r => Sys2Proof.Machine.execLsetup a e r s
  | .wait l u c t => Sys2Proof.Machine.execWait l u c t s
  | .fenceEng => Sys2Proof.Machine.execFenceEng s
  | .fenceSysAcq => Sys2Proof.Machine.execFenceSysAcq s
  | .fenceSysRel => Sys2Proof.Machine.execFenceSysRel s
  | .fenceSys => Sys2Proof.Machine.execFenceSys s
  | .gear g w => Sys2Proof.Machine.execGear g w s
  | .phase o im e m => Sys2Proof.Machine.execPhase o im e m s
  | .fmtsetImm n r => Sys2Proof.Machine.execFmtsetImm n r s
  | .fmtsetReg n a => Sys2Proof.Machine.execFmtsetReg n a s
  | .time d => Sys2Proof.Machine.execTime d s
  | .cycles d => Sys2Proof.Machine.execCycles d s
  | .done a => Sys2Proof.Machine.execDone a s
  | .yield => Sys2Proof.Machine.execYield s
  | .park a b w => Sys2Proof.Machine.execPark a b w s
  | .trap c => Sys2Proof.Machine.execTrap c s
  | .rdsr d n => Sys2Proof.Machine.execRdsr d n s
  | .wrsr a n => Sys2Proof.Machine.execWrsr a n s
  | .brk c => Sys2Proof.Machine.execBrk c s
  | .vadd d a b m t => Sys2Proof.Machine.execVadd d a b m t s
  | .vsub d a b m t => Sys2Proof.Machine.execVsub d a b m t s
  | .vmul d a b m t => Sys2Proof.Machine.execVmul d a b m t s
  | .vfma d a b m t => Sys2Proof.Machine.execVfma d a b m t s
  | .vmin d a b m t => Sys2Proof.Machine.execVmin d a b m t s
  | .vmax d a b m t => Sys2Proof.Machine.execVmax d a b m t s
  | .vabs d a m t => Sys2Proof.Machine.execVabs d a m t s
  | .vneg d a m t => Sys2Proof.Machine.execVneg d a m t s
  | .vand d a b m t => Sys2Proof.Machine.execVand d a b m t s
  | .vor d a b m t => Sys2Proof.Machine.execVor d a b m t s
  | .vxor d a b m t => Sys2Proof.Machine.execVxor d a b m t s
  | .vshl d a b m t => Sys2Proof.Machine.execVshl d a b m t s
  | .vshr d a b m t => Sys2Proof.Machine.execVshr d a b m t s
  | .vsra d a b m t => Sys2Proof.Machine.execVsra d a b m t s
  | .vcmp c d a b m t => Sys2Proof.Machine.execVcmp c d a b m t s
  | .vsel d a b m t => Sys2Proof.Machine.execVsel d a b m t s
  | .vmov d a m t => Sys2Proof.Machine.execVmov d a m t s
  | .vbcast d a l m t => Sys2Proof.Machine.execVbcast d a l m t s
  | .vperm d a b m t => Sys2Proof.Machine.execVperm d a b m t s
  | .vrot d a n m t => Sys2Proof.Machine.execVrot d a n m t s
  | .vcvt d a r u m q t => Sys2Proof.Machine.execVcvt d a r u m q t s
  | .vpack d a q r t => Sys2Proof.Machine.execVpack d a q r t s
  | .vunpk d a p t => Sys2Proof.Machine.execVunpk d a p t s
  | .vdot4 d a b m t => Sys2Proof.Machine.execVdot4 d a b m t s
  | .vscan d a m t => Sys2Proof.Machine.execVscan d a m t s
  | .vrcp d a m t => Sys2Proof.Machine.execVrcp d a m t s
  | .vrsq d a m t => Sys2Proof.Machine.execVrsq d a m t s
  | .vsqrt d a m t => Sys2Proof.Machine.execVsqrt d a m t s
  | .vexp2 d a m t => Sys2Proof.Machine.execVexp2 d a m t s
  | .vlog2 d a m t => Sys2Proof.Machine.execVlog2 d a m t s
  | .vtanh d a m t => Sys2Proof.Machine.execVtanh d a m t s
  | .vred o n a m t => Sys2Proof.Machine.execVred o n a m t s
  | .vdrain d n m t => Sys2Proof.Machine.execVdrain d n m t s
  | .vld d a o m => Sys2Proof.Machine.execVld d a o m s
  | .vst d a o m => Sys2Proof.Machine.execVst d a o m s
  | .vldf d a o m k => Sys2Proof.Machine.execVldf d a o m k s
  | .vste d a o m => Sys2Proof.Machine.execVste d a o m s
  | .vldm d a o m p => Sys2Proof.Machine.execVldm d a o m p s
  | .vstm d a o m p => Sys2Proof.Machine.execVstm d a o m p s
  | .vgath d a im m p => Sys2Proof.Machine.execVgath d a im m p s
  | .vscat d a im m p => Sys2Proof.Machine.execVscat d a im m p s
  | .feset d a f => Sys2Proof.Machine.execFeset d a f s
  | .sbind d w n => Sys2Proof.Machine.execSbind d w n s
  | .sfree d => Sys2Proof.Machine.execSfree d s
  | .hold a b c d n => Sys2Proof.Machine.execHold a b c d n s
  | .mma t a b x y z u => Sys2Proof.Machine.execMma t a b x y z u s
  | .tzero t => Sys2Proof.Machine.execTzero t s
  | .tld t g n => Sys2Proof.Machine.execTld t g n s
  | .tst t g n => Sys2Proof.Machine.execTst t g n s
  | .tcvt t g n x r u => Sys2Proof.Machine.execTcvt t g n x r u s
  | .rdef n a b => Sys2Proof.Machine.execRdef n a b s
  | .rpush n c => Sys2Proof.Machine.execRpush n c s
  | .rstat n d => Sys2Proof.Machine.execRstat n d s
  | .scl u a => Sys2Proof.Machine.execScl u a s
  | .copy u d w v b => Sys2Proof.Machine.execCopy u d w v b s
  | .bini a n k => Sys2Proof.Machine.execBini a n k s
  | .barv a b r => Sys2Proof.Machine.execBarv a b r s
  | .bwait a p => Sys2Proof.Machine.execBwait a p s
  | .pbar l g x => Sys2Proof.Machine.execPbar l g x s
  | .atadd d a b w => Sys2Proof.Machine.execAtadd d a b w s
  | .atand d a b w => Sys2Proof.Machine.execAtand d a b w s
  | .ator d a b w => Sys2Proof.Machine.execAtor d a b w s
  | .atxor d a b w => Sys2Proof.Machine.execAtxor d a b w s
  | .atmin d a b w u => Sys2Proof.Machine.execAtmin d a b w u s
  | .atmax d a b w u => Sys2Proof.Machine.execAtmax d a b w u s
  | .atswp d a b w => Sys2Proof.Machine.execAtswp d a b w s
  | .atcas d a b c w => Sys2Proof.Machine.execAtcas d a b c w s
  | .cadd v a m => Sys2Proof.Machine.execCadd v a m s
  | .crng n b l t o => Sys2Proof.Machine.execCrng n b l t o s
  | .rflush a l b => Sys2Proof.Machine.execRflush a l b s
  | .rinv a l b => Sys2Proof.Machine.execRinv a l b s
  | .pref a l p => Sys2Proof.Machine.execPref a l p s
  | .resultLanding h => Sys2Proof.Machine.execResultLanding h s
  | .deliver h k => Sys2Proof.Machine.execDeliver h k s
  | .translationResult h => Sys2Proof.Machine.execTranslationResult h s
  | .storePerformed h => Sys2Proof.Machine.execStorePerformed h s
  | .feEntryPerform h => Sys2Proof.Machine.execFeEntryPerform h s
  | .streamFetch h x => Sys2Proof.Machine.execStreamFetch h x s
  | .matrixOpStart c => Sys2Proof.Machine.execMatrixOpStart c s
  | .matrixOpRetire c => Sys2Proof.Machine.execMatrixOpRetire c s
  | .holdLimitExpiry h => Sys2Proof.Machine.execHoldLimitExpiry h s
  | .copyBytesLanded c ch off n => Sys2Proof.Machine.execCopyBytesLanded c ch off n s
  | .barrierCount c k => Sys2Proof.Machine.execBarrierCount c k s
  | .barvUpdate h => Sys2Proof.Machine.execBarvUpdate h s
  | .copyFault c ch peerError => Sys2Proof.Machine.execCopyFault c ch peerError s
  | .copyLost c ch => Sys2Proof.Machine.execCopyLost c ch s
  | .copyComplete c ch => Sys2Proof.Machine.execCopyComplete c ch s
  | .pbarArrival h => Sys2Proof.Machine.execPbarArrival h s
  | .pbarRelease h => Sys2Proof.Machine.execPbarRelease h s
  | .homeLoadRequest h => Sys2Proof.Machine.execHomeLoadRequest h s
  | .homeStoreRequest h => Sys2Proof.Machine.execHomeStoreRequest h s
  | .homeOwnRequest h => Sys2Proof.Machine.execHomeOwnRequest h s
  | .homeAtomicRequest h => Sys2Proof.Machine.execHomeAtomicRequest h s
  | .caddPartialRequest h => Sys2Proof.Machine.execCaddPartialRequest h s
  | .recallOwner line => Sys2Proof.Machine.execRecallOwner line s
  | .invalidation line d => Sys2Proof.Machine.execInvalidation line d s
  | .combineRecall line d => Sys2Proof.Machine.execCombineRecall line d s
  | .ownerWriteback line => Sys2Proof.Machine.execOwnerWriteback line s
  | .evictionAnnounce line c => Sys2Proof.Machine.execEvictionAnnounce line c s
  | .backInvalidationResponse line dirty => Sys2Proof.Machine.execBackInvalidationResponse line dirty s
  | .hostRead pa => Sys2Proof.Machine.execHostRead pa s
  | .hostReadShared pa => Sys2Proof.Machine.execHostReadShared pa s
  | .hostWrite pa data own => Sys2Proof.Machine.execHostWrite pa data own s
  | .directoryError die line hostDirty dataLost => Sys2Proof.Machine.execDirectoryError die line hostDirty dataLost s
  | .tlbSoftError k => Sys2Proof.Machine.execTlbSoftError k s
  | .start im => Sys2Proof.Machine.execStart im s
  | .parkCmd im => Sys2Proof.Machine.execParkCmd im s
  | .unpark im => Sys2Proof.Machine.execUnpark im s
  | .kill im => Sys2Proof.Machine.execKill im s
  | .resumeFault im => Sys2Proof.Machine.execResumeFault im s
  | .resumeHostCall im => Sys2Proof.Machine.execResumeHostCall im s
  | .refresh im => Sys2Proof.Machine.execRefresh im s
  | .registerBlock im => Sys2Proof.Machine.execRegisterBlock im s
  | .unregisterBlock im => Sys2Proof.Machine.execUnregisterBlock im s
  | .waitListEvaluation im => Sys2Proof.Machine.execWaitListEvaluation im s
  | .waitListPoll im => Sys2Proof.Machine.execWaitListPoll im s
  | .parkWake h => Sys2Proof.Machine.execParkWake h s
  | .parkPoll h => Sys2Proof.Machine.execParkPoll h s
  | .shootDownRange => Sys2Proof.Machine.execShootDownRange s
  | .shootDownAsid => Sys2Proof.Machine.execShootDownAsid s
  | .shootDownAll => Sys2Proof.Machine.execShootDownAll s
  | .shootDownComplete => Sys2Proof.Machine.execShootDownComplete s
  | .sealImage => Sys2Proof.Machine.execSealImage s
  | .sealComplete => Sys2Proof.Machine.execSealComplete s
  | .sealRelease => Sys2Proof.Machine.execSealRelease s
  | .attestation => Sys2Proof.Machine.execAttestation s
  | .controlFieldWrite pa data => Sys2Proof.Machine.execControlFieldWrite pa data s
  | .deviceHeartbeat => Sys2Proof.Machine.execDeviceHeartbeat s
  | .heartbeatLoss => Sys2Proof.Machine.execHeartbeatLoss s
  | .resourceReport c => Sys2Proof.Machine.execResourceReport c s
  | .gangIssueStart im => Sys2Proof.Machine.execGangIssueStart im s
  | .kennelRestore im => Sys2Proof.Machine.execKennelRestore im s
  | .priorityBoost im => Sys2Proof.Machine.execPriorityBoost im s
  | .blockingTimeout im => Sys2Proof.Machine.execBlockingTimeout im s
  | .haltComplete im => Sys2Proof.Machine.execHaltComplete im s
  | .watchdogExpiry im => Sys2Proof.Machine.execWatchdogExpiry im s
  | .watchdogStage2 im => Sys2Proof.Machine.execWatchdogStage2 im s
  | .watchdogStage3 im c => Sys2Proof.Machine.execWatchdogStage3 im c s
  | .timestampRebase => Sys2Proof.Machine.execTimestampRebase s
  | .ptsTick => Sys2Proof.Machine.execPtsTick s
  | .gearSettleStart c => Sys2Proof.Machine.execGearSettleStart c s
  | .gearChangeover c => Sys2Proof.Machine.execGearChangeover c s
  | .changeoverEnd c => Sys2Proof.Machine.execChangeoverEnd c s
  | .energyWindowRoll c => Sys2Proof.Machine.execEnergyWindowRoll c s
  | .energyStall c => Sys2Proof.Machine.execEnergyStall c s
  | .emisRunClose h => Sys2Proof.Machine.execEmisRunClose h s
  | .surchargeDecay h => Sys2Proof.Machine.execSurchargeDecay h s
  | .leashRecompute d => Sys2Proof.Machine.execLeashRecompute d s
  | .tokenRing => Sys2Proof.Machine.execTokenRing s
  | .bark d q run => Sys2Proof.Machine.execBark d q run s
  | .barkEnd c => Sys2Proof.Machine.execBarkEnd c s
  | .idleEntry level => Sys2Proof.Machine.execIdleEntry level s
  | .idleResume => Sys2Proof.Machine.execIdleResume s
  | .fabricWrite w => Sys2Proof.Machine.execFabricWrite w s
  | .fabricBarrierSignal src packId level3 core pos barrier bytes fault => Sys2Proof.Machine.execFabricBarrierSignal src packId level3 core pos barrier bytes fault s
  | .peerAtomicRequest r => Sys2Proof.Machine.execPeerAtomicRequest r s
  | .peerAtomicResponse h error old => Sys2Proof.Machine.execPeerAtomicResponse h error old s
  | .fabricPortFailure port => Sys2Proof.Machine.execFabricPortFailure port s
  | .deviceReset status => Sys2Proof.Machine.execDeviceReset status s
  | .malformedCommand im => Sys2Proof.Machine.execMalformedCommand im s
  | .shootDownUnassignedKind => Sys2Proof.Machine.execShootDownUnassignedKind s
  | .sealUnassignedKind => Sys2Proof.Machine.execSealUnassignedKind s
  | .hostAtomic pa op width b c => Sys2Proof.Machine.execHostAtomic pa op width b c s
  | .hostWriteCompletion k => Sys2Proof.Machine.execHostWriteCompletion k s
  | .issueRotation h => Sys2Proof.Machine.execIssueRotation h s
  | .residencyFloorExpiry im => Sys2Proof.Machine.execResidencyFloorExpiry im s

end Sys2Proof.Machine
end

