-- ==== Sys2Proof/Machine/Issue.lean ====
section
/-! DEFINITION. The issue of a bundle (R22 to R30, R89 to R99, R232): readiness, fetch, the slots, the schedule word; and what follows
by itself once a context has ended or halted for its owner (R156, R222, R294). -/

namespace Sys2Proof.Machine

/-! ### Readiness (R93, R232) -/

/-- Whether a `pbar` is complete: it is released, and where a gear was named or a request dropped, every member's core on which a
member stands has settled; at level 3 the other devices have said so of theirs too (R191, R192, R245). -/
def pbarDone (s : State) (c : Ctx) : Bool :=
  match c.work.pbar with
  | none => true
  | some p =>
    p.released && ((p.gear.isNone && !p.drop) || packSettled s c.cont (members s c.cont c.rank p.level)) &&
      (p.gear.isNone || p.level != 3 || (s.cont c.cont).allSaid (s.cont c.cont).settled3 p.nth)

/-- Whether a push whose count has come is still to be written: it goes before any bundle of that count or a later one (R119). That such a
bundle waits for it is DEDUCED (log entry 93). -/
def Ctx.pushDue (c : Ctx) : Bool := c.work.landing.any fun p => p.eff.isPush && !p.held && decide (p.due ≤ c.count)

/-- Whether the engine waits between bundles are over: `bwait`, `pbar`, `park`, `gear.w`, `feset`, a replay list, a push
(R99, R112, R119, R189, R191, R242, R320). -/
def waitsOver (s : State) (h : Nat) : Bool :=
  let c := s.ctx h
  let w := c.work
  w.replay.isEmpty && !c.pushDue && w.feset.isNone && w.bwait.isNone && w.park.isNone && pbarDone s c && (!w.gearWait || settledCore s (coreOf h))

/-- Whether a context is resident and may run (R232): neither halted nor parked nor ended, and no halt of its continuation is requested,
unless its hold window is open (R234). -/
def mayRun (s : State) (h : Nat) : Bool :=
  let c := s.ctx h
  let k := s.cont c.cont
  (Sparse.find s.ctxs h).isSome && c.able && c.started && c.lost.isNone && k.state == .running && (k.halt.isNone || c.work.openHold.isSome)

/-- Whether another context of the core has a hold window open (R121). -/
def heldElsewhere (s : State) (h : Nat) : Bool :=
  s.ctxs.any fun e => e.1 != h && coreOf e.1 == coreOf h && e.2.work.openHold.isSome

/-- Whether a core issues in its current cycle, at whose start its choice falls (R232, R242, R249, R256, R257): of the halved cycles after a
bark only those b + 2j. -/
def coreIssues (s : State) (c : Nat) : Bool :=
  let k := s.core c
  !k.issued && k.atCycleStart && k.pause == 0 && !k.gated && !k.fenced && decide (k.windowCycle < 256) && !s.leashed c &&
    (decide (k.halve % 2 = 1) || k.halve == 0 || s.coreHeld c)

/-- Whether a context is ready, as far as its instructions themselves do not stall (R232). -/
def readyCtx (s : State) (h : Nat) : Bool := mayRun s h && (s.ctx h).stallLeft == 0 && !(s.ctx h).tried && waitsOver s h

/-! ### Fetch (R22, R37) -/

/-- The bundle at a context's pc, from its sealed copy. The instruction cache is not held: that a fetch takes no time is a DESIGN CHOICE (log
entry 95). -/
def fetchBundle (s : State) (h : Nat) : Except Fault Bundle :=
  let c := s.ctx h
  if !inCode s c c.pc then .error .fetchOutsideCode
  else
    let first := (c.pc - c.regs.image).toNat / 4
    let im := s.imageOf c.cont
    match decodeBundle ((List.range 8).map fun k => Sparse.get 0 im.code (first + k)) with
    | .ok b => .ok b
    | .error _ => .error .refusedWord

/-- The budget units that a context's next bundle charges (R246, R250). -/
def nextCharge (s : State) (h : Nat) : Nat :=
  match fetchBundle s h with
  | .ok b => b.sched.wt.toNat + 4 * (s.ctx h).energy.step
  | .error _ => 0

/-- Whether the die of a context can spend what its next bundle charges; in a hold window nothing stands against it (R121, R258). -/
def affords (s : State) (h : Nat) : Bool :=
  s.dieRoom (coreOf h) (31 + 4 * (s.ctx h).energy.step) || s.coreHeld (coreOf h) || s.dieRoom (coreOf h) (nextCharge s h)

/-- Whether a context's next bundle may issue now, as far as its instructions themselves do not stall (R232). -/
def ready (s : State) (h : Nat) : Bool := readyCtx s h && coreIssues s (coreOf h) && !heldElsewhere s h && affords s h

/-- The base priority of a context's continuation (R229, R232). -/
def priorityOf (s : State) (h : Nat) : Nat := (s.cont (s.ctx h).cont).launch.priority

/-- The context that a core issues next (R232): of the highest priority the one that issued last and has stayed ready, else the next by
round robin. -/
def pickOn (s : State) (c : Nat) : Option Nat :=
  let able := ((List.range 4).map (4 * c + ·)).filter (ready s)
  let top := able.foldl (fun m h => max m (priorityOf s h)) 0
  let best := able.filter fun h => priorityOf s h == top
  let k := s.core c
  let last := 4 * c + k.lastPos
  if best.contains last && !k.rotated && decide (0 < (s.ctx last).runCycles) then some last
  else ((List.range 4).map fun d => 4 * c + (k.lastPos + 1 + d) % 4).find? best.contains

/-! ### The slots of a bundle (R28, R93, R96) -/

/-- Whether the guard of a slot is on (R28). -/
def guardOn (q : BitVec 8) (b : Bundle) (k : Nat) : Bool :=
  let g := (b.sched.guard.getD k 0).toNat
  g == 0 || q.getLsbD (g - 1)

/-- A slot that reads scratchpad words at issue: it reads before the stores of its own bundle (R346). -/
def readsAtIssue : Instr → Bool
  | .lds .. | .vld .. | .scl .. => true
  | _ => false

/-- The executing slots of a bundle with their instructions, in the order in which they take effect. -/
def executing (q : BitVec 8) (b : Bundle) : List (Nat × Instr) :=
  let on := (b.slots.mapIdx fun k i => (k, i)).filter fun e => guardOn q b e.1
  on.filter (fun e => readsAtIssue e.2) ++ on.filter fun e => !readsAtIssue e.2

/-- What the slots of a bundle have come to: the state so far, a stall, the fault of the lowest slot, and what slot 0 has achieved while
it waits. -/
structure Slots where
  st : State
  stalled : Bool
  fault : Option (Nat × FaultClass × Nat)
  progress : Option State
  deriving DecidableEq, Repr

/-- The lower of two faulting slots (R96). -/
def lowerFault (x : Option (Nat × FaultClass × Nat)) (y : Nat × FaultClass × Nat) : Option (Nat × FaultClass × Nat) :=
  match x with
  | some f => if y.1 < f.1 then some y else some f
  | none => some y

/-- One slot of a bundle. -/
def runSlot (h : Nat) (r : Slots) (e : Nat × Instr) : Except Out Slots :=
  match exec e.2 { r.st with focusCtx := h, focusSlot := e.1, signal := .none } with
  | .next s =>
    match s.signal with
    | .none => .ok { r with st := s }
    | .waits => .ok { r with stalled := true, progress := if e.1 = 0 then some s else r.progress }
    | .fault cls addr => .ok { r with fault := lowerFault r.fault (e.1, cls, addr) }
  | o => .error o

/-- The slots of a bundle one after another. -/
def runSlots (h : Nat) : List (Nat × Instr) → Slots → Except Out Slots
  | [], r => .ok r
  | e :: es, r =>
    match runSlot h r e with
    | .ok r => runSlots h es r
    | .error o => .error o

/-! ### The schedule word (R25 to R30) -/

/-- Active lanes of a vector instruction of slot VA or VB (R255); the m of `vsel` chooses and masks none (R357). -/
def activeLanesOf (r : Regs) : Instr → Nat
  | .vadd _ _ _ m _ | .vsub _ _ _ m _ | .vmul _ _ _ m _ | .vfma _ _ _ m _ | .vmin _ _ _ m _ | .vmax _ _ _ m _ | .vabs _ _ m _
  | .vneg _ _ m _ | .vand _ _ _ m _ | .vor _ _ _ m _ | .vxor _ _ _ m _ | .vshl _ _ _ m _ | .vshr _ _ _ m _ | .vsra _ _ _ m _
  | .vcmp _ _ _ _ m _ | .vmov _ _ m _ | .vbcast _ _ _ m _ | .vperm _ _ _ m _ | .vrot _ _ _ m _
  | .vcvt _ _ _ _ m _ _ | .vdot4 _ _ _ m _ | .vscan _ _ m _ | .vrcp _ _ m _ | .vrsq _ _ m _ | .vsqrt _ _ m _ | .vexp2 _ _ m _
  | .vlog2 _ _ m _ | .vtanh _ _ m _ | .vred _ _ _ m _ | .vdrain _ _ m _ => ((List.range 64).filter (r.readM m.toNat).getLsbD).length
  | .vsel .. | .vpack .. | .vunpk .. => 64
  | _ => 0

/-- The first source, field a, of a vector instruction (R29); `vdrain` has none. -/
def firstSource : Instr → Option Reg
  | .vadd _ a _ _ _ | .vsub _ a _ _ _ | .vmul _ a _ _ _ | .vfma _ a _ _ _ | .vmin _ a _ _ _ | .vmax _ a _ _ _ | .vabs _ a _ _
  | .vneg _ a _ _ | .vand _ a _ _ _ | .vor _ a _ _ _ | .vxor _ a _ _ _ | .vshl _ a _ _ _ | .vshr _ a _ _ _ | .vsra _ a _ _ _
  | .vcmp _ _ a _ _ _ | .vsel _ a _ _ _ | .vmov _ a _ _ | .vbcast _ a _ _ _ | .vperm _ a _ _ _ | .vrot _ a _ _ _
  | .vcvt _ a _ _ _ _ _ | .vpack _ a _ _ _ | .vunpk _ a _ _ | .vdot4 _ a _ _ _ | .vscan _ a _ _ | .vrcp _ a _ _ | .vrsq _ a _ _
  | .vsqrt _ a _ _ | .vexp2 _ a _ _ | .vlog2 _ a _ _ | .vtanh _ a _ _ | .vred _ _ a _ _ => some a
  | _ => none

/-- The latch of a vector slot after an executed instruction, and whether a set reuse bit was incorrect (R29). -/
def latchAfter (c : Ctx) (l : Option OperandLatch) (reuse : Bool) (i : Instr) : Option OperandLatch × Bool :=
  match firstSource i with
  | none => (none, reuse)
  | some x =>
    if (c.bound x.toNat).isSome then (none, reuse)
    else
      let p := c.phys x.toNat
      let correct := l.any fun l => l.cont == c.cont && l.rank == c.rank && l.reg == p && l.fresh
      (some { cont := c.cont, rank := c.rank, reg := p, fresh := true, value := c.regs.readV p }, reuse && !correct)

/-- The executed instruction of a slot; `nop` counts as none (R29). -/
def executedIn (es : List (Nat × Instr)) (k : Nat) : Option Instr :=
  (es.find? fun e => e.1 == k && e.2 != .nop).map (·.2)

/-- The operand latches of slots VA and VB, and the reuse misses (R29), from the context as the bundle found it. -/
def reuseBits (h : Nat) (c : Ctx) (b : Bundle) (es : List (Nat × Instr)) (s : State) : State :=
  let k := s.core (coreOf h)
  let (la, ma) := match executedIn es 2 with | some i => latchAfter c k.latchA b.sched.reuseA i | none => (k.latchA, false)
  let (lb, mb) := match executedIn es 3 with | some i => latchAfter c k.latchB b.sched.reuseB i | none => (k.latchB, false)
  let misses := (if ma then 1 else 0) + (if mb then 1 else 0)
  (s.mapCore (coreOf h) fun k => { k with latchA := la, latchB := lb }).mapCtx h fun c =>
    { c with regs := { c.regs with reusemiss := c.regs.reusemiss + misses } }

/-- The lanes that slots VA and VB of a bundle execute (R255). -/
def bundleLanes (r : Regs) (es : List (Nat × Instr)) : Nat :=
  ((es.filter fun e => e.1 == 2 || e.1 == 3).map fun e => activeLanesOf r e.2).sum

/-- The energy of a bundle (R246, R250) and its wake trigger (R255). -/
def chargeBundle (h : Nat) (c : Ctx) (b : Bundle) (lanes : Nat) (s : State) : State :=
  let wt := b.sched.wt.toNat
  let s := wakeTrigger h lanes (charge (coreOf h) (wt + 4 * c.energy.step) s)
  let now := (s.core (coreOf h)).cycles
  s.mapCtx h fun c =>
    { c with energy := { c.energy with declared := c.energy.declared + wt }, vecSince := if lanes = 0 then c.vecSince else some now }

/-- Core cycles that a taken branch other than `loop` costs (R91). -/
def branchCost (es : List (Nat × Instr)) (taken : Bool) : Nat :=
  match executedIn es 0 with
  | some (.loop _) => 0
  | _ => if taken then 2 else 0

/-- A bundle of an open hold window has issued (R122). -/
def HoldWindow.issued (w : HoldWindow) : Option HoldWindow := if w.left ≤ 1 then none else some { w with left := w.left - 1 }

/-- The context after its bundle: pc, count, declared stall, hold window, cycles of issue without becoming unready (R24, R26, R91, R122, R232);
`rotated` says that it has just yielded. That the cost of a branch and the declared stall add is a DESIGN CHOICE (log entry 60), and so is that
a taken branch makes the context unready (log entry 100). -/
def Ctx.advance (rotated : Bool) (before c : Ctx) (b : Bundle) (es : List (Nat × Instr)) : Ctx :=
  let stall := b.sched.stall.toNat
  let cost := branchCost es c.branchTo.isSome
  { c with
    pc := c.branchTo.getD (c.pc + 32), branchTo := none, count := c.count + 1 + stall, retired := c.retired + 1,
    stallLeft := 1 + stall + cost, span := 1 + stall, runCycles := if rotated || stall + cost != 0 then 0 else c.runCycles + 1
    work := { c.work with hold := match before.work.hold with | some w => w.issued | none => c.work.hold } }

/-- Everything of a bundle that has issued but its slots' own effects. -/
def finishBundle (h : Nat) (before : Ctx) (b : Bundle) (es : List (Nat × Instr)) (s : State) : State :=
  let s := reuseBits h before b es (chargeBundle h before b (bundleLanes before.regs es) s)
  let rotated := (s.core (coreOf h)).rotated
  let s := s.mapCtx h fun c => before.advance rotated c b es
  let s := s.mapCore (coreOf h) fun k => { k with issued := true, lastPos := h % 4 }
  let s := s.mapCont before.cont fun k => { k with clock := 0 }
  landDue h { s with focusCtx := h, focusSlot := 0, signal := .none }

/-- A bundle that stalls whole (R93): only what a fence of slot 0 has begun stays. The context is not ready in this core cycle. -/
def stallBundle (h : Nat) (r : Slots) (s : State) : State :=
  let s := match r.progress with
    | some p => { s with store := p.store, dev := p.dev }
    | none => s
  s.mapCtx h fun c => { c with tried := true, runCycles := 0 }

/-- The waits that the next bundle ends, and the mark of a rotation that it uses up. -/
def beginBundle (h : Nat) (s : State) : State :=
  let s := s.mapCtx h fun c => { c with work := { c.work with gearWait := false, pbar := none } }
  s.mapCore (coreOf h) fun k => { k with rotated := false }

/-- Whether a context's next bundle would stall whole on what its instructions wait for (R93, R232). -/
def wouldStall (s : State) (h : Nat) : Bool :=
  match fetchBundle s h with
  | .error _ => false
  | .ok b =>
    match runSlots h (executing (s.ctx h).regs.q b) { st := beginBundle h s, stalled := false, fault := none, progress := none } with
    | .ok r => r.stalled
    | .error _ => false

/-- A fetched bundle of a ready context. -/
def runBundle (h : Nat) (b : Bundle) (s : State) : Out :=
  let before := s.ctx h
  let es := executing before.regs.q b
  match runSlots h es { st := beginBundle h s, stalled := false, fault := none, progress := none } with
  | .error o => o
  | .ok r =>
    if r.stalled then .next (stallBundle h r s)
    else
      match r.fault with
      | some (k, cls, addr) => .next { takePrecise h k cls addr s with focusCtx := h, focusSlot := 0, signal := .none }
      | none => .next (finishBundle h before b es r.st)

/-- THE ISSUE OF A CONTEXT's NEXT BUNDLE, where it is the context that its core issues now (R232); otherwise nothing moves. The bundle
after a hold window that ran out takes the hold fault (R122). -/
def issueBundle (h : Nat) (s : State) : Out :=
  if pickOn s (coreOf h) ≠ some h then .next s
  else if (s.ctx h).work.holdFault || (s.ctx h).work.overran then
    .next (takePrecise h 0 .hold 0 (s.mapCtx h fun c => { c with work := { c.work with hold := none, holdFault := false } }))
  else
    match fetchBundle s h with
    | .error f => .fault f
    | .ok b => runBundle h b s

/-! ### What follows by itself -/

/-- The end of a context after its release (R294): what it still has in flight is discarded. -/
def Ctx.quiet (c : Ctx) : Ctx :=
  { c with phase := none, work := { c.work with landing := [], streams := [], binds := [], frozen := [] } }

/-- A context that executed `done` has released: it ends (R156, R191, R294). -/
def endContext (h : Nat) (exit : W64) (s : State) : State :=
  let c := s.ctx h
  let s := (s.mapCtx h Ctx.quiet).mapCore (coreOf h) fun k => { k with queue := k.queue.filter fun o => o.ctx != h }
  signalLevel3 c.cont (s.mapCont c.cont fun k =>
    { k with ended := c.rank :: k.ended, endTop := max k.endTop c.pts, exitSeen := if c.rank = 0 then exit else k.exitSeen })

/-- `done` of a context: its release goes on, and ends it when it is complete and no copy of it is in flight (R182, R294). -/
def settleEnd (h : Nat) (s : State) : State :=
  let c := s.ctx h
  match c.ended with
  | none => s
  | some x =>
    if (s.cont c.cont).ended.contains c.rank || !c.work.barvs.isEmpty || s.outCopies h != 0 then s
    else
      let (s, released) := releaseStep h s
      if released then endContext h x s else s

/-- A `g` register as visible at the context's next count (R89, R222): what lands in it by then has landed. -/
def Ctx.nextG (c : Ctx) (r : Nat) : W64 :=
  (sortPending (c.work.landing.filter fun p => decide (p.due ≤ c.count))).foldl
    (fun x p => match p.eff with | .g i y => if i = r then y else x | _ => x) (c.regs.readG r)

/-- The argument line and state line of a host call, and the owner's notice (R221, R222). -/
def presentCall (i rank : Nat) (c : Ctx) (code : Nat) (s : State) : State :=
  let args := ((List.range 8).map fun n => leBytes 8 (c.nextG (n + 1)).toNat).flatten
  let s := distWrite ((s.cont i).block + 0xC0) args s
  let s := s.mapCont i fun k => { k with callPending := true, callOf := some rank, code := code, callRank := rank }
  sendNotice i 2 (writeLine i s)

/-- Whether g1 to g8 of a context are those visible at its next count: no value is on its way to one of them (R222). -/
def Ctx.argsReady (c : Ctx) : Bool := (List.range 8).all fun n => !c.busyG (n + 1)

/-- The next call of a continuation that waits to be presented, oldest first (R222). -/
def nextCall (i : Nat) (s : State) : State :=
  match (s.cont i).callOf, (s.cont i).callQueue with
  | none, r :: rs =>
    let rest := s.mapCont i fun k => { k with callQueue := rs }
    match s.ctxOf i r with
    | some c => match c.call with
      | some x => if c.argsReady then presentCall i r c x.code rest else s
      | none => rest
    | none => rest
  | _, _ => s

/-- A context halted for its owner: after its release its call waits its turn (R222, R284, R352). -/
def settleCall (h : Nat) (s : State) : State :=
  let c := s.ctx h
  let k := s.cont c.cont
  match c.call with
  | none => s
  | some x =>
    if k.state.isEnd || k.callOf == some c.rank || k.callQueue.contains c.rank then s
    else
      let (s, released) := if isDeviceTrap x.code then (s, true) else releaseStep h s
      if released then s.mapCont c.cont fun k => { k with callQueue := k.callQueue ++ [c.rank] } else s

/-- A context stops for a copy-lost at its bundle boundary (R183). -/
def settleLost (h : Nat) (s : State) : State :=
  let c := s.ctx h
  match c.lost with
  | some f => if c.work.openHold.isSome then s else takeFault h f (s.mapCtx h fun c => { c with lost := none })
  | none => s

/-- What a context does by itself. -/
def settleCtx (s : State) (h : Nat) : State := settleCall h (settleEnd h (settleLost h (runPrefetches h s)))

/-- A continuation whose contexts have all ended, with no fault pending, is DONE with cause 1 and rank 0's status (R215, R295), unless a stage of
its watchdog has begun (R239). It waits for the changeover pauses of its cores, in which their banks take no write (R244). -/
def settleCont (s : State) (i : Nat) : State :=
  let c := s.cont i
  if c.state == .running && c.launch.contexts ≤ c.ended.length && !c.faultPending && c.stage == 0 && unpaused s i then endAndFree i .done 1 c.exitSeen s
  else nextCall i s

/-! ### Requests at the engine ports that stand no more (R107, R121) -/

/-- Whether banks of a core lie in the window of a hardware context. -/
def banksIn (s : State) (core : Nat) (banks : List Nat) (h : Nat) : Bool :=
  let c := s.ctx h
  coreOf h == core && banks.all fun b => decide (c.base ≤ 65536 * b) && decide (65536 * b < c.base + c.window)

/-- The hardware contexts in whose windows a copy reads or writes. -/
def Channel.windows (s : State) (k : Channel) : List Nat :=
  [k.src.getD 0 0, k.dst.getD 0 0].filterMap fun w0 =>
    if walkSpace w0 = 1 ∨ walkSpace w0 = 2 then s.windowHw k.cont (windowRank s k w0) else none

/-- The hardware context whose window a message of a peer is to write, or to count in. -/
def FabricMsg.target (s : State) : FabricMsg → Option Nat
  | .write w => (packCont s w.packId).bind fun i => (peerRank s i w.core w.pos).bind (s.windowHw i)
  | .signal m => (packCont s m.packId).bind fun i => (peerRank s i m.core m.pos).bind (s.windowHw i)
  | .atomic _ | .answer _ => none

/-- Whether a request at the engine port of a core still stands: its requester can go on, but for the port. -/
def PortWait.stands (s : State) (core : Nat) (w : PortWait) : Bool :=
  let runs := (s.core core).pause == 0
  match w.user with
  | .entry h =>
    match (s.ctx h).work.feq with
    | e :: _ => runs && (s.ctx h).awake && feReady s h e && w.banks == banksOf (e.words.map (·.2))
    | [] => false
  | .stream h r =>
    runs && (s.ctx h).awake && banksIn s core w.banks h && ((s.ctx h).bound r).any fun y =>
      !y.writes && (List.range 4).any fun k => decide (y.taken + k < y.length) && !y.fetched (y.taken + k)
  | .push h age => (s.ctx h).work.landing.any (fun p => p.eff.isPush && p.age == age && (s.ctx h).hasCome p) && banksIn s core w.banks h && s.windowHw (s.ctx h).cont (s.ctx h).rank == some h
  | .matrix => (s.core core).queue.any fun o => o.running && decide (o.left ≤ 1) && w.banks == banksOf (o.touches s)
  | .copy c ch =>
    ((s.core c).channels.find ch).any fun k =>
      !k.stopped && gateOpen s k && (s.core c).pause == 0 && (k.windows s).any (banksIn s core w.banks)
  | .count c =>
    runs && (s.core c).counts.any fun m =>
      (s.windowHw m.cont m.rank).any fun h => coreOf h == core && w.banks == banksOf [(s.ctx h).coreAddr m.off]
  | .barv h =>
    match (s.ctx h).work.barvs with
    | b :: _ =>
      runs && (s.ctx h).performedBelow b.gate && s.windowHw (s.ctx h).cont (s.ctx h).rank == some h && w.banks == banksOf [b.addr]
    | [] => false
  | .peer src => ((s.dev.fabricIn.find? fun m => m.src == src).bind (FabricMsg.target s)).any (banksIn s core w.banks)

/-- Requests that stand no more leave the engine ports. -/
def prunePorts (s : State) : State :=
  { s with cores := s.cores.map fun e => (e.1, { e.2 with portWaits := e.2.portWaits.filter (PortWait.stands s e.1) }) }

/-- A line stays watched as long as it has a watcher (R161), however its watcher went: woken, halted, saved or ended. -/
def dropWatches (s : State) : State := (s.store.dirs.filter fun e => e.2.watched).foldl (fun s e => refreshWatch e.1 s) s

/-- What follows a move by itself: waits of `bwait` that are over, then context by context, continuation by continuation, and the device's own
messages, stores and placements. -/
def settle (s : State) : State :=
  let s := endWaits s
  let s := (s.ctxs.map (·.1)).foldl settleCtx s
  let s := (s.dev.conts.map (·.1)).foldl settlePack3 s
  let s := (s.dev.conts.map (·.1)).foldl settleCont s
  dropWatches <| prunePorts (finishPlacings (flushNotices (passAgain (flushActs (drainFabric s)))))

end Sys2Proof.Machine
end

