-- ==== Sys2Proof/Machine/Time.lean ====
section
/-! DEFINITION. Time: half a reference tick (R3, R257), the core cycles it begins, and the order in which the device moves where the agenda
says nothing (log entry 3). -/

namespace Sys2Proof.Machine

/-! ### A core cycle -/

/-- A core at the start of its next cycle (R244, R246, R256). `held` says that a hold window is open on it. -/
def Core.nextCycle (held : Bool) (k : Core) : Core :=
  let defers := held && decide (1 < k.halve)
  { k with
    cycles := k.cycles + 1, issued := false, windowCycle := k.windowCycle + 1
    cycleLeft := cycleLength k.run * (if k.stretch = 0 then 1 else 2), stretch := k.stretch - 1, long := k.stretch != 0, port := []
    pause := if 1 < k.pause then k.pause - 1 else k.pause
    halve := if defers then 0 else if k.halveOwed && !held then 64 else if 1 < k.halve then k.halve - 1 else k.halve
    halveOwed := defers || (k.halveOwed && held) }

/-- The rest of a `feset` after a step of 64 words (R112). -/
def FesetLeft.step (f : FesetLeft) : Option FesetLeft :=
  if f.words ≤ f.done + 64 then none else some { f with done := f.done + 64 }

/-- A power phase one core cycle later; it goes when its interval is over (R252). -/
def PhaseDecl.step (d : PhaseDecl) : Option PhaseDecl :=
  if d.onset ≠ 0 then some { d with onset := d.onset - 1 }
  else if d.left ≤ 1 then none
  else some { d with left := d.left - 1, stagger := d.stagger - 1 }

/-- A context one core cycle later; one that is halted keeps everything (R234, R254). -/
def Ctx.nextCycle (c : Ctx) : Ctx :=
  if c.halted then c
  else
    { c with
      stallLeft := c.stallLeft - 1, tried := false, phase := c.phase.bind PhaseDecl.step
      work := { c.work with
        hold := c.work.hold.map fun w => { w with cycles := w.cycles + 1 }
        feset := c.work.feset.bind FesetLeft.step } }

/-- Whether the array goes on with the step of an operation in this cycle: a leashed core starts no new group (R249), nor one whose die cannot
spend it (R258). -/
def MatOp.works (leashed : Bool) (o : MatOp) : Bool := !(leashed && o.left == o.step)

/-- The array of a core one cycle later, and its charge (R132, R246). A step whose cycles are over is done, if it is not the last, which is done
as the operation retires (R139). A step's request arrives at the engine port with its last cycle but one, and so may be served in its last
(R107, log entry 73). -/
def nextArray (c : Nat) (s : State) : State :=
  let k := s.core c
  if k.pause ≠ 0 then s
  else
    match k.queue.find? (·.running) with
    | none => s
    | some o =>
      if o.left = 0 then (if o.done + 1 = o.steps then s else stepArray c o s)
      else if !o.works (s.leashed c || !s.coreHeld c && !s.dieRoom c (o.charge * o.step)) then s
      else
        let o' := { o with left := o.left - 1, used := o.used + 1 }
        let s := charge c o.charge (s.mapCore c fun k => { k with queue := k.queue.map fun q => if q = o then o' else q })
        if o'.left = 0 ∧ o.done + 1 ≠ o.steps then stepArray c o' s
        else if o'.left = 1 then queuePort .matrix c (o.touches s) s
        else s

/-- Whether a context of a core stays ready through a cycle of it (R232): it has issued in it, or its next bundle waits on nothing. -/
def staysReady (s : State) (h : Nat) : Bool :=
  let k := s.core (coreOf h)
  (k.issued && k.lastPos == h % 4) || (readyCtx s h && !wouldStall s h)

/-- The contexts of a core whose count of issue goes on up to the end of a cycle (R232). -/
def keepTurns (s : State) (c : Nat) : List Nat :=
  ((List.range 4).map (4 * c + ·)).filter fun h => (s.ctx h).runCycles != 0 && staysReady s h

/-- The contexts of a core whose count begins again, since they have become unready (R232). -/
def loseTurns (keep : List Nat) (c : Nat) (s : State) : State :=
  { s with ctxs := s.ctxs.map fun e => if coreOf e.1 = c ∧ !keep.contains e.1 then (e.1, { e.2 with runCycles := 0 }) else e }

/-- What is due lands in the contexts of a core (R89); the pushes among it ask for the engine port together (R107, R117, R119). A halted context
counts no cycles (R234). -/
def landResults (c : Nat) (s : State) : State :=
  let hs := ((List.range 4).map (4 * c + ·)).filter fun h => !(s.ctx h).halted
  hs.foldl (fun s h => landDue h s) (hs.foldl (fun s h => askPushes h s) s)

/-- A core and its contexts one cycle later. -/
def nextCoreCycle (s : State) (c : Nat) : State :=
  let keep := keepTurns s c
  let s := nextArray c s
  let s := s.mapCore c (Core.nextCycle (s.coreHeld c))
  let next := fun (e : Nat × Ctx) => (e.1, if coreOf e.1 = c then e.2.nextCycle else e.2)
  landResults c (loseTurns keep c { s with ctxs := s.ctxs.map next })

/-! ### Half a reference tick -/

/-- Half a tick of a core's clock; the readying of a rail goes on in wall time (R242). -/
def Core.halfTick (k : Core) : Core :=
  { k with cycleLeft := if k.gated then k.cycleLeft else k.cycleLeft - 1, readying := k.readying - 1 }

/-- Whether a watchdog's clock runs (R239). -/
def Cont.clockRuns (c : Cont) : Bool :=
  (c.state == .running || (c.state == .queued && c.clockOn)) && !c.ineligible && !c.faultPending

/-- Half a tick of a continuation: its watchdog, and the wait of a QUEUED one, which ineligible time does not lengthen (R228, R229, R239). -/
def Cont.halfTick (c : Cont) : Cont :=
  { c with clock := if c.clockRuns then c.clock + 1 else c.clock
           boostAge := if c.state == .queued && c.ineligible then c.boostAge + 1 else c.boostAge }

/-- A microsecond of a die's account is over (R258). -/
def Die.roll (x : Die) : Die := { x with last := x.spent, spent := 0 }

/-- Half a tick of the device, which ends a microsecond where `roll` says so (R258): idle time (R259), the blanking of detectors (R256). -/
def Device.halfTick (idle roll : Bool) (d : Device) : Device :=
  let cont := fun (e : Nat × Cont) => (e.1, e.2.halfTick)
  let blanked := fun (e : Nat × Nat) => (e.1, if 1 < e.2 then e.2 - 1 else e.2)
  { d with
    conts := d.conts.map cont
    blank := d.blank.map blanked
    dies := if roll then d.dies.map fun e => (e.1, e.2.roll) else d.dies
    idleAge := if idle then d.idleAge + 1 else 0 }

/-- HALF A REFERENCE TICK: clocks advance, and cores whose cycle is over begin the next. -/
def tick (s : State) : State :=
  let idle := packageIdle s
  let core := fun (e : Nat × Core) => (e.1, e.2.halfTick)
  let ctx := fun (e : Nat × Ctx) => (e.1, if e.2.able then Ctx.ptsTick { e.2 with ptsTicks := e.2.ptsTicks + 1 } else e.2)
  let s := { s with refHalf := s.refHalf + 1, cores := s.cores.map core, ctxs := s.ctxs.map ctx, dev := s.dev.halfTick idle ((s.refHalf + 1) % micros 1 == 0) }
  ((s.cores.filter fun e => !e.2.gated && e.2.cycleLeft == 0).map (·.1)).foldl nextCoreCycle s

/-! ### The default order (log entry 3) -/

/-- What may come next of a context. -/
def ctxEvents (h : Nat) : List Instr :=
  [.resultLanding h, .translationResult h, .storePerformed h, .homeLoadRequest h, .homeStoreRequest h, .homeOwnRequest h,
    .homeAtomicRequest h, .caddPartialRequest h, .deliver h 0, .feEntryPerform h, .barvUpdate h, .holdLimitExpiry h, .pbarArrival h,
    .pbarRelease h, .parkWake h, .parkPoll h, .emisRunClose h, .surchargeDecay h, .issueRotation h] ++
    ((List.range 8).map fun j => (List.range 4).map fun k =>
      Instr.streamFetch h { reg := 56 + j, ahead := k, words := BitVec.allOnes 64 }).flatten

/-- What may come next of a channel: up to 256 bytes more, its fault, its end, which of a copy into a peer the peer alone brings about
(R182); with no enabled port the peer cannot be reached (R183, R267). -/
def channelEvents (s : State) (c : Nat) (e : Nat × Channel) : List Instr :=
  let off := e.2.landedBytes
  let away := e.2.kind == .copy && walkSpace (e.2.dst.getD 0 0) == 4
  let first := ((List.range e.2.total).find? fun j => e.2.fresh j 1).getD 0
  List.append [.copyBytesLanded c e.1 off (min 256 (e.2.total - off)), .copyFault c e.1 none]
    (if !away then [.copyComplete c e.1] else if s.dev.record.ports = 0 then [.copyLost c { ch := e.1, first := first }] else [])

/-- What may come next of a core. -/
def coreEvents (s : State) (e : Nat × Core) : List Instr :=
  let c := e.1
  List.flatten
    ([.changeoverEnd c, .gearSettleStart c, .matrixOpRetire c, .matrixOpStart c, .barrierCount c 0, .energyWindowRoll c, .energyStall c,
        .barkEnd c] ::
      (if e.2.settling.isSome && decide (e.2.readying ≤ 10) then [.gearChangeover c] else []) ::
      e.2.channels.map (channelEvents s c))

/-- What may come next of a continuation. -/
def contEvents (s : State) (i : Nat) : List Instr :=
  List.append
    [.haltComplete i, .kennelRestore i, .gangIssueStart i, .start i, .parkCmd i, .unpark i, .kill i, .resumeFault i, .resumeHostCall i,
      .refresh i, .malformedCommand i, .waitListEvaluation i, .waitListPoll i, .priorityBoost i, .blockingTimeout i, .residencyFloorExpiry i, .watchdogExpiry i,
      .watchdogStage2 i]
    ((s.cont i).seats.map fun x => .watchdogStage3 i x.core)

/-- What may come next of the device's own structures and of the host's answers. -/
def deviceEvents (s : State) : List Instr :=
  List.flatten
    [(s.dev.registryWakes.map fun i => [Instr.registerBlock i, .unregisterBlock i]).flatten,
    s.dev.backInv.map (fun l => .backInvalidationResponse l none),
    [.hostWriteCompletion 0, .shootDownRange, .shootDownAsid, .shootDownAll, .shootDownUnassignedKind, .shootDownComplete, .sealImage,
      .sealRelease, .sealUnassignedKind, .sealComplete, .attestation, .timestampRebase, .ptsTick, .tokenRing, .leashRecompute 0,
      .leashRecompute 1, .leashRecompute 2, .leashRecompute 3, .deviceHeartbeat, .heartbeatLoss, .idleEntry (max 1 (deepestIdle s))],
    (reportCores s).map Instr.resourceReport,
    if s.ctxs.any (fun e => !e.2.idles) then [.idleResume] else []]

/-- Every event that the device may turn to by itself. -/
def ownEvents (s : State) : List Instr :=
  deviceEvents s ++ (s.dev.conts.map fun e => contEvents s e.1).flatten ++ (s.cores.map (coreEvents s)).flatten ++
    (s.ctxs.map fun e => ctxEvents e.1).flatten

/-- Whether an event changes the device. -/
def changes (s : State) (i : Instr) : Bool :=
  match exec i s with
  | .next t => decide (t ≠ s)
  | _ => false

/-- The move of the default order: the first event that changes anything, then a context that its core issues, then time. -/
def defaultMove (s : State) : Move :=
  match (ownEvents s).find? (changes s) with
  | some i => .event i
  | none =>
    match s.cores.findSome? fun e => pickOn s e.1 with
    | some h => .issue h
    | none => .tick

/-! ### One move -/

/-- An outcome with the next state changed. -/
def andThen (o : Out) (f : State → State) : Out :=
  match o with
  | .next s => .next (f s)
  | o => o

/-- One move. An instruction of a slot is no event: it moves only with its bundle. -/
def move (m : Move) (s : State) : Out :=
  match m with
  | .event i => if (slotOf i).isSome then .next s else andThen (exec i s) settle
  | .issue h => andThen (issueBundle h s) settle
  | .tick => .next (settle (tick s))

end Sys2Proof.Machine
end

