-- ==== Sys2Proof/Machine/Step.lean ====
section
/-! DEFINITION. One step of the machine, and the placing of one instruction where the next step fetches. -/

namespace Sys2Proof.Machine

/-- One step: the move that the agenda names next, or that of the default order (log entry 3). -/
def step (s : State) : Host.Outcome State Fault Refusal :=
  match s.agenda with
  | m :: ms => move m { s with agenda := ms }
  | [] => move (defaultMove s) s

/-- The virtual address of the image that `withFetchWord` places. -/
def State.fetchBase : W64 := 0x400000

/-- The slot in which a table word is placed: the first that carries it, else slot 0. -/
def fetchSlot (w : Nat) : Nat := ((slotOfWord (BitVec.ofNat 32 w)).map (·.1)).getD 0

/-- A sealed copy of one bundle that holds one word. -/
def oneWordImage (slot w : Nat) : SealedCopy :=
  { digest := [], code := if w = 0 then [] else [(slot, BitVec.ofNat 32 w)], ranges := [(0, 32)], scratch := [], walkMask := 0, walks := [],
    ringMask := 0, rings := [], entry := 0 }

/-- The launch of one context with a window of 64 KiB and one tile. -/
def oneLaunch : Launch := { Launch.none with image := State.fetchBase, tiles := 1 }

/-- The continuation that runs the word: RUNNING on position 0 of core 0. -/
def oneCont : Cont :=
  { Cont.idle 0x300000 with
    state := .running, launch := oneLaunch, seats := [{ core := 0, positions := [0], bases := [0], tiles := [[0]] }] }

/-- Its context. -/
def oneCtx : Ctx :=
  { Ctx.placed with
    regs := { Regs.placed with image := State.fetchBase }, tiles := [0], pc := State.fetchBase }

/-- THE STATE WITH AN INSTRUCTION WHERE THE NEXT STEP FETCHES: hardware context 0 runs a resident image of one bundle that holds the word,
and the agenda names its issue (log entry 17). -/
def State.withFetchWord (s : State) (_nbits w : Nat) : State :=
  { s with
    agenda := [.issue 0]
    ctxs := Sparse.put (s.ctxs.filter fun e => decide (4 ≤ e.1)) 0 oneCtx
    cores := Sparse.put s.cores 0 { Core.atReset with grant := 8192, nextGrant := 8192 }
    dev := { s.dev with conts := Sparse.put s.dev.conts 0 oneCont, images := Sparse.put s.dev.images 0 (oneWordImage (fetchSlot w) w) } }

end Sys2Proof.Machine
end

