-- ==== Sys2Proof/Safety.lean ====
section
/-! DEFINITION. What the claims call a canonical memory, a safe run, a ready operand, and the state in which a slot leaves the
machine. -/

namespace Sys2Proof.Machine

/-! ### Runs -/

/-- Memory is in its canonical form: equal memories are equal data. -/
abbrev State.MemCanonical (s : State) : Prop := Memory.wf s.store.mem = true

/-- The step from a state does not stop: no fault and no refusal. -/
def State.Goes (s : State) : Prop := ∃ t, step s = .next t

/-- n steps from a state, none of which stops. -/
def SafeRun : Nat → State → Prop
  | 0, _ => True
  | n + 1, s => ∃ t, step s = .next t ∧ SafeRun n t

/-- The register that the spec wires to zero holds no stored value (R32). -/
abbrev Ctx.ZeroWired (c : Ctx) : Prop := c.regs.readG 0 = 0 ∧ c.regs.readM 0 = BitVec.allOnes 64

/-! ### Integers of a register in the two forms of an `alu` operation (R270) -/

/-- The signed integer that a source stands for: all 64 bits, or bits [31:0] in the `.w` form. -/
def sval (w : Bool) (x : W64) : Int := if w then (x.setWidth 32).toInt else x.toInt

/-- The unsigned integer that a source stands for. -/
def uval (w : Bool) (x : W64) : Nat := if w then x.toNat % 2 ^ 32 else x.toNat

/-- The width of a form. -/
def formBits (w : Bool) : Nat := if w then 32 else 64

/-- The register value of an integer result: modulo 2^64, or modulo 2^32 and sign-extended in the `.w` form. -/
def narrow (w : Bool) (z : Int) : W64 := if w then (BitVec.ofInt 32 z).signExtend 64 else BitVec.ofInt 64 z

/-! ### Ready operands (R93) -/

/-- No `g` register of a list is busy in the focus context. -/
abbrev State.Free (s : State) (rs : List Reg) : Prop := ∀ r ∈ rs, s.here.busyG r.toNat = false

/-- Some `g` register of a list is busy in the focus context. -/
abbrev State.Busy (s : State) (rs : List Reg) : Prop := ∃ r ∈ rs, s.here.busyG r.toNat = true

/-- Nothing of an earlier bundle waits in the full/empty queue of the focus context (R110). -/
abbrev State.QueueClear (s : State) : Prop := ∀ e ∈ s.here.work.feq, 8 * s.here.retired ≤ e.age

/-- No memory operation of the focus context is untranslated (R98). -/
abbrev State.Translated (s : State) : Prop := (∀ o ∈ s.here.work.memOps, o.translated = true) ∧ s.here.work.replay = []

/-! ### What a slot leaves behind -/

/-- The state of a slot whose effects all land later: each pair (L, e) joins the landing buffer of the focus context, to land L
issue-cycles after the focus bundle, and nothing else changes (R89). -/
def State.lands (s : State) (es : List (Nat × Effect)) : State :=
  let c := s.here
  let new := es.map fun (e : Nat × Effect) => ({ due := c.count + e.1, age := c.retired * 8 + s.focusSlot, eff := e.2, held := false } : Pending)
  { s with
    signal := .none
    ctxs := Sparse.put s.ctxs s.focusCtx { c with work := { c.work with landing := c.work.landing ++ new } } }

/-- The state in which a slot stalls its bundle: nothing has taken effect (R93). -/
def State.stalled (s : State) : State := { s with signal := .waits }

/-- A slot takes a precise fault of a class: the machine goes on, with the fault noted for the bundle (R96). -/
def TakesPrecise (i : Instr) (s : State) (cls : FaultClass) (addr : Nat) : Prop :=
  exec i s = .next { takePrecise s.focusCtx s.focusSlot cls addr s with signal := .fault cls addr }

/-- The state in which a slot with an immediate effect leaves the machine. -/
def State.took (s : State) (f : State → State) : State := { f s with signal := .none }

/-- The state after a vector operation: read streams pop, then the result lanes and the flags land L issue-cycles later (R89, R116, R117). -/
def State.vectorLands (s : State) (d : Reg) (srcs : List Reg) (L : Nat) (mask : W64) (r : List W32 × Flags5) : State :=
  { landFlags L r.2 (landV d L mask r.1 (popSources srcs s)) with signal := .none }

/-- The state of a slot that changes only what waits in its context. -/
def State.queues (s : State) (f : Work → Work) : State := s.took fun s => s.mapHere fun c => { c with work := f c.work }

/-- The state after a vector access whose source registers pop their streams, and whose effect on what waits is f. -/
def State.popsThen (s : State) (srcs : List Reg) (f : State → State) : State := { f (popSources srcs s) with signal := .none }

/-- The registers of every context, the scratchpads and the memory of two states agree. -/
def SameRegsAndMemory (s t : State) : Prop :=
  (∀ h, (t.ctx h).regs = (s.ctx h).regs) ∧ t.store = s.store

/-! ### Exact values -/

/-- The real value of a finite number; 0 stands where there is none. -/
def Num.val : Num → ℚ
  | .fin n m e => (if n then -1 else 1) * (m : ℚ) * (2 : ℚ) ^ e
  | _ => 0

/-- A number that is neither a NaN nor an infinity. -/
def Num.finite : Num → Prop
  | .fin .. => True
  | _ => False

/-- The magnitude that a magnitude code stands for, the exponent range unbounded above (R77, R79). -/
def FloatFmt.magnitude (f : FloatFmt) (c : Nat) : ℚ :=
  if c < 2 ^ f.m then c * (2 : ℚ) ^ f.minExp
  else ((2 ^ f.m + c % 2 ^ f.m : Nat) : ℚ) * (2 : ℚ) ^ (f.minExp + ((c / 2 ^ f.m : Nat) : Int) - 1)

/-- The magnitude code that a rounding picks for a magnitude x of a sign (R79). -/
def FloatFmt.Picks (f : FloatFmt) (rm : Rounding) (neg : Bool) (x : ℝ) (c : Nat) : Prop :=
  let g := fun (n : Nat) => ((f.magnitude n : ℚ) : ℝ)
  let down := g c ≤ x ∧ x < g (c + 1)
  let up := x ≤ g c ∧ ∀ n < c, g n < x
  match rm with
  | .rne => (∀ n, |x - g c| ≤ |x - g n|) ∧ ∀ n, n ≠ c → |x - g n| = |x - g c| → c % 2 = 0
  | .rz => down
  | .rd => if neg then up else down
  | .ru => if neg then down else up

/-- A code and its flags are `Round` of R79 on an exact value of a sign, with the flags of R74: past the largest finite code an infinity or
that code, else the picked one. -/
def RoundsTo (f : FloatFmt) (rm : Rounding) (sat neg : Bool) (x : ℝ) (r : Nat × Flags5) : Prop :=
  ∃ c, f.Picks rm neg |x| c ∧
    let inexact := ((f.magnitude c : ℚ) : ℝ) ≠ |x|
    let infinite := f.hasInf = true ∧ sat = false ∧ (rm = .rne ∨ rm = .rd ∧ neg = true ∨ rm = .ru ∧ neg = false)
    (f.maxCode < c → (infinite → r.1 = f.infCode neg) ∧ (¬ infinite → r.1 = f.signBit neg + f.maxCode) ∧
      r.2 = flagOverflow ||| flagInexact) ∧
    (c ≤ f.maxCode → r.1 = f.signBit neg + c ∧ (inexact → 0 < c → c < 2 ^ f.m → r.2 = flagUnderflow ||| flagInexact) ∧
      (inexact → c = 0 ∨ 2 ^ f.m ≤ c → r.2 = flagInexact) ∧ (¬ inexact → r.2 = 0))

/-- The integer that a rounding picks for a value (R79, R80). -/
def PicksInt (rm : Rounding) (x : ℚ) (n : Int) : Prop :=
  match rm with
  | .rne => |x - n| ≤ 1 / 2 ∧ (|x - n| = 1 / 2 → n % 2 = 0)
  | .rz => n = if 0 ≤ x then ⌊x⌋ else ⌈x⌉
  | .rd => n = ⌊x⌋
  | .ru => n = ⌈x⌉

/-- A code and its flags are the rounding, to nearest even and once, of an exact value in a format (R70, R79); where the value is zero,
its sign is the one given. -/
def RoundsOnce (f : FloatFmt) (v : ℚ) (zeroNeg : Bool) (r : Nat × Flags5) : Prop :=
  ∃ n m e, Num.val (.fin n m e) = v ∧ (m = 0 → n = zeroNeg) ∧ r = f.round .rne false n m e

/-! ### Ready vector operands (R93, R118) -/

/-- The operands of a vector slot let it execute: no register among them is busy, and each bound stream has the entry it needs. -/
abbrev State.VectorReady (s : State) (d : Reg) (srcs : List Reg) (bs : List VSrc) : Prop :=
  s.here.checkDestV d = .ok ∧ (∀ r ∈ srcs, s.here.checkSrcV r = .ok) ∧ ∀ b ∈ bs, s.here.checkVSrc b = .ok

end Sys2Proof.Machine
end

