-- ==== Sys2Proof/Certificates/Slice0/Obligations.lean ====
section
/-! DEFINITION. The statements about the model, each a proposition that a prover settles. Each docstring names the rules of the
spec that the statement rests on. -/

open Sys2Proof Sys2Proof.Machine

/-! ### Reset and the memory's form -/

/-- Right after device reset and bring-up: boot status 1, `RefTicks` 0, every core in HEEL with no cycle counted, every directory
entry `U` with timestamps 0, no context, continuation or cached copy, and the defaults of the configuration record (R240, R257,
R268). -/
def Obligations.ResetLeavesBootedDevice : Prop :=
  State.reset.dev.boot = 1 ∧ State.reset.refHalf = 0 ∧
  (∀ c, (State.reset.core c).run = false ∧ (State.reset.core c).cycles = 0 ∧ (State.reset.core c).settling = none ∧
    (State.reset.core c).queue = [] ∧ (State.reset.core c).channels = []) ∧
  (∀ line, (dirOf State.reset.store line).state = .untracked ∧ (dirOf State.reset.store line).wts = 0 ∧
    (dirOf State.reset.store line).rts = 0 ∧ (dirOf State.reset.store line).poison = false) ∧
  State.reset.ctxs = [] ∧ State.reset.dev.conts = [] ∧ State.reset.store.copies = [] ∧ State.reset.store.tlbs = [] ∧
  State.reset.dev.record.lease = 32 ∧
  (∀ q < 16, (State.reset.dev.record.droop.getD q 0).toNat = 32 * 1024 + 40)

/-- Memory after reset has its canonical form: addresses strictly rising, and no byte listed that equals what an unlisted one reads as.
The form, and what an unlisted byte reads as (0 outside the control block), are the model's choice (log entry 6): the spec gives memory
neither. -/
def Obligations.ResetMemoryIsCanonical : Prop := State.reset.MemCanonical

/-- Every step keeps the canonical form of memory: addresses strictly rising, and no byte listed that equals what an unlisted one
reads as. So two states with the same bytes in memory hold the same list. The form is the model's (the spec gives memory no
form). -/
def Obligations.StepKeepsMemoryCanonical : Prop := ∀ s t, s.MemCanonical → step s = .next t → t.MemCanonical

/-! ### Decoding -/

/-- Decode and encode agree for every instruction that stands in a slot, with every operand at every value that its encoding
admits: the word that `encode` builds decodes, in the instruction's lowest slot, to the instruction (R51 to R66). The two scalar
slots read a word alike wherever both carry it, and so do the two vector slots (R22): the other refuses it with E-02. -/
def Obligations.DecodeOfEncode : Prop :=
  (∀ i k, WellFormed i = true → slotOf i = some k → decodeSlot k (encode i) = .ok i) ∧
  (∀ w i, decodeSlot 0 w = .ok i → decodeSlot 1 w = .ok i ∨ decodeSlot 1 w = .error .wrongSlot) ∧
  (∀ w i, decodeSlot 1 w = .ok i → decodeSlot 0 w = .ok i ∨ decodeSlot 0 w = .error .wrongSlot) ∧
  (∀ w i, decodeSlot 2 w = .ok i → decodeSlot 3 w = .ok i) ∧
  (∀ w i, decodeSlot 3 w = .ok i → decodeSlot 2 w = .ok i ∨ decodeSlot 2 w = .error .wrongSlot)

/-- Words that the spec writes out beside a source line decode to that line's instruction, in its slot. -/
def Obligations.WrittenWordsDecode : Prop :=
  decodeSlot 0 0x04518700 = .ok (.add 5 6 7 false) ∧ decodeSlot 0 0x04518780 = .ok (.add 5 6 7 true) ∧
  decodeSlot 0 0x04318742 = .ok (.cmp 3 6 7 false .lt) ∧ decodeSlot 0 0x08927FE0 = .ok (.addi 9 9 (-32)) ∧
  decodeSlot 0 0x14518703 = .ok (.addr 5 6 7 3) ∧ decodeSlot 0 0x46400008 = .ok (.bc true 1 8) ∧
  decodeSlot 0 0x6C20219E = .ok (.fmtsetImm 2 0x219E) ∧ decodeSlot 0 0x88500010 = .ok (.rdsr 5 .pack) ∧
  decodeSlot 1 0x24C12012 = .ok (.ld 12 4 true 4 .si) ∧ decodeSlot 1 0x28904001 = .ok (.st 9 1 false 0 .wt) ∧
  decodeSlot 4 0x0450C040 = .ok (.vld 5 3 2 0) ∧ decodeSlot 5 0x05040200 = .ok (.mma 1 0 1 (.nf 0) (.nf 0) true false) ∧
  decodeSlot 6 0x18510600 = .ok (.atadd 5 4 6 false)

/-! ### A step runs the decoded instruction -/

/-- A step whose next move is an event of the device executes that event, and then lets follow what follows by itself (the ends of
contexts and calls to owners, which no instruction does). That the agenda names the next move is the model's choice (log entry 3), and so is
that what follows by itself is done in the same step (log entry 31). -/
def Obligations.StepRunsNamedEvent : Prop :=
  ∀ s i ms, s.agenda = .event i :: ms → slotOf i = none →
    step s = andThen (exec i { s with agenda := ms }) settle

/-- A step that issues a bundle of a ready context executes the instruction decoded from the words at its pc (R22, R23, R37): where, of
the eight words there, one holds a well-formed instruction i of slot n and the rest are zero (six slots of `nop` and the schedule word
0), the step is exec of i at that state, for that context and slot. Then comes what the step adds: the end of the bundle (count, pc,
landings), or nothing but a stall, or the precise fault of the slot at the bundle; and what follows by itself. The
context takes no hold fault in place of its bundle (R122). That the agenda names the issue is the model's choice (log entry 3), and so is that
what follows by itself is done in the same step (log entry 31).
THE END OF A BUNDLE: the count advances by 1 + stall (R26); the pc goes to the taken branch's target, else 32 bytes on (R24); the next
bundle issues no earlier than the stall, and the 2 core cycles of a taken branch that is no `loop` (R91), allow: that the two add is the
model's choice (log entry 60). The counts by which results land pass one a core cycle, the stall's after the branch's two. `reusemiss` rises
by one for each of VA and VB whose executed instruction carries a set reuse bit that is incorrect, and no register is other than without the
bits (R29): that a set bit on an instruction without a vector source is incorrect is the model's deduction (log entry 57).
GUARDS (R28): the slots that execute are those with guard code 0 or whose predicate is on, each once; a guarded-off slot has no effect of
any kind: a bundle does the same whatever stands in it. -/
def Obligations.StepRunsDecodedInstruction : Prop :=
  (∀ s h ms i n,
    let s' : State := { s with agenda := ms }
    s.agenda = .issue h :: ms → WellFormed i = true → slotOf i = some n →
    pickOn s' (coreOf h) = some h → (s.ctx h).work.holdFault = false → (s.ctx h).work.overran = false → inCode s' (s.ctx h) (s.ctx h).pc = true →
    (∀ j < 8, Sparse.get 0 (s.imageOf (s.ctx h).cont).code (((s.ctx h).pc - (s.ctx h).regs.image).toNat / 4 + j) =
      if j = n then encode i else 0) →
    ∃ b, decodeBundle ((List.range 8).map fun j => if j = n then encode i else 0) = .ok b ∧ b.slots[n]? = some i ∧
      step s =
        match exec i { beginBundle h s' with focusCtx := h, focusSlot := n, signal := .none } with
        | .next t =>
          match t.signal with
          | .none => .next (settle (finishBundle h (s.ctx h) b [(n, i)] t))
          | .waits =>
            .next (settle (stallBundle h
              { st := beginBundle h s', stalled := true, fault := none, progress := if n = 0 then some t else none } s'))
          | .fault cls addr => .next (settle { takePrecise h n cls addr s' with focusCtx := h, focusSlot := 0, signal := .none })
        | o => o) ∧
  (∀ (s : State) (h : Nat) (before : Ctx) (b : Bundle) (es : List (Nat × Instr)), let c := s.ctx h
    let t := finishBundle h before b es s
    let stall := b.sched.stall.toNat
    let cost := match executedIn es 0 with
      | some (.loop _) => 0
      | _ => if c.branchTo.isSome = true then 2 else 0
    let miss := fun (k : Nat) (bit : Bool) (l : Option OperandLatch) => match executedIn es k with
      | none => 0
      | some i => if bit = true ∧ (∀ x ∈ firstSource i, ∀ l' ∈ l, before.bound x.toNat = none → l'.cont = before.cont →
          l'.rank = before.rank → l'.reg = before.phys x.toNat → l'.fresh = false) then 1 else 0
    (t.ctx h).count = c.count + 1 + stall ∧ (t.ctx h).retired = c.retired + 1 ∧ (t.ctx h).branchTo = none ∧
    (∀ x, c.branchTo = some x → (t.ctx h).pc = x) ∧ (c.branchTo = none → (t.ctx h).pc = c.pc + 32) ∧
    (t.ctx h).stallLeft = 1 + stall + cost ∧ (c.halted = false → ∀ n, (Ctx.nextCycle^[n] (t.ctx h)).nowCount = c.count + min (n - cost) (1 + stall)) ∧
    (t.core (h / 4)).issued = true ∧ (t.core (h / 4)).lastPos = h % 4 ∧
    (t.ctx h).regs.reusemiss = c.regs.reusemiss + miss 2 b.sched.reuseA (s.core (h / 4)).latchA + miss 3 b.sched.reuseB (s.core (h / 4)).latchB ∧
    (∀ x y, let b' : Bundle := { b with sched := { b.sched with reuseA := x, reuseB := y } }
      let t' := finishBundle h before b' es s
      { (t'.ctx h).regs with reusemiss := 0 } = { (t.ctx h).regs with reusemiss := 0 })) ∧
  (∀ (q : BitVec 8) (b : Bundle), (∀ k i, (k, i) ∈ executing q b ↔
      b.slots[k]? = some i ∧ ((b.sched.guard.getD k 0).toNat = 0 ∨ q.getLsbD ((b.sched.guard.getD k 0).toNat - 1) = true)) ∧
    ((executing q b).map (·.1)).Nodup) ∧
  (∀ (s : State) (h : Nat) (b b' : Bundle), b'.sched = b.sched → b'.slots.length = b.slots.length →
    (∀ k, guardOn (s.ctx h).regs.q b k = true → b'.slots[k]? = b.slots[k]?) → runBundle h b' s = runBundle h b s)

/-! ### Registers, landing, exceptions -/

/-- A write to `g0` or `m0` is discarded, and reading either gives its fixed value, whatever lands; in every state (R32). -/
def Obligations.ZeroRegistersAreFixed : Prop :=
  ∀ (c : Ctx) (due age : Nat) (x mask : W64),
    c.regs.readG 0 = 0 ∧ c.regs.readM 0 = BitVec.allOnes 64 ∧
    c.applyEffect due age (.g 0 x) = c ∧ c.applyEffect due age (.m 0 mask x) = c ∧
    ∀ e, ((c.applyEffect due age e).regs.readG 0 = 0 ∧ (c.applyEffect due age e).regs.readM 0 = BitVec.allOnes 64)

/-- Logical vector registers below 32 are physical ones of the same number, those above rotate by `rb` among 32 to 63, and for one
`rb` no two names share a physical register (R33). -/
def Obligations.VectorNamesRotate : Prop :=
  ∀ (c : Ctx) (x y : Nat), x < 64 → y < 64 →
    (x < 32 → c.phys x = x) ∧ (32 ≤ x → c.phys x = 32 + ((x - 32) + c.regs.rb.toNat) % 32) ∧ c.phys x < 64 ∧
    (c.phys x = c.phys y → x = y)

/-- A result of latency L lands at the count L above its bundle's, and not before: below that count the buffer keeps it and no register changes;
from that count on, which the context reaches as core cycles pass (R26), it has left the buffer and its register holds it, every other one as
before (R89). Stated for a `g` result that is alone in the buffer; the order of several is a statement of its own. -/
def Obligations.ResultLandsByCount : Prop :=
  ∀ (s : State) (h r : Nat) (p : Pending) (x : W64), (s.ctx h).work.landing = [p] → p.eff = .g r x →
    Sparse.risingFrom none (s.ctx h).regs.g = true →
    ((s.ctx h).nowCount < p.due → landDue h s = s) ∧
    (p.due ≤ (s.ctx h).nowCount →
      ((landDue h s).ctx h).work.landing = [] ∧ (landDue h s).store = s.store ∧
      (∀ j, ((landDue h s).ctx h).regs.readG j = if j = r ∧ r ≠ 0 then x else (s.ctx h).regs.readG j) ∧
      ((landDue h s).ctx h).regs.q = (s.ctx h).regs.q ∧ ((landDue h s).ctx h).regs.v = (s.ctx h).regs.v ∧
      ((landDue h s).ctx h).regs.m = (s.ctx h).regs.m ∧ ((landDue h s).ctx h).regs.fflags = (s.ctx h).regs.fflags ∧
      ((landDue h s).ctx h).pc = (s.ctx h).pc ∧ (∀ k, k ≠ h → (landDue h s).ctx k = s.ctx k))

/-- Results that are due together land in the order of their landing counts, and of those at one count the younger bundle's lands last
(R94): of two due results on one `g` register, the register holds after `landDue` the value of the later-due one, or at one count that
of the younger bundle, whichever of them entered the landing buffer first; of any number of due results on it, that of the last in this
order. Putting results into this order loses and doubles none. -/
def Obligations.LandingsKeepOrder : Prop :=
  (∀ (s : State) (h r : Nat) (p q : Pending) (x y : W64), r ≠ 0 →
    ((s.ctx h).work.landing = [p, q] ∨ (s.ctx h).work.landing = [q, p]) → p.eff = .g r x → q.eff = .g r y →
    p.due ≤ (s.ctx h).nowCount → q.due ≤ (s.ctx h).nowCount → (p.due < q.due ∨ p.due = q.due ∧ p.age < q.age) →
    Sparse.risingFrom none (s.ctx h).regs.g = true →
    ((landDue h s).ctx h).regs.readG r = y ∧ ((landDue h s).ctx h).work.landing = []) ∧
  (∀ (s : State) (h r : Nat) (q : Pending) (y : W64), r ≠ 0 → q ∈ (s.ctx h).work.landing → q.eff = .g r y → q.due ≤ (s.ctx h).nowCount →
    (∀ p ∈ (s.ctx h).work.landing, p ≠ q → p.due ≤ (s.ctx h).nowCount → (∃ i x, p.eff = .g i x) ∧
      ∀ x, p.eff = .g r x → p.due < q.due ∨ p.due = q.due ∧ p.age < q.age) →
    Sparse.risingFrom none (s.ctx h).regs.g = true →
    ((landDue h s).ctx h).regs.readG r = y) ∧
  (∀ l : List Pending, (sortPending l).Perm l ∧
    (sortPending l).Pairwise fun p q => p.due < q.due ∨ (p.due = q.due ∧ p.age ≤ q.age))

/-- The mask bit of a lane governs all of the lane: a vector result that lands writes the active lanes of its physical register,
whole, and leaves every other lane and every other register of the context, of every file, as it was, and nothing else of it
changes (R103). -/
def Obligations.InactiveLanesKeepOldValue : Prop :=
  ∀ (c : Ctx) (due age p r : Nat) (mask : W64) (x : List W32) (i : Nat), Sparse.risingFrom none c.regs.v = true → i < 64 →
    ((((c.applyEffect due age (.v p mask x)).regs.readV r).getD i 0 =
      if r = p ∧ mask.getLsbD i = true then x.getD i 0 else (c.regs.readV r).getD i 0)) ∧
    c.applyEffect due age (.v p mask x) = { c with regs := { c.regs with v := (c.applyEffect due age (.v p mask x)).regs.v } }

/-- A bundle in which a slot takes a precise fault is suppressed whole (R96): no slot takes effect, so every register, the count, the pc
and what waits to land are as before the bundle, of every context; the context parks with the class, the lowest of the slots that fault and
the bundle's address in its record. -/
def Obligations.PreciseFaultSuppressesBundle : Prop :=
  ∀ (s : State) (h : Nat) (b : Bundle) (r : Slots) (k : Nat) (cls : FaultClass) (addr : Nat),
    runSlots h (executing (s.ctx h).regs.q b) { st := beginBundle h s, stalled := false, fault := none, progress := none } = .ok r →
    r.stalled = false → r.fault = some (k, cls, addr) → (s.cont (s.ctx h).cont).state.isEnd = false →
    let faults := fun (j : Nat) (d : FaultClass) (x : Nat) => ∃ es fs i u t, executing (s.ctx h).regs.q b = es ++ (j, i) :: fs ∧
      runSlots h es { st := beginBundle h s, stalled := false, fault := none, progress := none } = .ok u ∧
      exec i { u.st with focusCtx := h, focusSlot := j, signal := .none } = .next t ∧ t.signal = .fault d x
    faults k cls addr ∧ (∀ j d x, faults j d x → k ≤ j) ∧
    ∃ t, runBundle h b s = .next t ∧ (∀ g, (t.ctx g).regs = (s.ctx g).regs ∧ (t.ctx g).count = (s.ctx g).count ∧
      (t.ctx g).pc = (s.ctx g).pc ∧ (t.ctx g).work.landing = (s.ctx g).work.landing ∧ (t.ctx g).retired = (s.ctx g).retired) ∧
      t.store.scratch = s.store.scratch ∧ t.store.full = s.store.full ∧
      (∃ f, (t.ctx h).fault = some f ∧ f.cls = cls ∧ f.addr = addr ∧ f.pc = (s.ctx h).pc.toNat ∧
        f.slot = if cls = .hold then 0xFF else k)

/-- An unrepairable fault ends its continuation, unless a stage of its watchdog has begun (R205, R239): the state becomes FAULTED with cause 2 at
once, the fault count rises by 1, the context stays parked with the fault, and no interrupt goes to the host driver: all that goes out are
requests to take back lines that the host holds. A repairable one leaves the continuation in its state, with the fault pending for the host. -/
def Obligations.FaultTakesItsRoute : Prop :=
  ∀ (s : State) (h : Nat) (f : FaultInfo), (s.cont (s.ctx h).cont).state.isEnd = false →
    (Sparse.find s.dev.conts (s.ctx h).cont).isSome = true → (s.cont (s.ctx h).cont).faultOf = none →
    let i := (s.ctx h).cont
    let t := takeFault h f s
    (t.ctx h).fault = some f ∧ (t.cont i).faults = (s.cont i).faults + 1 ∧
    (f.repairable = false → (s.cont i).stage = 0 → (t.cont i).state = .faulted ∧ (t.cont i).cause = 2 ∧
      ∃ ls : List Nat, t.dev.outputs = s.dev.outputs ++ ls.map .backInvalidate) ∧
    (f.repairable = true → (t.cont i).state = (s.cont i).state ∧ (t.cont i).faultPending = true ∧ (t.cont i).faultOf = some f.rank)

/-! ### Scalar arithmetic -/

/-- `add`, `sub`, `mul`, `mulh`, both forms, every register (R69, R270, R271, R317, R347): with no register busy, the sum, the difference,
the product modulo the form's width, or the high half of the signed product (the product divided by 2^n, rounded down) lands in gD,
1 or 3 issue-cycles later; nothing else changes. -/
def Obligations.SumsAndProductsLand : Prop :=
  ∀ (s : State) (d a b : Reg) (w : Bool), s.Free [d, a, b] →
    let x := sval w (srcG s a)
    let y := sval w (srcG s b)
    exec (.add d a b w) s = .next (s.lands [(1, .g d.toNat (narrow w (x + y)))]) ∧
    exec (.sub d a b w) s = .next (s.lands [(1, .g d.toNat (narrow w (x - y)))]) ∧
    exec (.mul d a b w) s = .next (s.lands [(3, .g d.toNat (narrow w (x * y)))]) ∧
    exec (.mulh d a b w) s = .next (s.lands [(3, .g d.toNat (narrow w ((x * y).fdiv (2 ^ formBits w))))])

/-- `div` and `rem`, both forms (R69, R93, R293, R331): with no register busy, the quotient truncated toward zero or the remainder with
the sign of the dividend is on its way to gD, whose busy bit it holds; a divisor of 0 gives all ones and the dividend; the most
negative value by −1 gives itself and 0. No other field of the machine changes. -/
def Obligations.QuotientsAreDelivered : Prop :=
  ∀ (s : State) (d a b : Reg) (w : Bool), s.Free [d, a, b] →
    let x := sval w (srcG s a)
    let y := sval w (srcG s b)
    let q := if y = 0 then -1 else if x = -(2 ^ (formBits w - 1)) ∧ y = -1 then x else x.tdiv y
    let r := if y = 0 then x else if x = -(2 ^ (formBits w - 1)) ∧ y = -1 then 0 else x - x.tdiv y * y
    let sent := fun (z : W64) => ({ s with
      signal := .none
      ctxs := Sparse.put s.ctxs s.focusCtx { s.here with work := { s.here.work with
        delivers := s.here.work.delivers ++ [{ dest := .g d.toNat, age := s.age, value := [z], load := false, peer := false, lines := 0, counter := none }] } } } : State)
    exec (.div d a b w) s = .next (sent (narrow w q)) ∧ exec (.rem d a b w) s = .next (sent (narrow w r))

/-- The shifts by the count modulo the form's width, and the signed minimum and maximum, both forms (R311, R342). -/
def Obligations.ShiftsAndExtremesLand : Prop :=
  ∀ (s : State) (d a b : Reg) (w : Bool), s.Free [d, a, b] →
    let x := sval w (srcG s a)
    let y := sval w (srcG s b)
    let n := uval w (srcG s b) % formBits w
    exec (.shl d a b w) s = .next (s.lands [(1, .g d.toNat (narrow w (x * 2 ^ n)))]) ∧
    exec (.shr d a b w) s = .next (s.lands [(1, .g d.toNat (narrow w (uval w (srcG s a) / 2 ^ n : Nat)))]) ∧
    exec (.sra d a b w) s = .next (s.lands [(1, .g d.toNat (narrow w (x.fdiv (2 ^ n))))]) ∧
    exec (.min d a b w) s = .next (s.lands [(1, .g d.toNat (narrow w (min x y)))]) ∧
    exec (.max d a b w) s = .next (s.lands [(1, .g d.toNat (narrow w (max x y)))])

/-- `and`, `andn`, `or`, `xor`, bit by bit, with latency 1 and no `.w` form: every word of one decodes to it in both scalar slots, and with the `.w`
bit set it is refused with E-18, whatever the registers (R274, R275, R319, R373); the rules' own words, and the example of R275. -/
def Obligations.BitwiseResultsLand : Prop :=
  (∀ (s : State) (d a b : Reg), s.Free [d, a, b] →
    (∀ f ∈ ([(.and d a b, fun x y => x && y), (.andn d a b, fun x y => x && !y), (.or d a b, fun x y => x || y),
        (.xor d a b, fun x y => x ^^ y)] : List (Instr × (Bool → Bool → Bool))),
      ∃ r : W64, exec f.1 s = .next (s.lands [(1, .g d.toNat r)]) ∧
        ∀ i < 64, r.getLsbD i = f.2 ((srcG s a).getLsbD i) ((srcG s b).getLsbD i))) ∧
  (∀ k < 2, ∀ w : W32, fld w 26 6 = (1 : BitVec 6) → ∀ e ∈ ([(.and, 0x08), (.andn, 0x0B), (.or, 0x09), (.xor, 0x0A)] :
      List ((Reg → Reg → Reg → Instr) × BitVec 8)),
    (fld w 0 8 = e.2 → decodeSlot k w = .ok (e.1 (fld w 20 6) (fld w 14 6) (fld w 8 6))) ∧
    (fld w 0 8 = e.2 ||| 0x80 → decodeSlot k w = .error .noWordForm)) ∧
  (∀ k < 2, decodeSlot k 0x04518708 = .ok (.and 5 6 7) ∧ decodeSlot k 0x04518788 = .error .noWordForm ∧
    decodeSlot k 0x0451870B = .ok (.andn 5 6 7) ∧ decodeSlot k 0x0451878B = .error .noWordForm ∧
    decodeSlot k 0x04518709 = .ok (.or 5 6 7) ∧ decodeSlot k 0x04518789 = .error .noWordForm ∧
    decodeSlot k 0x0451870A = .ok (.xor 5 6 7) ∧ decodeSlot k 0x05451B0A = .ok (.xor 20 20 27) ∧
    decodeSlot k 0x0451878A = .error .noWordForm) ∧
  SealCode.num .noWordForm = 18 ∧ (0xFF &&& ~~~(0x0F : W64)) = 0xF0

/-- Counts of bits and of lanes, with latency 1 (R288, R312, R316, R325): the zero bits above the highest set bit (64 for 0), the set bits,
the set lanes of a mask, and the lowest set lane (64 for none).
The moves between `g` registers and masks, and the logic of masks, all with latency 1 (R310, R315): `mnot` takes no register that
could be busy. -/
def Obligations.MasksAndCountsLand : Prop :=
  (∀ (s : State) (d a : Reg) (m : Reg3), s.Free [d, a] →
    let x := srcG s a
    let y := srcM s m
    (∃ n ≤ 64, exec (.clz d a) s = .next (s.lands [(1, .g d.toNat (BitVec.ofNat 64 n))]) ∧
      (∀ i < 64, 64 - n ≤ i → x.getLsbD i = false) ∧ (n < 64 → x.getLsbD (63 - n) = true)) ∧
    exec (.popc d a) s = .next (s.lands [(1, .g d.toNat (BitVec.ofNat 64 ((List.range 64).countP x.getLsbD)))]) ∧
    exec (.mpop d m) s = .next (s.lands [(1, .g d.toNat (BitVec.ofNat 64 ((List.range 64).countP y.getLsbD)))]) ∧
    (∃ n ≤ 64, exec (.mfirst d m) s = .next (s.lands [(1, .g d.toNat (BitVec.ofNat 64 n))]) ∧
      (∀ i < n, y.getLsbD i = false) ∧ (n < 64 → y.getLsbD n = true))) ∧
  (∀ (s : State) (d a : Reg) (m n p : Reg3),
    (s.Free [d, a] → exec (.movGG d a) s = .next (s.lands [(1, .g d.toNat (srcG s a))])) ∧
    (s.Free [a] → exec (.movMG m a) s = .next (s.lands [(1, .m m.toNat (BitVec.allOnes 64) (srcG s a))])) ∧
    (s.Free [d] → exec (.movGM d m) s = .next (s.lands [(1, .g d.toNat (srcM s m))])) ∧
    exec (.mand m n p) s = .next (s.lands [(1, .m m.toNat (BitVec.allOnes 64) (srcM s n &&& srcM s p))]) ∧
    exec (.mor m n p) s = .next (s.lands [(1, .m m.toNat (BitVec.allOnes 64) (srcM s n ||| srcM s p))]) ∧
    exec (.mnot m n) s = .next (s.lands [(1, .m m.toNat (BitVec.allOnes 64) (~~~(srcM s n)))]))

/-- `cmp` under each of its eight conditions, both forms, writes one predicate and no other; `sel` reads one, `q7` included (R289, R340). -/
def Obligations.CompareAndSelectLand : Prop :=
  ∀ (s : State) (d a b : Reg) (n : Reg3) (w : Bool) (c : Cond),
    (s.Free [a, b] →
      let x := sval w (srcG s a)
      let y := sval w (srcG s b)
      let u := uval w (srcG s a)
      let v := uval w (srcG s b)
      let holds : Prop := match c with
        | .eq => x = y | .ne => x ≠ y | .lt => x < y | .le => x ≤ y | .gt => y < x | .ge => y ≤ x | .ltn => u < v | .gen => v ≤ u
      (holds → exec (.cmp n a b w c) s = .next (s.lands [(1, .q (1 <<< n.toNat) (1 <<< n.toNat))])) ∧
      (¬ holds → exec (.cmp n a b w c) s = .next (s.lands [(1, .q (1 <<< n.toNat) 0)]))) ∧
    (s.Free [d, a, b] →
      exec (.sel d a b n) s = .next (s.lands [(1, .g d.toNat (if s.here.regs.q.getLsbD n.toNat then srcG s a else srcG s b))]))

/-- The immediates (R272, R273, R306, R307): `addi` and `li` sign-extend theirs, `lih` shifts gD left by 20 and inserts its own, `addr` adds
an index shifted by 0 to 7. Every word of majors 0x02 to 0x04 executes in both scalar slots, and one of 0x05 with fn[7:3] set is
refused with E-03. -/
def Obligations.ImmediateResultsLand : Prop :=
  (∀ (s : State) (d a b : Reg) (i : BitVec 14) (j : BitVec 20) (sh : BitVec 3),
    (s.Free [d, a] → exec (.addi d a i) s = .next (s.lands [(1, .g d.toNat (srcG s a + BitVec.ofInt 64 i.toInt))])) ∧
    (s.Free [d] → exec (.li d j) s = .next (s.lands [(1, .g d.toNat (BitVec.ofInt 64 j.toInt))])) ∧
    (s.Free [d] → exec (.lih d j) s = .next (s.lands [(1, .g d.toNat (BitVec.ofNat 64 ((srcG s d).toNat * 2 ^ 20 + j.toNat)))])) ∧
    (s.Free [d, a, b] →
      exec (.addr d a b sh) s =
        .next (s.lands [(1, .g d.toNat (BitVec.ofNat 64 ((srcG s a).toNat + (srcG s b).toNat * 2 ^ sh.toNat)))]))) ∧
  (∀ k < 2, ∀ w : W32,
    (fld w 26 6 = (2 : BitVec 6) → decodeSlot k w = .ok (.addi (fld w 20 6) (fld w 14 6) (fld w 0 14))) ∧
    (fld w 26 6 = (3 : BitVec 6) → decodeSlot k w = .ok (.li (fld w 20 6) (fld w 0 20))) ∧
    (fld w 26 6 = (4 : BitVec 6) → decodeSlot k w = .ok (.lih (fld w 20 6) (fld w 0 20))) ∧
    (fld w 26 6 = (5 : BitVec 6) → decodeSlot k w =
      if fld w 3 5 = (0 : BitVec 5) then .ok (.addr (fld w 20 6) (fld w 14 6) (fld w 8 6) (fld w 0 3)) else .error .zeroField))

/-! ### Counters and system registers -/

/-- `time` lands the reference count and `cycles` the cycle count of the core that issues, both as of this cycle (R257); `rdsr` lands a system
register as the bundle sees it, or delivers a counter of the context, holding the busy bit of gD until it arrives (R329); an event of an earlier
bundle that occurs before then is counted in the value on its way (R330). What the numbers of R35 read: the loop state, the flags, the
narrow-format records, the walk words and the ranges as they stand, each zero-extended (R330), and the gear register's three bits (R243). -/
def Obligations.SystemReadsLand : Prop :=
  (∀ (s : State) (d : Reg), s.Free [d] →
    exec (.time d) s = .next (s.lands [(1, .g d.toNat (BitVec.ofNat 64 (s.refHalf / 2)))]) ∧
    exec (.cycles d) s = .next (s.lands [(1, .g d.toNat (BitVec.ofNat 64 (s.core (s.focusCtx / 4)).cycles))]) ∧
    (∀ n, n ≠ .reusemiss → n ≠ .undecl → n ≠ .emis → exec (.rdsr d n) s = .next (s.lands [(1, .g d.toNat (sysValue s n))])) ∧
    (∀ n x, (n = .reusemiss ∧ x = s.here.regs.reusemiss ∨ n = .undecl ∧ x = s.here.regs.undecl ∨ n = .emis ∧ x = s.here.regs.emis) →
      exec (.rdsr d n) s = .next { s with
        signal := .none
        ctxs := Sparse.put s.ctxs s.focusCtx { s.here with work := { s.here.work with
          delivers := s.here.work.delivers ++
            [{ dest := .g d.toNat, age := s.age, value := [BitVec.ofNat 64 x], load := false, peer := false, lines := 0,
               counter := some n }] } } })) ∧
  (∀ (c : Ctx) (n : SysReg) (age : Nat) (d : Deliver), d ∈ c.work.delivers → d.counter = some n →
    let d' : Deliver := if age / 8 < d.age / 8 then { d with value := d.value.map fun x => x + 1 } else d
    d' ∈ (c.countEvent n age).work.delivers) ∧
  (∀ (s : State),
    let r := s.here.regs
    (sysValue s .lc).toNat = r.lc.toNat ∧ (sysValue s .ec).toNat = r.ec.toNat ∧ (sysValue s .rb).toNat = r.rb.toNat ∧
    (sysValue s .qbits).toNat = r.q.toNat ∧ (sysValue s .fflags).toNat = r.fflags.toNat ∧ (sysValue s .apeer).toNat = r.apeer.toNat ∧
    sysValue s .pack = r.pack ∧ sysValue s .pack3 = r.pack3 ∧ sysValue s .image = r.image ∧
    (∀ n : Reg2, (sysValue s (.nf n)).toNat = (r.readNf n).toNat ∧ sysValue s (.crng n) = Sparse.get 0 r.crng n.toNat) ∧
    (∀ (i : Reg4) (j : Reg2), sysValue s (.walk i j) = r.walk i.toNat j.toNat) ∧
    (sysValue s .gearst).getLsbD 0 = (s.here.gearReq && !s.here.dropped) ∧
    (sysValue s .gearst).getLsbD 1 = (s.core (s.focusCtx / 4)).run ∧
    (sysValue s .gearst).getLsbD 2 = (s.core (s.focusCtx / 4)).settling.isSome)

/-- `wrsr` lands a value whose undefined bits are all 0, in the register it names, with latency 1; a value with another bit set is a
precise bad-value fault, and a read-only register a precise privileged-register fault, whatever the value (R372).
`fmtset` lands a record four issue-cycles later; from a register, one with a bit above 13 set or ill-formed is a precise bad-format
fault, and the `nf` register keeps its record (R298). A record is ill-formed exactly as R76 says. -/
def Obligations.SystemWritesLand : Prop :=
  (∀ (s : State) (a : Reg), s.Free [a] →
    let x := srcG s a
    let wr := fun (n : SysReg) (bits : W64) (e : Effect) =>
      (x &&& ~~~bits = 0 → exec (.wrsr a n) s = .next (s.lands [(1, e)])) ∧
      (x &&& ~~~bits ≠ 0 → TakesPrecise (.wrsr a n) s .badValue 0)
    wr .lc 0xFFFFFFFF (.lc (x.setWidth 32)) ∧ wr .ec 0x87 (.ec (x.setWidth 8)) ∧ wr .rb 0x1F (.rb (x.setWidth 5)) ∧
    wr .qbits 0xFF (.q 0xFF (x.setWidth 8)) ∧ wr .fflags 0x1F (.fflags (x.setWidth 5)) ∧ wr .apeer 0xFFFFF (.apeer (x.setWidth 20)) ∧
    (∀ (i : Reg4) (j : Reg2), wr (.walk i j) (walkBits j.toNat) (.walk (4 * i.toNat + j.toNat) x)) ∧
    (∀ n ∈ ([.pack, .pack3, .image, .gearst, .leash, .droopth, .reusemiss, .undecl, .emis] : List SysReg),
      TakesPrecise (.wrsr a n) s .privilegedRegister 0) ∧
    (∀ n : Reg2, TakesPrecise (.wrsr a (.crng n)) s .privilegedRegister 0 ∧ TakesPrecise (.wrsr a (.nf n)) s .privilegedRegister 0)) ∧
  (∀ (s : State) (n : Reg2) (r : BitVec 14) (a : Reg),
    exec (.fmtsetImm n r) s = .next (s.lands [(4, .nf n.toNat r)]) ∧
    (s.Free [a] →
      let x := srcG s a
      let z := x.setWidth 14
      let e := (z.extractLsb' 10 3).toNat
      let m := (z.extractLsb' 7 3).toNat
      let spec := (z.extractLsb' 5 2).toNat
      let w := (if z.getLsbD 13 then 1 else 0) + e + m
      let ill := w < 2 ∨ 8 < w ∨ spec = 3 ∨ (e = 0 ∧ spec ≠ 0) ∨ (spec = 1 ∧ (e < 2 ∨ m = 0))
      (x.toNat < 2 ^ 14 ∧ ¬ ill → exec (.fmtsetReg n a) s = .next (s.lands [(4, .nf n.toNat z)])) ∧
      (2 ^ 14 ≤ x.toNat ∨ ill → TakesPrecise (.fmtsetReg n a) s .badFormat 0)))

/-- A scalar operation one of whose registers is busy stalls its bundle: nothing has taken effect (R93). -/
def Obligations.BusyScalarStalls : Prop :=
  ∀ (s : State) (d a b : Reg) (w : Bool) (c : Cond) (n : Reg3) (m : Reg3) (i : BitVec 14) (j : BitVec 20) (sh : BitVec 3) (x : SysReg) (f : Reg2),
    (s.Busy [d, a, b] → ∀ k ∈ ([.add d a b w, .sub d a b w, .mul d a b w, .mulh d a b w, .div d a b w, .rem d a b w, .and d a b, .or d a b,
      .xor d a b, .andn d a b, .shl d a b w, .shr d a b w, .sra d a b w, .min d a b w, .max d a b w, .sel d a b n, .addr d a b sh] : List Instr),
      exec k s = .next s.stalled) ∧
    (s.Busy [a, b] → exec (.cmp n a b w c) s = .next s.stalled) ∧
    (s.Busy [d, a] → ∀ k ∈ ([.clz d a, .popc d a, .movGG d a, .addi d a i] : List Instr), exec k s = .next s.stalled) ∧
    (s.Busy [d] → ∀ k ∈ ([.movGM d m, .li d j, .lih d j, .mpop d m, .mfirst d m, .time d, .cycles d, .rdsr d x] : List Instr),
      exec k s = .next s.stalled) ∧
    (s.Busy [a] → ∀ k ∈ ([.movMG m a, .wrsr a x, .fmtsetReg f a] : List Instr), exec k s = .next s.stalled)

/-- THE FRAME of the scalar instructions that name no memory: wherever one has its effect or stalls, every register file of every context,
the scratchpads, memory, the cores and the device are as before, and no context but its own has anything new in flight; a result
changes a register only when it lands. -/
def Obligations.ScalarInstructionsFrame : Prop :=
  ∀ (s t : State) (d a b : Reg) (w : Bool) (c : Cond) (n m p : Reg3) (i : BitVec 14) (j : BitVec 20) (sh : BitVec 3) (x : SysReg) (f : Reg2)
    (r : BitVec 14) (k : Instr),
    k ∈ ([.nop, .add d a b w, .sub d a b w, .mul d a b w, .mulh d a b w, .div d a b w, .rem d a b w, .and d a b, .or d a b, .xor d a b,
      .andn d a b, .shl d a b w, .shr d a b w, .sra d a b w, .min d a b w, .max d a b w, .clz d a, .popc d a, .movGG d a, .movMG m a,
      .movGM d m, .sel d a b n, .cmp n a b w c, .addi d a i, .li d j, .lih d j, .addr d a b sh, .mand m n p, .mor m n p, .mnot m n,
      .mpop d m, .mfirst d m, .time d, .cycles d, .rdsr d x, .wrsr a x, .fmtsetImm f r, .fmtsetReg f a] : List Instr) →
    exec k s = .next t → (t.signal = .none ∨ t.signal = .waits) →
    SameRegsAndMemory s t ∧ t.cores = s.cores ∧ t.dev = s.dev ∧ t.refHalf = s.refHalf ∧
    (∀ h, h ≠ s.focusCtx → t.ctx h = s.ctx h) ∧
    (∀ h, (t.ctx h).pc = (s.ctx h).pc ∧ (t.ctx h).count = (s.ctx h).count ∧ (t.ctx h).fault = (s.ctx h).fault ∧
      (t.ctx h).work.memOps = (s.ctx h).work.memOps ∧ (t.ctx h).work.streams = (s.ctx h).work.streams)

/-! ### Scalar memory -/

/-- `ld` and `st`, both sizes and every policy (R302, R343): an aligned access of a context within the limits of R97 enters its memory
operations with the address, the policy and, for a store, the data as they stood at issue; a load holds the busy bit of gD until it
performs. No byte of memory and no register changes yet. -/
def Obligations.CoherentAccessesIssue : Prop :=
  ∀ (s : State) (d a : Reg) (z : Bool) (o : BitVec 11) (p : Policy), s.Free [d, a] → memLimit s 1 = .ok →
    let w : Nat := if z then 4 else 8
    let va := srcG s a + BitVec.ofInt 64 (o.toInt * w)
    let data := if z then BitVec.ofNat 64 ((srcG s d).toNat % 2 ^ 32) else srcG s d
    let sent := fun (k : MemKind) (dest : Option DeliverTo) (x : W64) => ({ s with
      signal := .none
      ctxs := Sparse.put s.ctxs s.focusCtx { s.here with work := { s.here.work with
        memOps := s.here.work.memOps ++
          [{ kind := k, dest := dest, width := w, policy := p, perLane := false, items := [{ lane := 0, va := va, data := x }],
             seq := 2 * s.here.retired, age := s.age, cycle := (s.core (s.focusCtx / 4)).cycles, slot := s.focusSlot, pc := s.here.pc.toNat, translated := false,
             accesses := [], got := [], sent := false }] } } } : State)
    (va.toNat % w = 0 →
      exec (.ld d a z o p) s = .next (sent .load (some (.g d.toNat)) 0) ∧ exec (.st d a z o p) s = .next (sent .store none data)) ∧
    (va.toNat % w ≠ 0 →
      TakesPrecise (.ld d a z o p) s .badValue va.toNat ∧ TakesPrecise (.st d a z o p) s .badValue va.toNat)

/-- `lds` lands the scratchpad word of the address, read at issue and zero-extended, four issue-cycles later, and a read of the +12 word
of a marked barrier object acquires; `sts` writes bits [31:0] of its register to the word at issue and removes the mark of the
object there (R305, R346, R150). An address that is no multiple of 4 or lies at or beyond the window is a precise window fault. A `feset` of
another context of the core that is still to reach the word stalls both (R112). -/
def Obligations.ScratchWordsMove : Prop :=
  ∀ (s : State) (d a : Reg) (i : BitVec 14), s.Free [d, a] → s.QueueClear →
    let p := (srcG s a + BitVec.ofInt 64 (i.toInt * 4)).toNat
    let core := s.focusCtx / 4
    let at' := s.here.base + p
    (fesetOver s s.focusCtx at' 4 = true → exec (.lds d a i) s = .next s.stalled ∧ exec (.sts d a i) s = .next s.stalled) ∧
    (fesetOver s s.focusCtx at' 4 = false → p % 4 = 0 → p < 2 ^ s.here.winLog →
      exec (.lds d a i) s =
        .next ((observeFlip core at' s).lands [(4, .g d.toNat (BitVec.ofNat 64 (scratchWord s.store core at').toNat))]) ∧
      exec (.sts d a i) s = .next (s.took fun s => s.mapStore fun st => scratchStore st core at' (BitVec.ofNat 32 (srcG s d).toNat))) ∧
    (fesetOver s s.focusCtx at' 4 = false → p % 4 ≠ 0 ∨ 2 ^ s.here.winLog ≤ p → TakesPrecise (.lds d a i) s .window p ∧ TakesPrecise (.sts d a i) s .window p)

/-- A store reads back, and nothing else changes (R105, R141, R155, R160, R163, R167, R170, R193, R346). The word that `sts` and the engines write to a
scratchpad reads back, and no other word of any core changes, nor any full/empty bit.
The bytes that a coherent store, an atomic or a `cadd` writes stand in the data of the line where the access performs: in memory at the home, in the
owned copy of the core, of its die's L2 or of the synchronisation engine, in the device's words of a host-homed line, or in the core's partial; every
other byte of the line is as it was there (a reserved one reads zero, R265), a later store of one bundle standing where two overlap. Every other
line keeps its bytes of memory, its copies and its entry, under a load too, as long as the caches have room for what the access brings in (else
a line leaves by an eviction). -/
def Obligations.StoresReadBack : Prop :=
  (∀ (st : Store) (core addr core' addr' : Nat) (x : W32), Sparse.risingFrom none st.scratch = true → addr < 2 ^ 21 → addr' < 2 ^ 21 →
    scratchWord (scratchStore st core addr x) core' addr' = (if core' = core ∧ addr' / 4 = addr / 4 then x else scratchWord st core' addr') ∧
    isFull (scratchStore st core addr x) core' addr' = isFull st core' addr' ∧ (scratchStore st core addr x).mem = st.mem) ∧
  (∀ (m : List Host.Cell) (line off n v j a : Nat) (x y : BitVec 512) (mask : BitVec 16), Memory.wf m = true → off + n ≤ 64 → j < 64 →
    memRead (memPutLine m line x mask) a = (if a / 64 = line ∧ mask.getLsbD (a % 64 / 4) = true ∧ isReserved a = false
      then BitVec.ofNat 8 (lineNat x (a % 64) 1) else memRead m a) ∧
    lineNat (lineMerge x y mask) j 1 = (if mask.getLsbD (j / 4) = true then lineNat y j 1 else lineNat x j 1) ∧
    lineNat (lineSet x off n v) j 1 = (if off ≤ j ∧ j < off + n then v / 256 ^ (j - off) % 256 else lineNat x j 1) ∧
    lineNat (withoutReserved line x) j 1 = (if isReserved (64 * line + j) = true then 0 else lineNat x j 1)) ∧
  (∀ (o : MemOp) (a : Access), (∀ e ∈ a.items, e.2.1 + o.width ≤ 64) → let (mask, x) := storeLine o a
    (∀ w < 16, mask.getLsbD w = true ↔ ∃ e ∈ a.items, e.2.1 < 4 * w + 4 ∧ 4 * w < e.2.1 + o.width) ∧
    ∀ before after e, a.items = before ++ e :: after → (∀ d ∈ after, d.2.1 + o.width ≤ e.2.1 ∨ e.2.1 + o.width ≤ d.2.1) →
      lineNat x e.2.1 o.width = e.2.2.toNat % 256 ^ o.width) ∧
  (∀ (st : Store) (core line pts lease : Nat) (pol : Policy) (mask : BitVec 16) (x : BitVec 512), Sparse.risingFrom none st.copies = true →
    Sparse.risingFrom none st.dirs = true → Memory.wf st.mem = true → core < 256 →
    let die := core / 64
    let l2 := 256 + die
    let state := (dirOf st line).state
    let others := fun (u : Store) => ∀ l, l ≠ line → dirOf u l = dirOf st l ∧ (∀ h < 512, copyAt u h l = copyAt st h l) ∧
      ∀ j < 64, memRead u.mem (64 * l + j) = memRead st.mem (64 * l + j)
    let holds := fun (u : Store) (h : Nat) (data : BitVec 512) => ∃ k, copyAt u h line = some k ∧ k.data = withoutReserved line data
    (∀ h ∈ [core, l2], (st.copies.filter fun e => e.1 % 512 == h).length < lineRoom h) →
    (∀ data ts u, serveLoad st core line pol pts lease = some (data, ts, u) → others u ∧
      (state = .untracked ∨ (∃ hs, state = .tracked hs) → u.mem = st.mem)) ∧
    (∀ ts u, serveStore st core line pol pts lease mask x = some (ts, u) → others u ∧
      (isHostLine line = true → proxyData u line = lineMerge (proxyData st line) x mask) ∧
      (isHostLine line = false →
        (pol = .own → ∀ v c, acquireOwn st core line = some v → copyAt v core line = some c → u.mem = v.mem ∧ holds u core (lineMerge c.data x mask)) ∧
        (pol ≠ .own → state = .owned die → let v := readyInDie st die line true
          ∀ c, copyAt v l2 line = some c → u.mem = v.mem ∧ holds u l2 (lineMerge c.data x mask)) ∧
        (pol ≠ .own → state ≠ .owned die → u.mem = memPutLine (readyToWrite st line).mem line x mask ∧
          ∀ c, copyAt u core line = some c → c.data = lineData u.mem line))) ∧
    (∀ off n op b y old ts u, off + n ≤ 64 → serveAtomic st line off n pts op b y = some (old, ts, u) →
      let new := fun (d : BitVec 512) => lineSet d off n (atomicFn op (8 * n) (lineNat d off n) (b % 256 ^ n) (y % 256 ^ n))
      let engine := 260 + homeDie line
      (isHostLine line = true → let v := proxyFetch (writeBackLine st line) line
        others u ∧ u.mem = memPutLine v.mem line (new (proxyData v line)) (wordMask off n) ∧ proxyData u line = new (proxyData v line)) ∧
      (isHostLine line = false → ((line :: st.engineUse.filter (· != line)).filter fun l => homeDie l == homeDie line).length ≤ 32768 →
        others u ∧ (state = .owned 4 → u.mem = st.mem ∧ ∀ c, copyAt st engine line = some c → holds u engine (new c.data)) ∧
        (state ≠ .owned 4 → let v := readyToWrite st line; u.mem = v.mem ∧ holds u engine (new (lineData v.mem line))))) ∧
    (∀ t op ws,
      (∀ c, copyAt st core line = some c → c.state = .combining t op → (ws.map (·.1)).Nodup → (∀ e ∈ ws, e.1 < 16) →
        ∃ ts u k, serveCombine st core line pts t op ws = some (ts, u) ∧ others u ∧ u.mem = st.mem ∧ copyAt u core line = some k ∧
          k.state = c.state ∧ (∀ w < 16, k.mask.getLsbD w = (c.mask.getLsbD w || ws.any fun e => e.1 == w)) ∧
          (∀ w < 16, (∀ e ∈ ws, e.1 ≠ w) → lineWord k.data w = lineWord c.data w) ∧
          ∀ e ∈ ws, (c.mask.getLsbD e.1 = false → lineWord k.data e.1 = e.2) ∧
            (c.mask.getLsbD e.1 = true → ∀ j < t.perLane, laneElem t (lineWord k.data e.1) j =
              (combine op t (laneElem t (lineWord c.data e.1) j) (laneElem t e.2 j)).1 % 2 ^ t.width)) ∧
      (copyAt st core line = none → ∀ v, grantPartial st core line t op = some v → others v ∧
        (∃ c, copyAt v core line = some c ∧ c.state = .combining t op ∧ c.mask = 0) ∧
        serveCombine st core line pts t op ws = serveCombine v core line pts t op ws)))

/-- `ldf` and `ste` enter the full/empty queue of their context, of at most four entries, with what they captured at issue; the take or
keep of a load, the data of a store (R110, R304, R345). With four entries in the queue the bundle stalls; an address outside the
window is a precise window fault. -/
def Obligations.FullEmptyWordsQueue : Prop :=
  ∀ (s : State) (d a : Reg) (k : Bool) (o : BitVec 13), s.Free [d, a] →
    let p := (srcG s a + BitVec.ofInt 64 (o.toInt * 4)).toNat
    let at' := s.here.base + p
    let queued := fun (e : FeEntry) => ({ s with
      signal := .none
      ctxs := Sparse.put s.ctxs s.focusCtx { s.here with work := { s.here.work with feq := s.here.work.feq ++ [e] } } } : State)
    (s.here.work.feq.length < 4 → p % 4 = 0 → p < 2 ^ s.here.winLog →
      exec (.ldf d a k o) s = .next (queued
        { load := some (.g d.toNat), keep := k, words := [(0, at')], data := [], seq := 2 * s.here.retired + 1, age := s.age }) ∧
      exec (.ste d a o) s = .next (queued
        { load := none, keep := false, words := [(0, at')], data := [BitVec.ofNat 32 (srcG s d).toNat],
          seq := 2 * s.here.retired + 1, age := s.age })) ∧
    (s.here.work.feq.length < 4 → p % 4 ≠ 0 ∨ 2 ^ s.here.winLog ≤ p →
      TakesPrecise (.ldf d a k o) s .window p ∧ TakesPrecise (.ste d a o) s .window p) ∧
    (4 ≤ s.here.work.feq.length → exec (.ldf d a k o) s = .next s.stalled ∧ exec (.ste d a o) s = .next s.stalled)

/-- THE FRAME of the scalar accesses: where one has its effect or stalls, every register file, every byte of memory, the directories and
the caches are as before; only `sts` changes a scratchpad word, the one that it addresses. -/
def Obligations.ScalarAccessesFrame : Prop :=
  ∀ (s t : State) (d a : Reg) (z k : Bool) (i : BitVec 14) (o : BitVec 11) (o' : BitVec 13) (p : Policy) (x : Instr),
    x ∈ ([.ld d a z o p, .st d a z o p, .lds d a i, .sts d a i, .ldf d a k o', .ste d a o'] : List Instr) →
    exec x s = .next t → (t.signal = .none ∨ t.signal = .waits) →
    (∀ h, (t.ctx h).regs = (s.ctx h).regs) ∧ (∀ b, memRead t.store.mem b = memRead s.store.mem b) ∧ t.store.dirs = s.store.dirs ∧
    t.store.copies = s.store.copies ∧ t.store.full = s.store.full ∧ t.cores = s.cores ∧ t.dev = s.dev ∧
    (x ≠ .sts d a i → t.store.scratch = s.store.scratch) ∧
    (Sparse.risingFrom none s.store.scratch = true → ∀ key,
      key ≠ scratchKey (s.focusCtx / 4) (s.here.base + (srcG s a + BitVec.ofInt 64 (i.toInt * 4)).toNat) →
      Sparse.get 0 t.store.scratch key = Sparse.get 0 s.store.scratch key)

/-! ### Control -/

/-- `br`, `bc`, `call`, `jr` and `ret` (R24, R280 to R283, R287, R301, R332): an offset counts bundles of 32 bytes from the branch; `call` and
`jr` land the address of the bundle after them; `jr` and `ret` go to the address their register holds, where that is a multiple of 32
and a bundle of the image's code lies there, and otherwise take a precise bad-target fault. Where the link register of `jr` is its
target register, the old value is the target. -/
def Obligations.BranchesGo : Prop :=
  ∀ (s : State) (d a : Reg) (b : Bool) (n : Reg3) (o : BitVec 22),
    let to' := s.here.pc + BitVec.ofInt 64 (32 * o.toInt)
    let link := s.here.pc + 32
    let goes := fun (t : W64) (s : State) => s.took fun s => s.mapHere fun c => { c with branchTo := some t }
    exec (.br o) s = .next (goes to' s) ∧
    (s.here.regs.q.getLsbD n.toNat = b → exec (.bc b n o) s = .next (goes to' s)) ∧
    (s.here.regs.q.getLsbD n.toNat ≠ b → exec (.bc b n o) s = .next (s.took id)) ∧
    (s.Free [63] → exec (.call o) s = .next (goes to' (s.lands [(1, .g 63 link)]))) ∧
    (s.Free [d, a] → (srcG s a).toNat % 32 = 0 → inCode s s.here (srcG s a) = true →
      exec (.jr d a) s = .next (goes (srcG s a) (s.lands [(1, .g d.toNat link)]))) ∧
    (s.Free [d, a] → (srcG s a).toNat % 32 ≠ 0 ∨ inCode s s.here (srcG s a) = false → TakesPrecise (.jr d a) s .badTarget 0) ∧
    (s.Free [63] → (srcG s 63).toNat % 32 = 0 → inCode s s.here (srcG s 63) = true → exec .ret s = .next (goes (srcG s 63) s)) ∧
    (s.Free [63] → (srcG s 63).toNat % 32 ≠ 0 ∨ inCode s s.here (srcG s 63) = false → TakesPrecise .ret s .badTarget 0)

/-- `lsetup` and `loop` are the pseudocode of R34: the trip count read as unsigned and saturated, the predicates shifted, `rb` lowered where
rotation is enabled; a loop that is over changes nothing and falls through (R308, R309). The new state lands with latency 1. -/
def Obligations.LoopsFollowPseudocode : Prop :=
  ∀ (s : State) (a : Reg) (e : BitVec 3) (r : Bool) (o : BitVec 22),
    let c := s.here.regs
    let n := min (srcG s a).toNat (2 ^ 32 - 1)
    let rot : BitVec 8 := if r then 0x80 else 0
    let to' := s.here.pc + BitVec.ofInt 64 (32 * o.toInt)
    let turn := fun (lc : W32) (ec : BitVec 8) (bit : BitVec 8) =>
      let rb : BitVec 5 := if c.ec.getLsbD 7 then c.rb - 1 else c.rb
      (s.lands [(1, .rb rb), (1, .lc lc), (1, .ec ec), (1, .q 0xFF ((c.q <<< 1) ||| bit))]).took
        fun s => s.mapHere fun c => { c with branchTo := some to' }
    (s.Free [a] → exec (.lsetup a e r) s =
      .next (if n = 0 then s.lands [(1, .lc 0), (1, .ec rot), (1, .q 0xFF 0)]
        else s.lands [(1, .lc (BitVec.ofNat 32 (n - 1))), (1, .ec (rot + e.setWidth 8)), (1, .q 0xFF 1)])) ∧
    (c.lc ≠ 0 → exec (.loop o) s = .next (turn (c.lc - 1) c.ec 1)) ∧
    (c.lc = 0 → c.ec.setWidth 3 ≠ (0 : BitVec 3) → exec (.loop o) s = .next (turn 0 (c.ec - 1) 0)) ∧
    (c.lc = 0 → c.ec.setWidth 3 = (0 : BitVec 3) → exec (.loop o) s = .next (s.took id))

/-- `wait` issues with its bundle where each counter is at most its bound, 15 bounding nothing, and stalls it otherwise; `nop` has no
effect (R23, R95, R371).
The fences (R153, R297): `fence.eng` gates the engine commands from its bundle on behind every access before the next bundle;
the gate takes in the accesses of the fence's own bundle, which is the model's reading (log entry 27), R153 naming every earlier access;
`fence.sys.acq` drops the clean copies of host-homed lines that the core's L1 and its die's L2 hold and the clean words of the coherence
proxy's, and keeps the dirty words and every copy elsewhere; `fence.sys.rel` completes once every coherent store of earlier bundles has
performed and no host-homed line of the core is dirty, and `fence.sys` then does both. With a store outstanding or a write-back
to make, a release stalls its bundle; the write-backs that it asks of the host are of the core's dirty host-homed lines. -/
def Obligations.WaitsAndFencesHold : Prop :=
  (∀ (s : State) (l st c t : BitVec 4),
    let ok := (l = 15 ∨ s.here.outLoads ≤ l.toNat) ∧ (st = 15 ∨ s.here.outStores ≤ st.toNat) ∧
      (c = 15 ∨ s.outCopies s.focusCtx ≤ c.toNat) ∧ (t = 15 ∨ s.outTiles s.focusCtx ≤ t.toNat)
    (ok → exec (.wait l st c t) s = .next (s.took id)) ∧ (¬ ok → exec (.wait l st c t) s = .next s.stalled) ∧
    exec .nop s = .next (s.took id)) ∧
  (∀ (s : State),
    let core := s.focusCtx / 4
    let stored := ∀ o ∈ s.here.work.memOps ++ s.here.work.replay, o.kind = .load ∨ 8 * s.here.retired ≤ o.age
    exec .fenceEng s = .next (s.took fun s => s.mapHere fun c => { c with work := { c.work with gate := 2 * c.retired + 2 } }) ∧
    exec .fenceSysAcq s = .next (s.took fun s => s.mapStore fun st => dropHostClean st core) ∧
    (stored → dirtyHostLines s.store core = [] → exec .fenceSysRel s = .next (s.took id) ∧
      exec .fenceSys s = .next (s.took fun s => s.mapStore fun st => dropHostClean st core)) ∧
    (¬ stored → exec .fenceSysRel s = .next s.stalled ∧ exec .fenceSys s = .next s.stalled) ∧
    (stored → dirtyHostLines s.store core ≠ [] →
      ∃ t, exec .fenceSysRel s = .next t ∧ exec .fenceSys s = .next t ∧ t.signal = .waits ∧ t.store = s.store ∧ t.ctxs = s.ctxs ∧
        ∀ l ∈ dirtyHostLines s.store core, (core, l) ∈ t.dev.hostWrites)) ∧
  (∀ (st : Store) (core holder line : Nat), Sparse.risingFrom none st.copies = true → core < 256 → holder < 512 →
    let dirty := (st.copies.filter fun e => e.1 / 512 == line && e.2.state == .hostDirty).map (·.2.mask)
    { dropHostClean st core with copies := st.copies } = st ∧
    copyAt (dropHostClean st core) holder line = match copyAt st holder line with
      | none => none
      | some c =>
        if isHostLine line = true ∧ c.state ≠ .hostDirty ∧ (holder = core ∨ holder = 256 + core / 64) then none
        else some (if holder = 264 then { c with mask := c.mask &&& dirty.foldl (· ||| ·) 0 } else c))

/-- The instructions of slot 0 that R98 names do not issue while a memory operation of their context is untranslated (R98). -/
def Obligations.UntranslatedHoldsEnds : Prop :=
  ∀ (s : State) (a b : Reg) (w g : Bool) (c : BitVec 20), ¬ s.Translated →
    ∀ i ∈ ([.done a, .trap c, .brk c, .yield, .park a b w, .gear g w] : List Instr), exec i s = .next s.stalled

/-- `gear`, `phase` and `yield` (R233, R242, R252): the requested gear lands with latency 1, and with `.w` the next bundle waits for the core to
settle; a declaration of intensity 0 removes the context's, any other replaces it, with 9 to 15 acting as 8 and the stagger of the core; `yield`
sends the context behind the others of its core. `done`, `park`, `trap` and `brk` (R222, R284, R294, R320, R351): with nothing untranslated the
context ends with all 64 bits of its status (with no copy outstanding and the full/empty queue empty), waits for a word to equal the low bits of a
register, or halts for its owner with the code, which has bit 31 set for `brk`. A misaligned `park` is a precise bad-value fault. What follows
(R156, R222, R294, R295, R352), in the step itself (log entry 31): an ended context releases (its stores perform, dirty words of host memory are
written back), then what it has in flight is discarded (landings, streams, tile operations, declaration) and it is one of the ended; when all have
ended, no fault pends and no core of it is in a changeover pause (R244), a RUNNING continuation is DONE with rank 0's status. A call waits its
turn after its release, a device trap without one; its turn shows g1 to g8 as the next bundle would find them, code and rank, and sends the
notice; the arguments stand in memory at once where the host holds no line of them (R164). -/
def Obligations.GearsAndEndsSet : Prop :=
  (∀ (s : State) (g w : Bool) (o : BitVec 12) (i : BitVec 4) (e : BitVec 3) (m : BitVec 7),
    let core := s.focusCtx / 4
    (s.Translated → ∃ t, exec (.gear g w) s = .next t ∧ t.signal = .none ∧
      t.here.work.landing = s.here.work.landing ++ [{ due := s.here.count + 1, age := s.age, eff := .gear g, held := false }] ∧
      t.here.work.gearWait = (w || s.here.work.gearWait) ∧ SameRegsAndMemory s t ∧ t.here.gearReq = s.here.gearReq) ∧
    (exec (.phase o i e m) s = .next (s.took fun s => s.mapHere fun c => { c with
      phaseAt := (s.core core).cycles + 1,
      phase := (if i = 0 then none
        else some { onset := o.toNat, left := (m.toNat + 1) * 4 ^ e.toNat, intensity := if i.toNat < 8 then i.toNat else 8,
                    stagger := 2 * (core % 16) }) })) ∧
    (s.Translated → ∃ t, exec .yield s = .next t ∧ t.signal = .none ∧ (t.core core).rotated = true ∧ (t.core core).lastPos = s.focusCtx % 4 ∧
      SameRegsAndMemory s t ∧ ∀ h, (t.ctx h).work = (s.ctx h).work)) ∧
  (∀ (s : State) (a b : Reg) (w : Bool) (c : BitVec 20), s.Translated →
    let va := srcG s a
    let n := if w then 4 else 8
    (s.Free [a] → s.outCopies s.focusCtx = 0 → s.QueueClear →
      exec (.done a) s = .next (s.took fun s => s.mapHere fun x => { x with ended := some (srcG s a) })) ∧
    (s.Free [a] → s.outCopies s.focusCtx ≠ 0 ∨ ¬ s.QueueClear → exec (.done a) s = .next s.stalled) ∧
    (s.Free [a, b] → va.toNat % n = 0 →
      exec (.park a b w) s = .next (s.took fun s => s.mapHere fun x => { x with work := { x.work with
        park := (some { seq := 2 * s.here.retired, va := va, width := n, expected := if w then BitVec.ofNat 64 ((srcG s b).toNat % 2 ^ 32) else srcG s b,
                        seen := false, asleep := false, line := 0, since := 0, pc := s.here.pc.toNat }) } })) ∧
    (s.Free [a, b] → va.toNat % n ≠ 0 → TakesPrecise (.park a b w) s .badValue va.toNat) ∧
    exec (.trap c) s = .next (s.took fun s => s.mapHere fun x => { x with call := some { code := c.toNat } }) ∧
    exec (.brk c) s = .next (s.took fun s => s.mapHere fun x => { x with call := some { code := 2 ^ 31 + c.toNat } })) ∧
  (∀ (s : State) (h : Nat), let c := s.ctx h
    let i := c.cont
    let k := s.cont i
    let r := releaseStep h s
    let may := c.rank ∉ k.ended ∧ c.work.barvs = [] ∧ s.outCopies h = 0
    (r.1.ctxs = s.ctxs ∧ r.1.store = s.store ∧ (r.2 = true → r.1 = s ∧ c.storesDone = true ∧ dirtyHostLines s.store (h / 4) = [])) ∧
    (∀ x, c.ended = some x → (Sparse.find s.dev.conts i).isSome = true →
      (¬ may → settleEnd h s = s) ∧ (may → r.2 = false → settleEnd h s = r.1) ∧
      (may → r.2 = true → let t := settleEnd h s
        (t.cont i).ended = c.rank :: k.ended ∧ (c.rank = 0 → (t.cont i).exitSeen = x) ∧ (t.ctx h).work.landing = [] ∧
        (t.ctx h).work.streams = [] ∧ (t.ctx h).work.binds = [] ∧ (t.ctx h).work.frozen = [] ∧ (t.ctx h).phase = none ∧
        (∀ o ∈ (t.core (h / 4)).queue, o.ctx ≠ h) ∧ (t.ctx h).regs = c.regs ∧ t.store = s.store)) ∧
    (∀ x, c.call = some x → k.state.isEnd = false → k.callOf ≠ some c.rank → c.rank ∉ k.callQueue →
      let waits := fun (u : State) => u.mapCont i fun k => { k with callQueue := k.callQueue ++ [c.rank] }
      (0x10000 ≤ x.code ∧ x.code < 0x100000 → settleCall h s = waits s) ∧
      (¬ (0x10000 ≤ x.code ∧ x.code < 0x100000) → settleCall h s = if r.2 then waits s else r.1))) ∧
  (∀ (s : State) (i : Nat), let k := s.cont i
    (k.state = .running → k.launch.contexts ≤ k.ended.length → k.faultPending = false → k.stage = 0 →
      unpaused s i = true → settleCont s i = endAndFree i .done 1 k.exitSeen s) ∧
    (∀ rank rs c x, k.callOf = none → k.callQueue = rank :: rs → s.ctxOf i rank = some c → c.call = some x → c.argsReady = true →
      (Sparse.find s.dev.conts i).isSome = true → let t := nextCall i s
      t.cont i = { k with callQueue := rs, callPending := true, callOf := some rank, code := x.code, callRank := rank } ∧
      t.dev.notices = s.dev.notices ++ [{ block := k.block, word := BitVec.ofNat 64 (2 + 2 ^ 8 * k.shown.code + 2 ^ 32 * k.ack) }] ∧
      (k.block % 64 = 0 → k.block + 0x100 ≤ 2 ^ 52 → isDcbLine (k.block / 64 + 3) = false → s.dev.acts = [] → hostHolds s (k.block + 0xC0) 64 = [] →
        Sparse.risingFrom none s.store.dirs = true → s.MemCanonical →
        latestBytes t.store (k.block + 0xC0) 64 = ((List.range 8).map fun n => leBytes 8 (c.nextG (n + 1)).toNat).flatten))) ∧
  (∀ (s : State) (h r : Nat), let c := s.ctx h
    r ≠ 0 → Sparse.risingFrom none c.regs.g = true →
      c.nextG r = ((landDue h (s.setCtx h { c with stallLeft := 0 })).ctx h).regs.readG r)


/-! ### Vectors -/

/-- Integer elements (R68, R356, R370): sums, differences and products modulo 2^w, the lesser and the greater of two (signed for `i` types,
plain for `n` types), the product with an addend, absolute value and negation, and the shifts by a count modulo w, element by element,
over the active lanes, with latency 4, or 6 for `vmul` and `vfma`, and no flag. -/
def Obligations.VectorIntegersLand : Prop :=
  ∀ (s : State) (d a : Reg) (b : VSrc) (m : Reg3) (t : ElemType), isIntType t = true →
    let k := srcM s m
    let X := s.here.readSrcV a
    let Y := s.here.readVSrc b
    let el := fun (x : W32) (j : Nat) => elemInt t (laneElem t x j)
    let cut := fun (z : Int) => z % (2 ^ t.width : Int)
    (s.VectorReady d (a :: vsrcRegs b) [b] →
      (∀ e ∈ ([(.vadd d a b m t, 4, fun x y => x + y), (.vsub d a b m t, 4, fun x y => x - y), (.vmul d a b m t, 6, fun x y => x * y),
          (.vmin d a b m t, 4, fun x y => min x y), (.vmax d a b m t, 4, fun x y => max x y)] : List (Instr × Nat × (Int → Int → Int))),
        ∃ f : W32 → W32 → W32, exec e.1 s = .next (s.vectorLands d (a :: vsrcRegs b) e.2.1 k (List.zipWith f X Y, 0)) ∧
          ∀ x y, ∀ j < t.perLane, (laneElem t (f x y) j : Int) = cut (e.2.2 (el x j) (el y j))) ∧
      (∀ e ∈ ([(.vshl d a b m t, fun x _ n => x * 2 ^ n), (.vshr d a b m t, fun _ p n => p / 2 ^ n),
          (.vsra d a b m t, fun x _ n => x / 2 ^ n)] : List (Instr × (Int → Int → Nat → Int))),
        ∃ f : W32 → W32 → W32, exec e.1 s = .next (s.vectorLands d (a :: vsrcRegs b) 4 k (List.zipWith f X Y, 0)) ∧
          ∀ x y, ∀ j < t.perLane,
            (laneElem t (f x y) j : Int) = cut (e.2 (el x j) (laneElem t x j) (laneElem t y j % t.width)))) ∧
    (s.VectorReady d (d :: a :: vsrcRegs b) [b] →
      ∃ f : W32 → W32 → W32 → W32, exec (.vfma d a b m t) s =
          .next (s.vectorLands d (d :: a :: vsrcRegs b) 6 k ((zip3 (fun x y z => (f x y z, 0)) X Y (s.here.readSrcV d)).map (·.1), 0)) ∧
        ∀ x y z, ∀ j < t.perLane, (laneElem t (f x y z) j : Int) = cut (el x j * el y j + el z j)) ∧
    (s.VectorReady d [a] [] →
      ∀ e ∈ ([(.vabs d a m t, fun x => |x|), (.vneg d a m t, fun x => -x)] : List (Instr × (Int → Int))),
        ∃ f : W32 → W32, exec e.1 s = .next (s.vectorLands d [a] 4 k (X.map f, 0)) ∧
          ∀ x, ∀ j < t.perLane, (laneElem t (f x) j : Int) = cut (e.2 (el x j)))

/-- Float elements (R54, R74, R103, R356): the same instructions on `f32`, `bf16` and `f16` apply the format's own operation to each
element, with the flags of the active lanes.
What the float operations are (R70, R71, R73, R356): of finite operands, the exact sum, difference, product, or product plus addend,
rounded once to nearest even, where an exact zero keeps the sign that two zeros or a product give; a NaN gives the canonical NaN,
and a signalling one raises invalid; `vmin` and `vmax` give the other operand for one NaN and otherwise one of the two, −0 below +0;
`vabs` and `vneg` of a number change nothing but its sign bit.
The rounding itself, in every mode and every format that can be in force, narrow ones included, is `Round` of R79 with the flags of R74: the
nearer neighbour, on a tie the even code, subnormals kept, past the largest finite value an infinity or that value. -/
def Obligations.VectorFloatsLand : Prop :=
  (∀ (s : State) (d a : Reg) (b : VSrc) (m : Reg3) (t : ElemType) (f : FloatFmt),
    (t, f) ∈ ([(.f32, fmtF32), (.bf16, fmtBf16), (.f16, fmtF16)] : List (ElemType × FloatFmt)) →
    let k := srcM s m
    let X := s.here.readSrcV a
    let Y := s.here.readVSrc b
    (s.VectorReady d (a :: vsrcRegs b) [b] →
      ∀ e ∈ ([(.vadd d a b m t, 4, floatAdd f), (.vsub d a b m t, 4, floatSub f), (.vmul d a b m t, 6, floatMul f),
          (.vmin d a b m t, 4, floatMinMax false f), (.vmax d a b m t, 4, floatMinMax true f)] :
          List (Instr × Nat × (Nat → Nat → Nat × Flags5))),
        exec e.1 s = .next (s.vectorLands d (a :: vsrcRegs b) e.2.1 k (maskedFlags k (List.zipWith (lane2 t e.2.2) X Y)))) ∧
    (s.VectorReady d (d :: a :: vsrcRegs b) [b] →
      exec (.vfma d a b m t) s =
        .next (s.vectorLands d (d :: a :: vsrcRegs b) 6 k (maskedFlags k (zip3 (lane3 t (floatFma f)) X Y (s.here.readSrcV d))))) ∧
    (s.VectorReady d [a] [] →
      exec (.vabs d a m t) s = .next (s.vectorLands d [a] 4 k (maskedFlags k (X.map (lane1 t (floatSign false f))))) ∧
      exec (.vneg d a m t) s = .next (s.vectorLands d [a] 4 k (maskedFlags k (X.map (lane1 t (floatSign true f))))))) ∧
  (∀ f ∈ ([fmtF32, fmtBf16, fmtF16] : List FloatFmt), ∀ x y z : Nat,
    let a := f.decode true x
    let b := f.decode true y
    let c := f.decode true z
    let prodNeg := a.isNeg != b.isNeg
    (a.finite → b.finite →
      RoundsOnce f (a.val + b.val) (a.isNegZero && b.isNegZero) (floatAdd f x y) ∧
      RoundsOnce f (a.val - b.val) (a.isNegZero && b.negate.isNegZero) (floatSub f x y) ∧
      RoundsOnce f (a.val * b.val) prodNeg (floatMul f x y) ∧
      (c.finite → RoundsOnce f (a.val * b.val + c.val) (prodNeg && (a.val * b.val == 0) && c.isNegZero) (floatFma f x y z)) ∧
      (floatMinMax false f x y = (x, 0) ∨ floatMinMax false f x y = (y, 0)) ∧
      (floatMinMax true f x y = (x, 0) ∨ floatMinMax true f x y = (y, 0)) ∧
      (f.decode true (floatMinMax false f x y).1).val = min a.val b.val ∧
      (f.decode true (floatMinMax true f x y).1).val = max a.val b.val ∧
      (a.val = 0 → b.val = 0 → a.isNeg = true → b.isNeg = false →
        floatMinMax false f x y = (x, 0) ∧ floatMinMax true f x y = (y, 0) ∧
        floatMinMax false f y x = (x, 0) ∧ floatMinMax true f y x = (y, 0))) ∧
    (a.isNaN = true ∨ b.isNaN = true →
      (∀ r ∈ [floatAdd f x y, floatSub f x y, floatMul f x y], r = (f.canonNaN, a.raises ||| b.raises))) ∧
    (a.isNaN = true ∨ b.isNaN = true ∨ c.isNaN = true → (floatFma f x y z).1 = f.canonNaN) ∧
    (∀ g, (a.isNaN = true → b.isNaN = false → floatMinMax g f x y = (y, a.raises)) ∧
      (a.isNaN = false → b.isNaN = true → floatMinMax g f x y = (x, b.raises)) ∧
      (a.isNaN = true → b.isNaN = true → floatMinMax g f x y = (f.canonNaN, a.raises ||| b.raises))) ∧
    (∀ g, (a.isNaN = true → floatSign g f x = (f.canonNaN, a.raises)) ∧
      (a.isNaN = false → x < 2 ^ (f.e + f.m + 1) → (floatSign g f x).2 = 0 ∧
        ∀ i, (floatSign g f x).1.testBit i =
          if i = f.e + f.m then (if g then !x.testBit i else false) else x.testBit i))) ∧
  (∀ f : FloatFmt, (f ∈ [fmtF32, fmtBf16, fmtF16] ∨ ∃ r, illRecord r = false ∧ narrowTy r = .float f false) →
    ∀ (rm : Rounding) (sat neg : Bool) (m : Nat) (e : Int), RoundsTo f rm sat neg (m * 2 ^ e) (f.round rm sat neg m e))

/-- The operations on whole lanes (R357, R358), whatever the type field: logic bit by bit, `vmov`, `vsel` with the mask choosing in every
lane, and the lanes that `vbcast`, `vperm` and `vrot` take. No flag is raised. -/
def Obligations.WholeLanesMove : Prop :=
  ∀ (s : State) (d a : Reg) (b : VSrc) (m : Reg3) (t : ElemType) (n : BitVec 6),
    let k := srcM s m
    let X := s.here.readSrcV a
    let Y := s.here.readVSrc b
    let lane := fun (Z : List W32) (i : Nat) => Z.getD i 0
    let lands := fun (i : Instr) (srcs : List Reg) (L : Nat) (mask : W64) (f : Nat → W32) =>
      ∃ R : List W32, exec i s = .next (s.vectorLands d srcs L mask (R, 0)) ∧ ∀ i < 64, i < X.length → i < Y.length → lane R i = f i
    (s.VectorReady d (a :: vsrcRegs b) [b] →
      lands (.vand d a b m t) (a :: vsrcRegs b) 4 k (fun i => lane X i &&& lane Y i) ∧
      lands (.vor d a b m t) (a :: vsrcRegs b) 4 k (fun i => lane X i ||| lane Y i) ∧
      lands (.vxor d a b m t) (a :: vsrcRegs b) 4 k (fun i => lane X i ^^^ lane Y i) ∧
      lands (.vsel d a b m t) (a :: vsrcRegs b) 4 (BitVec.allOnes 64) (fun i => if k.getLsbD i then lane X i else lane Y i) ∧
      lands (.vperm d a b m t) (a :: vsrcRegs b) 3 k (fun i => lane X ((lane Y i).toNat % 64))) ∧
    (s.VectorReady d [a] [] →
      lands (.vmov d a m t) [a] 4 k (lane X) ∧
      lands (.vbcast d a n m t) [a] 3 k (fun _ => lane X n.toNat) ∧
      lands (.vrot d a n m t) [a] 3 k (fun i => lane X ((i + n.toNat) % 64)))

/-- `vcmp` (R73, R359): one bit a lane, set where the condition holds of every element of the lane, lands in the mask bits of the active lanes
four issue-cycles later. Integers compare signed or plain by their type; of finite floats the values compare, so that −0 equals +0;
with a NaN, `.ne` alone is true. -/
def Obligations.VectorComparesLand : Prop :=
  (∀ (s : State) (c : VCond) (n : Reg3) (a : Reg) (b : VSrc) (m : Reg3) (t : ElemType),
    (∀ r ∈ a :: vsrcRegs b, s.here.checkSrcV r = .ok) → s.here.checkVSrc b = .ok →
    let X := s.here.readSrcV a
    let Y := s.here.readVSrc b
    ∃ (bits : W64) (fl : Flags5),
      exec (.vcmp c n a b m t) s = .next (s.popsThen (a :: vsrcRegs b) fun u => landFlags 4 fl (land 4 (.m n.toNat (srcM s m) bits) u)) ∧
      (isIntType t = true → fl = 0) ∧
      ∀ i < 64, i < X.length → i < Y.length →
        bits.getLsbD i = (List.range t.perLane).all fun j => (elemCmp c t (laneElem t (X.getD i 0) j) (laneElem t (Y.getD i 0) j)).1) ∧
  (∀ (t : ElemType) (x y : Nat), isIntType t = true → ∀ c,
    ((elemCmp c t x y).1 = true ↔ match c with
      | .eq => elemInt t x = elemInt t y | .ne => elemInt t x ≠ elemInt t y | .lt => elemInt t x < elemInt t y
      | .le => elemInt t x ≤ elemInt t y | .gt => elemInt t y < elemInt t x | .ge => elemInt t y ≤ elemInt t x)) ∧
  (∀ (t : ElemType) (f : FloatFmt) (x y : Nat), vecFloat t = some f →
    let a := f.decode true x
    let b := f.decode true y
    ∀ c, (elemCmp c t x y).2 = a.raises ||| b.raises ∧
      (a.isNaN = true ∨ b.isNaN = true → ((elemCmp c t x y).1 = true ↔ c = .ne)) ∧
      (a.finite → b.finite → ((elemCmp c t x y).1 = true ↔ match c with
        | .eq => a.val = b.val | .ne => a.val ≠ b.val | .lt => a.val < b.val
        | .le => a.val ≤ b.val | .gt => b.val < a.val | .ge => b.val ≤ a.val)))

/-- `vcvt`, `vpack` and `vunpk` (R78, R80, R360, R368): element by element the conversion of R80 under the records that the bundle sees. `vcvt`
works on the active lanes and clears the positions its source does not have; `vpack` takes element j of every lane from source
a + j, and `vunpk` widens one element, both in all 64 lanes. Of the conversion itself: integers to integers wrap, or clamp with `.sat`,
and raise nothing; a finite value goes to a float by one rounding in the mode named, and to an integer or scaled type by rounding to a
multiple of the step and clamping, with invalid where it clamps; a NaN, an infinity, and a value below zero for an unsigned narrow type
give what the table of R80 says. -/
def Obligations.VectorConversionsLand : Prop :=
  (∀ (s : State) (d a : Reg) (m : Reg3) (t u : ElemType) (rm : Rounding) (q : Bool) (p : BitVec 2),
    let k := srcM s m
    let all := BitVec.allOnes 64
    let nf := s.here.regs.readNf
    let X := s.here.readSrcV a
    let cv := fun (S T : ElemType) (x : W32) (j : Nat) => convert (elemNumTy nf S) (elemNumTy nf T) rm q (laneElem S x j)
    let wide : ElemType := if isIntType t then .i32 else .f32
    let srcs := packSources a t
    let Xs := srcs.map s.here.readSrcV
    (s.VectorReady d [a] [] →
      (∃ f : W32 → LaneFlags, exec (.vcvt d a rm u m q t) s = .next (s.vectorLands d [a] 4 k (maskedFlags k (X.map f))) ∧
        ∀ x, (∀ j < t.perLane, laneElem t (f x).1 j = if j < u.perLane then (cv u t x j).1 % 2 ^ t.width else 0) ∧
          ∀ i, (f x).2.getLsbD i = (List.range (min t.perLane u.perLane)).any fun j => (cv u t x j).2.getLsbD i) ∧
      (∃ f : W32 → LaneFlags, exec (.vunpk d a p t) s = .next (s.vectorLands d [a] 4 all (maskedFlags all (X.map f))) ∧
        ∀ x, ((f x).1.toNat, (f x).2) =
          let r := convert (elemNumTy nf t) (elemNumTy nf wide) .rne false (laneElem t x p.toNat)
          (r.1 % 2 ^ 32, r.2))) ∧
    (s.VectorReady d srcs [] →
      srcs = (List.range t.perLane).map (fun j => a + BitVec.ofNat 6 j) ∧
      ∃ f : Nat → LaneFlags, exec (.vpack d a q rm t) s = .next (s.vectorLands d srcs 4 all (maskedFlags all ((List.range 64).map f))) ∧
        ∀ i, ∀ j < t.perLane, laneElem t (f i).1 j =
          (convert (elemNumTy nf wide) (elemNumTy nf t) rm q ((Xs.getD j []).getD i 0).toNat).1 % 2 ^ t.width)) ∧
  (∀ (g h sat : Bool) (w u : Nat) (rm : Rounding) (c : Nat),
    let v : Int := if g then signedOf w c else ((c % 2 ^ w : Nat) : Int)
    let lo : Int := if h then -(2 ^ (u - 1)) else 0
    let hi : Int := if h then 2 ^ (u - 1) - 1 else 2 ^ u - 1
    ((convert (.int g w) (.int h u) rm sat c).1 : Int) = (if sat then max lo (min hi v) else v) % 2 ^ u ∧
      (convert (.int g w) (.int h u) rm sat c).2 = 0) ∧
  (∀ (S : NumTy) (f : FloatFmt) (sg : Bool) (rm : Rounding) (sat : Bool) (c : Nat),
    (f ∈ [fmtF32, fmtBf16, fmtF16] ∨ ∃ r, illRecord r = false ∧ narrowTy r = .float f false) →
    let v := S.decode c
    let r := convert S (.float f sg) rm sat c
    (v.finite → (f.signed = true ∨ 0 ≤ v.val) → RoundsTo f rm sat v.isNeg v.val r) ∧
    (v.finite → f.signed = false → v.val < 0 → r = (0, flagInvalid)) ∧
    (v.isNaN = true → f.hasNaN = true → r = (f.canonNaN, v.raises)) ∧
    (v.isNaN = true → f.hasNaN = false → r = (f.maxCode, flagInvalid)) ∧
    (∀ n, v = .inf n → f.signed = true ∨ n = false →
      (sat = false → f.hasInf = true → r = (f.infCode n, 0)) ∧ (sat = true → r = (f.signBit n + f.maxCode, 0)) ∧
      (sat = false → f.hasInf = false → f.hasNaN = true → r = (f.canonNaN, flagInvalid)) ∧
      (sat = false → f.hasInf = false → f.hasNaN = false → r = (f.signBit n + f.maxCode, flagInvalid)))) ∧
  (∀ (S T : NumTy) (g : Bool) (u : Nat) (a : Int) (rm : Rounding) (sat : Bool) (c : Nat), 0 < u →
    (T = .int g u ∧ a = 0 ∧ (∀ h w, S ≠ .int h w)) ∨ T = .scaled g u a →
    let v := S.decode c
    let r := convert S T rm sat c
    let lo : Int := if g then -(2 ^ (u - 1)) else 0
    let hi : Int := if g then 2 ^ (u - 1) - 1 else 2 ^ u - 1
    let code := fun (n : Int) => (n % 2 ^ u).toNat
    let below := T = .scaled g u a ∧ g = false ∧ v.val < 0
    (v.finite → ¬ below → ∃ n : Int, PicksInt rm (v.val / 2 ^ a) n ∧
      r = if n < lo then (code lo, flagInvalid) else if hi < n then (code hi, flagInvalid)
        else (code n, if n * (2 : ℚ) ^ a = v.val then 0 else flagInexact)) ∧
    (v.finite → below → r = (0, flagInvalid)) ∧ (v.isNaN = true → r = (code hi, flagInvalid)) ∧
    (v = .inf false → r = (code hi, flagInvalid)) ∧ (v = .inf true → r = (code lo, flagInvalid)))

/-- `vdot4` adds the four exact products of a lane to its third source and rounds once, to `f32` (R81, R361); a NaN element or an infinity times
zero gives the canonical NaN and raises invalid, a NaN of the third source gives it too, infinities of opposite sign as well, raising invalid, and
others of one sign that infinity. `vscan` gives the inclusive prefix over
active lanes (R82, R369), and the special functions apply the function of the element's own format to each active element, with their special cases
(R72, R363). Of finite arguments, `vrcp` gives 1/x, `vsqrt` √x and `vrsq` 1/√x, each rounded once to nearest even. Of `vexp2`, `vlog2` and
`vtanh` the statement gives the values that are exact (2^n of an integer n; n of a power 2^n), each rounded once, and for other arguments
only bounds of the number that is rounded: 2^n < it < 2^(n+1) where n < x < n+1, the converse for `vlog2`, and the sign of x and a magnitude below 1
for `vtanh`; how near that number is to the exact value is the model's deduction (log entry 12), and so is that `vscan` keeps the bits of the first
active lane, a NaN's too (log entry 96). -/
def Obligations.DotScanSpecialsLand : Prop :=
  (∀ (s : State) (d a : Reg) (b : VSrc) (m : Reg3) (t : ElemType),
    let k := srcM s m
    let X := s.here.readSrcV a
    let T := elemNumTy s.here.regs.readNf t
    (s.VectorReady d (d :: a :: vsrcRegs b) [b] →
      ∃ f : W32 → W32 → W32 → LaneFlags, exec (.vdot4 d a b m t) s =
          .next (s.vectorLands d (d :: a :: vsrcRegs b) 6 k (maskedFlags k (zip3 f X (s.here.readVSrc b) (s.here.readSrcV d)))) ∧
        (∀ x y z : W32, (∀ j < t.perLane, (T.decode (laneElem t x j)).finite ∧ (T.decode (laneElem t y j)).finite) →
          (fmtF32.decode true z.toNat).finite →
          ∃ g, RoundsOnce fmtF32 ((fmtF32.decode true z.toNat).val +
              ((List.range t.perLane).map fun j => (T.decode (laneElem t x j)).val * (T.decode (laneElem t y j)).val).sum) g
            ((f x y z).1.toNat, (f x y z).2)) ∧
        ∀ x y z : W32,
          let A := fun j => T.decode (laneElem t x j)
          let B := fun j => T.decode (laneElem t y j)
          let D := fmtF32.decode true z.toNat
          let bad := ∃ j < t.perLane, (A j).isNaN = true ∨ (B j).isNaN = true ∨ (∃ n, A j = .inf n ∧ (B j).finite ∧ (B j).val = 0) ∨
            (∃ n, B j = .inf n ∧ (A j).finite ∧ (A j).val = 0)
          let inf := fun (n : Bool) => D = .inf n ∨ ∃ j < t.perLane, ∃ k, (A j = .inf k ∧ (B j).isNeg = (k != n)) ∨ (B j = .inf k ∧ (A j).isNeg = (k != n))
          (bad → f x y z = (0x7FC00000, flagInvalid ||| D.raises)) ∧ (¬ bad → D.isNaN = true → f x y z = (0x7FC00000, D.raises)) ∧
          (¬ bad → D.isNaN = false → inf false → inf true → f x y z = (0x7FC00000, flagInvalid)) ∧
          (¬ bad → D.isNaN = false → inf false → ¬ inf true → f x y z = (0x7F800000, 0)) ∧
          (¬ bad → D.isNaN = false → inf true → ¬ inf false → f x y z = (0xFF800000, 0))) ∧
    (s.VectorReady d [a] [] → ∃ R : List LaneFlags, exec (.vscan d a m t) s = .next (s.vectorLands d [a] 8 k (maskedFlags k R)) ∧
      ∀ i < X.length, k.getLsbD i = true →
        ((∀ j < i, k.getLsbD j = false) → R.getD i (0, 0) = (X.getD i 0, 0)) ∧
        (∀ j < i, k.getLsbD j = true → (∀ l, j < l → l < i → k.getLsbD l = false) →
          let r := ElemOp.add.on t (R.getD j (0, 0)).1.toNat (X.getD i 0).toNat
          R.getD i (0, 0) = (BitVec.ofNat 32 r.1, r.2))) ∧
    (s.VectorReady d [a] [] → ∀ f, vecFloat t = some f →
      ∀ e ∈ ([(.vrcp d a m t, .rcp), (.vrsq d a m t, .rsq), (.vsqrt d a m t, .sqrt), (.vexp2 d a m t, .exp2), (.vlog2 d a m t, .log2),
          (.vtanh d a m t, .tanh)] : List (Instr × SpecialFn)),
        exec e.1 s = .next (s.vectorLands d [a] 12 k (maskedFlags k (X.map (lane1 t (specialOn e.2 f))))))) ∧
  (∀ f ∈ ([fmtF32, fmtBf16, fmtF16] : List FloatFmt),
    let zero := fun (n : Bool) => f.signBit n
    let one := f.bias.toNat * 2 ^ f.m
    (∀ n, specialOn .rcp f (zero n) = (f.infCode n, flagDivZero) ∧ specialOn .rcp f (f.infCode n) = (zero n, 0) ∧
      specialOn .rsq f (zero n) = (f.infCode n, flagDivZero) ∧ specialOn .sqrt f (zero n) = (zero n, 0) ∧
      specialOn .exp2 f (zero n) = (one, 0) ∧ specialOn .log2 f (zero n) = (f.infCode true, flagDivZero) ∧
      specialOn .tanh f (zero n) = (zero n, 0) ∧ specialOn .tanh f (f.infCode n) = (zero n + one, 0)) ∧
    specialOn .rsq f (f.infCode false) = (zero false, 0) ∧ specialOn .sqrt f (f.infCode false) = (f.infCode false, 0) ∧
    specialOn .exp2 f (f.infCode true) = (zero false, 0) ∧ specialOn .exp2 f (f.infCode false) = (f.infCode false, 0) ∧
    specialOn .log2 f one = (zero false, 0) ∧ specialOn .log2 f (f.infCode false) = (f.infCode false, 0)) ∧
  (∀ f ∈ ([fmtF32, fmtBf16, fmtF16] : List FloatFmt), ∀ x, (f.decode true x).val < 0 →
    ∀ fn ∈ [SpecialFn.rsq, .sqrt, .log2], specialOn fn f x = (f.canonNaN, flagInvalid)) ∧
  (∀ f ∈ ([fmtF32, fmtBf16, fmtF16] : List FloatFmt), ∀ x,
    let a := f.decode true x
    let v := a.val
    let rounds := fun (fn : SpecialFn) (w : ℝ) => RoundsTo f .rne false (decide (w < 0)) w (specialOn fn f x)
    let between := fun (fn : SpecialFn) (P : ℚ → Prop) => ∃ n m e, P (Num.val (.fin n m e)) ∧ specialOn fn f x = f.round .rne false n m e
    (a.isNaN = true → ∀ fn, specialOn fn f x = (f.canonNaN, a.raises)) ∧
    (a.finite → v ≠ 0 → rounds .rcp (1 / (v : ℝ))) ∧
    (a.finite → 0 < v → rounds .sqrt (Real.sqrt v) ∧ rounds .rsq (1 / Real.sqrt v)) ∧
    (a.finite → ∀ n : Int, v = n → rounds .exp2 ((2 : ℝ) ^ n)) ∧
    (a.finite → ∀ n : Int, n < v → v < n + 1 → between .exp2 fun w => 2 ^ n < w ∧ w < 2 ^ (n + 1)) ∧
    (a.finite → ∀ n : Int, v = 2 ^ n → rounds .log2 n) ∧
    (a.finite → ∀ n : Int, 2 ^ n < v → v < 2 ^ (n + 1) → between .log2 fun w => n < w ∧ w < n + 1) ∧
    (a.finite → 0 < v → between .tanh fun w => 0 < w ∧ w < 1) ∧ (a.finite → v < 0 → between .tanh fun w => -1 < w ∧ w < 0))

/-- `vred` sends the root of a fixed tree over its active lanes to a latch, ten issue-cycles later, and nothing where no lane is active; an empty
latch takes the root unchanged, another combines it (R87, R362). `vdrain` gives the latch to the active lanes and leaves it empty, whatever its
mask (R123). For `i32` sums, the root is the sum modulo 2^32 of the active lanes. For every operation and type, `f32` included, the root is that
of the tree of R87: level 1 pairs lanes 2i and 2i + 1, each further one the results below; a node of two values combines them, rounding once for
`f32`, and its flag is raised; a node of one value passes it on. Values combine as `f32` numbers under add, min and max, or as signed `i32` ones,
modulo 2^32. -/
def Obligations.ReductionLatchesWork : Prop :=
  (∀ (s : State) (o : RedOp) (n : Reg2) (d a : Reg) (m : Reg3) (t : ElemType),
    (s.here.checkSrcV a = .ok →
      (∀ x fl, treeRoot o t (srcM s m) (s.here.readSrcV a) = (some x, fl) →
        exec (.vred o n a m t) s = .next (s.popsThen [a] fun u => landFlags 10 fl (land 10 (.ps n.toNat o t (BitVec.ofNat 32 x)) u))) ∧
      ((∀ i < 64, (srcM s m).getLsbD i = false) → exec (.vred o n a m t) s = .next (s.popsThen [a] id))) ∧
    (s.here.checkDestV d = .ok →
      exec (.vdrain d n m t) s = .next (s.took fun s => landV d 4 (srcM s m) (List.replicate 64 ((Sparse.find s.here.regs.ps n.toNat).getD 0))
        (s.mapHere fun c => { c with regs := { c.regs with ps := Sparse.erase c.regs.ps n.toNat } })))) ∧
  (∀ (r : Regs) (n : Nat) (o : RedOp) (t : ElemType) (x : W32), Sparse.risingFrom none r.ps = true →
    (Sparse.find r.ps n = none → Sparse.find (r.reduce n o t x).1.ps n = some x ∧ (r.reduce n o t x).2 = 0) ∧
    (∀ y, Sparse.find r.ps n = some y → Sparse.find (r.reduce n o t x).1.ps n = some (BitVec.ofNat 32 (combine o t y.toNat x.toNat).1) ∧
      (r.reduce n o t x).2 = (combine o t y.toNat x.toNat).2) ∧
    ∀ k, k ≠ n → Sparse.find (r.reduce n o t x).1.ps k = Sparse.find r.ps k) ∧
  (∀ (mask : W64) (X : List W32), mask ≠ 0 →
    ∃ x, treeRoot .add .i32 mask X = (some x, 0) ∧
      x % 2 ^ 32 = ((List.range 64).map fun i => if mask.getLsbD i then (X.getD i 0).toNat else 0).sum % 2 ^ 32) ∧
  (∀ (o : RedOp) (t : ElemType) (mask : W64) (X : List W32), ∃ N : Nat → Nat → Option Nat × Flags5, treeRoot o t mask X = N 6 0 ∧
    (∀ i < 64, N 0 i = (if mask.getLsbD i then some (X.getD i 0).toNat else none, 0)) ∧
    ∀ l < 6, ∀ i < 2 ^ (5 - l), let p := N l (2 * i)
      let q := N l (2 * i + 1)
      (∀ x y, p.1 = some x → q.1 = some y → N (l + 1) i = (some (combine o t x y).1, p.2 ||| q.2 ||| (combine o t x y).2)) ∧
      (p.1 = none → N (l + 1) i = (q.1, p.2 ||| q.2)) ∧ (q.1 = none → N (l + 1) i = (p.1, p.2 ||| q.2))) ∧
  (∀ x y : Nat, combine .add .f32 x y = floatAdd fmtF32 x y ∧ combine .min .f32 x y = floatMinMax false fmtF32 x y ∧
    combine .max .f32 x y = floatMinMax true fmtF32 x y) ∧
  (∀ x y : Nat, let i := fun (n : Nat) => (BitVec.ofNat 32 n).toInt
    combine .add .i32 x y = ((x + y) % 2 ^ 32, 0) ∧ combine .min .i32 x y = ((if i y < i x then y else x) % 2 ^ 32, 0) ∧
    combine .max .i32 x y = ((if i x < i y then y else x) % 2 ^ 32, 0))

/-- THE FRAME of slots VA and VB: where one of their instructions has its effect or stalls, every register of every context is as before, but
that `vdrain` empties the latch it names; every byte of memory, the scratchpads, the directories and the caches are as before, and
the engines, the cores and the device too. -/
def Obligations.VectorInstructionsFrame : Prop :=
  ∀ (s t : State) (d a : Reg) (b : VSrc) (m n3 : Reg3) (ty u : ElemType) (n : BitVec 6) (q : Bool) (rm : Rounding) (c : VCond) (o : RedOp)
      (n2 p : Reg2) (x : Instr),
    x ∈ ([.vadd d a b m ty, .vsub d a b m ty, .vmul d a b m ty, .vfma d a b m ty, .vmin d a b m ty, .vmax d a b m ty, .vabs d a m ty,
      .vneg d a m ty, .vand d a b m ty, .vor d a b m ty, .vxor d a b m ty, .vshl d a b m ty, .vshr d a b m ty, .vsra d a b m ty,
      .vcmp c n3 a b m ty, .vsel d a b m ty, .vmov d a m ty, .vbcast d a n m ty, .vperm d a b m ty, .vrot d a n m ty,
      .vcvt d a rm u m q ty, .vpack d a q rm ty, .vunpk d a p ty, .vdot4 d a b m ty, .vscan d a m ty, .vrcp d a m ty, .vrsq d a m ty,
      .vsqrt d a m ty, .vexp2 d a m ty, .vlog2 d a m ty, .vtanh d a m ty, .vred o n2 a m ty, .vdrain d n2 m ty] : List Instr) →
    exec x s = .next t → (t.signal = .none ∨ t.signal = .waits) →
    (∀ b, memRead t.store.mem b = memRead s.store.mem b) ∧ t.store = s.store ∧ t.cores = s.cores ∧ t.dev = s.dev ∧
    (∀ h, h ≠ s.focusCtx → t.ctx h = s.ctx h) ∧
    (x ≠ .vdrain d n2 m ty → t.here.regs = s.here.regs) ∧
    ({ t.here.regs with ps := s.here.regs.ps } : Regs) = s.here.regs ∧ t.here.pc = s.here.pc ∧ t.here.work.memOps = s.here.work.memOps ∧
    t.here.work.feq = s.here.work.feq

/-! ### Vector memory, streams, holds -/

/-- `vld` and `vst` (R108, R112, R354, R365): with nothing of an earlier bundle in the full/empty queue, no `feset` of another context over the words,
and an address that is a multiple of 256 inside the window, the words of the active lanes are read, to land six issue-cycles later, or written
at issue; another address is a precise window fault. `vldf` and `vste` enter the queue with the words of the active lanes and what they
captured (R110, R366); with no active lane their entry performs at once, so that neither a busy bit nor an entry stays (R104). -/
def Obligations.VectorWindowAccesses : Prop :=
  ∀ (s : State) (d a : Reg) (o : BitVec 9) (m : Reg3) (q : Bool), s.Free [a] →
    let k := srcM s m
    let p := (srcG s a + BitVec.ofInt 64 (o.toInt * 256)).toNat
    let core := s.focusCtx / 4
    let word := fun (i : Nat) => s.here.base + p + 4 * i
    let lanes := (List.range 64).filter fun i => k.getLsbD i
    let X := s.here.readSrcV d
    let inside := p % 256 = 0 ∧ p < 2 ^ s.here.winLog
    let clear := ∀ i ∈ lanes, fesetOver s s.focusCtx (word i) 4 = false
    (inside → s.QueueClear → clear → s.here.checkDestV d = .ok → exec (.vld d a o m) s = .next (s.took fun s =>
      lanes.foldl (fun s i => observeFlip core (word i) s)
        (landV d 6 k ((List.range 64).map fun i => scratchWord s.store core (word i)) s))) ∧
    (inside → s.QueueClear → clear → s.here.checkSrcV d = .ok → exec (.vst d a o m) s = .next (s.popsThen [d] fun s =>
      s.mapStore fun st => (lanes.map fun i => (word i, X.getD i 0)).foldl (fun st e => scratchStore st core e.1 e.2) st)) ∧
    (¬ inside → s.QueueClear → clear → (s.here.checkDestV d = .ok → TakesPrecise (.vld d a o m) s .window p) ∧
      (s.here.checkSrcV d = .ok → TakesPrecise (.vst d a o m) s .window p)) ∧
    (s.QueueClear → ¬ clear → (s.here.checkDestV d = .ok → exec (.vld d a o m) s = .next s.stalled) ∧
      (s.here.checkSrcV d = .ok → exec (.vst d a o m) s = .next s.stalled)) ∧
    (inside → s.here.work.feq.length < 4 → s.here.checkDestV d = .ok →
      (lanes ≠ [] → exec (.vldf d a o m q) s = .next
        (s.took fun s => (takeDest d s).mapHere fun c => { c with work := { c.work with feq := c.work.feq ++
          [{ load := some (s.here.deliverV d k), keep := q, words := (lanes.map fun i => (i, word i)), data := [],
             seq := 2 * s.here.retired + 1, age := s.age }] } })) ∧
      (lanes = [] → ∃ t, exec (.vldf d a o m q) s = .next t ∧ t.signal = .none ∧ t.here.work.feq = s.here.work.feq ∧
        t.here.work.delivers = s.here.work.delivers ∧ t.store.mem = s.store.mem ∧ t.store.full = s.store.full)) ∧
    (inside → s.here.work.feq.length < 4 → s.here.checkSrcV d = .ok →
      (lanes ≠ [] → exec (.vste d a o m) s = .next
        (s.popsThen [d] fun u => u.mapHere fun c => { c with work := { c.work with feq := c.work.feq ++
          [{ load := none, keep := false, words := (lanes.map fun i => (i, word i)), data := (lanes.map fun i => X.getD i 0),
             seq := 2 * s.here.retired + 1, age := s.age }] } })) ∧
      (lanes = [] → exec (.vste d a o m) s = .next (s.popsThen [d] id))) ∧
    (¬ inside → s.here.work.feq.length < 4 → (s.here.checkDestV d = .ok → TakesPrecise (.vldf d a o m q) s .window p) ∧
      (s.here.checkSrcV d = .ok → TakesPrecise (.vste d a o m) s .window p))

/-- `vldm`, `vstm`, `vgath` and `vscat` (R104, R364, R367): within the limits of R97 and with every active address a multiple of 4, the access of
the active lanes enters the memory operations with its addresses, its policy and, for a store, the data captured at issue; lane i lies at base +
4i, or at the base plus its zero-extended index. With no active lane a store does nothing, and a load is done at once, so that no busy bit stays;
a misaligned active lane is a precise bad-value fault that names the first. -/
def Obligations.VectorCoherentAccesses : Prop :=
  ∀ (s : State) (d a i : Reg) (o : BitVec 9) (m : Reg3) (p : Policy), s.Free [a] →
    let k := srcM s m
    let lanes := (List.range 64).filter fun j => k.getLsbD j
    let X := s.here.readSrcV d
    let I := s.here.readSrcV i
    let row := fun (j : Nat) => srcG s a + BitVec.ofInt 64 (o.toInt * 256) + BitVec.ofNat 64 (4 * j)
    let idx := fun (j : Nat) => srcG s a + BitVec.ofNat 64 (I.getD j 0).toNat
    let items := fun (at' : Nat → W64) (x : Nat → W32) =>
      lanes.map fun j => ({ lane := j, va := at' j, data := BitVec.ofNat 64 (x j).toNat } : Item)
    let op := fun (kind : MemKind) (dest : Option DeliverTo) (per : Bool) (xs : List Item) =>
      ({ kind := kind, dest := dest, width := 4, policy := p, perLane := per, items := xs, seq := 2 * s.here.retired, age := s.age,
         cycle := (s.core (s.focusCtx / 4)).cycles, slot := s.focusSlot, pc := s.here.pc.toNat, translated := false, accesses := [], got := [], sent := false } : MemOp)
    let adds := fun (x : MemOp) (s : State) => s.mapHere fun c => { c with work := { c.work with memOps := c.work.memOps ++ [x] } }
    let aligned := fun (at' : Nat → W64) => ∀ j ∈ lanes, (at' j).toNat % 4 = 0
    let room := fun (at' : Nat → W64) => memLimit s ((lanes.map fun j => (at' j).toNat / 64).dedup).length = .ok
    (aligned row → room row → lanes ≠ [] →
      (s.here.checkDestV d = .ok → exec (.vldm d a o m p) s =
        .next (s.took fun u => adds (op .load (some (s.here.deliverV d k)) false (items row fun _ => 0)) (takeDest d u))) ∧
      (s.here.checkSrcV d = .ok → exec (.vstm d a o m p) s =
        .next (s.popsThen [d] (adds (op .store none false (items row fun j => X.getD j 0)))))) ∧
    (aligned idx → room idx → lanes ≠ [] → s.here.checkSrcV i = .ok →
      (s.here.checkDestV d = .ok → exec (.vgath d a i m p) s =
        .next (s.popsThen [i] fun u => adds (op .load (some (s.here.deliverV d k)) true (items idx fun _ => 0)) (takeDest d u))) ∧
      (s.here.checkSrcV d = .ok → exec (.vscat d a i m p) s =
        .next (s.popsThen [d, i] (adds (op .store none true (items idx fun j => X.getD j 0)))))) ∧
    (lanes = [] → memLimit s 0 = .ok → s.here.checkSrcV d = .ok →
      exec (.vstm d a o m p) s = .next (s.popsThen [d] id) ∧
      (s.here.checkSrcV i = .ok → exec (.vscat d a i m p) s = .next (s.popsThen [d, i] id))) ∧
    (lanes = [] → memLimit s 0 = .ok → s.here.checkDestV d = .ok → s.here.checkSrcV i = .ok →
      ∀ e ∈ [Instr.vldm d a o m p, .vgath d a i m p], ∃ t, exec e s = .next t ∧ t.signal = .none ∧ t.here.work.memOps = s.here.work.memOps ∧
        t.here.work.delivers = s.here.work.delivers ∧ t.store.mem = s.store.mem ∧ t.store.full = s.store.full) ∧
    (∀ j ∈ lanes, (∀ l ∈ lanes, l < j → (row l).toNat % 4 = 0) → (row j).toNat % 4 ≠ 0 → room row →
      (s.here.checkDestV d = .ok → TakesPrecise (.vldm d a o m p) s .badValue (row j).toNat) ∧
      (s.here.checkSrcV d = .ok → TakesPrecise (.vstm d a o m p) s .badValue (row j).toNat))

/-- `feset` changes the full/empty bits of its words, and no other, at issue (R112, R296), and stalls while a `feset` of another context of the
core has one of them to do; a count of 0 has no effect, and a base that is no multiple of 4 or words beyond the window are a precise window fault.
`sbind` captures its walk for a stream that it binds with latency 1, `sfree` releases with latency 1, and a busy register stalls both (R93, R114,
R118, R337, R341), and `hold` opens its window of banks for n bundles unless another context of the core holds one of them, which stalls it (R120,
R300). That the bits change at issue, for the other contexts of the core too, is the model's (log entry 25). -/
def Obligations.FesetStreamsHolds : Prop :=
  ∀ (s : State) (d a : Reg) (f w : Bool) (n : Reg4) (b1 b2 b3 b4 : BitVec 5) (k : BitVec 4),
    let p := (srcG s a).toNat
    let words := (srcG s d).toNat
    let core := s.focusCtx / 4
    let at' := s.here.base + p
    let r := s.here.regs
    let w0 := r.walk n.toNat 0
    let start := (r.walk n.toNat 3).setWidth 32
    let good := (w0.toNat % 16 = 1 ∧ w0.toNat / 16 % 8 ≤ 3) ∧ start.toNat % 2 ^ (w0.toNat / 16 % 8) = 0
    let names := [b1, b2, b3, b4].map fun b => b.toNat
    let banks := (names.map fun j => s.here.base / 65536 + j).dedup
    let count := if s.here.winLog ≤ 16 then 1 else 2 ^ (s.here.winLog - 16)
    let foreign := ∃ e ∈ s.ctxs, e.1 / 4 = core ∧ e.1 ≠ s.focusCtx ∧ ∃ x, e.2.work.openHold = some x ∧ ∃ y ∈ x.banks, y ∈ banks
    let clear := fesetOver s s.focusCtx at' (4 * words) = false
    let named := s.here.nameReady d = .ok
    (s.Free [d, a] → s.QueueClear → clear → p % 4 = 0 → words = 0 → exec (.feset d a f) s = .next (s.took id)) ∧
    (s.Free [d, a] → s.QueueClear → clear → p % 4 = 0 → words ≠ 0 → p + 4 * words ≤ 2 ^ s.here.winLog → ∃ t, exec (.feset d a f) s = .next t ∧
      t.signal = .none ∧ t.store.mem = s.store.mem ∧ t.store.scratch = s.store.scratch ∧ SameRegsAndMemory { s with store := t.store } t ∧
      (Sparse.risingFrom none s.store.full = true → at' + 4 * words ≤ 2 ^ 21 → ∀ c x, x < 2 ^ 21 → isFull t.store c x =
        if c = core ∧ at' / 4 ≤ x / 4 ∧ x / 4 < at' / 4 + words then f else isFull s.store c x) ∧
      t.here.work.feset = some { addr := at', words := words, done := 0, full := f }) ∧
    (s.Free [d, a] → s.QueueClear → ¬ clear → exec (.feset d a f) s = .next s.stalled) ∧
    (s.Free [d, a] → s.QueueClear → clear → p % 4 ≠ 0 ∨ words ≠ 0 ∧ 2 ^ s.here.winLog < p + 4 * words →
      TakesPrecise (.feset d a f) s .window p) ∧
    (named → good → exec (.sbind d w n) s = .next ((s.queues fun x => { x with nextStream := x.nextStream + 1 }).lands
      [(1, .bind d.toNat { id := s.here.work.nextStream, writes := w, w0 := w0, w1 := r.walk n.toNat 1, w2 := r.walk n.toNat 2,
                           start := start, taken := 0, written := 0, words := [] })])) ∧
    (named → ¬ good → TakesPrecise (.sbind d w n) s .stream 0) ∧
    (named → exec (.sfree d) s = .next (s.lands [(1, .unbind d.toNat)])) ∧
    (¬ named → exec (.sbind d w n) s = .next s.stalled ∧ exec (.sfree d) s = .next s.stalled) ∧
    ((∀ j ∈ names, j < count) → ¬ foreign → exec (.hold b1 b2 b3 b4 k) s =
      .next (s.queues fun x => { x with hold := (some { banks := banks, left := k.toNat, cycles := 0, entries := 2 * s.here.retired + 2 }) })) ∧
    ((∀ j ∈ names, j < count) → foreign → exec (.hold b1 b2 b3 b4 k) s = .next s.stalled) ∧
    ((∃ j ∈ names, count ≤ j) → TakesPrecise (.hold b1 b2 b3 b4 k) s .window 0)

/-! ### Matrix -/

/-- Tile instructions (R124, R125, R130, R137, R313, R314, R348): `mma`, `tzero`, `tld`, `tst` and `tcvt` enter the queue of the core, at its end,
with the ring numbers, records, scales or walk words they captured; a tile beyond the context's is a precise tile fault; a queue of four, or a
tile that an earlier operation holds, stalls: each holds it until it retires, as which the last rows of a `tst` or `tcvt` are read out (log entry
85). A walk that is no window walk of 16,384 elements of the right size is a precise shape fault. What the steps of an operation leave, one after
another (R84 to R86, R129, R133, R139): `tzero` zeros, 16 rows each; `tld` the words of its walk, 8 rows each; `tst` the tile's words along the
walk, 8 rows each, `tcvt` each converted; `mma` for output (i, j) the old word, or 0, with the groups of 16 products of row i of A and column j of
B added one after another, a group each: in integer mode exact sums, clamped after each; in float mode the group's exact sum, block scales
included, rounded once, a NaN where an operand or a scale is one or an infinity meets a zero, an infinity where a product is one, then added in
`f32`; a zero sum is −0 where every product counts as −0, by the signs of log entry 59. As it retires, the rings of an `mma` pop by their blocks,
and the flags of all rows of a `tcvt` are raised at the next bundle's count. Every other tile, and memory, stays. -/
def Obligations.TileInstructionsQueue : Prop :=
  (∀ (s : State) (t : Reg2) (a b : Reg3) (x y : MatType) (z sc q : Bool) (g : Reg) (n : Reg4) (rm : Rounding),
    let r := s.here.regs
    let core := s.focusCtx / 4
    let clear := (∀ o ∈ s.tileOps s.focusCtx, o.tile ≠ t.toNat) ∧ (s.core core).queue.length < 4 ∧ s.here.work.frozen = []
    let mine := t.toNat < s.here.tiles.length
    let rx := capturedRecord s x
    let ry := capturedRecord s y
    let ka := r.ring a.toNat
    let kb := r.ring b.toNat
    let queued := fun (k : MatKind) (start : Nat) (walk : List W64) => s.took fun s => s.mapCore core fun c => { c with queue := c.queue ++
      [{ ctx := s.focusCtx, tile := t.toNat, kind := k, start := start, walk := walk, age := s.age, started := false, running := false,
         left := 1, step := 1, done := 0, used := 0, rate := 0, charge := 0, flags := 0 }] }
    let w := walkShape (r.walk n.toNat 0) (r.walk n.toNat 1) (r.walk n.toNat 2)
    let moves : List (Instr × MatKind × Nat) := [(.tld t g n, .tld, 2), (.tst t g n, .tst, 2),
      (.tcvt t g n x rm q, .tcvt x rx rm q, match x with | .nf _ => 0 | .f32 => 2 | .f16 => 1 | .bf16 => 1)]
    let all : List Instr := [.mma t a b x y z sc, .tzero t, .tld t g n, .tst t g n, .tcvt t g n x rm q]
    (clear → mine → exec (.tzero t) s = .next (queued .tzero 0 [])) ∧
    (clear → mine → ka.cap ≠ 0 → kb.cap ≠ 0 → (a = b → 2 ≤ ka.cap) → badMma x y rx ry sc = false →
      exec (.mma t a b x y z sc) s = .next (queued
        (.mma a.toNat b.toNat x y rx ry z sc (if sc then r.scaleA else []) (if sc then r.scaleB else [])) 0 [])) ∧
    (clear → mine → ka.cap = 0 ∨ kb.cap = 0 ∨ a = b ∧ ka.cap < 2 → TakesPrecise (.mma t a b x y z sc) s .ring 0) ∧
    (s.Free [g] → clear → mine → w.c0 * w.c1 * w.c2 = 16384 → (r.walk n.toNat 0).toNat % 16 = 1 →
      w.inside (srcG s g).toNat (2 ^ s.here.winLog) = true →
      ∀ e ∈ moves, w.esize = e.2.2 → exec e.1 s = .next (queued e.2.1 (srcG s g).toNat (r.walkWords n.toNat))) ∧
    (s.Free [g] → clear → mine → ∀ e ∈ moves, w.c0 * w.c1 * w.c2 ≠ 16384 ∨ (r.walk n.toNat 0).toNat % 16 ≠ 1 ∨ w.esize ≠ e.2.2 →
      TakesPrecise e.1 s .shape 0) ∧
    (s.Free [g] → ¬ clear → ∀ i ∈ all, exec i s = .next s.stalled) ∧
    (s.Free [g] → clear → ¬ mine → ∀ i ∈ all, TakesPrecise i s .tile 0)) ∧
  (∀ (s : State) (o : MatOp), Sparse.risingFrom none s.store.tiles = true →
    let go := fun (n : Nat) => (List.range n).foldl (fun (x : Flags5 × State) k =>
      let r := ({ o with done := k } : MatOp).perform x.2; (x.1 ||| r.1, r.2)) (0, s)
    let u := ({ o with flags := (go o.steps).1 } : MatOp).retire (go o.steps).2
    let h := o.ctx
    let c := s.ctx h
    let core := h / 4
    let old := fun (i j : Nat) => tileWord s h o.tile i j
    let new := fun (n i j : Nat) => tileWord (go n).2 h o.tile i j
    let at' := fun (n : Nat) => c.coreAddr (o.elementAt n)
    let stored := fun (n : Nat) (f : W32 → List Byte) => (List.range (1024 * n)).foldl (fun st n => scratchPutBytes st core (at' n) (f (old (n / 128) (n % 128)))) s.store
    (o.kind = .tzero → ∀ n ≤ 8, ∀ i < 128, ∀ j < 128, new n i j = if i < 16 * n then 0 else old i j) ∧
    (o.kind = .tld → ∀ n ≤ 16, ∀ i < 128, ∀ j < 128, new n i j =
      if i < 8 * n then BitVec.ofNat 32 (ofLeBytes (scratchBytes s.store core (at' (128 * i + j)) 4)) else old i j) ∧
    ((s.core core).pause = 0 → o.kind = .tst → ∀ n ≤ 16, (go n).2.store = stored n fun w => leBytes 4 w.toNat) ∧
    ((s.core core).pause = 0 → ∀ t rec rm sat, o.kind = .tcvt t rec rm sat →
      let r := fun (w : W32) => convert (.float fmtF32 true) (operandTy t rec) rm sat w.toNat
      let fl := (List.range 16384).foldl (fun fl n => fl ||| (r (old (n / 128) (n % 128))).2) 0
      (∀ n ≤ 16, (go n).2.store = stored n fun w => leBytes (match t with | .nf _ => 1 | .f32 => 4 | .f16 => 2 | .bf16 => 2) (r w).1) ∧
        (c.nowCount < c.count → (u.ctx h).work.landing = c.work.landing ++ [{ due := c.count, age := o.age, eff := .raise fl, held := false }]) ∧
        (c.count ≤ c.nowCount → ¬ (c.ffDue = c.count ∧ o.age < c.ffAge) → (u.ctx h).regs.fflags = c.regs.fflags ||| fl)) ∧
    (∀ a b x y rx ry z sc sa sb, o.kind = .mma a b x y rx ry z sc sa sb → classShape x = classShape y →
      let K := (classShape x).1
      let w := (classShape x).2
      let code := fun (n past i k : Nat) => ofLeBytes (scratchBytes s.store core
        (c.coreAddr ((c.regs.ring n).base + ((c.regs.ring n).head.toNat + past) % 2 ^ 32 % (c.regs.ring n).cap * 0x2000) + (i * K + k) * w) w)
      let ca := fun (i k : Nat) => code a 0 i k
      let cb := fun (j k : Nat) => code b (if a = b then 1 else 0) j k
      let va := fun (i k : Nat) => (operandTy x rx).decode (ca i k)
      let vb := fun (j k : Nat) => (operandTy y ry).decode (cb j k)
      let scale := fun (t : Sparse Byte) (i k : Nat) => if sc then scaleExp t i k else some 0
      (∀ i < 128, ∀ j < 128,
        (isScaledInt x rx = true ∧ isScaledInt y ry = true → ∃ acc : Nat → Int, acc 0 = (if z then 0 else (old i j).toInt) ∧
          (∀ g < K / 16, acc (g + 1) = max (-(2 ^ 31)) (min (2 ^ 31 - 1) (acc g +
            ((List.range 16).map fun l => codeInt (operandTy x rx) (ca i (16 * g + l)) * codeInt (operandTy y ry) (cb j (16 * g + l))).sum))) ∧
          o.steps = K / 16 ∧ ∀ g < K / 16, new (g + 1) i j = BitVec.ofInt 32 (acc (g + 1))) ∧
        (¬ (isScaledInt x rx = true ∧ isScaledInt y ry = true) → ∃ acc G : Nat → Nat, acc 0 = (if z then 0 else (old i j).toNat) ∧
          (∀ g < K / 16, acc (g + 1) = (floatAdd fmtF32 (acc g) (G g)).1 ∧
            let p := fun (l : Nat) => va i (16 * g + l)
            let q := fun (l : Nat) => vb j (16 * g + l)
            let bad := ∃ l < 16, (p l).isNaN = true ∨ (q l).isNaN = true ∨ scale sa i (16 * g + l) = none ∨ scale sb j (16 * g + l) = none ∨
              ((p l).mul (q l)).2 = true
            let inf := fun (n : Bool) => ∃ l < 16, ((p l).mul (q l)).1 = .inf n
            (bad ∨ inf true ∧ inf false → G g = fmtF32.canonNaN) ∧
            (¬ bad → ∀ n, inf n → ¬ inf (!n) → G g = fmtF32.infCode n) ∧
            (∀ e f : Nat → Int, (∀ l < 16, (p l).finite ∧ (q l).finite ∧ scale sa i (16 * g + l) = some (e l) ∧
                scale sb j (16 * g + l) = some (f l)) →
              ∃ fl, RoundsOnce fmtF32 ((List.range 16).map fun l => (p l).val * (q l).val * (2 : ℚ) ^ (e l + f l)).sum
                ((List.range 16).all fun l => (p l).val * (q l).val == 0 && (p l).isNeg != (q l).isNeg) (G g, fl))) ∧
          o.steps = K / 16 ∧ ∀ g < K / 16, new (g + 1) i j = BitVec.ofNat 32 (acc (g + 1)))) ∧
      (Sparse.risingFrom none c.regs.rings = true → ∀ n, (u.ctx h).regs.ring n = { c.regs.ring n with
        head := (c.regs.ring n).head + (if n = a ∧ a = b then 2 else if n = a ∨ n = b then 1 else 0) })) ∧
    (∀ n ≤ o.steps, (go n).2.ctxs = s.ctxs ∧ (∀ key, (∀ i < 128, key ≠ (4 * core + c.tiles.getD o.tile 0) * 128 + i) ∨ o.stores = true →
        Sparse.get zeroRow (go n).2.store.tiles key = Sparse.get zeroRow s.store.tiles key) ∧
      (go n).2.store.mem = s.store.mem ∧ (o.stores = false → (go n).2.store.scratch = s.store.scratch ∧ (go n).2.store.full = s.store.full)) ∧
    u.store = (go o.steps).2.store)

/-- Rings and scales (R126 to R128, R136, R328, R335, R336, R339): `rdef` gives a ring its base and capacity and makes it empty, once no queued
operation names it; `rpush` advances the tail where the blocks fit and stalls where they do not; `rstat` lands tail and head; `scl` lands the 256
scale bytes, read at issue, six issue-cycles later. -/
def Obligations.RingsAndScalesWork : Prop :=
  ∀ (s : State) (n : Reg3) (a b d : Reg) (c : BitVec 8) (side : Bool),
    let k := s.here.regs.ring n.toNat
    let base := (srcG s a).toNat
    let cap := (srcG s b).toNat
    let goodDef := (base % 0x2000 = 0 ∧ base < 2 ^ 21) ∧ (0 < cap ∧ cap < 256) ∧ base + cap * 0x2000 ≤ 0x200000
    let named := ∃ o ∈ s.tileOps s.focusCtx, ∃ i j x y rx ry z sc sa sb,
      o.kind = .mma i j x y rx ry z sc sa sb ∧ (i = n.toNat ∨ j = n.toNat)
    let sets := fun (x : Ring) => s.took fun s => s.mapHere fun c => { c with regs := { c.regs with
      rings := Sparse.set { base := 0, cap := 0, head := 0, tail := 0 } c.regs.rings n.toNat x } }
    let window := 2 ^ s.here.winLog
    (s.Free [a, b] → goodDef → base + cap * 0x2000 ≤ window → ¬ named →
      exec (.rdef n a b) s = .next (sets { base := base, cap := cap, head := 0, tail := 0 })) ∧
    (s.Free [a, b] → goodDef → base + cap * 0x2000 ≤ window → named → exec (.rdef n a b) s = .next s.stalled) ∧
    (s.Free [a, b] → ¬ goodDef → TakesPrecise (.rdef n a b) s .badValue 0) ∧
    (s.Free [a, b] → goodDef → window < base + cap * 0x2000 → TakesPrecise (.rdef n a b) s .window base) ∧
    (k.cap ≠ 0 → c.toNat ≤ k.cap → (k.tail - k.head).toNat + c.toNat ≤ k.cap →
      exec (.rpush n c) s = .next (sets { k with tail := k.tail + BitVec.ofNat 32 c.toNat })) ∧
    (k.cap ≠ 0 → c.toNat ≤ k.cap → k.cap < (k.tail - k.head).toNat + c.toNat → exec (.rpush n c) s = .next s.stalled) ∧
    (k.cap = 0 ∨ k.cap < c.toNat → TakesPrecise (.rpush n c) s .ring 0) ∧
    (s.Free [d] → k.cap ≠ 0 →
      exec (.rstat n d) s = .next (s.lands [(2, .g d.toNat (BitVec.ofNat 64 (k.tail.toNat * 2 ^ 32 + k.head.toNat)))])) ∧
    (s.Free [d] → k.cap = 0 → TakesPrecise (.rstat n d) s .ring 0) ∧
    (s.Free [a] → s.QueueClear → base % 256 = 0 → base < window → exec (.scl side a) s = .next (s.lands
      [(6, .scale side (scratchBytes s.store (s.focusCtx / 4) (s.here.base + base) 256))])) ∧
    (s.Free [a] → s.QueueClear → base % 256 ≠ 0 ∨ window ≤ base → TakesPrecise (.scl side a) s .window base)

/-! ### Engines -/

/-- `copy`, `rflush` and `rinv` (R178, R180, R290, R333): an accepted command takes the lowest free of the core's eight channels with the walks,
bases, barrier object and byte total it captured, and stalls its bundle while none is free; one of no bytes is done at once. Byte j of a walk lies
at base + byte displacement, modulo 2^64 (R178). A window walk that leaves the window or names no context of the continuation, and a bad barrier
object, are a precise window fault; a length of 2^32 or more, or a range past 2^48, of `rflush` or `rinv` is a precise bad-value fault. `pref` is
queued behind the gate of its context and runs once that is open, over the lines of at most 64 KiB in ascending order, and changes no register and
no timestamp of a context (R196): a page that does not translate is skipped, and so is a poisoned line, both logged where R208 says (log entry
106); `.wt` keeps no copy; else a line of device memory comes into the core as owned under `.own`, as tracked under `.wi`, and under `.si` as a
lease that ends at max(`pts`, `wts`) + `Lease` or later, where the line's `rts` then stands too; a host-homed line comes as a load of `.si` does
(R155).
THE MODEL'S (log entry 35): a copy that is tracked or owned already stays as it is, also under `.si`, and a line that the host must first give up
is asked for and tried again. -/
def Obligations.EngineCommandsStart : Prop :=
  ∀ (s : State) (gs gd gb : Reg) (ws wd : Reg4) (p : Policy),
    let r := s.here.regs
    let src := r.walkWords ws.toNat
    let dst := r.walkWords wd.toNat
    let x := shapeOf src
    let y := shapeOf dst
    let core := s.focusCtx / 4
    let obj := (srcG s gb).toNat
    let goodObj := obj % 16 = 0 ∧ obj + 16 ≤ 2 ^ s.here.winLog
    let channel := fun (k : CopyKind) (a b : List W64) (i j n : Nat) =>
      ({ kind := k, ctx := s.focusCtx, cont := s.here.cont, rank := s.here.rank, asid := (s.cont s.here.cont).launch.asid,
         src := a, dst := b, srcBase := i, dstBase := j, bar := obj, total := n, landed := [], counted := 0, gate := s.here.work.gate, pc := s.here.pc.toNat, stopped := false } : Channel)
    let starts := fun (i : Instr) (ch : Channel) =>
      (∀ n, n < 8 → (s.core core).channels.find n = none → (∀ k < n, ((s.core core).channels.find k).isSome = true) →
        exec i s = .next (s.took fun s => s.mapCore core fun k => { k with channels := Sparse.put k.channels n ch })) ∧
      ((∀ k < 8, ((s.core core).channels.find k).isSome = true) → exec i s = .next s.stalled)
    let goodShape := ((src.getD 0 0).toNat % 16 ≤ 2 ∧ (dst.getD 0 0).toNat % 16 ≤ 4) ∧ x.esize ≤ 3 ∧ y.esize ≤ 3 ∧ x.total = y.total ∧
      x.total < 2 ^ 32
    let base := (srcG s gs).toNat
    let len := (srcG s gd).toNat
    let badWalk := fun (w : List W64) (at' : Nat) =>
      let w0 := (w.getD 0 0).toNat
      (w0 % 16 = 1 ∨ w0 % 16 = 2) ∧ ((shapeOf w).inside at' (2 ^ s.here.winLog) = false ∨ w0 % 16 = 2 ∧
        let l := (s.cont s.here.cont).launch
        ¬ (w0 / 2 ^ 8 % 2 ^ 16 < l.contexts / l.perCore ∧ w0 / 2 ^ 24 % 4 < l.perCore))
    (s.Free [gs, gd, gb] → goodShape → badWalk src base → TakesPrecise (.copy gs gd ws wd gb) s .window base) ∧
    (s.Free [gs, gd, gb] → goodShape → ¬ badWalk src base → badWalk dst len → TakesPrecise (.copy gs gd ws wd gb) s .window len) ∧
    (s.Free [gs, gd, gb] → goodShape → ¬ badWalk src base → ¬ badWalk dst len → ¬ goodObj → TakesPrecise (.copy gs gd ws wd gb) s .window obj) ∧
    (s.Free [gs, gd, gb] → goodShape → ¬ badWalk src base → ¬ badWalk dst len → goodObj →
      (x.total = 0 → exec (.copy gs gd ws wd gb) s = .next (s.took id)) ∧
      (x.total ≠ 0 → starts (.copy gs gd ws wd gb) (channel .copy src dst base len x.total))) ∧
    (s.Free [gs, gd, gb] → ¬ goodShape → TakesPrecise (.copy gs gd ws wd gb) s .shape 0) ∧
    (s.Free [gs, gd, gb] → goodObj → len < 2 ^ 32 → base + len ≤ 2 ^ 48 →
      (len = 0 → exec (.rflush gs gd gb) s = .next (s.took id) ∧ exec (.rinv gs gd gb) s = .next (s.took id)) ∧
      (len ≠ 0 → starts (.rflush gs gd gb) (channel .flush [] [] base base len) ∧
        starts (.rinv gs gd gb) (channel .inv [] [] base base len))) ∧
    (s.Free [gs, gd, gb] → ¬ goodObj → TakesPrecise (.rflush gs gd gb) s .window obj ∧ TakesPrecise (.rinv gs gd gb) s .window obj) ∧
    (s.Free [gs, gd, gb] → goodObj → 2 ^ 32 ≤ len ∨ 2 ^ 48 < base + len →
      TakesPrecise (.rflush gs gd gb) s .badValue 0 ∧ TakesPrecise (.rinv gs gd gb) s .badValue 0) ∧
    (s.Free [gs, gd] → exec (.pref gs gd p) s = .next (s.took fun s => runPrefetches s.focusCtx (s.mapHere fun c => { c with work :=
      { c.work with prefs := c.work.prefs ++ [{ va := srcG s gs, bytes := len, policy := p, pts := c.pts, gate := c.work.gate }] } }))) ∧
    (∀ (w : List W64) (start j : Nat),
      let v := shapeOf w
      let e := j / 2 ^ v.esize
      (copyAddr w start j).toInt = Int.bmod ((start : Int) + (e % v.c0 * 2 ^ v.esize : Nat) + (e / v.c0 % v.c1 : Nat) * v.s0 +
        (e / (v.c0 * v.c1) : Nat) * v.s1 + (j % 2 ^ v.esize : Nat)) (2 ^ 64)) ∧
    (∀ h, (∀ q ∈ (s.ctx h).work.prefs, (s.ctx h).performedBelow q.gate = false) → runPrefetches h s = s) ∧
    (∀ h q, (s.ctx h).work.prefs = [q] → (s.ctx h).performedBelow q.gate = true →
      let asid := (s.cont (s.ctx h).cont).launch.asid
      runPrefetches h s = (prefetchLines q.va q.bytes).foldl (fun s va => match prefetchLine h (h / 4) asid q.pts q.policy va s with
        | (s, true) => s.mapCtx h fun c => { c with work := { c.work with prefs := c.work.prefs ++ [{ q with va := BitVec.ofNat 64 va, bytes := 1 }] } }
        | (s, false) => s) (s.mapCtx h fun c => { c with work := { c.work with prefs := [] } })) ∧
    (∀ (va : W64) (n : Nat), (prefetchLines va n).Pairwise (· < ·) ∧ ∀ x, x ∈ prefetchLines va n ↔
      let m := min (min n 65536) (2 ^ 48 - va.toNat)
      va.toNat ≤ x ∧ x < va.toNat + m ∧ (x = va.toNat ∨ x % 64 = 0)) ∧
    (∀ (h c asid pts va : Nat), c < 256 → let r := translate c asid (BitVec.ofNat 64 va) .prefetch s
      let t := prefetchLine h c asid pts p va s
      (∀ g, (t.1.ctx g).regs = (r.2.ctx g).regs ∧ (t.1.ctx g).pts = (r.2.ctx g).pts) ∧
      ((∀ pa a b d, r.1 ≠ .found pa a b d) → t = (logWalk c h r.1 r.2, false)) ∧
      (∀ pa a b d, r.1 = .found pa a b d → let line := pa / 64
        let st := r.2.store
        let l2 := copyAt st (256 + c / 64) line
        let keeps := ∃ x, copyAt st c line = some x ∧ (x.state = .owned ∨ x.state = .modified ∨ x.state = .shared ∧ p ≠ .own)
        (p = .wt ∨ keeps → t = (r.2, false)) ∧
        (p ≠ .wt → ¬ keeps → (dirOf st line).poison = true → t = (logError (64 * line) 5 4 (c / 64) h r.2, false)) ∧
        (p ≠ .wt → ¬ keeps → (dirOf st line).poison = false → isHostLine line = true → t.2 = false ∧ t.1.store = (loadHost st c line .si pts s.lease).2.2) ∧
        (p = .own → ¬ keeps → (dirOf st line).poison = false → isHostLine line = false → hostBlocks st line true = true → t = (askHost line r.2, true)) ∧
        (Sparse.risingFrom none st.copies = true → p ≠ .wt → ¬ keeps → (dirOf st line).poison = false → isHostLine line = false → hostBlocks st line (p == .own) = false →
          (dirOf st line).state ≠ .owned (c / 64) → t.2 = false ∧ ∃ x, copyAt t.1.store c line = some x ∧
            (p = .own → x.state = .owned) ∧ (p = .wi → x.state = .shared) ∧
            (p = .si → x.state = .leased ∧ max pts x.wts + s.lease ≤ x.rts ∧
              ((∀ y, l2 = some y → y.state ≠ .shared) → Sparse.risingFrom none st.dirs = true → (dirOf t.1.store line).rts = x.rts)))))

/-- Barrier objects and packs (R185 to R191, R279, R282, R285, R323): `bini` writes and marks the object, `barv` queues its update behind every
access of earlier bundles and, which is the model's reading (log entry 27: R149 and R279 name every earlier access), those of its own; `bwait`
holds its context until the phase is the one it names, and ends at once where it is; `pbar` begins a wait at the next barrier of its level. A bad
object is a precise window fault, values out of range a precise bad-value fault. That a barrier object carries timestamps, which `bini` resets and
`bwait` raises `pts` to, is the model's deduction from R150 (log entry 22). -/
def Obligations.BarrierInstructionsWork : Prop :=
  ∀ (s : State) (a b c : Reg) (f x : Bool) (l : Reg2) (g : Option Bool),
    let off := (srcG s a).toNat
    let good := off % 16 = 0 ∧ off + 16 ≤ 2 ^ s.here.winLog
    let core := s.focusCtx / 4
    let obj := s.here.base + off
    let need := (srcG s b).toNat
    let arr := (srcG s c).toNat
    let goodCounts := (need < 2 ^ 32 ∧ arr < 2 ^ 16) ∧ (need ≠ 0 ∨ arr ≠ 0)
    (s.Free [a, b, c] → good → goodCounts → fesetOver s s.focusCtx obj 16 = false → exec (.bini a b c) s = .next (s.took fun s => endWaits (s.mapStore fun st =>
      setCarried (setMark (scratchStore (scratchStore (scratchStore (scratchStore st core obj (BitVec.ofNat 32 need)) core (obj + 4) 0) core (obj + 8)
        (BitVec.ofNat 32 (arr * 65536))) core (obj + 12) 0) core obj) (objectKey core obj) (0, 0)))) ∧
    (s.Free [a, b, c] → fesetOver s s.focusCtx obj 16 = true → exec (.bini a b c) s = .next s.stalled) ∧
    (s.Free [a, b, c] → good → ¬ goodCounts → fesetOver s s.focusCtx obj 16 = false → TakesPrecise (.bini a b c) s .badValue 0) ∧
    (s.Free [a, b] → good → need < 2 ^ 32 → exec (.barv a b f) s = .next (s.queues fun w => { w with barvs := w.barvs ++
      [{ addr := obj, bytes := need, arrive := f, gate := 2 * s.here.retired + 2 }] })) ∧
    (s.Free [a, b] → good → 2 ^ 32 ≤ need → TakesPrecise (.barv a b f) s .badValue 0) ∧
    (s.Free [a, b] → good → (scratchWord s.store core (obj + 12)).getLsbD 0 ≠ (srcG s b).getLsbD 0 → ∃ t, exec (.bwait a b) s = .next t ∧
      t.signal = .none ∧ t.here.work.bwait = some (obj, (srcG s b).getLsbD 0) ∧ SameRegsAndMemory s t) ∧
    (s.Free [a, b] → good → (scratchWord s.store core (obj + 12)).getLsbD 0 = (srcG s b).getLsbD 0 → s.here.watches = true →
      ∃ t, exec (.bwait a b) s = .next t ∧ t.signal = .none ∧ t.here.work.bwait = none ∧
        t.here.pts = max s.here.pts (carried s.store (objectKey core obj)).1 ∧ SameRegsAndMemory s t) ∧
    (s.Free [a, b, c] → ¬ good → fesetOver s s.focusCtx obj 16 = false → ∀ i ∈ ([.bini a b c, .barv a b f, .bwait a b] : List Instr), TakesPrecise i s .window off) ∧
    (l ≠ 3 ∨ s.here.regs.pack.getLsbD 63 = true → ∃ t, exec (.pbar l g x) s = .next t ∧ t.signal = .none ∧ SameRegsAndMemory s t ∧
      t.here.work.pbar = some { level := l.toNat, nth := Sparse.get 0 s.here.pbarCount l.toNat + 1, gear := g, drop := x,
                                gate := 2 * s.here.retired + 2, arrived := false, raised := false, released := false }) ∧
    (l = 3 → s.here.regs.pack.getLsbD 63 = false → TakesPrecise (.pbar l g x) s .badValue 0)

/-- The atomics (R193, R277): each enters the memory operations of its context with its operation, operands and peer register as at issue, its old
value on its way to gD; an address that is no multiple of the width is a precise bad-value fault. What each writes and returns is the
table of R193, in both widths. -/
def Obligations.AtomicsIssue : Prop :=
  (∀ (s : State) (d a b c : Reg) (w : Bool), s.Free [d, a, b, c] → memLimit s 1 = .ok →
    let n := if w then 4 else 8
    let va := srcG s a
    ∀ e ∈ ([(.atadd d a b w, .add, 0), (.atand d a b w, .and, 0), (.ator d a b w, .or, 0), (.atxor d a b w, .xor, 0),
        (.atmin d a b w true, .min, 0), (.atmin d a b w false, .minU, 0), (.atmax d a b w true, .max, 0), (.atmax d a b w false, .maxU, 0),
        (.atswp d a b w, .swp, 0), (.atcas d a b c w, .cas, c)] : List (Instr × AtomicOp × Reg)),
      (va.toNat % n = 0 → exec e.1 s = .next (s.queues fun x => { x with memOps := x.memOps ++
        [{ kind := .atomic e.2.1 (srcG s b) (srcG s e.2.2) s.here.regs.apeer, dest := some (.g d.toNat), width := n, policy := .wt,
           perLane := false, items := [{ lane := 0, va := va, data := 0 }], seq := 2 * s.here.retired, age := s.age,
           cycle := (s.core (s.focusCtx / 4)).cycles, slot := s.focusSlot, pc := s.here.pc.toNat, translated := false, accesses := [], got := [], sent := false }] })) ∧
      (va.toNat % n ≠ 0 → TakesPrecise e.1 s .badValue va.toNat)) ∧
  (∀ (w : Nat) (o b c : Nat), (w = 32 ∨ w = 64) → o < 2 ^ w → b < 2 ^ w → c < 2 ^ w →
    let sg := fun (x : Nat) => if x < 2 ^ (w - 1) then (x : Int) else x - 2 ^ w
    atomicFn .add w o b c = (o + b) % 2 ^ w ∧ atomicFn .and w o b c = o &&& b ∧ atomicFn .or w o b c = o ||| b ∧
    atomicFn .xor w o b c = o ^^^ b ∧ atomicFn .swp w o b c = b ∧ atomicFn .minU w o b c = min o b ∧
    atomicFn .maxU w o b c = max o b ∧ sg (atomicFn .min w o b c) = min (sg o) (sg b) ∧
    sg (atomicFn .max w o b c) = max (sg o) (sg b) ∧ atomicFn .cas w o b c = if o = c then b else o)

/-- `crng` and `cadd` (R168 to R170, R286, R291): a length of 0 clears the slot, any other lands the range in the format of R169, with the checks
of R168; a `cadd` whose active lanes lie in one range of its context issues as partials of that range's type and operation, and one that no range
holds, or whose address is no multiple of 4, takes a precise range fault; one with no active lane does nothing. -/
def Obligations.CommutativeRangesWork : Prop :=
  ∀ (s : State) (n : Reg2) (b l v : Reg) (m : Reg3) (t : ElemType) (o : RedOp),
    let base := (srcG s b).toNat
    let len := (srcG s l).toNat
    let type := match t with | .bf16 => 1 | .i32 => 3 | _ => 0
    let op := match o with | .add => 0 | .max => 1 | .min => 2
    let meets := ∃ e ∈ s.here.regs.ranges, e.1 ≠ n.toNat ∧ base < e.2.base + e.2.len ∧ e.2.base < base + len
    let good := (base % 64 = 0 ∧ len % 64 = 0 ∧ len ≤ 2 ^ 20 ∧ base + len ≤ 2 ^ 48) ∧ ¬ meets
    let lanes := (List.range 64).filter fun j => (srcM s m).getLsbD j
    let holds := fun (r : Range) => ∀ j ∈ lanes, r.base ≤ base + 4 * j ∧ base + 4 * j + 4 ≤ r.base + r.len
    let X := s.here.readSrcV v
    let room := memLimit s ((lanes.map fun j => (srcG s b + BitVec.ofNat 64 (4 * j)).toNat / 64).dedup).length = .ok
    (s.Free [b, l] → len = 0 → exec (.crng n b l t o) s = .next (s.lands [(1, .crng n.toNat 0)])) ∧
    (s.Free [b, l] → len ≠ 0 → good → ∃ w : W64, exec (.crng n b l t o) s = .next (s.lands [(1, .crng n.toNat w)]) ∧
      w.getLsbD 0 = true ∧ w.getLsbD 1 = false ∧ w.toNat % 2 ^ 6 / 4 = type ∧ w.toNat / 2 ^ 6 % 2 ^ 42 = base / 64 ∧
      w.toNat / 2 ^ 48 % 2 ^ 14 = len / 64 - 1 ∧ w.toNat / 2 ^ 62 = op ∧
      (t = .f32 ∨ t = .bf16 ∨ t = .i32 → rangeOf w = some { base := base, len := len, t := t, op := o })) ∧
    (s.Free [b, l] → len ≠ 0 → ¬ good → TakesPrecise (.crng n b l t o) s .badValue 0) ∧
    (s.Free [b] → s.here.checkSrcV v = .ok → room → lanes ≠ [] → base % 4 = 0 →
      (∀ e ∈ s.here.regs.ranges, holds e.2 → (∀ e' ∈ s.here.regs.ranges, holds e'.2 → e' = e) →
        exec (.cadd v b m) s = .next (s.popsThen [v] fun u => u.mapHere fun c => { c with work := { c.work with memOps := c.work.memOps ++
          [{ kind := .combine e.2.t e.2.op, dest := none, width := 4, policy := .wt, perLane := false,
             items := (lanes.map fun j => { lane := j, va := srcG s b + BitVec.ofNat 64 (4 * j), data := BitVec.ofNat 64 (X.getD j 0).toNat }),
             seq := 2 * s.here.retired, age := s.age, cycle := (s.core (s.focusCtx / 4)).cycles, slot := s.focusSlot,
             pc := s.here.pc.toNat, translated := false, accesses := [], got := [], sent := false }] } })) ∧
      ((∀ e ∈ s.here.regs.ranges, ¬ holds e.2) → TakesPrecise (.cadd v b m) s .range 0)) ∧
    (s.Free [b] → s.here.checkSrcV v = .ok → room → lanes ≠ [] → base % 4 ≠ 0 → TakesPrecise (.cadd v b m) s .range 0) ∧
    (s.Free [b] → s.here.checkSrcV v = .ok → memLimit s 0 = .ok → lanes = [] → exec (.cadd v b m) s = .next (s.popsThen [v] id))

/-! ### Events of a context -/

/-- What reaches a context (R89, R93, R97, R99, R107, R110, R111, R112, R117, R119, R121, R122, R142): due results land; a value on its way
arrives, a load's only when no older load is still on its way, and writes its `g` register where no older result is due there; the oldest
untranslated operation translates or takes a deferred fault, which puts it and every later one in the replay list and parks the context (that one
found after a younger precise fault leaves the state is the model's, log entry 78); a store whose accesses have performed leaves; the head of the
full/empty queue performs once its words are full (a load: the words are taken, and become empty unless kept, their values go to the destination,
what they carry is acquired) or empty (a store, which also waits for earlier accesses: the words are stored, become full and carry the context's
timestamp: that words carry timestamps is the model's, log entry 22); a stream reads words of any of its next four entries, each once, and an
entry is fetched when its last word has been read; a push waits behind those of its context that wait, and else is written; an expired hold window
closes. Entries, fetches and pushes go through the engine port of their banks, or wait at it. The port serves a request from the cycle after its
arrival on, which is the model's (log entry 73); none while it has served one in this cycle, while a window holds a bank against it (through which
go the pushes and fetches of the holder, and entries queued before it), or while a request that came in an earlier cycle, or in the same one and
before it in the round, waits for one of the banks and could be served. -/
def Obligations.PipelineEventsAct : Prop :=
  (∀ (s : State) (h k x : Nat) (words : W64),
    let c := s.ctx h
    let core := h / 4
    let to' := fun (f : Work → Work) => s.mapCtx h fun c => { c with work := f c.work }
    exec (.resultLanding h) s = .next (landDue h s) ∧
    (∀ d, c.work.delivers[k]? = some d → (d.load = true → ∀ e ∈ c.work.delivers.take k, e.load = false) →
      exec (.deliver h k) s = .next (arrive h d (to' fun w => { w with delivers := w.delivers.eraseIdx k })) ∧
      (∀ r, d.dest = .g r → r ≠ 0 → (∀ p ∈ c.work.landing, p.eff.hits d.dest = false) → Sparse.risingFrom none c.regs.g = true →
        ∃ t, exec (.deliver h k) s = .next t ∧ (t.ctx h).work.delivers = c.work.delivers.eraseIdx k ∧
          ∀ j, (t.ctx h).regs.readG j = if j = r then d.value.headD 0 else c.regs.readG j)) ∧
    (∀ o, c.work.memOps.find? (fun o => !o.translated) = some o →
      let r := translateItems core (s.cont c.cont).launch.asid o.kind.requester o.items s
      (∀ e, r.1.2 = some e → c.fault ≠ none → exec (.translationResult h) s = .next s) ∧
      (∀ va cls level entry rep miss, r.1.2 = some (va, .failed cls level entry rep miss) → c.fault = none →
        ∃ t f, exec (.translationResult h) s = .next t ∧ (t.ctx h).fault = some f ∧ f.cls = cls ∧ f.addr = va.toNat ∧ f.slot = o.slot ∧
          f.pc = o.pc ∧ f.level = level ∧ f.repairable = rep ∧ (t.ctx h).work.memOps = c.work.memOps.filter (·.translated) ∧
          (t.ctx h).work.replay = c.work.memOps.filter (fun o => !o.translated) ++ c.work.replay ∧
          f.replay = (t.ctx h).work.replay.length + (if c.work.park.isSome then 1 else 0) ∧ (t.ctx h).regs = c.regs ∧ (t.ctx h).pc = c.pc) ∧
      (r.1.2 = none → selfPeer r.2 o r.1.1 = false → exec (.translationResult h) s =
        .next (mapOp h o.age (fun o => { o with translated := true, accesses := accessesOf o.perLane r.1.1 }) r.2))) ∧
    (∀ o os, c.work.memOps = o :: os → o.translated = true → o.accesses = [] → o.dest = none →
      exec (.storePerformed h) s = .next (to' fun w => { w with memOps := os })) ∧
    (∀ e es, c.work.feq = e :: es → c.awake = true → (s.core core).pause = 0 → (∀ w ∈ e.words, fesetOver s h w.2 4 = false) →
      let addrs := e.words.map (·.2)
      let through := fun (t : State) => exec (.feEntryPerform h) s =
        .next (if portFree s (.entry h) core addrs = true then t else queuePort (.entry h) core addrs s)
      let used := usePort (.entry h) core addrs s
      let mine := used.mapCtx h fun c => { c with work := { c.work with feq := es } }
      (∀ d, e.load = some d → (∀ w ∈ e.words, isFull s.store core w.2 = true) → through (performTake h e d mine)) ∧
      (e.load = none → (∀ w ∈ e.words, isFull s.store core w.2 = false) → (∀ o ∈ c.work.memOps ++ c.work.replay, e.seq ≤ o.seq) →
        (∀ p, c.work.park = some p → e.seq ≤ p.seq) → through (performRelease h e mine)) ∧
      ((∃ w ∈ e.words, isFull s.store core w.2 ≠ e.load.isSome) → exec (.feEntryPerform h) s = .next s)) ∧
    (∀ y a, c.bound x = some y → y.writes = false → a < 4 →
      let j := y.taken + a
      let lanes := (y.lanesOf j).filter fun i => words.getLsbD i && !y.hasRead j i
      let addrs := (lanes.map fun i => (y.laneBytes j i).map fun e => c.base + e.2.toNat).flatten
      j < y.length → y.entryInside j c.window = true → c.awake = true → lanes ≠ [] → (s.core core).pause = 0 →
      let u := usePort (.stream h x) core addrs s
      exec (.streamFetch h { reg := x, ahead := a, words := words }) s =
        .next (if portFree s (.stream h x) core addrs = true then
            u.mapCtx h fun c => { c with work := { c.work with streams := c.work.streams.map fun z =>
              if z.id = y.id then (z.fetchWords u.store core c.base j lanes) else z } }
          else queuePort (.stream h x) core addrs s)) ∧
    (∀ id lanes p y, (c.work.streams.find? fun z => z.id == id) = some y →
      let bytes := y.pushBytes c.base lanes
      let addrs := bytes.map (·.1)
      let waits := (∃ q ∈ c.work.landing, q.eff.isPush = true ∧ q.due ≤ c.nowCount) ∨ s.windowHw c.cont c.rank ≠ some h ∨
        ((s.core core).pause ≠ 0 ∧ 16384 < ((s.core core).staging.map (·.data.length)).sum + bytes.length)
      let keeps := fun (u : State) => u.mapCtx h fun c => { c with work := { c.work with landing := c.work.landing ++ [p] } }
      (waits → landPush h id lanes p s = keeps s) ∧
      (¬ waits → landPush h id lanes p s = if portFree s (.push h p.age) core addrs = true then pushEntry h id bytes (usePort (.push h p.age) core addrs s)
        else keeps (queuePort (.push h p.age) core addrs s)) ∧
      let t := pushEntry h id bytes s
      (t.ctx h).work.streams = c.work.streams.map (fun z => if z.id = id then { z with written := z.written + 1 } else z) ∧
      ((s.core core).pause = 0 → t.store = bytes.foldl (fun st e => scratchPutBytes st core e.1 [e.2]) s.store) ∧
      ((s.core core).pause ≠ 0 → t.store = s.store ∧
        (t.core core).staging = (s.core core).staging ++ bytes.map fun e => { addr := e.1, data := [e.2] })) ∧
    (∀ w, c.work.hold = some w → 64 ≤ w.cycles →
      exec (.holdLimitExpiry h) s = .next (to' fun x => { x with hold := none, holdFault := true }))) ∧
  (∀ (x : Stream) (st : Store) (core base j : Nat) (lanes : List Nat), (∀ i ∈ lanes, i < 64) → Sparse.risingFrom none x.words = true →
    let z := x.fetchWords st core base j lanes
    let key := fun (j i : Nat) => 64 * j + i
    z = { x with words := z.words } ∧
    (∀ k i, i < 64 → Sparse.find z.words (key k i) =
      if k = j ∧ i ∈ lanes then some (x.readLane st core base j i) else Sparse.find x.words (key k i)) ∧
    (x.fetched j = true ↔ ∀ i ∈ x.lanesOf j, (Sparse.find x.words (key j i)).isSome = true) ∧
    x.entry j = (List.range 64).map fun i => Sparse.get 0 x.words (key j i)) ∧
  (∀ (s : State) (u : PortUser) (core : Nat) (addrs : List Nat), let k := s.core core
    let passes := fun (h : Nat) (w : HoldWindow) => (∃ r, u = .stream h r ∨ u = .push h r) ∨
      (u = .entry h ∧ ∃ x, (s.ctx h).work.feq.head? = some x ∧ x.seq < w.entries)
    let held := fun (a : Nat) => ∃ e ∈ s.ctxs, e.1 / 4 = core ∧ ∃ w, e.2.work.openHold = some w ∧ a / 65536 ∈ w.banks ∧ ¬ passes e.1 w
    let wait : PortWait := k.request u (banksOf addrs)
    (portFree s u core addrs = true → ∀ a ∈ addrs, a / 65536 ∉ k.port ∧ ¬ held a ∧ wait.since < k.cycles) ∧
    ((∀ v ∈ k.portWaits, v.user = u) → wait.since < k.cycles → (∀ a ∈ addrs, a / 65536 ∉ k.port ∧ ¬ held a) → portFree s u core addrs = true) ∧
    (∀ v ∈ k.portWaits, v.user ≠ u → (∃ a ∈ addrs, a / 65536 ∈ v.banks) →
      v.since < wait.since ∨ v.since = wait.since ∧ roundBefore k.portLast v.user u = true → banksOpen s v.user core v.banks = true →
      (∀ e ∈ s.cores, e.1 ≠ core → ∀ y ∈ e.2.portWaits, y.user ≠ v.user) → portFree s u core addrs = false) ∧
    (addrs ≠ [] → (∀ a ∈ addrs, a / 65536 ∈ ((usePort u core addrs s).core core).port) ∧
      (∀ v ∈ ((usePort u core addrs s).core core).portWaits, v.user ≠ u) ∧
      wait ∈ ((queuePort u core addrs s).core core).portWaits ∧
      ((∀ v ∈ k.portWaits, v.user ≠ u) → wait.since = k.cycles)) ∧
    (∀ v ∈ k.portWaits, v.user ≠ u → v ∈ ((queuePort u core addrs s).core core).portWaits)) ∧
  (∀ (s : State) (h : Nat) (e : FeEntry), (∀ w ∈ e.words, w.2 % 4 = 0 ∧ w.2 < 2 ^ 21) → Sparse.risingFrom none s.store.full = true →
    let c := s.ctx h
    let core := h / 4
    let named := fun (a : Nat) => a ∈ e.words.map (·.2)
    (∀ d, let t := performTake h e d s
      t.store.mem = s.store.mem ∧ ((∀ id mask, d ≠ .push id mask) → t.store.scratch = s.store.scratch) ∧
      (∀ a, a % 4 = 0 → a < 2 ^ 21 → isFull t.store core a = (isFull s.store core a && !(!e.keep && (e.words.map (·.2)).contains a))) ∧
      (∀ w ∈ e.words, (carried s.store (wordKey core w.2)).1 ≤ (t.ctx h).pts) ∧ c.pts ≤ (t.ctx h).pts ∧
      ((∀ p ∈ c.work.landing, p.eff.hits d = false) →
        (∀ r i a, d = .g r → r ≠ 0 → e.words = [(i, a)] → Sparse.risingFrom none c.regs.g = true →
          (t.ctx h).regs.readG r = (scratchWord s.store core a).setWidth 64) ∧
        (∀ p mask, d = .v p mask → Sparse.risingFrom none c.regs.v = true → (e.words.map (·.1)).Nodup → ∀ w ∈ e.words, w.1 < 64 →
          mask.getLsbD w.1 = true → ((t.ctx h).regs.readV p).getD w.1 0 = scratchWord s.store core w.2))) ∧
    (e.data.length = e.words.length → (e.words.map (·.2)).Nodup → Sparse.risingFrom none s.store.scratch = true →
      Sparse.risingFrom none s.store.released = true →
      let t := performRelease h e s
      t.ctxs = s.ctxs ∧ t.store.mem = s.store.mem ∧
      (∀ e' ∈ List.zip e.words e.data, scratchWord t.store core e'.1.2 = e'.2 ∧ isFull t.store core e'.1.2 = true ∧
        carried t.store (wordKey core e'.1.2) = (c.pts, 0)) ∧
      (∀ a, a % 4 = 0 → a < 2 ^ 21 → ¬ named a → scratchWord t.store core a = scratchWord s.store core a ∧
        isFull t.store core a = isFull s.store core a)))

/-- Requests at a line's home, by the operation that its context performs next (R88, R111, R141, R144, R155, R164, R165, R170, R174, R193 to R195,
R267, R277, R320, R321): a load, a store, an access under `.own`, an atomic or a `cadd` of a line without poison takes its place, and the load's
data or the atomic's old value is on its way; of a poisoned line it faults and performs no more, but a store of all 16 words performs and clears
the poison (R174); where the host must first give the line up it is asked. The operations of a context take their places in program order, access
by access, whatever their policies: every load acquires and every store releases (R159). A host-homed atomic reads the line from host memory, no
word of it dirty in the device, and waits for the host's write; a peer's, with the low w bytes of its operands (R193), waits for its answer, which
is delivered behind what that peer sent before (R267), and without a port it faults. A load of a host-homed line under `.wt` is served at the
proxy, any other by a valid lease of the core too. A `park` evaluates when woken, or every 10 µs on a host line, at the line's home or from host
memory, past every cached copy; that it translates anew each time is the model's (log entry 83). The timestamps are those of Load, Store and
Atomic of R144 on the wts and rts of the copy, or of the home, that serves: a load takes max(pts, wts); a store, an atomic and a `cadd` max(pts,
rts + 1). That the atomic of a host-homed line performs with that write (log entry 29), and that any enabled port reaches every peer (log entry
105), is the model's. -/
def Obligations.HomeRequestsAct : Prop :=
  (∀ (s : State) (h : Nat) (o : MemOp) (a : Access),
    let c := s.ctx h
    let core := h / 4
    let bits := fun (e : Nat × Nat × W64) (x : BitVec 512) => (e.1, (BitVec.ofNat 64 (lineNat x e.2.1 o.width) : W64))
    let placed := fun (ts : Nat) (st : Store) => setPts h ts (noteCombines s { s with store := st })
    let written := fun (ts : Nat) (st : Store) => setPts h ts (noteWrite a.line (noteCombines s { s with store := st }))
    let loads := fun (i : Instr) => exec i s = .next (match serveLoad s.store core a.line o.policy c.pts s.lease with
      | none => askHost a.line s
      | some (x, ts, st) => finishAccess h o (a.items.map fun e => bits e x) (placed ts st))
    let low := fun (x : W64) => (BitVec.ofNat 64 (x.toNat % 256 ^ o.width) : W64)
    let poisons := fun (i : Instr) => exec i s = .next (poisonFault h o a s)
    let stores := fun (i : Instr) => exec i s =
      .next (match serveStore s.store core a.line o.policy c.pts s.lease (storeLine o a).1 (storeLine o a).2 with
        | none => askHost a.line s
        | some (ts, st) => finishAccess h o [] (written ts st))
    (c.current = some (o, a) → (dirOf s.store a.line).poison = false →
      (o.kind = .load → o.policy ≠ .own → loads (.homeLoadRequest h)) ∧
      (o.kind = .store → o.policy ≠ .own → stores (.homeStoreRequest h)) ∧
      (o.kind = .load → o.policy = .own → loads (.homeOwnRequest h)) ∧
      (o.kind = .store → o.policy = .own → stores (.homeOwnRequest h)) ∧
      (∀ t op, o.kind = .combine t op → olderCadd s h o a.line = false → exec (.caddPartialRequest h) s =
        .next (match serveCombine s.store core a.line c.pts t op (a.items.map fun e => (e.2.1 / 4, (e.2.2.setWidth 32 : W32))) with
          | none => askHost a.line s
          | some (ts, st) => finishAccess h o [] (placed ts st))) ∧
      (∀ op b x p, o.kind = .atomic op b x p → o.sent = false → ∀ lane off y rest, a.items = (lane, off, y) :: rest →
        (a.tier ≠ .peer → isHostLine a.line = false → exec (.homeAtomicRequest h) s =
          .next (match serveAtomic s.store a.line off o.width c.pts op b.toNat x.toNat with
            | none => askHost a.line s
            | some (old, ts, st) => finishAccess h o [(lane, BitVec.ofNat 64 old)] (written ts st))) ∧
        (a.tier ≠ .peer → isHostLine a.line = true → exec (.homeAtomicRequest h) s = .next (mapOp h o.age (fun o => { o with sent := true })
          ((s.mapStore fun st => openHostAtomic st a.line).mapDev fun d => { d with hostWrites := d.hostWrites ++ [(512 + h, a.line)] }))))) ∧
    (c.current = some (o, a) → a.tier = .peer → ∀ op b x p, o.kind = .atomic op b x p → o.sent = false →
      ∀ lane off y rest, a.items = (lane, off, y) :: rest →
        (s.dev.record.ports ≠ 0 → exec (.homeAtomicRequest h) s = .next (mapOp h o.age (fun o => { o with sent := true })
          (s.output (.atomic p.toNat h (64 * a.line + off) op o.width (low b) (low x))))) ∧
        (s.dev.record.ports = 0 → exec (.homeAtomicRequest h) s = .next (peerFault h o a s))) ∧
    (c.current = some (o, a) → (dirOf s.store a.line).poison = true →
      (o.kind = .load → o.policy ≠ .own → poisons (.homeLoadRequest h)) ∧
      (o.kind = .load → o.policy = .own → poisons (.homeOwnRequest h)) ∧
      (o.kind = .store → let i : Instr := if o.policy = .own then .homeOwnRequest h else .homeStoreRequest h
        if (storeLine o a).1 = 0xFFFF then stores i else poisons i) ∧
      (∀ op b x p, o.kind = .atomic op b x p → o.sent = false → a.tier ≠ .peer → poisons (.homeAtomicRequest h)) ∧
      (∀ t op, o.kind = .combine t op → olderCadd s h o a.line = false → poisons (.caddPartialRequest h))) ∧
    (c.current = some (o, a) → let t := poisonFault h o a s
      let f : FaultInfo :=
        { cls := .poison, addr := o.vaAt a, intent := some o.kind.requester.intent, slot := o.slot, replay := 0, ctx := h,
          rank := c.rank, pc := o.pc, asid := (s.cont c.cont).launch.asid, level := 0xFF, entry := 0, repairable := false }
      (t.ctx h).current = none ∧ (t.ctx h).regs = c.regs ∧ (t.ctx h).fault = some f ∧
      ((s.cont c.cont).state.isEnd = false → (Sparse.find s.dev.conts c.cont).isSome = true → (s.cont c.cont).stage = 0 →
        (t.cont c.cont).state = .faulted)) ∧
    (c.current = some (o, a) → ∀ op b x p, o.kind = .atomic op b x p → o.sent = true → a.tier = .peer → ∀ (e : Bool) (old : W64),
      let m : PeerAnswer := { src := p.toNat, cont := c.cont, rank := c.rank, age := o.age, error := e, old := old }
      exec (.peerAtomicResponse h e old) s = .next (arriveFabric (.answer m) s) ∧
      (s.dev.up = true → s.dev.fabricIn = [] → arriveFabric (.answer m) s = serveAnswer m (leaveIdle s)) ∧
      (s.hwOf c.cont c.rank = some h → FabricMsg.serve (.answer m) s = (true, serveAnswer m s) ∧ serveAnswer m s =
        if e = true then peerFault h o a s else finishAccess h o [((a.items.head?.map (·.1)).getD 0, low old)] s)) ∧
    (∀ k who line, s.dev.hostWrites[k]? = some (who, line) →
      let s' := s.mapDev fun d => { d with hostWrites := d.hostWrites.eraseIdx k }
      (who < 512 → exec (.hostWriteCompletion k) s = .next (s'.mapStore fun st => writeBackHost st who line)) ∧
      (∀ op b x p lane off y rest, who = 512 + h → c.current = some (o, a) → o.kind = .atomic op b x p → o.sent = true → a.line = line →
        isHostLine line = true → a.items = (lane, off, y) :: rest → ∃ old ts st,
          serveAtomic s.store line off o.width c.pts op b.toNat x.toNat = some (old, ts, st) ∧ exec (.hostWriteCompletion k) s =
            .next (finishAccess h o [(lane, BitVec.ofNat 64 old)] (setPts h ts (noteWrite line (noteCombines s' { s' with store := st })))))) ∧
    (∀ p, c.work.park = some p → parkReady c p = true →
      (p.asleep = false → exec (.parkWake h) s = .next (evaluatePark h p s)) ∧
      (p.asleep = true → isHostLine p.line = true → p.since + 26000 ≤ s.refHalf → exec (.parkPoll h) s = .next (evaluatePark h p s)) ∧
      (∀ pa tier level leaf s', translate core (s.cont c.cont).launch.asid p.va .reader s = (.found pa tier level leaf, s') →
        (dirOf s'.store (pa / 64)).poison = false → isHostLine (pa / 64) = false → hostBlocks s'.store (pa / 64) false = false →
        let u := readyToRead s'.store (pa / 64)
        let t := evaluatePark h p s
        (t.ctx h).pts = (loadStep c.pts (dirOf u (pa / 64)).wts (dirOf u (pa / 64)).rts s.lease).1 ∧
        (t.ctx h).work.park = if lineNat (lineData u.mem (pa / 64)) (pa % 64) p.width = p.expected.toNat then none
          else some { p with seen := true, asleep := true, line := pa / 64, since := s.refHalf }) ∧
      (∀ pa tier level leaf s', translate core (s.cont c.cont).launch.asid p.va .reader s = (.found pa tier level leaf, s') →
        (dirOf s'.store (pa / 64)).poison = false → isHostLine (pa / 64) = true →
        let u := proxyFetch (refetchHost s'.store (pa / 64)) (pa / 64)
        let t := evaluatePark h p s
        (t.ctx h).pts = (loadStep c.pts (dirOf u (pa / 64)).wts (dirOf u (pa / 64)).rts s.lease).1 ∧
        (t.ctx h).work.park = if lineNat (proxyData u (pa / 64)) (pa % 64) p.width = p.expected.toNat then none
          else some { p with seen := true, asleep := true, line := pa / 64, since := s.refHalf }))) ∧
  (∀ (c : Ctx) (f : MemOp → Policy),
    ({ c with work := { c.work with memOps := c.work.memOps.map fun o => { o with policy := f o } } } : Ctx).current =
      c.current.map (fun e => ({ e.1 with policy := f e.1 }, e.2)) ∧
    ∀ o a, c.current = some (o, a) → o.accesses.head? = some a ∧ ∃ before after, c.work.memOps = before ++ o :: after ∧
      ∀ x ∈ before, x.translated = true ∧ x.accesses = []) ∧
  (∀ (st : Store) (line : Nat), Sparse.risingFrom none st.copies = true →
    let dirty := (copiesOf st line).filter fun e => e.2.state == .hostDirty
    let masks := dirty.foldl (fun m e => m ||| e.2.mask) 0
    let kept := match copyAt st 264 line with
      | some c => (c.data, c.mask &&& masks)
      | none => (0, 0)
    proxyData (proxyFetch (refetchHost st line) line) line = lineMerge (lineData st.mem line) kept.1 kept.2 ∧
    let u := openHostAtomic st line
    (∀ k c, k < 512 → copyAt u k line = some c → c.state ≠ .hostDirty) ∧ proxyData u line = lineData u.mem line) ∧
  (∀ pts wts rts lease, (loadStep pts wts rts lease).1 = max pts wts ∧
    (loadStep pts wts rts lease).2 = max rts (max pts wts + lease) ∧ storeStep pts rts = max pts (rts + 1)) ∧
  (∀ (st : Store) (core line pts lease : Nat) (pol : Policy) (mask : BitVec 16) (x : BitVec 512),
    let die := core / 64
    let l2 := 256 + die
    let load := serveLoad st core line pol pts lease
    let store := serveStore st core line pol pts lease mask x
    let reads := fun (data : BitVec 512) (wts rts : Nat) => ∃ st', load = some (data, (loadStep pts wts rts lease).1, st')
    let stores := fun (rts : Nat) => ∃ st', store = some (storeStep pts rts, st')
    let own := ∃ c, copyAt st core line = some c ∧ copyServes c pol pts = true
    let near := ∃ c, copyAt st l2 line = some c ∧ copyServes c pol pts = true ∧ c.state.owns = false
    let d := fun (u : Store) => dirOf u line
    (isHostLine line = false →
      (∀ c, copyAt st core line = some c → copyServes c pol pts = true → reads c.data c.wts c.rts) ∧
      (¬ own → pol = .own → ∀ u c, acquireOwn st core line = some u → copyAt u core line = some c → reads c.data c.wts c.rts) ∧
      (¬ own → pol ≠ .own → ∀ c, copyAt st l2 line = some c → copyServes c pol pts = true → c.state.owns = false → reads c.data c.wts c.rts) ∧
      (¬ own → pol ≠ .own → ¬ near → hostBlocks st line false = false →
        ((d st).state ≠ .owned die → let u := readyToRead st line
          reads (lineData u.mem line) (d u).wts (d u).rts) ∧
        ((d st).state = .owned die → ∀ c, copyAt (readyInDie st die line false) l2 line = some c → reads c.data c.wts c.rts)) ∧
      (pol = .own → ∀ u c, acquireOwn st core line = some u → copyAt u core line = some c → stores c.rts) ∧
      (pol ≠ .own → hostBlocks st line true = false →
        ((d st).state ≠ .owned die → stores (d (readyToWrite st line)).rts) ∧
        ((d st).state = .owned die → ∀ c, copyAt (readyInDie st die line true) l2 line = some c → stores c.rts))) ∧
    (isHostLine line = true → pol = .wt ∨ (∀ c, copyAt st core line = some c → copyServes c .si pts = false) → let u := proxyFetch st line
      reads (proxyData u line) (d u).wts (d u).rts) ∧
    (isHostLine line = true → pol ≠ .wt → ∀ c, copyAt st core line = some c → copyServes c .si pts = true → reads c.data c.wts c.rts) ∧
    (isHostLine line = true → stores (d st).rts) ∧
    (∀ ts st', isHostLine line = false → mask = 0xFFFF → store = some (ts, st') → Sparse.risingFrom none st.dirs = true →
      (d st').poison = false) ∧
    (∀ off n op b x, isHostLine line = false → hostBlocks st line true = false → (d st).state ≠ .owned 4 →
      let u := readyToWrite st line
      ((line :: u.engineUse.filter (· != line)).filter fun l => homeDie l == homeDie line).length ≤ 32768 →
      ∃ st', serveAtomic st line off n pts op b x = some (lineNat (lineData u.mem line) off n, storeStep pts (d u).rts, st')) ∧
    (∀ off n op b x, isHostLine line = true → let u := proxyFetch (writeBackLine st line) line
      ∃ st', serveAtomic st line off n pts op b x = some (lineNat (proxyData u line) off n, storeStep pts (d u).rts, st')) ∧
    (∀ t op ws,
      (∀ c, copyAt st core line = some c → c.state = .combining t op → ∃ st', serveCombine st core line pts t op ws = some (storeStep pts c.rts, st')) ∧
      (copyAt st core line = none → hostBlocks st line true = false → (d st).state ≠ .owned die → let u := readyToWrite st line
        ((∃ ds, (d st).state = .partials ds t op) → ∃ st', serveCombine st core line pts t op ws = some (storeStep pts (d st).rts, st')) ∧
        ((∀ ds, (d st).state ≠ .partials ds t op) → ∃ st', serveCombine st core line pts t op ws = some (storeStep pts (d u).rts, st')))))

/-- What the engines do of their own (R107, R121, R130, R138, R148, R151, R181 to R183, R186, R188, R189, R191, R192, R244, R246, R253, R258): the array
starts its oldest ready operation and, with its last step, retires one; bytes of a command land, and their energy is charged where they have landed, one
unit for each 64 bytes written (R246): where the engine port does not serve the copy, or the host must first give a line up, no byte moves and
nothing is charged. A landed count is applied at its object, a `barv` behind its gate too, and one
of nothing changes nothing (R279); a copy faults at its first byte that cannot be reached, or that its peer refuses, is lost, or is complete and frees
its channel; a member arrives at its `pbar`, and the members go on together, in the gear named, past every member's timestamp, a dropped request
first given back and its core raised. Counting at an object
writes the words of R186 (got saturates and an arrival too many is not counted, each with the error bit) and ends the waits of the awake
contexts whose phase the object now shows. An engine goes through the port of a bank, or waits at it.
THE MODEL'S: that a step of an array operation has its effects as it ends (log entry 26), the timestamps that a barrier object carries (log entry
22), that the bytes of one event are read and written with no access in between (log entry 66), that those of a peer land by the same event and leave as
one message each (log entry 34), the message of a level-3 arrival (log entry 32), that the last local gear in rank order stands before a remote one
(log entry 33), and that any enabled port reaches every peer (log entry 105). -/
def Obligations.EngineEventsAct : Prop :=
  (∀ (s : State) (c n h : Nat),
    let through := fun (i : Instr) (u : PortUser) (core : Nat) (as : List Nat) (f : State → State) =>
      exec i s = .next (if portFree s u core as = true then f (usePort u core as s) else queuePort u core as s)
    (let s' := refillQueue c s
     let k := s'.core c
     (∀ q ∈ k.queue, q.running = false) → s'.leashed c = false → k.gated = false → k.pause = 0 → ∀ o, readyOp s' [] k.queue = some o →
      let u := s'.mapCore c fun k => { k with queue := k.queue.map fun q => if q = o then q.begin (s'.ctx o.ctx).phase else q }
      let isMma := match o.kind with | .mma .. => true | _ => false
      exec (.matrixOpStart c) s = .next (if isMma = true ∧ o.started = false ∧ (s'.ctx o.ctx).phase = none
        then u.mapCtx o.ctx fun x => x.countEvent .undecl o.age else u)) ∧
    (∀ o, (s.core c).queue.find? (fun o => o.running && o.left == 0 && o.done + 1 == o.steps) = some o →
      let room := o.stores = true → stagingRoom s c (1024 * transferBytes o.kind) = true
      (¬ room → exec (.matrixOpRetire c) s = .next (leavePorts .matrix s)) ∧
      (room → through (.matrixOpRetire c) .matrix c (o.touches s) fun u =>
        ({ o with done := o.steps, flags := o.flags ||| (o.perform u).1 } : MatOp).retire
          ((o.perform u).2.mapCore c fun k => { k with queue := k.queue.erase o }))) ∧
    (∀ k, (s.core c).channels.find n = some k → gateOpen s k = true →
      (∀ off len, k.kind = .copy → k.stopped = false → k.fresh off len = true → (s.core c).pause = 0 →
        let units := (k.landedBytes + len) / 64 - k.landedBytes / 64
        let js := (List.range len).map (off + ·)
        let from' := js.map (sourceSpot s c k)
        let to' := js.map (destSpot s c k)
        let cells := cellsOf from' ++ cellsOf to'
        let asks := fun (l : Nat) => exec (.copyBytesLanded c n off len) s = .next (askHost l (leavePorts (.copy c n) s))
        let able := (∀ x ∈ from' ++ to', x.usable = true) ∧ ∀ e ∈ cellsOf to', stagingRoom s e.1 len = true
        s.dieRoom c units = true →
        (¬ able → exec (.copyBytesLanded c n off len) s = .next (leavePorts (.copy c n) s)) ∧
        (able → portsFree s (.copy c n) cells = false → exec (.copyBytesLanded c n off len) s = .next (queuePorts (.copy c n) cells s)) ∧
        (able → portsFree s (.copy c n) cells = true → let pts := engineTs s k
          let lines := ((from'.filterMap Spot.physical).map (· / 64)).dedup
          (∀ l, engineLoads c pts s.lease lines s.store = .error l → asks l) ∧
          ∀ xs st, engineLoads c pts s.lease lines s.store = .ok (xs, st) →
            let s1 := noteCombines s { s with store := st }
            let ys := List.zip to' (from'.map (Spot.value s1.store xs))
            let bytes := memoryBytes ys
            let stored := engineStores c pts bytes (bytes.map (·.1 / 64)).dedup s1
            (∀ l, stored = .error l → asks l) ∧
            ∀ ts u, stored = .ok (ts, u) → exec (.copyBytesLanded c n off len) s =
              .next (charge c units (landChannel c n off len ts k (usePorts (.copy c n) cells (sendBytes (cellBytes ys u) k ys)))))) ∧
      (∀ off len t, k.kind ≠ .copy → walkLine c n off k s = some t → exec (.copyBytesLanded c n off len) s = .next t) ∧
      (∀ off len ts, let k' := { k with landed := (off, len) :: k.landed }
        let w0 := k.dst.getD 0 0
        let t := landChannel c n off len ts k s
        (t.core c).channels = Sparse.put (s.core c).channels n k' ∧ t.store = s.store ∧ t.ctxs = s.ctxs ∧
        (k.kind = .copy ∧ walkSpace w0 = 4 → t.dev.outputs = s.dev.outputs ++ [.signal (walkPeer (k.dst.getD 3 0)) (s.cont k.cont).launch.pack
          (walkCore w0) (walkPos w0) k.bar len none] ∧ (t.core c).counts = (s.core c).counts) ∧
        (¬ (k.kind = .copy ∧ walkSpace w0 = 4) → t.dev = s.dev ∧ (t.core c).counts = (s.core c).counts ++
          [{ cont := k.cont, rank := if k.kind = .copy then windowRank s k w0 else k.rank, off := k.bar, bytes := len, ts := ts, chan := n }])) ∧
      (∀ side a cls, firstFault s c k none = some (side, a, cls) → ∃ j < k.total, k.fresh j 1 = true ∧
        a = copyAddr (if side then k.dst else k.src) (if side then k.dstBase else k.srcBase) j ∧
        (if side then destSpot s c k j else sourceSpot s c k j) = .bad cls ∧
        ∀ i < j, k.fresh i 1 = true → ∀ x, sourceSpot s c k i ≠ .bad x ∧ destSpot s c k i ≠ .bad x) ∧
      (∀ e side a cls, firstFault s c k (some e) = some (side, a, cls) → side = true ∧ a = copyAddr k.dst k.dstBase e.first ∧
        cls = if walkSpace (k.dst.getD 0 0) = 4 then 5 else 4) ∧
      (∀ e, k.kind = .copy → k.stopped = false → firstFault s c k e = none → exec (.copyFault c n e) s = .next s) ∧
      (∀ e side a cls h, k.kind = .copy → k.stopped = false → firstFault s c k e = some (side, a, cls) → walkSpace (k.dst.getD 0 0) ≠ 4 →
        s.windowHw k.cont (windowRank s k (k.dst.getD 0 0)) = some h → (s.core (h / 4)).pause = 0 →
        let obj := (s.ctx h).coreAddr k.bar
        (portFree s (.copy c n) (h / 4) [obj] = false → exec (.copyFault c n e) s = .next (queuePort (.copy c n) (h / 4) [obj] s)) ∧
        (portFree s (.copy c n) (h / 4) [obj] = true →
          ∃ t, exec (.copyFault c n e) s = .next (countAt (h / 4) obj (k.total - k.counted) false t) ∧
            (∃ k', (t.core c).channels.find n = some k' ∧ k'.stopped = true ∧ k'.counted = k.total) ∧
            (scratchWord t.store (h / 4) (obj + 12)).getLsbD 1 = true)) ∧
      (∀ e side a cls, k.kind = .copy → k.stopped = false → firstFault s c k e = some (side, a, cls) → walkSpace (k.dst.getD 0 0) = 4 →
        s.dev.record.ports ≠ 0 → ∃ t, exec (.copyFault c n e) s = .next t ∧
          (∃ k', (t.core c).channels.find n = some k' ∧ k'.stopped = true ∧ k'.counted = k.total) ∧
          .signal (walkPeer (k.dst.getD 3 0)) (s.cont k.cont).launch.pack (walkCore (k.dst.getD 0 0)) (walkPos (k.dst.getD 0 0)) k.bar
            (k.total - k.landedBytes) (some ((s.cont k.cont).copyFaults + 1)) ∈ t.dev.outputs) ∧
      (∀ j x, x < j → k.fresh x 1 = true → exec (.copyLost c { ch := n, first := j }) s = .next s) ∧
      (∀ j, k.kind = .copy → k.stopped = false → walkSpace (k.dst.getD 0 0) = 4 → j < k.total →
        (∀ x < j, k.fresh x 1 = false) →
        let u := s.mapCore c fun x => { x with channels := Sparse.erase x.channels n }
        ∃ f : FaultInfo, f.cls = .copyLost ∧ f.repairable = false ∧ f.pc = k.pc ∧ f.addr = (copyAddr k.dst k.dstBase j).toNat ∧
          (∀ h, s.hwOf k.cont k.rank = some h →
            exec (.copyLost c { ch := n, first := j }) s = .next (u.mapCtx h fun x => { x with lost := some f })) ∧
          (s.hwOf k.cont k.rank = none → (s.cont k.cont).state.isEnd = false →
            exec (.copyLost c { ch := n, first := j }) s = .next (recordUnrepairable k.cont f u)))) ∧
    (∀ k, (s.core c).channels.find n = some k →
      (if k.kind = .copy ∧ walkSpace (k.dst.getD 0 0) = 4 then k.stopped = true ∨ k.landedBytes = k.total else k.counted = k.total) →
      exec (.copyComplete c n) s = .next (s.mapCore c fun x => { x with channels := Sparse.erase x.channels n })) ∧
    (∀ m, (s.core c).counts[n]? = some m → s.windowHw m.cont m.rank = some h → (s.core (h / 4)).pause = 0 →
      let obj := (s.ctx h).coreAddr m.off
      through (.barrierCount c n) (.count c) (h / 4) [obj] fun u => countAt (h / 4) obj m.bytes false
        (releaseTo (h / 4) obj m.ts (u.mapCore c fun x =>
          { x with counts := x.counts.eraseIdx n
                   channels := Sparse.adjust x.channels m.chan fun y => { y with counted := y.counted + m.bytes } }))) ∧
    (∀ b bs, (s.ctx h).work.barvs = b :: bs → (s.ctx h).performedBelow b.gate = true →
      s.windowHw (s.ctx h).cont (s.ctx h).rank = some h →
      let gone := fun (s : State) => s.mapCtx h fun c => { c with work := { c.work with barvs := bs } }
      (b.bytes = 0 → b.arrive = false → exec (.barvUpdate h) s = .next (gone s)) ∧
      (0 < b.bytes ∨ b.arrive = true → (s.core (h / 4)).pause = 0 → through (.barvUpdate h) (.barv h) (h / 4) [b.addr] fun u =>
        countAt (h / 4) b.addr b.bytes b.arrive (releaseTo (h / 4) b.addr (s.ctx h).pts (gone u)))) ∧
    (∀ p, (s.ctx h).work.pbar = some p → p.arrived = false → (s.ctx h).awake = true → (s.ctx h).performedBelow p.gate = true →
      (∀ b ∈ (s.ctx h).work.barvs, p.gate ≤ b.gate) →
      (∀ e ∈ s.channelsOf (s.ctx h).cont (s.ctx h).rank, intoPack s (s.ctx h).cont (s.ctx h).rank p.level e.2.2 = false) →
      let t := s.mapCtx h fun c =>
        { c with dropped := c.dropped || p.drop, work := { c.work with pbar := some { p with arrived := true } } }
      exec (.pbarArrival h) s = .next (if p.level = 3 then signalLevel3 (s.ctx h).cont t else t)) ∧
    (let cn := s.cont n
      let all := List.range cn.launch.contexts
      let m := if (∀ r ∈ all, r ∈ cn.ended) then 2 ^ 64 - 1 else cn.signals3 + 1
      cn.launch.pack ≠ 0 → cn.signals3 < m → allArrived s n 0 3 m = true → (signalLevel3 n s).dev.outputs = s.dev.outputs ++
        [.arrival cn.launch.pack { nth := m, pack3 := cn.launch.l3count, gear := releaseGear s n 3 m all,
                                   drop := anyWaits s n 3 m all (·.drop), phase := .arrived }]) ∧
    (∀ p, (s.ctx h).work.pbar = some p → p.arrived = true → p.released = false →
      let i := (s.ctx h).cont
      let rs := members s i (s.ctx h).rank p.level
      let g := (releaseGear s i p.level p.nth rs).or (if p.level = 3 then (s.cont i).remoteGear p.nth else none)
      let d := anyWaits s i p.level p.nth rs (·.drop) || p.level == 3 && (s.cont i).remoteDrop p.nth
      let up := packRaised s i p.level p.nth rs = true ∧ (p.level = 3 → (s.cont i).allSaid (s.cont i).raised3 p.nth = true)
      allArrived s i (s.ctx h).rank p.level p.nth = true → (p.level = 3 → (s.cont i).allDevices p.nth = true) →
      (d = true → p.raised = false → ∃ t, exec (.pbarRelease h) s = .next t ∧ t.store = s.store ∧
        ∀ e ∈ s.ctxs, e.2.cont = i → e.2.rank ∈ rs → ∃ e' ∈ t.ctxs, e'.1 = e.1 ∧
          ∀ q, e.2.work.pbar = some q → q.level = p.level → q.nth = p.nth → e'.2.dropped = false ∧
            e'.2.gearReq = (e.2.gearReq || q.drop && g == some true) ∧ e'.2.work.pbar = some { q with raised := true }) ∧
      (d = true → p.raised = true → ¬ up → exec (.pbarRelease h) s = .next s) ∧
      (d = false ∨ p.raised = true ∧ up → ∃ t, exec (.pbarRelease h) s = .next t ∧ t.store = s.store ∧
        ∀ e ∈ s.ctxs, e.2.cont = i → e.2.rank ∈ rs → ∃ e' ∈ t.ctxs, e'.1 = e.1 ∧ e'.2.gearReq = g.getD e.2.gearReq ∧
          ∀ q, e.2.work.pbar = some q → q.level = p.level → q.nth = p.nth →
            e'.2.work.pbar = some { q with released := true, gear := g, drop := d } ∧ e'.2.dropped = false ∧ e.2.pts ≤ e'.2.pts ∧
            ∀ r ∈ rs, ∀ x, s.ctxOf i r = some x → x.pts ≤ e'.2.pts))) ∧
  (∀ (s : State) (core addr b : Nat) (arrive : Bool), Sparse.risingFrom none s.store.scratch = true →
    let t := countAt core addr b arrive s
    let w := fun (j : Nat) => scratchWord s.store core (addr + 4 * j)
    let r := countWords (w 0) (w 1) (w 2) (w 3) b arrive
    t.store.mem = s.store.mem ∧
    (∀ a, scratchWord t.store core a = if a / 4 = addr / 4 + 1 then r.1 else if a / 4 = addr / 4 + 2 then r.2.1
      else if a / 4 = addr / 4 + 3 then r.2.2 else scratchWord s.store core a) ∧
    ∀ h, (t.ctx h).regs = (s.ctx h).regs ∧
      (∀ x p, (s.ctx h).work.bwait = some (x, p) →
        ((s.ctx h).watches = true ∧ phaseOf t.store (h / 4) x = p → (t.ctx h).work.bwait = none ∧
          (t.ctx h).pts = max (s.ctx h).pts (carried t.store (objectKey (h / 4) x)).1) ∧
        (¬ ((s.ctx h).watches = true ∧ phaseOf t.store (h / 4) x = p) → t.ctx h = s.ctx h))) ∧
  (∀ (need got arr fl : W32) (b : Nat) (r : Bool),
    let needA := arr.toNat / 2 ^ 16
    let gotA := arr.toNat % 2 ^ 16
    let past := 2 ^ 32 ≤ got.toNat + b
    let overrun := r = true ∧ gotA = needA
    let sum := min (got.toNat + b) (2 ^ 32 - 1)
    let gotA' := if r = true ∧ gotA ≠ needA then (gotA + 1) % 2 ^ 16 else gotA
    let flags := if past ∨ overrun then fl ||| 2 else fl
    countWords need got arr fl b r =
      if need.toNat ≤ sum ∧ gotA' = needA then (BitVec.ofNat 32 (sum - need.toNat), BitVec.ofNat 32 (needA * 2 ^ 16), flags ^^^ 1)
      else (BitVec.ofNat 32 sum, BitVec.ofNat 32 (needA * 2 ^ 16 + gotA'), flags))

/-! ### Coherence and the host -/

/-- Directories, and what the host does (R154, R155, R164, R171, R173, R174, R201, R208, R225, R262, R263): a recall or an owner's write-back
takes an owned line home; an invalidation drops a sharing die's copies; a combine recall takes a die's partials; an evicted copy leaves as its
state asks, dirty words of host memory by a write-back; the host gives a line up, its dirty data a write; an entry in error, of the home directory
or of a die's, is recovered; a TLB entry in error is dropped. A host access to an address of the HDM ranges that the link carries and the rules
admit performs at the home: a read returns the line, a shared one adds the host to the sharers, a write stores its bytes, a read for ownership
returns the line and makes the host its owner, an atomic returns the old value. A refused one reaches no memory and answers with poison or an
error; one that breaks a rule is logged too. A silent host's dirty data is dropped with an error completion (R225). A write outside the ranges
changes the host's own memory. A reserved byte of the control block reads zero, whoever stores (R265). THE MODEL'S: the ranges' bases and the
address of configuration space (log entry 70); that a line's timestamps after a directory error are above every one of any line, copy and context
(log entry 18), where R173 names the largest that the distributor has handed out; and that recalls, invalidations and evictions come without a
request (log entry 53). -/
def Obligations.CoherenceAndHostAct : Prop :=
  (∀ (s : State) (line d c : Nat), Sparse.risingFrom none s.store.dirs = true →
    (∀ x, (dirOf s.store line).state = .owned x →
      exec (.recallOwner line) s = .next (noteCombines s (s.mapStore fun st => recallLine st line)) ∧
      exec (.ownerWriteback line) s = .next (noteCombines s (s.mapStore fun st => recallLine st line)) ∧
      ∀ h k, ownerCopy s.store line = some (h, k) → partialsOf s.store line = [] → Sparse.risingFrom none s.store.copies = true →
        let u := recallLine s.store line
        (dirOf u line).state = .untracked ∧ (dirOf u line).wts = k.wts ∧ k.rts ≤ (dirOf u line).rts ∧
          u.mem = memPutLine s.store.mem line k.data 0xFFFF ∧ copyAt u h line = none) ∧
    (∀ hs, (dirOf s.store line).state = .tracked hs → d < 4 → hs.getLsbD d = true → ∃ t, exec (.invalidation line d) s = .next t ∧
      (∀ e ∈ copiesOf t.store line, e.2.state = .shared → holderDie e.1 ≠ d) ∧ t.store.mem = s.store.mem ∧
      (∀ e ∈ copiesOf s.store line, e.2.state = .shared → holderDie e.1 = d → e.2.rts ≤ (dirOf t.store line).rts) ∧
      (dirOf t.store line).state =
        if hs &&& ~~~(BitVec.ofNat 5 (2 ^ d)) = 0 then .untracked else .tracked (hs &&& ~~~(BitVec.ofNat 5 (2 ^ d)))) ∧
    (∀ ds t o, (dirOf s.store line).state = .partials ds t o →
      exec (.combineRecall line d) s = .next (noteCombines s (s.mapStore fun st => combineDie st line d))) ∧
    (∀ k, copyAt s.store c line = some k →
      let leaves := fun (f : Store → Store) => exec (.evictionAnnounce line c) s = .next (noteCombines s (s.mapStore f))
      (c < 264 → (k.state.isPartial = true → leaves fun st => evictPartial st c line) ∧ (k.state = .shared → leaves fun st => evictShared st line c) ∧
        (k.state.owns = true → leaves fun st => recallLine st line) ∧ (k.state = .leased → leaves fun st => dropCopy st c line)) ∧
      (k.state = .hostDirty → (c, line) ∉ s.dev.hostWrites → exec (.evictionAnnounce line c) s =
        .next (s.mapDev fun d => { d with hostWrites := d.hostWrites ++ [(c, line)] }))) ∧
    (let s' := s.mapDev fun d => { d with backInv := d.backInv.filter (· != line) }
     let becomes := fun (x : HomeState) => s'.mapStore fun st => setDir st line { dirOf st line with state := x }
     (ownedByHost s.store line = true →
        (∀ bytes, s.dev.hostSilent = false → exec (.backInvalidationResponse line (some bytes)) s =
          .next (hostStore line (BitVec.ofNat 512 (ofLeBytes bytes)) 0xFFFF false s')) ∧
        (∀ bytes, s.dev.hostSilent = true → exec (.backInvalidationResponse line (some bytes)) s =
          .next ((becomes .untracked).output (.hostError (64 * line)))) ∧
        exec (.backInvalidationResponse line none) s = .next (becomes .untracked)) ∧
     (∀ hs x, (dirOf s.store line).state = .tracked hs → exec (.backInvalidationResponse line x) s =
        .next (becomes (if hs &&& 0xF = 0 then .untracked else .tracked (hs &&& 0xF))))) ∧
    (∀ hd lost, isHostLine line = false → ∃ u : State,
      (let asked := u.output (.backInvalidate line)
       let dropped := s.dev.hostSilent = true ∧ ownedByHost s.store line = true ∧ hd.isSome = true
       let t := logError (64 * line) 1 1 (homeDie line) 0xFFFF (if dropped then asked.output (.hostError (64 * line)) else asked)
       exec (.directoryError none line hd lost) s = .next (if lost then logError (64 * line) 1 2 (homeDie line) 0xFFFF t else t)) ∧
      copiesOf u.store line = [] ∧ (dirOf u.store line).state = .untracked ∧
        (dirOf u.store line).wts = topTimestamp s ∧ (dirOf u.store line).rts = topTimestamp s ∧
        (lost = true → (dirOf u.store line).poison = true) ∧
        (∀ bytes, hd = some bytes → ownedByHost s.store line = true → copiesOf s.store line = [] → u.store.mem =
          if s.dev.hostSilent then s.store.mem else memPutLine s.store.mem line (BitVec.ofNat 512 (ofLeBytes bytes)) 0xFFFF)) ∧
    (∀ hd lost, isHostLine line = false → d < 4 → ∃ u : State,
      (let t := logError (64 * line) 2 1 d 0xFFFF u
       exec (.directoryError (some d) line hd lost) s = .next (if lost then logError (64 * line) 2 2 d 0xFFFF t else t)) ∧
      (∀ e ∈ copiesOf u.store line, holderDie e.1 ≠ d) ∧
        (dirOf u.store line).wts = topTimestamp s ∧ (dirOf u.store line).rts = topTimestamp s ∧
        (lost = true → (dirOf u.store line).poison = true)) ∧
    (d < s.store.tlbs.length → exec (.tlbSoftError d) s = .next (s.mapStore fun st => { st with tlbs := st.tlbs.eraseIdx d })) ∧
    (s.store.tlbs.length ≤ d →
      exec (.tlbSoftError d) s = .next (s.mapStore fun st => { st with walks := st.walks.eraseIdx (d - st.tlbs.length) }))) ∧
  (∀ (s : State) (a pa : Nat) (data : List Byte) (own : Bool) (op : AtomicOp) (w : Nat) (b c : W64), s.dev.hdm a = some pa → a < 2 ^ 60 →
    let u := hostActive s
    let line := pa / 64
    let up := u.dev.boot = 1 ∧ u.dev.hostSilent = false
    let fits := fun (n : Nat) => 0 < n ∧ pa % 64 + n ≤ 64 ∧ a % 64 + n ≤ 64
    let bad : State := u.output (.hostData a (List.replicate 64 0) true)
    (up → u.dev.breaksAccess (64 * line) 64 = false → (dirOf u.store line).poison = false →
      let v := noteCombines u { u with store := readyForHost u.store line false }
      exec (.hostRead a) s = .next (v.output (.hostData a (memBytes v.store.mem (64 * line) 64) false)) ∧
      ∃ sh t, exec (.hostReadShared a) s = .next (t.output (.hostData a (memBytes t.store.mem (64 * line) 64) false)) ∧
        t = v.mapStore fun st => setDir st line { dirOf st line with state := .tracked (sh ||| 0x10) }) ∧
    (up → u.dev.breaksAccess (64 * line) 64 = true → exec (.hostRead a) s = .next (logHostAccess pa bad) ∧
      exec (.hostReadShared a) s = .next (logHostAccess pa bad)) ∧
    (up → u.dev.breaksAccess (64 * line) 64 = false → (dirOf u.store line).poison = true →
      exec (.hostRead a) s = .next (logError (64 * line) 3 4 (homeDie line) 0xFFFF bad)) ∧
    (¬ up → exec (.hostRead a) s = .next bad ∧ exec (.hostReadShared a) s = .next bad ∧ exec (.hostWrite a [] true) s = .next bad ∧
      (fits data.length → exec (.hostWrite a data own) s = .next (u.output (.hostError a)) ∧
        exec (.controlFieldWrite a data) s = .next (u.output (.hostError a))) ∧
      (fits w → exec (.hostAtomic a op w b c) s = .next (u.output (.hostError a)))) ∧
    (up → fits data.length → u.dev.breaksAccess pa data.length = false →
      let x := hostWords u pa data
      exec (.hostWrite a data own) s = .next (hostStore line x.1 x.2 own u) ∧
      exec (.controlFieldWrite a data) s = .next (hostStore line x.1 x.2 false u)) ∧
    (up → u.dev.breaksAccess pa 1 = false → (dirOf u.store line).poison = false → Sparse.risingFrom none s.store.dirs = true →
      ∃ t : State, exec (.hostWrite a [] true) s = .next (t.output (.hostData a (memBytes t.store.mem (64 * line) 64) false)) ∧
        (dirOf t.store line).state = HomeState.ownedByHost) ∧
    (up → fits w → u.dev.breaksAccess pa w = false → (dirOf u.store line).poison = false →
      let st := readyForHost u.store line true
      let old := memNat st.mem pa w
      let new := atomicFn op (8 * w) old (b.toNat % 256 ^ w) (c.toNat % 256 ^ w)
      let x := lineSet (lineData st.mem line) (pa % 64) w new
      exec (.hostAtomic a op w b c) s = .next ((noteWrite line (noteCombines u
        { u with store := (storeAtHome st line 0 (wordMask (pa % 64) w) x).2 })).output (.hostOld a (BitVec.ofNat 64 old))))) ∧
  (∀ (s : State) (a : Nat) (data : List Byte) (own : Bool), s.dev.hdm a = none → a < hostBase → 0 < data.length → a % 64 + data.length ≤ 64 →
    exec (.hostWrite a data own) s = .next (s.mapStore fun st => { st with mem := memPutBytes st.mem (hostBase + a) data }) ∧
    exec (.hostRead a) s = .next s) ∧
  (∀ (s : State) (o : Nat), exec (.hostRead (2 ^ 60 + o)) s = .next (s.output (.hostData (2 ^ 60 + o) (s.dev.capability.drop o) false))) ∧
  (∀ (d : Device) (dpa : Nat), (dpa < 2 ^ 40 → d.hdm (d.hdmGddr + dpa) = some dpa) ∧
    (2 ^ 40 ≤ dpa → dpa < 2 ^ 40 + 2 ^ 44 → d.hdmGddr + 2 ^ 40 ≤ d.hdmLpddr → d.hdm (d.hdmLpddr + (dpa - 2 ^ 40)) = some dpa)) ∧
  (∀ (s : State) (a : Nat), s.MemCanonical → isReserved a = true → memRead s.store.mem a = 0)

/-! ### Commands, lines of the device, the distributor, power -/

/-- Commands, registration and wait lists (R205, R210, R211 to R216, R218, R220 to R222, R237, R268). A woken block whose command word has a new
sequence gives exactly one command its effect, and every other command leaves the state; a sequence already acknowledged only ends the wake. START
reads the launch line: a bad launch is FAULTED with cause 6, a good one QUEUED (or placed) or, with a wait list, WAITING; it answers 1 in a wrong
state, 3 with no sealed copy or with bring-up failed. PARK and KILL ask a RUNNING continuation to halt, KILL closing its hold windows, and answer
elsewhere or end it and free its room; UNPARK, REFRESH and a malformed word (result 2) answer at once; RESUME applies the disposition of a fault
(0: the context is no longer parked and its replay list stands at the head of its operations, and the next fault is recorded; 1: FAULTED with
cause 3; another: result 2), or the values of a host call, or answers 4. An answer stands in the state line. A non-zero registry entry becomes an
IDLE block; a zero one frees its block, in IDLE and the end states only. A wait list is evaluated at each wake, and every 10 µs where it names
host memory: where every entry's condition holds of the word loaded at its home, or from host memory past every cached copy, the continuation is
QUEUED. The lines that an effect reads are loaded in S (R164). THE MODEL'S: that the host must first give up those of them that it owns, and
nothing else happens until then (log entry 7), that a KILL takes the place of a pre-emption's halt (36), that a START with result 3 logs what its
reads found (log entry 89), that a PARK elsewhere than in RUNNING counts no park (86), what another address in an occupied registry entry does
(87), and an entry of a wait list that translates no more (88). -/
def Obligations.CommandsAct : Prop :=
  (∀ (s : State) (i : Nat),
    let c := s.cont i
    let w := commandWord s i
    let seq := w.toNat / 2 ^ 32
    let op := w.toNat % 2 ^ 8
    let gives := fun (offs : List Nat) => hostKeeps s (offs.map fun o => (c.block + o) / 64) = []
    let u := readLines [c.block / 64] (s.mapDev fun d => { d with commandWakes := d.commandWakes.filter (· != i) })
    let known := (Sparse.find s.dev.conts i).isSome = true
    let wakes := s.dev.commandWakes.contains i = true ∧ known
    let woken := (wakes ∧ gives [0]) ∧ c.halt = none ∧ seq ≠ c.ack
    let plain := w.toNat / 2 ^ 8 % 2 ^ 24 = 0
    let live := c.state = .queued ∨ c.state = .running ∨ c.state = .parked
    let cmds : List (Instr × Prop) := [(.start i, plain ∧ op = 1), (.parkCmd i, plain ∧ op = 2), (.unpark i, plain ∧ op = 3), (.kill i, plain ∧ op = 4),
      (.resumeFault i, plain ∧ op = 5), (.resumeHostCall i, w.toNat / 2 ^ 8 % 2 ^ 24 = 1 ∧ op = 5), (.refresh i, plain ∧ op = 6),
      (.malformedCommand i, badCommand w = true)]
    let kills := fun (e : Instr × Prop) => e.1 = .kill i → unpaused s i = true
    (∀ e ∈ cmds, (¬ wakes → exec e.1 s = .next s) ∧ (kills e → wakes → gives [0] → c.halt = none → seq = c.ack → exec e.1 s = .next u) ∧
      (woken → ¬ e.2 → exec e.1 s = .next s) ∧
      (kills e → wakes → c.halt = none → ¬ gives [0] → exec e.1 s = .next (askLines (hostKeeps s [c.block / 64]) s))) ∧
    let starts := gives [0x80, 0xC0, 0x100, 0x140, 0x180] ∧ hostKeeps s (sealLines s i) = []
    (woken → plain → op = 1 → c.state.startable = false → exec (.start i) s = .next (answer i seq 1 u)) ∧
    (woken → plain → op = 1 → c.state.startable = true → ¬ starts → ∃ ls, ls ≠ [] ∧ exec (.start i) s = .next (askLines ls s)) ∧
    (woken → plain → op = 1 → c.state.startable = true → starts →
      let r := readLines [(c.block + 0x80) / 64] u
      let v := logTroubles (sealTroubles r i) r
      let key := sealedOf r (blockNat r i 0x96 2) (blockNat r i 0x80 8)
      (s.dev.up = false ∨ key = none → exec (.start i) s = .next (answer i seq 3 v)) ∧
      (∀ k, s.dev.up = true → key = some k →
        exec (.start i) s = .next (startWith i seq k (logTroubles (waitTroubles v i) v)))) ∧
    (woken → plain → op = 2 →
      (c.state = .waiting ∨ c.state = .queued →
        exec (.parkCmd i) s = .next (answer i seq 0 (u.mapCont i fun c => { c with ineligible := true }))) ∧
      (c.state = .running → exec (.parkCmd i) s = .next (u.mapCont i fun c => { c with halt := some (.park seq) })) ∧
      (c.state = .parked → exec (.parkCmd i) s = .next (answer i seq 0 u)) ∧
      (c.state.startable = true → exec (.parkCmd i) s = .next (answer i seq 1 u))) ∧
    (woken → plain → op = 3 →
      (c.state = .waiting → exec (.unpark i) s = .next (answer i seq 0 (u.mapCont i fun c => { c with ineligible := false }))) ∧
      (c.state = .queued → exec (.unpark i) s = .next (pass (answer i seq 0 (u.mapCont i fun c => { c with ineligible := false })))) ∧
      (c.state = .running → exec (.unpark i) s = .next (answer i seq 0 u)) ∧
      (c.state.startable = true → exec (.unpark i) s = .next (answer i seq 1 u)) ∧
      (c.state = .parked →
        let v := (acknowledged i seq u).mapCont i fun c => { c with ineligible := false }
        (c.kennelled = true ∨ roomFree v i [] = false → exec (.unpark i) s = .next (enterQueued i v)) ∧
        (c.kennelled = false → roomFree v i [] = true →
          let v := writeState i (v.mapCont i fun c => { c with state := .running })
          exec (.unpark i) s = .next { v with ctxs := v.ctxs.map fun e => if e.2.cont = i then (e.1, e.2.again e.1) else e }))) ∧
    (wakes → gives [0] → unpaused s i = true → (c.halt = none ∨ ∃ j, c.halt = some (.preempt j)) → seq ≠ c.ack → plain → op = 4 →
      (c.state = .running → ∃ t, exec (.kill i) s = .next t ∧ t.dev = (u.mapCont i fun c => { c with halt := some (.kill (some seq)) }).dev ∧
        t.store = u.store ∧ ∀ h x, Sparse.find u.ctxs h = some x →
          t.ctx h = if x.cont = i then { x with work := { x.work with hold := none } } else x) ∧
      (c.state = .waiting ∨ c.state = .queued ∨ c.state = .parked →
        exec (.kill i) s = .next (endAndFree i .killed 4 0 (acknowledged i seq u))) ∧
      (c.state.startable = true → exec (.kill i) s = .next (answer i seq 1 u))) ∧
    (woken → plain → op = 5 →
      (∀ rank, live → c.faultOf = some rank → exec (.resumeFault i) s =
        .next (if gives [0x1C0] then applyDisposition i seq rank u else askLines (hostKeeps s [(c.block + 0x1C0) / 64]) s)) ∧
      (c.state = .waiting ∨ live ∧ c.faultOf = none → exec (.resumeFault i) s = .next (answer i seq 4 u)) ∧
      (c.state.startable = true → exec (.resumeFault i) s = .next (answer i seq 1 u))) ∧
    (woken → w.toNat / 2 ^ 8 % 2 ^ 24 = 1 → op = 5 →
      (live → c.callOf ≠ none → ¬ gives [0xC0] → exec (.resumeHostCall i) s = .next (askLines (hostKeeps s [(c.block + 0xC0) / 64]) s)) ∧
      (∀ rank, live → c.callOf = some rank → gives [0xC0] →
        let r := readLines [(c.block + 0xC0) / 64] u
        let args : List W64 := (List.range 8).map fun n => BitVec.ofNat 64 (blockNat r i (0xC0 + 8 * n) 8)
        let v := r.mapRank i rank (Ctx.answered args)
        let acquires := c.code < 0x10000 ∨ 0x100000 ≤ c.code
        let clear := fun (s : State) => s.mapCont i fun c => { c with callPending := false, callOf := none, code := 0, callRank := 0 }
        (∀ h, v.hwOf i rank = some h → acquires → exec (.resumeHostCall i) s = .next (answer i seq 0 (clear (acquireDrop h v)))) ∧
        (v.hwOf i rank = none ∨ ¬ acquires → exec (.resumeHostCall i) s = .next (answer i seq 0 (clear v)))) ∧
      (c.state = .waiting ∨ live ∧ c.callOf = none → exec (.resumeHostCall i) s = .next (answer i seq 4 u)) ∧
      (c.state.startable = true → exec (.resumeHostCall i) s = .next (answer i seq 1 u))) ∧
    (woken → plain → op = 6 → exec (.refresh i) s = .next (writeState i (u.mapCont i fun c => { c with ack := seq, result := 0 }))) ∧
    (woken → badCommand w = true → exec (.malformedCommand i) s = .next (answer i seq 2 u)) ∧
    (let block := latestNat s.store (s.dev.registry + 8 * i) 8
     let line := (s.dev.registry + 8 * i) / 64
     let v := readLines [line] (s.mapDev fun d => { d with registryWakes := d.registryWakes.filter (· != i) })
     s.dev.registryWakes.contains i = true → hostKeeps s [line] = [] →
      (block ≠ 0 → s.dev.up = true → ¬ known → exec (.registerBlock i) s = .next (writeState i (refreshWatch (block / 64)
        (v.mapDev fun d => { d with conts := Sparse.put d.conts i (.idle block), commandWakes := d.commandWakes ++ [i] })))) ∧
      (block ≠ 0 → s.dev.up = true → known → exec (.registerBlock i) s = .next v) ∧
      (block = 0 → ∀ k, Sparse.find s.dev.conts i = some k →
        (k.state.startable = true → k.halt = none → exec (.unregisterBlock i) s =
          .next (refreshWatch (k.block / 64) (v.mapDev fun d => { d with conts := Sparse.erase d.conts i }))) ∧
        (k.state.startable = true → k.halt ≠ none → exec (.unregisterBlock i) s = .next s) ∧
        (k.state.startable = false → exec (.unregisterBlock i) s = .next (logError (s.dev.registry + 8 * i) 3 3
          (homeDie ((s.dev.registry + 8 * i) / 64)) 0xFFFF (distWrite (s.dev.registry + 8 * i) (leBytes 8 k.block) v))))) ∧
    (c.state = .waiting →
      (s.dev.waitWakes.contains i = true → exec (.waitListEvaluation i) s = .next (evaluateWaits i s)) ∧
      (c.launch.waitLines.any isHostLine = true → c.pollAge + 26000 ≤ s.refHalf →
        exec (.waitListPoll i) s = .next (evaluateWaits i (leaveIdle (s.mapCont i fun c => { c with pollAge := s.refHalf })))))) ∧
  (∀ (s : State) (i seq key : Nat) (im : SealedCopy), (Sparse.find s.dev.conts i).isSome = true → Sparse.find s.dev.images key = some im →
    let t := startWith i seq key s
    let r := readLines ([0xC0, 0x100, 0x140, 0x180].map fun o => ((s.cont i).block + o) / 64) s
    let l := readLaunch r i key
    let n := blockNat r i
    (t.cont i).ack = seq ∧ (t.cont i).result = 0 ∧ (t.cont i).launch = l ∧
    (l.image = BitVec.ofNat 64 (n 0x80 8) ∧ l.entry = (if n 0x88 4 = 0 then im.entry else n 0x88 4) ∧ l.contexts = n 0x8C 2 ∧
      l.perCore = n 0x8E 1 ∧ l.priority = n 0x8F 1 / 8 % 8 ∧ l.watchdog = n 0x90 4 ∧ l.winLog = n 0x94 1 ∧ l.tiles = n 0x95 1 ∧
      l.asid = n 0x96 2 ∧ l.pack = n 0x98 4) ∧
    (l.contexts < 1 ∨ 1024 < l.contexts ∨ l.perCore < 1 ∨ 4 < l.perCore ∨ l.winLog < 16 ∨ 21 < l.winLog ∨ l.contexts % l.perCore ≠ 0 ∨
      256 < l.contexts / l.perCore ∨ 4 < l.perCore * l.tiles ∨ l.entry % 32 ≠ 0 → badLaunch r i l im = true) ∧
    (badLaunch r i l im = true → (t.cont i).state = .faulted ∧ (t.cont i).cause = 6 ∧ (t.cont i).faults = 1 ∧ (t.cont i).exit = 0) ∧
    (badLaunch r i l im = false → l.waits = [] → (t.cont i).state = .queued ∨ (t.cont i).state = .running) ∧
    (badLaunch r i l im = false → l.waits ≠ [] → (t.cont i).state = .waiting ∧ i ∈ t.dev.waitWakes)) ∧
  (∀ (s : State) (i seq rank result : Nat), (Sparse.find s.dev.conts i).isSome = true →
    let u := readLines [((s.cont i).block + 0x1C0) / 64] s
    let v := u.mapCont i fun c => { c with faultPending := false, faultOf := none }
    let w := v.mapRank i rank (Ctx.resume (v.coreCycles i rank))
    let disposition := blockNat u i 0x1DB 1
    (disposition = 0 → (s.cont i).faultQueue = [] → applyDisposition i seq rank s = answer i seq 0 w) ∧
    (disposition = 0 → ∀ r rs x f, (s.cont i).faultQueue = r :: rs → w.ctxOf i r = some x → x.fault = some f →
      applyDisposition i seq rank s = answer i seq 0 (recordRepairable i f (w.mapCont i fun c => { c with faultQueue := rs }))) ∧
    (disposition = 1 → let t := applyDisposition i seq rank s
      (t.cont i).state = .faulted ∧ (t.cont i).cause = 3 ∧ (t.cont i).halt = some (.kill none) ∧
        ((s.cont i).halt = none → (t.cont i).ack = seq ∧ (t.cont i).result = 0)) ∧
    (2 ≤ disposition → applyDisposition i seq rank s = answer i seq 2 u) ∧
    (let t := answer i seq result s
     t.cont i = { s.cont i with ack := seq, result := result } ∧
     ((s.cont i).block % 64 = 0 → (s.cont i).block + 0x80 ≤ 2 ^ 52 → isDcbLine ((s.cont i).block / 64 + 1) = false → s.dev.acts = [] →
      hostHolds s ((s.cont i).block + 0x40) 64 = [] → Sparse.risingFrom none s.store.dirs = true → s.MemCanonical →
      latestBytes t.store ((s.cont i).block + 0x40) 64 = stateLine (t.cont i)))) ∧
  (∀ (now : Nat) (c : Ctx) (args : List W64), (c.resume now).fault = none ∧ (c.resume now).work.replay = [] ∧
    (c.resume now).work.memOps = c.work.memOps ++ c.work.replay.map (fun o => { o with cycle := now }) ∧
    (args.length = 8 → Sparse.risingFrom none c.regs.g = true → (c.answered args).call = none ∧
      (c.answered args).work.landing = c.work.landing.filter (fun p => match p.eff with
        | .g r _ => !(decide (1 ≤ r ∧ r ≤ 8) && decide (p.due ≤ c.count))
        | _ => true) ∧
      ∀ n, (c.answered args).regs.readG n = if 1 ≤ n ∧ n ≤ 8 then args.getD (n - 1) 0 else c.regs.readG n)) ∧
  (∀ (s : State) (i cause : Nat) (st : ContState) (exit : W64), (Sparse.find s.dev.conts i).isSome = true → st.isEnd = true →
    let t := endAndFree i st cause exit s
    (t.cont i).state = st ∧ (t.cont i).cause = cause ∧ (t.cont i).exit = exit ∧ (t.cont i).seats = [] ∧ (t.cont i).halt = none ∧
      ∀ e ∈ t.ctxs, e.2.cont ≠ i) ∧
  (∀ (s : State) (i : Nat), (Sparse.find s.dev.conts i).isSome = true → (s.cont i).state = .waiting →
    let r := evaluateList (s.cont i).launch.asid (s.cont i).launch.waits s
    let t := evaluateWaits i s
    (r.1 = some true → (t.cont i).state = .queued ∨ (t.cont i).state = .running) ∧
    (r.1 = some false → (t.cont i).state = .waiting ∧ i ∉ t.dev.waitWakes) ∧ (r.1 = none → t = r.2)) ∧
  (∀ (s : State) (asid : Nat) (e : W64 × W64) (es : List (W64 × W64)),
    evaluateList asid [] s = (some true, s) ∧ (waitPlace s asid e.1 = none → (evaluateList asid (e :: es) s).1 = some false) ∧
    ∀ pa, waitPlace s asid e.1 = some pa → isHostLine (pa / 64) = false → hostBlocks s.store (pa / 64) false = false →
      (dirOf s.store (pa / 64)).poison = false →
      let x := lineNat (lineData (readyToRead s.store (pa / 64)).mem (pa / 64)) (pa % 64) (waitWidth e.1)
      ∃ s', evaluateList asid (e :: es) s = ((evaluateList asid es s').1.map (· && waitHolds e.1 e.2 x), (evaluateList asid es s').2)) ∧
  (∀ (s : State) (asid : Nat) (e : W64 × W64) (es : List (W64 × W64)) (pa : Nat), waitPlace s asid e.1 = some pa →
    (isHostLine (pa / 64) = true → (dirOf s.store (pa / 64)).poison = false →
      let x := lineNat (proxyData (proxyFetch (refetchHost s.store (pa / 64)) (pa / 64)) (pa / 64)) (pa % 64) (waitWidth e.1)
      ∃ s', evaluateList asid (e :: es) s = ((evaluateList asid es s').1.map (· && waitHolds e.1 e.2 x), (evaluateList asid es s').2)) ∧
    (isHostLine (pa / 64) = false → hostBlocks s.store (pa / 64) false = true → (dirOf s.store (pa / 64)).poison = false →
      evaluateList asid (e :: es) s = (none, askHost (pa / 64) s))) ∧
  (∀ (e : W64 × W64) (x : Nat), let v := if e.1.getLsbD 52 then e.2.toNat % 2 ^ 32 else e.2.toNat
    (e.1.toNat / 2 ^ 48 % 2 ^ 4 = 0 → (waitHolds e.1 e.2 x = true ↔ x = v)) ∧
    (e.1.toNat / 2 ^ 48 % 2 ^ 4 = 1 → (waitHolds e.1 e.2 x = true ↔ x ≠ v)) ∧
    (e.1.toNat / 2 ^ 48 % 2 ^ 4 = 2 → (waitHolds e.1 e.2 x = true ↔ v ≤ x)) ∧
    (e.1.toNat / 2 ^ 48 % 2 ^ 4 = 3 → (waitHolds e.1 e.2 x = true ↔ x < v)))

/-- The lines of the device control block, sealing codes, the fabric and device reset (R37 to R41, R164, R195, R202, R203, R208, R225, R266 to
R269). A request's line is loaded once the host has given it up. A shoot-down drops what its kind names and completes once what translated there,
or through a dropped entry, has performed; another kind, or a malformed range, ends with status 1. Sealing writes verdict and seal and keeps an
accepted image, a release lets one go. The verdict is the lowest header code with offset all ones, else the lowest code of the lowest slot of the
lowest bundle, else 0; the seal is SHA3-512 of the image with the new verdict. An attestation writes its evidence; heartbeats are written and
watched; a peer's write, signal, atomic or answer has its effect, is refused, or waits, behind what its device sent before; a signal's bytes are
counted and acknowledged, those of a copy that were refused with its fault; a failed port goes; a device reset that succeeds is the state after
bring-up, with memory outside the control block kept.
THE MODEL'S, by log entry: that nothing of a request happens until the host has given up the lines read (7), memory after a reset (16), that a
peer adds the bytes it refused (34), segment counts 0 and above 16 are E-22 and what a writable header is (44), how a heartbeat loss is logged and
its boot status (46), that heartbeat target 0 writes nothing (47), what a reset keeps, and that its status is a parameter (48), readings of the
codes (58), the layout of the evidence (71), order and refusals on the fabric (75), upper half of an accepted image's verdict (80), the lowest of
several header codes (81), the address logged of a refused peer write (82), a release's intent (91), which early arrivals are kept (94), and that a sequence already served asks for nothing (104). -/
def Obligations.DeviceLinesAct : Prop :=
  (∀ (s : State),
    let line := fun (off n : Nat) => dcbNat s off n
    let gives := fun (off : Nat) => hostKeeps s [(s.dev.dcb + off) / 64] = []
    let read := fun (off : Nat) (u : State) => readLines [(s.dev.dcb + off) / 64] u
    let shoot := (s.dev.shootWake = true ∧ s.dev.shootBusy = none ∧ gives 0x40) ∧ line 0x40 8 ≠ s.dev.shootSeen
    let v := read 0x40 (s.mapDev fun d => { d with shootWake := false, shootSeen := line 0x40 8 })
    let ends := fun (t : State) (seq status : Nat) =>
      interrupt 2 (distWrite (t.dev.dcb + 0x60) (leBytes 8 seq) (distWrite (t.dev.dcb + 0x68) (leBytes 1 status) t))
    let base := line 0x50 8
    let count := line 0x58 8
    let badRange := count = 0 ∨ base % 4096 ≠ 0 ∨ 2 ^ 48 < base + 4096 * count
    let drops := fun (i : Instr) (gone : Nat → Nat → Nat → Prop) => ∃ t, exec i s = .next t ∧ t.dev.shootWake = false ∧
      (∃ ops, t.dev.shootBusy = some (line 0x40 8, ops) ∧ ∀ h c o x, Sparse.find s.ctxs h = some c → o ∈ c.work.memOps → o.translated = true →
        x ∈ o.items → let asid := (s.cont c.cont).launch.asid; let va := x.va.toNat
        (gone asid va 1 ∨ ∃ e ∈ s.store.tlbs, gone e.asid e.base e.span ∧ e.asid = asid ∧ e.base ≤ va ∧ va < e.base + e.span) →
          (c.cont, c.rank, o.age) ∈ ops) ∧
      t.store.mem = v.store.mem ∧ ∀ e, e ∈ t.store.tlbs ↔ e ∈ s.store.tlbs ∧ ¬ gone e.asid e.base e.span
    let asks := fun (off : Nat) (i : Instr) => ¬ gives off → exec i s = .next (askLines (hostKeeps s [(s.dev.dcb + off) / 64]) s)
    (s.dev.shootWake = true → s.dev.shootBusy = none →
      ∀ i ∈ [Instr.shootDownRange, .shootDownAsid, .shootDownAll, .shootDownUnassignedKind], asks 0x40 i) ∧
    (shoot → line 0x4A 1 = 0 → ¬ badRange → drops .shootDownRange fun a b n => a = line 0x48 2 ∧ b < base + 4096 * count ∧ base < b + n) ∧
    (shoot → line 0x4A 1 = 0 → badRange → exec .shootDownRange s = .next (ends v (line 0x40 8) 1)) ∧
    (shoot → line 0x4A 1 = 1 → drops .shootDownAsid fun a _ _ => a = line 0x48 2) ∧
    (shoot → line 0x4A 1 = 2 → drops .shootDownAll fun _ _ _ => True) ∧
    (shoot → 3 ≤ line 0x4A 1 → exec .shootDownUnassignedKind s = .next (ends v (line 0x40 8) 1)) ∧
    (∀ seq ops, s.dev.shootBusy = some (seq, ops) → (∀ x ∈ ops, stillToPerform s x = false) →
      exec .shootDownComplete s = .next (ends (s.mapDev fun d => { d with shootBusy := none }) seq 0)) ∧
    (let wakes := s.dev.up = true ∧ s.dev.sealWake = true ∧ s.dev.sealBusy = none
     let ready := (wakes ∧ gives 0x80) ∧ line 0x80 8 ≠ s.dev.sealSeen
     let va := line 0x88 8
     let asid := line 0x90 2
     let u := logTroubles (imageTroubles s asid va) s
     let w := logTroubles (readTroubles s asid .sealEngine (va + 0x40) 64) s
     let whole := hostKeeps s (linesRead s asid .sealEngine va 0x500) = [] ∧ hostKeeps s (imageLines s asid va) = []
     let head := hostKeeps s (linesRead s asid .sealEngine (va + 0x40) 64) = []
     (wakes → ∀ i ∈ [Instr.sealImage, .sealRelease, .sealUnassignedKind], asks 0x80 i) ∧
     (ready → line 0x92 1 = 0 → ¬ whole → ∃ ls, ls ≠ [] ∧ exec .sealImage s = .next (askLines ls s)) ∧
     (ready → line 0x92 1 = 1 → ¬ head → ∃ ls, ls ≠ [] ∧ exec .sealRelease s = .next (askLines ls s)) ∧
     (∀ status, answerSeal status s = (read 0x80 (s.mapDev fun d => { d with sealWake := false, sealSeen := line 0x80 8 })).mapDev
       fun d => { d with sealBusy := some (line 0x80 8, status) }) ∧
     (ready → line 0x92 1 = 0 → whole → ∀ r, readImage s asid va = some r → headerWritable u asid va = true →
        let j := judge u r
        let t := putVirtual asid (va + 0x80) (leBytes 8 (verdictWord j.1.1 j.1.2)) (putVirtual asid (va + 0x40) j.2 u)
        exec .sealImage s = .next (answerSeal (if j.1.1 = 24 then 2 else 0) (if j.1.1 = 0 ∧ isResident u j.2 = false
          then t.mapDev fun d => { d with images := Sparse.put d.images (freshImage t) (sealedCopy r j.2) } else t))) ∧
     (ready → line 0x92 1 = 0 → whole → readImage s asid va = none → exec .sealImage s = .next (answerSeal 1 u)) ∧
     (ready → line 0x92 1 = 0 → whole → headerWritable u asid va = false → exec .sealImage s = .next (answerSeal 1 u)) ∧
     (ready → line 0x92 1 = 1 → head → readVirtual s asid .sealEngine (va + 0x40) 64 = none → exec .sealRelease s = .next (answerSeal 1 w)) ∧
     (ready → line 0x92 1 = 1 → head → ∀ d, readVirtual s asid .sealEngine (va + 0x40) 64 = some d →
        (w.dev.images.find? (fun e => e.2.digest == d) = none → exec .sealRelease s = .next (answerSeal 4 w)) ∧
        ∀ k im, w.dev.images.find? (fun e => e.2.digest == d) = some (k, im) →
        (imageInUse w k = false → exec .sealRelease s =
          .next (answerSeal 0 (w.mapDev fun d => { d with images := Sparse.erase d.images k }))) ∧
        (imageInUse w k = true → exec .sealRelease s = .next (answerSeal 3 w))) ∧
     (ready → 2 ≤ line 0x92 1 → exec .sealUnassignedKind s = .next (answerSeal 5 s)) ∧
     (s.dev.up = false → exec .sealImage s = .next s ∧ exec .sealRelease s = .next s ∧ exec .sealUnassignedKind s = .next s) ∧
     (∀ seq status, s.dev.sealBusy = some (seq, status) →
        let t := s.mapDev fun d => { d with sealBusy := none }
        exec .sealComplete s =
          .next (interrupt 2 (distWrite (s.dev.dcb + 0xA0) (leBytes 8 seq) (distWrite (s.dev.dcb + 0xA8) (leBytes 1 status) t))))) ∧
    (s.dev.attestWake = true → asks 0x1000 .attestation) ∧
    (s.dev.attestWake = true → gives 0x1000 →
      let t := read 0x1000 (s.mapDev fun d => { d with attestWake := false, attestSeen := line 0x1000 8 })
      (line 0x1000 8 = s.dev.attestSeen → exec .attestation s = .next t) ∧
      (line 0x1000 8 ≠ s.dev.attestSeen →
      exec .attestation s = .next (distWrite (t.dev.dcb + 0x1030) (leBytes 8 (line 0x1000 8)) (writeHost (line 0x1008 8)
        (evidence s.dev.record.device.toNat (latestBytes s.store (s.dev.dcb + 0x1010) 32)) t)))) ∧
    (s.dev.beatAge + 130000 ≤ s.refHalf → s.dev.up = true → asks 0xC0 .deviceHeartbeat) ∧
    (s.dev.beatAge + 130000 ≤ s.refHalf → s.dev.up = true → gives 0xC0 →
      let t := read 0xC0 (s.mapDev fun d => { d with beats := d.beats + 1, beatAge := s.refHalf })
      exec .deviceHeartbeat s = .next (if line 0xC0 8 = 0 then t else writeHost (line 0xC0 8) (leBytes 8 (s.dev.beats + 1)) t)) ∧
    (s.dev.boot = 1 → s.dev.hostSilent = false → s.dev.hostAge + 1300000 ≤ s.refHalf → exec .heartbeatLoss s = .next (logError (s.dev.dcb + 0xC8) 3 3
      (homeDie ((s.dev.dcb + 0xC8) / 64)) 0xFFFF (s.mapDev fun d => { d with hostSilent := true, boot := 5 }))) ∧
    (s.dev.boot ≠ 1 → exec .heartbeatLoss s = .next s) ∧
    (∀ st, st ≤ 4 → exec (.deviceReset st) s = .next { State.reset with
      agenda := s.agenda, store := { Store.empty with mem := memAfterReset s.store.mem }
      dev := { Device.booted with boot := st, outputs := s.dev.outputs } })) ∧
  (∀ (s : State) (w : FabricWrite) (m : BarrierSignal) (r : PeerAtomic) (i h port : Nat),
    let u := leaveIdle s
    let v := { u with dev := { u.dev with fabricIn := [] } }
    let events : List (FabricMsg × Instr) := [(.write w, .fabricWrite w), (.atomic r, .peerAtomicRequest r),
      (.signal m, .fabricBarrierSignal m.src m.packId m.level3 m.core m.pos m.barrier m.bytes m.fault)]
    (∀ e ∈ events, exec e.2 s = .next (arriveFabric e.1 s)) ∧
    (∀ x : FabricMsg, s.dev.up = false → arriveFabric x s = s) ∧
    (∀ x : FabricMsg, s.dev.up = true → s.dev.fabricIn = [] → let y := x.serve v
      arriveFabric x s = if y.1 = true then y.2 else y.2.mapDev fun d => { d with fabricIn := d.fabricIn ++ [x] }) ∧
    (∀ x x' : FabricMsg, s.dev.up = true → s.dev.fabricIn = [x] → x'.src = x.src → (x.serve v).1 = false →
      arriveFabric x' s = (x.serve v).2.mapDev fun d => { d with fabricIn := d.fabricIn ++ [x] ++ [x'] }) ∧
    (w.data ≠ [] → w.space = 3 → u.dev.breaksAccess w.addr w.data.length = false → w.addr + w.data.length < hostBase → hostHolds u w.addr w.data.length = [] →
      (serveWrite w u).1 = true ∧ (serveWrite w u).2.store.mem = (homeStore u.store w.addr 0 w.data).2.mem) ∧
    (w.data ≠ [] → w.space = 3 → u.dev.breaksAccess w.addr w.data.length = true → serveWrite w u = (true, refusePeer w.src w.addr 4 u)) ∧
    (w.data ≠ [] → w.space ≠ 3 → packCont u w.packId = none → serveWrite w u = (true, refusePeer w.src w.addr 0 u)) ∧
    (w.data ≠ [] → w.space ≠ 3 → packCont u w.packId = some i → ∀ rank, peerRank u i w.core w.pos = some rank →
      objectInWindow u i w.barrier = true → (u.windowHw i rank = some h → serveWrite w u = peerWindow h w u) ∧
        (u.windowHw i rank = none → serveWrite w u = (false, u))) ∧
    (packCont u m.packId = some i → m.level3.nth ≠ 0 → serveSignal m u = (true, u.mapCont i fun c => match m.level3.phase with
      | .arrived => { c with arrivals3 := Sparse.put c.arrivals3 (m.src * 2 ^ 65 + min m.level3.nth (2 ^ 64 - 1)) m.level3 }
      | .raised => { c with raised3 := Sparse.put c.raised3 m.src m.level3.nth }
      | .settled => { c with settled3 := Sparse.put c.settled3 m.src m.level3.nth })) ∧
    (packCont u m.packId = none → m.level3.nth ≠ 0 → (keepsEarly u m = true → serveSignal m u = (true, u.mapDev fun d => { d with
        early := (d.early.filter fun a => !(a.packId == m.packId && a.src == m.src)) ++ [{ packId := m.packId, src := m.src, level3 := m.level3 }] })) ∧
      (keepsEarly u m = false → (serveSignal m u).1 = true ∧ (serveSignal m u).2.dev.early = u.dev.early ∧ (serveSignal m u).2.ctxs = u.ctxs) ∧
      (m.packId ≠ 0 → m.level3.phase = .arrived → (m.level3.nth = 1 ∨ ∀ e ∈ u.dev.conts, e.2.launch.pack ≠ m.packId) →
        keepsEarly u m = true)) ∧
    (packCont u m.packId = none → m.level3.nth = 0 → serveSignal m u = (true, refusePeer m.src m.barrier 0 u)) ∧
    (packCont u m.packId = some i → m.level3.nth = 0 → ∀ rank, peerRank u i m.core m.pos = some rank → objectInWindow u i m.barrier = true →
      u.windowHw i rank = some h → serveSignal m u = peerCount h m u) ∧
    (let core := h / 4
     let obj := (u.ctx h).coreAddr m.barrier
     let o : PeerObject := { src := m.src, packId := m.packId, core := m.core, pos := m.pos, barrier := m.barrier }
     let rf := u.refusedAt o
     let lost := min m.bytes rf.unnamed
     let n := if m.fault.isSome = true then m.bytes + rf.named else m.bytes - lost
     let used := usePort (.peer m.src) core [obj] (setRefused (if m.fault.isSome = true then { rf with named := 0 }
       else { rf with unnamed := rf.unnamed - lost, named := rf.named + lost }) u)
     let acked := fun (t : State) => (true, t.output (.acknowledge m.src m.packId m.core m.pos m.barrier m.bytes))
     ((u.core core).pause ≠ 0 → peerCount h m u = (false, u)) ∧
     ((u.core core).pause = 0 → portFree u (.peer m.src) core [obj] = false → peerCount h m u = (false, queuePort (.peer m.src) core [obj] u)) ∧
     ((u.core core).pause = 0 → portFree u (.peer m.src) core [obj] = true →
       (m.fault = none → n = 0 → peerCount h m u = acked used) ∧
       (m.fault = none → n ≠ 0 → peerCount h m u = acked (countAt core obj n false used)) ∧
       (∀ k, m.fault = some k → peerCount h m u = acked (countAt core obj n false (used.mapStore (markError core obj k)))))) ∧
    (let inside := (w.data.mapIdx fun j b => (w.addr + j, b)).filter fun e => decide (e.1 < (u.ctx h).window)
     (∀ t, peerWindow h w u = (true, t) → let o : PeerObject := { src := w.src, packId := w.packId, core := w.core, pos := w.pos, barrier := w.barrier }
        t.refusedAt o = { u.refusedAt o with unnamed := (u.refusedAt o).unnamed + (w.data.length - inside.length) }) ∧
     (stagingRoom u (h / 4) inside.length = false → peerWindow h w u = (false, u))) ∧
    (inOneLine r.pa r.width = true → u.dev.breaksAccess r.pa r.width = false → isHostLine (r.pa / 64) = false →
      (dirOf u.store (r.pa / 64)).poison = false → ∀ old ts st,
      serveAtomic u.store (r.pa / 64) (r.pa % 64) r.width 0 r.op (r.b.toNat % 256 ^ r.width) (r.c.toNat % 256 ^ r.width) = some (old, ts, st) →
      servePeerAtomic r u = (true, (noteWrite (r.pa / 64) (noteCombines u { u with store := st })).output
        (.response r.src r.tag false (BitVec.ofNat 64 old)))) ∧
    (∃ t, exec (.fabricPortFailure port) s = .next t ∧
      ∀ j < 16, t.dev.record.ports.getLsbD j = (s.dev.record.ports.getLsbD j && decide (j ≠ port)))) ∧
  (∀ (s : State) (r : RawImage) (free : Nat),
    let h := r.header
    let n := headerNat h
    let segs := headerSegments h
    let v := verdict r free
    let bit := fun (off i : Nat) => n off 2 / 2 ^ i % 2
    (∃ free, (judge s r).1 = verdict r free) ∧ (judge s r).2 = sealOf r (judge s r).1 ∧
    (∀ x, sealOf r x = sha3 (h.take 0x40 ++ List.replicate 64 0 ++ leBytes 8 (x.1 + x.2 * 2 ^ 32) ++ h.drop 0x88 ++ (r.parts.map (·.2)).flatten)) ∧
    (SealCode.badMagic ∈ headerCodes h free ↔ n 0 8 ≠ 0x5A5553414C494D31) ∧
    (SealCode.badSegments ∈ headerCodes h free ↔ n 0xC 2 = 0 ∨ 16 < n 0xC 2 ∨ overlapping segs = true ∨ 1 < (segs.filter (·.kind == 2)).length ∨
      ∃ x ∈ segs, x.kind = 0 ∨ 3 < x.kind ∨ (0 < x.size ∧ x.off < 0x500) ∨ n 8 4 < x.off + x.size ∨
        (x.kind = 1 ∧ (x.off % 32 ≠ 0 ∨ x.size % 32 ≠ 0))) ∧
    (SealCode.badEntry ∈ headerCodes h free ↔ n 0x10 4 % 32 ≠ 0 ∨ ∀ x ∈ segs, x.kind = 1 → ¬ (x.off ≤ n 0x10 4 ∧ n 0x10 4 < x.off + x.size)) ∧
    (SealCode.sealedMemoryFull ∈ headerCodes h free ↔ free < ((segs.filter (·.kind == 1)).map Segment.size).sum) ∧
    (SealCode.reservedHeader ∈ headerCodes h free ↔ headerZero h 0x15 3 = false ∨ headerZero h 0x20 32 = false ∨ headerZero h 0x88 120 = false ∨
      headerZero h 0x480 128 = false ∨ headerZero h (0x100 + 16 * segs.length) (16 * (16 - segs.length)) = false ∨
      ∃ i < segs.length, n (0x10C + 16 * i) 4 ≠ 0) ∧
    (SealCode.badWalkRecord ∈ headerCodes h free ↔ ∃ i < 16, let w := fun j => n (0x200 + 32 * i + 8 * j) 8
      (bit 0xE i = 0 ∧ (w 0 ≠ 0 ∨ w 1 ≠ 0 ∨ w 2 ≠ 0 ∨ w 3 ≠ 0)) ∨ (bit 0xE i ≠ 0 ∧ (4 < w 0 % 16 ∨ 3 < w 0 / 16 % 8 ∨ w 0 / 128 % 2 ≠ 0 ∨
        w 0 / 2 ^ 26 ≠ 0 ∨ w 1 / 2 ^ 60 ≠ 0 ∨ w 3 / 2 ^ 52 ≠ 0))) ∧
    (SealCode.badRingRecord ∈ headerCodes h free ↔ ∃ i < 8, let b := n (0x400 + 16 * i) 8; let g := n (0x408 + 16 * i) 8
      (n 0x14 1 / 2 ^ i % 2 = 0 ∧ (b ≠ 0 ∨ g ≠ 0)) ∨ (n 0x14 1 / 2 ^ i % 2 ≠ 0 ∧ badRing (BitVec.ofNat 64 b) (BitVec.ofNat 64 g) = true)) ∧
    (SealCode.scratchTooLarge ∈ headerCodes h free ↔ ∃ x ∈ segs, x.kind = 2 ∧ 2097152 < x.size) ∧
    (∀ c ∈ headerCodes h free, v.2 = 0xFFFFFFFF ∧ v.1 ≤ c.num ∧ ∃ d ∈ headerCodes h free, v.1 = d.num) ∧
    (headerCodes h free = [] → let codes := r.code.map fun p => segmentCode (insideCode segs) p.1.off (bundlesOf p.2)
      ((∀ x ∈ codes, x = none) → v = (0, 0)) ∧ ∀ off c, codes.find? Option.isSome = some (some (off, c)) → v = (c.num, off))) ∧
  (∀ (inside : Int → Bool) (off j k : Nat) (bs : List RawBundle) (b : RawBundle) (c : SealCode), bs[j]? = some b → k < 7 →
    let codes := slotCodes inside off bs
    let covers := fun (i : Nat) => ∃ x, bs[i]? = some x ∧ i < j ∧ j ≤ i + x.holds
    (SealCode.conflict ∈ codes j b k ↔ (∃ d ∈ b.dests k, ∃ i < k, d ∈ b.dests i) ∨ b.slots[k]? = some (.error .conflict)) ∧
    (SealCode.guardOnEmpty ∈ codes j b k ↔ b.words.getD k 0 = 0 ∧ b.guardOf k ≠ 0 ∨ b.slots[k]? = some (.error .guardOnEmpty)) ∧
    (b.slots[k]? = some (.error c) → c ∈ codes j b k) ∧
    (k = 0 → (∀ t, branchTarget (off + 32 * j) (b.words.getD 0 0) = some t → inside t = false → SealCode.targetOutside ∈ codes j b 0) ∧
      (j + 1 = bs.length → b.closes = false → SealCode.fallThrough ∈ codes j b 0)) ∧
    (k = 4 → b.holds ≠ 0 → (bs.length ≤ j + b.holds ∨ (∃ x ∈ (bs.drop (j + 1)).take b.holds, x.barred = true) → SealCode.holdWindow ∈ codes j b 4) ∧
      ((∃ i, covers i) → SealCode.nestedHold ∈ codes j b 4)) ∧
    (bundleCode inside off bs j b = some c → ∃ k < 7, c ∈ codes j b k ∧ (∀ d ∈ codes j b k, c.num ≤ d.num) ∧ ∀ i < k, codes j b i = []) ∧
    (bundleCode inside off bs j b = none ↔ ∀ k < 7, codes j b k = []) ∧
    (bundleCode inside off bs j b = some c → (∀ i x, i < j → bs[i]? = some x → bundleCode inside off bs i x = none) →
      segmentCode inside off bs = some (off / 32 + j, c)))

/-- The distributor, the watchdog and time (R145, R147, R164, R226 to R231, R234 to R236, R239, R244, R377). A report of changed resources, a
boost after 250 µs, a block after 1,000 µs and the end of a residency floor run the pass, which loads the kennel lines (R164). It goes through the
waiting continuations by effective priority, then by wait: each returns to its seats, or takes the lowest free positions, windows and tiles over
the fewest dies, or the room of holders it may evict, or pre-empts the fewest victims in order that make room, whose room is then reserved for it
alone; after one with victims to halt, or a blocking one that found no room, nothing is placed. A placed gang begins to issue once nothing of it
is in the kennel; its saved parts are restored, unless the host changed their bytes. A halt that is complete does what asked for it, an end once
no core of it is in a changeover pause; where every context is done, the end comes before PARK and pre-emption (R224). The watchdog has three
stages. A rebase beyond 2^47 halts all, shifts every timestamp and runs the pass; a timestamp advances after 16 reference ticks.
THE MODEL'S, by log entry: that the pass waits for the host's kennel lines, and a restore for its lines and the device's queued stores (7), the
pts of a new context is the largest timestamp anywhere (18), a PARK still in progress at watchdog expiry is answered 1 (36), that a boost runs the
pass (51), that a returning continuation first asks for its old seats, then for free room (57), the amount of a rebase (65), how reserved rooms
are held (77), ties in priority and time (90), the grant at a placement (92), the kind of the notice of stage 3 (102). -/
def Obligations.DistributorActs : Prop :=
  (∀ (s : State) (i d : Nat),
    let c := s.cont i
    let us := fun (n : Nat) => 2600 * n
    (d < 256 → reportDue s d = true → exec (.resourceReport d) s =
      .next (pass (s.mapDev fun x => { x with reports := Sparse.put x.reports d (reportOf s d) }))) ∧
    (reportDue s d = false → exec (.resourceReport d) s = .next s) ∧
    (let held := fun (p : Room → Prop) => ∃ e ∈ s.dev.conts, ∃ x ∈ e.2.rooms, x.1 = d ∧ p x.2
     let r := reportOf s d
     (∀ p < 4, r.positions.getLsbD p = true ↔ ¬ held fun x => p ∈ x.positions) ∧ (∀ t < 4, r.tiles.getLsbD t = true ↔ ¬ held fun x => t ∈ x.tiles) ∧
     (∀ b < 32, r.banks.getLsbD b = true ↔ ¬ held fun x => ∃ w ∈ x.windows, overlap (65536 * b) 65536 w.1 w.2 = true) ∧
     r.run = (s.core d).run ∧ r.fenced = (s.core d).fenced) ∧
    (c.state = .running → c.placing = none → c.kennel = [] → exec (.gangIssueStart i) s = .next { s with ctxs := s.ctxs.map fun e =>
      if e.2.cont = i ∧ (e.2.started = false ∨ e.2.halted = true ∧ c.halt = none) then (e.1, { e.2.again e.1 with started := true }) else e }) ∧
    (c.state = .running → c.placing = none → c.kennel ≠ [] → (∀ x ∈ c.seats, (s.core x.core).pause = 0) → s.dev.acts = [] →
      let t := logTroubles (poisonedLines s (kennelLines c)) s
      (hostKeeps s (kennelLines c) ≠ [] → exec (.kennelRestore i) s = .next (askLines (hostKeeps s (kennelLines c)) s)) ∧
      (hostKeeps s (kennelLines c) = [] → (∀ x ∈ c.kennelSaves, sha3 (latestBytes s.store x.first x.len) = x.digest) →
        exec (.kennelRestore i) s = .next (writeLine i
          ((c.kennel.foldl (restorePart i) t).mapCont i fun c => { c with kennel := [], kennelSaves := [], kennelled := false }))) ∧
      (hostKeeps s (kennelLines c) = [] → (∃ x ∈ c.kennelSaves, sha3 (latestBytes s.store x.first x.len) ≠ x.digest) →
        ∃ f, exec (.kennelRestore i) s = .next (recordUnrepairable i f t) ∧ f.cls = FaultClass.kennel ∧ f.repairable = false)) ∧
    (c.state = .running → c.placing = none → c.kennel ≠ [] → s.dev.acts ≠ [] → exec (.kennelRestore i) s = .next s) ∧
    (c.state = .queued → c.ineligible = false → c.boost < 2 → c.boostAge + us 250 ≤ s.refHalf → exec (.priorityBoost i) s =
      .next (pass (s.mapCont i fun c => { c with boost := c.boost + 1, boostAge := c.boostAge + us 250 }))) ∧
    (c.state = .queued → c.blocking = false → c.queuedAge + us 1000 ≤ s.refHalf →
      exec (.blockingTimeout i) s = .next (pass (s.mapCont i fun c => { c with blocking := true }))) ∧
    (c.state = .running → c.residentAge + us 100 ≤ s.refHalf → exec (.residencyFloorExpiry i) s = .next (pass s)) ∧
    (canHalt s i = true →
      let t := haltAll i s
      let clear := t.mapCont i fun c => { c with halt := none }
      (allDone s i = true → ((∃ j, c.halt = some (.preempt j)) ∨ ∃ seq, c.halt = some (.park seq)) → exec (.haltComplete i) s = .next s) ∧
      (∀ j, c.halt = some (.preempt j) → allDone s i = false → exec (.haltComplete i) s = .next (enterQueued i clear)) ∧
      (∀ seq, c.halt = some (.park seq) → allDone s i = false → exec (.haltComplete i) s = .next (writeState i (clear.mapCont i fun c =>
        { c with state := .parked, ineligible := true, ack := seq, result := 0, parks := c.parks + 1 }))) ∧
      (unpaused s i = false → ((∃ seq, c.halt = some (.kill seq)) ∨ c.halt = some .watchdog) → exec (.haltComplete i) s = .next s) ∧
      (∀ seq, c.halt = some (.kill seq) → unpaused s i = true → (t.cont i).state.isEnd = false → exec (.haltComplete i) s =
        .next (endAndFree i .killed 4 0 (clear.mapCont i fun c => { c with ack := seq.getD c.ack, result := 0 }))) ∧
      (∀ seq, c.halt = some (.kill seq) → unpaused s i = true → (t.cont i).state.isEnd = true → exec (.haltComplete i) s =
        .next (pass ((freeCont i t).mapCont i fun c => { c with halt := none }))) ∧
      (c.halt = some .watchdog → unpaused s i = true → exec (.haltComplete i) s = .next (endAndFree i .killed 5 0 clear)) ∧
      (c.halt = some .rebase → exec (.haltComplete i) s = .next t)) ∧
    (canHalt s i = false ∨ c.halt = none → exec (.haltComplete i) s = .next s) ∧
    (allDone s i = true ↔ (∃ e ∈ s.contexts i, e.ended ≠ none) ∧ (∀ e ∈ s.contexts i, e.ended ≠ none) ∧ c.faultPending = false) ∧
    (canHalt s i = true ↔ c.placing = none ∧ (c.state = .running → c.kennel = []) ∧ ∀ e ∈ s.ctxs, e.2.cont = i → e.2.work.openHold = none) ∧
    (c.state = .running ∨ c.state = .queued ∨ c.state = .parked → c.stage = 0 →
      us (if c.launch.watchdog = 0 then 100000 else c.launch.watchdog) ≤ c.clock →
      ((c.halt = none ∨ c.halt = some .rebase ∨ ∃ j, c.halt = some (.preempt j)) → exec (.watchdogExpiry i) s =
        .next (s.mapCont i fun c => { c with stage := 1, stageAge := s.refHalf, halt := some .watchdog })) ∧
      (∀ seq, c.halt = some (.park seq) → exec (.watchdogExpiry i) s = .next
        (s.mapCont i fun c => { c with stage := 1, stageAge := s.refHalf, halt := some .watchdog, ack := seq, result := 1 })) ∧
      (∀ seq, c.halt = some (.kill seq) → exec (.watchdogExpiry i) s = .next s)) ∧
    (c.stage = 1 → c.halt = some .watchdog → c.stageAge + us 20 ≤ s.refHalf → ∃ t, exec (.watchdogStage2 i) s = .next t ∧
      t.store = s.store ∧ (∀ h, (t.ctx h).regs = (s.ctx h).regs) ∧
      (∀ h e, Sparse.find s.ctxs h = some e → t.ctx h = if e.cont = i ∧ stillRuns s i (h / 4) = true
        then { e with work := { Work.empty with nextStream := e.work.nextStream } } else e) ∧
      ∀ k x, Sparse.find s.cores k = some x → t.core k = if stillRuns s i k = true then { x with
        queue := x.queue.filter (fun o => !(s.ctxsOf i).contains o.ctx), channels := x.channels.filter (fun y => y.2.cont != i),
        counts := x.counts.filter (fun m => m.cont != i) } else x) ∧
    (c.stage = 2 → c.halt = some .watchdog → c.stageAge + us 100 ≤ s.refHalf → (∃ x ∈ c.seats, x.core = d) → unpaused s i = true →
      let t := ((c.seats.map Seat.core).filter fun x => x == d || stillRuns s i x).foldl (fun s x => s.mapCore x fun y => { y with fenced := true }) s
      exec (.watchdogStage3 i d) s = .next (endAndFree i .killed 5 0
        ((distWrite (t.dev.dcb + 0xD0) (leBytes 32 (fencedMask t)) t).output (.management 0x80)))) ∧
    (s.dev.rebase = false → 2 ^ 47 < topTimestamp s → Sparse.risingFrom none s.dev.conts = true → ∃ t, exec .timestampRebase s = .next t ∧
      t.dev.rebase = true ∧ t.store = s.store ∧ t.ctxs = s.ctxs ∧ ∀ j k, Sparse.find s.dev.conts j = some k → t.cont j =
        if k.state = .running ∧ k.halt = none then { k with halt := some .rebase } else k) ∧
    (s.dev.rebase = true → (∀ e ∈ s.dev.conts, e.2.state = .running → (s.cont e.1).halt = some .rebase ∧ canHalt s e.1 = true ∧
        ∀ x ∈ s.ctxs, x.2.cont = e.1 → x.2.halted = true) → ∃ u, exec .timestampRebase s = .next (pass u) ∧
      let n := leastPts s - 1
      let lower := fun (xs : Sparse (Nat × Nat)) => (xs.map fun e => (e.1, (e.2.1 - n, e.2.2 - n))).filter fun e => e.2 != (0, 0)
      u.dev.rebase = false ∧ u.dev.largest = s.dev.largest - n ∧ u.store.mem = s.store.mem ∧
      (∀ h e, Sparse.find s.ctxs h = some e → (u.ctx h).pts = e.pts - n) ∧ u.store.released = lower s.store.released ∧
      (∀ j k a b words full marks xs, Sparse.find s.dev.conts j = some k → KennelPart.window a b words full marks xs ∈ k.kennel →
        ∃ k', Sparse.find u.dev.conts j = some k' ∧ KennelPart.window a b words full marks (lower xs) ∈ k'.kennel) ∧
      ∀ x y, Sparse.find s.store.copies x = some y → Sparse.find u.store.copies x = some { y with wts := y.wts - n, rts := y.rts - n }) ∧
    ((∀ e ∈ s.ctxs, leastPts s ≤ e.2.pts) ∧ leastPts s ≤ s.dev.largest) ∧
    (∃ t, exec .ptsTick s = .next t ∧ t.store = s.store ∧ ∀ h e, Sparse.find s.ctxs h = some e →
      (t.ctx h).pts = if 32 ≤ e.ptsTicks then e.pts + 1 else e.pts)) ∧
  (∀ (s t : State) (i : Nat) (is : List Nat), passOver [] s = s ∧
    (waitingOrder s = [] → pass s = s.mapDev fun d => { d with passDue := false }) ∧
    (waitingOrder s ≠ [] → kennelKept s = [] →
      pass s = passOver (waitingOrder s) (readLines (kennelReads s) (s.mapDev fun d => { d with passDue := false }))) ∧
    (waitingOrder s ≠ [] → kennelKept s ≠ [] → pass s = askLines (kennelKept s) (s.mapDev fun d => { d with passDue := true })) ∧
    (∀ l, l ∈ kennelKept s ↔ hostBlocks s.store l false = true ∧ ∃ e ∈ s.dev.conts,
      (e.2.state = .running ∨ e.2.state = .queued ∨ e.2.state = .parked) ∧ l = (e.2.block + 0x400) / 64) ∧
    (∀ j, j ∈ waitingOrder s ↔ ∃ c, (j, c) ∈ s.dev.conts ∧ c.state = .queued ∧ c.ineligible = false ∧ c.halt = none) ∧
    (Sparse.risingFrom none s.dev.conts = true → (waitingOrder s).Pairwise fun a b => let x := s.cont a; let y := s.cont b
      ¬ x.launch.priority + min 2 x.boost < y.launch.priority + min 2 y.boost ∧
        (x.launch.priority + min 2 x.boost = y.launch.priority + min 2 y.boost → x.queuedAge ≤ y.queuedAge)) ∧
    (tryPlace i [] s = some t → passOver (i :: is) s = passOver is t) ∧
    (tryPlace i [] s = none → tryPlace i (takeable s i) s = some t → passOver (i :: is) s = passOver is t) ∧
    (tryPlace i [] s = none → tryPlace i (takeable s i) s = none →
      (preempt i s = some t → passOver (i :: is) s = t) ∧
      (preempt i s = none → passOver (i :: is) s = if (s.cont i).blocking = true then s else passOver is s))) ∧
  (∀ (s : State) (i : Nat) (except : List Nat) (seats : List Seat) (l : Launch),
    let c := s.cont i
    (c.seats = [] → tryPlace i except s = (fitGang s i c.launch except).map fun x => settleSeats i x true s) ∧
    (canReturn s i except = true → tryPlace i except s = some (settleSeats i c.seats false s)) ∧
    (c.seats ≠ [] → canReturn s i except = false →
      tryPlace i except s = (fitGang s i c.launch except).map fun x => settleSeats i x false s) ∧
    (∀ j k, (j, k) ∈ s.dev.conts → j ≠ i → ∀ x ∈ k.reserved, let r := heldOn s i except x.2.1
      (∀ p ∈ x.2.2.positions, p ∈ r.positions) ∧ (∀ w ∈ x.2.2.windows, w ∈ r.windows) ∧ ∀ y ∈ x.2.2.tiles, y ∈ r.tiles) ∧
    (∀ fresh, (Sparse.find s.dev.conts i).isSome = true → let t := settleSeats i seats fresh s
      (t.cont i).state = .running ∧ (t.cont i).seats = seats ∧ (t.cont i).placing = some fresh ∧ (t.cont i).residentAge = s.refHalf ∧
        (t.cont i).boost = 0 ∧ (t.cont i).reserved = [] ∧ t.cores = s.cores ∧ t.ctxs = s.ctxs ∧ t.store = s.store) ∧
    (fitGang s i l except = some seats →
      let open' := (List.range 256).filter fun c => (seatOn s i l except c).isSome
      let dies := (seats.map fun x => x.core / 64).dedup
      seats.length = l.gang ∧ (seats.map Seat.core).Pairwise (· < ·) ∧
      (∀ x ∈ seats, let r := heldOn s i except x.core
        x.core < 256 ∧ (s.core x.core).fenced = false ∧ x.positions.length = l.perCore ∧ x.positions.Pairwise (· < ·) ∧
        (∀ p ∈ x.positions, p < 4 ∧ p ∉ r.positions ∧ ∀ q, q < p → q ∉ r.positions → q ∈ x.positions) ∧ x.bases.length = l.perCore ∧
        (∀ b ∈ x.bases, b % l.window = 0 ∧ (0 < l.perCore → b + l.window ≤ 2 ^ 21 ∧ ∀ w ∈ r.windows, overlap b l.window w.1 w.2 = false)) ∧
        (l.shared = false → x.bases.Pairwise (· < ·)) ∧ (l.shared = true → ∀ b ∈ x.bases, ∀ d ∈ x.bases, b = d) ∧
        (∀ b ∈ x.bases, ∀ d, d < b → d % l.window = 0 → d ∉ x.bases → ∃ w ∈ r.windows, overlap d l.window w.1 w.2 = true) ∧
        x.tiles.flatten.length = l.perCore * l.tiles ∧ x.tiles.flatten.Pairwise (· < ·) ∧
        ∀ y ∈ x.tiles.flatten, y < 4 ∧ y ∉ r.tiles ∧ ∀ z, z < y → z ∉ r.tiles → z ∈ x.tiles.flatten) ∧
      (∀ ds ∈ [0, 1, 2, 3].sublists, ds.length < dies.length → (open'.filter fun c => ds.contains (c / 64)).length < l.gang) ∧
      ∀ ds ∈ [0, 1, 2, 3].sublists, ds.length = dies.length → l.gang ≤ (open'.filter fun c => ds.contains (c / 64)).length →
        lexLess (seats.map Seat.core) ((open'.filter fun c => ds.contains (c / 64)).take l.gang) = true)) ∧
  (∀ (s : State) (i j : Nat),
    (j ∈ takeable s i ↔ ∃ c, (j, c) ∈ s.dev.conts ∧ j ≠ i ∧ c.halt = none ∧ evictable s j = true ∧
      (c.state = .parked ∨ c.state = .queued ∧ ((∃ x ∈ (s.cont i).reserved, x.1 = j) ∨ standsBefore (s.cont i) c = true))) ∧
    (j ∈ victims s i ↔ ∃ c, (j, c) ∈ s.dev.conts ∧ c.state = .running ∧ c.halt = none ∧ c.launch.priority < (s.cont i).effective ∧ evictable s j = true ∧
      (c.launch.priority < (s.cont i).launch.priority ∨ c.residentAge + 260000 ≤ s.refHalf)) ∧
    (Sparse.risingFrom none s.dev.conts = true → (victims s i).Pairwise fun a b => let x := s.cont a; let y := s.cont b
      x.launch.priority ≤ y.launch.priority ∧ (x.launch.priority = y.launch.priority → y.residentAge ≤ x.residentAge)) ∧
    ((∀ e ∈ s.dev.conts, e.2.halt ≠ some (.preempt i)) → Sparse.risingFrom none s.dev.conts = true → let fits := fun (n : Nat) =>
        (fitGang s i (s.cont i).launch (takeable s i ++ (victims s i).take n)).isSome = true
      (∀ n, 0 < n → n ≤ (victims s i).length → fits n → (∀ m, 0 < m → m < n → ¬ fits m) → ∃ t, preempt i s = some t ∧ t.ctxs = s.ctxs ∧
        ∀ v k, Sparse.find s.dev.conts v = some k → t.cont v =
          if v ∈ (victims s i).take n then { k with halt := some (.preempt i) } else if v = i then
            { k with reserved := k.reserved ++ (((victims s i).take n).map fun v => (s.cont v).seats.mapIdx fun m x =>
              (v, x.core, (s.cont v).roomAt true m x)).flatten } else k) ∧
      ((∀ n, 0 < n → n ≤ (victims s i).length → ¬ fits n) → preempt i s = none)) ∧
    ((∃ e ∈ s.dev.conts, e.2.halt = some (.preempt i)) → preempt i s = some s) ∧
    (savesReady s i = false → finishPlacing s i = s) ∧
    (savesReady s i = true ↔ (∀ x ∈ (s.cont i).seats, (s.core x.core).pause = 0) ∧ ∀ e ∈ savesDue s i, (s.core e.2.2.1.core).pause = 0 ∧
      hostBlocks s.store (((s.cont e.1).block + 0x400) / 64) false = false ∧
      ∀ x ∈ s.ctxs, x.2.cont = e.1 → x.2.work.memOps = [] ∧ x.2.work.delivers = [] ∧ releasing s x.2 = false) ∧
    (savesReady s i = true → let t := (saveAll i s).mapCont i fun c => { c with placing := none, leaving := [] }
      let u := grantSeats (t.cont i).seats t
      ((s.cont i).placing = some true → finishPlacing s i = writeState i (placeNew i (t.cont i).seats u)) ∧
      ((s.cont i).placing = some false → finishPlacing s i = writeState i u)) ∧
    (∀ k : Core, grantPlaced true k = { k with nextGrant := 8192 } ∧
      grantPlaced false k = { k with grant := 8192, nextGrant := 8192, stalled := false }) ∧
    ∀ seats k p x, let c := newCtx s i seats k p x
      c.rank = k * (s.cont i).launch.perCore + p ∧ c.pc = (s.cont i).launch.image + BitVec.ofNat 64 (s.cont i).launch.entry ∧
        c.started = false ∧ c.pts = topTimestamp s ∧ c.tiles = x.tiles.getD p [] ∧ c.base = x.bases.getD p 0)

/-- Power (R164, R232, R240, R242, R244, R246, R248 to R250, R255, R256, R258 to R260): a core whose target differs begins to settle, pauses for
four cycles and then runs the new clock; an energy window of 256 cycles closes with its excess deducted; a run of sixteen closes, a surcharge
decays; the leash scales to the budget of the die, its reserved share where the token is late; the token carries what the dies did not spend
in the microsecond just ended; a bark, which blanks its detector for the rest of the cycle and 64 cycles of the rail's clock, six of them
stretched, and its end; the idle states, entered once the tolerance has been loaded; a context that has issued for 4,096 cycles goes behind
the others. THE MODEL'S, by log entry: that idle entry waits until the host has given up the tolerance's line (7), the excess of a window in HEEL (38),
the 70 base cycles of a blanking (40), that the named event begins a changeover at the start of any cycle once settling has begun (41), that an idle
resume may come at any time (43), what starts the count of 4,096 again (42), and that a die's
demands are those of the cores that hold a context (103). -/
def Obligations.PowerEventsAct : Prop :=
  ∀ (s : State) (c h d q level : Nat) (run : Bool),
    let k := s.core c
    let e := (s.ctx h).energy
    let known := (Sparse.find s.ctxs h).isSome = true
    (k.settling = none → targetRun s c ≠ k.run → exec (.gearSettleStart c) s =
      .next (s.mapCore c fun k => { k with settling := some (targetRun s c), readying := 369 })) ∧
    (k.settling.isSome = true → k.pause = 0 → k.issued = false → k.cycleLeft = (if k.run then 2 else 5) * (if k.long then 2 else 1) →
      exec (.gearChangeover c) s = .next (s.mapCore c fun k => { k with pause := 5 })) ∧
    (∀ t, k.settling = some t → k.pause = 1 → k.barkOwed = false → exec (.changeoverEnd c) s =
      .next ((s.mapStore fun st => k.staging.foldl (fun st w => scratchPutBytes st c w.addr w.data) st).mapCore c fun k =>
        { k with run := t, settling := none, readying := 0, pause := 0, staging := [], cycleLeft := (if t then 2 else 5) * (if k.long then 2 else 1) })) ∧
    (256 ≤ k.windowCycle → (∀ e ∈ s.ctxs, e.1 / 4 = c → e.2.energy.windows < 16) → ∃ t, exec (.energyWindowRoll c) s = .next t ∧
      t.core c = { k with charges := (k.sum :: k.charges).take 4, sum := 0, stalled := false, windowCycle := k.windowCycle - 256,
                          grant := k.nextGrant - (if k.run then k.sum - k.grant else (3 * k.sum - 8 * k.grant) / 8) } ∧
      SameRegsAndMemory s t) ∧
    (k.pastGrant = true → s.coreHeld c = false → exec (.energyStall c) s = .next (s.mapCore c fun k => { k with stalled := true })) ∧
    (known → 16 ≤ e.windows → ∃ t, exec (.emisRunClose h) s = .next t ∧ (t.ctx h).energy.windows = 0 ∧
      (t.ctx h).regs.emis = (s.ctx h).regs.emis + (if 8 * e.declared < 7 * e.measured then 1 else 0) ∧
      (t.ctx h).energy.step = (if 8 * e.declared < 7 * e.measured then min 3 (e.step + 1) else e.step)) ∧
    (known → 64 ≤ e.quiet → e.windows < 16 →
      exec (.surchargeDecay h) s = .next (s.mapCtx h fun c => { c with energy := { e with step := e.step - 1, quiet := 0 } })) ∧
    (d < 4 → (s.die d).leashAge + 2600 ≤ s.refHalf → ∃ t, exec (.leashRecompute d) s = .next t ∧ t.ctxs = s.ctxs ∧ t.store = s.store ∧
      ∀ j x, Sparse.find s.cores j = some x → t.core j = if j / 64 = d then
        { x with nextGrant := if (busyCores s d).contains j = true then scaledGrant (s.budgetNow d) (dieDemand s d) x.demand else 0 } else x) ∧
    (s.budgetNow d = if s.refHalf < s.dev.tokenAge + 2600 then (s.die d).budget else s.dev.record.shares.getD d 0) ∧
    (s.dev.tokenAge + 2600 ≤ s.refHalf → exec .tokenRing s =
      .next (([0, 1, 2, 3].foldl dieToken (0, s)).2.mapDev fun d => { d with tokenAge := s.refHalf / 2600 * 2600 })) ∧
    (∀ n, let share := s.dev.record.shares.getD d 0
      let left := n + (share - (s.die d).last)
      let take := min left (dieDemand s d - share)
      dieToken (n, s) d = (left - take, s.mapDie d fun x => { x with budget := share + take })) ∧
    (d < 4 → q < 4 → blanked s d q run = false → exec (.bark d q run) s = .next (raiseBark d q run s)) ∧
    (d < 4 → q < 4 → blanked s d q run = true → exec (.bark d q run) s = .next s) ∧
    (blanked s d q run = true ↔ 1 < Sparse.get 0 s.dev.blank (detector d q run)) ∧
    (let blank := Sparse.get 0 (raiseBark d q run s).dev.blank (detector d q run)
     (if run then 140 else 350) < blank ∧ ∀ j < 16, let x := s.core (64 * d + 16 * q + j)
        x.run = run → x.gated = false → x.cycleLeft + (if run then 140 else 350) < blank) ∧
    (k.pause = 0 → Core.takeBark false k = { k with stretch := 6, halve := 65, barkOwed := false }) ∧
    (k.halve = 1 → Sparse.get 0 s.dev.blank (detector (c / 64) (c % 64 / 16) k.run) ≠ 1 →
      exec (.barkEnd c) s = .next (s.mapCore c fun k => { k with halve := 0 })) ∧
    (let line := (s.dev.dcb + 0x28) / 64
     s.dev.idle = 0 → level ≠ 0 → packageIdle s = true →
      (5200 ≤ s.dev.idleAge → hostKeeps s [line] ≠ [] → exec (.idleEntry level) s = .next (askLines (hostKeeps s [line]) s)) ∧
      (hostKeeps s [line] = [] → level = deepestIdle s → 2600 * resumeTime level ≤ s.dev.idleAge → let r := readLines [line] s
        ∃ t, exec (.idleEntry level) s = .next t ∧ t.dev.idle = level ∧ (∀ j < 256, (t.core j).gated = true) ∧ t.ctxs = r.ctxs ∧
          t.store = r.store)) ∧
    (s.dev.idle ≠ 0 → ∃ t, exec .idleResume s = .next t ∧ t.dev.idle = 0 ∧ (∀ j x, Sparse.find s.cores j = some x → (t.core j).gated = false) ∧
      t.ctxs = s.ctxs ∧ t.store = s.store) ∧
    (4096 ≤ (s.ctx h).runCycles → known → s.coreHeld (h / 4) = false → exec (.issueRotation h) s = .next (goBehind h s))
end

