-- ==== Sys2Proof/Laws/Encoding.lean ====
section
/-! SUPPORT. The fields of every word layout, read back: what the decoder sees of an encoded word. -/

set_option linter.unusedSimpArgs false

namespace Sys2Proof.Laws

/-- The number of two bit vectors side by side. -/
theorem toNat_app {n m : Nat} (x : BitVec n) (y : BitVec m) : (x ++ y).toNat = x.toNat * 2 ^ m + y.toNat := by
  rw [BitVec.toNat_append, ← Nat.shiftLeft_add_eq_or_of_lt y.isLt, Nat.shiftLeft_eq]

/-- The number of a field of a word. -/
theorem fld_toNat (w : W32) (lo n : Nat) : (fld w lo n).toNat = w.toNat / 2 ^ lo % 2 ^ n := by
  simp [fld, BitVec.extractLsb'_toNat, Nat.shiftRight_eq_div_pow]

/-- A field is known by its number. -/
theorem fld_eq {w : W32} {lo n : Nat} {x : BitVec n} (h : w.toNat / 2 ^ lo % 2 ^ n = x.toNat) : fld w lo n = x :=
  BitVec.eq_of_toNat_eq ((fld_toNat w lo n).trans h)

/-- A field inside a field. -/
theorem fld_sub (w : W32) (lo n k m : Nat) (h : k + m ≤ n) : fld w (lo + k) m = (fld w lo n).extractLsb' k m := by
  apply BitVec.eq_of_getLsbD_eq
  intro i hi
  simp [BitVec.getLsbD_extractLsb', hi, Nat.add_assoc]
  omega

/-- The word of `pbar` with a gear code (R191). -/
def pbarWord (l : Reg2) (c : BitVec 2) (x : Bool) : W32 := (0x05 : BitVec 6) ++ l ++ c ++ bit x ++ (0 : BitVec 21)

theorem bit_eq (b : Bool) : (bit b == 1) = b := by cases b <;> rfl

theorem encA_toNat (op d a b : BitVec 6) (fn : BitVec 8) :
    (encA op d a b fn).toNat = op.toNat * 2 ^ 26 + d.toNat * 2 ^ 20 + a.toNat * 2 ^ 14 + b.toNat * 2 ^ 8 + fn.toNat := by
  unfold encA
  refine (toNat_app (((op ++ d) ++ a) ++ b) fn).trans ?_
  simp only [toNat_app, BitVec.ofNat_eq_ofNat, BitVec.toNat_ofNat]
  omega

/-- The fields of format A. -/
theorem encA_fields (op d a b : BitVec 6) (fn : BitVec 8) :
    fld (encA op d a b fn) 26 6 = op ∧
      fld (encA op d a b fn) 20 6 = d ∧
      fld (encA op d a b fn) 14 6 = a ∧
      fld (encA op d a b fn) 8 6 = b ∧
      fld (encA op d a b fn) 0 8 = fn := by
  have h := encA_toNat op d a b fn
  have := op.isLt; have := d.isLt; have := a.isLt; have := b.isLt; have := fn.isLt
  refine ⟨?_, ?_, ?_, ?_, ?_⟩ <;> (apply fld_eq; simp only [h, BitVec.ofNat_eq_ofNat, BitVec.toNat_ofNat, Nat.reducePow, Nat.reduceMod]; omega)

theorem encI_toNat (op d a : BitVec 6) (i : BitVec 14) :
    (encI op d a i).toNat = op.toNat * 2 ^ 26 + d.toNat * 2 ^ 20 + a.toNat * 2 ^ 14 + i.toNat := by
  unfold encI
  refine (toNat_app ((op ++ d) ++ a) i).trans ?_
  simp only [toNat_app, BitVec.ofNat_eq_ofNat, BitVec.toNat_ofNat]
  omega

/-- The fields of format I. -/
theorem encI_fields (op d a : BitVec 6) (i : BitVec 14) :
    fld (encI op d a i) 26 6 = op ∧
      fld (encI op d a i) 20 6 = d ∧
      fld (encI op d a i) 14 6 = a ∧
      fld (encI op d a i) 0 14 = i := by
  have h := encI_toNat op d a i
  have := op.isLt; have := d.isLt; have := a.isLt; have := i.isLt
  refine ⟨?_, ?_, ?_, ?_⟩ <;> (apply fld_eq; simp only [h, BitVec.ofNat_eq_ofNat, BitVec.toNat_ofNat, Nat.reducePow, Nat.reduceMod]; omega)

theorem encL_toNat (op d : BitVec 6) (i : BitVec 20) :
    (encL op d i).toNat = op.toNat * 2 ^ 26 + d.toNat * 2 ^ 20 + i.toNat := by
  unfold encL
  refine (toNat_app (op ++ d) i).trans ?_
  simp only [toNat_app, BitVec.ofNat_eq_ofNat, BitVec.toNat_ofNat]
  omega

/-- The fields of format L. -/
theorem encL_fields (op d : BitVec 6) (i : BitVec 20) :
    fld (encL op d i) 26 6 = op ∧
      fld (encL op d i) 20 6 = d ∧
      fld (encL op d i) 0 20 = i := by
  have h := encL_toNat op d i
  have := op.isLt; have := d.isLt; have := i.isLt
  refine ⟨?_, ?_, ?_⟩ <;> (apply fld_eq; simp only [h, BitVec.ofNat_eq_ofNat, BitVec.toNat_ofNat, Nat.reducePow, Nat.reduceMod]; omega)

theorem encB_toNat (op : BitVec 6) (f : BitVec 4) (o : BitVec 22) :
    (encB op f o).toNat = op.toNat * 2 ^ 26 + f.toNat * 2 ^ 22 + o.toNat := by
  unfold encB
  refine (toNat_app (op ++ f) o).trans ?_
  simp only [toNat_app, BitVec.ofNat_eq_ofNat, BitVec.toNat_ofNat]
  omega

/-- The fields of format B. -/
theorem encB_fields (op : BitVec 6) (f : BitVec 4) (o : BitVec 22) :
    fld (encB op f o) 26 6 = op ∧
      fld (encB op f o) 22 4 = f ∧
      fld (encB op f o) 0 22 = o := by
  have h := encB_toNat op f o
  have := op.isLt; have := f.isLt; have := o.isLt
  refine ⟨?_, ?_, ?_⟩ <;> (apply fld_eq; simp only [h, BitVec.ofNat_eq_ofNat, BitVec.toNat_ofNat, Nat.reducePow, Nat.reduceMod]; omega)

theorem encM_toNat (op d a : BitVec 6) (z : Bool) (o : BitVec 11) (p : Policy) :
    (encM op d a z o p).toNat = op.toNat * 2 ^ 26 + d.toNat * 2 ^ 20 + a.toNat * 2 ^ 14 + (bit z).toNat * 2 ^ 13 + o.toNat * 2 ^ 2 + (policyCode p).toNat := by
  unfold encM
  refine (toNat_app ((((op ++ d) ++ a) ++ (bit z)) ++ o) (policyCode p)).trans ?_
  simp only [toNat_app, BitVec.ofNat_eq_ofNat, BitVec.toNat_ofNat]
  omega

/-- The fields of format M. -/
theorem encM_fields (op d a : BitVec 6) (z : Bool) (o : BitVec 11) (p : Policy) :
    fld (encM op d a z o p) 26 6 = op ∧
      fld (encM op d a z o p) 20 6 = d ∧
      fld (encM op d a z o p) 14 6 = a ∧
      fld (encM op d a z o p) 13 1 = bit z ∧
      fld (encM op d a z o p) 2 11 = o ∧
      fld (encM op d a z o p) 0 2 = policyCode p := by
  have h := encM_toNat op d a z o p
  have := op.isLt; have := d.isLt; have := a.isLt; have := (bit z).isLt; have := o.isLt; have := (policyCode p).isLt
  refine ⟨?_, ?_, ?_, ?_, ?_, ?_⟩ <;> (apply fld_eq; simp only [h, BitVec.ofNat_eq_ofNat, BitVec.toNat_ofNat, Nat.reducePow, Nat.reduceMod]; omega)

theorem encV_toNat (op d a b : BitVec 6) (m : Reg3) (q : Bool) (t : ElemType) :
    (encV op d a b m q t).toNat = op.toNat * 2 ^ 26 + d.toNat * 2 ^ 20 + a.toNat * 2 ^ 14 + b.toNat * 2 ^ 8 + m.toNat * 2 ^ 5 + (bit q).toNat * 2 ^ 4 + (elemTypeCode t).toNat := by
  unfold encV
  refine (toNat_app (((((op ++ d) ++ a) ++ b) ++ m) ++ (bit q)) (elemTypeCode t)).trans ?_
  simp only [toNat_app, BitVec.ofNat_eq_ofNat, BitVec.toNat_ofNat]
  omega

/-- The fields of format V. -/
theorem encV_fields (op d a b : BitVec 6) (m : Reg3) (q : Bool) (t : ElemType) :
    fld (encV op d a b m q t) 26 6 = op ∧
      fld (encV op d a b m q t) 20 6 = d ∧
      fld (encV op d a b m q t) 14 6 = a ∧
      fld (encV op d a b m q t) 8 6 = b ∧
      fld (encV op d a b m q t) 5 3 = m ∧
      fld (encV op d a b m q t) 4 1 = bit q ∧
      fld (encV op d a b m q t) 0 4 = elemTypeCode t := by
  have h := encV_toNat op d a b m q t
  have := op.isLt; have := d.isLt; have := a.isLt; have := b.isLt; have := m.isLt; have := (bit q).isLt; have := (elemTypeCode t).isLt
  refine ⟨?_, ?_, ?_, ?_, ?_, ?_, ?_⟩ <;> (apply fld_eq; simp only [h, BitVec.ofNat_eq_ofNat, BitVec.toNat_ofNat, Nat.reducePow, Nat.reduceMod]; omega)

theorem encVm_toNat (op d a : BitVec 6) (o : BitVec 9) (m : Reg3) (x : BitVec 2) :
    (encVm op d a o m x).toNat = op.toNat * 2 ^ 26 + d.toNat * 2 ^ 20 + a.toNat * 2 ^ 14 + o.toNat * 2 ^ 5 + m.toNat * 2 ^ 2 + x.toNat := by
  unfold encVm
  refine (toNat_app ((((op ++ d) ++ a) ++ o) ++ m) x).trans ?_
  simp only [toNat_app, BitVec.ofNat_eq_ofNat, BitVec.toNat_ofNat]
  omega

/-- The fields of format VM. -/
theorem encVm_fields (op d a : BitVec 6) (o : BitVec 9) (m : Reg3) (x : BitVec 2) :
    fld (encVm op d a o m x) 26 6 = op ∧
      fld (encVm op d a o m x) 20 6 = d ∧
      fld (encVm op d a o m x) 14 6 = a ∧
      fld (encVm op d a o m x) 5 9 = o ∧
      fld (encVm op d a o m x) 2 3 = m ∧
      fld (encVm op d a o m x) 0 2 = x := by
  have h := encVm_toNat op d a o m x
  have := op.isLt; have := d.isLt; have := a.isLt; have := o.isLt; have := m.isLt; have := x.isLt
  refine ⟨?_, ?_, ?_, ?_, ?_, ?_⟩ <;> (apply fld_eq; simp only [h, BitVec.ofNat_eq_ofNat, BitVec.toNat_ofNat, Nat.reducePow, Nat.reduceMod]; omega)

theorem encAlu_toNat (d a b : BitVec 6) (w : Bool) (fn : BitVec 7) :
    (encAlu d a b w fn).toNat = (1 : BitVec 6).toNat * 2 ^ 26 + d.toNat * 2 ^ 20 + a.toNat * 2 ^ 14 + b.toNat * 2 ^ 8 + (bit w).toNat * 2 ^ 7 + fn.toNat := by
  unfold encAlu
  refine (toNat_app (((((1 : BitVec 6) ++ d) ++ a) ++ b) ++ (bit w)) fn).trans ?_
  simp only [toNat_app, BitVec.ofNat_eq_ofNat, BitVec.toNat_ofNat]
  omega

/-- The fields of the `alu` group. -/
theorem encAlu_fields (d a b : BitVec 6) (w : Bool) (fn : BitVec 7) :
    fld (encAlu d a b w fn) 26 6 = (1 : BitVec 6) ∧
      fld (encAlu d a b w fn) 20 6 = d ∧
      fld (encAlu d a b w fn) 14 6 = a ∧
      fld (encAlu d a b w fn) 8 6 = b ∧
      fld (encAlu d a b w fn) 7 1 = bit w ∧
      fld (encAlu d a b w fn) 0 7 = fn := by
  have h := encAlu_toNat d a b w fn
  have := d.isLt; have := a.isLt; have := b.isLt; have := (bit w).isLt; have := fn.isLt
  refine ⟨?_, ?_, ?_, ?_, ?_, ?_⟩ <;> (apply fld_eq; simp only [h, BitVec.ofNat_eq_ofNat, BitVec.toNat_ofNat, Nat.reducePow, Nat.reduceMod]; omega)

theorem encE_toNat (op a b c : BitVec 6) (x : BitVec 8) :
    (encE op a b c x).toNat = op.toNat * 2 ^ 26 + a.toNat * 2 ^ 20 + b.toNat * 2 ^ 14 + c.toNat * 2 ^ 8 + x.toNat := by
  unfold encE
  refine (toNat_app (((op ++ a) ++ b) ++ c) x).trans ?_
  simp only [toNat_app, BitVec.ofNat_eq_ofNat, BitVec.toNat_ofNat]
  omega

/-- The fields of an engine word. -/
theorem encE_fields (op a b c : BitVec 6) (x : BitVec 8) :
    fld (encE op a b c x) 26 6 = op ∧
      fld (encE op a b c x) 20 6 = a ∧
      fld (encE op a b c x) 14 6 = b ∧
      fld (encE op a b c x) 8 6 = c ∧
      fld (encE op a b c x) 0 8 = x := by
  have h := encE_toNat op a b c x
  have := op.isLt; have := a.isLt; have := b.isLt; have := c.isLt; have := x.isLt
  refine ⟨?_, ?_, ?_, ?_, ?_⟩ <;> (apply fld_eq; simp only [h, BitVec.ofNat_eq_ofNat, BitVec.toNat_ofNat, Nat.reducePow, Nat.reduceMod]; omega)

theorem encT_toNat (op : BitVec 6) (t : Reg2) (g : Reg) (n : Reg4) (x : BitVec 3) (r : BitVec 2) (s : Bool) :
    (encT op t g n x r s).toNat = op.toNat * 2 ^ 26 + t.toNat * 2 ^ 24 + g.toNat * 2 ^ 18 + n.toNat * 2 ^ 14 + x.toNat * 2 ^ 11 + r.toNat * 2 ^ 9 + (bit s).toNat * 2 ^ 8 := by
  unfold encT
  refine (toNat_app ((((((op ++ t) ++ g) ++ n) ++ x) ++ r) ++ (bit s)) (0 : BitVec 8)).trans ?_
  simp only [toNat_app, BitVec.ofNat_eq_ofNat, BitVec.toNat_ofNat]
  omega

/-- The fields of a tile operation. -/
theorem encT_fields (op : BitVec 6) (t : Reg2) (g : Reg) (n : Reg4) (x : BitVec 3) (r : BitVec 2) (s : Bool) :
    fld (encT op t g n x r s) 26 6 = op ∧
      fld (encT op t g n x r s) 24 2 = t ∧
      fld (encT op t g n x r s) 18 6 = g ∧
      fld (encT op t g n x r s) 14 4 = n ∧
      fld (encT op t g n x r s) 11 3 = x ∧
      fld (encT op t g n x r s) 9 2 = r ∧
      fld (encT op t g n x r s) 8 1 = bit s ∧
      fld (encT op t g n x r s) 0 8 = (0 : BitVec 8) := by
  have h := encT_toNat op t g n x r s
  have := op.isLt; have := t.isLt; have := g.isLt; have := n.isLt; have := x.isLt; have := r.isLt; have := (bit s).isLt
  refine ⟨?_, ?_, ?_, ?_, ?_, ?_, ?_, ?_⟩ <;> (apply fld_eq; simp only [h, BitVec.ofNat_eq_ofNat, BitVec.toNat_ofNat, Nat.reducePow, Nat.reduceMod]; omega)

theorem encAt_toNat (op d a b c : BitVec 6) (w s : Bool) :
    (encAt op d a b c w s).toNat = op.toNat * 2 ^ 26 + d.toNat * 2 ^ 20 + a.toNat * 2 ^ 14 + b.toNat * 2 ^ 8 + c.toNat * 2 ^ 2 + (bit w).toNat * 2 ^ 1 + (bit s).toNat := by
  unfold encAt
  refine (toNat_app (((((op ++ d) ++ a) ++ b) ++ c) ++ (bit w)) (bit s)).trans ?_
  simp only [toNat_app, BitVec.ofNat_eq_ofNat, BitVec.toNat_ofNat]
  omega

/-- The fields of an atomic. -/
theorem encAt_fields (op d a b c : BitVec 6) (w s : Bool) :
    fld (encAt op d a b c w s) 26 6 = op ∧
      fld (encAt op d a b c w s) 20 6 = d ∧
      fld (encAt op d a b c w s) 14 6 = a ∧
      fld (encAt op d a b c w s) 8 6 = b ∧
      fld (encAt op d a b c w s) 2 6 = c ∧
      fld (encAt op d a b c w s) 1 1 = bit w ∧
      fld (encAt op d a b c w s) 0 1 = bit s := by
  have h := encAt_toNat op d a b c w s
  have := op.isLt; have := d.isLt; have := a.isLt; have := b.isLt; have := c.isLt; have := (bit w).isLt; have := (bit s).isLt
  refine ⟨?_, ?_, ?_, ?_, ?_, ?_, ?_⟩ <;> (apply fld_eq; simp only [h, BitVec.ofNat_eq_ofNat, BitVec.toNat_ofNat, Nat.reducePow, Nat.reduceMod]; omega)

theorem wait_toNat (l s c t : BitVec 4) :
    (encode (.wait l s c t)).toNat = (23 : BitVec 6).toNat * 2 ^ 26 + l.toNat * 2 ^ 22 + s.toNat * 2 ^ 18 + c.toNat * 2 ^ 14 + t.toNat * 2 ^ 10 := by
  unfold encode
  refine (toNat_app (((((23 : BitVec 6) ++ l) ++ s) ++ c) ++ t) (0 : BitVec 10)).trans ?_
  simp only [toNat_app, BitVec.ofNat_eq_ofNat, BitVec.toNat_ofNat]
  omega

/-- The fields of `wait`. -/
theorem wait_fields (l s c t : BitVec 4) :
    fld (encode (.wait l s c t)) 26 6 = (23 : BitVec 6) ∧
      fld (encode (.wait l s c t)) 22 4 = l ∧
      fld (encode (.wait l s c t)) 18 4 = s ∧
      fld (encode (.wait l s c t)) 14 4 = c ∧
      fld (encode (.wait l s c t)) 10 4 = t ∧
      fld (encode (.wait l s c t)) 0 10 = (0 : BitVec 10) := by
  have h := wait_toNat l s c t
  have := l.isLt; have := s.isLt; have := c.isLt; have := t.isLt
  refine ⟨?_, ?_, ?_, ?_, ?_, ?_⟩ <;> (apply fld_eq; simp only [h, BitVec.ofNat_eq_ofNat, BitVec.toNat_ofNat, Nat.reducePow, Nat.reduceMod]; omega)

theorem gear_toNat (g w : Bool) :
    (encode (.gear g w)).toNat = (25 : BitVec 6).toNat * 2 ^ 26 + (bit g).toNat * 2 ^ 25 + (bit w).toNat * 2 ^ 24 := by
  unfold encode
  refine (toNat_app (((25 : BitVec 6) ++ (bit g)) ++ (bit w)) (0 : BitVec 24)).trans ?_
  simp only [toNat_app, BitVec.ofNat_eq_ofNat, BitVec.toNat_ofNat]
  omega

/-- The fields of `gear`. -/
theorem gear_fields (g w : Bool) :
    fld (encode (.gear g w)) 26 6 = (25 : BitVec 6) ∧
      fld (encode (.gear g w)) 25 1 = bit g ∧
      fld (encode (.gear g w)) 24 1 = bit w ∧
      fld (encode (.gear g w)) 0 24 = (0 : BitVec 24) := by
  have h := gear_toNat g w
  have := (bit g).isLt; have := (bit w).isLt
  refine ⟨?_, ?_, ?_, ?_⟩ <;> (apply fld_eq; simp only [h, BitVec.ofNat_eq_ofNat, BitVec.toNat_ofNat, Nat.reducePow, Nat.reduceMod]; omega)

theorem phase_toNat (o : BitVec 12) (i : BitVec 4) (e : BitVec 3) (m : BitVec 7) :
    (encode (.phase o i e m)).toNat = (26 : BitVec 6).toNat * 2 ^ 26 + o.toNat * 2 ^ 14 + i.toNat * 2 ^ 10 + e.toNat * 2 ^ 7 + m.toNat := by
  unfold encode
  refine (toNat_app ((((26 : BitVec 6) ++ o) ++ i) ++ e) m).trans ?_
  simp only [toNat_app, BitVec.ofNat_eq_ofNat, BitVec.toNat_ofNat]
  omega

/-- The fields of `phase`. -/
theorem phase_fields (o : BitVec 12) (i : BitVec 4) (e : BitVec 3) (m : BitVec 7) :
    fld (encode (.phase o i e m)) 26 6 = (26 : BitVec 6) ∧
      fld (encode (.phase o i e m)) 14 12 = o ∧
      fld (encode (.phase o i e m)) 10 4 = i ∧
      fld (encode (.phase o i e m)) 7 3 = e ∧
      fld (encode (.phase o i e m)) 0 7 = m := by
  have h := phase_toNat o i e m
  have := o.isLt; have := i.isLt; have := e.isLt; have := m.isLt
  refine ⟨?_, ?_, ?_, ?_, ?_⟩ <;> (apply fld_eq; simp only [h, BitVec.ofNat_eq_ofNat, BitVec.toNat_ofNat, Nat.reducePow, Nat.reduceMod]; omega)

theorem hold_toNat (a b c d : BitVec 5) (n : BitVec 4) :
    (encode (.hold a b c d n)).toNat = (12 : BitVec 6).toNat * 2 ^ 26 + a.toNat * 2 ^ 21 + b.toNat * 2 ^ 16 + c.toNat * 2 ^ 11 + d.toNat * 2 ^ 6 + n.toNat * 2 ^ 2 := by
  unfold encode
  refine (toNat_app ((((((12 : BitVec 6) ++ a) ++ b) ++ c) ++ d) ++ n) (0 : BitVec 2)).trans ?_
  simp only [toNat_app, BitVec.ofNat_eq_ofNat, BitVec.toNat_ofNat]
  omega

/-- The fields of `hold`. -/
theorem hold_fields (a b c d : BitVec 5) (n : BitVec 4) :
    fld (encode (.hold a b c d n)) 26 6 = (12 : BitVec 6) ∧
      fld (encode (.hold a b c d n)) 21 5 = a ∧
      fld (encode (.hold a b c d n)) 16 5 = b ∧
      fld (encode (.hold a b c d n)) 11 5 = c ∧
      fld (encode (.hold a b c d n)) 6 5 = d ∧
      fld (encode (.hold a b c d n)) 2 4 = n ∧
      fld (encode (.hold a b c d n)) 0 2 = (0 : BitVec 2) := by
  have h := hold_toNat a b c d n
  have := a.isLt; have := b.isLt; have := c.isLt; have := d.isLt; have := n.isLt
  refine ⟨?_, ?_, ?_, ?_, ?_, ?_, ?_⟩ <;> (apply fld_eq; simp only [h, BitVec.ofNat_eq_ofNat, BitVec.toNat_ofNat, Nat.reducePow, Nat.reduceMod]; omega)

theorem mma_toNat (t : Reg2) (a b : Reg3) (x y : MatType) (z s : Bool) :
    (encode (.mma t a b x y z s)).toNat = (1 : BitVec 6).toNat * 2 ^ 26 + t.toNat * 2 ^ 24 + a.toNat * 2 ^ 21 + b.toNat * 2 ^ 18 + (matTypeCode x).toNat * 2 ^ 15 + (matTypeCode y).toNat * 2 ^ 12 + (bit z).toNat * 2 ^ 9 + (bit s).toNat * 2 ^ 8 := by
  unfold encode
  refine (toNat_app (((((((((1 : BitVec 6) ++ t) ++ a) ++ b) ++ (matTypeCode x)) ++ (matTypeCode y)) ++ (0 : BitVec 2)) ++ (bit z)) ++ (bit s)) (0 : BitVec 8)).trans ?_
  simp only [toNat_app, BitVec.ofNat_eq_ofNat, BitVec.toNat_ofNat]
  omega

/-- The fields of `mma`. -/
theorem mma_fields (t : Reg2) (a b : Reg3) (x y : MatType) (z s : Bool) :
    fld (encode (.mma t a b x y z s)) 26 6 = (1 : BitVec 6) ∧
      fld (encode (.mma t a b x y z s)) 24 2 = t ∧
      fld (encode (.mma t a b x y z s)) 21 3 = a ∧
      fld (encode (.mma t a b x y z s)) 18 3 = b ∧
      fld (encode (.mma t a b x y z s)) 15 3 = matTypeCode x ∧
      fld (encode (.mma t a b x y z s)) 12 3 = matTypeCode y ∧
      fld (encode (.mma t a b x y z s)) 10 2 = (0 : BitVec 2) ∧
      fld (encode (.mma t a b x y z s)) 9 1 = bit z ∧
      fld (encode (.mma t a b x y z s)) 8 1 = bit s ∧
      fld (encode (.mma t a b x y z s)) 0 8 = (0 : BitVec 8) := by
  have h := mma_toNat t a b x y z s
  have := t.isLt; have := a.isLt; have := b.isLt; have := (matTypeCode x).isLt; have := (matTypeCode y).isLt; have := (bit z).isLt; have := (bit s).isLt
  refine ⟨?_, ?_, ?_, ?_, ?_, ?_, ?_, ?_, ?_, ?_⟩ <;> (apply fld_eq; simp only [h, BitVec.ofNat_eq_ofNat, BitVec.toNat_ofNat, Nat.reducePow, Nat.reduceMod]; omega)

theorem rdef_toNat (n : Reg3) (a b : Reg) :
    (encode (.rdef n a b)).toNat = (6 : BitVec 6).toNat * 2 ^ 26 + n.toNat * 2 ^ 23 + a.toNat * 2 ^ 17 + b.toNat * 2 ^ 11 := by
  unfold encode
  refine (toNat_app ((((6 : BitVec 6) ++ n) ++ a) ++ b) (0 : BitVec 11)).trans ?_
  simp only [toNat_app, BitVec.ofNat_eq_ofNat, BitVec.toNat_ofNat]
  omega

/-- The fields of `rdef`. -/
theorem rdef_fields (n : Reg3) (a b : Reg) :
    fld (encode (.rdef n a b)) 26 6 = (6 : BitVec 6) ∧
      fld (encode (.rdef n a b)) 23 3 = n ∧
      fld (encode (.rdef n a b)) 17 6 = a ∧
      fld (encode (.rdef n a b)) 11 6 = b ∧
      fld (encode (.rdef n a b)) 0 11 = (0 : BitVec 11) := by
  have h := rdef_toNat n a b
  have := n.isLt; have := a.isLt; have := b.isLt
  refine ⟨?_, ?_, ?_, ?_, ?_⟩ <;> (apply fld_eq; simp only [h, BitVec.ofNat_eq_ofNat, BitVec.toNat_ofNat, Nat.reducePow, Nat.reduceMod]; omega)

theorem rpush_toNat (n : Reg3) (c : BitVec 8) :
    (encode (.rpush n c)).toNat = (7 : BitVec 6).toNat * 2 ^ 26 + n.toNat * 2 ^ 23 + c.toNat * 2 ^ 15 := by
  unfold encode
  refine (toNat_app (((7 : BitVec 6) ++ n) ++ c) (0 : BitVec 15)).trans ?_
  simp only [toNat_app, BitVec.ofNat_eq_ofNat, BitVec.toNat_ofNat]
  omega

/-- The fields of `rpush`. -/
theorem rpush_fields (n : Reg3) (c : BitVec 8) :
    fld (encode (.rpush n c)) 26 6 = (7 : BitVec 6) ∧
      fld (encode (.rpush n c)) 23 3 = n ∧
      fld (encode (.rpush n c)) 15 8 = c ∧
      fld (encode (.rpush n c)) 0 15 = (0 : BitVec 15) := by
  have h := rpush_toNat n c
  have := n.isLt; have := c.isLt
  refine ⟨?_, ?_, ?_, ?_⟩ <;> (apply fld_eq; simp only [h, BitVec.ofNat_eq_ofNat, BitVec.toNat_ofNat, Nat.reducePow, Nat.reduceMod]; omega)

theorem rstat_toNat (n : Reg3) (d : Reg) :
    (encode (.rstat n d)).toNat = (8 : BitVec 6).toNat * 2 ^ 26 + n.toNat * 2 ^ 23 + d.toNat * 2 ^ 17 := by
  unfold encode
  refine (toNat_app (((8 : BitVec 6) ++ n) ++ d) (0 : BitVec 17)).trans ?_
  simp only [toNat_app, BitVec.ofNat_eq_ofNat, BitVec.toNat_ofNat]
  omega

/-- The fields of `rstat`. -/
theorem rstat_fields (n : Reg3) (d : Reg) :
    fld (encode (.rstat n d)) 26 6 = (8 : BitVec 6) ∧
      fld (encode (.rstat n d)) 23 3 = n ∧
      fld (encode (.rstat n d)) 17 6 = d ∧
      fld (encode (.rstat n d)) 0 17 = (0 : BitVec 17) := by
  have h := rstat_toNat n d
  have := n.isLt; have := d.isLt
  refine ⟨?_, ?_, ?_, ?_⟩ <;> (apply fld_eq; simp only [h, BitVec.ofNat_eq_ofNat, BitVec.toNat_ofNat, Nat.reducePow, Nat.reduceMod]; omega)

theorem scl_toNat (s : Bool) (a : Reg) :
    (encode (.scl s a)).toNat = (9 : BitVec 6).toNat * 2 ^ 26 + (bit s).toNat * 2 ^ 25 + a.toNat * 2 ^ 19 := by
  unfold encode
  refine (toNat_app (((9 : BitVec 6) ++ (bit s)) ++ a) (0 : BitVec 19)).trans ?_
  simp only [toNat_app, BitVec.ofNat_eq_ofNat, BitVec.toNat_ofNat]
  omega

/-- The fields of `scl`. -/
theorem scl_fields (s : Bool) (a : Reg) :
    fld (encode (.scl s a)) 26 6 = (9 : BitVec 6) ∧
      fld (encode (.scl s a)) 25 1 = bit s ∧
      fld (encode (.scl s a)) 19 6 = a ∧
      fld (encode (.scl s a)) 0 19 = (0 : BitVec 19) := by
  have h := scl_toNat s a
  have := (bit s).isLt; have := a.isLt
  refine ⟨?_, ?_, ?_, ?_⟩ <;> (apply fld_eq; simp only [h, BitVec.ofNat_eq_ofNat, BitVec.toNat_ofNat, Nat.reducePow, Nat.reduceMod]; omega)

theorem copy_toNat (s d : Reg) (w v : Reg4) (b : Reg) :
    (encode (.copy s d w v b)).toNat = (1 : BitVec 6).toNat * 2 ^ 26 + s.toNat * 2 ^ 20 + d.toNat * 2 ^ 14 + w.toNat * 2 ^ 10 + v.toNat * 2 ^ 6 + b.toNat := by
  unfold encode
  refine (toNat_app (((((1 : BitVec 6) ++ s) ++ d) ++ w) ++ v) b).trans ?_
  simp only [toNat_app, BitVec.ofNat_eq_ofNat, BitVec.toNat_ofNat]
  omega

/-- The fields of `copy`. -/
theorem copy_fields (s d : Reg) (w v : Reg4) (b : Reg) :
    fld (encode (.copy s d w v b)) 26 6 = (1 : BitVec 6) ∧
      fld (encode (.copy s d w v b)) 20 6 = s ∧
      fld (encode (.copy s d w v b)) 14 6 = d ∧
      fld (encode (.copy s d w v b)) 10 4 = w ∧
      fld (encode (.copy s d w v b)) 6 4 = v ∧
      fld (encode (.copy s d w v b)) 0 6 = b := by
  have h := copy_toNat s d w v b
  have := s.isLt; have := d.isLt; have := w.isLt; have := v.isLt; have := b.isLt
  refine ⟨?_, ?_, ?_, ?_, ?_, ?_⟩ <;> (apply fld_eq; simp only [h, BitVec.ofNat_eq_ofNat, BitVec.toNat_ofNat, Nat.reducePow, Nat.reduceMod]; omega)

theorem barv_toNat (a b : Reg) (r : Bool) :
    (encode (.barv a b r)).toNat = (3 : BitVec 6).toNat * 2 ^ 26 + a.toNat * 2 ^ 20 + b.toNat * 2 ^ 14 + (bit r).toNat * 2 ^ 13 := by
  unfold encode
  refine (toNat_app ((((3 : BitVec 6) ++ a) ++ b) ++ (bit r)) (0 : BitVec 13)).trans ?_
  simp only [toNat_app, BitVec.ofNat_eq_ofNat, BitVec.toNat_ofNat]
  omega

/-- The fields of `barv`. -/
theorem barv_fields (a b : Reg) (r : Bool) :
    fld (encode (.barv a b r)) 26 6 = (3 : BitVec 6) ∧
      fld (encode (.barv a b r)) 20 6 = a ∧
      fld (encode (.barv a b r)) 14 6 = b ∧
      fld (encode (.barv a b r)) 13 1 = bit r ∧
      fld (encode (.barv a b r)) 0 13 = (0 : BitVec 13) := by
  have h := barv_toNat a b r
  have := a.isLt; have := b.isLt; have := (bit r).isLt
  refine ⟨?_, ?_, ?_, ?_, ?_⟩ <;> (apply fld_eq; simp only [h, BitVec.ofNat_eq_ofNat, BitVec.toNat_ofNat, Nat.reducePow, Nat.reduceMod]; omega)

theorem cadd_toNat (v a : Reg) (m : Reg3) :
    (encode (.cadd v a m)).toNat = (14 : BitVec 6).toNat * 2 ^ 26 + v.toNat * 2 ^ 20 + a.toNat * 2 ^ 14 + m.toNat * 2 ^ 11 := by
  unfold encode
  refine (toNat_app ((((14 : BitVec 6) ++ v) ++ a) ++ m) (0 : BitVec 11)).trans ?_
  simp only [toNat_app, BitVec.ofNat_eq_ofNat, BitVec.toNat_ofNat]
  omega

/-- The fields of `cadd`. -/
theorem cadd_fields (v a : Reg) (m : Reg3) :
    fld (encode (.cadd v a m)) 26 6 = (14 : BitVec 6) ∧
      fld (encode (.cadd v a m)) 20 6 = v ∧
      fld (encode (.cadd v a m)) 14 6 = a ∧
      fld (encode (.cadd v a m)) 11 3 = m ∧
      fld (encode (.cadd v a m)) 0 11 = (0 : BitVec 11) := by
  have h := cadd_toNat v a m
  have := v.isLt; have := a.isLt; have := m.isLt
  refine ⟨?_, ?_, ?_, ?_, ?_⟩ <;> (apply fld_eq; simp only [h, BitVec.ofNat_eq_ofNat, BitVec.toNat_ofNat, Nat.reducePow, Nat.reduceMod]; omega)

theorem crng_toNat (n : Reg2) (b l : Reg) (t : ElemType) (o : RedOp) :
    (encode (.crng n b l t o)).toNat = (15 : BitVec 6).toNat * 2 ^ 26 + n.toNat * 2 ^ 24 + b.toNat * 2 ^ 18 + l.toNat * 2 ^ 12 + (elemTypeCode t).toNat * 2 ^ 8 + (BitVec.ofNat 2 (redOpCode o)).toNat * 2 ^ 6 := by
  unfold encode
  refine (toNat_app ((((((15 : BitVec 6) ++ n) ++ b) ++ l) ++ (elemTypeCode t)) ++ (BitVec.ofNat 2 (redOpCode o))) (0 : BitVec 6)).trans ?_
  simp only [toNat_app, BitVec.ofNat_eq_ofNat, BitVec.toNat_ofNat]
  omega

/-- The fields of `crng`. -/
theorem crng_fields (n : Reg2) (b l : Reg) (t : ElemType) (o : RedOp) :
    fld (encode (.crng n b l t o)) 26 6 = (15 : BitVec 6) ∧
      fld (encode (.crng n b l t o)) 24 2 = n ∧
      fld (encode (.crng n b l t o)) 18 6 = b ∧
      fld (encode (.crng n b l t o)) 12 6 = l ∧
      fld (encode (.crng n b l t o)) 8 4 = elemTypeCode t ∧
      fld (encode (.crng n b l t o)) 6 2 = BitVec.ofNat 2 (redOpCode o) ∧
      fld (encode (.crng n b l t o)) 0 6 = (0 : BitVec 6) := by
  have h := crng_toNat n b l t o
  have := n.isLt; have := b.isLt; have := l.isLt; have := (elemTypeCode t).isLt; have := (BitVec.ofNat 2 (redOpCode o)).isLt
  refine ⟨?_, ?_, ?_, ?_, ?_, ?_, ?_⟩ <;> (apply fld_eq; simp only [h, BitVec.ofNat_eq_ofNat, BitVec.toNat_ofNat, Nat.reducePow, Nat.reduceMod]; omega)

theorem pref_toNat (a l : Reg) (p : Policy) :
    (encode (.pref a l p)).toNat = (18 : BitVec 6).toNat * 2 ^ 26 + a.toNat * 2 ^ 20 + l.toNat * 2 ^ 14 + (policyCode p).toNat * 2 ^ 12 := by
  unfold encode
  refine (toNat_app ((((18 : BitVec 6) ++ a) ++ l) ++ (policyCode p)) (0 : BitVec 12)).trans ?_
  simp only [toNat_app, BitVec.ofNat_eq_ofNat, BitVec.toNat_ofNat]
  omega

/-- The fields of `pref`. -/
theorem pref_fields (a l : Reg) (p : Policy) :
    fld (encode (.pref a l p)) 26 6 = (18 : BitVec 6) ∧
      fld (encode (.pref a l p)) 20 6 = a ∧
      fld (encode (.pref a l p)) 14 6 = l ∧
      fld (encode (.pref a l p)) 12 2 = policyCode p ∧
      fld (encode (.pref a l p)) 0 12 = (0 : BitVec 12) := by
  have h := pref_toNat a l p
  have := a.isLt; have := l.isLt; have := (policyCode p).isLt
  refine ⟨?_, ?_, ?_, ?_, ?_⟩ <;> (apply fld_eq; simp only [h, BitVec.ofNat_eq_ofNat, BitVec.toNat_ofNat, Nat.reducePow, Nat.reduceMod]; omega)

theorem pbar_toNat (l : Reg2) (c : BitVec 2) (x : Bool) :
    (pbarWord l c x).toNat = (5 : BitVec 6).toNat * 2 ^ 26 + l.toNat * 2 ^ 24 + c.toNat * 2 ^ 22 + (bit x).toNat * 2 ^ 21 := by
  unfold pbarWord
  refine (toNat_app ((((5 : BitVec 6) ++ l) ++ c) ++ (bit x)) (0 : BitVec 21)).trans ?_
  simp only [toNat_app, BitVec.ofNat_eq_ofNat, BitVec.toNat_ofNat]
  omega

/-- The fields of `pbar`, of any gear code. -/
theorem pbar_fields (l : Reg2) (c : BitVec 2) (x : Bool) :
    fld (pbarWord l c x) 26 6 = (5 : BitVec 6) ∧
      fld (pbarWord l c x) 24 2 = l ∧
      fld (pbarWord l c x) 22 2 = c ∧
      fld (pbarWord l c x) 21 1 = bit x ∧
      fld (pbarWord l c x) 0 21 = (0 : BitVec 21) := by
  have h := pbar_toNat l c x
  have := l.isLt; have := c.isLt; have := (bit x).isLt
  refine ⟨?_, ?_, ?_, ?_, ?_⟩ <;> (apply fld_eq; simp only [h, BitVec.ofNat_eq_ofNat, BitVec.toNat_ofNat, Nat.reducePow, Nat.reduceMod]; omega)

end Sys2Proof.Laws
end

