-- ==== Sys2Proof/Laws/Sparse.lean ====
section
/-! SUPPORT. Tables: reading after writing, writing twice, and the canonical form kept. -/

namespace Sys2Proof.Machine

variable {α : Type}

@[simp] theorem Sparse.find_put_same (m : Sparse α) (k : Nat) (x : α) : (Sparse.put m k x).find k = some x := by
  induction m with
  | nil => simp [Sparse.put, Sparse.find]
  | cons e r ih =>
    obtain ⟨j, y⟩ := e
    simp only [Sparse.put]
    split
    · simp [Sparse.find]
    · split
      · simp [Sparse.find]
      · simp only [Sparse.find]
        rw [if_neg (by omega), if_neg (by omega)]
        exact ih

theorem Sparse.find_put_other (m : Sparse α) (k l : Nat) (x : α) (h : l ≠ k) : (Sparse.put m k x).find l = m.find l := by
  induction m with
  | nil => simp only [Sparse.put, Sparse.find]; rw [if_neg (by omega)]; split <;> rfl
  | cons e r ih =>
    obtain ⟨j, y⟩ := e
    simp only [Sparse.put]
    split
    · simp only [Sparse.find]
      rw [if_neg (by omega)]
      split
      · rw [if_neg (by omega), if_pos (by omega)]
      · rfl
    · split
      · subst_vars; simp only [Sparse.find, if_neg (Ne.symm h)]
      · simp only [Sparse.find]; rw [ih]

@[simp] theorem Sparse.put_put (m : Sparse α) (k : Nat) (x y : α) : (Sparse.put m k x).put k y = Sparse.put m k y := by
  induction m with
  | nil => simp [Sparse.put]
  | cons e r ih =>
    obtain ⟨j, z⟩ := e
    simp only [Sparse.put]
    split
    · simp [Sparse.put]
    · split
      · simp [Sparse.put]
      · simp only [Sparse.put]
        rw [if_neg (by omega), if_neg (by omega), ih]

@[simp] theorem Sparse.get_put_same (d : α) (m : Sparse α) (k : Nat) (x : α) : Sparse.get d (Sparse.put m k x) k = x := by
  simp [Sparse.get]

theorem Sparse.get_put_other (d : α) (m : Sparse α) (k l : Nat) (x : α) (h : l ≠ k) :
    Sparse.get d (Sparse.put m k x) l = Sparse.get d m l := by
  simp [Sparse.get, Sparse.find_put_other m k l x h]

/-! ### The rising form -/

/-- A rising table holds no key at or below its bound. -/
theorem Sparse.find_none_of_rising (m : Sparse α) (lo k : Nat) (h : Sparse.risingFrom (some lo) m = true) (hk : k ≤ lo) :
    m.find k = none := by
  induction m generalizing lo with
  | nil => rfl
  | cons e r ih =>
    obtain ⟨j, y⟩ := e
    simp only [Sparse.risingFrom, Bool.and_eq_true, decide_eq_true_eq] at h
    simp only [Sparse.find]
    rw [if_neg (by omega), if_pos (by omega)]

theorem Sparse.rising_weaken (m : Sparse α) (lo lo' : Nat) (h : Sparse.risingFrom (some lo) m = true) (hl : lo' ≤ lo) :
    Sparse.risingFrom (some lo') m = true := by
  cases m with
  | nil => rfl
  | cons e r =>
    obtain ⟨j, y⟩ := e
    simp only [Sparse.risingFrom, Bool.and_eq_true, decide_eq_true_eq] at h ⊢
    exact ⟨by omega, h.2⟩

theorem Sparse.rising_none (m : Sparse α) (lo : Nat) (h : Sparse.risingFrom (some lo) m = true) :
    Sparse.risingFrom none m = true := by
  cases m with
  | nil => rfl
  | cons e r =>
    obtain ⟨j, y⟩ := e
    simp only [Sparse.risingFrom, Bool.and_eq_true] at h ⊢
    exact h.2

theorem Sparse.rising_put_some (m : Sparse α) (lo k : Nat) (x : α) (h : Sparse.risingFrom (some lo) m = true) (hk : lo < k) :
    Sparse.risingFrom (some lo) (Sparse.put m k x) = true := by
  induction m generalizing lo with
  | nil => simp [Sparse.put, Sparse.risingFrom, hk]
  | cons e r ih =>
    obtain ⟨j, y⟩ := e
    simp only [Sparse.risingFrom, Bool.and_eq_true, decide_eq_true_eq] at h
    simp only [Sparse.put]
    split
    · simp [Sparse.risingFrom, *]
    · split
      · simp [Sparse.risingFrom, *]
      · simp only [Sparse.risingFrom, Bool.and_eq_true, decide_eq_true_eq]
        exact ⟨h.1, ih j h.2 (by omega)⟩

/-- Storing an entry keeps the keys rising. -/
theorem Sparse.rising_put (m : Sparse α) (k : Nat) (x : α) (h : Sparse.risingFrom none m = true) :
    Sparse.risingFrom none (Sparse.put m k x) = true := by
  cases m with
  | nil => simp [Sparse.put, Sparse.risingFrom]
  | cons e r =>
    obtain ⟨j, y⟩ := e
    simp only [Sparse.risingFrom] at h
    simp only [Sparse.put]
    split
    · simp [Sparse.risingFrom, *]
    · split
      · simp only [Sparse.risingFrom]; subst_vars; exact h
      · simp only [Sparse.risingFrom]; exact Sparse.rising_put_some r j k x h (by omega)

theorem Sparse.rising_erase_some (m : Sparse α) (lo k : Nat) (h : Sparse.risingFrom (some lo) m = true) :
    Sparse.risingFrom (some lo) (Sparse.erase m k) = true := by
  induction m generalizing lo with
  | nil => rfl
  | cons e r ih =>
    obtain ⟨j, y⟩ := e
    simp only [Sparse.erase]
    have h' := h
    simp only [Sparse.risingFrom, Bool.and_eq_true, decide_eq_true_eq] at h
    split
    · exact h'
    · split
      · exact Sparse.rising_weaken r j lo h.2 (by omega)
      · simp only [Sparse.risingFrom, Bool.and_eq_true, decide_eq_true_eq]; exact ⟨h.1, ih j h.2⟩

/-- Removing an entry keeps the keys rising. -/
theorem Sparse.rising_erase (m : Sparse α) (k : Nat) (h : Sparse.risingFrom none m = true) :
    Sparse.risingFrom none (Sparse.erase m k) = true := by
  cases m with
  | nil => rfl
  | cons e r =>
    obtain ⟨j, y⟩ := e
    simp only [Sparse.erase]
    have h' := h
    simp only [Sparse.risingFrom] at h
    split
    · exact h'
    · split
      · exact Sparse.rising_none r j h
      · simp only [Sparse.risingFrom]; exact Sparse.rising_erase_some r j k h

theorem Sparse.find_erase_same_some (m : Sparse α) (lo k : Nat) (h : Sparse.risingFrom (some lo) m = true) :
    (Sparse.erase m k).find k = none := by
  induction m generalizing lo with
  | nil => rfl
  | cons e r ih =>
    obtain ⟨j, y⟩ := e
    simp only [Sparse.risingFrom, Bool.and_eq_true, decide_eq_true_eq] at h
    simp only [Sparse.erase]
    split
    · simp only [Sparse.find]; rw [if_neg (by omega), if_pos (by omega)]
    · split
      · subst_vars; exact Sparse.find_none_of_rising r j j h.2 (by omega)
      · simp only [Sparse.find]; rw [if_neg (by omega), if_neg (by omega)]; exact ih j h.2

/-- A removed key is absent. -/
theorem Sparse.find_erase_same (m : Sparse α) (k : Nat) (h : Sparse.risingFrom none m = true) :
    (Sparse.erase m k).find k = none := by
  cases m with
  | nil => rfl
  | cons e r =>
    obtain ⟨j, y⟩ := e
    simp only [Sparse.risingFrom] at h
    simp only [Sparse.erase]
    split
    · simp only [Sparse.find]; rw [if_neg (by omega), if_pos (by omega)]
    · split
      · subst_vars; exact Sparse.find_none_of_rising r j j h (by omega)
      · simp only [Sparse.find]; rw [if_neg (by omega), if_neg (by omega)]
        exact Sparse.find_erase_same_some r j k h

theorem Sparse.find_erase_other_some (m : Sparse α) (lo k l : Nat) (hl : l ≠ k) (h : Sparse.risingFrom (some lo) m = true) :
    (Sparse.erase m k).find l = m.find l := by
  induction m generalizing lo with
  | nil => rfl
  | cons e r ih =>
    obtain ⟨j, y⟩ := e
    simp only [Sparse.risingFrom, Bool.and_eq_true, decide_eq_true_eq] at h
    simp only [Sparse.erase]
    split
    · rfl
    · split
      · subst_vars
        simp only [Sparse.find]
        rw [if_neg (by omega)]
        split
        · exact Sparse.find_none_of_rising r j l h.2 (by omega)
        · rfl
      · simp only [Sparse.find]; rw [ih j h.2]

/-- Removing a key leaves every other one. -/
theorem Sparse.find_erase_other (m : Sparse α) (k l : Nat) (hl : l ≠ k) (h : Sparse.risingFrom none m = true) :
    (Sparse.erase m k).find l = m.find l := by
  cases m with
  | nil => rfl
  | cons e r =>
    obtain ⟨j, y⟩ := e
    simp only [Sparse.risingFrom] at h
    simp only [Sparse.erase]
    split
    · rfl
    · split
      · subst_vars
        simp only [Sparse.find]
        rw [if_neg (by omega)]
        split
        · exact Sparse.find_none_of_rising r j l h (by omega)
        · rfl
      · simp only [Sparse.find]; rw [Sparse.find_erase_other_some r j k l hl h]

theorem Sparse.all_put (p : Nat × α → Bool) (m : Sparse α) (k : Nat) (x : α) (hm : m.all p = true) (hx : p (k, x) = true) :
    (Sparse.put m k x).all p = true := by
  induction m with
  | nil => simp [Sparse.put, hx]
  | cons e r ih =>
    obtain ⟨j, y⟩ := e
    simp only [List.all_cons, Bool.and_eq_true] at hm
    simp only [Sparse.put]
    split
    · simp only [List.all_cons, Bool.and_eq_true]; exact ⟨hx, hm.1, hm.2⟩
    · split
      · simp only [List.all_cons, Bool.and_eq_true]; exact ⟨hx, hm.2⟩
      · simp only [List.all_cons, Bool.and_eq_true]; exact ⟨hm.1, ih hm.2⟩

theorem Sparse.all_find (p : Nat × α → Bool) (m : Sparse α) (k : Nat) (x : α) (hm : m.all p = true) (h : m.find k = some x) :
    p (k, x) = true := by
  induction m with
  | nil => simp [Sparse.find] at h
  | cons e es ih =>
    simp only [List.all_cons, Bool.and_eq_true] at hm
    simp only [Sparse.find] at h
    split at h
    · cases h; rename_i hk; obtain ⟨a, b⟩ := e; simp_all
    · split at h
      · cases h
      · exact ih hm.2 h

theorem Sparse.all_erase (p : Nat × α → Bool) (m : Sparse α) (k : Nat) (hm : m.all p = true) :
    (Sparse.erase m k).all p = true := by
  induction m with
  | nil => rfl
  | cons e r ih =>
    obtain ⟨j, y⟩ := e
    have hm' := hm
    simp only [List.all_cons, Bool.and_eq_true] at hm
    simp only [Sparse.erase]
    split
    · exact hm'
    · split
      · exact hm.2
      · simp only [List.all_cons, Bool.and_eq_true]; exact ⟨hm.1, ih hm.2⟩

/-- A table with a default reads back what is stored, at the key and elsewhere. -/
theorem Sparse.get_set [DecidableEq α] (d : α) (m : Sparse α) (k l : Nat) (x : α) (h : Sparse.risingFrom none m = true) :
    Sparse.get d (Sparse.set d m k x) l = if l = k then x else Sparse.get d m l := by
  unfold Sparse.set Sparse.get
  split
  · by_cases hl : l = k
    · subst hl; simp [Sparse.find_erase_same m l h, *]
    · simp [hl, Sparse.find_erase_other m k l hl h]
  · by_cases hl : l = k
    · subst hl; simp
    · simp [hl, Sparse.find_put_other m k l x hl]

/-- Storing keeps the canonical form. -/
theorem Sparse.wf_set [DecidableEq α] (d : α) (m : Sparse α) (k : Nat) (x : α) (h : Sparse.wf d m = true) :
    Sparse.wf d (Sparse.set d m k x) = true := by
  simp only [Sparse.wf, Bool.and_eq_true] at h ⊢
  unfold Sparse.set
  split
  · exact ⟨Sparse.rising_erase m k h.1, Sparse.all_erase _ m k h.2⟩
  · exact ⟨Sparse.rising_put m k x h.1, Sparse.all_put _ m k x h.2 (by simpa using ‹_›)⟩

/-! ### Changing every entry -/

/-- A change of every entry changes the value read. -/
theorem Sparse.find_map {β : Type} (F : Nat × α → β) (m : Sparse α) (k : Nat) :
    Sparse.find (m.map fun e => (e.1, F e)) k = (m.find k).map fun x => F (k, x) := by
  induction m with
  | nil => rfl
  | cons e r ih =>
    obtain ⟨j, y⟩ := e
    simp only [List.map_cons, Sparse.find]
    split
    · subst_vars; rfl
    · split
      · rfl
      · exact ih

/-- A relation between every value and its change holds of the value read, where it holds of the default. -/
theorem Sparse.get_map_rel (R : α → α → Prop) (d : α) (F : Nat × α → α) (m : Sparse α) (k : Nat) (hd : R d d)
    (hF : ∀ e : Nat × α, R e.2 (F e)) : R (Sparse.get d m k) (Sparse.get d (m.map fun e => (e.1, F e)) k) := by
  simp only [Sparse.get, Sparse.find_map]
  cases m.find k with
  | none => exact hd
  | some x => exact hF (k, x)

@[simp] theorem Sparse.find_adjust_same (m : Sparse α) (k : Nat) (f : α → α) :
    Sparse.find (Sparse.adjust m k f) k = (m.find k).map f := by
  unfold Sparse.adjust
  split <;> simp_all

theorem Sparse.find_adjust_other (m : Sparse α) (k l : Nat) (f : α → α) (h : l ≠ k) :
    Sparse.find (Sparse.adjust m k f) l = m.find l := by
  unfold Sparse.adjust
  split
  · exact Sparse.find_put_other _ _ _ _ h
  · rfl

end Sys2Proof.Machine
end

