-- ==== Sys2Proof/Laws/Memory.lean ====
section
/-! SUPPORT. Memory by bytes: reading after writing, and the canonical form kept by every operation of memory and of the homes. -/

namespace Sys2Proof.Machine

/-! ### Bytes -/

theorem Memory.rising_of_wf {m : List Host.Cell} (h : Memory.wf m = true) : Sparse.risingFrom none m = true := by
  simp only [Memory.wf, Bool.and_eq_true] at h; exact h.1

/-- A reserved byte of the device control block reads what it reads after bring-up, whatever was written. -/
theorem memRead_reserved (m : List Host.Cell) (c : Nat) (h : Memory.wf m = true) (hc : isReserved c = true) :
    memRead m c = initialByte c := by
  unfold memRead
  cases hf : Sparse.find m c with
  | none => rfl
  | some b =>
    simp only [Memory.wf, Bool.and_eq_true] at h
    have := Sparse.all_find _ m c b h.2 hf
    simp [hc] at this

/-- Reading a byte after writing one: a reserved byte keeps what it reads. -/
theorem memRead_memWrite (m : List Host.Cell) (a c : Nat) (b : Byte) (h : Memory.wf m = true) :
    memRead (memWrite m a b) c = if c = a ∧ isReserved c = false then b else memRead m c := by
  have hr := Memory.rising_of_wf h
  unfold memWrite memRead
  by_cases hc : c = a
  · subst hc
    cases hv : isReserved c
    · by_cases hb : b = initialByte c
      · simp [hb, Sparse.find_erase_same m c hr]
      · simp [hb]
    · simp
  · simp only [hc, false_and, if_false]
    split
    · rfl
    · split
      · rw [Sparse.find_erase_other m a c hc hr]
      · rw [Sparse.find_put_other m a c b hc]

/-- Writing a byte keeps the canonical form. -/
theorem memWrite_wf (m : List Host.Cell) (a : Nat) (b : Byte) (h : Memory.wf m = true) : Memory.wf (memWrite m a b) = true := by
  have h0 := h
  simp only [Memory.wf, Bool.and_eq_true] at h ⊢
  unfold memWrite
  split
  · exact h
  · split
    · exact ⟨Sparse.rising_erase m a h.1, Sparse.all_erase _ m a h.2⟩
    · exact ⟨Sparse.rising_put m a b h.1, Sparse.all_put _ m a b h.2 (by simp [*])⟩

/-- Writing bytes keeps the canonical form. -/
theorem memPutBytes_wf (m : List Host.Cell) (a : Nat) (bs : List Byte) (h : Memory.wf m = true) :
    Memory.wf (memPutBytes m a bs) = true := by
  induction bs generalizing m a with
  | nil => exact h
  | cons b bs ih => exact ih _ _ (memWrite_wf m a b h)

/-- Reading a byte after writing several. -/
theorem memRead_memPutBytes (m : List Host.Cell) (a c : Nat) (bs : List Byte) (h : Memory.wf m = true) :
    memRead (memPutBytes m a bs) c = if (a ≤ c ∧ c < a + bs.length) ∧ isReserved c = false then bs.getD (c - a) 0 else memRead m c := by
  induction bs generalizing m a with
  | nil => simp [memPutBytes]
  | cons b bs ih =>
    simp only [memPutBytes]
    rw [ih _ _ (memWrite_wf m a b h), memRead_memWrite m a c b h]
    cases hv : isReserved c
    · by_cases hc : c = a
      · subst hc; simp
      · by_cases h1 : a ≤ c ∧ c < a + (b :: bs).length
        · have h2 : a + 1 ≤ c ∧ c < a + 1 + bs.length := by simp only [List.length_cons] at h1; omega
          obtain ⟨d, rfl⟩ : ∃ d, c = a + 1 + d := ⟨c - (a + 1), by omega⟩
          have : a + 1 + d - a = d + 1 := by omega
          simp only [and_true]
          rw [if_pos h1, if_pos h2]
          simp [this]
        · have h2 : ¬ (a + 1 ≤ c ∧ c < a + 1 + bs.length) := by simp only [List.length_cons] at h1; omega
          simp only [and_true]
          rw [if_neg h1, if_neg h2, if_neg hc]
    · simp

theorem foldl_keeps {α β : Type} (p : β → Prop) (f : β → α → β) (l : List α) (b : β) (hb : p b)
    (hf : ∀ b x, p b → p (f b x)) : p (l.foldl f b) := by
  induction l generalizing b with
  | nil => exact hb
  | cons x xs ih => exact ih _ (hf b x hb)

/-- Writing a line keeps the canonical form. -/
theorem memPutLine_wf (m : List Host.Cell) (line : Nat) (x : BitVec 512) (mask : BitVec 16) (h : Memory.wf m = true) :
    Memory.wf (memPutLine m line x mask) = true := by
  unfold memPutLine
  refine foldl_keeps (fun m => Memory.wf m = true) _ _ _ h ?_
  intro m w hm
  split
  · exact memPutBytes_wf _ _ _ hm
  · exact hm

/-! ### Homes: which operations leave memory as it is, and which keep its form -/

section Homes
variable (st : Store)

@[simp] theorem putCopy_mem (h l : Nat) (c : Copy) : (putCopy st h l c).mem = st.mem := rfl
@[simp] theorem dropCopy_mem (h l : Nat) : (dropCopy st h l).mem = st.mem := rfl
@[simp] theorem dropWhere_mem (l : Nat) (p : Nat → Copy → Bool) : (dropWhere st l p).mem = st.mem := rfl
@[simp] theorem setDir_mem (l : Nat) (d : DirEntry) : (setDir st l d).mem = st.mem := rfl
@[simp] theorem dropHostClean_mem (c : Nat) : (dropHostClean st c).mem = st.mem := rfl

@[simp] theorem foldRead_mem (l ts : Nat) : (foldRead st l ts).mem = st.mem := by
  unfold foldRead; split
  · split <;> rfl
  · rfl
@[simp] theorem invalidateWhere_mem (l : Nat) (p : Nat → Bool) : (invalidateWhere st l p).mem = st.mem := by simp [invalidateWhere]
@[simp] theorem invalidateAll_mem (l : Nat) : (invalidateAll st l).mem = st.mem := by simp [invalidateAll]
@[simp] theorem evictShared_mem (l h : Nat) : (evictShared st l h).mem = st.mem := by
  unfold evictShared; simp only; split <;> simp
@[simp] theorem proxyFetch_mem (l : Nat) : (proxyFetch st l).mem = st.mem := by
  unfold proxyFetch; simp only; split <;> simp
@[simp] theorem refetchHost_mem (l : Nat) : (refetchHost st l).mem = st.mem := by
  unfold refetchHost; split <;> simp
@[simp] theorem loadAtCopy_mem (h l p e : Nat) (c : Copy) : (loadAtCopy st h l p e c).2.2.mem = st.mem := by
  unfold loadAtCopy; split <;> simp
@[simp] theorem loadAtProxy_mem (l p e : Nat) : (loadAtProxy st l p e).2.2.mem = st.mem := by
  simp [loadAtProxy]

variable (hst : Memory.wf st.mem = true)
include hst

theorem takePartial_wf (l : Nat) (e : Nat × Copy) : Memory.wf (takePartial l st e).mem = true := by
  unfold takePartial; split
  · dsimp only; split
    · simpa using hst
    · simp only [setDir_mem, dropCopy_mem]; exact memPutLine_wf _ _ _ _ hst
  · exact hst

theorem takePartials_wf (l : Nat) (ps : List (Nat × Copy)) : Memory.wf (ps.foldl (takePartial l) st).mem = true :=
  foldl_keeps (fun st : Store => Memory.wf st.mem = true) _ _ _ hst fun b x hb => takePartial_wf b hb l x

theorem combineInDie_wf (l : Nat) : Memory.wf (combineInDie st l).mem = true := takePartials_wf st hst l _

theorem combineDie_wf (l d : Nat) : Memory.wf (combineDie st l d).mem = true := by
  unfold combineDie; dsimp only
  split <;> simp [takePartials_wf st hst]

theorem combineLine_wf (l : Nat) : Memory.wf (combineLine st l).mem = true := by
  unfold combineLine; simp only [setDir_mem]
  exact foldl_keeps (fun st : Store => Memory.wf st.mem = true) _ _ _ hst fun b x hb => combineDie_wf b hb l x

theorem recallLine_wf (l : Nat) : Memory.wf (recallLine st l).mem = true := by
  have h1 := combineInDie_wf st hst l
  unfold recallLine; dsimp only
  split
  · simp only [setDir_mem, dropCopy_mem, invalidateWhere_mem]; exact memPutLine_wf _ _ _ _ h1
  · simpa using h1

theorem readyToRead_wf (l : Nat) : Memory.wf (readyToRead st l).mem = true := by
  unfold readyToRead; split
  · exact recallLine_wf st hst l
  · exact combineLine_wf st hst l
  · exact hst

theorem readyToWrite_wf (l : Nat) : Memory.wf (readyToWrite st l).mem = true := by
  unfold readyToWrite; split
  · simpa using hst
  · exact readyToRead_wf st hst l

theorem evictPartial_wf (c l : Nat) : Memory.wf (evictPartial st c l).mem = true := by
  unfold evictPartial; split
  · split
    · dsimp only; split <;> simpa using takePartial_wf st hst l _
    · exact hst
  · exact hst

theorem evictCopy_wf (h l : Nat) : Memory.wf (evictCopy st h l).mem = true := by
  unfold evictCopy; split
  · simpa using hst
  · simpa using hst
  · exact recallLine_wf st hst l
  · exact recallLine_wf st hst l
  · exact evictPartial_wf st hst h l
  · exact hst

/-- A copy installed, whatever had to leave for it. -/
theorem fillCopy_wf (h l : Nat) (c : Copy) : Memory.wf (fillCopy st h l c).mem = true := by
  unfold fillCopy; dsimp only
  split
  · simpa using evictCopy_wf st hst _ _
  · simpa using hst

theorem loadHost_wf (c l : Nat) (pol : Policy) (p e : Nat) : Memory.wf (loadHost st c l pol p e).2.2.mem = true := by
  have h0 : Memory.wf (loadAtProxy st l p e).2.2.mem = true := by simpa using hst
  have h1 := fun k => fillCopy_wf (loadAtProxy st l p e).2.2 h0 c l k
  unfold loadHost; dsimp only
  split
  · exact h0
  · split
    · split
      · simpa using hst
      · split
        · exact h0
        · exact h1 _
    · split
      · exact h0
      · exact h1 _

theorem bringToL2_wf (d l : Nat) : Memory.wf (bringToL2 st d l).mem = true := by
  unfold bringToL2; split
  · refine combineInDie_wf _ ?_ l
    split
    · exact hst
    · exact fillCopy_wf _ (by simpa using hst) _ _ _
  · exact hst

theorem readyInDie_wf (d l : Nat) (w : Bool) : Memory.wf (readyInDie st d l w).mem = true := by
  unfold readyInDie; dsimp only
  split <;> simpa using bringToL2_wf st hst d l

theorem grantInDie_wf (c l : Nat) : Memory.wf (grantInDie st c l).mem = true := by
  have h1 := readyInDie_wf st hst (dieOf c) l true
  unfold grantInDie; dsimp only; split
  · exact fillCopy_wf _ (by simpa using h1) _ _ _
  · exact h1

theorem writeBackHost_wf (c l : Nat) : Memory.wf (writeBackHost st c l).mem = true := by
  unfold writeBackHost; split
  · split
    · simp only [dropCopy_mem]; exact memPutLine_wf _ _ _ _ hst
    · exact hst
  · exact hst

theorem acquireOwn_wf (c l : Nat) (t : Store) (h : acquireOwn st c l = some t) : Memory.wf t.mem = true := by
  unfold acquireOwn at h; dsimp only at h
  split at h
  · cases h; exact hst
  · split at h
    · cases h
    · split at h
      · cases h; exact grantInDie_wf st hst c l
      · rw [← Option.some.inj h]
        simp only [setDir_mem]
        exact fillCopy_wf _ (readyToWrite_wf st hst l) _ _ _

theorem loadAtHome_wf (c l : Nat) (p : Policy) (ts e : Nat) (r : Served) (h : loadAtHome st c l p ts e = some r) :
    Memory.wf r.2.2.mem = true := by
  unfold loadAtHome at h; dsimp only at h
  split at h
  · cases h
  · split at h
    · simp only [Option.map_eq_some_iff] at h
      obtain ⟨k, -, rfl⟩ := h
      have h1 := readyInDie_wf st hst (dieOf c) l false
      dsimp only; split
      · exact fillCopy_wf _ (by simpa using h1) _ _ _
      · exact fillCopy_wf _ (by simpa using h1) _ _ _
      · simpa using h1
    · rw [← Option.some.inj h]
      have h1 := readyToRead_wf st hst l
      dsimp only; split
      · exact fillCopy_wf _ (fillCopy_wf _ (by simpa using h1) _ _ _) _ _ _
      · simp only [setDir_mem]
        exact fillCopy_wf _ (fillCopy_wf _ (by simpa using h1) _ _ _) _ _ _
      · simpa using h1

theorem loadAtL2_wf (c l : Nat) (p : Policy) (ts e : Nat) (k : Copy) : Memory.wf (loadAtL2 st c l p ts e k).2.2.mem = true := by
  unfold loadAtL2; dsimp only
  split <;> exact fillCopy_wf _ (by simpa using hst) _ _ _

theorem serveLoad_elsewhere_wf (c l : Nat) (p : Policy) (ts e : Nat) (r : Served)
    (h : serveLoad.elsewhere st c l p ts e = some r) : Memory.wf r.2.2.mem = true := by
  unfold serveLoad.elsewhere at h
  split at h
  · simp only [Option.bind_eq_some_iff, Option.map_eq_some_iff] at h
    obtain ⟨t, ht, k, -, rfl⟩ := h
    simpa using acquireOwn_wf st hst c l t ht
  · split at h
    · split at h
      · cases h; exact loadAtL2_wf st hst _ _ _ _ _ _
      · exact loadAtHome_wf st hst _ _ _ _ _ _ h
    · exact loadAtHome_wf st hst _ _ _ _ _ _ h

theorem serveLoad_wf (c l : Nat) (p : Policy) (ts e : Nat) (r : Served) (h : serveLoad st c l p ts e = some r) :
    Memory.wf r.2.2.mem = true := by
  unfold serveLoad at h
  split at h
  · cases h; exact loadHost_wf st hst _ _ _ _ _
  · split at h
    · split at h
      · cases h; simpa using hst
      · exact serveLoad_elsewhere_wf st hst _ _ _ _ _ _ h
    · exact serveLoad_elsewhere_wf st hst _ _ _ _ _ _ h

theorem storeAtCopy_wf (h l p : Nat) (m : BitVec 16) (x : BitVec 512) (r : Nat × Store)
    (hr : storeAtCopy st h l p m x = some r) : Memory.wf r.2.mem = true := by
  unfold storeAtCopy at hr
  simp only [Option.map_eq_some_iff] at hr
  obtain ⟨c, -, rfl⟩ := hr
  simpa using hst

theorem storeAtHome_wf (l p : Nat) (m : BitVec 16) (x : BitVec 512) : Memory.wf (storeAtHome st l p m x).2.mem = true := by
  unfold storeAtHome; simp only [setDir_mem]; exact memPutLine_wf _ _ _ _ hst

theorem storeHost_wf (c l p : Nat) (m : BitVec 16) (x : BitVec 512) : Memory.wf (storeHost st c l p m x).2.mem = true := by
  unfold storeHost; dsimp only
  split_ifs
  · simp only [dropCopy_mem]; exact memPutLine_wf _ _ _ _ (by simpa using hst)
  · exact fillCopy_wf _ (by simpa using hst) _ _ _

theorem keepAtHome_wf (c l : Nat) (p : Policy) (ts e : Nat) : Memory.wf (keepAtHome st c l p ts e).mem = true := by
  unfold keepAtHome; dsimp only; split
  · simp only [setDir_mem]; exact fillCopy_wf _ hst _ _ _
  · simp only [setDir_mem]; exact fillCopy_wf _ (fillCopy_wf _ hst _ _ _) _ _ _
  · simpa using hst

theorem keepInDie_wf (c l : Nat) (p : Policy) (ts e : Nat) : Memory.wf (keepInDie st c l p ts e).mem = true := by
  unfold keepInDie; dsimp only; split
  · exact hst
  · split
    · simp only [putCopy_mem]; exact fillCopy_wf _ hst _ _ _
    · exact fillCopy_wf _ hst _ _ _
    · simpa using hst

theorem serveStore_wf (c l : Nat) (p : Policy) (ts e : Nat) (m : BitVec 16) (x : BitVec 512) (r : Nat × Store)
    (h : serveStore st c l p ts e m x = some r) : Memory.wf r.2.mem = true := by
  unfold serveStore at h; dsimp only at h
  split at h
  · cases h; exact storeHost_wf st hst _ _ _ _ _
  · split at h
    · simp only [Option.bind_eq_some_iff] at h
      obtain ⟨t, ht, h⟩ := h
      exact storeAtCopy_wf t (acquireOwn_wf st hst c l t ht) _ _ _ _ _ _ h
    · split at h
      · cases h
      · split at h
        · simp only [Option.map_eq_some_iff] at h
          obtain ⟨q, hq, rfl⟩ := h
          exact keepInDie_wf _ (storeAtCopy_wf _ (readyInDie_wf st hst _ _ _) _ _ _ _ _ _ hq) _ _ _ _ _
        · rw [← Option.some.inj h]
          exact keepAtHome_wf _ (storeAtHome_wf _ (readyToWrite_wf st hst l) _ _ _ _) _ _ _ _ _

theorem useEngine_wf (l : Nat) : Memory.wf (useEngine st l).mem = true := by
  unfold useEngine; dsimp only; split
  · refine recallLine_wf _ ?_ _
    exact hst
  · exact hst

theorem serveAtomic_wf (l o n p : Nat) (op : AtomicOp) (b c : Nat) (r : Nat × Nat × Store)
    (h : serveAtomic st l o n p op b c = some r) : Memory.wf r.2.2.mem = true := by
  unfold serveAtomic at h; dsimp only at h
  split at h
  · cases h
    simp only [setDir_mem, putCopy_mem]
    refine memPutLine_wf _ _ _ _ ?_
    simp only [proxyFetch_mem]
    exact foldl_keeps (fun st : Store => Memory.wf st.mem = true) _ _ _ hst fun b x hb => writeBackHost_wf b hb _ _
  · split at h
    · cases h
    · rename_i t ht
      split at h
      · cases h
      · cases h
        simp only [putCopy_mem]
        refine useEngine_wf _ ?_ _
        split at ht
        · cases ht; exact hst
        · split at ht
          · cases ht
          · cases ht; simpa using readyToWrite_wf st hst l

theorem grantPartial_wf (c l : Nat) (t : ElemType) (op : RedOp) (r : Store) (h : grantPartial st c l t op = some r) :
    Memory.wf r.mem = true := by
  unfold grantPartial at h; dsimp only at h
  split at h
  · cases h
  · split at h
    · simp only [Option.map_eq_some_iff] at h
      obtain ⟨k, -, rfl⟩ := h
      refine fillCopy_wf _ ?_ _ _ _
      simp only [dropCopy_mem]
      split <;> first | exact hst | exact readyInDie_wf st hst _ _ _
    · cases h
      simp only [setDir_mem]
      refine fillCopy_wf _ ?_ _ _ _
      simp only [dropCopy_mem]
      split <;> first | exact hst | exact readyToWrite_wf st hst l

theorem serveCombine_wf (c l p : Nat) (t : ElemType) (op : RedOp) (ws : List (Nat × W32)) (r : Nat × Store)
    (h : serveCombine st c l p t op ws = some r) : Memory.wf r.2.mem = true := by
  unfold serveCombine at h; dsimp only at h
  have h1 : Memory.wf (match copyAt st c l with
    | some c' => if c'.state.isPartial && c'.state != CopyState.combining t op then evictPartial st c l else st
    | none => st).mem = true := by
    split
    · split
      · exact evictPartial_wf st hst c l
      · exact hst
    · exact hst
  split at h
  · cases h
  · rename_i t' ht
    simp only [Option.map_eq_some_iff] at h
    obtain ⟨k, -, rfl⟩ := h
    simp only [putCopy_mem]
    split at ht
    · split at ht
      · cases ht; exact h1
      · exact grantPartial_wf _ h1 _ _ _ _ _ ht
    · exact grantPartial_wf _ h1 _ _ _ _ _ ht

theorem homeStoreLine_wf (l o p : Nat) (d : List Byte) : Memory.wf (homeStoreLine st l o p d).2.mem = true := by
  have h1 : Memory.wf (memPutBytes st.mem (64 * l + o) d) = true := memPutBytes_wf _ _ _ hst
  unfold homeStoreLine; dsimp only
  split
  · simp only [setDir_mem]
    refine foldl_keeps (fun st : Store => Memory.wf st.mem = true) _ _ _ ?_ fun b x hb => by simpa using hb
    split <;> exact h1
  · exact storeAtHome_wf _ (readyToWrite_wf st hst l) _ _ _ _

theorem homeStoreFrom_wf (fuel pa p : Nat) (d : List Byte) : Memory.wf (homeStoreFrom fuel st pa p d).2.mem = true := by
  induction fuel generalizing st pa p d with
  | zero => exact hst
  | succ n ih =>
    simp only [homeStoreFrom]
    split
    · exact hst
    · exact ih _ (homeStoreLine_wf st hst _ _ _ _) _ _ _

/-- A store of the device's own keeps memory canonical. -/
theorem homeStore_wf (pa p : Nat) (d : List Byte) : Memory.wf (homeStore st pa p d).2.mem = true :=
  homeStoreFrom_wf st hst _ _ _ _

end Homes

end Sys2Proof.Machine
end

