-- ==== Sys2Proof/Laws/State.lean ====
section
/-! SUPPORT. What every update of the state leaves of every field, so that no proof unfolds a record update. -/

namespace Sys2Proof.Machine

variable (s : State)

@[simp] theorem State.focusCtx_setCtx (h : Nat) (c : Ctx) : (s.setCtx h c).focusCtx = s.focusCtx := rfl
@[simp] theorem State.focusSlot_setCtx (h : Nat) (c : Ctx) : (s.setCtx h c).focusSlot = s.focusSlot := rfl
@[simp] theorem State.signal_setCtx (h : Nat) (c : Ctx) : (s.setCtx h c).signal = s.signal := rfl
@[simp] theorem State.agenda_setCtx (h : Nat) (c : Ctx) : (s.setCtx h c).agenda = s.agenda := rfl
@[simp] theorem State.refHalf_setCtx (h : Nat) (c : Ctx) : (s.setCtx h c).refHalf = s.refHalf := rfl
@[simp] theorem State.ctxs_setCtx (h : Nat) (c : Ctx) : (s.setCtx h c).ctxs = Sparse.put s.ctxs h c := rfl
@[simp] theorem State.cores_setCtx (h : Nat) (c : Ctx) : (s.setCtx h c).cores = s.cores := rfl
@[simp] theorem State.store_setCtx (h : Nat) (c : Ctx) : (s.setCtx h c).store = s.store := rfl
@[simp] theorem State.dev_setCtx (h : Nat) (c : Ctx) : (s.setCtx h c).dev = s.dev := rfl

@[simp] theorem State.focusCtx_mapCtx (h : Nat) (f : Ctx → Ctx) : (s.mapCtx h f).focusCtx = s.focusCtx := rfl
@[simp] theorem State.focusSlot_mapCtx (h : Nat) (f : Ctx → Ctx) : (s.mapCtx h f).focusSlot = s.focusSlot := rfl
@[simp] theorem State.signal_mapCtx (h : Nat) (f : Ctx → Ctx) : (s.mapCtx h f).signal = s.signal := rfl
@[simp] theorem State.agenda_mapCtx (h : Nat) (f : Ctx → Ctx) : (s.mapCtx h f).agenda = s.agenda := rfl
@[simp] theorem State.refHalf_mapCtx (h : Nat) (f : Ctx → Ctx) : (s.mapCtx h f).refHalf = s.refHalf := rfl
@[simp] theorem State.ctxs_mapCtx (h : Nat) (f : Ctx → Ctx) : (s.mapCtx h f).ctxs = Sparse.put s.ctxs h (f (s.ctx h)) := rfl
@[simp] theorem State.cores_mapCtx (h : Nat) (f : Ctx → Ctx) : (s.mapCtx h f).cores = s.cores := rfl
@[simp] theorem State.store_mapCtx (h : Nat) (f : Ctx → Ctx) : (s.mapCtx h f).store = s.store := rfl
@[simp] theorem State.dev_mapCtx (h : Nat) (f : Ctx → Ctx) : (s.mapCtx h f).dev = s.dev := rfl

@[simp] theorem State.focusCtx_mapHere (f : Ctx → Ctx) : (s.mapHere f).focusCtx = s.focusCtx := rfl
@[simp] theorem State.focusSlot_mapHere (f : Ctx → Ctx) : (s.mapHere f).focusSlot = s.focusSlot := rfl
@[simp] theorem State.signal_mapHere (f : Ctx → Ctx) : (s.mapHere f).signal = s.signal := rfl
@[simp] theorem State.agenda_mapHere (f : Ctx → Ctx) : (s.mapHere f).agenda = s.agenda := rfl
@[simp] theorem State.refHalf_mapHere (f : Ctx → Ctx) : (s.mapHere f).refHalf = s.refHalf := rfl
@[simp] theorem State.ctxs_mapHere (f : Ctx → Ctx) : (s.mapHere f).ctxs = Sparse.put s.ctxs s.focusCtx (f s.here) := rfl
@[simp] theorem State.cores_mapHere (f : Ctx → Ctx) : (s.mapHere f).cores = s.cores := rfl
@[simp] theorem State.store_mapHere (f : Ctx → Ctx) : (s.mapHere f).store = s.store := rfl
@[simp] theorem State.dev_mapHere (f : Ctx → Ctx) : (s.mapHere f).dev = s.dev := rfl

@[simp] theorem State.focusCtx_setCore (c : Nat) (k : Core) : (s.setCore c k).focusCtx = s.focusCtx := rfl
@[simp] theorem State.focusSlot_setCore (c : Nat) (k : Core) : (s.setCore c k).focusSlot = s.focusSlot := rfl
@[simp] theorem State.signal_setCore (c : Nat) (k : Core) : (s.setCore c k).signal = s.signal := rfl
@[simp] theorem State.agenda_setCore (c : Nat) (k : Core) : (s.setCore c k).agenda = s.agenda := rfl
@[simp] theorem State.refHalf_setCore (c : Nat) (k : Core) : (s.setCore c k).refHalf = s.refHalf := rfl
@[simp] theorem State.ctxs_setCore (c : Nat) (k : Core) : (s.setCore c k).ctxs = s.ctxs := rfl
@[simp] theorem State.cores_setCore (c : Nat) (k : Core) : (s.setCore c k).cores = Sparse.put s.cores c k := rfl
@[simp] theorem State.store_setCore (c : Nat) (k : Core) : (s.setCore c k).store = s.store := rfl
@[simp] theorem State.dev_setCore (c : Nat) (k : Core) : (s.setCore c k).dev = s.dev := rfl

@[simp] theorem State.focusCtx_mapCore (c : Nat) (f : Core → Core) : (s.mapCore c f).focusCtx = s.focusCtx := rfl
@[simp] theorem State.focusSlot_mapCore (c : Nat) (f : Core → Core) : (s.mapCore c f).focusSlot = s.focusSlot := rfl
@[simp] theorem State.signal_mapCore (c : Nat) (f : Core → Core) : (s.mapCore c f).signal = s.signal := rfl
@[simp] theorem State.agenda_mapCore (c : Nat) (f : Core → Core) : (s.mapCore c f).agenda = s.agenda := rfl
@[simp] theorem State.refHalf_mapCore (c : Nat) (f : Core → Core) : (s.mapCore c f).refHalf = s.refHalf := rfl
@[simp] theorem State.ctxs_mapCore (c : Nat) (f : Core → Core) : (s.mapCore c f).ctxs = s.ctxs := rfl
@[simp] theorem State.cores_mapCore (c : Nat) (f : Core → Core) : (s.mapCore c f).cores = Sparse.put s.cores c (f (s.core c)) := rfl
@[simp] theorem State.store_mapCore (c : Nat) (f : Core → Core) : (s.mapCore c f).store = s.store := rfl
@[simp] theorem State.dev_mapCore (c : Nat) (f : Core → Core) : (s.mapCore c f).dev = s.dev := rfl

@[simp] theorem State.focusCtx_mapStore (f : Store → Store) : (s.mapStore f).focusCtx = s.focusCtx := rfl
@[simp] theorem State.focusSlot_mapStore (f : Store → Store) : (s.mapStore f).focusSlot = s.focusSlot := rfl
@[simp] theorem State.signal_mapStore (f : Store → Store) : (s.mapStore f).signal = s.signal := rfl
@[simp] theorem State.agenda_mapStore (f : Store → Store) : (s.mapStore f).agenda = s.agenda := rfl
@[simp] theorem State.refHalf_mapStore (f : Store → Store) : (s.mapStore f).refHalf = s.refHalf := rfl
@[simp] theorem State.ctxs_mapStore (f : Store → Store) : (s.mapStore f).ctxs = s.ctxs := rfl
@[simp] theorem State.cores_mapStore (f : Store → Store) : (s.mapStore f).cores = s.cores := rfl
@[simp] theorem State.store_mapStore (f : Store → Store) : (s.mapStore f).store = f s.store := rfl
@[simp] theorem State.dev_mapStore (f : Store → Store) : (s.mapStore f).dev = s.dev := rfl

@[simp] theorem State.focusCtx_mapDev (f : Device → Device) : (s.mapDev f).focusCtx = s.focusCtx := rfl
@[simp] theorem State.focusSlot_mapDev (f : Device → Device) : (s.mapDev f).focusSlot = s.focusSlot := rfl
@[simp] theorem State.signal_mapDev (f : Device → Device) : (s.mapDev f).signal = s.signal := rfl
@[simp] theorem State.agenda_mapDev (f : Device → Device) : (s.mapDev f).agenda = s.agenda := rfl
@[simp] theorem State.refHalf_mapDev (f : Device → Device) : (s.mapDev f).refHalf = s.refHalf := rfl
@[simp] theorem State.ctxs_mapDev (f : Device → Device) : (s.mapDev f).ctxs = s.ctxs := rfl
@[simp] theorem State.cores_mapDev (f : Device → Device) : (s.mapDev f).cores = s.cores := rfl
@[simp] theorem State.store_mapDev (f : Device → Device) : (s.mapDev f).store = s.store := rfl
@[simp] theorem State.dev_mapDev (f : Device → Device) : (s.mapDev f).dev = f s.dev := rfl

@[simp] theorem State.focusCtx_mapCont (i : Nat) (f : Cont → Cont) : (s.mapCont i f).focusCtx = s.focusCtx := rfl
@[simp] theorem State.focusSlot_mapCont (i : Nat) (f : Cont → Cont) : (s.mapCont i f).focusSlot = s.focusSlot := rfl
@[simp] theorem State.signal_mapCont (i : Nat) (f : Cont → Cont) : (s.mapCont i f).signal = s.signal := rfl
@[simp] theorem State.agenda_mapCont (i : Nat) (f : Cont → Cont) : (s.mapCont i f).agenda = s.agenda := rfl
@[simp] theorem State.refHalf_mapCont (i : Nat) (f : Cont → Cont) : (s.mapCont i f).refHalf = s.refHalf := rfl
@[simp] theorem State.ctxs_mapCont (i : Nat) (f : Cont → Cont) : (s.mapCont i f).ctxs = s.ctxs := rfl
@[simp] theorem State.cores_mapCont (i : Nat) (f : Cont → Cont) : (s.mapCont i f).cores = s.cores := rfl
@[simp] theorem State.store_mapCont (i : Nat) (f : Cont → Cont) : (s.mapCont i f).store = s.store := rfl

@[simp] theorem State.focusCtx_mapDie (d : Nat) (f : Die → Die) : (s.mapDie d f).focusCtx = s.focusCtx := rfl
@[simp] theorem State.focusSlot_mapDie (d : Nat) (f : Die → Die) : (s.mapDie d f).focusSlot = s.focusSlot := rfl
@[simp] theorem State.signal_mapDie (d : Nat) (f : Die → Die) : (s.mapDie d f).signal = s.signal := rfl
@[simp] theorem State.agenda_mapDie (d : Nat) (f : Die → Die) : (s.mapDie d f).agenda = s.agenda := rfl
@[simp] theorem State.refHalf_mapDie (d : Nat) (f : Die → Die) : (s.mapDie d f).refHalf = s.refHalf := rfl
@[simp] theorem State.ctxs_mapDie (d : Nat) (f : Die → Die) : (s.mapDie d f).ctxs = s.ctxs := rfl
@[simp] theorem State.cores_mapDie (d : Nat) (f : Die → Die) : (s.mapDie d f).cores = s.cores := rfl
@[simp] theorem State.store_mapDie (d : Nat) (f : Die → Die) : (s.mapDie d f).store = s.store := rfl

@[simp] theorem State.focusCtx_output (o : Output) : (s.output o).focusCtx = s.focusCtx := rfl
@[simp] theorem State.focusSlot_output (o : Output) : (s.output o).focusSlot = s.focusSlot := rfl
@[simp] theorem State.signal_output (o : Output) : (s.output o).signal = s.signal := rfl
@[simp] theorem State.agenda_output (o : Output) : (s.output o).agenda = s.agenda := rfl
@[simp] theorem State.refHalf_output (o : Output) : (s.output o).refHalf = s.refHalf := rfl
@[simp] theorem State.ctxs_output (o : Output) : (s.output o).ctxs = s.ctxs := rfl
@[simp] theorem State.cores_output (o : Output) : (s.output o).cores = s.cores := rfl
@[simp] theorem State.store_output (o : Output) : (s.output o).store = s.store := rfl

@[simp] theorem State.focusCtx_land (L : Nat) (e : Effect) : (land L e s).focusCtx = s.focusCtx := rfl
@[simp] theorem State.focusSlot_land (L : Nat) (e : Effect) : (land L e s).focusSlot = s.focusSlot := rfl
@[simp] theorem State.signal_land (L : Nat) (e : Effect) : (land L e s).signal = s.signal := rfl
@[simp] theorem State.agenda_land (L : Nat) (e : Effect) : (land L e s).agenda = s.agenda := rfl
@[simp] theorem State.refHalf_land (L : Nat) (e : Effect) : (land L e s).refHalf = s.refHalf := rfl
@[simp] theorem State.cores_land (L : Nat) (e : Effect) : (land L e s).cores = s.cores := rfl
@[simp] theorem State.store_land (L : Nat) (e : Effect) : (land L e s).store = s.store := rfl
@[simp] theorem State.dev_land (L : Nat) (e : Effect) : (land L e s).dev = s.dev := rfl

/-! ### Contexts and cores read back -/

@[simp] theorem State.ctx_setCtx_self (h : Nat) (c : Ctx) : (s.setCtx h c).ctx h = c := by
  simp [State.ctx]

theorem State.ctx_setCtx_other (h g : Nat) (c : Ctx) (hg : g ≠ h) : (s.setCtx h c).ctx g = s.ctx g := by
  simp [State.ctx, Sparse.get_put_other _ _ _ _ _ hg]

theorem State.ctx_setCtx (h g : Nat) (c : Ctx) : (s.setCtx h c).ctx g = if g = h then c else s.ctx g := by
  split
  · subst_vars; simp
  · exact s.ctx_setCtx_other h g c ‹_›

theorem State.ctx_mapCtx (h g : Nat) (f : Ctx → Ctx) : (s.mapCtx h f).ctx g = if g = h then f (s.ctx h) else s.ctx g :=
  s.ctx_setCtx h g _

@[simp] theorem State.ctx_mapCtx_self (h : Nat) (f : Ctx → Ctx) : (s.mapCtx h f).ctx h = f (s.ctx h) := by
  simp [State.mapCtx]

@[simp] theorem State.here_mapHere (f : Ctx → Ctx) : (s.mapHere f).here = f s.here := by
  simp [State.mapHere, State.here]

theorem State.ctx_mapHere (g : Nat) (f : Ctx → Ctx) : (s.mapHere f).ctx g = if g = s.focusCtx then f s.here else s.ctx g :=
  s.ctx_mapCtx _ g f

@[simp] theorem State.ctx_setCore (c h : Nat) (k : Core) : (s.setCore c k).ctx h = s.ctx h := rfl
@[simp] theorem State.ctx_mapCore (c h : Nat) (f : Core → Core) : (s.mapCore c f).ctx h = s.ctx h := rfl
@[simp] theorem State.ctx_mapStore (h : Nat) (f : Store → Store) : (s.mapStore f).ctx h = s.ctx h := rfl
@[simp] theorem State.ctx_mapDev (h : Nat) (f : Device → Device) : (s.mapDev f).ctx h = s.ctx h := rfl
@[simp] theorem State.ctx_mapCont (i h : Nat) (f : Cont → Cont) : (s.mapCont i f).ctx h = s.ctx h := rfl
@[simp] theorem State.ctx_output (h : Nat) (o : Output) : (s.output o).ctx h = s.ctx h := rfl
@[simp] theorem State.core_setCtx (c h : Nat) (x : Ctx) : (s.setCtx h x).core c = s.core c := rfl
@[simp] theorem State.core_mapCtx (c h : Nat) (f : Ctx → Ctx) : (s.mapCtx h f).core c = s.core c := rfl
@[simp] theorem State.core_mapHere (c : Nat) (f : Ctx → Ctx) : (s.mapHere f).core c = s.core c := rfl
@[simp] theorem State.core_mapStore (c : Nat) (f : Store → Store) : (s.mapStore f).core c = s.core c := rfl
@[simp] theorem State.core_mapDev (c : Nat) (f : Device → Device) : (s.mapDev f).core c = s.core c := rfl
@[simp] theorem State.core_mapCont (c i : Nat) (f : Cont → Cont) : (s.mapCont i f).core c = s.core c := rfl
@[simp] theorem State.core_output (c : Nat) (o : Output) : (s.output o).core c = s.core c := rfl

@[simp] theorem State.core_setCore_self (c : Nat) (k : Core) : (s.setCore c k).core c = k := by
  simp [State.core, State.setCore]

theorem State.core_setCore_other (c d : Nat) (k : Core) (h : d ≠ c) : (s.setCore c k).core d = s.core d := by
  simp [State.core, State.setCore, Sparse.get_put_other _ _ _ _ _ h]

theorem State.core_mapCore (c d : Nat) (f : Core → Core) :
    (s.mapCore c f).core d = if d = c then f (s.core c) else s.core d := by
  split
  · subst_vars; simp [State.mapCore]
  · exact s.core_setCore_other c d _ ‹_›

@[simp] theorem State.core_mapCore_self (c : Nat) (f : Core → Core) : (s.mapCore c f).core c = f (s.core c) := by
  simp [State.mapCore]

/-! ### Continuations read back -/

@[simp] theorem State.cont_mapCtx (h i : Nat) (f : Ctx → Ctx) : (s.mapCtx h f).cont i = s.cont i := rfl
@[simp] theorem State.cont_setCtx (h i : Nat) (c : Ctx) : (s.setCtx h c).cont i = s.cont i := rfl
@[simp] theorem State.cont_mapHere (i : Nat) (f : Ctx → Ctx) : (s.mapHere f).cont i = s.cont i := rfl
@[simp] theorem State.cont_mapCore (c i : Nat) (f : Core → Core) : (s.mapCore c f).cont i = s.cont i := rfl
@[simp] theorem State.cont_mapStore (i : Nat) (f : Store → Store) : (s.mapStore f).cont i = s.cont i := rfl
@[simp] theorem State.cont_output (i : Nat) (o : Output) : (s.output o).cont i = s.cont i := rfl

/-- A continuation after a change, where its index is registered. -/
theorem State.cont_mapCont_self (i : Nat) (f : Cont → Cont) (h : (Sparse.find s.dev.conts i).isSome) :
    (s.mapCont i f).cont i = f (s.cont i) := by
  obtain ⟨c, hc⟩ := Option.isSome_iff_exists.mp h
  simp [State.mapCont, State.cont, State.mapDev, Sparse.adjust, hc, Sparse.get]

theorem State.cont_mapCont_other (i j : Nat) (f : Cont → Cont) (h : j ≠ i) : (s.mapCont i f).cont j = s.cont j := by
  simp only [State.mapCont, State.cont, State.mapDev, Sparse.adjust]
  split
  · exact Sparse.get_put_other _ _ _ _ _ h
  · rfl

end Sys2Proof.Machine
end

