-- ==== Sys2Proof/Laws/Ops.lean ====
section
/-! SUPPORT. What the shared operations of the slots answer: checks, stalls, landings. -/

namespace Sys2Proof.Machine

variable (s : State)

@[simp] theorem under_ok (k : Out) : under .ok s k = k := rfl
@[simp] theorem under_stall (k : Out) : under .stall s k = waits s := rfl
@[simp] theorem under_fault (cls : FaultClass) (a : Nat) (k : Out) : under (.fault cls a) s k = precise cls a s := rfl

@[simp] theorem stallWhen_true : stallWhen true = .stall := rfl
@[simp] theorem stallWhen_false : stallWhen false = .ok := rfl
@[simp] theorem faultWhen_true (cls : FaultClass) (a : Nat) : faultWhen true cls a = .fault cls a := rfl
@[simp] theorem faultWhen_false (cls : FaultClass) (a : Nat) : faultWhen false cls a = .ok := rfl

theorem stallWhen_ok (b : Bool) : stallWhen b = .ok ↔ b = false := by cases b <;> simp
theorem faultWhen_ok (b : Bool) (cls : FaultClass) (a : Nat) : faultWhen b cls a = .ok ↔ b = false := by cases b <;> simp

@[simp] theorem checks_nil : checks [] = .ok := rfl
@[simp] theorem checks_ok (cs : List Check) : checks (.ok :: cs) = checks cs := rfl
@[simp] theorem checks_stall (cs : List Check) : checks (.stall :: cs) = .stall := rfl

/-- The checks of a slot pass together exactly where each passes. -/
theorem checks_eq_ok (cs : List Check) : checks cs = .ok ↔ ∀ c ∈ cs, c = .ok := by
  induction cs with
  | nil => simp
  | cons c cs ih =>
    cases c with
    | ok => simp [ih]
    | stall => simp
    | fault f a => simp only [checks]; split <;> simp

/-- The checks of a slot stall exactly where one of them does. -/
theorem checks_eq_stall (cs : List Check) : checks cs = .stall ↔ .stall ∈ cs := by
  induction cs with
  | nil => simp
  | cons c cs ih =>
    cases c with
    | ok => simp [ih]
    | stall => simp
    | fault f a =>
      have hm : Check.stall ∈ Check.fault f a :: cs ↔ Check.stall ∈ cs := by simp
      rw [hm, ← ih]
      simp only [checks]
      split <;> rename_i h <;> simp [h]

/-- An operand check passes where no register is busy. -/
theorem readyG_ok (rs : List Reg) : readyG s rs = .ok ↔ ∀ r ∈ rs, s.here.busyG r.toNat = false := by
  simp [readyG, stallWhen_ok]

theorem readyG_stall (rs : List Reg) (h : ∃ r ∈ rs, s.here.busyG r.toNat = true) : readyG s rs = .stall := by
  have : (rs.any fun r => s.here.busyG r.toNat) = true := by simpa using h
  simp [readyG, this]

/-- A landing, and one after another. -/
theorem land_eq (L : Nat) (e : Effect) :
    land L e s = { s with ctxs := Sparse.put s.ctxs s.focusCtx { s.here with work := { s.here.work with
      landing := s.here.work.landing ++ [{ due := s.here.count + L, age := s.age, eff := e, held := false }] } } } := rfl

@[simp] theorem here_land (L : Nat) (e : Effect) :
    (land L e s).here = { s.here with work := { s.here.work with
      landing := s.here.work.landing ++ [{ due := s.here.count + L, age := s.age, eff := e, held := false }] } } := by
  simp [land]

@[simp] theorem age_land (L : Nat) (e : Effect) : (land L e s).age = s.age := by simp [State.age]

/-- What a scalar operation answers: a stall, or one landing. -/
theorem scalarOp_ready (d : Reg) (srcs : List Reg) (L : Nat) (x : W64)
    (h : ∀ r ∈ d :: srcs, s.here.busyG r.toNat = false) : scalarOp d srcs L x s = effect (land L (.g d.toNat x) s) := by
  simp [scalarOp, (readyG_ok s (d :: srcs)).mpr h]

theorem scalarOp_busy (d : Reg) (srcs : List Reg) (L : Nat) (x : W64)
    (h : ∃ r ∈ d :: srcs, s.here.busyG r.toNat = true) : scalarOp d srcs L x s = waits s := by
  simp [scalarOp, readyG_stall s (d :: srcs) h]

/-- No `g0` is ever busy. -/
@[simp] theorem Ctx.busyG_zero (c : Ctx) : c.busyG 0 = false := rfl

/-! ### Registers (R32) -/

theorem Regs.readG_writeG (r : Regs) (i j : Nat) (x : W64) (hr : Sparse.risingFrom none r.g = true) :
    (r.writeG i x).readG j = if j = i ∧ i ≠ 0 then x else r.readG j := by
  unfold Regs.writeG Regs.readG
  by_cases hi : i = 0
  · simp [hi]
  · by_cases hj : j = 0
    · simp only [hi, hj, if_false, if_true]; rw [if_neg (by omega)]
    · simp only [hi, hj, if_false, Sparse.get_set _ _ _ _ _ hr]
      by_cases h : j = i <;> simp [h, hi]

@[simp] theorem Regs.writeG_zero (r : Regs) (x : W64) : r.writeG 0 x = r := rfl
@[simp] theorem Regs.writeM_zero (r : Regs) (m x : W64) : r.writeM 0 m x = r := rfl
@[simp] theorem Regs.readG_zero (r : Regs) : r.readG 0 = 0 := rfl
@[simp] theorem Regs.readM_zero (r : Regs) : r.readM 0 = BitVec.allOnes 64 := rfl

/-! ### Landing order (R94) -/

theorem insertPending_perm (p : Pending) (l : List Pending) : (insertPending p l).Perm (p :: l) := by
  induction l with
  | nil => exact List.Perm.refl _
  | cons q qs ih =>
    simp only [insertPending]
    split
    · exact List.Perm.refl _
    · exact (ih.cons q).trans (List.Perm.swap p q qs)

/-- Nothing is lost or doubled by the order. -/
theorem sortPending_perm (l : List Pending) : (sortPending l).Perm l := by
  induction l with
  | nil => exact List.Perm.refl _
  | cons p ps ih => exact (insertPending_perm p _).trans (ih.cons p)

end Sys2Proof.Machine
end

