-- ==== Sys2Proof/Laws/Exceptions.lean ====
section
/-! SUPPORT. What the distributor's writes, notices and routes of a fault leave of every context, core and continuation. -/

namespace Sys2Proof.Machine

/-- Two contexts agree in all but a sleeping `park` and the fields that a halt changes. -/
structure Ctx.SameProgram (c d : Ctx) : Prop where
  regs : d.regs = c.regs
  count : d.count = c.count
  pc : d.pc = c.pc
  retired : d.retired = c.retired
  landing : d.work.landing = c.work.landing
  memOps : d.work.memOps = c.work.memOps
  replay : d.work.replay = c.work.replay
  fault : d.fault = c.fault
  cont : d.cont = c.cont
  rank : d.rank = c.rank

theorem Ctx.SameProgram.refl (c : Ctx) : c.SameProgram c := ⟨rfl, rfl, rfl, rfl, rfl, rfl, rfl, rfl, rfl, rfl⟩

theorem Ctx.SameProgram.trans {c d e : Ctx} (h : c.SameProgram d) (k : d.SameProgram e) : c.SameProgram e :=
  ⟨k.regs.trans h.regs, k.count.trans h.count, k.pc.trans h.pc, k.retired.trans h.retired, k.landing.trans h.landing,
    k.memOps.trans h.memOps, k.replay.trans h.replay, k.fault.trans h.fault, k.cont.trans h.cont, k.rank.trans h.rank⟩

/-- What an operation of the distributor leaves: the program of every context, the scratchpads, the cores, and of the continuations
all but what it says. -/
structure Distributes (s t : State) : Prop where
  ctx : ∀ g, (s.ctx g).SameProgram (t.ctx g)
  scratch : t.store.scratch = s.store.scratch
  full : t.store.full = s.store.full
  cores : t.cores = s.cores
  focusCtx : t.focusCtx = s.focusCtx
  focusSlot : t.focusSlot = s.focusSlot

theorem Distributes.refl (s : State) : Distributes s s := ⟨fun _ => .refl _, rfl, rfl, rfl, rfl, rfl⟩

theorem Distributes.trans {s t u : State} (h : Distributes s t) (k : Distributes t u) : Distributes s u :=
  ⟨fun g => (h.ctx g).trans (k.ctx g), k.scratch.trans h.scratch, k.full.trans h.full, k.cores.trans h.cores,
    k.focusCtx.trans h.focusCtx, k.focusSlot.trans h.focusSlot⟩

/-- A change of the device record alone. -/
theorem Distributes.mapDev (s : State) (f : Device → Device) : Distributes s (s.mapDev f) :=
  ⟨fun _ => .refl _, rfl, rfl, rfl, rfl, rfl⟩

theorem Distributes.mapCont (s : State) (i : Nat) (f : Cont → Cont) : Distributes s (s.mapCont i f) := .mapDev s _

theorem Distributes.output (s : State) (o : Output) : Distributes s (s.output o) := .mapDev s _

/-- A wake of waiters changes nothing but which `park` sleeps. -/
theorem noteWaiters_ctx (line g : Nat) (s : State) : (s.ctx g).SameProgram ((noteWaiters line s).ctx g) := by
  unfold noteWaiters State.ctx
  refine Sparse.get_map_rel Ctx.SameProgram _ _ _ _ (.refl _) fun e => ?_
  simp only
  split
  · split <;> exact ⟨rfl, rfl, rfl, rfl, rfl, rfl, rfl, rfl, rfl, rfl⟩
  · exact .refl _

theorem Distributes.noteWaiters (line : Nat) (s : State) : Distributes s (noteWaiters line s) :=
  ⟨fun g => noteWaiters_ctx line g s, rfl, rfl, rfl, rfl, rfl⟩

@[simp] theorem noteWaiters_store (line : Nat) (s : State) : (Sys2Proof.Machine.noteWaiters line s).store = s.store := rfl
@[simp] theorem noteWaiters_conts (line : Nat) (s : State) : (Sys2Proof.Machine.noteWaiters line s).dev.conts = s.dev.conts := rfl
@[simp] theorem noteWaiters_outputs (line : Nat) (s : State) : (Sys2Proof.Machine.noteWaiters line s).dev.outputs = s.dev.outputs := rfl

/-- The waiters of several lines. -/
theorem noteWaiters_fold (ls : List Nat) (s : State) :
    Distributes s (ls.foldl (fun s l => Sys2Proof.Machine.noteWaiters l s) s) ∧
    (ls.foldl (fun s l => Sys2Proof.Machine.noteWaiters l s) s).store = s.store ∧
    (ls.foldl (fun s l => Sys2Proof.Machine.noteWaiters l s) s).dev.conts = s.dev.conts ∧
    (ls.foldl (fun s l => Sys2Proof.Machine.noteWaiters l s) s).dev.outputs = s.dev.outputs := by
  induction ls generalizing s with
  | nil => exact ⟨.refl s, rfl, rfl, rfl⟩
  | cons l ls ih =>
    obtain ⟨a, b, c, d⟩ := ih (Sys2Proof.Machine.noteWaiters l s)
    exact ⟨(Distributes.noteWaiters l s).trans a, b, c, d⟩

/-! ### What the homes leave of the scratchpads -/

/-- Two stores have the same scratchpads. -/
def Store.SameScratch (a b : Store) : Prop := b.scratch = a.scratch ∧ b.full = a.full ∧ b.marks = a.marks ∧ b.tiles = a.tiles

theorem Store.SameScratch.refl (a : Store) : a.SameScratch a := ⟨rfl, rfl, rfl, rfl⟩

theorem Store.SameScratch.trans {a b c : Store} (h : a.SameScratch b) (k : b.SameScratch c) : a.SameScratch c :=
  ⟨k.1.trans h.1, k.2.1.trans h.2.1, k.2.2.1.trans h.2.2.1, k.2.2.2.trans h.2.2.2⟩

theorem setDir_same (st : Store) (l : Nat) (d : DirEntry) : st.SameScratch (setDir st l d) := ⟨rfl, rfl, rfl, rfl⟩
theorem putCopy_same (st : Store) (h l : Nat) (c : Copy) : st.SameScratch (putCopy st h l c) := ⟨rfl, rfl, rfl, rfl⟩
theorem dropCopy_same (st : Store) (h l : Nat) : st.SameScratch (dropCopy st h l) := ⟨rfl, rfl, rfl, rfl⟩
theorem dropWhere_same (st : Store) (l : Nat) (p : Nat → Copy → Bool) : st.SameScratch (dropWhere st l p) := ⟨rfl, rfl, rfl, rfl⟩
theorem mem_same (st : Store) (m : List Host.Cell) : st.SameScratch { st with mem := m } := ⟨rfl, rfl, rfl, rfl⟩

theorem foldl_sameScratch {α : Type} (f : Store → α → Store) (hf : ∀ (st : Store) (x : α), st.SameScratch (f st x)) (l : List α) (st : Store) :
    st.SameScratch (l.foldl f st) := by
  induction l generalizing st with
  | nil => exact .refl st
  | cons x xs ih => exact (hf st x).trans (ih _)

theorem foldRead_scratch (st : Store) (l ts : Nat) : st.SameScratch (foldRead st l ts) := by
  unfold foldRead; split
  · split
    · exact putCopy_same _ _ _ _
    · exact .refl st
  · exact setDir_same _ _ _

theorem invalidateWhere_scratch (st : Store) (l : Nat) (p : Nat → Bool) : st.SameScratch (invalidateWhere st l p) :=
  (dropWhere_same st l _).trans (foldRead_scratch _ _ _)

theorem takePartial_scratch (l : Nat) (st : Store) (e : Nat × Copy) : st.SameScratch (takePartial l st e) := by
  unfold takePartial; split
  · dsimp only; split
    · exact (dropCopy_same _ _ _).trans (putCopy_same _ _ _ _)
    · exact (dropCopy_same st _ _).trans ((mem_same _ _).trans (setDir_same _ _ _))
  · exact .refl st

theorem takePartials_scratch (l : Nat) (ps : List (Nat × Copy)) (st : Store) : st.SameScratch (ps.foldl (takePartial l) st) :=
  foldl_sameScratch (takePartial l) (takePartial_scratch l) ps st

theorem combineDie_scratch (st : Store) (l d : Nat) : st.SameScratch (combineDie st l d) := by
  unfold combineDie; dsimp only
  split
  · exact (takePartials_scratch l _ st).trans (setDir_same _ _ _)
  · exact takePartials_scratch l _ st

theorem combineLine_scratch (st : Store) (l : Nat) : st.SameScratch (combineLine st l) := by
  unfold combineLine
  exact (foldl_sameScratch _ (fun st d => combineDie_scratch st l d) (List.range 4) st).trans (setDir_same _ _ _)

theorem recallLine_scratch (st : Store) (l : Nat) : st.SameScratch (recallLine st l) := by
  have h := (takePartials_scratch l (partialsOf st l) st).trans (invalidateWhere_scratch _ l fun _ => true)
  unfold recallLine combineInDie; dsimp only
  split
  · refine h.trans (Store.SameScratch.trans ?_ (setDir_same _ _ _))
    exact ⟨rfl, rfl, rfl, rfl⟩
  · exact h.trans (setDir_same _ _ _)

theorem readyToWrite_scratch (st : Store) (l : Nat) : st.SameScratch (readyToWrite st l) := by
  unfold readyToWrite; split
  · unfold invalidateAll
    exact (invalidateWhere_scratch _ _ _).trans (setDir_same _ _ _)
  · unfold readyToRead; split
    · exact recallLine_scratch st l
    · exact combineLine_scratch st l
    · exact .refl st

theorem homeStoreLine_scratch (st : Store) (l o p : Nat) (d : List Byte) : st.SameScratch (homeStoreLine st l o p d).2 := by
  unfold homeStoreLine; simp only
  split
  · refine Store.SameScratch.trans ?_ ((foldl_sameScratch _ (fun st e => putCopy_same st _ _ _) _ _).trans (setDir_same _ _ _))
    split
    · exact (mem_same st _).trans (putCopy_same _ _ _ _)
    · exact mem_same st _
  · unfold storeAtHome
    exact (readyToWrite_scratch st l).trans ((mem_same _ _).trans (setDir_same _ _ _))

theorem homeStore_scratch (st : Store) (pa p : Nat) (d : List Byte) : st.SameScratch (homeStore st pa p d).2 := by
  unfold homeStore
  generalize d.length / 64 + 2 = fuel
  induction fuel generalizing st pa p d with
  | zero => exact .refl st
  | succ n ih =>
    simp only [homeStoreFrom]
    split
    · exact .refl st
    · exact (homeStoreLine_scratch st _ _ _ _).trans (ih _ _ _ _)

/-! ### Writes and notices of the distributor -/

/-- A line counts as written: only wakes follow. -/
theorem noteWrite_spec (line : Nat) (s : State) :
    Distributes s (noteWrite line s) ∧ (noteWrite line s).store = s.store ∧ (noteWrite line s).dev.conts = s.dev.conts ∧
    (noteWrite line s).dev.outputs = s.dev.outputs :=
  ⟨(Distributes.noteWaiters line s).trans (by unfold noteWrite noteDevice; exact .mapDev _ _), rfl, rfl, rfl⟩

/-- The same for every line whose partials have been combined. -/
theorem noteCombines_spec (before s : State) :
    Distributes s (noteCombines before s) ∧ (noteCombines before s).store = s.store ∧
    (noteCombines before s).dev.conts = s.dev.conts ∧ (noteCombines before s).dev.outputs = s.dev.outputs := by
  unfold noteCombines
  refine foldl_keeps (fun t : State => Distributes s t ∧ t.store = s.store ∧ t.dev.conts = s.dev.conts ∧
    t.dev.outputs = s.dev.outputs) _ _ _ ⟨.refl s, rfl, rfl, rfl⟩ ?_
  rintro t line ⟨a, b, c, d⟩
  split
  · exact ⟨a, b, c, d⟩
  · obtain ⟨a', b', c', d'⟩ := noteWrite_spec line t
    exact ⟨a.trans a', b'.trans b, c'.trans c, d'.trans d⟩

/-- Nothing leaves the device but requests to the host to give lines up. -/
def OnlyAsks (s t : State) : Prop := ∃ ls : List Nat, t.dev.outputs = s.dev.outputs ++ ls.map Output.backInvalidate

theorem OnlyAsks.of_eq {s t : State} (h : t.dev.outputs = s.dev.outputs) : OnlyAsks s t := ⟨[], by simp [h]⟩

theorem OnlyAsks.refl (s : State) : OnlyAsks s s := .of_eq rfl

theorem OnlyAsks.trans {s t u : State} (h : OnlyAsks s t) (k : OnlyAsks t u) : OnlyAsks s u := by
  obtain ⟨x, hx⟩ := h
  obtain ⟨y, hy⟩ := k
  exact ⟨x ++ y, by rw [hy, hx]; simp⟩

/-- The host asked for a line. -/
theorem askHost_spec (l : Nat) (s : State) :
    Distributes s (askHost l s) ∧ (askHost l s).dev.conts = s.dev.conts ∧ OnlyAsks s (askHost l s) := by
  unfold askHost
  split
  · exact ⟨.refl s, rfl, .refl s⟩
  · exact ⟨(Distributes.mapDev s _).trans (.output _ _), rfl, [l], rfl⟩

theorem askLines_spec (ls : List Nat) (s : State) :
    Distributes s (askLines ls s) ∧ (askLines ls s).dev.conts = s.dev.conts ∧ OnlyAsks s (askLines ls s) := by
  unfold askLines
  induction ls generalizing s with
  | nil => exact ⟨.refl s, rfl, .refl s⟩
  | cons l ls ih =>
    obtain ⟨a, b, c⟩ := askHost_spec l s
    obtain ⟨a', b', c'⟩ := ih (askHost l s)
    exact ⟨a.trans a', b'.trans b, c.trans c'⟩

/-- A store of the distributor: memory changes, the continuations and the outputs stay. -/
theorem distStore_spec (pa : Nat) (data : List Byte) (s : State) :
    Distributes s (distStore pa data s) ∧ (distStore pa data s).dev.conts = s.dev.conts ∧
    (distStore pa data s).dev.outputs = s.dev.outputs := by
  unfold distStore
  have h := homeStore_scratch s.store pa (topTimestamp s) data
  generalize homeStore s.store pa (topTimestamp s) data = r at h
  obtain ⟨ts, st⟩ := r
  dsimp only at h ⊢
  have hd : Distributes s { s with store := st, dev := { s.dev with largest := ts } } :=
    ⟨fun _ => .refl _, h.1, h.2.1, rfl, rfl, rfl⟩
  obtain ⟨p, -, q, r⟩ := noteCombines_spec s { s with store := st, dev := { s.dev with largest := ts } }
  obtain ⟨a, -, c, d⟩ := noteWaiters_fold (lineSpan pa data.length)
    (noteCombines s { s with store := st, dev := { s.dev with largest := ts } })
  exact ⟨(hd.trans p).trans a, c.trans q, d.trans r⟩

/-- A write of the distributor, now or once the host has given its lines up. -/
theorem distWrite_spec (pa : Nat) (data : List Byte) (s : State) :
    Distributes s (distWrite pa data s) ∧ (distWrite pa data s).dev.conts = s.dev.conts ∧ OnlyAsks s (distWrite pa data s) := by
  unfold distWrite
  split
  · obtain ⟨a, b, c⟩ := distStore_spec pa data s
    exact ⟨a, b, .of_eq c⟩
  · obtain ⟨a, b, c⟩ := askLines_spec (hostHolds s pa data.length)
      (s.mapDev fun d => { d with acts := d.acts ++ [.write pa data] })
    exact ⟨(Distributes.mapDev s _).trans a, b, (OnlyAsks.of_eq rfl).trans c⟩

theorem writeLine_spec (i : Nat) (s : State) :
    Distributes s (writeLine i s) ∧ (writeLine i s).dev.conts = s.dev.conts ∧ OnlyAsks s (writeLine i s) :=
  distWrite_spec _ _ s

theorem writeState_spec (i : Nat) (s : State) :
    Distributes s (writeState i s) ∧ (writeState i s).dev.conts = s.dev.conts ∧ OnlyAsks s (writeState i s) := by
  unfold writeState
  obtain ⟨a, b, c⟩ := distWrite_spec ((s.cont i).block + 0x200) (countersLine s i) s
  obtain ⟨a', b', c'⟩ := distWrite_spec ((s.cont i).block + 0x40) (stateLine (s.cont i))
    (distWrite ((s.cont i).block + 0x200) (countersLine s i) s)
  exact ⟨a.trans a', b'.trans b, c.trans c'⟩

theorem sendNotice_spec (i k : Nat) (s : State) :
    Distributes s (sendNotice i k s) ∧ (sendNotice i k s).dev.conts = s.dev.conts ∧
    (sendNotice i k s).dev.outputs = s.dev.outputs :=
  ⟨by unfold sendNotice; exact .mapDev s _, rfl, rfl⟩

theorem interrupt_spec (v : Nat) (s : State) : Distributes s (interrupt v s) ∧ (interrupt v s).dev.conts = s.dev.conts := by
  unfold interrupt
  split
  · exact ⟨.refl s, rfl⟩
  · split
    · exact ⟨.output s _, rfl⟩
    · exact ⟨.mapDev s _, rfl⟩

theorem State.cont_congr {s t : State} (h : t.dev.conts = s.dev.conts) (i : Nat) : t.cont i = s.cont i := by
  simp [State.cont, h]

/-- The record of a fault (R206): the count rises by 1, every other field of every continuation stays. -/
theorem writeFault_spec (i : Nat) (f : FaultInfo) (s : State) :
    Distributes s (writeFault i f s) ∧ OnlyAsks s (writeFault i f s) ∧
    (writeFault i f s).dev.conts = (s.mapCont i fun c => { c with faults := c.faults + 1 }).dev.conts := by
  unfold writeFault; simp only
  obtain ⟨a, b, c⟩ := distWrite_spec (((s.mapCont i fun c => { c with faults := c.faults + 1 }).cont i).block + 0x1C0)
    (faultRecord f ((s.mapCont i fun c => { c with faults := c.faults + 1 }).cont i).faults)
    (s.mapCont i fun c => { c with faults := c.faults + 1 })
  exact ⟨(Distributes.mapCont s i _).trans a, (OnlyAsks.of_eq rfl).trans c, b⟩

/-- A pre-emption abandoned changes what another continuation reserves and nothing else. -/
theorem abandonPreempt_spec (i : Nat) (s : State) :
    Distributes s (abandonPreempt i s) ∧ (abandonPreempt i s).dev.outputs = s.dev.outputs ∧
    ((Sparse.find s.dev.conts i).isSome → (Sparse.find (abandonPreempt i s).dev.conts i).isSome) ∧
    ((abandonPreempt i s).cont i).faults = (s.cont i).faults := by
  unfold abandonPreempt
  split
  · rename_i w _
    refine ⟨.mapCont s w _, rfl, ?_⟩
    by_cases hw : i = w
    · subst hw
      simp only [State.cont, State.mapCont, State.mapDev, Sparse.get, Sparse.find_adjust_same, Option.isSome_map]
      exact ⟨id, by cases Sparse.find s.dev.conts i <;> rfl⟩
    · simp only [State.cont, State.mapCont, State.mapDev, Sparse.get, Sparse.find_adjust_other _ _ _ _ hw]
      exact ⟨id, trivial⟩
  · exact ⟨.refl s, rfl, id, rfl⟩

theorem enterEnd_spec (i : Nat) (st : ContState) (cause : Nat) (exit : W64) (s : State) :
    Distributes s (enterEnd i st cause exit s) ∧ OnlyAsks s (enterEnd i st cause exit s) ∧
    ((Sparse.find s.dev.conts i).isSome →
      ((enterEnd i st cause exit s).cont i).state = st ∧ ((enterEnd i st cause exit s).cont i).cause = cause ∧
      ((enterEnd i st cause exit s).cont i).exit = exit ∧ ((enterEnd i st cause exit s).cont i).faults = (s.cont i).faults ∧
      (Sparse.find (enterEnd i st cause exit s).dev.conts i).isSome) := by
  unfold enterEnd; simp only
  obtain ⟨a0, b0, c0, f0⟩ := abandonPreempt_spec i s
  generalize abandonPreempt i s = s0 at a0 b0 c0 f0 ⊢
  generalize hs : s0.mapCont i (fun c => { c.abandonHalt with
      state := st, cause := cause, exit := exit, ineligible := false, faultPending := false, callPending := false,
      kennelled := false, faultOf := none, callOf := none, callQueue := [], faultQueue := [],
      blocking := false, clockOn := false }) = t
  obtain ⟨a, b, c⟩ := writeState_spec i t
  obtain ⟨a', b', b2⟩ := sendNotice_spec i 1 (writeState i t)
  have hd : Distributes s t := by subst hs; exact a0.trans (.mapCont s0 i _)
  have ho : OnlyAsks s t := by subst hs; exact .of_eq b0
  refine ⟨(hd.trans a).trans a', (ho.trans c).trans (.of_eq b2), ?_⟩
  intro hi
  have hc : (sendNotice i 1 (writeState i t)).cont i = t.cont i := State.cont_congr (by rw [b', b]) i
  rw [hc, b', b]
  subst hs
  replace hi := c0 hi
  rw [State.cont_mapCont_self s0 i _ hi, ← f0]
  refine ⟨rfl, rfl, rfl, ?_, ?_⟩
  · simp only [Cont.abandonHalt]; split <;> rfl
  · obtain ⟨c, hc⟩ := Option.isSome_iff_exists.mp hi
    simp [State.mapCont, State.mapDev, hc]

/-- A halt requested changes nothing of a program. -/
theorem requestHalt_spec (i : Nat) (why : HaltFor) (s : State) :
    Distributes s (requestHalt i why s) ∧ (requestHalt i why s).dev.outputs = s.dev.outputs ∧
    (requestHalt i why s).dev.conts = (s.mapCont i fun c => { c with halt := some why }).dev.conts := by
  unfold requestHalt; dsimp only
  split
  · refine ⟨?_, rfl, rfl⟩
    refine Distributes.trans (t := { s with ctxs := s.ctxs.map fun e =>
      (e.1, if e.2.cont = i then { e.2 with work := { e.2.work with hold := none } } else e.2) }) ?_ (.mapCont _ i _)
    refine ⟨fun g => ?_, rfl, rfl, rfl, rfl, rfl⟩
    unfold State.ctx
    refine Sparse.get_map_rel Ctx.SameProgram _ _ _ _ (.refl _) fun e => ?_
    dsimp only
    split <;> exact ⟨rfl, rfl, rfl, rfl, rfl, rfl, rfl, rfl, rfl, rfl⟩
  · exact ⟨.mapCont s i _, rfl, rfl⟩

/-- An unrepairable fault (R205): the count has risen, no interrupt is sent, and unless a stage of the watchdog has begun (R239) the
continuation is FAULTED with cause 2. -/
theorem recordUnrepairable_spec (i : Nat) (f : FaultInfo) (s : State) :
    Distributes s (recordUnrepairable i f s) ∧ OnlyAsks s (recordUnrepairable i f s) ∧
    ((Sparse.find s.dev.conts i).isSome →
      ((recordUnrepairable i f s).cont i).faults = (s.cont i).faults + 1 ∧
      ((s.cont i).stage = 0 →
        ((recordUnrepairable i f s).cont i).state = .faulted ∧ ((recordUnrepairable i f s).cont i).cause = 2)) := by
  unfold recordUnrepairable; dsimp only
  obtain ⟨a, b, c⟩ := writeFault_spec i f s
  have e0 : (Sparse.find s.dev.conts i).isSome →
      (writeFault i f s).cont i = { s.cont i with faults := (s.cont i).faults + 1 } := fun hi => by
    rw [State.cont_congr c, State.cont_mapCont_self s i _ hi]
  have e1 : (Sparse.find s.dev.conts i).isSome → (Sparse.find (writeFault i f s).dev.conts i).isSome := fun hi => by
    rw [c]; obtain ⟨x, hx⟩ := Option.isSome_iff_exists.mp hi; simp [State.mapCont, State.mapDev, hx]
  generalize writeFault i f s = s1 at a b e0 e1 ⊢
  split
  · obtain ⟨a', b', c'⟩ := enterEnd_spec i .faulted 2 0 s1
    generalize enterEnd i .faulted 2 0 s1 = s2 at a' b' c' ⊢
    obtain ⟨x, y, z⟩ := requestHalt_spec i (.kill none) s2
    refine ⟨(a.trans a').trans x, (b.trans b').trans (.of_eq y), ?_⟩
    intro hi
    obtain ⟨p, q, -, r, u⟩ := c' (e1 hi)
    rw [State.cont_congr z, State.cont_mapCont_self _ i _ u]
    exact ⟨by rw [r, e0 hi], fun _ => ⟨p, q⟩⟩
  · rename_i hs
    refine ⟨a, b, fun hi => ⟨by rw [e0 hi], fun h0 => absurd ?_ hs⟩⟩
    rw [e0 hi]; exact h0

/-- A repairable fault (R205): the fault is pending for the host, the count has risen, the state stays. -/
theorem recordRepairable_spec (i : Nat) (f : FaultInfo) (s : State) :
    Distributes s (recordRepairable i f s) ∧
    ((Sparse.find s.dev.conts i).isSome →
      ((recordRepairable i f s).cont i).state = (s.cont i).state ∧ ((recordRepairable i f s).cont i).faultPending = true ∧
      ((recordRepairable i f s).cont i).faultOf = some f.rank ∧ ((recordRepairable i f s).cont i).faults = (s.cont i).faults + 1) := by
  unfold recordRepairable; simp only
  obtain ⟨a, -, c⟩ := writeFault_spec i f s
  generalize hs1 : writeFault i f s = s1 at a c ⊢
  generalize hs2 : s1.mapCont i (fun c => { c with faultPending := true, faultOf := some f.rank }) = s2
  have h2 : Distributes s1 s2 := by subst hs2; exact .mapCont s1 i _
  obtain ⟨a3, b3, -⟩ := writeLine_spec i s2
  generalize writeLine i s2 = s3 at a3 b3 ⊢
  obtain ⟨a4, b4, -⟩ := distWrite_spec (s3.dev.dcb + 0x400 + 4 * (s3.dev.faultWrite % 256)) (leBytes 4 i) s3
  generalize hs4 : distWrite (s3.dev.dcb + 0x400 + 4 * (s3.dev.faultWrite % 256)) (leBytes 4 i) s3 = s4 at a4 b4 ⊢
  obtain ⟨a5, b5, -⟩ := distWrite_spec (s4.dev.dcb + 0x100) (leBytes 8 (s3.dev.faultWrite + 1)) s4
  generalize distWrite (s4.dev.dcb + 0x100) (leBytes 8 (s3.dev.faultWrite + 1)) s4 = s5 at a5 b5 ⊢
  obtain ⟨a6, b6⟩ := interrupt_spec 0 (s5.mapDev fun d => { d with faultWrite := s3.dev.faultWrite + 1 })
  refine ⟨((((a.trans h2).trans a3).trans a4).trans a5).trans ((Distributes.mapDev s5 _).trans a6), ?_⟩
  intro hi
  have e : (interrupt 0 (s5.mapDev fun d => { d with faultWrite := s3.dev.faultWrite + 1 })).cont i = s2.cont i :=
    State.cont_congr (by rw [b6]; simp only [State.dev_mapDev]; rw [b5, b4, b3]) i
  have hi1 : (Sparse.find s1.dev.conts i).isSome := by
    rw [c]; obtain ⟨x, hx⟩ := Option.isSome_iff_exists.mp hi; simp [State.mapCont, State.mapDev, hx]
  rw [e]; subst hs2
  rw [State.cont_mapCont_self s1 i _ hi1]
  have e1 : s1.cont i = { s.cont i with faults := (s.cont i).faults + 1 } := by
    rw [State.cont_congr c, State.cont_mapCont_self s i _ hi]
  rw [e1]
  exact ⟨rfl, rfl, rfl, rfl⟩

/-- A fault's route leaves every program as it is (R96, R205). -/
theorem routeFault_spec (h : Nat) (f : FaultInfo) (s : State) : Distributes s (routeFault h f s) := by
  unfold routeFault; simp only
  split
  · exact .refl s
  · split
    · split
      · exact .mapCont s _ _
      · exact (recordRepairable_spec _ f s).1
    · exact (recordUnrepairable_spec _ f s).1

/-- The matrix operations of a context that freeze leave every program. -/
theorem freezeQueue_ctx (h g : Nat) (s : State) : (s.ctx g).SameProgram ((freezeQueue h s).ctx g) := by
  unfold freezeQueue; dsimp only
  split
  · exact .refl _
  · rw [State.ctx_mapCtx]
    split
    · subst_vars; exact ⟨rfl, rfl, rfl, rfl, rfl, rfl, rfl, rfl, rfl, rfl⟩
    · exact .refl _

/-- TAKING AN EXCEPTION: nothing of any program changes but that the context is parked with the fault. -/
theorem takeFault_spec (h : Nat) (f : FaultInfo) (s : State) :
    Distributes (parkFor h f s) (takeFault h f s) ∧ ((takeFault h f s).ctx h).fault = some f := by
  have a := routeFault_spec h f (parkFor h f s)
  refine ⟨a, ?_⟩
  have := (a.ctx h).fault
  unfold takeFault
  rw [this]
  unfold parkFor
  rw [(freezeQueue_ctx h h _).fault]
  simp

end Sys2Proof.Machine
end

