-- ==== Sys2Proof/Laws/PerInstr.lean ====
section
/-! SUPPORT. Decoding the word of a well-formed instruction gives it back, constructor by constructor (R51 to R65). -/

set_option linter.unusedSimpArgs false
set_option linter.unnecessarySeqFocus false

namespace Sys2Proof.Laws.Encoding

/-- The slot that carries a well-formed instruction reads its word as that instruction. -/
def Statement (i : Instr) : Prop := WellFormed i = true → ∀ k, slotOf i = some k → decodeSlot k (encode i) = .ok i

/-- A word with an assigned major is not zero. -/
theorem ne_zero {w : W32} {op : BitVec 6} (h : fld w 26 6 = op) (h0 : op ≠ 0) : w ≠ 0 := by
  rintro rfl
  exact h0 (h.symm.trans (by decide))

/-- The scalar majors but 0x09 to 0x0E, which slot C carries. -/
def majorC (op : BitVec 6) : Bool := !(op == 0 || op == 15 || decide (37 ≤ op.toNat)) && scalarSlotOk true op.toNat
/-- The majors of slot S. -/
def majorS (op : BitVec 6) : Bool := !(op == 0 || op == 15 || decide (37 ≤ op.toNat)) && scalarSlotOk false op.toNat

theorem scalar {i : Instr} (w : W32) (op : BitVec 6) (h : fld w 26 6 = op) (hop : majorC op = true) (hs : slotOf i = some 0)
    (hd : decodeScalarMajor w = .ok i) (k : Nat) (hk : slotOf i = some k) : decodeSlot k w = .ok i := by
  have key : ∀ op : BitVec 6, majorC op = true →
      op ≠ 0 ∧ ¬(op.toNat = 15 ∨ 37 ≤ op.toNat) ∧ scalarSlotOk true op.toNat = true := by decide
  obtain ⟨h0, k1, k2⟩ := key op hop
  obtain rfl : 0 = k := Option.some.inj (hs.symm.trans hk)
  simp only [decodeSlot, ne_zero h h0, h, h0, decodeScalar, k1, k2, if_false, Bool.not_true, Bool.false_eq_true, hd]

theorem scalarS {i : Instr} (w : W32) (op : BitVec 6) (h : fld w 26 6 = op) (hop : majorS op = true) (hs : slotOf i = some 1)
    (hd : decodeScalarMajor w = .ok i) (k : Nat) (hk : slotOf i = some k) : decodeSlot k w = .ok i := by
  have key : ∀ op : BitVec 6, majorS op = true →
      op ≠ 0 ∧ ¬(op.toNat = 15 ∨ 37 ≤ op.toNat) ∧ scalarSlotOk false op.toNat = true := by decide
  obtain ⟨h0, k1, k2⟩ := key op hop
  obtain rfl : 1 = k := Option.some.inj (hs.symm.trans hk)
  simp only [decodeSlot, ne_zero h h0, h, h0, decodeScalar, k1, k2, if_false, Bool.not_true, Bool.false_eq_true, hd]

theorem vecA {i : Instr} (w : W32) (op : BitVec 6) (h : fld w 26 6 = op) (h0 : op ≠ 0) (hs : slotOf i = some 2)
    (hd : decodeVector true w = .ok i) (k : Nat) (hk : slotOf i = some k) : decodeSlot k w = .ok i := by
  obtain rfl : 2 = k := Option.some.inj (hs.symm.trans hk)
  simp only [decodeSlot, ne_zero h h0, h, h0, if_false, hd]

theorem vecB {i : Instr} (w : W32) (op : BitVec 6) (h : fld w 26 6 = op) (h0 : op ≠ 0) (hs : slotOf i = some 3)
    (hd : decodeVector false w = .ok i) (k : Nat) (hk : slotOf i = some k) : decodeSlot k w = .ok i := by
  obtain rfl : 3 = k := Option.some.inj (hs.symm.trans hk)
  simp only [decodeSlot, ne_zero h h0, h, h0, if_false, hd]

theorem vm {i : Instr} (w : W32) (op : BitVec 6) (h : fld w 26 6 = op) (h0 : op ≠ 0) (hs : slotOf i = some 4)
    (hd : decodeVm w = .ok i) (k : Nat) (hk : slotOf i = some k) : decodeSlot k w = .ok i := by
  obtain rfl : 4 = k := Option.some.inj (hs.symm.trans hk)
  simp only [decodeSlot, ne_zero h h0, h, h0, if_false, hd]

theorem mx {i : Instr} (w : W32) (op : BitVec 6) (h : fld w 26 6 = op) (h0 : op ≠ 0) (hs : slotOf i = some 5)
    (hd : decodeMatrix w = .ok i) (k : Nat) (hk : slotOf i = some k) : decodeSlot k w = .ok i := by
  obtain rfl : 5 = k := Option.some.inj (hs.symm.trans hk)
  simp only [decodeSlot, ne_zero h h0, h, h0, if_false, hd]

theorem en {i : Instr} (w : W32) (op : BitVec 6) (h : fld w 26 6 = op) (h0 : op ≠ 0) (hs : slotOf i = some 6)
    (hd : decodeEngine w = .ok i) (k : Nat) (hk : slotOf i = some k) : decodeSlot k w = .ok i := by
  obtain rfl : 6 = k := Option.some.inj (hs.symm.trans hk)
  simp only [decodeSlot, ne_zero h h0, h, h0, if_false, hd]

/-! ### Fields inside fields -/

theorem f23 (w : W32) : fld w 23 3 = (fld w 20 6).extractLsb' 3 3 := fld_sub w 20 6 3 3 (by decide)
theorem f20 (w : W32) : fld w 20 3 = (fld w 20 6).extractLsb' 0 3 := fld_sub w 20 6 0 3 (by decide)
theorem f20b (w : W32) : fld w 20 2 = (fld w 20 6).extractLsb' 0 2 := fld_sub w 20 6 0 2 (by decide)
theorem f22 (w : W32) : fld w 22 4 = (fld w 20 6).extractLsb' 2 4 := fld_sub w 20 6 2 4 (by decide)
theorem f22c (w : W32) : fld w 22 3 = (fld w 20 6).extractLsb' 2 3 := fld_sub w 20 6 2 3 (by decide)
theorem f25 (w : W32) : fld w 25 1 = (fld w 20 6).extractLsb' 5 1 := fld_sub w 20 6 5 1 (by decide)
theorem f17 (w : W32) : fld w 17 3 = (fld w 14 6).extractLsb' 3 3 := fld_sub w 14 6 3 3 (by decide)
theorem f14 (w : W32) : fld w 14 3 = (fld w 14 6).extractLsb' 0 3 := fld_sub w 14 6 0 3 (by decide)
theorem f16 (w : W32) : fld w 16 4 = (fld w 14 6).extractLsb' 2 4 := fld_sub w 14 6 2 4 (by decide)
theorem f14b (w : W32) : fld w 14 2 = (fld w 14 6).extractLsb' 0 2 := fld_sub w 14 6 0 2 (by decide)
theorem f11 (w : W32) : fld w 11 3 = (fld w 8 6).extractLsb' 3 3 := fld_sub w 8 6 3 3 (by decide)
theorem f8 (w : W32) : fld w 8 3 = (fld w 8 6).extractLsb' 0 3 := fld_sub w 8 6 0 3 (by decide)
theorem f8d (w : W32) : fld w 8 4 = (fld w 8 6).extractLsb' 0 4 := fld_sub w 8 6 0 4 (by decide)
theorem f8b (w : W32) : fld w 8 2 = (fld w 8 6).extractLsb' 0 2 := fld_sub w 8 6 0 2 (by decide)
theorem f12b (w : W32) : fld w 12 2 = (fld w 8 6).extractLsb' 4 2 := fld_sub w 8 6 4 2 (by decide)
theorem f10a (w : W32) : fld w 10 1 = (fld w 8 6).extractLsb' 2 1 := fld_sub w 8 6 2 1 (by decide)
theorem f10d (w : W32) : fld w 10 4 = (fld w 8 6).extractLsb' 2 4 := fld_sub w 8 6 2 4 (by decide)
theorem f9 (w : W32) : fld w 9 1 = (fld w 8 6).extractLsb' 1 1 := fld_sub w 8 6 1 1 (by decide)
theorem f0c7 (w : W32) : fld w 0 3 = (fld w 0 7).extractLsb' 0 3 := fld_sub w 0 7 0 3 (by decide)
theorem f0c8 (w : W32) : fld w 0 3 = (fld w 0 8).extractLsb' 0 3 := fld_sub w 0 8 0 3 (by decide)
theorem f3e (w : W32) : fld w 3 5 = (fld w 0 8).extractLsb' 3 5 := fld_sub w 0 8 3 5 (by decide)
theorem f0a (w : W32) : fld w 0 1 = (fld w 0 8).extractLsb' 0 1 := fld_sub w 0 8 0 1 (by decide)
theorem f1 (w : W32) : fld w 1 7 = (fld w 0 8).extractLsb' 1 7 := fld_sub w 0 8 1 7 (by decide)
theorem f13 (w : W32) : fld w 13 1 = (fld w 0 14).extractLsb' 13 1 := fld_sub w 0 14 13 1 (by decide)
theorem f0m (w : W32) : fld w 0 13 = (fld w 0 14).extractLsb' 0 13 := fld_sub w 0 14 0 13 (by decide)
theorem f11i (w : W32) : fld w 11 3 = (fld w 0 14).extractLsb' 11 3 := fld_sub w 0 14 11 3 (by decide)
theorem f10i (w : W32) : fld w 10 1 = (fld w 0 14).extractLsb' 10 1 := fld_sub w 0 14 10 1 (by decide)
theorem f0j (w : W32) : fld w 0 10 = (fld w 0 14).extractLsb' 0 10 := fld_sub w 0 14 0 10 (by decide)
theorem b25 (w : W32) : fld w 25 1 = (fld w 22 4).extractLsb' 3 1 := fld_sub w 22 4 3 1 (by decide)
theorem b22 (w : W32) : fld w 22 3 = (fld w 22 4).extractLsb' 0 3 := fld_sub w 22 4 0 3 (by decide)
theorem v1 (w : W32) : fld w 1 1 = (fld w 0 2).extractLsb' 1 1 := fld_sub w 0 2 1 1 (by decide)
theorem v0 (w : W32) : fld w 0 1 = (fld w 0 2).extractLsb' 0 1 := fld_sub w 0 2 0 1 (by decide)
theorem v11 (w : W32) : fld w 11 3 = (fld w 5 9).extractLsb' 6 3 := fld_sub w 5 9 6 3 (by decide)
theorem v5 (w : W32) : fld w 5 6 = (fld w 5 9).extractLsb' 0 6 := fld_sub w 5 9 0 6 (by decide)
theorem v10 (w : W32) : fld w 10 4 = (fld w 5 9).extractLsb' 5 4 := fld_sub w 5 9 5 4 (by decide)
theorem v9 (w : W32) : fld w 9 1 = (fld w 5 9).extractLsb' 4 1 := fld_sub w 5 9 4 1 (by decide)
theorem v5d (w : W32) : fld w 5 4 = (fld w 5 9).extractLsb' 0 4 := fld_sub w 5 9 0 4 (by decide)

/-- Two zero fields side by side. -/
theorem zero_join {w : W32} {lo n : Nat} (m : Nat) (h : fld w lo n = 0) (h' : fld w (lo + n) m = 0) : fld w lo (n + m) = 0 := by
  apply BitVec.eq_of_getLsbD_eq
  intro i hi
  by_cases hn : i < n
  · have := congrArg (fun x => x.getLsbD i) h
    simp [BitVec.getLsbD_extractLsb', hn] at this
    simp [BitVec.getLsbD_extractLsb', hi, this]
  · have := congrArg (fun x => x.getLsbD (i - n)) h'
    simp [BitVec.getLsbD_extractLsb', show i - n < m by omega, show lo + n + (i - n) = lo + i by omega] at this
    simp [BitVec.getLsbD_extractLsb', hi, this]

theorem r3_high (x : Reg3) : (r3 x).extractLsb' 3 3 = 0 := by revert x; decide
theorem r3_low (x : Reg3) : (r3 x).extractLsb' 0 3 = x := by revert x; decide

/-! ### Codes of types, policies and the like -/

theorem elemTypeOf_code (t : ElemType) : elemTypeOf (elemTypeCode t) = some t := by
  cases t <;> first | rfl | (rename_i n; revert n; decide)
theorem matTypeOf_code (t : MatType) : matTypeOf (matTypeCode t) = some t := by
  cases t <;> first | rfl | (rename_i n; revert n; decide)
theorem policyOf_code (p : Policy) : policyOf (policyCode p) = p := by cases p <;> rfl
theorem roundingOf_code (r : Rounding) : roundingOf (roundingCode r) = r := by cases r <;> rfl
theorem condOf_code (c : Cond) : condOf (condCode c) = c := by cases c <;> rfl
theorem sysRegOf_number (n : SysReg) : sysRegOf (sysRegNumber n) = some n := by
  cases n with
  | crng n => revert n; decide
  | nf n => revert n; decide
  | walk i j => revert i j; decide
  | _ => rfl
theorem vcondOf_code (c : VCond) : vcondOf (vcondCode c) = some c := by cases c <;> rfl
theorem j8 (j : BitVec 3) : j = 0 ∨ j = 1 ∨ j = 2 ∨ j = 3 ∨ j = 4 ∨ j = 5 ∨ j = 6 ∨ j = 7 := by revert j; decide
theorem bit_one (b : Bool) : (bit b == 1#1) = b := bit_eq b

/-! ### Small fields side by side -/

theorem app53h (x : BitVec 5) (y : BitVec 3) : (x ++ y).extractLsb' 3 5 = x := by
  apply BitVec.eq_of_toNat_eq
  simp only [BitVec.extractLsb'_toNat, Nat.shiftRight_eq_div_pow, toNat_app, BitVec.ofNat_eq_ofNat, BitVec.toNat_ofNat]
  omega
theorem app53l (x : BitVec 5) (y : BitVec 3) : (x ++ y).extractLsb' 0 3 = y := by
  apply BitVec.eq_of_toNat_eq
  simp only [BitVec.extractLsb'_toNat, Nat.shiftRight_eq_div_pow, toNat_app, BitVec.ofNat_eq_ofNat, BitVec.toNat_ofNat]
  omega
theorem app71h (x : BitVec 7) (y : BitVec 1) : (x ++ y).extractLsb' 1 7 = x := by
  apply BitVec.eq_of_toNat_eq
  simp only [BitVec.extractLsb'_toNat, Nat.shiftRight_eq_div_pow, toNat_app, BitVec.ofNat_eq_ofNat, BitVec.toNat_ofNat]
  omega
theorem app71l (x : BitVec 7) (y : BitVec 1) : (x ++ y).extractLsb' 0 1 = y := by
  apply BitVec.eq_of_toNat_eq
  simp only [BitVec.extractLsb'_toNat, Nat.shiftRight_eq_div_pow, toNat_app, BitVec.ofNat_eq_ofNat, BitVec.toNat_ofNat]
  omega
theorem app113h (x : BitVec 1) (y : BitVec 13) : (x ++ y).extractLsb' 13 1 = x := by
  apply BitVec.eq_of_toNat_eq
  simp only [BitVec.extractLsb'_toNat, Nat.shiftRight_eq_div_pow, toNat_app, BitVec.ofNat_eq_ofNat, BitVec.toNat_ofNat]
  omega
theorem app113l (x : BitVec 1) (y : BitVec 13) : (x ++ y).extractLsb' 0 13 = y := by
  apply BitVec.eq_of_toNat_eq
  simp only [BitVec.extractLsb'_toNat, Nat.shiftRight_eq_div_pow, toNat_app, BitVec.ofNat_eq_ofNat, BitVec.toNat_ofNat]
  omega
theorem app13h (x : BitVec 1) (y : BitVec 3) : (x ++ y).extractLsb' 3 1 = x := by
  apply BitVec.eq_of_toNat_eq
  simp only [BitVec.extractLsb'_toNat, Nat.shiftRight_eq_div_pow, toNat_app, BitVec.ofNat_eq_ofNat, BitVec.toNat_ofNat]
  omega
theorem app13l (x : BitVec 1) (y : BitVec 3) : (x ++ y).extractLsb' 0 3 = y := by
  apply BitVec.eq_of_toNat_eq
  simp only [BitVec.extractLsb'_toNat, Nat.shiftRight_eq_div_pow, toNat_app, BitVec.ofNat_eq_ofNat, BitVec.toNat_ofNat]
  omega
theorem app33h (x : BitVec 3) (y : BitVec 3) : (x ++ y).extractLsb' 3 3 = x := by
  apply BitVec.eq_of_toNat_eq
  simp only [BitVec.extractLsb'_toNat, Nat.shiftRight_eq_div_pow, toNat_app, BitVec.ofNat_eq_ofNat, BitVec.toNat_ofNat]
  omega
theorem app33l (x : BitVec 3) (y : BitVec 3) : (x ++ y).extractLsb' 0 3 = y := by
  apply BitVec.eq_of_toNat_eq
  simp only [BitVec.extractLsb'_toNat, Nat.shiftRight_eq_div_pow, toNat_app, BitVec.ofNat_eq_ofNat, BitVec.toNat_ofNat]
  omega
theorem app24h (x : BitVec 2) (y : BitVec 4) : (x ++ y).extractLsb' 4 2 = x := by
  apply BitVec.eq_of_toNat_eq
  simp only [BitVec.extractLsb'_toNat, Nat.shiftRight_eq_div_pow, toNat_app, BitVec.ofNat_eq_ofNat, BitVec.toNat_ofNat]
  omega
theorem app24l (x : BitVec 2) (y : BitVec 4) : (x ++ y).extractLsb' 0 4 = y := by
  apply BitVec.eq_of_toNat_eq
  simp only [BitVec.extractLsb'_toNat, Nat.shiftRight_eq_div_pow, toNat_app, BitVec.ofNat_eq_ofNat, BitVec.toNat_ofNat]
  omega
theorem app42h (x : BitVec 4) (y : BitVec 2) : (x ++ y).extractLsb' 2 4 = x := by
  apply BitVec.eq_of_toNat_eq
  simp only [BitVec.extractLsb'_toNat, Nat.shiftRight_eq_div_pow, toNat_app, BitVec.ofNat_eq_ofNat, BitVec.toNat_ofNat]
  omega
theorem app42l (x : BitVec 4) (y : BitVec 2) : (x ++ y).extractLsb' 0 2 = y := by
  apply BitVec.eq_of_toNat_eq
  simp only [BitVec.extractLsb'_toNat, Nat.shiftRight_eq_div_pow, toNat_app, BitVec.ofNat_eq_ofNat, BitVec.toNat_ofNat]
  omega
theorem app36h (x : BitVec 3) (y : BitVec 6) : (x ++ y).extractLsb' 6 3 = x := by
  apply BitVec.eq_of_toNat_eq
  simp only [BitVec.extractLsb'_toNat, Nat.shiftRight_eq_div_pow, toNat_app, BitVec.ofNat_eq_ofNat, BitVec.toNat_ofNat]
  omega
theorem app36l (x : BitVec 3) (y : BitVec 6) : (x ++ y).extractLsb' 0 6 = y := by
  apply BitVec.eq_of_toNat_eq
  simp only [BitVec.extractLsb'_toNat, Nat.shiftRight_eq_div_pow, toNat_app, BitVec.ofNat_eq_ofNat, BitVec.toNat_ofNat]
  omega
theorem app11h (x : BitVec 1) (y : BitVec 1) : (x ++ y).extractLsb' 1 1 = x := by
  apply BitVec.eq_of_toNat_eq
  simp only [BitVec.extractLsb'_toNat, Nat.shiftRight_eq_div_pow, toNat_app, BitVec.ofNat_eq_ofNat, BitVec.toNat_ofNat]
  omega
theorem app11l (x : BitVec 1) (y : BitVec 1) : (x ++ y).extractLsb' 0 1 = y := by
  apply BitVec.eq_of_toNat_eq
  simp only [BitVec.extractLsb'_toNat, Nat.shiftRight_eq_div_pow, toNat_app, BitVec.ofNat_eq_ofNat, BitVec.toNat_ofNat]
  omega
theorem app3110a (x : BitVec 3) (y : BitVec 1) (z : BitVec 10) : (x ++ y ++ z).extractLsb' 11 3 = x := by
  apply BitVec.eq_of_toNat_eq
  simp only [BitVec.extractLsb'_toNat, Nat.shiftRight_eq_div_pow, toNat_app, BitVec.ofNat_eq_ofNat, BitVec.toNat_ofNat]
  omega
theorem app3110b (x : BitVec 3) (y : BitVec 1) (z : BitVec 10) : (x ++ y ++ z).extractLsb' 10 1 = y := by
  apply BitVec.eq_of_toNat_eq
  simp only [BitVec.extractLsb'_toNat, Nat.shiftRight_eq_div_pow, toNat_app, BitVec.ofNat_eq_ofNat, BitVec.toNat_ofNat]
  omega
theorem app3110c (x : BitVec 3) (y : BitVec 1) (z : BitVec 10) : (x ++ y ++ z).extractLsb' 0 10 = z := by
  apply BitVec.eq_of_toNat_eq
  simp only [BitVec.extractLsb'_toNat, Nat.shiftRight_eq_div_pow, toNat_app, BitVec.ofNat_eq_ofNat, BitVec.toNat_ofNat]
  omega
theorem app312a (x : BitVec 3) (y : BitVec 1) (z : BitVec 2) : (x ++ y ++ z).extractLsb' 3 3 = x := by
  apply BitVec.eq_of_toNat_eq
  simp only [BitVec.extractLsb'_toNat, Nat.shiftRight_eq_div_pow, toNat_app, BitVec.ofNat_eq_ofNat, BitVec.toNat_ofNat]
  omega
theorem app312b (x : BitVec 3) (y : BitVec 1) (z : BitVec 2) : (x ++ y ++ z).extractLsb' 2 1 = y := by
  apply BitVec.eq_of_toNat_eq
  simp only [BitVec.extractLsb'_toNat, Nat.shiftRight_eq_div_pow, toNat_app, BitVec.ofNat_eq_ofNat, BitVec.toNat_ofNat]
  omega
theorem app312c (x : BitVec 3) (y : BitVec 1) (z : BitVec 2) : (x ++ y ++ z).extractLsb' 0 2 = z := by
  apply BitVec.eq_of_toNat_eq
  simp only [BitVec.extractLsb'_toNat, Nat.shiftRight_eq_div_pow, toNat_app, BitVec.ofNat_eq_ofNat, BitVec.toNat_ofNat]
  omega
theorem app414a (x : BitVec 4) (y : BitVec 1) (z : BitVec 4) : (x ++ y ++ z).extractLsb' 5 4 = x := by
  apply BitVec.eq_of_toNat_eq
  simp only [BitVec.extractLsb'_toNat, Nat.shiftRight_eq_div_pow, toNat_app, BitVec.ofNat_eq_ofNat, BitVec.toNat_ofNat]
  omega
theorem app414b (x : BitVec 4) (y : BitVec 1) (z : BitVec 4) : (x ++ y ++ z).extractLsb' 4 1 = y := by
  apply BitVec.eq_of_toNat_eq
  simp only [BitVec.extractLsb'_toNat, Nat.shiftRight_eq_div_pow, toNat_app, BitVec.ofNat_eq_ofNat, BitVec.toNat_ofNat]
  omega
theorem app414c (x : BitVec 4) (y : BitVec 1) (z : BitVec 4) : (x ++ y ++ z).extractLsb' 0 4 = z := by
  apply BitVec.eq_of_toNat_eq
  simp only [BitVec.extractLsb'_toNat, Nat.shiftRight_eq_div_pow, toNat_app, BitVec.ofNat_eq_ofNat, BitVec.toNat_ofNat]
  omega
theorem app42m (p : BitVec 2) (h : p.toNat < 2) : (0#4 ++ p).extractLsb' 1 1 = 0 := by revert p; decide
theorem app042a (n : BitVec 2) : (0#4 ++ n).extractLsb' 5 1 = 0 := by revert n; decide
theorem app042b (n : BitVec 2) : (0#4 ++ n).extractLsb' 2 3 = 0 := by revert n; decide
theorem app842a (n : BitVec 2) : (8#4 ++ n).extractLsb' 5 1 = 1 := by revert n; decide
theorem app842b (n : BitVec 2) : (8#4 ++ n).extractLsb' 2 3 = 0 := by revert n; decide

/-! ### The instructions -/

theorem nop : Statement (.nop) := by
  intro _ k hk
  obtain rfl : 0 = k := Option.some.inj hk
  rfl
theorem add (d a b : Reg) (w : Bool) : Statement (.add d a b w) := by
  intro hw
  have h := encAlu_fields d a b w 0x00
  refine scalar (encAlu d a b w 0x00) 1 h.1 (by decide) rfl ?_
  generalize encAlu d a b w 0x00 = x at h ⊢
  unfold decodeScalarMajor
  rw [h.1]
  dsimp only [BitVec.ofNat_eq_ofNat, BitVec.reduceToNat]
  unfold decodeAlu
  rw [h.2.2.2.2.2]
  dsimp only [BitVec.ofNat_eq_ofNat, BitVec.reduceToNat]
  simp only [accept, bit_one, bit_eq, BitVec.ofNat_eq_ofNat, BitVec.reduceToNat, aluW, h] <;> rfl
theorem sub (d a b : Reg) (w : Bool) : Statement (.sub d a b w) := by
  intro hw
  have h := encAlu_fields d a b w 0x01
  refine scalar (encAlu d a b w 0x01) 1 h.1 (by decide) rfl ?_
  generalize encAlu d a b w 0x01 = x at h ⊢
  unfold decodeScalarMajor
  rw [h.1]
  dsimp only [BitVec.ofNat_eq_ofNat, BitVec.reduceToNat]
  unfold decodeAlu
  rw [h.2.2.2.2.2]
  dsimp only [BitVec.ofNat_eq_ofNat, BitVec.reduceToNat]
  simp only [accept, bit_one, bit_eq, BitVec.ofNat_eq_ofNat, BitVec.reduceToNat, aluW, h] <;> rfl
theorem mul (d a b : Reg) (w : Bool) : Statement (.mul d a b w) := by
  intro hw
  have h := encAlu_fields d a b w 0x02
  refine scalar (encAlu d a b w 0x02) 1 h.1 (by decide) rfl ?_
  generalize encAlu d a b w 0x02 = x at h ⊢
  unfold decodeScalarMajor
  rw [h.1]
  dsimp only [BitVec.ofNat_eq_ofNat, BitVec.reduceToNat]
  unfold decodeAlu
  rw [h.2.2.2.2.2]
  dsimp only [BitVec.ofNat_eq_ofNat, BitVec.reduceToNat]
  simp only [accept, bit_one, bit_eq, BitVec.ofNat_eq_ofNat, BitVec.reduceToNat, aluW, h] <;> rfl
theorem mulh (d a b : Reg) (w : Bool) : Statement (.mulh d a b w) := by
  intro hw
  have h := encAlu_fields d a b w 0x03
  refine scalar (encAlu d a b w 0x03) 1 h.1 (by decide) rfl ?_
  generalize encAlu d a b w 0x03 = x at h ⊢
  unfold decodeScalarMajor
  rw [h.1]
  dsimp only [BitVec.ofNat_eq_ofNat, BitVec.reduceToNat]
  unfold decodeAlu
  rw [h.2.2.2.2.2]
  dsimp only [BitVec.ofNat_eq_ofNat, BitVec.reduceToNat]
  simp only [accept, bit_one, bit_eq, BitVec.ofNat_eq_ofNat, BitVec.reduceToNat, aluW, h] <;> rfl
theorem div (d a b : Reg) (w : Bool) : Statement (.div d a b w) := by
  intro hw
  have h := encAlu_fields d a b w 0x04
  refine scalar (encAlu d a b w 0x04) 1 h.1 (by decide) rfl ?_
  generalize encAlu d a b w 0x04 = x at h ⊢
  unfold decodeScalarMajor
  rw [h.1]
  dsimp only [BitVec.ofNat_eq_ofNat, BitVec.reduceToNat]
  unfold decodeAlu
  rw [h.2.2.2.2.2]
  dsimp only [BitVec.ofNat_eq_ofNat, BitVec.reduceToNat]
  simp only [accept, bit_one, bit_eq, BitVec.ofNat_eq_ofNat, BitVec.reduceToNat, aluW, h] <;> rfl
theorem rem (d a b : Reg) (w : Bool) : Statement (.rem d a b w) := by
  intro hw
  have h := encAlu_fields d a b w 0x05
  refine scalar (encAlu d a b w 0x05) 1 h.1 (by decide) rfl ?_
  generalize encAlu d a b w 0x05 = x at h ⊢
  unfold decodeScalarMajor
  rw [h.1]
  dsimp only [BitVec.ofNat_eq_ofNat, BitVec.reduceToNat]
  unfold decodeAlu
  rw [h.2.2.2.2.2]
  dsimp only [BitVec.ofNat_eq_ofNat, BitVec.reduceToNat]
  simp only [accept, bit_one, bit_eq, BitVec.ofNat_eq_ofNat, BitVec.reduceToNat, aluW, h] <;> rfl
theorem and (d a b : Reg) : Statement (.and d a b) := by
  intro hw
  have h := encAlu_fields d a b false 0x08
  refine scalar (encAlu d a b false 0x08) 1 h.1 (by decide) rfl ?_
  generalize encAlu d a b false 0x08 = x at h ⊢
  unfold decodeScalarMajor
  rw [h.1]
  dsimp only [BitVec.ofNat_eq_ofNat, BitVec.reduceToNat]
  unfold decodeAlu
  rw [h.2.2.2.2.2]
  dsimp only [BitVec.ofNat_eq_ofNat, BitVec.reduceToNat]
  simp only [accept, bit_one, bit_eq, BitVec.ofNat_eq_ofNat, BitVec.reduceToNat, alu3, h] <;> rfl
theorem or (d a b : Reg) : Statement (.or d a b) := by
  intro hw
  have h := encAlu_fields d a b false 0x09
  refine scalar (encAlu d a b false 0x09) 1 h.1 (by decide) rfl ?_
  generalize encAlu d a b false 0x09 = x at h ⊢
  unfold decodeScalarMajor
  rw [h.1]
  dsimp only [BitVec.ofNat_eq_ofNat, BitVec.reduceToNat]
  unfold decodeAlu
  rw [h.2.2.2.2.2]
  dsimp only [BitVec.ofNat_eq_ofNat, BitVec.reduceToNat]
  simp only [accept, bit_one, bit_eq, BitVec.ofNat_eq_ofNat, BitVec.reduceToNat, alu3, h] <;> rfl
theorem xor (d a b : Reg) : Statement (.xor d a b) := by
  intro hw
  have h := encAlu_fields d a b false 0x0A
  refine scalar (encAlu d a b false 0x0A) 1 h.1 (by decide) rfl ?_
  generalize encAlu d a b false 0x0A = x at h ⊢
  unfold decodeScalarMajor
  rw [h.1]
  dsimp only [BitVec.ofNat_eq_ofNat, BitVec.reduceToNat]
  unfold decodeAlu
  rw [h.2.2.2.2.2]
  dsimp only [BitVec.ofNat_eq_ofNat, BitVec.reduceToNat]
  simp only [accept, bit_one, bit_eq, BitVec.ofNat_eq_ofNat, BitVec.reduceToNat, alu3, h] <;> rfl
theorem andn (d a b : Reg) : Statement (.andn d a b) := by
  intro hw
  have h := encAlu_fields d a b false 0x0B
  refine scalar (encAlu d a b false 0x0B) 1 h.1 (by decide) rfl ?_
  generalize encAlu d a b false 0x0B = x at h ⊢
  unfold decodeScalarMajor
  rw [h.1]
  dsimp only [BitVec.ofNat_eq_ofNat, BitVec.reduceToNat]
  unfold decodeAlu
  rw [h.2.2.2.2.2]
  dsimp only [BitVec.ofNat_eq_ofNat, BitVec.reduceToNat]
  simp only [accept, bit_one, bit_eq, BitVec.ofNat_eq_ofNat, BitVec.reduceToNat, alu3, h] <;> rfl
theorem shl (d a b : Reg) (w : Bool) : Statement (.shl d a b w) := by
  intro hw
  have h := encAlu_fields d a b w 0x0C
  refine scalar (encAlu d a b w 0x0C) 1 h.1 (by decide) rfl ?_
  generalize encAlu d a b w 0x0C = x at h ⊢
  unfold decodeScalarMajor
  rw [h.1]
  dsimp only [BitVec.ofNat_eq_ofNat, BitVec.reduceToNat]
  unfold decodeAlu
  rw [h.2.2.2.2.2]
  dsimp only [BitVec.ofNat_eq_ofNat, BitVec.reduceToNat]
  simp only [accept, bit_one, bit_eq, BitVec.ofNat_eq_ofNat, BitVec.reduceToNat, aluW, h] <;> rfl
theorem shr (d a b : Reg) (w : Bool) : Statement (.shr d a b w) := by
  intro hw
  have h := encAlu_fields d a b w 0x0D
  refine scalar (encAlu d a b w 0x0D) 1 h.1 (by decide) rfl ?_
  generalize encAlu d a b w 0x0D = x at h ⊢
  unfold decodeScalarMajor
  rw [h.1]
  dsimp only [BitVec.ofNat_eq_ofNat, BitVec.reduceToNat]
  unfold decodeAlu
  rw [h.2.2.2.2.2]
  dsimp only [BitVec.ofNat_eq_ofNat, BitVec.reduceToNat]
  simp only [accept, bit_one, bit_eq, BitVec.ofNat_eq_ofNat, BitVec.reduceToNat, aluW, h] <;> rfl
theorem sra (d a b : Reg) (w : Bool) : Statement (.sra d a b w) := by
  intro hw
  have h := encAlu_fields d a b w 0x0E
  refine scalar (encAlu d a b w 0x0E) 1 h.1 (by decide) rfl ?_
  generalize encAlu d a b w 0x0E = x at h ⊢
  unfold decodeScalarMajor
  rw [h.1]
  dsimp only [BitVec.ofNat_eq_ofNat, BitVec.reduceToNat]
  unfold decodeAlu
  rw [h.2.2.2.2.2]
  dsimp only [BitVec.ofNat_eq_ofNat, BitVec.reduceToNat]
  simp only [accept, bit_one, bit_eq, BitVec.ofNat_eq_ofNat, BitVec.reduceToNat, aluW, h] <;> rfl
theorem min (d a b : Reg) (w : Bool) : Statement (.min d a b w) := by
  intro hw
  have h := encAlu_fields d a b w 0x10
  refine scalar (encAlu d a b w 0x10) 1 h.1 (by decide) rfl ?_
  generalize encAlu d a b w 0x10 = x at h ⊢
  unfold decodeScalarMajor
  rw [h.1]
  dsimp only [BitVec.ofNat_eq_ofNat, BitVec.reduceToNat]
  unfold decodeAlu
  rw [h.2.2.2.2.2]
  dsimp only [BitVec.ofNat_eq_ofNat, BitVec.reduceToNat]
  simp only [accept, bit_one, bit_eq, BitVec.ofNat_eq_ofNat, BitVec.reduceToNat, aluW, h] <;> rfl
theorem max (d a b : Reg) (w : Bool) : Statement (.max d a b w) := by
  intro hw
  have h := encAlu_fields d a b w 0x11
  refine scalar (encAlu d a b w 0x11) 1 h.1 (by decide) rfl ?_
  generalize encAlu d a b w 0x11 = x at h ⊢
  unfold decodeScalarMajor
  rw [h.1]
  dsimp only [BitVec.ofNat_eq_ofNat, BitVec.reduceToNat]
  unfold decodeAlu
  rw [h.2.2.2.2.2]
  dsimp only [BitVec.ofNat_eq_ofNat, BitVec.reduceToNat]
  simp only [accept, bit_one, bit_eq, BitVec.ofNat_eq_ofNat, BitVec.reduceToNat, aluW, h] <;> rfl
theorem clz (d a : Reg) : Statement (.clz d a) := by
  intro hw
  have h := encAlu_fields d a 0 false 0x14
  refine scalar (encAlu d a 0 false 0x14) 1 h.1 (by decide) rfl ?_
  generalize encAlu d a 0 false 0x14 = x at h ⊢
  unfold decodeScalarMajor
  rw [h.1]
  dsimp only [BitVec.ofNat_eq_ofNat, BitVec.reduceToNat]
  unfold decodeAlu
  rw [h.2.2.2.2.2]
  dsimp only [BitVec.ofNat_eq_ofNat, BitVec.reduceToNat]
  simp only [accept, bit_one, bit_eq, BitVec.ofNat_eq_ofNat, BitVec.reduceToNat, alu2, h] <;> rfl
theorem popc (d a : Reg) : Statement (.popc d a) := by
  intro hw
  have h := encAlu_fields d a 0 false 0x15
  refine scalar (encAlu d a 0 false 0x15) 1 h.1 (by decide) rfl ?_
  generalize encAlu d a 0 false 0x15 = x at h ⊢
  unfold decodeScalarMajor
  rw [h.1]
  dsimp only [BitVec.ofNat_eq_ofNat, BitVec.reduceToNat]
  unfold decodeAlu
  rw [h.2.2.2.2.2]
  dsimp only [BitVec.ofNat_eq_ofNat, BitVec.reduceToNat]
  simp only [accept, bit_one, bit_eq, BitVec.ofNat_eq_ofNat, BitVec.reduceToNat, alu2, h] <;> rfl
theorem movGG (d a : Reg) : Statement (.movGG d a) := by
  intro hw
  have h := encAlu_fields d a 0 false 0x18
  refine scalar (encAlu d a 0 false 0x18) 1 h.1 (by decide) rfl ?_
  generalize encAlu d a 0 false 0x18 = x at h ⊢
  unfold decodeScalarMajor
  rw [h.1]
  dsimp only [BitVec.ofNat_eq_ofNat, BitVec.reduceToNat]
  unfold decodeAlu
  rw [h.2.2.2.2.2]
  dsimp only [BitVec.ofNat_eq_ofNat, BitVec.reduceToNat]
  simp only [accept, bit_one, bit_eq, BitVec.ofNat_eq_ofNat, BitVec.reduceToNat, alu2, h] <;> rfl
theorem movMG (d : Reg3) (a : Reg) : Statement (.movMG d a) := by
  intro hw
  have h := encAlu_fields (r3 d) a 0 false 0x19
  refine scalar (encAlu (r3 d) a 0 false 0x19) 1 h.1 (by decide) rfl ?_
  generalize encAlu (r3 d) a 0 false 0x19 = x at h ⊢
  unfold decodeScalarMajor
  rw [h.1]
  dsimp only [BitVec.ofNat_eq_ofNat, BitVec.reduceToNat]
  unfold decodeAlu
  rw [h.2.2.2.2.2]
  dsimp only [BitVec.ofNat_eq_ofNat, BitVec.reduceToNat]
  simp only [accept, bit_one, bit_eq, BitVec.ofNat_eq_ofNat, BitVec.reduceToNat, f23, f20, r3_high, r3_low, h] <;> rfl
theorem movGM (d : Reg) (a : Reg3) : Statement (.movGM d a) := by
  intro hw
  have h := encAlu_fields d (r3 a) 0 false 0x1A
  refine scalar (encAlu d (r3 a) 0 false 0x1A) 1 h.1 (by decide) rfl ?_
  generalize encAlu d (r3 a) 0 false 0x1A = x at h ⊢
  unfold decodeScalarMajor
  rw [h.1]
  dsimp only [BitVec.ofNat_eq_ofNat, BitVec.reduceToNat]
  unfold decodeAlu
  rw [h.2.2.2.2.2]
  dsimp only [BitVec.ofNat_eq_ofNat, BitVec.reduceToNat]
  simp only [accept, bit_one, bit_eq, BitVec.ofNat_eq_ofNat, BitVec.reduceToNat, f17, f14, r3_high, r3_low, h] <;> rfl
theorem sel (d a b : Reg) (j : Reg3) : Statement (.sel d a b j) := by
  intro hw
  rcases j8 j with rfl | rfl | rfl | rfl | rfl | rfl | rfl | rfl
  · have h := encAlu_fields d a b false 0x20
    refine scalar (encAlu d a b false 0x20) 1 h.1 (by decide) rfl ?_
    generalize encAlu d a b false 0x20 = x at h ⊢
    unfold decodeScalarMajor
    rw [h.1]
    dsimp only [BitVec.ofNat_eq_ofNat, BitVec.reduceToNat]
    unfold decodeAlu
    rw [h.2.2.2.2.2]
    dsimp only [BitVec.ofNat_eq_ofNat, BitVec.reduceToNat]
    simp only [accept, bit_one, bit_eq, BitVec.ofNat_eq_ofNat, BitVec.reduceToNat, f0c7, h] <;> rfl
  · have h := encAlu_fields d a b false 0x21
    refine scalar (encAlu d a b false 0x21) 1 h.1 (by decide) rfl ?_
    generalize encAlu d a b false 0x21 = x at h ⊢
    unfold decodeScalarMajor
    rw [h.1]
    dsimp only [BitVec.ofNat_eq_ofNat, BitVec.reduceToNat]
    unfold decodeAlu
    rw [h.2.2.2.2.2]
    dsimp only [BitVec.ofNat_eq_ofNat, BitVec.reduceToNat]
    simp only [accept, bit_one, bit_eq, BitVec.ofNat_eq_ofNat, BitVec.reduceToNat, f0c7, h] <;> rfl
  · have h := encAlu_fields d a b false 0x22
    refine scalar (encAlu d a b false 0x22) 1 h.1 (by decide) rfl ?_
    generalize encAlu d a b false 0x22 = x at h ⊢
    unfold decodeScalarMajor
    rw [h.1]
    dsimp only [BitVec.ofNat_eq_ofNat, BitVec.reduceToNat]
    unfold decodeAlu
    rw [h.2.2.2.2.2]
    dsimp only [BitVec.ofNat_eq_ofNat, BitVec.reduceToNat]
    simp only [accept, bit_one, bit_eq, BitVec.ofNat_eq_ofNat, BitVec.reduceToNat, f0c7, h] <;> rfl
  · have h := encAlu_fields d a b false 0x23
    refine scalar (encAlu d a b false 0x23) 1 h.1 (by decide) rfl ?_
    generalize encAlu d a b false 0x23 = x at h ⊢
    unfold decodeScalarMajor
    rw [h.1]
    dsimp only [BitVec.ofNat_eq_ofNat, BitVec.reduceToNat]
    unfold decodeAlu
    rw [h.2.2.2.2.2]
    dsimp only [BitVec.ofNat_eq_ofNat, BitVec.reduceToNat]
    simp only [accept, bit_one, bit_eq, BitVec.ofNat_eq_ofNat, BitVec.reduceToNat, f0c7, h] <;> rfl
  · have h := encAlu_fields d a b false 0x24
    refine scalar (encAlu d a b false 0x24) 1 h.1 (by decide) rfl ?_
    generalize encAlu d a b false 0x24 = x at h ⊢
    unfold decodeScalarMajor
    rw [h.1]
    dsimp only [BitVec.ofNat_eq_ofNat, BitVec.reduceToNat]
    unfold decodeAlu
    rw [h.2.2.2.2.2]
    dsimp only [BitVec.ofNat_eq_ofNat, BitVec.reduceToNat]
    simp only [accept, bit_one, bit_eq, BitVec.ofNat_eq_ofNat, BitVec.reduceToNat, f0c7, h] <;> rfl
  · have h := encAlu_fields d a b false 0x25
    refine scalar (encAlu d a b false 0x25) 1 h.1 (by decide) rfl ?_
    generalize encAlu d a b false 0x25 = x at h ⊢
    unfold decodeScalarMajor
    rw [h.1]
    dsimp only [BitVec.ofNat_eq_ofNat, BitVec.reduceToNat]
    unfold decodeAlu
    rw [h.2.2.2.2.2]
    dsimp only [BitVec.ofNat_eq_ofNat, BitVec.reduceToNat]
    simp only [accept, bit_one, bit_eq, BitVec.ofNat_eq_ofNat, BitVec.reduceToNat, f0c7, h] <;> rfl
  · have h := encAlu_fields d a b false 0x26
    refine scalar (encAlu d a b false 0x26) 1 h.1 (by decide) rfl ?_
    generalize encAlu d a b false 0x26 = x at h ⊢
    unfold decodeScalarMajor
    rw [h.1]
    dsimp only [BitVec.ofNat_eq_ofNat, BitVec.reduceToNat]
    unfold decodeAlu
    rw [h.2.2.2.2.2]
    dsimp only [BitVec.ofNat_eq_ofNat, BitVec.reduceToNat]
    simp only [accept, bit_one, bit_eq, BitVec.ofNat_eq_ofNat, BitVec.reduceToNat, f0c7, h] <;> rfl
  · have h := encAlu_fields d a b false 0x27
    refine scalar (encAlu d a b false 0x27) 1 h.1 (by decide) rfl ?_
    generalize encAlu d a b false 0x27 = x at h ⊢
    unfold decodeScalarMajor
    rw [h.1]
    dsimp only [BitVec.ofNat_eq_ofNat, BitVec.reduceToNat]
    unfold decodeAlu
    rw [h.2.2.2.2.2]
    dsimp only [BitVec.ofNat_eq_ofNat, BitVec.reduceToNat]
    simp only [accept, bit_one, bit_eq, BitVec.ofNat_eq_ofNat, BitVec.reduceToNat, f0c7, h] <;> rfl
theorem cmp (n : Reg3) (a b : Reg) (w : Bool) (c : Cond) : Statement (.cmp n a b w c) := by
  intro hw
  cases c
  · have h := encAlu_fields (r3 n) a b w 0x40
    refine scalar (encAlu (r3 n) a b w 0x40) 1 h.1 (by decide) rfl ?_
    generalize encAlu (r3 n) a b w 0x40 = x at h ⊢
    unfold decodeScalarMajor
    rw [h.1]
    dsimp only [BitVec.ofNat_eq_ofNat, BitVec.reduceToNat]
    unfold decodeAlu
    rw [h.2.2.2.2.2]
    dsimp only [BitVec.ofNat_eq_ofNat, BitVec.reduceToNat]
    simp only [accept, bit_one, bit_eq, BitVec.ofNat_eq_ofNat, BitVec.reduceToNat, f0c7, f23, f20, r3_high, r3_low, h] <;> rfl
  · have h := encAlu_fields (r3 n) a b w 0x41
    refine scalar (encAlu (r3 n) a b w 0x41) 1 h.1 (by decide) rfl ?_
    generalize encAlu (r3 n) a b w 0x41 = x at h ⊢
    unfold decodeScalarMajor
    rw [h.1]
    dsimp only [BitVec.ofNat_eq_ofNat, BitVec.reduceToNat]
    unfold decodeAlu
    rw [h.2.2.2.2.2]
    dsimp only [BitVec.ofNat_eq_ofNat, BitVec.reduceToNat]
    simp only [accept, bit_one, bit_eq, BitVec.ofNat_eq_ofNat, BitVec.reduceToNat, f0c7, f23, f20, r3_high, r3_low, h] <;> rfl
  · have h := encAlu_fields (r3 n) a b w 0x42
    refine scalar (encAlu (r3 n) a b w 0x42) 1 h.1 (by decide) rfl ?_
    generalize encAlu (r3 n) a b w 0x42 = x at h ⊢
    unfold decodeScalarMajor
    rw [h.1]
    dsimp only [BitVec.ofNat_eq_ofNat, BitVec.reduceToNat]
    unfold decodeAlu
    rw [h.2.2.2.2.2]
    dsimp only [BitVec.ofNat_eq_ofNat, BitVec.reduceToNat]
    simp only [accept, bit_one, bit_eq, BitVec.ofNat_eq_ofNat, BitVec.reduceToNat, f0c7, f23, f20, r3_high, r3_low, h] <;> rfl
  · have h := encAlu_fields (r3 n) a b w 0x43
    refine scalar (encAlu (r3 n) a b w 0x43) 1 h.1 (by decide) rfl ?_
    generalize encAlu (r3 n) a b w 0x43 = x at h ⊢
    unfold decodeScalarMajor
    rw [h.1]
    dsimp only [BitVec.ofNat_eq_ofNat, BitVec.reduceToNat]
    unfold decodeAlu
    rw [h.2.2.2.2.2]
    dsimp only [BitVec.ofNat_eq_ofNat, BitVec.reduceToNat]
    simp only [accept, bit_one, bit_eq, BitVec.ofNat_eq_ofNat, BitVec.reduceToNat, f0c7, f23, f20, r3_high, r3_low, h] <;> rfl
  · have h := encAlu_fields (r3 n) a b w 0x44
    refine scalar (encAlu (r3 n) a b w 0x44) 1 h.1 (by decide) rfl ?_
    generalize encAlu (r3 n) a b w 0x44 = x at h ⊢
    unfold decodeScalarMajor
    rw [h.1]
    dsimp only [BitVec.ofNat_eq_ofNat, BitVec.reduceToNat]
    unfold decodeAlu
    rw [h.2.2.2.2.2]
    dsimp only [BitVec.ofNat_eq_ofNat, BitVec.reduceToNat]
    simp only [accept, bit_one, bit_eq, BitVec.ofNat_eq_ofNat, BitVec.reduceToNat, f0c7, f23, f20, r3_high, r3_low, h] <;> rfl
  · have h := encAlu_fields (r3 n) a b w 0x45
    refine scalar (encAlu (r3 n) a b w 0x45) 1 h.1 (by decide) rfl ?_
    generalize encAlu (r3 n) a b w 0x45 = x at h ⊢
    unfold decodeScalarMajor
    rw [h.1]
    dsimp only [BitVec.ofNat_eq_ofNat, BitVec.reduceToNat]
    unfold decodeAlu
    rw [h.2.2.2.2.2]
    dsimp only [BitVec.ofNat_eq_ofNat, BitVec.reduceToNat]
    simp only [accept, bit_one, bit_eq, BitVec.ofNat_eq_ofNat, BitVec.reduceToNat, f0c7, f23, f20, r3_high, r3_low, h] <;> rfl
  · have h := encAlu_fields (r3 n) a b w 0x46
    refine scalar (encAlu (r3 n) a b w 0x46) 1 h.1 (by decide) rfl ?_
    generalize encAlu (r3 n) a b w 0x46 = x at h ⊢
    unfold decodeScalarMajor
    rw [h.1]
    dsimp only [BitVec.ofNat_eq_ofNat, BitVec.reduceToNat]
    unfold decodeAlu
    rw [h.2.2.2.2.2]
    dsimp only [BitVec.ofNat_eq_ofNat, BitVec.reduceToNat]
    simp only [accept, bit_one, bit_eq, BitVec.ofNat_eq_ofNat, BitVec.reduceToNat, f0c7, f23, f20, r3_high, r3_low, h] <;> rfl
  · have h := encAlu_fields (r3 n) a b w 0x47
    refine scalar (encAlu (r3 n) a b w 0x47) 1 h.1 (by decide) rfl ?_
    generalize encAlu (r3 n) a b w 0x47 = x at h ⊢
    unfold decodeScalarMajor
    rw [h.1]
    dsimp only [BitVec.ofNat_eq_ofNat, BitVec.reduceToNat]
    unfold decodeAlu
    rw [h.2.2.2.2.2]
    dsimp only [BitVec.ofNat_eq_ofNat, BitVec.reduceToNat]
    simp only [accept, bit_one, bit_eq, BitVec.ofNat_eq_ofNat, BitVec.reduceToNat, f0c7, f23, f20, r3_high, r3_low, h] <;> rfl
theorem addi (d a : Reg) (i : BitVec 14) : Statement (.addi d a i) := by
  intro hw
  have h := encI_fields 0x02 d a i
  refine scalar (encI 0x02 d a i) 0x02 h.1 (by decide) rfl ?_
  generalize encI 0x02 d a i = x at h ⊢
  unfold decodeScalarMajor
  rw [h.1]
  dsimp only [BitVec.ofNat_eq_ofNat, BitVec.reduceToNat]
  simp only [accept, bit_one, bit_eq, BitVec.ofNat_eq_ofNat, BitVec.reduceToNat, h] <;> rfl
theorem li (d : Reg) (i : BitVec 20) : Statement (.li d i) := by
  intro hw
  have h := encL_fields 0x03 d i
  refine scalar (encL 0x03 d i) 0x03 h.1 (by decide) rfl ?_
  generalize encL 0x03 d i = x at h ⊢
  unfold decodeScalarMajor
  rw [h.1]
  dsimp only [BitVec.ofNat_eq_ofNat, BitVec.reduceToNat]
  simp only [accept, bit_one, bit_eq, BitVec.ofNat_eq_ofNat, BitVec.reduceToNat, h] <;> rfl
theorem lih (d : Reg) (i : BitVec 20) : Statement (.lih d i) := by
  intro hw
  have h := encL_fields 0x04 d i
  refine scalar (encL 0x04 d i) 0x04 h.1 (by decide) rfl ?_
  generalize encL 0x04 d i = x at h ⊢
  unfold decodeScalarMajor
  rw [h.1]
  dsimp only [BitVec.ofNat_eq_ofNat, BitVec.reduceToNat]
  simp only [accept, bit_one, bit_eq, BitVec.ofNat_eq_ofNat, BitVec.reduceToNat, h] <;> rfl
theorem addr (d a b : Reg) (s : BitVec 3) : Statement (.addr d a b s) := by
  intro hw
  have h := encA_fields 0x05 d a b ((0 : BitVec 5) ++ s)
  refine scalar (encA 0x05 d a b ((0 : BitVec 5) ++ s)) 0x05 h.1 (by decide) rfl ?_
  generalize encA 0x05 d a b ((0 : BitVec 5) ++ s) = x at h ⊢
  unfold decodeScalarMajor
  rw [h.1]
  dsimp only [BitVec.ofNat_eq_ofNat, BitVec.reduceToNat]
  simp only [accept, bit_one, bit_eq, BitVec.ofNat_eq_ofNat, BitVec.reduceToNat, f3e, f0c8, app53h, app53l, h] <;> rfl
theorem mand (d a b : Reg3) : Statement (.mand d a b) := by
  intro hw
  have h := encA_fields 0x06 (r3 d) (r3 a) (r3 b) 0
  refine scalar (encA 0x06 (r3 d) (r3 a) (r3 b) 0) 0x06 h.1 (by decide) rfl ?_
  generalize encA 0x06 (r3 d) (r3 a) (r3 b) 0 = x at h ⊢
  unfold decodeScalarMajor
  rw [h.1]
  dsimp only [BitVec.ofNat_eq_ofNat, BitVec.reduceToNat]
  simp only [accept, bit_one, bit_eq, BitVec.ofNat_eq_ofNat, BitVec.reduceToNat, f23, f20, f17, f14, f11, f8, r3_high, r3_low, h] <;> rfl
theorem mor (d a b : Reg3) : Statement (.mor d a b) := by
  intro hw
  have h := encA_fields 0x06 (r3 d) (r3 a) (r3 b) 1
  refine scalar (encA 0x06 (r3 d) (r3 a) (r3 b) 1) 0x06 h.1 (by decide) rfl ?_
  generalize encA 0x06 (r3 d) (r3 a) (r3 b) 1 = x at h ⊢
  unfold decodeScalarMajor
  rw [h.1]
  dsimp only [BitVec.ofNat_eq_ofNat, BitVec.reduceToNat]
  simp only [accept, bit_one, bit_eq, BitVec.ofNat_eq_ofNat, BitVec.reduceToNat, f23, f20, f17, f14, f11, f8, r3_high, r3_low, h] <;> rfl
theorem mnot (d a : Reg3) : Statement (.mnot d a) := by
  intro hw
  have h := encA_fields 0x06 (r3 d) (r3 a) 0 2
  refine scalar (encA 0x06 (r3 d) (r3 a) 0 2) 0x06 h.1 (by decide) rfl ?_
  generalize encA 0x06 (r3 d) (r3 a) 0 2 = x at h ⊢
  unfold decodeScalarMajor
  rw [h.1]
  dsimp only [BitVec.ofNat_eq_ofNat, BitVec.reduceToNat]
  simp only [accept, bit_one, bit_eq, BitVec.ofNat_eq_ofNat, BitVec.reduceToNat, f23, f20, f17, f14, f11, f8, r3_high, r3_low, h] <;> rfl
theorem mpop (d : Reg) (a : Reg3) : Statement (.mpop d a) := by
  intro hw
  have h := encA_fields 0x07 d (r3 a) 0 0
  have z : fld (encA 0x07 d (r3 a) 0 0) 0 14 = 0 := zero_join (n := 8) 6 h.2.2.2.2 h.2.2.2.1
  refine scalar (encA 0x07 d (r3 a) 0 0) 0x07 h.1 (by decide) rfl ?_
  generalize encA 0x07 d (r3 a) 0 0 = x at h z ⊢
  unfold decodeScalarMajor
  rw [h.1]
  dsimp only [BitVec.ofNat_eq_ofNat, BitVec.reduceToNat]
  simp only [accept, bit_one, bit_eq, BitVec.ofNat_eq_ofNat, BitVec.reduceToNat, f17, f14, r3_high, r3_low, z, h] <;> rfl
theorem mfirst (d : Reg) (a : Reg3) : Statement (.mfirst d a) := by
  intro hw
  have h := encA_fields 0x08 d (r3 a) 0 0
  have z : fld (encA 0x08 d (r3 a) 0 0) 0 14 = 0 := zero_join (n := 8) 6 h.2.2.2.2 h.2.2.2.1
  refine scalar (encA 0x08 d (r3 a) 0 0) 0x08 h.1 (by decide) rfl ?_
  generalize encA 0x08 d (r3 a) 0 0 = x at h z ⊢
  unfold decodeScalarMajor
  rw [h.1]
  dsimp only [BitVec.ofNat_eq_ofNat, BitVec.reduceToNat]
  simp only [accept, bit_one, bit_eq, BitVec.ofNat_eq_ofNat, BitVec.reduceToNat, f17, f14, r3_high, r3_low, z, h] <;> rfl
theorem ld (d a : Reg) (z : Bool) (o : BitVec 11) (p : Policy) : Statement (.ld d a z o p) := by
  intro hw
  have h := encM_fields 0x09 d a z o p
  refine scalarS (encM 0x09 d a z o p) 0x09 h.1 (by decide) rfl ?_
  generalize encM 0x09 d a z o p = x at h ⊢
  unfold decodeScalarMajor
  rw [h.1]
  dsimp only [BitVec.ofNat_eq_ofNat, BitVec.reduceToNat]
  simp only [accept, bit_one, bit_eq, BitVec.ofNat_eq_ofNat, BitVec.reduceToNat, policyOf_code, h] <;> rfl
theorem st (d a : Reg) (z : Bool) (o : BitVec 11) (p : Policy) : Statement (.st d a z o p) := by
  intro hw
  have h := encM_fields 0x0A d a z o p
  refine scalarS (encM 0x0A d a z o p) 0x0A h.1 (by decide) rfl ?_
  generalize encM 0x0A d a z o p = x at h ⊢
  unfold decodeScalarMajor
  rw [h.1]
  dsimp only [BitVec.ofNat_eq_ofNat, BitVec.reduceToNat]
  simp only [accept, bit_one, bit_eq, BitVec.ofNat_eq_ofNat, BitVec.reduceToNat, policyOf_code, h] <;> rfl
theorem lds (d a : Reg) (i : BitVec 14) : Statement (.lds d a i) := by
  intro hw
  have h := encI_fields 0x0B d a i
  refine scalarS (encI 0x0B d a i) 0x0B h.1 (by decide) rfl ?_
  generalize encI 0x0B d a i = x at h ⊢
  unfold decodeScalarMajor
  rw [h.1]
  dsimp only [BitVec.ofNat_eq_ofNat, BitVec.reduceToNat]
  simp only [accept, bit_one, bit_eq, BitVec.ofNat_eq_ofNat, BitVec.reduceToNat, h] <;> rfl
theorem sts (d a : Reg) (i : BitVec 14) : Statement (.sts d a i) := by
  intro hw
  have h := encI_fields 0x0C d a i
  refine scalarS (encI 0x0C d a i) 0x0C h.1 (by decide) rfl ?_
  generalize encI 0x0C d a i = x at h ⊢
  unfold decodeScalarMajor
  rw [h.1]
  dsimp only [BitVec.ofNat_eq_ofNat, BitVec.reduceToNat]
  simp only [accept, bit_one, bit_eq, BitVec.ofNat_eq_ofNat, BitVec.reduceToNat, h] <;> rfl
theorem ldf (d a : Reg) (k : Bool) (o : BitVec 13) : Statement (.ldf d a k o) := by
  intro hw
  have h := encI_fields 0x0D d a (bit k ++ o)
  refine scalarS (encI 0x0D d a (bit k ++ o)) 0x0D h.1 (by decide) rfl ?_
  generalize encI 0x0D d a (bit k ++ o) = x at h ⊢
  unfold decodeScalarMajor
  rw [h.1]
  dsimp only [BitVec.ofNat_eq_ofNat, BitVec.reduceToNat]
  simp only [accept, bit_one, bit_eq, BitVec.ofNat_eq_ofNat, BitVec.reduceToNat, f13, f0m, app113h, app113l, h] <;> rfl
theorem ste (d a : Reg) (o : BitVec 13) : Statement (.ste d a o) := by
  intro hw
  have h := encI_fields 0x0E d a (bit false ++ o)
  refine scalarS (encI 0x0E d a (bit false ++ o)) 0x0E h.1 (by decide) rfl ?_
  generalize encI 0x0E d a (bit false ++ o) = x at h ⊢
  unfold decodeScalarMajor
  rw [h.1]
  dsimp only [BitVec.ofNat_eq_ofNat, BitVec.reduceToNat]
  simp only [accept, bit_one, bit_eq, BitVec.ofNat_eq_ofNat, BitVec.reduceToNat, f13, f0m, app113h, app113l, h] <;> rfl
theorem br (o : BitVec 22) : Statement (.br o) := by
  intro hw
  have h := encB_fields 0x10 0 o
  refine scalar (encB 0x10 0 o) 0x10 h.1 (by decide) rfl ?_
  generalize encB 0x10 0 o = x at h ⊢
  unfold decodeScalarMajor
  rw [h.1]
  dsimp only [BitVec.ofNat_eq_ofNat, BitVec.reduceToNat]
  simp only [accept, bit_one, bit_eq, BitVec.ofNat_eq_ofNat, BitVec.reduceToNat, h] <;> rfl
theorem bc (s : Bool) (n : Reg3) (o : BitVec 22) : Statement (.bc s n o) := by
  intro hw
  have h := encB_fields 0x11 (bit s ++ n) o
  refine scalar (encB 0x11 (bit s ++ n) o) 0x11 h.1 (by decide) rfl ?_
  generalize encB 0x11 (bit s ++ n) o = x at h ⊢
  unfold decodeScalarMajor
  rw [h.1]
  dsimp only [BitVec.ofNat_eq_ofNat, BitVec.reduceToNat]
  simp only [accept, bit_one, bit_eq, BitVec.ofNat_eq_ofNat, BitVec.reduceToNat, b25, b22, app13h, app13l, h] <;> rfl
theorem call (o : BitVec 22) : Statement (.call o) := by
  intro hw
  have h := encB_fields 0x12 0 o
  refine scalar (encB 0x12 0 o) 0x12 h.1 (by decide) rfl ?_
  generalize encB 0x12 0 o = x at h ⊢
  unfold decodeScalarMajor
  rw [h.1]
  dsimp only [BitVec.ofNat_eq_ofNat, BitVec.reduceToNat]
  simp only [accept, bit_one, bit_eq, BitVec.ofNat_eq_ofNat, BitVec.reduceToNat, h] <;> rfl
theorem jr (d a : Reg) : Statement (.jr d a) := by
  intro hw
  have h := encA_fields 0x13 d a 0 0
  have z : fld (encA 0x13 d a 0 0) 0 14 = 0 := zero_join (n := 8) 6 h.2.2.2.2 h.2.2.2.1
  refine scalar (encA 0x13 d a 0 0) 0x13 h.1 (by decide) rfl ?_
  generalize encA 0x13 d a 0 0 = x at h z ⊢
  unfold decodeScalarMajor
  rw [h.1]
  dsimp only [BitVec.ofNat_eq_ofNat, BitVec.reduceToNat]
  simp only [accept, bit_one, bit_eq, BitVec.ofNat_eq_ofNat, BitVec.reduceToNat, f17, f14, r3_high, r3_low, z, h] <;> rfl
theorem ret : Statement (.ret) := by
  intro hw
  have h := encA_fields 0x14 0 0 0 0
  have z : fld (encA 0x14 0 0 0 0) 0 26 = 0 := zero_join (n := 20) 6 (zero_join (n := 14) 6 (zero_join (n := 8) 6 h.2.2.2.2 h.2.2.2.1) h.2.2.1) h.2.1
  refine scalar (encA 0x14 0 0 0 0) 0x14 h.1 (by decide) rfl ?_
  generalize encA 0x14 0 0 0 0 = x at h z ⊢
  unfold decodeScalarMajor
  rw [h.1]
  dsimp only [BitVec.ofNat_eq_ofNat, BitVec.reduceToNat]
  simp only [accept, bit_one, bit_eq, BitVec.ofNat_eq_ofNat, BitVec.reduceToNat, z, h] <;> rfl
theorem loop (o : BitVec 22) : Statement (.loop o) := by
  intro hw
  have h := encB_fields 0x15 0 o
  have hw : decide (0 < o.toInt) = false := by simpa [WellFormed] using hw
  refine scalar (encB 0x15 0 o) 0x15 h.1 (by decide) rfl ?_
  generalize encB 0x15 0 o = x at h ⊢
  unfold decodeScalarMajor
  rw [h.1]
  dsimp only [BitVec.ofNat_eq_ofNat, BitVec.reduceToNat]
  simp only [accept, bit_one, bit_eq, BitVec.ofNat_eq_ofNat, BitVec.reduceToNat, hw, h] <;> rfl
theorem lsetup (a : Reg) (e : BitVec 3) (r : Bool) : Statement (.lsetup a e r) := by
  intro hw
  have h := encI_fields 0x16 0 a (e ++ bit r ++ (0 : BitVec 10))
  refine scalar (encI 0x16 0 a (e ++ bit r ++ (0 : BitVec 10))) 0x16 h.1 (by decide) rfl ?_
  generalize encI 0x16 0 a (e ++ bit r ++ (0 : BitVec 10)) = x at h ⊢
  unfold decodeScalarMajor
  rw [h.1]
  dsimp only [BitVec.ofNat_eq_ofNat, BitVec.reduceToNat]
  simp only [accept, bit_one, bit_eq, BitVec.ofNat_eq_ofNat, BitVec.reduceToNat, f11i, f10i, f0j, app3110a, app3110b, app3110c, h] <;> rfl
theorem wait (l s c t : BitVec 4) : Statement (.wait l s c t) := by
  intro hw
  have h := wait_fields l s c t
  refine scalar (encode (.wait l s c t)) 0x17 h.1 (by decide) rfl ?_
  generalize encode (.wait l s c t) = x at h ⊢
  unfold decodeScalarMajor
  rw [h.1]
  dsimp only [BitVec.ofNat_eq_ofNat, BitVec.reduceToNat]
  simp only [accept, bit_one, bit_eq, BitVec.ofNat_eq_ofNat, BitVec.reduceToNat, h] <;> rfl
theorem fenceEng : Statement (.fenceEng) := by
  intro hw
  have h := encB_fields 0x18 0 0
  refine scalar (encB 0x18 0 0) 0x18 h.1 (by decide) rfl ?_
  generalize encB 0x18 0 0 = x at h ⊢
  unfold decodeScalarMajor
  rw [h.1]
  dsimp only [BitVec.ofNat_eq_ofNat, BitVec.reduceToNat]
  simp only [accept, bit_one, bit_eq, BitVec.ofNat_eq_ofNat, BitVec.reduceToNat, h] <;> rfl
theorem fenceSysAcq : Statement (.fenceSysAcq) := by
  intro hw
  have h := encB_fields 0x18 1 0
  refine scalar (encB 0x18 1 0) 0x18 h.1 (by decide) rfl ?_
  generalize encB 0x18 1 0 = x at h ⊢
  unfold decodeScalarMajor
  rw [h.1]
  dsimp only [BitVec.ofNat_eq_ofNat, BitVec.reduceToNat]
  simp only [accept, bit_one, bit_eq, BitVec.ofNat_eq_ofNat, BitVec.reduceToNat, h] <;> rfl
theorem fenceSysRel : Statement (.fenceSysRel) := by
  intro hw
  have h := encB_fields 0x18 2 0
  refine scalar (encB 0x18 2 0) 0x18 h.1 (by decide) rfl ?_
  generalize encB 0x18 2 0 = x at h ⊢
  unfold decodeScalarMajor
  rw [h.1]
  dsimp only [BitVec.ofNat_eq_ofNat, BitVec.reduceToNat]
  simp only [accept, bit_one, bit_eq, BitVec.ofNat_eq_ofNat, BitVec.reduceToNat, h] <;> rfl
theorem fenceSys : Statement (.fenceSys) := by
  intro hw
  have h := encB_fields 0x18 3 0
  refine scalar (encB 0x18 3 0) 0x18 h.1 (by decide) rfl ?_
  generalize encB 0x18 3 0 = x at h ⊢
  unfold decodeScalarMajor
  rw [h.1]
  dsimp only [BitVec.ofNat_eq_ofNat, BitVec.reduceToNat]
  simp only [accept, bit_one, bit_eq, BitVec.ofNat_eq_ofNat, BitVec.reduceToNat, h] <;> rfl
theorem gear (g : Bool) (w : Bool) : Statement (.gear g w) := by
  intro hw
  have h := gear_fields g w
  refine scalar (encode (.gear g w)) 0x19 h.1 (by decide) rfl ?_
  generalize encode (.gear g w) = x at h ⊢
  unfold decodeScalarMajor
  rw [h.1]
  dsimp only [BitVec.ofNat_eq_ofNat, BitVec.reduceToNat]
  simp only [accept, bit_one, bit_eq, BitVec.ofNat_eq_ofNat, BitVec.reduceToNat, h] <;> rfl
theorem phase (o : BitVec 12) (i : BitVec 4) (e : BitVec 3) (m : BitVec 7) : Statement (.phase o i e m) := by
  intro hw
  have h := phase_fields o i e m
  refine scalar (encode (.phase o i e m)) 0x1A h.1 (by decide) rfl ?_
  generalize encode (.phase o i e m) = x at h ⊢
  unfold decodeScalarMajor
  rw [h.1]
  dsimp only [BitVec.ofNat_eq_ofNat, BitVec.reduceToNat]
  simp only [accept, bit_one, bit_eq, BitVec.ofNat_eq_ofNat, BitVec.reduceToNat, h] <;> rfl
theorem fmtsetImm (n : Reg2) (r : BitVec 14) : Statement (.fmtsetImm n r) := by
  intro hw
  have h := encI_fields 0x1B ((0 : BitVec 4) ++ n) 0 r
  have hw : illRecord r = false := by simpa [WellFormed] using hw
  refine scalar (encI 0x1B ((0 : BitVec 4) ++ n) 0 r) 0x1B h.1 (by decide) rfl ?_
  generalize encI 0x1B ((0 : BitVec 4) ++ n) 0 r = x at h ⊢
  unfold decodeScalarMajor
  rw [h.1]
  dsimp only [BitVec.ofNat_eq_ofNat, BitVec.reduceToNat]
  simp only [accept, bit_one, bit_eq, BitVec.ofNat_eq_ofNat, BitVec.reduceToNat, f25, f22c, f20b, app042a, app042b, app42l, hw, h] <;> rfl
theorem fmtsetReg (n : Reg2) (a : Reg) : Statement (.fmtsetReg n a) := by
  intro hw
  have h := encI_fields 0x1B ((8 : BitVec 4) ++ n) a 0
  refine scalar (encI 0x1B ((8 : BitVec 4) ++ n) a 0) 0x1B h.1 (by decide) rfl ?_
  generalize encI 0x1B ((8 : BitVec 4) ++ n) a 0 = x at h ⊢
  unfold decodeScalarMajor
  rw [h.1]
  dsimp only [BitVec.ofNat_eq_ofNat, BitVec.reduceToNat]
  simp only [accept, bit_one, bit_eq, BitVec.ofNat_eq_ofNat, BitVec.reduceToNat, f25, f22c, f20b, app842a, app842b, app42l, h] <;> rfl
theorem time (d : Reg) : Statement (.time d) := by
  intro hw
  have h := encL_fields 0x1C d 0
  refine scalar (encL 0x1C d 0) 0x1C h.1 (by decide) rfl ?_
  generalize encL 0x1C d 0 = x at h ⊢
  unfold decodeScalarMajor
  rw [h.1]
  dsimp only [BitVec.ofNat_eq_ofNat, BitVec.reduceToNat]
  simp only [accept, bit_one, bit_eq, BitVec.ofNat_eq_ofNat, BitVec.reduceToNat, h] <;> rfl
theorem cycles (d : Reg) : Statement (.cycles d) := by
  intro hw
  have h := encL_fields 0x1D d 0
  refine scalar (encL 0x1D d 0) 0x1D h.1 (by decide) rfl ?_
  generalize encL 0x1D d 0 = x at h ⊢
  unfold decodeScalarMajor
  rw [h.1]
  dsimp only [BitVec.ofNat_eq_ofNat, BitVec.reduceToNat]
  simp only [accept, bit_one, bit_eq, BitVec.ofNat_eq_ofNat, BitVec.reduceToNat, h] <;> rfl
theorem done (a : Reg) : Statement (.done a) := by
  intro hw
  have h := encA_fields 0x1E 0 a 0 0
  have z : fld (encA 0x1E 0 a 0 0) 0 14 = 0 := zero_join (n := 8) 6 h.2.2.2.2 h.2.2.2.1
  refine scalar (encA 0x1E 0 a 0 0) 0x1E h.1 (by decide) rfl ?_
  generalize encA 0x1E 0 a 0 0 = x at h z ⊢
  unfold decodeScalarMajor
  rw [h.1]
  dsimp only [BitVec.ofNat_eq_ofNat, BitVec.reduceToNat]
  simp only [accept, bit_one, bit_eq, BitVec.ofNat_eq_ofNat, BitVec.reduceToNat, f17, f14, r3_high, r3_low, z, h] <;> rfl
theorem yield : Statement (.yield) := by
  intro hw
  have h := encA_fields 0x1F 0 0 0 0
  have z : fld (encA 0x1F 0 0 0 0) 0 26 = 0 := zero_join (n := 20) 6 (zero_join (n := 14) 6 (zero_join (n := 8) 6 h.2.2.2.2 h.2.2.2.1) h.2.2.1) h.2.1
  refine scalar (encA 0x1F 0 0 0 0) 0x1F h.1 (by decide) rfl ?_
  generalize encA 0x1F 0 0 0 0 = x at h z ⊢
  unfold decodeScalarMajor
  rw [h.1]
  dsimp only [BitVec.ofNat_eq_ofNat, BitVec.reduceToNat]
  simp only [accept, bit_one, bit_eq, BitVec.ofNat_eq_ofNat, BitVec.reduceToNat, z, h] <;> rfl
theorem park (a b : Reg) (w : Bool) : Statement (.park a b w) := by
  intro hw
  have h := encA_fields 0x20 0 a b ((0 : BitVec 7) ++ bit w)
  refine scalar (encA 0x20 0 a b ((0 : BitVec 7) ++ bit w)) 0x20 h.1 (by decide) rfl ?_
  generalize encA 0x20 0 a b ((0 : BitVec 7) ++ bit w) = x at h ⊢
  unfold decodeScalarMajor
  rw [h.1]
  dsimp only [BitVec.ofNat_eq_ofNat, BitVec.reduceToNat]
  simp only [accept, bit_one, bit_eq, BitVec.ofNat_eq_ofNat, BitVec.reduceToNat, f1, f0a, app71h, app71l, h] <;> rfl
theorem trap (c : BitVec 20) : Statement (.trap c) := by
  intro hw
  have h := encL_fields 0x21 0 c
  refine scalar (encL 0x21 0 c) 0x21 h.1 (by decide) rfl ?_
  generalize encL 0x21 0 c = x at h ⊢
  unfold decodeScalarMajor
  rw [h.1]
  dsimp only [BitVec.ofNat_eq_ofNat, BitVec.reduceToNat]
  simp only [accept, bit_one, bit_eq, BitVec.ofNat_eq_ofNat, BitVec.reduceToNat, h] <;> rfl
theorem rdsr (d : Reg) (n : SysReg) : Statement (.rdsr d n) := by
  intro hw
  have h := encI_fields 0x22 d 0 (sysRegNumber n)
  refine scalar (encI 0x22 d 0 (sysRegNumber n)) 0x22 h.1 (by decide) rfl ?_
  generalize encI 0x22 d 0 (sysRegNumber n) = x at h ⊢
  unfold decodeScalarMajor
  rw [h.1]
  dsimp only [BitVec.ofNat_eq_ofNat, BitVec.reduceToNat]
  simp only [accept, bit_one, bit_eq, BitVec.ofNat_eq_ofNat, BitVec.reduceToNat, sysRegOf_number, h] <;> rfl
theorem wrsr (a : Reg) (n : SysReg) : Statement (.wrsr a n) := by
  intro hw
  have h := encI_fields 0x23 0 a (sysRegNumber n)
  refine scalar (encI 0x23 0 a (sysRegNumber n)) 0x23 h.1 (by decide) rfl ?_
  generalize encI 0x23 0 a (sysRegNumber n) = x at h ⊢
  unfold decodeScalarMajor
  rw [h.1]
  dsimp only [BitVec.ofNat_eq_ofNat, BitVec.reduceToNat]
  simp only [accept, bit_one, bit_eq, BitVec.ofNat_eq_ofNat, BitVec.reduceToNat, sysRegOf_number, h] <;> rfl
theorem brk (c : BitVec 20) : Statement (.brk c) := by
  intro hw
  have h := encL_fields 0x24 0 c
  refine scalar (encL 0x24 0 c) 0x24 h.1 (by decide) rfl ?_
  generalize encL 0x24 0 c = x at h ⊢
  unfold decodeScalarMajor
  rw [h.1]
  dsimp only [BitVec.ofNat_eq_ofNat, BitVec.reduceToNat]
  simp only [accept, bit_one, bit_eq, BitVec.ofNat_eq_ofNat, BitVec.reduceToNat, h] <;> rfl
theorem vadd (d a : Reg) (b : VSrc) (m : Reg3) (t : ElemType) : Statement (.vadd d a b m t) := by
  intro hw
  have ht : t.upTo8 = true := by simpa [WellFormed] using hw
  cases b with
  | vec b =>
    have h := encV_fields 0x01 d a b m false t
    refine vecA (encV 0x01 d a b m false t) 0x01 h.1 (by decide) rfl ?_
    generalize encV 0x01 d a b m false t = x at h ⊢
    unfold decodeVector
    rw [h.1]
    dsimp only [BitVec.ofNat_eq_ofNat, BitVec.reduceToNat]
    simp only [accept, bit_one, bit_eq, BitVec.ofNat_eq_ofNat, BitVec.reduceToNat, Bool.false_and, Bool.true_and, Nat.reduceLeDiff, decide_true, decide_false, Bool.and_self, Bool.and_true, Bool.and_false, vec3, vec2, vsrcOf, elemTypeOf_code, ht, h] <;> rfl
  | scalar b =>
    have h := encV_fields 0x01 d a b m true t
    refine vecA (encV 0x01 d a b m true t) 0x01 h.1 (by decide) rfl ?_
    generalize encV 0x01 d a b m true t = x at h ⊢
    unfold decodeVector
    rw [h.1]
    dsimp only [BitVec.ofNat_eq_ofNat, BitVec.reduceToNat]
    simp only [accept, bit_one, bit_eq, BitVec.ofNat_eq_ofNat, BitVec.reduceToNat, Bool.false_and, Bool.true_and, Nat.reduceLeDiff, decide_true, decide_false, Bool.and_self, Bool.and_true, Bool.and_false, vec3, vec2, vsrcOf, elemTypeOf_code, ht, h] <;> rfl
theorem vsub (d a : Reg) (b : VSrc) (m : Reg3) (t : ElemType) : Statement (.vsub d a b m t) := by
  intro hw
  have ht : t.upTo8 = true := by simpa [WellFormed] using hw
  cases b with
  | vec b =>
    have h := encV_fields 0x02 d a b m false t
    refine vecA (encV 0x02 d a b m false t) 0x02 h.1 (by decide) rfl ?_
    generalize encV 0x02 d a b m false t = x at h ⊢
    unfold decodeVector
    rw [h.1]
    dsimp only [BitVec.ofNat_eq_ofNat, BitVec.reduceToNat]
    simp only [accept, bit_one, bit_eq, BitVec.ofNat_eq_ofNat, BitVec.reduceToNat, Bool.false_and, Bool.true_and, Nat.reduceLeDiff, decide_true, decide_false, Bool.and_self, Bool.and_true, Bool.and_false, vec3, vec2, vsrcOf, elemTypeOf_code, ht, h] <;> rfl
  | scalar b =>
    have h := encV_fields 0x02 d a b m true t
    refine vecA (encV 0x02 d a b m true t) 0x02 h.1 (by decide) rfl ?_
    generalize encV 0x02 d a b m true t = x at h ⊢
    unfold decodeVector
    rw [h.1]
    dsimp only [BitVec.ofNat_eq_ofNat, BitVec.reduceToNat]
    simp only [accept, bit_one, bit_eq, BitVec.ofNat_eq_ofNat, BitVec.reduceToNat, Bool.false_and, Bool.true_and, Nat.reduceLeDiff, decide_true, decide_false, Bool.and_self, Bool.and_true, Bool.and_false, vec3, vec2, vsrcOf, elemTypeOf_code, ht, h] <;> rfl
theorem vmul (d a : Reg) (b : VSrc) (m : Reg3) (t : ElemType) : Statement (.vmul d a b m t) := by
  intro hw
  have ht : t.upTo8 = true := by simpa [WellFormed] using hw
  cases b with
  | vec b =>
    have h := encV_fields 0x03 d a b m false t
    refine vecA (encV 0x03 d a b m false t) 0x03 h.1 (by decide) rfl ?_
    generalize encV 0x03 d a b m false t = x at h ⊢
    unfold decodeVector
    rw [h.1]
    dsimp only [BitVec.ofNat_eq_ofNat, BitVec.reduceToNat]
    simp only [accept, bit_one, bit_eq, BitVec.ofNat_eq_ofNat, BitVec.reduceToNat, Bool.false_and, Bool.true_and, Nat.reduceLeDiff, decide_true, decide_false, Bool.and_self, Bool.and_true, Bool.and_false, vec3, vec2, vsrcOf, elemTypeOf_code, ht, h] <;> rfl
  | scalar b =>
    have h := encV_fields 0x03 d a b m true t
    refine vecA (encV 0x03 d a b m true t) 0x03 h.1 (by decide) rfl ?_
    generalize encV 0x03 d a b m true t = x at h ⊢
    unfold decodeVector
    rw [h.1]
    dsimp only [BitVec.ofNat_eq_ofNat, BitVec.reduceToNat]
    simp only [accept, bit_one, bit_eq, BitVec.ofNat_eq_ofNat, BitVec.reduceToNat, Bool.false_and, Bool.true_and, Nat.reduceLeDiff, decide_true, decide_false, Bool.and_self, Bool.and_true, Bool.and_false, vec3, vec2, vsrcOf, elemTypeOf_code, ht, h] <;> rfl
theorem vfma (d a : Reg) (b : VSrc) (m : Reg3) (t : ElemType) : Statement (.vfma d a b m t) := by
  intro hw
  have ht : t.fmaOk = true := by simpa [WellFormed] using hw
  cases b with
  | vec b =>
    have h := encV_fields 0x04 d a b m false t
    refine vecA (encV 0x04 d a b m false t) 0x04 h.1 (by decide) rfl ?_
    generalize encV 0x04 d a b m false t = x at h ⊢
    unfold decodeVector
    rw [h.1]
    dsimp only [BitVec.ofNat_eq_ofNat, BitVec.reduceToNat]
    simp only [accept, bit_one, bit_eq, BitVec.ofNat_eq_ofNat, BitVec.reduceToNat, Bool.false_and, Bool.true_and, Nat.reduceLeDiff, decide_true, decide_false, Bool.and_self, Bool.and_true, Bool.and_false, vec3, vec2, vsrcOf, elemTypeOf_code, ht, h] <;> rfl
  | scalar b =>
    have h := encV_fields 0x04 d a b m true t
    refine vecA (encV 0x04 d a b m true t) 0x04 h.1 (by decide) rfl ?_
    generalize encV 0x04 d a b m true t = x at h ⊢
    unfold decodeVector
    rw [h.1]
    dsimp only [BitVec.ofNat_eq_ofNat, BitVec.reduceToNat]
    simp only [accept, bit_one, bit_eq, BitVec.ofNat_eq_ofNat, BitVec.reduceToNat, Bool.false_and, Bool.true_and, Nat.reduceLeDiff, decide_true, decide_false, Bool.and_self, Bool.and_true, Bool.and_false, vec3, vec2, vsrcOf, elemTypeOf_code, ht, h] <;> rfl
theorem vmin (d a : Reg) (b : VSrc) (m : Reg3) (t : ElemType) : Statement (.vmin d a b m t) := by
  intro hw
  have ht : t.upTo8 = true := by simpa [WellFormed] using hw
  cases b with
  | vec b =>
    have h := encV_fields 0x05 d a b m false t
    refine vecA (encV 0x05 d a b m false t) 0x05 h.1 (by decide) rfl ?_
    generalize encV 0x05 d a b m false t = x at h ⊢
    unfold decodeVector
    rw [h.1]
    dsimp only [BitVec.ofNat_eq_ofNat, BitVec.reduceToNat]
    simp only [accept, bit_one, bit_eq, BitVec.ofNat_eq_ofNat, BitVec.reduceToNat, Bool.false_and, Bool.true_and, Nat.reduceLeDiff, decide_true, decide_false, Bool.and_self, Bool.and_true, Bool.and_false, vec3, vec2, vsrcOf, elemTypeOf_code, ht, h] <;> rfl
  | scalar b =>
    have h := encV_fields 0x05 d a b m true t
    refine vecA (encV 0x05 d a b m true t) 0x05 h.1 (by decide) rfl ?_
    generalize encV 0x05 d a b m true t = x at h ⊢
    unfold decodeVector
    rw [h.1]
    dsimp only [BitVec.ofNat_eq_ofNat, BitVec.reduceToNat]
    simp only [accept, bit_one, bit_eq, BitVec.ofNat_eq_ofNat, BitVec.reduceToNat, Bool.false_and, Bool.true_and, Nat.reduceLeDiff, decide_true, decide_false, Bool.and_self, Bool.and_true, Bool.and_false, vec3, vec2, vsrcOf, elemTypeOf_code, ht, h] <;> rfl
theorem vmax (d a : Reg) (b : VSrc) (m : Reg3) (t : ElemType) : Statement (.vmax d a b m t) := by
  intro hw
  have ht : t.upTo8 = true := by simpa [WellFormed] using hw
  cases b with
  | vec b =>
    have h := encV_fields 0x06 d a b m false t
    refine vecA (encV 0x06 d a b m false t) 0x06 h.1 (by decide) rfl ?_
    generalize encV 0x06 d a b m false t = x at h ⊢
    unfold decodeVector
    rw [h.1]
    dsimp only [BitVec.ofNat_eq_ofNat, BitVec.reduceToNat]
    simp only [accept, bit_one, bit_eq, BitVec.ofNat_eq_ofNat, BitVec.reduceToNat, Bool.false_and, Bool.true_and, Nat.reduceLeDiff, decide_true, decide_false, Bool.and_self, Bool.and_true, Bool.and_false, vec3, vec2, vsrcOf, elemTypeOf_code, ht, h] <;> rfl
  | scalar b =>
    have h := encV_fields 0x06 d a b m true t
    refine vecA (encV 0x06 d a b m true t) 0x06 h.1 (by decide) rfl ?_
    generalize encV 0x06 d a b m true t = x at h ⊢
    unfold decodeVector
    rw [h.1]
    dsimp only [BitVec.ofNat_eq_ofNat, BitVec.reduceToNat]
    simp only [accept, bit_one, bit_eq, BitVec.ofNat_eq_ofNat, BitVec.reduceToNat, Bool.false_and, Bool.true_and, Nat.reduceLeDiff, decide_true, decide_false, Bool.and_self, Bool.and_true, Bool.and_false, vec3, vec2, vsrcOf, elemTypeOf_code, ht, h] <;> rfl
theorem vabs (d a : Reg) (m : Reg3) (t : ElemType) : Statement (.vabs d a m t) := by
  intro hw
  have h := encV_fields 0x07 d a 0 m false t
  have ht : t.signedOk = true := by simpa [WellFormed] using hw
  refine vecA (encV 0x07 d a 0 m false t) 0x07 h.1 (by decide) rfl ?_
  generalize encV 0x07 d a 0 m false t = x at h ⊢
  unfold decodeVector
  rw [h.1]
  dsimp only [BitVec.ofNat_eq_ofNat, BitVec.reduceToNat]
  simp only [accept, bit_one, bit_eq, BitVec.ofNat_eq_ofNat, BitVec.reduceToNat, Bool.false_and, Bool.true_and, Nat.reduceLeDiff, decide_true, decide_false, Bool.and_self, Bool.and_true, Bool.and_false, vec3, vec2, vsrcOf, elemTypeOf_code, ht, h] <;> rfl
theorem vneg (d a : Reg) (m : Reg3) (t : ElemType) : Statement (.vneg d a m t) := by
  intro hw
  have h := encV_fields 0x08 d a 0 m false t
  have ht : t.signedOk = true := by simpa [WellFormed] using hw
  refine vecA (encV 0x08 d a 0 m false t) 0x08 h.1 (by decide) rfl ?_
  generalize encV 0x08 d a 0 m false t = x at h ⊢
  unfold decodeVector
  rw [h.1]
  dsimp only [BitVec.ofNat_eq_ofNat, BitVec.reduceToNat]
  simp only [accept, bit_one, bit_eq, BitVec.ofNat_eq_ofNat, BitVec.reduceToNat, Bool.false_and, Bool.true_and, Nat.reduceLeDiff, decide_true, decide_false, Bool.and_self, Bool.and_true, Bool.and_false, vec3, vec2, vsrcOf, elemTypeOf_code, ht, h] <;> rfl
theorem vand (d a : Reg) (b : VSrc) (m : Reg3) (t : ElemType) : Statement (.vand d a b m t) := by
  intro hw
  cases b with
  | vec b =>
    have h := encV_fields 0x09 d a b m false t
    refine vecA (encV 0x09 d a b m false t) 0x09 h.1 (by decide) rfl ?_
    generalize encV 0x09 d a b m false t = x at h ⊢
    unfold decodeVector
    rw [h.1]
    dsimp only [BitVec.ofNat_eq_ofNat, BitVec.reduceToNat]
    simp only [accept, bit_one, bit_eq, BitVec.ofNat_eq_ofNat, BitVec.reduceToNat, Bool.false_and, Bool.true_and, Nat.reduceLeDiff, decide_true, decide_false, Bool.and_self, Bool.and_true, Bool.and_false, vec3, vec2, vecImm, vsrcOf, elemTypeOf_code, h] <;> rfl
  | scalar b =>
    have h := encV_fields 0x09 d a b m true t
    refine vecA (encV 0x09 d a b m true t) 0x09 h.1 (by decide) rfl ?_
    generalize encV 0x09 d a b m true t = x at h ⊢
    unfold decodeVector
    rw [h.1]
    dsimp only [BitVec.ofNat_eq_ofNat, BitVec.reduceToNat]
    simp only [accept, bit_one, bit_eq, BitVec.ofNat_eq_ofNat, BitVec.reduceToNat, Bool.false_and, Bool.true_and, Nat.reduceLeDiff, decide_true, decide_false, Bool.and_self, Bool.and_true, Bool.and_false, vec3, vec2, vecImm, vsrcOf, elemTypeOf_code, h] <;> rfl
theorem vor (d a : Reg) (b : VSrc) (m : Reg3) (t : ElemType) : Statement (.vor d a b m t) := by
  intro hw
  cases b with
  | vec b =>
    have h := encV_fields 0x0A d a b m false t
    refine vecA (encV 0x0A d a b m false t) 0x0A h.1 (by decide) rfl ?_
    generalize encV 0x0A d a b m false t = x at h ⊢
    unfold decodeVector
    rw [h.1]
    dsimp only [BitVec.ofNat_eq_ofNat, BitVec.reduceToNat]
    simp only [accept, bit_one, bit_eq, BitVec.ofNat_eq_ofNat, BitVec.reduceToNat, Bool.false_and, Bool.true_and, Nat.reduceLeDiff, decide_true, decide_false, Bool.and_self, Bool.and_true, Bool.and_false, vec3, vec2, vecImm, vsrcOf, elemTypeOf_code, h] <;> rfl
  | scalar b =>
    have h := encV_fields 0x0A d a b m true t
    refine vecA (encV 0x0A d a b m true t) 0x0A h.1 (by decide) rfl ?_
    generalize encV 0x0A d a b m true t = x at h ⊢
    unfold decodeVector
    rw [h.1]
    dsimp only [BitVec.ofNat_eq_ofNat, BitVec.reduceToNat]
    simp only [accept, bit_one, bit_eq, BitVec.ofNat_eq_ofNat, BitVec.reduceToNat, Bool.false_and, Bool.true_and, Nat.reduceLeDiff, decide_true, decide_false, Bool.and_self, Bool.and_true, Bool.and_false, vec3, vec2, vecImm, vsrcOf, elemTypeOf_code, h] <;> rfl
theorem vxor (d a : Reg) (b : VSrc) (m : Reg3) (t : ElemType) : Statement (.vxor d a b m t) := by
  intro hw
  cases b with
  | vec b =>
    have h := encV_fields 0x0B d a b m false t
    refine vecA (encV 0x0B d a b m false t) 0x0B h.1 (by decide) rfl ?_
    generalize encV 0x0B d a b m false t = x at h ⊢
    unfold decodeVector
    rw [h.1]
    dsimp only [BitVec.ofNat_eq_ofNat, BitVec.reduceToNat]
    simp only [accept, bit_one, bit_eq, BitVec.ofNat_eq_ofNat, BitVec.reduceToNat, Bool.false_and, Bool.true_and, Nat.reduceLeDiff, decide_true, decide_false, Bool.and_self, Bool.and_true, Bool.and_false, vec3, vec2, vecImm, vsrcOf, elemTypeOf_code, h] <;> rfl
  | scalar b =>
    have h := encV_fields 0x0B d a b m true t
    refine vecA (encV 0x0B d a b m true t) 0x0B h.1 (by decide) rfl ?_
    generalize encV 0x0B d a b m true t = x at h ⊢
    unfold decodeVector
    rw [h.1]
    dsimp only [BitVec.ofNat_eq_ofNat, BitVec.reduceToNat]
    simp only [accept, bit_one, bit_eq, BitVec.ofNat_eq_ofNat, BitVec.reduceToNat, Bool.false_and, Bool.true_and, Nat.reduceLeDiff, decide_true, decide_false, Bool.and_self, Bool.and_true, Bool.and_false, vec3, vec2, vecImm, vsrcOf, elemTypeOf_code, h] <;> rfl
theorem vshl (d a : Reg) (b : VSrc) (m : Reg3) (t : ElemType) : Statement (.vshl d a b m t) := by
  intro hw
  have ht : t.intOk = true := by simpa [WellFormed] using hw
  cases b with
  | vec b =>
    have h := encV_fields 0x0C d a b m false t
    refine vecA (encV 0x0C d a b m false t) 0x0C h.1 (by decide) rfl ?_
    generalize encV 0x0C d a b m false t = x at h ⊢
    unfold decodeVector
    rw [h.1]
    dsimp only [BitVec.ofNat_eq_ofNat, BitVec.reduceToNat]
    simp only [accept, bit_one, bit_eq, BitVec.ofNat_eq_ofNat, BitVec.reduceToNat, Bool.false_and, Bool.true_and, Nat.reduceLeDiff, decide_true, decide_false, Bool.and_self, Bool.and_true, Bool.and_false, vec3, vec2, vsrcOf, elemTypeOf_code, ht, h] <;> rfl
  | scalar b =>
    have h := encV_fields 0x0C d a b m true t
    refine vecA (encV 0x0C d a b m true t) 0x0C h.1 (by decide) rfl ?_
    generalize encV 0x0C d a b m true t = x at h ⊢
    unfold decodeVector
    rw [h.1]
    dsimp only [BitVec.ofNat_eq_ofNat, BitVec.reduceToNat]
    simp only [accept, bit_one, bit_eq, BitVec.ofNat_eq_ofNat, BitVec.reduceToNat, Bool.false_and, Bool.true_and, Nat.reduceLeDiff, decide_true, decide_false, Bool.and_self, Bool.and_true, Bool.and_false, vec3, vec2, vsrcOf, elemTypeOf_code, ht, h] <;> rfl
theorem vshr (d a : Reg) (b : VSrc) (m : Reg3) (t : ElemType) : Statement (.vshr d a b m t) := by
  intro hw
  have ht : t.intOk = true := by simpa [WellFormed] using hw
  cases b with
  | vec b =>
    have h := encV_fields 0x0D d a b m false t
    refine vecA (encV 0x0D d a b m false t) 0x0D h.1 (by decide) rfl ?_
    generalize encV 0x0D d a b m false t = x at h ⊢
    unfold decodeVector
    rw [h.1]
    dsimp only [BitVec.ofNat_eq_ofNat, BitVec.reduceToNat]
    simp only [accept, bit_one, bit_eq, BitVec.ofNat_eq_ofNat, BitVec.reduceToNat, Bool.false_and, Bool.true_and, Nat.reduceLeDiff, decide_true, decide_false, Bool.and_self, Bool.and_true, Bool.and_false, vec3, vec2, vsrcOf, elemTypeOf_code, ht, h] <;> rfl
  | scalar b =>
    have h := encV_fields 0x0D d a b m true t
    refine vecA (encV 0x0D d a b m true t) 0x0D h.1 (by decide) rfl ?_
    generalize encV 0x0D d a b m true t = x at h ⊢
    unfold decodeVector
    rw [h.1]
    dsimp only [BitVec.ofNat_eq_ofNat, BitVec.reduceToNat]
    simp only [accept, bit_one, bit_eq, BitVec.ofNat_eq_ofNat, BitVec.reduceToNat, Bool.false_and, Bool.true_and, Nat.reduceLeDiff, decide_true, decide_false, Bool.and_self, Bool.and_true, Bool.and_false, vec3, vec2, vsrcOf, elemTypeOf_code, ht, h] <;> rfl
theorem vsra (d a : Reg) (b : VSrc) (m : Reg3) (t : ElemType) : Statement (.vsra d a b m t) := by
  intro hw
  have ht : t.intOk = true := by simpa [WellFormed] using hw
  cases b with
  | vec b =>
    have h := encV_fields 0x0E d a b m false t
    refine vecA (encV 0x0E d a b m false t) 0x0E h.1 (by decide) rfl ?_
    generalize encV 0x0E d a b m false t = x at h ⊢
    unfold decodeVector
    rw [h.1]
    dsimp only [BitVec.ofNat_eq_ofNat, BitVec.reduceToNat]
    simp only [accept, bit_one, bit_eq, BitVec.ofNat_eq_ofNat, BitVec.reduceToNat, Bool.false_and, Bool.true_and, Nat.reduceLeDiff, decide_true, decide_false, Bool.and_self, Bool.and_true, Bool.and_false, vec3, vec2, vsrcOf, elemTypeOf_code, ht, h] <;> rfl
  | scalar b =>
    have h := encV_fields 0x0E d a b m true t
    refine vecA (encV 0x0E d a b m true t) 0x0E h.1 (by decide) rfl ?_
    generalize encV 0x0E d a b m true t = x at h ⊢
    unfold decodeVector
    rw [h.1]
    dsimp only [BitVec.ofNat_eq_ofNat, BitVec.reduceToNat]
    simp only [accept, bit_one, bit_eq, BitVec.ofNat_eq_ofNat, BitVec.reduceToNat, Bool.false_and, Bool.true_and, Nat.reduceLeDiff, decide_true, decide_false, Bool.and_self, Bool.and_true, Bool.and_false, vec3, vec2, vsrcOf, elemTypeOf_code, ht, h] <;> rfl
theorem vcmp (c : VCond) (d : Reg3) (a : Reg) (b : VSrc) (m : Reg3) (t : ElemType) : Statement (.vcmp c d a b m t) := by
  intro hw
  have ht : t.upTo8 = true := by simpa [WellFormed] using hw
  cases b with
  | vec b =>
    have h := encV_fields 0x0F (vcondCode c ++ d) a b m false t
    refine vecA (encV 0x0F (vcondCode c ++ d) a b m false t) 0x0F h.1 (by decide) rfl ?_
    generalize encV 0x0F (vcondCode c ++ d) a b m false t = x at h ⊢
    unfold decodeVector
    rw [h.1]
    dsimp only [BitVec.ofNat_eq_ofNat, BitVec.reduceToNat]
    simp only [accept, bit_one, bit_eq, BitVec.ofNat_eq_ofNat, BitVec.reduceToNat, Bool.false_and, Bool.true_and, Nat.reduceLeDiff, decide_true, decide_false, Bool.and_self, Bool.and_true, Bool.and_false, vec3, vec2, vsrcOf, elemTypeOf_code, ht, f23, f20, app33h, app33l, vcondOf_code, h] <;> rfl
  | scalar b =>
    have h := encV_fields 0x0F (vcondCode c ++ d) a b m true t
    refine vecA (encV 0x0F (vcondCode c ++ d) a b m true t) 0x0F h.1 (by decide) rfl ?_
    generalize encV 0x0F (vcondCode c ++ d) a b m true t = x at h ⊢
    unfold decodeVector
    rw [h.1]
    dsimp only [BitVec.ofNat_eq_ofNat, BitVec.reduceToNat]
    simp only [accept, bit_one, bit_eq, BitVec.ofNat_eq_ofNat, BitVec.reduceToNat, Bool.false_and, Bool.true_and, Nat.reduceLeDiff, decide_true, decide_false, Bool.and_self, Bool.and_true, Bool.and_false, vec3, vec2, vsrcOf, elemTypeOf_code, ht, f23, f20, app33h, app33l, vcondOf_code, h] <;> rfl
theorem vsel (d a : Reg) (b : VSrc) (m : Reg3) (t : ElemType) : Statement (.vsel d a b m t) := by
  intro hw
  cases b with
  | vec b =>
    have h := encV_fields 0x10 d a b m false t
    refine vecA (encV 0x10 d a b m false t) 0x10 h.1 (by decide) rfl ?_
    generalize encV 0x10 d a b m false t = x at h ⊢
    unfold decodeVector
    rw [h.1]
    dsimp only [BitVec.ofNat_eq_ofNat, BitVec.reduceToNat]
    simp only [accept, bit_one, bit_eq, BitVec.ofNat_eq_ofNat, BitVec.reduceToNat, Bool.false_and, Bool.true_and, Nat.reduceLeDiff, decide_true, decide_false, Bool.and_self, Bool.and_true, Bool.and_false, vec3, vec2, vecImm, vsrcOf, elemTypeOf_code, h] <;> rfl
  | scalar b =>
    have h := encV_fields 0x10 d a b m true t
    refine vecA (encV 0x10 d a b m true t) 0x10 h.1 (by decide) rfl ?_
    generalize encV 0x10 d a b m true t = x at h ⊢
    unfold decodeVector
    rw [h.1]
    dsimp only [BitVec.ofNat_eq_ofNat, BitVec.reduceToNat]
    simp only [accept, bit_one, bit_eq, BitVec.ofNat_eq_ofNat, BitVec.reduceToNat, Bool.false_and, Bool.true_and, Nat.reduceLeDiff, decide_true, decide_false, Bool.and_self, Bool.and_true, Bool.and_false, vec3, vec2, vecImm, vsrcOf, elemTypeOf_code, h] <;> rfl
theorem vmov (d a : Reg) (m : Reg3) (t : ElemType) : Statement (.vmov d a m t) := by
  intro hw
  have h := encV_fields 0x11 d a 0 m false t
  refine vecA (encV 0x11 d a 0 m false t) 0x11 h.1 (by decide) rfl ?_
  generalize encV 0x11 d a 0 m false t = x at h ⊢
  unfold decodeVector
  rw [h.1]
  dsimp only [BitVec.ofNat_eq_ofNat, BitVec.reduceToNat]
  simp only [accept, bit_one, bit_eq, BitVec.ofNat_eq_ofNat, BitVec.reduceToNat, Bool.false_and, Bool.true_and, Nat.reduceLeDiff, decide_true, decide_false, Bool.and_self, Bool.and_true, Bool.and_false, vec3, vec2, vecImm, vsrcOf, elemTypeOf_code, h] <;> rfl
theorem vbcast (d a : Reg) (l : BitVec 6) (m : Reg3) (t : ElemType) : Statement (.vbcast d a l m t) := by
  intro hw
  have h := encV_fields 0x12 d a l m false t
  refine vecA (encV 0x12 d a l m false t) 0x12 h.1 (by decide) rfl ?_
  generalize encV 0x12 d a l m false t = x at h ⊢
  unfold decodeVector
  rw [h.1]
  dsimp only [BitVec.ofNat_eq_ofNat, BitVec.reduceToNat]
  simp only [accept, bit_one, bit_eq, BitVec.ofNat_eq_ofNat, BitVec.reduceToNat, Bool.false_and, Bool.true_and, Nat.reduceLeDiff, decide_true, decide_false, Bool.and_self, Bool.and_true, Bool.and_false, vec3, vec2, vecImm, vsrcOf, elemTypeOf_code, h] <;> rfl
theorem vperm (d a : Reg) (b : VSrc) (m : Reg3) (t : ElemType) : Statement (.vperm d a b m t) := by
  intro hw
  cases b with
  | vec b =>
    have h := encV_fields 0x13 d a b m false t
    refine vecA (encV 0x13 d a b m false t) 0x13 h.1 (by decide) rfl ?_
    generalize encV 0x13 d a b m false t = x at h ⊢
    unfold decodeVector
    rw [h.1]
    dsimp only [BitVec.ofNat_eq_ofNat, BitVec.reduceToNat]
    simp only [accept, bit_one, bit_eq, BitVec.ofNat_eq_ofNat, BitVec.reduceToNat, Bool.false_and, Bool.true_and, Nat.reduceLeDiff, decide_true, decide_false, Bool.and_self, Bool.and_true, Bool.and_false, vec3, vec2, vecImm, vsrcOf, elemTypeOf_code, h] <;> rfl
  | scalar b =>
    have h := encV_fields 0x13 d a b m true t
    refine vecA (encV 0x13 d a b m true t) 0x13 h.1 (by decide) rfl ?_
    generalize encV 0x13 d a b m true t = x at h ⊢
    unfold decodeVector
    rw [h.1]
    dsimp only [BitVec.ofNat_eq_ofNat, BitVec.reduceToNat]
    simp only [accept, bit_one, bit_eq, BitVec.ofNat_eq_ofNat, BitVec.reduceToNat, Bool.false_and, Bool.true_and, Nat.reduceLeDiff, decide_true, decide_false, Bool.and_self, Bool.and_true, Bool.and_false, vec3, vec2, vecImm, vsrcOf, elemTypeOf_code, h] <;> rfl
theorem vrot (d a : Reg) (n : BitVec 6) (m : Reg3) (t : ElemType) : Statement (.vrot d a n m t) := by
  intro hw
  have h := encV_fields 0x14 d a n m false t
  refine vecA (encV 0x14 d a n m false t) 0x14 h.1 (by decide) rfl ?_
  generalize encV 0x14 d a n m false t = x at h ⊢
  unfold decodeVector
  rw [h.1]
  dsimp only [BitVec.ofNat_eq_ofNat, BitVec.reduceToNat]
  simp only [accept, bit_one, bit_eq, BitVec.ofNat_eq_ofNat, BitVec.reduceToNat, Bool.false_and, Bool.true_and, Nat.reduceLeDiff, decide_true, decide_false, Bool.and_self, Bool.and_true, Bool.and_false, vec3, vec2, vecImm, vsrcOf, elemTypeOf_code, h] <;> rfl
theorem vcvt (d a : Reg) (r : Rounding) (s : ElemType) (m : Reg3) (q : Bool) (t : ElemType) : Statement (.vcvt d a r s m q t) := by
  intro hw
  have h := encV_fields 0x15 d a (roundingCode r ++ elemTypeCode s) m q t
  refine vecA (encV 0x15 d a (roundingCode r ++ elemTypeCode s) m q t) 0x15 h.1 (by decide) rfl ?_
  generalize encV 0x15 d a (roundingCode r ++ elemTypeCode s) m q t = x at h ⊢
  unfold decodeVector
  rw [h.1]
  dsimp only [BitVec.ofNat_eq_ofNat, BitVec.reduceToNat]
  simp only [accept, bit_one, bit_eq, BitVec.ofNat_eq_ofNat, BitVec.reduceToNat, Bool.false_and, Bool.true_and, Nat.reduceLeDiff, decide_true, decide_false, Bool.and_self, Bool.and_true, Bool.and_false, f12b, f8d, app24h, app24l, elemTypeOf_code, roundingOf_code, h] <;> rfl
theorem vpack (d a : Reg) (q : Bool) (r : Rounding) (t : ElemType) : Statement (.vpack d a q r t) := by
  intro hw
  have h := encV_fields 0x16 d a ((0 : BitVec 3) ++ bit q ++ roundingCode r) 0 false t
  have hw : t.packOk = true ∧ (a.toNat % (if t.perLane == 2 then 2 else 4) != 0) = false := by
    cases t <;> simpa [WellFormed, ElemType.packOk, ElemType.perLane] using hw
  refine vecA (encV 0x16 d a ((0 : BitVec 3) ++ bit q ++ roundingCode r) 0 false t) 0x16 h.1 (by decide) rfl ?_
  generalize encV 0x16 d a ((0 : BitVec 3) ++ bit q ++ roundingCode r) 0 false t = x at h ⊢
  unfold decodeVector
  rw [h.1]
  dsimp only [BitVec.ofNat_eq_ofNat, BitVec.reduceToNat]
  simp only [accept, bit_one, bit_eq, BitVec.ofNat_eq_ofNat, BitVec.reduceToNat, Bool.false_and, Bool.true_and, Nat.reduceLeDiff, decide_true, decide_false, Bool.and_self, Bool.and_true, Bool.and_false, f11, f10a, f8b, app312a, app312b, app312c, elemTypeOf_code, roundingOf_code, bit_eq, hw, h] <;> rfl
theorem vunpk (d a : Reg) (p : BitVec 2) (t : ElemType) : Statement (.vunpk d a p t) := by
  intro hw
  have h := encV_fields 0x17 d a ((0 : BitVec 4) ++ p) 0 false t
  have hw : t.packOk = true ∧ p.toNat < t.perLane := by simpa [WellFormed] using hw
  have ho : (t.perLane == 2 && nz ((0#4 ++ p).extractLsb' 1 1)) = false := by
    rcases Nat.decEq t.perLane 2 with e | e
    · simp [e]
    · rw [app42m p (by omega)]; simp [nz]
  refine vecA (encV 0x17 d a ((0 : BitVec 4) ++ p) 0 false t) 0x17 h.1 (by decide) rfl ?_
  generalize encV 0x17 d a ((0 : BitVec 4) ++ p) 0 false t = x at h ⊢
  unfold decodeVector
  rw [h.1]
  dsimp only [BitVec.ofNat_eq_ofNat, BitVec.reduceToNat]
  simp only [accept, bit_one, bit_eq, BitVec.ofNat_eq_ofNat, BitVec.reduceToNat, Bool.false_and, Bool.true_and, Nat.reduceLeDiff, decide_true, decide_false, Bool.and_self, Bool.and_true, Bool.and_false, f10d, f8b, f9, app42h, app42l, elemTypeOf_code, Bool.true_and, ho, hw.1, h] <;> rfl
theorem vdot4 (d a : Reg) (b : VSrc) (m : Reg3) (t : ElemType) : Statement (.vdot4 d a b m t) := by
  intro hw
  have ht : t.dotOk = true := by simpa [WellFormed] using hw
  cases b with
  | vec b =>
    have h := encV_fields 0x18 d a b m false t
    refine vecA (encV 0x18 d a b m false t) 0x18 h.1 (by decide) rfl ?_
    generalize encV 0x18 d a b m false t = x at h ⊢
    unfold decodeVector
    rw [h.1]
    dsimp only [BitVec.ofNat_eq_ofNat, BitVec.reduceToNat]
    simp only [accept, bit_one, bit_eq, BitVec.ofNat_eq_ofNat, BitVec.reduceToNat, Bool.false_and, Bool.true_and, Nat.reduceLeDiff, decide_true, decide_false, Bool.and_self, Bool.and_true, Bool.and_false, vec3, vec2, vsrcOf, elemTypeOf_code, ht, h] <;> rfl
  | scalar b =>
    have h := encV_fields 0x18 d a b m true t
    refine vecA (encV 0x18 d a b m true t) 0x18 h.1 (by decide) rfl ?_
    generalize encV 0x18 d a b m true t = x at h ⊢
    unfold decodeVector
    rw [h.1]
    dsimp only [BitVec.ofNat_eq_ofNat, BitVec.reduceToNat]
    simp only [accept, bit_one, bit_eq, BitVec.ofNat_eq_ofNat, BitVec.reduceToNat, Bool.false_and, Bool.true_and, Nat.reduceLeDiff, decide_true, decide_false, Bool.and_self, Bool.and_true, Bool.and_false, vec3, vec2, vsrcOf, elemTypeOf_code, ht, h] <;> rfl
theorem vscan (d a : Reg) (m : Reg3) (t : ElemType) : Statement (.vscan d a m t) := by
  intro hw
  have h := encV_fields 0x19 d a 0 m false t
  have ht : t.scanOk = true := by simpa [WellFormed] using hw
  refine vecA (encV 0x19 d a 0 m false t) 0x19 h.1 (by decide) rfl ?_
  generalize encV 0x19 d a 0 m false t = x at h ⊢
  unfold decodeVector
  rw [h.1]
  dsimp only [BitVec.ofNat_eq_ofNat, BitVec.reduceToNat]
  simp only [accept, bit_one, bit_eq, BitVec.ofNat_eq_ofNat, BitVec.reduceToNat, Bool.false_and, Bool.true_and, Nat.reduceLeDiff, decide_true, decide_false, Bool.and_self, Bool.and_true, Bool.and_false, vec3, vec2, vsrcOf, elemTypeOf_code, ht, h] <;> rfl
theorem vrcp (d a : Reg) (m : Reg3) (t : ElemType) : Statement (.vrcp d a m t) := by
  intro hw
  have h := encV_fields 0x20 d a 0 m false t
  have ht : t.floatOk = true := by simpa [WellFormed] using hw
  refine vecB (encV 0x20 d a 0 m false t) 0x20 h.1 (by decide) rfl ?_
  generalize encV 0x20 d a 0 m false t = x at h ⊢
  unfold decodeVector
  rw [h.1]
  dsimp only [BitVec.ofNat_eq_ofNat, BitVec.reduceToNat]
  simp only [accept, bit_one, bit_eq, BitVec.ofNat_eq_ofNat, BitVec.reduceToNat, Bool.false_and, Bool.true_and, Nat.reduceLeDiff, decide_true, decide_false, Bool.and_self, Bool.and_true, Bool.and_false, vec3, vec2, vsrcOf, elemTypeOf_code, ht, h] <;> rfl
theorem vrsq (d a : Reg) (m : Reg3) (t : ElemType) : Statement (.vrsq d a m t) := by
  intro hw
  have h := encV_fields 0x21 d a 0 m false t
  have ht : t.floatOk = true := by simpa [WellFormed] using hw
  refine vecB (encV 0x21 d a 0 m false t) 0x21 h.1 (by decide) rfl ?_
  generalize encV 0x21 d a 0 m false t = x at h ⊢
  unfold decodeVector
  rw [h.1]
  dsimp only [BitVec.ofNat_eq_ofNat, BitVec.reduceToNat]
  simp only [accept, bit_one, bit_eq, BitVec.ofNat_eq_ofNat, BitVec.reduceToNat, Bool.false_and, Bool.true_and, Nat.reduceLeDiff, decide_true, decide_false, Bool.and_self, Bool.and_true, Bool.and_false, vec3, vec2, vsrcOf, elemTypeOf_code, ht, h] <;> rfl
theorem vsqrt (d a : Reg) (m : Reg3) (t : ElemType) : Statement (.vsqrt d a m t) := by
  intro hw
  have h := encV_fields 0x22 d a 0 m false t
  have ht : t.floatOk = true := by simpa [WellFormed] using hw
  refine vecB (encV 0x22 d a 0 m false t) 0x22 h.1 (by decide) rfl ?_
  generalize encV 0x22 d a 0 m false t = x at h ⊢
  unfold decodeVector
  rw [h.1]
  dsimp only [BitVec.ofNat_eq_ofNat, BitVec.reduceToNat]
  simp only [accept, bit_one, bit_eq, BitVec.ofNat_eq_ofNat, BitVec.reduceToNat, Bool.false_and, Bool.true_and, Nat.reduceLeDiff, decide_true, decide_false, Bool.and_self, Bool.and_true, Bool.and_false, vec3, vec2, vsrcOf, elemTypeOf_code, ht, h] <;> rfl
theorem vexp2 (d a : Reg) (m : Reg3) (t : ElemType) : Statement (.vexp2 d a m t) := by
  intro hw
  have h := encV_fields 0x23 d a 0 m false t
  have ht : t.floatOk = true := by simpa [WellFormed] using hw
  refine vecB (encV 0x23 d a 0 m false t) 0x23 h.1 (by decide) rfl ?_
  generalize encV 0x23 d a 0 m false t = x at h ⊢
  unfold decodeVector
  rw [h.1]
  dsimp only [BitVec.ofNat_eq_ofNat, BitVec.reduceToNat]
  simp only [accept, bit_one, bit_eq, BitVec.ofNat_eq_ofNat, BitVec.reduceToNat, Bool.false_and, Bool.true_and, Nat.reduceLeDiff, decide_true, decide_false, Bool.and_self, Bool.and_true, Bool.and_false, vec3, vec2, vsrcOf, elemTypeOf_code, ht, h] <;> rfl
theorem vlog2 (d a : Reg) (m : Reg3) (t : ElemType) : Statement (.vlog2 d a m t) := by
  intro hw
  have h := encV_fields 0x24 d a 0 m false t
  have ht : t.floatOk = true := by simpa [WellFormed] using hw
  refine vecB (encV 0x24 d a 0 m false t) 0x24 h.1 (by decide) rfl ?_
  generalize encV 0x24 d a 0 m false t = x at h ⊢
  unfold decodeVector
  rw [h.1]
  dsimp only [BitVec.ofNat_eq_ofNat, BitVec.reduceToNat]
  simp only [accept, bit_one, bit_eq, BitVec.ofNat_eq_ofNat, BitVec.reduceToNat, Bool.false_and, Bool.true_and, Nat.reduceLeDiff, decide_true, decide_false, Bool.and_self, Bool.and_true, Bool.and_false, vec3, vec2, vsrcOf, elemTypeOf_code, ht, h] <;> rfl
theorem vtanh (d a : Reg) (m : Reg3) (t : ElemType) : Statement (.vtanh d a m t) := by
  intro hw
  have h := encV_fields 0x25 d a 0 m false t
  have ht : t.floatOk = true := by simpa [WellFormed] using hw
  refine vecB (encV 0x25 d a 0 m false t) 0x25 h.1 (by decide) rfl ?_
  generalize encV 0x25 d a 0 m false t = x at h ⊢
  unfold decodeVector
  rw [h.1]
  dsimp only [BitVec.ofNat_eq_ofNat, BitVec.reduceToNat]
  simp only [accept, bit_one, bit_eq, BitVec.ofNat_eq_ofNat, BitVec.reduceToNat, Bool.false_and, Bool.true_and, Nat.reduceLeDiff, decide_true, decide_false, Bool.and_self, Bool.and_true, Bool.and_false, vec3, vec2, vsrcOf, elemTypeOf_code, ht, h] <;> rfl
theorem vred (o : RedOp) (n : Reg2) (a : Reg) (m : Reg3) (t : ElemType) : Statement (.vred o n a m t) := by
  intro hw
  have ht : t.scanOk = true := by simpa [WellFormed] using hw
  have h := encV_fields 0x26 (BitVec.ofNat 4 (redOpCode o) ++ n) a 0 m false t
  cases o
  · refine vecB (encV 0x26 (BitVec.ofNat 4 (redOpCode .add) ++ n) a 0 m false t) 0x26 h.1 (by decide) rfl ?_
    generalize encV 0x26 (BitVec.ofNat 4 (redOpCode .add) ++ n) a 0 m false t = x at h ⊢
    unfold decodeVector
    rw [h.1]
    dsimp only [BitVec.ofNat_eq_ofNat, BitVec.reduceToNat]
    simp only [accept, bit_one, bit_eq, BitVec.ofNat_eq_ofNat, BitVec.reduceToNat, Bool.false_and, Bool.true_and, Nat.reduceLeDiff, decide_true, decide_false, Bool.and_self, Bool.and_true, Bool.and_false, vec2, f22, f20b, app42h, app42l, redOpCode, redOpOf, elemTypeOf_code, ht, h] <;> rfl
  · refine vecB (encV 0x26 (BitVec.ofNat 4 (redOpCode .max) ++ n) a 0 m false t) 0x26 h.1 (by decide) rfl ?_
    generalize encV 0x26 (BitVec.ofNat 4 (redOpCode .max) ++ n) a 0 m false t = x at h ⊢
    unfold decodeVector
    rw [h.1]
    dsimp only [BitVec.ofNat_eq_ofNat, BitVec.reduceToNat]
    simp only [accept, bit_one, bit_eq, BitVec.ofNat_eq_ofNat, BitVec.reduceToNat, Bool.false_and, Bool.true_and, Nat.reduceLeDiff, decide_true, decide_false, Bool.and_self, Bool.and_true, Bool.and_false, vec2, f22, f20b, app42h, app42l, redOpCode, redOpOf, elemTypeOf_code, ht, h] <;> rfl
  · refine vecB (encV 0x26 (BitVec.ofNat 4 (redOpCode .min) ++ n) a 0 m false t) 0x26 h.1 (by decide) rfl ?_
    generalize encV 0x26 (BitVec.ofNat 4 (redOpCode .min) ++ n) a 0 m false t = x at h ⊢
    unfold decodeVector
    rw [h.1]
    dsimp only [BitVec.ofNat_eq_ofNat, BitVec.reduceToNat]
    simp only [accept, bit_one, bit_eq, BitVec.ofNat_eq_ofNat, BitVec.reduceToNat, Bool.false_and, Bool.true_and, Nat.reduceLeDiff, decide_true, decide_false, Bool.and_self, Bool.and_true, Bool.and_false, vec2, f22, f20b, app42h, app42l, redOpCode, redOpOf, elemTypeOf_code, ht, h] <;> rfl
theorem vdrain (d : Reg) (n : Reg2) (m : Reg3) (t : ElemType) : Statement (.vdrain d n m t) := by
  intro hw
  have h := encV_fields 0x27 d ((0 : BitVec 4) ++ n) 0 m false t
  have ht : t.scanOk = true := by simpa [WellFormed] using hw
  refine vecB (encV 0x27 d ((0 : BitVec 4) ++ n) 0 m false t) 0x27 h.1 (by decide) rfl ?_
  generalize encV 0x27 d ((0 : BitVec 4) ++ n) 0 m false t = x at h ⊢
  unfold decodeVector
  rw [h.1]
  dsimp only [BitVec.ofNat_eq_ofNat, BitVec.reduceToNat]
  simp only [accept, bit_one, bit_eq, BitVec.ofNat_eq_ofNat, BitVec.reduceToNat, Bool.false_and, Bool.true_and, Nat.reduceLeDiff, decide_true, decide_false, Bool.and_self, Bool.and_true, Bool.and_false, vec3, vec2, vsrcOf, elemTypeOf_code, ht, f16, f14b, app42h, app42l, h] <;> rfl
theorem vld (d a : Reg) (o : BitVec 9) (m : Reg3) : Statement (.vld d a o m) := by
  intro hw
  have h := encVm_fields 0x01 d a o m 0
  refine vm (encVm 0x01 d a o m 0) 0x01 h.1 (by decide) rfl ?_
  generalize encVm 0x01 d a o m 0 = x at h ⊢
  unfold decodeVm
  rw [h.1]
  dsimp only [BitVec.ofNat_eq_ofNat, BitVec.reduceToNat]
  simp only [accept, bit_one, bit_eq, BitVec.ofNat_eq_ofNat, BitVec.reduceToNat, h] <;> rfl
theorem vst (d a : Reg) (o : BitVec 9) (m : Reg3) : Statement (.vst d a o m) := by
  intro hw
  have h := encVm_fields 0x02 d a o m 0
  refine vm (encVm 0x02 d a o m 0) 0x02 h.1 (by decide) rfl ?_
  generalize encVm 0x02 d a o m 0 = x at h ⊢
  unfold decodeVm
  rw [h.1]
  dsimp only [BitVec.ofNat_eq_ofNat, BitVec.reduceToNat]
  simp only [accept, bit_one, bit_eq, BitVec.ofNat_eq_ofNat, BitVec.reduceToNat, h] <;> rfl
theorem vldf (d a : Reg) (o : BitVec 9) (m : Reg3) (k : Bool) : Statement (.vldf d a o m k) := by
  intro hw
  have h := encVm_fields 0x03 d a o m (bit false ++ bit k)
  refine vm (encVm 0x03 d a o m (bit false ++ bit k)) 0x03 h.1 (by decide) rfl ?_
  generalize encVm 0x03 d a o m (bit false ++ bit k) = x at h ⊢
  unfold decodeVm
  rw [h.1]
  dsimp only [BitVec.ofNat_eq_ofNat, BitVec.reduceToNat]
  simp only [accept, bit_one, bit_eq, BitVec.ofNat_eq_ofNat, BitVec.reduceToNat, v1, v0, app11h, app11l, h] <;> rfl
theorem vste (d a : Reg) (o : BitVec 9) (m : Reg3) : Statement (.vste d a o m) := by
  intro hw
  have h := encVm_fields 0x04 d a o m 0
  refine vm (encVm 0x04 d a o m 0) 0x04 h.1 (by decide) rfl ?_
  generalize encVm 0x04 d a o m 0 = x at h ⊢
  unfold decodeVm
  rw [h.1]
  dsimp only [BitVec.ofNat_eq_ofNat, BitVec.reduceToNat]
  simp only [accept, bit_one, bit_eq, BitVec.ofNat_eq_ofNat, BitVec.reduceToNat, h] <;> rfl
theorem vldm (d a : Reg) (o : BitVec 9) (m : Reg3) (p : Policy) : Statement (.vldm d a o m p) := by
  intro hw
  have h := encVm_fields 0x05 d a o m (policyCode p)
  refine vm (encVm 0x05 d a o m (policyCode p)) 0x05 h.1 (by decide) rfl ?_
  generalize encVm 0x05 d a o m (policyCode p) = x at h ⊢
  unfold decodeVm
  rw [h.1]
  dsimp only [BitVec.ofNat_eq_ofNat, BitVec.reduceToNat]
  simp only [accept, bit_one, bit_eq, BitVec.ofNat_eq_ofNat, BitVec.reduceToNat, policyOf_code, h] <;> rfl
theorem vstm (d a : Reg) (o : BitVec 9) (m : Reg3) (p : Policy) : Statement (.vstm d a o m p) := by
  intro hw
  have h := encVm_fields 0x06 d a o m (policyCode p)
  refine vm (encVm 0x06 d a o m (policyCode p)) 0x06 h.1 (by decide) rfl ?_
  generalize encVm 0x06 d a o m (policyCode p) = x at h ⊢
  unfold decodeVm
  rw [h.1]
  dsimp only [BitVec.ofNat_eq_ofNat, BitVec.reduceToNat]
  simp only [accept, bit_one, bit_eq, BitVec.ofNat_eq_ofNat, BitVec.reduceToNat, policyOf_code, h] <;> rfl
theorem vgath (d a i : Reg) (m : Reg3) (p : Policy) : Statement (.vgath d a i m p) := by
  intro hw
  have h := encVm_fields 0x07 d a ((0 : BitVec 3) ++ i) m (policyCode p)
  refine vm (encVm 0x07 d a ((0 : BitVec 3) ++ i) m (policyCode p)) 0x07 h.1 (by decide) rfl ?_
  generalize encVm 0x07 d a ((0 : BitVec 3) ++ i) m (policyCode p) = x at h ⊢
  unfold decodeVm
  rw [h.1]
  dsimp only [BitVec.ofNat_eq_ofNat, BitVec.reduceToNat]
  simp only [accept, bit_one, bit_eq, BitVec.ofNat_eq_ofNat, BitVec.reduceToNat, v11, v5, app36h, app36l, policyOf_code, h] <;> rfl
theorem vscat (d a i : Reg) (m : Reg3) (p : Policy) : Statement (.vscat d a i m p) := by
  intro hw
  have h := encVm_fields 0x08 d a ((0 : BitVec 3) ++ i) m (policyCode p)
  refine vm (encVm 0x08 d a ((0 : BitVec 3) ++ i) m (policyCode p)) 0x08 h.1 (by decide) rfl ?_
  generalize encVm 0x08 d a ((0 : BitVec 3) ++ i) m (policyCode p) = x at h ⊢
  unfold decodeVm
  rw [h.1]
  dsimp only [BitVec.ofNat_eq_ofNat, BitVec.reduceToNat]
  simp only [accept, bit_one, bit_eq, BitVec.ofNat_eq_ofNat, BitVec.reduceToNat, v11, v5, app36h, app36l, policyOf_code, h] <;> rfl
theorem feset (d a : Reg) (f : Bool) : Statement (.feset d a f) := by
  intro hw
  have h := encVm_fields 0x09 d a 0 0 (bit false ++ bit f)
  have z1 : fld (encVm 0x09 d a 0 0 (bit false ++ bit f)) 1 1 = 0 := by
    rw [v1, h.2.2.2.2.2]
    cases f <;> rfl
  have z : fld (encVm 0x09 d a 0 0 (bit false ++ bit f)) 1 13 = 0 := zero_join (n := 4) 9 (zero_join (n := 1) 3 z1 h.2.2.2.2.1) h.2.2.2.1
  refine vm (encVm 0x09 d a 0 0 (bit false ++ bit f)) 0x09 h.1 (by decide) rfl ?_
  generalize encVm 0x09 d a 0 0 (bit false ++ bit f) = x at h z ⊢
  unfold decodeVm
  rw [h.1]
  dsimp only [BitVec.ofNat_eq_ofNat, BitVec.reduceToNat]
  simp only [accept, bit_one, bit_eq, BitVec.ofNat_eq_ofNat, BitVec.reduceToNat, v0, app11l, z, h] <;> rfl
theorem sbind (d : Reg) (w : Bool) (n : Reg4) : Statement (.sbind d w n) := by
  intro hw
  have h := encVm_fields 0x0A d 0 ((0 : BitVec 4) ++ bit w ++ n) 0 0
  have z : fld (encVm 0x0A d 0 ((0 : BitVec 4) ++ bit w ++ n) 0 0) 0 5 = 0 := zero_join (n := 2) 3 h.2.2.2.2.2 h.2.2.2.2.1
  have hw : decide (d.toNat < 56) = false := by simpa [WellFormed] using hw
  refine vm (encVm 0x0A d 0 ((0 : BitVec 4) ++ bit w ++ n) 0 0) 0x0A h.1 (by decide) rfl ?_
  generalize encVm 0x0A d 0 ((0 : BitVec 4) ++ bit w ++ n) 0 0 = x at h z ⊢
  unfold decodeVm
  rw [h.1]
  dsimp only [BitVec.ofNat_eq_ofNat, BitVec.reduceToNat]
  simp only [accept, bit_one, bit_eq, BitVec.ofNat_eq_ofNat, BitVec.reduceToNat, v10, v9, v5d, app414a, app414b, app414c, z, hw, h] <;> rfl
theorem sfree (d : Reg) : Statement (.sfree d) := by
  intro hw
  have h := encVm_fields 0x0B d 0 0 0 0
  have z : fld (encVm 0x0B d 0 0 0 0) 0 20 = 0 := zero_join (n := 14) 6 (zero_join (n := 5) 9 (zero_join (n := 2) 3 h.2.2.2.2.2 h.2.2.2.2.1) h.2.2.2.1) h.2.2.1
  have hw : decide (d.toNat < 56) = false := by simpa [WellFormed] using hw
  refine vm (encVm 0x0B d 0 0 0 0) 0x0B h.1 (by decide) rfl ?_
  generalize encVm 0x0B d 0 0 0 0 = x at h z ⊢
  unfold decodeVm
  rw [h.1]
  dsimp only [BitVec.ofNat_eq_ofNat, BitVec.reduceToNat]
  simp only [accept, bit_one, bit_eq, BitVec.ofNat_eq_ofNat, BitVec.reduceToNat, z, hw, h] <;> rfl
theorem hold (a b c d : BitVec 5) (n : BitVec 4) : Statement (.hold a b c d n) := by
  intro hw
  have h := hold_fields a b c d n
  have hw : nz n = true := hw
  refine vm (encode (.hold a b c d n)) 0x0C h.1 (by decide) rfl ?_
  generalize encode (.hold a b c d n) = x at h ⊢
  unfold decodeVm
  rw [h.1]
  dsimp only [BitVec.ofNat_eq_ofNat, BitVec.reduceToNat]
  simp only [accept, bit_one, bit_eq, BitVec.ofNat_eq_ofNat, BitVec.reduceToNat, hw, h] <;> rfl
theorem mma (t : Reg2) (a b : Reg3) (x y : MatType) (z s : Bool) : Statement (.mma t a b x y z s) := by
  intro hw
  have h := mma_fields t a b x y z s
  have hw : (x.cls != y.cls) = false := by simpa [WellFormed] using hw
  refine mx (encode (.mma t a b x y z s)) 0x01 h.1 (by decide) rfl ?_
  generalize encode (.mma t a b x y z s) = y at h ⊢
  unfold decodeMatrix
  rw [h.1]
  dsimp only [BitVec.ofNat_eq_ofNat, BitVec.reduceToNat]
  simp only [accept, bit_one, bit_eq, BitVec.ofNat_eq_ofNat, BitVec.reduceToNat, matTypeOf_code, hw, h] <;> rfl
theorem tzero (t : Reg2) : Statement (.tzero t) := by
  intro hw
  have h := encT_fields 0x02 t 0 0 0 0 false
  have z : fld (encT 0x02 t 0 0 0 0 false) 0 24 = 0 := zero_join (n := 18) 6 (zero_join (n := 14) 4 (zero_join (n := 11) 3 (zero_join (n := 9) 2 (zero_join (n := 8) 1 h.2.2.2.2.2.2.2 h.2.2.2.2.2.2.1) h.2.2.2.2.2.1) h.2.2.2.2.1) h.2.2.2.1) h.2.2.1
  refine mx (encT 0x02 t 0 0 0 0 false) 0x02 h.1 (by decide) rfl ?_
  generalize encT 0x02 t 0 0 0 0 false = x at h z ⊢
  unfold decodeMatrix
  rw [h.1]
  dsimp only [BitVec.ofNat_eq_ofNat, BitVec.reduceToNat]
  simp only [accept, bit_one, bit_eq, BitVec.ofNat_eq_ofNat, BitVec.reduceToNat, z, h] <;> rfl
theorem tld (t : Reg2) (g : Reg) (n : Reg4) : Statement (.tld t g n) := by
  intro hw
  have h := encT_fields 0x03 t g n 0 0 false
  have z : fld (encT 0x03 t g n 0 0 false) 0 14 = 0 := zero_join (n := 11) 3 (zero_join (n := 9) 2 (zero_join (n := 8) 1 h.2.2.2.2.2.2.2 h.2.2.2.2.2.2.1) h.2.2.2.2.2.1) h.2.2.2.2.1
  refine mx (encT 0x03 t g n 0 0 false) 0x03 h.1 (by decide) rfl ?_
  generalize encT 0x03 t g n 0 0 false = x at h z ⊢
  unfold decodeMatrix
  rw [h.1]
  dsimp only [BitVec.ofNat_eq_ofNat, BitVec.reduceToNat]
  simp only [accept, bit_one, bit_eq, BitVec.ofNat_eq_ofNat, BitVec.reduceToNat, z, h] <;> rfl
theorem tst (t : Reg2) (g : Reg) (n : Reg4) : Statement (.tst t g n) := by
  intro hw
  have h := encT_fields 0x04 t g n 0 0 false
  have z : fld (encT 0x04 t g n 0 0 false) 0 14 = 0 := zero_join (n := 11) 3 (zero_join (n := 9) 2 (zero_join (n := 8) 1 h.2.2.2.2.2.2.2 h.2.2.2.2.2.2.1) h.2.2.2.2.2.1) h.2.2.2.2.1
  refine mx (encT 0x04 t g n 0 0 false) 0x04 h.1 (by decide) rfl ?_
  generalize encT 0x04 t g n 0 0 false = x at h z ⊢
  unfold decodeMatrix
  rw [h.1]
  dsimp only [BitVec.ofNat_eq_ofNat, BitVec.reduceToNat]
  simp only [accept, bit_one, bit_eq, BitVec.ofNat_eq_ofNat, BitVec.reduceToNat, z, h] <;> rfl
theorem tcvt (t : Reg2) (g : Reg) (n : Reg4) (x : MatType) (r : Rounding) (s : Bool) : Statement (.tcvt t g n x r s) := by
  intro hw
  have h := encT_fields 0x05 t g n (matTypeCode x) (roundingCode r) s
  refine mx (encT 0x05 t g n (matTypeCode x) (roundingCode r) s) 0x05 h.1 (by decide) rfl ?_
  generalize encT 0x05 t g n (matTypeCode x) (roundingCode r) s = y at h ⊢
  unfold decodeMatrix
  rw [h.1]
  dsimp only [BitVec.ofNat_eq_ofNat, BitVec.reduceToNat]
  simp only [accept, bit_one, bit_eq, BitVec.ofNat_eq_ofNat, BitVec.reduceToNat, matTypeOf_code, roundingOf_code, h] <;> rfl
theorem rdef (n : Reg3) (a b : Reg) : Statement (.rdef n a b) := by
  intro hw
  have h := rdef_fields n a b
  refine mx (encode (.rdef n a b)) 0x06 h.1 (by decide) rfl ?_
  generalize encode (.rdef n a b) = x at h ⊢
  unfold decodeMatrix
  rw [h.1]
  dsimp only [BitVec.ofNat_eq_ofNat, BitVec.reduceToNat]
  simp only [accept, bit_one, bit_eq, BitVec.ofNat_eq_ofNat, BitVec.reduceToNat, h] <;> rfl
theorem rpush (n : Reg3) (c : BitVec 8) : Statement (.rpush n c) := by
  intro hw
  have h := rpush_fields n c
  have hw : nz c = true := hw
  refine mx (encode (.rpush n c)) 0x07 h.1 (by decide) rfl ?_
  generalize encode (.rpush n c) = x at h ⊢
  unfold decodeMatrix
  rw [h.1]
  dsimp only [BitVec.ofNat_eq_ofNat, BitVec.reduceToNat]
  simp only [accept, bit_one, bit_eq, BitVec.ofNat_eq_ofNat, BitVec.reduceToNat, hw, h] <;> rfl
theorem rstat (n : Reg3) (d : Reg) : Statement (.rstat n d) := by
  intro hw
  have h := rstat_fields n d
  refine mx (encode (.rstat n d)) 0x08 h.1 (by decide) rfl ?_
  generalize encode (.rstat n d) = x at h ⊢
  unfold decodeMatrix
  rw [h.1]
  dsimp only [BitVec.ofNat_eq_ofNat, BitVec.reduceToNat]
  simp only [accept, bit_one, bit_eq, BitVec.ofNat_eq_ofNat, BitVec.reduceToNat, h] <;> rfl
theorem scl (s : Bool) (a : Reg) : Statement (.scl s a) := by
  intro hw
  have h := scl_fields s a
  refine mx (encode (.scl s a)) 0x09 h.1 (by decide) rfl ?_
  generalize encode (.scl s a) = x at h ⊢
  unfold decodeMatrix
  rw [h.1]
  dsimp only [BitVec.ofNat_eq_ofNat, BitVec.reduceToNat]
  simp only [accept, bit_one, bit_eq, BitVec.ofNat_eq_ofNat, BitVec.reduceToNat, h] <;> rfl
theorem copy (s d : Reg) (w v : Reg4) (b : Reg) : Statement (.copy s d w v b) := by
  intro hw
  have h := copy_fields s d w v b
  refine en (encode (.copy s d w v b)) 0x01 h.1 (by decide) rfl ?_
  generalize encode (.copy s d w v b) = x at h ⊢
  unfold decodeEngine
  rw [h.1]
  dsimp only [BitVec.ofNat_eq_ofNat, BitVec.reduceToNat]
  simp only [accept, bit_one, bit_eq, BitVec.ofNat_eq_ofNat, BitVec.reduceToNat, h] <;> rfl
theorem bini (a n k : Reg) : Statement (.bini a n k) := by
  intro hw
  have h := encE_fields 0x02 a n k 0
  refine en (encE 0x02 a n k 0) 0x02 h.1 (by decide) rfl ?_
  generalize encE 0x02 a n k 0 = x at h ⊢
  unfold decodeEngine
  rw [h.1]
  dsimp only [BitVec.ofNat_eq_ofNat, BitVec.reduceToNat]
  simp only [accept, bit_one, bit_eq, BitVec.ofNat_eq_ofNat, BitVec.reduceToNat, h] <;> rfl
theorem barv (a b : Reg) (r : Bool) : Statement (.barv a b r) := by
  intro hw
  have h := barv_fields a b r
  refine en (encode (.barv a b r)) 0x03 h.1 (by decide) rfl ?_
  generalize encode (.barv a b r) = x at h ⊢
  unfold decodeEngine
  rw [h.1]
  dsimp only [BitVec.ofNat_eq_ofNat, BitVec.reduceToNat]
  simp only [accept, bit_one, bit_eq, BitVec.ofNat_eq_ofNat, BitVec.reduceToNat, h] <;> rfl
theorem bwait (a p : Reg) : Statement (.bwait a p) := by
  intro hw
  have h := encE_fields 0x04 a p 0 0
  have z : fld (encE 0x04 a p 0 0) 0 14 = 0 := zero_join (n := 8) 6 h.2.2.2.2 h.2.2.2.1
  refine en (encE 0x04 a p 0 0) 0x04 h.1 (by decide) rfl ?_
  generalize encE 0x04 a p 0 0 = x at h z ⊢
  unfold decodeEngine
  rw [h.1]
  dsimp only [BitVec.ofNat_eq_ofNat, BitVec.reduceToNat]
  simp only [accept, bit_one, bit_eq, BitVec.ofNat_eq_ofNat, BitVec.reduceToNat, z, h] <;> rfl
theorem pbar (l : Reg2) (g : Option Bool) (x : Bool) : Statement (.pbar l g x) := by
  intro hw
  rcases g with _ | g
  · have h := pbar_fields l 0 x
    refine en (pbarWord l 0 x) 5 h.1 (by decide) rfl ?_
    generalize pbarWord l 0 x = y at h ⊢
    unfold decodeEngine
    rw [h.1]
    dsimp only [BitVec.ofNat_eq_ofNat, BitVec.reduceToNat]
    simp only [accept, bit_one, bit_eq, BitVec.ofNat_eq_ofNat, BitVec.reduceToNat, h] <;> rfl
  cases g
  · have h := pbar_fields l 1 x
    refine en (pbarWord l 1 x) 5 h.1 (by decide) rfl ?_
    generalize pbarWord l 1 x = y at h ⊢
    unfold decodeEngine
    rw [h.1]
    dsimp only [BitVec.ofNat_eq_ofNat, BitVec.reduceToNat]
    simp only [accept, bit_one, bit_eq, BitVec.ofNat_eq_ofNat, BitVec.reduceToNat, h] <;> rfl
  · have h := pbar_fields l 2 x
    refine en (pbarWord l 2 x) 5 h.1 (by decide) rfl ?_
    generalize pbarWord l 2 x = y at h ⊢
    unfold decodeEngine
    rw [h.1]
    dsimp only [BitVec.ofNat_eq_ofNat, BitVec.reduceToNat]
    simp only [accept, bit_one, bit_eq, BitVec.ofNat_eq_ofNat, BitVec.reduceToNat, h] <;> rfl
theorem atadd (d a b : Reg) (w : Bool) : Statement (.atadd d a b w) := by
  intro hw
  have h := encAt_fields 0x06 d a b 0 w false
  refine en (encAt 0x06 d a b 0 w false) 0x06 h.1 (by decide) rfl ?_
  generalize encAt 0x06 d a b 0 w false = x at h ⊢
  unfold decodeEngine
  rw [h.1]
  dsimp only [BitVec.ofNat_eq_ofNat, BitVec.reduceToNat]
  simp only [accept, bit_one, bit_eq, BitVec.ofNat_eq_ofNat, BitVec.reduceToNat, atomic3, h] <;> rfl
theorem atand (d a b : Reg) (w : Bool) : Statement (.atand d a b w) := by
  intro hw
  have h := encAt_fields 0x07 d a b 0 w false
  refine en (encAt 0x07 d a b 0 w false) 0x07 h.1 (by decide) rfl ?_
  generalize encAt 0x07 d a b 0 w false = x at h ⊢
  unfold decodeEngine
  rw [h.1]
  dsimp only [BitVec.ofNat_eq_ofNat, BitVec.reduceToNat]
  simp only [accept, bit_one, bit_eq, BitVec.ofNat_eq_ofNat, BitVec.reduceToNat, atomic3, h] <;> rfl
theorem ator (d a b : Reg) (w : Bool) : Statement (.ator d a b w) := by
  intro hw
  have h := encAt_fields 0x08 d a b 0 w false
  refine en (encAt 0x08 d a b 0 w false) 0x08 h.1 (by decide) rfl ?_
  generalize encAt 0x08 d a b 0 w false = x at h ⊢
  unfold decodeEngine
  rw [h.1]
  dsimp only [BitVec.ofNat_eq_ofNat, BitVec.reduceToNat]
  simp only [accept, bit_one, bit_eq, BitVec.ofNat_eq_ofNat, BitVec.reduceToNat, atomic3, h] <;> rfl
theorem atxor (d a b : Reg) (w : Bool) : Statement (.atxor d a b w) := by
  intro hw
  have h := encAt_fields 0x09 d a b 0 w false
  refine en (encAt 0x09 d a b 0 w false) 0x09 h.1 (by decide) rfl ?_
  generalize encAt 0x09 d a b 0 w false = x at h ⊢
  unfold decodeEngine
  rw [h.1]
  dsimp only [BitVec.ofNat_eq_ofNat, BitVec.reduceToNat]
  simp only [accept, bit_one, bit_eq, BitVec.ofNat_eq_ofNat, BitVec.reduceToNat, atomic3, h] <;> rfl
theorem atmin (d a b : Reg) (w s : Bool) : Statement (.atmin d a b w s) := by
  intro hw
  have h := encAt_fields 0x0A d a b 0 w s
  refine en (encAt 0x0A d a b 0 w s) 0x0A h.1 (by decide) rfl ?_
  generalize encAt 0x0A d a b 0 w s = x at h ⊢
  unfold decodeEngine
  rw [h.1]
  dsimp only [BitVec.ofNat_eq_ofNat, BitVec.reduceToNat]
  simp only [accept, bit_one, bit_eq, BitVec.ofNat_eq_ofNat, BitVec.reduceToNat, atomicS, h] <;> rfl
theorem atmax (d a b : Reg) (w s : Bool) : Statement (.atmax d a b w s) := by
  intro hw
  have h := encAt_fields 0x0B d a b 0 w s
  refine en (encAt 0x0B d a b 0 w s) 0x0B h.1 (by decide) rfl ?_
  generalize encAt 0x0B d a b 0 w s = x at h ⊢
  unfold decodeEngine
  rw [h.1]
  dsimp only [BitVec.ofNat_eq_ofNat, BitVec.reduceToNat]
  simp only [accept, bit_one, bit_eq, BitVec.ofNat_eq_ofNat, BitVec.reduceToNat, atomicS, h] <;> rfl
theorem atswp (d a b : Reg) (w : Bool) : Statement (.atswp d a b w) := by
  intro hw
  have h := encAt_fields 0x0C d a b 0 w false
  refine en (encAt 0x0C d a b 0 w false) 0x0C h.1 (by decide) rfl ?_
  generalize encAt 0x0C d a b 0 w false = x at h ⊢
  unfold decodeEngine
  rw [h.1]
  dsimp only [BitVec.ofNat_eq_ofNat, BitVec.reduceToNat]
  simp only [accept, bit_one, bit_eq, BitVec.ofNat_eq_ofNat, BitVec.reduceToNat, atomic3, h] <;> rfl
theorem atcas (d a b c : Reg) (w : Bool) : Statement (.atcas d a b c w) := by
  intro hw
  have h := encAt_fields 0x0D d a b c w false
  refine en (encAt 0x0D d a b c w false) 0x0D h.1 (by decide) rfl ?_
  generalize encAt 0x0D d a b c w false = x at h ⊢
  unfold decodeEngine
  rw [h.1]
  dsimp only [BitVec.ofNat_eq_ofNat, BitVec.reduceToNat]
  simp only [accept, bit_one, bit_eq, BitVec.ofNat_eq_ofNat, BitVec.reduceToNat, h] <;> rfl
theorem cadd (v a : Reg) (m : Reg3) : Statement (.cadd v a m) := by
  intro hw
  have h := cadd_fields v a m
  refine en (encode (.cadd v a m)) 0x0E h.1 (by decide) rfl ?_
  generalize encode (.cadd v a m) = x at h ⊢
  unfold decodeEngine
  rw [h.1]
  dsimp only [BitVec.ofNat_eq_ofNat, BitVec.reduceToNat]
  simp only [accept, bit_one, bit_eq, BitVec.ofNat_eq_ofNat, BitVec.reduceToNat, h] <;> rfl
theorem crng (n : Reg2) (b l : Reg) (t : ElemType) (o : RedOp) : Statement (.crng n b l t o) := by
  intro hw
  have ht : t.rangeOk = true := by simpa [WellFormed] using hw
  have h := crng_fields n b l t o
  cases o
  · refine en (encode (.crng n b l t .add)) 0x0F h.1 (by decide) rfl ?_
    generalize encode (.crng n b l t .add) = x at h ⊢
    unfold decodeEngine
    rw [h.1]
    dsimp only [BitVec.ofNat_eq_ofNat, BitVec.reduceToNat]
    simp only [accept, bit_one, bit_eq, BitVec.ofNat_eq_ofNat, BitVec.reduceToNat, redOpCode, redOpOf, elemTypeOf_code, ht, if_true, h] <;> rfl
  · refine en (encode (.crng n b l t .max)) 0x0F h.1 (by decide) rfl ?_
    generalize encode (.crng n b l t .max) = x at h ⊢
    unfold decodeEngine
    rw [h.1]
    dsimp only [BitVec.ofNat_eq_ofNat, BitVec.reduceToNat]
    simp only [accept, bit_one, bit_eq, BitVec.ofNat_eq_ofNat, BitVec.reduceToNat, redOpCode, redOpOf, elemTypeOf_code, ht, if_true, h] <;> rfl
  · refine en (encode (.crng n b l t .min)) 0x0F h.1 (by decide) rfl ?_
    generalize encode (.crng n b l t .min) = x at h ⊢
    unfold decodeEngine
    rw [h.1]
    dsimp only [BitVec.ofNat_eq_ofNat, BitVec.reduceToNat]
    simp only [accept, bit_one, bit_eq, BitVec.ofNat_eq_ofNat, BitVec.reduceToNat, redOpCode, redOpOf, elemTypeOf_code, ht, if_true, h] <;> rfl
theorem rflush (a l b : Reg) : Statement (.rflush a l b) := by
  intro hw
  have h := encE_fields 0x10 a l b 0
  refine en (encE 0x10 a l b 0) 0x10 h.1 (by decide) rfl ?_
  generalize encE 0x10 a l b 0 = x at h ⊢
  unfold decodeEngine
  rw [h.1]
  dsimp only [BitVec.ofNat_eq_ofNat, BitVec.reduceToNat]
  simp only [accept, bit_one, bit_eq, BitVec.ofNat_eq_ofNat, BitVec.reduceToNat, h] <;> rfl
theorem rinv (a l b : Reg) : Statement (.rinv a l b) := by
  intro hw
  have h := encE_fields 0x11 a l b 0
  refine en (encE 0x11 a l b 0) 0x11 h.1 (by decide) rfl ?_
  generalize encE 0x11 a l b 0 = x at h ⊢
  unfold decodeEngine
  rw [h.1]
  dsimp only [BitVec.ofNat_eq_ofNat, BitVec.reduceToNat]
  simp only [accept, bit_one, bit_eq, BitVec.ofNat_eq_ofNat, BitVec.reduceToNat, h] <;> rfl
theorem pref (a l : Reg) (p : Policy) : Statement (.pref a l p) := by
  intro hw
  have h := pref_fields a l p
  refine en (encode (.pref a l p)) 0x12 h.1 (by decide) rfl ?_
  generalize encode (.pref a l p) = x at h ⊢
  unfold decodeEngine
  rw [h.1]
  dsimp only [BitVec.ofNat_eq_ofNat, BitVec.reduceToNat]
  simp only [accept, bit_one, bit_eq, BitVec.ofNat_eq_ofNat, BitVec.reduceToNat, policyOf_code, h] <;> rfl
theorem resultLanding (h : Nat) : Statement (.resultLanding h) := fun _ _ h => nomatch h
theorem deliver (h k : Nat) : Statement (.deliver h k) := fun _ _ h => nomatch h
theorem translationResult (h : Nat) : Statement (.translationResult h) := fun _ _ h => nomatch h
theorem storePerformed (h : Nat) : Statement (.storePerformed h) := fun _ _ h => nomatch h
theorem feEntryPerform (h : Nat) : Statement (.feEntryPerform h) := fun _ _ h => nomatch h
theorem streamFetch (h : Nat) (x : StreamWords) : Statement (.streamFetch h x) := fun _ _ h => nomatch h
theorem matrixOpStart (c : Nat) : Statement (.matrixOpStart c) := fun _ _ h => nomatch h
theorem matrixOpRetire (c : Nat) : Statement (.matrixOpRetire c) := fun _ _ h => nomatch h
theorem holdLimitExpiry (h : Nat) : Statement (.holdLimitExpiry h) := fun _ _ h => nomatch h
theorem copyBytesLanded (c ch off n : Nat) : Statement (.copyBytesLanded c ch off n) := fun _ _ h => nomatch h
theorem barrierCount (c k : Nat) : Statement (.barrierCount c k) := fun _ _ h => nomatch h
theorem barvUpdate (h : Nat) : Statement (.barvUpdate h) := fun _ _ h => nomatch h
theorem copyFault (c ch : Nat) (peerError : Option PeerError) : Statement (.copyFault c ch peerError) := fun _ _ h => nomatch h
theorem copyLost (c : Nat) (ch : LostCopy) : Statement (.copyLost c ch) := fun _ _ h => nomatch h
theorem copyComplete (c ch : Nat) : Statement (.copyComplete c ch) := fun _ _ h => nomatch h
theorem pbarArrival (h : Nat) : Statement (.pbarArrival h) := fun _ _ h => nomatch h
theorem pbarRelease (h : Nat) : Statement (.pbarRelease h) := fun _ _ h => nomatch h
theorem homeLoadRequest (h : Nat) : Statement (.homeLoadRequest h) := fun _ _ h => nomatch h
theorem homeStoreRequest (h : Nat) : Statement (.homeStoreRequest h) := fun _ _ h => nomatch h
theorem homeOwnRequest (h : Nat) : Statement (.homeOwnRequest h) := fun _ _ h => nomatch h
theorem homeAtomicRequest (h : Nat) : Statement (.homeAtomicRequest h) := fun _ _ h => nomatch h
theorem caddPartialRequest (h : Nat) : Statement (.caddPartialRequest h) := fun _ _ h => nomatch h
theorem recallOwner (line : Nat) : Statement (.recallOwner line) := fun _ _ h => nomatch h
theorem invalidation (line d : Nat) : Statement (.invalidation line d) := fun _ _ h => nomatch h
theorem combineRecall (line d : Nat) : Statement (.combineRecall line d) := fun _ _ h => nomatch h
theorem ownerWriteback (line : Nat) : Statement (.ownerWriteback line) := fun _ _ h => nomatch h
theorem evictionAnnounce (line c : Nat) : Statement (.evictionAnnounce line c) := fun _ _ h => nomatch h
theorem backInvalidationResponse (line : Nat) (dirty : Option (List Byte)) : Statement (.backInvalidationResponse line dirty) := fun _ _ h => nomatch h
theorem hostRead (pa : Nat) : Statement (.hostRead pa) := fun _ _ h => nomatch h
theorem hostReadShared (pa : Nat) : Statement (.hostReadShared pa) := fun _ _ h => nomatch h
theorem hostWrite (pa : Nat) (data : List Byte) (own : Bool) : Statement (.hostWrite pa data own) := fun _ _ h => nomatch h
theorem directoryError (die : Option Nat) (line : Nat) (hostDirty : Option (List Byte)) (dataLost : Bool) : Statement (.directoryError die line hostDirty dataLost) := fun _ _ h => nomatch h
theorem tlbSoftError (k : Nat) : Statement (.tlbSoftError k) := fun _ _ h => nomatch h
theorem start (i : Nat) : Statement (.start i) := fun _ _ h => nomatch h
theorem parkCmd (i : Nat) : Statement (.parkCmd i) := fun _ _ h => nomatch h
theorem unpark (i : Nat) : Statement (.unpark i) := fun _ _ h => nomatch h
theorem kill (i : Nat) : Statement (.kill i) := fun _ _ h => nomatch h
theorem resumeFault (i : Nat) : Statement (.resumeFault i) := fun _ _ h => nomatch h
theorem resumeHostCall (i : Nat) : Statement (.resumeHostCall i) := fun _ _ h => nomatch h
theorem refresh (i : Nat) : Statement (.refresh i) := fun _ _ h => nomatch h
theorem registerBlock (i : Nat) : Statement (.registerBlock i) := fun _ _ h => nomatch h
theorem unregisterBlock (i : Nat) : Statement (.unregisterBlock i) := fun _ _ h => nomatch h
theorem waitListEvaluation (i : Nat) : Statement (.waitListEvaluation i) := fun _ _ h => nomatch h
theorem waitListPoll (i : Nat) : Statement (.waitListPoll i) := fun _ _ h => nomatch h
theorem parkWake (h : Nat) : Statement (.parkWake h) := fun _ _ h => nomatch h
theorem parkPoll (h : Nat) : Statement (.parkPoll h) := fun _ _ h => nomatch h
theorem shootDownRange : Statement (.shootDownRange) := fun _ _ h => nomatch h
theorem shootDownAsid : Statement (.shootDownAsid) := fun _ _ h => nomatch h
theorem shootDownAll : Statement (.shootDownAll) := fun _ _ h => nomatch h
theorem shootDownComplete : Statement (.shootDownComplete) := fun _ _ h => nomatch h
theorem sealImage : Statement (.sealImage) := fun _ _ h => nomatch h
theorem sealComplete : Statement (.sealComplete) := fun _ _ h => nomatch h
theorem sealRelease : Statement (.sealRelease) := fun _ _ h => nomatch h
theorem attestation : Statement (.attestation) := fun _ _ h => nomatch h
theorem controlFieldWrite (pa : Nat) (data : List Byte) : Statement (.controlFieldWrite pa data) := fun _ _ h => nomatch h
theorem deviceHeartbeat : Statement (.deviceHeartbeat) := fun _ _ h => nomatch h
theorem heartbeatLoss : Statement (.heartbeatLoss) := fun _ _ h => nomatch h
theorem resourceReport (c : Nat) : Statement (.resourceReport c) := fun _ _ h => nomatch h
theorem gangIssueStart (i : Nat) : Statement (.gangIssueStart i) := fun _ _ h => nomatch h
theorem kennelRestore (i : Nat) : Statement (.kennelRestore i) := fun _ _ h => nomatch h
theorem priorityBoost (i : Nat) : Statement (.priorityBoost i) := fun _ _ h => nomatch h
theorem blockingTimeout (i : Nat) : Statement (.blockingTimeout i) := fun _ _ h => nomatch h
theorem haltComplete (i : Nat) : Statement (.haltComplete i) := fun _ _ h => nomatch h
theorem watchdogExpiry (i : Nat) : Statement (.watchdogExpiry i) := fun _ _ h => nomatch h
theorem watchdogStage2 (i : Nat) : Statement (.watchdogStage2 i) := fun _ _ h => nomatch h
theorem watchdogStage3 (i c : Nat) : Statement (.watchdogStage3 i c) := fun _ _ h => nomatch h
theorem timestampRebase : Statement (.timestampRebase) := fun _ _ h => nomatch h
theorem ptsTick : Statement (.ptsTick) := fun _ _ h => nomatch h
theorem gearSettleStart (c : Nat) : Statement (.gearSettleStart c) := fun _ _ h => nomatch h
theorem gearChangeover (c : Nat) : Statement (.gearChangeover c) := fun _ _ h => nomatch h
theorem changeoverEnd (c : Nat) : Statement (.changeoverEnd c) := fun _ _ h => nomatch h
theorem energyWindowRoll (c : Nat) : Statement (.energyWindowRoll c) := fun _ _ h => nomatch h
theorem energyStall (c : Nat) : Statement (.energyStall c) := fun _ _ h => nomatch h
theorem emisRunClose (h : Nat) : Statement (.emisRunClose h) := fun _ _ h => nomatch h
theorem surchargeDecay (h : Nat) : Statement (.surchargeDecay h) := fun _ _ h => nomatch h
theorem leashRecompute (d : Nat) : Statement (.leashRecompute d) := fun _ _ h => nomatch h
theorem tokenRing : Statement (.tokenRing) := fun _ _ h => nomatch h
theorem bark (d q : Nat) (run : Bool) : Statement (.bark d q run) := fun _ _ h => nomatch h
theorem barkEnd (c : Nat) : Statement (.barkEnd c) := fun _ _ h => nomatch h
theorem idleEntry (level : Nat) : Statement (.idleEntry level) := fun _ _ h => nomatch h
theorem idleResume : Statement (.idleResume) := fun _ _ h => nomatch h
theorem fabricWrite (w : FabricWrite) : Statement (.fabricWrite w) := fun _ _ h => nomatch h
theorem fabricBarrierSignal (src packId : Nat) (level3 : Arrival3) (core pos barrier bytes : Nat) (fault : Option Nat) :
    Statement (.fabricBarrierSignal src packId level3 core pos barrier bytes fault) := fun _ _ h => nomatch h
theorem peerAtomicRequest (r : PeerAtomic) : Statement (.peerAtomicRequest r) := fun _ _ h => nomatch h
theorem peerAtomicResponse (h : Nat) (error : Bool) (old : W64) : Statement (.peerAtomicResponse h error old) := fun _ _ h => nomatch h
theorem fabricPortFailure (port : Nat) : Statement (.fabricPortFailure port) := fun _ _ h => nomatch h
theorem deviceReset (status : Nat) : Statement (.deviceReset status) := fun _ _ h => nomatch h
theorem malformedCommand (i : Nat) : Statement (.malformedCommand i) := fun _ _ h => nomatch h
theorem shootDownUnassignedKind : Statement (.shootDownUnassignedKind) := fun _ _ h => nomatch h
theorem sealUnassignedKind : Statement (.sealUnassignedKind) := fun _ _ h => nomatch h
theorem hostAtomic (pa : Nat) (op : AtomicOp) (width : Nat) (b c : W64) : Statement (.hostAtomic pa op width b c) := fun _ _ h => nomatch h
theorem hostWriteCompletion (k : Nat) : Statement (.hostWriteCompletion k) := fun _ _ h => nomatch h
theorem issueRotation (h : Nat) : Statement (.issueRotation h) := fun _ _ h => nomatch h
theorem residencyFloorExpiry (i : Nat) : Statement (.residencyFloorExpiry i) := fun _ _ h => nomatch h

end Sys2Proof.Laws.Encoding
end

