-- ==== Sys2Proof/Laws/Step.lean ====
section
/-! SUPPORT. The bundle that `StepRunsDecodedInstruction` speaks of: one instruction among `nop`s. -/

namespace Sys2Proof.Machine

/-- A state with another focus and signal. -/
def refocus (x y : Nat) (z : Signal) (s : State) : State := { s with focusCtx := x, focusSlot := y, signal := z }

theorem charge_refocus (c n x y : Nat) (z : Signal) (s : State) : charge c n (refocus x y z s) = refocus x y z (charge c n s) := by
  unfold charge; split <;> rfl
theorem raiseBark_refocus (d k : Nat) (run : Bool) (x y : Nat) (z : Signal) (s : State) : raiseBark d k run (refocus x y z s) = refocus x y z (raiseBark d k run s) := by
  have f : ∀ (l : List Nat) (s : State), l.foldl (fun s c => s.mapCore c (Core.takeBark (s.coreHeld c))) (refocus x y z s) =
      refocus x y z (l.foldl (fun s c => s.mapCore c (Core.takeBark (s.coreHeld c))) s) := by
    intro l
    induction l with
    | nil => intro s; rfl
    | cons a l ih => intro s; exact ih (s.mapCore a (Core.takeBark (s.coreHeld a)))
  unfold raiseBark
  have e : barkCores (refocus x y z s) d k run = barkCores s d k run := rfl
  simp only [e, f]
  rfl
theorem wakeTrigger_refocus (h l x y : Nat) (z : Signal) (s : State) : wakeTrigger h l (refocus x y z s) = refocus x y z (wakeTrigger h l s) := by
  unfold wakeTrigger
  have e : (refocus x y z s).core = s.core := rfl
  have e2 : wakeTriggered (refocus x y z s) h l = wakeTriggered s h l := rfl
  have e3 : ∀ a b c, blanked (refocus x y z s) a b c = blanked s a b c := fun _ _ _ => rfl
  simp only [e, e2, e3, raiseBark_refocus]
  split <;> rfl

/-- What ends a bundle looks at no focus, and counts no `nop`. -/
theorem finishBundle_refocus (h : Nat) (c : Ctx) (b : Bundle) (es fs : List (Nat × Instr)) (x y : Nat) (z : Signal) (s : State)
    (h1 : bundleLanes c.regs es = bundleLanes c.regs fs) (h0 : executedIn es 0 = executedIn fs 0) (h2 : executedIn es 2 = executedIn fs 2)
    (h3 : executedIn es 3 = executedIn fs 3) :
    finishBundle h c b es (refocus x y z s) = finishBundle h c b fs s := by
  unfold finishBundle
  have e : ∀ l, chargeBundle h c b l (refocus x y z s) = refocus x y z (chargeBundle h c b l s) := by
    intro l
    unfold chargeBundle
    simp only [charge_refocus, wakeTrigger_refocus]
    rfl
  rw [e, h1]
  generalize chargeBundle h c b (bundleLanes c.regs fs) s = t
  have e2 : reuseBits h c b es (refocus x y z t) = refocus x y z (reuseBits h c b fs t) := by
    unfold reuseBits
    rw [h2, h3]
    rfl
  have e3 : ∀ w c', c.advance w c' b es = c.advance w c' b fs := fun w c' => by
    have e4 : ∀ t, branchCost es t = branchCost fs t := fun t => by unfold branchCost; rw [h0]
    unfold Ctx.advance
    rw [e4]
  rw [e2]
  simp only [e3]
  rfl

/-- The slots of a bundle run one part after another. -/
theorem runSlots_append (h : Nat) (es fs : List (Nat × Instr)) (r : Slots) :
    runSlots h (es ++ fs) r = match runSlots h es r with | .ok r => runSlots h fs r | .error o => .error o := by
  induction es generalizing r with
  | nil => rfl
  | cons e es ih =>
    simp only [List.cons_append, runSlots]
    split
    · exact ih _
    · rfl

theorem runSlot_nop (h k : Nat) (r : Slots) : runSlot h r (k, .nop) = .ok { r with st := refocus h k .none r.st } := rfl

/-- Slots of `nop` change the focus alone. -/
theorem runSlots_nops (h : Nat) (es : List Nat) (r : Slots) :
    ∃ x y z, runSlots h (es.map fun k => (k, Instr.nop)) r = .ok { r with st := refocus x y z r.st } := by
  induction es generalizing r with
  | nil => exact ⟨r.st.focusCtx, r.st.focusSlot, r.st.signal, rfl⟩
  | cons k es ih =>
    obtain ⟨x, y, z, h'⟩ := ih { r with st := refocus h k .none r.st }
    refine ⟨x, y, z, ?_⟩
    simp only [List.map_cons, runSlots, runSlot_nop]
    rw [h']
    rfl

/-- The executing slots of a bundle of one instruction among `nop`s with the schedule word 0: all seven. -/
theorem executing_one (q : BitVec 8) (n : Nat) (i : Instr) (hn : n < 7) :
    ∃ es fs : List Nat,
      executing q { slots := (List.range 7).map (fun j => if j = n then i else .nop), sched := decodeSched 0 } =
        (es.map fun k => (k, Instr.nop)) ++ (n, i) :: (fs.map fun k => (k, Instr.nop)) ∧
      (∀ k ∈ es, k ≠ n) ∧ ∀ k ∈ fs, k ≠ n := by
  cases hr : readsAtIssue i
  · refine ⟨List.range n, (List.range (6 - n)).map (· + (n + 1)), ?_, ?_, ?_⟩
    · have : n = 0 ∨ n = 1 ∨ n = 2 ∨ n = 3 ∨ n = 4 ∨ n = 5 ∨ n = 6 := by omega
      have g : ∀ k < 7, guardOn q { slots := (List.range 7).map (fun j => if j = n then i else .nop), sched := decodeSched 0 } k = true := by
        intro k hk
        have : ((decodeSched 0).guard.getD k 0) = 0 := by
          revert k; decide
        simp only [guardOn, this]; rfl
      have rn : readsAtIssue .nop = false := rfl
      have g0 := g 0 (by omega)
      have g1 := g 1 (by omega)
      have g2 := g 2 (by omega)
      have g3 := g 3 (by omega)
      have g4 := g 4 (by omega)
      have g5 := g 5 (by omega)
      have g6 := g 6 (by omega)
      clear g
      unfold executing
      rcases this with rfl | rfl | rfl | rfl | rfl | rfl | rfl <;>
        simp [List.range_succ] at g0 g1 g2 g3 g4 g5 g6 ⊢ <;> simp [List.mapIdx_cons, hr, rn, g0, g1, g2, g3, g4, g5, g6, List.filter_cons] 
    · intro k hk; have := List.mem_range.mp hk; omega
    · intro k hk; simp at hk; omega
  · refine ⟨[], (List.range 7).filter (· ≠ n), ?_, ?_, ?_⟩
    · have : n = 0 ∨ n = 1 ∨ n = 2 ∨ n = 3 ∨ n = 4 ∨ n = 5 ∨ n = 6 := by omega
      have g : ∀ k < 7, guardOn q { slots := (List.range 7).map (fun j => if j = n then i else .nop), sched := decodeSched 0 } k = true := by
        intro k hk
        have : ((decodeSched 0).guard.getD k 0) = 0 := by
          revert k; decide
        simp only [guardOn, this]; rfl
      have rn : readsAtIssue .nop = false := rfl
      have g0 := g 0 (by omega)
      have g1 := g 1 (by omega)
      have g2 := g 2 (by omega)
      have g3 := g 3 (by omega)
      have g4 := g 4 (by omega)
      have g5 := g 5 (by omega)
      have g6 := g 6 (by omega)
      clear g
      unfold executing
      rcases this with rfl | rfl | rfl | rfl | rfl | rfl | rfl <;>
        simp [List.range_succ] at g0 g1 g2 g3 g4 g5 g6 ⊢ <;> simp [List.mapIdx_cons, hr, rn, g0, g1, g2, g3, g4, g5, g6, List.filter_cons]
    · intro k hk; simp at hk
    · intro k hk; simp at hk; exact hk.2

/-- A slot is one of seven. -/
theorem slotOf_lt (i : Instr) (n : Nat) (h : slotOf i = some n) : n < 7 := by
  cases i <;> first
    | exact absurd (show (none : Option Nat) = some n from h) (Option.some_ne_none n).symm
    | (injection h with h; omega)

theorem executedIn_nops (n k : Nat) (i : Instr) (es fs : List Nat) :
    executedIn ((es.map fun k => (k, Instr.nop)) ++ (n, i) :: (fs.map fun k => (k, Instr.nop))) k = executedIn [(n, i)] k := by
  have a : ∀ l : List Nat, (l.map fun k => (k, Instr.nop)).find? (fun e => e.1 == k && e.2 != .nop) = none := by
    intro l; simp [List.find?_eq_none]
  simp only [executedIn, List.find?_append, a, Option.none_or, List.find?_cons]
  split
  · rfl
  · simp

theorem bundleLanes_nops (r : Regs) (n : Nat) (i : Instr) (es fs : List Nat) :
    bundleLanes r ((es.map fun k => (k, Instr.nop)) ++ (n, i) :: (fs.map fun k => (k, Instr.nop))) = bundleLanes r [(n, i)] := by
  have a : ∀ l : List Nat, (((l.map fun k => (k, Instr.nop)).filter fun e => e.1 == 2 || e.1 == 3).map fun e => activeLanesOf r e.2).sum = 0 := by
    intro l
    induction l with
    | nil => rfl
    | cons x xs ih => simp only [List.map_cons, List.filter_cons]; split <;> simp_all [activeLanesOf]
  unfold bundleLanes
  rw [List.filter_append, List.map_append, List.sum_append, a, Nat.zero_add]
  simp only [List.filter_cons, List.filter_nil]
  split
  · simp only [List.map_cons, List.sum_cons, a, List.map_nil, List.sum_nil]
  · simp only [a, List.map_nil, List.sum_nil]

/-- The bundle of one encoded instruction among zero words. -/
theorem decodeBundle_one (n : Nat) (h : n < 7) (i : Instr) (hd : decodeSlot n (encode i) = .ok i) :
    decodeBundle ((List.range 8).map fun j => if j = n then encode i else 0) =
      .ok { slots := (List.range 7).map (fun j => if j = n then i else .nop), sched := decodeSched 0 } := by
  have z : ∀ k, decodeSlot k 0#32 = .ok .nop := fun k => by simp [decodeSlot]
  have : n = 0 ∨ n = 1 ∨ n = 2 ∨ n = 3 ∨ n = 4 ∨ n = 5 ∨ n = 6 := by omega
  rcases this with rfl | rfl | rfl | rfl | rfl | rfl | rfl <;>
    simp [decodeBundle, decodeSlots, List.range_succ, hd, z]

end Sys2Proof.Machine
end

