-- ==== Sys2Proof/Tests/Slice0.lean ====
section
/-! SUPPORT. Tests of the model: what is well-formed, words and what they decode to, witnesses that the hypotheses of the statements can
be met, and single steps whose results are computed by hand from the spec. -/

open Sys2Proof Sys2Proof.Machine

namespace Sys2Proof.Tests

set_option maxRecDepth 20000
set_option Elab.async false

/-! ### Ill-formed terms, one for each check of `WellFormed` -/

theorem test_illformed_control : WellFormed (.loop 1) = false ∧ WellFormed (.loop 0) = true ∧ WellFormed (.hold 1 2 3 4 0) = false ∧
    WellFormed (.rpush 1 0) = false ∧ WellFormed (.sbind 55 true 0) = false ∧ WellFormed (.sfree 55) = false ∧
    WellFormed (.sfree 56) = true := by decide

-- R76: width 1, width 9, code 3 of `spec`, special values without exponent, `spec` 1 with a short exponent, and without mantissa
theorem test_illformed_records : WellFormed (.fmtsetImm 0 0x0400) = false ∧ WellFormed (.fmtsetImm 0 0x3C80) = false ∧
    WellFormed (.fmtsetImm 0 0x31E0) = false ∧ WellFormed (.fmtsetImm 0 0x23C0) = false ∧ WellFormed (.fmtsetImm 0 0x25A0) = false ∧
    WellFormed (.fmtsetImm 0 0x3020) = false ∧ WellFormed (.fmtsetImm 0 0x219E) = true := by decide

theorem test_illformed_element_types : (∀ i ∈ ([.vadd 1 2 (.vec 3) 0 (.nf 0), .vsub 1 2 (.vec 3) 0 (.nf 1), .vmul 1 2 (.vec 3) 0 (.nf 2),
    .vmin 1 2 (.vec 3) 0 (.nf 3), .vmax 1 2 (.vec 3) 0 (.nf 0), .vcmp .eq 1 2 (.vec 3) 0 (.nf 0), .vfma 1 2 (.vec 3) 0 .n32,
    .vabs 1 2 0 .n32, .vneg 1 2 0 .n8, .vshl 1 2 (.vec 3) 0 .f32, .vshr 1 2 (.vec 3) 0 .bf16, .vsra 1 2 (.vec 3) 0 (.nf 0),
    .vdot4 1 2 (.vec 3) 0 .i16, .vscan 1 2 0 .n32, .vred .add 0 1 0 .bf16, .vdrain 1 0 0 .f16] : List Instr), WellFormed i = false) := by
  decide

theorem test_illformed_special_types : (∀ i ∈ ([.vrcp 1 2 0 .i32, .vrsq 1 2 0 .n8, .vsqrt 1 2 0 .i32, .vexp2 1 2 0 .i16, .vlog2 1 2 0 .n16,
    .vtanh 1 2 0 (.nf 0), .vpack 1 4 false .rne .f32, .vpack 1 3 false .rne .bf16, .vpack 1 2 false .rne .i8, .vunpk 1 2 2 .i16,
    .vunpk 1 2 0 .i32, .mma 0 0 1 .bf16 (.nf 0) false false, .mma 0 0 1 .f32 .f16 false false, .crng 0 1 2 .f16 .add,
    .crng 0 1 2 .n8 .max] : List Instr), WellFormed i = false) := by decide

/-! ### Words written out from the encoding tables of the spec, one for each slot instruction -/

theorem test_decode_scalar_alu_1 :
    decodeSlot 0 0x00000000 = .ok .nop ∧
    decodeSlot 0 0x06109180 = .ok (.add 33 2 17 true) ∧
    decodeSlot 1 0x06109181 = .ok (.sub 33 2 17 true) ∧
    decodeSlot 1 0x06109182 = .ok (.mul 33 2 17 true) ∧
    decodeSlot 1 0x06109183 = .ok (.mulh 33 2 17 true) ∧
    decodeSlot 0 0x06109184 = .ok (.div 33 2 17 true) ∧
    decodeSlot 1 0x06109185 = .ok (.rem 33 2 17 true) ∧
    decodeSlot 1 0x0610918C = .ok (.shl 33 2 17 true) ∧
    decodeSlot 1 0x0610918D = .ok (.shr 33 2 17 true) ∧
    decodeSlot 1 0x0610918E = .ok (.sra 33 2 17 true) ∧
    decodeSlot 1 0x06109190 = .ok (.min 33 2 17 true) ∧
    decodeSlot 1 0x06109191 = .ok (.max 33 2 17 true) := by
  decide

theorem test_decode_scalar_alu_2 :
    decodeSlot 1 0x06109108 = .ok (.and 33 2 17) ∧
    decodeSlot 1 0x06109109 = .ok (.or 33 2 17) ∧
    decodeSlot 1 0x0610910A = .ok (.xor 33 2 17) ∧
    decodeSlot 1 0x0610910B = .ok (.andn 33 2 17) ∧
    decodeSlot 0 0x06108014 = .ok (.clz 33 2) ∧
    decodeSlot 0 0x06108015 = .ok (.popc 33 2) := by
  decide

theorem test_decode_scalar_moves_1 :
    decodeSlot 0 0x06108018 = .ok (.movGG 33 2) ∧
    decodeSlot 0 0x04584019 = .ok (.movMG 5 33) ∧
    decodeSlot 0 0x0611401A = .ok (.movGM 33 5) ∧
    decodeSlot 0 0x06109126 = .ok (.sel 33 2 17 6) ∧
    decodeSlot 0 0x045842C7 = .ok (.cmp 5 33 2 true .gen) ∧
    decodeSlot 1 0x0A10A000 = .ok (.addi 33 2 (-8192)) ∧
    decodeSlot 1 0x0E180000 = .ok (.li 33 (-524288)) ∧
    decodeSlot 1 0x121ABCDE = .ok (.lih 33 0xABCDE) ∧
    decodeSlot 0 0x16109107 = .ok (.addr 33 2 17 7) ∧
    decodeSlot 0 0x1850C600 = .ok (.mand 5 3 6) ∧
    decodeSlot 0 0x1850C601 = .ok (.mor 5 3 6) ∧
    decodeSlot 0 0x1850C002 = .ok (.mnot 5 3) := by
  decide

theorem test_decode_scalar_moves_2 :
    decodeSlot 1 0x1E114000 = .ok (.mpop 33 5) ∧
    decodeSlot 1 0x22114000 = .ok (.mfirst 33 5) ∧
    decodeSlot 0 0x6C20219E = .ok (.fmtsetImm 2 0x219E) ∧
    decodeSlot 0 0x6E284000 = .ok (.fmtsetReg 2 33) ∧
    decodeSlot 0 0x72100000 = .ok (.time 33) ∧
    decodeSlot 0 0x76100000 = .ok (.cycles 33) ∧
    decodeSlot 0 0x8A10010B = .ok (.rdsr 33 (.walk 2 3)) ∧
    decodeSlot 0 0x8C084006 = .ok (.wrsr 33 .apeer) := by
  decide

theorem test_decode_scalar_memory :
    decodeSlot 1 0x2610B003 = .ok (.ld 33 2 true (-1024) .wi) ∧
    decodeSlot 1 0x2A108FFC = .ok (.st 33 2 false 1023 .own) ∧
    decodeSlot 1 0x2E10A000 = .ok (.lds 33 2 (-8192)) ∧
    decodeSlot 1 0x32109FFF = .ok (.sts 33 2 8191) ∧
    decodeSlot 1 0x3610B000 = .ok (.ldf 33 2 true (-4096)) ∧
    decodeSlot 1 0x3A108FFF = .ok (.ste 33 2 4095) := by
  decide

theorem test_decode_control_1 :
    decodeSlot 0 0x40200000 = .ok (.br (-2097152)) ∧
    decodeSlot 0 0x47BFFFFF = .ok (.bc true 6 (-1)) ∧
    decodeSlot 0 0x481FFFFF = .ok (.call 2097151) ∧
    decodeSlot 0 0x4E108000 = .ok (.jr 33 2) ∧
    decodeSlot 0 0x50000000 = .ok .ret ∧
    decodeSlot 0 0x543FFFFB = .ok (.loop (-5)) ∧
    decodeSlot 0 0x58086C00 = .ok (.lsetup 33 5 true) ∧
    decodeSlot 0 0x5C492000 = .ok (.wait 1 2 4 8) ∧
    decodeSlot 0 0x60000000 = .ok .fenceEng ∧
    decodeSlot 0 0x60400000 = .ok .fenceSysAcq ∧
    decodeSlot 0 0x60800000 = .ok .fenceSysRel ∧
    decodeSlot 0 0x60C00000 = .ok .fenceSys := by
  decide

theorem test_decode_control_2 :
    decodeSlot 0 0x66000000 = .ok (.gear true false) ∧
    decodeSlot 0 0x6AAF26CD = .ok (.phase 0xABC 9 5 77) ∧
    decodeSlot 0 0x78084000 = .ok (.done 33) ∧
    decodeSlot 0 0x7C000000 = .ok .yield ∧
    decodeSlot 0 0x80084201 = .ok (.park 33 2 true) ∧
    decodeSlot 0 0x840ABCDE = .ok (.trap 0xABCDE) ∧
    decodeSlot 0 0x900ABCDE = .ok (.brk 0xABCDE) := by
  decide

theorem test_decode_vector_1 :
    decodeSlot 2 0x061091A8 = .ok (.vadd 33 2 (.vec 17) 5 .n8) ∧
    decodeSlot 3 0x0A1091A7 = .ok (.vsub 33 2 (.vec 17) 5 .i8) ∧
    decodeSlot 2 0x0E1091A1 = .ok (.vmul 33 2 (.vec 17) 5 .bf16) ∧
    decodeSlot 3 0x121091A2 = .ok (.vfma 33 2 (.vec 17) 5 .f16) ∧
    decodeSlot 2 0x161091A6 = .ok (.vmin 33 2 (.vec 17) 5 .n16) ∧
    decodeSlot 3 0x1A1091A5 = .ok (.vmax 33 2 (.vec 17) 5 .i16) ∧
    decodeSlot 2 0x1E1080A2 = .ok (.vabs 33 2 5 .f16) ∧
    decodeSlot 3 0x221080A3 = .ok (.vneg 33 2 5 .i32) ∧
    decodeSlot 3 0x261091B0 = .ok (.vand 33 2 (.scalar 17) 5 .f32) ∧
    decodeSlot 3 0x2A1091BC = .ok (.vor 33 2 (.scalar 17) 5 (.nf 3)) ∧
    decodeSlot 3 0x2E1091B3 = .ok (.vxor 33 2 (.scalar 17) 5 .i32) ∧
    decodeSlot 3 0x321091B3 = .ok (.vshl 33 2 (.scalar 17) 5 .i32) := by
  decide

theorem test_decode_vector_2 :
    decodeSlot 3 0x361091B4 = .ok (.vshr 33 2 (.scalar 17) 5 .n32) ∧
    decodeSlot 3 0x3A1091B5 = .ok (.vsra 33 2 (.scalar 17) 5 .i16) ∧
    decodeSlot 2 0x3EE091A0 = .ok (.vcmp .ge 6 2 (.vec 17) 5 .f32) ∧
    decodeSlot 2 0x421091A0 = .ok (.vsel 33 2 (.vec 17) 5 .f32) ∧
    decodeSlot 2 0x461080A0 = .ok (.vmov 33 2 5 .f32) ∧
    decodeSlot 2 0x4A10BFA0 = .ok (.vbcast 33 2 63 5 .f32) := by
  decide

theorem test_decode_vector_more_1 :
    decodeSlot 2 0x4E1091A0 = .ok (.vperm 33 2 (.vec 17) 5 .f32) ∧
    decodeSlot 2 0x5210BFA0 = .ok (.vrot 33 2 63 5 .f32) ∧
    decodeSlot 2 0x5610BAB1 = .ok (.vcvt 33 2 .ru (.nf 1) 5 true .bf16) ∧
    decodeSlot 2 0x5A110607 = .ok (.vpack 33 4 true .rd .i8) ∧
    decodeSlot 2 0x5E108308 = .ok (.vunpk 33 2 3 .n8) ∧
    decodeSlot 2 0x621091AB = .ok (.vdot4 33 2 (.vec 17) 5 (.nf 2)) ∧
    decodeSlot 2 0x661080A0 = .ok (.vscan 33 2 5 .f32) ∧
    decodeSlot 3 0x821080A0 = .ok (.vrcp 33 2 5 .f32) ∧
    decodeSlot 3 0x861080A0 = .ok (.vrsq 33 2 5 .f32) ∧
    decodeSlot 3 0x8A1080A0 = .ok (.vsqrt 33 2 5 .f32) ∧
    decodeSlot 3 0x8E1080A0 = .ok (.vexp2 33 2 5 .f32) ∧
    decodeSlot 3 0x921080A0 = .ok (.vlog2 33 2 5 .f32) := by
  decide

theorem test_decode_vector_more_2 :
    decodeSlot 3 0x961080A0 = .ok (.vtanh 33 2 5 .f32) ∧
    decodeSlot 3 0x98B840A3 = .ok (.vred .min 3 33 5 .i32) ∧
    decodeSlot 3 0x9E10C0A3 = .ok (.vdrain 33 3 5 .i32) := by
  decide

theorem test_decode_vector_memory :
    decodeSlot 4 0x0610A014 = .ok (.vld 33 2 (-256) 5) ∧
    decodeSlot 4 0x0A109FF4 = .ok (.vst 33 2 255 5) ∧
    decodeSlot 4 0x0E10BFF5 = .ok (.vldf 33 2 (-1) 5 true) ∧
    decodeSlot 4 0x12108034 = .ok (.vste 33 2 1 5) ∧
    decodeSlot 4 0x1610BFF6 = .ok (.vldm 33 2 (-1) 5 .si) ∧
    decodeSlot 4 0x1A10BFF5 = .ok (.vstm 33 2 (-1) 5 .wt) ∧
    decodeSlot 4 0x1E108237 = .ok (.vgath 33 2 17 5 .wi) ∧
    decodeSlot 4 0x22108234 = .ok (.vscat 33 2 17 5 .own) ∧
    decodeSlot 4 0x26108001 = .ok (.feset 33 2 true) ∧
    decodeSlot 4 0x2BC00360 = .ok (.sbind 60 true 11) ∧
    decodeSlot 4 0x2FC00000 = .ok (.sfree 60) ∧
    decodeSlot 4 0x302227FC = .ok (.hold 1 2 4 31 15) := by
  decide

theorem test_decode_matrix :
    decodeSlot 5 0x06AE5200 = .ok (.mma 2 5 3 .bf16 .f16 true false) ∧
    decodeSlot 5 0x0A000000 = .ok (.tzero 2) ∧
    decodeSlot 5 0x0E86C000 = .ok (.tld 2 33 11) ∧
    decodeSlot 5 0x1286C000 = .ok (.tst 2 33 11) ∧
    decodeSlot 5 0x1686F500 = .ok (.tcvt 2 33 11 .f32 .rd true) ∧
    decodeSlot 5 0x1AC21000 = .ok (.rdef 5 33 2) ∧
    decodeSlot 5 0x1ED18000 = .ok (.rpush 5 0xA3) ∧
    decodeSlot 5 0x22C20000 = .ok (.rstat 5 33) ∧
    decodeSlot 5 0x27080000 = .ok (.scl true 33) := by
  decide

theorem test_decode_engine_1 :
    decodeSlot 6 0x0610AD11 = .ok (.copy 33 2 11 4 17) ∧
    decodeSlot 6 0x0A109100 = .ok (.bini 33 2 17) ∧
    decodeSlot 6 0x0E10A000 = .ok (.barv 33 2 true) ∧
    decodeSlot 6 0x12108000 = .ok (.bwait 33 2) ∧
    decodeSlot 6 0x17A00000 = .ok (.pbar 3 (some true) true) ∧
    decodeSlot 6 0x1A109102 = .ok (.atadd 33 2 17 true) ∧
    decodeSlot 6 0x1E109102 = .ok (.atand 33 2 17 true) ∧
    decodeSlot 6 0x22109102 = .ok (.ator 33 2 17 true) ∧
    decodeSlot 6 0x26109102 = .ok (.atxor 33 2 17 true) ∧
    decodeSlot 6 0x32109102 = .ok (.atswp 33 2 17 true) ∧
    decodeSlot 6 0x2A109101 = .ok (.atmin 33 2 17 false true) ∧
    decodeSlot 6 0x2E109101 = .ok (.atmax 33 2 17 false true) := by
  decide

theorem test_decode_engine_2 :
    decodeSlot 6 0x361091A2 = .ok (.atcas 33 2 17 40 true) ∧
    decodeSlot 6 0x3A10A800 = .ok (.cadd 33 2 5) ∧
    decodeSlot 6 0x3E851180 = .ok (.crng 2 33 17 .bf16 .min) ∧
    decodeSlot 6 0x42109100 = .ok (.rflush 33 2 17) ∧
    decodeSlot 6 0x46109100 = .ok (.rinv 33 2 17) ∧
    decodeSlot 6 0x4A10B000 = .ok (.pref 33 2 .wi) := by
  decide
/-! ### States to test on -/

/-- One context of one running continuation on core 0, nothing in flight. -/
def base : State := State.reset.withFetchWord 32 0

/-- `base` with its context changed. -/
def onCtx (f : Ctx → Ctx) : State := base.mapCtx 0 f

/-- `base` with values in its `g` registers. -/
def withG (g : Sparse W64) : State := onCtx fun c => { c with regs := { c.regs with g := g } }

/-- `base` with its register files changed. -/
def withRegs (f : Regs → Regs) : State := onCtx fun c => { c with regs := f c.regs }

/-- A state with what waits in its context changed. -/
def waiting (f : Work → Work) (s : State) : State := s.mapCtx 0 fun c => { c with work := f c.work }

/-- A value on its way to `g5` since an earlier bundle. -/
def busy5 : State :=
  (onCtx fun c => { c with retired := 1 }).mapCtx 0 fun c =>
    { c with work := { c.work with delivers := [{ dest := .g 5, age := 0, value := [7], load := false, peer := false, lines := 0, counter := none }] } }

/-- Whether an outcome is a next state. -/
def goes : Out → Bool
  | .next _ => true
  | _ => false

theorem goes_next {o : Out} (h : goes o = true) : ∃ t, o = .next t := by
  cases o with
  | next t => exact ⟨t, rfl⟩
  | _ => simp [goes] at h

/-- What a property says of a next state. -/
def after (o : Out) (p : State → Bool) : Bool :=
  match o with
  | .next t => p t
  | _ => false

theorem after_next {o : Out} {p : State → Bool} (h : after o p = true) : ∃ t, o = .next t ∧ p t = true := by
  cases o with
  | next t => exact ⟨t, rfl, h⟩
  | _ => simp [after] at h

/-! ### The hypotheses of the statements can be met -/

theorem test_witness_step_keeps_memory : base.MemCanonical ∧ ∃ t, step base = .next t :=
  ⟨by decide, goes_next (by decide +kernel)⟩

theorem test_witness_decode_of_encode : WellFormed (.atcas 63 63 63 63 true) = true ∧ slotOf (.atcas 63 63 63 63 true) = some 6 ∧
    decodeSlot 0 (encode (.add 1 2 3 false)) = .ok (.add 1 2 3 false) ∧ decodeSlot 1 (encode (.ld 1 2 false 0 .wt)) = .ok (.ld 1 2 false 0 .wt) ∧
    decodeSlot 2 (encode (.vmov 1 2 0 .f32)) = .ok (.vmov 1 2 0 .f32) ∧ decodeSlot 3 (encode (.vrcp 1 2 0 .f32)) = .ok (.vrcp 1 2 0 .f32) := by
  decide

theorem test_witness_step_runs_named_event : ({ base with agenda := [.event .tokenRing] } : State).agenda = .event .tokenRing :: [] ∧
    slotOf .tokenRing = none := by decide

theorem test_witness_step_runs_decoded :
    let i : Instr := .add 33 2 17 false
    let s := State.reset.withFetchWord 32 (encode i).toNat
    let s' : State := { s with agenda := [] }
    s.agenda = .issue 0 :: [] ∧ WellFormed i = true ∧ slotOf i = some 0 ∧ pickOn s' (coreOf 0) = some 0 ∧
    (s.ctx 0).work.holdFault = false ∧ (s.ctx 0).work.overran = false ∧ inCode s' (s.ctx 0) (s.ctx 0).pc = true ∧
    ∀ j < 8, Sparse.get 0 (s.imageOf (s.ctx 0).cont).code (((s.ctx 0).pc - (s.ctx 0).regs.image).toNat / 4 + j) = if j = 0 then encode i else 0 := by
  decide +kernel

theorem test_witness_vector_names : (31 : Nat) < 64 ∧ (32 : Nat) < 64 ∧ (63 : Nat) < 64 ∧
    ({ Ctx.placed with regs := { Regs.placed with rb := 31 } } : Ctx).phys 32 = 63 := by decide

theorem test_witness_result_lands : let p : Pending := { due := 3, age := 0, eff := .g 5 7, held := false }
    ∀ n ∈ [2, 3], let s := (onCtx fun c => { c with count := n }).mapCtx 0 fun c => { c with work := { c.work with landing := [p] } }
      (s.ctx 0).work.landing = [p] ∧ Sparse.risingFrom none (s.ctx 0).regs.g = true ∧ ((s.ctx 0).count < p.due ∨ p.due ≤ (s.ctx 0).count) := by
  decide

theorem test_witness_landings :
    let p : Pending := { due := 3, age := 8, eff := .g 5 7, held := false }
    let q : Pending := { due := 3, age := 16, eff := .g 5 9, held := false }
    let r : Pending := { p with due := 2, age := 24, eff := .g 6 1 }
    let s := fun (l : List Pending) => (onCtx fun c => { c with count := 3 }).mapCtx 0 fun c => { c with work := { c.work with landing := l } }
    (∀ l ∈ [[p, q], [q, p], [r, q, p]], (((s l).ctx 0).work.landing = l ∧ q ∈ l ∧ Sparse.risingFrom none ((s l).ctx 0).regs.g = true)) ∧
    (p.due ≤ 3 ∧ q.due ≤ 3 ∧ r.due ≤ 3) ∧ (p.due = q.due ∧ p.age < q.age) ∧ r.due < q.due ∧ (5 : Nat) ≠ 0 := by decide +kernel

theorem test_witness_inactive_lanes : Sparse.risingFrom none Ctx.placed.regs.v = true ∧ 63 < 64 := by decide

/-- A bundle with one instruction in slot 0. -/
def one (i : Instr) : Bundle :=
  { slots := [i, .nop, .nop, .nop, .nop, .nop, .nop], sched := decodeSched 0 }

theorem test_witness_precise_fault : ∃ r, runSlots 0 (executing (base.ctx 0).regs.q (one (.jr 0 1)))
      { st := beginBundle 0 (withG [(1, 4)]), stalled := false, fault := none, progress := none } = .ok r ∧
    r.stalled = false ∧ r.fault = some (0, .badTarget, 0) ∧ (base.cont (base.ctx 0).cont).state.isEnd = false := by
  refine ⟨_, rfl, ?_⟩
  decide +kernel

theorem test_witness_fault_route : (base.cont (base.ctx 0).cont).state.isEnd = false ∧
    (Sparse.find base.dev.conts (base.ctx 0).cont).isSome = true ∧ (base.cont (base.ctx 0).cont).faultOf = none ∧ (base.cont 0).stage = 0 ∧
    (preciseInfo 0 0 .badValue 0 base).repairable = false ∧
    ({ preciseInfo 0 0 .translation 0 base with repairable := true } : FaultInfo).repairable = true := by decide +kernel

theorem test_witness_scalar_free : base.Free [63, 2, 17] ∧ busy5.Busy [5, 2, 17] ∧ busy5.Busy [2, 5] ∧ busy5.Busy [5] ∧ busy5.Free [0, 4, 6] := by
  decide

theorem test_witness_compare : let s := withG [(1, -1), (2, 1)]
    s.Free [1, 2] ∧ sval false (srcG s 1) < sval false (srcG s 2) ∧ ¬ (uval false (srcG s 1) < uval false (srcG s 2)) ∧ s.Free [3, 1, 2] := by
  decide

theorem test_witness_immediate_words : (fld (0x08 <<< 24 : W32) 26 6 = (2 : BitVec 6)) ∧ (fld (0x0C <<< 24 : W32) 26 6 = (3 : BitVec 6)) ∧
    (fld (0x10 <<< 24 : W32) 26 6 = (4 : BitVec 6)) ∧ (fld (0x14 <<< 24 : W32) 26 6 = (5 : BitVec 6)) ∧
    fld (0x14000008 : W32) 3 5 ≠ (0 : BitVec 5) := by decide

theorem test_witness_system_reads : base.Free [5] ∧ SysReg.leash ≠ .reusemiss ∧ SysReg.leash ≠ .undecl ∧ SysReg.leash ≠ .emis ∧
    (let d : Deliver := { dest := .g 5, age := 8, value := [7], load := false, peer := false, lines := 0, counter := some .emis }
     d ∈ (waiting (fun w => { w with delivers := [d] }) base).here.work.delivers ∧ 7 / 8 < d.age / 8 ∧ ¬ 8 / 8 < d.age / 8) := by decide +kernel

theorem test_witness_system_writes : let s := withG [(1, 0xFFFFFFFF), (2, 0x100000000), (3, 0x219E), (4, 0x4000), (5, 0x0400), (6, 0x87), (7, 0x88)]
    s.Free [1] ∧ srcG s 1 &&& ~~~0xFFFFFFFF = 0 ∧ srcG s 2 &&& ~~~0xFFFFFFFF ≠ 0 ∧ srcG s 6 &&& ~~~0x87 = 0 ∧ srcG s 7 &&& ~~~0x87 ≠ 0 ∧
    (srcG s 3).toNat < 2 ^ 14 ∧ illRecord ((srcG s 3).setWidth 14) = false ∧ 2 ^ 14 ≤ (srcG s 4).toNat ∧ illRecord ((srcG s 5).setWidth 14) = true ∧
    (∀ j < 4, (0 : W64) &&& ~~~(walkBits j) = 0) := by decide

theorem test_witness_scalar_frame : ∃ t, exec (.add 1 2 3 false) base = .next t ∧ (decide (t.signal = .none) && decide ((t.ctx 0).work.landing ≠ [])) = true :=
  after_next (by decide +kernel)
/-- A load to `g5` of an earlier bundle, not translated. -/
def oldLoad : MemOp :=
  { kind := .load, dest := some (.g 5), width := 8, policy := .wt, perLane := false, items := [{ lane := 0, va := 0x1000, data := 0 }], seq := 0,
    age := 0, cycle := 0, slot := 1, pc := 0x400000, translated := false, accesses := [], got := [], sent := false }

/-- A store of an earlier bundle, translated. -/
def oldStore : MemOp := { oldLoad with kind := .store, dest := none, translated := true }

/-- An operation of an earlier bundle in flight. -/
def inFlight (o : MemOp) : State := waiting (fun w => { w with memOps := [o] }) (onCtx fun c => { c with retired := 1 })

/-- An entry of the full/empty queue of an earlier bundle that takes one word. -/
def oldTake : FeEntry := { load := some (.g 6), keep := false, words := [(0, 8)], data := [], seq := 1, age := 0 }

/-- n entries of an earlier bundle in the full/empty queue. -/
def queued (n : Nat) : State := waiting (fun w => { w with feq := List.replicate n oldTake }) (onCtx fun c => { c with retired := 1 })

/-- A dirty copy of the first line of host memory in the L1 of core 0. -/
def hostDirtyState : State :=
  base.mapStore fun st => putCopy st 0 (hostBase / 64) { state := .hostDirty, data := 1, mask := 1, wts := 0, rts := 0 }

/-- An engine command of context 0, on channel 0 of its core, of 256 bytes to a walk of space 1. -/
def someChannel : Channel :=
  { kind := .copy, ctx := 0, cont := 0, rank := 0, asid := 0, src := [1, 0x10000400100, 0, 0], dst := [1, 0x10000400100, 0, 0], srcBase := 0,
    dstBase := 256, bar := 0x400, total := 256, landed := [], counted := 0, gate := 0, pc := 0x400000, stopped := false }

/-- `base` with channels on core 0. -/
def withChannels (cs : Sparse Channel) : State := base.mapCore 0 fun k => { k with channels := cs }

theorem test_witness_coherent_accesses : let s := withG [(1, 0x1000), (2, 0x1004), (3, 0x1002)]
    s.Free [5, 1] ∧ memLimit s 1 = .ok ∧ (srcG s 1 + BitVec.ofInt 64 ((-1024) * 8)).toNat % 8 = 0 ∧
    (srcG s 2 + BitVec.ofInt 64 (1023 * 8)).toNat % 8 ≠ 0 ∧ (srcG s 2 + BitVec.ofInt 64 (0 * 4)).toNat % 4 = 0 ∧
    (srcG s 3 + BitVec.ofInt 64 (0 * 4)).toNat % 4 ≠ 0 := by decide

theorem test_witness_scratch_words : let s := withG [(1, 65532), (2, 65536), (3, 65534), (4, -4)]
    s.Free [5, 1] ∧ s.QueueClear ∧ (srcG s 1).toNat % 4 = 0 ∧ (srcG s 1).toNat < 2 ^ s.here.winLog ∧ 2 ^ s.here.winLog ≤ (srcG s 2).toNat ∧
    (srcG s 3).toNat % 4 ≠ 0 ∧ (srcG s 4 + BitVec.ofInt 64 (1 * 4)).toNat = 0 ∧ 2 ^ s.here.winLog ≤ (srcG s 4).toNat := by decide

/-- `base` with a second context of core 0, whose `feset` has the words from 8 to 15 still to do. -/
def fesetting : State :=
  (withG [(1, 0), (2, 8)]).setCtx 1 { base.here with rank := 1, work := { Work.empty with feset := some { addr := 8, words := 2, done := 0, full := true } } }

theorem test_witness_scratch_waits : fesetting.Free [5, 1] ∧ fesetting.QueueClear ∧ fesetOver fesetting 0 8 4 = true ∧ fesetOver fesetting 0 4 4 = false ∧
    fesetOver fesetting 0 15 1 = true ∧ fesetOver fesetting 0 16 4 = false := by decide +kernel

theorem test_witness_scratch_store : Sparse.risingFrom none (scratchStore Store.empty 0 8 1).scratch = true ∧ 2 ^ 21 - 1 < 2 ^ 21 := by decide

theorem test_witness_full_empty_queue : (queued 3).Free [5, 1] ∧ (queued 3).here.work.feq.length < 4 ∧ 4 ≤ (queued 4).here.work.feq.length ∧
    (queued 4).Free [5, 1] ∧ (65532 : Nat) % 4 = 0 ∧ 65532 < 2 ^ (queued 3).here.winLog := by decide

theorem test_witness_scalar_accesses_frame : ∃ t, exec (.sts 5 1 0) base = .next t ∧ (decide (t.signal = .none)) = true :=
  after_next (by decide +kernel)

theorem test_witness_branches : let s := withG [(1, 0x400000), (2, 0x400020), (3, 0x400004), (63, 0x400000)]
    base.here.regs.q.getLsbD 7 = false ∧ base.here.regs.q.getLsbD 7 ≠ true ∧ s.Free [63] ∧ s.Free [5, 1] ∧
    ((srcG s 1).toNat % 32 = 0 ∧ inCode s s.here (srcG s 1) = true) ∧ inCode s s.here (srcG s 2) = false ∧ (srcG s 3).toNat % 32 ≠ 0 ∧
    ((srcG s 63).toNat % 32 = 0 ∧ inCode s s.here (srcG s 63) = true) ∧ inCode base base.here (srcG base 63) = false := by decide +kernel

theorem test_witness_loops : let s := onCtx fun c => { c with regs := { c.regs with lc := 0xFFFFFFFF, ec := 0x87 } }
    let t := onCtx fun c => { c with regs := { c.regs with ec := 0x81 } }
    s.Free [1] ∧ s.here.regs.lc ≠ 0 ∧ (t.here.regs.lc = 0 ∧ t.here.regs.ec.setWidth 3 ≠ (0 : BitVec 3)) ∧
    (base.here.regs.lc = 0 ∧ base.here.regs.ec.setWidth 3 = (0 : BitVec 3)) := by decide

theorem test_witness_waits : let s := inFlight oldLoad
    (s.here.outLoads ≤ 1 ∧ s.here.outStores ≤ 0 ∧ s.outCopies s.focusCtx ≤ 0 ∧ s.outTiles s.focusCtx ≤ 0) ∧ ¬ (s.here.outLoads ≤ 0) := by decide

theorem test_witness_fences :
    ((∀ o ∈ base.here.work.memOps ++ base.here.work.replay, o.kind = .load ∨ 8 * base.here.retired ≤ o.age) ∧
      dirtyHostLines base.store 0 = []) ∧
    ¬ (∀ o ∈ (inFlight oldStore).here.work.memOps ++ (inFlight oldStore).here.work.replay,
      o.kind = .load ∨ 8 * (inFlight oldStore).here.retired ≤ o.age) ∧
    (∀ o ∈ hostDirtyState.here.work.memOps ++ hostDirtyState.here.work.replay, o.kind = .load ∨ 8 * hostDirtyState.here.retired ≤ o.age) ∧
    dirtyHostLines hostDirtyState.store 0 = [hostBase / 64] := by decide +kernel

theorem test_witness_releases : (releaseStep 0 base).2 = true ∧ (releaseStep 0 (inFlight oldStore)).2 = false ∧ (releaseStep 0 hostDirtyState).2 = false := by
  decide +kernel

theorem test_witness_untranslated : ¬ (inFlight oldLoad).Translated ∧ base.Translated := by decide

theorem test_witness_ends : let s := withG [(1, 0x1000), (2, 0x1004), (3, 0x1002)]
    let t := withChannels [(0, someChannel)]
    s.Translated ∧ s.Free [1, 2] ∧ s.outCopies s.focusCtx = 0 ∧ s.QueueClear ∧ (t.Translated ∧ t.outCopies t.focusCtx ≠ 0) ∧
    ((queued 1).Translated ∧ (queued 1).Free [5] ∧ ¬ (queued 1).QueueClear) ∧ (srcG s 1).toNat % 8 = 0 ∧ (srcG s 2).toNat % 8 ≠ 0 ∧
    (srcG s 2).toNat % 4 = 0 ∧ (srcG s 3).toNat % 4 ≠ 0 := by decide +kernel

theorem test_witness_settling :
    let ended := fun (s : State) => s.mapCtx 0 fun c => { c with ended := some 7 }
    let called := fun (n : Nat) => onCtx fun c => { c with call := some { code := n } }
    (∀ s ∈ [ended base, ended (inFlight oldStore)], (s.ctx 0).ended = some 7 ∧ (s.ctx 0).rank ∉ (s.cont 0).ended ∧ (s.ctx 0).work.barvs = [] ∧
      s.outCopies 0 = 0) ∧ (releaseStep 0 (ended base)).2 = true ∧ (releaseStep 0 (ended (inFlight oldStore))).2 = false ∧
    (ended (withChannels [(0, someChannel)])).outCopies 0 ≠ 0 ∧
    (∀ n ∈ [0xFFFF, 0x10000, 0xFFFFF, 0x100000], let s := called n
      (s.ctx 0).call = some { code := n } ∧ (s.cont 0).state.isEnd = false ∧ (s.cont 0).callOf ≠ some 0 ∧ 0 ∉ (s.cont 0).callQueue) ∧
    (let s := base.mapCont 0 fun c => { c with ended := [0] }
     (s.cont 0).state = .running ∧ (s.cont 0).launch.contexts ≤ (s.cont 0).ended.length ∧ (s.cont 0).faultPending = false ∧ (s.cont 0).stage = 0) ∧
    (let s := (called 3).mapCont 0 fun c => { c with callQueue := [0] }
     ∃ c, s.ctxOf 0 0 = some c ∧ (s.cont 0).callOf = none ∧ (s.cont 0).callQueue = [0] ∧ c.call = some { code := 3 } ∧ c.argsReady = true ∧
       (s.cont 0).block % 64 = 0 ∧ (s.cont 0).block + 0x100 ≤ 2 ^ 52 ∧ Sparse.risingFrom none s.store.dirs = true ∧ s.MemCanonical) := by
  refine ⟨by decide +kernel, by decide +kernel, by decide +kernel, by decide +kernel, by decide +kernel, by decide +kernel, _, rfl, by decide +kernel⟩
/-- A read stream of `v60` with one entry of 256 bytes fetched, and a write stream of `v61`. -/
def streaming : State :=
  waiting (fun w => { w with
    streams := [{ id := 0, writes := false, w0 := 1, w1 := 0x10000100100, w2 := 0, start := 0, taken := 0, written := 0, words := (List.range 64).map fun i => (i, 9) },
      { id := 1, writes := true, w0 := 1, w1 := 0x10000100100, w2 := 0, start := 0x8000, taken := 0, written := 0, words := [] }]
    binds := [(60, 0), (61, 1)], nextStream := 2 }) base

theorem test_witness_vector_ready : base.VectorReady 5 [6, 7] [.vec 7] ∧ base.VectorReady 5 [5, 6] [.scalar 63] ∧ base.VectorReady 5 [6] [] ∧
    streaming.VectorReady 61 [60, 7] [.vec 7] ∧ streaming.VectorReady 61 [60] [] := by decide +kernel

theorem test_witness_vector_packs : base.VectorReady 33 (packSources 60 .i8) [] ∧ base.VectorReady 33 (packSources 62 .bf16) [] := by decide +kernel

theorem test_witness_vector_types : isIntType .n8 = true ∧ isIntType .i32 = true ∧ vecFloat .f16 = some fmtF16 ∧
    (63 < 64 ∧ 63 < (base.here.readSrcV 6).length) ∧ 63 < (base.here.readVSrc (.scalar 1)).length := by decide

theorem test_witness_finite : (fmtF32.decode true 0x3F800000).finite ∧ (fmtBf16.decode true 0xFF7F).finite ∧ (fmtF16.decode true 1).finite ∧
    (fmtF32.decode true 0x7FC00000).isNaN = true ∧ (fmtF32.decode true 0x7F800001).isNaN = true ∧
    (fmtF32.decode true 0x3F800000).isNaN = false ∧ 0x3F800000 < 2 ^ (fmtF32.e + fmtF32.m + 1) :=
  ⟨trivial, trivial, trivial, by decide, by decide, by decide, by decide⟩

theorem test_witness_rounding : illRecord 0x31C0 = false ∧ (∃ f, narrowTy 0x31C0 = .float f false ∧ f.hasNaN = true ∧ f.hasInf = false) ∧ illRecord 0x1180 = false ∧
    (∃ f, narrowTy 0x1180 = .float f false ∧ f.signed = false ∧ f.hasNaN = false) ∧ narrowTy 0x219E = .scaled true 4 (-2) ∧
    fmtF32.hasNaN = true ∧ fmtF32.hasInf = true :=
  ⟨by decide, ⟨_, rfl, by decide, by decide⟩, by decide, ⟨_, rfl, by decide, by decide⟩, by decide, by decide, by decide⟩

theorem test_witness_zeros : (fmtF32.decode true 0x80000000).val = 0 ∧ (fmtF32.decode true 0).val = 0 ∧
    (fmtF32.decode true 0x80000000).isNeg = true ∧ (fmtF32.decode true 0).isNeg = false := by
  have h : ∀ n e, Num.val (.fin n 0 e) = 0 := fun n e => by simp [Num.val]
  exact ⟨h true _, h false _, by decide, by decide⟩

theorem test_witness_negative : (fmtF32.decode true 0xBF800000).val < 0 := by
  show (if true = true then (-1 : ℚ) else 1) * ((8388608 : Nat) : ℚ) * (2 : ℚ) ^ (-23 : Int) < 0
  norm_num

theorem test_witness_dot : (∀ j < ElemType.i8.perLane, (elemNumTy base.here.regs.readNf .i8).decode (laneElem .i8 0x80FF7F01 j) ≠ .nan false) ∧
    ((elemNumTy base.here.regs.readNf .i8).decode (laneElem .i8 0x80FF7F01 3)).finite ∧ (fmtF32.decode true 0).finite :=
  ⟨by decide, trivial, trivial⟩

theorem test_witness_scan : let k : W64 := 0b10010
    k.getLsbD 1 = true ∧ (∀ j < 1, k.getLsbD j = false) ∧ k.getLsbD 4 = true ∧ (∀ l, 1 < l → l < 4 → k.getLsbD l = false) := by
  refine ⟨by decide, by decide, by decide, fun l h1 h2 => ?_⟩
  obtain rfl | rfl : l = 2 ∨ l = 3 := by omega
  · decide
  · decide

theorem test_witness_reduction : (treeRoot .add .i32 1 (List.replicate 64 5)).1 = some 5 ∧ base.here.checkSrcV 6 = .ok ∧
    base.here.checkDestV 5 = .ok ∧ (∀ i < 64, (srcM base 1).getLsbD i = false) ∧ Sparse.risingFrom none [(0, (7 : W32))] = true ∧
    Sparse.find [(0, (7 : W32))] 0 = some 7 ∧ Sparse.find [(0, (7 : W32))] 1 = none ∧ (1 : W64) ≠ 0 := by decide +kernel

theorem test_witness_vector_frame : ∃ t, exec (.vmov 5 6 0 .f32) base = .next t ∧ (decide (t.signal = .none)) = true :=
  after_next (by decide +kernel)

/-! Vector memory, matrix, engines. -/

theorem test_witness_vector_windows : let s := (waiting (fun w => { w with feq := List.replicate 3 { oldTake with age := 8 } })
      ((withG [(1, 65280), (2, 65536), (3, 4)]).mapCtx 0 fun c => { c with retired := 1 }))
    s.Free [1] ∧ ((srcG s 1).toNat % 256 = 0 ∧ (srcG s 1).toNat < 2 ^ s.here.winLog) ∧ 2 ^ s.here.winLog ≤ (srcG s 2).toNat ∧
    (srcG s 3).toNat % 256 ≠ 0 ∧ s.QueueClear ∧ s.here.work.feq.length < 4 ∧ s.here.checkDestV 5 = .ok ∧ s.here.checkSrcV 5 = .ok := by
  decide +kernel

theorem test_witness_vector_coherent :
    let s := (withG [(1, 0x1000), (2, 0x1002)]).mapCtx 0 fun c => { c with regs := { c.regs with m := [(1, 3)] } }
    let lanes := fun (m : Reg3) => (List.range 64).filter fun j => (srcM s m).getLsbD j
    s.Free [1] ∧ lanes 1 = [0, 1] ∧ lanes 2 = [] ∧ (∀ j ∈ lanes 1, (srcG s 1 + BitVec.ofNat 64 (4 * j)).toNat % 4 = 0) ∧
    memLimit s ((lanes 1).map fun j => (srcG s 1 + BitVec.ofNat 64 (4 * j)).toNat / 64).dedup.length = .ok ∧ memLimit s 0 = .ok ∧
    s.here.checkDestV 5 = .ok ∧ s.here.checkSrcV 6 = .ok ∧ (srcG s 2 + BitVec.ofNat 64 (4 * 0)).toNat % 4 ≠ 0 ∧
    (∀ l ∈ lanes 1, l < 0 → (srcG s 2 + BitVec.ofNat 64 (4 * l)).toNat % 4 = 0) := by decide +kernel

theorem test_witness_vector_waits : let s := fesetting.mapCtx 0 fun c => { c with regs := { c.regs with m := [(1, 2)] } }
    let lanes := fun (m : Reg3) => (List.range 64).filter fun i => (srcM s m).getLsbD i
    s.QueueClear ∧ lanes 1 = [1] ∧ lanes 2 = [] ∧ ¬ (∀ i ∈ lanes 0, fesetOver s 0 (4 * i) 4 = false) ∧
    (∀ i ∈ lanes 1, fesetOver s 0 (4 * i) 4 = false) ∧ s.here.checkDestV 5 = .ok ∧ s.here.checkSrcV 5 = .ok ∧
    (s.Free [2, 1] ∧ ¬ (fesetOver s 0 8 (4 * 8) = false) ∧ fesetOver s 0 0 (4 * 2) = false) := by decide +kernel

theorem test_witness_stream_names : base.here.nameReady 60 = .ok ∧
    (waiting (fun w => { w with delivers := [{ dest := .v 60 1, age := 0, value := [], load := true, peer := false, lines := 1, counter := none }] })
      (onCtx fun c => { c with retired := 1 })).here.nameReady 60 ≠ .ok := by decide +kernel

theorem test_witness_feset : let s := withG [(1, 65532), (2, 1), (3, 65534), (4, 2)]
    s.Free [2, 1] ∧ s.QueueClear ∧ ((srcG s 1).toNat % 4 = 0 ∧ (srcG s 0).toNat = 0) ∧
    ((srcG s 2).toNat ≠ 0 ∧ (srcG s 1).toNat + 4 * (srcG s 2).toNat ≤ 2 ^ s.here.winLog) ∧ (srcG s 3).toNat % 4 ≠ 0 ∧
    2 ^ s.here.winLog < (srcG s 1).toNat + 4 * (srcG s 4).toNat ∧ Sparse.risingFrom none s.store.full = true ∧
    s.here.base + 65532 + 4 ≤ 2 ^ 21 := by decide +kernel

theorem test_witness_sbind : let s := onCtx fun c => { c with regs := { c.regs with walks := [(4, 0x31), (7, 8), (8, 0x31), (11, 4)] } }
    (((s.here.regs.walk 1 0).toNat % 16 = 1 ∧ (s.here.regs.walk 1 0).toNat / 16 % 8 ≤ 3) ∧
      ((s.here.regs.walk 1 3).setWidth 32 : W32).toNat % 2 ^ ((s.here.regs.walk 1 0).toNat / 16 % 8) = 0) ∧
    ((s.here.regs.walk 2 3).setWidth 32 : W32).toNat % 2 ^ ((s.here.regs.walk 2 0).toNat / 16 % 8) ≠ 0 ∧
    ¬ ((s.here.regs.walk 0 0).toNat % 16 = 1) := by decide +kernel

/-- A second context of core 0 that holds bank 0. -/
def heldBank : State :=
  base.setCtx 1 ({ oneCtx with rank := 1, work := { Work.empty with hold := some { banks := [0], left := 3, cycles := 0, entries := 0 } } })

theorem test_witness_hold : (∀ j ∈ [0, 0, 0, 0], j < (if base.here.winLog ≤ 16 then 1 else 2 ^ (base.here.winLog - 16))) ∧
    (¬ ∃ e ∈ base.ctxs, e.1 / 4 = 0 ∧ e.1 ≠ base.focusCtx ∧ ∃ x, e.2.work.openHold = some x ∧ ∃ y ∈ x.banks, y ∈ [0]) ∧
    (∃ e ∈ heldBank.ctxs, e.1 / 4 = 0 ∧ e.1 ≠ heldBank.focusCtx ∧ ∃ x, e.2.work.openHold = some x ∧ ∃ y ∈ x.banks, y ∈ [0]) ∧
    (∃ j ∈ [0, 1, 0, 0], (if base.here.winLog ≤ 16 then 1 else 2 ^ (base.here.winLog - 16)) ≤ j) := by
  refine ⟨by decide, ?_, ⟨_, .tail _ (.head _), by decide, by decide, _, rfl, by decide⟩, by decide⟩
  rintro ⟨e, he, -, hne, -⟩
  have : e.1 = 0 := by
    have h : ∀ e ∈ base.ctxs, e.1 = 0 := by decide
    exact h e he
  exact hne this

/-- Rings 1 and 2 defined, and the walk of a whole `f32` tile in `w1`, of `bf16` in `w2`. -/
def tiled : State :=
  withRegs fun r =>
    { r with
      rings := [(1, { base := 0, cap := 2, head := 0, tail := 0 }), (2, { base := 0x8000, cap := 1, head := 0, tail := 0 })]
      walks := [(4, 0x21), (5, 0x10008000080), (6, 0x200), (8, 0x11), (9, 0x10008000080), (10, 0x100)] }

/-- A queued operation of tile 1 of context 0. -/
def tileOp (k : MatKind) : MatOp :=
  { ctx := 0, tile := 1, kind := k, start := 0, walk := [], age := 0, started := false, running := false, left := 0, step := 1,
    done := 0, used := 0, rate := 0, charge := 0, flags := 0 }

/-- `tiled` with operations in the queue of core 0. -/
def withQueue (q : List MatOp) : State := tiled.mapCore 0 fun k => { k with queue := q }

/-- A queue of n operations of another tile. -/
def tileQueue (n : Nat) : State := withQueue (List.replicate n (tileOp .tzero))

theorem test_witness_tiles :
    let clear := fun (s : State) (t : Nat) => (∀ o ∈ s.tileOps s.focusCtx, o.tile ≠ t) ∧ (s.core 0).queue.length < 4 ∧ s.here.work.frozen = []
    let r := tiled.here.regs
    let w := walkShape (r.walk 1 0) (r.walk 1 1) (r.walk 1 2)
    let v := walkShape (r.walk 2 0) (r.walk 2 1) (r.walk 2 2)
    clear tiled 0 ∧ clear (tileQueue 3) 0 ∧ ¬ clear (tileQueue 4) 0 ∧ ¬ clear (tileQueue 1) 1 ∧ 0 < tiled.here.tiles.length ∧
    ¬ (1 < tiled.here.tiles.length) ∧ tiled.Free [5] ∧ ((r.ring 1).cap ≠ 0 ∧ (r.ring 2).cap ≠ 0 ∧ 2 ≤ (r.ring 1).cap) ∧
    (r.ring 3).cap = 0 ∧ (r.ring 2).cap < 2 ∧
    badMma .bf16 .f16 (capturedRecord tiled .bf16) (capturedRecord tiled .f16) true = false ∧
    (w.c0 * w.c1 * w.c2 = 16384 ∧ (r.walk 1 0).toNat % 16 = 1 ∧ w.inside 0 (2 ^ tiled.here.winLog) = true ∧ w.esize = 2) ∧
    (v.c0 * v.c1 * v.c2 = 16384 ∧ v.esize = 1) ∧ (r.walk 3 0).toNat % 16 ≠ 1 := by decide +kernel

theorem test_witness_tile_results : let s := tiled
    (Sparse.risingFrom none s.store.tiles = true ∧ (s.core 0).pause = 0 ∧ ¬ (s.here.ffDue = s.here.count ∧ 0 < s.here.ffAge)) ∧
    classShape .bf16 = classShape .f16 ∧ classShape (.nf 0) = classShape (.nf 1) ∧ classShape .f32 = classShape .f32 ∧
    (isScaledInt (.nf 0) 0x219E = true ∧ isScaledInt .bf16 0x219E = false) ∧ Sparse.risingFrom none s.here.regs.rings = true ∧
    ((fmtBf16.decode false 0x7FC0).isNaN = true ∧ scaleExp [(0, 0xFF)] 0 0 = none ∧ scaleExp [] 127 63 = some 0 ∧
      ((fmtBf16.decode false 0x7F80).mul (fmtBf16.decode false 0)).2 = true ∧
      ((fmtBf16.decode false 0x7F80).mul (fmtBf16.decode false 0xBF80)).1 = .inf true) ∧ (tileOp .tst).stores = true ∧ (tileOp .tld).stores = false ∧
    (tileOp .tst).steps = 16 ∧ (tileOp .tzero).steps = 8 ∧ s.here.count ≤ s.here.nowCount ∧
    (onCtx fun c => { c with count := 5, stallLeft := 3, span := 2 }).here.nowCount = 3 := by
  decide +kernel

theorem test_witness_rings : let s := (withG [(1, 0x2000), (2, 7), (3, 0x1000), (4, 8), (5, 256), (6, 0xFF00), (7, 0x10000)]).mapCtx 0 fun c =>
      { c with regs := { c.regs with rings := tiled.here.regs.rings } }
    s.Free [1, 2] ∧ (((srcG s 1).toNat % 0x2000 = 0 ∧ (srcG s 1).toNat < 2 ^ 21) ∧ 0 < (srcG s 2).toNat ∧ (srcG s 2).toNat < 256) ∧
    (srcG s 1).toNat + (srcG s 2).toNat * 0x2000 ≤ 2 ^ s.here.winLog ∧ 2 ^ s.here.winLog < (srcG s 1).toNat + (srcG s 4).toNat * 0x2000 ∧
    (srcG s 3).toNat % 0x2000 ≠ 0 ∧ ¬ ((srcG s 5).toNat < 256) ∧
    ((s.here.regs.ring 1).cap ≠ 0 ∧ (s.here.regs.ring 1).cap = 2 ∧ (s.here.regs.ring 3).cap = 0) ∧ s.QueueClear ∧
    ((srcG s 6).toNat % 256 = 0 ∧ (srcG s 6).toNat < 2 ^ s.here.winLog ∧ 2 ^ s.here.winLog ≤ (srcG s 7).toNat) := by decide +kernel

theorem test_witness_ring_named : let s := withQueue [tileOp (.mma 1 2 .bf16 .bf16 0 0 true false [] [])]
    ∃ o ∈ s.tileOps s.focusCtx, ∃ i j x y rx ry z sc sa sb, o.kind = .mma i j x y rx ry z sc sa sb ∧ (i = 1 ∨ j = 1) :=
  ⟨_, .head _, 1, 2, _, _, _, _, _, _, _, _, rfl, .inl rfl⟩

/-- `w1` a walk of 256 bytes in the window, `w2` one of device memory, `w3` of no bytes. -/
def walks : State :=
  (withG [(1, 0xFF00), (2, 0x100000000), (3, 0xFFFFFFFF), (4, 0xFFF0), (5, 0xFFF8), (6, 0xFFFF00000001)]).mapCtx 0 fun c =>
    { c with regs := { c.regs with walks := [(4, 1), (5, 0x10000100100), (9, 0x10000100100), (12, 1), (16, 5), (17, 0x10000100100)] } }

theorem test_witness_engine_commands :
    let r := walks.here.regs
    let good := fun (a b : List W64) => ((a.getD 0 0).toNat % 16 ≤ 2 ∧ (b.getD 0 0).toNat % 16 ≤ 4) ∧ (shapeOf a).esize ≤ 3 ∧ (shapeOf b).esize ≤ 3 ∧
      (shapeOf a).total = (shapeOf b).total ∧ (shapeOf a).total < 2 ^ 32
    walks.Free [1, 2, 4] ∧ good (r.walkWords 1) (r.walkWords 2) ∧ checkCopyWalk walks (r.walkWords 1) 0xFF00 = .ok ∧
    checkCopyWalk walks (r.walkWords 2) 0x100000000 = .ok ∧ ((srcG walks 4).toNat % 16 = 0 ∧ (srcG walks 4).toNat + 16 ≤ 2 ^ walks.here.winLog) ∧
    (good (r.walkWords 3) (r.walkWords 3) ∧ checkCopyWalk walks (r.walkWords 3) 0xFF00 = .ok ∧ (shapeOf (r.walkWords 3)).total = 0) ∧
    (shapeOf (r.walkWords 1)).total ≠ 0 ∧ ¬ good (r.walkWords 4) (r.walkWords 1) ∧ (srcG walks 5).toNat % 16 ≠ 0 ∧
    ((srcG walks 3).toNat < 2 ^ 32 ∧ (srcG walks 6).toNat + (srcG walks 3).toNat ≤ 2 ^ 48 ∧ (srcG walks 3).toNat ≠ 0) ∧ (srcG walks 0).toNat = 0 ∧
    (walks.core 0).channels.find 0 = none ∧
    ∀ k < 8, (((withChannels ((List.range 8).map fun n => (n, someChannel))).core 0).channels.find k).isSome = true := by decide +kernel

theorem test_witness_barriers : let s := withG [(1, 0xFFF0), (2, 0xFFFFFFFF), (3, 0xFFFF), (4, 0x10000), (5, 0x100000000), (6, 0xFFF8), (7, 1)]
    s.Free [1, 2, 3] ∧ ((srcG s 1).toNat % 16 = 0 ∧ (srcG s 1).toNat + 16 ≤ 2 ^ s.here.winLog) ∧
    (((srcG s 2).toNat < 2 ^ 32 ∧ (srcG s 3).toNat < 2 ^ 16) ∧ ((srcG s 2).toNat ≠ 0 ∨ (srcG s 3).toNat ≠ 0)) ∧
    ¬ ((srcG s 4).toNat < 2 ^ 16) ∧ 2 ^ 32 ≤ (srcG s 5).toNat ∧ (srcG s 6).toNat % 16 ≠ 0 ∧
    ((scratchWord s.store 0 (s.here.base + 0xFFF0 + 12)).getLsbD 0 ≠ (srcG s 7).getLsbD 0 ∧
      (scratchWord s.store 0 (s.here.base + 0xFFF0 + 12)).getLsbD 0 = (srcG s 0).getLsbD 0) ∧ s.here.watches = true ∧ fesetOver s 0 0xFFF0 16 = false ∧ fesetOver fesetting 0 0 16 = true ∧
    ((2 : Reg2) ≠ 3 ∧ s.here.regs.pack.getLsbD 63 = false) ∧
    (onCtx fun c => { c with regs := { c.regs with pack := 1 <<< 63 } }).here.regs.pack.getLsbD 63 = true := by decide +kernel

theorem test_witness_atomics : let s := withG [(1, 0x1000), (2, 0x1004), (3, 0x1002)]
    s.Free [5, 1, 2, 3] ∧ memLimit s 1 = .ok ∧ (srcG s 1).toNat % 8 = 0 ∧ (srcG s 2).toNat % 8 ≠ 0 ∧ (srcG s 2).toNat % 4 = 0 ∧
    (srcG s 3).toNat % 4 ≠ 0 ∧ (2 ^ 64 - 1 : Nat) < 2 ^ 64 := by decide +kernel

/-- Range 0 of one line at 0x1000, `f32` sums. -/
def ranged : State :=
  withRegs fun r => { r with g := [(1, 0x1000), (2, 64)], crng := [(0, 0x1001)], m := [(1, 0xFFFF)] }

theorem test_witness_ranges : let lanes := fun (m : Reg3) => (List.range 64).filter fun j => (srcM ranged m).getLsbD j
    let holds := fun (base : Nat) (m : Reg3) (r : Range) => ∀ j ∈ lanes m, r.base ≤ base + 4 * j ∧ base + 4 * j + 4 ≤ r.base + r.len
    let meets := fun (n base len : Nat) => ∃ e ∈ ranged.here.regs.ranges, e.1 ≠ n ∧ base < e.2.base + e.2.len ∧ e.2.base < base + len
    ranged.here.regs.ranges = [(0, { base := 0x1000, len := 64, t := .f32, op := .add })] ∧ ranged.Free [1, 2] ∧
    ((srcG ranged 0).toNat = 0 ∧ (srcG ranged 2).toNat ≠ 0) ∧
    ((0x100000 % 64 = 0 ∧ 0x100000 % 64 = 0 ∧ 0x100000 ≤ 2 ^ 20 ∧ 0x100000 + 0x100000 ≤ 2 ^ 48) ∧ ¬ meets 1 0x100000 0x100000) ∧
    meets 1 0x1000 64 ∧ ¬ meets 1 0x1040 64 ∧ ¬ meets 0 0x1000 64 ∧ ¬ (0x100040 ≤ 2 ^ 20) ∧ ranged.here.checkSrcV 5 = .ok ∧
    (lanes 1 ≠ [] ∧ lanes 2 = []) ∧ memLimit ranged 1 = .ok ∧ memLimit ranged 0 = .ok ∧ 0x1000 % 4 = 0 ∧
    holds 0x1000 1 { base := 0x1000, len := 64, t := .f32, op := .add } ∧
    ¬ holds 0x1020 1 { base := 0x1000, len := 64, t := .f32, op := .add } := by
  decide +kernel
/-! Events of a context. -/

/-- The page of virtual address 0x1000 at physical address 0x400000, readable and writable, in the TLB of core 0. -/
def pageEntry : TlbEntry := { holder := 0, asid := 0, base := 0x1000, span := 4096, frame := 0x400000, level := 3, leaf := 0x400017 }

/-- `base` with that page mapped. -/
def mapped (s : State) : State := s.mapStore fun st => { st with tlbs := [pageEntry] }

/-- An operation of a kind whose one access stands next at a line. -/
def nextOp (k : MemKind) (p : Policy) (t : Tier) (line : Nat) (sent : Bool) : MemOp :=
  { oldLoad with kind := k, policy := p, translated := true, accesses := [{ line := line, tier := t, items := [(0, 8, 5)] }], sent := sent }

/-- What an operation of a context performs next, as the statement names it. -/
def current (o : MemOp) : Option (MemOp × Access) := (inFlight o).ctx 0 |>.current

/-- Values of two loads and of a division on their way, in the order of their accesses. -/
def threeOnWay : State :=
  let d : Deliver := { dest := .g 6, age := 0, value := [7], load := true, peer := false, lines := 1, counter := none }
  waiting (fun w => { w with delivers := [d, { d with dest := .g 7 }, { d with load := false }] }) base

/-- A state in core cycle 2, in which a requester has waited since cycle 0 at the engine port of a bank of core 0. -/
def waitsFor (u : PortUser) (bank : Nat) (s : State) : State :=
  s.mapCore 0 fun k => { k with cycles := 2, portWaits := [{ user := u, banks := [bank], since := 0 }] }

/-- It, where that port has served another request in the cycle. -/
def taken (bank : Nat) (s : State) : State := s.mapCore 0 fun k => { k with port := [bank] }

theorem test_witness_deliver_order : let ds := threeOnWay.here.work.delivers
    (∃ d, ds[0]? = some d ∧ d.load = true ∧ ∀ e ∈ ds.take 0, e.load = false) ∧ (∃ d, ds[1]? = some d ∧ d.load = true ∧ ¬ ∀ e ∈ ds.take 1, e.load = false) ∧
    ∃ d, ds[2]? = some d ∧ d.load = false :=
  ⟨⟨_, rfl, by decide⟩, ⟨_, rfl, by decide⟩, ⟨_, rfl, by decide⟩⟩

theorem test_witness_deliver : busy5.here.work.delivers[0]? = some { dest := .g 5, age := 0, value := [7], load := false, peer := false, lines := 0, counter := none } ∧
    (5 : Nat) ≠ 0 ∧ (∀ p ∈ busy5.here.work.landing, p.eff.hits (.g 5) = false) ∧ Sparse.risingFrom none busy5.here.regs.g = true := by decide

theorem test_witness_translation :
    let s := inFlight oldLoad
    s.here.work.memOps.find? (fun o => !o.translated) = some oldLoad ∧ s.here.work.park = none ∧
    (translateItems 0 (s.cont 0).launch.asid oldLoad.kind.requester oldLoad.items s).1.2.isSome = true ∧
    (translateItems 0 (s.cont 0).launch.asid oldLoad.kind.requester oldLoad.items (mapped s)).1.2 = none ∧
    selfPeer (mapped s) oldLoad (translateItems 0 0 oldLoad.kind.requester oldLoad.items (mapped s)).1.1 = false ∧
    (match (translateItems 0 (s.cont 0).launch.asid oldLoad.kind.requester oldLoad.items s).1.2 with
      | some (_, .failed ..) => true
      | _ => false) = true ∧ s.here.fault = none ∧
    (s.mapCtx 0 fun c => { c with fault := some (preciseInfo 0 0 .badValue 0 base) }).here.fault ≠ none := by decide +kernel

theorem test_witness_store_leaves : (inFlight oldStore).here.work.memOps = oldStore :: [] ∧ oldStore.translated = true ∧
    oldStore.accesses = [] ∧ oldStore.dest = none := by decide

theorem test_witness_full_empty_performs :
    let put := { oldTake with load := none, data := [9] }
    let s := (queued 1).mapStore fun st => setFull st 0 8 true
    let t := waiting (fun w => { w with feq := [put] }) base
    (s.here.work.feq = oldTake :: [] ∧ s.here.awake = true ∧ (s.core 0).pause = 0) ∧ (∀ w ∈ oldTake.words, fesetOver s 0 w.2 4 = false) ∧ portFree (waitsFor (.entry 0) 0 s) (.entry 0) 0 [8] = true ∧ portFree s (.entry 0) 0 [8] = false ∧
    (∀ w ∈ oldTake.words, isFull s.store 0 w.2 = true) ∧ t.here.work.feq = put :: [] ∧ (∀ w ∈ put.words, isFull t.store 0 w.2 = false) ∧
    (∀ o ∈ t.here.work.memOps ++ t.here.work.replay, put.seq ≤ o.seq) ∧ t.here.work.park = none ∧
    (∃ w ∈ oldTake.words, isFull (queued 1).store 0 w.2 ≠ oldTake.load.isSome) ∧
    ((∀ w ∈ oldTake.words, w.2 % 4 = 0 ∧ w.2 < 2 ^ 21) ∧ Sparse.risingFrom none s.store.full = true ∧ Sparse.risingFrom none s.store.released = true ∧
      put.data.length = put.words.length ∧ (put.words.map (·.2)).Nodup ∧ oldTake.words = [(0, 8)] ∧
      (∀ p ∈ s.here.work.landing, p.eff.hits (.g 6) = false)) := by decide +kernel

/-- A read stream of one entry of eight bytes. -/
def shortStream : Stream :=
  { id := 0, writes := false, w0 := 1, w1 := 0x10000100008, w2 := 0, start := 0, taken := 0, written := 0, words := [] }

theorem test_witness_stream_fetch : let s := waiting (fun w => { w with streams := [shortStream], binds := [(60, 0)] }) base
    s.here.bound 60 = some shortStream ∧ shortStream.writes = false ∧ 0 < shortStream.length ∧
      shortStream.entryInside 0 s.here.window = true ∧ s.here.awake = true ∧ (s.core 0).pause = 0 ∧
      ((shortStream.lanesOf 0).filter fun i => (2 : W64).getLsbD i && !shortStream.hasRead 0 i) = [1] ∧
      portFree (waitsFor (.stream 0 60) 0 s) (.stream 0 60) 0 ((shortStream.laneBytes 0 1).map fun e => s.here.base + e.2.toNat) = true ∧
      portFree s (.stream 0 60) 0 [4] = false := by
  decide +kernel

/-- A push of lane 0 into the write stream of `streaming`, due. -/
def duePush : Pending := { due := 0, age := 0, eff := .push 1 (List.replicate 64 7), held := false }

theorem test_witness_pushes : let y := streaming.here.work.streams.find? fun z => z.id == 1
    y.isSome = true ∧ (∀ q ∈ streaming.here.work.landing, ¬ (q.eff.isPush = true ∧ q.due ≤ streaming.here.nowCount)) ∧
    streaming.windowHw streaming.here.cont streaming.here.rank = some 0 ∧ (streaming.core 0).pause = 0 ∧
    (∃ q ∈ (waiting (fun w => { w with landing := [duePush] }) streaming).here.work.landing, q.eff.isPush = true ∧ q.due ≤ streaming.here.nowCount) ∧
    portFree (waitsFor (.push 0 0) 0 streaming) (.push 0 0) 0 [0x8000] = true ∧ portFree (waitsFor (.push 0 0) 0 heldBank) (.push 0 0) 0 [0x8000] = false ∧ ((base.mapCore 0 fun k => { k with pause := 3 }).core 0).pause ≠ 0 := by
  decide +kernel

/-- Two requesters of bank 0 wait at its engine port: context 1 since cycle 0, context 0 since cycle 1; it is cycle 2. -/
def queuedPort : State :=
  base.mapCore 0 fun k => { k with cycles := 2, portWaits := [{ user := .entry 1, banks := [0], since := 0 }, { user := .entry 0, banks := [0], since := 1 }] }

theorem test_witness_ports : (let s := waitsFor (.entry 0) 0 base
     (∀ a ∈ [(8 : Nat)], a / 65536 ∉ (s.core 0).port) ∧ (∀ v ∈ (s.core 0).portWaits, v.user = .entry 0) ∧
       ((s.core 0).request (.entry 0) (banksOf [8])).since < (s.core 0).cycles ∧ portFree s (.entry 0) 0 [8] = true ∧
       portFree (taken 0 s) (.entry 0) 0 [8] = false) ∧
    (let w : HoldWindow := { banks := [0], left := 3, cycles := 0, entries := oldTake.seq + 1 }
     PortUser.passes (queued 1) 0 w (.entry 0) = true ∧ PortUser.passes (queued 1) 0 { w with entries := 0 } (.entry 0) = false ∧
       PortUser.passes base 0 w (.stream 0 60) = true ∧ PortUser.passes base 0 w .matrix = false) ∧
    (base.core 0).portWaits = [] ∧ roundBefore 0 (.entry 1) (.entry 0) = true ∧
    (let s := base.mapCore 0 fun k => { k with cycles := 2, portWaits := [{ user := .entry 1, banks := [0], since := 0 }, { user := .entry 0, banks := [0], since := 0 }] }
     portFree s (.entry 0) 0 [8] = false ∧ portFree s (.entry 1) 0 [8] = true) ∧
    (let k := queuedPort.core 0
     (k.request (.entry 0) (banksOf [8])).since = 1 ∧ banksOpen queuedPort (.entry 1) 0 [0] = true ∧
       (∀ e ∈ queuedPort.cores, e.1 ≠ 0 → ∀ y ∈ e.2.portWaits, y.user ≠ .entry 1) ∧ portFree queuedPort (.entry 0) 0 [8] = false ∧
       portFree queuedPort (.entry 1) 0 [8] = true ∧ ∀ v ∈ k.portWaits, v.user ≠ .barv 2) := by decide +kernel

theorem test_witness_stream_words : (∀ i ∈ [0, 1], i < 64) ∧ Sparse.risingFrom none shortStream.words = true ∧ shortStream.fetched 0 = false ∧
    (shortStream.fetchWords Store.empty 0 0 0 [0, 1]).fetched 0 = true := by decide +kernel

theorem test_witness_hold_expires : (64 : Nat) ≤ 64 ∧ let s := waiting (fun w => { w with hold := some { banks := [0], left := 1, cycles := 64, entries := 0 } }) base
    s.here.work.hold = some { banks := [0], left := 1, cycles := 64, entries := 0 } := by decide

theorem test_witness_home_requests :
    let a : Access := { line := 0x10000, tier := .gddr, items := [(0, 8, 5)] }
    (∀ k ∈ ([.load, .store, .combine .f32 .add, .atomic .add 1 0 0] : List MemKind), ∀ p ∈ [Policy.own, .wi],
      current (nextOp k p .gddr 0x10000 false) = some (nextOp k p .gddr 0x10000 false, a)) ∧
    (dirOf base.store 0x10000).poison = false ∧ isHostLine 0x10000 = false ∧
    (∀ p ∈ [Policy.own, .wi], (serveLoad base.store 0 0x10000 p 0 base.lease).isSome = true ∧
      (serveStore base.store 0 0x10000 p 0 base.lease (storeLine (nextOp .store p .gddr 0x10000 false) a).1
        (storeLine (nextOp .store p .gddr 0x10000 false) a).2).isSome = true) ∧
    (serveCombine base.store 0 0x10000 0 .f32 .add [(2, 5)]).isSome = true ∧
    (serveAtomic base.store 0x10000 8 8 0 .add 1 0).isSome = true := by decide +kernel

theorem test_witness_home_serves : let st := base.store
    (copyAt st 0 0x10000 = none ∧ isHostLine 0x10000 = false ∧ hostBlocks st 0x10000 false = false ∧ hostBlocks st 0x10000 true = false ∧
      (dirOf st 0x10000).state ≠ .owned 0 ∧ (dirOf st 0x10000).state ≠ .owned 4) ∧
    ((acquireOwn st 0 0x10000).any fun u => (copyAt u 0 0x10000).any (fun c => copyServes c .own 0) && (dirOf u 0x10000).state == .owned 0 &&
      (copyAt (readyInDie u 0 0x10000 false) 256 0x10000).isSome && (copyAt (readyInDie u 0 0x10000 true) 256 0x10000).isSome) = true ∧
    ((serveLoad st 0 0x10000 .si 0 32).any fun r => (copyAt r.2.2 256 0x10000).any fun c => copyServes c .si 0 && !c.state.owns) = true ∧
    ((serveCombine st 0 0x10000 0 .f32 .add [(0, 1)]).any fun r => (copyAt r.2 0 0x10000).any (fun c => c.state == .combining .f32 .add) &&
      (match (dirOf r.2 0x10000).state with | .partials _ .f32 .add => true | _ => false)) = true ∧
    (isHostLine (hostBase / 64) = true ∧ copyAt st 0 (hostBase / 64) = none) ∧
    ((0x10000 :: (readyToWrite st 0x10000).engineUse.filter (· != 0x10000)).filter fun l => homeDie l == homeDie 0x10000).length ≤ 32768 := by
  decide +kernel

/-- The next access of `nextOp` in a state whose line 0x10000 is poisoned. -/
def poisoned (o : MemOp) : State := (inFlight o).mapStore fun st => setDir st 0x10000 { clearDir 0x10000 with poison := true }

/-- A store of all sixteen words of the line. -/
def wholeLine : MemOp :=
  { nextOp .store .wi .gddr 0x10000 false with
    width := 4, accesses := [{ line := 0x10000, tier := .gddr, items := (List.range 16).map fun j => (j, 4 * j, 5) }] }

theorem test_witness_poison :
    (∀ k ∈ ([.load, .store, .combine .f32 .add, .atomic .add 1 0 0] : List MemKind), ∀ p ∈ [Policy.own, .wi],
      let o := nextOp k p .gddr 0x10000 false
      let s := poisoned o
      s.here.current.isSome = true ∧ (dirOf s.store 0x10000).poison = true ∧ olderCadd s 0 o 0x10000 = false ∧ (s.cont s.here.cont).state.isEnd = false ∧
        (Sparse.find s.dev.conts s.here.cont).isSome = true ∧ (s.cont s.here.cont).stage = 0) ∧
    (let s := poisoned wholeLine
     let a := wholeLine.accesses.headD { line := 0, tier := .gddr, items := [] }
     s.here.current = some (wholeLine, a) ∧ (storeLine wholeLine a).1 = 0xFFFF ∧
       (storeLine (nextOp .store .wi .gddr 0x10000 false) { a with items := [(0, 8, 5)] }).1 ≠ 0xFFFF ∧
       (serveStore s.store 0 0x10000 .wi 0 s.lease 0xFFFF 0).isSome = true ∧ Sparse.risingFrom none s.store.dirs = true) := by decide +kernel

-- R174: a load of a poisoned line faults and performs no more; a store of all 16 words clears the poison
theorem test_poison : after (exec (.homeLoadRequest 0) (poisoned (nextOp .load .wi .gddr 0x10000 false)))
      (fun t => t.here.current.isNone && t.here.fault.isSome && (t.cont 0).state == .faulted) = true ∧
    after (exec (.homeStoreRequest 0) (poisoned wholeLine)) (fun t => t.here.fault.isNone && !(dirOf t.store 0x10000).poison) = true := by
  decide +kernel

/-- A leased and a dirty copy of the first line of host memory, in the L1s of cores 0 and 1. -/
def hostCopies : State :=
  base.mapStore fun st => putCopy (putCopy st 0 (hostBase / 64) { state := .leased, data := 5, mask := 0, wts := 3, rts := 40 }) 1 (hostBase / 64)
    { state := .hostDirty, data := 1, mask := 1, wts := 0, rts := 0 }

theorem test_witness_host_lines : let l := hostBase / 64
    isHostLine l = true ∧ (∀ c, copyAt base.store 0 l = some c → copyServes c .si 0 = false) ∧
    ((copyAt hostCopies.store 0 l).any fun c => copyServes c .si 9) = true ∧ (Policy.si ≠ .wt) ∧ Sparse.risingFrom none hostCopies.store.copies = true ∧
    ((copyAt hostCopies.store 1 l).any fun c => c.state == .hostDirty) = true ∧
    ((copyAt (openHostAtomic hostCopies.store l) 1 l).all fun c => c.state != .hostDirty) = true ∧ (1 : Nat) < 512 := by
  refine ⟨by decide, ?_, by decide +kernel, by decide, by decide +kernel, by decide +kernel, by decide +kernel, by decide⟩
  intro c h
  have : copyAt base.store 0 (hostBase / 64) = none := by decide +kernel
  rw [this] at h
  cases h

-- R155, R160, R302: a load under `.wt` of a host-homed line takes the host's data, another policy the core's leased copy
theorem test_host_loads : ((serveLoad hostCopies.store 0 (hostBase / 64) .si 9 32).any fun r => r.1 == 5) = true ∧
    ((serveLoad hostCopies.store 0 (hostBase / 64) .wt 9 32).any fun r => r.1 == 0) = true := by decide +kernel

theorem test_witness_host_and_peer_atomics : let o := nextOp (.atomic .add 1 0 3) .wt .host (hostBase / 64) false
    let p := nextOp (.atomic .add 1 0 3) .wt .peer 5 true
    (current o = some (o, { line := hostBase / 64, tier := .host, items := [(0, 8, 5)] }) ∧ isHostLine (hostBase / 64) = true) ∧
    (current p = some (p, { line := 5, tier := .peer, items := [(0, 8, 5)] }) ∧ p.sent = true) ∧
    (base.dev.record.ports ≠ 0 ∧ (base.mapDev fun d => { d with record := { d.record with ports := 0 } }).dev.record.ports = 0) ∧
    (let k := nextOp (.combine .f32 .add) .wt .gddr 0x10000 false
     olderCadd (inFlight k) 0 k 0x10000 = false) ∧
    ((inFlight p).dev.up = true ∧ (inFlight p).dev.fabricIn = [] ∧ (inFlight p).hwOf (inFlight p).here.cont (inFlight p).here.rank = some 0) ∧
    ((base.mapDev fun d => { d with hostWrites := [(0, hostBase / 64), (512, hostBase / 64)] }).dev.hostWrites[1]? = some (512 + 0, hostBase / 64)) := by
  decide +kernel

-- R193, R195, R277: the operands of a `.w` atomic leave with its low 32 bits, and its old value comes back with 32
theorem test_narrow_peer_atomic : let o := fun (sent : Bool) => { nextOp (.atomic .add 0x500000001 0 3) .wt .peer 5 sent with width := 4, dest := some (.g 6) }
    after (exec (.homeAtomicRequest 0) (inFlight (o false))) (fun t => t.dev.outputs.contains (.atomic 3 0 328 .add 4 1 0)) = true ∧
    after (exec (.peerAtomicResponse 0 false 0x700000009) (inFlight (o true))) (fun t => t.here.work.delivers.any fun d => d.value == [9]) = true := by
  decide +kernel

/-- A `park` asleep on the first line of host memory. -/
def hostPark : ParkWait :=
  { seq := 0, va := 0x1000, width := 8, expected := 1, seen := true, asleep := true, line := hostBase / 64, since := 0, pc := 0 }

theorem test_witness_parks : let p := hostPark
    let s : State := { waiting (fun w => { w with park := some p }) base with refHalf := 26000 }
    let t := waiting (fun w => { w with park := some { p with asleep := false } }) base
    s.here.work.park = some p ∧ s.here.awake = true ∧ isHostLine p.line = true ∧ p.since + 26000 ≤ s.refHalf ∧
    t.here.work.park = some { p with asleep := false } ∧ (parkReady s.here p = true ∧ parkReady t.here { p with asleep := false } = true) ∧
    (match translate 0 (base.cont 0).launch.asid p.va .reader (mapped t) with
      | (.found pa .., s') => !(dirOf s'.store (pa / 64)).poison && !isHostLine (pa / 64) && !hostBlocks s'.store (pa / 64) false
      | _ => false) = true := by decide +kernel

/-! Events of the engines. -/

/-- An operation that runs with n cycles left. -/
def runningOp (n : Nat) : MatOp := { tileOp .tzero with tile := 0, started := true, running := true, left := n, step := 8 }

/-- A state in which core 0 pauses with its staging buffer full. -/
def fullStaging (s : State) : State :=
  s.mapCore 0 fun k => { k with pause := 3, staging := List.replicate 16 { addr := 0, data := List.replicate 1024 0 } }

theorem test_witness_matrix_events :
    let s := withQueue [tileOp .tzero]
    let t := withQueue [{ runningOp 0 with done := 7 }]
    let u := withQueue [{ runningOp 0 with kind := .tst, done := 15 }]
    (∀ q ∈ ((refillQueue 0 s).core 0).queue, q.running = false) ∧ (refillQueue 0 s).leashed 0 = false ∧
    (((refillQueue 0 s).core 0).gated = false ∧ ((refillQueue 0 s).core 0).pause = 0) ∧
    readyOp (refillQueue 0 s) [] ((refillQueue 0 s).core 0).queue = some (tileOp .tzero) ∧
    (t.core 0).queue.find? (fun o => o.running && o.left == 0 && o.done + 1 == o.steps) = some { runningOp 0 with done := 7 } ∧
    (runningOp 0).stores = false ∧ portFree t .matrix 0 (({ runningOp 0 with done := 7 } : MatOp).touches t) = true ∧
    (u.core 0).queue.find? (fun o => o.running && o.left == 0 && o.done + 1 == o.steps) = some { runningOp 0 with kind := .tst, done := 15 } ∧
    ({ runningOp 0 with kind := .tst } : MatOp).stores = true ∧ stagingRoom t 0 (1024 * transferBytes .tst) = true ∧
    stagingRoom (fullStaging t) 0 (1024 * transferBytes .tst) = false := by decide +kernel

/-- `someChannel` with other walks and kind on channel 0. -/
def onChannel (f : Channel → Channel) : State := withChannels [(0, f someChannel)]

/-- A copy of a byte of memory at 0x1000 to one in the page behind it. -/
def memoryCopy : Channel :=
  { someChannel with src := [0, 0x10000100001, 0, 0], dst := [0, 0x10000100001, 0, 0], srcBase := 0x1000, dstBase := 0x1041, total := 1 }

/-- It, with the page of 0x1000 mapped and the entry of one line in a state. -/
def copying (line : Nat) (st : HomeState) : State :=
  (mapped (onChannel fun _ => memoryCopy)).mapStore fun x => setDir x line { clearDir line with state := st }

/-- The host owns line 0x10000, which it reads, or line 0x10001, which it writes. -/
theorem test_witness_copy_asks : let l := 0x10000
    let s := copying 0 .untracked
    sourceSpot s 0 memoryCopy 0 = .byte (64 * l) ∧ destSpot s 0 memoryCopy 0 = .byte (64 * l + 65) ∧
    (match engineLoads 0 0 s.lease [l] (copying l .ownedByHost).store with | .error e => e == l | .ok _ => false) = true ∧
    (match engineLoads 0 0 s.lease [l] s.store with | .ok r => r.1 == [(l, 0)] | .error _ => false) = true ∧
    (match engineStores 0 0 [(64 * l + 65, 0)] [l + 1] (copying (l + 1) .ownedByHost) with | .error e => e == l + 1 | .ok _ => false) = true ∧
    (match engineStores 0 0 [(64 * l + 65, 0)] [l + 1] s with | .ok r => decide (0 < r.1) | .error _ => false) = true := by decide +kernel

-- R246: bytes that wait for the host cost nothing; 64 bytes written cost one unit
theorem test_copy_charges : let asked := (mapped (onChannel fun _ => { memoryCopy with total := 64, dst := [0, 0x10000100040, 0, 0], src := [1, 0x10000100040, 0, 0], srcBase := 0, dstBase := 0x1040 }))
    let held := asked.mapStore fun x => setDir x 0x10001 { clearDir 0x10001 with state := .ownedByHost }
    let ready := waitsFor (.copy 0 0) 0
    after (exec (.copyBytesLanded 0 0 0 64) (ready held)) (fun t => decide ((t.core 0).sum = (base.core 0).sum) && t.dev.outputs.contains (.backInvalidate 0x10001)) = true ∧
    after (exec (.copyBytesLanded 0 0 0 64) (ready asked)) (fun t => decide ((t.core 0).sum = (base.core 0).sum + 1) && decide ((t.core 0).counts.length = 1)) = true := by
  decide +kernel

theorem test_witness_copy_lands : let s := onChannel id
    let js := (List.range 64).map (192 + ·)
    let from' := js.map (sourceSpot s 0 someChannel)
    let to' := js.map (destSpot s 0 someChannel)
    ((s.core 0).channels.find 0 = some someChannel ∧ gateOpen s someChannel = true) ∧
    (someChannel.stopped = false ∧ someChannel.fresh 192 64 = true ∧ (s.core 0).pause = 0 ∧ s.dieRoom 0 1 = true ∧
      (∀ x ∈ from' ++ to', x.usable = true) ∧ (∀ e ∈ cellsOf to', stagingRoom s e.1 64 = true) ∧ (cellsOf from').length = 64 ∧
      portsFree (waitsFor (.copy 0 0) 0 s) (.copy 0 0) (cellsOf from' ++ cellsOf to') = true ∧
      portsFree s (.copy 0 0) (cellsOf from' ++ cellsOf to') = false) ∧
    (∃ e ∈ cellsOf to', stagingRoom (fullStaging s) e.1 64 = false) ∧
    firstFault s 0 someChannel none = none := by decide +kernel

theorem test_witness_cache_walk : let k : Channel := { someChannel with kind := .flush, srcBase := 0x1000, dstBase := 0x1000 }
    let s := mapped (onChannel fun _ => k)
    (s.core 0).channels.find 0 = some k ∧ k.kind ≠ .copy ∧ (walkLine 0 0 0 k s).isSome = true := by decide +kernel

/-- A copy from memory that no page maps. -/
def unmapped : Channel := { someChannel with src := [0, 0x10000100100, 0, 0], total := 256, srcBase := 0x8000 }

/-- A copy to a peer's window that the peer answers with an error: all of it was sent, its last 64 bytes refused. -/
def refusedCopy : Channel := { someChannel with dst := [4, 0x10000100100, 0, 0], landed := [(0, 256)] }

theorem test_witness_copy_faults : let s := onChannel fun _ => unmapped
    ((s.core 0).channels.find 0 = some unmapped ∧ gateOpen s unmapped = true) ∧ (firstFault s 0 unmapped none).isSome = true ∧
    walkSpace (unmapped.dst.getD 0 0) ≠ 4 ∧ (s.core 0).pause = 0 ∧
    s.windowHw unmapped.cont (windowRank s unmapped (unmapped.dst.getD 0 0)) = some 0 ∧ portFree (waitsFor (.copy 0 0) 0 s) (.copy 0 0) 0 [(s.ctx 0).coreAddr unmapped.bar] = true ∧
    portFree s (.copy 0 0) 0 [(s.ctx 0).coreAddr unmapped.bar] = false ∧
    (let t := onChannel fun _ => refusedCopy
     (t.core 0).channels.find 0 = some refusedCopy ∧ walkSpace (refusedCopy.dst.getD 0 0) = 4 ∧ t.dev.record.ports ≠ 0 ∧
       (firstFault t 0 refusedCopy (some { first := 192, refused := 64 })).isSome = true) := by decide +kernel

-- R183, R184: the error of a peer names the byte it refused, and counts it as not written. All had been sent, and so the peer's signal names no byte more
theorem test_refused_copy : after (exec (.copyFault 0 0 (some { first := 192, refused := 64 })) (onChannel fun _ => refusedCopy)) (fun t =>
    t.dev.outputs.contains (.signal 0 (base.cont 0).launch.pack 0 0 0x400 0 (some 1)) && latestNat t.store (0x300800 + 32) 8 == 256 + 192 &&
      latestNat t.store (0x300800 + 32 + 24) 4 == 192) = true := by decide +kernel

theorem test_witness_copy_ends : let k : Channel := { someChannel with dst := [4, 0x10000100100, 0, 0] }
    let d : Channel := { someChannel with counted := 256 }
    let p : Channel := { k with landed := [(0, 256)] }
    ((onChannel fun _ => k).core 0).channels.find 0 = some k ∧ walkSpace (k.dst.getD 0 0) = 4 ∧ gateOpen (onChannel fun _ => k) k = true ∧
    k.stopped = false ∧ (0 : Nat) < k.total ∧ (∀ x < 0, k.fresh x 1 = false) ∧ k.fresh 0 1 = true ∧ (0 : Nat) < 255 ∧ (onChannel fun _ => k).hwOf 0 0 = some 0 ∧
    (let t := (onChannel fun _ => k).mapCont 0 fun c => { c with state := .parked }
     ({ t with ctxs := [] } : State).hwOf 0 0 = none ∧ (t.cont 0).state.isEnd = false) ∧
    (((onChannel fun _ => d).core 0).channels.find 0 = some d ∧ walkSpace (d.dst.getD 0 0) ≠ 4 ∧ d.counted = d.total) ∧
    (((onChannel fun _ => p).core 0).channels.find 0 = some p ∧ p.landedBytes = p.total) := by decide +kernel

theorem test_witness_counts : let m : CountMsg := { cont := 0, rank := 0, off := 0x400, bytes := 64, ts := 3, chan := 0 }
    let s := base.mapCore 0 fun k => { k with counts := [m] }
    let b : Barv := { addr := 0x400, bytes := 8, arrive := true, gate := 2 }
    let t := waiting (fun w => { w with barvs := [b] }) base
    (s.core 0).counts[0]? = some m ∧ s.windowHw m.cont m.rank = some 0 ∧ (s.core 0).pause = 0 ∧ portFree (waitsFor (.count 0) 0 s) (.count 0) 0 [(s.ctx 0).coreAddr m.off] = true ∧
    (t.here.work.barvs = b :: [] ∧ (t.ctx 0).performedBelow b.gate = true ∧ t.windowHw (t.ctx 0).cont (t.ctx 0).rank = some 0 ∧
      (t.core 0).pause = 0 ∧ portFree (waitsFor (.barv 0) 0 t) (.barv 0) 0 [b.addr] = true) ∧
    (let b' : Barv := { b with bytes := 0, arrive := false }
     let t' := waiting (fun w => { w with barvs := [b'] }) base
     t'.here.work.barvs = b' :: [] ∧ (t'.ctx 0).performedBelow b'.gate = true) ∧
    Sparse.risingFrom none s.store.scratch = true ∧
    (let u := waiting (fun w => { w with bwait := some (0x400, true) }) base
     (u.ctx 0).work.bwait = some (0x400, true) ∧ (u.ctx 0).watches = true ∧ phaseOf (countAt 0 0x400 1 false u).store 0 0x400 = true ∧
       phaseOf (countAt 0 0x400 0 true (u.mapStore fun st => scratchStore st 0 0x408 0x20000)).store 0 0x400 ≠ true) := by decide +kernel

-- R186: got saturates, and an arrival beyond the count is not added; each sets the error bit
theorem test_barrier_errors : countWords 0xFFFFFFFF 0xFFFFFFF0 0x10000 0 0x20 false = (0xFFFFFFFF, 0x10000, 2) ∧
    countWords 8 0 0x00010001 0 0 true = (0, 0x00010001, 2) := by decide +kernel

theorem test_witness_pack_barriers :
    let p : PbarWait := { level := 3, nth := 1, gear := none, drop := false, gate := 0, arrived := false, raised := false, released := false }
    let s := waiting (fun w => { w with pbar := some p }) base
    let t := waiting (fun w => { w with pbar := some { p with arrived := true } }) base
    (s.here.work.pbar = some p ∧ s.here.awake = true ∧ (s.ctx 0).performedBelow p.gate = true ∧ s.here.work.barvs = [] ∧ s.channelsOf 0 0 = []) ∧
    (t.here.work.pbar = some { p with arrived := true } ∧ allArrived t 0 0 3 1 = true ∧ (t.cont 0).allDevices 1 = true) ∧
    (let u := waiting (fun w => { w with pbar := some { p with arrived := true, drop := true } }) base
     let v := waiting (fun w => { w with pbar := some { p with arrived := true, drop := true, raised := true } }) base
     anyWaits u 0 3 1 (members u 0 0 3) (·.drop) = true ∧ packRaised v 0 3 1 (members v 0 0 3) = true ∧
       (v.cont 0).allSaid (v.cont 0).raised3 1 = true ∧
       packRaised (v.mapCtx 0 fun c => { c with gearReq := true }) 0 3 1 (members v 0 0 3) = false) ∧
    (let w := (base.mapCont 0 fun c => { c with launch := { c.launch with pack := 7 }, signals3 := 0 }).mapCtx 0 fun c => { c with pbarCount := [(3, 1)] }
     (w.cont 0).launch.pack ≠ 0 ∧ (w.cont 0).signals3 < 1 ∧ allArrived w 0 0 3 1 = true ∧
       ¬ ∀ r ∈ List.range (w.cont 0).launch.contexts, r ∈ (w.cont 0).ended) := by decide +kernel

-- R192, R245: a member that dropped its request is raised first, and goes on when its core runs
theorem test_pbar_raise :
    let p : PbarWait := { level := 0, nth := 1, gear := some true, drop := true, gate := 0, arrived := true, raised := false, released := false }
    let s := (waiting (fun w => { w with pbar := some p }) base).mapCtx 0 fun c => { c with gearReq := true, dropped := true }
    let rising := s.mapCtx 0 fun c => { c with dropped := false, work := { c.work with pbar := some { p with raised := true } } }
    let isReleased := fun (t : State) => t.here.work.pbar.any (·.released)
    after (exec (.pbarRelease 0) s) (fun t => !isReleased t && t.here.work.pbar.any (·.raised) && !t.here.dropped) = true ∧
    after (exec (.pbarRelease 0) rising) (fun t => !isReleased t) = true ∧
    after (exec (.pbarRelease 0) (rising.mapCore 0 fun k => { k with run := true })) isReleased = true := by decide +kernel
/-! Coherence and the host. -/

/-- A copy of a line in a state. -/
def copyIn (st : CopyState) : Copy := { state := st, data := 5, mask := 1, wts := 3, rts := 4 }

/-- `base` with the entry of line 0x10000 in a state and a copy of it at a holder. -/
def lineIn (home : HomeState) (holder : Nat) (c : CopyState) : State :=
  base.mapStore fun st => putCopy (setDir st 0x10000 { clearDir 0x10000 with state := home }) holder 0x10000 (copyIn c)

theorem test_witness_recalls : let s := lineIn (.owned 0) 0 .modified
    ((dirOf s.store 0x10000).state = .owned 0 ∧ ownerCopy s.store 0x10000 = some (0, copyIn .modified)) ∧ Sparse.risingFrom none s.store.dirs = true ∧
    (let t := lineIn (.tracked 0b11001) 192 .shared
     (dirOf t.store 0x10000).state = .tracked 0b11001 ∧ (0b11001 : BitVec 5).getLsbD 3 = true ∧ copyAt t.store 192 0x10000 = some (copyIn .shared)) ∧
    (let t := lineIn (.partials 1 .f32 .add) 0 (.combining .f32 .add)
     (dirOf t.store 0x10000).state = .partials 1 .f32 .add ∧ copyAt t.store 0 0x10000 = some (copyIn (.combining .f32 .add)) ∧
       (copyIn (.combining .f32 .add)).state.isPartial = true) ∧
    (let t := lineIn .ownedByHost 0 .leased
     ownedByHost t.store 0x10000 = true ∧ t.dev.hostSilent = false ∧ (t.mapDev fun d => { d with hostSilent := true }).dev.hostSilent = true) ∧
    (∀ k ∈ [CopyState.combining .f32 .add, .shared, .modified, .leased, .hostDirty], copyAt (lineIn (.owned 0) 0 k).store 0 0x10000 = some (copyIn k)) ∧
    (CopyState.shared.isPartial = false ∧ CopyState.modified.owns = true ∧ (0, 0x10000) ∉ base.dev.hostWrites) ∧
    (partialsOf s.store 0x10000 = [] ∧ Sparse.risingFrom none s.store.copies = true) ∧
    (isHostLine 0x10000 = false ∧ 0 < (mapped base).store.tlbs.length ∧ (mapped base).store.tlbs.length ≤ 1) := by decide +kernel

theorem test_witness_host_accesses :
    let u := hostActive base
    let v := hostActive (base.mapDev fun d => { d with boot := 5 })
    ((u.dev.boot = 1 ∧ u.dev.hostSilent = false) ∧ u.dev.breaksAccess 0x400000 64 = false ∧ (dirOf u.store 0x10000).poison = false) ∧
    ¬ (v.dev.boot = 1 ∧ v.dev.hostSilent = false) ∧ (0 < 1 ∧ 63 + 1 ≤ 64) ∧ u.dev.breaksAccess 0x40003F 1 = false ∧
    u.dev.breaksAccess 0x400038 8 = false ∧ u.dev.breaksAccess 128000000000 64 = true ∧
    (dirOf (hostActive (base.mapStore fun st => setDir st 0x10000 { clearDir 0x10000 with poison := true })).store 0x10000).poison = true ∧
    (base.dev.hdm (base.dev.hdmGddr + 0x400038) = some 0x400038 ∧ base.dev.hdm (base.dev.hdmLpddr + 5) = some (2 ^ 40 + 5) ∧
      base.dev.hdmGddr + 2 ^ 40 ≤ base.dev.hdmLpddr ∧ base.dev.hdmLpddr + 2 ^ 44 < 2 ^ 60) ∧
    (base.dev.hdm 0x1000 = none ∧ 0x1000 < hostBase) ∧ Sparse.risingFrom none base.store.dirs = true := by decide +kernel

/-! Commands and lines of the device. -/

/-- `base` with bytes of memory written. -/
def stored (ws : List (Nat × Nat × Nat)) (s : State) : State :=
  s.mapStore fun st => { st with mem := ws.foldl (fun m w => memPutBytes m w.1 (leBytes w.2.1 w.2.2)) st.mem }

/-- A command word of sequence 1 in the block of continuation 0, written just now, the continuation changed. -/
def commanded (word : Nat) (f : Cont → Cont) : State :=
  stored [(0x300000, 8, word + 2 ^ 32)] ((base.mapDev fun d => { d with commandWakes := [0] }).mapCont 0 f)

/-- The page of the image at virtual address 0x400000, at 0x600000: a walk-cache entry and the leaf in its table. -/
def imagePage (s : State) : State :=
  (stored [(0x500000, 8, 0x60001F)] s).mapStore fun st => { st with walks := [{ asid := 0, level := 3, base := 2, table := 0x500000 }] }

/-- A state in which the host owns a line. -/
def hostOwning (line : Nat) (s : State) : State := s.mapStore fun st => setDir st line { dirOf st line with state := .ownedByHost }

/-- The host owns none of the lines at offsets of the block of continuation 0. -/
def gives (s : State) (offs : List Nat) : Prop := hostKeeps s (offs.map fun o => ((s.cont 0).block + o) / 64) = []

/-- A command finds its block woken and its line readable, its sequence new, no halt unfinished. -/
def wokenBy (s : State) : Prop :=
  (s.dev.commandWakes.contains 0 = true ∧ (Sparse.find s.dev.conts 0).isSome = true ∧ gives s [0]) ∧ (s.cont 0).halt = none ∧
    (commandWord s 0).toNat / 2 ^ 32 ≠ (s.cont 0).ack

theorem test_witness_commands : ∀ op ∈ [1, 2, 3, 4, 5, 6],
    let s := commanded op id
    wokenBy s ∧ (commandWord s 0).toNat / 2 ^ 8 % 2 ^ 24 = 0 ∧ (commandWord s 0).toNat % 2 ^ 8 = op ∧ unpaused s 0 = true ∧ gives s [0x1C0] ∧ gives s [0xC0] ∧
      ¬ gives (hostOwning (0x300000 / 64) s) [0] := by
  unfold wokenBy gives; decide +kernel

theorem test_witness_command_states : ∀ st ∈ [ContState.idle, .waiting, .queued, .running, .parked, .faulted, .done, .killed],
    ((commanded 1 fun c => { c with state := st }).cont 0).state = st ∧ st.startable = (st == .idle || st.isEnd) := by decide +kernel

theorem test_witness_malformed : let s := commanded 0x107 id
    let t := commanded 0x105 (fun c => { c with callOf := some 0, faultOf := some 0 })
    wokenBy s ∧ badCommand (commandWord s 0) = true ∧ wokenBy t ∧ (commandWord t 0).toNat / 2 ^ 8 % 2 ^ 24 = 1 ∧
    (commandWord t 0).toNat % 2 ^ 8 = 5 ∧ (t.cont 0).callOf = some 0 ∧ (t.cont 0).faultOf = some 0 ∧ (base.cont 0).callOf = none ∧
    (base.cont 0).faultOf = none ∧ ((t.cont 0).state = .queued ∨ (t.cont 0).state = .running ∨ (t.cont 0).state = .parked) ∧
    gives t [0xC0] ∧ ¬ gives (hostOwning (0x3000C0 / 64) t) [0xC0] ∧ ¬ gives (hostOwning (0x3001C0 / 64) t) [0x1C0] := by
  unfold wokenBy gives; decide +kernel

-- R205, R222, R224: a command that is refused reads no line of its block; one that has an effect asks for the line that the host owns
theorem test_refused_commands : let held := fun (off : Nat) (word : Nat) (f : Cont → Cont) => hostOwning ((0x300000 + off) / 64) (commanded word f)
    after (exec (.start 0) (held 0x80 1 id)) (fun t => (t.cont 0).ack == 1 && (t.cont 0).result == 1) = true ∧
    after (exec (.resumeHostCall 0) (held 0xC0 0x105 id)) (fun t => (t.cont 0).ack == 1 && (t.cont 0).result == 4) = true ∧
    after (exec (.resumeFault 0) (held 0x1C0 5 fun c => { c with faultOf := some 0 })) (fun t => (t.cont 0).ack == 0 &&
      t.dev.outputs.contains (.backInvalidate (0x3001C0 / 64))) = true := by decide +kernel

theorem test_witness_other_commands : (¬ (base.dev.commandWakes.contains 0 = true)) ∧
    (let s := commanded 2 fun c => { c with ack := 1 }
     s.dev.commandWakes.contains 0 = true ∧ (Sparse.find s.dev.conts 0).isSome = true ∧ (s.cont 0).halt = none ∧
       (commandWord s 0).toNat / 2 ^ 32 = (s.cont 0).ack) ∧
    ((commanded 4 fun c => { c with halt := some (.preempt 3) }).cont 0).halt = some (.preempt 3) ∧
    (let s := commanded 3 fun c => { c with state := .parked }
     (s.cont 0).kennelled = false ∧ roomFree s 0 [] = true ∧
       roomFree (s.mapDev fun d => { d with conts := Sparse.put d.conts 1 oneCont }) 0 [] = false) ∧
    ((commanded 3 fun c => { c with state := .parked, kennelled := true }).cont 0).kennelled = true ∧
    (base.hwOf 0 0 = some 0 ∧ ({ base with ctxs := [] } : State).hwOf 0 0 = none) ∧
    (((base.mapCont 0 fun c => { c with code := 0xFFFF }).cont 0).code < 0x10000 ∧
      ¬ (((base.mapCont 0 fun c => { c with code := 0x10000 }).cont 0).code < 0x10000)) := by decide +kernel

/-- A second context of continuation 0, parked with a fault, whose turn at the host comes next. -/
def twoFaults (disposition : Nat) : State :=
  stored [(0x3001DB, 1, disposition)] ((base.setCtx 1 { oneCtx with rank := 1, fault := some (preciseInfo 0 0 .translation 0 base) }).mapCont 0 fun c =>
    { c with faultOf := some 0, faultPending := true, faultQueue := [1] })

theorem test_witness_dispositions : (∀ d < 3, blockNat (twoFaults d) 0 0x1DB 1 = d) ∧ ((twoFaults 0).cont 0).faultQueue = [1] ∧
    (base.cont 0).faultQueue = [] ∧ (let v := (twoFaults 0).mapCont 0 fun c => { c with faultPending := false, faultOf := none }
     let w := v.mapRank 0 0 (Ctx.resume (v.coreCycles 0 0))
     (w.ctxOf 0 1).any fun x => x.fault.isSome) = true ∧
    ((base.cont 0).block % 64 = 0 ∧ (base.cont 0).block + 0x80 ≤ 2 ^ 52 ∧ Sparse.risingFrom none base.store.dirs = true ∧ base.MemCanonical) ∧
    (List.replicate 8 (5 : W64)).length = 8 ∧ Sparse.risingFrom none base.here.regs.g = true ∧ ContState.killed.isEnd = true := by decide +kernel

/-- Continuation 0 idle, its launch line naming an image whose seal field holds 64 zeros, and a resident copy of that seal. -/
def startable : State :=
  (imagePage (stored [(0x300080, 8, 0x400000)] (commanded 1 fun c => { c with state := .idle }))).mapDev fun d =>
    { d with images := [(3, { oneWordImage 0 0 with digest := List.replicate 64 0 })] }

theorem test_witness_start : let s := startable
    let u := s.mapDev fun d => { d with commandWakes := d.commandWakes.filter (· != 0) }
    wokenBy s ∧ gives s [0x80, 0xC0, 0x100, 0x140, 0x180] ∧ hostKeeps s (sealLines s 0) = [] ∧ ¬ gives (hostOwning (0x300080 / 64) s) [0x80] ∧
    (s.cont 0).state.startable = true ∧ (blockNat u 0 0x96 2 = 0 ∧ blockNat u 0 0x80 8 = 0x400000) ∧
    sealedOf base 0 0x400000 = none ∧ s.dev.up = true ∧ (s.mapDev fun d => { d with boot := 2 }).dev.up = false := by
  unfold wokenBy gives; decide +kernel

/-- `startable` with a launch line for one context, and words in the block. -/
def launching (ws : List (Nat × Nat × Nat)) : State :=
  stored ([(0x30008C, 2, 1), (0x30008E, 1, 1), (0x300094, 1, 16)] ++ ws) startable

theorem test_witness_launches : (Sparse.find startable.dev.images 3).isSome = true ∧
    (let s := launching []
     let im := { oneWordImage 0 0 with digest := List.replicate 64 0 }
     Sparse.find s.dev.images 3 = some im ∧ badLaunch s 0 (readLaunch s 0 3) im = false ∧ (readLaunch s 0 3).waits = []) ∧
    (let s := launching [(0x300100, 8, 2 ^ 63 + 0x400000)]
     badLaunch s 0 (readLaunch s 0 3) { oneWordImage 0 0 with digest := List.replicate 64 0 } = false ∧ (readLaunch s 0 3).waits ≠ []) ∧
    ((readLaunch startable 0 3).contexts < 1 ∧
      badLaunch startable 0 (readLaunch startable 0 3) { oneWordImage 0 0 with digest := List.replicate 64 0 } = true) := by decide +kernel

/-- `imagePage` with its leaf in host memory. -/
def hostPage (s : State) : State := stored [(0x500000, 8, 0x60009F)] (imagePage s)

theorem test_witness_host_wait : let s := hostPage base
    (waitPlace s 0 0x8000000000400000).any (fun pa => isHostLine (pa / 64) && !(dirOf s.store (pa / 64)).poison) = true ∧
    (let t := hostOwning (0x600000 / 64) (imagePage base)
     waitPlace t 0 0x8000000000400000 = some 0x600000 ∧ isHostLine (0x600000 / 64) = false ∧ hostBlocks t.store (0x600000 / 64) false = true ∧
       (dirOf t.store (0x600000 / 64)).poison = false ∧ (evaluateList 0 [(0x8000000000400000, 0)] t).1 = none ∧
       (evaluateList 0 [(0x8000000000400000, 0)] (imagePage base)).1 = some true ∧
       (evaluateList 0 [(0x8000000000400000, 1)] (imagePage base)).1 = some false) := by decide +kernel

theorem test_witness_wait_place : let s := imagePage base
    waitPlace s 0 0x8000000000400000 = some 0x600000 ∧ waitPlace s 0 0x8000000000800000 = none ∧ isHostLine (0x600000 / 64) = false ∧
    hostBlocks s.store (0x600000 / 64) false = false ∧ (dirOf s.store (0x600000 / 64)).poison = false := by decide +kernel

theorem test_witness_registry : let s := stored [(0x100008, 8, 0x310000)] (base.mapDev fun d => { d with registryWakes := [1, 0] })
    (s.dev.registryWakes.contains 1 = true ∧ latestNat s.store (s.dev.registry + 8) 8 ≠ 0 ∧ (Sparse.find s.dev.conts 1).isSome = false) ∧
    (s.dev.registryWakes.contains 0 = true ∧ latestNat s.store s.dev.registry 8 = 0 ∧ (Sparse.find s.dev.conts 0).isSome = true) ∧
    s.dev.up = true ∧ hostKeeps s [(s.dev.registry + 8) / 64] = [] ∧ (stored [(0x100000, 8, 0x310000)] s).dev.registryWakes.contains 0 = true ∧
    latestNat (stored [(0x100000, 8, 0x310000)] s).store s.dev.registry 8 ≠ 0 ∧ { oneCont with state := .faulted, halt := some (.kill none) }.halt ≠ none ∧
    oneCont.state.startable = false ∧ ((Cont.idle 0).state.startable = true ∧ (Cont.idle 0).halt = none) := by decide +kernel

theorem test_witness_wait_lists : let s := (base.mapCont 0 fun c =>
      { c with state := .waiting, launch := { c.launch with waitLines := [hostBase / 64] } }).mapDev fun d => { d with waitWakes := [0] }
    let t : State := { s with refHalf := 26000 }
    ((s.cont 0).state = .waiting ∧ s.dev.waitWakes.contains 0 = true) ∧ ((t.cont 0).launch.waitLines.any isHostLine = true ∧
      (t.cont 0).pollAge + 26000 ≤ t.refHalf) ∧ (∀ n < 4, (BitVec.ofNat 64 (n * 2 ^ 48) : W64).getLsbD 52 = false ∧
      (BitVec.ofNat 64 (n * 2 ^ 48) : W64).toNat / 2 ^ 48 % 2 ^ 4 = n) := by decide +kernel

/-- A shoot-down request of a kind and range. -/
def shooting (kind va count : Nat) : State :=
  stored [(0x10040, 8, 1), (0x1004A, 1, kind), (0x10050, 8, va), (0x10058, 8, count)] (base.mapDev fun d => { d with shootWake := true })

theorem test_witness_shoot_downs : (∀ k < 4, let s := shooting k 0x1000 (2 ^ 36 - 1)
      (s.dev.shootWake = true ∧ s.dev.shootBusy = none) ∧ hostKeeps s [dcbLine s 0x40] = [] ∧ dcbNat s 0x40 8 ≠ s.dev.shootSeen ∧ dcbNat s 0x4A 1 = k ∧
      hostKeeps (hostOwning (0x10040 / 64) s) [dcbLine s 0x40] ≠ []) ∧
    (let s := shooting 0 0x1000 (2 ^ 36 - 1)
     dcbNat s 0x58 8 ≠ 0 ∧ dcbNat s 0x50 8 % 4096 = 0 ∧ ¬ (2 ^ 48 < dcbNat s 0x50 8 + 4096 * dcbNat s 0x58 8)) ∧
    (let s := shooting 0 0x1000 (2 ^ 36)
     2 ^ 48 < dcbNat s 0x50 8 + 4096 * dcbNat s 0x58 8) ∧
    stillToPerform base (0, 0, 0) = false ∧
    (let s := mapped (inFlight oldStore)
     Sparse.find s.ctxs 0 = some s.here ∧ oldStore ∈ s.here.work.memOps ∧ oldStore.translated = true ∧ (∃ x ∈ oldStore.items, x.va.toNat = 0x1000) ∧
       pageEntry ∈ s.store.tlbs ∧ pageEntry.asid = (s.cont s.here.cont).launch.asid) := by decide +kernel

-- R203: an operation of another page that translated through a dropped entry of 64 KiB is waited for
theorem test_shoot_down_waits : let big : TlbEntry := { pageEntry with base := 0, span := 65536, level := 2 }
    let s := ((inFlight { oldStore with items := [{ lane := 0, va := 0x3000, data := 0 }] }).mapStore fun st => { st with tlbs := [big] })
    let t := stored [(0x10040, 8, 1), (0x10050, 8, 0x1000), (0x10058, 8, 1)] (s.mapDev fun d => { d with shootWake := true })
    after (exec .shootDownRange t) (fun t => t.store.tlbs.isEmpty && t.dev.shootBusy == some (1, [(0, 0, 0)])) = true := by decide +kernel

/-- A request of the seal engine, about an image whose seal field holds 64 zeros; a resident copy has that seal. -/
def sealing (kind : Nat) : State :=
  imagePage (stored [(0x10080, 8, 1), (0x10088, 8, 0x400000), (0x10092, 1, kind)]
    (base.mapDev fun d => { d with sealWake := true, images := [(3, { oneWordImage 0 0 with digest := List.replicate 64 0 })] }))

theorem test_witness_sealing : (∀ k < 3, let s := sealing k
      (s.dev.up = true ∧ s.dev.sealWake = true ∧ s.dev.sealBusy = none) ∧ hostKeeps s [dcbLine s 0x80] = [] ∧ dcbNat s 0x80 8 ≠ s.dev.sealSeen ∧
      dcbNat s 0x92 1 = k ∧ hostKeeps (hostOwning (0x10080 / 64) s) [dcbLine s 0x80] ≠ []) ∧
    (hostKeeps (sealing 0) (linesRead (sealing 0) 0 .sealEngine 0x400000 0x500) = [] ∧
      hostKeeps (sealing 1) (linesRead (sealing 1) 0 .sealEngine 0x400040 64) = [] ∧
      hostKeeps (hostOwning (0x600040 / 64) (sealing 0)) (linesRead (hostOwning (0x600040 / 64) (sealing 0)) 0 .sealEngine 0x400000 0x500) ≠ [] ∧
      hostKeeps (hostOwning (0x600040 / 64) (sealing 1)) (linesRead (hostOwning (0x600040 / 64) (sealing 1)) 0 .sealEngine 0x400040 64) ≠ []) ∧
    headerWritable (sealing 0) 0 0x400000 = true ∧ readImage base 0 0x400000 = none ∧
    headerWritable base 0 0x400000 = false ∧ readVirtual base 0 .sealEngine 0x400040 64 = none ∧
    imageInUse (sealing 1) 0 = true ∧ imageInUse (sealing 1) 3 = false ∧ (base.mapDev fun d => { d with boot := 3 }).dev.up = false ∧
    (base.mapDev fun d => { d with sealBusy := some (1, 0) }).dev.sealBusy = some (1, 0) := by decide +kernel

/-- A walk in the page of the image, by a requester that its leaf permits. -/
theorem walk_in_page (s : State) (q : Requester) (hw : s.store.walks = [{ asid := 0, level := 3, base := 2, table := 0x500000 }])
    (hp : (dirOf s.store (0x500000 / 64)).poison = false) (he : latestNat s.store 0x500000 8 = 0x60001F)
    (hb : badEntry s.dev 0x60001F#64 3 = false) (hf : badLeafFrame s.dev 0x60001F#64 3 = false) (hq : permits q 0x60001F#64 = true)
    (j : Nat) (hj : j < 4096) : (walkTables s 0 (0x400000 + j) q).1 = .found (0x600000 + j) .gddr 3 0x60001F#64 := by
  have h3 : walkHit s 0 (0x400000 + j) = some { asid := 0, level := 3, base := 2, table := 0x500000 } := by
    have : 2 = (0x400000 + j) / 2097152 := by omega
    simp [walkHit, hw, ← this]
  have ha : 0x500000 + (0x400000 + j) / 2 ^ (39 - 9 * 3) % 512 * 8 = 0x500000 := by omega
  have hl : leafAddress 0x60001F#64 3 (0x400000 + j) = 0x600000 + j := by
    have h1 : entryFrame 0x60001F#64 = 0x600000 := by decide
    have h2 : entryTier 0x60001F#64 = .gddr := by decide
    have h4 : (0x400000 + j) % pageSize 3 = j := by show (0x400000 + j) % 2 ^ 12 = j; omega
    simp [leafAddress, h1, h2, h4]
  have ht : entryTier 0x60001F#64 = .gddr := by decide
  simp only [walkTables, h3, walkFrom, ha, hp, he]
  simp [hb, hf, hq, hl, ht]

/-- Reading bytes of that page that are zero. -/
theorem read_in_page (s : State) (q : Requester)
    (hw : ∀ j < 4096, (walkTables s 0 (0x400000 + j) q).1 = .found (0x600000 + j) .gddr 3 0x60001F#64)
    (hz : ∀ j < 0x500, latestBytes s.store (0x600000 + j) 1 = [0]) :
    ∀ n j, j + n ≤ 0x500 → readVirtual s 0 q (0x400000 + j) n = some (List.replicate n 0)
  | 0, _, _ => rfl
  | n + 1, j, h => by
    have hr := read_in_page s q hw hz n (j + 1) (by omega)
    have hlt : 0x400000 + j < 2 ^ 48 := by omega
    rw [readVirtual, hw j (by omega)]
    simp only [hz j (by omega), if_pos hlt, Nat.add_assoc] at hr ⊢
    simp [hr, List.replicate_succ]

/-- No key of a table as great as all of them is found. -/
theorem find_above {α : Type} (k : Nat) : ∀ m : Sparse α, (∀ e ∈ m, e.1 < k) → Sparse.find m k = none
  | [], _ => rfl
  | (j, x) :: r, h => by
    have h1 : j < k := h (j, x) (by simp)
    rw [Sparse.find, if_neg (by omega), if_neg (by omega)]
    exact find_above k r fun e he => h e (by simp [he])

/-- Memory above everything listed reads as zero. -/
theorem bytes_above (m : List Host.Cell) (h : ∀ e ∈ m, e.1 < 0x600000) : ∀ n a, 0x600000 ≤ a → ofLeBytes (memBytes m a n) = 0
  | 0, _, _ => rfl
  | n + 1, a, ha => by
    have h1 : memRead m a = 0 := by
      have h2 : ¬ (Device.booted.dcb ≤ a ∧ a < Device.booted.dcb + 0x200) := by
        have : Device.booted.dcb = 0x10000 := rfl
        omega
      rw [memRead, find_above a m fun e he => Nat.lt_of_lt_of_le (h e he) ha]
      simp only [Option.getD_none, initialByte, if_neg h2]
    rw [memBytes, ofLeBytes, h1, bytes_above m h n (a + 1) (by omega)]
    rfl

/-- Every byte of the image's page is zero where nothing was written there. -/
theorem zero_bytes (st : Store) (hd : st.dirs = []) (hm : ∀ e ∈ st.mem, e.1 < 0x600000) (j : Nat) (hj : j < 0x500) :
    latestBytes st (0x600000 + j) 1 = [0] := by
  have h1 : isHostLine ((0x600000 + j) / 64) = false := by
    have : ¬ (hostBase / 64 ≤ (0x600000 + j) / 64) := by
      have : hostBase / 64 = 2 ^ 46 := by decide
      omega
    simp [isHostLine, this]
  have h2 : (dirOf st ((0x600000 + j) / 64)).state = .untracked := by rw [dirOf, hd]; rfl
  have h3 : lineData st.mem ((0x600000 + j) / 64) = 0 := by
    rw [lineData, memNat, bytes_above st.mem hm 64 _ (by omega)]
    rfl
  have h4 : latestData st ((0x600000 + j) / 64) = 0 := by rw [latestData, h1, h2]; exact h3
  simp only [latestBytes, List.range_one, List.map_cons, List.map_nil, Nat.add_zero, h4, lineNat]
  rw [show (0 : BitVec 512).toNat = 0 from rfl, Nat.zero_div, Nat.zero_mod]
  rfl

theorem test_witness_image_page : ∀ s ∈ [sealing 0, sealing 1, startable], ∀ q ∈ [Requester.sealEngine, .reader],
    (readVirtual s 0 q 0x400040 64 = some (List.replicate 64 0)) ∧ readVirtual s 0 q 0x400000 0x500 = some (List.replicate 0x500 0) := by
  have key : ∀ s ∈ [sealing 0, sealing 1, startable], s.store.walks = [{ asid := 0, level := 3, base := 2, table := 0x500000 }] ∧
      (dirOf s.store (0x500000 / 64)).poison = false ∧ latestNat s.store 0x500000 8 = 0x60001F ∧ badEntry s.dev 0x60001F#64 3 = false ∧
      badLeafFrame s.dev 0x60001F#64 3 = false ∧ s.store.dirs = [] ∧ ∀ e ∈ s.store.mem, e.1 < 0x600000 := by decide +kernel
  intro s hs q hq
  obtain ⟨hw, hp, he, hb, hf, hd, hm⟩ := key s hs
  have hperm : ∀ q ∈ [Requester.sealEngine, .reader], permits q 0x60001F#64 = true := by decide
  have hwalk := walk_in_page s q hw hp he hb hf (hperm q hq)
  have hread := read_in_page s q hwalk (zero_bytes s.store hd hm)
  exact ⟨hread 64 64 (by decide), hread 0x500 0 (by decide)⟩

theorem test_witness_image_read : (readImage (sealing 0) 0 0x400000).isSome = true ∧ hostKeeps (sealing 0) (imageLines (sealing 0) 0 0x400000) = [] ∧
    readVirtual (sealing 1) 0 .sealEngine 0x400040 64 = some (List.replicate 64 0) ∧
    (sealedOf startable 0 0x400000) = some 3 := by
  have h0 := (test_witness_image_page (sealing 0) (.head _) .sealEngine (.head _)).2
  have h1 := (test_witness_image_page (sealing 1) (.tail _ (.head _)) .sealEngine (.head _)).1
  have h2 := (test_witness_image_page startable (.tail _ (.tail _ (.head _))) .reader (.tail _ (.head _))).1
  have hs : (headerSegments (List.replicate 0x500 0)).filter (fun x => x.kind == 1 || x.kind == 2) = [] := by decide +kernel
  refine ⟨?_, ?_, h1, ?_⟩
  · rw [readImage, h0]
    simp only [hs]
    rfl
  · rw [imageLines, imageSegments, h0]
    simp only [hs]
    rfl
  · rw [sealedOf, show (0x400000 + 0x40 : Nat) = 0x400040 from rfl, h2]
    decide +kernel

/-- Nothing is wrong with bytes of that page. -/
theorem no_troubles (s : State) (q : Requester)
    (hw : ∀ j < 4096, (walkTables s 0 (0x400000 + j) q).1 = .found (0x600000 + j) .gddr 3 0x60001F#64)
    (hp : ∀ line, (dirOf s.store line).poison = false) :
    ∀ n j, j + n ≤ 0x500 → readTroubles s 0 q (0x400000 + j) n = []
  | 0, _, _ => rfl
  | n + 1, j, h => by
    have hr := no_troubles s q hw hp n (j + 1) (by omega)
    have hlt : 0x400000 + j < 2 ^ 48 := by omega
    rw [readTroubles, if_pos hlt, hw j (by omega)]
    simp only [Nat.add_assoc] at hr ⊢
    simp [hp, hr]

theorem test_witness_image_troubles :
    headerWritable (logTroubles (imageTroubles (sealing 0) 0 0x400000) (sealing 0)) 0 0x400000 = true ∧
    (let w := logTroubles (readTroubles (sealing 1) 0 .sealEngine 0x400040 64) (sealing 1)
     (w.dev.images.find? fun e => e.2.digest == List.replicate 64 0).isSome = true ∧ imageInUse w 3 = false) ∧
    ((base.mapDev fun d => { d with images := [] }).dev.images.find? fun e => e.2.digest == List.replicate 64 0) = none := by
  have key : ∀ s ∈ [sealing 0, sealing 1], s.store.walks = [{ asid := 0, level := 3, base := 2, table := 0x500000 }] ∧
      (dirOf s.store (0x500000 / 64)).poison = false ∧ latestNat s.store 0x500000 8 = 0x60001F ∧ badEntry s.dev 0x60001F#64 3 = false ∧
      badLeafFrame s.dev 0x60001F#64 3 = false ∧ s.store.dirs = [] := by decide +kernel
  have none' : ∀ s ∈ [sealing 0, sealing 1], ∀ n j, j + n ≤ 0x500 → readTroubles s 0 .sealEngine (0x400000 + j) n = [] := by
    intro s hs
    obtain ⟨hw, hp, he, hb, hf, hd⟩ := key s hs
    exact no_troubles s _ (walk_in_page s _ hw hp he hb hf (by decide)) fun line => by rw [dirOf, hd]; rfl
  have h0 := none' (sealing 0) (.head _) 0x500 0 (by decide)
  have h1 := none' (sealing 1) (.tail _ (.head _)) 64 64 (by decide)
  have hs : (headerSegments (List.replicate 0x500 0)).filter (fun x => x.kind == 1 || x.kind == 2) = [] := by decide +kernel
  have hi : imageTroubles (sealing 0) 0 0x400000 = [] := by
    have hr := (test_witness_image_page (sealing 0) (.head _) .sealEngine (.head _)).2
    rw [imageTroubles, imageSegments, hr]
    simp only [hs, List.map_nil, List.flatten_nil, List.append_nil]
    exact h0
  rw [hi, show (0x400040 : Nat) = 0x400000 + 64 from rfl, h1]
  exact ⟨by decide +kernel, by decide +kernel, by decide +kernel⟩

/-- The header of an image of one code segment of one bundle, and that image with a word in slot 0. -/
def goodHeader : List Byte :=
  leBytes 8 0x5A5553414C494D31 ++ leBytes 4 0x520 ++ leBytes 2 1 ++ leBytes 2 0 ++ leBytes 4 0x500 ++ List.replicate 0xEC 0 ++
    leBytes 4 1 ++ leBytes 4 0x500 ++ leBytes 4 32 ++ List.replicate 0x3F4 0

/-- That image. -/
def smallImage (w : W32) : RawImage :=
  { header := goodHeader, parts := [({ kind := 1, off := 0x500, size := 32 }, leBytes 4 w.toNat ++ List.replicate 28 0)] }

theorem test_witness_verdicts : goodHeader.length = 0x500 ∧ headerCodes goodHeader 32 = [] ∧ headerCodes goodHeader 31 = [.sealedMemoryFull] ∧
    (∀ x ∈ (smallImage (encode .ret)).code.map fun p => segmentCode (insideCode (headerSegments goodHeader)) p.1.off (bundlesOf p.2), x = none) ∧
    ((smallImage 0).code.map fun p => segmentCode (insideCode (headerSegments goodHeader)) p.1.off (bundlesOf p.2)) = [some (40, .fallThrough)] := by
  decide +kernel

-- R38, R39, R40: an accepted image; one whose last bundle falls through, at bundle 40; a header of zeros
theorem test_verdicts : verdict (smallImage (encode .ret)) 32 = (0, 0) ∧ verdict (smallImage 0) 32 = (29, 40) ∧
    verdict { header := List.replicate 0x500 0, parts := [] } 32 = (21, 0xFFFFFFFF) := by decide +kernel

theorem test_witness_slot_codes : let hold := rawBundle [0, 0, 0, 0, encode (.hold 0 0 0 0 2), 0, 0, 0]
    let stop := rawBundle [encode .ret, 0, 0, 0, 0, 0, 0, 0]
    let bs := [hold, hold, stop]
    (bs.length = 3 ∧ hold.holds = 2 ∧ 0 < 1 ∧ 1 ≤ 0 + hold.holds ∧ bs.length ≤ 1 + hold.holds ∧ stop.barred = true) ∧
    branchTarget 0 (encode (.br 1)) = some 32 ∧ hold.closes = false ∧
    (bundleCode (fun _ => true) 0 bs 0 hold = some .holdWindow ∧ bundleCode (fun _ => true) 0 bs 2 stop = none) ∧
    (match (rawBundle [0xFC000000, 0, 0, 0, 0, 0, 0, 0]).slots[0]? with | some (.error .unassignedMajor) => true | _ => false) = true := by
  decide +kernel

theorem test_witness_device_lines : let s := stored [(0x11000, 8, 1)] (base.mapDev fun d => { d with attestWake := true })
    (s.dev.attestWake = true ∧ hostKeeps s [dcbLine s 0x1000] = [] ∧ dcbNat s 0x1000 8 ≠ s.dev.attestSeen) ∧
    hostKeeps (hostOwning (0x11000 / 64) s) [dcbLine s 0x1000] ≠ [] ∧ (let t := base.mapDev fun d => { d with attestWake := true }
      t.dev.attestWake = true ∧ dcbNat t 0x1000 8 = t.dev.attestSeen) ∧
    (let t : State := { base with refHalf := 130000 }
     t.dev.beatAge + 130000 ≤ t.refHalf ∧ t.dev.up = true ∧ hostKeeps t [dcbLine t 0xC0] = [] ∧
       hostKeeps (hostOwning (0x100C0 / 64) t) [dcbLine t 0xC0] ≠ []) ∧
    (let t : State := { base with refHalf := 1300000 }
     t.dev.boot = 1 ∧ t.dev.hostSilent = false ∧ t.dev.hostAge + 1300000 ≤ t.refHalf) := by decide +kernel

theorem test_witness_fabric :
    let s := base.mapCont 0 fun c => { c with launch := { c.launch with pack := 7 } }
    packCont s 7 = some 0 ∧ packCont s 8 = none ∧ peerRank s 0 0 0 = some 0 ∧ objectInWindow s 0 0xFFF0 = true ∧ s.windowHw 0 0 = some 0 ∧
    ({ s with ctxs := [] } : State).windowHw 0 0 = none ∧ s.dev.up = true ∧ s.dev.fabricIn = [] ∧ s.dev.breaksAccess 0x400000 64 = false ∧
    s.dev.breaksAccess 128000000000 8 = true ∧ 0x400000 + 64 < hostBase ∧ hostHolds s 0x400000 64 = [] ∧ (s.core 0).pause = 0 ∧
    (s.core 0).pause ≠ 3 ∧ ((s.mapCore 0 fun k => { k with pause := 3 }).core 0).pause ≠ 0 ∧ portFree (waitsFor (.peer 2) 0 s) (.peer 2) 0 [0x400] = true ∧
    portFree s (.peer 2) 0 [0x400] = false ∧ (s.dev.conts.all fun e => e.2.launch.pack != 8) = true ∧
    stagingRoom (s.mapCore 0 fun k => { k with pause := 3, staging := [{ addr := 0, data := List.replicate 16384 0 }] }) 0 1 = false ∧
    s.refusedAt { src := 2, packId := 7, core := 0, pos := 0, barrier := 0x400 } = { object := { src := 2, packId := 7, core := 0, pos := 0, barrier := 0x400 }, unnamed := 0, named := 0 } ∧
    (inOneLine 0x400038 8 = true ∧ s.dev.breaksAccess 0x400038 8 = false ∧ isHostLine (0x400038 / 64) = false ∧
      (serveAtomic s.store (0x400038 / 64) (0x400038 % 64) 8 0 .add 1 0).isSome = true) := by decide +kernel

/-- A signal of device 2 that counts at an object of continuation 0, or tells of its members at a `pbar 3`. -/
def peerSignal (nth bytes : Nat) (fault : Option Nat) : BarrierSignal :=
  { src := 2, packId := 7, level3 := { nth := nth, pack3 := 1, gear := none, drop := false, phase := .arrived }, core := 0, pos := 0, barrier := 0x400,
    bytes := bytes, fault := fault }

/-- Continuation 0 in pack 7, a message of device 2 that waits for a window. -/
def peerWaits : State := (base.mapCont 0 fun c => { c with launch := { c.launch with pack := 7 } }).mapDev fun d => { d with fabricIn := [.signal (peerSignal 0 64 none)] }

theorem test_witness_fabric_order : let s := { peerWaits with ctxs := [] }
    s.dev.up = true ∧ s.dev.fabricIn = [.signal (peerSignal 0 64 none)] ∧
    (FabricMsg.serve (.signal (peerSignal 0 64 none)) { leaveIdle s with dev := { (leaveIdle s).dev with fabricIn := [] } }).1 = false ∧
    FabricMsg.src (.answer { src := 2, cont := 0, rank := 0, age := 0, error := false, old := 5 }) = FabricMsg.src (.signal (peerSignal 0 64 none)) := by
  decide +kernel

theorem test_witness_early : let s := base.mapCont 0 fun c => { c with state := .done, launch := { c.launch with pack := 7 } }
    packCont s 7 = none ∧ keepsEarly s (peerSignal 1 0 none) = true ∧ keepsEarly s (peerSignal 2 0 none) = false ∧
    keepsEarly base (peerSignal 2 0 none) = true ∧ (∀ e ∈ base.dev.conts, e.2.launch.pack ≠ 7) := by decide +kernel

-- R182, R183: of 64 bytes that a signal names 16 were refused; the fault's signal, of bytes never sent, adds those; each is acknowledged
theorem test_peer_counts : let o : PeerObject := { src := 2, packId := 7, core := 0, pos := 0, barrier := 0x400 }
    let s := waitsFor (.peer 2) 0 ((stored [] peerWaits).mapDev fun d => { d with refused := [{ object := o, unnamed := 16, named := 0 }] })
    let t := (peerCount 0 (peerSignal 0 64 none) s).2
    let u := (peerCount 0 (peerSignal 0 32 (some 1)) (waitsFor (.peer 2) 0 (taken 1 t))).2
    scratchWord t.store 0 0x404 = 48 ∧ t.refusedAt o = { object := o, unnamed := 0, named := 16 } ∧ scratchWord u.store 0 0x404 = 96 ∧
    u.dev.refused = [] ∧ u.dev.outputs.contains (.acknowledge 2 7 0 0 0x400 32) = true := by decide +kernel

/-! The distributor and power. -/

/-- `base` at a time, with its continuation changed. -/
def at' (t : Nat) (f : Cont → Cont) : State := { base.mapCont 0 f with refHalf := t }

theorem test_witness_distributor :
    (let s := at' 650000 fun c => { c with state := .queued, boost := 1 }
     (s.cont 0).state = .queued ∧ (s.cont 0).ineligible = false ∧ (s.cont 0).boost < 2 ∧ (s.cont 0).boostAge + 650000 ≤ s.refHalf) ∧
    (let s := at' 2600000 fun c => { c with state := .queued }
     (s.cont 0).blocking = false ∧ (s.cont 0).queuedAge + 2600000 ≤ s.refHalf) ∧
    (let s := at' 260000 id
     (s.cont 0).state = .running ∧ (s.cont 0).placing = none ∧ (s.cont 0).kennel = [] ∧ (s.cont 0).residentAge + 260000 ≤ s.refHalf) ∧
    (let s := base.mapCont 0 fun c => { c with kennel := [.tile 0 0 []], kennelSaves := [{ first := 0, len := 0, digest := [] }] }
     (s.cont 0).state = .running ∧ (s.cont 0).placing = none ∧ (s.cont 0).kennel ≠ [] ∧ (∀ x ∈ (s.cont 0).seats, (s.core x.core).pause = 0) ∧
       s.dev.acts = [] ∧ hostKeeps s (kennelLines (s.cont 0)) = [] ∧ (s.mapDev fun d => { d with acts := [.write 0 [1]] }).dev.acts ≠ [] ∧
       hostKeeps (hostOwning 0x20000 s) (kennelLines { s.cont 0 with kennelSaves := [{ first := 0x800000, len := 1, digest := [] }] }) ≠ [] ∧
       ∃ x ∈ (s.cont 0).kennelSaves, sha3 (latestBytes s.store x.first x.len) ≠ x.digest) ∧
    (reportDue base 0 = true ∧ reportDue base 1 = false) := by decide +kernel

theorem test_witness_kennel_intact : ∀ x ∈ [({ first := 0, len := 0, digest := sha3 [] } : KennelSave)], sha3 (latestBytes base.store x.first x.len) = x.digest := by
  intro x hx
  obtain rfl : x = _ := List.mem_singleton.mp hx
  rfl

theorem test_witness_halts : ∀ h ∈ [HaltFor.preempt 1, .park 1, .kill (some 1), .watchdog, .rebase],
    let s := base.mapCont 0 fun c => { c with halt := some h }
    canHalt s 0 = true ∧ allDone s 0 = false ∧ allDone (s.mapCtx 0 fun c => { c with ended := some 0 }) 0 = true ∧ (s.cont 0).halt = some h ∧ unpaused s 0 = true ∧ unpaused (s.mapCore 0 fun k => { k with pause := 3 }) 0 = false ∧ ((haltAll 0 s).cont 0).state.isEnd = false ∧
    (((haltAll 0 (s.mapCont 0 fun c => { c with state := .killed })).cont 0).state.isEnd = true) := by decide +kernel

theorem test_witness_watchdog :
    (let s := base.mapCont 0 fun c => { c with clock := 260000000 }
     (s.cont 0).state = .running ∧ (s.cont 0).stage = 0 ∧ (s.cont 0).halt = none ∧
       (∀ h ∈ [HaltFor.rebase, .preempt 2, .park 3, .kill none], ((s.mapCont 0 fun c => { c with halt := some h }).cont 0).halt = some h) ∧
       2600 * (if (s.cont 0).launch.watchdog = 0 then 100000 else (s.cont 0).launch.watchdog) ≤ (s.cont 0).clock) ∧
    (let s := at' 52000 fun c => { c with stage := 1, halt := some .watchdog }
     (s.cont 0).stage = 1 ∧ (s.cont 0).halt = some .watchdog ∧ (s.cont 0).stageAge + 52000 ≤ s.refHalf ∧ (Sparse.find s.ctxs 0).isSome = true ∧
       stillRuns s 0 0 = false ∧ stillRuns (waiting (fun w => { w with hold := some { banks := [0], left := 1, cycles := 3, entries := 0 } }) s) 0 0 = true ∧
       canHalt (waiting (fun w => { w with hold := some { banks := [0], left := 1, cycles := 3, entries := 0 } }) s) 0 = false) ∧
    (let s := at' 260000 fun c => { c with stage := 2, halt := some .watchdog }
     (s.cont 0).stage = 2 ∧ (s.cont 0).stageAge + 260000 ≤ s.refHalf ∧ unpaused s 0 = true ∧ ∃ x ∈ (s.cont 0).seats, x.core = 0) := by
  refine ⟨by decide +kernel, by decide +kernel, by decide +kernel⟩

-- R147: what a window in the kennel carries is lowered with every other timestamp
theorem test_kennel_rebase : let s := (onCtx fun c => { c with pts := 11 }).mapCont 0 fun c => { c with kennel := [.window 0 0 [] [] [] [(4, (25, 12)), (6, (5, 0))]] }
    ((shiftTimes 10 s).cont 0).kennel = [.window 0 0 [] [] [] [(4, (15, 2))]] := by decide +kernel

theorem test_witness_rebase : let s := base.mapDev fun d => { d with largest := 2 ^ 47 + 1 }
    let t := ((onCtx fun c => { c with halted := true }).mapCont 0 fun c => { c with halt := some .rebase }).mapDev fun d => { d with rebase := true }
    (s.dev.rebase = false ∧ 2 ^ 47 < topTimestamp s ∧ Sparse.risingFrom none s.dev.conts = true) ∧
    (t.dev.rebase = true ∧ ∀ e ∈ t.dev.conts, e.2.state = .running → (t.cont e.1).halt = some .rebase ∧ canHalt t e.1 = true ∧
      ∀ x ∈ t.ctxs, x.2.cont = e.1 → x.2.halted = true) ∧ (Sparse.find base.ctxs 0).isSome = true := by decide +kernel

/-- Only core 0 in service: continuation 0 holds all of its window in a state, with a kennel slot; continuation 1, of higher priority,
waits for as much. -/
def crowded (st : ContState) (contexts : Nat) (reserved : List (Nat × Nat × Room)) : State :=
  let s := base.mapDev fun d => { d with conts :=
    [(0, { oneCont with state := st, launch := { oneLaunch with winLog := 21 } }),
     (1, { Cont.idle 0x310000 with state := .queued, reserved := reserved, launch := { oneLaunch with winLog := 21, priority := 2, contexts := contexts } })] }
  stored [(0x300400, 8, 0x800000), (0x300408, 8, 0x400000)]
    { s with cores := (List.range 255).map fun c => (c + 1, { Core.atReset with fenced := true }) }

theorem test_witness_placement :
    (let s := crowded .idle 1 []
     waitingOrder s = [1] ∧ (tryPlace 1 [] { s with dev := { s.dev with conts := s.dev.conts.drop 1 } }).isSome = true ∧ (s.cont 1).seats = [] ∧
       kennelKept s = [] ∧ waitingOrder (hostOwning (0x310400 / 64) s) ≠ [] ∧ kennelKept (hostOwning (0x310400 / 64) s) = [0x310400 / 64]) ∧
    (let s := crowded .parked 1 []
     evictable s 0 = true ∧ takeable s 1 = [0] ∧ (tryPlace 1 [] s).isNone = true ∧ (tryPlace 1 (takeable s 1) s).isSome = true ∧
       canReturn s 0 [] = true ∧ (s.cont 0).seats ≠ []) ∧
    (let s := crowded .running 1 []
     victims s 1 = [0] ∧ (∀ e ∈ s.dev.conts, e.2.halt ≠ some (.preempt 1)) ∧ (tryPlace 1 [] s).isNone = true ∧ Sparse.risingFrom none s.dev.conts = true ∧
       (tryPlace 1 (takeable s 1) s).isNone = true ∧ (preempt 1 s).isSome = true ∧
       (fitGang s 1 (s.cont 1).launch (takeable s 1 ++ (victims s 1).take 1)).isSome = true ∧ canReturn s 1 [] = false) ∧
    (let s := crowded .running 2 []
     (tryPlace 1 [] s).isNone = true ∧ (tryPlace 1 (takeable s 1) s).isNone = true ∧ (preempt 1 s).isNone = true ∧
       ((s.mapCont 1 fun c => { c with blocking := true }).cont 1).blocking = true ∧
       (fitGang s 1 (s.cont 1).launch (takeable s 1 ++ (victims s 1).take 1)).isNone = true) ∧
    (let room : Room := { positions := [1], windows := [(0, 65536)], tiles := [2] }
     let s := crowded .running 1 [(0, 0, room)]
     (0, 0, room) ∈ (s.cont 1).reserved ∧ (heldOn s 2 [] 0).positions = [0, 1] ∧ (heldOn s 1 [] 0).positions = [0] ∧
       (heldOn s 2 [0, 1] 0).positions = [1]) ∧
    (∃ e ∈ (base.mapCont 0 fun c => { c with halt := some (.preempt 1) }).dev.conts, e.2.halt = some (.preempt 1)) := by decide +kernel

-- R227: the lowest positions, windows and tiles that are free: position 0, bank 0 and tile 0 are taken, position 2 and tile 1 reserved for another
theorem test_lowest_room : let s := base.mapCont 0 fun c => { c with reserved := [(9, 0, { positions := [2], windows := [], tiles := [1] })] }
    (seatOn s 5 { oneLaunch with contexts := 2, perCore := 2, tiles := 1 } [] 0).map (fun x => (x.positions, x.bases, x.tiles)) =
      some ([1, 3], [65536, 131072], [[2], [3]]) := by decide +kernel

-- R230, R377: the room of a victim is reserved for the one that it makes room for
theorem test_preempt_reserves : ((preempt 1 (crowded .running 1 [])).any fun t => (t.cont 0).halt == some (.preempt 1) &&
    (t.cont 1).reserved.map (fun x => (x.1, x.2.1, x.2.2.positions)) == [(0, 0, [0])]) = true := by decide +kernel

theorem test_witness_saves : (let s := base.mapCont 0 fun c => { c with placing := some true }
      savesReady s 0 = true ∧ (s.cont 0).placing = some true ∧ savesReady (s.mapCore 0 fun k => { k with pause := 3 }) 0 = false ∧
      (∀ x ∈ (s.cont 0).seats, (s.core x.core).pause = 0) ∧ savesDue s 0 = []) ∧
    ((base.mapCont 0 fun c => { c with placing := some false }).cont 0).placing = some false := by decide +kernel

theorem test_witness_gears : let s := onCtx fun c => { c with gearReq := true }
    ((s.core 0).settling = none ∧ targetRun s 0 ≠ (s.core 0).run) ∧
    (let k := (base.mapCore 0 fun k => { k with settling := some true, issued := false, cycleLeft := 5 }).core 0
     k.settling.isSome = true ∧ k.pause = 0 ∧ k.issued = false ∧ k.cycleLeft = (if k.run then 2 else 5) * (if k.long then 2 else 1)) ∧
    (let k := (base.mapCore 0 fun k => { k with settling := some true, pause := 1 }).core 0
     k.settling = some true ∧ k.pause = 1 ∧ k.barkOwed = false) := by decide +kernel

theorem test_witness_energy :
    (let s := base.mapCore 0 fun k => { k with windowCycle := 256 }
     256 ≤ (s.core 0).windowCycle ∧ ∀ e ∈ s.ctxs, e.1 / 4 = 0 → e.2.energy.windows < 16) ∧
    (let s := base.mapCore 0 fun k => { k with sum := 21846 }
     (s.core 0).pastGrant = true ∧ s.coreHeld 0 = false) ∧
    (let s := onCtx fun c => { c with energy := { c.energy with windows := 16, quiet := 64, declared := 6, measured := 8 } }
     (Sparse.find s.ctxs 0).isSome = true ∧ 16 ≤ (s.ctx 0).energy.windows ∧ 64 ≤ (s.ctx 0).energy.quiet ∧
       (onCtx fun c => { c with energy := { c.energy with windows := 15, quiet := 64 } }).here.energy.windows < 16) ∧
    (let s : State := { base with refHalf := 2600 }
     (s.die 3).leashAge + 2600 ≤ s.refHalf ∧ ¬ (s.refHalf < s.dev.tokenAge + 2600) ∧ base.refHalf < base.dev.tokenAge + 2600 ∧ s.dev.tokenAge + 2600 ≤ s.refHalf ∧ (Sparse.find s.cores 0).isSome = true) := by decide +kernel

theorem test_witness_barks : (blanked base 3 3 true = false ∧ blanked (base.mapDev fun d => { d with blank := [(31, 2)] }) 3 3 true = true ∧
    (base.core 0).run = false ∧ (base.core 0).gated = false ∧ (base.core 0).pause = 0) ∧
    ((base.mapCore 0 fun k => { k with halve := 1 }).core 0).halve = 1 ∧ Sparse.get 0 base.dev.blank (detector 0 0 false) ≠ 1 := by decide +kernel

theorem test_witness_idle :
    (let s : State := { stored [(0x10028, 4, 2)] State.reset with refHalf := 26000, dev := { State.reset.dev with idleAge := 5200 } }
     s.dev.idle = 0 ∧ 1 = deepestIdle s ∧ packageIdle s = true ∧ 2600 * resumeTime 1 ≤ s.dev.idleAge ∧
       hostKeeps s [(s.dev.dcb + 0x28) / 64] = [] ∧ hostKeeps (hostOwning (0x10028 / 64) s) [(s.dev.dcb + 0x28) / 64] ≠ [] ∧
       packageIdle (hostOwning (0x10028 / 64) s) = true) ∧
    (base.mapDev fun d => { d with idle := 3 }).dev.idle ≠ 0 ∧
    (let s := onCtx fun c => { c with runCycles := 4096 }
     4096 ≤ (s.ctx 0).runCycles ∧ (Sparse.find s.ctxs 0).isSome = true ∧ s.coreHeld 0 = false) := by decide +kernel
/-! ### Single steps, their results computed by hand from the rules named -/

/-- What an instruction of `s` leaves to land: issue-cycles later, and effect. -/
def landings (i : Instr) (s : State) : List (Nat × Effect) :=
  match exec i s with
  | .next t => t.here.work.landing.map fun p => (p.due - s.here.count, p.eff)
  | _ => []

/-- The fault that an instruction takes, and the address it names. -/
def faultOf (i : Instr) (s : State) : Option (FaultClass × Nat) :=
  match exec i s with
  | .next t => match t.signal with | .fault cls a => some (cls, a) | _ => none
  | _ => none

-- R57, R271: 2^31 − 1 + 1 in the 32-bit form is −2^31, sign-extended
theorem test_add_word_wraps : landings (.add 5 1 2 true) (withG [(1, 0x7FFFFFFF), (2, 1)]) = [(1, .g 5 0xFFFFFFFF80000000)] := by decide +kernel

-- R317: the high half of −2^63 · −2^63 = 2^126
theorem test_mulh_signed : landings (.mulh 5 1 1 false) (withG [(1, 0x8000000000000000)]) = [(3, .g 5 0x4000000000000000)] := by decide +kernel

-- R293, R331: division by zero, and −2^31 / −1 in the 32-bit form
theorem test_division_corners :
    after (exec (.div 5 1 0 false) (withG [(1, 7)])) (fun t => t.here.work.delivers.map (·.value) == [[BitVec.allOnes 64]]) = true ∧
    after (exec (.rem 5 1 0 false) (withG [(1, 7)])) (fun t => t.here.work.delivers.map (·.value) == [[7]]) = true ∧
    after (exec (.div 5 1 2 true) (withG [(1, 0x80000000), (2, -1)])) (fun t => t.here.work.delivers.map (·.value) == [[0xFFFFFFFF80000000]]) =
      true := by decide +kernel

-- R342: a count of 33 in the 32-bit form is 1; an arithmetic shift keeps the sign
theorem test_shift_counts : landings (.shl 5 1 2 true) (withG [(1, 1), (2, 33)]) = [(1, .g 5 2)] ∧
    landings (.sra 5 1 2 false) (withG [(1, -8), (2, 65)]) = [(1, .g 5 (-4))] ∧
    landings (.shr 5 1 2 false) (withG [(1, -1), (2, 127)]) = [(1, .g 5 1)] := by decide +kernel

-- R289: −1 is below 1 as a signed number and above it as a plain one
theorem test_compare_signs : landings (.cmp 3 1 2 false .lt) (withG [(1, -1), (2, 1)]) = [(1, .q 8 8)] ∧
    landings (.cmp 3 1 2 false .ltn) (withG [(1, -1), (2, 1)]) = [(1, .q 8 0)] := by decide +kernel

-- R288, R312, R307, R32
theorem test_counts_and_zero : landings (.clz 5 0) base = [(1, .g 5 64)] ∧ landings (.mfirst 5 2) base = [(1, .g 5 64)] ∧
    landings (.mpop 5 0) base = [(1, .g 5 64)] ∧ landings (.lih 5 0xFFFFF) (withG [(5, 1)]) = [(1, .g 5 0x1FFFFF)] ∧
    (base.here.applyEffect 0 0 (.g 0 9)).regs.readG 0 = 0 := by decide +kernel

-- R34: a trip count of 2^40 saturates; the last turn of a loop with epilogue
theorem test_loop_counts : landings (.lsetup 1 3 true) (withG [(1, 0x10000000000)]) =
      [(1, .lc 0xFFFFFFFE), (1, .ec 0x83), (1, .q 0xFF 1)] ∧
    landings (.loop (-1)) (onCtx fun c => { c with regs := { c.regs with ec := 0x82, q := 0x81 } }) =
      [(1, .rb 31), (1, .lc 0), (1, .ec 0x81), (1, .q 0xFF 2)] := by decide +kernel

-- R372, R298, R332: faults of a value with undefined bits, of a record, of a target
theorem test_precise_faults : faultOf (.wrsr 1 .rb) (withG [(1, 32)]) = some (.badValue, 0) ∧
    faultOf (.wrsr 1 .image) base = some (.privilegedRegister, 0) ∧ faultOf (.fmtsetReg 0 1) (withG [(1, 0x4000)]) = some (.badFormat, 0) ∧
    faultOf (.jr 0 1) (withG [(1, 0x400004)]) = some (.badTarget, 0) ∧ faultOf (.lds 5 1 0) (withG [(1, 65536)]) = some (.window, 65536) ∧
    faultOf (.ld 5 1 false 0 .wt) (withG [(1, 0x1004)]) = some (.badValue, 0x1004) := by decide +kernel

-- R96, R205: the context parks with the fault; FAULTED with cause 2, for the class is beyond repair
theorem test_precise_fault_taken : after (exec (.jr 0 1) (withG [(1, 4)])) (fun t =>
    (t.ctx 0).fault.isSome && decide ((t.cont 0).state = .faulted) && decide ((t.cont 0).cause = 2) && decide ((t.cont 0).faults = 1)) = true := by
  decide +kernel

-- R346, R305: a word stored and read back
theorem test_scratch_word : after (exec (.sts 5 1 (-1)) (withG [(1, 8), (5, 0x123456789)])) (fun t =>
    scratchWord t.store 0 4 == 0x23456789 && scratchWord t.store 0 8 == 0) = true ∧
    landings (.lds 5 1 0) ((withG [(1, 4)]).mapStore fun st => scratchStore st 0 4 0x87654321) = [(4, .g 5 0x87654321)] := by decide +kernel

-- R112: a range of full/empty bits
theorem test_feset : after (exec (.feset 2 1 true) (withG [(1, 4), (2, 2)])) (fun t =>
    !isFull t.store 0 0 && isFull t.store 0 4 && isFull t.store 0 8 && !isFull t.store 0 12) = true := by decide +kernel

/-- `base` with the vector registers `v1` and `v2` constant. -/
def vecs (x y : W32) : State := withRegs fun r => { r with v := [(1, List.replicate 64 x), (2, List.replicate 64 y)], m := [(1, 1)] }

/-- What of a vector result lands in lane 0, with the flags it raises. -/
def lane0 (i : Instr) (s : State) : List (Nat × W32 × BitVec 5) :=
  (landings i s).map fun e => match e.2 with
    | .v _ _ x => (e.1, x.getD 0 0, 0)
    | .raise f => (e.1, 0, f)
    | _ => (e.1, 0, 31)

-- R68: 0x7F + 1 and 0xFF + 1 in bytes; signed and plain least
theorem test_vector_bytes : lane0 (.vadd 5 1 (.vec 2) 0 .i8) (vecs 0xFF7F0001 0x01010101) = [(4, 0x00800102, 0)] ∧
    lane0 (.vmin 5 1 (.vec 2) 0 .i8) (vecs 0x80 0x01) = [(4, 0x80, 0)] ∧ lane0 (.vmin 5 1 (.vec 2) 0 .n8) (vecs 0x80 0x01) = [(4, 0x01, 0)] := by
  decide +kernel

-- R70, R74: 1 + 2^-24 is half way and rounds to even, inexact; the greatest number doubled overflows; ∞ − ∞ is invalid
theorem test_vector_floats : lane0 (.vadd 5 1 (.vec 2) 0 .f32) (vecs 0x3F800000 0x33800000) = [(4, 0x3F800000, 0), (4, 0, 1)] ∧
    lane0 (.vadd 5 1 (.vec 2) 0 .f32) (vecs 0x7F7FFFFF 0x7F7FFFFF) = [(4, 0x7F800000, 0), (4, 0, 5)] ∧
    lane0 (.vsub 5 1 (.vec 2) 0 .f32) (vecs 0x7F800000 0x7F800000) = [(4, 0x7FC00000, 0), (4, 0, 16)] := by decide +kernel

-- R70: the product of a fused operation is not rounded: (1 + 2^-23)(1 − 2^-23) − 1 = −2^-46
theorem test_vector_fused : let s := withRegs fun r => { r with v := [(1, List.replicate 64 0x3F800001), (2, List.replicate 64 0x3F7FFFFE), (5, List.replicate 64 0xBF800000)] }
    lane0 (.vfma 5 1 (.vec 2) 0 .f32) s = [(6, 0xA8800000, 0)] := by decide +kernel

-- R72: the reciprocal of 4; the root of 2 to nearest; the logarithm of 8; 2^−1; R363: 1/0
theorem test_vector_specials : lane0 (.vrcp 5 1 0 .f32) (vecs 0x40800000 0) = [(12, 0x3E800000, 0)] ∧
    lane0 (.vsqrt 5 1 0 .f32) (vecs 0x40000000 0) = [(12, 0x3FB504F3, 0), (12, 0, 1)] ∧
    lane0 (.vlog2 5 1 0 .f32) (vecs 0x41000000 0) = [(12, 0x40400000, 0)] ∧ lane0 (.vexp2 5 1 0 .f32) (vecs 0xBF800000 0) = [(12, 0x3F000000, 0)] ∧
    lane0 (.vrcp 5 1 0 .f32) (vecs 0x80000000 0) = [(12, 0xFF800000, 0), (12, 0, 8)] := by decide +kernel

-- R80: 2.5 to an integer under each rounding; 300 to a byte wraps and saturates; f32 to bf16
theorem test_conversions : (convert (.float fmtF32 true) (.int true 32) .rne false 0x40200000).1 = 2 ∧
    (convert (.float fmtF32 true) (.int true 32) .ru false 0x40200000).1 = 3 ∧ (convert (.int true 32) (.int false 8) .rne false 300).1 = 44 ∧
    (convert (.int true 32) (.int false 8) .rne true 300).1 = 255 ∧ (convert (.float fmtF32 true) (.float fmtBf16 true) .rne false 0x3F80C000).1 = 0x3F81 := by
  decide +kernel

-- R361: 1·2 + (−1)·2 + 127·2 + (−128)·2 + 0 = −2
theorem test_dot_of_bytes : lane0 (.vdot4 5 1 (.vec 2) 0 .i8) (vecs 0x807FFF01 0x02020202) = [(6, 0xC0000000, 0)] := by decide +kernel

-- R359, R362, R357
theorem test_vector_masks : (match landings (.vcmp .lt 2 1 (.vec 2) 1 .i32) (vecs (-1) 1) with | [(4, .m 2 k x)] => k == 1 && x.getLsbD 0 | _ => false) = true ∧
    landings (.vred .max 1 1 1 .i32) (vecs 7 0) = [(10, .ps 1 .max .i32 7)] := by decide +kernel

-- R65: signed and plain greatest; compare and swap
theorem test_atomics : atomicFn .max 32 0xFFFFFFFF 1 0 = 1 ∧ atomicFn .maxU 32 0xFFFFFFFF 1 0 = 0xFFFFFFFF ∧ atomicFn .cas 64 5 9 5 = 9 ∧
    atomicFn .cas 64 5 9 6 = 5 ∧ atomicFn .add 32 0xFFFFFFFF 1 0 = 0 := by decide

-- R169: base 0x1000, 64 bytes, `f32` sums
theorem test_crng_word : landings (.crng 0 1 2 .f32 .add) (withG [(1, 0x1000), (2, 64)]) = [(1, .crng 0 0x1001)] := by decide +kernel

-- R186: the last byte of a phase flips it and clears the counts
theorem test_barrier_flip : countWords 64 32 0 0 32 false = (0, 0, 1) ∧ countWords 64 32 0x10000 0 32 false = (64, 0x10000, 0) := by decide +kernel

-- R144: a load reads at the line's timestamp and renews its lease; a store goes past every lease
theorem test_timestamps : loadStep 5 7 10 32 = (7, 39) ∧ storeStep 5 39 = 40 ∧ storeStep 50 39 = 50 := by decide

-- R142, R144: a store performs at its home and the line holds its data
theorem test_store_performs : after (exec (.homeStoreRequest 0) (inFlight (nextOp .store .wt .gddr 0x10000 false))) (fun t =>
    memNat t.store.mem 0x400008 8 == 5 && decide ((t.ctx 0).pts = 1) && decide ((dirOf t.store 0x10000).wts = 1)) = true := by decide +kernel

-- R352, R222: a trap's code, and the mark of `brk`
theorem test_trap_codes : after (exec (.trap 0xFFFFF) base) (fun t => decide (t.here.call = some { code := 0xFFFFF })) = true ∧
    after (exec (.brk 1) base) (fun t => decide (t.here.call = some { code := 0x80000001 })) = true := by decide +kernel

-- R99, R205: the return from a fault takes the replay list back
theorem test_return_from_fault : let c := { base.here with fault := some (preciseInfo 0 0 .translation 0 base), work := { Work.empty with replay := [oldLoad] } }
    (c.resume 9).fault = none ∧ (c.resume 9).work.memOps = [{ oldLoad with cycle := 9 }] ∧ (c.resume 9).work.replay = [] := by decide +kernel

-- R24, R26: a bundle that only holds an `addi` advances the pc by 32, the count by 1, and its result lands with the next
theorem test_step_addi : after (step (State.reset.withFetchWord 32 0x08927FE0)) (fun t => decide ((t.ctx 0).pc = 0x400020) && decide ((t.ctx 0).count = 1) &&
    decide ((t.ctx 0).retired = 1)) = true := by decide +kernel

/-- R173: an error in an entry of a die's directory drops the copies of that die alone, and its dirty data goes home. -/
theorem test_die_directory_error :
    let line := 0x10000
    let dirty : Copy := { state := .modified, data := 5, mask := 0xFFFF, wts := 3, rts := 3 }
    let s := base.mapStore fun st => putCopy (setDir st line { DirEntry.clear with state := .owned 1 }) 70 line dirty
    ∃ t, exec (.directoryError (some 1) line none false) s = .next t ∧ copiesOf t.store line = [] ∧
      (dirOf t.store line).state = .untracked ∧ memRead t.store.mem (64 * line) = 5 := by
  refine ⟨_, rfl, ?_, ?_, ?_⟩ <;> decide +kernel

/-! The ends of bundles, and what lies behind single instructions. -/

/-- A bundle of one `add` that its guard turns off, and the same with another instruction there. -/
def guarded (i : Instr) : Bundle := { one i with sched := { (one i).sched with guard := [1, 0, 0, 0, 0, 0, 0] } }

theorem test_witness_bundle_ends : ((onCtx fun c => { c with branchTo := some 0x400040 }).ctx 0).branchTo = some 0x400040 ∧ (base.ctx 0).branchTo = none ∧
    ((guarded (.jr 0 1)).sched = (guarded (.add 1 2 3 false)).sched ∧ (guarded (.jr 0 1)).slots.length = (guarded (.add 1 2 3 false)).slots.length) ∧
    (∀ k < 7, guardOn (base.ctx 0).regs.q (guarded (.add 1 2 3 false)) k = true → (guarded (.jr 0 1)).slots[k]? = (guarded (.add 1 2 3 false)).slots[k]?) ∧
    guardOn (base.ctx 0).regs.q (guarded (.jr 0 1)) 0 = false ∧ guardOn 1 (guarded (.jr 0 1)) 0 = true := by decide +kernel

-- R24, R26, R91: a taken branch to its own bundle costs 2 core cycles; R28: guarded off, it goes to the next and costs none
theorem test_branch_bundle : after (runBundle 0 (one (.br 0)) base) (fun t => decide ((t.ctx 0).pc = 0x400000) && decide ((t.ctx 0).count = 1) &&
      decide ((t.ctx 0).stallLeft = 3)) = true ∧
    after (runBundle 0 (guarded (.br 0)) base) (fun t => decide ((t.ctx 0).pc = 0x400020) && decide ((t.ctx 0).stallLeft = 1)) = true := by decide +kernel

-- R26, R117: a result of a bundle with a stall of 3 lands when its cycle has come, not at issue
theorem test_stalled_landing : let b : Bundle := { one (.add 5 1 0 false) with sched := { (one .nop).sched with stall := 3 } }
    after (runBundle 0 b (withG [(1, 7)])) (fun t => decide ((t.ctx 0).count = 4) && decide ((t.ctx 0).stallLeft = 4)) = true := by decide +kernel

theorem test_witness_host_clean : Sparse.risingFrom none hostCopies.store.copies = true ∧ (0 : Nat) < 256 ∧ (264 : Nat) < 512 ∧
    copyAt (dropHostClean hostCopies.store 0) 0 (hostBase / 64) = none ∧ (copyAt (dropHostClean hostCopies.store 1) 1 (hostBase / 64)).isSome = true ∧
    (copyAt (dropHostClean hostCopies.store 1) 0 (hostBase / 64)).isSome = true := by decide +kernel

theorem test_witness_call_lines : isDcbLine ((base.cont 0).block / 64 + 3) = false ∧ isDcbLine ((base.cont 0).block / 64 + 1) = false ∧ base.dev.acts = [] ∧
    hostHolds base ((base.cont 0).block + 0xC0) 64 = [] ∧ hostHolds base ((base.cont 0).block + 0x40) 64 = [] ∧ unpaused base 0 = true := by decide +kernel

theorem test_witness_dot_specials : let T := elemNumTy base.here.regs.readNf .bf16
    let e := fun (x : W32) => T.decode (laneElem .bf16 x 0)
    (e 0x7FC0).isNaN = true ∧ e 0x7F80 = .inf false ∧ e 0xFF80 = .inf true ∧ (e 0xBF80).isNeg = true ∧ (e 0x3F80).isNeg = false ∧
    (fmtF32.decode true 0x7F800000) = .inf false ∧ (fmtF32.decode true 0x7FC00000).isNaN = true ∧ (fmtF32.decode true 0x3F800000).isNaN = false := by
  decide +kernel

-- R81: ∞ · 0; ∞ · 1 + (−∞); ∞ · 1 + 1
theorem test_dot_specials : let s := fun (x y : W32) => withRegs fun r =>
      { r with v := [(1, List.replicate 64 x), (2, List.replicate 64 y), (5, List.replicate 64 0xFF800000)], m := [(1, 1)] }
    lane0 (.vdot4 5 1 (.vec 2) 0 .bf16) (s 0x7F80 0) = [(6, 0x7FC00000, 0), (6, 0, 16)] ∧
    lane0 (.vdot4 5 1 (.vec 2) 0 .bf16) (s 0x7F80 0x3F80) = [(6, 0x7FC00000, 0), (6, 0, 16)] ∧
    lane0 (.vdot4 6 1 (.vec 2) 0 .bf16) (s 0x7F80 0x3F80) = [(6, 0x7F800000, 0)] := by decide +kernel

theorem test_witness_bad_walks : let bad := fun (w : List W64) (at' : Nat) =>
      let w0 := (w.getD 0 0).toNat
      (w0 % 16 = 1 ∨ w0 % 16 = 2) ∧ ((shapeOf w).inside at' (2 ^ walks.here.winLog) = false ∨ w0 % 16 = 2 ∧
        let l := (walks.cont walks.here.cont).launch
        ¬ (w0 / 2 ^ 8 % 2 ^ 16 < l.contexts / l.perCore ∧ w0 / 2 ^ 24 % 4 < l.perCore))
    bad (walks.here.regs.walkWords 1) 0xFF40 ∧ ¬ bad (walks.here.regs.walkWords 1) 0xFF00 ∧ bad [0x102, 0x10000100100, 0, 0] 0 ∧
    ¬ bad [0x002, 0x10000100100, 0, 0] 0 ∧ ¬ bad (walks.here.regs.walkWords 2) 0xFF40 ∧ (srcG walks 5).toNat % 16 ≠ 0 ∧
    (srcG walks 4).toNat % 16 = 0 ∧ 2 ^ 32 ≤ (srcG walks 2).toNat := by decide +kernel

/-- A prefetch of one line at 0x1000, whose gate is open. -/
def fetching (p : Policy) : State :=
  mapped (waiting (fun w => { w with prefs := [{ va := 0x1000, bytes := 8, policy := p, pts := 0, gate := 0 }] }) base)

theorem test_witness_prefetch : let s := fetching .si
    s.here.work.prefs = [{ va := 0x1000, bytes := 8, policy := .si, pts := 0, gate := 0 }] ∧ (s.ctx 0).performedBelow 0 = true ∧
    ((inFlight oldLoad).ctx 0).performedBelow 2 = false ∧
    (match translate 0 0 0x1000 .prefetch s with | (.found pa .., r) => pa == 0x400000 && !isHostLine (pa / 64) && !hostBlocks r.store (pa / 64) true &&
      (dirOf r.store (pa / 64)).state != HomeState.owned 0 | _ => false) = true ∧
    (match translate 0 0 0x1000 .prefetch base with | (.found .., _) => false | _ => true) = true ∧
    (Sparse.risingFrom none s.store.copies = true ∧ Sparse.risingFrom none s.store.dirs = true ∧ copyAt s.store 256 0x10000 = none ∧ copyAt s.store 0 0x10000 = none) ∧
    hostBlocks (hostOwning 0x10000 s).store 0x10000 true = true := by decide +kernel

-- R196: `.wi` brings a tracked copy, `.si` a leased one that ends at the lease, `.own` ownership, `.wt` none
theorem test_prefetch_copies : let at' := fun (p : Policy) => (copyAt (runPrefetches 0 (fetching p)).store 0 0x10000).map fun c => (c.state, c.rts)
    at' .wi = some (.shared, 0) ∧ at' .si = some (.leased, base.lease) ∧ (at' .own).map (·.1) = some .owned ∧ at' .wt = none ∧
    (runPrefetches 0 (fetching .si)).here.work.prefs = [] ∧ (runPrefetches 0 (hostOwning 0x10000 (fetching .own))).here.work.prefs.length = 1 := by
  decide +kernel

-- R164, R265: a store of the device to a reserved byte of its control block leaves it zero
theorem test_reserved_bytes : isReserved 0x1002C = true ∧ memRead (memPutBytes base.store.mem 0x1002C [5]) 0x1002C = 0 ∧
    memRead (memPutBytes base.store.mem 0x10028 [5]) 0x10028 = 5 := by decide +kernel

/-! What stands in a line after an access. -/

/-- The copies of a holder at a state of a line, none in the way. -/
def hasRoom (st : Store) : Prop := Sparse.risingFrom none st.copies = true ∧ Sparse.risingFrom none st.dirs = true ∧ Memory.wf st.mem = true ∧
  ∀ h ∈ [0, 256], (st.copies.filter fun e => e.1 % 512 == h).length < lineRoom h

/-- Line 0x10000 owned by core 0, by its die's L2, by its synchronisation engine. -/
def ownedAt (h : Nat) (a : Nat) : Store := setDir (putCopy base.store h 0x10000 { state := .owned, data := 0x0102, mask := 0, wts := 3, rts := 5 })
  0x10000 { dirOf base.store 0x10000 with state := .owned a }

theorem test_witness_stores_read_back :
    (Sparse.risingFrom none base.store.scratch = true ∧ Memory.wf base.store.mem = true) ∧
    (let o := { nextOp .store .wt .gddr 0x10000 false with width := 4 }
      let a : Access := { line := 0x10000, tier := .gddr, items := [(0, 0, 1), (1, 60, 2)] }
      (∀ e ∈ a.items, e.2.1 + o.width ≤ 64) ∧ a.items = [(0, 0, 1)] ++ (1, 60, 2) :: [] ∧ storeLine o a = (0x8001, 1 + 2 ^ 481)) ∧
    (hasRoom base.store ∧ hasRoom (ownedAt 0 0) ∧ hasRoom (ownedAt 256 0) ∧ hasRoom (ownedAt 261 4)) ∧
    (homeDie 0x10000 = 0 ∧ (dirOf base.store 0x10000).state = .untracked ∧ isHostLine 0x10000 = false ∧ isHostLine (hostBase / 64) = true) ∧
    ((acquireOwn (ownedAt 256 0) 0 0x10000).any fun u => (copyAt u 0 0x10000).isSome) = true ∧
    (copyAt (readyInDie (ownedAt 0 0) 0 0x10000 true) 256 0x10000).isSome = true ∧
    ((serveStore (ownedAt 0 0) 0 0x10000 .wi 0 32 1 7).isSome = true ∧ (serveStore base.store 0 0x10000 .si 0 32 1 7).isSome = true ∧
      (serveStore base.store 0 (hostBase / 64) .wi 0 32 1 7).isSome = true) ∧
    ((copyAt (ownedAt 260 4) 260 0x10000).isSome = true ∧ (serveAtomic (ownedAt 260 4) 0x10000 56 8 0 .add 1 0).isSome = true ∧
      (serveAtomic base.store (hostBase / 64) 56 8 0 .add 1 0).isSome = true) ∧
    ((grantPartial base.store 0 0x10000 .bf16 .max).any fun v => (copyAt v 0 0x10000).any fun c => c.state == .combining .bf16 .max) = true := by
  unfold hasRoom; decide +kernel

-- R171, R193: a `.wt` store leaves its word in memory and the others; an owner's line takes it in its copy; an atomic adds at the engine
theorem test_stores_read_back : let word := fun (r : Option (Nat × Store)) (w : Nat) => r.map fun r => (memRead r.2.mem (0x400000 + 4 * w)).toNat
    word (serveStore base.store 0 0x10000 .wt 0 32 2 (lineSet 0 4 4 7)) 1 = some 7 ∧ word (serveStore base.store 0 0x10000 .wt 0 32 2 (lineSet 0 4 4 7)) 0 = some 0 ∧
    ((serveStore (ownedAt 0 0) 0 0x10000 .own 0 32 2 (lineSet 0 4 4 7)).bind fun r => (copyAt r.2 0 0x10000).map (·.data)) = some 0x700000102 ∧
    ((serveAtomic (ownedAt 260 4) 0x10000 0 8 0 .add 1 0).bind fun r => (copyAt r.2.2 260 0x10000).map fun c => (r.1, c.data)) = some (0x102, 0x103) := by
  decide +kernel

theorem test_witness_cadd_misaligned : let s := ranged.mapCtx 0 fun c => { c with regs := { c.regs with g := [(1, 0x1002), (2, 64)] } }
    let lanes := (List.range 64).filter fun j => (srcM s 1).getLsbD j
    s.Free [1] ∧ s.here.checkSrcV 5 = .ok ∧ memLimit s ((lanes.map fun j => (srcG s 1 + BitVec.ofNat 64 (4 * j)).toNat / 64).dedup).length = .ok ∧
    lanes ≠ [] ∧ (srcG s 1).toNat % 4 ≠ 0 := by decide +kernel

-- R174, R208, R196: a prefetch of a poisoned line keeps no copy and logs a memory error; one whose walk finds no page is dropped
theorem test_witness_prefetch_poison : let s := (fetching .wi).mapStore fun st => setDir st 0x10000 { clearDir 0x10000 with poison := true }
    (match translate 0 0 0x1000 .prefetch s with | (.found pa .., r) => pa == 0x400000 && (dirOf r.store 0x10000).poison && (copyAt r.store 0 0x10000).isNone | _ => false) = true ∧
    (runPrefetches 0 s).dev.errorSeq = s.dev.errorSeq + 1 ∧ (copyAt (runPrefetches 0 s).store 0 0x10000).isNone = true := by decide +kernel
end Sys2Proof.Tests
end

/-! SUPPORT. The statements on bundles: registers and landing, decoding, control, and the step that issues a bundle. -/

namespace Sys2Proof.Laws.Encoding

/-! ### What a slot reads (R22, R49 to R66) -/

/-- The slot of every well-formed instruction reads its word back; an event has no slot. -/
theorem statement_of_instr (i : Instr) : Statement i := by
  cases i with
  | nop => exact nop | add => apply add | sub => apply sub | mul => apply mul | mulh => apply mulh
  | div => apply div | rem => apply rem | and => apply and | or => apply or | xor => apply xor
  | andn => apply andn | shl => apply shl | shr => apply shr | sra => apply sra | min => apply min
  | max => apply max | clz => apply clz | popc => apply popc | movGG => apply movGG
  | movMG => apply movMG | movGM => apply movGM | sel => apply sel | cmp => apply cmp
  | addi => apply addi | li => apply li | lih => apply lih | addr => apply addr | mand => apply mand
  | mor => apply mor | mnot => apply mnot | mpop => apply mpop | mfirst => apply mfirst
  | ld => apply ld | st => apply st | lds => apply lds | sts => apply sts | ldf => apply ldf
  | ste => apply ste | br => apply br | bc => apply bc | call => apply call | jr => apply jr
  | ret => exact ret | loop => apply loop | lsetup => apply lsetup | wait => apply wait
  | fenceEng => exact fenceEng | fenceSysAcq => exact fenceSysAcq | fenceSysRel => exact fenceSysRel
  | fenceSys => exact fenceSys | gear => apply gear | phase => apply phase | fmtsetImm => apply fmtsetImm
  | fmtsetReg => apply fmtsetReg | time => apply time | cycles => apply cycles | done => apply done
  | yield => exact yield | park => apply park | trap => apply trap | rdsr => apply rdsr
  | wrsr => apply wrsr | brk => apply brk | vadd => apply vadd | vsub => apply vsub
  | vmul => apply vmul | vfma => apply vfma | vmin => apply vmin | vmax => apply vmax
  | vabs => apply vabs | vneg => apply vneg | vand => apply vand | vor => apply vor
  | vxor => apply vxor | vshl => apply vshl | vshr => apply vshr | vsra => apply vsra
  | vcmp => apply vcmp | vsel => apply vsel | vmov => apply vmov | vbcast => apply vbcast
  | vperm => apply vperm | vrot => apply vrot | vcvt => apply vcvt | vpack => apply vpack
  | vunpk => apply vunpk | vdot4 => apply vdot4 | vscan => apply vscan | vrcp => apply vrcp
  | vrsq => apply vrsq | vsqrt => apply vsqrt | vexp2 => apply vexp2 | vlog2 => apply vlog2
  | vtanh => apply vtanh | vred => apply vred | vdrain => apply vdrain | vld => apply vld
  | vst => apply vst | vldf => apply vldf | vste => apply vste | vldm => apply vldm
  | vstm => apply vstm | vgath => apply vgath | vscat => apply vscat | feset => apply feset
  | sbind => apply sbind | sfree => apply sfree | hold => apply hold | mma => apply mma
  | tzero => apply tzero | tld => apply tld | tst => apply tst | tcvt => apply tcvt
  | rdef => apply rdef | rpush => apply rpush | rstat => apply rstat | scl => apply scl
  | copy => apply copy | bini => apply bini | barv => apply barv | bwait => apply bwait
  | pbar => apply pbar | atadd => apply atadd | atand => apply atand | ator => apply ator
  | atxor => apply atxor | atmin => apply atmin | atmax => apply atmax | atswp => apply atswp
  | atcas => apply atcas | cadd => apply cadd | crng => apply crng | rflush => apply rflush
  | rinv => apply rinv | pref => apply pref
  | _ => exact fun _ _ hk => nomatch hk

/-- Slots C and S decode the majors that both carry by one function; what one of them does not carry it refuses with E-02 (R22, R56). -/
theorem decodeScalar_agree {c c' : Bool} {w : W32} {i : Instr} (h : decodeScalar c w = .ok i) :
    decodeScalar c' w = .ok i ∨ decodeScalar c' w = .error .wrongSlot := by
  unfold decodeScalar at h ⊢
  by_cases hu : (fld w 26 6).toNat = 0x0F ∨ 0x25 ≤ (fld w 26 6).toNat
  · simp only [if_pos hu, reduceCtorEq] at h
  · by_cases hc : (!scalarSlotOk c (fld w 26 6).toNat) = true
    · simp only [if_neg hu, if_pos hc, reduceCtorEq] at h
    · simp only [if_neg hu, if_neg hc] at h ⊢
      split
      · exact .inr rfl
      · exact .inl h

/-- Slot VA refuses the majors 0x20 to 0x27 with E-02 and reads every other word as VB does (R22, R58). -/
theorem decodeVector_slotA (w : W32) :
    decodeVector true w = .error .wrongSlot ∨ decodeVector true w = decodeVector false w := by
  unfold decodeVector
  by_cases hm : (0x20 ≤ (fld w 26 6).toNat && (fld w 26 6).toNat ≤ 0x27) = true
  · exact .inl (by simp only [hm, Bool.and_self, if_true])
  · exact .inr (by simp only [hm, Bool.and_false, Bool.false_eq_true, if_false])

/-- A word that some slot accepts is the zero word, which is `nop` in every slot, or has a major for its slot's family to read (R49, R50). -/
theorem decodeSlot_ok_cases {k : Nat} {w : W32} {i : Instr} (h : decodeSlot k w = .ok i) :
    (∀ j, decodeSlot j w = .ok i) ∨ (w ≠ 0 ∧ fld w 26 6 ≠ 0) := by
  unfold decodeSlot at h
  by_cases h0 : w = 0
  · rw [if_pos h0] at h
    exact .inl fun j => by unfold decodeSlot; rw [if_pos h0, h]
  · rw [if_neg h0] at h
    by_cases hm : fld w 26 6 = 0
    · rw [if_pos hm] at h; cases h
    · exact .inr ⟨h0, hm⟩

section
variable {w : W32} (h0 : w ≠ 0) (hm : fld w 26 6 ≠ 0)
include h0 hm

theorem decodeSlot_slotC : decodeSlot 0 w = decodeScalar true w := by simp only [decodeSlot, h0, hm, if_false]
theorem decodeSlot_slotS : decodeSlot 1 w = decodeScalar false w := by simp only [decodeSlot, h0, hm, if_false]
theorem decodeSlot_slotVA : decodeSlot 2 w = decodeVector true w := by simp only [decodeSlot, h0, hm, if_false]
theorem decodeSlot_slotVB : decodeSlot 3 w = decodeVector false w := by simp only [decodeSlot, h0, hm, if_false]

end

end Sys2Proof.Laws.Encoding

namespace Sys2Proof.Machine

open Sys2Proof.Laws.Encoding in
/-- Settles O4: every instruction's own lemma, and of two slots of a family that they share one decoding function. -/
theorem decodeOfEncode : Obligations.DecodeOfEncode := by
  refine ⟨fun i k hw hk => statement_of_instr i hw k hk, fun w i h => ?_, fun w i h => ?_, fun w i h => ?_, fun w i h => ?_⟩
  all_goals rcases decodeSlot_ok_cases h with hz | ⟨h0, hm⟩
  · exact .inl (hz 1)
  · rw [decodeSlot_slotC h0 hm] at h
    rw [decodeSlot_slotS h0 hm]
    exact decodeScalar_agree h
  · exact .inl (hz 0)
  · rw [decodeSlot_slotS h0 hm] at h
    rw [decodeSlot_slotC h0 hm]
    exact decodeScalar_agree h
  · exact hz 3
  · rw [decodeSlot_slotVA h0 hm] at h
    rw [decodeSlot_slotVB h0 hm]
    rcases decodeVector_slotA w with hr | he
    · rw [hr] at h; cases h
    · rw [← he, h]
  · exact .inl (hz 2)
  · rw [decodeSlot_slotVB h0 hm] at h
    rw [decodeSlot_slotVA h0 hm]
    rcases decodeVector_slotA w with hr | he
    · exact .inr hr
    · exact .inl (he.trans h)

/-! ### Register names (R32, R33) -/

/-- Settles O8: `g0` and `m0` are no entries of the register files, so that no effect reaches them. -/
theorem zeroRegistersAreFixed : Obligations.ZeroRegistersAreFixed := by
  intro c due age x mask
  exact ⟨Regs.readG_zero _, Regs.readM_zero _, rfl, rfl, fun e => ⟨Regs.readG_zero _, Regs.readM_zero _⟩⟩

/-- Settles O9: adding `rb` modulo 32 permutes the names 32 to 63 and leaves the others. -/
theorem vectorNamesRotate : Obligations.VectorNamesRotate := by
  intro c x y hx hy
  have hrb : c.regs.rb.toNat < 32 := c.regs.rb.isLt
  simp only [Ctx.phys, phys]
  refine ⟨fun h => if_pos h, fun h => if_neg (by omega), ?_, ?_⟩
  · split <;> omega
  · intro h
    split at h <;> split at h <;> omega

/-! ### A result alone in the landing buffer (R89) -/

/-- The write of a `g` register reaches no other file and no other field. -/
theorem Regs.writeG_eq (r : Regs) (i : Nat) (x : W64) : ∃ g, r.writeG i x = { r with g := g } := by
  unfold Regs.writeG
  split
  · exact ⟨r.g, rfl⟩
  · exact ⟨_, rfl⟩

/-- Below its count a lone result stays in the buffer (R89). -/
theorem landDue_of_not_hasCome {s : State} {h : Nat} {p : Pending} (hl : (s.ctx h).work.landing = [p])
    (hp : (s.ctx h).hasCome p = false) : landDue h s = s := by
  simp [landDue, hl, hp]

/-- From its count on a lone result leaves the buffer and takes effect (R89). -/
theorem landDue_of_hasCome {s : State} {h : Nat} {p : Pending} (hl : (s.ctx h).work.landing = [p])
    (hp : (s.ctx h).hasCome p = true) :
    landDue h s = applyPending h (s.mapCtx h fun c => { c with work := { c.work with landing := [] } }) p := by
  simp [landDue, State.mapCtx, hl, hp, sortPending, insertPending]

/-- The landing of a `g` result writes its register and changes nothing else. -/
theorem applyPending_g {p : Pending} {r : Nat} {x : W64} (he : p.eff = .g r x) (h : Nat) (s : State) :
    applyPending h s p = s.mapCtx h fun c => { c with regs := c.regs.writeG r x } := by
  unfold applyPending
  rw [he]
  rfl

/-- Settles O10: the lone result either waits or, once its count has come, is the one landing there is. -/
theorem resultLandsByCount : Obligations.ResultLandsByCount := by
  intro s h r p x hl he hr
  refine ⟨fun hlt => landDue_of_not_hasCome hl (decide_eq_false (by omega)), fun hle => ?_⟩
  rw [landDue_of_hasCome hl (decide_eq_true hle), applyPending_g he]
  obtain ⟨g, hg⟩ := (s.ctx h).regs.writeG_eq r x
  refine ⟨by simp, by simp, fun j => ?_, ?_, ?_, ?_, ?_, by simp, fun k hk => by simp [State.ctx_mapCtx, hk]⟩
  · simp [Regs.readG_writeG _ r j x hr]
  all_goals simp [hg]

/-! ### Branches, calls and returns (R24) -/

theorem badTarget_eq_false (s : State) (t : W64) : badTarget s t = false ↔ t.toNat % 32 = 0 ∧ inCode s s.here t = true := by
  simp [badTarget]

theorem badTarget_eq_true (s : State) (t : W64) : badTarget s t = true ↔ t.toNat % 32 ≠ 0 ∨ inCode s s.here t = false := by
  simp [badTarget]

/-- A jump to a bundle of the image passes its checks. -/
theorem jumpChecks_ok {s : State} {rs : List Reg} {t : W64} (hf : s.Free rs) (ha : t.toNat % 32 = 0) (hc : inCode s s.here t = true) :
    checks [readyG s rs, faultWhen (badTarget s t) .badTarget 0] = .ok := by
  rw [(readyG_ok s rs).mpr hf, (badTarget_eq_false s t).mpr ⟨ha, hc⟩]
  rfl

/-- A jump to anything else takes the bad-target fault of R24. -/
theorem jumpChecks_fault {s : State} {rs : List Reg} {t : W64} (hf : s.Free rs) (hb : t.toNat % 32 ≠ 0 ∨ inCode s s.here t = false) :
    checks [readyG s rs, faultWhen (badTarget s t) .badTarget 0] = .fault .badTarget 0 := by
  rw [(readyG_ok s rs).mpr hf, (badTarget_eq_true s t).mpr hb]
  rfl

/-- A branch that lands a link: both take effect, in the form of `lands`. -/
theorem effect_branch_land (s : State) (t x : W64) (r : Nat) :
    effect (branch t (land 1 (.g r x) s)) = .next ((s.lands [(1, .g r x)]).took (branch t)) := rfl

/-- `br` (R283). -/
theorem exec_br (o : BitVec 22) (s : State) : exec (.br o) s = .next (s.took (branch (bundleAt s.here o))) := rfl

/-- `bc` on a predicate of the sense that it asks for (R281). -/
theorem exec_bc_taken {s : State} {b : Bool} {n : Reg3} (o : BitVec 22) (h : s.here.regs.q.getLsbD n.toNat = b) :
    exec (.bc b n o) s = .next (s.took (branch (bundleAt s.here o))) := by
  change effect (if s.here.regs.q.getLsbD n.toNat == b then _ else s) = _
  rw [if_pos (beq_iff_eq.mpr h)]
  rfl

/-- `bc` on a predicate of the other sense (R281). -/
theorem exec_bc_fallsThrough {s : State} {b : Bool} {n : Reg3} (o : BitVec 22) (h : s.here.regs.q.getLsbD n.toNat ≠ b) :
    exec (.bc b n o) s = .next (s.took id) := by
  change effect (if s.here.regs.q.getLsbD n.toNat == b then _ else s) = _
  rw [if_neg (by simpa using h)]
  rfl

/-- `call` (R287). -/
theorem exec_call {s : State} (o : BitVec 22) (hf : s.Free [63]) :
    exec (.call o) s = .next ((s.lands [(1, .g 63 (linkOf s.here))]).took (branch (bundleAt s.here o))) := by
  change under (readyG s [63]) s _ = _
  rw [(readyG_ok s _).mpr hf, under_ok, effect_branch_land]

/-- `jr` under what its checks answer (R301). -/
theorem exec_jr (d a : Reg) (s : State) :
    exec (.jr d a) s = under (checks [readyG s [d, a], faultWhen (badTarget s (srcG s a)) .badTarget 0]) s
      (effect (branch (srcG s a) (land 1 (.g d.toNat (linkOf s.here)) s))) := rfl

/-- `ret` under what its checks answer (R332). -/
theorem exec_ret (s : State) :
    exec .ret s = under (checks [readyG s [63], faultWhen (badTarget s (srcG s 63)) .badTarget 0]) s
      (effect (branch (srcG s 63) s)) := rfl

/-- Settles O31: `br`, `bc` and `call` have no target to check; `jr` and `ret` go or fault by the one test on theirs. -/
theorem branchesGo : Obligations.BranchesGo := by
  intro s d a b n o
  refine ⟨exec_br o s, exec_bc_taken o, exec_bc_fallsThrough o, exec_call o, fun hf ha hc => ?_, fun hf hb => ?_,
    fun hf ha hc => ?_, fun hf hb => ?_⟩
  · rw [exec_jr, jumpChecks_ok hf ha hc, under_ok, effect_branch_land]
    rfl
  · rw [TakesPrecise, exec_jr, jumpChecks_fault hf hb, under_fault]
    rfl
  · rw [exec_ret, jumpChecks_ok hf ha hc, under_ok]
    rfl
  · rw [TakesPrecise, exec_ret, jumpChecks_fault hf hb, under_fault]
    rfl

/-! ### `wait` and the fences (R95, R153) -/

theorem within_iff (bound : BitVec 4) (n : Nat) : within bound n = true ↔ bound = 15 ∨ n ≤ bound.toNat := by
  simp [within]

/-- `wait` issues or stalls by its four bounds (R95). -/
theorem exec_wait (l st c t : BitVec 4) (s : State) :
    exec (.wait l st c t) s = stallOr (!(within l s.here.outLoads && within st s.here.outStores &&
      within c (s.outCopies s.focusCtx) && within t (s.outTiles s.focusCtx))) s (effect s) := rfl

theorem storesDone_iff (c : Ctx) :
    c.storesDone = true ↔ ∀ o ∈ c.work.memOps ++ c.work.replay, o.kind = .load ∨ 8 * c.retired ≤ o.age := by
  simp [Ctx.storesDone, or_imp, forall_and]

/-- With a store of an earlier bundle outstanding a release only waits (R153). -/
theorem releaseStep_of_storing {h : Nat} {s : State} (hs : (s.ctx h).storesDone = false) : releaseStep h s = (s, false) := by
  simp [releaseStep, hs]

/-- With no line to write back a release is complete (R153). -/
theorem releaseStep_of_clean {h : Nat} {s : State} (hs : (s.ctx h).storesDone = true) (hd : dirtyHostLines s.store (coreOf h) = []) :
    releaseStep h s = (s, true) := by
  simp [releaseStep, hs, hd]

/-- With lines to write back a release waits, having asked the host for each of them (R153, R155). -/
theorem releaseStep_of_dirty {h : Nat} {s : State} (hs : (s.ctx h).storesDone = true) (hd : dirtyHostLines s.store (coreOf h) ≠ []) :
    (releaseStep h s).2 = false ∧ (releaseStep h s).1.store = s.store ∧ (releaseStep h s).1.ctxs = s.ctxs ∧
      ∀ l ∈ dirtyHostLines s.store (coreOf h), (coreOf h, l) ∈ (releaseStep h s).1.dev.hostWrites := by
  simp only [releaseStep, hs, Bool.not_true, Bool.false_eq_true, if_false]
  split
  case isTrue hfresh =>
    refine ⟨by simpa using hd, rfl, rfl, fun l hl => ?_⟩
    simp only [List.isEmpty_iff, List.filter_eq_nil_iff] at hfresh
    simpa using hfresh l hl
  case isFalse =>
    refine ⟨rfl, rfl, rfl, fun l hl => ?_⟩
    by_cases hw : (coreOf h, l) ∈ s.dev.hostWrites
    · simp [hw]
    · simp [hw, hl]

/-- `fence.sys.rel` under what its release answers (R297). -/
theorem exec_fenceSysRel (s : State) :
    exec .fenceSysRel s = if (releaseStep s.focusCtx s).2 then effect (releaseStep s.focusCtx s).1 else waits (releaseStep s.focusCtx s).1 := rfl

/-- `fence.sys` under what its release answers: it then acquires (R297). -/
theorem exec_fenceSys (s : State) :
    exec .fenceSys s = if (releaseStep s.focusCtx s).2 then effect (acquireDrop (releaseStep s.focusCtx s).1.focusCtx (releaseStep s.focusCtx s).1)
      else waits (releaseStep s.focusCtx s).1 := rfl

/-! ### The copies that an acquire drops -/

/-- Filtering a rising table filters what a key reads. -/
theorem Sparse.find_filter {α : Type} (p : Nat × α → Bool) (m : Sparse α) (k : Nat) (h : Sparse.risingFrom none m = true) :
    Sparse.find (m.filter p) k = (m.find k).filter fun x => p (k, x) := by
  induction m with
  | nil => rfl
  | cons e r ih =>
    obtain ⟨j, y⟩ := e
    have hr : Sparse.risingFrom (some j) r = true := h
    have absent : k ≤ j → Sparse.find r k = none := Sparse.find_none_of_rising r j k hr
    specialize ih (Sparse.rising_none r j hr)
    by_cases hjk : j = k
    · subst hjk
      by_cases hp : p (j, y) = true
      · simp [List.filter_cons_of_pos hp, Sparse.find, Option.filter_some, hp]
      · rw [List.filter_cons_of_neg hp, ih, absent (Nat.le_refl j)]
        simp [Sparse.find, Option.filter_some, hp]
    · by_cases hp : p (j, y) = true
      · rw [List.filter_cons_of_pos hp]
        simp only [Sparse.find, if_neg hjk]
        split
        · rfl
        · exact ih
      · rw [List.filter_cons_of_neg hp, ih]
        simp only [Sparse.find, if_neg hjk]
        split
        · rw [absent (by omega)]
        · rfl

/-- A copy after an acquire of some core: of a proxy's only the words that a core holds dirty. -/
def afterAcquire (st : Store) (e : Nat × Copy) : Copy :=
  if e.1 % 512 == proxyHolder then { e.2 with mask := e.2.mask &&& dirtyMask st (e.1 / 512) } else e.2

/-- Whether an acquire of a core drops the copy at a key (R153). -/
def acquireDrops (core : Nat) (e : Nat × Copy) : Bool :=
  isHostLine (e.1 / 512) && e.2.state != .hostDirty && (e.1 % 512 == core || e.1 % 512 == l2Holder (dieOf core))

theorem copies_dropHostClean (st : Store) (core : Nat) :
    (dropHostClean st core).copies = (st.copies.filter fun e => !acquireDrops core e).map fun e => (e.1, afterAcquire st e) := by
  unfold dropHostClean afterAcquire
  refine List.map_congr_left fun e _ => ?_
  split <;> rfl

theorem dirtyMask_eq (st : Store) (line : Nat) :
    dirtyMask st line = ((st.copies.filter fun e => e.1 / 512 == line && e.2.state == .hostDirty).map (·.2.mask)).foldl (· ||| ·) 0 := by
  simp only [dirtyMask, copiesOf, List.foldl_map, List.foldl_filter, Bool.and_eq_true]
  congr 1
  funext m e
  split <;> simp_all

theorem copyAt_dropHostClean (st : Store) (core holder line : Nat) (hr : Sparse.risingFrom none st.copies = true) :
    copyAt (dropHostClean st core) holder line =
      ((copyAt st holder line).filter fun c => !acquireDrops core (copyKey holder line, c)).map fun c =>
        afterAcquire st (copyKey holder line, c) := by
  rw [copyAt, copies_dropHostClean, Sparse.find_map, Sparse.find_filter _ _ _ hr, copyAt]

theorem copyKey_line {holder : Nat} (line : Nat) (h : holder < 512) : copyKey holder line / 512 = line := by
  simp only [copyKey]; omega

theorem copyKey_holder {holder : Nat} (line : Nat) (h : holder < 512) : copyKey holder line % 512 = holder := by
  simp only [copyKey]; omega

theorem acquireDrops_iff (core : Nat) {holder : Nat} (line : Nat) (c : Copy) (h : holder < 512) :
    acquireDrops core (copyKey holder line, c) = true ↔
      isHostLine line = true ∧ c.state ≠ .hostDirty ∧ (holder = core ∨ holder = 256 + core / 64) := by
  simp [acquireDrops, copyKey_line line h, copyKey_holder line h, l2Holder, dieOf, and_assoc]

/-- Settles O33: `wait` by its four bounds, the fences by what their release answers, the acquire copy by copy. -/
theorem waitsAndFencesHold : Obligations.WaitsAndFencesHold := by
  refine ⟨fun s l st c t => ?_, fun s => ?_, fun st core holder line hr _ hh => ?_⟩
  · refine ⟨fun hok => ?_, fun hok => ?_, rfl⟩
    all_goals
      rw [exec_wait]
      simp only [← within_iff, ← Bool.and_eq_true] at hok
      simp only [Bool.and_assoc, hok]
      rfl
  · refine ⟨rfl, rfl, fun hs hd => ?_, fun hs => ?_, fun hs hd => ?_⟩
    · have hrel : releaseStep s.focusCtx s = (s, true) := releaseStep_of_clean ((storesDone_iff _).mpr hs) hd
      rw [exec_fenceSysRel, exec_fenceSys, hrel]
      exact ⟨rfl, rfl⟩
    · have hrel : releaseStep s.focusCtx s = (s, false) :=
        releaseStep_of_storing (by rw [← Bool.not_eq_true, storesDone_iff]; exact hs)
      rw [exec_fenceSysRel, exec_fenceSys, hrel]
      exact ⟨rfl, rfl⟩
    · obtain ⟨hflag, hstore, hctxs, hasked⟩ := releaseStep_of_dirty (h := s.focusCtx) ((storesDone_iff _).mpr hs) hd
      rw [exec_fenceSysRel, exec_fenceSys, hflag]
      exact ⟨_, rfl, rfl, rfl, hstore, hctxs, hasked⟩
  · refine ⟨rfl, ?_⟩
    rw [copyAt_dropHostClean st core holder line hr]
    cases copyAt st holder line with
    | none => rfl
    | some c =>
      simp only [← acquireDrops_iff core line c hh, Option.filter_some]
      by_cases hg : acquireDrops core (copyKey holder line, c) = true
      · simp [hg]
      · simp [hg, afterAcquire, copyKey_line line hh, copyKey_holder line hh, dirtyMask_eq, proxyHolder]

/-! ### One instruction among `nop`s -/

/-- The bundle of one instruction i in slot n among `nop`s, with the schedule word 0. -/
def loneBundle (n : Nat) (i : Instr) : Bundle :=
  { slots := (List.range 7).map (fun j => if j = n then i else .nop), sched := decodeSched 0 }

theorem loneBundle_slot {n : Nat} (hn : n < 7) (i : Instr) : (loneBundle n i).slots[n]? = some i := by
  simp [loneBundle, hn]

/-- What the slots of a bundle start from. -/
def Slots.start (h : Nat) (s : State) : Slots := { st := beginBundle h s, stalled := false, fault := none, progress := none }

section
variable {h n : Nat} {i : Instr} {r : Slots} {t : State}

theorem runSlot_effect (hx : exec i (refocus h n .none r.st) = .next t) (hs : t.signal = .none) :
    runSlot h r (n, i) = .ok { r with st := t } := by
  simp only [refocus] at hx
  simp only [runSlot, hx, hs]

theorem runSlot_waits (hx : exec i (refocus h n .none r.st) = .next t) (hs : t.signal = .waits) :
    runSlot h r (n, i) = .ok { r with stalled := true, progress := if n = 0 then some t else r.progress } := by
  simp only [refocus] at hx
  simp only [runSlot, hx, hs]

theorem runSlot_fault {cls : FaultClass} {addr : Nat} (hx : exec i (refocus h n .none r.st) = .next t)
    (hs : t.signal = .fault cls addr) : runSlot h r (n, i) = .ok { r with fault := lowerFault r.fault (n, cls, addr) } := by
  simp only [refocus] at hx
  simp only [runSlot, hx, hs]

theorem runSlot_stops {o : Out} (hx : exec i (refocus h n .none r.st) = o) (ho : ∀ t, o ≠ .next t) :
    runSlot h r (n, i) = .error o := by
  simp only [refocus] at hx
  simp only [runSlot, hx]

end

/-- A bundle under what its slots come to. -/
theorem runBundle_eq (h : Nat) (b : Bundle) (s : State) :
    runBundle h b s = match runSlots h (executing (s.ctx h).regs.q b) (.start h s) with
      | .error o => o
      | .ok r => if r.stalled then .next (stallBundle h r s)
        else match r.fault with
          | some (k, cls, addr) => .next { takePrecise h k cls addr s with focusCtx := h, focusSlot := 0, signal := .none }
          | none => .next (finishBundle h (s.ctx h) b (executing (s.ctx h).regs.q b) r.st) := rfl

/-- What the one instruction comes to is what its bundle comes to, up to the focus. -/
theorem runSlots_lone {h n : Nat} {i : Instr} {r r' : Slots} (q : BitVec 8) (hn : n < 7)
    (hr : ∀ x y z, ∃ x' y' z', runSlot h { r with st := refocus x y z r.st } (n, i) = .ok { r' with st := refocus x' y' z' r'.st }) :
    ∃ x y z, runSlots h (executing q (loneBundle n i)) r = .ok { r' with st := refocus x y z r'.st } := by
  obtain ⟨es, fs, hx, -, -⟩ := executing_one q n i hn
  obtain ⟨x, y, z, hes⟩ := runSlots_nops h es r
  obtain ⟨x', y', z', hi⟩ := hr x y z
  obtain ⟨x'', y'', z'', hfs⟩ := runSlots_nops h fs { r' with st := refocus x' y' z' r'.st }
  refine ⟨x'', y'', z'', ?_⟩
  rw [loneBundle, hx, runSlots_append, hes]
  dsimp only
  rw [runSlots, hi]
  exact hfs

theorem runSlots_lone_stops {h n : Nat} {i : Instr} {r : Slots} {o : Out} (q : BitVec 8) (hn : n < 7)
    (hr : ∀ x y z, runSlot h { r with st := refocus x y z r.st } (n, i) = .error o) :
    runSlots h (executing q (loneBundle n i)) r = .error o := by
  obtain ⟨es, fs, hx, -, -⟩ := executing_one q n i hn
  obtain ⟨x, y, z, hes⟩ := runSlots_nops h es r
  rw [loneBundle, hx, runSlots_append, hes]
  dsimp only
  rw [runSlots, hr]

/-- What ends the bundle counts the one instruction alone. -/
theorem finishBundle_lone {n : Nat} (hn : n < 7) (i : Instr) (q : BitVec 8) (h : Nat) (c : Ctx) (x y : Nat) (z : Signal) (s : State) :
    finishBundle h c (loneBundle n i) (executing q (loneBundle n i)) (refocus x y z s) =
      finishBundle h c (loneBundle n i) [(n, i)] s := by
  obtain ⟨es, fs, hx, -, -⟩ := executing_one q n i hn
  have hx' : executing q (loneBundle n i) = _ := hx
  rw [hx']
  exact finishBundle_refocus h c _ _ _ x y z s (bundleLanes_nops ..) (executedIn_nops ..) (executedIn_nops ..) (executedIn_nops ..)

section
variable {h n : Nat} {i : Instr} {s t : State} (hn : n < 7)
include hn

theorem runBundle_lone_effect (hx : exec i (refocus h n .none (beginBundle h s)) = .next t) (hs : t.signal = .none) :
    runBundle h (loneBundle n i) s = .next (finishBundle h (s.ctx h) (loneBundle n i) [(n, i)] t) := by
  obtain ⟨x, y, z, hr⟩ := runSlots_lone (r := .start h s)
    (r' := { st := t, stalled := false, fault := none, progress := none }) (s.ctx h).regs.q hn
    fun x y z => ⟨t.focusCtx, t.focusSlot, t.signal, runSlot_effect hx hs⟩
  rw [runBundle_eq, hr]
  change Host.Outcome.next (finishBundle h (s.ctx h) (loneBundle n i) (executing (s.ctx h).regs.q (loneBundle n i)) (refocus x y z t)) = _
  rw [finishBundle_lone hn]

theorem runBundle_lone_waits (hx : exec i (refocus h n .none (beginBundle h s)) = .next t) (hs : t.signal = .waits) :
    runBundle h (loneBundle n i) s = .next (stallBundle h
      { st := beginBundle h s, stalled := true, fault := none, progress := if n = 0 then some t else none } s) := by
  obtain ⟨x, y, z, hr⟩ := runSlots_lone (r := .start h s)
    (r' := { st := beginBundle h s, stalled := true, fault := none, progress := if n = 0 then some t else none }) (s.ctx h).regs.q hn
    fun x y z => ⟨x, y, z, runSlot_waits hx hs⟩
  rw [runBundle_eq, hr]
  rfl

theorem runBundle_lone_fault {cls : FaultClass} {addr : Nat} (hx : exec i (refocus h n .none (beginBundle h s)) = .next t)
    (hs : t.signal = .fault cls addr) :
    runBundle h (loneBundle n i) s = .next { takePrecise h n cls addr s with focusCtx := h, focusSlot := 0, signal := .none } := by
  obtain ⟨x, y, z, hr⟩ := runSlots_lone (r := .start h s)
    (r' := { st := beginBundle h s, stalled := false, fault := some (n, cls, addr), progress := none }) (s.ctx h).regs.q hn
    fun x y z => ⟨x, y, z, runSlot_fault hx hs⟩
  rw [runBundle_eq, hr]
  rfl

theorem runBundle_lone_stops {o : Out} (hx : exec i (refocus h n .none (beginBundle h s)) = o) (ho : ∀ t, o ≠ .next t) :
    runBundle h (loneBundle n i) s = o := by
  have hr := runSlots_lone_stops (r := .start h s)
    (s.ctx h).regs.q hn fun x y z => runSlot_stops hx ho
  rw [runBundle_eq, hr]

end

/-! ### The move that issues a bundle -/

theorem step_issue {s : State} {h : Nat} {ms : List Move} (ha : s.agenda = .issue h :: ms) :
    step s = andThen (issueBundle h { s with agenda := ms }) settle := by
  unfold step
  rw [ha]
  rfl

theorem fetchBundle_ok {s : State} {h : Nat} {b : Bundle} (hc : inCode s (s.ctx h) (s.ctx h).pc = true)
    (hb : decodeBundle ((List.range 8).map fun k =>
      Sparse.get 0 (s.imageOf (s.ctx h).cont).code (((s.ctx h).pc - (s.ctx h).regs.image).toNat / 4 + k)) = .ok b) :
    fetchBundle s h = .ok b := by
  unfold fetchBundle
  dsimp only
  rw [hc, hb]
  rfl

theorem issueBundle_picked {s : State} {h : Nat} {b : Bundle} (hp : pickOn s (coreOf h) = some h)
    (hf : (s.ctx h).work.holdFault = false) (ho : (s.ctx h).work.overran = false) (hb : fetchBundle s h = .ok b) :
    issueBundle h s = runBundle h b s := by
  simp [issueBundle, hp, hf, ho, hb]

/-! ### Guards (R28) -/

/-- The slots whose guard is on, in slot order. -/
def slotsOn (q : BitVec 8) (b : Bundle) : List (Nat × Instr) := (b.slots.mapIdx fun k i => (k, i)).filter fun e => guardOn q b e.1

/-- The executing slots are those whose guard is on, each once. -/
theorem executing_perm (q : BitVec 8) (b : Bundle) : (executing q b).Perm (slotsOn q b) :=
  List.filter_append_perm (fun e : Nat × Instr => readsAtIssue e.2) (slotsOn q b)

theorem mem_executing (q : BitVec 8) (b : Bundle) (k : Nat) (i : Instr) :
    (k, i) ∈ executing q b ↔ b.slots[k]? = some i ∧ guardOn q b k = true := by
  rw [(executing_perm q b).mem_iff, slotsOn, List.mem_filter]
  refine and_congr_left fun _ => ?_
  simp only [List.mem_mapIdx, Prod.mk.injEq, List.getElem?_eq_some_iff]
  constructor
  · rintro ⟨j, hj, rfl, hi⟩
    exact ⟨hj, hi⟩
  · rintro ⟨hj, hi⟩
    exact ⟨k, hj, rfl, hi⟩

theorem guardOn_iff (q : BitVec 8) (b : Bundle) (k : Nat) : guardOn q b k = true ↔
    (b.sched.guard.getD k 0).toNat = 0 ∨ q.getLsbD ((b.sched.guard.getD k 0).toNat - 1) = true := by
  simp [guardOn]

theorem guardOn_sched {b b' : Bundle} (q : BitVec 8) (k : Nat) (hs : b'.sched = b.sched) : guardOn q b' k = guardOn q b k := by
  simp only [guardOn, hs]

/-- The slots whose guard is on, looked up by number: what stands in the others does not count. -/
theorem slotsOn_eq_range (q : BitVec 8) (b : Bundle) :
    slotsOn q b = ((List.range b.slots.length).filter (guardOn q b)).map fun k => (k, (b.slots[k]?).getD .nop) := by
  have hx : (b.slots.mapIdx fun k i => (k, i)) = (List.range b.slots.length).map fun k => (k, (b.slots[k]?).getD .nop) := by
    refine List.ext_getElem (by simp) fun k h1 h2 => ?_
    simp only [List.length_mapIdx] at h1
    simp [h1]
  rw [slotsOn, hx, List.filter_map]
  rfl

theorem executing_keys_nodup (q : BitVec 8) (b : Bundle) : ((executing q b).map (·.1)).Nodup := by
  rw [((executing_perm q b).map _).nodup_iff, slotsOn_eq_range, List.map_map]
  exact (List.map_id' _).symm ▸ List.nodup_range.filter _

/-- A guarded-off slot has no part in what executes. -/
theorem executing_congr {q : BitVec 8} {b b' : Bundle} (hs : b'.sched = b.sched) (hl : b'.slots.length = b.slots.length)
    (h : ∀ k, guardOn q b k = true → b'.slots[k]? = b.slots[k]?) : executing q b' = executing q b := by
  have hon : slotsOn q b' = slotsOn q b := by
    rw [slotsOn_eq_range, slotsOn_eq_range, hl, show guardOn q b' = guardOn q b from funext fun k => guardOn_sched q k hs]
    refine List.map_congr_left fun k hk => ?_
    rw [h k (List.mem_filter.mp hk).2]
  unfold slotsOn at hon
  unfold executing
  rw [hon]

/-- What ends a bundle looks at its schedule word and at no slot. -/
theorem finishBundle_sched {b b' : Bundle} (hs : b'.sched = b.sched) (h : Nat) (c : Ctx) (es : List (Nat × Instr)) (s : State) :
    finishBundle h c b' es s = finishBundle h c b es s := by
  obtain ⟨slots, sched⟩ := b
  obtain ⟨slots', sched'⟩ := b'
  subst hs
  rfl

/-- A bundle does the same whatever stands in a slot whose guard is off (R28). -/
theorem runBundle_congr {s : State} {h : Nat} {b b' : Bundle} (hs : b'.sched = b.sched) (hl : b'.slots.length = b.slots.length)
    (hb : ∀ k, guardOn (s.ctx h).regs.q b k = true → b'.slots[k]? = b.slots[k]?) : runBundle h b' s = runBundle h b s := by
  rw [runBundle_eq, runBundle_eq, executing_congr hs hl hb]
  simp only [finishBundle_sched hs]

/-! ### What landing leaves (R89) -/

/-- The fields of a context by which its bundles follow each other, and its reuse misses, are those of another. -/
structure Ctx.SameFlow (c d : Ctx) : Prop where
  count : d.count = c.count
  retired : d.retired = c.retired
  pc : d.pc = c.pc
  branchTo : d.branchTo = c.branchTo
  stallLeft : d.stallLeft = c.stallLeft
  span : d.span = c.span
  halted : d.halted = c.halted
  reusemiss : d.regs.reusemiss = c.regs.reusemiss

theorem Ctx.SameFlow.refl (c : Ctx) : c.SameFlow c := ⟨rfl, rfl, rfl, rfl, rfl, rfl, rfl, rfl⟩

theorem Ctx.SameFlow.trans {c d e : Ctx} (h : c.SameFlow d) (k : d.SameFlow e) : c.SameFlow e :=
  ⟨k.count.trans h.count, k.retired.trans h.retired, k.pc.trans h.pc, k.branchTo.trans h.branchTo, k.stallLeft.trans h.stallLeft,
    k.span.trans h.span, k.halted.trans h.halted, k.reusemiss.trans h.reusemiss⟩

theorem Ctx.SameFlow.work (c : Ctx) (w : Work) : c.SameFlow { c with work := w } := ⟨rfl, rfl, rfl, rfl, rfl, rfl, rfl, rfl⟩

theorem Regs.reduce_reusemiss (r : Regs) (n : Nat) (op : RedOp) (t : ElemType) (x : W32) :
    (r.reduce n op t x).1.reusemiss = r.reusemiss := by
  unfold Regs.reduce
  cases Sparse.find r.ps n <;> rfl

/-- A contribution to a reduction latch does not look at the reuse misses. -/
theorem Regs.reduce_misses (r : Regs) (k n : Nat) (op : RedOp) (t : ElemType) (x : W32) :
    ({ r with reusemiss := k } : Regs).reduce n op t x = ({ (r.reduce n op t x).1 with reusemiss := k }, (r.reduce n op t x).2) := by
  unfold Regs.reduce
  dsimp only
  cases Sparse.find r.ps n <;> rfl

/-- No effect touches the flow of bundles. -/
theorem Ctx.applyEffect_sameFlow (c : Ctx) (due age : Nat) (e : Effect) : c.SameFlow (c.applyEffect due age e) := by
  cases e with
  | g i x => exact ⟨rfl, rfl, rfl, rfl, rfl, rfl, rfl, by simp only [applyEffect, Regs.writeG]; split <;> rfl⟩
  | m i mask x => exact ⟨rfl, rfl, rfl, rfl, rfl, rfl, rfl, by simp only [applyEffect, Regs.writeM]; split <;> rfl⟩
  | ps n op t x => exact ⟨rfl, rfl, rfl, rfl, rfl, rfl, rfl, c.regs.reduce_reusemiss n op t x⟩
  | scale side x => exact ⟨rfl, rfl, rfl, rfl, rfl, rfl, rfl, by simp only [applyEffect]; split <;> rfl⟩
  | _ => exact ⟨rfl, rfl, rfl, rfl, rfl, rfl, rfl, rfl⟩

/-- Two register files agree in all but their reuse misses. -/
def Regs.SameButMisses (r r' : Regs) : Prop := { r' with reusemiss := 0 } = { r with reusemiss := 0 }

theorem Regs.sameButMisses_iff {r r' : Regs} : r.SameButMisses r' ↔ ∃ k, r' = { r with reusemiss := k } := by
  constructor
  · exact fun h => ⟨r'.reusemiss, congrArg (fun x : Regs => { x with reusemiss := r'.reusemiss }) h⟩
  · rintro ⟨k, rfl⟩
    rfl

/-- No effect looks at the reuse misses. -/
theorem Ctx.applyEffect_sameButMisses {c d : Ctx} (due age : Nat) (e : Effect) (h : c.regs.SameButMisses d.regs) :
    (c.applyEffect due age e).regs.SameButMisses (d.applyEffect due age e).regs := by
  obtain ⟨k, hd⟩ := Regs.sameButMisses_iff.mp h
  refine Regs.sameButMisses_iff.mpr ⟨k, ?_⟩
  cases e with
  | g i x => simp only [applyEffect, Regs.writeG, hd]; split <;> rfl
  | m i mask x => simp only [applyEffect, Regs.writeM, hd]; split <;> rfl
  | ps n op t x => simp only [applyEffect, hd, Regs.reduce_misses]
  | scale side x => simp only [applyEffect, hd]; split <;> rfl
  | _ => simp only [applyEffect, hd] <;> rfl

/-- What a push that lands or waits leaves: of its context all but what waits in it, and of every core its issue. -/
structure PushStep (h : Nat) (s t : State) : Prop where
  ctx : ∃ w, t.ctx h = { s.ctx h with work := w }
  issued : ∀ c, (t.core c).issued = (s.core c).issued
  lastPos : ∀ c, (t.core c).lastPos = (s.core c).lastPos

theorem PushStep.refl (h : Nat) (s : State) : PushStep h s s := ⟨⟨_, rfl⟩, fun _ => rfl, fun _ => rfl⟩

theorem PushStep.trans {h : Nat} {s t u : State} (a : PushStep h s t) (b : PushStep h t u) : PushStep h s u := by
  obtain ⟨w, hw⟩ := a.ctx
  obtain ⟨w', hw'⟩ := b.ctx
  exact ⟨⟨w', by rw [hw', hw]⟩, fun c => (b.issued c).trans (a.issued c), fun c => (b.lastPos c).trans (a.lastPos c)⟩

theorem PushStep.mapWork (h : Nat) (s : State) (f : Ctx → Work) : PushStep h s (s.mapCtx h fun c => { c with work := f c }) :=
  ⟨⟨_, s.ctx_mapCtx_self h _⟩, fun _ => rfl, fun _ => rfl⟩

theorem PushStep.mapCore (h : Nat) (s : State) (core : Nat) (f : Core → Core)
    (hf : ∀ k, (f k).issued = k.issued ∧ (f k).lastPos = k.lastPos) : PushStep h s (s.mapCore core f) := by
  refine ⟨⟨_, rfl⟩, fun c => ?_, fun c => ?_⟩ <;> rw [s.core_mapCore] <;> split
  · subst_vars; exact (hf _).1
  · rfl
  · subst_vars; exact (hf _).2
  · rfl

theorem PushStep.engineWrite (h core addr : Nat) (data : List Byte) (s : State) : PushStep h s (engineWrite core addr data s) := by
  unfold Machine.engineWrite
  split
  · exact ⟨⟨_, rfl⟩, fun _ => rfl, fun _ => rfl⟩
  · exact .mapCore h s core _ fun _ => ⟨rfl, rfl⟩

theorem PushStep.pushEntry (h id : Nat) (bytes : List (Nat × Byte)) (s : State) : PushStep h s (pushEntry h id bytes s) := by
  unfold Machine.pushEntry
  refine PushStep.trans ?_ (.mapWork h _ _)
  exact foldl_keeps (PushStep h s) _ _ _ (.refl h s) fun t e ht => ht.trans (.engineWrite ..)

theorem PushStep.usePort (h : Nat) (u : PortUser) (core : Nat) (addrs : List Nat) (s : State) : PushStep h s (usePort u core addrs s) := by
  unfold Machine.usePort
  split
  · exact .refl h s
  · exact .mapCore h s core _ fun _ => ⟨rfl, rfl⟩

theorem PushStep.queuePort (h : Nat) (u : PortUser) (core : Nat) (addrs : List Nat) (s : State) : PushStep h s (queuePort u core addrs s) := by
  unfold Machine.queuePort
  split
  · exact .refl h s
  · refine .mapCore h s core _ fun k => ?_
    unfold Core.ask
    split <;> exact ⟨rfl, rfl⟩

theorem PushStep.landPush (h id : Nat) (lanes : List W32) (p : Pending) (s : State) : PushStep h s (landPush h id lanes p s) := by
  unfold Machine.landPush keepPush
  dsimp only
  split
  · exact .refl h s
  · split
    · exact .mapWork h s _
    · split
      · exact (PushStep.usePort ..).trans (.pushEntry ..)
      · exact (PushStep.queuePort ..).trans (.mapWork h _ _)

/-- A landing changes its context as its effect does, and what waits in it. -/
theorem ctx_applyPending (h : Nat) (s : State) (p : Pending) :
    ∃ w, (applyPending h s p).ctx h = { (s.ctx h).applyEffect p.due p.age p.eff with work := w } := by
  obtain ⟨due, age, e, held⟩ := p
  cases e with
  | push id x => exact (PushStep.landPush h id x _ s).ctx
  | v r mask x => exact ⟨_, s.ctx_mapCtx_self h fun c => c.applyEffect due age (.v r mask x)⟩
  | _ => exact ⟨_, s.ctx_mapCtx_self h _⟩

/-- No landing touches what a core issues. -/
theorem core_applyPending (h c : Nat) (s : State) (p : Pending) :
    ((applyPending h s p).core c).issued = (s.core c).issued ∧ ((applyPending h s p).core c).lastPos = (s.core c).lastPos := by
  obtain ⟨due, age, e, held⟩ := p
  cases e with
  | push id x => exact ⟨(PushStep.landPush h id x _ s).issued c, (PushStep.landPush h id x _ s).lastPos c⟩
  | v r mask x =>
    exact Sparse.get_map_rel (fun k k' : Core => k'.issued = k.issued ∧ k'.lastPos = k.lastPos) _ _ _ _ ⟨rfl, rfl⟩ fun _ => ⟨rfl, rfl⟩
  | _ => exact ⟨rfl, rfl⟩

theorem applyPending_sameFlow (h : Nat) (s : State) (p : Pending) : (s.ctx h).SameFlow ((applyPending h s p).ctx h) := by
  obtain ⟨w, hw⟩ := ctx_applyPending h s p
  rw [hw]
  exact ((s.ctx h).applyEffect_sameFlow p.due p.age p.eff).trans (.work _ w)

theorem applyPending_sameButMisses (h : Nat) {s t : State} (p : Pending) (hst : (s.ctx h).regs.SameButMisses (t.ctx h).regs) :
    ((applyPending h s p).ctx h).regs.SameButMisses ((applyPending h t p).ctx h).regs := by
  obtain ⟨w, hw⟩ := ctx_applyPending h s p
  obtain ⟨w', hw'⟩ := ctx_applyPending h t p
  rw [hw, hw']
  exact Ctx.applyEffect_sameButMisses p.due p.age p.eff hst

/-- The results of a context that are due now. -/
def dueNow (c : Ctx) : List Pending := c.work.landing.filter c.hasCome

/-- The results that are due now leave the landing buffer. -/
def takeDue (h : Nat) (s : State) : State :=
  s.mapCtx h fun c => { c with work := { c.work with landing := c.work.landing.filter fun p => !c.hasCome p } }

theorem landDue_eq (h : Nat) (s : State) :
    landDue h s = if (dueNow (s.ctx h)).isEmpty then s else (sortPending (dueNow (s.ctx h))).foldl (applyPending h) (takeDue h s) := rfl

/-- Landing leaves the flow of bundles. -/
theorem landDue_sameFlow (h : Nat) (s : State) : (s.ctx h).SameFlow ((landDue h s).ctx h) := by
  rw [landDue_eq]
  split
  · exact .refl _
  · refine foldl_keeps (fun t : State => (s.ctx h).SameFlow (t.ctx h)) _ _ _ ?_ fun t p ht => ht.trans (applyPending_sameFlow h t p)
    rw [takeDue, s.ctx_mapCtx_self]
    exact .work _ _

theorem core_landDue (h c : Nat) (s : State) :
    ((landDue h s).core c).issued = (s.core c).issued ∧ ((landDue h s).core c).lastPos = (s.core c).lastPos := by
  rw [landDue_eq]
  split
  · exact ⟨rfl, rfl⟩
  · refine foldl_keeps (fun t : State => (t.core c).issued = (s.core c).issued ∧ (t.core c).lastPos = (s.core c).lastPos) _ _ _
      ⟨rfl, rfl⟩ fun t p ht => ?_
    obtain ⟨hi, hl⟩ := core_applyPending h c t p
    exact ⟨hi.trans ht.1, hl.trans ht.2⟩

theorem foldl_sameButMisses (h : Nat) (ps : List Pending) {s t : State} (hst : (s.ctx h).regs.SameButMisses (t.ctx h).regs) :
    ((ps.foldl (applyPending h) s).ctx h).regs.SameButMisses ((ps.foldl (applyPending h) t).ctx h).regs := by
  induction ps generalizing s t with
  | nil => exact hst
  | cons p ps ih => exact ih (applyPending_sameButMisses h p hst)

/-- Landing does not look at the reuse misses. -/
theorem landDue_sameButMisses {h k : Nat} {s t : State}
    (hst : t.ctx h = { s.ctx h with regs := { (s.ctx h).regs with reusemiss := k } }) :
    ((landDue h s).ctx h).regs.SameButMisses ((landDue h t).ctx h).regs := by
  have hd : dueNow (t.ctx h) = dueNow (s.ctx h) := by rw [hst]; rfl
  rw [landDue_eq, landDue_eq, hd]
  split
  · rw [hst]; rfl
  · refine foldl_sameButMisses h _ ?_
    rw [takeDue, takeDue, State.ctx_mapCtx_self, State.ctx_mapCtx_self, hst]
    rfl

/-! ### What charging a bundle leaves -/

/-- What charges and barks leave: every context, and the operand latches of every core. -/
structure Charges (s t : State) : Prop where
  ctxs : t.ctxs = s.ctxs
  latchA : ∀ c, (t.core c).latchA = (s.core c).latchA
  latchB : ∀ c, (t.core c).latchB = (s.core c).latchB

theorem Charges.refl (s : State) : Charges s s := ⟨rfl, fun _ => rfl, fun _ => rfl⟩

theorem Charges.trans {s t u : State} (a : Charges s t) (b : Charges t u) : Charges s u :=
  ⟨b.ctxs.trans a.ctxs, fun c => (b.latchA c).trans (a.latchA c), fun c => (b.latchB c).trans (a.latchB c)⟩

theorem Charges.mapCore (s : State) (core : Nat) (f : Core → Core) (hf : ∀ k, (f k).latchA = k.latchA ∧ (f k).latchB = k.latchB) :
    Charges s (s.mapCore core f) := by
  refine ⟨rfl, fun c => ?_, fun c => ?_⟩ <;> rw [s.core_mapCore] <;> split
  · subst_vars; exact (hf _).1
  · rfl
  · subst_vars; exact (hf _).2
  · rfl

theorem Charges.charge (c n : Nat) (s : State) : Charges s (charge c n s) := by
  unfold Machine.charge
  split
  · exact .refl s
  · exact .trans (.mapCore s c (fun k => { k with sum := k.sum + n }) fun _ => ⟨rfl, rfl⟩) ⟨rfl, fun _ => rfl, fun _ => rfl⟩

theorem Core.takeBark_latches (held : Bool) (k : Core) : (k.takeBark held).latchA = k.latchA ∧ (k.takeBark held).latchB = k.latchB := by
  unfold Core.takeBark
  split
  · exact ⟨rfl, rfl⟩
  · split <;> exact ⟨rfl, rfl⟩

theorem Charges.raiseBark (d q : Nat) (run : Bool) (s : State) : Charges s (raiseBark d q run s) := by
  have hbark : Charges s ((barkCores s d q run).foldl (fun t c => t.mapCore c (Core.takeBark (t.coreHeld c))) s) :=
    foldl_keeps (Charges s) _ _ s (.refl s) fun t c ht => ht.trans (.mapCore t c _ (Core.takeBark_latches _))
  exact hbark.trans ⟨rfl, fun _ => rfl, fun _ => rfl⟩

theorem Charges.wakeTrigger (h lanes : Nat) (s : State) : Charges s (wakeTrigger h lanes s) := by
  unfold Machine.wakeTrigger
  dsimp only
  split
  · exact .raiseBark ..
  · exact .refl s

/-- The charge of a bundle changes the energy account of its context and when it last used its lanes. -/
theorem ctx_chargeBundle (h : Nat) (before : Ctx) (b : Bundle) (lanes : Nat) (s : State) :
    ∃ energy since, (chargeBundle h before b lanes s).ctx h = { s.ctx h with energy := energy, vecSince := since } := by
  have hc := (Charges.charge (coreOf h) (b.sched.wt.toNat + 4 * before.energy.step) s).trans (.wakeTrigger h lanes _)
  have hctx : (wakeTrigger h lanes (charge (coreOf h) (b.sched.wt.toNat + 4 * before.energy.step) s)).ctx h = s.ctx h := by
    simp only [State.ctx, hc.ctxs]
  unfold chargeBundle
  dsimp only
  rw [State.ctx_mapCtx_self, hctx]
  exact ⟨_, _, rfl⟩

theorem core_chargeBundle (h : Nat) (before : Ctx) (b : Bundle) (lanes : Nat) (s : State) (c : Nat) :
    ((chargeBundle h before b lanes s).core c).latchA = (s.core c).latchA ∧
      ((chargeBundle h before b lanes s).core c).latchB = (s.core c).latchB :=
  have hc := (Charges.charge (coreOf h) (b.sched.wt.toNat + 4 * before.energy.step) s).trans (.wakeTrigger h lanes _)
  ⟨hc.latchA c, hc.latchB c⟩

/-! ### Reuse misses (R29) -/

/-- The reuse miss, 0 or 1, of a vector slot that executes an instruction or none. -/
def slotMiss (before : Ctx) (l : Option OperandLatch) (reuse : Bool) : Option Instr → Nat
  | none => 0
  | some i => if (latchAfter before l reuse i).2 = true then 1 else 0

theorem latchAfter_misses (before : Ctx) (l : Option OperandLatch) (reuse : Bool) (i : Instr) :
    (latchAfter before l reuse i).2 = true ↔ reuse = true ∧ ∀ x ∈ firstSource i, ∀ l' ∈ l, before.bound x.toNat = none →
      l'.cont = before.cont → l'.rank = before.rank → l'.reg = before.phys x.toNat → l'.fresh = false := by
  unfold latchAfter
  cases firstSource i with
  | none => simp
  | some x =>
    cases hb : before.bound x.toNat with
    | some st => simp [hb]
    | none =>
      cases l with
      | none => simp [hb]
      | some l =>
        simp only [hb, Option.isSome_none, Bool.false_eq_true, if_false, Option.any_some, Option.mem_some_iff, forall_eq', forall_const,
          Bool.and_eq_true, Bool.not_eq_true', Bool.and_eq_false_imp, beq_iff_eq, and_imp]

/-- The reuse misses of a bundle's two vector slots. -/
def bundleMisses (h : Nat) (before : Ctx) (b : Bundle) (es : List (Nat × Instr)) (s : State) : Nat :=
  slotMiss before (s.core (coreOf h)).latchA b.sched.reuseA (executedIn es 2) +
    slotMiss before (s.core (coreOf h)).latchB b.sched.reuseB (executedIn es 3)

/-- The reuse bits of a bundle change the operand latches of its core and add its misses. -/
theorem reuseBits_eq (h : Nat) (before : Ctx) (b : Bundle) (es : List (Nat × Instr)) (s : State) :
    ∃ la lb, reuseBits h before b es s = (s.mapCore (coreOf h) fun k => { k with latchA := la, latchB := lb }).mapCtx h fun c =>
      { c with regs := { c.regs with reusemiss := c.regs.reusemiss + bundleMisses h before b es s } } := by
  unfold reuseBits bundleMisses
  dsimp only
  cases executedIn es 2 <;> cases executedIn es 3 <;> exact ⟨_, _, rfl⟩

/-! ### The end of a bundle -/

/-- The core of a context that has issued, and its continuation, whose watchdog starts again. -/
def closeBundle (h i : Nat) (s : State) : State :=
  { (s.mapCore (coreOf h) fun k => { k with issued := true, lastPos := h % 4 }).mapCont i fun k => { k with clock := 0 } with
    focusCtx := h, focusSlot := 0, signal := .none }

@[simp] theorem ctx_closeBundle (h i k : Nat) (s : State) : (closeBundle h i s).ctx k = s.ctx k := rfl

theorem core_closeBundle (h i : Nat) (s : State) :
    (closeBundle h i s).core (coreOf h) = { s.core (coreOf h) with issued := true, lastPos := h % 4 } :=
  s.core_mapCore_self (coreOf h) fun k => { k with issued := true, lastPos := h % 4 }

/-- The end of a bundle up to the landing of what is due. -/
def endBundle (h : Nat) (before : Ctx) (b : Bundle) (es : List (Nat × Instr)) (s : State) : State :=
  let s := reuseBits h before b es (chargeBundle h before b (bundleLanes before.regs es) s)
  closeBundle h before.cont (s.mapCtx h fun c => before.advance (s.core (coreOf h)).rotated c b es)

theorem finishBundle_eq (h : Nat) (before : Ctx) (b : Bundle) (es : List (Nat × Instr)) (s : State) :
    finishBundle h before b es s = landDue h (endBundle h before b es s) := rfl

/-- The context that a bundle's end leaves is the charged one, with its misses, advanced. -/
theorem ctx_endBundle (h : Nat) (before : Ctx) (b : Bundle) (es : List (Nat × Instr)) (s : State) :
    let u := chargeBundle h before b (bundleLanes before.regs es) s
    (endBundle h before b es s).ctx h = before.advance (u.core (coreOf h)).rotated
      { u.ctx h with regs := { (u.ctx h).regs with reusemiss := (u.ctx h).regs.reusemiss + bundleMisses h before b es u } } b es := by
  intro u
  obtain ⟨la, lb, hr⟩ := reuseBits_eq h before b es u
  simp only [endBundle, ctx_closeBundle, State.ctx_mapCtx_self]
  rw [show reuseBits h before b es (chargeBundle h before b (bundleLanes before.regs es) s) = _ from hr, State.ctx_mapCtx_self,
    State.core_mapCtx, State.core_mapCore_self, State.ctx_mapCore]

theorem core_endBundle (h : Nat) (before : Ctx) (b : Bundle) (es : List (Nat × Instr)) (s : State) :
    ((endBundle h before b es s).core (coreOf h)).issued = true ∧ ((endBundle h before b es s).core (coreOf h)).lastPos = h % 4 := by
  simp [endBundle, core_closeBundle]

/-- A bundle with other reuse bits. -/
def withReuse (b : Bundle) (x y : Bool) : Bundle := { b with sched := { b.sched with reuseA := x, reuseB := y } }

/-- The charge of a bundle and the advance of its context do not look at the reuse bits. -/
theorem chargeBundle_reuse (h : Nat) (c : Ctx) (b : Bundle) (lanes : Nat) (s : State) (x y : Bool) :
    chargeBundle h c (withReuse b x y) lanes s = chargeBundle h c b lanes s := rfl

theorem Ctx.advance_reuse (rotated : Bool) (before c : Ctx) (b : Bundle) (es : List (Nat × Instr)) (x y : Bool) (k : Nat) :
    before.advance rotated { c with regs := { c.regs with reusemiss := k } } (withReuse b x y) es =
      { before.advance rotated c b es with regs := { (before.advance rotated c b es).regs with reusemiss := k } } := rfl

/-- Other reuse bits change the reuse misses of the context alone. -/
theorem ctx_endBundle_reuse (h : Nat) (before : Ctx) (b : Bundle) (es : List (Nat × Instr)) (s : State) (x y : Bool) :
    ∃ k, (endBundle h before (withReuse b x y) es s).ctx h =
      { (endBundle h before b es s).ctx h with regs := { ((endBundle h before b es s).ctx h).regs with reusemiss := k } } := by
  rw [ctx_endBundle, ctx_endBundle, chargeBundle_reuse]
  generalize chargeBundle h before b (bundleLanes before.regs es) s = u
  rw [Ctx.advance_reuse]
  exact ⟨_, rfl⟩

/-! ### Core cycles -/

/-- Core cycles of a running context use up its stall and leave its count. -/
theorem iterate_nextCycle {c : Ctx} (hc : c.halted = false) (n : Nat) :
    (Ctx.nextCycle^[n] c).halted = false ∧ (Ctx.nextCycle^[n] c).stallLeft = c.stallLeft - n ∧
      (Ctx.nextCycle^[n] c).count = c.count ∧ (Ctx.nextCycle^[n] c).span = c.span := by
  induction n with
  | zero => exact ⟨hc, rfl, rfl, rfl⟩
  | succ n ih =>
    obtain ⟨hh, hs, hn, hp⟩ := ih
    rw [Function.iterate_succ_apply', Ctx.nextCycle, if_neg (by rw [hh]; exact Bool.false_ne_true)]
    exact ⟨hh, by rw [← Nat.sub_sub, ← hs], hn, hp⟩

/-- The count that a context has reached so many core cycles after its bundle (R26). -/
theorem nowCount_iterate {c : Ctx} (hc : c.halted = false) {count span cost : Nat} (hn : c.count = count + span)
    (hs : c.stallLeft = span + cost) (hp : c.span = span) (n : Nat) :
    (Ctx.nextCycle^[n] c).nowCount = count + min (n - cost) span := by
  obtain ⟨-, hs', hn', hp'⟩ := iterate_nextCycle hc n
  rw [Ctx.nowCount, hs', hn', hp', hn, hs, hp]
  omega

/-! ### What a bundle's end comes to -/

theorem slotMiss_eq (before : Ctx) (l : Option OperandLatch) (reuse : Bool) (o : Option Instr) :
    slotMiss before l reuse o = match o with
      | none => 0
      | some i => if reuse = true ∧ (∀ x ∈ firstSource i, ∀ l' ∈ l, before.bound x.toNat = none → l'.cont = before.cont →
          l'.rank = before.rank → l'.reg = before.phys x.toNat → l'.fresh = false) then 1 else 0 := by
  cases o with
  | none => rfl
  | some i => exact if_congr (latchAfter_misses before l reuse i) rfl rfl

/-- The misses of a bundle are those against the latches as the bundle found them. -/
theorem bundleMisses_charged (h : Nat) (before : Ctx) (b : Bundle) (es : List (Nat × Instr)) (lanes : Nat) (s : State) :
    bundleMisses h before b es (chargeBundle h before b lanes s) = bundleMisses h before b es s := by
  obtain ⟨hA, hB⟩ := core_chargeBundle h before b lanes s (coreOf h)
  rw [bundleMisses, hA, hB, bundleMisses]

/-- A context after its bundle, in the fields by which bundles follow each other (R24, R26, R29, R91). -/
def Ctx.afterBundle (c : Ctx) (b : Bundle) (es : List (Nat × Instr)) (misses : Nat) : Ctx :=
  { c with
    pc := c.branchTo.getD (c.pc + 32), branchTo := none, count := c.count + 1 + b.sched.stall.toNat, retired := c.retired + 1
    stallLeft := 1 + b.sched.stall.toNat + branchCost es c.branchTo.isSome, span := 1 + b.sched.stall.toNat
    regs := { c.regs with reusemiss := c.regs.reusemiss + misses } }

section
variable (h : Nat) (before : Ctx) (b : Bundle) (es : List (Nat × Instr)) (s : State)

theorem flow_endBundle :
    ((s.ctx h).afterBundle b es (bundleMisses h before b es s)).SameFlow ((endBundle h before b es s).ctx h) := by
  obtain ⟨energy, since, hc⟩ := ctx_chargeBundle h before b (bundleLanes before.regs es) s
  rw [ctx_endBundle, hc, bundleMisses_charged]
  exact ⟨rfl, rfl, rfl, rfl, rfl, rfl, rfl, rfl⟩

/-- What lands with the end of a bundle leaves its flow. -/
theorem flow_finishBundle :
    ((s.ctx h).afterBundle b es (bundleMisses h before b es s)).SameFlow ((finishBundle h before b es s).ctx h) :=
  (flow_endBundle h before b es s).trans (landDue_sameFlow h _)

theorem pc_finishBundle : ((finishBundle h before b es s).ctx h).pc = (s.ctx h).branchTo.getD ((s.ctx h).pc + 32) :=
  (flow_finishBundle h before b es s).pc

/-- The count that the context has reached so many core cycles after its bundle: first pass the cycles of a taken branch (log entry 60). -/
theorem nowCount_finishBundle (hc : (s.ctx h).halted = false) (n : Nat) :
    (Ctx.nextCycle^[n] ((finishBundle h before b es s).ctx h)).nowCount =
      (s.ctx h).count + min (n - branchCost es (s.ctx h).branchTo.isSome) (1 + b.sched.stall.toNat) := by
  have hflow := flow_finishBundle h before b es s
  exact nowCount_iterate (hflow.halted.trans hc) (hflow.count.trans (Nat.add_assoc _ _ _)) hflow.stallLeft hflow.span n

theorem reusemiss_finishBundle : ((finishBundle h before b es s).ctx h).regs.reusemiss = (s.ctx h).regs.reusemiss +
    slotMiss before (s.core (coreOf h)).latchA b.sched.reuseA (executedIn es 2) +
    slotMiss before (s.core (coreOf h)).latchB b.sched.reuseB (executedIn es 3) :=
  (flow_finishBundle h before b es s).reusemiss.trans (Nat.add_assoc _ _ _).symm

end

/-- No register is other for the reuse bits (R29). -/
theorem regs_finishBundle_reuse (h : Nat) (before : Ctx) (b : Bundle) (es : List (Nat × Instr)) (s : State) (x y : Bool) :
    { ((finishBundle h before (withReuse b x y) es s).ctx h).regs with reusemiss := 0 } =
      { ((finishBundle h before b es s).ctx h).regs with reusemiss := 0 } := by
  obtain ⟨k, hk⟩ := ctx_endBundle_reuse h before b es s x y
  rw [finishBundle_eq, finishBundle_eq]
  exact landDue_sameButMisses hk

theorem core_finishBundle (h : Nat) (before : Ctx) (b : Bundle) (es : List (Nat × Instr)) (s : State) :
    ((finishBundle h before b es s).core (coreOf h)).issued = true ∧ ((finishBundle h before b es s).core (coreOf h)).lastPos = h % 4 := by
  rw [finishBundle_eq]
  obtain ⟨hi, hl⟩ := core_landDue h (coreOf h) (endBundle h before b es s)
  obtain ⟨hi', hl'⟩ := core_endBundle h before b es s
  exact ⟨hi.trans hi', hl.trans hl'⟩

/-- The step that issues the bundle of one encoded instruction among zero words runs that bundle (R22, R37). -/
theorem step_issue_lone {s : State} {h n : Nat} {i : Instr} {ms : List Move} (ha : s.agenda = .issue h :: ms) (hw : WellFormed i = true)
    (hn : slotOf i = some n) (hp : pickOn { s with agenda := ms } (coreOf h) = some h) (hf : (s.ctx h).work.holdFault = false)
    (ho : (s.ctx h).work.overran = false) (hc : inCode { s with agenda := ms } (s.ctx h) (s.ctx h).pc = true)
    (hwords : ∀ j < 8, Sparse.get 0 (s.imageOf (s.ctx h).cont).code (((s.ctx h).pc - (s.ctx h).regs.image).toNat / 4 + j) =
      if j = n then encode i else 0) :
    decodeBundle ((List.range 8).map fun j => if j = n then encode i else 0) = .ok (loneBundle n i) ∧
      step s = andThen (runBundle h (loneBundle n i) { s with agenda := ms }) settle := by
  have hdec := decodeBundle_one n (slotOf_lt i n hn) i (decodeOfEncode.1 i n hw hn)
  refine ⟨hdec, ?_⟩
  have hread : (List.range 8).map (fun j => Sparse.get 0 (s.imageOf (s.ctx h).cont).code
      (((s.ctx h).pc - (s.ctx h).regs.image).toNat / 4 + j)) = (List.range 8).map fun j => if j = n then encode i else 0 :=
    List.map_congr_left fun j hj => hwords j (List.mem_range.mp hj)
  have hfetch : fetchBundle { s with agenda := ms } h = .ok (loneBundle n i) := fetchBundle_ok hc ((congrArg decodeBundle hread).trans hdec)
  rw [step_issue ha, issueBundle_picked hp hf ho hfetch]

/-- Settles O7: the step is one bundle's run, whose `nop`s change the focus alone; the end of a bundle is its context advanced, which landing
leaves; and what executes is looked up by the slots whose guard is on. -/
theorem stepRunsDecodedInstruction : Obligations.StepRunsDecodedInstruction := by
  refine ⟨?_, ?_, fun q b => ⟨fun k i => ?_, executing_keys_nodup q b⟩, fun s h b b' hs hl hb => runBundle_congr hs hl hb⟩
  · intro s h ms i n s' ha hw hn hp hf ho hc hwords
    have hn7 : n < 7 := slotOf_lt i n hn
    obtain ⟨hdec, hstep⟩ := step_issue_lone ha hw hn hp hf ho hc hwords
    refine ⟨loneBundle n i, hdec, loneBundle_slot hn7 i, hstep.trans ?_⟩
    have hfocus : exec i { beginBundle h s' with focusCtx := h, focusSlot := n, signal := .none } =
      exec i (refocus h n .none (beginBundle h s')) := rfl
    rw [hfocus]
    cases hx : exec i (refocus h n .none (beginBundle h s')) with
    | next t =>
      cases hs : t.signal with
      | none =>
        rw [runBundle_lone_effect hn7 hx hs]
        dsimp only
        rw [hs]
        rfl
      | waits =>
        rw [runBundle_lone_waits hn7 hx hs]
        dsimp only
        rw [hs]
        rfl
      | fault cls addr =>
        rw [runBundle_lone_fault hn7 hx hs]
        dsimp only
        rw [hs]
        rfl
    | fault f =>
      rw [runBundle_lone_stops hn7 hx (by simp)]
      rfl
    | refused f =>
      rw [runBundle_lone_stops hn7 hx (by simp)]
      rfl
  · intro s h before b es
    dsimp only
    have hflow := flow_finishBundle h before b es s
    obtain ⟨hissued, hlast⟩ := core_finishBundle h before b es s
    have hpc := pc_finishBundle h before b es s
    have hmiss := reusemiss_finishBundle h before b es s
    rw [slotMiss_eq, slotMiss_eq] at hmiss
    refine ⟨hflow.count, hflow.retired, hflow.branchTo, fun x hx => ?_, fun hx => ?_, hflow.stallLeft,
      fun hc n => nowCount_finishBundle h before b es s hc n, hissued, hlast, hmiss,
      fun x y => ?_⟩
    · rw [hx] at hpc
      exact hpc
    · rw [hx] at hpc
      exact hpc
    · have hregs := regs_finishBundle_reuse h before b es s x y
      simpa only [withReuse] using hregs
  · rw [mem_executing, guardOn_iff]

end Sys2Proof.Machine

/-! SUPPORT. The statement on float elements of vectors: what a vector slot with ready operands answers, the codes of a format in order,
`Round` of R79 on them, and the exact values of the float operations. -/

namespace Sys2Proof.Machine

/-! ### Vector operations on ready operands (R93, R118, R353) -/

section
variable {s : State} {d a : Reg} {b : VSrc} {srcs : List Reg}

theorem vectorOp_ready {bs : List VSrc} (h : s.VectorReady d srcs bs) (L : Nat) (mask : W64) (r : List W32 × Flags5) :
    vectorOp d srcs (bs.map s.here.checkVSrc) L mask r s = .next (s.vectorLands d srcs L mask r) := by
  obtain ⟨hd, hsrcs, hbs⟩ := h
  have hok : checks (s.here.checkDestV d :: srcs.map s.here.checkSrcV ++ bs.map s.here.checkVSrc) = .ok :=
    (checks_eq_ok _).mpr (by simpa [or_imp, forall_and] using ⟨hd, hsrcs, hbs⟩)
  rw [vectorOp, hok, under_ok]
  rfl

theorem vector1_ready (h : s.VectorReady d [a] []) (m : Reg3) (L : Nat) (f : W32 → LaneFlags) :
    vector1 d a m L f s = .next (s.vectorLands d [a] L (srcM s m) (maskedFlags (srcM s m) ((s.here.readSrcV a).map f))) :=
  vectorOp_ready h _ _ _

theorem vector2_ready (h : s.VectorReady d (a :: vsrcRegs b) [b]) (m : Reg3) (L : Nat) (f : W32 → W32 → LaneFlags) :
    vector2 d a b m L f s = .next (s.vectorLands d (a :: vsrcRegs b) L (srcM s m)
      (maskedFlags (srcM s m) (List.zipWith f (s.here.readSrcV a) (s.here.readVSrc b)))) :=
  vectorOp_ready h _ _ _

theorem vector3_ready (h : s.VectorReady d (d :: a :: vsrcRegs b) [b]) (m : Reg3) (L : Nat) (f : W32 → W32 → W32 → LaneFlags) :
    vector3 d a b m L f s = .next (s.vectorLands d (d :: a :: vsrcRegs b) L (srcM s m)
      (maskedFlags (srcM s m) (zip3 f (s.here.readSrcV a) (s.here.readVSrc b) (s.here.readSrcV d)))) :=
  vectorOp_ready h _ _ _

end

/-! ### Float elements (R54, R356) -/

section
variable {t : ElemType} {f : FloatFmt}

theorem ElemOp.on_float (h : vecFloat t = some f) (op : ElemOp) : op.on t = op.onFloat f := by
  funext x y; simp [ElemOp.on, h]

theorem elemFma_float (h : vecFloat t = some f) : elemFma t = floatFma f := by
  funext x y z; simp [elemFma, h]

theorem elemSign_float (h : vecFloat t = some f) (isNeg : Bool) : elemSign isNeg t = floatSign isNeg f := by
  funext x; simp [elemSign, h]

theorem vecFloat_of_mem (h : (t, f) ∈ ([(.f32, fmtF32), (.bf16, fmtBf16), (.f16, fmtF16)] : List (ElemType × FloatFmt))) :
    vecFloat t = some f := by
  simp only [List.mem_cons, Prod.mk.injEq, List.not_mem_nil, or_false] at h
  obtain ⟨rfl, rfl⟩ | ⟨rfl, rfl⟩ | ⟨rfl, rfl⟩ := h <;> rfl

theorem arith2_float {s : State} {d a : Reg} {b : VSrc} (h : vecFloat t = some f) (hr : s.VectorReady d (a :: vsrcRegs b) [b])
    (op : ElemOp) (L : Nat) (m : Reg3) :
    arith2 op L d a b m t s = .next (s.vectorLands d (a :: vsrcRegs b) L (srcM s m)
      (maskedFlags (srcM s m) (List.zipWith (lane2 t (op.onFloat f)) (s.here.readSrcV a) (s.here.readVSrc b)))) := by
  rw [arith2, op.on_float h, vector2_ready hr]

end

/-! ### The codes of a format (R77) -/

section
variable (f : FloatFmt)

/-- The mantissa n at the k-th step above the smallest, carries into the next exponent included. -/
theorem FloatFmt.magnitude_step {k n : Nat} (hn : n ≤ 2 ^ (f.m + 1)) (hk : k = 0 ∨ 2 ^ f.m ≤ n) :
    f.magnitude (k * 2 ^ f.m + n) = n * (2 : ℚ) ^ (f.minExp + k) := by
  have hpos : 0 < 2 ^ f.m := Nat.two_pow_pos f.m
  by_cases hsub : n < 2 ^ f.m
  · obtain rfl : k = 0 := hk.resolve_right (by omega)
    simp [magnitude, hsub]
  · have hge : ¬ k * 2 ^ f.m + n < 2 ^ f.m := by omega
    rw [magnitude, if_neg hge]
    rcases hn.lt_or_eq with hlt | rfl
    · obtain ⟨j, rfl⟩ : ∃ j, n = 2 ^ f.m + j := ⟨n - 2 ^ f.m, by omega⟩
      have hj : j < 2 ^ f.m := by omega
      have hcode : k * 2 ^ f.m + (2 ^ f.m + j) = 2 ^ f.m * (k + 1) + j := by ring
      rw [hcode, Nat.mul_add_mod, Nat.mod_eq_of_lt hj, Nat.mul_add_div hpos, Nat.div_eq_of_lt hj]
      congr 2
      push_cast
      ring
    · have hcode : k * 2 ^ f.m + 2 ^ (f.m + 1) = 2 ^ f.m * (k + 2) := by ring
      rw [hcode, Nat.mul_mod_right, Nat.mul_div_cancel_left _ hpos]
      have hexp : f.minExp + ((k + 2 : Nat) : Int) - 1 = f.minExp + k + 1 := by push_cast; ring
      rw [hexp, zpow_add_one₀ two_ne_zero]
      push_cast
      ring

/-- Every code is a mantissa at a step. -/
theorem FloatFmt.exists_step (c : Nat) : ∃ k n, c = k * 2 ^ f.m + n ∧ n < 2 ^ (f.m + 1) ∧ (k = 0 ∨ 2 ^ f.m ≤ n) := by
  by_cases hc : c < 2 ^ f.m
  · exact ⟨0, c, by simp, by omega, .inl rfl⟩
  · have hmod : c % 2 ^ f.m < 2 ^ f.m := Nat.mod_lt _ (Nat.two_pow_pos _)
    have hdiv : 1 ≤ c / 2 ^ f.m := (Nat.one_le_div_iff (Nat.two_pow_pos _)).mpr (by omega)
    refine ⟨c / 2 ^ f.m - 1, 2 ^ f.m + c % 2 ^ f.m, ?_, by omega, .inr (by omega)⟩
    calc c = c / 2 ^ f.m * 2 ^ f.m + c % 2 ^ f.m := (Nat.div_add_mod' _ _).symm
      _ = (c / 2 ^ f.m - 1 + 1) * 2 ^ f.m + c % 2 ^ f.m := by rw [Nat.sub_add_cancel hdiv]
      _ = _ := by ring

theorem FloatFmt.magnitude_strictMono : StrictMono f.magnitude := by
  refine strictMono_nat_of_lt_succ fun c => ?_
  obtain ⟨k, n, rfl, hn, hk⟩ := f.exists_step c
  rw [f.magnitude_step hn.le hk, add_assoc, f.magnitude_step hn (hk.imp_right (by omega))]
  exact mul_lt_mul_of_pos_right (by push_cast; linarith) (by positivity)

theorem FloatFmt.magnitude_zero : f.magnitude 0 = 0 := by simp [magnitude]

end

/-! ### Rounding (R79) -/

/-- The part r of a step that a cut discards, and what the cut says of it. -/
theorem cutAt_rest (m : Nat) (e q : Int) : ∃ r : ℝ, 0 ≤ r ∧ r < 1 ∧ (m : ℝ) * 2 ^ e = ((cutAt m e q).1 + r) * 2 ^ q ∧
    (cutAt m e q).2 = (decide (r = 0), decide (1 / 2 < r), decide (r = 1 / 2)) := by
  unfold cutAt
  split
  next hqe =>
    refine ⟨0, le_rfl, one_pos, ?_, by norm_num⟩
    obtain ⟨k, rfl⟩ : ∃ k : Nat, e = q + k := ⟨(e - q).toNat, by omega⟩
    rw [show (q + k - q).toNat = k by omega, zpow_add₀ two_ne_zero, zpow_natCast]
    push_cast
    ring
  next hqe =>
    obtain ⟨k, rfl⟩ : ∃ k : Nat, q = e + k := ⟨(q - e).toNat, by omega⟩
    rw [show (e + k - e).toNat = k by omega]
    have hpow : (0 : ℝ) < 2 ^ k := by positivity
    have hlt : ((m % 2 ^ k : Nat) : ℝ) < 2 ^ k := by exact_mod_cast Nat.mod_lt m (Nat.two_pow_pos k)
    have hm : (m : ℝ) = 2 ^ k * (m / 2 ^ k : Nat) + (m % 2 ^ k : Nat) := by exact_mod_cast (Nat.div_add_mod m (2 ^ k)).symm
    refine ⟨(m % 2 ^ k : Nat) / 2 ^ k, by positivity, (div_lt_one hpow).mpr hlt, ?_, ?_⟩
    · rw [zpow_add₀ two_ne_zero, zpow_natCast, add_mul, mul_comm ((2 : ℝ) ^ e), ← mul_assoc, ← mul_assoc, div_mul_cancel₀ _ hpow.ne']
      nth_rw 1 [hm]
      ring
    · have hzero : (((m % 2 ^ k : Nat) : ℝ) / 2 ^ k = 0) ↔ m % 2 ^ k = 0 := by
        rw [div_eq_zero_iff, or_iff_left hpow.ne', Nat.cast_eq_zero]
      have habove : ((1 : ℝ) / 2 < (m % 2 ^ k : Nat) / 2 ^ k) ↔ 2 ^ k < 2 * (m % 2 ^ k) := by
        rw [div_lt_div_iff₀ two_pos hpow, one_mul, mul_comm]; exact_mod_cast Iff.rfl
      have hhalf : (((m % 2 ^ k : Nat) : ℝ) / 2 ^ k = 1 / 2) ↔ 2 * (m % 2 ^ k) = 2 ^ k := by
        rw [div_eq_div_iff hpow.ne' two_ne_zero, one_mul, mul_comm]; exact_mod_cast Iff.rfl
      simp only [hzero, habove, hhalf]

/-- `roundsUp` to nearest even, on the part r of a step that a cut discards. -/
theorem roundsUp_rne (neg : Bool) (c : Nat) (r : ℝ) :
    roundsUp .rne neg (c % 2 == 1) (decide (r = 0)) (decide (1 / 2 < r)) (decide (r = 1 / 2)) = true ↔
      1 / 2 < r ∨ r = 1 / 2 ∧ c % 2 = 1 := by
  simp [roundsUp]

/-- An exact value rounds to its own code. -/
theorem picked_exact (rm : Rounding) (neg : Bool) (c : Nat) :
    (if roundsUp rm neg (c % 2 == 1) (decide ((0 : ℝ) = 0)) (decide ((1 : ℝ) / 2 < 0)) (decide ((0 : ℝ) = 1 / 2)) then c + 1 else c) = c := by
  have habove : ¬ (1 : ℝ) / 2 < 0 := by norm_num
  have hhalf : ¬ (0 : ℝ) = 1 / 2 := by norm_num
  cases rm <;> simp [roundsUp, habove, hhalf, -one_div]

/-! ### The code that a rounding picks, for a value the part r of the way from a code c to the next -/

section
variable {f : FloatFmt} {x r : ℝ} {c : Nat}

theorem FloatFmt.magnitude_lt_iff {n k : Nat} : (f.magnitude n : ℝ) < f.magnitude k ↔ n < k := by
  exact_mod_cast f.magnitude_strictMono.lt_iff_lt

theorem FloatFmt.magnitude_le_iff {n k : Nat} : (f.magnitude n : ℝ) ≤ f.magnitude k ↔ n ≤ k := by
  exact_mod_cast f.magnitude_strictMono.le_iff_le

variable (h0 : 0 ≤ r) (h1 : r < 1) (hx : x = f.magnitude c + r * (f.magnitude (c + 1) - f.magnitude c))
include h0 h1 hx

theorem FloatFmt.between_codes : (f.magnitude c : ℝ) ≤ x ∧ x < f.magnitude (c + 1) := by
  have hstep : (f.magnitude c : ℝ) < f.magnitude (c + 1) := magnitude_lt_iff.mpr c.lt_succ_self
  constructor <;> nlinarith

theorem FloatFmt.magnitude_eq_iff (n : Nat) : (f.magnitude n : ℝ) = x ↔ n = c ∧ r = 0 := by
  have hstep : (f.magnitude c : ℝ) < f.magnitude (c + 1) := magnitude_lt_iff.mpr c.lt_succ_self
  constructor
  · intro hn
    obtain rfl : n = c := by
      have hle : c ≤ n := magnitude_le_iff.mp ((between_codes h0 h1 hx).1.trans_eq hn.symm)
      have hlt : n < c + 1 := magnitude_lt_iff.mp (hn.trans_lt (between_codes h0 h1 hx).2)
      omega
    have hprod : r * (f.magnitude (n + 1) - f.magnitude n : ℝ) = 0 := by linarith
    exact ⟨rfl, (mul_eq_zero.mp hprod).resolve_right (by linarith)⟩
  · rintro ⟨rfl, rfl⟩
    linarith

theorem FloatFmt.picks_up {p : Nat} (hp : p = if r = 0 then c else c + 1) : x ≤ f.magnitude p ∧ ∀ n < p, (f.magnitude n : ℝ) < x := by
  subst hp
  split
  next hr =>
    have heq : (f.magnitude c : ℝ) = x := (magnitude_eq_iff h0 h1 hx c).mpr ⟨rfl, hr⟩
    exact ⟨heq.ge, fun n hn => (magnitude_lt_iff.mpr hn).trans_eq heq⟩
  next hr =>
    have hne : (f.magnitude c : ℝ) ≠ x := fun he => hr ((magnitude_eq_iff h0 h1 hx c).mp he).2
    exact ⟨(between_codes h0 h1 hx).2.le, fun n hn =>
      (magnitude_le_iff.mpr (Nat.le_of_lt_succ hn)).trans_lt ((between_codes h0 h1 hx).1.lt_of_ne hne)⟩

/-- No code is nearer than the nearer of the two neighbours, and no third code is as near. -/
theorem FloatFmt.nearest_neighbour {d : ℝ} (hlow : d ≤ |x - f.magnitude c|) (hhigh : d ≤ |x - f.magnitude (c + 1)|) (n : Nat) :
    d ≤ |x - f.magnitude n| ∧ (|x - f.magnitude n| = d → n = c ∨ n = c + 1) := by
  obtain ⟨hle, hlt⟩ := between_codes h0 h1 hx
  rw [abs_of_nonneg (by linarith)] at hlow
  rw [abs_of_nonpos (by linarith)] at hhigh
  rcases lt_or_ge n (c + 1) with hn | hn
  · have hmono : (f.magnitude n : ℝ) ≤ f.magnitude c := magnitude_le_iff.mpr (Nat.le_of_lt_succ hn)
    rw [abs_of_nonneg (by linarith)]
    refine ⟨by linarith, fun he => .inl ?_⟩
    have hge : c ≤ n := magnitude_le_iff.mp (by linarith)
    omega
  · have hmono : (f.magnitude (c + 1) : ℝ) ≤ f.magnitude n := magnitude_le_iff.mpr hn
    rw [abs_of_nonpos (by linarith)]
    refine ⟨by linarith, fun he => .inr ?_⟩
    have hle : n ≤ c + 1 := magnitude_le_iff.mp (by linarith)
    omega

theorem FloatFmt.picks_nearest {neg : Bool} {p : Nat} (hp : p = if 1 / 2 < r ∨ r = 1 / 2 ∧ c % 2 = 1 then c + 1 else c) :
    f.Picks .rne neg x p := by
  have hstep : (f.magnitude c : ℝ) < f.magnitude (c + 1) := magnitude_lt_iff.mpr c.lt_succ_self
  have hlow : |x - f.magnitude c| = r * (f.magnitude (c + 1) - f.magnitude c) := by
    rw [abs_of_nonneg (by linarith [(between_codes h0 h1 hx).1]), hx]; ring
  have hhigh : |x - f.magnitude (c + 1)| = (1 - r) * (f.magnitude (c + 1) - f.magnitude c) := by
    rw [abs_of_nonpos (by linarith [(between_codes h0 h1 hx).2]), hx]; ring
  have hnear : |x - f.magnitude p| ≤ |x - f.magnitude c| ∧ |x - f.magnitude p| ≤ |x - f.magnitude (c + 1)| := by
    subst hp
    split
    next hup =>
      have hr : 1 / 2 ≤ r := hup.elim le_of_lt fun h => h.1.ge
      rw [hlow, hhigh]
      exact ⟨by nlinarith, le_rfl⟩
    next hup =>
      have hr : r ≤ 1 / 2 := le_of_not_gt fun h => hup (.inl h)
      rw [hlow, hhigh]
      exact ⟨le_rfl, by nlinarith⟩
  have hneighbour := nearest_neighbour h0 h1 hx hnear.1 hnear.2
  refine ⟨fun n => (hneighbour n).1, fun n hn hdist => ?_⟩
  have htie : |x - f.magnitude c| = |x - f.magnitude (c + 1)| := by
    have hpc : p = c ∨ p = c + 1 := by subst hp; split <;> simp
    rcases (hneighbour n).2 hdist with rfl | rfl <;> rcases hpc with rfl | rfl
    · exact absurd rfl hn
    · exact hdist
    · exact hdist.symm
    · exact absurd rfl hn
  have hr : r = 1 / 2 := by
    rw [hlow, hhigh] at htie
    have := mul_right_cancel₀ (by linarith) htie
    linarith
  by_cases hodd : c % 2 = 1
  · rw [hp, if_pos (.inr ⟨hr, hodd⟩)]
    omega
  · rw [hp, if_neg (by simp [hr, hodd])]
    omega

/-- What `roundsUp` says picks the neighbour that the mode asks for. -/
theorem FloatFmt.picks_roundsUp (rm : Rounding) (neg : Bool) :
    f.Picks rm neg x
      (if roundsUp rm neg (c % 2 == 1) (decide (r = 0)) (decide (1 / 2 < r)) (decide (r = 1 / 2)) then c + 1 else c) := by
  have hdown := between_codes h0 h1 hx
  cases rm with
  | rne => exact picks_nearest h0 h1 hx (if_congr (roundsUp_rne neg c r) rfl rfl)
  | rz => exact hdown
  | rd =>
    cases neg with
    | false => exact hdown
    | true => exact picks_up h0 h1 hx (by simp [roundsUp])
  | ru =>
    cases neg with
    | false => exact picks_up h0 h1 hx (by simp [roundsUp])
    | true => exact hdown

end

/-! ### `Round` (R79) with its flags (R74) -/

/-- What `Round` gives for the code that it has picked, and for whether that code is exact. -/
def FloatFmt.deliver (f : FloatFmt) (rm : Rounding) (sat neg exact : Bool) (code : Nat) : Nat × Flags5 :=
  if f.maxCode < code then
    let toInf := f.hasInf && !sat && (match rm with | .rne => true | .rz => false | .rd => neg | .ru => !neg)
    (if toInf then f.infCode neg else f.signBit neg + f.maxCode, flagOverflow ||| flagInexact)
  else
    (f.signBit neg + code, flagIf (!exact) flagInexact ||| flagIf (!exact && code != 0 && code < 2 ^ f.m) flagUnderflow)

section
variable {f : FloatFmt} {rm : Rounding} {sat neg exact : Bool} {c : Nat} {x : ℝ}

theorem FloatFmt.round_zero (e : Int) : f.round rm sat neg 0 e = f.deliver rm sat neg true 0 := by
  simp [round, deliver, flagIf]

theorem FloatFmt.deliver_overflow (h : f.maxCode < c) :
    let infinite := f.hasInf = true ∧ sat = false ∧ (rm = .rne ∨ rm = .rd ∧ neg = true ∨ rm = .ru ∧ neg = false)
    (infinite → (f.deliver rm sat neg exact c).1 = f.infCode neg) ∧
    (¬ infinite → (f.deliver rm sat neg exact c).1 = f.signBit neg + f.maxCode) ∧
    (f.deliver rm sat neg exact c).2 = flagOverflow ||| flagInexact := by
  unfold deliver
  rw [if_pos h]
  cases rm <;> simp +contextual

theorem FloatFmt.deliver_fits (h : c ≤ f.maxCode) :
    (f.deliver rm sat neg exact c).1 = f.signBit neg + c ∧
    (exact = false → 0 < c → c < 2 ^ f.m → (f.deliver rm sat neg exact c).2 = flagUnderflow ||| flagInexact) ∧
    (exact = false → c = 0 ∨ 2 ^ f.m ≤ c → (f.deliver rm sat neg exact c).2 = flagInexact) ∧
    (exact = true → (f.deliver rm sat neg exact c).2 = 0) := by
  unfold deliver
  rw [if_neg (by omega)]
  refine ⟨rfl, ?_, ?_, ?_⟩
  · rintro rfl hc hsub
    simp [flagIf, hsub, Nat.pos_iff_ne_zero.mp hc, BitVec.or_comm]
  · rintro rfl (rfl | hc)
    · simp [flagIf]
    · simp [flagIf, hc.not_gt]
  · rintro rfl
    simp [flagIf]

theorem roundsTo_deliver (hp : f.Picks rm neg |x| c) (he : exact = true ↔ ((f.magnitude c : ℚ) : ℝ) = |x|) :
    RoundsTo f rm sat neg x (f.deliver rm sat neg exact c) := by
  refine ⟨c, hp, FloatFmt.deliver_overflow, fun hfit => ?_⟩
  obtain ⟨hcode, hsub, hnormal, hexact⟩ := FloatFmt.deliver_fits (f := f) (rm := rm) (sat := sat) (neg := neg) (exact := exact) hfit
  have hne : ((f.magnitude c : ℚ) : ℝ) ≠ |x| ↔ exact = false := by rw [Ne, ← he, Bool.not_eq_true]
  exact ⟨hcode, fun hi => hsub (hne.mp hi), fun hi => hnormal (hne.mp hi), fun hi => hexact (he.mpr (not_not.mp hi))⟩

end

theorem two_zpow_le_mul {m : Nat} (hm : m ≠ 0) (e : Int) : (2 : ℝ) ^ (e + Nat.log2 m) ≤ m * 2 ^ e := by
  rw [zpow_add₀ two_ne_zero, mul_comm, zpow_natCast]
  gcongr
  exact_mod_cast Nat.log2_self_le hm

theorem mul_lt_two_zpow (m : Nat) (e : Int) : (m : ℝ) * 2 ^ e < 2 ^ (e + Nat.log2 m + 1) := by
  rw [add_assoc, zpow_add₀ two_ne_zero, mul_comm]
  gcongr
  exact_mod_cast Nat.lt_log2_self

section
variable (f : FloatFmt)

/-- A cut at the step of R79 leaves a mantissa of the format: at most m + 1 bits, and all of them above the smallest step. -/
theorem FloatFmt.cut_mantissa {m : Nat} (hm : m ≠ 0) (e : Int) :
    let q := max (e + Nat.log2 m - f.m) f.minExp
    (cutAt m e q).1 < 2 ^ (f.m + 1) ∧ (q = f.minExp ∨ 2 ^ f.m ≤ (cutAt m e q).1) := by
  intro q
  obtain ⟨r, h0, h1, hval, -⟩ := cutAt_rest m e q
  have hq : (0 : ℝ) < 2 ^ q := by positivity
  constructor
  · have hlt : ((cutAt m e q).1 + r) * 2 ^ q < (2 : ℝ) ^ (f.m + 1) * 2 ^ q :=
      calc ((cutAt m e q).1 + r) * 2 ^ q = (m : ℝ) * 2 ^ e := hval.symm
        _ < 2 ^ (e + Nat.log2 m + 1) := mul_lt_two_zpow m e
        _ ≤ 2 ^ (((f.m + 1 : Nat) : Int) + q) := zpow_le_zpow_right₀ one_le_two (by omega)
        _ = _ := by rw [zpow_add₀ two_ne_zero, zpow_natCast]
    have hn : ((cutAt m e q).1 : ℝ) < 2 ^ (f.m + 1) := by linarith [lt_of_mul_lt_mul_right hlt hq.le]
    exact_mod_cast hn
  · refine (le_or_gt (e + Nat.log2 m - f.m) f.minExp).imp max_eq_right fun hgt => ?_
    have hqe : q = e + Nat.log2 m - f.m := max_eq_left hgt.le
    have hle : (2 : ℝ) ^ f.m * 2 ^ q ≤ ((cutAt m e q).1 + r) * 2 ^ q :=
      calc (2 : ℝ) ^ f.m * 2 ^ q = 2 ^ (e + Nat.log2 m) := by rw [← zpow_natCast, ← zpow_add₀ two_ne_zero, hqe]; congr 1; ring
        _ ≤ m * 2 ^ e := two_zpow_le_mul hm e
        _ = _ := hval
    have hn : (2 : ℝ) ^ f.m < (cutAt m e q).1 + 1 := by linarith [le_of_mul_le_mul_right hle hq]
    exact Nat.le_of_lt_succ (by exact_mod_cast hn)

/-- `Round` picks one of two neighbouring codes by the part r of the way from the lower to the value. -/
theorem FloatFmt.round_neighbours {m : Nat} (hm : m ≠ 0) (e : Int) :
    ∃ (c : Nat) (r : ℝ), 0 ≤ r ∧ r < 1 ∧ (m : ℝ) * 2 ^ e = f.magnitude c + r * (f.magnitude (c + 1) - f.magnitude c) ∧
      ∀ rm sat neg, f.round rm sat neg m e = f.deliver rm sat neg (decide (r = 0))
        (if roundsUp rm neg (c % 2 == 1) (decide (r = 0)) (decide (1 / 2 < r)) (decide (r = 1 / 2)) then c + 1 else c) := by
  obtain ⟨hlt, hge⟩ := f.cut_mantissa hm e
  obtain ⟨r, h0, h1, hval, hrest⟩ := cutAt_rest m e (max (e + Nat.log2 m - f.m) f.minExp)
  have hle : f.minExp ≤ max (e + Nat.log2 m - f.m) f.minExp := le_max_right _ _
  have hround : ∀ rm sat neg, f.round rm sat neg m e =
      let q := max (e + Nat.log2 m - f.m) f.minExp
      let low := (q - f.minExp).toNat * 2 ^ f.m + (cutAt m e q).1
      f.deliver rm sat neg (cutAt m e q).2.1
        (if roundsUp rm neg (low % 2 == 1) (cutAt m e q).2.1 (cutAt m e q).2.2.1 (cutAt m e q).2.2.2 then low + 1 else low) :=
    fun rm sat neg => if_neg hm
  generalize max (e + Nat.log2 m - f.m) f.minExp = q at *
  obtain ⟨k, rfl⟩ : ∃ k : Nat, q = f.minExp + k := ⟨(q - f.minExp).toNat, by omega⟩
  have hk : (f.minExp + k - f.minExp).toNat = k := by omega
  simp only [hk, hrest] at hround
  refine ⟨_, r, h0, h1, ?_, hround⟩
  have hk0 : k = 0 ∨ 2 ^ f.m ≤ (cutAt m e (f.minExp + k)).1 := hge.imp_left (by omega)
  rw [add_assoc, f.magnitude_step hlt.le hk0, f.magnitude_step hlt (hk0.imp_right (by omega)), hval]
  push_cast
  ring

/-- `Round` of R79 with the flags of R74, in every mode and format. -/
theorem FloatFmt.round_roundsTo (rm : Rounding) (sat neg : Bool) (m : Nat) (e : Int) :
    RoundsTo f rm sat neg (m * 2 ^ e) (f.round rm sat neg m e) := by
  have habs : |(m : ℝ) * 2 ^ e| = m * 2 ^ e := abs_of_nonneg (by positivity)
  by_cases hm : m = 0
  · subst hm
    rw [round_zero]
    have hzero : ((0 : Nat) : ℝ) * 2 ^ e = f.magnitude 0 + 0 * (f.magnitude (0 + 1) - f.magnitude 0) := by simp [magnitude_zero]
    have hp := picks_roundsUp le_rfl one_pos hzero rm neg
    rw [picked_exact] at hp
    exact roundsTo_deliver (habs.symm ▸ hp) (by simp [magnitude_zero])
  · obtain ⟨c, r, h0, h1, hx, hround⟩ := f.round_neighbours hm e
    rw [hround]
    refine roundsTo_deliver (habs.symm ▸ picks_roundsUp h0 h1 hx rm neg) ?_
    rw [habs, magnitude_eq_iff h0 h1 hx, decide_eq_true_iff]
    exact ⟨fun hr => ⟨by rw [hr, picked_exact], hr⟩, And.right⟩

end

/-! ### Exact values of numbers (R70, R73) -/

theorem Num.val_fin (s : Bool) (m : Nat) (e : Int) : (Num.fin s m e).val = signedInt s m * (2 : ℚ) ^ e := by
  cases s <;> simp [Num.val, signedInt]

/-- A finite number in steps of 2 ^ q, for q no greater than its exponent. -/
theorem Num.val_fin_at (s : Bool) (m : Nat) {e q : Int} (h : q ≤ e) :
    (Num.fin s m e).val = signedInt s (m * 2 ^ (e - q).toNat) * (2 : ℚ) ^ q := by
  obtain ⟨k, rfl⟩ : ∃ k : Nat, e = q + k := ⟨(e - q).toNat, by omega⟩
  rw [show (q + k - q).toNat = k by omega]
  cases s <;> simp [Num.val, signedInt, zpow_add₀] <;> ring

theorem signedInt_natAbs (n : Int) : signedInt (decide (n < 0)) n.natAbs = n := by
  unfold signedInt
  split <;> rename_i h <;> rw [decide_eq_true_iff] at h <;> omega

theorem Num.val_eq_zero_iff (s : Bool) (m : Nat) (e : Int) : (Num.fin s m e).val = 0 ↔ m = 0 := by
  have hpow : (2 : ℚ) ^ e ≠ 0 := zpow_ne_zero e two_ne_zero
  cases s <;> simp [Num.val, hpow]

theorem Num.isNegZero_fin (s : Bool) (m : Nat) (e : Int) : (Num.fin s m e).isNegZero = true ↔ s = true ∧ m = 0 := by
  cases s <;> cases m <;> simp [Num.isNegZero]

theorem Num.exists_fin_of_finite {a : Num} (h : a.finite) : ∃ s m e, a = .fin s m e := by
  cases a with
  | nan q => exact h.elim
  | inf s => exact h.elim
  | fin s m e => exact ⟨s, m, e, rfl⟩

theorem Num.val_negate (a : Num) : a.negate.val = -a.val := by
  cases a with
  | nan q => simp [Num.negate, Num.val]
  | inf s => simp [Num.negate, Num.val]
  | fin s m e => cases s <;> simp [Num.negate, Num.val]

theorem Num.finite_negate {a : Num} (h : a.finite) : a.negate.finite := by
  obtain ⟨s, m, e, rfl⟩ := exists_fin_of_finite h
  trivial

theorem Num.isNaN_negate (a : Num) : a.negate.isNaN = a.isNaN := by cases a <;> rfl

theorem Num.isNaN_of_finite {a : Num} (h : a.finite) : a.isNaN = false := by
  obtain ⟨s, m, e, rfl⟩ := exists_fin_of_finite h
  rfl

/-- Only a NaN raises (R71). -/
theorem Num.raises_of_not_nan {a : Num} (h : a.isNaN = false) : a.raises = 0 := by
  cases a with
  | nan q => cases h
  | inf s => rfl
  | fin s m e => rfl

/-- The exact product of finite numbers, with the sign that two signs give. -/
theorem Num.mul_finite {a b : Num} (ha : a.finite) (hb : b.finite) :
    ∃ m e, a.mul b = (.fin (a.isNeg != b.isNeg) m e, false) ∧ (Num.fin (a.isNeg != b.isNeg) m e).val = a.val * b.val := by
  obtain ⟨s, m, e, rfl⟩ := exists_fin_of_finite ha
  obtain ⟨t, n, k, rfl⟩ := exists_fin_of_finite hb
  refine ⟨m * n, e + k, rfl, ?_⟩
  cases s <;> cases t <;> simp [Num.val, Num.isNeg, zpow_add₀] <;> ring

theorem Num.mul_nan {a b : Num} (h : a.isNaN = true ∨ b.isNaN = true) : a.mul b = (.nan false, false) := by
  rcases h with ha | hb
  · cases a with
    | nan q => rfl
    | inf s => cases ha
    | fin s m e => cases ha
  · cases b with
    | nan q => cases a <;> rfl
    | inf s => cases hb
    | fin s m e => cases hb

/-! ### Order (R73) -/

theorem Num.lt_finite {a b : Num} (ha : a.finite) (hb : b.finite) : a.lt b = decide (a.val < b.val) := by
  obtain ⟨s, m, e, rfl⟩ := exists_fin_of_finite ha
  obtain ⟨t, n, k, rfl⟩ := exists_fin_of_finite hb
  have hpos : (0 : ℚ) < 2 ^ min e k := by positivity
  rw [val_fin_at s m (min_le_left e k), val_fin_at t n (min_le_right e k), Num.lt]
  simp only [mul_lt_mul_iff_left₀ hpos, Int.cast_lt]

theorem Num.eq_finite {a b : Num} (ha : a.finite) (hb : b.finite) : a.eq b = decide (a.val = b.val) := by
  have heq : a.val = b.val ↔ ¬ a.val < b.val ∧ ¬ b.val < a.val := by rw [not_lt, not_lt, and_comm]; exact le_antisymm_iff
  simp only [Num.eq, isNaN_of_finite ha, isNaN_of_finite hb, lt_finite ha hb, lt_finite hb ha, heq, Bool.decide_and, decide_not,
    Bool.not_false, Bool.true_and]

theorem Num.below_finite {a b : Num} (ha : a.finite) (hb : b.finite) :
    a.below b = true ↔ a.val < b.val ∨ a.val = b.val ∧ a.isNeg = true ∧ b.isNeg = false := by
  simp [Num.below, lt_finite ha hb, eq_finite ha hb, and_assoc]

/-! ### Exact sums (R70, R85) -/

theorem minExpOf_le {xs : List Num} {s : Bool} {m : Nat} {e : Int} (h : Num.fin s m e ∈ xs) : minExpOf xs ≤ e := by
  induction xs with
  | nil => cases h
  | cons x xs ih =>
    rcases List.mem_cons.mp h with rfl | hmem
    · cases xs with
      | nil => exact le_rfl
      | cons y ys => exact min_le_left _ _
    · cases x with
      | nan q => exact ih hmem
      | inf t => exact ih hmem
      | fin t n k =>
        cases xs with
        | nil => cases hmem
        | cons y ys => exact (min_le_right _ _).trans (ih hmem)

theorem sumAt_val {q : Int} {xs : List Num} (hfin : ∀ x ∈ xs, x.finite) (hq : ∀ s m e, Num.fin s m e ∈ xs → q ≤ e) :
    (sumAt q xs : ℚ) * 2 ^ q = (xs.map Num.val).sum := by
  induction xs with
  | nil => simp [sumAt]
  | cons x xs ih =>
    obtain ⟨s, m, e, rfl⟩ := Num.exists_fin_of_finite (hfin x List.mem_cons_self)
    have htail := ih (fun y hy => hfin y (List.mem_cons_of_mem _ hy)) fun s m e hy => hq s m e (List.mem_cons_of_mem _ hy)
    rw [sumAt, List.map_cons, List.sum_cons, ← htail, Num.val_fin_at s m (hq s m e List.mem_cons_self)]
    push_cast
    ring

/-- The sum of finite terms is finite and exact; a sum of zero is −0 where every term is. -/
theorem sumNums_finite {xs : List Num} (hfin : ∀ x ∈ xs, x.finite) :
    ∃ s m e, sumNums xs = (.fin s m e, false) ∧ (Num.fin s m e).val = (xs.map Num.val).sum ∧
      (m = 0 → s = (!xs.isEmpty && xs.all Num.isNegZero)) := by
  have hnan : xs.any Num.isNaN = false := List.any_eq_false.mpr fun x hx => by simp [Num.isNaN_of_finite (hfin x hx)]
  have hinf : ∀ t, xs.any (· == .inf t) = false := fun t => List.any_eq_false.mpr fun x hx => by
    obtain ⟨s, m, e, rfl⟩ := Num.exists_fin_of_finite (hfin x hx)
    simp
  have hval := sumAt_val hfin fun s m e => minExpOf_le
  simp only [sumNums, hnan, hinf, Bool.false_eq_true, if_false, Bool.and_self]
  split
  next hz => exact ⟨_, 0, 0, rfl, by simp [← hval, hz, Num.val], fun _ => rfl⟩
  next hz =>
    refine ⟨_, _, _, rfl, ?_, fun h => absurd (Int.natAbs_eq_zero.mp h) hz⟩
    rw [← hval, Num.val_fin, signedInt_natAbs]

theorem sumNums_nan {xs : List Num} (h : xs.any Num.isNaN = true) : sumNums xs = (.nan false, false) := by
  rw [sumNums, if_pos h]

/-! ### Float operations (R70, R71, R356) -/

section
variable {f : FloatFmt}

/-- Rounding the exact value of finite terms once raises nothing beyond the rounding. -/
theorem floatSum_finite {xs : List Num} (hfin : ∀ x ∈ xs, x.finite) :
    RoundsOnce f (xs.map Num.val).sum (!xs.isEmpty && xs.all Num.isNegZero) (floatSum f 0 xs false) := by
  obtain ⟨s, m, e, hsum, hval, hzero⟩ := sumNums_finite hfin
  exact ⟨s, m, e, hval, hzero, by simp [floatSum, hsum, FloatFmt.result, flagIf]⟩

theorem floatSum_nan {xs : List Num} (h : xs.any Num.isNaN = true) (raised : Flags5) (bad : Bool) :
    floatSum f raised xs bad = (f.canonNaN, raised ||| flagIf bad flagInvalid) := by
  simp [floatSum, sumNums_nan h, FloatFmt.result]

theorem Num.raises_of_finite {a : Num} (h : a.finite) : a.raises = 0 := raises_of_not_nan (isNaN_of_finite h)

variable {x y z : Nat}

section
variable (ha : (f.decode true x).finite) (hb : (f.decode true y).finite)
include ha hb

theorem floatAdd_finite : RoundsOnce f ((f.decode true x).val + (f.decode true y).val)
    ((f.decode true x).isNegZero && (f.decode true y).isNegZero) (floatAdd f x y) := by
  have h := floatSum_finite (f := f) (xs := [f.decode true x, f.decode true y]) (by simp [ha, hb])
  simpa [floatAdd, Num.raises_of_finite ha, Num.raises_of_finite hb] using h

theorem floatSub_finite : RoundsOnce f ((f.decode true x).val - (f.decode true y).val)
    ((f.decode true x).isNegZero && (f.decode true y).negate.isNegZero) (floatSub f x y) := by
  have h := floatSum_finite (f := f) (xs := [f.decode true x, (f.decode true y).negate]) (by simp [ha, Num.finite_negate hb])
  simpa [floatSub, Num.raises_of_finite ha, Num.raises_of_finite hb, Num.val_negate, sub_eq_add_neg] using h

theorem floatMul_finite : RoundsOnce f ((f.decode true x).val * (f.decode true y).val)
    ((f.decode true x).isNeg != (f.decode true y).isNeg) (floatMul f x y) := by
  obtain ⟨m, e, hmul, hval⟩ := Num.mul_finite ha hb
  refine ⟨_, m, e, hval, fun _ => rfl, ?_⟩
  simp [floatMul, hmul, FloatFmt.result, Num.raises_of_finite ha, Num.raises_of_finite hb, flagIf]

theorem floatFma_finite (hc : (f.decode true z).finite) :
    RoundsOnce f ((f.decode true x).val * (f.decode true y).val + (f.decode true z).val)
      (((f.decode true x).isNeg != (f.decode true y).isNeg) && ((f.decode true x).val * (f.decode true y).val == 0) &&
        (f.decode true z).isNegZero) (floatFma f x y z) := by
  obtain ⟨m, e, hmul, hval⟩ := Num.mul_finite ha hb
  have h := floatSum_finite (f := f) (xs := [.fin ((f.decode true x).isNeg != (f.decode true y).isNeg) m e, f.decode true z])
    (List.forall_mem_cons.mpr ⟨trivial, by simpa using hc⟩)
  have hzero : (Num.fin ((f.decode true x).isNeg != (f.decode true y).isNeg) m e).isNegZero =
      (((f.decode true x).isNeg != (f.decode true y).isNeg) && ((f.decode true x).val * (f.decode true y).val == 0)) := by
    rw [← hval, Bool.eq_iff_iff, Bool.and_eq_true, beq_iff_eq, Num.val_eq_zero_iff]
    exact Num.isNegZero_fin _ m e
  simpa [floatFma, hmul, hval, hzero, Num.raises_of_finite ha, Num.raises_of_finite hb, Num.raises_of_finite hc] using h

end

theorem floatAdd_nan (h : (f.decode true x).isNaN = true ∨ (f.decode true y).isNaN = true) :
    floatAdd f x y = (f.canonNaN, (f.decode true x).raises ||| (f.decode true y).raises) := by
  rw [floatAdd, floatSum_nan (by simpa using h)]
  simp [flagIf]

theorem floatSub_nan (h : (f.decode true x).isNaN = true ∨ (f.decode true y).isNaN = true) :
    floatSub f x y = (f.canonNaN, (f.decode true x).raises ||| (f.decode true y).raises) := by
  rw [floatSub, floatSum_nan (by simpa [Num.isNaN_negate] using h)]
  simp [flagIf]

theorem floatMul_nan (h : (f.decode true x).isNaN = true ∨ (f.decode true y).isNaN = true) :
    floatMul f x y = (f.canonNaN, (f.decode true x).raises ||| (f.decode true y).raises) := by
  simp [floatMul, Num.mul_nan h, FloatFmt.result, flagIf]

theorem floatFma_nan (h : (f.decode true x).isNaN = true ∨ (f.decode true y).isNaN = true ∨ (f.decode true z).isNaN = true) :
    (floatFma f x y z).1 = f.canonNaN := by
  have hany : [((f.decode true x).mul (f.decode true y)).1, f.decode true z].any Num.isNaN = true := by
    rcases or_assoc.mpr h with hp | hz
    · simp [Num.mul_nan hp, Num.isNaN]
    · simp [hz]
  exact congrArg Prod.fst (floatSum_nan hany _ _)

/-! ### `vmin` and `vmax` (R73) -/

theorem floatMinMax_numbers (ha : (f.decode true x).isNaN = false) (hb : (f.decode true y).isNaN = false) (isMax : Bool) :
    floatMinMax isMax f x y = (if isMax then (if (f.decode true x).below (f.decode true y) then y else x)
      else (if (f.decode true y).below (f.decode true x) then y else x), 0) := by
  simp [floatMinMax, ha, hb, Num.raises_of_not_nan]

theorem floatMinMax_nan_left (ha : (f.decode true x).isNaN = true) (hb : (f.decode true y).isNaN = false) (isMax : Bool) :
    floatMinMax isMax f x y = (y, (f.decode true x).raises) := by
  simp [floatMinMax, ha, hb, Num.raises_of_not_nan]

theorem floatMinMax_nan_right (ha : (f.decode true x).isNaN = false) (hb : (f.decode true y).isNaN = true) (isMax : Bool) :
    floatMinMax isMax f x y = (x, (f.decode true y).raises) := by
  simp [floatMinMax, ha, hb, Num.raises_of_not_nan]

theorem floatMinMax_nans (ha : (f.decode true x).isNaN = true) (hb : (f.decode true y).isNaN = true) (isMax : Bool) :
    floatMinMax isMax f x y = (f.canonNaN, (f.decode true x).raises ||| (f.decode true y).raises) := by
  simp [floatMinMax, ha, hb]

section
variable (ha : (f.decode true x).finite) (hb : (f.decode true y).finite)
include ha hb

theorem floatMin_finite : floatMinMax false f x y = (if (f.decode true y).below (f.decode true x) then y else x, 0) := by
  simp [floatMinMax_numbers (Num.isNaN_of_finite ha) (Num.isNaN_of_finite hb)]

theorem floatMax_finite : floatMinMax true f x y = (if (f.decode true x).below (f.decode true y) then y else x, 0) := by
  simp [floatMinMax_numbers (Num.isNaN_of_finite ha) (Num.isNaN_of_finite hb)]

theorem val_floatMin : (f.decode true (floatMinMax false f x y).1).val = min (f.decode true x).val (f.decode true y).val := by
  rw [floatMin_finite ha hb]
  split
  next h => rw [min_eq_right (((Num.below_finite hb ha).mp h).elim le_of_lt fun h => h.1.le)]
  next h => rw [min_eq_left (le_of_not_gt fun hlt => h ((Num.below_finite hb ha).mpr (.inl hlt)))]

theorem val_floatMax : (f.decode true (floatMinMax true f x y).1).val = max (f.decode true x).val (f.decode true y).val := by
  rw [floatMax_finite ha hb]
  split
  next h => rw [max_eq_right (((Num.below_finite ha hb).mp h).elim le_of_lt fun h => h.1.le)]
  next h => rw [max_eq_left (le_of_not_gt fun hlt => h ((Num.below_finite ha hb).mpr (.inl hlt)))]

/-- −0 is below +0. -/
theorem floatMinMax_zeros (hx : (f.decode true x).val = 0) (hy : (f.decode true y).val = 0) (hnx : (f.decode true x).isNeg = true)
    (hny : (f.decode true y).isNeg = false) :
    floatMinMax false f x y = (x, 0) ∧ floatMinMax true f x y = (y, 0) ∧
      floatMinMax false f y x = (x, 0) ∧ floatMinMax true f y x = (y, 0) := by
  have hxy : (f.decode true x).below (f.decode true y) = true :=
    (Num.below_finite ha hb).mpr (.inr ⟨hx.trans hy.symm, hnx, hny⟩)
  have hyx : (f.decode true y).below (f.decode true x) = false :=
    Bool.eq_false_iff.mpr fun h => by simp [Num.below_finite hb ha, hx, hy, hny] at h
  simp [floatMin_finite ha hb, floatMax_finite ha hb, floatMin_finite hb ha, floatMax_finite hb ha, hxy, hyx]

end

/-! ### `vabs` and `vneg` (R356) -/

theorem FloatFmt.isNeg_decode (hn : (f.decode true x).isNaN = false) : (f.decode true x).isNeg = (f.signed && x.testBit (f.e + f.m)) := by
  revert hn
  simp only [FloatFmt.decode]
  split_ifs <;> simp [Num.isNaN, Num.isNeg]

theorem floatSign_nan (h : (f.decode true x).isNaN = true) (isNeg : Bool) : floatSign isNeg f x = (f.canonNaN, (f.decode true x).raises) := by
  simp [floatSign, h]

theorem floatSign_number (h : (f.decode true x).isNaN = false) (isNeg : Bool) :
    floatSign isNeg f x = (if isNeg && !(f.signed && x.testBit (f.e + f.m)) then 2 ^ (f.e + f.m) + x % 2 ^ (f.e + f.m)
      else x % 2 ^ (f.e + f.m), 0) := by
  simp [floatSign, h, FloatFmt.isNeg_decode h]

theorem FloatFmt.signed_of_mem (h : f ∈ [fmtF32, fmtBf16, fmtF16]) : f.signed = true := by
  simp only [List.mem_cons, List.not_mem_nil, or_false] at h
  obtain rfl | rfl | rfl := h <;> rfl

/-- Only the sign bit of a number changes, in a format that has one. -/
theorem testBit_floatSign (hs : f.signed = true) (h : (f.decode true x).isNaN = false) (hx : x < 2 ^ (f.e + f.m + 1)) (isNeg : Bool) (i : Nat) :
    (floatSign isNeg f x).1.testBit i = if i = f.e + f.m then (if isNeg then !x.testBit i else false) else x.testBit i := by
  rw [floatSign_number h, hs, Bool.true_and]
  generalize hk : f.e + f.m = k at *
  have hmag : x % 2 ^ k < 2 ^ k := Nat.mod_lt x (Nat.two_pow_pos k)
  rcases lt_trichotomy i k with hi | rfl | hi
  · rw [if_neg hi.ne]
    split
    · rw [Nat.testBit_two_pow_add_gt hi, Nat.testBit_mod_two_pow, decide_eq_true hi, Bool.true_and]
    · rw [Nat.testBit_mod_two_pow, decide_eq_true hi, Bool.true_and]
  · rw [if_pos rfl]
    cases isNeg with
    | false => simp [Nat.testBit_mod_two_pow]
    | true => cases x.testBit i <;> simp [Nat.testBit_two_pow_add_eq, Nat.testBit_mod_two_pow]
  · have hpow : 2 ^ (k + 1) ≤ 2 ^ i := Nat.pow_le_pow_right two_pos hi
    rw [pow_succ] at hx hpow
    rw [if_neg hi.ne', Nat.testBit_lt_two_pow (by omega : x < 2 ^ i)]
    exact Nat.testBit_lt_two_pow (by dsimp only; split <;> omega)

end

/-! ### The statement -/

/-- Settles O37: the float operations compute exact values and round once, and `Round` picks one of the two codes next to a value. -/
theorem vectorFloatsLand : Obligations.VectorFloatsLand := by
  refine ⟨fun s d a b m t f hmem => ?_, fun f hmem x y z => ?_, fun f _ rm sat neg m e => f.round_roundsTo rm sat neg m e⟩
  · have hf := vecFloat_of_mem hmem
    refine ⟨fun hr => ?_, fun hr => ?_, fun hr => ⟨?_, ?_⟩⟩
    · simp only [List.forall_mem_cons]
      exact ⟨arith2_float hf hr .add 4 m, arith2_float hf hr .sub 4 m, arith2_float hf hr .mul 6 m, arith2_float hf hr .min 4 m,
        arith2_float hf hr .max 4 m, List.forall_mem_nil _⟩
    · exact elemFma_float hf ▸ vector3_ready hr m 6 (lane3 t (elemFma t))
    · exact elemSign_float hf false ▸ vector1_ready hr m 4 (lane1 t (elemSign false t))
    · exact elemSign_float hf true ▸ vector1_ready hr m 4 (lane1 t (elemSign true t))
  · refine ⟨fun ha hb => ?_, fun h => ?_, floatFma_nan, fun g => ?_, fun g => ⟨fun h => floatSign_nan h g, fun h hx => ?_⟩⟩
    · refine ⟨floatAdd_finite ha hb, floatSub_finite ha hb, floatMul_finite ha hb, floatFma_finite ha hb, ?_, ?_,
        val_floatMin ha hb, val_floatMax ha hb, floatMinMax_zeros ha hb⟩
      · rw [floatMin_finite ha hb]
        split <;> simp
      · rw [floatMax_finite ha hb]
        split <;> simp
    · simp only [List.forall_mem_cons]
      exact ⟨floatAdd_nan h, floatSub_nan h, floatMul_nan h, List.forall_mem_nil _⟩
    · exact ⟨fun ha hb => floatMinMax_nan_left ha hb g, fun ha hb => floatMinMax_nan_right ha hb g, fun ha hb => floatMinMax_nans ha hb g⟩
    · have hs : f.signed = true := FloatFmt.signed_of_mem hmem
      exact ⟨by rw [floatSign_number h], testBit_floatSign hs h hx g⟩

end Sys2Proof.Machine

/-! SUPPORT. The statements on scalar sums, products, quotients and remainders: the two forms of an `alu` operation by the integers that its
sources stand for. -/

namespace Sys2Proof.Machine

/-! ### The two forms of an `alu` operation (R270) -/

/-- An operation that is one function of signed integers at every width is that function of what the sources stand for in either form. -/
theorem alu_eq_narrow {f : (n : Nat) → BitVec n → BitVec n → BitVec n} {g : Nat → Int → Int → Int}
    (h : ∀ n, 0 < n → ∀ x y : BitVec n, f n x y = BitVec.ofInt n (g n x.toInt y.toInt)) (w : Bool) (x y : W64) :
    alu w f x y = narrow w (g (formBits w) (sval w x) (sval w y)) := by
  cases w with
  | false => exact h 64 (by decide) x y
  | true => exact congrArg (BitVec.signExtend 64) (h 32 (by decide) (x.setWidth 32) (y.setWidth 32))

section
variable (n : Nat) (x y : BitVec n)

theorem add_eq_ofInt : x + y = BitVec.ofInt n (x.toInt + y.toInt) := by
  rw [BitVec.ofInt_add, BitVec.ofInt_toInt, BitVec.ofInt_toInt]

theorem sub_eq_ofInt : x - y = BitVec.ofInt n (x.toInt - y.toInt) := by
  rw [Int.sub_eq_add_neg, BitVec.ofInt_add, BitVec.ofInt_neg, BitVec.ofInt_toInt, BitVec.ofInt_toInt, BitVec.sub_eq_add_neg]

theorem mul_eq_ofInt : x * y = BitVec.ofInt n (x.toInt * y.toInt) := by
  rw [BitVec.ofInt_mul, BitVec.ofInt_toInt, BitVec.ofInt_toInt]

theorem mulHigh_eq_ofInt : mulHigh n x y = BitVec.ofInt n ((x.toInt * y.toInt).fdiv (2 ^ n)) := by
  rw [mulHigh, Int.fdiv_eq_ediv_of_nonneg _ (by positivity)]

/-- The quotient of two integers as R69 has it at a width. -/
def quotientInt (n : Nat) (x y : Int) : Int := if y = 0 then -1 else if x = -(2 ^ (n - 1)) ∧ y = -1 then x else x.tdiv y

/-- The remainder of two integers as R69 has it at a width. -/
def remainderInt (n : Nat) (x y : Int) : Int := if y = 0 then x else if x = -(2 ^ (n - 1)) ∧ y = -1 then 0 else x - x.tdiv y * y

/-- The quotient with its corners: the most negative value by −1 gives itself, as the wrapped quotient does. -/
theorem quotient_eq_ofInt (hn : 0 < n) : quotient n x y = BitVec.ofInt n (quotientInt n x.toInt y.toInt) := by
  have hzero : y = 0 ↔ y.toInt = 0 := by rw [← BitVec.toInt_inj]; simp
  simp only [quotient, quotientInt, hzero]
  split_ifs with h0 hcorner
  · rw [BitVec.ofInt_neg, ← BitVec.neg_one_eq_allOnes]; rfl
  · obtain ⟨hx, hy⟩ := hcorner
    have hwrap : (2 : Int) ^ (n - 1) = -(2 ^ (n - 1)) + ((2 ^ n : Nat) : Int) := by
      obtain ⟨k, rfl⟩ : ∃ k, n = k + 1 := ⟨n - 1, by omega⟩
      push_cast [Nat.add_sub_cancel, pow_succ]
      ring
    rw [hx, hy, Int.tdiv_neg, Int.tdiv_one, neg_neg]
    nth_rw 1 [hwrap]
    exact BitVec.eq_of_toInt_eq (by simp only [BitVec.toInt_ofInt, Int.add_bmod_right])
  · rfl

/-- The remainder of R69: the dividend less the product of quotient and divisor. -/
theorem remainder_eq_ofInt : remainder n x y = BitVec.ofInt n (remainderInt n x.toInt y.toInt) := by
  have hzero : y = 0 ↔ y.toInt = 0 := by rw [← BitVec.toInt_inj]; simp
  simp only [remainder, remainderInt, hzero]
  split_ifs with h0 hcorner
  · rw [BitVec.ofInt_toInt]
  · rw [hcorner.2, Int.tmod_neg, Int.tmod_one]
  · rw [Int.tmod_def, mul_comm]

end

/-! ### What an operation on ready registers answers (R89, R93) -/

/-- A scalar operation on registers that are not busy lands its one result. -/
theorem scalarOp_lands {s : State} {d : Reg} {srcs : List Reg} (h : s.Free (d :: srcs)) (L : Nat) (x : W64) :
    scalarOp d srcs L x s = .next (s.lands [(L, .g d.toNat x)]) :=
  scalarOp_ready s d srcs L x h

/-- An `alu` operation on ready registers lands its function of the signed sources. -/
theorem scalarOp_alu {s : State} {d a b : Reg} {w : Bool} {f : (n : Nat) → BitVec n → BitVec n → BitVec n} (g : Nat → Int → Int → Int)
    (h : ∀ n, 0 < n → ∀ x y : BitVec n, f n x y = BitVec.ofInt n (g n x.toInt y.toInt)) (hfree : s.Free [d, a, b]) (L : Nat) :
    scalarOp d [a, b] L (alu w f (srcG s a) (srcG s b)) s =
      .next (s.lands [(L, .g d.toNat (narrow w (g (formBits w) (sval w (srcG s a)) (sval w (srcG s b)))))]) := by
  rw [alu_eq_narrow h, scalarOp_lands hfree]

/-- A result of variable latency joins those on their way. -/
def State.delivering (s : State) (d : Reg) (x : W64) : State :=
  s.took (issueDeliver (.g d.toNat) [x] false)

theorem deliverOp_ready {s : State} {d : Reg} {srcs : List Reg} (h : s.Free (d :: srcs)) (x : W64) :
    deliverOp d srcs x s = .next (s.delivering d x) := by
  rw [deliverOp, (readyG_ok s _).mpr h, under_ok]
  rfl

/-- Settles O15: each operation is one function of the signed sources at every width, and its result lands alone. -/
theorem sumsAndProductsLand : Obligations.SumsAndProductsLand := fun _ _ _ _ _ hfree =>
  ⟨scalarOp_alu (fun _ x y => x + y) (fun n _ => add_eq_ofInt n) hfree 1,
    scalarOp_alu (fun _ x y => x - y) (fun n _ => sub_eq_ofInt n) hfree 1,
    scalarOp_alu (fun _ x y => x * y) (fun n _ => mul_eq_ofInt n) hfree 3,
    scalarOp_alu (fun n x y => (x * y).fdiv (2 ^ n)) (fun n _ => mulHigh_eq_ofInt n) hfree 3⟩

/-- Settles O16: quotient and remainder with their corners, at every width, in the one result on its way. -/
theorem quotientsAreDelivered : Obligations.QuotientsAreDelivered := by
  intro s d a b w hfree
  refine ⟨(deliverOp_ready hfree _).trans ?_, (deliverOp_ready hfree _).trans ?_⟩
  · rw [alu_eq_narrow (g := quotientInt) fun n hn x y => quotient_eq_ofInt n x y hn]
    rfl
  · rw [alu_eq_narrow (g := remainderInt) fun n _ => remainder_eq_ofInt n]
    rfl

end Sys2Proof.Machine

/-! SUPPORT. Elements of lanes, masks and flags read back, and the statement on `vcmp`. -/

namespace Sys2Proof.Machine

/-! ### Elements of a lane that was built of elements (R54) -/

theorem laneOf_lt (w : Nat) (es : List Nat) : laneOf w es < 2 ^ (w * es.length) := by
  induction es with
  | nil => simp [laneOf]
  | cons e es ih =>
    have he : e % 2 ^ w < 2 ^ w := Nat.mod_lt _ (Nat.two_pow_pos w)
    calc laneOf w (e :: es) < 2 ^ w * (laneOf w es + 1) := by rw [laneOf]; ring_nf; omega
      _ ≤ 2 ^ w * 2 ^ (w * es.length) := Nat.mul_le_mul_left _ ih
      _ = 2 ^ (w * (e :: es).length) := by rw [← pow_add, List.length_cons]; ring_nf

theorem laneOf_elem (w : Nat) (es : List Nat) (j : Nat) : laneOf w es / 2 ^ (w * j) % 2 ^ w = es.getD j 0 % 2 ^ w := by
  induction es generalizing j with
  | nil => simp [laneOf]
  | cons e es ih =>
    have he : e % 2 ^ w < 2 ^ w := Nat.mod_lt _ (Nat.two_pow_pos w)
    cases j with
    | zero => simp [laneOf]
    | succ j =>
      rw [laneOf, Nat.mul_succ, Nat.add_comm (w * j), pow_add, ← Nat.div_div_eq_div_mul, Nat.add_mul_div_left _ _ (Nat.two_pow_pos w),
        Nat.div_eq_of_lt he, Nat.zero_add, ih, List.getD_cons_succ]

theorem width_mul_perLane (t : ElemType) : t.width * t.perLane = 32 := by
  cases t <;> simp [ElemType.width, ElemType.perLane]

/-- An element of a lane built of elements is the one at its position, cut to the width. -/
theorem laneElem_packLane (t : ElemType) {es : List Nat} (h : es.length ≤ t.perLane) (j : Nat) :
    laneElem t (packLane t es) j = es.getD j 0 % 2 ^ t.width := by
  have hlt : laneOf t.width es < 2 ^ 32 :=
    calc laneOf t.width es < 2 ^ (t.width * es.length) := laneOf_lt _ _
      _ ≤ 2 ^ (t.width * t.perLane) := Nat.pow_le_pow_right two_pos (Nat.mul_le_mul_left _ h)
      _ = 2 ^ 32 := by rw [width_mul_perLane]
  rw [laneElem, packLane, BitVec.toNat_ofNat, Nat.mod_eq_of_lt hlt, laneOf_elem]

/-! ### Flags and masks gathered from a list -/

/-- A flag is raised where one of the results raises it (R74). -/
theorem getLsbD_foldl_or {α : Type} (g : α → Flags5) (l : List α) (i : Nat) :
    (l.foldl (fun fl r => fl ||| g r) 0).getLsbD i = l.any fun r => (g r).getLsbD i := by
  suffices h : ∀ fl : Flags5, (l.foldl (fun fl r => fl ||| g r) fl).getLsbD i = (fl.getLsbD i || l.any fun r => (g r).getLsbD i) by simpa using h 0
  induction l with
  | nil => simp
  | cons r l ih => intro fl; rw [List.foldl_cons, ih, BitVec.getLsbD_or, List.any_cons, Bool.or_assoc]

/-- Results that raise nothing leave no flag. -/
theorem foldl_or_eq_zero {α : Type} {g : α → Flags5} {l : List α} (h : ∀ r ∈ l, g r = 0) : l.foldl (fun fl r => fl ||| g r) 0 = 0 := by
  induction l with
  | nil => rfl
  | cons r l ih =>
    rw [List.foldl_cons, h r List.mem_cons_self]
    exact ih fun x hx => h x (List.mem_cons_of_mem r hx)

/-- The sum of the powers of two that a test picks below n has just those bits. -/
theorem foldl_bits (f : Nat → Bool) (n : Nat) :
    (List.range n).foldl (fun a i => if f i then a + 2 ^ i else a) 0 < 2 ^ n ∧
      ∀ i, ((List.range n).foldl (fun a i => if f i then a + 2 ^ i else a) 0).testBit i = (decide (i < n) && f i) := by
  induction n with
  | zero => simp
  | succ n ih =>
    obtain ⟨hlt, hbit⟩ := ih
    rw [List.range_succ, List.foldl_append, List.foldl_cons, List.foldl_nil]
    generalize (List.range n).foldl (fun a i => if f i then a + 2 ^ i else a) 0 = a at *
    refine ⟨by split <;> rw [pow_succ] <;> omega, fun i => ?_⟩
    rcases lt_trichotomy i n with hi | rfl | hi
    · have hbit' : (a + 2 ^ n).testBit i = a.testBit i := by rw [Nat.add_comm, Nat.testBit_two_pow_add_gt hi]
      rw [apply_ite (Nat.testBit · i), hbit', ite_self, hbit, decide_eq_true hi, decide_eq_true (hi.trans n.lt_succ_self)]
    · have hnot : a.testBit i = false := Nat.testBit_lt_two_pow hlt
      cases hf : f i
      · simp [hnot]
      · simp [Nat.add_comm a, Nat.testBit_two_pow_add_eq, hnot]
    · have hpow : 2 ^ (n + 1) ≤ 2 ^ i := Nat.pow_le_pow_right two_pos hi
      rw [pow_succ] at hpow
      rw [Nat.testBit_lt_two_pow (by split <;> omega), decide_eq_false (by omega), Bool.false_and]

theorem getLsbD_maskOf (f : Nat → Bool) {i : Nat} (hi : i < 64) : (maskOf f).getLsbD i = f i := by
  rw [maskOf, BitVec.getLsbD_ofNat, (foldl_bits f 64).2, decide_eq_true hi, Bool.true_and, Bool.true_and]

/-! ### Comparison of elements (R73, R359) -/

theorem vecFloat_of_isInt {t : ElemType} (h : isIntType t = true) : vecFloat t = none := by
  cases t with
  | i32 | n32 | i16 | n16 | i8 | n8 => rfl
  | f32 | bf16 | f16 | nf => cases h

theorem elemCmp_int {t : ElemType} (h : isIntType t = true) (c : VCond) (x y : Nat) :
    elemCmp c t x y = (VCond.holds c (decide (elemInt t x < elemInt t y)) (elemInt t x == elemInt t y) (decide (elemInt t y < elemInt t x)), 0) := by
  simp [elemCmp, vecFloat_of_isInt h]

theorem elemCmp_float {t : ElemType} {f : FloatFmt} (h : vecFloat t = some f) (c : VCond) (x y : Nat) :
    let a := f.decode true x
    let b := f.decode true y
    elemCmp c t x y = (VCond.holds c (a.lt b) (a.eq b) (b.lt a), a.raises ||| b.raises) := by
  simp [elemCmp, h]

/-- A condition on the order of two members of a linear order. -/
theorem VCond.holds_iff {α : Type} [LinearOrder α] (c : VCond) (x y : α) :
    VCond.holds c (decide (x < y)) (decide (x = y)) (decide (y < x)) = true ↔ match c with
      | .eq => x = y | .ne => x ≠ y | .lt => x < y | .le => x ≤ y | .gt => y < x | .ge => y ≤ x := by
  cases c with
  | eq | ne | lt | gt => simp [VCond.holds]
  | le => simp [VCond.holds, le_iff_lt_or_eq]
  | ge => simp [VCond.holds, le_iff_lt_or_eq, @eq_comm _ y]

/-- Of a NaN neither "below" nor "equal" holds. -/
theorem Num.unordered {a b : Num} (h : a.isNaN = true ∨ b.isNaN = true) : a.lt b = false ∧ a.eq b = false ∧ b.lt a = false := by
  rcases h with h | h
  · cases a with
    | nan q => exact ⟨rfl, rfl, by cases b <;> rfl⟩
    | inf | fin => cases h
  · cases b with
    | nan q => exact ⟨by cases a <;> rfl, by simp [Num.eq, Num.isNaN], rfl⟩
    | inf | fin => cases h

theorem cmpLane_int_flags {t : ElemType} (h : isIntType t = true) (c : VCond) (x y : W32) : (cmpLane c t x y).2 = 0 := by
  rw [cmpLane]
  refine foldl_or_eq_zero fun r hr => ?_
  obtain ⟨j, -, rfl⟩ := List.mem_map.mp hr
  rw [elemCmp_int h]

/-- The flags of the active lanes of `vcmp`. -/
def cmpFlags (mask : W64) (rs : List (Bool × Flags5)) : Flags5 :=
  (List.range 64).foldl (fun fl i => if mask.getLsbD i then fl ||| (rs.getD i (false, 0)).2 else fl) 0

theorem cmpFlags_eq_zero {rs : List (Bool × Flags5)} (h : ∀ r ∈ rs, r.2 = 0) (mask : W64) : cmpFlags mask rs = 0 := by
  refine foldl_keeps (fun fl : Flags5 => fl = 0) _ _ 0 rfl fun fl i hfl => ?_
  have hr : (rs.getD i (false, 0)).2 = 0 := by
    rcases lt_or_ge i rs.length with hi | hi
    · rw [List.getD_eq_getElem _ _ hi]; exact h _ (List.getElem_mem hi)
    · rw [List.getD_eq_default _ _ hi]
  rw [hfl, hr]
  split <;> rfl

/-- `vcmp` on ready sources. -/
theorem exec_vcmp {s : State} {a : Reg} {b : VSrc} (hs : ∀ r ∈ a :: vsrcRegs b, s.here.checkSrcV r = .ok) (hb : s.here.checkVSrc b = .ok)
    (c : VCond) (n m : Reg3) (t : ElemType) :
    let rs := List.zipWith (cmpLane c t) (s.here.readSrcV a) (s.here.readVSrc b)
    exec (.vcmp c n a b m t) s = .next (s.popsThen (a :: vsrcRegs b) fun u =>
      landFlags 4 (cmpFlags (srcM s m) rs) (land 4 (.m n.toNat (srcM s m) (maskOf fun i => (rs.getD i (false, 0)).1)) u)) := by
  intro rs
  change under (checks [s.here.checkSrcV a, s.here.checkVSrc b]) s _ = _
  rw [hs a List.mem_cons_self, hb]
  rfl

/-- Settles O39: a bit a lane from the mask's own bits, and the conditions by the order of the elements' values. -/
theorem vectorComparesLand : Obligations.VectorComparesLand := by
  refine ⟨fun s c n a b m t hs hb => ?_, fun t x y ht c => ?_, fun t f x y hf => ?_⟩
  · refine ⟨_, _, exec_vcmp hs hb c n m t, fun ht => cmpFlags_eq_zero (fun r hr => ?_) _, fun i hi hX hY => ?_⟩
    · rw [List.zipWith_eq_zipWith_take_min, ← List.map_uncurry_zip_eq_zipWith] at hr
      obtain ⟨p, -, rfl⟩ := List.mem_map.mp hr
      exact cmpLane_int_flags ht c p.1 p.2
    · rw [getLsbD_maskOf _ hi, List.getD_eq_getElem _ _ (by simp [hX, hY]), List.getElem_zipWith, List.getD_eq_getElem _ _ hX,
        List.getD_eq_getElem _ _ hY, cmpLane, List.all_map]
      rfl
  · rw [elemCmp_int ht]
    exact VCond.holds_iff c _ _
  · intro a b c
    rw [elemCmp_float hf]
    refine ⟨rfl, fun hnan => ?_, fun ha hb => ?_⟩
    · obtain ⟨hlt, heq, hgt⟩ := Num.unordered hnan
      rw [hlt, heq, hgt]
      cases c <;> simp [VCond.holds]
    · rw [Num.lt_finite ha hb, Num.eq_finite ha hb, Num.lt_finite hb ha]
      exact VCond.holds_iff c _ _

end Sys2Proof.Machine

/-! SUPPORT. The statement on conversions: `Convert` of R80 by its target, and the rounding to an integer of steps. -/

namespace Sys2Proof.Machine

/-! ### Rounding to an integer (R79, R80) -/

/-- The part r of a step that a cut discards, as a rational number. -/
theorem cutAt_restQ (m : Nat) (e q : Int) : ∃ r : ℚ, 0 ≤ r ∧ r < 1 ∧ (m : ℚ) * 2 ^ e = ((cutAt m e q).1 + r) * 2 ^ q ∧
    (cutAt m e q).2 = (decide (r = 0), decide (1 / 2 < r), decide (r = 1 / 2)) := by
  obtain ⟨r, h0, h1, hval, hrest⟩ := cutAt_rest m e q
  have hpow : (2 : ℝ) ^ q ≠ 0 := zpow_ne_zero q two_ne_zero
  obtain ⟨p, rfl⟩ : ∃ p : ℚ, (p : ℝ) = r := by
    refine ⟨(m : ℚ) * 2 ^ e / 2 ^ q - (cutAt m e q).1, ?_⟩
    push_cast
    rw [hval, mul_div_cancel_right₀ _ hpow, add_sub_cancel_left]
  have hhalf : ((1 : ℝ) / 2 < p ↔ (1 : ℚ) / 2 < p) ∧ ((p : ℝ) = 1 / 2 ↔ p = 1 / 2) := by
    constructor <;> rw [show (1 : ℝ) / 2 = ((1 / 2 : ℚ) : ℝ) by norm_num] <;> norm_cast
  have hcast : (((m : ℚ) * 2 ^ e : ℚ) : ℝ) = ((((cutAt m e q).1 + p) * 2 ^ q : ℚ) : ℝ) := by push_cast; exact hval
  refine ⟨p, by exact_mod_cast h0, by exact_mod_cast h1, Rat.cast_injective hcast, ?_⟩
  simpa only [hhalf, Rat.cast_eq_zero] using hrest

section
variable {d : Nat} {r : ℚ} (h0 : 0 ≤ r) (h1 : r < 1)
include h0 h1

theorem floor_add_rest : ⌊(d : ℚ) + r⌋ = d := by
  rw [Int.floor_eq_iff]
  constructor <;> push_cast <;> linarith

theorem ceil_add_rest : ⌈(d : ℚ) + r⌉ = if r = 0 then (d : Int) else d + 1 := by
  rw [Int.ceil_eq_iff]
  split
  next hr => subst hr; constructor <;> push_cast <;> linarith
  next hr =>
    have hpos : 0 < r := lt_of_le_of_ne h0 (Ne.symm hr)
    constructor <;> push_cast <;> linarith

/-- To nearest even: the integer at a distance of at most one half, on a tie the even one. -/
theorem nearest_add_rest :
    let n := if 1 / 2 < r ∨ r = 1 / 2 ∧ d % 2 = 1 then d + 1 else d
    |(d : ℚ) + r - n| ≤ 1 / 2 ∧ (|(d : ℚ) + r - n| = 1 / 2 → n % 2 = 0) := by
  intro n
  by_cases hup : 1 / 2 < r ∨ r = 1 / 2 ∧ d % 2 = 1
  · have hn : n = d + 1 := if_pos hup
    have hr : 1 / 2 ≤ r := hup.elim le_of_lt fun h => h.1.ge
    have hdist : |(d : ℚ) + r - n| = 1 - r := by rw [hn, abs_of_nonpos] <;> push_cast <;> linarith
    refine ⟨by linarith, fun htie => ?_⟩
    have hodd : d % 2 = 1 := (hup.resolve_left (by linarith)).2
    omega
  · have hn : n = d := if_neg hup
    obtain ⟨hle, hodd⟩ := not_or.mp hup
    have hdist : |(d : ℚ) + r - n| = r := by rw [hn, abs_of_nonneg] <;> linarith
    refine ⟨by linarith, fun htie => ?_⟩
    have hne : ¬ d % 2 = 1 := fun h => hodd ⟨by linarith, h⟩
    omega

/-- Nothing is left of a step where an integer is the value. -/
theorem rest_eq_zero {neg : Bool} {n : Nat} (h : ((signedInt neg n : Int) : ℚ) = (if neg then -1 else 1) * ((d : ℚ) + r)) : r = 0 := by
  have hint : r = ((n - d : Int) : ℚ) := by
    cases neg <;> simp [signedInt] at h <;> push_cast <;> linarith
  have hlow : (0 : Int) ≤ n - d := by exact_mod_cast hint ▸ h0
  have hhigh : (n - d : Int) < 1 := by exact_mod_cast hint ▸ h1
  rw [hint, show (n - d : Int) = 0 by omega, Int.cast_zero]

/-- What `roundsUp` says picks the integer that the mode asks for, on either side of zero. -/
theorem picksInt_roundsUp (rm : Rounding) (neg : Bool) :
    PicksInt rm ((if neg then -1 else 1) * ((d : ℚ) + r))
      (signedInt neg (if roundsUp rm neg (d % 2 == 1) (decide (r = 0)) (decide (1 / 2 < r)) (decide (r = 1 / 2)) then d + 1 else d)) := by
  have hfloor := floor_add_rest (d := d) h0 h1
  have hceil := ceil_add_rest (d := d) h0 h1
  have hnonneg : 0 ≤ (d : ℚ) + r := by positivity
  cases rm with
  | rne =>
    obtain ⟨hnear, htie⟩ := nearest_add_rest (d := d) h0 h1
    have hup : roundsUp .rne neg (d % 2 == 1) (decide (r = 0)) (decide (1 / 2 < r)) (decide (r = 1 / 2)) = true ↔
        1 / 2 < r ∨ r = 1 / 2 ∧ d % 2 = 1 := by simp [roundsUp]
    simp only [hup, PicksInt]
    generalize (if 1 / 2 < r ∨ r = 1 / 2 ∧ d % 2 = 1 then d + 1 else d) = n at *
    have hdist : |(if neg then -1 else 1) * ((d : ℚ) + r) - (signedInt neg n : Int)| = |(d : ℚ) + r - n| := by
      cases neg
      · simp [signedInt]
      · rw [← abs_neg]; simp only [signedInt, if_true]; congr 1; push_cast; ring
    rw [hdist]
    refine ⟨hnear, fun h => ?_⟩
    have := htie h
    cases neg <;> simp only [signedInt, if_true, Bool.false_eq_true, if_false] <;> omega
  | rz =>
    cases neg with
    | false => simpa [PicksInt, roundsUp, signedInt, hnonneg] using hfloor.symm
    | true =>
      simp only [PicksInt, roundsUp, signedInt, if_true, Bool.false_eq_true, if_false, neg_one_mul, Int.ceil_neg, Int.floor_neg, hfloor]
      split
      next hz =>
        have hr : r = 0 := by linarith [show (0 : ℚ) ≤ d from Nat.cast_nonneg d]
        rw [hceil, if_pos hr]
      next => rfl
  | rd =>
    cases neg with
    | false => simpa [PicksInt, roundsUp, signedInt] using hfloor.symm
    | true =>
      simp only [PicksInt, roundsUp, signedInt, if_true, neg_one_mul, Int.floor_neg, hceil]
      by_cases hr : r = 0 <;> simp [hr]
  | ru =>
    cases neg with
    | false =>
      simp only [PicksInt, roundsUp, signedInt, Bool.false_eq_true, if_false, one_mul, hceil]
      by_cases hr : r = 0 <;> simp [hr]
    | true => simp [PicksInt, roundsUp, signedInt, -neg_add_rev, Int.ceil_neg, hfloor]

end

/-- A finite number in steps of 2 ^ q rounds to the integer that the mode picks, and exactly where that integer is its value. -/
theorem toInteger_picks (rm : Rounding) (neg : Bool) (m : Nat) (e q : Int) :
    PicksInt rm ((Num.fin neg m e).val / 2 ^ q) (toInteger rm neg m e q).1 ∧
      ((toInteger rm neg m e q).2 = true ↔ ((toInteger rm neg m e q).1 : ℚ) * 2 ^ q = (Num.fin neg m e).val) := by
  obtain ⟨r, h0, h1, hval, hrest⟩ := cutAt_restQ m e q
  have hpow : (2 : ℚ) ^ q ≠ 0 := zpow_ne_zero q two_ne_zero
  have hstep : (Num.fin neg m e).val = (if neg then -1 else 1) * ((cutAt m e q).1 + r) * 2 ^ q := by
    rw [Num.val, mul_assoc, hval, mul_assoc]
  simp only [toInteger, hrest]
  generalize (cutAt m e q).1 = d at *
  refine ⟨?_, ?_⟩
  · rw [hstep, mul_div_cancel_right₀ _ hpow]
    exact picksInt_roundsUp h0 h1 rm neg
  · rw [hstep, mul_left_inj' hpow, decide_eq_true_iff]
    constructor
    · rintro rfl
      have hup : roundsUp rm neg (d % 2 == 1) (decide ((0 : ℚ) = 0)) (decide ((1 : ℚ) / 2 < 0)) (decide ((0 : ℚ) = 1 / 2)) = false := by
        have habove : ¬ (1 : ℚ) / 2 < 0 := by norm_num
        have hhalf : ¬ (0 : ℚ) = 1 / 2 := by norm_num
        cases rm <;> simp [roundsUp, habove, hhalf, -one_div]
      rw [hup]
      cases neg <;> simp [signedInt]
    · exact rest_eq_zero h0 h1

/-! ### `Convert` by its target (R80) -/

section
variable (S : NumTy) (rm : Rounding) (sat : Bool) (c : Nat)

theorem convert_float (f : FloatFmt) (sg : Bool) : convert S (.float f sg) rm sat c =
    if (!f.signed && (S.decode c).isBelowZero) = true then (0, flagInvalid)
    else ((convertToFloat rm sat f (S.decode c)).1, (convertToFloat rm sat f (S.decode c)).2 ||| (S.decode c).raises) := by
  cases S <;> rfl

theorem convert_scaled (g : Bool) (u : Nat) (a : Int) : convert S (.scaled g u a) rm sat c =
    if (!g && (S.decode c).isBelowZero) = true then (0, flagInvalid) else convertToInt rm g u a (S.decode c) := by
  cases S <;> rfl

theorem convert_toInt (hS : ∀ h w, S ≠ .int h w) (g : Bool) (u : Nat) :
    convert S (.int g u) rm sat c = convertToInt rm g u 0 (S.decode c) := by
  cases S with
  | int h w => exact absurd rfl (hS h w)
  | scaled | float => rfl

end

theorem Num.isBelowZero_fin (s : Bool) (m : Nat) (e : Int) : (Num.fin s m e).isBelowZero = true ↔ (Num.fin s m e).val < 0 := by
  have hpow : (0 : ℚ) < 2 ^ e := by positivity
  cases s with
  | false => simp [isBelowZero, val]; positivity
  | true => simp [isBelowZero, val, Nat.pos_iff_ne_zero, hpow]

theorem Num.isBelowZero_of_finite {a : Num} (h : a.finite) : a.isBelowZero = true ↔ a.val < 0 := by
  obtain ⟨s, m, e, rfl⟩ := exists_fin_of_finite h
  exact isBelowZero_fin s m e

/-- A target that the value does not fall below: a signed one, or a value that is not below zero. -/
theorem not_below_eq {signed below : Bool} : (!signed && below) = false ↔ signed = true ∨ below = false := by
  cases signed <;> simp

theorem intCode_cast (w : Nat) (n : Int) : (intCode w n : Int) = n % 2 ^ w :=
  Int.toNat_of_nonneg (Int.emod_nonneg _ (by positivity))

/-- Rounding depends on the magnitude of the value and on the sign that is given. -/
theorem RoundsTo.congr_abs {f : FloatFmt} {rm : Rounding} {sat neg : Bool} {x y : ℝ} {r : Nat × Flags5} (h : |x| = |y|)
    (hx : RoundsTo f rm sat neg x r) : RoundsTo f rm sat neg y r := by
  unfold RoundsTo at hx ⊢
  rwa [← h]

theorem Num.abs_val_fin (s : Bool) (m : Nat) (e : Int) : |(((Num.fin s m e).val : ℚ) : ℝ)| = |(m : ℝ) * 2 ^ e| := by
  cases s <;> simp [Num.val]

/-- A float's own rounding is `Round` of R79 on its value. -/
theorem roundsTo_val (f : FloatFmt) (rm : Rounding) (sat s : Bool) (m : Nat) (e : Int) :
    RoundsTo f rm sat s (Num.fin s m e).val (f.round rm sat s m e) :=
  (f.round_roundsTo rm sat s m e).congr_abs (Num.abs_val_fin s m e).symm

/-- A signalling NaN raises invalid and nothing else (R71). -/
theorem Num.raises_absorbed (a : Num) : flagInvalid ||| a.raises = flagInvalid := by
  cases a with
  | nan q => cases q <;> rfl
  | inf | fin => exact BitVec.or_zero

section
variable {S : NumTy} {f : FloatFmt} {sg sat : Bool} {rm : Rounding} {c : Nat}

/-- A value that its target can hold the sign of goes on to the float target of R80. -/
theorem convert_float_not_below (h : f.signed = true ∨ (S.decode c).isBelowZero = false) : convert S (.float f sg) rm sat c =
    ((convertToFloat rm sat f (S.decode c)).1, (convertToFloat rm sat f (S.decode c)).2 ||| (S.decode c).raises) := by
  rw [convert_float, not_below_eq.mpr h, if_neg Bool.false_ne_true]

theorem convert_float_finite (hv : (S.decode c).finite) (h : f.signed = true ∨ 0 ≤ (S.decode c).val) :
    RoundsTo f rm sat (S.decode c).isNeg (S.decode c).val (convert S (.float f sg) rm sat c) := by
  have hbelow : (S.decode c).isBelowZero = false ↔ 0 ≤ (S.decode c).val := by
    rw [← not_lt, ← Num.isBelowZero_of_finite hv, Bool.not_eq_true]
  rw [convert_float_not_below (h.imp_right hbelow.mpr), Num.raises_of_finite hv]
  obtain ⟨s, m, e, he⟩ := Num.exists_fin_of_finite hv
  rw [he]
  simpa [convertToFloat, Num.isNeg] using roundsTo_val f rm sat s m e

theorem convert_float_below (hv : (S.decode c).finite) (hs : f.signed = false) (h : (S.decode c).val < 0) :
    convert S (.float f sg) rm sat c = (0, flagInvalid) := by
  rw [convert_float, hs, (Num.isBelowZero_of_finite hv).mpr h]
  rfl

theorem convert_float_nan (hv : (S.decode c).isNaN = true) : convert S (.float f sg) rm sat c =
    if f.hasNaN = true then (f.canonNaN, (S.decode c).raises) else (f.maxCode, flagInvalid) := by
  have hbelow : (S.decode c).isBelowZero = false := by
    cases hd : S.decode c with
    | nan q => rfl
    | inf | fin => rw [hd] at hv; cases hv
  rw [convert_float_not_below (.inr hbelow)]
  cases hd : S.decode c with
  | nan q =>
    simp only [convertToFloat]
    split
    · simp
    · rw [Num.raises_absorbed]
  | inf | fin => rw [hd] at hv; cases hv

theorem convert_float_inf {n : Bool} (hv : S.decode c = .inf n) (h : f.signed = true ∨ n = false) : convert S (.float f sg) rm sat c =
    if sat = false ∧ f.hasInf = true then (f.infCode n, 0) else if sat = true then (f.signBit n + f.maxCode, 0)
    else if f.hasNaN = true then (f.canonNaN, flagInvalid) else (f.signBit n + f.maxCode, flagInvalid) := by
  rw [convert_float_not_below (by rwa [hv]), hv]
  simp only [convertToFloat]
  cases sat <;> cases f.hasInf <;> cases f.hasNaN <;> simp [Num.raises]

end

/-! ### Integer and scaled targets -/

section
variable (rm : Rounding) (g : Bool) (u : Nat) (a : Int)

theorem convertToInt_finite {v : Num} (hv : v.finite) : ∃ n : Int, PicksInt rm (v.val / 2 ^ a) n ∧ convertToInt rm g u a v =
    if n < intMin g u then (intCode u (intMin g u), flagInvalid) else if intMax g u < n then (intCode u (intMax g u), flagInvalid)
    else (intCode u n, if n * (2 : ℚ) ^ a = v.val then 0 else flagInexact) := by
  obtain ⟨s, m, e, rfl⟩ := Num.exists_fin_of_finite hv
  obtain ⟨hpick, hexact⟩ := toInteger_picks rm s m e a
  refine ⟨_, hpick, ?_⟩
  have hflag : flagIf (!(toInteger rm s m e a).2) flagInexact =
      if ((toInteger rm s m e a).1 : ℚ) * 2 ^ a = (Num.fin s m e).val then 0 else flagInexact := by
    simp only [← hexact, flagIf]
    cases (toInteger rm s m e a).2 <;> rfl
  rw [← hflag]
  rfl

/-- What R80 has an integer or scaled target give, where the value is not below zero for an unsigned scaled one. -/
theorem convert_eq_convertToInt {S T : NumTy} {sat : Bool} {c : Nat}
    (hT : (T = .int g u ∧ a = 0 ∧ ∀ h w, S ≠ .int h w) ∨ T = .scaled g u a)
    (hb : ¬ (T = .scaled g u a ∧ g = false ∧ (S.decode c).isBelowZero = true)) :
    convert S T rm sat c = convertToInt rm g u a (S.decode c) := by
  rcases hT with ⟨rfl, rfl, hS⟩ | rfl
  · exact convert_toInt S rm sat c hS g u
  · rw [convert_scaled, if_neg fun h => hb ⟨rfl, by simpa using h⟩]

theorem convert_scaled_below {S T : NumTy} {sat : Bool} {c : Nat}
    (hb : T = .scaled g u a ∧ g = false ∧ (S.decode c).isBelowZero = true) : convert S T rm sat c = (0, flagInvalid) := by
  obtain ⟨rfl, rfl, hz⟩ := hb
  rw [convert_scaled, hz]
  rfl

end

/-! ### The slots -/

theorem laneElem_cvtLane (nf : Reg2 → BitVec 14) (S T : ElemType) (rm : Rounding) (q : Bool) (x : W32) {j : Nat} (hj : j < T.perLane) :
    laneElem T (cvtLane nf S T rm q x).1 j = if j < S.perLane then
      (convert (elemNumTy nf S) (elemNumTy nf T) rm q (laneElem S x j)).1 % 2 ^ T.width else 0 := by
  rw [cvtLane, laneElem_packLane T (by simp)]
  by_cases hS : j < S.perLane <;> simp [hj, hS]

theorem getLsbD_cvtLane (nf : Reg2 → BitVec 14) (S T : ElemType) (rm : Rounding) (q : Bool) (x : W32) (i : Nat) :
    (cvtLane nf S T rm q x).2.getLsbD i = (List.range (min T.perLane S.perLane)).any fun j =>
      (convert (elemNumTy nf S) (elemNumTy nf T) rm q (laneElem S x j)).2.getLsbD i := by
  rw [cvtLane, getLsbD_foldl_or, List.any_map, Bool.eq_iff_iff, List.any_eq_true, List.any_eq_true]
  refine exists_congr fun j => ?_
  by_cases hS : j < S.perLane <;> simp [hS]

theorem elemNumTy_wide (nf : Reg2 → BitVec 14) (t : ElemType) : elemNumTy nf (if isIntType t then .i32 else .f32) = wideTy t := by
  rw [wideTy]; split <;> rfl

theorem laneElem_narrowLane (nf : Reg2 → BitVec 14) (t : ElemType) (rm : Rounding) (q : Bool) {xs : List (List W32)}
    (hxs : xs.length = t.perLane) (i : Nat) {j : Nat} (hj : j < t.perLane) : laneElem t (narrowLane nf t rm q xs i).1 j =
      (convert (wideTy t) (elemNumTy nf t) rm q ((xs.getD j []).getD i 0).toNat).1 % 2 ^ t.width := by
  rw [narrowLane, laneElem_packLane t (by simp [hxs])]
  simp [hxs, hj]

theorem length_packSources (a : Reg) (t : ElemType) : (packSources a t).length = t.perLane := by simp [packSources]

/-- Settles O40: the slots apply `Convert` element by element, and `Convert` rounds once in each of its targets. -/
theorem vectorConversionsLand : Obligations.VectorConversionsLand := by
  refine ⟨fun s d a m t u rm q p => ⟨fun hr => ⟨?_, ?_⟩, fun hr => ⟨rfl, ?_⟩⟩, fun g h sat w u rm c => ⟨?_, rfl⟩,
    fun S f sg rm sat c _ => ?_, fun S T g u a rm sat c _ hT => ?_⟩
  · exact ⟨_, vector1_ready hr m 4 (cvtLane (recordsOf s) u t rm q), fun x =>
      ⟨fun j hj => laneElem_cvtLane _ u t rm q x hj, getLsbD_cvtLane _ u t rm q x⟩⟩
  · refine ⟨_, vectorOp_ready hr 4 (BitVec.allOnes 64) _, fun x => ?_⟩
    rw [elemNumTy_wide]
    rfl
  · refine ⟨_, vectorOp_ready hr 4 (BitVec.allOnes 64) _, fun i j hj => ?_⟩
    rw [elemNumTy_wide]
    exact laneElem_narrowLane _ t rm q (by rw [List.length_map, length_packSources]) i hj
  · exact intCode_cast u _
  · refine ⟨convert_float_finite, convert_float_below, fun hv hn => ?_, fun hv hn => ?_, fun n hv hs => ?_⟩
    · rw [convert_float_nan hv, if_pos hn]
    · rw [convert_float_nan hv, hn, if_neg Bool.false_ne_true]
    · rw [convert_float_inf hv hs]
      refine ⟨?_, ?_, ?_, ?_⟩ <;> intros <;> simp [*]
  · have hnot : ∀ n, S.decode c = n → n.isBelowZero = false →
        ¬ (T = .scaled g u a ∧ g = false ∧ (S.decode c).isBelowZero = true) := by
      rintro n rfl hn ⟨-, -, hb⟩
      rw [hn] at hb
      cases hb
    refine ⟨fun hv hb => ?_, fun hv hb => ?_, fun hv => ?_, fun hv => ?_, fun hv => ?_⟩
    · rw [convert_eq_convertToInt rm g u a hT (by rwa [Num.isBelowZero_of_finite hv])]
      exact convertToInt_finite rm g u a hv
    · exact convert_scaled_below rm g u a (by rwa [Num.isBelowZero_of_finite hv])
    · cases hd : S.decode c with
      | nan q =>
        rw [convert_eq_convertToInt rm g u a hT (hnot _ hd rfl), hd]
        rfl
      | inf | fin => rw [hd] at hv; cases hv
    · rw [convert_eq_convertToInt rm g u a hT (hnot _ hv rfl), hv]
      rfl
    · by_cases hb : T = .scaled g u a ∧ g = false ∧ (S.decode c).isBelowZero = true
      · rw [convert_scaled_below rm g u a hb, hb.2.1]
        simp
      · rw [convert_eq_convertToInt rm g u a hT hb, hv]
        rfl

end Sys2Proof.Machine

/-! SUPPORT. The statement on reductions: the levels of the tree of R87, and what its nodes and the latch combine. -/

namespace Sys2Proof.Machine

/-! ### The tree (R87) -/

section
variable (op : RedOp) (t : ElemType)

/-- A node that stands alone: nothing, and no flag. -/
def emptyNode : Option Nat × Flags5 := (none, 0)

theorem treeNode_values {p q : Option Nat × Flags5} {x y : Nat} (hp : p.1 = some x) (hq : q.1 = some y) :
    treeNode op t p q = (some (combine op t x y).1, p.2 ||| q.2 ||| (combine op t x y).2) := by
  simp only [treeNode, hp, hq]

theorem treeNode_none_left {p q : Option Nat × Flags5} (hp : p.1 = none) : treeNode op t p q = (q.1, p.2 ||| q.2) := by
  simp only [treeNode, hp]

theorem treeNode_none_right {p q : Option Nat × Flags5} (hq : q.1 = none) : treeNode op t p q = (p.1, p.2 ||| q.2) := by
  cases hp : p.1 <;> simp only [treeNode, hp, hq]

/-- A level pairs the results below: node i of it has the results 2i and 2i + 1. -/
theorem treeLevel_getD (n : Nat) {l : List (Option Nat × Flags5)} (hl : l.length = 2 * n) :
    (treeLevel op t l).length = n ∧ ∀ i < n, (treeLevel op t l).getD i emptyNode =
      treeNode op t (l.getD (2 * i) emptyNode) (l.getD (2 * i + 1) emptyNode) := by
  induction n generalizing l with
  | zero => obtain rfl := List.eq_nil_of_length_eq_zero hl; exact ⟨rfl, fun i hi => absurd hi (Nat.not_lt_zero i)⟩
  | succ n ih =>
    match l, hl with
    | x :: y :: xs, hl =>
      obtain ⟨hlen, hget⟩ := ih (l := xs) (by simp only [List.length_cons] at hl; omega)
      refine ⟨by rw [treeLevel, List.length_cons, hlen], fun i hi => ?_⟩
      cases i with
      | zero => rfl
      | succ i => exact hget i (by omega)

/-- The leaves of a reduction: the active lanes. -/
def treeLeaves (mask : W64) (X : List W32) : List (Option Nat × Flags5) :=
  (List.range 64).map fun i => (if mask.getLsbD i then some (X.getD i 0).toNat else none, (0 : Flags5))

/-- The results after so many levels. -/
def treeLevels (mask : W64) (X : List W32) (l : Nat) : List (Option Nat × Flags5) := (treeLevel op t)^[l] (treeLeaves mask X)

variable (mask : W64) (X : List W32)

theorem treeLevels_succ (l : Nat) : treeLevels op t mask X (l + 1) = treeLevel op t (treeLevels op t mask X l) :=
  Function.iterate_succ_apply' _ l _

theorem length_treeLevels {l : Nat} (hl : l ≤ 6) : (treeLevels op t mask X l).length = 2 ^ (6 - l) := by
  induction l with
  | zero => simp [treeLevels, treeLeaves]
  | succ l ih =>
    have hbelow : (treeLevels op t mask X l).length = 2 * 2 ^ (6 - (l + 1)) := by
      rw [ih (by omega), ← pow_succ', show 6 - (l + 1) + 1 = 6 - l by omega]
    rw [treeLevels_succ]
    exact (treeLevel_getD op t _ hbelow).1

/-- The tree of R87: node i of a level is that of the results 2i and 2i + 1 below it. -/
theorem treeLevels_getD {l i : Nat} (hl : l < 6) (hi : i < 2 ^ (5 - l)) : (treeLevels op t mask X (l + 1)).getD i emptyNode =
    treeNode op t ((treeLevels op t mask X l).getD (2 * i) emptyNode) ((treeLevels op t mask X l).getD (2 * i + 1) emptyNode) := by
  have hbelow : (treeLevels op t mask X l).length = 2 * 2 ^ (5 - l) := by
    rw [length_treeLevels op t mask X hl.le, ← pow_succ', show 5 - l + 1 = 6 - l by omega]
  rw [treeLevels_succ]
  exact (treeLevel_getD op t _ hbelow).2 i hi

theorem treeLeaves_getD {i : Nat} (hi : i < 64) :
    (treeLeaves mask X).getD i emptyNode = (if mask.getLsbD i then some (X.getD i 0).toNat else none, 0) := by
  simp [treeLeaves, hi]

theorem treeRoot_eq_levels : treeRoot op t mask X = (treeLevels op t mask X 6).getD 0 emptyNode := by
  change List.headD (treeLevels op t mask X 6) emptyNode = _
  cases treeLevels op t mask X 6 <;> rfl

/-- What every leaf has and every node keeps the root has. -/
theorem treeRoot_induct (P : Option Nat × Flags5 → Prop)
    (hleaf : ∀ i < 64, P (if mask.getLsbD i then some (X.getD i 0).toNat else none, 0))
    (hnode : ∀ p q, P p → P q → P (treeNode op t p q)) : P (treeRoot op t mask X) := by
  suffices h : ∀ l ≤ 6, ∀ i < 2 ^ (6 - l), P ((treeLevels op t mask X l).getD i emptyNode) by
    rw [treeRoot_eq_levels]; exact h 6 le_rfl 0 (by decide)
  intro l
  induction l with
  | zero => exact fun _ i hi => by rw [show treeLevels op t mask X 0 = treeLeaves mask X from rfl, treeLeaves_getD mask X hi]; exact hleaf i hi
  | succ l ih =>
    intro hl i hi
    have hpow : 2 ^ (6 - l) = 2 * 2 ^ (5 - l) := by rw [← pow_succ', show 5 - l + 1 = 6 - l by omega]
    rw [show 6 - (l + 1) = 5 - l by omega] at hi
    rw [treeLevels_getD op t mask X (by omega) hi]
    exact hnode _ _ (ih (by omega) _ (by omega)) (ih (by omega) _ (by omega))

/-- Where no lane is active the tree has no root. -/
theorem treeRoot_inactive (h : ∀ i < 64, mask.getLsbD i = false) : treeRoot op t mask X = (none, 0) := by
  refine treeRoot_induct op t mask X (· = (none, 0)) (fun i hi => by simp [h i hi]) ?_
  rintro p q rfl rfl
  rfl

end

/-! ### Sums, minima and maxima of `i32` (R68, R87) -/

theorem signedOf_eq_toInt (w x : Nat) : signedOf w x = (BitVec.ofNat w x).toInt := by
  rw [signedOf, BitVec.toInt_eq_toNat_cond, BitVec.toNat_ofNat]
  push_cast
  rfl

/-- A code read signed and written back is itself modulo its width. -/
theorem intCode_signedOf (w x : Nat) : intCode w (signedOf w x) = x % 2 ^ w := by
  have hcast : ((intCode w (signedOf w x) : Nat) : Int) = ((x % 2 ^ w : Nat) : Int) := by
    rw [intCode_cast, signedOf]
    push_cast
    split
    · exact Int.emod_emod_of_dvd _ (dvd_refl _)
    · rw [Int.sub_emod_right, Int.emod_emod_of_dvd _ (dvd_refl _)]
  exact_mod_cast hcast

theorem signedOf_emod (w x : Nat) : signedOf w x % 2 ^ w = (x : Int) % 2 ^ w := by
  have h := congrArg (Nat.cast : Nat → Int) (intCode_signedOf w x)
  rw [intCode_cast] at h
  exact_mod_cast h

theorem combine_add_i32 (x y : Nat) : combine .add .i32 x y = ((x + y) % 2 ^ 32, 0) := by
  have hsum : ((intCode 32 (signedOf 32 x + signedOf 32 y) : Nat) : Int) = (((x + y) % 2 ^ 32 : Nat) : Int) := by
    rw [intCode_cast, Int.add_emod, signedOf_emod, signedOf_emod, ← Int.add_emod]
    push_cast
    rfl
  exact Prod.ext (by exact_mod_cast hsum) rfl

theorem combine_min_i32 (x y : Nat) : combine .min .i32 x y =
    ((if (BitVec.ofNat 32 y).toInt < (BitVec.ofNat 32 x).toInt then y else x) % 2 ^ 32, 0) := by
  change (intCode 32 (if signedOf 32 y < signedOf 32 x then signedOf 32 y else signedOf 32 x), _) = _
  rw [← apply_ite (signedOf 32), intCode_signedOf, signedOf_eq_toInt, signedOf_eq_toInt]

theorem combine_max_i32 (x y : Nat) : combine .max .i32 x y =
    ((if (BitVec.ofNat 32 x).toInt < (BitVec.ofNat 32 y).toInt then y else x) % 2 ^ 32, 0) := by
  change (intCode 32 (if signedOf 32 x < signedOf 32 y then signedOf 32 y else signedOf 32 x), _) = _
  rw [← apply_ite (signedOf 32), intCode_signedOf, signedOf_eq_toInt, signedOf_eq_toInt]

/-- A node of an `i32` sum adds modulo 2^32 and raises nothing. -/
theorem treeNode_add_i32 {p q : Option Nat × Flags5} (hp : p.2 = 0) (hq : q.2 = 0) :
    (treeNode .add .i32 p q).2 = 0 ∧ ((treeNode .add .i32 p q).1 = none ↔ p.1 = none ∧ q.1 = none) ∧
      ((treeNode .add .i32 p q).1.getD 0) % 2 ^ 32 = (p.1.getD 0 + q.1.getD 0) % 2 ^ 32 := by
  cases hx : p.1 with
  | none => rw [treeNode_none_left _ _ hx, hp, hq]; simp
  | some x =>
    cases hy : q.1 with
    | none => rw [treeNode_none_right _ _ hy, hp, hq, hx]; simp
    | some y => rw [treeNode_values _ _ hx hy, combine_add_i32, hp, hq]; simp

/-- Of a list of results: no flag, one value at least, and their sum modulo 2^32. -/
def SumsTo (n : Nat) (l : List (Option Nat × Flags5)) : Prop :=
  (∀ p ∈ l, p.2 = 0) ∧ (∃ p ∈ l, p.1 ≠ none) ∧ ((l.map fun p => p.1.getD 0).sum) % 2 ^ 32 = n % 2 ^ 32

theorem treeLevel_sums (l : List (Option Nat × Flags5)) (h : ∀ p ∈ l, p.2 = 0) :
    (∀ p ∈ treeLevel .add .i32 l, p.2 = 0) ∧ ((∃ p ∈ l, p.1 ≠ none) → ∃ p ∈ treeLevel .add .i32 l, p.1 ≠ none) ∧
      (((treeLevel .add .i32 l).map fun p => p.1.getD 0).sum) % 2 ^ 32 = ((l.map fun p => p.1.getD 0).sum) % 2 ^ 32 := by
  induction l using treeLevel.induct with
  | case1 x y xs ih =>
    obtain ⟨hflag, hnone, hsum⟩ := treeNode_add_i32 (h x (by simp)) (h y (by simp))
    obtain ⟨ihflag, ihsome, ihsum⟩ := ih fun p hp => h p (by simp [hp])
    rw [treeLevel]
    refine ⟨List.forall_mem_cons.mpr ⟨hflag, ihflag⟩, ?_, ?_⟩
    · rintro ⟨p, hp, hpn⟩
      by_cases hxy : x.1 = none ∧ y.1 = none
      · rcases List.mem_cons.mp hp with rfl | hp
        · exact absurd hxy.1 hpn
        · rcases List.mem_cons.mp hp with rfl | hp
          · exact absurd hxy.2 hpn
          · obtain ⟨r, hr, hrn⟩ := ihsome ⟨p, hp, hpn⟩
            exact ⟨r, List.mem_cons_of_mem _ hr, hrn⟩
      · exact ⟨_, List.mem_cons_self, fun hn => hxy (hnone.mp hn)⟩
    · simp only [List.map_cons, List.sum_cons]
      omega
  | case2 xs hxs =>
    have hsame : treeLevel .add .i32 xs = xs := by
      cases xs with
      | nil => rfl
      | cons x xs => cases xs with
        | nil => rfl
        | cons y xs => exact absurd rfl (hxs x y xs)
    rw [hsame]
    exact ⟨h, id, rfl⟩

theorem treeLevel_sumsTo {n : Nat} {l : List (Option Nat × Flags5)} (h : SumsTo n l) : SumsTo n (treeLevel .add .i32 l) := by
  obtain ⟨hflag, hsome, hsum⟩ := h
  obtain ⟨hflag', hsome', hsum'⟩ := treeLevel_sums l hflag
  exact ⟨hflag', hsome' hsome, hsum'.trans hsum⟩

/-- The sum of the active lanes. -/
def laneSum (mask : W64) (X : List W32) : Nat := ((List.range 64).map fun i => if mask.getLsbD i then (X.getD i 0).toNat else 0).sum

theorem treeLeaves_sumsTo {mask : W64} (hm : mask ≠ 0) (X : List W32) : SumsTo (laneSum mask X) (treeLeaves mask X) := by
  refine ⟨fun p hp => ?_, ?_, ?_⟩
  · obtain ⟨i, -, rfl⟩ := List.mem_map.mp hp
    rfl
  · obtain ⟨i, hi, hbit⟩ : ∃ i < 64, mask.getLsbD i = true := by
      by_contra hno
      push Not at hno
      exact hm (BitVec.eq_of_getLsbD_eq fun i hi => by simpa using hno i hi)
    exact ⟨_, List.mem_map.mpr ⟨i, List.mem_range.mpr hi, rfl⟩, by simp [hbit]⟩
  · rw [treeLeaves, List.map_map, laneSum]
    congr 2
    refine List.map_congr_left fun i _ => ?_
    simp only [Function.comp]
    split <;> rfl

/-- The root of an `i32` sum is the sum of the active lanes. -/
theorem treeRoot_add_i32 {mask : W64} (hm : mask ≠ 0) (X : List W32) : ∃ x, treeRoot .add .i32 mask X = (some x, 0) ∧
    x % 2 ^ 32 = laneSum mask X % 2 ^ 32 := by
  have hroot : SumsTo (laneSum mask X) (treeLevels .add .i32 mask X 6) := by
    rw [treeLevels]
    exact Function.Iterate.rec (SumsTo _) (treeLeaves_sumsTo hm X) (fun _ => treeLevel_sumsTo) 6
  obtain ⟨p, hp⟩ := List.length_eq_one_iff.mp (length_treeLevels .add .i32 mask X le_rfl)
  rw [treeRoot_eq_levels, hp]
  rw [hp] at hroot
  obtain ⟨hflag, ⟨q, hq, hsome⟩, hsum⟩ := hroot
  obtain rfl := List.mem_singleton.mp hq
  obtain ⟨x, hx⟩ := Option.ne_none_iff_exists'.mp hsome
  refine ⟨x, Prod.ext hx (hflag q hq), ?_⟩
  simpa [hx] using hsum

/-! ### Latches -/

theorem reduce_empty {r : Regs} {n : Nat} (h : Sparse.find r.ps n = none) (o : RedOp) (t : ElemType) (x : W32) :
    r.reduce n o t x = ({ r with ps := Sparse.put r.ps n x }, 0) := by
  rw [Regs.reduce, h]

theorem reduce_filled {r : Regs} {n : Nat} {y : W32} (h : Sparse.find r.ps n = some y) (o : RedOp) (t : ElemType) (x : W32) :
    r.reduce n o t x = ({ r with ps := Sparse.put r.ps n (BitVec.ofNat 32 (combine o t y.toNat x.toNat).1) }, (combine o t y.toNat x.toNat).2) := by
  rw [Regs.reduce, h]

/-- A contribution to a latch leaves the others. -/
theorem find_reduce_other (r : Regs) {n k : Nat} (h : k ≠ n) (o : RedOp) (t : ElemType) (x : W32) :
    Sparse.find (r.reduce n o t x).1.ps k = Sparse.find r.ps k := by
  cases hf : Sparse.find r.ps n with
  | none => rw [reduce_empty hf]; exact Sparse.find_put_other _ _ _ _ h
  | some y => rw [reduce_filled hf]; exact Sparse.find_put_other _ _ _ _ h

/-- `vred` under what its check answers, for a root and for none (R362). -/
theorem exec_vred_root {s : State} {a : Reg} (hs : s.here.checkSrcV a = .ok) {o : RedOp} {m : Reg3} {t : ElemType} {x : Nat} {fl : Flags5}
    (h : treeRoot o t (srcM s m) (s.here.readSrcV a) = (some x, fl)) (n : Reg2) :
    exec (.vred o n a m t) s = .next (s.popsThen [a] fun u => landFlags 10 fl (land 10 (.ps n.toNat o t (BitVec.ofNat 32 x)) u)) := by
  change execVred o n a m t s = _
  rw [execVred, h, hs]
  rfl

theorem exec_vred_none {s : State} {a : Reg} (hs : s.here.checkSrcV a = .ok) {o : RedOp} {m : Reg3} {t : ElemType} {fl : Flags5}
    (h : treeRoot o t (srcM s m) (s.here.readSrcV a) = (none, fl)) (n : Reg2) : exec (.vred o n a m t) s = .next (s.popsThen [a] id) := by
  change execVred o n a m t s = _
  rw [execVred, h, hs]
  rfl

theorem exec_vdrain {s : State} {d : Reg} (hd : s.here.checkDestV d = .ok) (n : Reg2) (m : Reg3) (t : ElemType) :
    exec (.vdrain d n m t) s = .next (s.took fun s => landV d 4 (srcM s m) (List.replicate 64 ((Sparse.find s.here.regs.ps n.toNat).getD 0))
      (s.mapHere fun c => { c with regs := { c.regs with ps := Sparse.erase c.regs.ps n.toNat } })) := by
  change under (s.here.checkDestV d) s _ = _
  rw [hd]
  rfl

/-- Settles O42: the tree level by level, the sums by what every level keeps, the latches by their two cases. -/
theorem reductionLatchesWork : Obligations.ReductionLatchesWork := by
  refine ⟨fun s o n d a m t => ⟨fun hs => ⟨fun x fl h => exec_vred_root hs h n, fun h => ?_⟩, fun hd => exec_vdrain hd n m t⟩,
    fun r n o t x _ => ⟨fun h => ?_, fun y h => ?_, fun k hk => find_reduce_other r hk o t x⟩, fun mask X hm => treeRoot_add_i32 hm X,
    fun o t mask X => ⟨fun l i => (treeLevels o t mask X l).getD i emptyNode, treeRoot_eq_levels o t mask X,
      fun i hi => treeLeaves_getD mask X hi, fun l hl i hi => ?_⟩, fun x y => ⟨rfl, rfl, rfl⟩,
    fun x y => ⟨combine_add_i32 x y, combine_min_i32 x y, combine_max_i32 x y⟩⟩
  · exact exec_vred_none hs (treeRoot_inactive o t (srcM s m) _ h) n
  · rw [reduce_empty h]
    exact ⟨Sparse.find_put_same _ _ _, rfl⟩
  · rw [reduce_filled h]
    exact ⟨Sparse.find_put_same _ _ _, rfl⟩
  · have hnode := treeLevels_getD o t mask X hl hi
    exact ⟨fun x y hp hq => hnode.trans (treeNode_values o t hp hq), fun hp => hnode.trans (treeNode_none_left o t hp),
      fun hq => hnode.trans (treeNode_none_right o t hq)⟩

end Sys2Proof.Machine

/-! SUPPORT. Dot products and scans of vectors: sums with infinities, the products of a lane, results that fit their codes, and the scan
lane by lane. -/

namespace Sys2Proof.Machine

/-! ### Products and sums with NaNs and infinities (R70, R85, R356) -/

/-- A product that is no number: an operand is a NaN, or an infinity meets a zero. -/
def Num.NoProduct (a b : Num) : Prop :=
  a.isNaN = true ∨ b.isNaN = true ∨ (∃ n, a = .inf n ∧ b.finite ∧ b.val = 0) ∨ ∃ n, b = .inf n ∧ a.finite ∧ a.val = 0

/-- A product that is the infinity of a sign: an operand is one, and the signs give that sign. -/
def Num.InfProduct (a b : Num) (n : Bool) : Prop := ∃ k, (a = .inf k ∧ b.isNeg = (k != n)) ∨ (b = .inf k ∧ a.isNeg = (k != n))

theorem Num.not_noProduct_of_finite {a b : Num} (ha : a.finite) (hb : b.finite) : ¬ a.NoProduct b := by
  obtain ⟨s, m, e, rfl⟩ := exists_fin_of_finite ha
  obtain ⟨t, n, k, rfl⟩ := exists_fin_of_finite hb
  simp [NoProduct, isNaN]

theorem Num.not_infProduct_of_finite {a b : Num} (ha : a.finite) (hb : b.finite) (n : Bool) : ¬ a.InfProduct b n := by
  obtain ⟨s, m, e, rfl⟩ := exists_fin_of_finite ha
  obtain ⟨t, n, k, rfl⟩ := exists_fin_of_finite hb
  simp [InfProduct]

/-- An infinity times a number that is not zero. -/
theorem Num.mul_inf_left (k : Bool) {b : Num} (h : ¬ (Num.inf k).NoProduct b) : (Num.inf k).mul b = (.inf (k != b.isNeg), false) := by
  cases b with
  | nan q => exact absurd (.inr (.inl rfl)) h
  | inf t => rfl
  | fin t m e =>
    have hm : m ≠ 0 := fun hz => h (.inr (.inr (.inl ⟨k, rfl, trivial, (val_eq_zero_iff t m e).mpr hz⟩)))
    simp [mul, hm, isNeg]

theorem Num.mul_inf_right {a : Num} (k : Bool) (h : ¬ a.NoProduct (.inf k)) : a.mul (.inf k) = (.inf (a.isNeg != k), false) := by
  cases a with
  | nan q => exact absurd (.inl rfl) h
  | inf t => rfl
  | fin t m e =>
    have hm : m ≠ 0 := fun hz => h (.inr (.inr (.inr ⟨k, rfl, trivial, (val_eq_zero_iff t m e).mpr hz⟩)))
    simp [mul, hm, isNeg]

/-- Where there is no product, the result is a NaN and invalid is raised. -/
theorem Num.mul_noProduct {a b : Num} (h : a.NoProduct b) :
    (a.mul b).1.isNaN = true ∧ ((a.mul b).2 || a.isNaN || b.isNaN) = true := by
  rcases h with h | h | ⟨n, rfl, hb, hz⟩ | ⟨n, rfl, ha, hz⟩
  · rw [mul_nan (.inl h)]
    exact ⟨rfl, by rw [h, Bool.or_true, Bool.true_or]⟩
  · rw [mul_nan (.inr h)]
    exact ⟨rfl, by rw [h, Bool.or_true]⟩
  · obtain ⟨t, m, e, rfl⟩ := exists_fin_of_finite hb
    simp [mul, (val_eq_zero_iff t m e).mp hz, isNaN]
  · obtain ⟨t, m, e, rfl⟩ := exists_fin_of_finite ha
    simp [mul, (val_eq_zero_iff t m e).mp hz, isNaN]

/-- Every other product is a number, with no flag, and an infinity where `InfProduct` says so. -/
theorem Num.mul_product {a b : Num} (h : ¬ a.NoProduct b) :
    (a.mul b).1.isNaN = false ∧ ((a.mul b).2 || a.isNaN || b.isNaN) = false ∧ ∀ n, (a.mul b).1 = .inf n ↔ a.InfProduct b n := by
  have ha : a.isNaN = false := Bool.eq_false_iff.mpr fun hn => h (.inl hn)
  have hb : b.isNaN = false := Bool.eq_false_iff.mpr fun hn => h (.inr (.inl hn))
  cases a with
  | nan q => cases ha
  | inf k =>
    rw [mul_inf_left k h]
    refine ⟨rfl, by simp [ha, hb], fun n => ?_⟩
    cases b with
    | nan q => cases hb
    | inf t => cases k <;> cases t <;> cases n <;> simp [InfProduct, isNeg]
    | fin t m e => cases k <;> cases t <;> cases n <;> simp [InfProduct, isNeg]
  | fin s m e =>
    cases b with
    | nan q => cases hb
    | inf t =>
      rw [mul_inf_right t h]
      refine ⟨rfl, by simp [ha, hb], fun n => ?_⟩
      cases s <;> cases t <;> cases n <;> simp [InfProduct, isNeg]
    | fin t k g => exact ⟨rfl, rfl, fun n => by simp [mul, InfProduct]⟩

/-- A sum with infinities: of both signs invalid, of one sign that infinity. -/
theorem sumNums_infs {xs : List Num} (hn : xs.any Num.isNaN = false) :
    (.inf false ∈ xs → .inf true ∈ xs → sumNums xs = (.nan false, true)) ∧
      (.inf false ∈ xs → .inf true ∉ xs → sumNums xs = (.inf false, false)) ∧
      (.inf true ∈ xs → .inf false ∉ xs → sumNums xs = (.inf true, false)) := by
  have hmem : ∀ n, xs.any (· == .inf n) = decide (.inf n ∈ xs) := fun n => by rw [Bool.eq_iff_iff]; simp
  refine ⟨fun hp hm => ?_, fun hp hm => ?_, fun hm hp => ?_⟩ <;> simp [sumNums, hn, hmem, hp, hm]

/-! ### `vdot4` (R81, R361) -/

section
variable (T : NumTy) (x y : Nat)

/-- An element type's codes of integers stand for finite numbers, and their product is exact. -/
theorem dotProduct_int (g : Bool) (w : Nat) : ∃ n : Int, dotProduct (.int g w) x y = (.ofInt n 0, false) ∧
    ((NumTy.int g w).decode x).finite ∧ ((NumTy.int g w).decode y).finite ∧
    (Num.ofInt n 0).val = ((NumTy.int g w).decode x).val * ((NumTy.int g w).decode y).val := by
  have hval : ∀ n : Int, (Num.ofInt n 0).val = n := fun n => by rw [Num.ofInt, Num.val_fin, signedInt_natAbs]; simp
  cases g with
  | false => exact ⟨_, rfl, trivial, trivial, by rw [hval]; simp [NumTy.decode, Num.val]; norm_cast⟩
  | true => exact ⟨_, rfl, trivial, trivial, by simp only [NumTy.decode, hval]; push_cast; rfl⟩

/-- Every other element pair multiplies as numbers. -/
theorem dotProduct_num (hT : ∀ g w, T ≠ .int g w) : dotProduct T x y =
    (((T.decode x).mul (T.decode y)).1, ((T.decode x).mul (T.decode y)).2 || (T.decode x).isNaN || (T.decode y).isNaN) := by
  cases T with
  | int g w => exact absurd rfl (hT g w)
  | scaled | float => rfl

theorem dotProduct_finite (hx : (T.decode x).finite) (hy : (T.decode y).finite) :
    ∃ s m e, dotProduct T x y = (.fin s m e, false) ∧ (Num.fin s m e).val = (T.decode x).val * (T.decode y).val := by
  by_cases hT : ∃ g w, T = .int g w
  · obtain ⟨g, w, rfl⟩ := hT
    obtain ⟨n, hn, -, -, hval⟩ := dotProduct_int x y g w
    exact ⟨_, _, _, hn, hval⟩
  · push Not at hT
    obtain ⟨m, e, hmul, hval⟩ := Num.mul_finite hx hy
    exact ⟨_, m, e, by rw [dotProduct_num T x y hT, hmul, Num.isNaN_of_finite hx, Num.isNaN_of_finite hy]; rfl, hval⟩

theorem dotProduct_noProduct (h : (T.decode x).NoProduct (T.decode y)) : (dotProduct T x y).1.isNaN = true ∧ (dotProduct T x y).2 = true := by
  by_cases hT : ∃ g w, T = .int g w
  · obtain ⟨g, w, rfl⟩ := hT
    obtain ⟨-, -, hx, hy, -⟩ := dotProduct_int x y g w
    exact absurd h (Num.not_noProduct_of_finite hx hy)
  · push Not at hT
    rw [dotProduct_num T x y hT]
    exact Num.mul_noProduct h

theorem dotProduct_product (h : ¬ (T.decode x).NoProduct (T.decode y)) : (dotProduct T x y).1.isNaN = false ∧ (dotProduct T x y).2 = false ∧
    ∀ n, (dotProduct T x y).1 = .inf n ↔ (T.decode x).InfProduct (T.decode y) n := by
  by_cases hT : ∃ g w, T = .int g w
  · obtain ⟨g, w, rfl⟩ := hT
    obtain ⟨k, hk, hx, hy, -⟩ := dotProduct_int x y g w
    rw [hk]
    exact ⟨rfl, rfl, fun n => iff_of_false (by simp [Num.ofInt]) (Num.not_infProduct_of_finite hx hy n)⟩
  · push Not at hT
    rw [dotProduct_num T x y hT]
    exact Num.mul_product h

end

/-- The products of the elements of a lane. -/
def laneProducts (T : NumTy) (t : ElemType) (x y : W32) : List (Num × Bool) :=
  (List.range t.perLane).map fun j => dotProduct T (laneElem t x j) (laneElem t y j)

theorem dot4_eq (T : NumTy) (t : ElemType) (x y : W32) (d : Nat) : dot4 T (laneElems t x) (laneElems t y) d =
    floatSum fmtF32 (fmtF32.decode true d).raises ((laneProducts T t x y).map (·.1) ++ [fmtF32.decode true d])
      ((laneProducts T t x y).any (·.2)) := by
  rw [dot4, laneElems, laneElems, List.zipWith_map, List.zipWith_self]
  rfl

section
variable {T : NumTy} {t : ElemType} {x y : W32} {d : Nat}

theorem dot4_finite (h : ∀ j < t.perLane, (T.decode (laneElem t x j)).finite ∧ (T.decode (laneElem t y j)).finite)
    (hd : (fmtF32.decode true d).finite) : ∃ g, RoundsOnce fmtF32 ((fmtF32.decode true d).val +
      ((List.range t.perLane).map fun j => (T.decode (laneElem t x j)).val * (T.decode (laneElem t y j)).val).sum) g
      (dot4 T (laneElems t x) (laneElems t y) d) := by
  have hprod : ∀ j ∈ List.range t.perLane, (dotProduct T (laneElem t x j) (laneElem t y j)).1.finite ∧
      (dotProduct T (laneElem t x j) (laneElem t y j)).2 = false ∧ (dotProduct T (laneElem t x j) (laneElem t y j)).1.val =
        (T.decode (laneElem t x j)).val * (T.decode (laneElem t y j)).val := fun j hj => by
    obtain ⟨hx, hy⟩ := h j (List.mem_range.mp hj)
    obtain ⟨s, m, e, hp, hval⟩ := dotProduct_finite T _ _ hx hy
    rw [hp]
    exact ⟨trivial, rfl, hval⟩
  have hfin : ∀ z ∈ (laneProducts T t x y).map (·.1) ++ [fmtF32.decode true d], z.finite := by
    simp only [laneProducts, List.map_map, List.mem_append, List.mem_map, Function.comp, List.mem_singleton]
    rintro z (⟨j, hj, rfl⟩ | rfl)
    · exact (hprod j hj).1
    · exact hd
  have hvalid : (laneProducts T t x y).any (·.2) = false := by
    rw [laneProducts, List.any_map, List.any_eq_false]
    exact fun j hj => Bool.eq_false_iff.mp (hprod j hj).2.1
  have hvals : ((laneProducts T t x y).map (·.1)).map Num.val =
      (List.range t.perLane).map fun j => (T.decode (laneElem t x j)).val * (T.decode (laneElem t y j)).val := by
    rw [laneProducts, List.map_map, List.map_map]
    exact List.map_congr_left fun j hj => (hprod j hj).2.2
  have hsum := floatSum_finite (f := fmtF32) hfin
  rw [List.map_append, List.sum_append, hvals, List.map_singleton, List.sum_singleton, add_comm] at hsum
  rw [dot4_eq, hvalid, Num.raises_of_finite hd]
  exact ⟨_, hsum⟩

theorem dot4_noProduct {j : Nat} (hj : j < t.perLane) (h : (T.decode (laneElem t x j)).NoProduct (T.decode (laneElem t y j))) :
    dot4 T (laneElems t x) (laneElems t y) d = (fmtF32.canonNaN, flagInvalid ||| (fmtF32.decode true d).raises) := by
  obtain ⟨hnan, hbad⟩ := dotProduct_noProduct T _ _ h
  have hmem : dotProduct T (laneElem t x j) (laneElem t y j) ∈ laneProducts T t x y := List.mem_map_of_mem (List.mem_range.mpr hj)
  have hany : (laneProducts T t x y).any (·.2) = true := List.any_eq_true.mpr ⟨_, hmem, hbad⟩
  rw [dot4_eq, floatSum_nan (List.any_eq_true.mpr ⟨_, List.mem_append_left _ (List.mem_map_of_mem hmem), hnan⟩), hany, BitVec.or_comm]
  rfl

section
variable (h : ∀ j < t.perLane, ¬ (T.decode (laneElem t x j)).NoProduct (T.decode (laneElem t y j)))
include h

theorem dot4_valid : (laneProducts T t x y).any (·.2) = false := by
  rw [laneProducts, List.any_map, List.any_eq_false]
  exact fun j hj => Bool.eq_false_iff.mp (dotProduct_product T _ _ (h j (List.mem_range.mp hj))).2.1

theorem dot4_nan (hd : (fmtF32.decode true d).isNaN = true) :
    dot4 T (laneElems t x) (laneElems t y) d = (fmtF32.canonNaN, (fmtF32.decode true d).raises) := by
  rw [dot4_eq, dot4_valid h, floatSum_nan (by simp [hd])]
  exact Prod.ext rfl BitVec.or_zero

theorem mem_terms (n : Bool) : .inf n ∈ (laneProducts T t x y).map (·.1) ++ [fmtF32.decode true d] ↔
    fmtF32.decode true d = .inf n ∨ ∃ j < t.perLane, (T.decode (laneElem t x j)).InfProduct (T.decode (laneElem t y j)) n := by
  have hterm : .inf n ∈ (laneProducts T t x y).map (·.1) ↔
      ∃ j < t.perLane, (T.decode (laneElem t x j)).InfProduct (T.decode (laneElem t y j)) n := by
    simp only [laneProducts, List.map_map, List.mem_map, List.mem_range, Function.comp]
    exact exists_congr fun j => and_congr_right fun hj => (dotProduct_product T _ _ (h j hj)).2.2 n
  rw [List.mem_append, hterm, List.mem_singleton, or_comm, eq_comm]

/-- Infinities among the terms: of both signs invalid, of one sign that infinity. -/
theorem dot4_infs (hd : (fmtF32.decode true d).isNaN = false) :
    let inf := fun n => fmtF32.decode true d = .inf n ∨
      ∃ j < t.perLane, (T.decode (laneElem t x j)).InfProduct (T.decode (laneElem t y j)) n
    (inf false → inf true → dot4 T (laneElems t x) (laneElems t y) d = (fmtF32.canonNaN, flagInvalid)) ∧
      (inf false → ¬ inf true → dot4 T (laneElems t x) (laneElems t y) d = (fmtF32.infCode false, 0)) ∧
      (inf true → ¬ inf false → dot4 T (laneElems t x) (laneElems t y) d = (fmtF32.infCode true, 0)) := by
  have hnan : ((laneProducts T t x y).map (·.1) ++ [fmtF32.decode true d]).any Num.isNaN = false := by
    simp only [laneProducts, List.map_map, List.any_append, List.any_map, List.any_cons, hd, List.any_nil, Bool.or_false]
    exact List.any_eq_false.mpr fun j hj => Bool.eq_false_iff.mp (dotProduct_product T _ _ (h j (List.mem_range.mp hj))).1
  obtain ⟨hboth, hpos, hneg⟩ := sumNums_infs hnan
  simp only [mem_terms h] at hboth hpos hneg
  rw [dot4_eq, dot4_valid h, Num.raises_of_not_nan hd]
  refine ⟨fun hp hm => ?_, fun hp hm => ?_, fun hm hp => ?_⟩
  · rw [floatSum, hboth hp hm]; rfl
  · rw [floatSum, hpos hp hm]; rfl
  · rw [floatSum, hneg hm hp]; rfl

end

end

/-! ### Results fit their codes -/

section
variable {f : FloatFmt}

theorem FloatFmt.maxCode_lt (f : FloatFmt) : f.maxCode < 2 ^ (f.e + f.m) := by
  have hpos : 0 < 2 ^ (f.e + f.m) := Nat.two_pow_pos _
  have hposm : 0 < 2 ^ f.m := Nat.two_pow_pos _
  unfold maxCode
  split <;> omega

theorem FloatFmt.signBit_le (f : FloatFmt) (neg : Bool) : f.signBit neg ≤ 2 ^ (f.e + f.m) := by
  unfold signBit
  split
  · exact le_rfl
  · exact Nat.zero_le _

theorem FloatFmt.infCode_lt (f : FloatFmt) (neg : Bool) : f.infCode neg < 2 ^ (f.e + f.m + 1) := by
  have hsign := f.signBit_le neg
  have hpos : 0 < 2 ^ f.m := Nat.two_pow_pos _
  have hle : 2 ^ f.m ≤ 2 ^ (f.e + f.m) := Nat.pow_le_pow_right two_pos (by omega)
  rw [infCode, pow_succ]
  omega

theorem FloatFmt.deliver_lt (f : FloatFmt) (rm : Rounding) (sat neg exact : Bool) (c : Nat) :
    (f.deliver rm sat neg exact c).1 < 2 ^ (f.e + f.m + 1) := by
  have hsign := f.signBit_le neg
  have hmax := f.maxCode_lt
  have hinf := f.infCode_lt neg
  unfold deliver
  rw [pow_succ] at hinf ⊢
  dsimp only
  split_ifs <;> dsimp only <;> omega

theorem FloatFmt.round_lt (f : FloatFmt) (rm : Rounding) (sat neg : Bool) (m : Nat) (e : Int) :
    (f.round rm sat neg m e).1 < 2 ^ (f.e + f.m + 1) := by
  by_cases hm : m = 0
  · rw [hm, round_zero]
    exact f.deliver_lt ..
  · obtain ⟨c, r, -, -, -, hround⟩ := f.round_neighbours hm e
    rw [hround]
    exact f.deliver_lt ..

theorem FloatFmt.result_lt (hm : 0 < f.m) (v : Num) : (f.result v).1 < 2 ^ (f.e + f.m + 1) := by
  cases v with
  | nan q =>
    have hle : 2 ^ f.m ≤ 2 ^ (f.e + f.m) := Nat.pow_le_pow_right two_pos (by omega)
    have hlt : 2 ^ (f.m - 1) < 2 ^ f.m := Nat.pow_lt_pow_right one_lt_two (by omega)
    have hpos : 0 < 2 ^ f.m := Nat.two_pow_pos _
    change f.canonNaN < _
    unfold canonNaN
    rw [pow_succ]
    split <;> omega
  | inf s => exact f.infCode_lt s
  | fin s m e => exact f.round_lt ..

theorem floatSum_lt (hm : 0 < f.m) (raised : Flags5) (xs : List Num) (bad : Bool) : (floatSum f raised xs bad).1 < 2 ^ (f.e + f.m + 1) :=
  FloatFmt.result_lt hm _

end

theorem intCode_lt (w : Nat) (n : Int) : intCode w n < 2 ^ w := by
  have h : ((intCode w n : Nat) : Int) < ((2 ^ w : Nat) : Int) := by
    rw [intCode_cast]
    push_cast
    exact Int.emod_lt_of_pos _ (by positivity)
  exact_mod_cast h

/-- A sum of elements is the code of an element. -/
theorem elemAdd_lt (t : ElemType) (x y : Nat) : (ElemOp.add.on t x y).1 < 2 ^ 32 := by
  cases hf : vecFloat t with
  | some f =>
    have hwidth : 0 < f.m ∧ f.e + f.m + 1 ≤ 32 := by
      cases t <;> simp only [vecFloat, Option.some.injEq, reduceCtorEq] at hf <;> subst hf <;> decide
    rw [ElemOp.on_float hf]
    exact (floatSum_lt hwidth.1 _ _ _).trans_le (Nat.pow_le_pow_right two_pos hwidth.2)
  | none =>
    simp only [ElemOp.on, hf]
    exact (intCode_lt _ _).trans_le (Nat.pow_le_pow_right two_pos (Nat.div_le_self 32 _))

/-- A sum in `f32` read back from its word. -/
theorem dot4_toNat (T : NumTy) (xs ys : List Nat) (d : Nat) : (BitVec.ofNat 32 (dot4 T xs ys d).1).toNat = (dot4 T xs ys d).1 :=
  (BitVec.toNat_ofNat _ 32).trans (Nat.mod_eq_of_lt (floatSum_lt (by decide) _ _ _))

/-! ### `vscan` (R82, R369) -/

/-- What an active lane of a scan gives after the running value. -/
def scanValue (t : ElemType) (run : Option Nat) (x : W32) : LaneFlags :=
  match run with
  | none => (x, 0)
  | some y => (BitVec.ofNat 32 (ElemOp.add.on t y x.toNat).1, (ElemOp.add.on t y x.toNat).2)

theorem scanLanes_active {t : ElemType} {mask : W64} {i : Nat} (h : mask.getLsbD i = true) (run : Option Nat) (x : W32) (xs : List W32) :
    scanLanes t mask i run (x :: xs) =
      scanValue t run x :: scanLanes t mask (i + 1) (some (scanValue t run x).1.toNat) xs := by
  cases run with
  | none => simp [scanLanes, h, scanValue]
  | some y =>
    rw [scanLanes, if_pos h]
    simp only [scanValue, BitVec.toNat_ofNat, Nat.mod_eq_of_lt (elemAdd_lt t y x.toNat)]

theorem scanLanes_inactive {t : ElemType} {mask : W64} {i : Nat} (h : mask.getLsbD i = false) (run : Option Nat) (x : W32) (xs : List W32) :
    scanLanes t mask i run (x :: xs) = (x, 0) :: scanLanes t mask (i + 1) run xs := by
  simp [scanLanes, h]

/-- An active lane of a scan follows the nearest active lane before it, or the running value where none is. -/
theorem scanLanes_getD (t : ElemType) (mask : W64) (xs : List W32) (i₀ : Nat) (run : Option Nat) (i : Nat) (hi : i < xs.length)
    (ha : mask.getLsbD (i₀ + i) = true) :
    ((∀ j < i, mask.getLsbD (i₀ + j) = false) → (scanLanes t mask i₀ run xs).getD i (0, 0) = scanValue t run (xs.getD i 0)) ∧
      ∀ j < i, mask.getLsbD (i₀ + j) = true → (∀ l, j < l → l < i → mask.getLsbD (i₀ + l) = false) →
        (scanLanes t mask i₀ run xs).getD i (0, 0) =
          scanValue t (some ((scanLanes t mask i₀ run xs).getD j (0, 0)).1.toNat) (xs.getD i 0) := by
  induction xs generalizing i₀ run i with
  | nil => cases hi
  | cons x xs ih =>
    cases i with
    | zero =>
      rw [scanLanes_active (i := i₀) ha]
      exact ⟨fun _ => rfl, fun j hj => absurd hj (Nat.not_lt_zero j)⟩
    | succ i =>
      have hsucc : ∀ k, i₀ + (k + 1) = i₀ + 1 + k := fun k => by omega
      specialize ih (i₀ + 1)
      simp only [← hsucc] at ih
      have hi' : i < xs.length := Nat.lt_of_succ_lt_succ hi
      by_cases h0 : mask.getLsbD i₀ = true
      · rw [scanLanes_active h0]
        obtain ⟨hfirst, hnext⟩ := ih (some (scanValue t run x).1.toNat) i hi' ha
        refine ⟨fun hno => absurd (hno 0 i.succ_pos) (by simpa using h0), fun j hj hja hbetween => ?_⟩
        cases j with
        | zero => exact hfirst fun l hl => hbetween (l + 1) l.succ_pos (Nat.succ_lt_succ hl)
        | succ j => exact hnext j (Nat.lt_of_succ_lt_succ hj) hja fun l hjl hl => hbetween (l + 1) (Nat.succ_lt_succ hjl) (Nat.succ_lt_succ hl)
      · rw [scanLanes_inactive (Bool.eq_false_iff.mpr h0)]
        obtain ⟨hfirst, hnext⟩ := ih run i hi' ha
        refine ⟨fun hno => hfirst fun l hl => hno (l + 1) (Nat.succ_lt_succ hl), fun j hj hja hbetween => ?_⟩
        cases j with
        | zero => exact absurd hja h0
        | succ j => exact hnext j (Nat.lt_of_succ_lt_succ hj) hja fun l hjl hl => hbetween (l + 1) (Nat.succ_lt_succ hjl) (Nat.succ_lt_succ hl)

end Sys2Proof.Machine

/-! SUPPORT. The special functions of R72: square roots, numbers that stand for an exact value strictly between two steps, and the bounds of
the series. -/

namespace Sys2Proof.Machine

/-! ### Square roots -/

theorem isqrtFrom_spec (k n r : Nat) (hlo : r * r ≤ n) (hhi : n < (r + 2 ^ (k + 1)) * (r + 2 ^ (k + 1))) :
    isqrtFrom k n r * isqrtFrom k n r ≤ n ∧ n < (isqrtFrom k n r + 1) * (isqrtFrom k n r + 1) := by
  induction k generalizing r with
  | zero =>
    rw [isqrtFrom]
    split
    · exact ⟨‹_›, hhi⟩
    · exact ⟨hlo, not_le.mp ‹_›⟩
  | succ k ih =>
    rw [isqrtFrom]
    split
    next ht => exact ih _ ht (by rw [Nat.add_assoc, ← two_mul, ← pow_succ']; exact hhi)
    next ht => exact ih _ hlo (not_le.mp ht)

theorem isqrt_spec (n : Nat) : isqrt n * isqrt n ≤ n ∧ n < (isqrt n + 1) * (isqrt n + 1) := by
  refine isqrtFrom_spec _ n 0 (Nat.zero_le n) ?_
  rw [Nat.zero_add, ← pow_add]
  exact Nat.lt_log2_self.trans_le (Nat.pow_le_pow_right two_pos (by omega))

theorem evenExp_spec (m : Nat) (e : Int) : (m : ℝ) * 2 ^ e = (evenExp m e).1 * ((2 : ℝ) ^ (evenExp m e).2) ^ 2 ∧
    (m ≠ 0 → (evenExp m e).1 ≠ 0) := by
  have hsq : ∀ h : Int, ((2 : ℝ) ^ h) ^ 2 = 2 ^ (2 * h) := fun h => by rw [← zpow_natCast, ← zpow_mul, mul_comm]; rfl
  rw [hsq]
  unfold evenExp
  split
  · exact ⟨by rw [show 2 * (e / 2) = e by omega], id⟩
  · refine ⟨?_, fun hm => by simpa using hm⟩
    rw [show 2 * ((e - 1) / 2) = e - 1 by omega, zpow_sub_one₀ two_ne_zero]
    push_cast
    ring

/-! ### A number between two steps stands for every value between them (log entry 12) -/

/-- The part of a step of 2 ^ (j + 1) that lies strictly between the integers A and A + 1: no end and no half of the step, and above the
half where A has reached it. -/
theorem part_of_step {A j : Nat} {z q : ℝ} (hz0 : 0 < z) (hz1 : z < 1) (hq : q * 2 ^ (j + 1) = A + z) :
    (q ≠ 0 ∧ q ≠ 1 / 2) ∧ (1 / 2 < q ↔ 2 ^ j ≤ A) := by
  have hpart : q * 2 * 2 ^ j = A + z := by rw [← hq, pow_succ]; ring
  have hj : (0 : ℝ) < 2 ^ j := by positivity
  have habove : 1 / 2 < q ↔ (2 : ℝ) ^ j < A + z := by
    rw [← hpart, lt_mul_iff_one_lt_left hj, div_lt_iff₀ two_pos]
  have hinteger : (2 : ℝ) ^ j < A + z ↔ 2 ^ j ≤ A := by
    constructor
    · intro h
      have hlt : ((2 ^ j : Nat) : ℝ) < (A + 1 : Nat) := by push_cast; linarith
      exact Nat.le_of_lt_succ (by exact_mod_cast hlt)
    · intro h
      have hle : (2 : ℝ) ^ j ≤ A := by exact_mod_cast h
      linarith
  refine ⟨⟨?_, ?_⟩, habove.trans hinteger⟩
  · rintro rfl
    linarith [Nat.cast_nonneg (α := ℝ) A]
  · rintro rfl
    have heq : (2 : ℝ) ^ j = A + z := by linarith
    have hlow : A < 2 ^ j := by
      have : (A : ℝ) < (2 ^ j : Nat) := by push_cast; linarith
      exact_mod_cast this
    have hhigh : (2 : ℝ) ^ j < A + 1 := by linarith
    have : 2 ^ j < A + 1 := by exact_mod_cast hhigh
    omega

section
variable {f : FloatFmt} {M : Nat} {e : Int}

/-- Two neighbouring codes above M steps of 2 ^ e are multiples of a double step, where M has a bit more than the format. -/
theorem FloatFmt.neighbours_at_step (hM : 2 ^ (f.m + 1) ≤ M) {c : Nat} (h : (M : ℝ) * 2 ^ e < f.magnitude (c + 1)) :
    ∃ n j : Nat, (f.magnitude c : ℝ) = (n * 2 ^ (j + 1) : Nat) * 2 ^ e ∧ (f.magnitude (c + 1) : ℝ) = ((n + 1) * 2 ^ (j + 1) : Nat) * 2 ^ e := by
  obtain ⟨k, n, rfl, hn, hk⟩ := f.exists_step c
  rw [add_assoc, f.magnitude_step hn (hk.imp_right (by omega))] at h ⊢
  rw [f.magnitude_step hn.le hk]
  have hstep : e < f.minExp + k := by
    by_contra hle
    refine h.not_ge ?_
    push_cast
    have hn' : (n : ℝ) + 1 ≤ M := by exact_mod_cast (Nat.succ_le_of_lt hn).trans hM
    exact mul_le_mul hn' (zpow_le_zpow_right₀ one_le_two (not_lt.mp hle)) (by positivity) (by positivity)
  obtain ⟨j, hj⟩ : ∃ j : Nat, f.minExp + k = ((j + 1 : Nat) : Int) + e := ⟨(f.minExp + k - e - 1).toNat, by omega⟩
  refine ⟨n, j, ?_, ?_⟩ <;>
  · rw [hj, zpow_add₀ two_ne_zero, zpow_natCast]
    push_cast
    ring

/-- Rounding does not tell two values apart that lie strictly between the same two steps below the format's precision. -/
theorem roundsTo_between (hM : 2 ^ (f.m + 1) ≤ M) {x : ℝ} (hlo : (M : ℝ) * 2 ^ e < |x|) (hhi : |x| < (M + 1) * 2 ^ e) (neg : Bool) :
    RoundsTo f .rne false neg x (f.round .rne false neg (2 * M + 1) (e - 1)) := by
  have hpow : (0 : ℝ) < 2 ^ e := by positivity
  obtain ⟨c, r, h0, h1, hy, hround⟩ := f.round_neighbours (2 * M).succ_ne_zero (e - 1)
  have hmid : ((2 * M + 1 : Nat) : ℝ) * 2 ^ (e - 1) = (M + 1 / 2) * 2 ^ e := by
    rw [zpow_sub_one₀ two_ne_zero]; push_cast; ring
  rw [hmid] at hy
  have habove : (M : ℝ) * 2 ^ e < f.magnitude (c + 1) :=
    (mul_lt_mul_of_pos_right (by linarith) hpow).trans (FloatFmt.between_codes h0 h1 hy).2
  obtain ⟨n, j, hc, hc'⟩ := FloatFmt.neighbours_at_step hM habove
  obtain ⟨d, hd⟩ : ∃ d : ℝ, |x| = (M + d) * 2 ^ e := ⟨|x| / 2 ^ e - M, by rw [add_sub_cancel, div_mul_cancel₀ _ hpow.ne']⟩
  rw [hd] at hlo hhi
  have hd0 : 0 < d := by linarith [lt_of_mul_lt_mul_right hlo hpow.le]
  have hd1 : d < 1 := by linarith [lt_of_mul_lt_mul_right hhi hpow.le]
  have hstep : (f.magnitude (c + 1) : ℝ) - f.magnitude c = 2 ^ (j + 1) * 2 ^ e := by rw [hc, hc']; push_cast; ring
  rw [hstep, hc, ← mul_assoc, ← add_mul] at hy
  have hy' : (M : ℝ) + 1 / 2 = (n * 2 ^ (j + 1) : Nat) + r * 2 ^ (j + 1) := mul_right_cancel₀ hpow.ne' hy
  have hJ : (0 : ℝ) < 2 ^ (j + 1) := by positivity
  -- the integers that the neighbours and their midpoint are
  have hr_nonneg : 0 ≤ r * 2 ^ (j + 1) := mul_nonneg h0 hJ.le
  have hr_lt : r * 2 ^ (j + 1) < 2 ^ (j + 1) := mul_lt_of_lt_one_left hJ h1
  have hn_le : n * 2 ^ (j + 1) ≤ M := by
    have h : ((n * 2 ^ (j + 1) : Nat) : ℝ) < (M + 1 : Nat) := by push_cast at hy' ⊢; linarith
    exact Nat.le_of_lt_succ (by exact_mod_cast h)
  have hn_gt : M < n * 2 ^ (j + 1) + 2 ^ (j + 1) := by
    have h : (M : ℝ) < (n * 2 ^ (j + 1) + 2 ^ (j + 1) : Nat) := by push_cast at hy' ⊢; linarith
    exact_mod_cast h
  obtain ⟨A, hA⟩ : ∃ A : Nat, M = n * 2 ^ (j + 1) + A := ⟨M - n * 2 ^ (j + 1), by omega⟩
  have hMA : (M : ℝ) = (n * 2 ^ (j + 1) : Nat) + A := by exact_mod_cast hA
  have hA1 : (A : ℝ) + 1 ≤ 2 ^ (j + 1) := by exact_mod_cast (by omega : A + 1 ≤ 2 ^ (j + 1))
  have hr : r * 2 ^ (j + 1) = A + 1 / 2 := by linarith
  obtain ⟨q, hq⟩ : ∃ q : ℝ, q * 2 ^ (j + 1) = A + d := ⟨(A + d) / 2 ^ (j + 1), div_mul_cancel₀ _ hJ.ne'⟩
  obtain ⟨⟨hr0, hr2⟩, hrup⟩ := part_of_step (by norm_num) (by norm_num) hr
  obtain ⟨⟨hq0, hq2⟩, hqup⟩ := part_of_step hd0 hd1 hq
  have hA0 : (0 : ℝ) ≤ A := Nat.cast_nonneg A
  have hq_nonneg : 0 ≤ q := nonneg_of_mul_nonneg_left (by linarith) hJ
  have hq_lt : q < 1 := lt_of_mul_lt_mul_right (by linarith) hJ.le
  have hx : |x| = f.magnitude c + q * (f.magnitude (c + 1) - f.magnitude c) := by
    rw [hd, hstep, hc, hMA]
    linear_combination -(2 : ℝ) ^ e * hq
  have hpick := FloatFmt.picks_roundsUp hq_nonneg hq_lt hx .rne neg
  have hsame : decide (1 / 2 < q) = decide (1 / 2 < r) := decide_eq_decide.mpr (hqup.trans hrup.symm)
  rw [decide_eq_false hq0, decide_eq_false hq2, hsame] at hpick
  rw [hround, decide_eq_false hr0, decide_eq_false hr2]
  refine roundsTo_deliver hpick (iff_of_false Bool.false_ne_true fun heq => hq0 ?_)
  exact ((FloatFmt.magnitude_eq_iff hq_nonneg hq_lt hx _).mp heq).2

/-- The number that stands for an exact value: its part above the last place, and a place more that says whether there is a rest. -/
theorem roundsTo_sticky (hM : 2 ^ (f.m + 1) ≤ M) {x : ℝ} (hle : (M : ℝ) * 2 ^ e ≤ |x|) (hlt : |x| < (M + 1) * 2 ^ e) {rest : Bool}
    (hrest : rest = true ↔ (M : ℝ) * 2 ^ e ≠ |x|) (neg : Bool) :
    RoundsTo f .rne false neg x (f.result (sticky neg M e rest)) := by
  cases rest with
  | true => exact roundsTo_between hM (lt_of_le_of_ne hle (hrest.mp rfl)) hlt neg
  | false =>
    have heq : (M : ℝ) * 2 ^ e = |x| := by simpa using hrest
    refine (f.round_roundsTo .rne false neg (2 * M) (e - 1)).congr_abs ?_
    rw [zpow_sub_one₀ two_ne_zero, ← heq, abs_of_nonneg (by positivity)]
    push_cast
    ring

end

/-! ### Reciprocals and roots -/

section
variable {f : FloatFmt} (hf : f.m ≤ 23)
include hf

theorem precise_of_le {M : Nat} (hM : 2 ^ 63 ≤ M) : 2 ^ (f.m + 1) ≤ M :=
  (Nat.pow_le_pow_right two_pos (by omega)).trans hM

/-- 1 / x cut K places below the scale of x. -/
theorem roundsTo_recip_at {m K : Nat} (hm : m ≠ 0) (hbig : 2 ^ 63 ≤ 2 ^ K / m) (s : Bool) (e : Int) :
    RoundsTo f .rne false s (1 / ((Num.fin s m e).val : ℝ)) (f.result (sticky s (2 ^ K / m) (-(K : Int) - e) (2 ^ K % m != 0))) := by
  have hmpos : 0 < m := Nat.pos_of_ne_zero hm
  have hmreal : (0 : ℝ) < m := by exact_mod_cast hmpos
  have hpow : (0 : ℝ) < 2 ^ (-(K : Int) - e) := by positivity
  have hdiv : (2 : ℝ) ^ K = m * (2 ^ K / m : Nat) + (2 ^ K % m : Nat) := by exact_mod_cast (Nat.div_add_mod (2 ^ K) m).symm
  have hmod : 2 ^ K % m < m := Nat.mod_lt _ hmpos
  have hx : |1 / ((Num.fin s m e).val : ℝ)| = ((2 ^ K / m : Nat) + ((2 ^ K % m : Nat) : ℝ) / m) * 2 ^ (-(K : Int) - e) := by
    have hquot : ((2 ^ K / m : Nat) : ℝ) + ((2 ^ K % m : Nat) : ℝ) / m = 2 ^ K / m := by
      rw [hdiv, add_div, mul_div_cancel_left₀ _ hmreal.ne']
    rw [hquot, abs_div, Num.abs_val_fin, abs_one, abs_of_pos (by positivity), zpow_sub₀ two_ne_zero, zpow_neg, zpow_natCast]
    field_simp
  have hfrac : ((2 ^ K % m : Nat) : ℝ) / m < 1 := (div_lt_one hmreal).mpr (by exact_mod_cast hmod)
  have hfrac0 : (0 : ℝ) ≤ ((2 ^ K % m : Nat) : ℝ) / m := by positivity
  refine roundsTo_sticky (precise_of_le hf hbig) ?_ ?_ ?_ s <;> rw [hx]
  · exact mul_le_mul_of_nonneg_right (le_add_of_nonneg_right hfrac0) hpow.le
  · exact mul_lt_mul_of_pos_right (by linarith) hpow
  · rw [Ne, mul_left_inj' hpow.ne', left_eq_add, div_eq_zero_iff, or_iff_left hmreal.ne', Nat.cast_eq_zero, bne_iff_ne]

/-- 1 / x (R72). -/
theorem roundsTo_recip {m : Nat} (hm : m ≠ 0) (s : Bool) (e : Int) :
    RoundsTo f .rne false s (1 / ((Num.fin s m e).val : ℝ)) (f.result (recipNum s m e)) := by
  refine roundsTo_recip_at hf hm ?_ s e
  rw [Nat.le_div_iff_mul_le (Nat.pos_of_ne_zero hm), show Nat.log2 m + 64 = 63 + (Nat.log2 m + 1) by omega, pow_add]
  exact Nat.mul_le_mul_left _ Nat.lt_log2_self.le

/-- A root is known by its square. -/
theorem roundsTo_root {M : Nat} (hbig : 2 ^ 63 ≤ M) {h : Int} {x : ℝ} (hx : 0 ≤ x) (hlo : ((M : ℝ) * 2 ^ h) ^ 2 ≤ x ^ 2)
    (hhi : x ^ 2 < ((M + 1) * 2 ^ h) ^ 2) {rest : Bool} (hrest : rest = true ↔ ((M : ℝ) * 2 ^ h) ^ 2 ≠ x ^ 2) :
    RoundsTo f .rne false false x (f.result (sticky false M h rest)) := by
  have hM : (0 : ℝ) ≤ M * 2 ^ h := by positivity
  refine roundsTo_sticky (precise_of_le hf hbig) ?_ ?_ ?_ false <;> rw [abs_of_nonneg hx]
  · exact (sq_le_sq₀ hM hx).mp hlo
  · exact (sq_lt_sq₀ hx (by positivity)).mp hhi
  · rw [hrest, Ne, Ne, sq_eq_sq₀ hM hx]

/-- √x for x of an even exponent, cut 64 places below. -/
theorem roundsTo_sqrt_at {n : Nat} (hn : n ≠ 0) {h : Int} {x : ℝ} (hx : 0 ≤ x) (hsq : x ^ 2 = n * ((2 : ℝ) ^ h) ^ 2) :
    RoundsTo f .rne false false x
      (f.result (sticky false (isqrt (n * 2 ^ 128)) (h - 64) (isqrt (n * 2 ^ 128) * isqrt (n * 2 ^ 128) != n * 2 ^ 128))) := by
  obtain ⟨hlo, hhi⟩ := isqrt_spec (n * 2 ^ 128)
  have hbig : 2 ^ 63 ≤ isqrt (n * 2 ^ 128) := by
    by_contra hlt
    have hle : (isqrt (n * 2 ^ 128) + 1) * (isqrt (n * 2 ^ 128) + 1) ≤ 2 ^ 63 * 2 ^ 63 := Nat.mul_le_mul (by omega) (by omega)
    omega
  have hpow : (0 : ℝ) < ((2 : ℝ) ^ h) ^ 2 := by positivity
  have hscale : ∀ z : ℝ, (z * 2 ^ (h - 64)) ^ 2 = z ^ 2 / 2 ^ 128 * ((2 : ℝ) ^ h) ^ 2 := fun z => by
    rw [zpow_sub₀ two_ne_zero]; norm_num; ring
  have hs : (n : ℝ) * (2 ^ h) ^ 2 = ((n * 2 ^ 128 : Nat) : ℝ) / 2 ^ 128 * ((2 : ℝ) ^ h) ^ 2 := by
    rw [Nat.cast_mul, Nat.cast_pow, Nat.cast_ofNat, mul_div_cancel_right₀ _ (by positivity)]
  generalize n * 2 ^ 128 = N at *
  refine roundsTo_root hf hbig hx ?_ ?_ ?_ <;> rw [hsq, hscale, hs]
  · gcongr
    rw [pow_two]
    exact_mod_cast hlo
  · gcongr
    rw [pow_two]
    exact_mod_cast hhi
  · rw [bne_iff_ne, Ne, Ne, mul_left_inj' hpow.ne', div_left_inj' (by positivity), pow_two]
    norm_cast

/-- 1 / √x for x of an even exponent, cut K places below. -/
theorem roundsTo_rsqrt_at {n K : Nat} (hn : n ≠ 0) (hK : 2 ^ 126 ≤ 2 ^ (2 * K) / n) {h : Int} {x : ℝ} (hx : 0 ≤ x)
    (hsq : x ^ 2 = 1 / (n * ((2 : ℝ) ^ h) ^ 2)) : RoundsTo f .rne false false x
      (f.result (sticky false (isqrt (2 ^ (2 * K) / n)) (-(K : Int) - h)
        (isqrt (2 ^ (2 * K) / n) * isqrt (2 ^ (2 * K) / n) * n != 2 ^ (2 * K)))) := by
  have hnpos : 0 < n := Nat.pos_of_ne_zero hn
  have hnreal : (0 : ℝ) < n := by exact_mod_cast hnpos
  obtain ⟨hlo, hhi⟩ := isqrt_spec (2 ^ (2 * K) / n)
  have hbig : 2 ^ 63 ≤ isqrt (2 ^ (2 * K) / n) := by
    by_contra hlt
    have hle : (isqrt (2 ^ (2 * K) / n) + 1) * (isqrt (2 ^ (2 * K) / n) + 1) ≤ 2 ^ 63 * 2 ^ 63 := Nat.mul_le_mul (by omega) (by omega)
    omega
  generalize isqrt (2 ^ (2 * K) / n) = r at *
  rw [Nat.le_div_iff_mul_le hnpos] at hlo
  rw [Nat.div_lt_iff_lt_mul hnpos] at hhi
  have hpow : (0 : ℝ) < 2 ^ (2 * K) * n * ((2 : ℝ) ^ h) ^ 2 := by positivity
  have hscale : ∀ z : ℝ, (z * 2 ^ (-(K : Int) - h)) ^ 2 = z ^ 2 * n / (2 ^ (2 * K) * n * ((2 : ℝ) ^ h) ^ 2) := fun z => by
    rw [zpow_sub₀ two_ne_zero, zpow_neg, zpow_natCast, pow_mul']
    field_simp
  have hone : 1 / (n * ((2 : ℝ) ^ h) ^ 2) = 2 ^ (2 * K) / (2 ^ (2 * K) * n * ((2 : ℝ) ^ h) ^ 2) := by
    field_simp
  refine roundsTo_root hf hbig hx ?_ ?_ ?_ <;> rw [hsq, hscale, hone]
  · gcongr
    rw [pow_two]
    exact_mod_cast hlo
  · gcongr
    rw [pow_two]
    exact_mod_cast hhi
  · rw [bne_iff_ne, Ne, Ne, div_left_inj' hpow.ne', pow_two]
    norm_cast

omit hf in
theorem rsqrtNum_eq (m : Nat) (e : Int) : rsqrtNum m e =
    let n := (evenExp m e).1
    let K := Nat.log2 n + 64
    let r := isqrt (2 ^ (2 * K) / n)
    sticky false r (-(K : Int) - (evenExp m e).2) (r * r * n != 2 ^ (2 * K)) := rfl

/-- √x and 1 / √x (R72). -/
theorem roundsTo_roots {m : Nat} (hm : m ≠ 0) (e : Int) :
    RoundsTo f .rne false false (Real.sqrt ((Num.fin false m e).val : ℝ)) (f.result (sqrtNum m e)) ∧
      RoundsTo f .rne false false (1 / Real.sqrt ((Num.fin false m e).val : ℝ)) (f.result (rsqrtNum m e)) := by
  obtain ⟨heven, hn⟩ := evenExp_spec m e
  have hv : (((Num.fin false m e).val : ℚ) : ℝ) = m * 2 ^ e := by simp [Num.val]
  have hsq : Real.sqrt ((Num.fin false m e).val : ℝ) ^ 2 = (evenExp m e).1 * ((2 : ℝ) ^ (evenExp m e).2) ^ 2 := by
    rw [hv, Real.sq_sqrt (by positivity), heven]
  refine ⟨roundsTo_sqrt_at hf (hn hm) (Real.sqrt_nonneg _) hsq, ?_⟩
  rw [rsqrtNum_eq]
  refine roundsTo_rsqrt_at hf (hn hm) ?_ (by positivity) (by rw [div_pow, one_pow, hsq])
  generalize (evenExp m e).1 = n at *
  have hlog : n < 2 ^ (Nat.log2 n + 1) := Nat.lt_log2_self
  rw [Nat.le_div_iff_mul_le (Nat.pos_of_ne_zero (hn hm)), show 2 * (Nat.log2 n + 64) = 126 + (2 * Nat.log2 n + 2) by omega, pow_add]
  exact Nat.mul_le_mul_left _ (hlog.le.trans (Nat.pow_le_pow_right two_pos (by omega)))

end

end Sys2Proof.Machine

/-! SUPPORT. The statement on dot products, scans and special functions: the vector formats, values past their ends, and the bounds of the
exponential, the logarithm and the hyperbolic tangent. -/

namespace Sys2Proof.Machine

/-! ### The vector formats (R54, R70) -/

/-- What the special functions need to know of a format: its precision, its least exponent, and where its finite values end. -/
structure FloatFmt.Bounded (f : FloatFmt) : Prop where
  mantissa : f.m ≤ 23
  minExp : -149 ≤ f.minExp
  hasInf : f.hasInf = true
  largest : (f.magnitude (f.maxCode + 1) : ℝ) ≤ 2 ^ (128 : Int)
  smallest : (2 : ℝ) ^ (-149 : Int) ≤ f.magnitude 1

theorem bounded_of_mem {f : FloatFmt} (h : f ∈ [fmtF32, fmtBf16, fmtF16]) : f.Bounded := by
  simp only [List.mem_cons, List.not_mem_nil, or_false] at h
  obtain rfl | rfl | rfl := h <;>
  · refine ⟨by decide, by decide, rfl, ?_, ?_⟩ <;>
    norm_num [FloatFmt.magnitude, FloatFmt.maxCode, FloatFmt.minExp, fmtF32, fmtBf16, fmtF16, zpow_neg]

/-- A finite code has a mantissa of the format's precision and no exponent below its least. -/
theorem FloatFmt.decode_fin {f : FloatFmt} {signals s : Bool} {x m : Nat} {e : Int} (h : f.decode signals x = .fin s m e) :
    m < 2 ^ (f.m + 1) ∧ f.minExp ≤ e := by
  have hmod : x % 2 ^ (f.e + f.m) % 2 ^ f.m < 2 ^ f.m := Nat.mod_lt _ (Nat.two_pow_pos _)
  have hpow : 2 ^ (f.m + 1) = 2 * 2 ^ f.m := pow_succ' 2 f.m
  have hexp : x % 2 ^ (f.e + f.m) / 2 ^ f.m ≠ 0 → (1 : Int) ≤ (x % 2 ^ (f.e + f.m) / 2 ^ f.m : Nat) := fun h => by
    exact_mod_cast Nat.one_le_iff_ne_zero.mpr h
  simp only [decode] at h
  split_ifs at h with _ _ _ hE
  · obtain ⟨-, rfl, rfl⟩ := Num.fin.inj h
    exact ⟨by omega, le_rfl⟩
  · obtain ⟨-, rfl, rfl⟩ := Num.fin.inj h
    exact ⟨by omega, by linarith [hexp hE]⟩

section
variable {f : FloatFmt} (hf : f.Bounded)
include hf

/-- A value past the largest finite one rounds to the infinity (R79). -/
theorem round_overflow (neg : Bool) {m : Nat} {e : Int} (h : (2 : ℝ) ^ (128 : Int) ≤ m * 2 ^ e) :
    f.round .rne false neg m e = (f.infCode neg, flagOverflow ||| flagInexact) := by
  obtain ⟨c, ⟨hnear, -⟩, hover, -⟩ := f.round_roundsTo .rne false neg m e
  have habs : |(m : ℝ) * 2 ^ e| = m * 2 ^ e := abs_of_nonneg (by positivity)
  rw [habs] at hnear
  have hlarge := hf.largest.trans h
  have hc : f.maxCode < c := by
    by_contra hle
    have hlt : (f.magnitude c : ℝ) < f.magnitude (f.maxCode + 1) := FloatFmt.magnitude_lt_iff.mpr (by omega)
    have hdist := hnear (f.maxCode + 1)
    rw [abs_of_nonneg (by linarith), abs_of_nonneg (by linarith)] at hdist
    linarith
  obtain ⟨hinf, -, hflags⟩ := hover hc
  exact Prod.ext (hinf ⟨hf.hasInf, rfl, .inl rfl⟩) hflags

/-- A value far below the smallest rounds to zero (R79). -/
theorem round_tiny (neg : Bool) {m : Nat} (hm : m ≠ 0) {e : Int} (h : (m : ℝ) * 2 ^ e ≤ 2 ^ (-151 : Int)) :
    f.round .rne false neg m e = (f.signBit neg, flagInexact) := by
  have hpos : (0 : ℝ) < m * 2 ^ e := by
    have : (0 : ℝ) < m := by exact_mod_cast Nat.pos_of_ne_zero hm
    positivity
  obtain ⟨c, ⟨hnear, -⟩, -, hfits⟩ := f.round_roundsTo .rne false neg m e
  rw [abs_of_pos hpos] at hnear hfits
  have hsmall : (m : ℝ) * 2 ^ e * 4 ≤ f.magnitude 1 := by
    have h4 : (2 : ℝ) ^ (-151 : Int) * 4 = 2 ^ (-149 : Int) := by norm_num
    linarith [hf.smallest]
  have hc : c = 0 := by
    by_contra hne
    have hle : (f.magnitude 1 : ℝ) ≤ f.magnitude c := FloatFmt.magnitude_le_iff.mpr (Nat.one_le_iff_ne_zero.mpr hne)
    have hdist := hnear 0
    beta_reduce at hdist
    rw [f.magnitude_zero, Rat.cast_zero, sub_zero, abs_of_pos hpos, abs_of_neg (by linarith)] at hdist
    linarith
  subst hc
  obtain ⟨hcode, -, hflags, -⟩ := hfits (Nat.zero_le _)
  exact Prod.ext hcode (hflags (by rw [f.magnitude_zero, Rat.cast_zero]; exact hpos.ne) (.inl rfl))

end

/-! ### The scale of a number -/

theorem two_zpow_le_mulQ {m : Nat} (hm : m ≠ 0) (e : Int) : (2 : ℚ) ^ (e + Nat.log2 m) ≤ m * 2 ^ e := by
  have h : (((2 : ℚ) ^ (e + Nat.log2 m) : ℚ) : ℝ) ≤ ((m * 2 ^ e : ℚ) : ℝ) := by push_cast; exact two_zpow_le_mul hm e
  exact_mod_cast h

theorem mul_lt_two_zpowQ (m : Nat) (e : Int) : (m : ℚ) * 2 ^ e < 2 ^ (e + Nat.log2 m + 1) := by
  have h : ((m * 2 ^ e : ℚ) : ℝ) < (((2 : ℚ) ^ (e + Nat.log2 m + 1) : ℚ) : ℝ) := by push_cast; exact mul_lt_two_zpow m e
  exact_mod_cast h

theorem log2_le_of_lt {m k : Nat} (hm : m ≠ 0) (h : m < 2 ^ (k + 1)) : Nat.log2 m ≤ k :=
  Nat.le_of_lt_succ ((Nat.log2_lt hm).mpr h)

/-- A number has an integer value just where its mantissa holds the places below the point. -/
theorem Num.val_int {s : Bool} {m : Nat} {e : Int} (h : 0 ≤ e ∨ m % 2 ^ (-e).toNat = 0) :
    (Num.fin s m e).val = (signedInt s (if 0 ≤ e then m * 2 ^ e.toNat else m / 2 ^ (-e).toNat) : Int) := by
  have hmag : (m : ℚ) * 2 ^ e = ((if 0 ≤ e then m * 2 ^ e.toNat else m / 2 ^ (-e).toNat : Nat) : ℚ) := by
    split
    next he =>
      obtain ⟨k, rfl⟩ := Int.eq_ofNat_of_zero_le he
      simp
    next he =>
      obtain ⟨k, rfl⟩ : ∃ k : Nat, e = -k := ⟨(-e).toNat, by omega⟩
      have hdvd : m % 2 ^ k = 0 := by simpa using h.resolve_left he
      rw [neg_neg, Int.toNat_natCast, Nat.cast_div (Nat.dvd_of_mod_eq_zero hdvd) (by positivity), zpow_neg, zpow_natCast]
      push_cast
      rfl
  rw [Num.val, mul_assoc, hmag]
  generalize (if 0 ≤ e then m * 2 ^ e.toNat else m / 2 ^ (-e).toNat) = n
  cases s <;> simp [signedInt]

theorem Num.int_of_val {s : Bool} {m : Nat} {e n : Int} (h : (Num.fin s m e).val = n) : 0 ≤ e ∨ m % 2 ^ (-e).toNat = 0 := by
  refine or_iff_not_imp_left.mpr fun he => ?_
  obtain ⟨k, rfl⟩ : ∃ k : Nat, e = -k := ⟨(-e).toNat, by omega⟩
  rw [neg_neg, Int.toNat_natCast]
  have hpow : (2 : ℚ) ^ k ≠ 0 := by positivity
  have hmul : (signedInt s m : Int) = n * 2 ^ k := by
    rw [Num.val_fin, zpow_neg, zpow_natCast, mul_inv_eq_iff_eq_mul₀ hpow] at h
    exact_mod_cast h
  have hdvd : ((2 ^ k : Nat) : Int) ∣ m := by
    push_cast
    cases s with
    | false => exact ⟨n, by rw [← show (signedInt false m : Int) = m from rfl, hmul, mul_comm]⟩
    | true => exact ⟨-n, by have : -(m : Int) = n * 2 ^ k := hmul; linarith⟩
  exact Nat.mod_eq_zero_of_dvd (Int.natCast_dvd_natCast.mp hdvd)

/-! ### 2 ^ x (R72) -/

theorem expSeries_mono (fuel n : Nat) {y y' t t' : Nat} (hy : y ≤ y') (ht : t ≤ t') : expSeries fuel n y t ≤ expSeries fuel n y' t' := by
  induction fuel generalizing n t t' with
  | zero => exact le_rfl
  | succ fuel ih =>
    exact Nat.add_le_add ht (ih (n + 1) (Nat.div_le_div_right (Nat.div_le_div_right (Nat.mul_le_mul ht hy))))

/-- 2 ^ f of a fraction f lies in [1, 2). -/
theorem fxExp2_bounds {f : Nat} (hf : f ≤ fxOne) : fxOne ≤ fxExp2 f ∧ fxExp2 f < 2 * fxOne := by
  refine ⟨Nat.le_add_right _ _, ?_⟩
  have hy : f * fxLn2 / fxOne ≤ fxLn2 := Nat.div_le_of_le_mul (Nat.mul_le_mul_right _ hf)
  exact (expSeries_mono 64 0 hy le_rfl).trans_lt (by decide)

theorem fxOne_cast : (fxOne : ℚ) = 2 ^ (256 : Int) := by
  rw [fxOne, fxBits, Nat.cast_pow, ← zpow_natCast]
  rfl

/-- A sticky number has the value halfway to the next step. -/
theorem val_sticky (neg : Bool) (M : Nat) (e : Int) :
    (sticky neg M e true).val = (if neg then -1 else 1) * ((2 * M + 1 : Nat) : ℚ) * 2 ^ (e - 1) := rfl

theorem abs_val_fin (s : Bool) (m : Nat) (e : Int) : |(Num.fin s m e).val| = m * 2 ^ e := by
  cases s <;> simp [Num.val]

section
variable {s : Bool} {m : Nat} {e : Int}

/-- Where 2 ^ x is one of the model's five: 1, past every format, exact, next to 1, or the series. -/
theorem exp2Num_zero : exp2Num s 0 e = .fin false 1 0 := rfl

variable (hm : m ≠ 0)
include hm

theorem exp2Num_far (h : 16 < e + Nat.log2 m) : exp2Num s m e = .fin false 1 (if s then -65536 else 65536) := by
  rw [exp2Num, if_neg hm, if_pos h]

theorem exp2Num_int (h : ¬ 16 < e + Nat.log2 m) (hi : 0 ≤ e ∨ m % 2 ^ (-e).toNat = 0) :
    exp2Num s m e = .fin false 1 (signedInt s (if 0 ≤ e then m * 2 ^ e.toNat else m / 2 ^ (-e).toNat)) := by
  rw [exp2Num, if_neg hm, if_neg h, if_pos hi]

theorem exp2Num_near (h : ¬ 16 < e + Nat.log2 m) (hi : ¬ (0 ≤ e ∨ m % 2 ^ (-e).toNat = 0)) (hn : e + Nat.log2 m < -90) :
    exp2Num s m e = .fin false (if s then 2 ^ 300 - 1 else 2 ^ 300 + 1) (-300) := by
  rw [exp2Num, if_neg hm, if_neg h, if_neg hi, if_pos hn]

theorem exp2Num_series (h : ¬ 16 < e + Nat.log2 m) (hi : ¬ (0 ≤ e ∨ m % 2 ^ (-e).toNat = 0)) (hn : ¬ e + Nat.log2 m < -90) :
    exp2Num s m e = sticky false (fxExp2 (signedInt s (m * 2 ^ (e + fxBits).toNat) % (fxOne : Int)).toNat)
      (signedInt s (m * 2 ^ (e + fxBits).toNat) / (fxOne : Int) - fxBits) true := by
  rw [exp2Num, if_neg hm, if_neg h, if_neg hi, if_neg hn]

/-- A far number has a magnitude of 2 ^ 17 at least. -/
theorem far_of_log2 (h : 16 < e + Nat.log2 m) : (2 : ℚ) ^ (17 : Int) ≤ |(Num.fin s m e).val| := by
  rw [abs_val_fin]
  exact (zpow_le_zpow_right₀ one_le_two (by omega)).trans (two_zpow_le_mulQ hm e)

end

/-- A number within 1 / P of 1, for a P above 2. -/
theorem next_to_one {P : ℚ} (hP : 2 < P) : 1 < (P + 1) * P⁻¹ ∧ (P + 1) * P⁻¹ < 2 ∧ 1 / 2 < (P - 1) * P⁻¹ ∧ (P - 1) * P⁻¹ < 1 := by
  have hpos : 0 < P := by linarith
  simp only [← div_eq_mul_inv, lt_div_iff₀ hpos, div_lt_iff₀ hpos]
  exact ⟨by linarith, by linarith, by linarith, by linarith⟩

theorem big_300 : (2 : ℚ) < 2 ^ 300 :=
  calc (2 : ℚ) = 2 ^ 1 := (pow_one 2).symm
    _ < 2 ^ 300 := pow_lt_pow_right₀ one_lt_two (by decide)

section
variable {f : FloatFmt} (hf : f.Bounded)
include hf

/-- Past every format the result is the same for every power: an infinity, or zero, inexact. -/
theorem round_far_up {m k : Nat} {e g : Int} (hm : m ≠ 0) (hk : k ≠ 0) (he : 128 ≤ e) (hg : 128 ≤ g) :
    f.round .rne false false m e = f.round .rne false false k g := by
  have hlarge : ∀ {n : Nat} {h : Int}, n ≠ 0 → 128 ≤ h → (2 : ℝ) ^ (128 : Int) ≤ n * 2 ^ h := fun {n h} hn hh =>
    (zpow_le_zpow_right₀ one_le_two hh).trans (le_mul_of_one_le_left (by positivity) (by exact_mod_cast Nat.one_le_iff_ne_zero.mpr hn))
  rw [round_overflow hf false (hlarge hm he), round_overflow hf false (hlarge hk hg)]

theorem round_far_down {m k : Nat} {e g : Int} (hm : m ≠ 0) (hm4 : m ≤ 4) (hk : k ≠ 0) (hk4 : k ≤ 4) (he : e ≤ -153) (hg : g ≤ -153) :
    f.round .rne false false m e = f.round .rne false false k g := by
  have hsmall : ∀ {n : Nat} {h : Int}, n ≤ 4 → h ≤ -153 → (n : ℝ) * 2 ^ h ≤ 2 ^ (-151 : Int) := fun {n h} hn hh => by
    have hn' : (n : ℝ) ≤ 2 ^ (2 : Int) := by exact_mod_cast hn
    calc (n : ℝ) * 2 ^ h ≤ 2 ^ (2 : Int) * 2 ^ (-153 : Int) :=
          mul_le_mul hn' (zpow_le_zpow_right₀ one_le_two hh) (by positivity) (by positivity)
      _ = 2 ^ (-151 : Int) := by rw [← zpow_add₀ two_ne_zero]; rfl
  rw [round_tiny hf false hm (hsmall hm4 he), round_tiny hf false hk (hsmall hk4 hg)]

/-- 2 ^ n of an integer n is exact (R72). -/
theorem exp2_int {s : Bool} {m : Nat} {e n : Int} (h : (Num.fin s m e).val = n) :
    f.result (exp2Num s m e) = f.round .rne false false 1 n := by
  have hint := Num.int_of_val h
  by_cases hm : m = 0
  · subst hm
    have hn : n = 0 := by
      rw [(Num.val_eq_zero_iff s 0 e).mpr rfl] at h
      exact_mod_cast h.symm
    rw [exp2Num_zero, hn]
    rfl
  by_cases hfar : 16 < e + Nat.log2 m
  · have habs := far_of_log2 (s := s) hm hfar
    rw [h] at habs
    have hn : (2 : Int) ^ 17 ≤ |n| := by exact_mod_cast habs
    have hsign : if s then n ≤ 0 else 0 ≤ n := by
      have hpos : (0 : ℚ) ≤ m * 2 ^ e := by positivity
      cases s with
      | false => have : (0 : ℚ) ≤ n := by rw [← h]; simpa [Num.val] using hpos
                 exact_mod_cast this
      | true => have : (n : ℚ) ≤ 0 := by rw [← h]; simpa [Num.val] using hpos
                exact_mod_cast this
    rw [exp2Num_far hm hfar]
    cases s with
    | false =>
      rw [if_neg Bool.false_ne_true] at hsign
      rw [abs_of_nonneg hsign] at hn
      exact round_far_up hf one_ne_zero one_ne_zero (by decide) (by omega)
    | true =>
      rw [if_pos rfl] at hsign
      rw [abs_of_nonpos hsign] at hn
      exact round_far_down hf one_ne_zero (by decide) one_ne_zero (by decide) (by decide) (by omega)
  · rw [Num.val_int hint] at h
    rw [exp2Num_int hm hfar hint, Int.cast_injective h]
    rfl

end

/-! ### 2 ^ x between two integers (log entry 12) -/

/-- What `vexp2` rounds for an argument between n and n + 1: a number between their powers. -/
def BetweenPowers (f : FloatFmt) (n : Int) (r : Nat × Flags5) : Prop :=
  ∃ t k g, (2 ^ n < (Num.fin t k g).val ∧ (Num.fin t k g).val < 2 ^ (n + 1)) ∧ r = f.round .rne false t k g

section
variable {s : Bool} {m : Nat} {e n : Int}

theorem val_fin_eq (s : Bool) (m : Nat) (e : Int) : (Num.fin s m e).val = if s then -(m * 2 ^ e : ℚ) else m * 2 ^ e := by
  cases s <;> simp [Num.val]

variable (hlo : n < (Num.fin s m e).val) (hhi : (Num.fin s m e).val < n + 1)
include hlo hhi

/-- A number strictly between two integers is none. -/
theorem not_int_of_between : ¬ (0 ≤ e ∨ m % 2 ^ (-e).toNat = 0) := fun hi => by
  rw [Num.val_int hi] at hlo hhi
  have hlo' : n < signedInt s (if 0 ≤ e then m * 2 ^ e.toNat else m / 2 ^ (-e).toNat) := by exact_mod_cast hlo
  have hhi' : signedInt s (if 0 ≤ e then m * 2 ^ e.toNat else m / 2 ^ (-e).toNat) < n + 1 := by exact_mod_cast hhi
  omega

theorem ne_zero_of_between : m ≠ 0 := fun hz =>
  not_int_of_between hlo hhi (.inr (by rw [hz, Nat.zero_mod]))

/-- Far from zero every number between the powers rounds as the model's does. -/
theorem exp2_far {f : FloatFmt} (hf : f.Bounded) (hfar : 16 < e + Nat.log2 m) : BetweenPowers f n (f.result (exp2Num s m e)) := by
  have hm := ne_zero_of_between hlo hhi
  have habs := far_of_log2 (s := s) hm hfar
  have hpow : (0 : ℚ) < 2 ^ n := by positivity
  refine ⟨false, 3, n - 1, ?_, ?_⟩
  · rw [Num.val, zpow_sub_one₀ two_ne_zero, zpow_add_one₀ two_ne_zero]
    constructor <;> norm_num <;> linarith
  · rw [exp2Num_far hm hfar]
    rw [abs_val_fin] at habs
    rw [val_fin_eq] at hlo hhi
    cases s with
    | false =>
      have hn : (2 : ℚ) ^ (17 : Int) < n + 1 := habs.trans_lt hhi
      have hn' : (2 : Int) ^ 17 < n + 1 := by exact_mod_cast hn
      exact round_far_up hf one_ne_zero (by decide) (by decide) (by omega)
    | true =>
      have hn : (n : ℚ) < -2 ^ (17 : Int) := hlo.trans_le (neg_le_neg habs)
      have hn' : n < -(2 : Int) ^ 17 := by exact_mod_cast hn
      exact round_far_down hf one_ne_zero (by decide) (by decide) (by decide) (by decide) (by omega)

/-- Near zero the model's number lies next to 1, on the side of x. -/
theorem exp2_near (f : FloatFmt) (hfar : ¬ 16 < e + Nat.log2 m) (hnear : e + Nat.log2 m < -90) :
    BetweenPowers f n (f.result (exp2Num s m e)) := by
  have hm := ne_zero_of_between hlo hhi
  have hpos : (0 : ℚ) < m * 2 ^ e := by
    have : (0 : ℚ) < m := by exact_mod_cast Nat.pos_of_ne_zero hm
    positivity
  have hlt : (m : ℚ) * 2 ^ e < 1 :=
    (mul_lt_two_zpowQ m e).trans_le ((zpow_le_zpow_right₀ one_le_two (by omega : e + Nat.log2 m + 1 ≤ 0)).trans_eq (zpow_zero 2))
  refine ⟨false, if s then 2 ^ 300 - 1 else 2 ^ 300 + 1, -300, ?_, by rw [exp2Num_near hm hfar (not_int_of_between hlo hhi) hnear]; rfl⟩
  rw [val_fin_eq] at hlo hhi
  cases s with
  | false =>
    have hn : n = 0 := by
      have h1 : (n : ℚ) < (1 : Int) := by exact_mod_cast hlo.trans hlt
      have h2 : ((0 : Int) : ℚ) < (n + 1 : Int) := by exact_mod_cast hpos.trans hhi
      rw [Int.cast_lt] at h1 h2
      omega
    rw [hn]
    norm_num [Num.val]
    exact ⟨(next_to_one big_300).1, (next_to_one big_300).2.1⟩
  | true =>
    have hn : n = -1 := by
      have h1 : (n : ℚ) < (0 : Int) := by exact_mod_cast hlo.trans (neg_lt_zero.mpr hpos)
      have h2 : ((-1 : Int) : ℚ) < (n + 1 : Int) := by exact_mod_cast (neg_lt_neg hlt).trans hhi
      rw [Int.cast_lt] at h1 h2
      omega
    rw [hn]
    norm_num [Num.val]
    exact (next_to_one big_300).2.2

/-- In fixed point the integer part of a number between n and n + 1 is n. -/
theorem fx_floor {j : Nat} (hj : e = j - 256) : signedInt s (m * 2 ^ j) / (fxOne : Int) = n := by
  have hone : (0 : ℚ) < fxOne := by rw [fxOne_cast]; positivity
  have hone' : (0 : Int) < fxOne := by exact_mod_cast hone
  have hx : ((signedInt s (m * 2 ^ j) : Int) : ℚ) = (Num.fin s m e).val * fxOne := by
    rw [Num.val_fin, hj, fxOne_cast, mul_assoc, ← zpow_add₀ two_ne_zero, sub_add_cancel, zpow_natCast]
    cases s <;> simp [signedInt]
  have hbelow : ((n * (fxOne : Int) : Int) : ℚ) ≤ (signedInt s (m * 2 ^ j) : Int) := by
    rw [hx]; push_cast; exact mul_le_mul_of_nonneg_right hlo.le hone.le
  have habove : ((signedInt s (m * 2 ^ j) : Int) : ℚ) < ((n + 1) * (fxOne : Int) : Int) := by
    rw [hx]; push_cast; exact mul_lt_mul_of_pos_right hhi hone
  exact le_antisymm (Int.le_of_lt_add_one ((Int.ediv_lt_iff_lt_mul hone').mpr (Int.cast_lt.mp habove)))
    ((Int.le_ediv_iff_mul_le hone').mpr (Int.cast_le.mp hbelow))

/-- Elsewhere the series gives the fraction's power, in [1, 2), at the scale of n. -/
theorem exp2_series (f : FloatFmt) (hm24 : m < 2 ^ 24) (hfar : ¬ 16 < e + Nat.log2 m) (hnear : ¬ e + Nat.log2 m < -90) :
    BetweenPowers f n (f.result (exp2Num s m e)) := by
  have hm := ne_zero_of_between hlo hhi
  have hlog : Nat.log2 m ≤ 23 := log2_le_of_lt hm hm24
  obtain ⟨j, hj⟩ : ∃ j : Nat, e + fxBits = j := ⟨(e + fxBits).toNat, by rw [fxBits]; omega⟩
  have hone : (0 : ℚ) < fxOne := by rw [fxOne_cast]; positivity
  have hmod : (signedInt s (m * 2 ^ j) % (fxOne : Int)).toNat ≤ fxOne := by
    have hone' : (0 : Int) < fxOne := by exact_mod_cast hone
    have := Int.emod_lt_of_pos (signedInt s (m * 2 ^ j)) hone'
    omega
  obtain ⟨hF1, hF2⟩ := fxExp2_bounds hmod
  rw [exp2Num_series hm hfar (not_int_of_between hlo hhi) hnear, hj, Int.toNat_natCast,
    fx_floor hlo hhi (show e = j - 256 by rw [← hj, fxBits]; ring)]
  generalize fxExp2 _ = F at *
  refine ⟨false, 2 * F + 1, n - fxBits - 1, ?_, rfl⟩
  have hscale : (2 : ℚ) ^ (n - fxBits - 1) = 2 ^ n / (2 * fxOne) := by
    rw [fxOne_cast, ← zpow_one_add₀ two_ne_zero, ← zpow_sub₀ two_ne_zero, fxBits]
    congr 1
    push_cast
    ring
  have hpow : (0 : ℚ) < 2 ^ n := by positivity
  have hF1' : (fxOne : ℚ) ≤ F := by exact_mod_cast hF1
  have hF2' : (F : ℚ) + 1 ≤ 2 * fxOne := by exact_mod_cast hF2
  rw [Num.val, hscale, if_neg Bool.false_ne_true, one_mul, zpow_add_one₀ two_ne_zero, ← mul_div_assoc, lt_div_iff₀ (by positivity),
    div_lt_iff₀ (by positivity)]
  push_cast
  constructor <;> nlinarith

/-- Between two integers 2 ^ x lies between their powers. -/
theorem exp2_between {f : FloatFmt} (hf : f.Bounded) (hm24 : m < 2 ^ 24) : BetweenPowers f n (f.result (exp2Num s m e)) := by
  by_cases hfar : 16 < e + Nat.log2 m
  · exact exp2_far hlo hhi hf hfar
  by_cases hnear : e + Nat.log2 m < -90
  · exact exp2_near hlo hhi f hfar hnear
  · exact exp2_series hlo hhi f hm24 hfar hnear

end

end Sys2Proof.Machine

/-! SUPPORT. The logarithm and the hyperbolic tangent, the codes of the special cases, and the statement on dot products, scans and special
functions. -/

namespace Sys2Proof.Machine

/-! ### log2 x (R72) -/

theorem atanhSeries_mono (fuel n : Nat) {z z' p p' : Nat} (hz : z ≤ z') (hp : p ≤ p') : atanhSeries fuel n z p ≤ atanhSeries fuel n z' p' := by
  induction fuel generalizing n p p' with
  | zero => exact le_rfl
  | succ fuel ih =>
    exact Nat.add_le_add (Nat.div_le_div_right hp) (ih (n + 2) (Nat.div_le_div_right (Nat.mul_le_mul hp hz)))

/-- The logarithm of a number strictly above 1 and below 2 lies in (0, 1). -/
theorem fxLog2_bounds {x : Nat} (hlo : fxOne + 3 ≤ x) (hhi : x ≤ 2 * fxOne) : 1 ≤ fxLog2 x ∧ fxLog2 x < fxOne := by
  have hone : 0 < fxOne := Nat.two_pow_pos _
  have hz1 : 1 ≤ (x - fxOne) * fxOne / (x + fxOne) := by
    rw [Nat.le_div_iff_mul_le (by omega)]
    calc 1 * (x + fxOne) ≤ 3 * fxOne := by omega
      _ ≤ (x - fxOne) * fxOne := Nat.mul_le_mul_right _ (by omega)
  have hz3 : (x - fxOne) * fxOne / (x + fxOne) ≤ fxOne / 3 := by
    have hA : (x - fxOne) * fxOne * 3 ≤ fxOne * (x + fxOne) :=
      calc (x - fxOne) * fxOne * 3 = fxOne * (3 * (x - fxOne)) := by ring
        _ ≤ fxOne * (x + fxOne) := Nat.mul_le_mul_left _ (by omega)
    rw [Nat.le_div_iff_mul_le (by decide)]
    refine Nat.le_of_mul_le_mul_right ?_ (by omega : 0 < x + fxOne)
    calc (x - fxOne) * fxOne / (x + fxOne) * 3 * (x + fxOne) = (x - fxOne) * fxOne / (x + fxOne) * (x + fxOne) * 3 := by ring
      _ ≤ (x - fxOne) * fxOne * 3 := Nat.mul_le_mul_right _ (Nat.div_mul_le_self _ _)
      _ ≤ fxOne * (x + fxOne) := hA
  rw [fxLog2]
  generalize (x - fxOne) * fxOne / (x + fxOne) = z at *
  constructor
  · have hseries : z ≤ atanhSeries 100 1 (z * z / fxOne) z := by
      rw [atanhSeries, Nat.div_one]
      exact Nat.le_add_right _ _
    rw [Nat.le_div_iff_mul_le hone]
    calc 1 * fxOne ≤ 2 * 1 * fxLog2e := by decide
      _ ≤ _ := Nat.mul_le_mul_right _ (Nat.mul_le_mul_left _ (hz1.trans hseries))
  · have hseries := atanhSeries_mono 100 1 (Nat.div_le_div_right (Nat.mul_le_mul hz3 hz3)) hz3 (z := z * z / fxOne)
    refine (Nat.div_le_div_right (Nat.mul_le_mul_right fxLog2e (Nat.mul_le_mul_left 2 hseries))).trans_lt ?_
    decide

/-- The place after the last of the fixed-point numbers. -/
theorem half_step : (2 : ℚ) ^ (-(fxBits : Int) - 1) = (2 * (fxOne : ℚ))⁻¹ := by
  rw [fxOne_cast, ← zpow_one_add₀ two_ne_zero, ← zpow_neg, fxBits]; rfl

section
variable {m : Nat} {e n : Int}

/-- The power of two at or below a number is that of its scale. -/
theorem eq_scale (hm : m ≠ 0) (hlo : (2 : ℚ) ^ n ≤ m * 2 ^ e) (hhi : (m : ℚ) * 2 ^ e < 2 ^ (n + 1)) : n = e + Nat.log2 m := by
  have h1 : n < e + Nat.log2 m + 1 := (zpow_lt_zpow_iff_right₀ one_lt_two).mp (hlo.trans_lt (mul_lt_two_zpowQ m e))
  have h2 : e + Nat.log2 m < n + 1 := (zpow_lt_zpow_iff_right₀ one_lt_two).mp ((two_zpow_le_mulQ hm e).trans_lt hhi)
  omega

/-- log2 of a power of two is exact. -/
theorem log2_exact (hm : m ≠ 0) (h : (m : ℚ) * 2 ^ e = 2 ^ n) : log2Num m e = .ofInt n 0 := by
  have hn : n = e + Nat.log2 m := eq_scale hm h.ge (h.trans_lt (zpow_lt_zpow_right₀ one_lt_two n.lt_succ_self))
  have hpow : m = 2 ^ Nat.log2 m := by
    rw [hn, add_comm, zpow_add₀ two_ne_zero, mul_left_inj' (by positivity), zpow_natCast] at h
    exact_mod_cast h
  rw [log2Num]
  simp only [if_pos hpow, ← hn]

/-- Between two powers of two log2 x lies between their exponents (log entry 12). -/
theorem log2_between (hm24 : m < 2 ^ 24) (hm : m ≠ 0) (hlo : (2 : ℚ) ^ n < m * 2 ^ e) (hhi : (m : ℚ) * 2 ^ e < 2 ^ (n + 1)) :
    ∃ t k g, log2Num m e = .fin t k g ∧ n < (Num.fin t k g).val ∧ (Num.fin t k g).val < n + 1 := by
  have hn : n = e + Nat.log2 m := eq_scale hm hlo.le hhi
  have hpow : m ≠ 2 ^ Nat.log2 m := fun heq => by
    refine hlo.ne ?_
    rw [hn, add_comm, zpow_add₀ two_ne_zero, zpow_natCast]
    nth_rw 2 [heq]
    push_cast
    rfl
  have hlog : Nat.log2 m ≤ 23 := log2_le_of_lt hm hm24
  have hself : 2 ^ Nat.log2 m ≤ m := Nat.log2_self_le hm
  have hlt : m < 2 * 2 ^ Nat.log2 m := by rw [← pow_succ']; exact Nat.lt_log2_self
  obtain ⟨j, hj⟩ : ∃ j, fxOne = 2 ^ Nat.log2 m * j ∧ 3 ≤ j := by
    refine ⟨2 ^ (256 - Nat.log2 m), ?_, ?_⟩
    · rw [← pow_add, Nat.add_sub_cancel' (by omega)]; rfl
    · exact (by decide : 3 ≤ 2 ^ 2).trans (Nat.pow_le_pow_right two_pos (by omega))
  have hx : m * fxOne / 2 ^ Nat.log2 m = m * j := by
    rw [hj.1, ← mul_assoc, mul_comm m, mul_assoc, Nat.mul_div_cancel_left _ (Nat.two_pow_pos _)]
  obtain ⟨hF1, hF2⟩ := fxLog2_bounds (x := m * fxOne / 2 ^ Nat.log2 m)
    (by rw [hx, hj.1]; nlinarith [hj.2, show 2 ^ Nat.log2 m + 1 ≤ m by omega]) (by rw [hx, hj.1, ← mul_assoc]; exact Nat.mul_le_mul_right _ hlt.le)
  rw [log2Num]
  simp only [if_neg hpow, ← hn]
  generalize fxLog2 (m * fxOne / 2 ^ Nat.log2 m) = F at *
  refine ⟨_, _, _, rfl, ?_⟩
  have hone : (0 : ℚ) < fxOne := by rw [fxOne_cast]; positivity
  have hF1' : (1 : ℚ) ≤ F := by exact_mod_cast hF1
  have hF2' : (F : ℚ) + 1 ≤ fxOne := by exact_mod_cast hF2
  have habs : ((n * (fxOne : Int) + F : Int).natAbs : ℚ) = |(n * fxOne + F : ℚ)| := by
    rw [Nat.cast_natAbs]; push_cast; rfl
  rw [Num.val, half_step, ← div_eq_mul_inv, lt_div_iff₀ (by positivity), div_lt_iff₀ (by positivity), if_pos rfl]
  push_cast [habs]
  by_cases hneg : n * (fxOne : Int) + F < 0
  · have hneg' : (n * fxOne + F : ℚ) < 0 := by exact_mod_cast hneg
    rw [decide_eq_true hneg, abs_of_neg hneg', if_pos rfl]
    constructor <;> nlinarith
  · have hneg' : (0 : ℚ) ≤ n * fxOne + F := by exact_mod_cast not_lt.mp hneg
    rw [decide_eq_false hneg, abs_of_nonneg hneg', if_neg Bool.false_ne_true]
    constructor <;> nlinarith

end

/-! ### tanh x (R72) -/

/-- tanh x has the sign of x and a magnitude below 1 (log entry 12). -/
theorem tanh_between {m : Nat} (hm : m ≠ 0) (s : Bool) (e : Int) : ∃ k g, tanhNum s m e = .fin s k g ∧
    0 < (k : ℚ) * 2 ^ g ∧ (k : ℚ) * 2 ^ g < 1 := by
  rw [tanhNum]
  dsimp only
  split_ifs with hnear hfar
  · refine ⟨_, _, rfl, ?_⟩
    have hm1 : 1 < m * 2 ^ 200 := by have := Nat.pos_of_ne_zero hm; omega
    have hpow : (0 : ℚ) < 2 ^ (e - 200) := by positivity
    have hscale : ((m * 2 ^ 200 : Nat) : ℚ) * 2 ^ (e - 200) = m * 2 ^ e := by
      rw [Nat.cast_mul, Nat.cast_pow, Nat.cast_ofNat, zpow_sub₀ two_ne_zero, show (2 : ℚ) ^ (200 : Int) = 2 ^ 200 from zpow_natCast 2 200]
      field_simp
    have hlt : (m : ℚ) * 2 ^ e < 1 :=
      (mul_lt_two_zpowQ m e).trans_le ((zpow_le_zpow_right₀ one_le_two (by omega : e + Nat.log2 m + 1 ≤ 0)).trans_eq (zpow_zero 2))
    rw [← hscale] at hlt
    generalize m * 2 ^ 200 = k at *
    have hk : (1 : ℚ) < k := by exact_mod_cast hm1
    rw [Nat.cast_sub hm1.le, Nat.cast_one]
    exact ⟨mul_pos (by linarith) hpow, (mul_lt_mul_of_pos_right (by linarith) hpow).trans hlt⟩
  · refine ⟨_, _, rfl, ?_⟩
    obtain ⟨-, -, hlo, hhi⟩ := next_to_one big_300
    obtain ⟨P, hP⟩ : ∃ P : Nat, P = 2 ^ 300 := ⟨_, rfl⟩
    have hP1 : 1 ≤ P := Nat.one_le_two_pow.trans_eq hP.symm
    have hcast : (P : ℚ) = 2 ^ 300 := by rw [hP, Nat.cast_pow, Nat.cast_ofNat]
    rw [← hcast] at hlo hhi
    rw [← hP, zpow_neg, zpow_ofNat, ← hcast, Nat.cast_sub hP1, Nat.cast_one]
    exact ⟨one_half_pos.trans hlo, hhi⟩
  · refine ⟨_, _, rfl, ?_⟩
    have hQ : ∀ x, (x - fxOne) * fxOne / (x + fxOne) < fxOne := fun x => by
      have hone : 0 < fxOne := Nat.two_pow_pos _
      rw [Nat.div_lt_iff_lt_mul (by omega), mul_comm fxOne]
      exact Nat.mul_lt_mul_of_pos_right (by omega) hone
    have hQ' := hQ (fxExp2 (2 * (m * 2 ^ (e + fxBits).toNat) * fxLog2e / fxOne % fxOne) *
      2 ^ (2 * (m * 2 ^ (e + fxBits).toNat) * fxLog2e / fxOne / fxOne))
    generalize (_ - fxOne) * fxOne / (_ + fxOne) = Q at *
    have hone : (0 : ℚ) < fxOne := by rw [fxOne_cast]; positivity
    have hQ1 : (Q : ℚ) + 1 ≤ fxOne := by exact_mod_cast hQ'
    rw [half_step, ← div_eq_mul_inv, div_lt_one (by positivity), if_pos rfl]
    push_cast
    exact ⟨by positivity, by linarith⟩

/-! ### Special functions on codes (R72, R363) -/

section
variable {fn : SpecialFn} {f : FloatFmt} {x : Nat} {v : Num}

theorem specialOn_of_eval {fl : Flags5} (h : fn.eval (f.decode true x) = (v, fl)) :
    specialOn fn f x = ((f.result v).1, fl ||| (f.result v).2) := by
  rw [specialOn, h]

/-- A special function on an argument that raises nothing of itself rounds once. -/
theorem specialOn_of_value (h : fn.eval (f.decode true x) = (v, 0)) : specialOn fn f x = f.result v :=
  (specialOn_of_eval h).trans (Prod.ext rfl BitVec.zero_or)

theorem specialOn_of_noNumber {fl : Flags5} (h : fn.eval (f.decode true x) = (.nan false, fl)) : specialOn fn f x = (f.canonNaN, fl) :=
  (specialOn_of_eval h).trans (Prod.ext rfl BitVec.or_zero)

theorem specialOn_of_inf {n : Bool} {fl : Flags5} (h : fn.eval (f.decode true x) = (.inf n, fl)) : specialOn fn f x = (f.infCode n, fl) :=
  (specialOn_of_eval h).trans (Prod.ext rfl BitVec.or_zero)

theorem specialOn_nan (h : (f.decode true x).isNaN = true) (fn : SpecialFn) : specialOn fn f x = (f.canonNaN, (f.decode true x).raises) := by
  cases hd : f.decode true x with
  | nan q =>
    have heval : fn.eval (.nan q) = (.nan false, flagIf q flagInvalid) := by cases fn <;> rfl
    rw [specialOn_of_noNumber (hd ▸ heval)]
    cases q <;> rfl
  | inf | fin => rw [hd] at h; cases h

/-- Of a number below zero there is no root and no logarithm. -/
theorem specialOn_below (h : (f.decode true x).val < 0) (hfn : fn ∈ [SpecialFn.rsq, .sqrt, .log2]) :
    specialOn fn f x = (f.canonNaN, flagInvalid) := by
  cases hd : f.decode true x with
  | nan | inf => rw [hd] at h; exact absurd h (lt_irrefl 0)
  | fin s m e =>
    rw [hd] at h
    have hs : s = true := by
      by_contra hs
      rw [Bool.not_eq_true] at hs
      subst hs
      exact h.not_ge (by simp only [Num.val, Bool.false_eq_true, if_false, one_mul]; positivity)
    have hm : m ≠ 0 := fun hz => h.ne ((Num.val_eq_zero_iff s m e).mpr hz)
    have heval : fn.eval (.fin s m e) = (.nan false, flagInvalid) := by
      simp only [List.mem_cons, List.not_mem_nil, or_false] at hfn
      obtain rfl | rfl | rfl := hfn <;> simp [SpecialFn.eval, hs, hm]
    exact specialOn_of_noNumber (hd ▸ heval)

end

/-- The codes of the special cases in the vector formats: the zeros, the infinities, 1, and what 1 rounds to. -/
theorem special_codes : ∀ f ∈ [fmtF32, fmtBf16, fmtF16], ∀ n, f.decode true (f.signBit n) = .fin n 0 f.minExp ∧
    f.decode true (f.infCode n) = .inf n ∧ f.decode true (f.bias.toNat * 2 ^ f.m) = .fin false (2 ^ f.m) (-f.m) ∧
    f.round .rne false n 1 0 = (f.signBit n + f.bias.toNat * 2 ^ f.m, 0) := by decide

theorem result_zero (f : FloatFmt) (n : Bool) (e : Int) : f.result (.fin n 0 e) = (f.signBit n, 0) := by
  simp [FloatFmt.result, FloatFmt.round]

/-- What the special functions give for zeros, infinities and 1 (R72). -/
theorem specialOn_codes {f : FloatFmt} (hf : f ∈ [fmtF32, fmtBf16, fmtF16]) :
    let one := f.bias.toNat * 2 ^ f.m
    (∀ n, specialOn .rcp f (f.signBit n) = (f.infCode n, flagDivZero) ∧ specialOn .rcp f (f.infCode n) = (f.signBit n, 0) ∧
      specialOn .rsq f (f.signBit n) = (f.infCode n, flagDivZero) ∧ specialOn .sqrt f (f.signBit n) = (f.signBit n, 0) ∧
      specialOn .exp2 f (f.signBit n) = (one, 0) ∧ specialOn .log2 f (f.signBit n) = (f.infCode true, flagDivZero) ∧
      specialOn .tanh f (f.signBit n) = (f.signBit n, 0) ∧ specialOn .tanh f (f.infCode n) = (f.signBit n + one, 0)) ∧
    specialOn .rsq f (f.infCode false) = (f.signBit false, 0) ∧ specialOn .sqrt f (f.infCode false) = (f.infCode false, 0) ∧
    specialOn .exp2 f (f.infCode true) = (f.signBit false, 0) ∧ specialOn .exp2 f (f.infCode false) = (f.infCode false, 0) ∧
    specialOn .log2 f one = (f.signBit false, 0) ∧ specialOn .log2 f (f.infCode false) = (f.infCode false, 0) := by
  intro one
  have hz := fun n => (special_codes f hf n).1
  have hi := fun n => (special_codes f hf n).2.1
  have h1 := (special_codes f hf false).2.2.1
  have hround := fun n => (special_codes f hf n).2.2.2
  have hplus : f.signBit false = 0 := by simp [FloatFmt.signBit]
  have hlog : log2Num (2 ^ f.m) (-f.m) = .ofInt 0 0 := log2_exact (Nat.two_pow_pos _).ne' (by simp [zpow_neg])
  have hone : ∀ n, f.result (.fin n 1 0) = (f.signBit n + one, 0) := hround
  refine ⟨fun n => ⟨?_, ?_, ?_, ?_, ?_, ?_, ?_, ?_⟩, ?_, ?_, ?_, ?_, ?_, ?_⟩
  · exact specialOn_of_inf (by rw [hz]; rfl)
  · rw [specialOn_of_value (by rw [hi]; rfl), result_zero]
  · exact specialOn_of_inf (by rw [hz]; rfl)
  · rw [specialOn_of_value (by rw [hz]; rfl), result_zero]
  · rw [specialOn_of_value (by rw [hz]; rfl), exp2Num_zero, hone, hplus, Nat.zero_add]
  · exact specialOn_of_inf (by rw [hz]; rfl)
  · rw [specialOn_of_value (by rw [hz]; rfl), result_zero]
  · rw [specialOn_of_value (by rw [hi]; rfl), hone]
  · rw [specialOn_of_value (by rw [hi]; rfl), result_zero]
  · exact specialOn_of_inf (by rw [hi]; rfl)
  · rw [specialOn_of_value (by rw [hi]; rfl), result_zero]
  · exact specialOn_of_inf (by rw [hi]; rfl)
  · rw [specialOn_of_value (v := .ofInt 0 0) (by rw [h1, ← hlog]; simp [SpecialFn.eval])]
    exact result_zero f false 0
  · exact specialOn_of_inf (by rw [hi]; rfl)

/-! ### Special functions of finite arguments -/

/-- A finite argument that is not zero: its sign, a mantissa of 24 bits, and its exponent. -/
theorem Num.exists_fin_of_ne_zero {f : FloatFmt} (hf : f.Bounded) {x : Nat} (ha : (f.decode true x).finite) :
    ∃ s m e, f.decode true x = .fin s m e ∧ m < 2 ^ 24 ∧ ((f.decode true x).val ≠ 0 → m ≠ 0) ∧ (0 < (f.decode true x).val → s = false) ∧
      ((f.decode true x).val < 0 → s = true) := by
  obtain ⟨s, m, e, hd⟩ := exists_fin_of_finite ha
  have hpos : (0 : ℚ) ≤ m * 2 ^ e := by positivity
  refine ⟨s, m, e, hd, ?_, ?_, ?_, ?_⟩
  · exact (FloatFmt.decode_fin hd).1.trans_le (Nat.pow_le_pow_right two_pos (by have := hf.mantissa; omega))
  · rw [hd]; exact mt (val_eq_zero_iff s m e).mpr
  · rw [hd]
    cases s with
    | false => exact fun _ => rfl
    | true => intro h; simp only [val, if_true, neg_mul, one_mul] at h; linarith
  · rw [hd]
    cases s with
    | true => exact fun _ => rfl
    | false => intro h; simp only [val, Bool.false_eq_true, if_false, one_mul] at h; linarith

section
variable {f : FloatFmt} (hf : f.Bounded) {x : Nat} (ha : (f.decode true x).finite)
include hf ha

theorem specialOn_rcp (hv : (f.decode true x).val ≠ 0) :
    RoundsTo f .rne false (decide (1 / ((f.decode true x).val : ℝ) < 0)) (1 / ((f.decode true x).val : ℝ)) (specialOn .rcp f x) := by
  obtain ⟨s, m, e, hd, -, hm, hp, hn⟩ := Num.exists_fin_of_ne_zero hf ha
  have hbelow : 1 / ((f.decode true x).val : ℝ) < 0 ↔ (f.decode true x).val < 0 := by rw [one_div, inv_lt_zero, Rat.cast_lt_zero]
  have hsign : decide (1 / ((f.decode true x).val : ℝ) < 0) = s := by
    rw [decide_eq_decide.mpr hbelow]
    rcases hv.lt_or_gt with h | h
    · rw [hn h, decide_eq_true h]
    · rw [hp h, decide_eq_false h.not_gt]
  rw [hsign, specialOn_of_value (v := recipNum s m e) (by rw [hd]; simp [SpecialFn.eval, hm hv]), hd]
  exact roundsTo_recip hf.mantissa (hm hv) s e

theorem specialOn_roots (hv : 0 < (f.decode true x).val) :
    RoundsTo f .rne false (decide (Real.sqrt (f.decode true x).val < 0)) (Real.sqrt (f.decode true x).val) (specialOn .sqrt f x) ∧
      RoundsTo f .rne false (decide (1 / Real.sqrt (f.decode true x).val < 0)) (1 / Real.sqrt (f.decode true x).val) (specialOn .rsq f x) := by
  obtain ⟨s, m, e, hd, -, hm, hp, -⟩ := Num.exists_fin_of_ne_zero hf ha
  obtain rfl := hp hv
  rw [decide_eq_false (Real.sqrt_nonneg _).not_gt, decide_eq_false (by positivity : (0 : ℝ) ≤ 1 / Real.sqrt (f.decode true x).val).not_gt,
    specialOn_of_value (fn := .sqrt) (v := sqrtNum m e) (by rw [hd]; simp [SpecialFn.eval, hm hv.ne']),
    specialOn_of_value (fn := .rsq) (v := rsqrtNum m e) (by rw [hd]; simp [SpecialFn.eval, hm hv.ne']), hd]
  exact roundsTo_roots hf.mantissa (hm hv.ne') e

theorem specialOn_exp2 : ∃ s m e, f.decode true x = .fin s m e ∧ m < 2 ^ 24 ∧ specialOn .exp2 f x = f.result (exp2Num s m e) := by
  obtain ⟨s, m, e, hd, hm24, -⟩ := Num.exists_fin_of_ne_zero hf ha
  exact ⟨s, m, e, hd, hm24, specialOn_of_value (by rw [hd]; rfl)⟩

theorem specialOn_exp2_int {n : Int} (hv : (f.decode true x).val = n) :
    RoundsTo f .rne false (decide ((2 : ℝ) ^ n < 0)) ((2 : ℝ) ^ n) (specialOn .exp2 f x) := by
  obtain ⟨s, m, e, hd, -, hs⟩ := specialOn_exp2 hf ha
  rw [hd] at hv
  rw [hs, exp2_int hf hv, decide_eq_false (by positivity : (0 : ℝ) ≤ 2 ^ n).not_gt]
  simpa using f.round_roundsTo .rne false false 1 n

theorem specialOn_log2 (hv : 0 < (f.decode true x).val) : ∃ (m : Nat) (e : Int), (f.decode true x).val = m * 2 ^ e ∧ m ≠ 0 ∧ m < 2 ^ 24 ∧
    specialOn .log2 f x = f.result (log2Num m e) := by
  obtain ⟨s, m, e, hd, hm24, hm, hp, -⟩ := Num.exists_fin_of_ne_zero hf ha
  obtain rfl := hp hv
  exact ⟨m, e, by rw [hd]; simp [Num.val], hm hv.ne', hm24, specialOn_of_value (by rw [hd]; simp [SpecialFn.eval, hm hv.ne'])⟩

theorem specialOn_log2_power {n : Int} (hv : (f.decode true x).val = 2 ^ n) :
    RoundsTo f .rne false (decide ((n : ℝ) < 0)) (n : ℝ) (specialOn .log2 f x) := by
  obtain ⟨m, e, hval, hm, -, hs⟩ := specialOn_log2 hf ha (hv ▸ by positivity)
  have hn : (((Num.ofInt n 0).val : ℚ) : ℝ) = n := by rw [Num.ofInt, Num.val_fin, signedInt_natAbs]; simp
  have hround := roundsTo_val f .rne false (decide (n < 0)) n.natAbs 0
  change RoundsTo f .rne false (decide (n < 0)) ((Num.ofInt n 0).val : ℚ) (f.result (.ofInt n 0)) at hround
  rw [hn] at hround
  rw [hs, log2_exact hm (hval.symm.trans hv), decide_eq_decide.mpr (Int.cast_lt_zero (R := ℝ) (n := n))]
  exact hround

theorem specialOn_tanh (hv : (f.decode true x).val ≠ 0) : ∃ s k g, specialOn .tanh f x = f.round .rne false s k g ∧
    (0 < (f.decode true x).val → s = false) ∧ ((f.decode true x).val < 0 → s = true) ∧ 0 < (k : ℚ) * 2 ^ g ∧ (k : ℚ) * 2 ^ g < 1 := by
  obtain ⟨s, m, e, hd, -, hm, hp, hn⟩ := Num.exists_fin_of_ne_zero hf ha
  obtain ⟨k, g, hk, hbounds⟩ := tanh_between (hm hv) s e
  refine ⟨s, k, g, ?_, hp, hn, hbounds⟩
  rw [specialOn_of_value (v := tanhNum s m e) (by rw [hd]; simp [SpecialFn.eval, hm hv]), hk]
  rfl

end

/-! ### The slots -/

/-- One lane of `vdot4`. -/
def dotLane (T : NumTy) (t : ElemType) (x y z : W32) : LaneFlags :=
  (BitVec.ofNat 32 (dot4 T (laneElems t x) (laneElems t y) z.toNat).1, (dot4 T (laneElems t x) (laneElems t y) z.toNat).2)

theorem dotLane_toNat (T : NumTy) (t : ElemType) (x y z : W32) :
    ((dotLane T t x y z).1.toNat, (dotLane T t x y z).2) = dot4 T (laneElems t x) (laneElems t y) z.toNat :=
  Prod.ext (dot4_toNat ..) rfl

theorem dotLane_of_dot4 {T : NumTy} {t : ElemType} {x y z : W32} {c : Nat} {fl : Flags5}
    (h : dot4 T (laneElems t x) (laneElems t y) z.toNat = (c, fl)) : dotLane T t x y z = (BitVec.ofNat 32 c, fl) := by
  rw [dotLane, h]

theorem exec_special {s : State} {d a : Reg} (h : s.VectorReady d [a] []) (fn : SpecialFn) (m : Reg3) {t : ElemType} {f : FloatFmt}
    (hf : vecFloat t = some f) : specialVec fn d a m t s =
      .next (s.vectorLands d [a] 12 (srcM s m) (maskedFlags (srcM s m) ((s.here.readSrcV a).map (lane1 t (specialOn fn f))))) := by
  have helem : elemSpecial fn t = specialOn fn f := by funext c; rw [elemSpecial, hf, Option.getD_some]
  rw [specialVec, helem, vector1_ready h]

/-- Settles O41: the products and sums of a lane, the scan lane by lane, and each special function by its own lemma. -/
theorem dotScanSpecialsLand : Obligations.DotScanSpecialsLand := by
  refine ⟨fun s d a b m t => ⟨fun hr => ?_, fun hr => ?_, fun hr f hf => ?_⟩, fun f hf => specialOn_codes hf,
    fun f _ x hv fn hfn => specialOn_below hv hfn, fun f hmem x => ?_⟩
  · refine ⟨dotLane (elemNumTy (recordsOf s) t) t, vector3_ready hr m 6 _, fun x y z hfin hd => ?_, fun x y z => ⟨?_, ?_, ?_, ?_, ?_⟩⟩
    · rw [dotLane_toNat]
      exact dot4_finite hfin hd
    · rintro ⟨j, hj, hbad⟩
      exact dotLane_of_dot4 (dot4_noProduct hj hbad)
    all_goals
      intro hbad
      have hprod : ∀ j < t.perLane, ¬ ((elemNumTy s.here.regs.readNf t).decode (laneElem t x j)).NoProduct
        ((elemNumTy s.here.regs.readNf t).decode (laneElem t y j)) := fun j hj hno => hbad ⟨j, hj, hno⟩
    · exact fun hd => dotLane_of_dot4 (dot4_nan hprod hd)
    · exact fun hd hp hm => dotLane_of_dot4 ((dot4_infs hprod hd).1 hp hm)
    · exact fun hd hp hm => dotLane_of_dot4 ((dot4_infs hprod hd).2.1 hp hm)
    · exact fun hd hm hp => dotLane_of_dot4 ((dot4_infs hprod hd).2.2 hm hp)
  · refine ⟨_, vectorOp_ready hr 8 (srcM s m) _, fun i hi ha => ?_⟩
    have hscan := scanLanes_getD t (srcM s m) (s.here.readSrcV a) 0 none i hi (by rwa [Nat.zero_add])
    simp only [Nat.zero_add] at hscan
    exact hscan
  · simp only [List.forall_mem_cons]
    exact ⟨exec_special hr .rcp m hf, exec_special hr .rsq m hf, exec_special hr .sqrt m hf, exec_special hr .exp2 m hf,
      exec_special hr .log2 m hf, exec_special hr .tanh m hf, List.forall_mem_nil _⟩
  · have hf := bounded_of_mem hmem
    refine ⟨specialOn_nan, specialOn_rcp hf, specialOn_roots hf, fun ha n => specialOn_exp2_int hf ha, fun ha n hlo hhi => ?_,
      fun ha n => specialOn_log2_power hf ha, fun ha n hlo hhi => ?_, fun ha hv => ?_, fun ha hv => ?_⟩
    · obtain ⟨s, m, e, hd, hm24, hs⟩ := specialOn_exp2 hf ha
      rw [hd] at hlo hhi
      obtain ⟨t, k, g, hbounds, hround⟩ := exp2_between hlo hhi hf hm24
      exact ⟨t, k, g, hbounds, hs.trans hround⟩
    · obtain ⟨m, e, hval, hm, hm24, hs⟩ := specialOn_log2 hf ha ((by positivity : (0 : ℚ) < 2 ^ n).trans hlo)
      rw [hval] at hlo hhi
      obtain ⟨t, k, g, hlog, hbounds⟩ := log2_between hm24 hm hlo hhi
      exact ⟨t, k, g, hbounds, hs.trans (by rw [hlog]; rfl)⟩
    · obtain ⟨s, k, g, hround, hp, -, hlo, hhi⟩ := specialOn_tanh hf ha hv.ne'
      obtain rfl := hp hv
      exact ⟨false, k, g, by simpa [Num.val] using ⟨hlo, hhi⟩, hround⟩
    · obtain ⟨s, k, g, hround, -, hn, hlo, hhi⟩ := specialOn_tanh hf ha hv.ne
      obtain rfl := hn hv
      exact ⟨true, k, g, by simp only [Num.val, if_true]; constructor <;> linarith, hround⟩

end Sys2Proof.Machine

/-! SUPPORT. A counterexample to the statement on tile instructions: a tile whose first rows hold no words. -/

namespace Sys2Proof.Machine

/-- A machine after reset but for tile 0 of core 0, whose first eight rows are listed with no words in them, and a barrier object's mark on
the first words of the scratchpad. -/
def emptyRowsState : State :=
  { State.reset with store := { Store.empty with
      tiles := [(0, []), (1, []), (2, []), (3, []), (4, []), (5, []), (6, []), (7, [])], marks := [0] } }

/-- A `tst` of that tile to the beginning of the window. -/
def emptyRowsTst : MatOp :=
  { ctx := 0, tile := 0, kind := .tst, start := 0, walk := [], age := 0, started := false, running := false, left := 1, step := 1,
    done := 0, used := 0, rate := 0, charge := 0, flags := 0 }

/-- The row as it is listed has no words, so the first step of the `tst` writes nothing. -/
theorem transferOut_emptyRows : transferOut emptyRowsTst emptyRowsState = [] := by decide

theorem perform_emptyRows : (emptyRowsTst.perform emptyRowsState).2 = emptyRowsState := by
  have h : (emptyRowsTst.perform emptyRowsState).2 =
    (transferOut emptyRowsTst emptyRowsState).foldl (fun s e => engineWrite (coreOf 0) e.1 e.2.1 s) emptyRowsState := rfl
  rw [h, transferOut_emptyRows, List.foldl_nil]

theorem mem_marks_of_scratchPutBytes {core k : Nat} (bs : List Byte) : ∀ {st : Store} {addr : Nat},
    k ∈ (scratchPutBytes st core addr bs).marks → k ∈ st.marks := by
  induction bs with
  | nil => exact id
  | cons b bs ih => exact fun h => List.mem_of_mem_filter (ih h)

/-- An ordinary store of bytes takes the mark of the object that its first byte lies in (R150, R186). -/
theorem markOf_notMem_marks_scratchPutBytes (st : Store) (core addr : Nat) (b : Byte) (bs : List Byte) :
    markOf (scratchKey core addr) ∉ (scratchPutBytes st core addr (b :: bs)).marks := by
  intro h
  have hm : markOf (scratchKey core addr) ∈ (scratchStoreByte st core addr b).marks := mem_marks_of_scratchPutBytes bs h
  simp [scratchStoreByte, scratchStore] at hm

theorem mem_marks_of_foldl_scratchPutBytes {core k : Nat} (f : Nat → Nat) (g : Nat → List Byte) (l : List Nat) : ∀ {st : Store},
    k ∈ (l.foldl (fun st n => scratchPutBytes st core (f n) (g n)) st).marks → k ∈ st.marks := by
  induction l with
  | nil => exact id
  | cons n l ih => exact fun h => mem_marks_of_scratchPutBytes (g n) (ih h)

/-- Of stores one after another, the first takes the mark of the object that it begins in. -/
theorem markOf_notMem_marks_foldl_scratchPutBytes (st : Store) (core : Nat) (f : Nat → Nat) (g : Nat → List Byte) (n : Nat)
    (hg : g 0 ≠ []) :
    markOf (scratchKey core (f 0)) ∉ ((List.range (n + 1)).foldl (fun st n => scratchPutBytes st core (f n) (g n)) st).marks := by
  obtain ⟨b, bs, hb⟩ := List.exists_cons_of_ne_nil hg
  rw [List.range_succ_eq_map, List.foldl_cons, hb]
  exact fun h => markOf_notMem_marks_scratchPutBytes st core (f 0) b bs (mem_marks_of_foldl_scratchPutBytes f g _ h)

/-- Refutes O47: the clause of `tst` lets 8 rows store 1,024 words, and asks of the tiles only that rows are listed by rising keys; the model
stores the words that a listed row holds. Of rows that are listed with no words the model's step stores none, and the mark of the barrier object
at the walk's beginning stays, which the statement's first word takes. What the clause does not ask is that every row holds 128 words. -/
theorem not_tileInstructionsQueue : ¬ Obligations.TileInstructionsQueue := by
  unfold Obligations.TileInstructionsQueue
  rintro ⟨-, steps⟩
  obtain ⟨-, -, tst, -⟩ := steps emptyRowsState emptyRowsTst (by decide)
  have stored : (emptyRowsTst.perform emptyRowsState).2.store = _ := tst (by decide) rfl 1 (by decide)
  rw [perform_emptyRows] at stored
  have stays : (0 : Nat) ∈ emptyRowsState.store.marks := by decide
  rw [stored] at stays
  exact markOf_notMem_marks_foldl_scratchPutBytes emptyRowsState.store 0
    (fun n => (emptyRowsState.ctx 0).coreAddr (emptyRowsTst.elementAt n))
    (fun n => leBytes 4 (tileWord emptyRowsState 0 0 (n / 128) (n % 128)).toNat) 1023 (by simp [leBytes]) stays

end Sys2Proof.Machine

/-! SUPPORT. The statements on issue: the order in which due results land, and what stalls a scalar operation or the end of a context. -/

namespace Sys2Proof.Machine

/-! ### Landing order (R94) -/

/-- One result lands before another or level with it: at an earlier count, or at the same count from no younger a bundle. -/
def Pending.NotAfter (p q : Pending) : Prop := p.due < q.due ∨ (p.due = q.due ∧ p.age ≤ q.age)

theorem Pending.notAfter_of_before {p q : Pending} (h : p.before q = true) : p.NotAfter q := by
  simp only [before, Bool.or_eq_true, Bool.and_eq_true, decide_eq_true_eq, beq_iff_eq] at h
  unfold NotAfter
  omega

theorem Pending.notAfter_of_not_before {p q : Pending} (h : ¬ p.before q = true) : q.NotAfter p := by
  simp only [before, Bool.or_eq_true, Bool.and_eq_true, decide_eq_true_eq, beq_iff_eq] at h
  unfold NotAfter
  omega

theorem Pending.NotAfter.trans {p q r : Pending} (hpq : p.NotAfter q) (hqr : q.NotAfter r) : p.NotAfter r := by
  unfold NotAfter at *
  omega

/-- A result that lands strictly earlier than another is not level with it. -/
theorem Pending.NotAfter.not_strict {p q : Pending} (h : q.NotAfter p) : ¬ (p.due < q.due ∨ p.due = q.due ∧ p.age < q.age) := by
  unfold NotAfter at h
  omega

theorem pairwise_insertPending (p : Pending) {l : List Pending} (h : l.Pairwise Pending.NotAfter) :
    (insertPending p l).Pairwise Pending.NotAfter := by
  induction l with
  | nil => exact List.pairwise_singleton _ p
  | cons q qs ih =>
    obtain ⟨hq, hqs⟩ := List.pairwise_cons.mp h
    unfold insertPending
    split
    next hb =>
      have hpq := Pending.notAfter_of_before hb
      exact List.pairwise_cons.mpr ⟨List.forall_mem_cons.mpr ⟨hpq, fun a ha => hpq.trans (hq a ha)⟩, h⟩
    next hb =>
      have hhead : ∀ a ∈ p :: qs, q.NotAfter a := List.forall_mem_cons.mpr ⟨Pending.notAfter_of_not_before hb, hq⟩
      exact List.pairwise_cons.mpr ⟨fun a ha => hhead a ((insertPending_perm p qs).mem_iff.mp ha), ih hqs⟩

theorem pairwise_sortPending (l : List Pending) : (sortPending l).Pairwise Pending.NotAfter := by
  induction l with
  | nil => exact List.Pairwise.nil
  | cons p ps ih => exact pairwise_insertPending p ih

/-! ### Any number of results on `g` registers (R89) -/

/-- A result on a `g` register. -/
def Pending.IsG (p : Pending) : Prop := ∃ i x, p.eff = .g i x

theorem Sparse.rising_set {α : Type} [DecidableEq α] (d : α) (m : Sparse α) (k : Nat) (x : α) (h : Sparse.risingFrom none m = true) :
    Sparse.risingFrom none (Sparse.set d m k x) = true := by
  unfold Sparse.set
  split
  · exact Sparse.rising_erase m k h
  · exact Sparse.rising_put m k x h

theorem Regs.rising_writeG {r : Regs} (hr : Sparse.risingFrom none r.g = true) (i : Nat) (x : W64) :
    Sparse.risingFrom none (r.writeG i x).g = true := by
  unfold Regs.writeG
  split
  · exact hr
  · exact Sparse.rising_set 0 r.g i x hr

theorem ctx_applyPending_g {p : Pending} {i : Nat} {x : W64} (he : p.eff = .g i x) (h : Nat) (s : State) :
    (applyPending h s p).ctx h = { s.ctx h with regs := (s.ctx h).regs.writeG i x } := by
  rw [applyPending_g he, State.ctx_mapCtx_self]

section
variable {h : Nat} {s : State} {l : List Pending}

/-- Results on `g` registers that land leave what waits in the context. -/
theorem work_foldl_applyPending (hg : ∀ p ∈ l, p.IsG) : ((l.foldl (applyPending h) s).ctx h).work = (s.ctx h).work := by
  refine List.foldlRecOn (motive := fun t : State => (t.ctx h).work = (s.ctx h).work) l _ rfl fun t ht p hp => ?_
  obtain ⟨i, x, he⟩ := hg p hp
  rw [ctx_applyPending_g he, ht]

variable (hr : Sparse.risingFrom none (s.ctx h).regs.g = true)
include hr

theorem rising_foldl_applyPending (hg : ∀ p ∈ l, p.IsG) : Sparse.risingFrom none ((l.foldl (applyPending h) s).ctx h).regs.g = true := by
  refine List.foldlRecOn (motive := fun t : State => Sparse.risingFrom none (t.ctx h).regs.g = true) l _ hr fun t ht p hp => ?_
  obtain ⟨i, x, he⟩ := hg p hp
  rw [ctx_applyPending_g he]
  exact Regs.rising_writeG ht i x

/-- A `g` register keeps its value while every result that lands on it has that value. -/
theorem readG_foldl_applyPending {r : Nat} {y : W64} (hg : ∀ p ∈ l, p.IsG) (hy : (s.ctx h).regs.readG r = y)
    (hw : ∀ p ∈ l, ∀ x, p.eff = .g r x → x = y) : ((l.foldl (applyPending h) s).ctx h).regs.readG r = y := by
  refine (List.foldlRecOn (motive := fun t : State => Sparse.risingFrom none (t.ctx h).regs.g = true ∧ (t.ctx h).regs.readG r = y) l _ ⟨hr, hy⟩
    fun t ht p hp => ?_).2
  obtain ⟨hrt, hyt⟩ := ht
  obtain ⟨i, x, he⟩ := hg p hp
  rw [ctx_applyPending_g he]
  refine ⟨Regs.rising_writeG hrt i x, ?_⟩
  rw [Regs.readG_writeG _ _ _ _ hrt]
  split
  next hi => exact hw p hp x (hi.1 ▸ he)
  next => exact hyt

/-- Of results that land in order, the last on a `g` register gives it its value. -/
theorem readG_foldl_applyPending_last {r : Nat} {q : Pending} {y : W64} (h0 : r ≠ 0) (hg : ∀ p ∈ l, p.IsG)
    (hs : l.Pairwise Pending.NotAfter) (hq : q ∈ l) (he : q.eff = .g r y)
    (hlast : ∀ p ∈ l, p ≠ q → ∀ x, p.eff = .g r x → p.due < q.due ∨ p.due = q.due ∧ p.age < q.age) :
    ((l.foldl (applyPending h) s).ctx h).regs.readG r = y := by
  obtain ⟨l₁, l₂, rfl⟩ := List.append_of_mem hq
  obtain ⟨hg₁, hgq⟩ := List.forall_mem_append.mp hg
  obtain ⟨-, hg₂⟩ := List.forall_mem_cons.mp hgq
  have hr₁ := rising_foldl_applyPending hr hg₁
  have later : ∀ p ∈ l₂, q.NotAfter p := (List.pairwise_cons.mp (List.pairwise_append.mp hs).2.1).1
  have same : ∀ p ∈ l₂, ∀ x, p.eff = .g r x → x = y := by
    intro p hp x hx
    by_cases hpq : p = q
    · rw [hpq, he] at hx
      cases hx
      rfl
    · exact absurd (hlast p (by simp [hp]) hpq x hx) (later p hp).not_strict
  rw [List.foldl_append, List.foldl_cons]
  refine readG_foldl_applyPending ?_ hg₂ ?_ same <;> rw [ctx_applyPending_g he]
  · exact Regs.rising_writeG hr₁ r y
  · rw [Regs.readG_writeG _ _ _ _ hr₁, if_pos ⟨rfl, h0⟩]

end

/-! ### What `landDue` leaves of due results on `g` registers -/

section
variable {s : State} {h : Nat} {q : Pending}

theorem mem_dueNow {c : Ctx} {p : Pending} : p ∈ dueNow c ↔ p ∈ c.work.landing ∧ p.due ≤ c.nowCount := by
  simp [dueNow, Ctx.hasCome]

theorem landDue_of_mem_dueNow (hq : q ∈ dueNow (s.ctx h)) :
    landDue h s = (sortPending (dueNow (s.ctx h))).foldl (applyPending h) (takeDue h s) := by
  have hne : ¬ (dueNow (s.ctx h)).isEmpty = true := fun he => List.ne_nil_of_mem hq (List.isEmpty_iff.mp he)
  rw [landDue_eq, if_neg hne]

theorem readG_landDue_last {r : Nat} {y : W64} (h0 : r ≠ 0) (hq : q ∈ dueNow (s.ctx h)) (he : q.eff = .g r y)
    (hlast : ∀ p ∈ dueNow (s.ctx h), p ≠ q → p.IsG ∧ ∀ x, p.eff = .g r x → p.due < q.due ∨ p.due = q.due ∧ p.age < q.age)
    (hr : Sparse.risingFrom none (s.ctx h).regs.g = true) : ((landDue h s).ctx h).regs.readG r = y := by
  have mem : ∀ p, p ∈ sortPending (dueNow (s.ctx h)) ↔ p ∈ dueNow (s.ctx h) := fun p => (sortPending_perm _).mem_iff
  have hg : ∀ p ∈ sortPending (dueNow (s.ctx h)), p.IsG := by
    intro p hp
    by_cases hpq : p = q
    · exact ⟨r, y, hpq ▸ he⟩
    · exact (hlast p ((mem p).mp hp) hpq).1
  rw [landDue_of_mem_dueNow hq]
  refine readG_foldl_applyPending_last ?_ h0 hg (pairwise_sortPending _) ((mem q).mpr hq) he fun p hp hpq => (hlast p ((mem p).mp hp) hpq).2
  rwa [takeDue, State.ctx_mapCtx_self]

/-- Where every waiting result is due and goes to a `g` register, none waits any more. -/
theorem landing_landDue_of_all_due (hq : q ∈ (s.ctx h).work.landing)
    (hall : ∀ p ∈ (s.ctx h).work.landing, p.due ≤ (s.ctx h).nowCount ∧ p.IsG) : ((landDue h s).ctx h).work.landing = [] := by
  rw [landDue_of_mem_dueNow (mem_dueNow.mpr ⟨hq, (hall q hq).1⟩), work_foldl_applyPending, takeDue, State.ctx_mapCtx_self]
  · exact List.filter_eq_nil_iff.mpr fun p hp => by simp [Ctx.hasCome, (hall p hp).1]
  · exact fun p hp => (hall p (mem_dueNow.mp ((sortPending_perm _).mem_iff.mp hp)).1).2

end

/-- Settles O11: the sorted results are in order, so that those which land after the last one on a register do not write it. -/
theorem landingsKeepOrder : Obligations.LandingsKeepOrder := by
  refine ⟨fun s h r p q x y h0 hl hp hq hpd hqd hpq hr => ?_, fun s h r q y h0 hq he hqd hlast hr => ?_,
    fun l => ⟨sortPending_perm l, pairwise_sortPending l⟩⟩
  · have mem : ∀ e, e ∈ (s.ctx h).work.landing ↔ e = p ∨ e = q := by
      rcases hl with hl | hl <;> simp [hl, or_comm]
    have hqm := (mem q).mpr (.inr rfl)
    constructor
    · refine readG_landDue_last h0 (mem_dueNow.mpr ⟨hqm, hqd⟩) hq (fun e he hne => ?_) hr
      obtain rfl := ((mem e).mp (mem_dueNow.mp he).1).resolve_right hne
      exact ⟨⟨r, x, hp⟩, fun _ _ => hpq⟩
    · refine landing_landDue_of_all_due hqm fun e he => ?_
      obtain rfl | rfl := (mem e).mp he
      · exact ⟨hpd, r, x, hp⟩
      · exact ⟨hqd, r, y, hq⟩
  · refine readG_landDue_last h0 (mem_dueNow.mpr ⟨hq, hqd⟩) he (fun p hp hne => ?_) hr
    obtain ⟨hpm, hpd⟩ := mem_dueNow.mp hp
    exact hlast p hpm hne hpd

/-! ### What stalls on a busy register (R93) -/

section
variable {s : State} {d : Reg} {srcs rs : List Reg}

theorem scalarOp_stalled (h : s.Busy (d :: srcs)) (L : Nat) (x : W64) : scalarOp d srcs L x s = .next s.stalled :=
  scalarOp_busy s d srcs L x h

/-- Under an operand check that a busy register fails, a slot stalls. -/
theorem under_readyG_stalled (h : s.Busy rs) (k : Out) : under (readyG s rs) s k = .next s.stalled := by
  rw [readyG_stall s rs h, under_stall]
  rfl

/-- Among the checks of a slot, a stall prevails over any fault. -/
theorem under_checks_stalled {cs : List Check} (h : .stall ∈ cs) (k : Out) : under (checks cs) s k = .next s.stalled := by
  rw [(checks_eq_stall cs).mpr h, under_stall]
  rfl

theorem under_checks_readyG_stalled (h : s.Busy rs) (cs : List Check) (k : Out) :
    under (checks (readyG s rs :: cs)) s k = .next s.stalled :=
  under_checks_stalled (readyG_stall s rs h ▸ List.mem_cons_self) k

theorem deliverOp_stalled (h : s.Busy (d :: srcs)) (x : W64) : deliverOp d srcs x s = .next s.stalled :=
  under_readyG_stalled h _

end

/-- `rdsr` checks its destination, whether it delivers a counter or lands another register. -/
theorem exec_rdsr_stalled {s : State} {d : Reg} (h : s.Busy [d]) (n : SysReg) : exec (.rdsr d n) s = .next s.stalled := by
  change execRdsr d n s = _
  unfold execRdsr
  split
  · exact under_readyG_stalled h _
  · exact scalarOp_stalled h _ _

/-- `wrsr` checks its source before its faults. -/
theorem exec_wrsr_stalled {s : State} {a : Reg} (h : s.Busy [a]) (n : SysReg) : exec (.wrsr a n) s = .next s.stalled := by
  change execWrsr a n s = _
  unfold execWrsr
  split <;> exact under_checks_readyG_stalled h _ _

/-- Settles O24: every operation begins with the check of its registers, which `lih` makes of its one register twice. -/
theorem busyScalarStalls : Obligations.BusyScalarStalls := by
  intro s d a b w c n m i j sh x f
  refine ⟨fun hb => ?_, fun hb => under_readyG_stalled hb _, fun hb => ?_, fun hb => ?_, fun hb => ?_⟩ <;>
    simp only [List.forall_mem_cons, List.not_mem_nil, IsEmpty.forall_iff, implies_true, and_true]
  · have lands := scalarOp_stalled hb
    have delivers := deliverOp_stalled hb
    exact ⟨lands _ _, lands _ _, lands _ _, lands _ _, delivers _, delivers _, lands _ _, lands _ _, lands _ _, lands _ _, lands _ _,
      lands _ _, lands _ _, lands _ _, lands _ _, lands _ _, lands _ _⟩
  · have lands := scalarOp_stalled hb
    exact ⟨lands _ _, lands _ _, lands _ _, lands _ _⟩
  · have lands := scalarOp_stalled hb
    have twice : s.Busy [d, d] := hb.imp fun _ he => ⟨List.mem_cons_of_mem d he.1, he.2⟩
    exact ⟨lands _ _, lands _ _, scalarOp_stalled twice _ _, lands _ _, lands _ _, lands _ _, lands _ _, exec_rdsr_stalled hb x⟩
  · exact ⟨under_readyG_stalled hb _, exec_wrsr_stalled hb x, under_checks_readyG_stalled hb _ _⟩

/-! ### What holds while an operation is untranslated (R98) -/

section
variable {s : State}

/-- An untranslated operation waits in the list, or in the replay list. -/
theorem translated98_stall (h : ¬ s.Translated) : translated98 s = .stall := by
  have hu : (s.here.work.memOps.any (fun o => !o.translated) || !s.here.work.replay.isEmpty) = true := by
    by_contra hf
    refine h ?_
    simpa using hf
  rw [translated98, hu, stallWhen_true]

theorem under_translated98_stalled (h : ¬ s.Translated) (k : Out) : under (translated98 s) s k = .next s.stalled := by
  rw [translated98_stall h, under_stall]
  rfl

end

/-- Settles O34: each of the six makes the check of R98 before it takes effect, and `park` before its fault. -/
theorem untranslatedHoldsEnds : Obligations.UntranslatedHoldsEnds := by
  intro s a b w g c hu
  have holds := under_translated98_stalled hu
  have among : ∀ c cs, Check.stall ∈ c :: translated98 s :: cs := by simp [translated98_stall hu]
  simp only [List.forall_mem_cons, List.not_mem_nil, IsEmpty.forall_iff, implies_true, and_true]
  exact ⟨under_checks_stalled (among _ _) _, holds _, holds _, holds _, under_checks_stalled (among _ _) _, holds _⟩

end Sys2Proof.Machine

/-! SUPPORT. The statements on vector memory: masked results, what window accesses and coherent vectors answer under their checks, full/empty
ranges, streams and bank holds. -/

namespace Sys2Proof.Machine

/-! ### Masked vector results (R103) -/

theorem getD_map_range {α : Type} (n i : Nat) (f : Nat → α) (d : α) (hi : i < n) : ((List.range n).map f).getD i d = f i := by
  simp [List.getD, hi]

theorem mergeLanes_getD (mask : W64) (old x : List W32) {i : Nat} (hi : i < 64) :
    (mergeLanes mask old x).getD i 0 = if mask.getLsbD i = true then x.getD i 0 else old.getD i 0 :=
  getD_map_range 64 i _ 0 hi

theorem Regs.readV_writeV (r : Regs) (p q : Nat) (mask : W64) (x : List W32) (hr : Sparse.risingFrom none r.v = true) :
    (r.writeV p mask x).readV q = if q = p then mergeLanes mask (r.readV p) x else r.readV q :=
  Sparse.get_set zeroLanes r.v p q _ hr

/-- Settles O12: the merge of the lanes takes each lane whole, and the table of registers changes at one key. -/
theorem inactiveLanesKeepOldValue : Obligations.InactiveLanesKeepOldValue := by
  intro c due age p r mask x i hr hi
  refine ⟨?_, rfl⟩
  change ((c.regs.writeV p mask x).readV r).getD i 0 = _
  rw [Regs.readV_writeV _ _ _ _ _ hr]
  by_cases hp : r = p
  · subst hp
    simp only [if_true, true_and, mergeLanes_getD _ _ _ hi]
  · simp only [hp, if_false, false_and]

/-! ### What the checks of window accesses answer -/

/-- A slot whose checks pass has its effect. -/
theorem under_effect {s : State} {c : Check} (h : c = .ok) (t : State) : under c s (effect t) = .next { t with signal := .none } := by
  rw [h]
  rfl

/-- The same where the effect has two cases. -/
theorem under_effect_then {s : State} {c : Check} {b : Bool} (h : c = .ok) (hb : b = true) (t u : State) :
    under c s (effect (if b then t else u)) = .next { t with signal := .none } := by
  rw [hb]
  exact under_effect h t

theorem under_effect_else {s : State} {c : Check} {b : Bool} (h : c = .ok) (hb : b = false) (t u : State) :
    under c s (effect (if b then t else u)) = .next { u with signal := .none } := by
  rw [hb]
  exact under_effect h u

/-- A slot one of whose checks faults, where none stalls, takes the fault. -/
theorem under_precise {s : State} {c : Check} {cls : FaultClass} {a : Nat} (h : c = .fault cls a) (k : Out) :
    under c s k = .next { takePrecise s.focusCtx s.focusSlot cls a s with signal := .fault cls a } := by
  rw [h]
  rfl

theorem outsideWindow_eq_false (c : Ctx) (p n : Nat) : outsideWindow c p n = false ↔ p % n = 0 ∧ p < 2 ^ c.winLog := by
  rw [outsideWindow, Bool.or_eq_false_iff, bne_eq_false_iff_eq, decide_eq_false_iff_not, not_le, Ctx.window]

theorem outsideWindow_eq_true (c : Ctx) (p n : Nat) : outsideWindow c p n = true ↔ ¬ (p % n = 0 ∧ p < 2 ^ c.winLog) := by
  rw [← outsideWindow_eq_false, Bool.not_eq_false]

section
variable {s : State}

theorem feqEmpty_of_queueClear (h : s.QueueClear) : feqEmpty s = .ok := by
  simpa [feqEmpty, stallWhen_ok] using h

theorem feqRoom_ok (h : s.here.work.feq.length < 4) : feqRoom s = .ok := by
  simpa [feqRoom, stallWhen_ok] using h

theorem feqRoom_stall (h : 4 ≤ s.here.work.feq.length) : feqRoom s = .stall := by
  simp [feqRoom, h]

theorem checkWord_ok {p : W64} (ha : p.toNat % 4 = 0) (hw : p.toNat < 2 ^ s.here.winLog) : checkWord s p = .ok := by
  rw [checkWord, (outsideWindow_eq_false _ _ _).mpr ⟨ha, hw⟩, faultWhen_false]

theorem checkWord_fault {p : W64} (h : ¬ (p.toNat % 4 = 0 ∧ p.toNat < 2 ^ s.here.winLog)) : checkWord s p = .fault .window p.toNat := by
  rw [checkWord, (outsideWindow_eq_true _ _ _).mpr h, faultWhen_true]

theorem checkBlock_ok {p : W64} (h : p.toNat % 256 = 0 ∧ p.toNat < 2 ^ s.here.winLog) : checkBlock s p = .ok := by
  rw [checkBlock, (outsideWindow_eq_false _ _ _).mpr h, faultWhen_false]

theorem checkBlock_fault {p : W64} (h : ¬ (p.toNat % 256 = 0 ∧ p.toNat < 2 ^ s.here.winLog)) : checkBlock s p = .fault .window p.toNat := by
  rw [checkBlock, (outsideWindow_eq_true _ _ _).mpr h, faultWhen_true]

end

/-! ### Full/empty words (R110, R304, R345) -/

section
variable {s : State} {rs : List Reg} {p : W64}

/-- The checks that `ldf` and `ste` make. -/
theorem wordEntryChecks_ok (hf : s.Free rs) (hl : s.here.work.feq.length < 4) (ha : p.toNat % 4 = 0) (hw : p.toNat < 2 ^ s.here.winLog) :
    checks [readyG s rs, feqRoom s, checkWord s p] = .ok := by
  rw [(readyG_ok s rs).mpr hf, feqRoom_ok hl, checkWord_ok ha hw]
  rfl

theorem wordEntryChecks_fault (hf : s.Free rs) (hl : s.here.work.feq.length < 4)
    (h : ¬ (p.toNat % 4 = 0 ∧ p.toNat < 2 ^ s.here.winLog)) :
    checks [readyG s rs, feqRoom s, checkWord s p] = .fault .window p.toNat := by
  rw [(readyG_ok s rs).mpr hf, feqRoom_ok hl, checkWord_fault h]
  rfl

theorem wordEntryChecks_full (hl : 4 ≤ s.here.work.feq.length) : .stall ∈ [readyG s rs, feqRoom s, checkWord s p] := by
  simp [feqRoom_stall hl]

end

/-- Settles O29: both make the same three checks, and then their entry joins the queue. -/
theorem fullEmptyWordsQueue : Obligations.FullEmptyWordsQueue := by
  intro s d a k o hf
  refine ⟨fun hl ha hw => ?_, fun hl hbad => ?_, fun hl => ?_⟩
  · have hok := wordEntryChecks_ok hf hl ha hw
    refine ⟨under_effect hok _, (under_effect hok _).trans ?_⟩
    rw [BitVec.ofNat_toNat]
    rfl
  · have hfault := wordEntryChecks_fault hf hl (by rwa [not_and_or, Nat.not_lt])
    exact ⟨under_precise hfault _, under_precise hfault _⟩
  · exact ⟨under_checks_stalled (wordEntryChecks_full hl) _, under_checks_stalled (wordEntryChecks_full hl) _⟩


/-! ### What a delivery that arrives at once leaves (R104) -/

/-- The operations that wait in a context, memory and the full/empty bits are those of another state. -/
structure State.SameQueues (h : Nat) (s t : State) : Prop where
  focus : t.focusCtx = s.focusCtx
  memOps : (t.ctx h).work.memOps = (s.ctx h).work.memOps
  delivers : (t.ctx h).work.delivers = (s.ctx h).work.delivers
  feq : (t.ctx h).work.feq = (s.ctx h).work.feq
  mem : t.store.mem = s.store.mem
  full : t.store.full = s.store.full

namespace State.SameQueues

variable {h : Nat} {s t u : State}

theorem refl : State.SameQueues h s s := ⟨rfl, rfl, rfl, rfl, rfl, rfl⟩

theorem trans (a : State.SameQueues h s t) (b : State.SameQueues h t u) : State.SameQueues h s u :=
  ⟨b.focus.trans a.focus, b.memOps.trans a.memOps, b.delivers.trans a.delivers, b.feq.trans a.feq, b.mem.trans a.mem, b.full.trans a.full⟩

theorem mapCtx {f : Ctx → Ctx} (hm : (f (s.ctx h)).work.memOps = (s.ctx h).work.memOps)
    (hd : (f (s.ctx h)).work.delivers = (s.ctx h).work.delivers) (hq : (f (s.ctx h)).work.feq = (s.ctx h).work.feq) :
    State.SameQueues h s (s.mapCtx h f) := by
  refine ⟨rfl, ?_, ?_, ?_, rfl, rfl⟩ <;> rwa [s.ctx_mapCtx_self]

theorem foldl {α : Type} {f : State → α → State} (hf : ∀ s x, State.SameQueues h s (f s x)) (l : List α) (s : State) :
    State.SameQueues h s (l.foldl f s) :=
  foldl_keeps (State.SameQueues h s) f l s refl fun t x ht => ht.trans (hf t x)

theorem mapCore (c : Nat) (f : Core → Core) : State.SameQueues h s (s.mapCore c f) := ⟨rfl, rfl, rfl, rfl, rfl, rfl⟩

/-- Taking an entry of a stream. -/
theorem takeStream (id : Nat) : State.SameQueues h s (s.mapCtx h fun c => { c with work := c.work.take id }) := mapCtx rfl rfl rfl

/-- Of the focus context. -/
theorem here (a : State.SameQueues s.focusCtx s t) :
    t.here.work.memOps = s.here.work.memOps ∧ t.here.work.delivers = s.here.work.delivers ∧ t.here.work.feq = s.here.work.feq := by
  rw [State.here, State.here, a.focus]
  exact ⟨a.memOps, a.delivers, a.feq⟩

end State.SameQueues

/-- Bytes stored in a scratchpad leave memory and the full/empty bits. -/
theorem scratchPutBytes_frame (core : Nat) (bs : List Byte) (addr : Nat) (st : Store) :
    (scratchPutBytes st core addr bs).mem = st.mem ∧ (scratchPutBytes st core addr bs).full = st.full := by
  induction bs generalizing st addr with
  | nil => exact ⟨rfl, rfl⟩
  | cons b bs ih => exact ih (addr + 1) (scratchStoreByte st core addr b)

section
variable (h : Nat) (s : State)

theorem sameQueues_engineWrite (core addr : Nat) (bs : List Byte) : State.SameQueues h s (engineWrite core addr bs s) := by
  unfold engineWrite
  split
  · obtain ⟨hm, hf⟩ := scratchPutBytes_frame core bs addr s.store
    exact ⟨rfl, rfl, rfl, rfl, hm, hf⟩
  · exact .mapCore core _

theorem sameQueues_pushEntry (id : Nat) (bytes : List (Nat × Byte)) : State.SameQueues h s (pushEntry h id bytes s) := by
  unfold pushEntry
  have hw := State.SameQueues.foldl (fun t e => sameQueues_engineWrite h t (coreOf h) e.1 [e.2]) bytes s
  generalize bytes.foldl _ s = t at hw ⊢
  exact hw.trans (.mapCtx rfl rfl rfl)

theorem sameQueues_usePort (u : PortUser) (core : Nat) (addrs : List Nat) : State.SameQueues h s (usePort u core addrs s) := by
  unfold usePort
  split
  · exact .refl
  · exact .mapCore core _

theorem sameQueues_queuePort (u : PortUser) (core : Nat) (addrs : List Nat) : State.SameQueues h s (queuePort u core addrs s) := by
  unfold queuePort
  split
  · exact .refl
  · exact .mapCore core _

theorem sameQueues_keepPush (p : Pending) : State.SameQueues h s (keepPush h p s) := .mapCtx rfl rfl rfl

theorem sameQueues_landPush (id : Nat) (lanes : List W32) (p : Pending) : State.SameQueues h s (landPush h id lanes p s) := by
  unfold landPush
  dsimp only
  split
  · exact .refl
  · split_ifs
    · exact sameQueues_keepPush h s p
    · exact (sameQueues_usePort h s ..).trans (sameQueues_pushEntry h _ id _)
    · exact (sameQueues_queuePort h s ..).trans (sameQueues_keepPush h _ p)

/-- A vector value on its way lands in its register or stream, or waits to. -/
theorem sameQueues_arrive {d : Deliver} (hd : ∀ r, d.dest ≠ .g r) : State.SameQueues h s (arrive h d s) := by
  obtain ⟨dest, age, value, load, peer, lines, counter⟩ := d
  unfold arrive
  dsimp only
  split
  · cases dest with
    | g r => exact absurd rfl (hd r)
    | v p mask =>
      have hv : State.SameQueues h s (s.mapCtx h fun c =>
          c.applyEffect (s.ctx h).nowCount age (.v p mask (value.map fun x => x.setWidth 32))) := .mapCtx rfl rfl rfl
      exact hv.trans ⟨rfl, rfl, rfl, rfl, rfl, rfl⟩
    | push id mask => exact sameQueues_landPush h s id _ _
  · exact .mapCtx rfl rfl rfl

end

/-- A vector result has no `g` register. -/
theorem Ctx.deliverV_ne_g (c : Ctx) (d : Reg) (mask : W64) (r : Nat) : c.deliverV d mask ≠ .g r := by
  unfold Ctx.deliverV
  split <;> nofun

theorem sameQueues_takeDest (s : State) (d : Reg) : State.SameQueues s.focusCtx s (takeDest d s) := by
  unfold takeDest
  split
  · exact .refl
  · exact .takeStream _

theorem sameQueues_popSources (s : State) (xs : List Reg) : State.SameQueues s.focusCtx s (popSources xs s) := by
  unfold popSources
  refine foldl_keeps (State.SameQueues s.focusCtx s) _ _ s .refl fun t id ht => ht.trans ?_
  rw [State.mapHere, ht.focus]
  exact .takeStream id

/-- A load of no lanes leaves no busy bit and no entry: what its stream has taken lands, or waits to (R104). -/
theorem sameQueues_noLanes (s : State) (d : Reg) (mask : W64) (srcs : List Reg) :
    State.SameQueues s.focusCtx s (noLanes (s.here.deliverV d mask) (takeDest d (popSources srcs s))) := by
  have hpop := sameQueues_popSources s srcs
  have htake := sameQueues_takeDest (popSources srcs s) d
  rw [hpop.focus] at htake
  have hboth := hpop.trans htake
  refine hboth.trans ?_
  rw [noLanes, hboth.focus]
  exact sameQueues_arrive _ _ fun r => s.here.deliverV_ne_g d mask r

/-- What a statement on a load of no lanes says of the state that it leaves. -/
theorem exec_noLanes {i : Instr} {s : State} {d : Reg} {mask : W64} {srcs : List Reg}
    (hx : exec i s = .next { noLanes (s.here.deliverV d mask) (takeDest d (popSources srcs s)) with signal := .none }) :
    ∃ t, exec i s = .next t ∧ t.signal = .none ∧ State.SameQueues s.focusCtx s t := by
  obtain ⟨hfocus, hmem, hdel, hfeq, hm, hf⟩ := sameQueues_noLanes s d mask srcs
  exact ⟨_, hx, rfl, hfocus, hmem, hdel, hfeq, hm, hf⟩

/-! ### Windows (R105, R354, R365, R366) -/

section
variable {s : State} {a d : Reg} {p : W64} {mask : W64}

theorem blockClear_ok (h : ∀ i ∈ activeLanes mask, fesetOver s s.focusCtx (hereAddr s p + 4 * i) 4 = false) :
    blockClear s p mask = .ok := by
  rw [blockClear, checks_eq_ok]
  simpa [blockWords, fesetClear, stallWhen_ok] using h

theorem blockClear_stall (h : ¬ ∀ i ∈ activeLanes mask, fesetOver s s.focusCtx (hereAddr s p + 4 * i) 4 = false) :
    blockClear s p mask = .stall := by
  rw [blockClear, checks_eq_stall]
  push Not at h
  obtain ⟨i, hi, hover⟩ := h
  refine List.mem_map.mpr ⟨(i, hereAddr s p + 4 * i), List.mem_map.mpr ⟨i, hi, rfl⟩, ?_⟩
  rw [fesetClear, Bool.not_eq_false _ |>.mp hover, stallWhen_true]

variable {c : Check} (hf : s.Free [a]) (hc : c = .ok) (hq : s.QueueClear)
  (hclear : ∀ i ∈ activeLanes mask, fesetOver s s.focusCtx (hereAddr s p + 4 * i) 4 = false)
include hf hc hq hclear

/-- The checks that `vld` and `vst` make, of which c is that of the vector register. -/
theorem blockChecks_eq : checks [readyG s [a], c, feqEmpty s, blockClear s p mask, checkBlock s p] = checks [checkBlock s p] := by
  rw [(readyG_ok s [a]).mpr hf, hc, feqEmpty_of_queueClear hq, blockClear_ok hclear]
  rfl

theorem blockChecks_ok (hin : p.toNat % 256 = 0 ∧ p.toNat < 2 ^ s.here.winLog) :
    checks [readyG s [a], c, feqEmpty s, blockClear s p mask, checkBlock s p] = .ok := by
  rw [blockChecks_eq hf hc hq hclear, checkBlock_ok hin]
  rfl

theorem blockChecks_fault (hout : ¬ (p.toNat % 256 = 0 ∧ p.toNat < 2 ^ s.here.winLog)) :
    checks [readyG s [a], c, feqEmpty s, blockClear s p mask, checkBlock s p] = .fault .window p.toNat := by
  rw [blockChecks_eq hf hc hq hclear, checkBlock_fault hout]
  rfl

end

section
variable {s : State} {a d : Reg} {p : W64} {c : Check} (hf : s.Free [a]) (hc : c = .ok) (hl : s.here.work.feq.length < 4)
include hf hc hl

/-- The checks that `vldf` and `vste` make. -/
theorem blockEntryChecks_ok (hin : p.toNat % 256 = 0 ∧ p.toNat < 2 ^ s.here.winLog) :
    checks [readyG s [a], c, feqRoom s, checkBlock s p] = .ok := by
  rw [(readyG_ok s [a]).mpr hf, hc, feqRoom_ok hl, checkBlock_ok hin]
  rfl

theorem blockEntryChecks_fault (hout : ¬ (p.toNat % 256 = 0 ∧ p.toNat < 2 ^ s.here.winLog)) :
    checks [readyG s [a], c, feqRoom s, checkBlock s p] = .fault .window p.toNat := by
  rw [(readyG_ok s [a]).mpr hf, hc, feqRoom_ok hl, checkBlock_fault hout]
  rfl

end

/-- A stall among the words stalls the bundle. -/
theorem stall_mem_blockChecks {s : State} {p mask : W64} {a : Reg} {c : Check}
    (h : ¬ ∀ i ∈ activeLanes mask, fesetOver s s.focusCtx (hereAddr s p + 4 * i) 4 = false) :
    .stall ∈ [readyG s [a], c, feqEmpty s, blockClear s p mask, checkBlock s p] := by
  simp [blockClear_stall h]

theorem blockWords_isEmpty {mask : W64} (s : State) (p : W64) (h : activeLanes mask = []) : (blockWords s p mask).isEmpty = true := by
  rw [blockWords, h]
  rfl

theorem blockWords_not_isEmpty {mask : W64} (s : State) (p : W64) (h : activeLanes mask ≠ []) :
    (blockWords s p mask).isEmpty = false := by
  rwa [blockWords, List.isEmpty_map, List.isEmpty_eq_false_iff]

/-- Settles O44: the checks pass, fault or stall together, and what follows them is what the statement writes out. -/
theorem vectorWindowAccesses : Obligations.VectorWindowAccesses := by
  intro s d a o m q hf
  refine ⟨fun hin hq hc hd => ?_, fun hin hq hc hd => ?_, fun hout hq hc => ⟨fun hd => ?_, fun hd => ?_⟩, fun _ hc => ⟨fun _ => ?_, fun _ => ?_⟩,
    fun hin hl hd => ⟨fun hne => ?_, fun he => ?_⟩, fun hin hl hd => ⟨fun hne => ?_, fun he => ?_⟩, fun hout hl => ⟨fun hd => ?_, fun hd => ?_⟩⟩
  · refine (under_effect (blockChecks_ok hf hd hq hc hin) _).trans ?_
    rw [observeWords, blockWords, List.map_map, List.foldl_map]
    rfl
  · refine (under_effect (blockChecks_ok hf hd hq hc hin) _).trans ?_
    rw [blockWords, List.map_map]
    rfl
  · exact under_precise (blockChecks_fault hf hd hq hc hout) _
  · exact under_precise (blockChecks_fault hf hd hq hc hout) _
  · exact under_checks_stalled (stall_mem_blockChecks hc) _
  · exact under_checks_stalled (stall_mem_blockChecks hc) _
  · exact under_effect_else (blockEntryChecks_ok hf hd hl hin) (blockWords_not_isEmpty s _ hne) _ _
  · obtain ⟨t, hx, hsig, hsame⟩ := exec_noLanes (i := .vldf d a o m q) (d := d) (mask := srcM s m) (srcs := [])
      (under_effect_then (blockEntryChecks_ok hf hd hl hin) (blockWords_isEmpty s _ he) _ _)
    obtain ⟨-, hdelivers, hfeq⟩ := hsame.here
    exact ⟨t, hx, hsig, hfeq, hdelivers, hsame.mem, hsame.full⟩
  · refine (under_effect_else (blockEntryChecks_ok hf hd hl hin) (blockWords_not_isEmpty s _ hne) _ _).trans ?_
    rw [blockWords, List.map_map]
    rfl
  · exact under_effect_then (blockEntryChecks_ok hf hd hl hin) (blockWords_isEmpty s _ he) _ _
  · exact under_precise (blockEntryChecks_fault hf hd hl hout) _
  · exact under_precise (blockEntryChecks_fault hf hd hl hout) _


/-! ### Coherent vectors (R97, R104, R355) -/

/-- Checks that pass decide nothing. -/
theorem checks_append_ok {cs : List Check} (h : ∀ c ∈ cs, c = .ok) (ds : List Check) : checks (cs ++ ds) = checks ds := by
  induction cs with
  | nil => rfl
  | cons c cs ih =>
    obtain ⟨hc, hcs⟩ := List.forall_mem_cons.mp h
    rw [List.cons_append, hc, checks_ok, ih hcs]

/-- The items of the active lanes, by the address and the word of each lane. -/
def laneItems (mask : W64) (at' : Nat → W64) (x : Nat → W32) : List Item :=
  (activeLanes mask).map fun j => { lane := j, va := at' j, data := BitVec.ofNat 64 (x j).toNat }

theorem rowItems_eq (base mask : W64) (x : List W32) :
    rowItems base mask x = laneItems mask (fun j => base + BitVec.ofNat 64 (4 * j)) fun j => x.getD j 0 := by
  simp only [rowItems, laneItems, BitVec.ofNat_toNat]

theorem indexedItems_eq (base mask : W64) (idx x : List W32) :
    indexedItems base idx mask x = laneItems mask (fun j => base + BitVec.ofNat 64 (idx.getD j 0).toNat) fun j => x.getD j 0 := by
  simp only [indexedItems, laneItems, BitVec.ofNat_toNat]

section
variable {mask : W64} {at' : Nat → W64} {x : Nat → W32}

theorem linesOf_laneItems : linesOf (laneItems mask at' x) = ((activeLanes mask).map fun j => (at' j).toNat / 64).dedup := by
  rw [linesOf, laneItems, List.map_map]
  rfl

theorem laneItems_isEmpty (h : activeLanes mask = []) : (laneItems mask at' x).isEmpty = true := by
  rw [laneItems, h]
  rfl

theorem laneItems_not_isEmpty (h : activeLanes mask ≠ []) : (laneItems mask at' x).isEmpty = false := by
  rwa [laneItems, List.isEmpty_map, List.isEmpty_eq_false_iff]

theorem misaligned_ok (h : ∀ j ∈ activeLanes mask, (at' j).toNat % 4 = 0) : misaligned (laneItems mask at' x) = .ok := by
  have hnone : (laneItems mask at' x).find? (fun x => x.va.toNat % 4 != 0) = none := by
    rw [List.find?_eq_none, laneItems, List.forall_mem_map]
    simpa using h
  rw [misaligned, hnone]

/-- Lanes are active in ascending order. -/
theorem activeLanes_ascending (mask : W64) : (activeLanes mask).Pairwise (· < ·) := List.pairwise_lt_range.filter _

/-- The first misaligned lane is the one that is reported (R355). -/
theorem misaligned_fault {j : Nat} (hj : j ∈ activeLanes mask) (hfirst : ∀ l ∈ activeLanes mask, l < j → (at' l).toNat % 4 = 0)
    (hbad : (at' j).toNat % 4 ≠ 0) : misaligned (laneItems mask at' x) = .fault .badValue (at' j).toNat := by
  obtain ⟨before, after, hsplit⟩ := List.append_of_mem hj
  have hless : ∀ l ∈ before, l < j := by
    have hasc := activeLanes_ascending mask
    rw [hsplit, List.pairwise_append] at hasc
    exact fun l hl => hasc.2.2 l hl j List.mem_cons_self
  have hfind : (laneItems mask at' x).find? (fun x => x.va.toNat % 4 != 0) =
      some { lane := j, va := at' j, data := BitVec.ofNat 64 (x j).toNat } := by
    rw [List.find?_eq_some_iff_append]
    refine ⟨bne_iff_ne.mpr hbad, _, _, by rw [laneItems, hsplit, List.map_append, List.map_cons], ?_⟩
    rw [List.forall_mem_map]
    intro l hl
    simpa using hfirst l (hsplit ▸ List.mem_append_left _ hl) (hless l hl)
  rw [misaligned, hfind]

end

/-! ### What an access captures (R97) -/

/-- What a memory operation captures of the state at its issue, beside the context's own work, is that of another state. -/
structure State.SameIssue (s t : State) : Prop where
  focusCtx : t.focusCtx = s.focusCtx
  focusSlot : t.focusSlot = s.focusSlot
  core : ∀ c, t.core c = s.core c
  retired : t.here.retired = s.here.retired
  pc : t.here.pc = s.here.pc

namespace State.SameIssue

theorem refl (s : State) : s.SameIssue s := ⟨rfl, rfl, fun _ => rfl, rfl, rfl⟩

theorem trans {s t u : State} (a : s.SameIssue t) (b : t.SameIssue u) : s.SameIssue u :=
  ⟨b.focusCtx.trans a.focusCtx, b.focusSlot.trans a.focusSlot, fun c => (b.core c).trans (a.core c), b.retired.trans a.retired, b.pc.trans a.pc⟩

theorem mapWork (s : State) (f : Work → Work) : s.SameIssue (s.mapHere fun c => { c with work := f c.work }) := by
  refine ⟨rfl, rfl, fun _ => rfl, ?_, ?_⟩ <;> rw [s.here_mapHere]

end State.SameIssue

theorem sameIssue_takeDest (d : Reg) (s : State) : s.SameIssue (takeDest d s) := by
  unfold takeDest
  split
  · exact .refl s
  · exact .mapWork s fun w => w.take _

theorem sameIssue_popSources (xs : List Reg) (s : State) : s.SameIssue (popSources xs s) := by
  unfold popSources
  exact foldl_keeps s.SameIssue _ _ s (.refl s) fun t id ht => ht.trans (.mapWork t fun w => w.take id)

theorem State.mapHere_congr {s : State} {f g : Ctx → Ctx} (h : f s.here = g s.here) : s.mapHere f = s.mapHere g := by
  change s.setCtx s.focusCtx (f s.here) = s.setCtx s.focusCtx (g s.here)
  rw [h]

/-- The operation that a coherent vector access enters, with what it captures of a state. -/
def coherentOp (s : State) (kind : MemKind) (dest : Option DeliverTo) (pol : Policy) (perLane : Bool) (items : List Item) : MemOp :=
  { kind := kind, dest := dest, width := 4, policy := pol, perLane := perLane, items := items, seq := 2 * s.here.retired, age := s.age,
    cycle := (s.core (s.focusCtx / 4)).cycles, slot := s.focusSlot, pc := s.here.pc.toNat, translated := false, accesses := [], got := [],
    sent := false }

/-- An operation joins those of its context. -/
def addMemOp (x : MemOp) (s : State) : State := s.mapHere fun c => { c with work := { c.work with memOps := c.work.memOps ++ [x] } }

theorem issueMem_eq {s t : State} (h : s.SameIssue t) (kind : MemKind) (dest : Option DeliverTo) (pol : Policy) (perLane : Bool)
    (items : List Item) : issueMem kind dest 4 pol perLane items t = addMemOp (coherentOp s kind dest pol perLane items) t := by
  refine State.mapHere_congr ?_
  simp only [coherentOp, State.seqMem, State.age, coreOf, h.focusCtx, h.focusSlot, h.core, h.retired, h.pc]

section
variable {s : State} {d : Reg} {mask : W64} {pol : Policy} {per : Bool} {at' : Nat → W64} {x : Nat → W32} {more : List Check} {srcs : List Reg}
  (hmore : ∀ c ∈ more, c = .ok)

section
variable (hroom : memLimit s ((activeLanes mask).map fun j => (at' j).toNat / 64).dedup.length = .ok)
include hmore hroom

/-- The checks of a coherent access, the first of which pass, by what its addresses answer. -/
theorem laneChecks_eq : checks (more ++ [misaligned (laneItems mask at' x), memLimit s (linesOf (laneItems mask at' x)).length]) =
    misaligned (laneItems mask at' x) := by
  rw [checks_append_ok hmore, linesOf_laneItems, hroom]
  cases misaligned (laneItems mask at' x) <;> rfl

end

variable (hd : s.here.checkDestV d = .ok)

theorem loadLanes_eq (items : List Item) : loadLanes d mask pol per items more srcs s =
    under (checks ((s.here.checkDestV d :: more) ++ [misaligned items, memLimit s (linesOf items).length])) s
      (effect (if items.isEmpty then noLanes (s.here.deliverV d mask) (takeDest d (popSources srcs s))
        else issueMem .load (some (s.here.deliverV d mask)) 4 pol per items (takeDest d (popSources srcs s)))) := rfl

theorem storeLanes_eq (items : List Item) : storeLanes pol per items more srcs s =
    under (checks (more ++ [misaligned items, memLimit s (linesOf items).length])) s
      (effect (if items.isEmpty then popSources srcs s else issueMem .store none 4 pol per items (popSources srcs s))) := rfl

section
variable (hroom : memLimit s ((activeLanes mask).map fun j => (at' j).toNat / 64).dedup.length = .ok)
include hmore hroom

theorem storeLanes_issues (hal : ∀ j ∈ activeLanes mask, (at' j).toNat % 4 = 0) (hne : activeLanes mask ≠ []) :
    storeLanes pol per (laneItems mask at' x) more srcs s =
      .next (s.popsThen srcs (addMemOp (coherentOp s .store none pol per (laneItems mask at' x)))) := by
  rw [storeLanes_eq, issueMem_eq (sameIssue_popSources srcs s)]
  exact under_effect_else ((laneChecks_eq hmore hroom).trans (misaligned_ok hal)) (laneItems_not_isEmpty hne) _ _

theorem storeLanes_fault {j : Nat} (hj : j ∈ activeLanes mask) (hfirst : ∀ l ∈ activeLanes mask, l < j → (at' l).toNat % 4 = 0)
    (hbad : (at' j).toNat % 4 ≠ 0) : storeLanes pol per (laneItems mask at' x) more srcs s =
      .next { takePrecise s.focusCtx s.focusSlot .badValue (at' j).toNat s with signal := .fault .badValue (at' j).toNat } :=
  under_precise ((laneChecks_eq hmore hroom).trans (misaligned_fault hj hfirst hbad)) _

include hd

theorem loadLanes_issues (hal : ∀ j ∈ activeLanes mask, (at' j).toNat % 4 = 0) (hne : activeLanes mask ≠ []) :
    loadLanes d mask pol per (laneItems mask at' x) more srcs s = .next (s.popsThen srcs fun u =>
      addMemOp (coherentOp s .load (some (s.here.deliverV d mask)) pol per (laneItems mask at' x)) (takeDest d u)) := by
  have hchecks := laneChecks_eq (x := x) (List.forall_mem_cons.mpr ⟨hd, hmore⟩) hroom
  rw [loadLanes_eq, issueMem_eq ((sameIssue_popSources srcs s).trans (sameIssue_takeDest d _))]
  exact under_effect_else (hchecks.trans (misaligned_ok hal)) (laneItems_not_isEmpty hne) _ _

theorem loadLanes_fault {j : Nat} (hj : j ∈ activeLanes mask) (hfirst : ∀ l ∈ activeLanes mask, l < j → (at' l).toNat % 4 = 0)
    (hbad : (at' j).toNat % 4 ≠ 0) : loadLanes d mask pol per (laneItems mask at' x) more srcs s =
      .next { takePrecise s.focusCtx s.focusSlot .badValue (at' j).toNat s with signal := .fault .badValue (at' j).toNat } :=
  under_precise ((laneChecks_eq (List.forall_mem_cons.mpr ⟨hd, hmore⟩) hroom).trans (misaligned_fault hj hfirst hbad)) _

end

section
variable (he : activeLanes mask = []) (hroom : memLimit s 0 = .ok)
include hmore he hroom

/-- With no active lane there is no line and no address to check. -/
theorem noLaneChecks : checks (more ++ [misaligned (laneItems mask at' x), memLimit s (linesOf (laneItems mask at' x)).length]) = .ok := by
  rw [laneChecks_eq hmore (by rw [he]; exact hroom)]
  exact misaligned_ok fun j hj => absurd hj (by rw [he]; exact List.not_mem_nil)

theorem storeLanes_none : storeLanes pol per (laneItems mask at' x) more srcs s = .next (s.popsThen srcs id) :=
  under_effect_then (noLaneChecks hmore he hroom) (laneItems_isEmpty he) _ _

include hd

theorem loadLanes_none : loadLanes d mask pol per (laneItems mask at' x) more srcs s =
    .next { noLanes (s.here.deliverV d mask) (takeDest d (popSources srcs s)) with signal := .none } :=
  under_effect_then (noLaneChecks (List.forall_mem_cons.mpr ⟨hd, hmore⟩) he hroom) (laneItems_isEmpty he) _ _

end

end

section
variable (s : State) (d a i : Reg) (o : BitVec 9) (m : Reg3) (p : Policy)

/-- The address of a lane of `vldm` and `vstm` (R367). -/
def rowAddr (j : Nat) : W64 := srcG s a + BitVec.ofInt 64 (o.toInt * 256) + BitVec.ofNat 64 (4 * j)

/-- The address of a lane of `vgath` and `vscat` (R364). -/
def indexAddr (j : Nat) : W64 := srcG s a + BitVec.ofNat 64 ((s.here.readSrcV i).getD j 0).toNat

theorem exec_vldm : exec (.vldm d a o m p) s =
    loadLanes d (srcM s m) p false (laneItems (srcM s m) (rowAddr s a o) fun _ => 0) [readyG s [a]] [] s := by
  change loadLanes _ _ _ _ (rowItems _ _ _) _ _ s = _
  rw [rowItems_eq]
  rfl

theorem exec_vstm : exec (.vstm d a o m p) s =
    storeLanes p false (laneItems (srcM s m) (rowAddr s a o) fun j => (s.here.readSrcV d).getD j 0) [readyG s [a], s.here.checkSrcV d] [d] s := by
  change storeLanes _ _ (rowItems _ _ _) _ _ s = _
  rw [rowItems_eq]
  rfl

theorem exec_vgath : exec (.vgath d a i m p) s =
    loadLanes d (srcM s m) p true (laneItems (srcM s m) (indexAddr s a i) fun _ => 0) [readyG s [a], s.here.checkSrcV i] [i] s := by
  change loadLanes _ _ _ _ (indexedItems _ _ _ _) _ _ s = _
  rw [indexedItems_eq]
  rfl

theorem exec_vscat : exec (.vscat d a i m p) s =
    storeLanes p true (laneItems (srcM s m) (indexAddr s a i) fun j => (s.here.readSrcV d).getD j 0)
      [readyG s [a], s.here.checkSrcV d, s.here.checkSrcV i] [d, i] s := by
  change storeLanes _ _ (indexedItems _ _ _ _) _ _ s = _
  rw [indexedItems_eq]
  rfl

end

/-- Settles O45: the four are one load and one store of the items of the active lanes. -/
theorem vectorCoherentAccesses : Obligations.VectorCoherentAccesses := by
  intro s d a i o m p hf
  have hr := (readyG_ok s [a]).mpr hf
  refine ⟨fun hal hroom hne => ⟨fun hd => ?_, fun hd => ?_⟩, fun hal hroom hne hi => ⟨fun hd => ?_, fun hd => ?_⟩,
    fun he hroom hd => ⟨?_, fun hi => ?_⟩, fun he hroom hd hi => ?_, fun j hj hfirst hbad hroom => ⟨fun hd => ?_, fun hd => ?_⟩⟩
  · exact (exec_vldm s d a o m p).trans (loadLanes_issues (by simp [hr]) hd hroom hal hne)
  · exact (exec_vstm s d a o m p).trans (storeLanes_issues (by simp [hr, hd]) hroom hal hne)
  · exact (exec_vgath s d a i m p).trans (loadLanes_issues (by simp [hr, hi]) hd hroom hal hne)
  · exact (exec_vscat s d a i m p).trans (storeLanes_issues (by simp [hr, hd, hi]) hroom hal hne)
  · exact (exec_vstm s d a o m p).trans (storeLanes_none (by simp [hr, hd]) he hroom)
  · exact (exec_vscat s d a i m p).trans (storeLanes_none (by simp [hr, hd, hi]) he hroom)
  · have left : ∀ e, (∃ t, exec e s = .next t ∧ t.signal = .none ∧ State.SameQueues s.focusCtx s t) →
        ∃ t, exec e s = .next t ∧ t.signal = .none ∧ t.here.work.memOps = s.here.work.memOps ∧
          t.here.work.delivers = s.here.work.delivers ∧ t.store.mem = s.store.mem ∧ t.store.full = s.store.full := by
      rintro e ⟨t, hx, hsig, hsame⟩
      obtain ⟨hops, hdelivers, -⟩ := hsame.here
      exact ⟨t, hx, hsig, hops, hdelivers, hsame.mem, hsame.full⟩
    simp only [List.forall_mem_cons, List.not_mem_nil, IsEmpty.forall_iff, implies_true, and_true]
    exact ⟨left _ (exec_noLanes ((exec_vldm s d a o m p).trans (loadLanes_none (by simp [hr]) hd he hroom))),
      left _ (exec_noLanes ((exec_vgath s d a i m p).trans (loadLanes_none (by simp [hr, hi]) hd he hroom)))⟩
  · exact (exec_vldm s d a o m p).trans (loadLanes_fault (by simp [hr]) hd hroom hj hfirst hbad)
  · exact (exec_vstm s d a o m p).trans (storeLanes_fault (by simp [hr, hd]) hroom hj hfirst hbad)

/-! ### Full/empty ranges (R112, R296) -/

/-- Keys of words of a core name the core and the word. -/
theorem scratchKey_inj {c c' x x' : Nat} (hx : x < 2 ^ 21) (hx' : x' < 2 ^ 21) :
    scratchKey c x = scratchKey c' x' ↔ c = c' ∧ x / 4 = x' / 4 := by
  simp only [scratchKey, coreWords]
  omega

theorem isFull_setFull {st : Store} (hr : Sparse.risingFrom none st.full = true) (core addr : Nat) (b : Bool) (c x : Nat) :
    isFull (setFull st core addr b) c x = if scratchKey c x = scratchKey core addr then b else isFull st c x :=
  Sparse.get_set false st.full _ _ b hr

theorem setFullRange_succ (st : Store) (core addr n : Nat) (b : Bool) : setFullRange st core addr (n + 1) b =
    { setFull (setFullRange st core addr n b) core (addr + 4 * n) b with
      marks := (setFullRange st core addr n b).marks.filter (· != markOf (scratchKey core (addr + 4 * n))) } := by
  rw [setFullRange, List.range_succ, List.foldl_append]
  rfl

theorem setFullRange_frame (st : Store) (core addr n : Nat) (b : Bool) :
    (setFullRange st core addr n b).mem = st.mem ∧ (setFullRange st core addr n b).scratch = st.scratch := by
  induction n with
  | zero => exact ⟨rfl, rfl⟩
  | succ n ih => rw [setFullRange_succ]; exact ih

theorem rising_setFullRange {st : Store} (hr : Sparse.risingFrom none st.full = true) (core addr n : Nat) (b : Bool) :
    Sparse.risingFrom none (setFullRange st core addr n b).full = true := by
  induction n with
  | zero => exact hr
  | succ n ih => rw [setFullRange_succ]; exact Sparse.rising_set _ _ _ _ ih

/-- The bits of the words of a range are set, and no other one (R112). -/
theorem isFull_setFullRange {st : Store} (hr : Sparse.risingFrom none st.full = true) {core addr n : Nat} (b : Bool)
    (hn : addr + 4 * n ≤ 2 ^ 21) (c : Nat) {x : Nat} (hx : x < 2 ^ 21) : isFull (setFullRange st core addr n b) c x =
      if c = core ∧ addr / 4 ≤ x / 4 ∧ x / 4 < addr / 4 + n then b else isFull st c x := by
  induction n with
  | zero => rw [if_neg (by omega)]; rfl
  | succ n ih =>
    have hlast : isFull (setFullRange st core addr (n + 1) b) c x =
        if scratchKey c x = scratchKey core (addr + 4 * n) then b else isFull (setFullRange st core addr n b) c x := by
      rw [setFullRange_succ]
      exact isFull_setFull (rising_setFullRange hr core addr n b) core _ b c x
    rw [hlast, ih (by omega)]
    simp only [scratchKey_inj hx (show addr + 4 * n < 2 ^ 21 by omega)]
    by_cases hc : c = core ∧ x / 4 = (addr + 4 * n) / 4
    · rw [if_pos hc, if_pos (by omega)]
    · rw [if_neg hc]
      congr 1
      simp only [eq_iff_iff]
      omega

section
variable {s : State} {rs : List Reg} {lo n : Nat}

theorem fesetClear_ok (h : fesetOver s s.focusCtx lo n = false) : fesetClear s lo n = .ok := by rw [fesetClear, h, stallWhen_false]

theorem fesetClear_stall (h : ¬ fesetOver s s.focusCtx lo n = false) : fesetClear s lo n = .stall := by
  rw [fesetClear, Bool.not_eq_false _ |>.mp h, stallWhen_true]

/-- The checks of `feset` before that of its words. -/
theorem fesetChecks_eq (hf : s.Free rs) (hq : s.QueueClear) (hc : fesetOver s s.focusCtx lo n = false) (c : Check) :
    checks [readyG s rs, feqEmpty s, fesetClear s lo n, c] = checks [c] := by
  rw [(readyG_ok s rs).mpr hf, feqEmpty_of_queueClear hq, fesetClear_ok hc]
  rfl

theorem stall_mem_fesetChecks (h : ¬ fesetOver s s.focusCtx lo n = false) (c : Check) :
    .stall ∈ [readyG s rs, feqEmpty s, fesetClear s lo n, c] := by
  simp [fesetClear_stall h]

end

/-- The words that `feset` may not set: misaligned, or some beyond the window. -/
def fesetBad (s : State) (p n : Nat) : Bool := p % 4 != 0 || (n != 0 && decide (s.here.window < p + 4 * n))

theorem fesetBad_iff (s : State) (p n : Nat) : fesetBad s p n = true ↔ p % 4 ≠ 0 ∨ n ≠ 0 ∧ 2 ^ s.here.winLog < p + 4 * n := by
  simp only [fesetBad, Bool.or_eq_true, Bool.and_eq_true, bne_iff_ne, decide_eq_true_eq]
  rfl

/-- What `feset` does to n words: their bits change, and its steps are to come (R112). -/
def fesetTaken (core addr n : Nat) (f : Bool) (s : State) : State :=
  (s.mapStore fun st => setFullRange st core addr n f).mapHere fun c =>
    { c with work := { c.work with feset := some { addr := addr, words := n, done := 0, full := f } } }

theorem regs_fesetTaken (core addr n : Nat) (f : Bool) (s : State) (h : Nat) : ((fesetTaken core addr n f s).ctx h).regs = (s.ctx h).regs := by
  rw [fesetTaken, State.ctx_mapHere]
  split
  · subst_vars; rfl
  · rfl

theorem feset_fesetTaken (core addr n : Nat) (f : Bool) (s : State) :
    (fesetTaken core addr n f s).here.work.feset = some { addr := addr, words := n, done := 0, full := f } := by
  rw [fesetTaken, State.here_mapHere]

theorem exec_feset (d a : Reg) (f : Bool) (s : State) : exec (.feset d a f) s =
    under (checks [readyG s [d, a], feqEmpty s, fesetClear s (hereAddr s (srcG s a)) (4 * (srcG s d).toNat),
        faultWhen (fesetBad s (srcG s a).toNat (srcG s d).toNat) .window (srcG s a).toNat]) s
      (effect (if (srcG s d).toNat = 0 then s
        else fesetTaken (coreOf s.focusCtx) (hereAddr s (srcG s a)) (srcG s d).toNat f s)) := rfl

section
variable {s : State} {d a : Reg} (hf : s.Free [d, a]) (hq : s.QueueClear)
  (hc : fesetOver s s.focusCtx (hereAddr s (srcG s a)) (4 * (srcG s d).toNat) = false)
include hf hq hc

theorem exec_feset_good (hg : fesetBad s (srcG s a).toNat (srcG s d).toNat = false) (f : Bool) : exec (.feset d a f) s =
    effect (if (srcG s d).toNat = 0 then s else fesetTaken (coreOf s.focusCtx) (hereAddr s (srcG s a)) (srcG s d).toNat f s) := by
  rw [exec_feset, fesetChecks_eq hf hq hc, hg]
  rfl

theorem exec_feset_bad (hb : fesetBad s (srcG s a).toNat (srcG s d).toNat = true) (f : Bool) :
    TakesPrecise (.feset d a f) s .window (srcG s a).toNat := by
  rw [TakesPrecise, exec_feset, fesetChecks_eq hf hq hc, hb]
  rfl

end

/-! ### Streams (R114, R337, R341) -/

theorem nameReady_stall {c : Ctx} {x : Reg} (h : ¬ c.nameReady x = .ok) : c.nameReady x = .stall := by
  unfold Ctx.nameReady at h ⊢
  split at h <;> exact if_pos (by_contra fun hb => h (if_neg hb))

/-- The walk that a stream may not have: another kind than a window walk, elements of more than 8 bytes, a misaligned start (R114). -/
def sbindBad (w0 : W64) (start : W32) : Bool :=
  let esize := (w0.extractLsb' 4 3).toNat
  w0.extractLsb' 0 4 != 1 || decide (3 < esize) || start.toNat % 2 ^ esize != 0

theorem sbindBad_eq_false (w0 : W64) (start : W32) : sbindBad w0 start = false ↔
    (w0.toNat % 16 = 1 ∧ w0.toNat / 16 % 8 ≤ 3) ∧ start.toNat % 2 ^ (w0.toNat / 16 % 8) = 0 := by
  have hkind : w0.extractLsb' 0 4 = 1 ↔ w0.toNat % 16 = 1 := by
    rw [← BitVec.toNat_inj, BitVec.extractLsb'_toNat, Nat.shiftRight_zero]
    rfl
  have hsize : (w0.extractLsb' 4 3).toNat = w0.toNat / 16 % 8 := by
    rw [BitVec.extractLsb'_toNat, Nat.shiftRight_eq_div_pow]
  simp only [sbindBad, hsize, Bool.or_eq_false_iff, bne_eq_false_iff_eq, decide_eq_false_iff_not, not_lt, hkind]

/-- The stream that `sbind` binds, with the walk that it captures. -/
def boundStream (s : State) (w : Bool) (n : Nat) : Stream :=
  { id := s.here.work.nextStream, writes := w, w0 := s.here.regs.walk n 0, w1 := s.here.regs.walk n 1, w2 := s.here.regs.walk n 2,
    start := (s.here.regs.walk n 3).setWidth 32, taken := 0, written := 0, words := [] }

theorem exec_sbind (d : Reg) (w : Bool) (n : Reg4) (s : State) : exec (.sbind d w n) s =
    under (checks [s.here.nameReady d, faultWhen (sbindBad (s.here.regs.walk n.toNat 0) ((s.here.regs.walk n.toNat 3).setWidth 32)) .stream 0]) s
      (effect (land 1 (.bind d.toNat (boundStream s w n.toNat))
        (s.mapHere fun c => { c with work := { c.work with nextStream := c.work.nextStream + 1 } }))) := rfl

/-! ### Bank holds (R120, R300) -/

/-- The banks that `hold` names, as banks of the core. -/
def heldBanks (s : State) (names : List Nat) : List Nat := (names.map fun j => s.here.base / 65536 + j).dedup

theorem heldByOther_iff (s : State) (h b : Nat) : heldByOther s h (65536 * b) = true ↔
    ∃ e ∈ s.ctxs, e.1 / 4 = h / 4 ∧ e.1 ≠ h ∧ ∃ x, e.2.work.openHold = some x ∧ b ∈ x.banks := by
  simp [heldByOther, heldWhere, coreOf, and_assoc, Option.any_eq_true]

theorem any_heldByOther_iff (s : State) (h : Nat) (banks : List Nat) : (banks.any fun b => heldByOther s h (65536 * b)) = true ↔
    ∃ e ∈ s.ctxs, e.1 / 4 = h / 4 ∧ e.1 ≠ h ∧ ∃ x, e.2.work.openHold = some x ∧ ∃ y ∈ x.banks, y ∈ banks := by
  simp only [List.any_eq_true, heldByOther_iff]
  constructor
  · rintro ⟨b, hb, e, he, hcore, hne, x, hx, hmem⟩
    exact ⟨e, he, hcore, hne, x, hx, b, hmem, hb⟩
  · rintro ⟨e, he, hcore, hne, x, hx, b, hmem, hb⟩
    exact ⟨b, hb, e, he, hcore, hne, x, hx, hmem⟩

/-- The window that `hold` opens (R120). -/
def holdOpened (s : State) (names : List Nat) (left : Nat) : State := s.mapHere fun x => { x with work := { x.work with
  hold := some { banks := heldBanks s names, left := left, cycles := 0, entries := 2 * x.retired + 2 } } }

section
variable {s : State} {names : List Nat}

theorem holdCheck_ok (h : ∀ j ∈ names, j < s.here.banks) : faultWhen (names.any fun j => decide (s.here.banks ≤ j)) .window 0 = .ok := by
  rw [faultWhen_ok]
  simpa using h

theorem holdCheck_fault (h : ∃ j ∈ names, s.here.banks ≤ j) :
    faultWhen (names.any fun j => decide (s.here.banks ≤ j)) .window 0 = .fault .window 0 := by
  have hany : (names.any fun j => decide (s.here.banks ≤ j)) = true := by simpa using h
  rw [hany, faultWhen_true]

variable {b1 b2 b3 b4 : BitVec 5} (h : names = [b1, b2, b3, b4].map BitVec.toNat)
include h

theorem exec_hold (k : BitVec 4) : exec (.hold b1 b2 b3 b4 k) s =
    under (faultWhen (names.any fun j => decide (s.here.banks ≤ j)) .window 0) s
      (stallOr ((heldBanks s names).any fun b => heldByOther s s.focusCtx (65536 * b)) s (effect (holdOpened s names k.toNat))) := by
  rw [h]
  rfl

theorem exec_hold_outside (hout : ∃ j ∈ names, s.here.banks ≤ j) (k : BitVec 4) : TakesPrecise (.hold b1 b2 b3 b4 k) s .window 0 := by
  rw [TakesPrecise, exec_hold h, holdCheck_fault hout]
  rfl

variable (hin : ∀ j ∈ names, j < s.here.banks)
include hin

theorem exec_hold_opens (hfree : ¬ ∃ e ∈ s.ctxs, e.1 / 4 = s.focusCtx / 4 ∧ e.1 ≠ s.focusCtx ∧
    ∃ x, e.2.work.openHold = some x ∧ ∃ y ∈ x.banks, y ∈ heldBanks s names) (k : BitVec 4) :
    exec (.hold b1 b2 b3 b4 k) s = .next { holdOpened s names k.toNat with signal := .none } := by
  rw [exec_hold h, holdCheck_ok hin, under_ok, Bool.not_eq_true _ |>.mp (mt (any_heldByOther_iff ..).mp hfree)]
  rfl

theorem exec_hold_stalls (hforeign : ∃ e ∈ s.ctxs, e.1 / 4 = s.focusCtx / 4 ∧ e.1 ≠ s.focusCtx ∧
    ∃ x, e.2.work.openHold = some x ∧ ∃ y ∈ x.banks, y ∈ heldBanks s names) (k : BitVec 4) :
    exec (.hold b1 b2 b3 b4 k) s = .next s.stalled := by
  rw [exec_hold h, holdCheck_ok hin, under_ok, (any_heldByOther_iff ..).mpr hforeign]
  rfl

end

/-- Settles O46: `feset` by its range, the streams by their two checks, `hold` by the banks that other contexts hold. -/
theorem fesetStreamsHolds : Obligations.FesetStreamsHolds := by
  intro s d a f w n b1 b2 b3 b4 k
  refine ⟨fun hf hq hc ha h0 => ?_, fun hf hq hc ha h0 hw => ?_, fun hf hq hc => ?_, fun hf hq hc hbad => ?_, fun hn hg => ?_, fun hn hg => ?_,
    fun hn => ?_, fun hn => ⟨?_, ?_⟩, fun hin hfree => ?_, fun hin hforeign => ?_, fun hout => ?_⟩
  · have hgood : fesetBad s (srcG s a).toNat (srcG s d).toNat = false := by
      rw [← Bool.not_eq_true, fesetBad_iff]
      exact fun hb => hb.elim (· ha) fun hb => hb.1 h0
    rw [exec_feset_good hf hq hc hgood, if_pos h0]
    rfl
  · have hgood : fesetBad s (srcG s a).toNat (srcG s d).toNat = false := by
      rw [← Bool.not_eq_true, fesetBad_iff]
      exact fun hb => hb.elim (· ha) fun hb => absurd hw (not_le.mpr hb.2)
    rw [exec_feset_good hf hq hc hgood, if_neg h0]
    obtain ⟨hmem, hscratch⟩ := setFullRange_frame s.store (coreOf s.focusCtx) (hereAddr s (srcG s a)) (srcG s d).toNat f
    exact ⟨_, rfl, rfl, hmem, hscratch, ⟨regs_fesetTaken _ _ _ f s, rfl⟩, fun hr hn c x hx => isFull_setFullRange hr f hn c hx,
      feset_fesetTaken _ _ _ f s⟩
  · exact under_checks_stalled (stall_mem_fesetChecks hc _) _
  · exact exec_feset_bad hf hq hc ((fesetBad_iff ..).mpr hbad) f
  · rw [exec_sbind, hn, (sbindBad_eq_false ..).mpr hg]
    rfl
  · rw [TakesPrecise, exec_sbind, hn, Bool.not_eq_false _ |>.mp (mt (sbindBad_eq_false ..).mp hg)]
    rfl
  · change under (s.here.nameReady d) s _ = _
    rw [hn]
    rfl
  · rw [exec_sbind, nameReady_stall hn]
    rfl
  · change under (s.here.nameReady d) s _ = _
    rw [nameReady_stall hn]
    rfl
  · exact exec_hold_opens rfl hin hfree k
  · exact exec_hold_stalls rfl hin hforeign k
  · exact exec_hold_outside rfl hout k

end Sys2Proof.Machine

/-! SUPPORT. The statement on stores, part 1: bytes and words of a line and of memory. -/

namespace Sys2Proof.Machine

/-! ### Bits of lines -/

/-- A fold over a range whose steps each touch what stands at their own index: what stands at k is what the step of k makes of it. -/
theorem foldl_range_at {α β : Type} (P : β → Prop) (read : β → α) (new : α → α) {f : β → Nat → β} {n k : Nat} {b : β} (hb : P b)
    (hP : ∀ z w, w < n → P z → P (f z w)) (hother : ∀ z w, w < n → w ≠ k → P z → read (f z w) = read z)
    (hk : k < n → ∀ z, P z → read (f z k) = new (read z)) :
    P ((List.range n).foldl f b) ∧ read ((List.range n).foldl f b) = if k < n then new (read b) else read b := by
  induction n with
  | zero => exact ⟨hb, rfl⟩
  | succ n ih =>
    obtain ⟨hpn, hrn⟩ := ih (fun z w hw => hP z w (by omega)) (fun z w hw => hother z w (by omega)) fun hkn => hk (by omega)
    rw [List.range_succ, List.foldl_append, List.foldl_cons, List.foldl_nil]
    refine ⟨hP _ n (by omega) hpn, ?_⟩
    by_cases hkn : n = k
    · subst hkn
      rw [hk (by omega) _ hpn, hrn, if_neg (by omega), if_pos (by omega)]
    · rw [hother _ n (by omega) hkn hpn, hrn]
      by_cases hlt : k < n
      · rw [if_pos hlt, if_pos (by omega)]
      · rw [if_neg hlt, if_neg (by omega)]

theorem pow_256 (k : Nat) : 256 ^ k = 2 ^ (8 * k) := by
  rw [pow_mul]
  rfl

/-- A digit in a base 2^q replaced above p lower bits. -/
theorem replaceDigit_eq (x p q v : Nat) :
    x - x / 2 ^ p % 2 ^ q * 2 ^ p + v % 2 ^ q * 2 ^ p = 2 ^ p * (2 ^ q * (x / 2 ^ p / 2 ^ q) + v % 2 ^ q) + x % 2 ^ p := by
  have hx := Nat.div_add_mod x (2 ^ p)
  have hy := Nat.div_add_mod (x / 2 ^ p) (2 ^ q)
  generalize x / 2 ^ p = y at *
  generalize y / 2 ^ q = z at *
  generalize y % 2 ^ q = m at *
  generalize v % 2 ^ q = w at *
  subst hy
  rw [Nat.mul_add, Nat.mul_comm m, Nat.mul_comm w]
  rw [Nat.mul_add] at hx
  omega

theorem testBit_lineNat (x : BitVec 512) (off n i : Nat) : (lineNat x off n).testBit i = (decide (i < 8 * n) && x.getLsbD (8 * off + i)) := by
  rw [lineNat, pow_256, pow_256, Nat.testBit_mod_two_pow, Nat.testBit_div_two_pow, Nat.add_comm i]
  rfl

/-- The bits of a line with some of its bytes replaced. -/
theorem getLsbD_lineSet (x : BitVec 512) {off n : Nat} (h : off + n ≤ 64) (v i : Nat) :
    (lineSet x off n v).getLsbD i = if 8 * off ≤ i ∧ i < 8 * (off + n) then v.testBit (i - 8 * off) else x.getLsbD i := by
  have hlow : x.toNat % 2 ^ (8 * off) < 2 ^ (8 * off) := Nat.mod_lt _ (Nat.two_pow_pos _)
  have hdigit : v % 2 ^ (8 * n) < 2 ^ (8 * n) := Nat.mod_lt _ (Nat.two_pow_pos _)
  rw [lineSet, lineNat, BitVec.getLsbD_ofNat, pow_256, pow_256, replaceDigit_eq, Nat.testBit_two_pow_mul_add _ hlow,
    Nat.testBit_two_pow_mul_add _ hdigit, Nat.testBit_mod_two_pow, Nat.testBit_mod_two_pow, Nat.testBit_div_two_pow, Nat.testBit_div_two_pow]
  by_cases hi : i < 512
  · rw [decide_eq_true hi, Bool.true_and]
    by_cases h1 : i < 8 * off
    · rw [if_pos h1, if_neg (by omega), decide_eq_true h1, Bool.true_and]
      rfl
    · by_cases h2 : i - 8 * off < 8 * n
      · rw [if_neg h1, if_pos h2, if_pos (by omega), decide_eq_true h2, Bool.true_and]
      · rw [if_neg h1, if_neg h2, if_neg (by omega), show i - 8 * off - 8 * n + 8 * n + 8 * off = i by omega]
        rfl
  · rw [decide_eq_false hi, Bool.false_and, if_neg (by omega), BitVec.getLsbD_of_ge _ _ (by omega)]

theorem getLsbD_lineWord (x : BitVec 512) (w i : Nat) : (lineWord x w).getLsbD i = (decide (i < 32) && x.getLsbD (32 * w + i)) :=
  BitVec.getLsbD_extractLsb' _ _ x i

/-- The bits of a line merged word by word. -/
theorem getLsbD_lineMerge (x y : BitVec 512) (mask : BitVec 16) (i : Nat) :
    (lineMerge x y mask).getLsbD i = if mask.getLsbD (i / 32) = true then y.getLsbD i else x.getLsbD i := by
  have hstep : ∀ (z : BitVec 512) (w : Nat), w < 16 → (if mask.getLsbD w then lineSet z (4 * w) 4 (lineWord y w).toNat else z).getLsbD i =
      if w = i / 32 ∧ mask.getLsbD w = true then y.getLsbD i else z.getLsbD i := by
    intro z w hw
    by_cases hm : mask.getLsbD w = true
    · rw [if_pos hm, getLsbD_lineSet z (by omega)]
      by_cases hi : w = i / 32
      · rw [if_pos (by omega), if_pos ⟨hi, hm⟩]
        change (lineWord y w).getLsbD (i - 8 * (4 * w)) = _
        rw [getLsbD_lineWord, decide_eq_true (by omega), Bool.true_and, show 32 * w + (i - 8 * (4 * w)) = i by omega]
      · rw [if_neg (by omega), if_neg (fun h => hi h.1)]
    · rw [if_neg hm, if_neg (fun h => hm h.2)]
  rw [lineMerge, (foldl_range_at (fun _ => True) (fun z : BitVec 512 => z.getLsbD i)
    (fun v => if mask.getLsbD (i / 32) = true then y.getLsbD i else v) (k := i / 32) trivial (fun _ _ _ _ => trivial)
    (fun z w hw hne _ => (hstep z w hw).trans (if_neg fun h => hne h.1)) (fun hlt z _ => by simpa using hstep z _ hlt)).2]
  by_cases hi : i / 32 < 16
  · rw [if_pos hi]
  · rw [if_neg hi, BitVec.getLsbD_of_ge mask _ (by omega), if_neg (by simp)]

theorem lineMerge_full (x y : BitVec 512) : lineMerge x y 0xFFFF = y := by
  refine BitVec.eq_of_getLsbD_eq fun i hi => ?_
  rw [getLsbD_lineMerge, if_pos]
  have hw : i / 32 < 16 := by omega
  generalize i / 32 = w at hw
  revert w
  decide

theorem lineMerge_zero (x y : BitVec 512) : lineMerge x y 0 = x := by
  refine BitVec.eq_of_getLsbD_eq fun i hi => ?_
  rw [getLsbD_lineMerge, if_neg (by simp)]

/-! ### Bytes of lines and of memory (R265) -/

theorem lineNat_lineSet (x : BitVec 512) {off n : Nat} (h : off + n ≤ 64) (v j : Nat) :
    lineNat (lineSet x off n v) j 1 = if off ≤ j ∧ j < off + n then v / 256 ^ (j - off) % 256 else lineNat x j 1 := by
  refine Nat.eq_of_testBit_eq fun i => ?_
  rw [testBit_lineNat, getLsbD_lineSet x h]
  by_cases hi : i < 8
  · by_cases hj : off ≤ j ∧ j < off + n
    · rw [if_pos hj, if_pos (by omega), pow_256, show (256 : Nat) = 2 ^ 8 from rfl, Nat.testBit_mod_two_pow, Nat.testBit_div_two_pow]
      congr 2
      omega
    · rw [if_neg hj, if_neg (by omega), testBit_lineNat]
  · rw [decide_eq_false (by omega), Bool.false_and]
    split
    · rw [show (256 : Nat) = 2 ^ 8 from rfl, Nat.testBit_mod_two_pow, decide_eq_false hi, Bool.false_and]
    · rw [testBit_lineNat, decide_eq_false (by omega), Bool.false_and]

theorem lineNat_lineMerge (x y : BitVec 512) (mask : BitVec 16) (j : Nat) :
    lineNat (lineMerge x y mask) j 1 = if mask.getLsbD (j / 4) = true then lineNat y j 1 else lineNat x j 1 := by
  refine Nat.eq_of_testBit_eq fun i => ?_
  by_cases hi : i < 8
  · rw [testBit_lineNat, getLsbD_lineMerge, show (8 * j + i) / 32 = j / 4 by omega]
    split <;> rw [testBit_lineNat]
  · split <;> rw [testBit_lineNat, testBit_lineNat, decide_eq_false (by omega), Bool.false_and, Bool.false_and]

theorem lineNat_withoutReserved (line : Nat) (x : BitVec 512) {j : Nat} (hj : j < 64) :
    lineNat (withoutReserved line x) j 1 = if isReserved (64 * line + j) = true then 0 else lineNat x j 1 := by
  have hstep : ∀ (z : BitVec 512) (w : Nat), w < 64 → lineNat (if isReserved (64 * line + w) then lineSet z w 1 0 else z) j 1 =
      if w = j ∧ isReserved (64 * line + w) = true then 0 else lineNat z j 1 := by
    intro z w hw
    by_cases hr : isReserved (64 * line + w) = true
    · rw [if_pos hr, lineNat_lineSet z (by omega), Nat.zero_div, Nat.zero_mod]
      by_cases hjw : w = j
      · rw [if_pos (by omega), if_pos ⟨hjw, hr⟩]
      · rw [if_neg (by omega), if_neg (fun h => hjw h.1)]
    · rw [if_neg hr, if_neg (fun h => hr h.2)]
  unfold withoutReserved
  split
  · rw [(foldl_range_at (fun _ => True) (fun z => lineNat z j 1) (fun v => if isReserved (64 * line + j) = true then 0 else v) (k := j)
      trivial (fun _ _ _ _ => trivial) (fun z w hw hne _ => (hstep z w hw).trans (if_neg fun h => hne h.1))
      (fun hlt z _ => by simpa using hstep z _ hlt)).2, if_pos hj]
  · rename_i hd
    rw [if_neg]
    rw [isReserved, show (64 * line + j) / 64 = line by omega, Bool.not_eq_true _ |>.mp hd]
    simp

theorem leBytes_length (n x : Nat) : (leBytes n x).length = n := by
  induction n generalizing x with
  | zero => rfl
  | succ n ih => rw [leBytes, List.length_cons, ih]

theorem leBytes_getD {n k : Nat} (hk : k < n) (x : Nat) : (leBytes n x).getD k 0 = BitVec.ofNat 8 (x / 256 ^ k) := by
  induction n generalizing x k with
  | zero => omega
  | succ n ih =>
    rw [leBytes]
    cases k with
    | zero => simp
    | succ k => rw [List.getD_cons_succ, ih (by omega), Nat.div_div_eq_div_mul, ← pow_succ']

/-- A byte of a line, as a byte of the word that it lies in. -/
theorem lineByte_of_lineWord (x : BitVec 512) {w k : Nat} (hk : k < 4) :
    BitVec.ofNat 8 ((lineWord x w).toNat / 256 ^ k) = BitVec.ofNat 8 (lineNat x (4 * w + k) 1) := by
  refine BitVec.eq_of_getLsbD_eq fun i hi => ?_
  rw [BitVec.getLsbD_ofNat, BitVec.getLsbD_ofNat, pow_256, Nat.testBit_div_two_pow, testBit_lineNat, decide_eq_true (show i < 8 * 1 by omega)]
  change (_ && (lineWord x w).getLsbD (i + 8 * k)) = _
  rw [getLsbD_lineWord, decide_eq_true (by omega), Bool.true_and]
  congr 2
  omega

/-- A byte of memory after a line of it is written: the masked words change, but for reserved bytes. -/
theorem memRead_memPutLine {m : List Host.Cell} (hm : Memory.wf m = true) (line : Nat) (x : BitVec 512) (mask : BitVec 16) (a : Nat) :
    memRead (memPutLine m line x mask) a = if a / 64 = line ∧ mask.getLsbD (a % 64 / 4) = true ∧ isReserved a = false
      then BitVec.ofNat 8 (lineNat x (a % 64) 1) else memRead m a := by
  have hwf : ∀ z : List Host.Cell, ∀ w, Memory.wf z = true →
      Memory.wf (if mask.getLsbD w then memPutBytes z (64 * line + 4 * w) (leBytes 4 (lineWord x w).toNat) else z) = true := by
    intro z w hz
    split
    · exact memPutBytes_wf _ _ _ hz
    · exact hz
  have hstep : ∀ z w, Memory.wf z = true →
      memRead (if mask.getLsbD w then memPutBytes z (64 * line + 4 * w) (leBytes 4 (lineWord x w).toNat) else z) a =
        if a / 4 = 16 * line + w ∧ mask.getLsbD w = true ∧ isReserved a = false then BitVec.ofNat 8 (lineNat x (a - 64 * line) 1) else memRead z a := by
    intro z w hz
    by_cases hm : mask.getLsbD w = true
    · rw [if_pos hm, memRead_memPutBytes _ _ _ _ hz, leBytes_length]
      by_cases hin : a / 4 = 16 * line + w
      · rw [leBytes_getD (show a - (64 * line + 4 * w) < 4 by omega), lineByte_of_lineWord x (by omega),
          show 4 * w + (a - (64 * line + 4 * w)) = a - 64 * line by omega]
        by_cases hr : isReserved a = false
        · rw [if_pos ⟨by omega, hr⟩, if_pos ⟨hin, hm, hr⟩]
        · rw [if_neg (fun h => hr h.2), if_neg (fun h => hr h.2.2)]
      · rw [if_neg (fun h => hin (by omega)), if_neg (fun h => hin h.1)]
    · rw [if_neg hm, if_neg (fun h => hm h.2.1)]
  by_cases hl : a / 64 = line
  · have hword : a / 4 = 16 * line + a % 64 / 4 := by omega
    rw [memPutLine, (foldl_range_at (fun z => Memory.wf z = true) (fun z => memRead z a) (fun v =>
        if mask.getLsbD (a % 64 / 4) = true ∧ isReserved a = false then BitVec.ofNat 8 (lineNat x (a % 64) 1) else v) (k := a % 64 / 4) hm
      (fun z w _ hz => hwf z w hz) (fun z w _ hne hz => (hstep z w hz).trans (if_neg fun h => hne (by omega)))
      (fun _ z hz => by rw [hstep z _ hz, show a - 64 * line = a % 64 by omega]; simp only [hword, true_and])).2, if_pos (by omega)]
    simp only [hl, true_and]
  · rw [memPutLine, (foldl_range_at (fun z => Memory.wf z = true) (fun z => memRead z a) id (k := 16) hm (fun z w _ hz => hwf z w hz)
      (fun z w hw _ hz => (hstep z w hz).trans (if_neg fun h => hl (by omega))) (fun h => absurd h (by omega))).2,
      if_neg (by omega), if_neg (fun h => hl h.1)]

/-- The bytes of a line in memory. -/
theorem memBytes_getD (m : List Host.Cell) (a : Nat) {n k : Nat} (hk : k < n) : (memBytes m a n).getD k 0 = memRead m (a + k) := by
  induction n generalizing a k with
  | zero => omega
  | succ n ih =>
    rw [memBytes]
    cases k with
    | zero => rfl
    | succ k => rw [List.getD_cons_succ, ih _ (by omega), show a + 1 + k = a + (k + 1) by omega]

theorem testBit_ofLeBytes (bs : List Byte) (i : Nat) : (ofLeBytes bs).testBit i = (bs.getD (i / 8) 0).getLsbD (i % 8) := by
  induction bs generalizing i with
  | nil => simp [ofLeBytes]
  | cons b bs ih =>
    rw [ofLeBytes, Nat.add_comm, show (256 : Nat) = 2 ^ 8 from rfl, Nat.testBit_two_pow_mul_add _ b.isLt]
    by_cases hi : i < 8
    · rw [if_pos hi, Nat.div_eq_of_lt hi, Nat.mod_eq_of_lt hi]
      rfl
    · rw [if_neg hi, ih, show i / 8 = (i - 8) / 8 + 1 by omega, List.getD_cons_succ, show i % 8 = (i - 8) % 8 by omega]

theorem getLsbD_lineData (m : List Host.Cell) (line : Nat) {i : Nat} (hi : i < 512) :
    (lineData m line).getLsbD i = (memRead m (64 * line + i / 8)).getLsbD (i % 8) := by
  rw [lineData, BitVec.getLsbD_ofNat, decide_eq_true hi, Bool.true_and, memNat, testBit_ofLeBytes, memBytes_getD _ _ (by omega)]

/-! ### What a store access writes (R167) -/

theorem getLsbD_wordMask (off n w : Nat) : (wordMask off n).getLsbD w = (decide (w < 16) && (decide (off < 4 * w + 4) && decide (4 * w < off + n))) := by
  rw [wordMask, List.foldl_filter, BitVec.getLsbD_ofNat, (foldl_bits (fun w => decide (off < 4 * w + 4) && decide (4 * w < off + n)) 16).2,
    ← Bool.and_assoc, Bool.and_self]

section
variable {o : MemOp}

/-- One item of a store access, over those before it. -/
def storeItem (o : MemOp) (r : BitVec 16 × BitVec 512) (e : Nat × Nat × W64) : BitVec 16 × BitVec 512 :=
  (r.1 ||| wordMask e.2.1 o.width, lineSet r.2 e.2.1 o.width e.2.2.toNat)

theorem storeLine_eq (o : MemOp) (a : Access) : storeLine o a = a.items.foldl (storeItem o) (0, 0) := rfl

theorem mask_storeItems (items : List (Nat × Nat × W64)) (r : BitVec 16 × BitVec 512) (w : Nat) :
    (items.foldl (storeItem o) r).1.getLsbD w = true ↔ r.1.getLsbD w = true ∨ ∃ e ∈ items, (wordMask e.2.1 o.width).getLsbD w = true := by
  induction items generalizing r with
  | nil => simp
  | cons e es ih => rw [List.foldl_cons, ih]; simp [storeItem, or_assoc]

/-- Items that do not reach a bit leave it. -/
theorem getLsbD_storeItems {items : List (Nat × Nat × W64)} (h : ∀ e ∈ items, e.2.1 + o.width ≤ 64) (r : BitVec 16 × BitVec 512) {i : Nat}
    (hi : ∀ e ∈ items, ¬ (8 * e.2.1 ≤ i ∧ i < 8 * (e.2.1 + o.width))) : (items.foldl (storeItem o) r).2.getLsbD i = r.2.getLsbD i := by
  induction items generalizing r with
  | nil => rfl
  | cons e es ih =>
    obtain ⟨he, hes⟩ := List.forall_mem_cons.mp h
    obtain ⟨hie, hies⟩ := List.forall_mem_cons.mp hi
    rw [List.foldl_cons, ih hes _ hies, storeItem, getLsbD_lineSet _ he, if_neg hie]

end

/-- The last item over some bytes stands there. -/
theorem lineNat_storeLine {o : MemOp} {a : Access} (h : ∀ e ∈ a.items, e.2.1 + o.width ≤ 64) {before after : List (Nat × Nat × W64)}
    {e : Nat × Nat × W64} (hsplit : a.items = before ++ e :: after)
    (hafter : ∀ d ∈ after, d.2.1 + o.width ≤ e.2.1 ∨ e.2.1 + o.width ≤ d.2.1) :
    lineNat (storeLine o a).2 e.2.1 o.width = e.2.2.toNat % 256 ^ o.width := by
  rw [hsplit, List.forall_mem_append, List.forall_mem_cons] at h
  obtain ⟨-, he, hlater⟩ := h
  refine Nat.eq_of_testBit_eq fun i => ?_
  rw [testBit_lineNat, pow_256, Nat.testBit_mod_two_pow]
  by_cases hi : i < 8 * o.width
  · have hmiss : ∀ d ∈ after, ¬ (8 * d.2.1 ≤ 8 * e.2.1 + i ∧ 8 * e.2.1 + i < 8 * (d.2.1 + o.width)) := by
      intro d hd
      have := hafter d hd
      omega
    rw [storeLine_eq, hsplit, List.foldl_append, List.foldl_cons, getLsbD_storeItems hlater _ hmiss, storeItem, getLsbD_lineSet _ he,
      if_pos (by omega), Nat.add_sub_cancel_left]
  · rw [decide_eq_false hi, Bool.false_and, Bool.false_and]

theorem mask_storeLine (o : MemOp) (a : Access) {w : Nat} (hw : w < 16) :
    (storeLine o a).1.getLsbD w = true ↔ ∃ e ∈ a.items, e.2.1 < 4 * w + 4 ∧ 4 * w < e.2.1 + o.width := by
  have hbit : ∀ e : Nat × Nat × W64, (wordMask e.2.1 o.width).getLsbD w = true ↔ e.2.1 < 4 * w + 4 ∧ 4 * w < e.2.1 + o.width := by
    intro e
    rw [getLsbD_wordMask, decide_eq_true hw, Bool.true_and, Bool.and_eq_true, decide_eq_true_eq, decide_eq_true_eq]
  rw [storeLine_eq, mask_storeItems]
  simp only [hbit]
  exact or_iff_right (by simp)

end Sys2Proof.Machine

/-! SUPPORT. The statement on stores, part 2: the parts of the stores that one line's accesses reach, and room in the caches. -/

namespace Sys2Proof.Machine

/-! ### Tables without the entries of some keys -/

section
variable {α : Type} (p : Nat → Bool) (m : Sparse α) {k : Nat} (hk : p k = false)
include hk

theorem Sparse.filter_put (x : α) : (Sparse.put m k x).filter (fun e => p e.1) = m.filter fun e => p e.1 := by
  induction m with
  | nil => simp [Sparse.put, hk]
  | cons e r ih =>
    obtain ⟨j, y⟩ := e
    unfold Sparse.put
    split_ifs with h1 h2
    · simp [hk]
    · subst h2
      simp [hk]
    · rw [List.filter_cons, List.filter_cons, ih]

theorem Sparse.filter_erase : (Sparse.erase m k).filter (fun e => p e.1) = m.filter fun e => p e.1 := by
  induction m with
  | nil => rfl
  | cons e r ih =>
    obtain ⟨j, y⟩ := e
    unfold Sparse.erase
    split_ifs with h1 h2
    · rfl
    · subst h2
      simp [hk]
    · rw [List.filter_cons, List.filter_cons, ih]

end

theorem Sparse.rising_filter_some {α : Type} (p : Nat × α → Bool) (m : Sparse α) (lo : Nat) (h : Sparse.risingFrom (some lo) m = true) :
    Sparse.risingFrom (some lo) (m.filter p) = true := by
  induction m generalizing lo with
  | nil => rfl
  | cons e r ih =>
    obtain ⟨j, y⟩ := e
    simp only [Sparse.risingFrom, Bool.and_eq_true, decide_eq_true_eq] at h
    obtain ⟨hlo, hr⟩ := h
    by_cases hp : p (j, y) = true
    · rw [List.filter_cons_of_pos hp]
      simp only [Sparse.risingFrom, Bool.and_eq_true, decide_eq_true_eq]
      exact ⟨hlo, ih j hr⟩
    · rw [List.filter_cons_of_neg hp]
      exact ih lo (Sparse.rising_weaken r j lo hr (by omega))

/-- Dropping entries keeps the keys rising. -/
theorem Sparse.rising_filter {α : Type} (p : Nat × α → Bool) (m : Sparse α) (h : Sparse.risingFrom none m = true) :
    Sparse.risingFrom none (m.filter p) = true := by
  cases m with
  | nil => rfl
  | cons e r =>
    obtain ⟨j, y⟩ := e
    have hr : Sparse.risingFrom (some j) r = true := h
    by_cases hp : p (j, y) = true
    · rw [List.filter_cons_of_pos hp]
      exact Sparse.rising_filter_some p r j hr
    · rw [List.filter_cons_of_neg hp]
      exact Sparse.rising_none _ j (Sparse.rising_filter_some p r j hr)

/-- An entry of a rising table is the one that its key reads. -/
theorem Sparse.find_of_mem {α : Type} {m : Sparse α} (h : Sparse.risingFrom none m = true) {e : Nat × α} (he : e ∈ m) :
    m.find e.1 = some e.2 := by
  induction m with
  | nil => exact absurd he List.not_mem_nil
  | cons d r ih =>
    obtain ⟨j, y⟩ := d
    have hr : Sparse.risingFrom (some j) r = true := h
    rcases List.mem_cons.mp he with rfl | her
    · simp [Sparse.find]
    · have hfound := ih (Sparse.rising_none r j hr) her
      have hlt : j < e.1 := by
        by_contra hle
        rw [Sparse.find_none_of_rising r j e.1 hr (by omega)] at hfound
        cases hfound
      simp only [Sparse.find]
      rw [if_neg (by omega), if_neg (by omega), hfound]

/-! ### Copies and entries read back (R161, R162) -/

section
variable (st : Store)

@[simp] theorem copyAt_setDir (l : Nat) (d : DirEntry) (h line : Nat) : copyAt (setDir st l d) h line = copyAt st h line := rfl

@[simp] theorem copyAt_putCopy_same (h line : Nat) (c : Copy) : copyAt (putCopy st h line c) h line = some c := Sparse.find_put_same _ _ _

theorem copyAt_putCopy_other {h h' line : Nat} (hne : h' ≠ h) (c : Copy) : copyAt (putCopy st h line c) h' line = copyAt st h' line :=
  Sparse.find_put_other _ _ _ _ (by simp only [copyKey]; omega)

theorem copyAt_dropCopy_same (h line : Nat) (hr : Sparse.risingFrom none st.copies = true) : copyAt (dropCopy st h line) h line = none :=
  Sparse.find_erase_same _ _ hr

theorem copyAt_dropCopy_other {h h' line : Nat} (hne : h' ≠ h) (hr : Sparse.risingFrom none st.copies = true) :
    copyAt (dropCopy st h line) h' line = copyAt st h' line :=
  Sparse.find_erase_other _ _ _ (by simp only [copyKey]; omega) hr

theorem dirOf_setDir_other {l line : Nat} (hne : l ≠ line) (d : DirEntry) (hr : Sparse.risingFrom none st.dirs = true) :
    dirOf (setDir st line d) l = dirOf st l := by
  unfold dirOf setDir Sparse.set Sparse.get
  dsimp only
  split
  · rw [Sparse.find_erase_other _ _ _ hne hr]
  · rw [Sparse.find_put_other _ _ _ _ hne]

theorem holder_lt_of_mem_copiesOf {line : Nat} {e : Nat × Copy} (he : e ∈ copiesOf st line) : e.1 < 512 := by
  obtain ⟨d, -, rfl⟩ := List.mem_map.mp he
  exact Nat.mod_lt _ (by omega)

theorem holder_lt_of_ownerCopy {line : Nat} {e : Nat × Copy} (he : ownerCopy st line = some e) : e.1 < 512 :=
  holder_lt_of_mem_copiesOf st (List.mem_of_find?_eq_some he)

theorem holder_lt_of_mem_partialsOf {line : Nat} {e : Nat × Copy} (he : e ∈ partialsOf st line) : e.1 < 512 :=
  holder_lt_of_mem_copiesOf st (List.mem_of_mem_filter he)

end

/-! ### What an access of a line leaves of every other line -/

/-- The tables of a store are in their canonical form. -/
structure Store.Canonical (st : Store) : Prop where
  copies : Sparse.risingFrom none st.copies = true
  dirs : Sparse.risingFrom none st.dirs = true
  mem : Memory.wf st.mem = true

/-- A canonical store that differs from another one at one line at most: its copies, its entry, its bytes, its use by an engine. -/
structure Store.OnlyLine (line : Nat) (st u : Store) : Prop where
  canonical : u.Canonical
  copies : u.copies.filter (fun e => e.1 / 512 != line) = st.copies.filter fun e => e.1 / 512 != line
  dirs : ∀ l, l ≠ line → dirOf u l = dirOf st l
  mem : ∀ a, a / 64 ≠ line → memRead u.mem a = memRead st.mem a
  engineUse : u.engineUse.filter (· != line) = st.engineUse.filter (· != line)

namespace Store.OnlyLine

variable {line : Nat} {st u : Store}

theorem refl (h : st.Canonical) : OnlyLine line st st := ⟨h, rfl, fun _ _ => rfl, fun _ _ => rfl, rfl⟩

/-- Every other line keeps its copies. -/
theorem copyAt_other (h : OnlyLine line st u) (hst : st.Canonical) {l holder : Nat} (hl : l ≠ line) (hh : holder < 512) :
    copyAt u holder l = copyAt st holder l := by
  have beside : ∀ {v : Store}, v.Canonical → Sparse.find (v.copies.filter fun e => e.1 / 512 != line) (copyKey holder l) = copyAt v holder l := by
    intro v hv
    rw [Sparse.find_filter _ _ _ hv.copies]
    simp only [copyKey_line l hh, bne_iff_ne.mpr hl]
    rw [copyAt]
    cases Sparse.find v.copies (copyKey holder l) <;> rfl
  rw [← beside h.canonical, h.copies, beside hst]

section
variable (h : OnlyLine line st u)
include h

theorem putCopy {holder : Nat} (hh : holder < 512) (c : Copy) : OnlyLine line st (putCopy u holder line c) :=
  ⟨⟨Sparse.rising_put _ _ _ h.canonical.copies, h.canonical.dirs, h.canonical.mem⟩,
    (Sparse.filter_put (fun k => k / 512 != line) _ (by rw [copyKey_line line hh]; exact bne_self_eq_false _) c).trans h.copies, h.dirs, h.mem, h.engineUse⟩

theorem dropCopy {holder : Nat} (hh : holder < 512) : OnlyLine line st (dropCopy u holder line) :=
  ⟨⟨Sparse.rising_erase _ _ h.canonical.copies, h.canonical.dirs, h.canonical.mem⟩,
    (Sparse.filter_erase (fun k => k / 512 != line) _ (by rw [copyKey_line line hh]; exact bne_self_eq_false _)).trans h.copies, h.dirs, h.mem, h.engineUse⟩

theorem dropWhere (p : Nat → Copy → Bool) : OnlyLine line st (dropWhere u line p) := by
  refine ⟨⟨Sparse.rising_filter _ _ h.canonical.copies, h.canonical.dirs, h.canonical.mem⟩, ?_, h.dirs, h.mem, h.engineUse⟩
  rw [← h.copies, Machine.dropWhere, List.filter_filter]
  refine List.filter_congr fun e _ => ?_
  rw [bne]
  cases e.1 / 512 == line <;> rfl

theorem setDir (d : DirEntry) : OnlyLine line st (setDir u line d) :=
  ⟨⟨h.canonical.copies, Sparse.rising_set _ _ _ _ h.canonical.dirs, h.canonical.mem⟩, h.copies,
    fun l hl => (dirOf_setDir_other u hl d h.canonical.dirs).trans (h.dirs l hl), h.mem, h.engineUse⟩

theorem putLine (x : BitVec 512) (mask : BitVec 16) : OnlyLine line st { u with mem := memPutLine u.mem line x mask } :=
  ⟨⟨h.canonical.copies, h.canonical.dirs, memPutLine_wf _ _ _ _ h.canonical.mem⟩, h.copies, h.dirs,
    fun a ha => by rw [memRead_memPutLine h.canonical.mem, if_neg fun k => ha k.1, h.mem a ha], h.engineUse⟩

/-- A line that goes back to its home, which its engine does not use any more. -/
theorem recalled (x : BitVec 512) (mask : BitVec 16) :
    OnlyLine line st { u with mem := memPutLine u.mem line x mask, engineUse := u.engineUse.filter (· != line) } := by
  have hput := h.putLine x mask
  refine ⟨⟨h.canonical.copies, h.canonical.dirs, hput.canonical.mem⟩, h.copies, h.dirs, hput.mem, ?_⟩
  rw [← h.engineUse, List.filter_filter]
  simp only [Bool.and_self]

theorem used : OnlyLine line st { u with engineUse := line :: u.engineUse.filter (· != line) } :=
  ⟨⟨h.canonical.copies, h.canonical.dirs, h.canonical.mem⟩, h.copies, h.dirs, h.mem, by
    rw [List.filter_cons_of_neg (by simp), ← h.engineUse, List.filter_filter]
    simp only [Bool.and_self]⟩

/-! The operations of homes, on the line. -/

theorem foldRead (ts : Nat) : OnlyLine line st (foldRead u line ts) := by
  unfold Machine.foldRead
  split
  · split
    · rename_i ho
      exact h.putCopy (holder_lt_of_ownerCopy u ho) _
    · exact h
  · exact h.setDir _

theorem invalidateWhere (p : Nat → Bool) : OnlyLine line st (invalidateWhere u line p) := (h.dropWhere _).foldRead _

theorem takePartial {e : Nat × Copy} (he : e.1 < 512) : OnlyLine line st (takePartial line u e) := by
  unfold Machine.takePartial
  split
  · dsimp only
    split
    · rename_i ho
      exact (h.dropCopy he).putCopy (holder_lt_of_ownerCopy _ ho) _
    · exact ((h.dropCopy he).putLine _ _).setDir _
  · exact h

theorem takePartials {ps : List (Nat × Copy)} (hps : ∀ e ∈ ps, e.1 < 512) : OnlyLine line st (ps.foldl (Machine.takePartial line) u) :=
  List.foldlRecOn (motive := OnlyLine line st) ps _ h fun _ ht e he => ht.takePartial (hps e he)

theorem combineDie (die : Nat) : OnlyLine line st (combineDie u line die) := by
  have hp := h.takePartials (ps := (partialsOf u line).filter fun e => e.1 / 64 == die) fun e he =>
    holder_lt_of_mem_partialsOf u (List.mem_of_mem_filter he)
  unfold Machine.combineDie
  dsimp only
  split
  · exact hp.setDir _
  · exact hp

theorem combineLine : OnlyLine line st (combineLine u line) :=
  (foldl_keeps (OnlyLine line st) _ (List.range 4) u h fun _ die ht => ht.combineDie die).setDir _

theorem combineInDie : OnlyLine line st (combineInDie u line) := h.takePartials fun _ he => holder_lt_of_mem_partialsOf u he

theorem recallLine : OnlyLine line st (recallLine u line) := by
  have hi := h.combineInDie.invalidateWhere fun _ => true
  unfold Machine.recallLine
  dsimp only
  split
  · rename_i ho
    exact ((hi.recalled _ _).dropCopy (holder_lt_of_ownerCopy _ ho)).setDir _
  · exact hi.setDir _

theorem invalidateAll : OnlyLine line st (invalidateAll u line) := (h.invalidateWhere _).setDir _

theorem readyToRead : OnlyLine line st (readyToRead u line) := by
  unfold Machine.readyToRead
  split
  · exact h.recallLine
  · exact h.combineLine
  · exact h

theorem readyToWrite : OnlyLine line st (readyToWrite u line) := by
  unfold Machine.readyToWrite
  split
  · exact h.invalidateAll
  · exact h.readyToRead

theorem proxyFetch : OnlyLine line st (proxyFetch u line) := by
  unfold Machine.proxyFetch
  dsimp only
  split
  · exact h
  · exact (h.putCopy (by simp [proxyHolder]) _).setDir _

theorem writeBackHost {core : Nat} (hc : core < 512) : OnlyLine line st (writeBackHost u core line) := by
  unfold Machine.writeBackHost
  split
  · split
    · exact (h.putLine _ _).dropCopy hc
    · exact h
  · exact h

theorem writeBackLine : OnlyLine line st (writeBackLine u line) :=
  List.foldlRecOn (motive := OnlyLine line st) _ _ h fun _ ht _ he => ht.writeBackHost (holder_lt_of_mem_copiesOf u (List.mem_of_mem_filter he))

theorem loadAtCopy {holder : Nat} (hh : holder < 512) (pts lease : Nat) (c : Copy) : OnlyLine line st (loadAtCopy u holder line pts lease c).2.2 := by
  unfold Machine.loadAtCopy
  split
  · exact h
  · exact h.putCopy hh _
  · exact h.putCopy hh _

theorem loadAtProxy (pts lease : Nat) : OnlyLine line st (loadAtProxy u line pts lease).2.2 := h.proxyFetch.setDir _

theorem storeAtHome (pts : Nat) (mask : BitVec 16) (x : BitVec 512) : OnlyLine line st (storeAtHome u line pts mask x).2 :=
  (h.putLine _ _).setDir _

theorem storeAtCopy {holder : Nat} (hh : holder < 512) {pts : Nat} {mask : BitVec 16} {x : BitVec 512} {r : Nat × Store}
    (hr : storeAtCopy u holder line pts mask x = some r) : OnlyLine line st r.2 := by
  obtain ⟨c, -, rfl⟩ := Option.map_eq_some_iff.mp hr
  exact (h.putCopy hh _).setDir _

end

end Store.OnlyLine

/-! ### Copies that find room (R1, R2) -/

/-- The holders that an access of a core may fill have room for one more line. -/
def Store.HasRoom (st : Store) (core : Nat) : Prop := ∀ h ∈ [core, 256 + core / 64], (st.copies.filter fun e => e.1 % 512 == h).length < lineRoom h

section
variable {line core : Nat} {st u : Store} (hroom : st.HasRoom core)

include hroom in
/-- A holder with room takes a copy of a line without an eviction. -/
theorem fillCopy_eq_putCopy (hu : Store.OnlyLine line st u) {holder : Nat} (hh : holder ∈ [core, 256 + core / 64]) (c : Copy) :
    fillCopy u holder line c = putCopy u holder line c := by
  have hfull : ((copyAt u holder line).isNone && decide (lineRoom holder ≤ (u.copies.filter fun e => e.1 % 512 == holder).length)) = false := by
    cases hc : copyAt u holder line with
    | some k => rfl
    | none =>
      have hbeside : (u.copies.filter fun e => e.1 % 512 == holder) =
          (u.copies.filter fun e => e.1 / 512 != line).filter fun e => e.1 % 512 == holder := by
        rw [List.filter_filter]
        refine List.filter_congr fun e he => ?_
        by_cases hline : e.1 / 512 = line
        · have hne : e.1 % 512 ≠ holder := by
            intro hholder
            have hkey : e.1 = copyKey holder line := by simp only [copyKey]; omega
            have hfound := Sparse.find_of_mem hu.canonical.copies he
            rw [hkey] at hfound
            rw [copyAt, hfound] at hc
            cases hc
          simp [hne]
        · simp [hline]
      have hle : ((u.copies.filter fun e => e.1 / 512 != line).filter fun e => e.1 % 512 == holder).length < lineRoom holder := by
        rw [hu.copies]
        refine lt_of_le_of_lt (List.Sublist.length_le ?_) (hroom holder hh)
        exact List.Sublist.filter _ List.filter_sublist
      rw [hbeside]
      simpa using hle
  unfold fillCopy
  dsimp only
  rw [hfull]

include hroom

theorem fillCore_eq (h : Store.OnlyLine line st u) (c : Copy) : fillCopy u core line c = putCopy u core line c :=
  fillCopy_eq_putCopy hroom h List.mem_cons_self c

theorem fillL2_eq (h : Store.OnlyLine line st u) (c : Copy) :
    fillCopy u (l2Holder (dieOf core)) line c = putCopy u (l2Holder (dieOf core)) line c :=
  fillCopy_eq_putCopy hroom h (by simp [l2Holder, dieOf]) c

end

end Sys2Proof.Machine

/-! SUPPORT. The statement on stores, part 3: fills, owned copies and loads change one line. -/

namespace Sys2Proof.Machine

theorem l2Holder_lt {core : Nat} (hcore : core < 256) : l2Holder (dieOf core) < 512 := by
  simp only [l2Holder, dieOf]
  omega

theorem l2Holder_ne {core : Nat} (hcore : core < 256) : l2Holder (dieOf core) ≠ core := by
  simp only [l2Holder, dieOf]
  omega

/-! ### What accesses of a core leave of every other line (R160, R163, R164) -/

section
variable {line core : Nat} {st u : Store} (hroom : st.HasRoom core) (hcore : core < 256)

namespace Store.OnlyLine

section
variable (h : OnlyLine line st u)
include hroom h

include hcore in
theorem fillCore (c : Copy) : OnlyLine line st (fillCopy u core line c) := by
  rw [fillCore_eq hroom h]
  exact h.putCopy (by omega) c

include hcore in
theorem fillL2 (c : Copy) : OnlyLine line st (fillCopy u (l2Holder (dieOf core)) line c) := by
  rw [fillL2_eq hroom h]
  exact h.putCopy (l2Holder_lt hcore) c

include hcore

theorem bringToL2 : OnlyLine line st (bringToL2 u (dieOf core) line) := by
  unfold Machine.bringToL2
  split
  · rename_i ho
    refine Store.OnlyLine.combineInDie ?_
    split
    · exact h
    · exact fillL2 hroom hcore (h.dropCopy (holder_lt_of_ownerCopy u ho)) _
  · exact h

theorem readyInDie (writes : Bool) : OnlyLine line st (readyInDie u (dieOf core) line writes) := by
  have hb := bringToL2 hroom hcore h
  unfold Machine.readyInDie
  cases writes
  · exact hb
  · exact hb.invalidateWhere _

theorem grantInDie : OnlyLine line st (grantInDie u core line) := by
  have hr := readyInDie hroom hcore h true
  unfold Machine.grantInDie
  dsimp only
  split
  · exact fillCore hroom hcore (hr.dropCopy (l2Holder_lt hcore)) _
  · exact hr

theorem acquireOwn {v : Store} (hv : acquireOwn u core line = some v) : OnlyLine line st v := by
  unfold Machine.acquireOwn at hv
  dsimp only at hv
  split_ifs at hv
  · cases hv; exact h
  · cases hv; exact grantInDie hroom hcore h
  · rw [← Option.some.inj hv]
    exact (fillCore hroom hcore h.readyToWrite _).setDir _

theorem keepAtHome (pol : Policy) (ts lease : Nat) : OnlyLine line st (keepAtHome u core line pol ts lease) := by
  unfold Machine.keepAtHome
  dsimp only
  split
  · exact (fillCore hroom hcore h _).setDir _
  · exact (fillL2 hroom hcore (fillCore hroom hcore h _) _).setDir _
  · exact h.dropCopy (by omega)

theorem keepInDie (pol : Policy) (ts lease : Nat) : OnlyLine line st (keepInDie u core line pol ts lease) := by
  unfold Machine.keepInDie
  dsimp only
  split
  · exact h
  · split
    · exact (fillCore hroom hcore h _).putCopy (l2Holder_lt hcore) _
    · exact fillCore hroom hcore h _
    · exact h.dropCopy (by omega)

theorem storeHost (pts : Nat) (mask : BitVec 16) (x : BitVec 512) : OnlyLine line st (storeHost u core line pts mask x).2 := by
  have hp := fun (c : Copy) (d : DirEntry) => (h.putCopy (holder := proxyHolder) (by simp [proxyHolder]) c).setDir d
  unfold Machine.storeHost
  dsimp only
  split_ifs
  · exact ((hp _ _).putLine _ _).dropCopy (by omega)
  · exact fillCore hroom hcore (hp _ _) _

theorem serveStore {pol : Policy} {pts lease ts : Nat} {mask : BitVec 16} {x : BitVec 512} {v : Store}
    (hv : serveStore u core line pol pts lease mask x = some (ts, v)) : OnlyLine line st v := by
  unfold Machine.serveStore at hv
  dsimp only at hv
  split_ifs at hv with hhost hown hb hdie
  · have hs := storeHost hroom hcore h pts mask x
    rw [Option.some.inj hv] at hs
    exact hs
  · obtain ⟨w, hw, hs⟩ := Option.bind_eq_some_iff.mp hv
    exact (acquireOwn hroom hcore h hw).storeAtCopy (by omega) hs
  · obtain ⟨r, hr, hk⟩ := Option.map_eq_some_iff.mp hv
    cases hk
    exact keepInDie hroom hcore ((readyInDie hroom hcore h true).storeAtCopy (l2Holder_lt hcore) hr) _ _ _
  · cases hv
    exact keepAtHome hroom hcore (h.readyToWrite.storeAtHome _ _ _) _ _ _

theorem grantPartial {t : ElemType} {op : RedOp} {v : Store} (hv : grantPartial u core line t op = some v) : OnlyLine line st v := by
  have grant : ∀ {w : Store}, OnlyLine line st w → ∀ c, OnlyLine line st (fillCopy (Machine.dropCopy w core line) core line c) :=
    fun hw c => fillCore hroom hcore (hw.dropCopy (by omega)) c
  unfold Machine.grantPartial at hv
  dsimp only at hv
  split_ifs at hv with hb hdie hsame
  · obtain ⟨c, -, rfl⟩ := Option.map_eq_some_iff.mp hv
    exact grant h _
  · obtain ⟨c, -, rfl⟩ := Option.map_eq_some_iff.mp hv
    exact grant (readyInDie hroom hcore h true) _
  · rw [← Option.some.inj hv]
    refine (grant ?_ _).setDir _
    split
    · exact h
    · exact h.readyToWrite

end

end Store.OnlyLine

end

/-! ### Loads leave memory, where no owner and no partial has the line (R164) -/

/-- No die owns the line, and none holds a partial of it. -/
def Store.Quiet (st : Store) (line : Nat) : Prop := (dirOf st line).state = .untracked ∨ ∃ hs, (dirOf st line).state = .tracked hs

theorem Store.Quiet.not_owned {st : Store} {line die : Nat} (h : st.Quiet line) : (dirOf st line).state ≠ .owned die := by
  rcases h with hs | ⟨hs, hs'⟩
  · rw [hs]; nofun
  · rw [hs']; nofun

theorem readyToRead_of_quiet {st : Store} {line : Nat} (h : st.Quiet line) : readyToRead st line = st := by
  unfold readyToRead
  rcases h with hs | ⟨hs, hs'⟩
  · rw [hs]
  · rw [hs']

theorem mem_readyToWrite_of_quiet {st : Store} {line : Nat} (h : st.Quiet line) : (readyToWrite st line).mem = st.mem := by
  unfold readyToWrite
  split
  · exact invalidateAll_mem st line
  · rw [readyToRead_of_quiet h]

/-- What a load leaves: every other line, and memory where the line is quiet. -/
structure Store.Loaded (line : Nat) (st u : Store) : Prop where
  only : Store.OnlyLine line st u
  mem : st.Quiet line → u.mem = st.mem

namespace Store.Loaded

variable {line core : Nat} {st u : Store}

theorem of_owned {die : Nat} (h : Store.OnlyLine line st u) (hs : (dirOf st line).state = .owned die) : Loaded line st u :=
  ⟨h, fun hq => absurd hs hq.not_owned⟩

theorem putCopy (h : Loaded line st u) {holder : Nat} (hh : holder < 512) (c : Copy) : Loaded line st (putCopy u holder line c) :=
  ⟨h.only.putCopy hh c, h.mem⟩

theorem setDir (h : Loaded line st u) (d : DirEntry) : Loaded line st (setDir u line d) := ⟨h.only.setDir d, h.mem⟩

theorem loadAtCopy (hst : st.Canonical) {holder : Nat} (hh : holder < 512) (pts lease : Nat) (c : Copy) :
    Loaded line st (loadAtCopy st holder line pts lease c).2.2 :=
  ⟨(Store.OnlyLine.refl hst).loadAtCopy hh pts lease c, fun _ => loadAtCopy_mem st holder line pts lease c⟩

section
variable (hroom : st.HasRoom core) (hcore : core < 256)
include hroom hcore

theorem fillCore (h : Loaded line st u) (c : Copy) : Loaded line st (fillCopy u core line c) := by
  rw [fillCore_eq hroom h.only]
  exact h.putCopy (by omega) c

theorem fillL2 (h : Loaded line st u) (c : Copy) : Loaded line st (fillCopy u (l2Holder (dieOf core)) line c) := by
  rw [fillL2_eq hroom h.only]
  exact h.putCopy (l2Holder_lt hcore) c

variable (hst : st.Canonical)
include hst

theorem loadHost (pol : Policy) (pts lease : Nat) : Loaded line st (loadHost st core line pol pts lease).2.2 := by
  have hp : Loaded line st (Machine.loadAtProxy st line pts lease).2.2 :=
    ⟨(Store.OnlyLine.refl hst).loadAtProxy pts lease, fun _ => loadAtProxy_mem st line pts lease⟩
  have hl := loadAtCopy (holder := core) (line := line) hst (by omega) pts lease
  have hf := fun c => fillCore hroom hcore hp c
  unfold Machine.loadHost
  dsimp only
  split
  · exact hp
  · split
    · split
      · exact hl _
      · split
        · exact hp
        · exact hf _
    · split
      · exact hp
      · exact hf _

theorem acquireOwn {v : Store} (hv : acquireOwn st core line = some v) : Loaded line st v := by
  refine ⟨Store.OnlyLine.acquireOwn hroom hcore (.refl hst) hv, fun hq => ?_⟩
  unfold Machine.acquireOwn at hv
  dsimp only at hv
  split_ifs at hv with ho hb hdie
  · cases hv; rfl
  · exact absurd hdie hq.not_owned
  · rw [fillCore_eq hroom (Store.OnlyLine.refl hst).readyToWrite] at hv
    rw [← Option.some.inj hv]
    exact mem_readyToWrite_of_quiet hq

theorem loadAtHome {pol : Policy} {pts lease : Nat} {r : Served} (hr : loadAtHome st core line pol pts lease = some r) : Loaded line st r.2.2 := by
  unfold Machine.loadAtHome at hr
  dsimp only at hr
  split_ifs at hr with hb hdie
  · obtain ⟨c, -, rfl⟩ := Option.map_eq_some_iff.mp hr
    have hp := fun c => (of_owned (Store.OnlyLine.readyInDie hroom hcore (.refl hst) false) hdie).putCopy (l2Holder_lt hcore) c
    dsimp only
    split
    · exact fillCore hroom hcore (hp _) _
    · exact fillCore hroom hcore (hp _) _
    · exact hp _
  · have hh : Loaded line st (Machine.readyToRead st line) := ⟨(Store.OnlyLine.refl hst).readyToRead, fun hq => by rw [readyToRead_of_quiet hq]⟩
    have hd := fun d => hh.setDir d
    rw [← Option.some.inj hr]
    dsimp only
    split
    · exact fillL2 hroom hcore (fillCore hroom hcore (hd _) _) _
    · exact (fillL2 hroom hcore (fillCore hroom hcore (hd _) _) _).setDir _
    · exact hd _

theorem loadAtL2 (pol : Policy) (pts lease : Nat) (c : Copy) : Loaded line st (loadAtL2 st core line pol pts lease c).2.2 := by
  have hp := fun c => (⟨Store.OnlyLine.refl hst, fun _ => rfl⟩ : Loaded line st st).putCopy (l2Holder_lt hcore) c
  unfold Machine.loadAtL2
  dsimp only
  split
  · exact fillCore hroom hcore (hp _) _
  · exact fillCore hroom hcore (loadAtCopy hst (l2Holder_lt hcore) _ _ _) _

theorem elsewhere {pol : Policy} {pts lease : Nat} {r : Served} (hr : serveLoad.elsewhere st core line pol pts lease = some r) :
    Loaded line st r.2.2 := by
  have home := fun (h : Machine.loadAtHome st core line pol pts lease = some r) => loadAtHome hroom hcore hst h
  unfold serveLoad.elsewhere at hr
  split at hr
  · obtain ⟨v, hv, hc⟩ := Option.bind_eq_some_iff.mp hr
    obtain ⟨c, -, rfl⟩ := Option.map_eq_some_iff.mp hc
    have ha := acquireOwn hroom hcore hst hv
    exact ⟨ha.only.loadAtCopy (by omega) _ _ _, fun hq => (loadAtCopy_mem ..).trans (ha.mem hq)⟩
  · split at hr
    · split at hr
      · cases hr
        exact loadAtL2 hroom hcore hst _ _ _ _
      · exact home hr
    · exact home hr

theorem serveLoad {pol : Policy} {pts lease : Nat} {r : Served} (hr : serveLoad st core line pol pts lease = some r) : Loaded line st r.2.2 := by
  have other := fun (h : serveLoad.elsewhere st core line pol pts lease = some r) => elsewhere hroom hcore hst h
  unfold Machine.serveLoad at hr
  split at hr
  · cases hr
    exact loadHost hroom hcore hst _ _ _
  · split at hr
    · split at hr
      · cases hr
        exact loadAtCopy hst (by omega) _ _ _
      · exact other hr
    · exact other hr

end

end Store.Loaded

end Sys2Proof.Machine

/-! SUPPORT. The statement on stores, part 4: where the data of a store and of an atomic stands. -/

namespace Sys2Proof.Machine

/-! ### Where a store of a core stands (R155, R160, R163) -/

/-- The device's words of a host-homed line; none of them where its proxy holds nothing. -/
def proxyCopy (st : Store) (line : Nat) : Copy := (copyAt st proxyHolder line).getD { state := .leased, data := 0, mask := 0, wts := 0, rts := 0 }

theorem proxyData_eq (st : Store) (line : Nat) :
    proxyData st line = lineMerge (lineData st.mem line) (proxyCopy st line).data (proxyCopy st line).mask := by
  unfold proxyData proxyCopy
  split
  · rename_i hc
    rw [hc]
    rfl
  · rename_i hc
    rw [hc]
    exact (lineMerge_zero _ _).symm

theorem proxyData_of_copyAt {st : Store} {line : Nat} {c : Copy} (h : copyAt st proxyHolder line = some c) :
    proxyData st line = lineMerge (lineData st.mem line) c.data c.mask := by
  rw [proxyData_eq, proxyCopy, h]
  rfl

/-- Writing words of a line leaves the bits of the others. -/
theorem getLsbD_lineData_memPutLine {m : List Host.Cell} (hm : Memory.wf m = true) (line : Nat) (x : BitVec 512) {mask : BitVec 16} {i : Nat}
    (hi : i < 512) (hmask : ¬ mask.getLsbD (i / 32) = true) : (lineData (memPutLine m line x mask) line).getLsbD i = (lineData m line).getLsbD i := by
  rw [getLsbD_lineData _ _ hi, getLsbD_lineData _ _ hi, memRead_memPutLine hm, if_neg]
  rintro ⟨-, hset, -⟩
  exact hmask (by rwa [show (64 * line + i / 8) % 64 / 4 = i / 32 by omega] at hset)

/-- Masked words stored over the device's words stand before all else, whether or not they go through to memory too. -/
theorem lineMerge_store {x0 y0 : BitVec 512} {mask : BitVec 16} (h : ∀ i < 512, ¬ mask.getLsbD (i / 32) = true → y0.getLsbD i = x0.getLsbD i)
    (d x : BitVec 512) (held : BitVec 16) : lineMerge y0 (lineMerge d x mask) (held ||| mask) = lineMerge (lineMerge x0 d held) x mask := by
  refine BitVec.eq_of_getLsbD_eq fun i hi => ?_
  simp only [getLsbD_lineMerge, BitVec.getLsbD_or, Bool.or_eq_true]
  by_cases hm : mask.getLsbD (i / 32) = true
  · rw [if_pos (.inr hm), if_pos hm, if_pos hm]
  · by_cases hd : held.getLsbD (i / 32) = true
    · rw [if_pos (.inl hd), if_neg hm, if_neg hm, if_pos hd]
    · rw [if_neg (not_or.mpr ⟨hd, hm⟩), if_neg hm, if_neg hd, h i hi hm]

/-- A store to a host-homed line, with the words at the proxy (R155). -/
def storedAtProxy (st : Store) (line pts : Nat) (mask : BitVec 16) (x : BitVec 512) : Store :=
  let p := proxyCopy st line
  let ts := storeStep pts (dirOf st line).rts
  setDir (putCopy st proxyHolder line { p with data := lineMerge p.data x mask, mask := p.mask ||| mask }) line
    { dirOf st line with wts := ts, rts := ts }

theorem storedAtProxy_only {st : Store} (hst : st.Canonical) (line pts : Nat) (mask : BitVec 16) (x : BitVec 512) :
    Store.OnlyLine line st (storedAtProxy st line pts mask x) :=
  ((Store.OnlyLine.refl hst).putCopy (by simp [proxyHolder]) _).setDir _

theorem copyAt_storedAtProxy (st : Store) (line pts : Nat) (mask : BitVec 16) (x : BitVec 512) :
    copyAt (storedAtProxy st line pts mask x) proxyHolder line =
      some { proxyCopy st line with data := lineMerge (proxyCopy st line).data x mask, mask := (proxyCopy st line).mask ||| mask } :=
  (copyAt_setDir ..).trans (copyAt_putCopy_same ..)

/-- Past the 512th dirty line of the core the words go through to host memory, else they are marked dirty in its L1. -/
theorem storeHost_cases (st : Store) (core line pts : Nat) (mask : BitVec 16) (x : BitVec 512) :
    (storeHost st core line pts mask x).2 = dropCopy { storedAtProxy st line pts mask x with mem := memPutLine st.mem line x mask } core line ∨
      ∃ c, (storeHost st core line pts mask x).2 = fillCopy (storedAtProxy st line pts mask x) core line c := by
  unfold storeHost
  dsimp only
  split_ifs
  · exact .inl rfl
  · exact .inr ⟨_, rfl⟩

section
variable {line core : Nat} {st u : Store} (hroom : st.HasRoom core) (hcore : core < 256)
include hroom hcore

theorem proxyData_storeHost (hst : st.Canonical) (pts : Nat) (mask : BitVec 16) (x : BitVec 512) :
    proxyData (storeHost st core line pts mask x).2 line = lineMerge (proxyData st line) x mask := by
  have hw := storedAtProxy_only hst line pts mask x
  have hcopy := copyAt_storedAtProxy st line pts mask x
  have hne : proxyHolder ≠ core := by simp only [proxyHolder]; omega
  rw [proxyData_eq st]
  obtain hu | ⟨c, hu⟩ := storeHost_cases st core line pts mask x
  · have hthrough : ∀ m, copyAt (dropCopy { storedAtProxy st line pts mask x with mem := m } core line) proxyHolder line = _ :=
      fun m => (copyAt_dropCopy_other _ hne hw.canonical.copies).trans hcopy
    rw [hu, proxyData_of_copyAt (hthrough _)]
    exact lineMerge_store (fun i hi hm => getLsbD_lineData_memPutLine hst.mem line x hi hm) _ _ _
  · rw [hu, fillCore_eq hroom hw, proxyData_of_copyAt ((copyAt_putCopy_other _ hne _).trans hcopy)]
    exact lineMerge_store (fun _ _ _ => rfl) _ _ _

theorem keepAtHome_data (hu : Store.OnlyLine line st u) (pol : Policy) (ts lease : Nat) :
    (keepAtHome u core line pol ts lease).mem = u.mem ∧
      ∀ c, copyAt (keepAtHome u core line pol ts lease) core line = some c → c.data = lineData u.mem line := by
  have hfill := fun c => fillCore_eq hroom hu c
  unfold keepAtHome
  dsimp only
  split
  · rw [hfill]
    refine ⟨rfl, fun c hc => ?_⟩
    rw [copyAt_setDir, copyAt_putCopy_same] at hc
    cases hc
    rfl
  · rw [hfill, fillL2_eq hroom (hu.putCopy (by omega) _)]
    refine ⟨rfl, fun c hc => ?_⟩
    rw [copyAt_setDir, copyAt_putCopy_other _ (l2Holder_ne hcore).symm, copyAt_putCopy_same] at hc
    cases hc
    rfl
  · refine ⟨rfl, fun c hc => ?_⟩
    rw [copyAt_dropCopy_same _ _ _ hu.canonical.copies] at hc
    cases hc

/-- The copy that the owning die keeps after a store is the one that took it. -/
theorem keepInDie_data (hu : Store.OnlyLine line st u) (pol : Policy) (ts lease : Nat) {c : Copy}
    (hc : copyAt u (l2Holder (dieOf core)) line = some c) :
    (keepInDie u core line pol ts lease).mem = u.mem ∧
      ∃ k, copyAt (keepInDie u core line pol ts lease) (l2Holder (dieOf core)) line = some k ∧ k.data = c.data := by
  have hfill := fun c => fillCore_eq hroom hu c
  unfold keepInDie
  dsimp only
  rw [hc]
  dsimp only
  split
  · rw [hfill]
    exact ⟨rfl, _, copyAt_putCopy_same _ _ _ _, rfl⟩
  · rw [hfill]
    exact ⟨rfl, c, (copyAt_putCopy_other _ (l2Holder_ne hcore) _).trans hc, rfl⟩
  · exact ⟨rfl, c, (copyAt_dropCopy_other _ (l2Holder_ne hcore) hu.canonical.copies).trans hc, rfl⟩

end

/-- What a copy that takes a store holds. -/
theorem storeAtCopy_data {st : Store} {holder line pts : Nat} {mask : BitVec 16} {x : BitVec 512} {r : Nat × Store} {c : Copy}
    (hr : storeAtCopy st holder line pts mask x = some r) (hc : copyAt st holder line = some c) :
    r.2.mem = st.mem ∧ ∃ k, copyAt r.2 holder line = some k ∧ k.data = withoutReserved line (lineMerge c.data x mask) := by
  rw [storeAtCopy, hc, Option.map_some, Option.some.injEq] at hr
  rw [← hr]
  exact ⟨rfl, _, (copyAt_setDir ..).trans (copyAt_putCopy_same ..), rfl⟩

section
variable {line core : Nat} {st u : Store} {pol : Policy} {pts lease ts : Nat} {mask : BitVec 16} {x : BitVec 512}
  (hs : serveStore st core line pol pts lease mask x = some (ts, u))
include hs

theorem serveStore_host (hroom : st.HasRoom core) (hcore : core < 256) (hst : st.Canonical) (hhost : isHostLine line = true) :
    proxyData u line = lineMerge (proxyData st line) x mask := by
  rw [serveStore, if_pos hhost] at hs
  rw [← proxyData_storeHost hroom hcore hst pts mask x, Option.some.inj hs]

variable (hhost : isHostLine line = false)
include hhost

theorem serveStore_own (hpol : pol = .own) {v : Store} {c : Copy} (hv : acquireOwn st core line = some v) (hc : copyAt v core line = some c) :
    u.mem = v.mem ∧ ∃ k, copyAt u core line = some k ∧ k.data = withoutReserved line (lineMerge c.data x mask) := by
  rw [serveStore, if_neg (by simp [hhost]), if_pos hpol, hv] at hs
  exact storeAtCopy_data hs hc

variable (hpol : pol ≠ .own)
include hpol

/-- No store performs while the host must answer first. -/
theorem serveStore_not_blocked : hostBlocks st line true = false := by
  rw [serveStore, if_neg (by simp [hhost]), if_neg hpol] at hs
  by_contra hb
  rw [if_pos (by simpa using hb)] at hs
  cases hs

variable (hroom : st.HasRoom core) (hcore : core < 256) (hst : st.Canonical)
include hroom hcore hst

theorem serveStore_inDie (hdie : (dirOf st line).state = .owned (dieOf core)) {c : Copy}
    (hc : copyAt (readyInDie st (dieOf core) line true) (l2Holder (dieOf core)) line = some c) :
    u.mem = (readyInDie st (dieOf core) line true).mem ∧
      ∃ k, copyAt u (l2Holder (dieOf core)) line = some k ∧ k.data = withoutReserved line (lineMerge c.data x mask) := by
  have hb := serveStore_not_blocked hs hhost hpol
  rw [serveStore, if_neg (by simp [hhost]), if_neg hpol, if_neg (by simp [hb]), if_pos hdie] at hs
  obtain ⟨r, hr, hk⟩ := Option.map_eq_some_iff.mp hs
  cases hk
  have hready := Store.OnlyLine.readyInDie hroom hcore (.refl hst) (line := line) true
  obtain ⟨hmem, k, hcopy, hdata⟩ := storeAtCopy_data hr hc
  obtain ⟨hmem', k', hcopy', hdata'⟩ := keepInDie_data hroom hcore (hready.storeAtCopy (l2Holder_lt hcore) hr) pol r.1 lease hcopy
  exact ⟨hmem'.trans hmem, k', hcopy', hdata'.trans hdata⟩

theorem serveStore_home (hdie : (dirOf st line).state ≠ .owned (dieOf core)) : u.mem = memPutLine (readyToWrite st line).mem line x mask ∧
    ∀ c, copyAt u core line = some c → c.data = lineData u.mem line := by
  have hb := serveStore_not_blocked hs hhost hpol
  rw [serveStore, if_neg (by simp [hhost]), if_neg hpol, if_neg (by simp [hb]), if_neg hdie] at hs
  cases hs
  have hready := (Store.OnlyLine.refl hst (line := line)).readyToWrite.storeAtHome pts mask x
  obtain ⟨hmem, hcopy⟩ := keepAtHome_data hroom hcore hready pol (storeAtHome (readyToWrite st line) line pts mask x).1 lease
  exact ⟨hmem, fun c hc => (hcopy c hc).trans (congrArg (lineData · line) hmem.symm)⟩

end

/-! ### Where an atomic stands (R155, R193, R194) -/

/-- A line that finds room at its engine is used without a write-back. -/
theorem useEngine_eq {st : Store} {line : Nat}
    (h : ((line :: st.engineUse.filter (· != line)).filter fun l => homeDie l == homeDie line).length ≤ 32768) :
    useEngine st line = { st with engineUse := line :: st.engineUse.filter (· != line) } := by
  unfold useEngine
  dsimp only
  rw [decide_eq_false (by simpa [engineRoom] using h)]

/-- The line that an atomic leaves. -/
def atomicLine (off n : Nat) (op : AtomicOp) (b y : Nat) (d : BitVec 512) : BitVec 512 :=
  lineSet d off n (atomicFn op (8 * n) (lineNat d off n) (b % 256 ^ n) (y % 256 ^ n))

/-- The stores with the line at its home's engine. -/
def takeToEngine (st : Store) (line : Nat) : Store :=
  let u := readyToWrite st line
  setDir (putCopy u (engineHolder (homeDie line)) line
    { state := .owned, data := lineData u.mem line, mask := 0, wts := (dirOf u line).wts, rts := (dirOf u line).rts }) line
    { dirOf u line with state := .owned 4 }

theorem engineHolder_lt (line : Nat) : engineHolder (homeDie line) < 512 := by
  simp only [engineHolder, homeDie]
  omega

section
variable {line off n pts b y old ts : Nat} {op : AtomicOp} {st u : Store}

/-- An atomic at an engine that has the line. -/
def atomicAtEngine (st : Store) (line off n pts : Nat) (op : AtomicOp) (b y : Nat) : Option (Nat × Nat × Store) :=
  (copyAt (useEngine st line) (engineHolder (homeDie line)) line).map fun k =>
    (lineNat k.data off n, storeStep pts k.rts, putCopy (useEngine st line) (engineHolder (homeDie line)) line
      { k with state := .modified, data := withoutReserved line (atomicLine off n op b y k.data), wts := storeStep pts k.rts, rts := storeStep pts k.rts })

theorem serveAtomic_engine (hhost : isHostLine line = false) (h : serveAtomic st line off n pts op b y = some (old, ts, u)) :
    ((dirOf st line).state = .owned 4 ∧ atomicAtEngine st line off n pts op b y = some (old, ts, u)) ∨
      ((dirOf st line).state ≠ .owned 4 ∧ atomicAtEngine (takeToEngine st line) line off n pts op b y = some (old, ts, u)) := by
  unfold serveAtomic at h
  rw [if_neg (by simp [hhost])] at h
  dsimp only at h
  have finish : ∀ w : Store, (match copyAt (useEngine w line) (engineHolder (homeDie line)) line with
      | none => none
      | some k => some (lineNat k.data off n, storeStep pts k.rts, putCopy (useEngine w line) (engineHolder (homeDie line)) line
          { k with state := .modified, data := withoutReserved line (atomicLine off n op b y k.data), wts := storeStep pts k.rts,
                   rts := storeStep pts k.rts })) = some (old, ts, u) → atomicAtEngine w line off n pts op b y = some (old, ts, u) := by
    intro w hw
    unfold atomicAtEngine
    cases hc : copyAt (useEngine w line) (engineHolder (homeDie line)) line with
    | none => rw [hc] at hw; cases hw
    | some k => rw [hc] at hw; exact hw
  split_ifs at h with hown hb
  · exact .inl ⟨hown, finish st h⟩
  · exact .inr ⟨hown, finish (takeToEngine st line) h⟩

theorem atomicAtEngine_data {w : Store} (hw : Store.OnlyLine line st w)
    (huse : ((line :: st.engineUse.filter (· != line)).filter fun l => homeDie l == homeDie line).length ≤ 32768)
    (h : atomicAtEngine w line off n pts op b y = some (old, ts, u)) :
    Store.OnlyLine line st u ∧ u.mem = w.mem ∧ ∀ c, copyAt w (engineHolder (homeDie line)) line = some c →
      ∃ k, copyAt u (engineHolder (homeDie line)) line = some k ∧ k.data = withoutReserved line (atomicLine off n op b y c.data) := by
  rw [← hw.engineUse] at huse
  rw [atomicAtEngine, useEngine_eq huse] at h
  obtain ⟨k, hk, hu⟩ := Option.map_eq_some_iff.mp h
  cases hu
  refine ⟨hw.used.putCopy (engineHolder_lt line) _, rfl, fun c hc => ⟨_, copyAt_putCopy_same _ _ _ _, ?_⟩⟩
  rw [show k = c from Option.some.inj (hk.symm.trans hc)]

theorem serveAtomic_host (hst : st.Canonical) (hhost : isHostLine line = true) (h : serveAtomic st line off n pts op b y = some (old, ts, u)) :
    let v := proxyFetch (writeBackLine st line) line
    Store.OnlyLine line st u ∧ u.mem = memPutLine v.mem line (atomicLine off n op b y (proxyData v line)) (wordMask off n) ∧
      proxyData u line = atomicLine off n op b y (proxyData v line) := by
  rw [serveAtomic, if_pos hhost] at h
  cases h
  have hv := (Store.OnlyLine.refl hst (line := line)).writeBackLine.proxyFetch
  refine ⟨((hv.putLine _ _).putCopy (by simp [proxyHolder]) _).setDir _, rfl, ?_⟩
  rw [proxyData_of_copyAt ((copyAt_setDir ..).trans (copyAt_putCopy_same ..)), lineMerge_full]
  rfl

end

end Sys2Proof.Machine

/-! SUPPORT. The statement on stores, part 5: combining, atomics on device lines, and the statement. -/

namespace Sys2Proof.Machine

/-! ### Words and elements of a line (R54) -/

theorem width_eq_bytes (t : ElemType) : t.width = 8 * (t.width / 8) ∧ t.width / 8 * t.perLane = 4 := by
  cases t <;> simp [ElemType.width, ElemType.perLane]

/-- The elements of a lane lie in its four bytes. -/
theorem elem_fits (t : ElemType) {j : Nat} (hj : j < t.perLane) : t.width / 8 * j + t.width / 8 ≤ 4 := by
  have h := Nat.mul_le_mul_left (t.width / 8) (Nat.succ_le_of_lt hj)
  rwa [(width_eq_bytes t).2, Nat.mul_succ] at h

/-- An element of a word of a line, as bytes of the line. -/
theorem laneElem_lineWord (t : ElemType) (x : BitVec 512) (w : Nat) {j : Nat} (hj : j < t.perLane) :
    laneElem t (lineWord x w) j = lineNat x (4 * w + t.width / 8 * j) (t.width / 8) := by
  have hfits := elem_fits t hj
  have hwidth : t.width * j = 8 * (t.width / 8 * j) := by rw [← mul_assoc, ← (width_eq_bytes t).1]
  refine Nat.eq_of_testBit_eq fun i => ?_
  rw [laneElem, Nat.testBit_mod_two_pow, Nat.testBit_div_two_pow, testBit_lineNat, ← (width_eq_bytes t).1]
  by_cases hi : i < t.width
  · change (_ && (lineWord x w).getLsbD (i + t.width * j)) = _
    have hi8 := (width_eq_bytes t).1 ▸ hi
    rw [getLsbD_lineWord, hwidth, decide_eq_true (show i + 8 * (t.width / 8 * j) < 32 by omega), Bool.true_and,
      show 8 * (4 * w + t.width / 8 * j) + i = 32 * w + (i + 8 * (t.width / 8 * j)) by omega]
  · rw [decide_eq_false hi, Bool.false_and, Bool.false_and]

theorem lineNat_lineSet_same (x : BitVec 512) {off n : Nat} (h : off + n ≤ 64) (v : Nat) : lineNat (lineSet x off n v) off n = v % 256 ^ n := by
  refine Nat.eq_of_testBit_eq fun i => ?_
  rw [testBit_lineNat, getLsbD_lineSet x h, pow_256, Nat.testBit_mod_two_pow]
  by_cases hi : i < 8 * n
  · rw [if_pos (by omega), Nat.add_sub_cancel_left]
  · rw [decide_eq_false hi, Bool.false_and, Bool.false_and]

theorem lineNat_lineSet_apart (x : BitVec 512) {off n off' n' : Nat} (h : off + n ≤ 64) (hapart : off + n ≤ off' ∨ off' + n' ≤ off) (v : Nat) :
    lineNat (lineSet x off n v) off' n' = lineNat x off' n' := by
  refine Nat.eq_of_testBit_eq fun i => ?_
  rw [testBit_lineNat, testBit_lineNat]
  by_cases hi : i < 8 * n'
  · rw [getLsbD_lineSet x h, if_neg (by omega)]
  · rw [decide_eq_false hi, Bool.false_and, Bool.false_and]

theorem lineWord_lineSet_apart (x : BitVec 512) {off n w : Nat} (h : off + n ≤ 64) (hapart : off + n ≤ 4 * w ∨ 4 * w + 4 ≤ off) (v : Nat) :
    lineWord (lineSet x off n v) w = lineWord x w := by
  refine BitVec.eq_of_getLsbD_eq fun i hi => ?_
  rw [getLsbD_lineWord, getLsbD_lineWord, getLsbD_lineSet x h, if_neg (by omega)]

theorem lineWord_lineSet_same (x : BitVec 512) {w : Nat} (hw : w < 16) (v : W32) : lineWord (lineSet x (4 * w) 4 v.toNat) w = v := by
  refine BitVec.eq_of_getLsbD_eq fun i hi => ?_
  rw [getLsbD_lineWord, getLsbD_lineSet x (by omega), if_pos (by omega), decide_eq_true hi, Bool.true_and,
    show 32 * w + i - 8 * (4 * w) = i by omega]
  rfl

/-! ### Combining element by element (R170, R171) -/

section
variable (t : ElemType) (op : RedOp)

/-- One word of data combined with that of a partial. -/
def combineLane (d : BitVec 512) (w : Nat) (x : BitVec 512) : BitVec 512 :=
  (List.range t.perLane).foldl (fun x e => lineSet x (4 * w + t.width / 8 * e) (t.width / 8)
    (combine op t (lineNat x (4 * w + t.width / 8 * e) (t.width / 8)) (lineNat d (4 * w + t.width / 8 * e) (t.width / 8))).1) x

theorem combineWords_eq (x : BitVec 512) (c : Copy) : combineWords t op x c =
    (List.range 16).foldl (fun x w => if c.mask.getLsbD w then combineLane t op c.data w x else x) x := rfl

theorem laneElem_combineLane (d x : BitVec 512) {w j : Nat} (hw : w < 16) (hj : j < t.perLane) :
    laneElem t (lineWord (combineLane t op d w x) w) j =
      (combine op t (laneElem t (lineWord x w) j) (laneElem t (lineWord d w) j)).1 % 2 ^ t.width := by
  have hpow : 256 ^ (t.width / 8) = 2 ^ t.width := by rw [pow_256, ← (width_eq_bytes t).1]
  rw [laneElem_lineWord t _ w hj, laneElem_lineWord t _ w hj, laneElem_lineWord t _ w hj, combineLane, ← hpow]
  rw [(foldl_range_at (fun _ => True) (fun z => lineNat z (4 * w + t.width / 8 * j) (t.width / 8))
    (fun v => (combine op t v (lineNat d (4 * w + t.width / 8 * j) (t.width / 8))).1 % 256 ^ (t.width / 8)) (k := j) trivial
    (fun _ _ _ _ => trivial) (fun z e he hne _ => ?_) (fun _ z _ => ?_)).2, if_pos hj]
  · have hfits := elem_fits t he
    refine lineNat_lineSet_apart z (by omega) ?_ _
    rcases Nat.lt_or_gt_of_ne hne with hlt | hlt
    · have h := Nat.mul_le_mul_left (t.width / 8) (Nat.succ_le_of_lt hlt)
      rw [Nat.mul_succ] at h
      exact .inl (by omega)
    · have h := Nat.mul_le_mul_left (t.width / 8) (Nat.succ_le_of_lt hlt)
      rw [Nat.mul_succ] at h
      exact .inr (by omega)
  · have hfits := elem_fits t hj
    exact lineNat_lineSet_same z (by omega) _

theorem lineWord_combineLane_other (d x : BitVec 512) {w v : Nat} (hw : w < 16) (hne : v ≠ w) :
    lineWord (combineLane t op d w x) v = lineWord x v := by
  refine List.foldlRecOn (motive := fun z => lineWord z v = lineWord x v) _ _ rfl fun z hz e he => ?_
  have hfits := elem_fits t (List.mem_range.mp he)
  rw [lineWord_lineSet_apart z (by omega) (by omega), hz]

theorem lineWord_combineWords_unmasked (x : BitVec 512) (c : Copy) {w : Nat} (h : c.mask.getLsbD w = false) :
    lineWord (combineWords t op x c) w = lineWord x w := by
  refine List.foldlRecOn (motive := fun z => lineWord z w = lineWord x w) _ _ rfl fun z hz v hv => ?_
  by_cases hm : c.mask.getLsbD v = true
  · have hne : w ≠ v := fun hwv => by rw [hwv, hm] at h; cases h
    rw [if_pos hm]
    exact (lineWord_combineLane_other t op c.data z (List.mem_range.mp hv) hne).trans hz
  · rwa [if_neg hm]

theorem laneElem_combineWords (x : BitVec 512) (c : Copy) {w j : Nat} (hw : w < 16) (hj : j < t.perLane) (h : c.mask.getLsbD w = true) :
    laneElem t (lineWord (combineWords t op x c) w) j =
      (combine op t (laneElem t (lineWord x w) j) (laneElem t (lineWord c.data w) j)).1 % 2 ^ t.width := by
  rw [combineWords_eq, (foldl_range_at (fun _ => True) (fun z => laneElem t (lineWord z w) j)
    (fun v => (combine op t v (laneElem t (lineWord c.data w) j)).1 % 2 ^ t.width) (k := w) trivial (fun _ _ _ _ => trivial)
    (fun z v hv hne _ => ?_) (fun _ z _ => ?_)).2, if_pos hw]
  · by_cases hm : c.mask.getLsbD v = true
    · rw [if_pos hm, lineWord_combineLane_other t op c.data z hv hne.symm]
    · rw [if_neg hm]
  · rw [if_pos h]
    exact laneElem_combineLane t op c.data z hw hj

/-- One word that a `cadd` brings into the core's partial (R170). -/
def combineStep (c : Copy) (e : Nat × W32) : Copy :=
  let bit : BitVec 16 := BitVec.ofNat 16 (2 ^ e.1)
  let one : Copy := { c with data := lineSet 0 (4 * e.1) 4 e.2.toNat, mask := bit }
  if c.mask.getLsbD e.1 then { c with data := combineWords t op c.data one }
  else { c with data := lineSet c.data (4 * e.1) 4 e.2.toNat, mask := c.mask ||| bit }

theorem combineStep_held {c : Copy} {e : Nat × W32} (h : c.mask.getLsbD e.1 = true) : combineStep t op c e =
    { c with data := combineWords t op c.data { c with data := lineSet 0 (4 * e.1) 4 e.2.toNat, mask := BitVec.ofNat 16 (2 ^ e.1) } } := if_pos h

theorem combineStep_new {c : Copy} {e : Nat × W32} (h : c.mask.getLsbD e.1 = false) : combineStep t op c e =
    { c with data := lineSet c.data (4 * e.1) 4 e.2.toNat, mask := c.mask ||| BitVec.ofNat 16 (2 ^ e.1) } := if_neg (by simp [h])

theorem getLsbD_wordBit (n : Nat) {w : Nat} (hw : w < 16) : (BitVec.ofNat 16 (2 ^ n)).getLsbD w = (n == w) := by
  rw [BitVec.getLsbD_ofNat, decide_eq_true hw, Bool.true_and, Nat.testBit_two_pow]
  rfl

theorem state_combineStep (c : Copy) (e : Nat × W32) : (combineStep t op c e).state = c.state := by
  unfold combineStep
  dsimp only
  split <;> rfl

theorem mask_combineStep (c : Copy) (e : Nat × W32) {w : Nat} (hw : w < 16) :
    (combineStep t op c e).mask.getLsbD w = (c.mask.getLsbD w || e.1 == w) := by
  cases h : c.mask.getLsbD e.1 with
  | false => rw [combineStep_new t op h, BitVec.getLsbD_or, getLsbD_wordBit e.1 hw]
  | true =>
    rw [combineStep_held t op h]
    by_cases hew : e.1 = w
    · rw [← hew, h, Bool.true_or]
    · rw [beq_eq_false_iff_ne.mpr hew, Bool.or_false]

theorem lineWord_combineStep_other (c : Copy) {e : Nat × W32} (he : e.1 < 16) {w : Nat} (hw : w < 16) (hne : e.1 ≠ w) :
    lineWord (combineStep t op c e).data w = lineWord c.data w := by
  cases h : c.mask.getLsbD e.1 with
  | false =>
    rw [combineStep_new t op h]
    exact lineWord_lineSet_apart _ (by omega) (by omega) _
  | true =>
    rw [combineStep_held t op h]
    refine lineWord_combineWords_unmasked t op _ _ ?_
    rw [getLsbD_wordBit e.1 hw]
    exact beq_eq_false_iff_ne.mpr hne

theorem lineWord_combineStep_new {c : Copy} {e : Nat × W32} (he : e.1 < 16) (h : c.mask.getLsbD e.1 = false) :
    lineWord (combineStep t op c e).data e.1 = e.2 := by
  rw [combineStep_new t op h]
  exact lineWord_lineSet_same _ he _

theorem laneElem_combineStep_held {c : Copy} {e : Nat × W32} (he : e.1 < 16) (h : c.mask.getLsbD e.1 = true) {j : Nat} (hj : j < t.perLane) :
    laneElem t (lineWord (combineStep t op c e).data e.1) j =
      (combine op t (laneElem t (lineWord c.data e.1) j) (laneElem t e.2 j)).1 % 2 ^ t.width := by
  rw [combineStep_held t op h]
  dsimp only
  rw [laneElem_combineWords t op _ _ he hj (by rw [getLsbD_wordBit e.1 he]; exact beq_self_eq_true _), lineWord_lineSet_same _ he]

/-- What the words of a `cadd` leave of a partial: an unheld word is taken, a held one combined, every other one kept (R170). -/
structure Combined (c : Copy) (ws : List (Nat × W32)) (k : Copy) : Prop where
  state : k.state = c.state
  mask : ∀ w < 16, k.mask.getLsbD w = (c.mask.getLsbD w || ws.any fun e => e.1 == w)
  kept : ∀ w < 16, (∀ e ∈ ws, e.1 ≠ w) → lineWord k.data w = lineWord c.data w
  taken : ∀ e ∈ ws, c.mask.getLsbD e.1 = false → lineWord k.data e.1 = e.2
  combined : ∀ e ∈ ws, c.mask.getLsbD e.1 = true → ∀ j < t.perLane, laneElem t (lineWord k.data e.1) j =
    (combine op t (laneElem t (lineWord c.data e.1) j) (laneElem t e.2 j)).1 % 2 ^ t.width

theorem combined_foldl {ws : List (Nat × W32)} (hnodup : (ws.map (·.1)).Nodup) (hlt : ∀ e ∈ ws, e.1 < 16) (c : Copy) :
    Combined t op c ws (ws.foldl (combineStep t op) c) := by
  induction ws generalizing c with
  | nil => exact ⟨rfl, fun w _ => by simp, fun _ _ _ => rfl, nofun, nofun⟩
  | cons e es ih =>
    obtain ⟨he, hes⟩ := List.forall_mem_cons.mp hlt
    rw [List.map_cons, List.nodup_cons] at hnodup
    obtain ⟨hfresh, hrest⟩ := hnodup
    have hother : ∀ d ∈ es, e.1 ≠ d.1 := fun d hd hed => hfresh (List.mem_map.mpr ⟨d, hd, hed.symm⟩)
    have hk := ih hrest hes (combineStep t op c e)
    rw [List.foldl_cons]
    have hfirst : lineWord (es.foldl (combineStep t op) (combineStep t op c e)).data e.1 = lineWord (combineStep t op c e).data e.1 :=
      hk.kept e.1 he fun d hd hde => hother d hd hde.symm
    have hmask : ∀ d ∈ es, (combineStep t op c e).mask.getLsbD d.1 = c.mask.getLsbD d.1 := fun d hd => by
      rw [mask_combineStep t op c e (hes d hd), beq_eq_false_iff_ne.mpr (hother d hd), Bool.or_false]
    refine ⟨hk.state.trans (state_combineStep t op c e), fun w hw => ?_, fun w hw hno => ?_, ?_, ?_⟩
    · rw [hk.mask w hw, mask_combineStep t op c e hw, List.any_cons, Bool.or_assoc]
    · obtain ⟨hew, hesw⟩ := List.forall_mem_cons.mp hno
      rw [hk.kept w hw hesw, lineWord_combineStep_other t op c he hw hew]
    · refine List.forall_mem_cons.mpr ⟨fun hm => hfirst.trans (lineWord_combineStep_new t op he hm), fun d hd hm => ?_⟩
      exact hk.taken d hd ((hmask d hd).trans hm)
    · refine List.forall_mem_cons.mpr ⟨fun hm j hj => ?_, fun d hd hm j hj => ?_⟩
      · rw [hfirst, laneElem_combineStep_held t op he hm hj]
      · rw [hk.combined d hd ((hmask d hd).trans hm) j hj, lineWord_combineStep_other t op c he (hes d hd) (hother d hd)]

/-! ### A `cadd` at a core (R163, R164, R170) -/

section
variable {st : Store} {core line : Nat}

/-- A core that holds a partial of the kind takes the words into it. -/
theorem serveCombine_held {c : Copy} (hc : copyAt st core line = some c) (hs : c.state = .combining t op) (pts : Nat) (ws : List (Nat × W32)) :
    serveCombine st core line pts t op ws = some (max pts (c.rts + 1), putCopy st core line
      { ws.foldl (combineStep t op) c with wts := max (ws.foldl (combineStep t op) c).wts (max pts (c.rts + 1)) }) := by
  have hpartial : c.state.isPartial = true := by rw [hs]; rfl
  have hsame : (c.state != .combining t op) = false := by simp [hs]
  unfold serveCombine
  simp only [hc, hsame, hpartial, Bool.and_false, Bool.false_eq_true, if_false, if_true, Option.map_some]
  rfl

/-- A core that is granted a partial holds an empty one of the kind. -/
theorem copyAt_grantPartial (hroom : st.HasRoom core) (hcore : core < 256) (hst : st.Canonical) {v : Store}
    (hv : grantPartial st core line t op = some v) : ∃ c, copyAt v core line = some c ∧ c.state = .combining t op ∧ c.mask = 0 := by
  have grant : ∀ {w : Store}, Store.OnlyLine line st w → ∀ c, copyAt (fillCopy (dropCopy w core line) core line c) core line = some c := by
    intro w hw c
    rw [fillCore_eq hroom (hw.dropCopy (by omega))]
    exact copyAt_putCopy_same _ _ _ _
  have hrefl := Store.OnlyLine.refl hst (line := line)
  unfold grantPartial at hv
  dsimp only at hv
  split_ifs at hv with hb hdie hsame
  · obtain ⟨c, -, rfl⟩ := Option.map_eq_some_iff.mp hv
    exact ⟨_, grant hrefl _, rfl, rfl⟩
  · obtain ⟨c, -, rfl⟩ := Option.map_eq_some_iff.mp hv
    exact ⟨_, grant (Store.OnlyLine.readyInDie hroom hcore hrefl true) _, rfl, rfl⟩
  · rw [← Option.some.inj hv]
    refine ⟨_, (copyAt_setDir ..).trans (grant ?_ _), rfl, rfl⟩
    split
    · exact hrefl
    · exact hrefl.readyToWrite

/-- A core without a copy combines into the partial that it is granted. -/
theorem serveCombine_granted {v : Store} (hnone : copyAt st core line = none) (hv : grantPartial st core line t op = some v) {c : Copy}
    (hc : copyAt v core line = some c) (hs : c.state = .combining t op) (pts : Nat) (ws : List (Nat × W32)) :
    serveCombine st core line pts t op ws = serveCombine v core line pts t op ws := by
  rw [serveCombine_held t op hc hs]
  unfold serveCombine
  simp only [hnone, hv, hc, Option.map_some]
  rfl

end

end

/-! ### An atomic on a device line (R164, R193) -/

section
variable {st u : Store} {line off n pts b y old ts : Nat} {op : AtomicOp}

theorem takeToEngine_only (hst : st.Canonical) : Store.OnlyLine line st (takeToEngine st line) :=
  ((Store.OnlyLine.refl hst).readyToWrite.putCopy (engineHolder_lt line) _).setDir _

theorem copyAt_takeToEngine : ∃ c, copyAt (takeToEngine st line) (engineHolder (homeDie line)) line = some c ∧
    c.data = lineData (readyToWrite st line).mem line :=
  ⟨_, (copyAt_setDir ..).trans (copyAt_putCopy_same ..), rfl⟩

/-- The engine works on the copy that it owns, or on the line that it takes from its home. -/
theorem serveAtomic_device (hst : st.Canonical)
    (huse : ((line :: st.engineUse.filter (· != line)).filter fun l => homeDie l == homeDie line).length ≤ 32768)
    (hhost : isHostLine line = false) (h : serveAtomic st line off n pts op b y = some (old, ts, u)) :
    let engine := engineHolder (homeDie line)
    let holds := fun d => ∃ k, copyAt u engine line = some k ∧ k.data = withoutReserved line (atomicLine off n op b y d)
    Store.OnlyLine line st u ∧
      ((dirOf st line).state = .owned 4 → u.mem = st.mem ∧ ∀ c, copyAt st engine line = some c → holds c.data) ∧
      ((dirOf st line).state ≠ .owned 4 → u.mem = (readyToWrite st line).mem ∧ holds (lineData (readyToWrite st line).mem line)) := by
  rcases serveAtomic_engine hhost h with ⟨howned, hdone⟩ | ⟨howned, hdone⟩
  · obtain ⟨honly, hmem, hholds⟩ := atomicAtEngine_data (Store.OnlyLine.refl hst) huse hdone
    exact ⟨honly, fun _ => ⟨hmem, hholds⟩, fun hne => absurd howned hne⟩
  · obtain ⟨honly, hmem, hholds⟩ := atomicAtEngine_data (takeToEngine_only hst) huse hdone
    obtain ⟨c, hc, hdata⟩ := copyAt_takeToEngine (st := st) (line := line)
    exact ⟨honly, fun heq => absurd heq howned, fun _ => ⟨hmem, hdata ▸ hholds c hc⟩⟩

end

/-! ### The statement -/

/-- What the statement says of every other line. -/
theorem Store.OnlyLine.others {line : Nat} {st u : Store} (hst : st.Canonical) (h : Store.OnlyLine line st u) :
    ∀ l, l ≠ line → dirOf u l = dirOf st l ∧ (∀ holder < 512, copyAt u holder l = copyAt st holder l) ∧
      ∀ j < 64, memRead u.mem (64 * l + j) = memRead st.mem (64 * l + j) :=
  fun l hl => ⟨h.dirs l hl, fun _ hh => h.copyAt_other hst hl hh, fun _ _ => h.mem _ (by omega)⟩

/-- Settles O28: lines by their bits, the accesses by the one line that they change, and what stands in it by the copy that takes it. -/
theorem storesReadBack : Obligations.StoresReadBack := by
  refine ⟨fun st core addr core' addr' x hr ha ha' => ⟨?_, rfl, rfl⟩,
    fun m line off n v j a x y mask hm hn hj => ⟨memRead_memPutLine hm line x mask a, lineNat_lineMerge x y mask j, lineNat_lineSet x hn v j,
      lineNat_withoutReserved line x hj⟩,
    fun o a hfit => ⟨fun w hw => mask_storeLine o a hw, fun before after e hsplit hafter => lineNat_storeLine hfit hsplit hafter⟩,
    fun st core line pts lease pol mask x hcopies hdirs hmem hcore => ?_⟩
  · rw [scratchWord, scratchStore, Sparse.get_set 0 st.scratch _ _ x hr]
    simp only [scratchKey_inj ha' ha]
    rfl
  have hst : st.Canonical := ⟨hcopies, hdirs, hmem⟩
  intro die l2 state others holds hroom
  have hroom' : st.HasRoom core := hroom
  have hrefl := Store.OnlyLine.refl hst (line := line)
  refine ⟨fun data ts u hs => ?_, fun ts u hs => ⟨?_, ?_, fun hhost => ⟨?_, ?_, ?_⟩⟩,
    fun off n op b y old ts u hn hs => ⟨?_, ?_⟩, fun t op ws => ⟨?_, ?_⟩⟩
  · have hl := Store.Loaded.serveLoad hroom' hcore hst hs
    exact ⟨hl.only.others hst, hl.mem⟩
  · exact (Store.OnlyLine.serveStore hroom' hcore hrefl hs).others hst
  · exact serveStore_host hs hroom' hcore hst
  · exact fun hpol v c hv hc => serveStore_own hs hhost hpol hv hc
  · exact fun hpol hdie c hc => serveStore_inDie hs hhost hpol hroom' hcore hst hdie hc
  · exact fun hpol hdie => serveStore_home hs hhost hpol hroom' hcore hst hdie
  · intro hhost
    obtain ⟨honly, hrest⟩ := serveAtomic_host hst hhost hs
    exact ⟨honly.others hst, hrest⟩
  · intro hhost huse
    obtain ⟨honly, hrest⟩ := serveAtomic_device hst huse hhost hs
    exact ⟨honly.others hst, hrest⟩
  · intro c hc hk hnodup hlt
    have hcomb := combined_foldl t op hnodup hlt c
    refine ⟨_, _, _, serveCombine_held t op hc hk pts ws, (hrefl.putCopy (by omega) _).others hst, rfl, copyAt_putCopy_same _ _ _ _, ?_⟩
    exact ⟨hcomb.state, hcomb.mask, hcomb.kept, fun e he => ⟨hcomb.taken e he, hcomb.combined e he⟩⟩
  · intro hnone v hv
    obtain ⟨c, hc, hk, hm⟩ := copyAt_grantPartial t op hroom' hcore hst hv
    exact ⟨(Store.OnlyLine.grantPartial hroom' hcore hrefl hv).others hst, ⟨c, hc, hk, hm⟩, serveCombine_granted t op hnone hv hc hk pts ws⟩

end Sys2Proof.Machine

/-! SUPPORT. The statement on rings and scale latches: what R127 allows, the operations that name a ring, and the four instructions by their checks. -/

namespace Sys2Proof.Machine

/-! ### Ring descriptors (R126 to R128) -/

/-- A base and a geometry that R127 allows. -/
theorem badRing_eq_false (base geo : W64) : badRing base geo = false ↔
    (base.toNat % 0x2000 = 0 ∧ base.toNat < 2 ^ 21) ∧ (0 < geo.toNat ∧ geo.toNat < 256) ∧ base.toNat + geo.toNat * 0x2000 ≤ 0x200000 := by
  simp only [badRing, Bool.or_eq_false_iff, bne_eq_false_iff_eq, beq_eq_false_iff_ne, decide_eq_false_iff_not, not_le, not_lt, and_assoc,
    Nat.pos_iff_ne_zero]

/-- A ring is in use where a queued `mma` of the context names it, on either side. -/
theorem ringInUse_iff (s : State) (n : Nat) : ringInUse s n = true ↔ ∃ o ∈ s.tileOps s.focusCtx, ∃ i j x y rx ry z sc sa sb,
    o.kind = .mma i j x y rx ry z sc sa sb ∧ (i = n ∨ j = n) := by
  rw [ringInUse, List.any_eq_true]
  refine exists_congr fun o => and_congr_right fun _ => ⟨fun h => ?_, ?_⟩
  · split at h
    case h_1 i j x y rx ry z sc sa sb hk => exact ⟨i, j, x, y, rx, ry, z, sc, sa, sb, hk, by simpa using h⟩
    case h_2 => cases h
  · rintro ⟨i, j, x, y, rx, ry, z, sc, sa, sb, hk, hn⟩
    simpa [hk] using hn

/-- The word that `rstat` lands: the tail above the head, which do not overlap. -/
theorem tailHead_eq (tail head : BitVec 32) :
    tail.setWidth 64 <<< 32 ||| head.setWidth 64 = BitVec.ofNat 64 (tail.toNat * 2 ^ 32 + head.toNat) := by
  have hor : tail.toNat * 2 ^ 32 + head.toNat = tail.toNat <<< 32 ||| head.toNat := by
    rw [← Nat.shiftLeft_eq, Nat.shiftLeft_add_eq_or_of_lt head.isLt]
  have htail : tail.toNat % 2 ^ 64 = tail.toNat := Nat.mod_eq_of_lt (by omega)
  rw [hor, BitVec.ofNat_or, BitVec.ofNat_toNat]
  refine congrArg (· ||| _) (BitVec.eq_of_toNat_eq ?_)
  rw [BitVec.toNat_shiftLeft, BitVec.toNat_setWidth, BitVec.toNat_ofNat, htail]

/-! ### The checks of `rdef`: R127 before the window -/

theorem exec_rdef (n : Reg3) (a b : Reg) (s : State) : exec (.rdef n a b) s =
    under (checks [readyG s [a, b], faultWhen (badRing (srcG s a) (srcG s b)) .badValue 0,
        faultWhen (decide (2 ^ s.here.winLog < (srcG s a).toNat + (srcG s b).toNat * 0x2000)) .window (srcG s a).toNat]) s
      (stallOr (ringInUse s n.toNat) s
        (effect (setRing s.focusCtx n.toNat { base := (srcG s a).toNat, cap := (srcG s b).toNat, head := 0, tail := 0 } s))) := rfl

section
variable {s : State} {n : Reg3} {a b : Reg} (hf : s.Free [a, b])
include hf

theorem exec_rdef_bad (hb : badRing (srcG s a) (srcG s b) = true) : TakesPrecise (.rdef n a b) s .badValue 0 := by
  rw [TakesPrecise, exec_rdef, (readyG_ok ..).mpr hf, hb, checks_ok, faultWhen_true]
  refine under_precise ?_ _
  cases decide (2 ^ s.here.winLog < (srcG s a).toNat + (srcG s b).toNat * 0x2000) <;> rfl

variable (hg : badRing (srcG s a) (srcG s b) = false)
include hg

theorem exec_rdef_outside (hw : 2 ^ s.here.winLog < (srcG s a).toNat + (srcG s b).toNat * 0x2000) :
    TakesPrecise (.rdef n a b) s .window (srcG s a).toNat := by
  rw [TakesPrecise, exec_rdef, (readyG_ok ..).mpr hf, hg, decide_eq_true hw]
  exact under_precise rfl _

theorem exec_rdef_inside (hw : (srcG s a).toNat + (srcG s b).toNat * 0x2000 ≤ 2 ^ s.here.winLog) : exec (.rdef n a b) s =
    stallOr (ringInUse s n.toNat) s
      (effect (setRing s.focusCtx n.toNat { base := (srcG s a).toNat, cap := (srcG s b).toNat, head := 0, tail := 0 } s)) := by
  rw [exec_rdef, (readyG_ok ..).mpr hf, hg, decide_eq_false (not_lt.mpr hw)]
  rfl

end

/-! ### What `rpush` and `rstat` answer on a ring k -/

section
variable {s : State} {n : Reg3} {k : Ring} (hk : s.here.regs.ring n.toNat = k)
include hk

theorem exec_rpush (c : BitVec 8) : exec (.rpush n c) s =
    under (faultWhen (k.cap == 0 || decide (k.cap < c.toNat)) .ring 0) s
      (stallOr (decide (k.cap < k.held + c.toNat)) s
        (effect (setRing s.focusCtx n.toNat { k with tail := k.tail + BitVec.ofNat 32 c.toNat } s))) := by
  rw [← hk, BitVec.ofNat_toNat]
  rfl

theorem exec_rpush_bad {c : BitVec 8} (h : k.cap = 0 ∨ k.cap < c.toNat) : TakesPrecise (.rpush n c) s .ring 0 := by
  have hb : (k.cap == 0 || decide (k.cap < c.toNat)) = true := by simpa using h
  rw [TakesPrecise, exec_rpush hk, hb]
  exact under_precise rfl _

theorem exec_rpush_good {c : BitVec 8} (h0 : k.cap ≠ 0) (hc : c.toNat ≤ k.cap) : exec (.rpush n c) s =
    stallOr (decide (k.cap < k.held + c.toNat)) s
      (effect (setRing s.focusCtx n.toNat { k with tail := k.tail + BitVec.ofNat 32 c.toNat } s)) := by
  rw [exec_rpush hk, beq_false_of_ne h0, decide_eq_false (not_lt.mpr hc)]
  rfl

theorem exec_rstat (d : Reg) : exec (.rstat n d) s = under (checks [readyG s [d], faultWhen (k.cap == 0) .ring 0]) s
    (effect (land 2 (.g d.toNat (BitVec.ofNat 64 (k.tail.toNat * 2 ^ 32 + k.head.toNat))) s)) := by
  rw [← hk, ← tailHead_eq]
  rfl

end

/-! ### The checks of `scl` -/

theorem exec_scl (side : Bool) (a : Reg) (s : State) : exec (.scl side a) s =
    under (checks [readyG s [a], feqEmpty s, checkBlock s (srcG s a)]) s
      (effect (land 6 (.scale side (scratchBytes s.store (s.focusCtx / 4) (s.here.base + (srcG s a).toNat) 256)) s)) := rfl

theorem sclChecks_eq {s : State} {a : Reg} (hf : s.Free [a]) (hq : s.QueueClear) (p : W64) :
    checks [readyG s [a], feqEmpty s, checkBlock s p] = checks [checkBlock s p] := by
  rw [(readyG_ok ..).mpr hf, feqEmpty_of_queueClear hq, checks_ok, checks_ok]

/-- Settles O48: each of the four by its checks in their order, then by its stall, then by its effect. -/
theorem ringsAndScalesWork : Obligations.RingsAndScalesWork := by
  intro s n a b d c side k base cap goodDef named sets window
  have hgood : badRing (srcG s a) (srcG s b) = false ↔ goodDef := badRing_eq_false ..
  have hnamed : ringInUse s n.toNat = true ↔ named := ringInUse_iff ..
  refine ⟨fun hf hg hw hn => ?_, fun hf hg hw hn => ?_, fun hf hg => ?_, fun hf hg hw => ?_, fun h0 hc hroom => ?_, fun h0 hc hfull => ?_,
    exec_rpush_bad rfl, fun hf h0 => ?_, fun hf h0 => ?_, fun hf hq ha hw => ?_, fun hf hq hout => ?_⟩
  · rw [exec_rdef_inside hf (hgood.mpr hg) hw, Bool.not_eq_true _ |>.mp (mt hnamed.mp hn)]
    rfl
  · rw [exec_rdef_inside hf (hgood.mpr hg) hw, hnamed.mpr hn]
    rfl
  · exact exec_rdef_bad hf (Bool.not_eq_false _ |>.mp (mt hgood.mp hg))
  · exact exec_rdef_outside hf (hgood.mpr hg) hw
  · rw [exec_rpush_good rfl h0 hc, Ring.held, decide_eq_false (not_lt.mpr hroom)]
    rfl
  · rw [exec_rpush_good rfl h0 hc, Ring.held, decide_eq_true hfull]
    rfl
  · rw [exec_rstat rfl, (readyG_ok ..).mpr hf, beq_false_of_ne h0]
    rfl
  · rw [TakesPrecise, exec_rstat rfl, (readyG_ok ..).mpr hf, beq_iff_eq.mpr h0]
    exact under_precise rfl _
  · rw [exec_scl, sclChecks_eq hf hq, checkBlock_ok ⟨ha, hw⟩]
    rfl
  · have hbad : ¬ (base % 256 = 0 ∧ base < window) := fun h => hout.elim (· h.1) (absurd h.2 <| not_lt.mpr ·)
    rw [TakesPrecise, exec_scl, sclChecks_eq hf hq, checkBlock_fault hbad]
    exact under_precise rfl _

end Sys2Proof.Machine

/-! SUPPORT. The statement on gears and ends: the operations of R98 with nothing untranslated, ends and calls that settle, the store of one line by
the distributor, and the argument line of a call. -/

namespace Sys2Proof.Machine

/-! ### The operations of R98 with nothing untranslated -/

section
variable {s : State}

theorem translated98_ok (h : s.Translated) : translated98 s = .ok := by
  obtain ⟨hops, hreplay⟩ := h
  simpa [translated98, stallWhen_ok, hreplay] using hops

/-- An entry of an earlier bundle in the full/empty queue stalls what needs the queue empty (R110). -/
theorem feqEmpty_stall (h : ¬ s.QueueClear) : feqEmpty s = .stall := by
  have hold : (s.here.work.feq.any fun e => decide (e.age < 8 * s.here.retired)) = true := by
    by_contra hnone
    exact h (by simpa using hnone)
  rw [feqEmpty, hold, stallWhen_true]

/-- `gear`, `yield`, `trap` and `brk` have their effect (R98). -/
theorem under_translated98 (h : s.Translated) (t : State) : under (translated98 s) s (effect t) = .next { t with signal := .none } :=
  under_effect (translated98_ok h) t

/-- `gear` leaves the request as it is: the new one is among the results on their way (R242). -/
theorem exec_gear (h : s.Translated) (g w : Bool) : exec (.gear g w) s = .next (s.queues fun x =>
    { x with landing := x.landing ++ [{ due := s.here.count + 1, age := s.age, eff := .gear g, held := false }], gearWait := w || x.gearWait }) := by
  refine (under_translated98 h _).trans (congrArg Host.Outcome.next ?_)
  rw [land_eq, State.age, State.here_mapHere, State.ctxs_mapHere, State.focusCtx_mapHere, Sparse.put_put]
  rfl

theorem exec_yield (h : s.Translated) : exec .yield s = .next (s.took (goBehind s.focusCtx)) := under_translated98 h _

theorem exec_done {a : Reg} (hf : s.Free [a]) (ht : s.Translated) : exec (.done a) s =
    under (checks [stallWhen (s.outCopies s.focusCtx != 0), feqEmpty s]) s (effect (s.mapHere fun c => { c with ended := some (srcG s a) })) := by
  change under (checks [readyG s [a], translated98 s, stallWhen (s.outCopies s.focusCtx != 0), feqEmpty s]) s _ = _
  rw [(readyG_ok ..).mpr hf, translated98_ok ht, checks_ok, checks_ok]

/-- What `park` waits for (R320, R321). -/
def parkOf (s : State) (a b : Reg) (w : Bool) : ParkWait :=
  { seq := 2 * s.here.retired, va := srcG s a, width := if w then 4 else 8,
    expected := if w then ((srcG s b).setWidth 32).setWidth 64 else srcG s b, seen := false, asleep := false, line := 0, since := 0,
    pc := s.here.pc.toNat }

theorem exec_park {a b : Reg} (hf : s.Free [a, b]) (ht : s.Translated) (w : Bool) : exec (.park a b w) s =
    under (faultWhen ((srcG s a).toNat % (if w then 4 else 8) != 0) .badValue (srcG s a).toNat) s
      (effect (s.mapHere fun c => { c with work := { c.work with park := some (parkOf s a b w) } })) := by
  change under (checks [readyG s [a, b], translated98 s, faultWhen _ .badValue (srcG s a).toNat]) s _ = _
  rw [(readyG_ok ..).mpr hf, translated98_ok ht, checks_ok, checks_ok]
  cases h : (srcG s a).toNat % (if w then 4 else 8) != 0 <;> rfl

end

/-- A change of what waits in a context leaves its other fields, every register and memory. -/
theorem queues_frame (s : State) (f : Work → Work) :
    (s.queues f).here = { s.here with work := f s.here.work } ∧ SameRegsAndMemory s (s.queues f) := by
  refine ⟨s.here_mapHere fun c => { c with work := f c.work }, fun h => ?_, rfl⟩
  change ((s.mapHere fun c => { c with work := f c.work }).ctx h).regs = _
  rw [State.ctx_mapHere]
  split
  next hh => rw [hh]; rfl
  next => rfl

/-- A context goes behind the others of its core, and keeps what waits in it (R233). -/
theorem goBehind_frame (s : State) (h : Nat) :
    ((goBehind h s).core (coreOf h)).rotated = true ∧ ((goBehind h s).core (coreOf h)).lastPos = h % 4 ∧ SameRegsAndMemory s (goBehind h s) ∧
      ∀ k, ((goBehind h s).ctx k).work = (s.ctx k).work := by
  have hcore : (goBehind h s).core (coreOf h) = { s.core (coreOf h) with rotated := true, lastPos := h % 4 } := State.core_mapCore_self _ _ _
  have hctx : ∀ k, (goBehind h s).ctx k = if k = h then { s.ctx h with runCycles := 0 } else s.ctx k := fun k =>
    s.ctx_mapCtx h k fun c => { c with runCycles := 0 }
  refine ⟨by rw [hcore], by rw [hcore], ⟨fun k => ?_, rfl⟩, fun k => ?_⟩ <;> rw [hctx] <;> split
  · subst_vars; rfl
  · rfl
  · subst_vars; rfl
  · rfl

/-- The low 32 bits of a register, as a number. -/
theorem setWidth_32_64 (x : W64) : (x.setWidth 32).setWidth 64 = BitVec.ofNat 64 (x.toNat % 2 ^ 32) := by
  refine BitVec.eq_of_toNat_eq ?_
  rw [BitVec.toNat_setWidth, BitVec.toNat_setWidth, BitVec.toNat_ofNat]

/-- A length of R252 and an intensity above 8, as the declaration has them. -/
theorem declaration_eq (core : Nat) (o : BitVec 12) (i : BitVec 4) (e : BitVec 3) (m : BitVec 7) : declaration core o i e m =
    if i = 0 then none
    else some { onset := o.toNat, left := (m.toNat + 1) * 4 ^ e.toNat, intensity := if i.toNat < 8 then i.toNat else 8,
                stagger := 2 * (core % 16) } := by
  have hmin : min i.toNat 8 = if i.toNat < 8 then i.toNat else 8 := by split <;> omega
  rw [declaration, pow_mul, hmin]
  rfl

/-! ### The release of a context that ends or calls (R153, R294) -/

section
variable (h : Nat) (s : State)

/-- A release changes no context and no memory; it only asks the host. -/
theorem releaseStep_frame : (releaseStep h s).1.ctxs = s.ctxs ∧ (releaseStep h s).1.store = s.store := by
  cases hs : (s.ctx h).storesDone
  · rw [releaseStep_of_storing hs]
    exact ⟨rfl, rfl⟩
  · by_cases hd : dirtyHostLines s.store (coreOf h) = []
    · rw [releaseStep_of_clean hs hd]
      exact ⟨rfl, rfl⟩
    · obtain ⟨-, hstore, hctxs, -⟩ := releaseStep_of_dirty hs hd
      exact ⟨hctxs, hstore⟩

variable {h s}

/-- A release that is complete found nothing to do. -/
theorem releaseStep_complete (hr : (releaseStep h s).2 = true) :
    (releaseStep h s).1 = s ∧ (s.ctx h).storesDone = true ∧ dirtyHostLines s.store (coreOf h) = [] := by
  cases hs : (s.ctx h).storesDone
  · rw [releaseStep_of_storing hs] at hr
    cases hr
  · by_cases hd : dirtyHostLines s.store (coreOf h) = []
    · rw [releaseStep_of_clean hs hd]
      exact ⟨rfl, rfl, hd⟩
    · rw [(releaseStep_of_dirty hs hd).1] at hr
      cases hr

end

/-! ### The end of a context (R156, R294) -/

/-- Only its release still holds the end of a context: it is none of the ended, and no `barv` and no copy of it is on its way. -/
def State.MayEnd (s : State) (h : Nat) : Prop :=
  (s.ctx h).rank ∉ (s.cont (s.ctx h).cont).ended ∧ (s.ctx h).work.barvs = [] ∧ s.outCopies h = 0

theorem endHeld_eq_false {s : State} {h : Nat} : ((s.cont (s.ctx h).cont).ended.contains (s.ctx h).rank || !(s.ctx h).work.barvs.isEmpty ||
    s.outCopies h != 0) = false ↔ s.MayEnd h := by
  simp [State.MayEnd, and_assoc]

section
variable {s : State} {h : Nat} {x : W64} (hx : (s.ctx h).ended = some x)
include hx

theorem settleEnd_held (hm : ¬ s.MayEnd h) : settleEnd h s = s := by
  rw [settleEnd]
  simp only [hx]
  rw [if_pos (Bool.not_eq_false _ |>.mp (mt endHeld_eq_false.mp hm))]

theorem settleEnd_may (hm : s.MayEnd h) :
    settleEnd h s = if (releaseStep h s).2 then endContext h x (releaseStep h s).1 else (releaseStep h s).1 := by
  rw [settleEnd]
  simp only [hx]
  rw [endHeld_eq_false.mpr hm]
  rfl

/-- With its release complete the context ends. -/
theorem settleEnd_released (hm : s.MayEnd h) (hr : (releaseStep h s).2 = true) : settleEnd h s = endContext h x s := by
  rw [settleEnd_may hx hm, if_pos hr, (releaseStep_complete hr).1]

end

/-- What a level-3 pack is told changes the number of its last signal, and leaves the device in a message (R191). -/
theorem signalLevel3_cases (i : Nat) (s : State) : signalLevel3 i s = s ∨
    ∃ n o, signalLevel3 i s = (s.mapCont i fun k => { k with signals3 := n }).output o := by
  unfold signalLevel3
  exact (ite_eq_or_eq _ _ _).imp_right fun h => ⟨_, _, h⟩

theorem signalLevel3_frame (i : Nat) (s : State) : (∀ h, (signalLevel3 i s).ctx h = s.ctx h) ∧ (∀ c, (signalLevel3 i s).core c = s.core c) ∧
    (signalLevel3 i s).store = s.store := by
  rcases signalLevel3_cases i s with h | ⟨n, o, h⟩ <;> rw [h] <;> exact ⟨fun _ => rfl, fun _ => rfl, rfl⟩

theorem cont_signalLevel3 {i : Nat} {s : State} (hi : (Sparse.find s.dev.conts i).isSome = true) :
    ∃ n, (signalLevel3 i s).cont i = { s.cont i with signals3 := n } := by
  rcases signalLevel3_cases i s with h | ⟨n, o, h⟩ <;> rw [h]
  · exact ⟨_, rfl⟩
  · exact ⟨n, by rw [State.cont_output, State.cont_mapCont_self s i _ hi]⟩

/-- A change of a continuation leaves it registered. -/
theorem isSome_mapCont {i : Nat} {s : State} (hi : (Sparse.find s.dev.conts i).isSome = true) (f : Cont → Cont) :
    (Sparse.find (s.mapCont i f).dev.conts i).isSome = true := by
  rw [State.mapCont, State.dev_mapDev, Sparse.find_adjust_same, Option.isSome_map]
  exact hi

/-- What a context has in flight is discarded, with its tile operations on its core. -/
def discardInFlight (h : Nat) (s : State) : State :=
  (s.mapCtx h Ctx.quiet).mapCore (coreOf h) fun k => { k with queue := k.queue.filter fun o => o.ctx != h }

/-- A context becomes one of the ended (R156, R295). -/
def Cont.withEnded (c : Ctx) (exit : W64) (k : Cont) : Cont :=
  { k with ended := c.rank :: k.ended, endTop := max k.endTop c.pts, exitSeen := if c.rank = 0 then exit else k.exitSeen }

section
variable (h : Nat) (x : W64) (s : State)

theorem endContext_eq : endContext h x s =
    signalLevel3 (s.ctx h).cont ((discardInFlight h s).mapCont (s.ctx h).cont (Cont.withEnded (s.ctx h) x)) := rfl

theorem ctx_endContext : (endContext h x s).ctx h = (s.ctx h).quiet := by
  rw [endContext_eq, (signalLevel3_frame _ _).1]
  exact s.ctx_mapCtx_self h Ctx.quiet

theorem queue_endContext : ((endContext h x s).core (coreOf h)).queue = (s.core (coreOf h)).queue.filter fun o => o.ctx != h := by
  rw [endContext_eq, (signalLevel3_frame _ _).2.1, State.core_mapCont, discardInFlight, State.core_mapCore_self, State.core_mapCtx]

theorem store_endContext : (endContext h x s).store = s.store := (signalLevel3_frame _ _).2.2

variable {s}

/-- The context is one of the ended, and the status of rank 0 is that of the continuation (R295). -/
theorem cont_endContext (hi : (Sparse.find s.dev.conts (s.ctx h).cont).isSome = true) :
    ∃ n, (endContext h x s).cont (s.ctx h).cont = { Cont.withEnded (s.ctx h) x (s.cont (s.ctx h).cont) with signals3 := n } := by
  have hself := (discardInFlight h s).cont_mapCont_self (s.ctx h).cont (Cont.withEnded (s.ctx h) x) hi
  obtain ⟨n, hn⟩ := cont_signalLevel3 (isSome_mapCont (s := discardInFlight h s) hi (Cont.withEnded (s.ctx h) x))
  exact ⟨n, by rw [endContext_eq, hn, hself]; rfl⟩

end

/-! ### The calls of a continuation (R222, R352) -/

theorem isDeviceTrap_iff (code : Nat) : isDeviceTrap code = true ↔ 0x10000 ≤ code ∧ code < 0x100000 := by
  simp [isDeviceTrap]

/-- A call that does not wait yet releases, unless it is a device trap, and then waits its turn. -/
theorem settleCall_eq {s : State} {h : Nat} {x : CallInfo} (hx : (s.ctx h).call = some x) (hend : (s.cont (s.ctx h).cont).state.isEnd = false)
    (hof : (s.cont (s.ctx h).cont).callOf ≠ some (s.ctx h).rank) (hq : (s.ctx h).rank ∉ (s.cont (s.ctx h).cont).callQueue) :
    settleCall h s =
      let r := if isDeviceTrap x.code then (s, true) else releaseStep h s
      if r.2 then r.1.mapCont (s.ctx h).cont fun k => { k with callQueue := k.callQueue ++ [(s.ctx h).rank] } else r.1 := by
  have hnone : ((s.cont (s.ctx h).cont).state.isEnd || (s.cont (s.ctx h).cont).callOf == some (s.ctx h).rank ||
      (s.cont (s.ctx h).cont).callQueue.contains (s.ctx h).rank) = false := by simp [hend, hof, hq]
  rw [settleCall]
  simp only [hx]
  rw [hnone]
  rfl

/-! ### What the writes of the distributor leave of its notices -/

theorem noteCombines_notices (before s : State) : (noteCombines before s).dev.notices = s.dev.notices := by
  unfold noteCombines
  refine foldl_keeps (fun t : State => t.dev.notices = s.dev.notices) _ _ _ rfl fun t line ht => ?_
  split <;> exact ht

theorem distStore_notices (pa : Nat) (data : List Byte) (s : State) : (distStore pa data s).dev.notices = s.dev.notices :=
  foldl_keeps (fun t : State => t.dev.notices = s.dev.notices) _ _ _ (noteCombines_notices s _) fun _ _ ht => ht

/-- The host asked for lines: neither memory nor a notice changes. -/
theorem askLines_frame (ls : List Nat) (s : State) : (askLines ls s).store = s.store ∧ (askLines ls s).dev.notices = s.dev.notices := by
  refine foldl_keeps (fun t : State => t.store = s.store ∧ t.dev.notices = s.dev.notices) _ _ _ ⟨rfl, rfl⟩ fun t l ht => ?_
  unfold askHost
  split <;> exact ht

theorem distWrite_notices (pa : Nat) (data : List Byte) (s : State) : (distWrite pa data s).dev.notices = s.dev.notices := by
  unfold distWrite
  split
  · exact distStore_notices pa data s
  · exact (askLines_frame _ _).2

theorem distStore_store (pa : Nat) (data : List Byte) (s : State) :
    (distStore pa data s).store = (homeStore s.store pa (topTimestamp s) data).2 := by
  unfold distStore
  dsimp only
  rw [(noteWaiters_fold _ _).2.1, (noteCombines_spec _ _).2.1]

/-- A continuation shows the call of a context (R222). -/
def Cont.withCall (rank code : Nat) (k : Cont) : Cont := { k with callPending := true, callOf := some rank, code := code, callRank := rank }

/-- g1 to g8 of a call, as bytes (R222). -/
def argBytes (c : Ctx) : List Byte := ((List.range 8).map fun n => leBytes 8 (c.nextG (n + 1)).toNat).flatten

theorem presentCall_eq (i rank : Nat) (c : Ctx) (code : Nat) (s : State) : presentCall i rank c code s =
    sendNotice i 2 (writeLine i ((distWrite ((s.cont i).block + 0xC0) (argBytes c) s).mapCont i (Cont.withCall rank code))) := rfl

/-- The turn of a call (R222): its continuation shows it, and the owner is sent a notice. -/
theorem presentCall_spec {s : State} {i : Nat} (hi : (Sparse.find s.dev.conts i).isSome = true) (rank : Nat) (c : Ctx) (code : Nat) :
    (presentCall i rank c code s).cont i = Cont.withCall rank code (s.cont i) ∧
      (presentCall i rank c code s).dev.notices = s.dev.notices ++
        [{ block := (s.cont i).block, word := BitVec.ofNat 64 (2 + 2 ^ 8 * (s.cont i).shown.code + 2 ^ 32 * (s.cont i).ack) }] := by
  rw [presentCall_eq]
  generalize hu : distWrite ((s.cont i).block + 0xC0) (argBytes c) s = u
  have huc : u.dev.conts = s.dev.conts := hu ▸ (distWrite_spec _ _ s).2.1
  have hun : u.dev.notices = s.dev.notices := hu ▸ distWrite_notices _ _ s
  have hself : (u.mapCont i (Cont.withCall rank code)).cont i = Cont.withCall rank code (s.cont i) := by
    rw [u.cont_mapCont_self i _ (huc ▸ hi), State.cont_congr huc]
  generalize hw : writeLine i (u.mapCont i (Cont.withCall rank code)) = w
  have hwc : w.cont i = Cont.withCall rank code (s.cont i) := by
    rw [← hself, ← hw, State.cont_congr (writeLine_spec i _).2.1]
  have hwn : w.dev.notices = s.dev.notices := by
    rw [← hun, ← hw]
    exact distWrite_notices _ _ _
  refine ⟨hwc, ?_⟩
  rw [sendNotice, State.dev_mapDev, hwn, hwc]
  rfl

/-! ### The next call of a continuation -/

section
variable {s : State} {i rank : Nat} {rs : List Nat} {c : Ctx} {x : CallInfo} (hof : (s.cont i).callOf = none)
  (hq : (s.cont i).callQueue = rank :: rs) (hc : s.ctxOf i rank = some c) (hx : c.call = some x) (hr : c.argsReady = true)
include hof hq hc hx hr

/-- The oldest call whose arguments are ready leaves the queue for its turn. -/
theorem nextCall_eq : nextCall i s = presentCall i rank c x.code (s.mapCont i fun k => { k with callQueue := rs }) := by
  rw [nextCall]
  simp only [hof, hq, hc, hx, hr]
  rfl

theorem nextCall_spec (hi : (Sparse.find s.dev.conts i).isSome = true) :
    (nextCall i s).cont i = Cont.withCall rank x.code { s.cont i with callQueue := rs } ∧
      (nextCall i s).dev.notices = s.dev.notices ++
        [{ block := (s.cont i).block, word := BitVec.ofNat 64 (2 + 2 ^ 8 * (s.cont i).shown.code + 2 ^ 32 * (s.cont i).ack) }] := by
  have hspec := presentCall_spec (isSome_mapCont hi fun k => { k with callQueue := rs }) rank c x.code
  rw [s.cont_mapCont_self i _ hi] at hspec
  rw [nextCall_eq hof hq hc hx hr]
  exact hspec

end

end Sys2Proof.Machine

/-! SUPPORT. The statement on gears and ends, part 2: a line that the distributor stores, the arguments of a call, and the statement. -/

namespace Sys2Proof.Machine

/-! ### What the homes leave of every other line, whatever stands in the caches -/

theorem dirOf_setDir_same {st : Store} (hd : Sparse.risingFrom none st.dirs = true) (line : Nat) (d : DirEntry) :
    dirOf (setDir st line d) line = d :=
  (Sparse.get_set (clearDir line) st.dirs line line d hd).trans (if_pos rfl)

/-- A store whose entries and memory have their canonical form, and are those of another one but at one line. Its copies are any. -/
structure Store.HomeOnly (line : Nat) (st u : Store) : Prop where
  rising : Sparse.risingFrom none u.dirs = true
  wf : Memory.wf u.mem = true
  dirs : ∀ l, l ≠ line → dirOf u l = dirOf st l
  mem : ∀ a, a / 64 ≠ line → memRead u.mem a = memRead st.mem a

namespace Store.HomeOnly

variable {line : Nat} {st u : Store}

theorem refl (hd : Sparse.risingFrom none st.dirs = true) (hm : Memory.wf st.mem = true) : HomeOnly line st st :=
  ⟨hd, hm, fun _ _ => rfl, fun _ _ => rfl⟩

section
variable (h : HomeOnly line st u)
include h

/-- Only a store's entries and memory count. -/
theorem of_eq {v : Store} (hd : v.dirs = u.dirs) (hm : v.mem = u.mem) : HomeOnly line st v := by
  refine ⟨hd ▸ h.rising, hm ▸ h.wf, fun l hl => ?_, fun a ha => hm ▸ h.mem a ha⟩
  rw [dirOf, hd]
  exact h.dirs l hl

theorem setDir (d : DirEntry) : HomeOnly line st (setDir u line d) :=
  ⟨Sparse.rising_set _ _ _ _ h.rising, h.wf, fun l hl => (dirOf_setDir_other u hl d h.rising).trans (h.dirs l hl), h.mem⟩

theorem putLine (x : BitVec 512) (mask : BitVec 16) : HomeOnly line st { u with mem := memPutLine u.mem line x mask } :=
  ⟨h.rising, memPutLine_wf _ _ _ _ h.wf, h.dirs, fun a ha => by rw [memRead_memPutLine h.wf, if_neg fun k => ha k.1, h.mem a ha]⟩

theorem invalidateWhere (p : Nat → Bool) : HomeOnly line st (invalidateWhere u line p) := by
  have hw : HomeOnly line st (dropWhere u line fun k c => c.state == .shared && p k) := h.of_eq rfl rfl
  unfold Machine.invalidateWhere foldRead
  split
  · split
    · exact hw.of_eq rfl rfl
    · exact hw
  · exact hw.setDir _

theorem takePartial (e : Nat × Copy) : HomeOnly line st (takePartial line u e) := by
  unfold Machine.takePartial
  split
  · have hdrop : HomeOnly line st (dropCopy u e.1 line) := h.of_eq rfl rfl
    dsimp only
    split
    · exact hdrop.of_eq rfl rfl
    · exact (hdrop.putLine _ _).setDir _
  · exact h

theorem takePartials (ps : List (Nat × Copy)) : HomeOnly line st (ps.foldl (Machine.takePartial line) u) :=
  foldl_keeps (HomeOnly line st) _ ps u h fun _ e ht => ht.takePartial e

theorem combineDie (die : Nat) : HomeOnly line st (combineDie u line die) := by
  have hp := h.takePartials ((partialsOf u line).filter fun e => e.1 / 64 == die)
  unfold Machine.combineDie
  dsimp only
  split
  · exact hp.setDir _
  · exact hp

/-- The line combined, but for its entry's last change. -/
theorem combineDies : HomeOnly line st ((List.range 4).foldl (fun v die => Machine.combineDie v line die) u) :=
  foldl_keeps (HomeOnly line st) _ (List.range 4) u h fun _ die ht => ht.combineDie die

theorem recalled : HomeOnly line st (Machine.invalidateWhere (combineInDie u line) line fun _ => true) :=
  (h.takePartials (partialsOf u line)).invalidateWhere _

/-- A home made ready for a writer: the line stands there and nowhere else. -/
theorem readyToWrite : HomeOnly line st (readyToWrite u line) ∧ (hostBlocks u line true = false → (Machine.readyToWrite u line).Quiet line) := by
  have ends : ∀ {v : Store} {d : DirEntry}, HomeOnly line st v → d.state = .untracked →
      HomeOnly line st (Machine.setDir v line d) ∧ (hostBlocks u line true = false → (Machine.setDir v line d).Quiet line) :=
    fun hv hd => ⟨hv.setDir _, fun _ => .inl (by rw [dirOf_setDir_same hv.rising, hd])⟩
  cases hs : (dirOf u line).state with
  | untracked =>
    simp only [Machine.readyToWrite, readyToRead, hs]
    exact ⟨h, fun _ => .inl hs⟩
  | tracked sharers =>
    simp only [Machine.readyToWrite, hs]
    exact ends (h.invalidateWhere _) rfl
  | owned die =>
    simp only [Machine.readyToWrite, readyToRead, hs, recallLine]
    split
    · rename_i c _
      exact ends ((h.recalled.putLine c.data 0xFFFF).of_eq rfl rfl) rfl
    · exact ends h.recalled rfl
  | ownedByHost =>
    simp only [Machine.readyToWrite, readyToRead, hs]
    exact ⟨h, fun hb => by simp [hostBlocks, hs] at hb⟩
  | partials dies t op =>
    simp only [Machine.readyToWrite, readyToRead, hs]
    exact ends h.combineDies rfl

end

end Store.HomeOnly

/-! ### A line stored at its home (R144, R164) -/

section
variable {st : Store} {line : Nat}

theorem isHostLine_eq_false (line : Nat) : isHostLine line = false ↔ line < 2 ^ 46 :=
  decide_eq_false_iff_not.trans not_le

/-- A device-homed line that is quiet is what memory holds. -/
theorem latestData_of_quiet (hhost : isHostLine line = false) (hq : st.Quiet line) : latestData st line = lineData st.mem line := by
  rw [latestData, hhost]
  rcases hq with hs | ⟨sharers, hs⟩ <;> rw [hs] <;> rfl

theorem lineNat_lineData (m : List Host.Cell) (line : Nat) {j : Nat} (hj : j < 64) :
    lineNat (lineData m line) j 1 = (memRead m (64 * line + j)).toNat := by
  refine Nat.eq_of_testBit_eq fun i => ?_
  rw [testBit_lineNat]
  by_cases hi : i < 8
  · rw [decide_eq_true (by omega), Bool.true_and, getLsbD_lineData _ _ (by omega), show (8 * j + i) / 8 = j by omega,
      show (8 * j + i) % 8 = i by omega]
    rfl
  · rw [decide_eq_false (by omega), Bool.false_and]
    exact (BitVec.getLsbD_of_ge _ i (by omega)).symm

/-- The latest bytes of a quiet line are those of memory. -/
theorem latestBytes_of_quiet (hhost : isHostLine line = false) (hq : st.Quiet line) :
    latestBytes st (64 * line) 64 = (List.range 64).map fun j => memRead st.mem (64 * line + j) := by
  refine List.map_congr_left fun j hj => ?_
  have hlt := List.mem_range.mp hj
  rw [show (64 * line + j) / 64 = line by omega, show (64 * line + j) % 64 = j by omega, latestData_of_quiet hhost hq,
    lineNat_lineData _ _ hlt, BitVec.ofNat_toNat, BitVec.setWidth_eq]

theorem wordMask_line : wordMask 0 64 = 0xFFFF := by decide

/-- The bytes of one whole line are one store at its home. -/
theorem homeStore_line {data : List Byte} (hlen : data.length = 64) (hhost : isHostLine line = false) (pts : Nat) :
    (homeStore st (64 * line) pts data).2 =
      (storeAtHome (readyToWrite st line) line pts 0xFFFF (lineSet (latestData st line) 0 64 (ofLeBytes data))).2 := by
  have hne : data.isEmpty = false := by
    rw [List.isEmpty_eq_false_iff]
    rintro rfl
    cases hlen
  rw [homeStore, hlen]
  simp only [homeStoreFrom, hne, Nat.mul_mod_right, Nat.mul_div_cancel_left line (show 0 < 64 by omega)]
  rw [List.take_of_length_le (by omega), List.drop_of_length_le (by omega)]
  simp only [homeStoreLine, hhost, hlen, wordMask_line]
  rfl

/-- A store at its home leaves the state of its entry. -/
theorem state_storeAtHome (hd : Sparse.risingFrom none st.dirs = true) (pts : Nat) (mask : BitVec 16) (x : BitVec 512) :
    (dirOf (storeAtHome st line pts mask x).2 line).state = (dirOf st line).state := by
  unfold storeAtHome
  dsimp only
  rw [dirOf_setDir_same]
  exact hd

theorem ofLeBytes_byte (data : List Byte) (j : Nat) : BitVec.ofNat 8 (ofLeBytes data / 256 ^ j % 256) = data.getD j 0 := by
  refine BitVec.eq_of_getLsbD_eq fun i hi => ?_
  rw [BitVec.getLsbD_ofNat, decide_eq_true hi, Bool.true_and, show (256 : Nat) = 2 ^ 8 from rfl, Nat.testBit_mod_two_pow, decide_eq_true hi,
    Bool.true_and, ← show (256 : Nat) = 2 ^ 8 from rfl, pow_256, Nat.testBit_div_two_pow, testBit_ofLeBytes,
    show (i + 8 * j) / 8 = j by omega, show (i + 8 * j) % 8 = i by omega]

section
variable (hd : Sparse.risingFrom none st.dirs = true) (hm : Memory.wf st.mem = true) {data : List Byte} (hlen : data.length = 64)
  (hhost : isHostLine line = false) (pts : Nat)
include hd hm hlen hhost

theorem homeOnly_homeStore : Store.HomeOnly line st (homeStore st (64 * line) pts data).2 := by
  rw [homeStore_line hlen hhost]
  exact ((Store.HomeOnly.refl hd hm).readyToWrite.1.putLine _ _).setDir _

/-- A whole line stored, which the host does not hold, stands at its home. -/
theorem quiet_homeStore (hb : hostBlocks st line true = false) : (homeStore st (64 * line) pts data).2.Quiet line := by
  obtain ⟨hr, hq⟩ := (Store.HomeOnly.refl hd hm (line := line)).readyToWrite
  rw [homeStore_line hlen hhost, Store.Quiet, state_storeAtHome hr.rising]
  exact hq hb

theorem memRead_homeStore (hdcb : isDcbLine line = false) {j : Nat} (hj : j < 64) :
    memRead (homeStore st (64 * line) pts data).2.mem (64 * line + j) = data.getD j 0 := by
  have hr := (Store.HomeOnly.refl hd hm (line := line)).readyToWrite.1
  have hword : (0xFFFF : BitVec 16).getLsbD (j / 4) = true := by
    have hw : j / 4 < 16 := by omega
    generalize j / 4 = w at hw
    revert w
    decide
  have hfield : isReserved (64 * line + j) = false := by
    rw [isReserved, show (64 * line + j) / 64 = line by omega, hdcb]
    rfl
  rw [homeStore_line hlen hhost, storeAtHome]
  simp only [setDir_mem]
  rw [memRead_memPutLine hr.wf, show (64 * line + j) / 64 = line by omega, show (64 * line + j) % 64 = j by omega,
    if_pos ⟨rfl, hword, hfield⟩, lineNat_lineSet _ (by omega), if_pos ⟨by omega, by omega⟩, Nat.sub_zero, ofLeBytes_byte]

/-- The bytes of a whole line stored are the latest there. -/
theorem latestBytes_homeStore (hdcb : isDcbLine line = false) (hb : hostBlocks st line true = false) :
    latestBytes (homeStore st (64 * line) pts data).2 (64 * line) 64 = data := by
  rw [latestBytes_of_quiet hhost (quiet_homeStore hd hm hlen hhost pts hb)]
  refine List.ext_getElem (by simp [hlen]) fun j hj hj' => ?_
  rw [List.getElem_map, List.getElem_range, memRead_homeStore hd hm hlen hhost pts hdcb (by omega), List.getD_eq_getElem _ _ hj']

end

/-- What another line's home does leaves the latest bytes of a quiet line. -/
theorem Store.HomeOnly.latestBytes_other {other : Nat} {u : Store} (h : Store.HomeOnly other st u) (hne : line ≠ other)
    (hhost : isHostLine line = false) (hq : st.Quiet line) : latestBytes u (64 * line) 64 = latestBytes st (64 * line) 64 := by
  have hq' : u.Quiet line := by
    rw [Store.Quiet, h.dirs line hne]
    exact hq
  rw [latestBytes_of_quiet hhost hq', latestBytes_of_quiet hhost hq]
  refine List.map_congr_left fun j hj => h.mem _ ?_
  have hlt := List.mem_range.mp hj
  omega

end

/-! ### The lines of a control block that a call writes (R212, R222) -/

theorem hostHolds_line (s : State) (line : Nat) : hostHolds s (64 * line) 64 = [] ↔ hostBlocks s.store line true = false := by
  have hspan : lineSpan (64 * line) 64 = [line] := by
    rw [lineSpan, show (64 * line + 64 - 1) / 64 + 1 - 64 * line / 64 = 1 by omega, Nat.mul_div_cancel_left line (show 0 < 64 by omega)]
    rfl
  rw [hostHolds, hspan]
  cases h : hostBlocks s.store line true <;> simp [h]

/-- A write of the distributor to one line of the device, now or later, leaves every other line. -/
theorem homeOnly_distWrite {s : State} (hd : Sparse.risingFrom none s.store.dirs = true) (hm : Memory.wf s.store.mem = true) {line : Nat}
    {data : List Byte} (hlen : data.length = 64) (hhost : isHostLine line = false) :
    Store.HomeOnly line s.store (distWrite (64 * line) data s).store := by
  unfold distWrite
  split
  · rw [distStore_store]
    exact homeOnly_homeStore hd hm hlen hhost _
  · rw [(askLines_frame _ _).1]
    exact .refl hd hm

/-- With nothing before it and the line not held by the host, a write of the distributor is made at once (R164). -/
theorem store_distWrite_now {s : State} (ha : s.dev.acts = []) {pa : Nat} {data : List Byte} (hh : hostHolds s pa data.length = []) :
    (distWrite pa data s).store = (homeStore s.store pa (topTimestamp s) data).2 := by
  rw [distWrite, ha, hh]
  exact distStore_store pa data s

theorem stateLine_length (k : Cont) : (stateLine k).length = 64 := by
  simp [stateLine, leBytes_length]

theorem argBytes_length (c : Ctx) : (argBytes c).length = 64 := by
  simp [argBytes, leBytes_length, List.length_flatten, Function.comp_def]

/-- A change that leaves the block of its continuation. -/
theorem block_mapCont (f : Cont → Cont) (hf : ∀ k, (f k).block = k.block) (i : Nat) (s : State) :
    ((s.mapCont i f).cont i).block = (s.cont i).block := by
  simp only [State.cont, State.mapCont, State.mapDev, Sparse.get, Sparse.find_adjust_same]
  cases Sparse.find s.dev.conts i with
  | none => rfl
  | some k => exact hf k

/-- The argument line of a call is what memory holds there, unless the host holds the line (R164, R222). -/
theorem latestBytes_presentCall {s : State} {i line : Nat} (hblock : (s.cont i).block = 64 * line) (hdevice : isHostLine (line + 3) = false)
    (hdcb : isDcbLine (line + 3) = false) (ha : s.dev.acts = []) (hb : hostBlocks s.store (line + 3) true = false)
    (hd : Sparse.risingFrom none s.store.dirs = true) (hm : Memory.wf s.store.mem = true) (rank : Nat) (c : Ctx) (code : Nat) :
    latestBytes (presentCall i rank c code s).store (64 * (line + 3)) 64 = argBytes c := by
  have hline : isHostLine (line + 1) = false := by
    rw [isHostLine_eq_false] at hdevice ⊢
    omega
  have hlen := argBytes_length c
  rw [presentCall_eq, hblock, show 64 * line + 0xC0 = 64 * (line + 3) by omega]
  have hstored := store_distWrite_now ha (pa := 64 * (line + 3)) (data := argBytes c) (by rw [hlen]; exact (hostHolds_line ..).mpr hb)
  have hconts : (distWrite (64 * (line + 3)) (argBytes c) s).dev.conts = s.dev.conts := (distWrite_spec _ _ s).2.1
  generalize distWrite (64 * (line + 3)) (argBytes c) s = u at hstored hconts ⊢
  have hargs : Store.HomeOnly (line + 3) s.store u.store := hstored ▸ homeOnly_homeStore hd hm hlen hdevice _
  have hquiet : u.store.Quiet (line + 3) := hstored ▸ quiet_homeStore hd hm hlen hdevice _ hb
  have hshown : ((u.mapCont i (Cont.withCall rank code)).cont i).block = 64 * line := by
    rw [block_mapCont (Cont.withCall rank code) fun _ => rfl, State.cont_congr hconts, hblock]
  have hwrite : Store.HomeOnly (line + 1) u.store (writeLine i (u.mapCont i (Cont.withCall rank code))).store := by
    rw [writeLine, hshown, show 64 * line + 0x40 = 64 * (line + 1) by omega]
    exact homeOnly_distWrite (s := u.mapCont i (Cont.withCall rank code)) hargs.rising hargs.wf (stateLine_length _) hline
  calc latestBytes (writeLine i (u.mapCont i (Cont.withCall rank code))).store (64 * (line + 3)) 64
      = latestBytes u.store (64 * (line + 3)) 64 := hwrite.latestBytes_other (by omega) hdevice hquiet
    _ = argBytes c := by
        rw [hstored]
        exact latestBytes_homeStore hd hm hlen hdevice _ hdcb hb

theorem latestBytes_nextCall {s : State} {i rank line : Nat} {rs : List Nat} {c : Ctx} {x : CallInfo} (hof : (s.cont i).callOf = none)
    (hq : (s.cont i).callQueue = rank :: rs) (hc : s.ctxOf i rank = some c) (hx : c.call = some x) (hr : c.argsReady = true)
    (hblock : (s.cont i).block = 64 * line) (hdevice : isHostLine (line + 3) = false) (hdcb : isDcbLine (line + 3) = false)
    (ha : s.dev.acts = []) (hb : hostBlocks s.store (line + 3) true = false) (hd : Sparse.risingFrom none s.store.dirs = true)
    (hm : Memory.wf s.store.mem = true) : latestBytes (nextCall i s).store (64 * (line + 3)) 64 = argBytes c := by
  rw [nextCall_eq hof hq hc hx hr]
  have hrest := (block_mapCont (fun k => { k with callQueue := rs }) (fun _ => rfl) i s).trans hblock
  exact latestBytes_presentCall hrest hdevice hdcb ha hb hd hm rank c x.code

/-! ### The registers that the next bundle would find (R89, R222) -/

/-- What one landing makes of a `g` register. -/
def landsOn (r : Nat) (x : W64) (p : Pending) : W64 :=
  match p.eff with
  | .g i y => if i = r then y else x
  | _ => x

/-- A result that goes to no `g` register leaves them all. -/
theorem g_applyEffect (c : Ctx) (due age : Nat) {e : Effect} (he : ∀ i y, e ≠ .g i y) : (c.applyEffect due age e).regs.g = c.regs.g := by
  cases e with
  | g i y => exact absurd rfl (he i y)
  | m i mask x => simp only [Ctx.applyEffect, Regs.writeM]; split <;> rfl
  | scale side x => simp only [Ctx.applyEffect]; split <;> rfl
  | ps n op t x => simp only [Ctx.applyEffect, Regs.reduce]; split <;> rfl
  | _ => rfl

theorem readG_applyEffect {c : Ctx} (hr : Sparse.risingFrom none c.regs.g = true) {r : Nat} (h0 : r ≠ 0) (p : Pending) :
    Sparse.risingFrom none (c.applyEffect p.due p.age p.eff).regs.g = true ∧
      (c.applyEffect p.due p.age p.eff).regs.readG r = landsOn r (c.regs.readG r) p := by
  unfold landsOn
  split
  next i y he =>
    rw [he]
    refine ⟨Regs.rising_writeG hr i y, (Regs.readG_writeG _ _ _ _ hr).trans ?_⟩
    by_cases hi : i = r
    · rw [if_pos ⟨hi.symm, hi ▸ h0⟩, if_pos hi]
    · rw [if_neg fun h => hi h.1.symm, if_neg hi]
  next he =>
    have hg := g_applyEffect c p.due p.age he
    exact ⟨hg ▸ hr, by rw [Regs.readG, Regs.readG, hg]⟩

/-- Results land one after the other on a `g` register. -/
theorem readG_foldl_landsOn {h r : Nat} (h0 : r ≠ 0) (l : List Pending) {s : State} (hr : Sparse.risingFrom none (s.ctx h).regs.g = true) :
    ((l.foldl (applyPending h) s).ctx h).regs.readG r = l.foldl (landsOn r) ((s.ctx h).regs.readG r) := by
  induction l generalizing s with
  | nil => rfl
  | cons p ps ih =>
    obtain ⟨w, hw⟩ := ctx_applyPending h s p
    obtain ⟨hrising, hread⟩ := readG_applyEffect hr h0 p
    rw [List.foldl_cons, List.foldl_cons, ← hread, ih (by rw [hw]; exact hrising), hw]

/-- With no stall left, what has come is what is due at the count of the next bundle. -/
theorem readG_landDue_nextG {s : State} {h r : Nat} (h0 : r ≠ 0) (hr : Sparse.risingFrom none (s.ctx h).regs.g = true)
    (hs : (s.ctx h).stallLeft = 0) : ((landDue h s).ctx h).regs.readG r = (s.ctx h).nextG r := by
  have hdue : dueNow (s.ctx h) = (s.ctx h).work.landing.filter fun p => decide (p.due ≤ (s.ctx h).count) := by
    refine List.filter_congr fun p _ => ?_
    rw [Ctx.hasCome, Ctx.nowCount, hs, Nat.zero_min, Nat.sub_zero]
  have hnext : (s.ctx h).nextG r = (sortPending (dueNow (s.ctx h))).foldl (landsOn r) ((s.ctx h).regs.readG r) := by
    rw [hdue]
    rfl
  rw [hnext, landDue_eq]
  split
  · rename_i hnone
    rw [List.isEmpty_iff.mp hnone]
    rfl
  · have htake : ((takeDue h s).ctx h).regs = (s.ctx h).regs := by rw [takeDue, State.ctx_mapCtx_self]
    rw [readG_foldl_landsOn h0 _ (htake ▸ hr), htake]

/-- Settles O35: the instructions under the check of R98, the end and the call by what their release answers, the arguments by the one line that
they are. -/
theorem gearsAndEndsSet : Obligations.GearsAndEndsSet := by
  refine ⟨fun s g w o i e m => ⟨fun ht => ?_, ?_, fun ht => ?_⟩, fun s a b w c ht => ⟨fun hf hc hq => ?_, fun hf hbad => ?_,
    fun hf ha => ?_, fun hf ha => ?_, under_translated98 ht _, under_translated98 ht _⟩, fun s h => ⟨?_, ?_, ?_⟩,
    fun s i => ⟨fun hs hall hfault hstage hp => ?_, fun rank rs c x hof hq hc hx hr hi => ?_⟩, fun s h r h0 hr => ?_⟩
  · refine ⟨_, exec_gear ht g w, rfl, ?_⟩
    obtain ⟨hhere, hsame⟩ := queues_frame s _
    rw [hhere]
    exact ⟨rfl, rfl, hsame, rfl⟩
  · rw [← declaration_eq]
    rfl
  · exact ⟨_, exec_yield ht, rfl, goBehind_frame s s.focusCtx⟩
  · rw [exec_done hf ht, hc, feqEmpty_of_queueClear hq]
    rfl
  · rw [exec_done hf ht]
    refine under_checks_stalled ?_ _
    rcases hbad with hc | hq
    · rw [bne_iff_ne.mpr hc]
      exact List.mem_cons_self
    · exact List.mem_cons_of_mem _ (List.mem_singleton.mpr (feqEmpty_stall hq).symm)
  · rw [exec_park hf ht, bne_eq_false_iff_eq.mpr ha, parkOf, setWidth_32_64]
    rfl
  · rw [TakesPrecise, exec_park hf ht, bne_iff_ne.mpr ha]
    rfl
  · exact ⟨(releaseStep_frame h s).1, (releaseStep_frame h s).2, releaseStep_complete⟩
  · intro x hx hi
    refine ⟨settleEnd_held hx, fun hm hr => ?_, fun hm hr => ?_⟩
    · rw [settleEnd_may hx hm, if_neg (Bool.eq_false_iff.mp hr)]
    · obtain ⟨n, hcont⟩ := cont_endContext h x hi
      rw [settleEnd_released hx hm hr]
      dsimp only
      rw [ctx_endContext, hcont]
      refine ⟨rfl, fun h0 => if_pos h0, rfl, rfl, rfl, rfl, rfl, fun o ho => ?_, rfl, store_endContext h x s⟩
      replace ho : o ∈ ((endContext h x s).core (coreOf h)).queue := ho
      rw [queue_endContext] at ho
      exact bne_iff_ne.mp (List.mem_filter.mp ho).2
  · intro x hx hend hof hq waits
    rw [settleCall_eq hx hend hof hq, ← isDeviceTrap_iff]
    refine ⟨fun hd => by rw [hd]; rfl, fun hd => ?_⟩
    rw [Bool.not_eq_true _ |>.mp hd]
    change (if (releaseStep h s).2 then waits (releaseStep h s).1 else (releaseStep h s).1) =
      if (releaseStep h s).2 then waits s else (releaseStep h s).1
    split
    next hr => rw [(releaseStep_complete hr).1]
    next => rfl
  · rw [settleCont]
    exact if_pos (by simp [hs, hall, hfault, hstage, hp])
  · obtain ⟨hcont, hnotices⟩ := nextCall_spec hof hq hc hx hr hi
    refine ⟨hcont, hnotices, fun ha hb hdcb hacts hh hd hm => ?_⟩
    have hblock : (s.cont i).block = 64 * ((s.cont i).block / 64) := by omega
    have hline : (s.cont i).block + 0xC0 = 64 * ((s.cont i).block / 64 + 3) := by omega
    have hdevice : isHostLine ((s.cont i).block / 64 + 3) = false := (isHostLine_eq_false _).mpr (by omega)
    rw [hline] at hh ⊢
    exact latestBytes_nextCall hof hq hc hx hr hblock hdevice hdcb hacts ((hostHolds_line ..).mp hh) hd hm
  · have hself := s.ctx_setCtx_self h { s.ctx h with stallLeft := 0 }
    rw [readG_landDue_nextG h0 (by rw [hself]; exact hr) (by rw [hself]), hself]
    rfl

end Sys2Proof.Machine

/-! SUPPORT. The statement on commutative ranges: the register word of a range read back, `crng` by its checks, and `cadd` by the range that holds
its active lanes. -/

namespace Sys2Proof.Machine

/-! ### The register word of a range (R169) -/

/-- The fields of a valid register word. -/
theorem rangeOf_eq_some {x : W64} (h : x.getLsbD 0 = true) : rangeOf x = some
    { base := x.toNat / 2 ^ 6 % 2 ^ 42 * 64, len := (x.toNat / 2 ^ 48 % 2 ^ 14 + 1) * 64, t := rangeType (x.toNat / 2 ^ 2 % 2 ^ 4),
      op := rangeOp (x.toNat / 2 ^ 62 % 2 ^ 2) } := by
  have hfield : ∀ start width : Nat, (x.extractLsb' start width).toNat = x.toNat / 2 ^ start % 2 ^ width := fun start width => by
    rw [BitVec.extractLsb'_toNat, Nat.shiftRight_eq_div_pow]
  rw [rangeOf, if_pos h, hfield, hfield, hfield, hfield]

/-- What R168 asks of the base and the length of a range, beside the other slots. -/
def RangeBounds (base len : Nat) : Prop := base % 64 = 0 ∧ len % 64 = 0 ∧ len ≤ 2 ^ 20 ∧ base + len ≤ 2 ^ 48

theorem rangeCode_lt (t : ElemType) : rangeCode t < 4 := by
  unfold rangeCode
  split <;> decide

theorem rangeOpCode_lt (o : RedOp) : rangeOpCode o < 3 := by
  cases o <;> decide

theorem rangeType_rangeCode {t : ElemType} (h : t = .f32 ∨ t = .bf16 ∨ t = .i32) : rangeType (rangeCode t) = t := by
  rcases h with rfl | rfl | rfl <;> rfl

theorem rangeOp_rangeOpCode (o : RedOp) : rangeOp (rangeOpCode o) = o := by
  cases o <;> rfl

section
variable {base len : Nat} (hb : RangeBounds base len) (t : ElemType) (o : RedOp)
include hb

/-- The fields of the word stand side by side. -/
theorem toNat_rangeWord : (rangeWord base len t o).toNat =
    rangeOpCode o * 2 ^ 62 + (len / 64 - 1) * 2 ^ 48 + base / 64 * 2 ^ 6 + rangeCode t * 4 + 1 := by
  obtain ⟨hbase, hlen, hmax, hend⟩ := hb
  have ht := rangeCode_lt t
  have ho := rangeOpCode_lt o
  rw [rangeWord, BitVec.toNat_ofNat, Nat.mod_eq_of_lt (by omega)]
  omega

theorem rangeWord_type : (rangeWord base len t o).toNat % 2 ^ 6 / 4 = rangeCode t := by
  have ht := rangeCode_lt t
  rw [toNat_rangeWord hb]
  omega

theorem rangeWord_op : (rangeWord base len t o).toNat / 2 ^ 62 = rangeOpCode o := by
  have ht := rangeCode_lt t
  rw [toNat_rangeWord hb]
  obtain ⟨-, -, hmax, hend⟩ := hb
  omega

theorem rangeWord_valid : (rangeWord base len t o).getLsbD 0 = true := by
  rw [BitVec.getLsbD, Nat.testBit_eq_decide_div_mod_eq, toNat_rangeWord hb, decide_eq_true_eq]
  omega

theorem rangeWord_zero : (rangeWord base len t o).getLsbD 1 = false := by
  have hbit : ∀ k : Nat, (4 * k + 1).testBit 1 = false := fun k => by
    rw [Nat.testBit_eq_decide_div_mod_eq, decide_eq_false_iff_not]
    omega
  rw [BitVec.getLsbD, toNat_rangeWord hb, show rangeOpCode o * 2 ^ 62 + (len / 64 - 1) * 2 ^ 48 + base / 64 * 2 ^ 6 + rangeCode t * 4 + 1 =
    4 * (rangeOpCode o * 2 ^ 60 + (len / 64 - 1) * 2 ^ 46 + base / 64 * 2 ^ 4 + rangeCode t) + 1 by omega, hbit]

variable (h0 : len ≠ 0)
include h0

theorem rangeWord_base : (rangeWord base len t o).toNat / 2 ^ 6 % 2 ^ 42 = base / 64 := by
  have ht := rangeCode_lt t
  rw [toNat_rangeWord hb]
  obtain ⟨-, -, -, hend⟩ := hb
  omega

theorem rangeWord_lines : (rangeWord base len t o).toNat / 2 ^ 48 % 2 ^ 14 = len / 64 - 1 := by
  have ht := rangeCode_lt t
  rw [toNat_rangeWord hb]
  obtain ⟨-, -, hmax, hend⟩ := hb
  omega

/-- The word of a range of a type that `crng` accepts (R64) reads as that range. -/
theorem rangeOf_rangeWord (ht : t = .f32 ∨ t = .bf16 ∨ t = .i32) :
    rangeOf (rangeWord base len t o) = some { base := base, len := len, t := t, op := o } := by
  have ⟨hbase, hlen, _⟩ := hb
  have hstart : base / 64 * 64 = base := by omega
  have hlines : (len / 64 - 1 + 1) * 64 = len := by omega
  have htype : (rangeWord base len t o).toNat / 2 ^ 2 % 2 ^ 4 = rangeCode t := by
    rw [← rangeWord_type hb t o]
    omega
  have hop : (rangeWord base len t o).toNat / 2 ^ 62 % 2 ^ 2 = rangeOpCode o := by
    rw [rangeWord_op hb, Nat.mod_eq_of_lt (by have := rangeOpCode_lt o; omega)]
  rw [rangeOf_eq_some (rangeWord_valid hb t o), rangeWord_base hb t o h0, rangeWord_lines hb t o h0, htype, hop,
    rangeType_rangeCode ht, rangeOp_rangeOpCode, hstart, hlines]

end

/-! ### `crng` (R168, R291) -/

/-- Whether a range of slot n breaks R168: by its bounds, or by another slot's valid range that it overlaps. -/
def badRange (rs : List (Nat × Range)) (n base len : Nat) : Bool :=
  base % 64 != 0 || len % 64 != 0 || decide (2 ^ 20 < len) || decide (2 ^ 48 < base + len) ||
    rs.any fun e => e.1 != n && decide (base < e.2.base + e.2.len) && decide (e.2.base < base + len)

theorem badRange_eq_false (rs : List (Nat × Range)) (n base len : Nat) : badRange rs n base len = false ↔
    RangeBounds base len ∧ ¬ ∃ e ∈ rs, e.1 ≠ n ∧ base < e.2.base + e.2.len ∧ e.2.base < base + len := by
  have hbounds : (base % 64 != 0 || len % 64 != 0 || decide (2 ^ 20 < len) || decide (2 ^ 48 < base + len)) = false ↔ RangeBounds base len := by
    simp only [Bool.or_eq_false_iff, bne_eq_false_iff_eq, decide_eq_false_iff_not, not_lt, RangeBounds, and_assoc]
  rw [badRange, Bool.or_eq_false_iff, hbounds, ← Bool.not_eq_true, List.any_eq_true]
  simp only [Bool.and_eq_true, bne_iff_ne, decide_eq_true_eq, and_assoc]

theorem exec_crng (n : Reg2) (b l : Reg) (t : ElemType) (o : RedOp) (s : State) : exec (.crng n b l t o) s =
    under (checks [readyG s [b, l], faultWhen ((srcG s l).toNat != 0 &&
        badRange s.here.regs.ranges n.toNat (srcG s b).toNat (srcG s l).toNat) .badValue 0]) s
      (effect (land 1 (.crng n.toNat (if (srcG s l).toNat = 0 then 0 else rangeWord (srcG s b).toNat (srcG s l).toNat t o)) s)) := rfl

section
variable {s : State} {n : Reg2} {b l : Reg} {t : ElemType} {o : RedOp} (hf : s.Free [b, l])
include hf

theorem exec_crng_clears (h0 : (srcG s l).toNat = 0) : exec (.crng n b l t o) s = .next (s.lands [(1, .crng n.toNat 0)]) := by
  rw [exec_crng, (readyG_ok ..).mpr hf, h0]
  rfl

variable (h0 : (srcG s l).toNat ≠ 0)
include h0

theorem exec_crng_declares (hg : badRange s.here.regs.ranges n.toNat (srcG s b).toNat (srcG s l).toNat = false) : exec (.crng n b l t o) s =
    .next (s.lands [(1, .crng n.toNat (rangeWord (srcG s b).toNat (srcG s l).toNat t o))]) := by
  rw [exec_crng, (readyG_ok ..).mpr hf, hg, Bool.and_false, if_neg h0]
  rfl

theorem exec_crng_bad (hb : badRange s.here.regs.ranges n.toNat (srcG s b).toNat (srcG s l).toNat = true) :
    TakesPrecise (.crng n b l t o) s .badValue 0 := by
  rw [TakesPrecise, exec_crng, (readyG_ok ..).mpr hf, hb, bne_iff_ne.mpr h0]
  exact under_precise rfl _

end

/-! ### `cadd` (R170, R286) -/

/-- Whether a range holds the words of lanes from a base on. -/
def Range.holdsLanes (base : Nat) (lanes : List Nat) (r : Range) : Bool :=
  lanes.all fun j => decide (r.base ≤ base + 4 * j) && decide (base + 4 * j + 4 ≤ r.base + r.len)

theorem Range.holdsLanes_iff (base : Nat) (lanes : List Nat) (r : Range) :
    r.holdsLanes base lanes = true ↔ ∀ j ∈ lanes, r.base ≤ base + 4 * j ∧ base + 4 * j + 4 ≤ r.base + r.len := by
  simp only [Range.holdsLanes, List.all_eq_true, Bool.and_eq_true, decide_eq_true_eq]

section
variable (s : State) (v a : Reg) (m : Reg3)

/-- The items of a `cadd`: the words from g[a] on at the active lanes. -/
def caddItems : List Item :=
  laneItems (srcM s m) (fun j => srcG s a + BitVec.ofNat 64 (4 * j)) fun j => (s.here.readSrcV v).getD j 0

/-- The first valid slot of the context that holds every active lane. -/
def caddRange : Option (Nat × Range) :=
  s.here.regs.ranges.find? fun e => e.2.holdsLanes (srcG s a).toNat (activeLanes (srcM s m))

/-- What a `cadd` without a fault leaves: its source pops, and its items issue as partials of the kind of its range. -/
def caddEffect (items : List Item) : Option (Nat × Range) → State
  | some r => if items.isEmpty then popSources [v] s else issueMem (.combine r.2.t r.2.op) none 4 .wt false items (popSources [v] s)
  | none => popSources [v] s

theorem exec_cadd : exec (.cadd v a m) s =
    under (checks ([readyG s [a], s.here.checkSrcV v] ++ [faultWhen (!(caddItems s v a m).isEmpty &&
        ((srcG s a).toNat % 4 != 0 || (caddRange s a m).isNone)) .range 0, memLimit s (linesOf (caddItems s v a m)).length])) s
      (effect (caddEffect s v (caddItems s v a m) (caddRange s a m))) := by
  rw [caddItems, ← rowItems_eq]
  rfl

end

section
variable {s : State} {a : Reg} {m : Reg3}

/-- The one range that holds the active lanes is the range of the `cadd`. -/
theorem caddRange_eq_some {e : Nat × Range} (he : e ∈ s.here.regs.ranges)
    (hh : e.2.holdsLanes (srcG s a).toNat (activeLanes (srcM s m)) = true)
    (honly : ∀ e' ∈ s.here.regs.ranges, e'.2.holdsLanes (srcG s a).toNat (activeLanes (srcM s m)) = true → e' = e) :
    caddRange s a m = some e := by
  have hsome : (caddRange s a m).isSome := List.find?_isSome.mpr ⟨e, he, hh⟩
  obtain ⟨e', hfind⟩ := Option.isSome_iff_exists.mp hsome
  have hholds : e'.2.holdsLanes (srcG s a).toNat (activeLanes (srcM s m)) = true :=
    List.find?_some (p := fun e : Nat × Range => e.2.holdsLanes _ _) hfind
  rw [hfind, honly e' (List.mem_of_find?_eq_some hfind) hholds]

theorem caddRange_eq_none (hnone : ∀ e ∈ s.here.regs.ranges, ¬ e.2.holdsLanes (srcG s a).toNat (activeLanes (srcM s m)) = true) :
    caddRange s a m = none := List.find?_eq_none.mpr hnone

variable {v : Reg} (hf : s.Free [a]) (hv : s.here.checkSrcV v = .ok)
include hf hv

section
variable (hroom : memLimit s ((activeLanes (srcM s m)).map fun j => (srcG s a + BitVec.ofNat 64 (4 * j)).toNat / 64).dedup.length = .ok)
include hroom

/-- With its operands ready and room for its lines, a `cadd` faults by its alignment and its range alone. -/
theorem exec_cadd_ready : exec (.cadd v a m) s =
    under (faultWhen (!(caddItems s v a m).isEmpty && ((srcG s a).toNat % 4 != 0 || (caddRange s a m).isNone)) .range 0) s
      (effect (caddEffect s v (caddItems s v a m) (caddRange s a m))) := by
  have hops : ∀ c ∈ [readyG s [a], s.here.checkSrcV v], c = .ok := by simp [(readyG_ok s [a]).mpr hf, hv]
  rw [exec_cadd, checks_append_ok hops, show linesOf (caddItems s v a m) = _ from linesOf_laneItems, hroom]
  cases !(caddItems s v a m).isEmpty && ((srcG s a).toNat % 4 != 0 || (caddRange s a m).isNone) <;> rfl

variable (hne : activeLanes (srcM s m) ≠ [])
include hne

theorem exec_cadd_issues (hal : (srcG s a).toNat % 4 = 0) {e : Nat × Range} (hr : caddRange s a m = some e) : exec (.cadd v a m) s =
    .next (s.popsThen [v] (addMemOp (coherentOp s (.combine e.2.t e.2.op) none .wt false (caddItems s v a m)))) := by
  have hitems : (caddItems s v a m).isEmpty = false := laneItems_not_isEmpty hne
  have hgood : faultWhen (!(caddItems s v a m).isEmpty && ((srcG s a).toNat % 4 != 0 || (some e).isNone)) .range 0 = .ok := by
    rw [hal, Option.isNone_some, bne_self_eq_false, Bool.or_false, Bool.and_false, faultWhen_false]
  rw [exec_cadd_ready hf hv hroom, hr, caddEffect, issueMem_eq (sameIssue_popSources [v] s)]
  exact under_effect_else hgood hitems _ _

theorem exec_cadd_fault (hbad : (srcG s a).toNat % 4 ≠ 0 ∨ caddRange s a m = none) : TakesPrecise (.cadd v a m) s .range 0 := by
  have hitems : (caddItems s v a m).isEmpty = false := laneItems_not_isEmpty hne
  have hcheck : ((srcG s a).toNat % 4 != 0 || (caddRange s a m).isNone) = true := by
    rw [Bool.or_eq_true, bne_iff_ne, Option.isNone_iff_eq_none]
    exact hbad
  rw [TakesPrecise, exec_cadd_ready hf hv hroom, hitems, hcheck]
  exact under_precise rfl _

end

theorem exec_cadd_none (hroom : memLimit s 0 = .ok) (he : activeLanes (srcM s m) = []) :
    exec (.cadd v a m) s = .next (s.popsThen [v] id) := by
  have hitems : (caddItems s v a m).isEmpty = true := laneItems_isEmpty he
  have heffect : caddEffect s v (caddItems s v a m) (caddRange s a m) = popSources [v] s := by
    cases caddRange s a m with
    | none => rfl
    | some r => rw [caddEffect, hitems, if_pos rfl]
  rw [exec_cadd_ready hf hv (by rw [he]; exact hroom), hitems, heffect]
  rfl

end

/-- Settles O52: `crng` by the one check of R168 and the word of R169, `cadd` by the range that is found to hold its active lanes. -/
theorem commutativeRangesWork : Obligations.CommutativeRangesWork := by
  intro s n b l v m t o base len type op meets good lanes holds X room
  have hgood : badRange s.here.regs.ranges n.toNat base len = false ↔ good := badRange_eq_false ..
  have hholds : ∀ r : Range, r.holdsLanes base lanes = true ↔ holds r := Range.holdsLanes_iff base lanes
  have htype : rangeCode t = type := by cases t <;> rfl
  have hop : rangeOpCode o = op := by cases o <;> rfl
  refine ⟨exec_crng_clears, fun hf h0 hg => ?_, fun hf h0 hg => ?_, fun hf hv hroom hne hal => ⟨fun e he hh honly => ?_, fun hnone => ?_⟩,
    fun hf hv hroom hne hal => ?_, exec_cadd_none⟩
  · have hb : RangeBounds base len := hg.1
    rw [← htype, ← hop]
    exact ⟨_, exec_crng_declares hf h0 (hgood.mpr hg), rangeWord_valid hb t o, rangeWord_zero hb t o, rangeWord_type hb t o,
      rangeWord_base hb t o h0, rangeWord_lines hb t o h0, rangeWord_op hb t o, rangeOf_rangeWord hb t o h0⟩
  · exact exec_crng_bad hf h0 (Bool.not_eq_false _ |>.mp (mt hgood.mp hg))
  · have hr : caddRange s b m = some e := caddRange_eq_some he ((hholds _).mpr hh) fun e' he' h => honly e' he' ((hholds _).mp h)
    exact exec_cadd_issues hf hv hroom hne hal hr
  · have hr : caddRange s b m = none := caddRange_eq_none fun e he h => hnone e he ((hholds _).mp h)
    exact exec_cadd_fault hf hv hroom hne (.inr hr)
  · exact exec_cadd_fault hf hv hroom hne (.inl hal)

end Sys2Proof.Machine

/-! SUPPORT. The statement on atomics: one issue for the ten instructions, and the table of R193 in both widths. -/

namespace Sys2Proof.Machine

/-! ### Issue (R193, R277) -/

/-- The atomics with their operation and the register of their third operand, which only `atcas` has (R277). -/
def atomicInstrs (d a b c : Reg) (w : Bool) : List (Instr × AtomicOp × Reg) :=
  [(.atadd d a b w, .add, 0), (.atand d a b w, .and, 0), (.ator d a b w, .or, 0), (.atxor d a b w, .xor, 0),
    (.atmin d a b w true, .min, 0), (.atmin d a b w false, .minU, 0), (.atmax d a b w true, .max, 0), (.atmax d a b w false, .maxU, 0),
    (.atswp d a b w, .swp, 0), (.atcas d a b c w, .cas, c)]

section
variable {d a b c : Reg} {w : Bool} {s : State}

theorem exec_of_mem_atomicInstrs {e : Instr × AtomicOp × Reg} (he : e ∈ atomicInstrs d a b c w) :
    exec e.1 s = atomic e.2.1 d a b e.2.2 w s := by
  revert e
  simp only [atomicInstrs, List.forall_mem_cons, List.not_mem_nil, IsEmpty.forall_iff, implies_true, and_true]
  exact ⟨rfl, rfl, rfl, rfl, rfl, rfl, rfl, rfl, rfl, rfl⟩

/-- The third operand is register c, or `g0`, which is never busy. -/
theorem free_of_mem_atomicInstrs {e : Instr × AtomicOp × Reg} (he : e ∈ atomicInstrs d a b c w) (hf : s.Free [d, a, b, c]) :
    s.Free [d, a, b, e.2.2] := by
  obtain ⟨hd, ha, hb, hc⟩ : s.here.busyG d.toNat = false ∧ s.here.busyG a.toNat = false ∧ s.here.busyG b.toNat = false ∧
      s.here.busyG c.toNat = false := by simpa [State.Free] using hf
  have hthird : e.2.2 = 0 ∨ e.2.2 = c := by
    revert e
    simp [atomicInstrs]
  have hlast : s.here.busyG e.2.2.toNat = false := by
    rcases hthird with h | h <;> rw [h]
    · exact s.here.busyG_zero
    · exact hc
  simp [State.Free, hd, ha, hb, hlast]

/-- The operation that an atomic enters. -/
def atomicMemOp (op : AtomicOp) (d a b c : Reg) (w : Bool) (s : State) : MemOp :=
  { kind := .atomic op (srcG s b) (srcG s c) s.here.regs.apeer, dest := some (.g d.toNat), width := accessSize w, policy := .wt,
    perLane := false, items := [{ lane := 0, va := srcG s a, data := 0 }], seq := 2 * s.here.retired, age := s.age,
    cycle := (s.core (s.focusCtx / 4)).cycles, slot := s.focusSlot, pc := s.here.pc.toNat, translated := false, accesses := [], got := [],
    sent := false }

variable (hf : s.Free [d, a, b, c]) (hroom : memLimit s 1 = .ok) (op : AtomicOp)
include hf hroom

/-- With its registers ready and room for its line, an atomic is refused for its alignment alone. -/
theorem atomic_ready : atomic op d a b c w s =
    under (faultWhen ((srcG s a).toNat % accessSize w != 0) .badValue (srcG s a).toNat) s
      (effect (addMemOp (atomicMemOp op d a b c w s) s)) := by
  change under (checks [readyG s [d, a, b, c], memLimit s 1, faultWhen _ .badValue _]) s _ = _
  rw [(readyG_ok ..).mpr hf, hroom]
  cases (srcG s a).toNat % accessSize w != 0 <;> rfl

theorem atomic_issues (hal : (srcG s a).toNat % accessSize w = 0) : atomic op d a b c w s =
    .next (s.queues fun x => { x with memOps := x.memOps ++ [atomicMemOp op d a b c w s] }) := by
  rw [atomic_ready hf hroom, hal]
  rfl

theorem atomic_misaligned (hal : (srcG s a).toNat % accessSize w ≠ 0) : atomic op d a b c w s =
    .next { takePrecise s.focusCtx s.focusSlot .badValue (srcG s a).toNat s with signal := .fault .badValue (srcG s a).toNat } := by
  rw [atomic_ready hf hroom, bne_iff_ne.mpr hal]
  rfl

end

/-! ### What an atomic writes (R193) -/

/-- The signed reading of a code that fits its width. -/
theorem signedOf_of_lt {w x : Nat} (hw : 0 < w) (hx : x < 2 ^ w) : signedOf w x = if x < 2 ^ (w - 1) then (x : Int) else x - 2 ^ w := by
  have hhalf : 2 ^ w = 2 * 2 ^ (w - 1) := (mul_pow_sub_one hw.ne' 2).symm
  have hsign : 2 * x < 2 ^ w ↔ x < 2 ^ (w - 1) := by omega
  simp only [signedOf, Nat.mod_eq_of_lt hx, hsign]

theorem atomicFn_minU (w o b c : Nat) : atomicFn .minU w o b c = min o b := by
  change (if b < o then b else o) = min o b
  split <;> omega

theorem atomicFn_maxU (w o b c : Nat) : atomicFn .maxU w o b c = max o b := by
  change (if o < b then b else o) = max o b
  split <;> omega

theorem signedOf_atomicFn_min (w o b c : Nat) : signedOf w (atomicFn .min w o b c) = min (signedOf w o) (signedOf w b) := by
  change signedOf w (if signedOf w b < signedOf w o then b else o) = _
  split <;> omega

theorem signedOf_atomicFn_max (w o b c : Nat) : signedOf w (atomicFn .max w o b c) = max (signedOf w o) (signedOf w b) := by
  change signedOf w (if signedOf w o < signedOf w b then b else o) = _
  split <;> omega

/-- The lesser and the greater are one of the two. -/
theorem atomicFn_lt {w o b : Nat} (ho : o < 2 ^ w) (hb : b < 2 ^ w) (c : Nat) :
    atomicFn .min w o b c < 2 ^ w ∧ atomicFn .max w o b c < 2 ^ w := by
  refine ⟨?_, ?_⟩
  · change (if signedOf w b < signedOf w o then b else o) < _
    split <;> assumption
  · change (if signedOf w o < signedOf w b then b else o) < _
    split <;> assumption

/-- Settles O51: the ten are one operation by its alignment; the table is the definition, with the two readings of a code as an integer. -/
theorem atomicsIssue : Obligations.AtomicsIssue := by
  refine ⟨fun s d a b c w hf hroom => ?_, fun w o b c hw ho hb hc => ?_⟩
  · intro n va e he
    have hfree := free_of_mem_atomicInstrs he hf
    rw [TakesPrecise, exec_of_mem_atomicInstrs he]
    exact ⟨atomic_issues hfree hroom e.2.1, atomic_misaligned hfree hroom e.2.1⟩
  · have hpos : 0 < w := by omega
    obtain ⟨hmin, hmax⟩ := atomicFn_lt ho hb c
    dsimp only
    rw [← signedOf_of_lt hpos ho, ← signedOf_of_lt hpos hb, ← signedOf_of_lt hpos hmin, ← signedOf_of_lt hpos hmax]
    exact ⟨rfl, rfl, rfl, rfl, rfl, atomicFn_minU w o b c, atomicFn_maxU w o b c, signedOf_atomicFn_min w o b c,
      signedOf_atomicFn_max w o b c, rfl⟩

end Sys2Proof.Machine

/-! SUPPORT. The statement on barrier instructions: the check of an object, the waits that end, and the four instructions by their checks. -/

namespace Sys2Proof.Machine

/-! ### The check of an object (R187) -/

/-- Register a names an object of the focus context's window: its offset is a multiple of 16, and its 16 bytes lie inside. -/
abbrev State.GoodObject (s : State) (a : Reg) : Prop := (srcG s a).toNat % 16 = 0 ∧ (srcG s a).toNat + 16 ≤ 2 ^ s.here.winLog

section
variable {s : State} {a : Reg}

theorem badObject_eq_false (c : Ctx) (p : Nat) : badObject c p = false ↔ p % 16 = 0 ∧ p + 16 ≤ 2 ^ c.winLog := by
  rw [badObject, Bool.or_eq_false_iff, bne_eq_false_iff_eq, decide_eq_false_iff_not, not_lt, Ctx.window]

theorem checkObject_ok (h : s.GoodObject a) : checkObject s a = .ok := by
  rw [checkObject, (badObject_eq_false ..).mpr h, faultWhen_false]

theorem checkObject_fault (h : ¬ s.GoodObject a) :
    checkObject s a = .fault .window (srcG s a).toNat := by
  rw [checkObject, Bool.not_eq_false _ |>.mp (mt (badObject_eq_false ..).mp h), faultWhen_true]

end

/-! ### Waits that end (R189, R285) -/

section
variable (s : State)

theorem ctx_endWaits (h : Nat) : (endWaits s).ctx h = endWait s h (s.ctx h) := by
  change Sparse.get .placed (s.ctxs.map fun e => (e.1, endWait s e.1 e.2)) h = endWait s h (Sparse.get .placed s.ctxs h)
  rw [Sparse.get, Sparse.find_map (fun e => endWait s e.1 e.2), Sparse.get]
  cases Sparse.find s.ctxs h <;> rfl

theorem regs_endWait (h : Nat) (c : Ctx) : (endWait s h c).regs = c.regs := by
  unfold endWait
  split
  · split <;> rfl
  · rfl

/-- The end of waits changes no register and no memory. -/
theorem sameRegs_endWaits : SameRegsAndMemory s (endWaits s) :=
  ⟨fun h => by rw [ctx_endWaits, regs_endWait], rfl⟩

variable {s} {h addr : Nat} {c : Ctx} {p : Bool} (hw : c.work.bwait = some (addr, p))
include hw

theorem endWait_waits (hp : phaseOf s.store (coreOf h) addr ≠ p) : endWait s h c = c := by
  rw [endWait, hw]
  dsimp only
  rw [beq_eq_false_iff_ne.mpr hp, Bool.and_false]
  rfl

theorem endWait_ends (hwatch : c.watches = true) (hp : phaseOf s.store (coreOf h) addr = p) : endWait s h c =
    { c with pts := max c.pts (carried s.store (objectKey (coreOf h) addr)).1, work := { c.work with bwait := none } } := by
  rw [endWait, hw]
  dsimp only
  rw [hwatch, hp, beq_self_eq_true]
  rfl

end

theorem SameRegsAndMemory.trans {s t u : State} (a : SameRegsAndMemory s t) (b : SameRegsAndMemory t u) : SameRegsAndMemory s u :=
  ⟨fun h => (b.1 h).trans (a.1 h), b.2.trans a.2⟩

/-- A change of the focus context that leaves its registers. -/
theorem sameRegs_mapHere (s : State) {f : Ctx → Ctx} (hf : (f s.here).regs = s.here.regs) : SameRegsAndMemory s (s.mapHere f) := by
  refine ⟨fun h => ?_, rfl⟩
  rw [State.ctx_mapHere]
  split
  next hh => rw [hf, hh, State.here]
  next => rfl

/-! ### `bini` (R187, R282) -/

/-- What `bini` writes: the four words of the object, its mark, and what it carries. -/
def initObject (core obj need arr : Nat) (st : Store) : Store :=
  setCarried (setMark (scratchStore (scratchStore (scratchStore (scratchStore st core obj (BitVec.ofNat 32 need)) core (obj + 4) 0) core (obj + 8)
    (BitVec.ofNat 32 (arr * 65536))) core (obj + 12) 0) core obj) (objectKey core obj) (0, 0)

/-- The needs that no object may have: past their widths, or none at all (R187). -/
def badNeeds (need arr : Nat) : Bool := decide (0xFFFFFFFF < need) || decide (0xFFFF < arr) || (need == 0 && arr == 0)

theorem badNeeds_eq_false (need arr : Nat) : badNeeds need arr = false ↔ (need < 2 ^ 32 ∧ arr < 2 ^ 16) ∧ (need ≠ 0 ∨ arr ≠ 0) := by
  rw [← Bool.not_eq_true]
  simp only [badNeeds, Bool.or_eq_true, Bool.and_eq_true, decide_eq_true_eq, beq_iff_eq]
  omega

section
variable {s : State} {a b c : Reg}

theorem exec_bini (a b c : Reg) (s : State) : exec (.bini a b c) s =
    under (checks [readyG s [a, b, c], fesetClear s (hereAddr s (srcG s a)) 16, checkObject s a,
        faultWhen (badNeeds (srcG s b).toNat (srcG s c).toNat) .badValue 0]) s
      (effect (endWaits (s.mapStore (initObject (coreOf s.focusCtx) (hereAddr s (srcG s a)) (srcG s b).toNat (srcG s c).toNat)))) := rfl

theorem exec_bini_waits (hc : ¬ fesetOver s s.focusCtx (hereAddr s (srcG s a)) 16 = false) : exec (.bini a b c) s = .next s.stalled := by
  rw [exec_bini]
  refine under_checks_stalled ?_ _
  rw [fesetClear_stall hc]
  exact List.mem_cons_of_mem _ List.mem_cons_self

variable (hf : s.Free [a, b, c]) (hc : fesetOver s s.focusCtx (hereAddr s (srcG s a)) 16 = false)
include hf hc

/-- With its registers ready and no `feset` over the object, `bini` faults by the object and then by its needs. -/
theorem exec_bini_ready : exec (.bini a b c) s =
    under (checks [checkObject s a, faultWhen (badNeeds (srcG s b).toNat (srcG s c).toNat) .badValue 0]) s
      (effect (endWaits (s.mapStore (initObject (coreOf s.focusCtx) (hereAddr s (srcG s a)) (srcG s b).toNat (srcG s c).toNat)))) := by
  rw [exec_bini, (readyG_ok ..).mpr hf, fesetClear_ok hc, checks_ok, checks_ok]

theorem exec_bini_badObject (hbad : ¬ s.GoodObject a) :
    TakesPrecise (.bini a b c) s .window (srcG s a).toNat := by
  rw [TakesPrecise, exec_bini_ready hf hc, checkObject_fault hbad]
  cases badNeeds (srcG s b).toNat (srcG s c).toNat <;> rfl

variable (hgood : s.GoodObject a)
include hgood

theorem exec_bini_writes (hn : badNeeds (srcG s b).toNat (srcG s c).toNat = false) : exec (.bini a b c) s = .next (s.took fun u => endWaits
    (u.mapStore (initObject (coreOf s.focusCtx) (hereAddr s (srcG s a)) (srcG s b).toNat (srcG s c).toNat))) := by
  rw [exec_bini_ready hf hc, checkObject_ok hgood, hn]
  rfl

theorem exec_bini_badNeeds (hn : badNeeds (srcG s b).toNat (srcG s c).toNat = true) : TakesPrecise (.bini a b c) s .badValue 0 := by
  rw [TakesPrecise, exec_bini_ready hf hc, checkObject_ok hgood, hn]
  rfl

end

/-! ### `barv` (R188, R279) -/

section
variable {s : State} {a b : Reg} (hf : s.Free [a, b]) (r : Bool)
include hf

/-- With its registers ready, `barv` faults by the object and then by its byte count. -/
theorem exec_barv_ready : exec (.barv a b r) s =
    under (checks [checkObject s a, faultWhen (decide (0xFFFFFFFF < (srcG s b).toNat)) .badValue 0]) s
      (effect (s.mapHere fun c => { c with work := { c.work with barvs := c.work.barvs ++
        [{ addr := hereAddr s (srcG s a), bytes := (srcG s b).toNat, arrive := r, gate := 2 * c.retired + 2 }] } })) := by
  change under (checks [readyG s [a, b], checkObject s a, _]) s _ = _
  rw [(readyG_ok ..).mpr hf, checks_ok]

theorem exec_barv_badObject (hbad : ¬ s.GoodObject a) :
    TakesPrecise (.barv a b r) s .window (srcG s a).toNat := by
  rw [TakesPrecise, exec_barv_ready hf, checkObject_fault hbad]
  cases decide (0xFFFFFFFF < (srcG s b).toNat) <;> rfl

variable (hgood : s.GoodObject a)
include hgood

theorem exec_barv_queues (hn : (srcG s b).toNat < 2 ^ 32) : exec (.barv a b r) s = .next (s.queues fun w => { w with barvs := w.barvs ++
    [{ addr := hereAddr s (srcG s a), bytes := (srcG s b).toNat, arrive := r, gate := 2 * s.here.retired + 2 }] }) := by
  rw [exec_barv_ready hf, checkObject_ok hgood, decide_eq_false (by omega)]
  rfl

theorem exec_barv_badCount (hn : 2 ^ 32 ≤ (srcG s b).toNat) : TakesPrecise (.barv a b r) s .badValue 0 := by
  rw [TakesPrecise, exec_barv_ready hf, checkObject_ok hgood, decide_eq_true (by omega)]
  rfl

end

/-! ### `bwait` (R189, R285) -/

/-- A context that waits for a phase of an object. -/
def Ctx.waitFor (addr : Nat) (p : Bool) (c : Ctx) : Ctx := { c with work := { c.work with bwait := some (addr, p) } }

/-- The focus context begins a wait, before the object is looked at. -/
def beginWait (addr : Nat) (p : Bool) (s : State) : State := s.mapHere (Ctx.waitFor addr p)

theorem here_endWaits_beginWait (addr : Nat) (p : Bool) (s : State) :
    (endWaits (beginWait addr p s)).here = endWait (beginWait addr p s) s.focusCtx (s.here.waitFor addr p) := by
  rw [← s.here_mapHere (Ctx.waitFor addr p)]
  exact ctx_endWaits _ _

/-- A wait changes no register and no memory, whether or not it ends at once. -/
theorem sameRegs_endWaits_beginWait (addr : Nat) (p : Bool) (s : State) : SameRegsAndMemory s (endWaits (beginWait addr p s)) :=
  (sameRegs_mapHere s rfl).trans (sameRegs_endWaits _)

section
variable {s : State} {a b : Reg} (hf : s.Free [a, b])
include hf

theorem exec_bwait_ready : exec (.bwait a b) s =
    under (checkObject s a) s (effect (endWaits (beginWait (hereAddr s (srcG s a)) ((srcG s b).getLsbD 0) s))) := by
  change under (checks [readyG s [a, b], checkObject s a]) s _ = _
  rw [(readyG_ok ..).mpr hf, checks_ok]
  cases checkObject s a <;> rfl

theorem exec_bwait_badObject (hbad : ¬ s.GoodObject a) :
    TakesPrecise (.bwait a b) s .window (srcG s a).toNat := by
  rw [TakesPrecise, exec_bwait_ready hf, checkObject_fault hbad]
  rfl

variable (hgood : s.GoodObject a)
include hgood

theorem exec_bwait_good : exec (.bwait a b) s =
    .next (s.took fun u => endWaits (beginWait (hereAddr s (srcG s a)) ((srcG s b).getLsbD 0) u)) :=
  (exec_bwait_ready hf).trans (under_effect (checkObject_ok hgood) _)

/-- The phase is not yet the one named: the context waits. -/
theorem exec_bwait_waits (hp : phaseOf s.store (coreOf s.focusCtx) (hereAddr s (srcG s a)) ≠ (srcG s b).getLsbD 0) :
    ∃ t, exec (.bwait a b) s = .next t ∧ t.signal = .none ∧ t.here.work.bwait = some (hereAddr s (srcG s a), (srcG s b).getLsbD 0) ∧
      SameRegsAndMemory s t := by
  have hhere := (here_endWaits_beginWait (hereAddr s (srcG s a)) ((srcG s b).getLsbD 0) s).trans (endWait_waits rfl hp)
  exact ⟨_, exec_bwait_good hf hgood, rfl, congrArg (fun c : Ctx => c.work.bwait) hhere, sameRegs_endWaits_beginWait _ _ s⟩

/-- The phase is the one named: the wait has ended, and what the object carries is acquired (R150). -/
theorem exec_bwait_ends (hp : phaseOf s.store (coreOf s.focusCtx) (hereAddr s (srcG s a)) = (srcG s b).getLsbD 0) (hw : s.here.watches = true) :
    ∃ t, exec (.bwait a b) s = .next t ∧ t.signal = .none ∧ t.here.work.bwait = none ∧
      t.here.pts = max s.here.pts (carried s.store (objectKey (coreOf s.focusCtx) (hereAddr s (srcG s a)))).1 ∧ SameRegsAndMemory s t := by
  have hhere := (here_endWaits_beginWait (hereAddr s (srcG s a)) ((srcG s b).getLsbD 0) s).trans (endWait_ends rfl hw hp)
  refine ⟨_, exec_bwait_good hf hgood, rfl, ?_, ?_, sameRegs_endWaits_beginWait _ _ s⟩
  · exact congrArg (fun c : Ctx => c.work.bwait) hhere
  · exact congrArg Ctx.pts hhere

end

/-! ### `pbar` (R191, R323) -/

/-- The wait at the next barrier of a level (R191). -/
def nextPbar (l : Reg2) (g : Option Bool) (x : Bool) (s : State) : PbarWait :=
  { level := l.toNat, nth := Sparse.get 0 s.here.pbarCount l.toNat + 1, gear := g, drop := x, gate := 2 * s.here.retired + 2, arrived := false,
    raised := false, released := false }

/-- A context that waits there. -/
def beginPbar (l : Reg2) (g : Option Bool) (x : Bool) (s : State) : State := s.mapHere fun c =>
  { c with pbarCount := Sparse.set 0 c.pbarCount l.toNat (nextPbar l g x s).nth, work := { c.work with pbar := some (nextPbar l g x s) } }

theorem exec_pbar (l : Reg2) (g : Option Bool) (x : Bool) (s : State) : exec (.pbar l g x) s =
    under (faultWhen (l == 3 && !s.here.regs.pack.getLsbD 63) .badValue 0) s (effect (beginPbar l g x s)) := rfl

theorem exec_pbar_waits {l : Reg2} {s : State} (hl : l ≠ 3 ∨ s.here.regs.pack.getLsbD 63 = true) (g : Option Bool) (x : Bool) :
    exec (.pbar l g x) s = .next (s.took (beginPbar l g x)) := by
  have hpack : (l == 3 && !s.here.regs.pack.getLsbD 63) = false := by
    rcases hl with h | h
    · rw [beq_eq_false_iff_ne.mpr h, Bool.false_and]
    · rw [h, Bool.not_true, Bool.and_false]
  rw [exec_pbar, hpack]
  rfl

theorem pbar_beginPbar (l : Reg2) (g : Option Bool) (x : Bool) (s : State) : (beginPbar l g x s).here.work.pbar = some (nextPbar l g x s) := by
  rw [beginPbar, State.here_mapHere]

theorem sameRegs_beginPbar (l : Reg2) (g : Option Bool) (x : Bool) (s : State) : SameRegsAndMemory s (beginPbar l g x s) := sameRegs_mapHere s rfl

/-- Settles O50: each instruction by its checks, and a wait by what its object shows when it begins. -/
theorem barrierInstructionsWork : Obligations.BarrierInstructionsWork := by
  intro s a b c f x l g off good core obj need arr goodCounts
  have hcounts : badNeeds need arr = false ↔ goodCounts := badNeeds_eq_false need arr
  refine ⟨fun hf hg hn hc => exec_bini_writes hf hc hg (hcounts.mpr hn), fun _ hc => exec_bini_waits (Bool.not_eq_false _ |>.mpr hc),
    fun hf hg hn hc => exec_bini_badNeeds hf hc hg (Bool.not_eq_false _ |>.mp (mt hcounts.mp hn)), fun hf => exec_barv_queues hf f,
    fun hf => exec_barv_badCount hf f, exec_bwait_waits, exec_bwait_ends, fun hf hg hc => ?_, fun hl => ?_, fun hl hp => ?_⟩
  · have hab : s.Free [a, b] := fun r hr => hf r (List.mem_append_left [c] hr)
    simp only [List.forall_mem_cons, List.not_mem_nil, IsEmpty.forall_iff, implies_true, and_true]
    exact ⟨exec_bini_badObject hf hc hg, exec_barv_badObject hab f hg, exec_bwait_badObject hab hg⟩
  · exact ⟨_, exec_pbar_waits hl g x, rfl, sameRegs_beginPbar l g x s, pbar_beginPbar l g x s⟩
  · rw [TakesPrecise, exec_pbar, hl, hp]
    rfl

end Sys2Proof.Machine

/-! SUPPORT. The statement on engine commands, part 1: walks, channels, and `copy`, `rflush` and `rinv` by their checks. -/

namespace Sys2Proof.Machine

/-! ### Walks (R176, R178, R180) -/

section
variable (w0 : W64)

theorem walkSpace_eq : walkSpace w0 = w0.toNat % 16 := by
  rw [walkSpace, BitVec.extractLsb'_toNat, Nat.shiftRight_zero]

theorem walkCore_eq : walkCore w0 = w0.toNat / 2 ^ 8 % 2 ^ 16 := by
  rw [walkCore, BitVec.extractLsb'_toNat, Nat.shiftRight_eq_div_pow]

theorem walkPos_eq : walkPos w0 = w0.toNat / 2 ^ 24 % 4 := by
  rw [walkPos, BitVec.extractLsb'_toNat, Nat.shiftRight_eq_div_pow]

end

/-- A displacement is an exact integer; the address wraps. -/
theorem toInt_copyAddr (w : List W64) (start j : Nat) : (copyAddr w start j).toInt = Int.bmod ((shapeOf w).at start j) (2 ^ 64) :=
  BitVec.toInt_ofInt _

/-- The terms of a displacement (R115, R178). -/
theorem WalkShape.at_eq (v : WalkShape) (start j : Nat) : v.at start j =
    let e := j / 2 ^ v.esize
    (start : Int) + (e % v.c0 * 2 ^ v.esize : Nat) + (e / v.c0 % v.c1 : Nat) * v.s0 + (e / (v.c0 * v.c1) : Nat) * v.s1 + (j % 2 ^ v.esize : Nat) := by
  simp only [WalkShape.at, WalkShape.byte, WalkShape.element, add_assoc]

/-- A window walk that a copy may not have: it leaves the window, or names no context of the continuation (R180). -/
def BadWalk (s : State) (w : List W64) (base : Nat) : Prop :=
  let w0 := (w.getD 0 0).toNat
  (w0 % 16 = 1 ∨ w0 % 16 = 2) ∧ ((shapeOf w).inside base (2 ^ s.here.winLog) = false ∨ w0 % 16 = 2 ∧
    let l := (s.cont s.here.cont).launch
    ¬ (w0 / 2 ^ 8 % 2 ^ 16 < l.contexts / l.perCore ∧ w0 / 2 ^ 24 % 4 < l.perCore))

section
variable {s : State} {w : List W64} {base : Nat}

theorem names_iff (l : Launch) (core pos : Nat) : l.names core pos = true ↔ core < l.contexts / l.perCore ∧ pos < l.perCore := by
  rw [Launch.names, Bool.and_eq_true, decide_eq_true_eq, decide_eq_true_eq, Launch.gang]

/-- A walk is checked for its window, and then for the context that it names. -/
theorem checkCopyWalk_eq (s : State) (w : List W64) (base : Nat) : checkCopyWalk s w base =
    if (w.getD 0 0).toNat % 16 = 1 ∨ (w.getD 0 0).toNat % 16 = 2 then
      if (shapeOf w).inside base (2 ^ s.here.winLog) = false then .fault .window base
      else if (w.getD 0 0).toNat % 16 = 2 ∧ ¬ ((w.getD 0 0).toNat / 2 ^ 8 % 2 ^ 16 < (s.cont s.here.cont).launch.contexts /
        (s.cont s.here.cont).launch.perCore ∧ (w.getD 0 0).toNat / 2 ^ 24 % 4 < (s.cont s.here.cont).launch.perCore) then .fault .window base
      else .ok
    else .ok := by
  simp only [checkCopyWalk, walkSpace_eq, walkCore_eq, walkPos_eq, Bool.not_eq_true', ← Bool.not_eq_true, names_iff, Ctx.window]

theorem checkCopyWalk_fault (h : BadWalk s w base) : checkCopyWalk s w base = .fault .window base := by
  obtain ⟨hspace, hbad⟩ := h
  rw [checkCopyWalk_eq, if_pos hspace]
  split_ifs with hin hnames
  · rfl
  · rfl
  · exact absurd (hbad.resolve_left hin) hnames

theorem checkCopyWalk_ok (h : ¬ BadWalk s w base) : checkCopyWalk s w base = .ok := by
  rw [checkCopyWalk_eq]
  split_ifs with hspace hin hnames
  · exact absurd ⟨hspace, .inl hin⟩ h
  · exact absurd ⟨hspace, .inr hnames⟩ h
  · rfl
  · rfl

end

/-- The walks that no copy may have, by their kinds, element sizes and totals (R180). -/
def badShapes (src dst : List W64) : Bool :=
  decide (2 < walkSpace (src.getD 0 0)) || decide (4 < walkSpace (dst.getD 0 0)) || decide (3 < (shapeOf src).esize) ||
    decide (3 < (shapeOf dst).esize) || (shapeOf src).total != (shapeOf dst).total || decide (0xFFFFFFFF < (shapeOf src).total)

theorem badShapes_eq_false (src dst : List W64) : badShapes src dst = false ↔
    ((src.getD 0 0).toNat % 16 ≤ 2 ∧ (dst.getD 0 0).toNat % 16 ≤ 4) ∧ (shapeOf src).esize ≤ 3 ∧ (shapeOf dst).esize ≤ 3 ∧
      (shapeOf src).total = (shapeOf dst).total ∧ (shapeOf src).total < 2 ^ 32 := by
  rw [← Bool.not_eq_true]
  simp only [badShapes, walkSpace_eq, Bool.or_eq_true, decide_eq_true_eq, bne_iff_ne]
  omega

/-! ### Channels (R180) -/

section
variable {s : State} {core n : Nat}

theorem freeChannel_eq_some (hn : n < 8) (hfree : (s.core core).channels.find n = none)
    (hless : ∀ k < n, ((s.core core).channels.find k).isSome = true) : freeChannel s core = some n := by
  rw [freeChannel, List.find?_range_eq_some]
  refine ⟨by rw [hfree]; rfl, List.mem_range.mpr hn, fun k hk => ?_⟩
  rw [← Option.not_isSome, hless k hk]
  rfl

theorem freeChannel_eq_none (hall : ∀ k < 8, ((s.core core).channels.find k).isSome = true) : freeChannel s core = none := by
  rw [freeChannel, List.find?_range_eq_none]
  intro k hk
  rw [← Option.not_isSome, hall k hk]
  rfl

end

/-- What an accepted command does: it takes the lowest free channel of its core, or stalls its bundle. -/
theorem exec_of_startChannel {i : Instr} {s : State} {ch : Channel} (hx : exec i s = startChannel ch s) :
    (∀ n, n < 8 → (s.core (s.focusCtx / 4)).channels.find n = none → (∀ k < n, ((s.core (s.focusCtx / 4)).channels.find k).isSome = true) →
      exec i s = .next (s.took fun u => u.mapCore (s.focusCtx / 4) fun k => { k with channels := Sparse.put k.channels n ch })) ∧
    ((∀ k < 8, ((s.core (s.focusCtx / 4)).channels.find k).isSome = true) → exec i s = .next s.stalled) := by
  refine ⟨fun n hn hfree hless => ?_, fun hall => ?_⟩
  · rw [hx, startChannel, coreOf, freeChannel_eq_some hn hfree hless]
    rfl
  · rw [hx, startChannel, coreOf, freeChannel_eq_none hall]
    rfl

/-- What a command of n bytes does once it is accepted. -/
def beginCommand (n : Nat) (ch : Channel) (s : State) : Out := if n = 0 then effect s else startChannel ch s

theorem beginCommand_zero {n : Nat} (h : n = 0) (ch : Channel) (s : State) : beginCommand n ch s = .next (s.took id) := if_pos h

theorem beginCommand_pos {n : Nat} (h : n ≠ 0) (ch : Channel) (s : State) : beginCommand n ch s = startChannel ch s := if_neg h

/-! ### `copy` (R180, R290) -/

section
variable (s : State) (gs gd gb : Reg) (ws wd : Reg4)

/-- The walk words that a register of the focus context holds. -/
def walkOf (n : Reg4) : List W64 := s.here.regs.walkWords n.toNat

theorem exec_copy : exec (.copy gs gd ws wd gb) s =
    under (checks [readyG s [gs, gd, gb], faultWhen (badShapes (walkOf s ws) (walkOf s wd)) .shape 0, checkCopyWalk s (walkOf s ws) (srcG s gs).toNat,
        checkCopyWalk s (walkOf s wd) (srcG s gd).toNat, checkObject s gb]) s
      (beginCommand (shapeOf (walkOf s ws)).total (newChannel s .copy (walkOf s ws) (walkOf s wd) (srcG s gs).toNat (srcG s gd).toNat
        (srcG s gb).toNat (shapeOf (walkOf s ws)).total) s) := rfl

end

/-- The first fault counts where no check stalls. -/
theorem checks_fault_of_not_stall {cls : FaultClass} {a : Nat} {cs : List Check} (h : .stall ∉ cs) : checks (.fault cls a :: cs) = .fault cls a := by
  rw [checks, if_neg (mt (checks_eq_stall cs).mp h)]

theorem faultWhen_ne_stall (b : Bool) (cls : FaultClass) (a : Nat) : .stall ≠ faultWhen b cls a := by
  cases b <;> nofun

theorem checkObject_ne_stall (s : State) (a : Reg) : .stall ≠ checkObject s a := faultWhen_ne_stall _ _ _

theorem checkCopyWalk_ne_stall (s : State) (w : List W64) (base : Nat) : .stall ≠ checkCopyWalk s w base := by
  by_cases h : BadWalk s w base
  · rw [checkCopyWalk_fault h]; nofun
  · rw [checkCopyWalk_ok h]; nofun

section
variable {s : State} {gs gd gb : Reg} {ws wd : Reg4} (hf : s.Free [gs, gd, gb])
include hf

theorem exec_copy_badShapes (hshape : badShapes (walkOf s ws) (walkOf s wd) = true) : TakesPrecise (.copy gs gd ws wd gb) s .shape 0 := by
  rw [TakesPrecise, exec_copy, (readyG_ok ..).mpr hf, hshape, checks_ok, faultWhen_true]
  refine under_precise (checks_fault_of_not_stall ?_) _
  simp only [List.mem_cons, List.not_mem_nil, checkCopyWalk_ne_stall, checkObject_ne_stall, or_self, not_false_eq_true]

variable (hshape : badShapes (walkOf s ws) (walkOf s wd) = false)
include hshape

theorem exec_copy_badSrc (hsrc : BadWalk s (walkOf s ws) (srcG s gs).toNat) : TakesPrecise (.copy gs gd ws wd gb) s .window (srcG s gs).toNat := by
  rw [TakesPrecise, exec_copy, (readyG_ok ..).mpr hf, hshape, checkCopyWalk_fault hsrc, checks_ok, faultWhen_false, checks_ok]
  refine under_precise (checks_fault_of_not_stall ?_) _
  simp only [List.mem_cons, List.not_mem_nil, checkCopyWalk_ne_stall, checkObject_ne_stall, or_self, not_false_eq_true]

variable (hsrc : ¬ BadWalk s (walkOf s ws) (srcG s gs).toNat)
include hsrc

theorem exec_copy_badDst (hdst : BadWalk s (walkOf s wd) (srcG s gd).toNat) : TakesPrecise (.copy gs gd ws wd gb) s .window (srcG s gd).toNat := by
  rw [TakesPrecise, exec_copy, (readyG_ok ..).mpr hf, hshape, checkCopyWalk_ok hsrc, checkCopyWalk_fault hdst]
  refine under_precise (checks_fault_of_not_stall ?_) _
  exact mt List.mem_singleton.mp (checkObject_ne_stall s gb)

variable (hdst : ¬ BadWalk s (walkOf s wd) (srcG s gd).toNat)
include hdst

theorem exec_copy_badObject (hobj : ¬ s.GoodObject gb) :
    TakesPrecise (.copy gs gd ws wd gb) s .window (srcG s gb).toNat := by
  rw [TakesPrecise, exec_copy, (readyG_ok ..).mpr hf, hshape, checkCopyWalk_ok hsrc, checkCopyWalk_ok hdst, checkObject_fault hobj]
  rfl

theorem exec_copy_begins (hobj : s.GoodObject gb) : exec (.copy gs gd ws wd gb) s =
    beginCommand (shapeOf (walkOf s ws)).total (newChannel s .copy (walkOf s ws) (walkOf s wd) (srcG s gs).toNat (srcG s gd).toNat
      (srcG s gb).toNat (shapeOf (walkOf s ws)).total) s := by
  rw [exec_copy, (readyG_ok ..).mpr hf, hshape, checkCopyWalk_ok hsrc, checkCopyWalk_ok hdst, checkObject_ok hobj]
  rfl

end

/-! ### `rflush` and `rinv` (R172, R333) -/

/-- The ranges that no cache walk may have (R333). -/
def badCacheRange (base len : Nat) : Bool := decide (0xFFFFFFFF < len) || decide (2 ^ 48 < base + len)

theorem badCacheRange_eq_true (base len : Nat) : badCacheRange base len = true ↔ 2 ^ 32 ≤ len ∨ 2 ^ 48 < base + len := by
  rw [badCacheRange, Bool.or_eq_true, decide_eq_true_eq, decide_eq_true_eq]
  omega

section
variable {s : State} {a l b : Reg} (hf : s.Free [a, l, b]) (kind : CopyKind)
include hf

theorem cacheWalk_ready : cacheWalk kind a l b s =
    under (checks [checkObject s b, faultWhen (badCacheRange (srcG s a).toNat (srcG s l).toNat) .badValue 0]) s
      (beginCommand (srcG s l).toNat
        (newChannel s kind [] [] (srcG s a).toNat (srcG s a).toNat (srcG s b).toNat (srcG s l).toNat) s) := by
  change under (checks [readyG s [a, l, b], checkObject s b, _]) s _ = _
  rw [(readyG_ok ..).mpr hf, checks_ok]
  rfl

theorem cacheWalk_badObject (hobj : ¬ s.GoodObject b) : cacheWalk kind a l b s =
    .next { takePrecise s.focusCtx s.focusSlot .window (srcG s b).toNat s with signal := .fault .window (srcG s b).toNat } := by
  rw [cacheWalk_ready hf, checkObject_fault hobj]
  refine under_precise (checks_fault_of_not_stall ?_) _
  exact mt List.mem_singleton.mp (faultWhen_ne_stall _ _ _)

variable (hobj : s.GoodObject b)
include hobj

theorem cacheWalk_badRange (hr : badCacheRange (srcG s a).toNat (srcG s l).toNat = true) : cacheWalk kind a l b s =
    .next { takePrecise s.focusCtx s.focusSlot .badValue 0 s with signal := .fault .badValue 0 } := by
  rw [cacheWalk_ready hf, checkObject_ok hobj, hr]
  rfl

theorem cacheWalk_begins (hr : badCacheRange (srcG s a).toNat (srcG s l).toNat = false) : cacheWalk kind a l b s =
    beginCommand (srcG s l).toNat
      (newChannel s kind [] [] (srcG s a).toNat (srcG s a).toNat (srcG s b).toNat (srcG s l).toNat) s := by
  rw [cacheWalk_ready hf, checkObject_ok hobj, hr]
  rfl

end

end Sys2Proof.Machine

/-! SUPPORT. The statement on engine commands, part 2: the queue of prefetches, their lines, and what a prefetch leaves of every context. -/

namespace Sys2Proof.Machine

/-! ### The queue of prefetches (R148, R196) -/

section
variable {h : Nat} {s : State}

theorem runPrefetches_closed (hclosed : ∀ q ∈ (s.ctx h).work.prefs, (s.ctx h).performedBelow q.gate = false) : runPrefetches h s = s := by
  have hnone : ((s.ctx h).work.prefs.filter fun q => (s.ctx h).performedBelow q.gate) = [] :=
    List.filter_eq_nil_iff.mpr fun q hq => by simp [hclosed q hq]
  rw [runPrefetches, hnone]
  rfl

/-- One line of a prefetch, which is listed again where the host must first give it up. -/
def prefetchStep (h asid : Nat) (q : PrefWait) (s : State) (va : Nat) : State :=
  match prefetchLine h (coreOf h) asid q.pts q.policy va s with
  | (s, true) => s.mapCtx h fun c => { c with work := { c.work with prefs := c.work.prefs ++ [{ q with va := BitVec.ofNat 64 va, bytes := 1 }] } }
  | (s, false) => s

theorem runPrefetch_eq (h : Nat) (q : PrefWait) (s : State) :
    runPrefetch h q s = (prefetchLines q.va q.bytes).foldl (prefetchStep h (s.cont (s.ctx h).cont).launch.asid q) s := rfl

/-- The one prefetch that waits leaves the list when its gate is open, and runs. -/
theorem runPrefetches_open {q : PrefWait} (hq : (s.ctx h).work.prefs = [q]) (hopen : (s.ctx h).performedBelow q.gate = true) :
    runPrefetches h s = (prefetchLines q.va q.bytes).foldl (prefetchStep h (s.cont (s.ctx h).cont).launch.asid q)
      (s.mapCtx h fun c => { c with work := { c.work with prefs := [] } }) := by
  have hready : ((s.ctx h).work.prefs.filter fun q => (s.ctx h).performedBelow q.gate) = [q] := by
    rw [hq]
    exact List.filter_cons_of_pos hopen
  have hrest : ((s.ctx h).work.prefs.filter fun q => !(s.ctx h).performedBelow q.gate) = [] := by
    rw [hq]
    exact List.filter_cons_of_neg (by simp [hopen])
  have htaken : s.mapCtx h (fun c => { c with work := { c.work with prefs := c.work.prefs.filter fun q => !c.performedBelow q.gate } }) =
      s.mapCtx h fun c => { c with work := { c.work with prefs := [] } } := by
    rw [State.mapCtx, hrest]
    rfl
  rw [runPrefetches, hready, htaken]
  refine (runPrefetch_eq ..).trans ?_
  rw [State.ctx_mapCtx_self, State.cont_mapCtx]

end

/-! ### The lines of a prefetch (R196, R326) -/

/-- The bytes of a prefetch: at most 64 KiB, and none at 2^48 or above. -/
def prefetchBytes (a n : Nat) : Nat := min (min n 65536) (2 ^ 48 - a)

/-- The k-th address of a prefetch: the first byte, then the lines after it. -/
def prefetchAddr (a k : Nat) : Nat := max a (64 * (a / 64 + k))

theorem prefetchAddr_strictMono (a : Nat) : StrictMono (prefetchAddr a) := fun k l hkl => by
  simp only [prefetchAddr]
  omega

theorem prefetchLines_eq (va : W64) (n : Nat) : prefetchLines va n =
    if prefetchBytes va.toNat n = 0 then []
    else (List.range ((va.toNat + prefetchBytes va.toNat n - 1) / 64 + 1 - va.toNat / 64)).map (prefetchAddr va.toNat) := by
  change (if prefetchBytes va.toNat n = 0 then [] else (lineSpan va.toNat (prefetchBytes va.toNat n)).map fun l => max va.toNat (64 * l)) = _
  rw [lineSpan, List.map_map]
  rfl

theorem prefetchLines_ascending (va : W64) (n : Nat) : (prefetchLines va n).Pairwise (· < ·) := by
  rw [prefetchLines_eq]
  split
  · exact List.Pairwise.nil
  · exact List.pairwise_map.mpr (List.pairwise_lt_range.imp fun hkl => prefetchAddr_strictMono _ hkl)

theorem mem_prefetchLines (va : W64) (n x : Nat) : x ∈ prefetchLines va n ↔
    va.toNat ≤ x ∧ x < va.toNat + prefetchBytes va.toNat n ∧ (x = va.toNat ∨ x % 64 = 0) := by
  rw [prefetchLines_eq]
  generalize va.toNat = a, prefetchBytes va.toNat n = m
  split
  next h0 =>
    simp only [List.not_mem_nil, false_iff]
    omega
  next h0 =>
    simp only [List.mem_map, List.mem_range, prefetchAddr]
    constructor
    · rintro ⟨k, hk, rfl⟩
      omega
    · rintro ⟨hlo, hhi, hx⟩
      exact ⟨x / 64 - a / 64, by omega, by omega⟩

/-! ### What a prefetch leaves of every context (R196) -/

/-- The contexts of a state are those of another one, but for which `park` sleeps. -/
def State.OnlyWakes (s t : State) : Prop := ∀ g, ∃ p, t.ctx g = { s.ctx g with work := { (s.ctx g).work with park := p } }

namespace State.OnlyWakes

variable {s t u : State}

theorem of_ctxs (h : t.ctxs = s.ctxs) : s.OnlyWakes t := fun g => ⟨(s.ctx g).work.park, by rw [State.ctx, h]; rfl⟩

theorem refl (s : State) : s.OnlyWakes s := of_ctxs rfl

theorem trans (a : s.OnlyWakes t) (b : t.OnlyWakes u) : s.OnlyWakes u := fun g => by
  obtain ⟨p, hp⟩ := a g
  obtain ⟨q, hq⟩ := b g
  exact ⟨q, by rw [hq, hp]⟩

/-- No register and no timestamp changes. -/
theorem regs_pts (h : s.OnlyWakes t) (g : Nat) : (t.ctx g).regs = (s.ctx g).regs ∧ (t.ctx g).pts = (s.ctx g).pts := by
  obtain ⟨p, hp⟩ := h g
  rw [hp]
  exact ⟨rfl, rfl⟩

theorem mapDev (s : State) (f : Device → Device) : s.OnlyWakes (s.mapDev f) := of_ctxs rfl

theorem output (s : State) (o : Output) : s.OnlyWakes (s.output o) := of_ctxs rfl

theorem noteWaiters (line : Nat) (s : State) : s.OnlyWakes (noteWaiters line s) := fun g => by
  refine Sparse.get_map_rel (fun c d : Ctx => ∃ p, d = { c with work := { c.work with park := p } }) _ _ _ _ ⟨_, rfl⟩ fun e => ?_
  dsimp only
  split
  · split
    · exact ⟨_, rfl⟩
    · exact ⟨e.2.work.park, rfl⟩
  · exact ⟨e.2.work.park, rfl⟩

theorem noteCombines (before s : State) : s.OnlyWakes (noteCombines before s) := by
  refine foldl_keeps s.OnlyWakes _ _ _ (refl s) fun t line ht => ?_
  split
  · exact ht
  · exact ht.trans (noteWaiters line t)

theorem askHost (line : Nat) (s : State) : s.OnlyWakes (askHost line s) := by
  unfold Machine.askHost
  split
  · exact refl s
  · exact of_ctxs rfl

theorem distWrite (pa : Nat) (data : List Byte) (s : State) : s.OnlyWakes (distWrite pa data s) := by
  unfold Machine.distWrite
  split
  · exact foldl_keeps s.OnlyWakes _ _ _ (noteCombines s _) fun t line ht => ht.trans (noteWaiters line t)
  · exact foldl_keeps s.OnlyWakes _ _ _ (of_ctxs rfl) fun t line ht => ht.trans (askHost line t)

theorem interrupt (vector : Nat) (s : State) : s.OnlyWakes (interrupt vector s) := by
  unfold Machine.interrupt
  split_ifs
  · exact refl s
  · exact of_ctxs rfl
  · exact of_ctxs rfl

theorem logError (pa source kind die ctx : Nat) (s : State) : s.OnlyWakes (logError pa source kind die ctx s) :=
  ((distWrite _ _ s).trans (distWrite _ _ _)).trans ((mapDev _ _).trans ((interrupt 1 _).trans (output _ _)))

theorem logWalk (core h : Nat) (w : Walked) (s : State) : s.OnlyWakes (logWalk core h w s) := by
  unfold Machine.logWalk
  split
  · exact logError _ _ _ _ _ s
  · exact refl s

end State.OnlyWakes

end Sys2Proof.Machine

/-! SUPPORT. The statement on engine commands, part 3: what an operation on one line leaves of every other line in a store of any form, and the
copies that a fill leaves. -/

namespace Sys2Proof.Machine

/-! ### What the homes leave of every other line's copies and entry -/

/-- A store beside another one: where the tables of the one are in rising order, so are those of the other, and they differ at one line at most. -/
structure Store.Beside (line : Nat) (st u : Store) : Prop where
  copies : Sparse.risingFrom none st.copies = true → Sparse.risingFrom none u.copies = true ∧
    ∀ l holder, l ≠ line → holder < 512 → copyAt u holder l = copyAt st holder l
  dirs : Sparse.risingFrom none st.dirs = true → Sparse.risingFrom none u.dirs = true ∧ ∀ l, l ≠ line → dirOf u l = dirOf st l

namespace Store.Beside

variable {line : Nat} {st u v : Store}

theorem refl (line : Nat) (st : Store) : Beside line st st := ⟨fun hr => ⟨hr, fun _ _ _ _ => rfl⟩, fun hr => ⟨hr, fun _ _ => rfl⟩⟩

section
variable (h : Beside line st u)
include h

/-- Another change of the line's copies, with the entries as they are. -/
theorem of_copies (hd : v.dirs = u.dirs) (hc : Sparse.risingFrom none u.copies = true → Sparse.risingFrom none v.copies = true ∧
    ∀ l holder, l ≠ line → holder < 512 → copyAt v holder l = copyAt u holder l) : Beside line st v := by
  refine ⟨fun hr => ?_, fun hr => ?_⟩
  · obtain ⟨hu, hst⟩ := h.copies hr
    obtain ⟨hv, hvu⟩ := hc hu
    exact ⟨hv, fun l holder hl hh => (hvu l holder hl hh).trans (hst l holder hl hh)⟩
  · obtain ⟨hu, hst⟩ := h.dirs hr
    exact ⟨hd ▸ hu, fun l hl => by rw [← hst l hl, dirOf, hd, dirOf]⟩

/-- Memory and the lines that engines use do not count. -/
theorem memory (m : List Host.Cell) (uses : List Nat) : Beside line st { u with mem := m, engineUse := uses } := ⟨h.copies, h.dirs⟩

theorem putCopy {holder : Nat} (hh : holder < 512) (c : Copy) : Beside line st (putCopy u holder line c) :=
  h.of_copies rfl fun hr => ⟨Sparse.rising_put _ _ _ hr, fun l g hl hg => Sparse.find_put_other _ _ _ _ (by simp only [copyKey]; omega)⟩

theorem dropCopy {holder : Nat} (hh : holder < 512) : Beside line st (dropCopy u holder line) :=
  h.of_copies rfl fun hr => ⟨Sparse.rising_erase _ _ hr, fun l g hl hg => Sparse.find_erase_other _ _ _ (by simp only [copyKey]; omega) hr⟩

theorem dropWhere (p : Nat → Copy → Bool) : Beside line st (dropWhere u line p) := by
  refine h.of_copies rfl fun hr => ⟨Sparse.rising_filter _ _ hr, fun l g hl hg => ?_⟩
  rw [copyAt, Machine.dropWhere, Sparse.find_filter _ _ _ hr, copyAt]
  simp only [copyKey_line l hg, beq_eq_false_iff_ne.mpr hl, Bool.false_and, Bool.not_false]
  cases Sparse.find u.copies (copyKey g l) <;> rfl

theorem setDir (d : DirEntry) : Beside line st (setDir u line d) := by
  refine ⟨h.copies, fun hr => ?_⟩
  obtain ⟨hu, hst⟩ := h.dirs hr
  exact ⟨Sparse.rising_set _ _ _ _ hu, fun l hl => (dirOf_setDir_other u hl d hu).trans (hst l hl)⟩

theorem foldRead (ts : Nat) : Beside line st (foldRead u line ts) := by
  unfold Machine.foldRead
  split
  · split
    next ho => exact h.putCopy (holder_lt_of_ownerCopy u ho) _
    next => exact h
  · exact h.setDir _

theorem invalidateWhere (p : Nat → Bool) : Beside line st (invalidateWhere u line p) := (h.dropWhere _).foldRead _

theorem takePartial {e : Nat × Copy} (he : e.1 < 512) : Beside line st (takePartial line u e) := by
  unfold Machine.takePartial
  split
  · dsimp only
    split
    next ho => exact (h.dropCopy he).putCopy (holder_lt_of_ownerCopy _ ho) _
    next => exact ((h.dropCopy he).memory _ _).setDir _
  · exact h

theorem takePartials {ps : List (Nat × Copy)} (hps : ∀ e ∈ ps, e.1 < 512) : Beside line st (ps.foldl (Machine.takePartial line) u) :=
  List.foldlRecOn (motive := Beside line st) ps _ h fun _ ht e he => ht.takePartial (hps e he)

theorem combineInDie : Beside line st (combineInDie u line) := h.takePartials fun _ he => holder_lt_of_mem_partialsOf u he

theorem combineDie (die : Nat) : Beside line st (combineDie u line die) := by
  have hp := h.takePartials (ps := (partialsOf u line).filter fun e => e.1 / 64 == die) fun e he =>
    holder_lt_of_mem_partialsOf u (List.mem_of_mem_filter he)
  unfold Machine.combineDie
  dsimp only
  split
  · exact hp.setDir _
  · exact hp

theorem combineLine : Beside line st (combineLine u line) :=
  (foldl_keeps (Beside line st) _ (List.range 4) u h fun _ die ht => ht.combineDie die).setDir _

theorem recallLine : Beside line st (recallLine u line) := by
  have hi := h.combineInDie.invalidateWhere fun _ => true
  unfold Machine.recallLine
  dsimp only
  split
  next ho => exact ((hi.memory _ _).dropCopy (holder_lt_of_ownerCopy _ ho)).setDir _
  next => exact hi.setDir _

theorem readyToRead : Beside line st (readyToRead u line) := by
  unfold Machine.readyToRead
  split
  · exact h.recallLine
  · exact h.combineLine
  · exact h

theorem evictShared (holder : Nat) : Beside line st (evictShared u line holder) := by
  unfold Machine.evictShared
  dsimp only
  split
  · exact (h.invalidateWhere _).setDir _
  · exact h.invalidateWhere _

theorem evictPartial {core : Nat} (hc : core < 512) : Beside line st (evictPartial u core line) := by
  unfold Machine.evictPartial
  split
  next c _ =>
    have ht := h.takePartial (e := (core, c)) hc
    split
    · dsimp only
      split
      · exact ht.setDir _
      · exact ht
    · exact h
  next => exact h

theorem evictCopy {holder : Nat} (hh : holder < 512) : Beside line st (evictCopy u holder line) := by
  unfold Machine.evictCopy
  split
  · exact h.dropCopy hh
  · exact h.evictShared holder
  · exact h.recallLine
  · exact h.recallLine
  · exact h.evictPartial hh
  · exact h

end

end Store.Beside

/-! ### The copies that a fill leaves (R1, R2) -/

section
variable (st : Store) (holder line : Nat)

/-- The stores in which a holder has room for a copy of a line. -/
def makeRoom : Store :=
  match (copyAt st holder line).isNone && decide (lineRoom holder ≤ (st.copies.filter fun e => e.1 % 512 == holder).length), victimOf st holder with
  | true, some l => evictCopy st holder l
  | _, _ => st

theorem fillCopy_eq (c : Copy) : fillCopy st holder line c = putCopy (makeRoom st holder line) holder line c := rfl

@[simp] theorem copyAt_fillCopy_same (c : Copy) : copyAt (fillCopy st holder line c) holder line = some c := copyAt_putCopy_same _ _ _ _

variable {st holder line}

/-- The line that leaves a holder is one of its copies. -/
theorem copyAt_victimOf {l : Nat} (hr : Sparse.risingFrom none st.copies = true) (hv : victimOf st holder = some l) :
    (copyAt st holder l).isSome = true := by
  obtain ⟨e, he, rfl⟩ := Option.map_eq_some_iff.mp hv
  obtain ⟨k, -, hfind⟩ := List.exists_of_findSome?_eq_some he
  obtain ⟨hmem, hholder⟩ := List.mem_filter.mp (List.mem_of_find?_eq_some hfind)
  have hkey : copyKey holder (e.1 / 512) = e.1 := by
    have := beq_iff_eq.mp hholder
    simp only [copyKey]
    omega
  rw [copyAt, hkey, Sparse.find_of_mem hr hmem]
  rfl

/-- A fill evicts no copy of its own line. -/
theorem makeRoom_cases (hr : Sparse.risingFrom none st.copies = true) :
    makeRoom st holder line = st ∨ ∃ l, l ≠ line ∧ makeRoom st holder line = evictCopy st holder l := by
  unfold makeRoom
  split
  next hfull hv =>
    refine .inr ⟨_, ?_, rfl⟩
    rintro rfl
    have hsome := copyAt_victimOf hr hv
    rw [Option.isNone_iff_eq_none.mp (Bool.and_eq_true_iff.mp hfull).1] at hsome
    cases hsome
  next => exact .inl rfl

variable (hh : holder < 512) (hr : Sparse.risingFrom none st.copies = true)
include hh hr

theorem copies_makeRoom : Sparse.risingFrom none (makeRoom st holder line).copies = true ∧
    ∀ g < 512, copyAt (makeRoom st holder line) g line = copyAt st g line := by
  rcases makeRoom_cases (holder := holder) (line := line) hr with h | ⟨l, hl, h⟩ <;> rw [h]
  · exact ⟨hr, fun _ _ => rfl⟩
  · obtain ⟨hrising, hsame⟩ := ((Store.Beside.refl l st).evictCopy hh).copies hr
    exact ⟨hrising, fun g hg => hsame line g hl.symm hg⟩

theorem rising_fillCopy (c : Copy) : Sparse.risingFrom none (fillCopy st holder line c).copies = true :=
  Sparse.rising_put _ _ _ (copies_makeRoom hh hr).1

theorem copyAt_fillCopy_other {g : Nat} (hne : g ≠ holder) (hg : g < 512) (c : Copy) :
    copyAt (fillCopy st holder line c) g line = copyAt st g line :=
  (copyAt_putCopy_other _ hne c).trans ((copies_makeRoom hh hr).2 g hg)

theorem dirs_fillCopy (c : Copy) (hd : Sparse.risingFrom none st.dirs = true) :
    Sparse.risingFrom none (fillCopy st holder line c).dirs = true ∧ dirOf (fillCopy st holder line c) line = dirOf st line := by
  change Sparse.risingFrom none (makeRoom st holder line).dirs = true ∧ dirOf (makeRoom st holder line) line = dirOf st line
  rcases makeRoom_cases (holder := holder) (line := line) hr with h | ⟨l, hl, h⟩ <;> rw [h]
  · exact ⟨hd, rfl⟩
  · obtain ⟨hrising, hsame⟩ := ((Store.Beside.refl l st).evictCopy hh).dirs hd
    exact ⟨hrising, hsame line hl.symm⟩

end

end Sys2Proof.Machine

/-! SUPPORT. The statement on engine commands, part 4: the copy that a prefetch brings into its core. -/

namespace Sys2Proof.Machine

/-! ### A line of a prefetch (R196, R326) -/

/-- Whether the copy of a core stays as it is under a prefetch of a policy (log entry 35). -/
def keepsCopy (st : Store) (core line : Nat) (p : Policy) : Bool :=
  (copyAt st core line).any fun c => c.state.owns || (c.state == .shared && p != .own)

theorem keepsCopy_iff (st : Store) (core line : Nat) (p : Policy) : keepsCopy st core line p = true ↔
    ∃ x, copyAt st core line = some x ∧ (x.state = .owned ∨ x.state = .modified ∨ x.state = .shared ∧ p ≠ .own) := by
  have howns : ∀ k : CopyState, k.owns = true ↔ k = .owned ∨ k = .modified := fun k => by cases k <;> simp [CopyState.owns]
  simp only [keepsCopy, Option.any_eq_true, Bool.or_eq_true, Bool.and_eq_true, beq_iff_eq, bne_iff_ne, howns, or_assoc]

/-- The stores in which a line of device memory has come into a core; none while the host must answer first. -/
def prefetchDevice (st : Store) (core line : Nat) (p : Policy) (pts lease : Nat) : Option Store :=
  match p, copyAt st (l2Holder (dieOf core)) line with
  | .own, _ => acquireOwn st core line
  | .si, some c => if c.state = .shared ∧ !holdsPartial st core line then some (loadAtL2 st core line .si pts lease c).2.2
                   else (loadAtHome st core line .si pts lease).map (·.2.2)
  | .si, none => (loadAtHome st core line .si pts lease).map (·.2.2)
  | _, _ => (serveLoad st core line .wi pts lease).map (·.2.2)

/-- What a prefetch makes of the stores that it may leave: combined partials count as written, or the host is asked. -/
def prefetched (line : Nat) (s : State) : Option Store → State × Bool
  | some st => (noteCombines s { s with store := st }, false)
  | none => (askHost line s, true)

section
variable {h core asid pts va pa level line : Nat} {p : Policy} {tier : Tier} {leaf : W64} {s u : State}

theorem prefetchLine_failed {w : Walked} (hw : translate core asid (BitVec.ofNat 64 va) .prefetch s = (w, u))
    (hfail : ∀ pa tier level leaf, w ≠ .found pa tier level leaf) : prefetchLine h core asid pts p va s = (logWalk core h w u, false) := by
  rw [prefetchLine, hw]
  cases w with
  | found pa tier level leaf => exact absurd rfl (hfail pa tier level leaf)
  | failed => rfl

section
variable (hw : translate core asid (BitVec.ofNat 64 va) .prefetch s = (.found pa tier level leaf, u))
include hw

theorem prefetchLine_kept (hk : p = .wt ∨ keepsCopy u.store core (pa / 64) p = true) : prefetchLine h core asid pts p va s = (u, false) := by
  rw [prefetchLine, hw]
  exact if_pos hk

variable (hk : ¬ (p = .wt ∨ keepsCopy u.store core (pa / 64) p = true))
include hk

theorem prefetchLine_poisoned (hp : (dirOf u.store (pa / 64)).poison = true) :
    prefetchLine h core asid pts p va s = (logError (64 * (pa / 64)) 5 4 (dieOf core) h u, false) := by
  rw [prefetchLine, hw]
  exact (if_neg hk).trans (if_pos hp)

variable (hp : (dirOf u.store (pa / 64)).poison = false)
include hp

theorem prefetchLine_host (hhost : isHostLine (pa / 64) = true) : prefetchLine h core asid pts p va s =
    prefetched (pa / 64) u (some (loadHost u.store core (pa / 64) .si pts u.lease).2.2) := by
  rw [prefetchLine, hw]
  refine (if_neg hk).trans ((if_neg (Bool.eq_false_iff.mp hp)).trans ?_)
  rw [hhost]
  rfl

theorem prefetchLine_device (hhost : isHostLine (pa / 64) = false) : prefetchLine h core asid pts p va s =
    prefetched (pa / 64) u (prefetchDevice u.store core (pa / 64) p pts u.lease) := by
  rw [prefetchLine, hw]
  refine (if_neg hk).trans ((if_neg (Bool.eq_false_iff.mp hp)).trans ?_)
  rw [hhost]
  rfl

end

/-- A translation changes only what caches translations, and so not the lease. -/
theorem lease_translate (core asid : Nat) (va : W64) (q : Requester) (s : State) : (translate core asid va q s).2.lease = s.lease := by
  unfold translate
  split
  · rfl
  · split
    · rfl
    · split
      · rfl
      · split <;> rfl

end

/-! ### Owned copies (R164) -/

section
variable {st : Store} {core line : Nat} (hkeep : keepsCopy st core line .own = false)
include hkeep

/-- A core without an owned copy asks the home. -/
theorem acquireOwn_eq : acquireOwn st core line =
    if hostBlocks st line true then none
    else if (dirOf st line).state = .owned (dieOf core) then some (grantInDie st core line)
    else
      let d := dirOf (readyToWrite st line) line
      some (setDir (fillCopy (readyToWrite st line) core line
        { state := .owned, data := lineData (readyToWrite st line).mem line, mask := 0, wts := d.wts, rts := d.rts }) line
        { d with state := .owned (dieOf core) }) := by
  have hown : ((copyAt st core line).any fun c => c.state.owns) = false := by
    rw [← hkeep, keepsCopy]
    simp only [bne_self_eq_false, Bool.and_false, Bool.or_false]
  rw [acquireOwn, hown]
  rfl

theorem acquireOwn_blocked (hb : hostBlocks st line true = true) : acquireOwn st core line = none := by
  rw [acquireOwn_eq hkeep, if_pos hb]

theorem acquireOwn_home (hb : hostBlocks st line true = false) (hd : (dirOf st line).state ≠ .owned (dieOf core)) :
    ∃ u x, acquireOwn st core line = some u ∧ copyAt u core line = some x ∧ x.state = .owned := by
  rw [acquireOwn_eq hkeep, if_neg (Bool.eq_false_iff.mp hb), if_neg hd]
  exact ⟨_, _, rfl, (copyAt_setDir ..).trans (copyAt_fillCopy_same ..), rfl⟩

end

/-! ### Copies that a load at the home installs (R160, R164) -/

/-- A copy in the L1 of a core and in its die's L2. -/
def fillBoth (st : Store) (core line : Nat) (c : Copy) : Store := fillCopy (fillCopy st core line c) (l2Holder (dieOf core)) line c

section
variable {st : Store} {core line : Nat} (hcore : core < 256) (hr : Sparse.risingFrom none st.copies = true) (c : Copy)
include hcore hr

theorem copyAt_fillBoth : copyAt (fillBoth st core line c) core line = some c :=
  (copyAt_fillCopy_other (l2Holder_lt hcore) (rising_fillCopy (by omega) hr c) (l2Holder_ne hcore).symm (by omega) c).trans
    (copyAt_fillCopy_same ..)

/-- Evictions of other lines leave the entry of a line. -/
theorem dirOf_fillBoth (hd : Sparse.risingFrom none st.dirs = true) : dirOf (fillBoth st core line c) line = dirOf st line := by
  obtain ⟨hrising, hsame⟩ := dirs_fillCopy (holder := core) (line := line) (by omega) hr c hd
  exact (dirs_fillCopy (l2Holder_lt hcore) (rising_fillCopy (by omega) hr c) c hrising).2.trans hsame

end

/-- The home of a line after a load at it: its entry with the new read timestamp (R144). -/
def homeRead (st : Store) (line pts lease : Nat) : Store :=
  setDir (readyToRead st line) line { dirOf (readyToRead st line) line with
    rts := (loadStep pts (dirOf (readyToRead st line) line).wts (dirOf (readyToRead st line) line).rts lease).2 }

/-- The lease that such a load gives. -/
def homeLease (st : Store) (line pts lease : Nat) : Copy :=
  { state := .leased, data := lineData (readyToRead st line).mem line, mask := 0, wts := (dirOf (readyToRead st line) line).wts,
    rts := (loadStep pts (dirOf (readyToRead st line) line).wts (dirOf (readyToRead st line) line).rts lease).2 }

section
variable (st : Store) (line pts lease : Nat)

theorem beside_homeRead : Store.Beside line st (homeRead st line pts lease) := (Store.Beside.refl line st).readyToRead.setDir _

theorem homeLease_rts : max pts (homeLease st line pts lease).wts + lease ≤ (homeLease st line pts lease).rts := le_max_right ..

theorem dirOf_homeRead (hd : Sparse.risingFrom none st.dirs = true) :
    (dirOf (homeRead st line pts lease) line).rts = (homeLease st line pts lease).rts := by
  rw [homeRead, dirOf_setDir_same ((Store.Beside.refl line st).readyToRead.dirs hd).1]
  rfl

variable {st line} {core : Nat} (hb : hostBlocks st line false = false) (hd : (dirOf st line).state ≠ .owned (dieOf core))
include hb hd

theorem loadAtHome_wi : ∃ data ts x d, loadAtHome st core line .wi pts lease =
    some (data, ts, setDir (fillBoth (homeRead st line pts lease) core line x) line d) ∧ x.state = .shared := by
  rw [loadAtHome, if_neg (Bool.eq_false_iff.mp hb), if_neg hd]
  exact ⟨_, _, _, _, rfl, rfl⟩

theorem loadAtHome_si : ∃ data ts, loadAtHome st core line .si pts lease =
    some (data, ts, fillBoth (homeRead st line pts lease) core line (homeLease st line pts lease)) := by
  rw [loadAtHome, if_neg (Bool.eq_false_iff.mp hb), if_neg hd]
  exact ⟨_, _, rfl⟩

end

/-! ### Copies that a valid copy of the L2 gives (R163) -/

section
variable {st : Store} {core line pts lease : Nat}

/-- A load that is not served in its L1 asks the L2 or the home. -/
theorem serveLoad_elsewhere {p : Policy} (hhost : isHostLine line = false)
    (hmiss : ∀ c, copyAt st core line = some c → copyServes c p pts = false) :
    serveLoad st core line p pts lease = serveLoad.elsewhere st core line p pts lease := by
  rw [serveLoad, hhost]
  cases hc : copyAt st core line with
  | none => rfl
  | some c => exact if_neg (Bool.eq_false_iff.mp (hmiss c hc))

/-- For a tracked copy a valid copy of the L2 serves, which is tracked, or else the home. -/
theorem elsewhere_wi : serveLoad.elsewhere st core line .wi pts lease = loadAtHome st core line .wi pts lease ∨
    ∃ c, c.state = .shared ∧ serveLoad.elsewhere st core line .wi pts lease = some (loadAtL2 st core line .wi pts lease c) := by
  rw [serveLoad.elsewhere, if_neg nofun]
  split
  next c hc =>
    split
    next hserves =>
      refine .inr ⟨c, ?_, rfl⟩
      revert hserves
      cases hs : c.state <;> simp [copyServes, CopyState.owns, hs]
    next => exact .inl rfl
  next => exact .inl rfl

/-- A tracked copy of the L2 gives a tracked copy. -/
theorem loadAtL2_wi {c : Copy} (hc : c.state = .shared) : ∃ data ts x, loadAtL2 st core line .wi pts lease c =
    (data, ts, fillCopy (loadAtCopy st (l2Holder (dieOf core)) line pts lease c).2.2 core line x) ∧ x.state = .shared := by
  obtain ⟨state, data, mask, wts, rts⟩ := c
  obtain rfl : state = .shared := hc
  exact ⟨_, _, _, rfl, rfl⟩

/-- A tracked copy of the L2 gives a lease (R163). -/
theorem loadAtL2_si {c : Copy} (hc : c.state = .shared) : ∃ data ts u x, loadAtL2 st core line .si pts lease c =
    (data, ts, fillCopy u core line x) ∧ x.state = .leased ∧ max pts x.wts + lease ≤ x.rts := by
  obtain ⟨state, data, mask, wts, rts⟩ := c
  obtain rfl : state = .shared := hc
  exact ⟨_, _, _, _, rfl, rfl, le_max_right ..⟩

/-- A lease comes from a tracked copy of the L2, or from the home. -/
theorem prefetchDevice_si_cases : prefetchDevice st core line .si pts lease = (loadAtHome st core line .si pts lease).map (·.2.2) ∨
    ∃ c, copyAt st (l2Holder (dieOf core)) line = some c ∧ c.state = .shared ∧
      prefetchDevice st core line .si pts lease = some (loadAtL2 st core line .si pts lease c).2.2 := by
  cases hl2 : copyAt st (l2Holder (dieOf core)) line with
  | none => exact .inl (by simp only [prefetchDevice, hl2])
  | some c =>
    by_cases hc : c.state = .shared ∧ (!holdsPartial st core line) = true
    · exact .inr ⟨c, rfl, hc.1, by simp only [prefetchDevice, hl2, if_pos hc]⟩
    · exact .inl (by simp only [prefetchDevice, hl2, if_neg hc])

end

/-! ### What comes into the core -/

section
variable {st : Store} {core line pts lease : Nat} (hcore : core < 256) (hr : Sparse.risingFrom none st.copies = true)
  (hhost : isHostLine line = false) (hd : (dirOf st line).state ≠ .owned (dieOf core))

include hd in
theorem prefetchDevice_own (hkeep : keepsCopy st core line .own = false) (hb : hostBlocks st line true = false) :
    ∃ u x, prefetchDevice st core line .own pts lease = some u ∧ copyAt u core line = some x ∧ x.state = .owned := acquireOwn_home hkeep hb hd

variable (hb : hostBlocks st line false = false)
include hcore hr hd hb

include hhost in
theorem prefetchDevice_wi (hkeep : keepsCopy st core line .wi = false) :
    ∃ u x, prefetchDevice st core line .wi pts lease = some u ∧ copyAt u core line = some x ∧ x.state = .shared := by
  have hmiss : ∀ c, copyAt st core line = some c → copyServes c .wi pts = false := fun c hc => by
    rw [keepsCopy, hc, Option.any_some] at hkeep
    revert hkeep
    cases hs : c.state <;> simp [copyServes, CopyState.owns, hs]
  change ∃ u x, (serveLoad st core line .wi pts lease).map (·.2.2) = some u ∧ _
  rw [serveLoad_elsewhere hhost hmiss]
  rcases elsewhere_wi (st := st) (core := core) (line := line) (pts := pts) (lease := lease) with h | ⟨c, hc, h⟩ <;> rw [h]
  · obtain ⟨data, ts, x, d, hload, hx⟩ := loadAtHome_wi pts lease hb hd
    rw [hload]
    exact ⟨_, x, rfl, (copyAt_setDir ..).trans (copyAt_fillBoth hcore ((beside_homeRead st line pts lease).copies hr).1 x), hx⟩
  · obtain ⟨data, ts, x, hload, hx⟩ := loadAtL2_wi (st := st) (core := core) (line := line) (pts := pts) (lease := lease) hc
    rw [hload]
    exact ⟨_, x, rfl, copyAt_fillCopy_same .., hx⟩

/-- A lease from the home ends where the entry's read timestamp then stands (R144). -/
theorem prefetchDevice_si : ∃ u x, prefetchDevice st core line .si pts lease = some u ∧ copyAt u core line = some x ∧ x.state = .leased ∧
    max pts x.wts + lease ≤ x.rts ∧ ((∀ y, copyAt st (l2Holder (dieOf core)) line = some y → y.state ≠ .shared) →
      Sparse.risingFrom none st.dirs = true → (dirOf u line).rts = x.rts) := by
  rcases prefetchDevice_si_cases (st := st) (core := core) (line := line) (pts := pts) (lease := lease) with h | ⟨c, hl2, hc, h⟩ <;> rw [h]
  · obtain ⟨data, ts, hload⟩ := loadAtHome_si pts lease hb hd
    have hcopies := ((beside_homeRead st line pts lease).copies hr).1
    rw [hload]
    refine ⟨_, _, rfl, copyAt_fillBoth hcore hcopies _, rfl, homeLease_rts st line pts lease, fun _ hdirs => ?_⟩
    rw [dirOf_fillBoth hcore hcopies _ ((beside_homeRead st line pts lease).dirs hdirs).1, dirOf_homeRead _ _ _ _ hdirs]
  · obtain ⟨data, ts, u, x, hload, hx, hlease⟩ := loadAtL2_si (st := st) (core := core) (line := line) (pts := pts) (lease := lease) hc
    rw [hload]
    exact ⟨_, x, rfl, copyAt_fillCopy_same u core line x, hx, hlease, fun hnone => absurd hc (hnone c hl2)⟩

end

end Sys2Proof.Machine

/-! SUPPORT. The statement on engine commands, part 5: what the prefetch of a line comes to, and the statement. -/

namespace Sys2Proof.Machine

theorem exec_pref {s : State} {a l : Reg} (hf : s.Free [a, l]) (p : Policy) : exec (.pref a l p) s =
    .next (s.took fun u => runPrefetches s.focusCtx (u.mapHere fun c => { c with work := { c.work with prefs := c.work.prefs ++
      [{ va := srcG s a, bytes := (srcG s l).toNat, policy := p, pts := c.pts, gate := c.work.gate }] } })) :=
  under_effect ((readyG_ok ..).mpr hf) _

section
variable {h core asid pts va pa level line : Nat} {p : Policy} {tier : Tier} {leaf : W64} {s u : State}

theorem prefetched_some (line : Nat) (s : State) (st : Store) :
    (prefetched line s (some st)).2 = false ∧ (prefetched line s (some st)).1.store = st :=
  ⟨rfl, (noteCombines_spec s { s with store := st }).2.1⟩

theorem onlyWakes_prefetched (line : Nat) (s : State) (r : Option Store) : s.OnlyWakes (prefetched line s r).1 := by
  cases r with
  | none => exact .askHost line s
  | some st => exact (State.OnlyWakes.of_ctxs (t := { s with store := st }) rfl).trans (.noteCombines s _)

/-- A prefetch of a line wakes contexts, and changes no other thing of them. -/
theorem onlyWakes_prefetchLine (h core asid pts : Nat) (p : Policy) (va : Nat) (s : State) :
    (translate core asid (BitVec.ofNat 64 va) .prefetch s).2.OnlyWakes (prefetchLine h core asid pts p va s).1 := by
  rcases hw : translate core asid (BitVec.ofNat 64 va) .prefetch s with ⟨w, u⟩
  cases w with
  | failed cls level entry rep logged =>
    rw [prefetchLine_failed hw nofun]
    exact .logWalk core h _ u
  | found pa tier level leaf =>
    by_cases hk : p = .wt ∨ keepsCopy u.store core (pa / 64) p = true
    · rw [prefetchLine_kept hw hk]
      exact .refl u
    cases hp : (dirOf u.store (pa / 64)).poison with
    | true =>
      rw [prefetchLine_poisoned hw hk hp]
      exact .logError _ _ _ _ _ u
    | false =>
      cases hhost : isHostLine (pa / 64) with
      | true =>
        rw [prefetchLine_host hw hk hp hhost]
        exact onlyWakes_prefetched _ u _
      | false =>
        rw [prefetchLine_device hw hk hp hhost]
        exact onlyWakes_prefetched _ u _

/-- A line of device memory that nothing stands against comes into the core under each policy. -/
theorem prefetched_device (hcore : core < 256) (hr : Sparse.risingFrom none u.store.copies = true) (hwt : p ≠ .wt)
    (hkeep : keepsCopy u.store core line p = false) (hhost : isHostLine line = false) (hb : hostBlocks u.store line (p == .own) = false)
    (hd : (dirOf u.store line).state ≠ .owned (dieOf core)) :
    let t := prefetched line u (prefetchDevice u.store core line p pts u.lease)
    t.2 = false ∧ ∃ x, copyAt t.1.store core line = some x ∧ (p = .own → x.state = .owned) ∧ (p = .wi → x.state = .shared) ∧
      (p = .si → x.state = .leased ∧ max pts x.wts + u.lease ≤ x.rts ∧
        ((∀ y, copyAt u.store (l2Holder (dieOf core)) line = some y → y.state ≠ .shared) → Sparse.risingFrom none u.store.dirs = true →
          (dirOf t.1.store line).rts = x.rts)) := by
  cases p with
  | wt => exact absurd rfl hwt
  | own =>
    obtain ⟨st, x, hst, hcopy, hx⟩ := prefetchDevice_own (pts := pts) (lease := u.lease) hd hkeep hb
    obtain ⟨hdone, hstore⟩ := prefetched_some line u st
    rw [hst]
    exact ⟨hdone, x, by rw [hstore, hcopy], fun _ => hx, nofun, nofun⟩
  | wi =>
    obtain ⟨st, x, hst, hcopy, hx⟩ := prefetchDevice_wi (pts := pts) (lease := u.lease) hcore hr hhost hd hb hkeep
    obtain ⟨hdone, hstore⟩ := prefetched_some line u st
    rw [hst]
    exact ⟨hdone, x, by rw [hstore, hcopy], nofun, fun _ => hx, nofun⟩
  | si =>
    obtain ⟨st, x, hst, hcopy, hx, hlease, hrts⟩ := prefetchDevice_si (pts := pts) (lease := u.lease) hcore hr hd hb
    obtain ⟨hdone, hstore⟩ := prefetched_some line u st
    rw [hst]
    exact ⟨hdone, x, by rw [hstore, hcopy], nofun, nofun, fun _ => ⟨hx, hlease, by rw [hstore]; exact hrts⟩⟩

end

/-- Settles O49: the three commands by their checks and the lowest free channel, a prefetch by its gate and its lines, and a line by what its
translation finds and what the stores then hold of it. -/
theorem engineCommandsStart : Obligations.EngineCommandsStart := by
  intro s gs gd gb ws wd p r src dst x y core obj goodObj channel starts goodShape base len badWalk
  have hshape : badShapes src dst = false ↔ goodShape := badShapes_eq_false src dst
  have hrange : badCacheRange base len = true ↔ 2 ^ 32 ≤ len ∨ 2 ^ 48 < base + len := badCacheRange_eq_true base len
  refine ⟨fun hf hg => exec_copy_badSrc hf (hshape.mpr hg), fun hf hg => exec_copy_badDst hf (hshape.mpr hg),
    fun hf hg => exec_copy_badObject hf (hshape.mpr hg), fun hf hg hsrc hdst hobj => ?_,
    fun hf hg => exec_copy_badShapes hf (Bool.not_eq_false _ |>.mp (mt hshape.mp hg)), fun hf hobj hlen hend => ?_,
    fun hf hobj => ⟨cacheWalk_badObject hf .flush hobj, cacheWalk_badObject hf .inv hobj⟩,
    fun hf hobj hr => ⟨cacheWalk_badRange hf .flush hobj (hrange.mpr hr), cacheWalk_badRange hf .inv hobj (hrange.mpr hr)⟩,
    fun hf => exec_pref hf p, fun w start j => ?_, fun h => runPrefetches_closed, fun h q => runPrefetches_open,
    fun va n => ⟨prefetchLines_ascending va n, mem_prefetchLines va n⟩, fun h c asid pts va hc => ?_⟩
  · have hx := exec_copy_begins hf (hshape.mpr hg) hsrc hdst hobj
    exact ⟨fun h0 => hx.trans (beginCommand_zero h0 _ s), fun h0 => exec_of_startChannel (hx.trans (beginCommand_pos h0 _ s))⟩
  · have hr : badCacheRange base len = false := by
      rw [← Bool.not_eq_true, hrange]
      omega
    have hflush : exec (.rflush gs gd gb) s = _ := cacheWalk_begins hf .flush hobj hr
    have hinv : exec (.rinv gs gd gb) s = _ := cacheWalk_begins hf .inv hobj hr
    exact ⟨fun h0 => ⟨hflush.trans (beginCommand_zero h0 _ s), hinv.trans (beginCommand_zero h0 _ s)⟩,
      fun h0 => ⟨exec_of_startChannel (hflush.trans (beginCommand_pos h0 _ s)), exec_of_startChannel (hinv.trans (beginCommand_pos h0 _ s))⟩⟩
  · rw [toInt_copyAddr, WalkShape.at_eq]
  · intro r t
    have hwakes : r.2.OnlyWakes t.1 := onlyWakes_prefetchLine h c asid pts p va s
    refine ⟨hwakes.regs_pts, fun hfail => prefetchLine_failed rfl hfail, fun pa a b d hfound => ?_⟩
    intro line st l2 keeps
    have hw : translate c asid (BitVec.ofNat 64 va) .prefetch s = (.found pa a b d, r.2) := Prod.ext hfound rfl
    have hlease : r.2.lease = s.lease := lease_translate ..
    have hkeeps : keepsCopy st c line p = true ↔ keeps := keepsCopy_iff st c line p
    have hnot : p ≠ .wt → ¬ keeps → ¬ (p = .wt ∨ keepsCopy st c line p = true) := fun hwt hk hor => hor.elim hwt (mt hkeeps.mp hk)
    have hmiss : ¬ keeps → keepsCopy st c line p = false := fun hk => Bool.not_eq_true _ |>.mp (mt hkeeps.mp hk)
    refine ⟨fun hk => prefetchLine_kept hw (hk.imp_right hkeeps.mpr), fun hwt hk hp => prefetchLine_poisoned hw (hnot hwt hk) hp,
      fun hwt hk hp hhost => ?_, fun hown hk hp hhost hb => ?_, fun hr hwt hk hp hhost hb hd => ?_⟩
    · rw [show t = _ from prefetchLine_host hw (hnot hwt hk) hp hhost, ← hlease]
      exact prefetched_some ..
    · subst hown
      rw [show t = _ from prefetchLine_device hw (hnot nofun hk) hp hhost]
      exact congrArg (prefetched line r.2) (acquireOwn_blocked (hmiss hk) hb)
    · rw [show t = _ from prefetchLine_device hw (hnot hwt hk) hp hhost, ← hlease]
      exact prefetched_device hc hr hwt (hmiss hk) hhost hb hd

end Sys2Proof.Machine

/-! SUPPORT. The statement on the route of a fault: what parking leaves of the device, which record a fault takes, and the statement. -/

namespace Sys2Proof.Machine

/-! ### A context parks for a fault (R96, R139) -/

/-- The matrix operations of a context freeze on its core: the distributor and the continuations take no part. -/
theorem freezeQueue_dev (h : Nat) (s : State) : (freezeQueue h s).dev = s.dev := by
  unfold freezeQueue
  dsimp only
  split <;> rfl

@[simp] theorem parkFor_dev (h : Nat) (f : FaultInfo) (s : State) : (parkFor h f s).dev = s.dev :=
  freezeQueue_dev h _

@[simp] theorem parkFor_cont (h : Nat) (f : FaultInfo) (s : State) (i : Nat) : (parkFor h f s).cont i = s.cont i :=
  State.cont_congr (congrArg Device.conts (parkFor_dev h f s)) i

@[simp] theorem parkFor_ctx_cont (h : Nat) (f : FaultInfo) (s : State) : ((parkFor h f s).ctx h).cont = (s.ctx h).cont := by
  unfold parkFor
  rw [(freezeQueue_ctx h h _).cont, State.ctx_mapCtx_self]

/-! ### The record that a fault takes (R205) -/

section
variable {h : Nat} {f : FaultInfo} {s : State} (hlive : (s.cont (s.ctx h).cont).state.isEnd = false)
include hlive

/-- An unrepairable fault is recorded at once, whether another one waits for the host or not. -/
theorem takeFault_unrepairable (hf : f.repairable = false) :
    takeFault h f s = recordUnrepairable (s.ctx h).cont f (parkFor h f s) := by
  simp [takeFault, routeFault, hlive, hf]

/-- A repairable fault is recorded at once where none waits for the host before it. -/
theorem takeFault_repairable (hnone : (s.cont (s.ctx h).cont).faultOf = none) (hf : f.repairable = true) :
    takeFault h f s = recordRepairable (s.ctx h).cont f (parkFor h f s) := by
  simp [takeFault, routeFault, hlive, hnone, hf]

variable (hfound : (Sparse.find s.dev.conts (s.ctx h).cont).isSome = true)
include hfound

/-- What an unrepairable fault leaves: the count has risen, and unless a stage of the watchdog has begun (R239) the continuation is
FAULTED with cause 2. Nothing but requests for lines leaves the device (R164). -/
theorem takeFault_unrepairable_spec (hf : f.repairable = false) :
    OnlyAsks s (takeFault h f s) ∧
    ((takeFault h f s).cont (s.ctx h).cont).faults = (s.cont (s.ctx h).cont).faults + 1 ∧
    ((s.cont (s.ctx h).cont).stage = 0 →
      ((takeFault h f s).cont (s.ctx h).cont).state = .faulted ∧ ((takeFault h f s).cont (s.ctx h).cont).cause = 2) := by
  obtain ⟨-, hasks, hcont⟩ := recordUnrepairable_spec (s.ctx h).cont f (parkFor h f s)
  rw [parkFor_dev, parkFor_cont] at hcont
  rw [takeFault_unrepairable hlive hf]
  exact ⟨(OnlyAsks.of_eq (congrArg Device.outputs (parkFor_dev h f s))).trans hasks, hcont hfound⟩

/-- What a repairable fault leaves: the continuation in its state, the fault pending for the host, and the count risen. -/
theorem takeFault_repairable_spec (hnone : (s.cont (s.ctx h).cont).faultOf = none) (hf : f.repairable = true) :
    ((takeFault h f s).cont (s.ctx h).cont).state = (s.cont (s.ctx h).cont).state ∧
    ((takeFault h f s).cont (s.ctx h).cont).faultPending = true ∧
    ((takeFault h f s).cont (s.ctx h).cont).faultOf = some f.rank ∧
    ((takeFault h f s).cont (s.ctx h).cont).faults = (s.cont (s.ctx h).cont).faults + 1 := by
  obtain ⟨-, hcont⟩ := recordRepairable_spec (s.ctx h).cont f (parkFor h f s)
  rw [parkFor_dev, parkFor_cont] at hcont
  rw [takeFault_repairable hlive hnone hf]
  exact hcont hfound

end

/-- Settles O14: a fault parks its context with it, and is recorded by the route that its class and the tables give it. -/
theorem faultTakesItsRoute : Obligations.FaultTakesItsRoute := by
  intro s h f hlive hfound hnone i t
  have hparked : (t.ctx h).fault = some f := (takeFault_spec h f s).2
  cases hf : f.repairable with
  | false =>
    obtain ⟨hasks, hcount, hends⟩ := takeFault_unrepairable_spec hlive hfound hf
    exact ⟨hparked, hcount, fun _ hstage => ⟨(hends hstage).1, (hends hstage).2, hasks⟩, nofun⟩
  | true =>
    obtain ⟨hstate, hpending, hof, hcount⟩ := takeFault_repairable_spec hlive hfound hnone hf
    exact ⟨hparked, hcount, nofun, fun _ => ⟨hstate, hpending, hof⟩⟩

end Sys2Proof.Machine

/-! SUPPORT. The statements on counters and system registers, and on the state after device reset: what `rdsr` answers of a counter and of another
register, a value on its way that counts an event, the bits of the gear register, and the tables that reset leaves empty. -/

namespace Sys2Proof.Machine

/-! ### What `rdsr` answers (R329) -/

/-- The counters of R35, with what they hold. -/
theorem counterOf_eq_some {r : Regs} {n : SysReg} {x : Nat} : counterOf r n = some x ↔
    n = .reusemiss ∧ x = r.reusemiss ∨ n = .undecl ∧ x = r.undecl ∨ n = .emis ∧ x = r.emis := by
  cases n <;> simp [counterOf, eq_comm]

/-- No other system register is a counter. -/
theorem counterOf_eq_none {r : Regs} {n : SysReg} (hreuse : n ≠ .reusemiss) (hundecl : n ≠ .undecl) (hemis : n ≠ .emis) :
    counterOf r n = none := by
  rw [Option.eq_none_iff_forall_ne_some]
  intro x hx
  obtain ⟨h, -⟩ | ⟨h, -⟩ | ⟨h, -⟩ := counterOf_eq_some.mp hx
  · exact hreuse h
  · exact hundecl h
  · exact hemis h

section
variable {s : State} {d : Reg} (hfree : s.Free [d]) {n : SysReg}
include hfree

theorem exec_rdsr_lands (h : counterOf s.here.regs n = none) :
    exec (.rdsr d n) s = .next (s.lands [(1, .g d.toNat (sysValue s n))]) := by
  change execRdsr d n s = _
  rw [execRdsr, h]
  exact scalarOp_lands hfree 1 _

theorem exec_rdsr_delivers {x : Nat} (h : counterOf s.here.regs n = some x) :
    exec (.rdsr d n) s = .next (s.took (issueCounter d n x)) := by
  change execRdsr d n s = _
  rw [execRdsr, h]
  exact under_effect ((readyG_ok s _).mpr hfree) _

end

/-! ### An event that a counter counts (R330) -/

/-- What an event caused by the bundle of an age makes of a value on its way: a later bundle's read of that counter sees it. -/
def Deliver.counted (d : Deliver) (n : SysReg) (age : Nat) : Deliver :=
  if d.counter == some n && decide (age / 8 < d.age / 8) then { d with value := d.value.map fun x => x + 1 } else d

theorem delivers_countEvent (c : Ctx) (n : SysReg) (age : Nat) :
    (c.countEvent n age).work.delivers = c.work.delivers.map fun d => d.counted n age := rfl

theorem Deliver.counted_of_counter {d : Deliver} {n : SysReg} (h : d.counter = some n) (age : Nat) :
    d.counted n age = if age / 8 < d.age / 8 then { d with value := d.value.map fun x => x + 1 } else d := by
  simp [Deliver.counted, h]

/-! ### The gear register (R243) -/

/-- Three bits, each weighed by its place, read back. -/
theorem getLsbD_weighedBits (a b c : Bool) :
    let x : W64 := BitVec.ofNat 64 ((if a then 1 else 0) + (if b then 2 else 0) + (if c then 4 else 0))
    x.getLsbD 0 = a ∧ x.getLsbD 1 = b ∧ x.getLsbD 2 = c := by
  revert a b c
  decide

theorem getLsbD_gearStatus (s : State) (h : Nat) :
    (gearStatus s h).getLsbD 0 = ((s.ctx h).gearReq && !(s.ctx h).dropped) ∧
    (gearStatus s h).getLsbD 1 = (s.core (coreOf h)).run ∧
    (gearStatus s h).getLsbD 2 = (s.core (coreOf h)).settling.isSome :=
  getLsbD_weighedBits _ _ _

/-- Settles O22: `time`, `cycles` and a register that is no counter land, a counter is delivered and takes part in later events, and each
register reads as its file has it. -/
theorem systemReadsLand : Obligations.SystemReadsLand := by
  refine ⟨fun s d hfree => ⟨scalarOp_lands hfree 1 _, scalarOp_lands hfree 1 _, fun n hreuse hundecl hemis => ?_, fun n x hcounter => ?_⟩,
    fun c n age d hd hcounter => ?_, fun s => ?_⟩
  · exact exec_rdsr_lands hfree (counterOf_eq_none hreuse hundecl hemis)
  · exact exec_rdsr_delivers hfree (counterOf_eq_some.mpr hcounter)
  · rw [delivers_countEvent, ← Deliver.counted_of_counter hcounter]
    exact List.mem_map_of_mem hd
  · have extends64 {w : Nat} (x : BitVec w) (hw : w ≤ 64) : (x.setWidth 64).toNat = x.toNat := BitVec.toNat_setWidth_of_le hw
    obtain ⟨hrequested, hgear, hsettling⟩ := getLsbD_gearStatus s s.focusCtx
    exact ⟨extends64 _ (by decide), extends64 _ (by decide), extends64 _ (by decide), extends64 _ (by decide), extends64 _ (by decide),
      extends64 _ (by decide), rfl, rfl, rfl, fun n => ⟨extends64 _ (by decide), rfl⟩, fun _ _ => rfl, hrequested, hgear, hsettling⟩

/-! ### The state after device reset (R240, R257, R268) -/

/-- No core is listed, and one that is not listed has counted the cycles of `RefTicks`, which are none. -/
theorem core_reset (c : Nat) : State.reset.core c = Core.atReset := rfl

/-- No entry of the directory is listed. -/
theorem dirOf_reset (line : Nat) : dirOf State.reset.store line = clearDir line := rfl

/-- The droop registers of the record's defaults are alike in every quadrant. -/
theorem droop_defaults {q : Nat} (hq : q < 16) : (Record.defaults.droop.getD q 0).toNat = 32 * 1024 + 40 := by
  rw [Record.defaults, List.getD_replicate _ hq]
  rfl

/-- Settles O1: every core and every line reads as its default, for reset lists neither, and the record is that of the defaults. -/
theorem resetLeavesBootedDevice : Obligations.ResetLeavesBootedDevice := by
  refine ⟨rfl, rfl, fun c => ?_, fun line => ?_, rfl, rfl, rfl, rfl, rfl, fun q hq => droop_defaults hq⟩
  · rw [core_reset]
    exact ⟨rfl, rfl, rfl, rfl, rfl⟩
  · rw [dirOf_reset]
    exact ⟨rfl, rfl, rfl, rfl⟩

end Sys2Proof.Machine

/-! SUPPORT. The statements on shifts, logic, counts, masks, comparisons and immediates: operations by the signed and the unsigned integers
that their sources stand for, counts of bits, and the words of the scalar majors that both slots carry. -/

namespace Sys2Proof.Machine

/-! ### Shifts and extremes (R311, R342) -/

/-- An operation that, at every width, is one function of its sources as signed and as unsigned integers is that function of what the
sources stand for in either form. -/
theorem alu_eq_narrow_signs {f : (n : Nat) → BitVec n → BitVec n → BitVec n} {g : Nat → Int → Nat → Int → Nat → Int}
    (h : ∀ n, 0 < n → ∀ x y : BitVec n, f n x y = BitVec.ofInt n (g n x.toInt x.toNat y.toInt y.toNat)) (w : Bool) (x y : W64) :
    alu w f x y = narrow w (g (formBits w) (sval w x) (uval w x) (sval w y) (uval w y)) := by
  cases w with
  | false => exact h 64 (by decide) x y
  | true =>
    have h32 := h 32 (by decide) (x.setWidth 32) (y.setWidth 32)
    rw [BitVec.toNat_setWidth, BitVec.toNat_setWidth] at h32
    exact congrArg (BitVec.signExtend 64) h32

section
variable (n : Nat) (x y : BitVec n) (k : Nat)

theorem shiftLeft_eq_ofInt : x <<< k = BitVec.ofInt n (x.toInt * 2 ^ k) := by
  have hpow : BitVec.ofInt n (2 ^ k) = BitVec.twoPow n k := by
    have := BitVec.ofInt_natCast n (2 ^ k)
    push_cast at this
    rw [this]
    exact BitVec.eq_of_toNat_eq (by rw [BitVec.toNat_ofNat, BitVec.toNat_twoPow])
  rw [BitVec.ofInt_mul, BitVec.ofInt_toInt, hpow, BitVec.shiftLeft_eq_mul_twoPow]

theorem ushiftRight_eq_ofInt : x >>> k = BitVec.ofInt n (x.toNat / 2 ^ k : Nat) := by
  rw [BitVec.ofInt_natCast]
  apply BitVec.eq_of_toNat_eq
  rw [BitVec.toNat_ushiftRight, BitVec.toNat_ofNat, Nat.shiftRight_eq_div_pow,
    Nat.mod_eq_of_lt ((Nat.div_le_self ..).trans_lt x.isLt)]

theorem sshiftRight_eq_ofInt : x.sshiftRight k = BitVec.ofInt n (x.toInt.fdiv (2 ^ k)) := by
  rw [BitVec.sshiftRight, Int.shiftRight_eq_div_pow, Int.fdiv_eq_ediv_of_nonneg _ (by positivity)]
  push_cast
  rfl

theorem min_eq_ofInt : (if y.toInt < x.toInt then y else x) = BitVec.ofInt n (min x.toInt y.toInt) := by
  split_ifs with h
  · rw [min_eq_right h.le, BitVec.ofInt_toInt]
  · rw [min_eq_left (not_lt.mp h), BitVec.ofInt_toInt]

theorem max_eq_ofInt : (if x.toInt < y.toInt then y else x) = BitVec.ofInt n (max x.toInt y.toInt) := by
  split_ifs with h
  · rw [max_eq_right h.le, BitVec.ofInt_toInt]
  · rw [max_eq_left (not_lt.mp h), BitVec.ofInt_toInt]

end

/-- An `alu` operation on ready registers lands its function of the sources, signed and unsigned. -/
theorem scalarOp_alu_signs {s : State} {d a b : Reg} {w : Bool} {f : (n : Nat) → BitVec n → BitVec n → BitVec n}
    (g : Nat → Int → Nat → Int → Nat → Int)
    (h : ∀ n, 0 < n → ∀ x y : BitVec n, f n x y = BitVec.ofInt n (g n x.toInt x.toNat y.toInt y.toNat)) (hfree : s.Free [d, a, b]) (L : Nat) :
    scalarOp d [a, b] L (alu w f (srcG s a) (srcG s b)) s =
      .next (s.lands [(L, .g d.toNat (narrow w (g (formBits w) (sval w (srcG s a)) (uval w (srcG s a)) (sval w (srcG s b)) (uval w (srcG s b)))))]) := by
  rw [alu_eq_narrow_signs h, scalarOp_lands hfree]

/-- Settles O17: each shift is one function of the source and of the unsigned count at every width, each extreme one of the signed sources. -/
theorem shiftsAndExtremesLand : Obligations.ShiftsAndExtremesLand := fun _ _ _ _ _ hfree =>
  ⟨scalarOp_alu_signs (fun n x _ _ c => x * 2 ^ (c % n)) (fun n _ x _ => shiftLeft_eq_ofInt n x _) hfree 1,
    scalarOp_alu_signs (fun n _ u _ c => (u / 2 ^ (c % n) : Nat)) (fun n _ x _ => ushiftRight_eq_ofInt n x _) hfree 1,
    scalarOp_alu_signs (fun n x _ _ c => x.fdiv (2 ^ (c % n))) (fun n _ x _ => sshiftRight_eq_ofInt n x _) hfree 1,
    scalarOp_alu (fun _ x y => min x y) (fun n _ => min_eq_ofInt n) hfree 1,
    scalarOp_alu (fun _ x y => max x y) (fun n _ => max_eq_ofInt n) hfree 1⟩

/-! ### Words of the majors that slots C and S both carry (R56) -/

/-- Majors 0x01 to 0x08 read alike in both scalar slots. -/
theorem decodeSlot_shared {k : Nat} {w : W32} (hk : k < 2) (hlo : 1 ≤ (fld w 26 6).toNat) (hhi : (fld w 26 6).toNat ≤ 8) :
    decodeSlot k w = decodeScalarMajor w := by
  have hm : fld w 26 6 ≠ 0 := fun h => by rw [h] at hlo; exact absurd hlo (by decide)
  have h0 : w ≠ 0 := fun h => hm (by rw [h]; rfl)
  have hscalar (c : Bool) : decodeScalar c w = decodeScalarMajor w := by
    have hok : scalarSlotOk c (fld w 26 6).toNat = true := by
      unfold scalarSlotOk
      rw [if_neg (by omega), if_pos (by omega)]
    rw [decodeScalar, if_neg (by omega), hok]
    rfl
  obtain rfl | rfl : k = 0 ∨ k = 1 := by omega
  · rw [Laws.Encoding.decodeSlot_slotC h0 hm, hscalar]
  · rw [Laws.Encoding.decodeSlot_slotS h0 hm, hscalar]

/-- The low byte of an `alu` word is its operation and, above it, the `.w` bit (R57). -/
theorem aluFields_of_lowByte {w : W32} {f : BitVec 8} (h : fld w 0 8 = f) :
    fld w 0 7 = f.setWidth 7 ∧ fld w 7 1 = f.extractLsb' 7 1 := by
  subst h
  refine ⟨?_, ?_⟩
  · ext i hi
    simp [fld, BitVec.getLsbD_extractLsb']
    omega
  · ext i hi
    simp [fld]

/-! ### Logic (R274, R275, R319, R373) -/

/-- A word of one of the four operations: without the `.w` bit it is the operation, with it E-18 (R57). -/
theorem decodeSlot_logic {k : Nat} {w : W32} (hk : k < 2) (hm : fld w 26 6 = (1 : BitVec 6)) {f : Reg → Reg → Reg → Instr} {c : BitVec 8}
    (hf : (f, c) ∈ ([(.and, 0x08), (.andn, 0x0B), (.or, 0x09), (.xor, 0x0A)] : List ((Reg → Reg → Reg → Instr) × BitVec 8))) :
    (fld w 0 8 = c → decodeSlot k w = .ok (f (fld w 20 6) (fld w 14 6) (fld w 8 6))) ∧
    (fld w 0 8 = c ||| 0x80 → decodeSlot k w = .error .noWordForm) := by
  have hslot : decodeSlot k w = decodeAlu w := by
    rw [decodeSlot_shared hk (by rw [hm]; decide) (by rw [hm]; decide), decodeScalarMajor, hm]
    rfl
  simp only [List.mem_cons, List.not_mem_nil, or_false, Prod.mk.injEq] at hf
  rcases hf with ⟨rfl, rfl⟩ | ⟨rfl, rfl⟩ | ⟨rfl, rfl⟩ | ⟨rfl, rfl⟩ <;>
    refine ⟨fun h => ?_, fun h => ?_⟩ <;>
    · obtain ⟨hop, hw⟩ := aluFields_of_lowByte h
      rw [hslot, decodeAlu, hop]
      simp only [alu3, hw]
      rfl

/-- Settles O18: the results bit by bit, the words by the fields of their low byte. -/
theorem bitwiseResultsLand : Obligations.BitwiseResultsLand := by
  refine ⟨fun s d a b hfree f hf => ?_, fun k hk w hm e he => decodeSlot_logic hk hm he, by decide, by decide, by decide⟩
  simp only [List.mem_cons, List.not_mem_nil, or_false] at hf
  rcases hf with rfl | rfl | rfl | rfl
  · exact ⟨_, scalarOp_lands hfree 1 _, fun i _ => BitVec.getLsbD_and⟩
  · refine ⟨_, scalarOp_lands hfree 1 _, fun i hi => ?_⟩
    rw [BitVec.getLsbD_and, BitVec.getLsbD_not, decide_eq_true hi, Bool.true_and]
  · exact ⟨_, scalarOp_lands hfree 1 _, fun i _ => BitVec.getLsbD_or⟩
  · exact ⟨_, scalarOp_lands hfree 1 _, fun i _ => BitVec.getLsbD_xor⟩

/-! ### Counts of bits and of lanes (R288, R312, R316, R325) -/

/-- `leadingZeros` is the number of zero bits above the highest set bit. -/
theorem leadingZeros_spec (x : W64) : leadingZeros x ≤ 64 ∧ (∀ i < 64, 64 - leadingZeros x ≤ i → x.getLsbD i = false) ∧
    (leadingZeros x < 64 → x.getLsbD (63 - leadingZeros x) = true) := by
  unfold leadingZeros
  by_cases h0 : x = 0
  · rw [if_pos h0, h0]
    exact ⟨le_rfl, fun i _ _ => BitVec.getLsbD_zero, fun h => absurd h (lt_irrefl _)⟩
  · have hx : x.toNat ≠ 0 := fun h => h0 (BitVec.eq_of_toNat_eq h)
    have hlog : Nat.log2 x.toNat < 64 := (Nat.log2_lt hx).mpr x.isLt
    rw [if_neg h0]
    refine ⟨by omega, fun i _ hi => ?_, fun _ => ?_⟩
    · have hlt : x.toNat < 2 ^ i := (Nat.log2_lt hx).mp (by omega)
      exact Nat.testBit_lt_two_pow hlt
    · rw [Nat.sub_sub_self (by omega)]
      exact Nat.testBit_log2 hx

theorem popCount_eq_countP (x : W64) : popCount x = (List.range 64).countP x.getLsbD :=
  (List.countP_eq_length_filter ..).symm

/-- `firstSet` is the lowest set bit, or 64. -/
theorem firstSet_spec (x : W64) : firstSet x ≤ 64 ∧ (∀ i < firstSet x, x.getLsbD i = false) ∧
    (firstSet x < 64 → x.getLsbD (firstSet x) = true) := by
  unfold firstSet
  cases hf : (List.range 64).find? fun i => x.getLsbD i with
  | none =>
    have hnone := List.find?_range_eq_none.mp hf
    exact ⟨le_rfl, fun i hi => by simpa using hnone i hi, fun h => absurd h (lt_irrefl _)⟩
  | some n =>
    obtain ⟨hset, hmem, hbelow⟩ := List.find?_range_eq_some.mp hf
    exact ⟨(List.mem_range.mp hmem).le, fun i hi => by simpa using hbelow i hi, fun _ => hset⟩

theorem exec_movMG {s : State} {a : Reg} (h : s.Free [a]) (m : Reg3) :
    exec (.movMG m a) s = .next (s.lands [(1, .m m.toNat (BitVec.allOnes 64) (srcG s a))]) :=
  under_effect ((readyG_ok ..).mpr h) _

/-- Settles O19: the counts by what they count; each move and each mask operation lands one result. -/
theorem masksAndCountsLand : Obligations.MasksAndCountsLand := by
  refine ⟨fun s d a m hfree => ?_, fun s d a m n p => ?_⟩
  · have hd : s.Free [d] := fun r hr => hfree r (List.mem_singleton.mp hr ▸ List.mem_cons_self)
    obtain ⟨hclz, habove, htop⟩ := leadingZeros_spec (srcG s a)
    obtain ⟨hfirst, hbelow, hset⟩ := firstSet_spec (srcM s m)
    refine ⟨⟨_, hclz, scalarOp_lands hfree 1 _, habove, htop⟩, ?_, ?_, ⟨_, hfirst, scalarOp_lands hd 1 _, hbelow, hset⟩⟩
    · rw [← popCount_eq_countP]
      exact scalarOp_lands hfree 1 _
    · rw [← popCount_eq_countP]
      exact scalarOp_lands hd 1 _
  · exact ⟨fun h => scalarOp_lands h 1 _, fun h => exec_movMG h m, fun h => scalarOp_lands h 1 _, rfl, rfl, rfl⟩

/-! ### Comparison and selection (R289, R340) -/

/-- A condition of `cmp` on two values, by their signed and their unsigned integers (R289). -/
def Cond.Relates (c : Cond) (x y : Int) (u v : Nat) : Prop :=
  match c with
  | .eq => x = y | .ne => x ≠ y | .lt => x < y | .le => x ≤ y | .gt => y < x | .ge => y ≤ x | .ltn => u < v | .gen => v ≤ u

theorem condHolds_iff (c : Cond) {n : Nat} (x y : BitVec n) :
    condHolds c x y = true ↔ Cond.Relates c x.toInt y.toInt x.toNat y.toNat := by
  cases c with
  | eq => exact beq_iff_eq.trans BitVec.toInt_inj.symm
  | ne => exact bne_iff_ne.trans (not_congr BitVec.toInt_inj.symm)
  | _ => exact decide_eq_true_iff

/-- The comparison of a form is that of what its sources stand for (R270, R289). -/
theorem condHolds_form_iff (c : Cond) (w : Bool) (x y : W64) :
    (if w then condHolds c (x.setWidth 32) (y.setWidth 32) else condHolds c x y) = true ↔
      Cond.Relates c (sval w x) (sval w y) (uval w x) (uval w y) := by
  cases w with
  | false => exact condHolds_iff c x y
  | true =>
    have h := condHolds_iff c (x.setWidth 32) (y.setWidth 32)
    rwa [BitVec.toNat_setWidth, BitVec.toNat_setWidth] at h

theorem predBit_eq_shift : ∀ n : Reg3, predBit n.toNat = 1 <<< n.toNat := by decide

/-- `cmp` on ready registers writes the one predicate that it names. -/
theorem exec_cmp {s : State} {a b : Reg} (hfree : s.Free [a, b]) (n : Reg3) (w : Bool) (c : Cond) :
    exec (.cmp n a b w c) s = .next (s.lands [(1, .q (1 <<< n.toNat)
      (if (if w then condHolds c ((srcG s a).setWidth 32) ((srcG s b).setWidth 32) else condHolds c (srcG s a) (srcG s b)) then
        1 <<< n.toNat else 0))]) := by
  rw [← predBit_eq_shift]
  exact under_effect ((readyG_ok ..).mpr hfree) _

/-- Settles O20: the predicate is the comparison of what the sources stand for. -/
theorem compareAndSelectLand : Obligations.CompareAndSelectLand := by
  intro s d a b n w c
  refine ⟨fun hfree => ?_, fun hfree => scalarOp_lands hfree 1 _⟩
  have hcond := condHolds_form_iff c w (srcG s a) (srcG s b)
  refine ⟨fun h => ?_, fun h => ?_⟩
  · rw [exec_cmp hfree, if_pos (hcond.mpr (by cases c <;> exact h))]
  · rw [exec_cmp hfree, if_neg (mt hcond.mp (by cases c <;> exact h))]

/-! ### Immediates (R272, R273, R306, R307) -/

/-- A value shifted left by 20 with a 20-bit one inserted below it is their sum. -/
theorem shiftLeft_or_setWidth (x : W64) (i : BitVec 20) :
    (x <<< 20) ||| i.setWidth 64 = BitVec.ofNat 64 (x.toNat * 2 ^ 20 + i.toNat) := by
  have hdisjoint : (x <<< 20) &&& i.setWidth 64 = 0 := by
    apply BitVec.eq_of_getLsbD_eq
    intro j hj
    rw [BitVec.getLsbD_and, BitVec.getLsbD_shiftLeft, BitVec.getLsbD_setWidth]
    by_cases h : j < 20
    · simp [h]
    · simp [BitVec.getLsbD_of_ge i j (by omega)]
  rw [← BitVec.add_eq_or_of_and_eq_zero _ _ hdisjoint]
  apply BitVec.eq_of_toNat_eq
  rw [BitVec.toNat_add, BitVec.toNat_shiftLeft, BitVec.toNat_setWidth, BitVec.toNat_ofNat, Nat.shiftLeft_eq]
  omega

theorem add_shiftLeft_eq_ofNat (x y : W64) (k : Nat) : x + y <<< k = BitVec.ofNat 64 (x.toNat + y.toNat * 2 ^ k) := by
  apply BitVec.eq_of_toNat_eq
  rw [BitVec.toNat_add, BitVec.toNat_shiftLeft, BitVec.toNat_ofNat, Nat.shiftLeft_eq, Nat.add_mod_mod]

/-- Settles O21: the values lane by field; every word of majors 0x02 to 0x05 is read by `decodeScalarMajor` in both slots. -/
theorem immediateResultsLand : Obligations.ImmediateResultsLand := by
  refine ⟨fun s d a b i j sh => ⟨fun h => scalarOp_lands h 1 _, fun h => scalarOp_lands h 1 _, fun h => ?_, fun h => ?_⟩,
    fun k hk w => ⟨fun h => ?_, fun h => ?_, fun h => ?_, fun h => ?_⟩⟩
  · rw [← shiftLeft_or_setWidth]
    exact scalarOp_lands (fun r hr => h r (by simpa using hr)) 1 _
  · rw [← add_shiftLeft_eq_ofNat]
    exact scalarOp_lands h 1 _
  all_goals rw [decodeSlot_shared hk (by rw [h]; decide) (by rw [h]; decide), decodeScalarMajor, h]
  case refine_6 =>
    by_cases hz : fld w 3 5 = (0 : BitVec 5)
    · rw [if_pos hz, hz]
      rfl
    · have hnz : nz (fld w 3 5) = true := bne_iff_ne.mpr hz
      rw [if_neg hz, hnz]
      rfl
  all_goals rfl

end Sys2Proof.Machine

/-! SUPPORT. The statements on system registers that are written, on coherent and scratchpad accesses of slot S at issue, and on loops:
results that land one after another, what `wrsr` and `fmtset` check, and the loop state of R34. -/

namespace Sys2Proof.Machine

/-! ### Results that land together (R89) -/

/-- One more result joins those that a slot lands. -/
theorem land_lands (s : State) (es : List (Nat × Effect)) (L : Nat) (e : Effect) : land L e (s.lands es) = s.lands (es ++ [(L, e)]) := by
  have hhere : (s.lands es).here = { s.here with work := { s.here.work with landing := s.here.work.landing ++ es.map fun (e : Nat × Effect) =>
      ({ due := s.here.count + e.1, age := s.here.retired * 8 + s.focusSlot, eff := e.2, held := false } : Pending) } } := by
    simp [State.here, State.ctx, State.lands]
  rw [land_eq, State.age, hhere]
  simp only [State.lands, Sparse.put_put, List.map_append, List.map_cons, List.map_nil, List.append_assoc]

/-! ### `wrsr` (R372) -/

section
variable {s : State} {a : Reg} {n : SysReg}

/-- A read-only register is refused, whatever the value. -/
theorem exec_wrsr_readOnly (hf : s.Free [a]) (hn : definedBits n = none) : TakesPrecise (.wrsr a n) s .privilegedRegister 0 := by
  have hexec : exec (.wrsr a n) s = under (checks [readyG s [a], .fault .privilegedRegister 0]) s (effect s) := by
    simp only [exec, execWrsr, hn]
  rw [TakesPrecise, hexec, (readyG_ok ..).mpr hf]
  rfl

/-- A writable register takes a value whose undefined bits are 0, and faults on any other. -/
theorem exec_wrsr_writable (hf : s.Free [a]) {bits : W64} (hn : definedBits n = some bits) :
    (srcG s a &&& ~~~bits = 0 → exec (.wrsr a n) s = .next (s.lands [(1, sysEffect n (srcG s a))])) ∧
    (srcG s a &&& ~~~bits ≠ 0 → TakesPrecise (.wrsr a n) s .badValue 0) := by
  have hexec : exec (.wrsr a n) s = under (checks [readyG s [a], faultWhen (srcG s a &&& ~~~bits != 0) .badValue 0]) s
      (effect (land 1 (sysEffect n (srcG s a)) s)) := by
    simp only [exec, execWrsr, hn]
  rw [TakesPrecise, hexec, (readyG_ok ..).mpr hf, checks_ok]
  refine ⟨fun h => ?_, fun h => ?_⟩
  · rw [bne_eq_false_iff_eq.mpr h]
    rfl
  · rw [bne_iff_ne.mpr h]
    rfl

end

/-! ### `fmtset` (R76, R298) -/

/-- A record is ill-formed as R76 says. -/
theorem illRecord_iff (z : BitVec 14) :
    let e := (z.extractLsb' 10 3).toNat
    let m := (z.extractLsb' 7 3).toNat
    let spec := (z.extractLsb' 5 2).toNat
    let w := (if z.getLsbD 13 then 1 else 0) + e + m
    illRecord z = true ↔ w < 2 ∨ 8 < w ∨ spec = 3 ∨ (e = 0 ∧ spec ≠ 0) ∨ (spec = 1 ∧ (e < 2 ∨ m = 0)) := by
  have hsign : (z.extractLsb' 13 1).toNat = if z.getLsbD 13 then 1 else 0 := by
    rw [BitVec.extractLsb'_toNat, Nat.shiftRight_eq_div_pow, ← Nat.toNat_testBit]
    cases h : z.getLsbD 13 <;> rw [BitVec.getLsbD] at h <;> rw [h] <;> rfl
  simp [illRecord, hsign, or_assoc]

/-- A value has a bit above 13 set where it is 2^14 or more. -/
theorem highBits_eq_zero_iff (x : W64) : x.extractLsb' 14 50 = 0 ↔ x.toNat < 2 ^ 14 := by
  rw [← BitVec.toNat_inj, BitVec.extractLsb'_toNat, Nat.shiftRight_eq_div_pow]
  have := x.isLt
  change x.toNat / 2 ^ 14 % 2 ^ 50 = 0 ↔ _
  omega

section
variable {s : State} {a : Reg} (n : Reg2) (hf : s.Free [a])
include hf

theorem exec_fmtsetReg_lands (hx : (srcG s a).toNat < 2 ^ 14) (hz : ¬ illRecord ((srcG s a).setWidth 14) = true) :
    exec (.fmtsetReg n a) s = .next (s.lands [(4, .nf n.toNat ((srcG s a).setWidth 14))]) := by
  refine under_effect ?_ _
  rw [(readyG_ok ..).mpr hf, checks_ok, bne_eq_false_iff_eq.mpr ((highBits_eq_zero_iff _).mpr hx), Bool.eq_false_iff.mpr hz]
  rfl

theorem exec_fmtsetReg_bad (h : 2 ^ 14 ≤ (srcG s a).toNat ∨ illRecord ((srcG s a).setWidth 14) = true) :
    TakesPrecise (.fmtsetReg n a) s .badFormat 0 := by
  refine under_precise ?_ _
  have hbad : ((srcG s a).extractLsb' 14 50 != 0 || illRecord ((srcG s a).setWidth 14)) = true := by
    rw [Bool.or_eq_true, bne_iff_ne, Ne, highBits_eq_zero_iff, not_lt]
    exact h
  rw [(readyG_ok ..).mpr hf, checks_ok, hbad]
  rfl

end

/-- Settles O23: each register by its defined bits; a record by R76. -/
theorem systemWritesLand : Obligations.SystemWritesLand := by
  refine ⟨fun s a hf => ?_, fun s n r a => ⟨rfl, fun hf => ?_⟩⟩
  · refine ⟨exec_wrsr_writable hf rfl, exec_wrsr_writable hf rfl, exec_wrsr_writable hf rfl, exec_wrsr_writable hf rfl,
      exec_wrsr_writable hf rfl, exec_wrsr_writable hf rfl, fun i j => exec_wrsr_writable hf rfl, fun n hn => ?_,
      fun n => ⟨exec_wrsr_readOnly hf rfl, exec_wrsr_readOnly hf rfl⟩⟩
    have hread : ∀ n ∈ ([.pack, .pack3, .image, .gearst, .leash, .droopth, .reusemiss, .undecl, .emis] : List SysReg),
        definedBits n = none := by decide
    exact exec_wrsr_readOnly hf (hread n hn)
  · have hill := illRecord_iff ((srcG s a).setWidth 14)
    exact ⟨fun h => exec_fmtsetReg_lands n hf h.1 (mt hill.mp h.2), fun h => exec_fmtsetReg_bad n hf (h.imp id hill.mpr)⟩

/-! ### `ld` and `st` (R97, R302, R343) -/

section
variable {s : State} {regs : List Reg} {va : W64} {w : Nat} (hf : s.Free regs) (hm : memLimit s 1 = .ok)
include hf hm

theorem checkCoherent_ok (ha : va.toNat % w = 0) : checkCoherent s va w regs = .ok := by
  rw [checkCoherent, (readyG_ok ..).mpr hf, hm, bne_eq_false_iff_eq.mpr ha]
  rfl

theorem checkCoherent_fault (ha : va.toNat % w ≠ 0) : checkCoherent s va w regs = .fault .badValue va.toNat := by
  rw [checkCoherent, (readyG_ok ..).mpr hf, hm, bne_iff_ne.mpr ha]
  rfl

end

/-- Settles O26: both make the three checks of one coherent element, and then the operation joins those of its context. -/
theorem coherentAccessesIssue : Obligations.CoherentAccessesIssue := by
  intro s d a z o p hf hm
  refine ⟨fun ha => ?_, fun ha => ?_⟩
  · have hok := checkCoherent_ok hf hm ha
    refine ⟨under_effect hok _, (under_effect hok _).trans ?_⟩
    have hdata : (if z then ((srcG s d).setWidth 32).setWidth 64 else srcG s d) =
        if z then BitVec.ofNat 64 ((srcG s d).toNat % 2 ^ 32) else srcG s d := by
      rw [← BitVec.toNat_setWidth, BitVec.ofNat_toNat]
    rw [hdata]
    rfl
  · have hfault := checkCoherent_fault hf hm ha
    exact ⟨under_precise hfault _, under_precise hfault _⟩

/-! ### `lds` and `sts` (R105, R112, R305, R346) -/

/-- Settles O27: both make the same four checks; a word of 32 bits is its value. -/
theorem scratchWordsMove : Obligations.ScratchWordsMove := by
  intro s d a i hf hq
  refine ⟨fun hover => ?_, fun hclear ha hw => ?_, fun hclear hbad => ?_⟩
  · have hstall := stall_mem_fesetChecks (rs := [d, a]) (Bool.not_eq_false _ |>.mpr hover) (checkWord s (addrOf (srcG s a) i.toInt 4))
    exact ⟨under_checks_stalled hstall _, under_checks_stalled hstall _⟩
  · have hok : checks [readyG s [d, a], feqEmpty s, fesetClear s (hereAddr s (addrOf (srcG s a) i.toInt 4)) 4,
        checkWord s (addrOf (srcG s a) i.toInt 4)] = .ok := by
      refine (fesetChecks_eq hf hq hclear _).trans ?_
      exact congrArg (fun c => checks [c]) (checkWord_ok ha hw)
    refine ⟨(under_effect hok _).trans ?_, (under_effect hok _).trans ?_⟩
    · rw [← BitVec.ofNat_toNat 64]
      rfl
    · rw [← BitVec.ofNat_toNat 32]
      rfl
  · have hfault : checks [readyG s [d, a], feqEmpty s, fesetClear s (hereAddr s (addrOf (srcG s a) i.toInt 4)) 4,
        checkWord s (addrOf (srcG s a) i.toInt 4)] = .fault .window (addrOf (srcG s a) i.toInt 4).toNat := by
      refine (fesetChecks_eq hf hq hclear _).trans ?_
      exact congrArg (fun c => checks [c]) (checkWord_fault (by rwa [not_and_or, not_lt]))
    exact ⟨under_precise hfault _, under_precise hfault _⟩

/-! ### Loops (R34) -/

/-- The low three bits of `ec` are its count. -/
theorem ecCount_eq_zero_iff : ∀ x : BitVec 8, x &&& 7 = 0 ↔ x.setWidth 3 = (0 : BitVec 3) := by decide

/-- Counting down a count that is not 0 leaves the rotation flag. -/
theorem rotation_of_countDown : ∀ x : BitVec 8, x.setWidth 3 ≠ (0 : BitVec 3) → (x - 1).getLsbD 7 = x.getLsbD 7 := by decide

/-- The rotation flag stands above the count. -/
theorem rotation_or_count : ∀ (r : Bool) (e : BitVec 3), (if r then 0x80 else 0 : BitVec 8) ||| e.setWidth 8 = (if r then 0x80 else 0) + e.setWidth 8 := by
  decide

/-- The new loop state of `loop` lands in one list, and the branch is taken (R308). -/
theorem exec_loop_taken {s : State} {l : LoopState} (o : BitVec 22) (h : loopStep s.here.regs.loopState = some l) :
    exec (.loop o) s = .next ((s.lands [(1, .rb l.rb), (1, .lc l.lc), (1, .ec l.ec), (1, .q 0xFF l.q)]).took
      (branch (bundleAt s.here o))) := by
  have hlands : s.lands [(1, .rb l.rb), (1, .lc l.lc), (1, .ec l.ec), (1, .q 0xFF l.q)] =
      landLoop l (s.lands [(1, .rb l.rb)]) := by
    simp only [landLoop, land_lands, List.cons_append, List.nil_append]
  have hexec : exec (.loop o) s = effect (branch (bundleAt s.here o) (landLoop l (land 1 (.rb l.rb) s))) := by
    simp only [exec, execLoop, h]
  rw [hexec, hlands]
  rfl

theorem exec_loop_over {s : State} (o : BitVec 22) (h : loopStep s.here.regs.loopState = none) :
    exec (.loop o) s = .next (s.took id) := by
  have hexec : exec (.loop o) s = effect s := by simp only [exec, execLoop, h]
  exact hexec

theorem exec_lsetup {s : State} {a : Reg} (hf : s.Free [a]) (e : BitVec 3) (r : Bool) :
    let l := loopSetup (srcG s a) e r s.here.regs.loopState
    exec (.lsetup a e r) s = .next (s.lands [(1, .lc l.lc), (1, .ec l.ec), (1, .q 0xFF l.q)]) := by
  intro l
  have hlands : s.lands [(1, .lc l.lc), (1, .ec l.ec), (1, .q 0xFF l.q)] =
      land 1 (.q 0xFF l.q) (land 1 (.ec l.ec) (s.lands [(1, .lc l.lc)])) := by
    simp only [land_lands, List.cons_append, List.nil_append]
  rw [hlands]
  exact under_effect ((readyG_ok ..).mpr hf) _

/-- Settles O32: the three cases of `loop` and the two of `lsetup`, each its new loop state. -/
theorem loopsFollowPseudocode : Obligations.LoopsFollowPseudocode := by
  intro s a e r o
  refine ⟨fun hf => ?_, fun hlc => ?_, fun hlc hec => ?_, fun hlc hec => ?_⟩
  · rw [exec_lsetup hf]
    by_cases hn : min (srcG s a).toNat (2 ^ 32 - 1) = 0
    · have hsetup : loopSetup (srcG s a) e r s.here.regs.loopState =
          { s.here.regs.loopState with lc := 0, ec := if r then 0x80 else 0, q := 0 } := if_pos hn
      rw [hsetup, if_pos hn]
    · have hsetup : loopSetup (srcG s a) e r s.here.regs.loopState =
          { s.here.regs.loopState with lc := BitVec.ofNat 32 (min (srcG s a).toNat (2 ^ 32 - 1) - 1), ec :=
            (if r then 0x80 else 0) ||| e.setWidth 8, q := 1 } := if_neg hn
      rw [hsetup, if_neg hn, rotation_or_count]
  · rw [exec_loop_taken o (if_pos hlc)]
    rfl
  · rw [exec_loop_taken o ((if_neg (not_not.mpr hlc)).trans (if_pos (mt (ecCount_eq_zero_iff _).mp hec)))]
    simp only [LoopState.shift, Regs.loopState, rotation_of_countDown _ hec, hlc]
    rfl
  · exact exec_loop_over o ((if_neg (not_not.mpr hlc)).trans (if_neg (not_not.mpr ((ecCount_eq_zero_iff _).mpr hec))))

end Sys2Proof.Machine

/-! SUPPORT. The statements on integer elements and on whole lanes of vectors: operations that raise no flag, and their elements modulo the width. -/

namespace Sys2Proof.Machine

/-! ### Lanes that raise nothing (R74) -/

/-- Lanes without flags leave their values and no flag, whatever the mask. -/
theorem maskedFlags_of_flagless (k : W64) {rs : List LaneFlags} (h : ∀ r ∈ rs, r.2 = 0) : maskedFlags k rs = (rs.map (·.1), 0) := by
  have hlane (i : Nat) : (rs.getD i (0, 0)).2 = 0 := by
    rw [List.getD_eq_getElem?_getD]
    cases hr : rs[i]? with
    | none => rfl
    | some r => exact h r (List.mem_of_getElem? hr)
  have hfold (l : List Nat) : l.foldl (fun (fl : Flags5) i => if k.getLsbD i then fl ||| (rs.getD i (0, 0)).2 else fl) 0 = 0 := by
    induction l with
    | nil => rfl
    | cons i l ih => rw [List.foldl_cons, hlane, BitVec.or_self, ite_self, ih]
  rw [maskedFlags, hfold]

section
variable {s : State} {d a : Reg} {b : VSrc}

/-- A slot of one source whose lanes raise nothing lands a function of each lane. -/
theorem vector1_flagless (h : s.VectorReady d [a] []) (m : Reg3) (L : Nat) {f : W32 → LaneFlags} (hf : ∀ x, (f x).2 = 0) :
    vector1 d a m L f s = .next (s.vectorLands d [a] L (srcM s m) ((s.here.readSrcV a).map (fun x => (f x).1), 0)) := by
  rw [vector1_ready h, maskedFlags_of_flagless, List.map_map]
  · rfl
  · intro r hr
    obtain ⟨x, -, rfl⟩ := List.mem_map.mp hr
    exact hf x

/-- The same of two sources, lane by lane. -/
theorem vector2_flagless (h : s.VectorReady d (a :: vsrcRegs b) [b]) (m : Reg3) (L : Nat) {f : W32 → W32 → LaneFlags}
    (hf : ∀ x y, (f x y).2 = 0) :
    vector2 d a b m L f s = .next (s.vectorLands d (a :: vsrcRegs b) L (srcM s m)
      (List.zipWith (fun x y => (f x y).1) (s.here.readSrcV a) (s.here.readVSrc b), 0)) := by
  rw [vector2_ready h, maskedFlags_of_flagless, List.map_zipWith]
  intro r hr
  obtain ⟨p, -, rfl⟩ := List.mem_map.mp (List.map_uncurry_zip_eq_zipWith (f := f) ▸ hr)
  exact hf p.1 p.2

theorem flagless_of_mem_zip3 {f : W32 → W32 → W32 → LaneFlags} (hf : ∀ x y z, (f x y z).2 = 0) :
    ∀ (X Y Z : List W32), ∀ r ∈ zip3 f X Y Z, r.2 = 0
  | x :: X, y :: Y, z :: Z, r, hr => by
    rcases List.mem_cons.mp hr with rfl | hr
    · exact hf x y z
    · exact flagless_of_mem_zip3 hf X Y Z r hr
  | [], _, _, _, hr | _ :: _, [], _, _, hr | _ :: _, _ :: _, [], _, hr => nomatch hr

/-- The same of three sources. -/
theorem vector3_flagless (h : s.VectorReady d (d :: a :: vsrcRegs b) [b]) (m : Reg3) (L : Nat) {f : W32 → W32 → W32 → LaneFlags}
    (hf : ∀ x y z, (f x y z).2 = 0) :
    vector3 d a b m L f s = .next (s.vectorLands d (d :: a :: vsrcRegs b) L (srcM s m)
      ((zip3 f (s.here.readSrcV a) (s.here.readVSrc b) (s.here.readSrcV d)).map (·.1), 0)) := by
  rw [vector3_ready h, maskedFlags_of_flagless _ (flagless_of_mem_zip3 hf _ _ _)]

end

/-! ### Elements of a result lane (R54) -/

section
variable {t : ElemType} {j : Nat} (hj : j < t.perLane)
include hj

theorem laneElem_lane1 (f : Nat → Nat × Flags5) (x : W32) :
    laneElem t (lane1 t f x).1 j = (f (laneElem t x j)).1 % 2 ^ t.width := by
  rw [lane1, laneElem_packLane t (by simp [laneElems])]
  simp only [laneElems, List.map_map]
  rw [getD_map_range _ _ _ _ hj]
  rfl

theorem laneElem_lane2 (f : Nat → Nat → Nat × Flags5) (x y : W32) :
    laneElem t (lane2 t f x y).1 j = (f (laneElem t x j) (laneElem t y j)).1 % 2 ^ t.width := by
  rw [lane2, laneElem_packLane t (by simp)]
  simp only [List.map_map]
  rw [getD_map_range _ _ _ _ hj]
  rfl

theorem laneElem_lane3 (f : Nat → Nat → Nat → Nat × Flags5) (x y z : W32) :
    laneElem t (lane3 t f x y z).1 j = (f (laneElem t x j) (laneElem t y j) (laneElem t z j)).1 % 2 ^ t.width := by
  rw [lane3, laneElem_packLane t (by simp)]
  simp only [List.map_map]
  rw [getD_map_range _ _ _ _ hj]
  rfl

end

/-! ### Integer elements (R68, R356, R370) -/

theorem elemInt_emod (t : ElemType) (x : Nat) : elemInt t x % 2 ^ t.width = (x : Int) % 2 ^ t.width := by
  unfold elemInt
  split
  · exact signedOf_emod _ _
  · push_cast
    exact Int.emod_emod_of_dvd _ dvd_rfl

/-- An element code cut to its width is the integer modulo 2 ^ w. -/
theorem intCode_mod_cast (w : Nat) (z : Int) : ((intCode w z % 2 ^ w : Nat) : Int) = z % 2 ^ w := by
  push_cast
  rw [intCode_cast, Int.emod_emod_of_dvd _ dvd_rfl]

/-- A shift lands, and its elements are those that the shift gives. -/
theorem shiftOp_lands {s : State} {d a : Reg} {b : VSrc} (h : s.VectorReady d (a :: vsrcRegs b) [b]) (m : Reg3) (t : ElemType) (op : ShiftOp) :
    ∃ f : W32 → W32 → W32,
      shiftOp op d a b m t s = .next (s.vectorLands d (a :: vsrcRegs b) 4 (srcM s m)
        (List.zipWith f (s.here.readSrcV a) (s.here.readVSrc b), 0)) ∧
      ∀ x y, ∀ j < t.perLane, laneElem t (f x y) j = op.on t (laneElem t x j) (laneElem t y j) % 2 ^ t.width :=
  ⟨_, vector2_flagless h m 4 fun _ _ => foldl_or_eq_zero (by simp), fun x y _ hj => laneElem_lane2 hj _ x y⟩

section
variable {s : State} {d a : Reg} {b : VSrc} {m : Reg3} {t : ElemType} (ht : isIntType t = true)
include ht

/-- A two-source operation of integer elements lands, and its elements are those of the integers modulo 2 ^ w. -/
theorem arith2_int (h : s.VectorReady d (a :: vsrcRegs b) [b]) (op : ElemOp) (L : Nat) :
    ∃ f : W32 → W32 → W32,
      arith2 op L d a b m t s = .next (s.vectorLands d (a :: vsrcRegs b) L (srcM s m)
        (List.zipWith f (s.here.readSrcV a) (s.here.readVSrc b), 0)) ∧
      ∀ x y, ∀ j < t.perLane, (laneElem t (f x y) j : Int) =
        op.onInt (elemInt t (laneElem t x j)) (elemInt t (laneElem t y j)) % 2 ^ t.width := by
  have hon : op.on t = fun x y => (intCode t.width (op.onInt (elemInt t x) (elemInt t y)), 0) := by
    funext x y
    simp [ElemOp.on, vecFloat_of_isInt ht]
  refine ⟨_, vector2_flagless h m L fun x y => ?_, fun x y j hj => ?_⟩
  · rw [hon]
    exact foldl_or_eq_zero (by simp)
  · rw [laneElem_lane2 hj, hon, intCode_mod_cast]

/-- A one-source operation of signs lands, and its elements are those of the integers modulo 2 ^ w. -/
theorem elemSign_int (h : s.VectorReady d [a] []) (isNeg : Bool) :
    ∃ f : W32 → W32,
      vector1 d a m 4 (lane1 t (elemSign isNeg t)) s =
        .next (s.vectorLands d [a] 4 (srcM s m) ((s.here.readSrcV a).map f, 0)) ∧
      ∀ x, ∀ j < t.perLane, (laneElem t (f x) j : Int) =
        (if isNeg || elemInt t (laneElem t x j) < 0 then - elemInt t (laneElem t x j) else elemInt t (laneElem t x j)) % 2 ^ t.width := by
  have hon : elemSign isNeg t = fun x => (intCode t.width (if isNeg || elemInt t x < 0 then - elemInt t x else elemInt t x), 0) := by
    funext x
    simp [elemSign, vecFloat_of_isInt ht]
  refine ⟨_, vector1_flagless h m 4 fun x => ?_, fun x j hj => ?_⟩
  · rw [hon]
    exact foldl_or_eq_zero (by simp)
  · rw [laneElem_lane1 hj, hon, intCode_mod_cast]

/-- The product with an addend lands, and its elements are those of the integers modulo 2 ^ w. -/
theorem elemFma_int (h : s.VectorReady d (d :: a :: vsrcRegs b) [b]) :
    ∃ f : W32 → W32 → W32 → W32,
      vector3 d a b m 6 (lane3 t (elemFma t)) s = .next (s.vectorLands d (d :: a :: vsrcRegs b) 6 (srcM s m)
        ((zip3 (fun x y z => (f x y z, 0)) (s.here.readSrcV a) (s.here.readVSrc b) (s.here.readSrcV d)).map (·.1), 0)) ∧
      ∀ x y z, ∀ j < t.perLane, (laneElem t (f x y z) j : Int) =
        (elemInt t (laneElem t x j) * elemInt t (laneElem t y j) + elemInt t (laneElem t z j)) % 2 ^ t.width := by
  have hon : elemFma t = fun x y z => (intCode t.width (elemInt t x * elemInt t y + elemInt t z), 0) := by
    funext x y z
    simp [elemFma, vecFloat_of_isInt ht]
  have hflagless (x y z : W32) : (lane3 t (elemFma t) x y z).2 = 0 := by
    rw [hon]
    exact foldl_or_eq_zero (by simp)
  have hlane : (fun x y z => ((lane3 t (elemFma t) x y z).1, (0 : Flags5))) = lane3 t (elemFma t) :=
    funext fun x => funext fun y => funext fun z => Prod.ext rfl (hflagless x y z).symm
  refine ⟨fun x y z => (lane3 t (elemFma t) x y z).1, ?_, fun x y z j hj => ?_⟩
  · rw [hlane]
    exact vector3_flagless h m 6 hflagless
  · rw [laneElem_lane3 hj, hon, intCode_mod_cast]

end

section
variable (t : ElemType) (x n : Nat)

theorem shl_cast : ((ShiftOp.shl.on t x n % 2 ^ t.width : Nat) : Int) = elemInt t x * 2 ^ (n % t.width) % 2 ^ t.width := by
  rw [ShiftOp.on, Nat.mod_mod]
  push_cast
  rw [Int.mul_emod, Int.mul_emod (elemInt t x), elemInt_emod]

theorem shr_cast (hx : x < 2 ^ t.width) : ((ShiftOp.shr.on t x n % 2 ^ t.width : Nat) : Int) = (x : Int) / 2 ^ (n % t.width) % 2 ^ t.width := by
  rw [ShiftOp.on, Nat.mod_eq_of_lt hx]
  push_cast
  rfl

theorem sra_cast : ((ShiftOp.sra.on t x n % 2 ^ t.width : Nat) : Int) = elemInt t x / 2 ^ (n % t.width) % 2 ^ t.width :=
  intCode_mod_cast _ _

theorem abs_eq_ite (z : Int) : (if (false || decide (z < 0)) = true then -z else z) = |z| := by
  simp only [Bool.false_or, decide_eq_true_eq]
  split_ifs with h
  · exact (abs_of_neg h).symm
  · exact (abs_of_nonneg (not_lt.mp h)).symm

end

theorem laneElem_lt (t : ElemType) (x : W32) (j : Nat) : laneElem t x j < 2 ^ t.width := Nat.mod_lt _ (Nat.two_pow_pos _)

theorem onInt_min (x y : Int) : ElemOp.min.onInt x y = min x y := by
  rw [ElemOp.onInt, min_def]
  split_ifs <;> omega

theorem onInt_max (x y : Int) : ElemOp.max.onInt x y = max x y := by
  rw [ElemOp.onInt, max_def]
  split_ifs <;> omega

/-- Settles O36: each operation by its integers modulo 2 ^ w, element by element. -/
theorem vectorIntegersLand : Obligations.VectorIntegersLand := by
  intro s d a b m t ht
  refine ⟨fun h => ⟨fun e he => ?_, fun e he => ?_⟩, fun h => elemFma_int ht h, fun h e he => ?_⟩
  · simp only [List.mem_cons, List.not_mem_nil, or_false] at he
    rcases he with rfl | rfl | rfl | rfl | rfl
    · exact arith2_int ht h .add 4
    · exact arith2_int ht h .sub 4
    · exact arith2_int ht h .mul 6
    · have hlands := arith2_int (m := m) ht h .min 4
      simp only [onInt_min] at hlands
      exact hlands
    · have hlands := arith2_int (m := m) ht h .max 4
      simp only [onInt_max] at hlands
      exact hlands
  · simp only [List.mem_cons, List.not_mem_nil, or_false] at he
    rcases he with rfl | rfl | rfl
    · obtain ⟨f, hexec, helem⟩ := shiftOp_lands h m t .shl
      exact ⟨f, hexec, fun x y j hj => by rw [helem x y j hj, shl_cast]⟩
    · obtain ⟨f, hexec, helem⟩ := shiftOp_lands h m t .shr
      exact ⟨f, hexec, fun x y j hj => by rw [helem x y j hj, shr_cast _ _ _ (laneElem_lt t x j)]⟩
    · obtain ⟨f, hexec, helem⟩ := shiftOp_lands h m t .sra
      exact ⟨f, hexec, fun x y j hj => by rw [helem x y j hj, sra_cast]⟩
  · simp only [List.mem_cons, List.not_mem_nil, or_false] at he
    rcases he with rfl | rfl
    · have hlands := elemSign_int (m := m) ht h false
      simp only [abs_eq_ite] at hlands
      exact hlands
    · exact elemSign_int ht h true

/-! ### Whole lanes (R357, R358) -/

section
variable {s : State} {d a : Reg} {b : VSrc}

theorem getD_zipWith (f : W32 → W32 → W32) {X Y : List W32} {i : Nat} (hx : i < X.length) (hy : i < Y.length) :
    (List.zipWith f X Y).getD i 0 = f (X.getD i 0) (Y.getD i 0) := by
  simp [List.getD, hx, hy]

/-- Lane-by-lane logic of two sources. -/
theorem vector2_logic (h : s.VectorReady d (a :: vsrcRegs b) [b]) (m : Reg3) (f : W32 → W32 → W32) :
    ∃ R : List W32, vector2 d a b m 4 (fun x y => (f x y, 0)) s = .next (s.vectorLands d (a :: vsrcRegs b) 4 (srcM s m) (R, 0)) ∧
      ∀ i < 64, i < (s.here.readSrcV a).length → i < (s.here.readVSrc b).length →
        R.getD i 0 = f ((s.here.readSrcV a).getD i 0) ((s.here.readVSrc b).getD i 0) :=
  ⟨_, vector2_flagless h m 4 fun _ _ => rfl, fun _ _ hx hy => getD_zipWith f hx hy⟩

theorem moveLanes_ready (h : s.VectorReady d [a] []) (L : Nat) (mask : W64) (f : Nat → Nat) :
    moveLanes d a L mask f s = .next (s.vectorLands d [a] L mask ((List.range 64).map fun i => (s.here.readSrcV a).getD (f i) 0, 0)) :=
  vectorOp_ready h _ _ _

end

/-- Settles O38: logic lane by lane; the others by the lane that each lane of the result takes. -/
theorem wholeLanesMove : Obligations.WholeLanesMove := by
  intro s d a b m t n
  refine ⟨fun h => ⟨vector2_logic h m _, vector2_logic h m _, vector2_logic h m _, ⟨_, vectorOp_ready h 4 _ _, fun i hi _ _ => ?_⟩,
      ⟨_, vectorOp_ready h 3 _ _, fun i hi _ _ => getD_map_range 64 i _ 0 hi⟩⟩,
    fun h => ⟨⟨_, moveLanes_ready h 4 _ id, fun i hi _ _ => getD_map_range 64 i _ 0 hi⟩,
      ⟨_, moveLanes_ready h 3 _ _, fun i hi _ _ => getD_map_range 64 i _ 0 hi⟩,
      ⟨_, moveLanes_ready h 3 _ _, fun i hi _ _ => getD_map_range 64 i _ 0 hi⟩⟩⟩
  exact mergeLanes_getD _ _ _ hi

end Sys2Proof.Machine

/-! SUPPORT. The statements on what scalar and vector instructions leave as it is, and on a bundle that a precise fault suppresses: answers of a
slot by the relation of its states, what changes only in the focus context, and the lowest slot of a bundle that faults. -/

namespace Sys2Proof.Machine

/-! ### What a slot's answer leaves -/

/-- Where a slot has its effect or stalls, its states are related. -/
def Answers (R : State → State → Prop) (s : State) (o : Out) : Prop :=
  ∀ t, o = .next t → (t.signal = .none ∨ t.signal = .waits) → R s t

section
variable {R : State → State → Prop} {s : State}

theorem answers_effect {u : State} (h : R s { u with signal := .none }) : Answers R s (effect u) := by
  intro t ht _
  cases ht
  exact h

/-- A stall changes nothing, and a precise fault is no effect: it is left to the effect under the checks. -/
theorem answers_under (c : Check) {k : Out} (hstall : R s { s with signal := .waits }) (h : Answers R s k) : Answers R s (under c s k) := by
  cases c with
  | ok => exact h
  | stall =>
    intro t ht _
    cases ht
    exact hstall
  | fault cls a =>
    intro t ht hsignal
    cases ht
    rcases hsignal with h | h <;> cases h

end

/-- Only the focus context may have changed, and it as P says. -/
structure State.OnlyHere (P : Ctx → Ctx → Prop) (s t : State) : Prop where
  store : t.store = s.store
  cores : t.cores = s.cores
  dev : t.dev = s.dev
  refHalf : t.refHalf = s.refHalf
  focus : t.focusCtx = s.focusCtx
  others : ∀ h, h ≠ s.focusCtx → t.ctx h = s.ctx h
  here : P s.here t.here

namespace State.OnlyHere
variable {P Q : Ctx → Ctx → Prop} {s t u : State}

theorem refl (hP : ∀ c, P c c) (s : State) : s.OnlyHere P s := ⟨rfl, rfl, rfl, rfl, rfl, fun _ _ => rfl, hP _⟩

theorem trans (hP : ∀ c d e, P c d → P d e → P c e) (h : s.OnlyHere P t) (k : t.OnlyHere P u) : s.OnlyHere P u :=
  ⟨k.store.trans h.store, k.cores.trans h.cores, k.dev.trans h.dev, k.refHalf.trans h.refHalf, k.focus.trans h.focus,
    fun g hg => (k.others g (by rwa [h.focus])).trans (h.others g hg), hP _ _ _ h.here k.here⟩

theorem mono (hPQ : ∀ c d, P c d → Q c d) (h : s.OnlyHere P t) : s.OnlyHere Q t := { h with here := hPQ _ _ h.here }

theorem mapHere {f : Ctx → Ctx} (h : P s.here (f s.here)) : s.OnlyHere P (s.mapHere f) :=
  ⟨rfl, rfl, rfl, rfl, rfl, fun g hg => by rw [State.ctx_mapHere, if_neg hg], by rwa [State.here_mapHere]⟩

/-- What holds of the focus context after, and of every other as it was, holds of every one. -/
theorem forall_ctx {p : Ctx → Ctx → Prop} (hp : ∀ c, p c c) (h : s.OnlyHere P t) (hPp : ∀ c d, P c d → p c d) (g : Nat) :
    p (s.ctx g) (t.ctx g) := by
  by_cases hg : g = s.focusCtx
  · subst hg
    have := hPp _ _ h.here
    rwa [State.here, State.here, h.focus] at this
  · rw [h.others g hg]
    exact hp _

end State.OnlyHere

/-! ### The scalar instructions that name no memory -/

/-- Registers, place and operations of a context stay: only what is on its way to land may be new. -/
def Ctx.KeepsProgram (c d : Ctx) : Prop :=
  d.regs = c.regs ∧ d.pc = c.pc ∧ d.count = c.count ∧ d.fault = c.fault ∧ d.work.memOps = c.work.memOps ∧ d.work.streams = c.work.streams

theorem Ctx.KeepsProgram.refl (c : Ctx) : c.KeepsProgram c := ⟨rfl, rfl, rfl, rfl, rfl, rfl⟩

section
variable {s : State}

theorem keepsProgram_land (L : Nat) (e : Effect) : s.OnlyHere Ctx.KeepsProgram (land L e s) := .mapHere ⟨rfl, rfl, rfl, rfl, rfl, rfl⟩

/-- A slot that stalls, or whose effect leaves the program of every context. -/
theorem answers_under_effect {P : Ctx → Ctx → Prop} (hP : ∀ c, P c c) (c : Check) {u : State} (h : s.OnlyHere P u) :
    Answers (State.OnlyHere P) s (under c s (effect u)) :=
  answers_under c { State.OnlyHere.refl hP s with } (answers_effect { h with })

theorem answers_scalarOp (d : Reg) (srcs : List Reg) (L : Nat) (x : W64) :
    Answers (State.OnlyHere Ctx.KeepsProgram) s (scalarOp d srcs L x s) :=
  answers_under_effect .refl _ (keepsProgram_land _ _)

theorem answers_deliverOp (d : Reg) (srcs : List Reg) (x : W64) :
    Answers (State.OnlyHere Ctx.KeepsProgram) s (deliverOp d srcs x s) :=
  answers_under_effect .refl _ (.mapHere ⟨rfl, rfl, rfl, rfl, rfl, rfl⟩)

theorem answers_land (L : Nat) (e : Effect) : Answers (State.OnlyHere Ctx.KeepsProgram) s (effect (land L e s)) :=
  answers_under_effect .refl .ok (keepsProgram_land L e)

theorem answers_under_land (c : Check) (L : Nat) (e : Effect) : Answers (State.OnlyHere Ctx.KeepsProgram) s (under c s (effect (land L e s))) :=
  answers_under_effect .refl _ (keepsProgram_land L e)

theorem answers_rdsr (d : Reg) (x : SysReg) : Answers (State.OnlyHere Ctx.KeepsProgram) s (execRdsr d x s) := by
  unfold execRdsr
  split
  · exact answers_under_effect .refl _ (.mapHere ⟨rfl, rfl, rfl, rfl, rfl, rfl⟩)
  · exact answers_scalarOp _ _ _ _

theorem answers_wrsr (a : Reg) (x : SysReg) : Answers (State.OnlyHere Ctx.KeepsProgram) s (execWrsr a x s) := by
  unfold execWrsr
  split
  · exact answers_under_effect .refl _ (.refl .refl s)
  · exact answers_under_land _ _ _

end

/-- Settles O25: each instruction lands results, sends one on its way, or does nothing. -/
theorem scalarInstructionsFrame : Obligations.ScalarInstructionsFrame := by
  intro s t d a b w c n m p i j sh x f r k hk hexec hsignal
  have hframe : Answers (State.OnlyHere Ctx.KeepsProgram) s (exec k s) := by
    simp only [List.mem_cons, List.not_mem_nil, or_false] at hk
    rcases hk with rfl | rfl | rfl | rfl | rfl | rfl | rfl | rfl | rfl | rfl | rfl | rfl | rfl | rfl | rfl | rfl | rfl | rfl | rfl | rfl |
      rfl | rfl | rfl | rfl | rfl | rfl | rfl | rfl | rfl | rfl | rfl | rfl | rfl | rfl | rfl | rfl | rfl | rfl
    exacts [answers_under_effect .refl .ok (.refl .refl s), answers_scalarOp _ _ _ _, answers_scalarOp _ _ _ _, answers_scalarOp _ _ _ _,
      answers_scalarOp _ _ _ _, answers_deliverOp _ _ _, answers_deliverOp _ _ _, answers_scalarOp _ _ _ _, answers_scalarOp _ _ _ _,
      answers_scalarOp _ _ _ _, answers_scalarOp _ _ _ _, answers_scalarOp _ _ _ _, answers_scalarOp _ _ _ _, answers_scalarOp _ _ _ _,
      answers_scalarOp _ _ _ _, answers_scalarOp _ _ _ _, answers_scalarOp _ _ _ _, answers_scalarOp _ _ _ _, answers_scalarOp _ _ _ _,
      answers_under_land _ _ _, answers_scalarOp _ _ _ _, answers_scalarOp _ _ _ _, answers_under_land _ _ _, answers_scalarOp _ _ _ _,
      answers_scalarOp _ _ _ _, answers_scalarOp _ _ _ _, answers_scalarOp _ _ _ _, answers_land _ _, answers_land _ _, answers_land _ _,
      answers_scalarOp _ _ _ _, answers_scalarOp _ _ _ _, answers_scalarOp _ _ _ _, answers_scalarOp _ _ _ _, answers_rdsr _ _,
      answers_wrsr _ _, answers_land _ _, answers_under_land _ _ _]
  have h := hframe t hexec hsignal
  have hctx := h.forall_ctx (p := Ctx.KeepsProgram) .refl fun _ _ h => h
  refine ⟨⟨fun g => (hctx g).1, h.store⟩, h.cores, h.dev, h.refHalf, h.others, fun g => ?_⟩
  obtain ⟨-, hpc, hcount, hfault, hmem, hstreams⟩ := hctx g
  exact ⟨hpc, hcount, hfault, hmem, hstreams⟩

/-! ### The scalar accesses -/

/-- What a scalar access keeps: registers, memory, the directories, the caches, full/empty bits, the cores and the device; and of the
scratchpads every word but those of some keys. -/
structure State.KeepsMemory (keys : Nat → Prop) (s t : State) : Prop where
  regs : ∀ h, (t.ctx h).regs = (s.ctx h).regs
  mem : t.store.mem = s.store.mem
  dirs : t.store.dirs = s.store.dirs
  copies : t.store.copies = s.store.copies
  full : t.store.full = s.store.full
  cores : t.cores = s.cores
  dev : t.dev = s.dev
  scratch : (∀ key, ¬ keys key) → t.store.scratch = s.store.scratch
  words : Sparse.risingFrom none s.store.scratch = true → ∀ key, ¬ keys key →
    Sparse.get 0 t.store.scratch key = Sparse.get 0 s.store.scratch key

/-- A context keeps its registers. -/
def Ctx.KeepsRegs (c d : Ctx) : Prop := d.regs = c.regs

theorem Ctx.KeepsRegs.refl (c : Ctx) : c.KeepsRegs c := rfl

/-- An access that changes only what waits in the focus context. -/
theorem State.OnlyHere.keepsMemory {s t : State} (h : s.OnlyHere Ctx.KeepsRegs t) (keys : Nat → Prop) : s.KeepsMemory keys t :=
  ⟨h.forall_ctx (p := Ctx.KeepsRegs) .refl fun _ _ h => h, congrArg Store.mem h.store, congrArg Store.dirs h.store,
    congrArg Store.copies h.store, congrArg Store.full h.store, h.cores, h.dev, fun _ => congrArg Store.scratch h.store,
    fun _ key _ => by rw [h.store]⟩

section
variable {s : State}

theorem answers_under_mapHere (keys : Nat → Prop) (c : Check) {f : Ctx → Ctx} (h : (f s.here).regs = s.here.regs) :
    Answers (State.KeepsMemory keys) s (under c s (effect (s.mapHere f))) := fun t ht hsignal =>
  (answers_under_effect (P := Ctx.KeepsRegs) .refl c (.mapHere h) t ht hsignal).keepsMemory keys

theorem keepsRegs_observeFlip (core addr : Nat) (s : State) : s.OnlyHere Ctx.KeepsRegs (observeFlip core addr s) := by
  unfold observeFlip observeBy
  split
  · exact .mapHere rfl
  · exact .refl .refl s

theorem answers_lds (keys : Nat → Prop) (d a : Reg) (i : BitVec 14) : Answers (State.KeepsMemory keys) s (execLds d a i s) := by
  intro t ht hsignal
  have hland (u : State) (L : Nat) (e : Effect) : u.OnlyHere Ctx.KeepsRegs (land L e u) := .mapHere rfl
  have hregs (c d e : Ctx) (h : c.KeepsRegs d) (k : d.KeepsRegs e) : c.KeepsRegs e := Eq.trans k h
  exact (answers_under_effect .refl _ ((keepsRegs_observeFlip _ _ s).trans hregs (hland _ _ _)) t ht hsignal).keepsMemory keys

/-- `sts` changes the one word that it addresses. -/
theorem answers_sts (d a : Reg) (i : BitVec 14) :
    Answers (State.KeepsMemory (· = scratchKey (s.focusCtx / 4) (s.here.base + (srcG s a + BitVec.ofInt 64 (i.toInt * 4)).toNat))) s
      (execSts d a i s) := by
  refine answers_under _ ⟨fun _ => rfl, rfl, rfl, rfl, rfl, rfl, rfl, fun _ => rfl, fun _ _ _ => rfl⟩ (answers_effect ?_)
  refine ⟨fun _ => rfl, rfl, rfl, rfl, rfl, rfl, rfl, fun h => absurd rfl (h _), fun hrising key hkey => ?_⟩
  exact (Sparse.get_set 0 _ _ _ _ hrising).trans (if_neg hkey)

end

/-- Settles O30: every access but `sts` changes only what waits in its context; `sts` one word. -/
theorem scalarAccessesFrame : Obligations.ScalarAccessesFrame := by
  intro s t d a z k i o o' p x hx hexec hsignal
  obtain ⟨key, hkey⟩ : ∃ key, key = scratchKey (s.focusCtx / 4) (s.here.base + (srcG s a + BitVec.ofInt 64 (i.toInt * 4)).toNat) := ⟨_, rfl⟩
  rw [← hkey]
  have hframe : Answers (State.KeepsMemory fun j => x = .sts d a i ∧ j = key) s (exec x s) := by
    simp only [List.mem_cons, List.not_mem_nil, or_false] at hx
    rcases hx with rfl | rfl | rfl | rfl | rfl | rfl
    · exact answers_under_mapHere _ _ rfl
    · exact answers_under_mapHere _ _ rfl
    · exact answers_lds _ d a i
    · simp only [true_and, hkey]
      exact answers_sts d a i
    · exact answers_under_mapHere _ _ rfl
    · exact answers_under_mapHere _ _ rfl
  obtain ⟨hregs, hmem, hdirs, hcopies, hfull, hcores, hdev, hscratch, hwords⟩ := hframe t hexec hsignal
  exact ⟨hregs, fun b => by rw [hmem], hdirs, hcopies, hfull, hcores, hdev, fun hne => hscratch fun _ h => hne h.1,
    fun hrising j hj => hwords hrising j fun h => hj h.2⟩

/-! ### Slots VA and VB -/

/-- A context keeps its place, its memory operations and its full/empty queue, and its registers but for the reduction latches. -/
def Ctx.KeepsButLatches (c d : Ctx) : Prop :=
  ({ d.regs with ps := c.regs.ps } : Regs) = c.regs ∧ d.pc = c.pc ∧ d.work.memOps = c.work.memOps ∧ d.work.feq = c.work.feq

/-- It keeps the latches too. -/
def Ctx.KeepsVector (c d : Ctx) : Prop := d.regs = c.regs ∧ c.KeepsButLatches d

theorem Ctx.KeepsButLatches.refl (c : Ctx) : c.KeepsButLatches c := ⟨rfl, rfl, rfl, rfl⟩

theorem Ctx.KeepsButLatches.trans (c d e : Ctx) (h : c.KeepsButLatches d) (k : d.KeepsButLatches e) : c.KeepsButLatches e := by
  obtain ⟨hregs, hpc, hmem, hfeq⟩ := h
  obtain ⟨kregs, kpc, kmem, kfeq⟩ := k
  refine ⟨?_, kpc.trans hpc, kmem.trans hmem, kfeq.trans hfeq⟩
  rw [← hregs, ← kregs]

theorem Ctx.KeepsVector.refl (c : Ctx) : c.KeepsVector c := ⟨rfl, .refl c⟩

theorem Ctx.KeepsVector.trans (c d e : Ctx) (h : c.KeepsVector d) (k : d.KeepsVector e) : c.KeepsVector e := by
  obtain ⟨hregs, -, hpc, hmem, hfeq⟩ := h
  obtain ⟨kregs, -, kpc, kmem, kfeq⟩ := k
  have he := kregs.trans hregs
  exact ⟨he, by rw [he], kpc.trans hpc, kmem.trans hmem, kfeq.trans hfeq⟩

section
variable (s : State)

theorem keepsVector_land (L : Nat) (e : Effect) : s.OnlyHere Ctx.KeepsVector (land L e s) := .mapHere ⟨rfl, rfl, rfl, rfl, rfl⟩

theorem keepsVector_popSources (xs : List Reg) : s.OnlyHere Ctx.KeepsVector (popSources xs s) := by
  unfold popSources
  exact foldl_keeps (s.OnlyHere Ctx.KeepsVector) _ _ s (.refl .refl s) fun t id ht => ht.trans .trans (.mapHere ⟨rfl, rfl, rfl, rfl, rfl⟩)

theorem keepsVector_landV (d : Reg) (L : Nat) (mask : W64) (x : List W32) : s.OnlyHere Ctx.KeepsVector (landV d L mask x s) := by
  unfold landV
  split
  · exact keepsVector_land s _ _
  · exact State.OnlyHere.trans .trans (.mapHere ⟨rfl, rfl, rfl, rfl, rfl⟩) (keepsVector_land _ _ _)

theorem keepsVector_landFlags (L : Nat) (fl : Flags5) : s.OnlyHere Ctx.KeepsVector (landFlags L fl s) := by
  unfold landFlags
  split
  · exact .refl .refl s
  · exact keepsVector_land s _ _

end

section
variable {s : State}

theorem answers_vectorOp (d : Reg) (srcs : List Reg) (more : List Check) (L : Nat) (mask : W64) (r : List W32 × Flags5) :
    Answers (State.OnlyHere Ctx.KeepsVector) s (vectorOp d srcs more L mask r s) :=
  answers_under_effect .refl _ <| (keepsVector_popSources s _).trans .trans <|
    (keepsVector_landV _ _ _ _ _).trans .trans (keepsVector_landFlags _ _ _)

theorem answers_vcmp (c : VCond) (d : Reg3) (a : Reg) (b : VSrc) (m : Reg3) (t : ElemType) :
    Answers (State.OnlyHere Ctx.KeepsVector) s (execVcmp c d a b m t s) :=
  answers_under_effect .refl _ <| (keepsVector_popSources s _).trans .trans <|
    (keepsVector_land _ _ _).trans .trans (keepsVector_landFlags _ _ _)

theorem answers_vred (o : RedOp) (n : Reg2) (a : Reg) (m : Reg3) (t : ElemType) :
    Answers (State.OnlyHere Ctx.KeepsVector) s (execVred o n a m t s) := by
  unfold execVred
  generalize treeRoot o t (srcM s m) (s.here.readSrcV a) = r
  obtain ⟨root, fl⟩ := r
  refine answers_under_effect .refl _ ?_
  cases root with
  | none => exact keepsVector_popSources s _
  | some x =>
    exact (keepsVector_popSources s _).trans .trans ((keepsVector_land _ _ _).trans .trans (keepsVector_landFlags _ _ _))

theorem answers_vdrain (d : Reg) (n : Reg2) (m : Reg3) (t : ElemType) :
    Answers (State.OnlyHere Ctx.KeepsButLatches) s (execVdrain d n m t s) := by
  have hempty : s.OnlyHere Ctx.KeepsButLatches
      (s.mapHere fun c => { c with regs := { c.regs with ps := Sparse.erase c.regs.ps n.toNat } }) := .mapHere ⟨rfl, rfl, rfl, rfl⟩
  exact answers_under_effect .refl _ (hempty.trans .trans ((keepsVector_landV _ _ _ _ _).mono fun _ _ h => h.2))

end

/-- Settles O43: pops, landings and flags change only what waits in the focus context; `vdrain` empties a latch besides. -/
theorem vectorInstructionsFrame : Obligations.VectorInstructionsFrame := by
  intro s t d a b m n3 ty u n q rm c o n2 p x hx hexec hsignal
  have hframe : Answers (fun s t => s.OnlyHere Ctx.KeepsButLatches t ∧ (x ≠ .vdrain d n2 m ty → t.here.regs = s.here.regs)) s (exec x s) := by
    have hvector {o : Out} (h : Answers (State.OnlyHere Ctx.KeepsVector) s o) :
        Answers (fun s t => s.OnlyHere Ctx.KeepsButLatches t ∧ (x ≠ .vdrain d n2 m ty → t.here.regs = s.here.regs)) s o := fun t ht hsignal =>
      ⟨(h t ht hsignal).mono fun _ _ h => h.2, fun _ => (h t ht hsignal).here.1⟩
    simp only [List.mem_cons, List.not_mem_nil, or_false] at hx
    rcases hx with rfl | rfl | rfl | rfl | rfl | rfl | rfl | rfl | rfl | rfl | rfl | rfl | rfl | rfl | rfl | rfl | rfl | rfl | rfl | rfl |
      rfl | rfl | rfl | rfl | rfl | rfl | rfl | rfl | rfl | rfl | rfl | rfl | rfl
    exacts [hvector (answers_vectorOp _ _ _ _ _ _), hvector (answers_vectorOp _ _ _ _ _ _), hvector (answers_vectorOp _ _ _ _ _ _),
      hvector (answers_vectorOp _ _ _ _ _ _), hvector (answers_vectorOp _ _ _ _ _ _), hvector (answers_vectorOp _ _ _ _ _ _),
      hvector (answers_vectorOp _ _ _ _ _ _), hvector (answers_vectorOp _ _ _ _ _ _), hvector (answers_vectorOp _ _ _ _ _ _),
      hvector (answers_vectorOp _ _ _ _ _ _), hvector (answers_vectorOp _ _ _ _ _ _), hvector (answers_vectorOp _ _ _ _ _ _),
      hvector (answers_vectorOp _ _ _ _ _ _), hvector (answers_vectorOp _ _ _ _ _ _), hvector (answers_vcmp _ _ _ _ _ _),
      hvector (answers_vectorOp _ _ _ _ _ _), hvector (answers_vectorOp _ _ _ _ _ _), hvector (answers_vectorOp _ _ _ _ _ _),
      hvector (answers_vectorOp _ _ _ _ _ _), hvector (answers_vectorOp _ _ _ _ _ _), hvector (answers_vectorOp _ _ _ _ _ _),
      hvector (answers_vectorOp _ _ _ _ _ _), hvector (answers_vectorOp _ _ _ _ _ _), hvector (answers_vectorOp _ _ _ _ _ _),
      hvector (answers_vectorOp _ _ _ _ _ _), hvector (answers_vectorOp _ _ _ _ _ _), hvector (answers_vectorOp _ _ _ _ _ _),
      hvector (answers_vectorOp _ _ _ _ _ _), hvector (answers_vectorOp _ _ _ _ _ _), hvector (answers_vectorOp _ _ _ _ _ _),
      hvector (answers_vectorOp _ _ _ _ _ _), hvector (answers_vred _ _ _ _ _),
      fun t ht hsignal => ⟨answers_vdrain d n2 m ty t ht hsignal, fun h => absurd rfl h⟩]
  obtain ⟨h, hlatch⟩ := hframe t hexec hsignal
  obtain ⟨hregs, hpc, hmem, hfeq⟩ := h.here
  exact ⟨fun b => by rw [h.store], h.store, h.cores, h.dev, h.others, hlatch, hregs, hpc, hmem, hfeq⟩

/-! ### Bundles with a precise fault (R96) -/

/-- What a slot comes to: the fault noted is as before, or it faults itself. -/
theorem runSlot_ok_cases {h : Nat} {u v : Slots} {e : Nat × Instr} (hv : runSlot h u e = .ok v) :
    v.fault = u.fault ∨ ∃ t d x, exec e.2 { u.st with focusCtx := h, focusSlot := e.1, signal := .none } = .next t ∧
      t.signal = .fault d x ∧ v.fault = lowerFault u.fault (e.1, d, x) := by
  unfold runSlot at hv
  split at hv
  next t ht =>
    split at hv <;> rename_i hs <;> cases hv
    · exact .inl rfl
    · exact .inl rfl
    · exact .inr ⟨t, _, _, ht, hs, rfl⟩
  · cases hv

theorem lowerFault_le (x : Option (Nat × FaultClass × Nat)) (y : Nat × FaultClass × Nat) :
    ∃ f, lowerFault x y = some f ∧ f.1 ≤ y.1 ∧ ∀ g, x = some g → f.1 ≤ g.1 := by
  cases x with
  | none => exact ⟨y, rfl, le_rfl, nofun⟩
  | some g =>
    by_cases hlt : y.1 < g.1
    · exact ⟨y, if_pos hlt, le_rfl, fun _ h => Option.some.inj h ▸ hlt.le⟩
    · exact ⟨g, if_neg hlt, not_lt.mp hlt, fun _ h => Option.some.inj h ▸ le_rfl⟩

/-- The fault noted never rises to a higher slot as further slots execute. -/
theorem fault_le_of_runSlots {h : Nat} {es : List (Nat × Instr)} {u v : Slots} (hv : runSlots h es u = .ok v)
    {g : Nat × FaultClass × Nat} (hg : u.fault = some g) : ∃ f, v.fault = some f ∧ f.1 ≤ g.1 := by
  induction es generalizing u g with
  | nil =>
    cases hv
    exact ⟨g, hg, le_rfl⟩
  | cons e es ih =>
    rw [runSlots] at hv
    split at hv
    next w hw =>
      rcases runSlot_ok_cases hw with hsame | ⟨t, d, x, -, -, hlower⟩
      · exact ih hv (hsame.trans hg)
      · obtain ⟨f, hf, -, hle⟩ := lowerFault_le u.fault (e.1, d, x)
        obtain ⟨f', hf', hle'⟩ := ih hv (hlower.trans hf)
        exact ⟨f', hf', hle'.trans (hle g hg)⟩
    · cases hv

/-- The fault that the slots come to is that of one of them, where none was noted before. -/
theorem exists_faulting_slot {h : Nat} {es : List (Nat × Instr)} {u v : Slots} (hv : runSlots h es u = .ok v) (hu : u.fault = none)
    {k : Nat} {cls : FaultClass} {a : Nat} (hf : v.fault = some (k, cls, a)) :
    ∃ ds fs i w t, es = ds ++ (k, i) :: fs ∧ runSlots h ds u = .ok w ∧
      exec i { w.st with focusCtx := h, focusSlot := k, signal := .none } = .next t ∧ t.signal = .fault cls a := by
  induction es using List.reverseRecOn generalizing v k cls a with
  | nil =>
    cases hv
    rw [hu] at hf
    cases hf
  | append_singleton es e ih =>
    rw [runSlots_append] at hv
    split at hv
    next w hw =>
      have hother (hf' : w.fault = some (k, cls, a)) : ∃ ds fs i w t, es ++ [e] = ds ++ (k, i) :: fs ∧ runSlots h ds u = .ok w ∧
          exec i { w.st with focusCtx := h, focusSlot := k, signal := .none } = .next t ∧ t.signal = .fault cls a := by
        obtain ⟨ds, fs, i, w', t, hes, hrest⟩ := ih hw hf'
        exact ⟨ds, fs ++ [e], i, w', t, by rw [hes, List.append_assoc, List.cons_append], hrest⟩
      rw [runSlots] at hv
      split at hv
      next v' hv' =>
        cases hv
        rcases runSlot_ok_cases hv' with hsame | ⟨t, d, x, hexec, ht, hlower⟩
        · exact hother (hsame.symm.trans hf)
        · rw [hf] at hlower
          cases hwf : w.fault with
          | none =>
            rw [hwf] at hlower
            cases hlower
            exact ⟨es, [], e.2, w, t, rfl, hw, hexec, ht⟩
          | some g =>
            rw [hwf, lowerFault] at hlower
            split at hlower
            · cases hlower
              exact ⟨es, [], e.2, w, t, rfl, hw, hexec, ht⟩
            · exact hother (hwf.trans hlower.symm)
      · cases hv
    · cases hv

/-- Parking for a fault leaves every program, and of the store nothing else. -/
theorem distributes_parkFor (h : Nat) (f : FaultInfo) (s : State) :
    (∀ g, (((parkFor h f s).ctx g).regs = (s.ctx g).regs ∧ ((parkFor h f s).ctx g).count = (s.ctx g).count ∧
      ((parkFor h f s).ctx g).pc = (s.ctx g).pc ∧ ((parkFor h f s).ctx g).work.landing = (s.ctx g).work.landing ∧
      ((parkFor h f s).ctx g).retired = (s.ctx g).retired)) ∧ (parkFor h f s).store = s.store := by
  refine ⟨fun g => ?_, ?_⟩
  · unfold parkFor
    have hfreeze := freezeQueue_ctx h g (s.mapCtx h fun c =>
      { c with fault := some f, runCycles := 0, work := { c.work.closeHold with streams := c.work.streams.map Stream.dropFetched } })
    rw [hfreeze.regs, hfreeze.count, hfreeze.pc, hfreeze.landing, hfreeze.retired, State.ctx_mapCtx]
    split
    next hg =>
      subst hg
      exact ⟨rfl, rfl, rfl, rfl, rfl⟩
    · exact ⟨rfl, rfl, rfl, rfl, rfl⟩
  · unfold parkFor freezeQueue
    dsimp only
    split <;> rfl

/-- Settles O13: the lowest of the slots that fault, by induction over the slots; then what taking an exception leaves. -/
theorem preciseFaultSuppressesBundle : Obligations.PreciseFaultSuppressesBundle := by
  intro s h b r k cls addr hrun hstalled hfault _ faults
  refine ⟨?_, fun j d x hj => ?_, ?_⟩
  · obtain ⟨es, fs, i, u, t, hes, hu, hexec, ht⟩ := exists_faulting_slot hrun rfl hfault
    exact ⟨es, fs, i, u, t, hes, hu, hexec, ht⟩
  · obtain ⟨es, fs, i, u, t, hes, hu, hexec, ht⟩ := hj
    rw [hes, runSlots_append, hu] at hrun
    simp only [runSlots, runSlot_fault hexec ht] at hrun
    obtain ⟨f, hf, hle, -⟩ := lowerFault_le u.fault (j, d, x)
    obtain ⟨f', hf', hle'⟩ := fault_le_of_runSlots hrun hf
    rw [hfault] at hf'
    cases hf'
    exact hle'.trans hle
  · have hbundle : runBundle h b s = .next { takePrecise h k cls addr s with focusCtx := h, focusSlot := 0, signal := .none } := by
      simp only [runBundle, hrun, hstalled, hfault]
      rfl
    obtain ⟨hdist, htaken⟩ := takeFault_spec h (preciseInfo h k cls addr s) s
    obtain ⟨hpark, hstore⟩ := distributes_parkFor h (preciseInfo h k cls addr s) s
    refine ⟨_, hbundle, fun g => ?_, hdist.scratch.trans (congrArg Store.scratch hstore), hdist.full.trans (congrArg Store.full hstore),
      ⟨_, htaken, rfl, rfl, rfl, rfl⟩⟩
    obtain ⟨hregs, hcount, hpc, hland, hret⟩ := hpark g
    have hprog := hdist.ctx g
    exact ⟨hprog.regs.trans hregs, hprog.count.trans hcount, hprog.pc.trans hpc, hprog.landing.trans hland, hprog.retired.trans hret⟩

end Sys2Proof.Machine

/-! SUPPORT. The statements on the reset memory's form, on the words that the spec writes out, and on a step that runs an event. -/

namespace Sys2Proof.Machine

/-- Settles O2: reset lists no byte. -/
theorem resetMemoryIsCanonical : Obligations.ResetMemoryIsCanonical := rfl

/-- Settles O5: closed words, decoded. -/
theorem writtenWordsDecode : Obligations.WrittenWordsDecode := by
  unfold Obligations.WrittenWordsDecode
  decide

/-- Settles O6: the move that the agenda names is the event, which stands in no slot. -/
theorem stepRunsNamedEvent : Obligations.StepRunsNamedEvent := by
  intro s i ms hagenda hslot
  have hmove : step s = move (.event i) { s with agenda := ms } := by simp only [step, hagenda]
  rw [hmove, move, hslot]
  rfl

end Sys2Proof.Machine

/-! SUPPORT. O3: every step keeps the canonical form of memory. One lemma for each function of the model that gives a state: one that
never writes memory has an equation (`mem_…`), one that may write it keeps the form (`canonical_…`). -/

namespace Sys2Proof.Machine

@[simp] theorem State.memCanonical_iff (s : State) : s.MemCanonical ↔ Memory.wf s.store.mem = true := Iff.rfl

/-- Whatever a slot or an event answers, the next state's memory has its canonical form. -/
def Out.Canonical (o : Out) : Prop := ∀ t, o = .next t → t.MemCanonical

@[simp] theorem Out.canonical_next (s : State) : Out.Canonical (.next s) ↔ s.MemCanonical :=
  ⟨fun h => h s rfl, fun h _ ht => Host.Outcome.next.inj ht ▸ h⟩

@[simp] theorem Out.canonical_fault (f : Fault) : Out.Canonical (.fault f) := fun _ ht => nomatch ht

@[simp] theorem Out.canonical_refused (r : Refusal) : Out.Canonical (.refused r) := fun _ ht => nomatch ht

@[simp] theorem Out.canonical_ite (c : Prop) [Decidable c] (a b : Out) :
    Out.Canonical (if c then a else b) ↔ if c then Out.Canonical a else Out.Canonical b := by
  split <;> rfl

@[simp] theorem store_ite (c : Prop) [Decidable c] (a b : State) : (if c then a else b).store = if c then a.store else b.store := apply_ite ..

@[simp] theorem mem_ite (c : Prop) [Decidable c] (a b : Store) : (if c then a else b).mem = if c then a.mem else b.mem := apply_ite ..

@[simp] theorem wf_ite (c : Prop) [Decidable c] (a b : List Host.Cell) :
    Memory.wf (if c then a else b) = if c then Memory.wf a else Memory.wf b := apply_ite ..

/-- A fold over a state none of whose steps changes memory changes none. -/
@[simp] theorem mem_foldl {α : Type} {f : State → α → State} (hf : ∀ s x, (f s x).store.mem = s.store.mem) (l : List α) (s : State) :
    (l.foldl f s).store.mem = s.store.mem :=
  foldl_keeps (fun t => t.store.mem = s.store.mem) f l s rfl fun t x ht => (hf t x).trans ht

theorem canonical_foldl {α : Type} {f : State → α → State} (hf : ∀ s x, s.MemCanonical → (f s x).MemCanonical) (l : List α) {s : State}
    (h : s.MemCanonical) : (l.foldl f s).MemCanonical :=
  foldl_keeps State.MemCanonical f l s h hf

/-- A fold over the stores none of whose steps changes memory changes none. -/
@[simp] theorem mem_foldl_store {α : Type} {f : Store → α → Store} (hf : ∀ st x, (f st x).mem = st.mem) (l : List α) (st : Store) :
    (l.foldl f st).mem = st.mem :=
  foldl_keeps (fun t => t.mem = st.mem) f l st rfl fun t x ht => (hf t x).trans ht

theorem canonical_getD {o : Option State} {s : State} (ho : ∀ t, o = some t → t.MemCanonical) (h : s.MemCanonical) : (o.getD s).MemCanonical := by
  cases o with
  | none => exact h
  | some t => exact ho t rfl

section
variable (st : Store) (core addr : Nat)

@[simp] theorem mem_scratchStore (x : W32) : (scratchStore st core addr x).mem = st.mem := rfl
@[simp] theorem mem_scratchCount (x : W32) : (scratchCount st core addr x).mem = st.mem := rfl
@[simp] theorem mem_scratchStoreByte (b : Byte) : (scratchStoreByte st core addr b).mem = st.mem := rfl
@[simp] theorem mem_setFull (b : Bool) : (setFull st core addr b).mem = st.mem := rfl
@[simp] theorem mem_scratchClear (n : Nat) : (scratchClear st core addr n).mem = st.mem := rfl
@[simp] theorem mem_setCarried (k : Nat) (x : Nat × Nat) : (setCarried st k x).mem = st.mem := rfl

@[simp] theorem mem_scratchPutBytes (bs : List Byte) : (scratchPutBytes st core addr bs).mem = st.mem := by
  induction bs generalizing st addr with
  | nil => rfl
  | cons b bs ih => exact ih _ _

@[simp] theorem mem_scratchPutWords (ws : List (Nat × W32)) : (scratchPutWords st core ws).mem = st.mem :=
  mem_foldl_store (fun _ _ => mem_scratchStore ..) ws st

@[simp] theorem mem_setFullRange (n : Nat) (b : Bool) : (setFullRange st core addr n b).mem = st.mem := by
  simp [setFullRange]

@[simp] theorem mem_setMark : (setMark st core addr).mem = st.mem := by
  simp [setMark]

end

@[simp] theorem canonical_effect (s : State) : Out.Canonical (effect s) ↔ s.MemCanonical := Out.canonical_next _

@[simp] theorem canonical_waits (s : State) (h : s.MemCanonical) : Out.Canonical (waits s) := (Out.canonical_next _).mpr h

theorem openHostAtomic_wf (st : Store) (hst : Memory.wf st.mem = true) (line : Nat) : Memory.wf (openHostAtomic st line).mem = true := by
  unfold openHostAtomic
  rw [proxyFetch_mem]
  exact foldl_keeps (fun t => Memory.wf t.mem = true) _ _ st hst fun t e ht => writeBackHost_wf t ht _ _

/-! ### Operations of the state, landing and exceptions -/

@[simp] theorem mem_charge (c n : Nat) (s : State) : (charge c n s).store.mem = s.store.mem := by
  simp [charge]

@[simp] theorem mem_leaveIdle (s : State) : (leaveIdle s).store.mem = s.store.mem := by
  simp [leaveIdle]

@[simp] theorem mem_mapRank (s : State) (i rank : Nat) (f : Ctx → Ctx) : (State.mapRank s i rank f).store.mem = s.store.mem := by
  unfold State.mapRank
  split <;> simp

@[simp] theorem mem_askHost (line : Nat) (s : State) : (askHost line s).store.mem = s.store.mem := by
  simp [askHost]

@[simp] theorem mem_usePort (u : PortUser) (core : Nat) (addrs : List Nat) (s : State) :
    (usePort u core addrs s).store.mem = s.store.mem := by
  simp [usePort]

@[simp] theorem mem_queuePort (u : PortUser) (core : Nat) (addrs : List Nat) (s : State) :
    (queuePort u core addrs s).store.mem = s.store.mem := by
  simp [queuePort]

@[simp] theorem mem_leavePorts (u : PortUser) (s : State) : (leavePorts u s).store.mem = s.store.mem := by
  simp [leavePorts]

@[simp] theorem mem_throughPort (u : PortUser) (core : Nat) (addrs : List Nat) (f : State → State) (hf : ∀ t, (f t).store.mem = t.store.mem)
    (s : State) : (throughPort u core addrs f s).store.mem = s.store.mem := by
  simp [throughPort, hf]

@[simp] theorem mem_engineWrite (core addr : Nat) (data : List Byte) (s : State) :
    (engineWrite core addr data s).store.mem = s.store.mem := by
  simp [engineWrite]

@[simp] theorem mem_pushEntry (h id : Nat) (bytes : List (Nat × Byte)) (s : State) : (pushEntry h id bytes s).store.mem = s.store.mem := by
  simp [pushEntry]

@[simp] theorem mem_keepPush (h : Nat) (p : Pending) (s : State) : (keepPush h p s).store.mem = s.store.mem := by
  simp [keepPush]

@[simp] theorem mem_landPush (h id : Nat) (lanes : List W32) (p : Pending) (s : State) :
    (landPush h id lanes p s).store.mem = s.store.mem := by
  unfold landPush
  dsimp only
  split <;> simp

@[simp] theorem mem_applyPending (h : Nat) (s : State) (p : Pending) : (applyPending h s p).store.mem = s.store.mem := by
  unfold applyPending
  split <;> simp

@[simp] theorem mem_landDue (h : Nat) (s : State) : (landDue h s).store.mem = s.store.mem := by
  simp [landDue]

@[simp] theorem mem_askPushes (h : Nat) (s : State) : (askPushes h s).store.mem = s.store.mem := by
  refine mem_foldl (fun s p => ?_) _ _
  (repeat' split) <;> simp

@[simp] theorem mem_arrive (h : Nat) (d : Deliver) (s : State) : (arrive h d s).store.mem = s.store.mem := by
  simp [arrive]

@[simp] theorem mem_noteWaiters (line : Nat) (s : State) : (noteWaiters line s).store.mem = s.store.mem := by
  simp [noteWaiters]

@[simp] theorem mem_refreshWatch (line : Nat) (s : State) : (refreshWatch line s).store.mem = s.store.mem := by
  simp [refreshWatch]

@[simp] theorem mem_noteDevice (line : Nat) (s : State) : (noteDevice line s).store.mem = s.store.mem := by
  simp [noteDevice]

@[simp] theorem mem_noteWrite (line : Nat) (s : State) : (noteWrite line s).store.mem = s.store.mem := by
  simp [noteWrite]

@[simp] theorem mem_noteCombines (before s : State) : (noteCombines before s).store.mem = s.store.mem := by
  simp [noteCombines]

@[simp] theorem canonical_distStore (pa : Nat) (data : List Byte) (s : State) (h : s.MemCanonical) : (distStore pa data s).MemCanonical := by
  rw [State.memCanonical_iff, distStore_store]
  exact homeStore_wf _ h _ _ _

@[simp] theorem mem_askLines (ls : List Nat) (s : State) : (askLines ls s).store.mem = s.store.mem := by
  simp [askLines]

@[simp] theorem canonical_runActs (as : List DevAct) (s : State) (h : s.MemCanonical) : (runActs as s).MemCanonical := by
  induction as generalizing s with
  | nil => simpa [runActs] using h
  | cons a as ih =>
    cases a with
    | interrupt v => exact ih _ (by simpa using h)
    | write pa data =>
      unfold runActs
      split
      · exact ih _ (canonical_distStore pa data s h)
      · simpa using h

@[simp] theorem canonical_flushActs (s : State) (h : s.MemCanonical) : (flushActs s).MemCanonical := by
  simp [flushActs, h]

@[simp] theorem canonical_distWrite (pa : Nat) (data : List Byte) (s : State) (h : s.MemCanonical) :
    (distWrite pa data s).MemCanonical := by
  simp [distWrite, h]

@[simp] theorem canonical_writeLine (i : Nat) (s : State) (h : s.MemCanonical) : (writeLine i s).MemCanonical := by
  simp [writeLine, h]

@[simp] theorem canonical_writeState (i : Nat) (s : State) (h : s.MemCanonical) : (writeState i s).MemCanonical := by
  simp [writeState, h]

@[simp] theorem mem_sendNotice (i kind : Nat) (s : State) : (sendNotice i kind s).store.mem = s.store.mem := by
  simp [sendNotice]

@[simp] theorem mem_interrupt (vector : Nat) (s : State) : (interrupt vector s).store.mem = s.store.mem := by
  simp [interrupt]

@[simp] theorem canonical_logError (pa source kind die ctx : Nat) (s : State) (h : s.MemCanonical) :
    (logError pa source kind die ctx s).MemCanonical := by
  simp [logError, h]

@[simp] theorem mem_requestHalt (i : Nat) (why : HaltFor) (s : State) : (requestHalt i why s).store.mem = s.store.mem := by
  simp [requestHalt]

@[simp] theorem mem_abandonPreempt (i : Nat) (s : State) : (abandonPreempt i s).store.mem = s.store.mem := by
  unfold abandonPreempt
  split <;> simp

@[simp] theorem canonical_enterEnd (i : Nat) (st : ContState) (cause : Nat) (exit : W64) (s : State) (h : s.MemCanonical) :
    (enterEnd i st cause exit s).MemCanonical := by
  simp [enterEnd, h]

@[simp] theorem canonical_writeFault (i : Nat) (f : FaultInfo) (s : State) (h : s.MemCanonical) : (writeFault i f s).MemCanonical := by
  simp [writeFault, h]

@[simp] theorem canonical_recordRepairable (i : Nat) (f : FaultInfo) (s : State) (h : s.MemCanonical) : (recordRepairable i f s).MemCanonical := by
  have hline := fun t (ht : t.store = (writeFault i f s).store) => canonical_writeLine i t (by simp [ht, h])
  simp only [recordRepairable, State.memCanonical_iff, mem_interrupt]
  exact canonical_distWrite _ _ _ (canonical_distWrite _ _ _ (hline _ rfl))

@[simp] theorem canonical_recordUnrepairable (i : Nat) (f : FaultInfo) (s : State) (h : s.MemCanonical) :
    (recordUnrepairable i f s).MemCanonical := by
  simp [recordUnrepairable, h]

@[simp] theorem canonical_routeFault (h : Nat) (f : FaultInfo) (s : State) (hm : s.MemCanonical) : (routeFault h f s).MemCanonical := by
  unfold routeFault
  dsimp only
  repeat' split
  all_goals simp [hm]

@[simp] theorem mem_freezeQueue (h : Nat) (s : State) : (freezeQueue h s).store.mem = s.store.mem := by
  simp [freezeQueue]

@[simp] theorem mem_parkFor (h : Nat) (f : FaultInfo) (s : State) : (parkFor h f s).store.mem = s.store.mem := by
  simp [parkFor]

@[simp] theorem canonical_takeFault (h : Nat) (f : FaultInfo) (s : State) (hm : s.MemCanonical) : (takeFault h f s).MemCanonical := by
  simp [takeFault, hm]

@[simp] theorem canonical_takePrecise (h slot : Nat) (cls : FaultClass) (addr : Nat) (s : State) (hm : s.MemCanonical) :
    (takePrecise h slot cls addr s).MemCanonical := by
  simp [takePrecise, hm]

@[simp] theorem canonical_takeLate (h : Nat) (f : FaultInfo) (s : State) (hm : s.MemCanonical) : (takeLate h f s).MemCanonical := by
  simp [takeLate, hm]

@[simp] theorem canonical_takeDeferred (h : Nat) (f : FaultInfo) (more : Nat) (s : State) (hm : s.MemCanonical) :
    (takeDeferred h f more s).MemCanonical := by
  simp [takeDeferred, hm]

@[simp] theorem canonical_nextFault (i : Nat) (s : State) (h : s.MemCanonical) : (nextFault i s).MemCanonical := by
  unfold nextFault
  dsimp only
  repeat' split
  all_goals simp [h]

@[simp] theorem canonical_precise (cls : FaultClass) (addr : Nat) (s : State) (h : s.MemCanonical) :
    Out.Canonical (precise cls addr s) := by
  simp [precise, h]

@[simp] theorem canonical_stallOr (b : Bool) {s : State} {k : Out} (h : s.MemCanonical) (hk : k.Canonical) : Out.Canonical (stallOr b s k) := by
  cases b
  · exact hk
  · exact canonical_waits s h

@[simp] theorem canonical_faultOr (b : Bool) (cls : FaultClass) (addr : Nat) {s : State} {k : Out} (h : s.MemCanonical) (hk : k.Canonical) :
    Out.Canonical (faultOr b cls addr s k) := by
  cases b
  · exact hk
  · exact canonical_precise _ _ s h

/-! ### Operands -/

@[simp] theorem canonical_under (c : Check) {s : State} {k : Out} (h : s.MemCanonical) (hk : k.Canonical) : Out.Canonical (under c s k) := by
  cases c
  · exact hk
  · exact canonical_waits s h
  · exact canonical_precise _ _ s h

@[simp] theorem canonical_scalarOp (d : Reg) (srcs : List Reg) (L : Nat) (x : W64) (s : State) (h : s.MemCanonical) :
    Out.Canonical (scalarOp d srcs L x s) := by
  simp [scalarOp, h]

@[simp] theorem mem_popSources (xs : List Reg) (s : State) : (popSources xs s).store.mem = s.store.mem := by
  refine mem_foldl (fun _ _ => ?_) _ _
  rfl

@[simp] theorem mem_landV (d : Reg) (L : Nat) (mask : W64) (x : List W32) (s : State) : (landV d L mask x s).store.mem = s.store.mem := by
  unfold landV
  split <;> simp

@[simp] theorem mem_takeDest (d : Reg) (s : State) : (takeDest d s).store.mem = s.store.mem := by
  unfold takeDest
  split <;> simp

@[simp] theorem mem_landFlags (L : Nat) (fl : Flags5) (s : State) : (landFlags L fl s).store.mem = s.store.mem := by
  simp [landFlags]

@[simp] theorem canonical_vectorOp (d : Reg) (srcs : List Reg) (more : List Check) (L : Nat) (mask : W64) (r : List W32 × Flags5)
    (s : State) (h : s.MemCanonical) :
    Out.Canonical (vectorOp d srcs more L mask r s) := by
  simp [vectorOp, h]

@[simp] theorem canonical_vector1 (d a : Reg) (m : Reg3) (L : Nat) (f : W32 → LaneFlags) (s : State) (h : s.MemCanonical) :
    Out.Canonical (vector1 d a m L f s) := by
  simp [vector1, h]

@[simp] theorem canonical_vector2 (d a : Reg) (b : VSrc) (m : Reg3) (L : Nat) (f : W32 → W32 → LaneFlags) (s : State) (h : s.MemCanonical) :
    Out.Canonical (vector2 d a b m L f s) := by
  simp [vector2, h]

@[simp] theorem canonical_vector3 (d a : Reg) (b : VSrc) (m : Reg3) (L : Nat) (f : W32 → W32 → W32 → LaneFlags) (s : State) (h : s.MemCanonical) :
    Out.Canonical (vector3 d a b m L f s) := by
  simp [vector3, h]

@[simp] theorem mem_issueMem (kind : MemKind) (dest : Option DeliverTo) (width : Nat) (pol : Policy) (perLane : Bool) (items : List Item)
    (s : State) :
    (issueMem kind dest width pol perLane items s).store.mem = s.store.mem := by
  simp [issueMem]

@[simp] theorem mem_issueDeliver (dest : DeliverTo) (value : List W64) (load : Bool) (s : State) :
    (issueDeliver dest value load s).store.mem = s.store.mem := by
  simp [issueDeliver]

@[simp] theorem mem_observeBy (h core addr : Nat) (s : State) : (observeBy h core addr s).store.mem = s.store.mem := by
  simp [observeBy]

@[simp] theorem mem_observeFlip (core addr : Nat) (s : State) : (observeFlip core addr s).store.mem = s.store.mem := by
  simp [observeFlip]

/-! ### Scalar accesses -/

@[simp] theorem canonical_execLd (d a : Reg) (z : Bool) (o : BitVec 11) (p : Policy) (s : State) (h : s.MemCanonical) :
    Out.Canonical (execLd d a z o p s) := by
  simp [execLd, h]

@[simp] theorem canonical_execSt (d a : Reg) (z : Bool) (o : BitVec 11) (p : Policy) (s : State) (h : s.MemCanonical) :
    Out.Canonical (execSt d a z o p s) := by
  simp [execSt, h]

@[simp] theorem canonical_execLds (d a : Reg) (i : BitVec 14) (s : State) (h : s.MemCanonical) : Out.Canonical (execLds d a i s) := by
  simp [execLds, h]

@[simp] theorem canonical_execSts (d a : Reg) (i : BitVec 14) (s : State) (h : s.MemCanonical) : Out.Canonical (execSts d a i s) := by
  simp [execSts, h]

@[simp] theorem mem_enqueueFe (e : FeEntry) (s : State) : (enqueueFe e s).store.mem = s.store.mem := by
  simp [enqueueFe]

@[simp] theorem canonical_execLdf (d a : Reg) (k : Bool) (o : BitVec 13) (s : State) (h : s.MemCanonical) :
    Out.Canonical (execLdf d a k o s) := by
  simp [execLdf, h]

@[simp] theorem canonical_execSte (d a : Reg) (o : BitVec 13) (s : State) (h : s.MemCanonical) : Out.Canonical (execSte d a o s) := by
  simp [execSte, h]

/-! ### Vector accesses -/

@[simp] theorem mem_observeWords (core : Nat) (addrs : List Nat) (s : State) : (observeWords core addrs s).store.mem = s.store.mem := by
  simp [observeWords]

@[simp] theorem canonical_execVld (d a : Reg) (o : BitVec 9) (m : Reg3) (s : State) (h : s.MemCanonical) :
    Out.Canonical (execVld d a o m s) := by
  simp [execVld, h]

@[simp] theorem canonical_execVst (d a : Reg) (o : BitVec 9) (m : Reg3) (s : State) (h : s.MemCanonical) :
    Out.Canonical (execVst d a o m s) := by
  simp [execVst, h]

@[simp] theorem mem_noLanes (dest : DeliverTo) (s : State) : (noLanes dest s).store.mem = s.store.mem := by
  simp [noLanes]

@[simp] theorem canonical_execVldf (d a : Reg) (o : BitVec 9) (m : Reg3) (k : Bool) (s : State) (h : s.MemCanonical) :
    Out.Canonical (execVldf d a o m k s) := by
  simp [execVldf, h]

@[simp] theorem canonical_execVste (d a : Reg) (o : BitVec 9) (m : Reg3) (s : State) (h : s.MemCanonical) :
    Out.Canonical (execVste d a o m s) := by
  simp [execVste, h]

@[simp] theorem canonical_loadLanes (d : Reg) (mask : W64) (pol : Policy) (perLane : Bool) (items : List Item) (more : List Check)
    (srcs : List Reg) (s : State) (h : s.MemCanonical) :
    Out.Canonical (loadLanes d mask pol perLane items more srcs s) := by
  simp [loadLanes, h]

@[simp] theorem canonical_storeLanes (pol : Policy) (perLane : Bool) (items : List Item) (more : List Check) (srcs : List Reg) (s : State)
    (h : s.MemCanonical) :
    Out.Canonical (storeLanes pol perLane items more srcs s) := by
  simp [storeLanes, h]

@[simp] theorem canonical_execVldm (d a : Reg) (o : BitVec 9) (m : Reg3) (p : Policy) (s : State) (h : s.MemCanonical) :
    Out.Canonical (execVldm d a o m p s) := by
  simp [execVldm, h]

@[simp] theorem canonical_execVstm (d a : Reg) (o : BitVec 9) (m : Reg3) (p : Policy) (s : State) (h : s.MemCanonical) :
    Out.Canonical (execVstm d a o m p s) := by
  simp [execVstm, h]

@[simp] theorem canonical_execVgath (d a i : Reg) (m : Reg3) (p : Policy) (s : State) (h : s.MemCanonical) :
    Out.Canonical (execVgath d a i m p s) := by
  simp [execVgath, h]

@[simp] theorem canonical_execVscat (d a i : Reg) (m : Reg3) (p : Policy) (s : State) (h : s.MemCanonical) :
    Out.Canonical (execVscat d a i m p s) := by
  simp [execVscat, h]

@[simp] theorem canonical_execFeset (d a : Reg) (f : Bool) (s : State) (h : s.MemCanonical) : Out.Canonical (execFeset d a f s) := by
  simp [execFeset, h]

@[simp] theorem canonical_execSbind (d : Reg) (w : Bool) (n : Reg4) (s : State) (h : s.MemCanonical) :
    Out.Canonical (execSbind d w n s) := by
  simp [execSbind, h]

@[simp] theorem canonical_execSfree (d : Reg) (s : State) (h : s.MemCanonical) : Out.Canonical (execSfree d s) := by
  simp [execSfree, h]

@[simp] theorem canonical_execHold (a b c d : BitVec 5) (n : BitVec 4) (s : State) (h : s.MemCanonical) :
    Out.Canonical (execHold a b c d n s) := by
  simp [execHold, h]

/-! ### The matrix family -/

@[simp] theorem mem_setTileRow (h t row : Nat) (x : List W32) (s : State) : (setTileRow h t row x s).store.mem = s.store.mem := by
  simp [setTileRow]

@[simp] theorem mem_setTile (h t : Nat) (rows : List (List W32)) (s : State) : (setTile h t rows s).store.mem = s.store.mem := by
  simp [setTile]

@[simp] theorem mem_enqueueTile (t : Reg2) (k : MatKind) (start : Nat) (walk : List W64) (s : State) :
    (enqueueTile t k start walk s).store.mem = s.store.mem := by
  simp [enqueueTile]

@[simp] theorem canonical_execMma (t : Reg2) (a b : Reg3) (x y : MatType) (z sc : Bool) (s : State) (h : s.MemCanonical) :
    Out.Canonical (execMma t a b x y z sc s) := by
  simp [execMma, h]

@[simp] theorem canonical_execTzero (t : Reg2) (s : State) (h : s.MemCanonical) : Out.Canonical (execTzero t s) := by
  simp [execTzero, h]

@[simp] theorem canonical_transfer (t : Reg2) (g : Reg) (n : Reg4) (k : MatKind) (s : State) (h : s.MemCanonical) :
    Out.Canonical (transfer t g n k s) := by
  simp [transfer, h]

@[simp] theorem canonical_execTld (t : Reg2) (g : Reg) (n : Reg4) (s : State) (h : s.MemCanonical) : Out.Canonical (execTld t g n s) := by
  simp [execTld, h]

@[simp] theorem canonical_execTst (t : Reg2) (g : Reg) (n : Reg4) (s : State) (h : s.MemCanonical) : Out.Canonical (execTst t g n s) := by
  simp [execTst, h]

@[simp] theorem canonical_execTcvt (t : Reg2) (g : Reg) (n : Reg4) (x : MatType) (r : Rounding) (q : Bool) (s : State) (h : s.MemCanonical) :
    Out.Canonical (execTcvt t g n x r q s) := by
  simp [execTcvt, h]

@[simp] theorem mem_setRing (h n : Nat) (k : Ring) (s : State) : (setRing h n k s).store.mem = s.store.mem := by
  simp [setRing]

@[simp] theorem canonical_execRdef (n : Reg3) (a b : Reg) (s : State) (h : s.MemCanonical) : Out.Canonical (execRdef n a b s) := by
  simp [execRdef, h]

@[simp] theorem canonical_execRpush (n : Reg3) (c : BitVec 8) (s : State) (h : s.MemCanonical) : Out.Canonical (execRpush n c s) := by
  simp [execRpush, h]

@[simp] theorem canonical_execRstat (n : Reg3) (d : Reg) (s : State) (h : s.MemCanonical) : Out.Canonical (execRstat n d s) := by
  simp [execRstat, h]

@[simp] theorem canonical_execScl (side : Bool) (a : Reg) (s : State) (h : s.MemCanonical) : Out.Canonical (execScl side a s) := by
  simp [execScl, h]

@[simp] theorem mem_refillQueue (c : Nat) (s : State) : (refillQueue c s).store.mem = s.store.mem := by
  simp [refillQueue]

@[simp] theorem canonical_execMatrixOpStart (c : Nat) (s : State) (h : s.MemCanonical) : Out.Canonical (execMatrixOpStart c s) := by
  unfold execMatrixOpStart
  dsimp only
  repeat' split
  all_goals simp [h]

@[simp] theorem mem_popRing (h n count : Nat) (s : State) : (popRing h n count s).store.mem = s.store.mem := by
  simp [popRing]

@[simp] theorem mem_raiseAtRetire (h age : Nat) (fl : Flags5) (s : State) : (raiseAtRetire h age fl s).store.mem = s.store.mem := by
  simp [raiseAtRetire]

@[simp] theorem mem_perform (o : MatOp) (s : State) : (o.perform s).2.store.mem = s.store.mem := by
  unfold MatOp.perform
  split <;> simp

@[simp] theorem mem_MatOp_retire (o : MatOp) (s : State) : (MatOp.retire o s).store.mem = s.store.mem := by
  unfold MatOp.retire
  split <;> simp

@[simp] theorem mem_throughArray (c : Nat) (o : MatOp) (f : MatOp → State → State) (hf : ∀ o t, (f o t).store.mem = t.store.mem) (s : State) :
    (throughArray c o f s).store.mem = s.store.mem := by
  simp [throughArray, hf]

@[simp] theorem mem_stepArray (c : Nat) (o : MatOp) (s : State) : (stepArray c o s).store.mem = s.store.mem :=
  mem_throughArray c o _ (fun _ _ => by rfl) s

@[simp] theorem canonical_execMatrixOpRetire (c : Nat) (s : State) (h : s.MemCanonical) : Out.Canonical (execMatrixOpRetire c s) := by
  unfold execMatrixOpRetire
  split
  · simpa using h
  · rw [Out.canonical_next, State.memCanonical_iff, mem_throughArray _ _ _ (fun _ _ => by simp)]
    exact h

/-! ### Translation -/

@[simp] theorem mem_translate (core asid : Nat) (va : W64) (q : Requester) (s : State) :
    (translate core asid va q s).2.store.mem = s.store.mem := by
  unfold translate
  (repeat' split) <;> rfl

@[simp] theorem canonical_logWalk (core h : Nat) (w : Walked) (s : State) (hm : s.MemCanonical) : (logWalk core h w s).MemCanonical := by
  unfold logWalk
  split <;> simp [hm]

/-! ### The engines -/

@[simp] theorem mem_countObject (core addr b : Nat) (arrive : Bool) (st : Store) : (countObject core addr b arrive st).mem = st.mem := rfl

@[simp] theorem mem_markError (core addr n : Nat) (st : Store) : (markError core addr n st).mem = st.mem := rfl

@[simp] theorem mem_endWaits (s : State) : (endWaits s).store.mem = s.store.mem := by
  simp [endWaits]

@[simp] theorem mem_releaseTo (core obj ts : Nat) (s : State) : (releaseTo core obj ts s).store.mem = s.store.mem := by
  simp [releaseTo]

@[simp] theorem mem_carryFlip (core obj : Nat) (before : Bool) (s : State) : (carryFlip core obj before s).store.mem = s.store.mem := by
  simp [carryFlip]

@[simp] theorem mem_countAt (core addr b : Nat) (arrive : Bool) (s : State) : (countAt core addr b arrive s).store.mem = s.store.mem := by
  simp only [countAt, mem_endWaits, mem_carryFlip, State.store_mapStore, mem_countObject]

@[simp] theorem mem_engineUpdate (u : PortUser) (core addr : Nat) (f : State → State) (hf : ∀ t, (f t).store.mem = t.store.mem) (s : State) :
    (engineUpdate u core addr f s).store.mem = s.store.mem := by
  simp [engineUpdate, hf]

theorem canonical_engineUpdate {u : PortUser} {core addr : Nat} {f : State → State} (hf : ∀ t, t.MemCanonical → (f t).MemCanonical) {s : State}
    (h : s.MemCanonical) : (engineUpdate u core addr f s).MemCanonical := by
  have hu : (usePort u core [addr] s).MemCanonical := by simpa using h
  simp only [engineUpdate, throughPort]
  split
  · split
    · exact hf _ hu
    · simpa using h
  · exact h

@[simp] theorem canonical_execBini (a n k : Reg) (s : State) (h : s.MemCanonical) : Out.Canonical (execBini a n k s) := by
  simp [execBini, h]

@[simp] theorem canonical_execBarv (a b : Reg) (r : Bool) (s : State) (h : s.MemCanonical) : Out.Canonical (execBarv a b r s) := by
  simp [execBarv, h]

@[simp] theorem canonical_execBwait (a p : Reg) (s : State) (h : s.MemCanonical) : Out.Canonical (execBwait a p s) := by
  simp [execBwait, h]

@[simp] theorem canonical_execPbar (l : Reg2) (g : Option Bool) (x : Bool) (s : State) (h : s.MemCanonical) :
    Out.Canonical (execPbar l g x s) := by
  simp [execPbar, h]

@[simp] theorem canonical_atomic (op : AtomicOp) (d a b c : Reg) (w : Bool) (s : State) (h : s.MemCanonical) :
    Out.Canonical (atomic op d a b c w s) := by
  simp [atomic, h]

@[simp] theorem canonical_execAtadd (d a b : Reg) (w : Bool) (s : State) (h : s.MemCanonical) : Out.Canonical (execAtadd d a b w s) := by
  simp [execAtadd, h]

@[simp] theorem canonical_execAtand (d a b : Reg) (w : Bool) (s : State) (h : s.MemCanonical) : Out.Canonical (execAtand d a b w s) := by
  simp [execAtand, h]

@[simp] theorem canonical_execAtor (d a b : Reg) (w : Bool) (s : State) (h : s.MemCanonical) : Out.Canonical (execAtor d a b w s) := by
  simp [execAtor, h]

@[simp] theorem canonical_execAtxor (d a b : Reg) (w : Bool) (s : State) (h : s.MemCanonical) : Out.Canonical (execAtxor d a b w s) := by
  simp [execAtxor, h]

@[simp] theorem canonical_execAtmin (d a b : Reg) (w sg : Bool) (s : State) (h : s.MemCanonical) :
    Out.Canonical (execAtmin d a b w sg s) := by
  simp [execAtmin, h]

@[simp] theorem canonical_execAtmax (d a b : Reg) (w sg : Bool) (s : State) (h : s.MemCanonical) :
    Out.Canonical (execAtmax d a b w sg s) := by
  simp [execAtmax, h]

@[simp] theorem canonical_execAtswp (d a b : Reg) (w : Bool) (s : State) (h : s.MemCanonical) : Out.Canonical (execAtswp d a b w s) := by
  simp [execAtswp, h]

@[simp] theorem canonical_execAtcas (d a b c : Reg) (w : Bool) (s : State) (h : s.MemCanonical) :
    Out.Canonical (execAtcas d a b c w s) := by
  simp [execAtcas, h]

@[simp] theorem canonical_execCrng (n : Reg2) (b l : Reg) (t : ElemType) (o : RedOp) (s : State) (h : s.MemCanonical) :
    Out.Canonical (execCrng n b l t o s) := by
  simp [execCrng, h]

@[simp] theorem canonical_execCadd (v a : Reg) (m : Reg3) (s : State) (h : s.MemCanonical) : Out.Canonical (execCadd v a m s) := by
  unfold execCadd
  dsimp only
  split <;> simp [h]

@[simp] theorem canonical_startChannel (ch : Channel) (s : State) (h : s.MemCanonical) : Out.Canonical (startChannel ch s) := by
  unfold startChannel
  dsimp only
  split <;> simp [h]

@[simp] theorem canonical_execCopy (gs gd : Reg) (ws wd : Reg4) (gb : Reg) (s : State) (h : s.MemCanonical) :
    Out.Canonical (execCopy gs gd ws wd gb s) := by
  simp [execCopy, h]

@[simp] theorem canonical_cacheWalk (kind : CopyKind) (a l b : Reg) (s : State) (h : s.MemCanonical) :
    Out.Canonical (cacheWalk kind a l b s) := by
  simp [cacheWalk, h]

@[simp] theorem canonical_execRflush (a l b : Reg) (s : State) (h : s.MemCanonical) : Out.Canonical (execRflush a l b s) := by
  simp [execRflush, h]

@[simp] theorem canonical_execRinv (a l b : Reg) (s : State) (h : s.MemCanonical) : Out.Canonical (execRinv a l b s) := by
  simp [execRinv, h]

theorem acquireOwn_loads_wf {st : Store} (hst : Memory.wf st.mem = true) {core line pts lease : Nat} {pol : Policy} {l2 : Option Copy} {t : Store}
    (ht : (match pol, l2 with
          | .own, _ => acquireOwn st core line
          | .si, some c => if c.state = .shared ∧ !holdsPartial st core line then some (loadAtL2 st core line .si pts lease c).2.2
                           else (loadAtHome st core line .si pts lease).map (·.2.2)
          | .si, none => (loadAtHome st core line .si pts lease).map (·.2.2)
          | _, _ => (serveLoad st core line .wi pts lease).map (·.2.2)) = some t) : Memory.wf t.mem = true := by
  have hhome : ∀ {t}, (loadAtHome st core line .si pts lease).map (·.2.2) = some t → Memory.wf t.mem = true := fun ht => by
    obtain ⟨r, hr, rfl⟩ := Option.map_eq_some_iff.mp ht
    exact loadAtHome_wf st hst _ _ _ _ _ r hr
  split at ht
  · exact acquireOwn_wf st hst _ _ _ ht
  · split at ht
    · exact Option.some.inj ht ▸ loadAtL2_wf st hst _ _ _ _ _ _
    · exact hhome ht
  · exact hhome ht
  · obtain ⟨r, hr, rfl⟩ := Option.map_eq_some_iff.mp ht
    exact serveLoad_wf st hst _ _ _ _ _ r hr

@[simp] theorem canonical_prefetchLine (h core asid pts : Nat) (pol : Policy) (va : Nat) (s : State) (hm : s.MemCanonical) :
    (prefetchLine h core asid pts pol va s).1.MemCanonical := by
  have ht : (translate core asid (BitVec.ofNat 64 va) .prefetch s).2.MemCanonical := by simpa using hm
  unfold prefetchLine
  split <;> rename_i heq <;> rw [heq] at ht
  · dsimp only
    split
    · exact ht
    split
    · exact canonical_logError _ _ _ _ _ _ ht
    split
    · rename_i st hst
      simp only [State.memCanonical_iff, mem_noteCombines]
      split at hst
      · exact Option.some.inj hst ▸ loadHost_wf _ ht _ _ _ _ _
      · exact acquireOwn_loads_wf ht hst
    · simpa using ht
  · exact canonical_logWalk _ _ _ _ ht

@[simp] theorem canonical_runPrefetch (h : Nat) (p : PrefWait) (s : State) (hm : s.MemCanonical) : (runPrefetch h p s).MemCanonical := by
  refine canonical_foldl (fun t va ht => ?_) _ hm
  have hp := canonical_prefetchLine h (coreOf h) (s.cont (s.ctx h).cont).launch.asid p.pts p.policy va t ht
  split <;> rename_i heq <;> rw [heq] at hp
  · exact hp
  · exact hp

@[simp] theorem canonical_runPrefetches (h : Nat) (s : State) (hm : s.MemCanonical) : (runPrefetches h s).MemCanonical := by
  unfold runPrefetches
  dsimp only
  split
  · exact hm
  · exact canonical_foldl (fun t p ht => canonical_runPrefetch h p t ht) _ hm

@[simp] theorem canonical_execPref (a l : Reg) (p : Policy) (s : State) (h : s.MemCanonical) : Out.Canonical (execPref a l p s) := by
  simp [execPref, h]

theorem canonical_engineLoads {core pts lease : Nat} {ls : List Nat} {st : Store} {r : List (Nat × BitVec 512) × Store}
    (hst : Memory.wf st.mem = true) (hr : engineLoads core pts lease ls st = .ok r) : Memory.wf r.2.mem = true := by
  induction ls generalizing st r with
  | nil => cases hr; exact hst
  | cons l ls ih =>
    unfold engineLoads at hr
    split at hr
    · cases hr
    · rename_i x y st' hserve
      cases htail : engineLoads core pts lease ls st' with
      | error e => rw [htail] at hr; cases hr
      | ok q =>
        rw [htail] at hr
        cases hr
        exact ih (st := st') (serveLoad_wf st hst _ _ _ _ _ _ hserve) (r := q) htail

theorem canonical_engineStoreLine {core pts line : Nat} {bytes : List (Nat × Byte)} {s : State} {r : Nat × State} (h : s.MemCanonical)
    (hr : engineStoreLine core pts line bytes s = some r) : r.2.MemCanonical := by
  obtain ⟨q, hq, rfl⟩ := Option.map_eq_some_iff.mp hr
  simp only [State.memCanonical_iff, mem_noteWrite]
  exact serveStore_wf _ h _ _ _ _ _ _ _ _ hq

theorem canonical_engineStores {core pts : Nat} {bytes : List (Nat × Byte)} {ls : List Nat} {s : State} {r : Nat × State} (h : s.MemCanonical)
    (hr : engineStores core pts bytes ls s = .ok r) : r.2.MemCanonical := by
  induction ls generalizing s r with
  | nil => cases hr; exact h
  | cons l ls ih =>
    unfold engineStores at hr
    split at hr
    · cases hr
    · rename_i ts t hline
      cases htail : engineStores core pts bytes ls t with
      | error e => rw [htail] at hr; cases hr
      | ok q =>
        rw [htail] at hr
        cases hr
        exact ih (s := t) (canonical_engineStoreLine h hline) (r := q) htail

@[simp] theorem mem_sendBytes (s : State) (ch : Channel) (xs : List (Spot × Byte)) : (sendBytes s ch xs).store.mem = s.store.mem := by
  refine mem_foldl (fun t e => ?_) _ _
  split <;> rfl

@[simp] theorem mem_cellBytes (xs : List (Spot × Byte)) (s : State) : (cellBytes xs s).store.mem = s.store.mem := by
  refine mem_foldl (fun t e => ?_) _ _
  split <;> simp

@[simp] theorem mem_landChannel (c n off len ts : Nat) (ch : Channel) (s : State) :
    (landChannel c n off len ts ch s).store.mem = s.store.mem := by
  simp [landChannel]

@[simp] theorem mem_usePorts (u : PortUser) (cells : List (Nat × Nat)) (s : State) : (usePorts u cells s).store.mem = s.store.mem := by
  simp [usePorts]

@[simp] theorem mem_queuePorts (u : PortUser) (cells : List (Nat × Nat)) (s : State) : (queuePorts u cells s).store.mem = s.store.mem := by
  simp [queuePorts]

theorem canonical_moveBytes {c n off len : Nat} {ch : Channel} {s t : State} (h : s.MemCanonical) (ht : moveBytes c n off len ch s = some t) :
    t.MemCanonical := by
  unfold moveBytes at ht
  dsimp only at ht
  split at ht
  · cases ht
  split at ht
  · cases ht; simpa using h
  split at ht
  · cases ht; simpa using h
  rename_i lines st hload
  split at ht
  · cases ht; simpa using h
  rename_i ts s' hstore
  cases ht
  have hst : Memory.wf st.mem = true := canonical_engineLoads h hload
  have hs' : s'.MemCanonical := canonical_engineStores (by simpa using hst) hstore
  simpa using hs'

@[simp] theorem flushLine_wf (st : Store) (hst : Memory.wf st.mem = true) (line : Nat) : Memory.wf (flushLine st line).mem = true := by
  unfold flushLine
  dsimp only
  (repeat' split) <;> simp [memPutLine_wf, combineLine_wf, combineInDie_wf, hst]

@[simp] theorem dropEverywhere_wf (st : Store) (hst : Memory.wf st.mem = true) (line : Nat) : Memory.wf (dropEverywhere st line).mem = true := by
  unfold dropEverywhere
  split
  · simpa using hst
  · rw [dropWhere_mem]
    split
    · exact hst
    · exact recallLine_wf st hst line
    · simpa using hst
    · exact hst

@[simp] theorem mem_askWriteBack (line : Nat) (s : State) : (askWriteBack line s).store.mem = s.store.mem := by
  simp [askWriteBack]

@[simp] theorem canonical_logCopyFault (ch : Channel) (addr : Nat) (space : Nat) (dst : Bool) (cls written : Nat) (s : State) (h : s.MemCanonical) :
    (logCopyFault ch addr space dst cls written s).MemCanonical := by
  simp [logCopyFault, h]

theorem canonical_walkLine {c n off : Nat} {ch : Channel} {s t : State} (h : s.MemCanonical) (ht : walkLine c n off ch s = some t) :
    t.MemCanonical := by
  have hw : ∀ va, (translate c ch.asid va .reader s).2.MemCanonical := fun va => by simpa using h
  unfold walkLine at ht
  dsimp only at ht
  split at ht
  · cases ht
  split at ht <;> rename_i heq <;> specialize hw (BitVec.ofNat 64 (ch.srcBase + off)) <;> rw [heq] at hw
  · split at ht <;> cases ht
    · simpa using hw
    · simp only [State.memCanonical_iff, mem_landChannel, mem_noteCombines, State.store_mapStore]
      split
      · exact dropEverywhere_wf _ (by split <;> simp [hw]) _
      · split <;> simp [hw]
  · split at ht
    · cases ht
    · cases ht
      refine canonical_engineUpdate (fun t ht => ?_) hw
      simp only [State.memCanonical_iff, mem_landChannel, State.store_mapStore, mem_markError]
      split
      · exact ht
      · exact canonical_logCopyFault _ _ _ _ _ _ _ (canonical_logWalk _ _ _ _ ht)

@[simp] theorem canonical_execCopyBytesLanded (c ch off n : Nat) (s : State) (h : s.MemCanonical) :
    Out.Canonical (execCopyBytesLanded c ch off n s) := by
  unfold execCopyBytesLanded
  split
  · simpa using h
  split
  · simpa using h
  rename_i k _ _
  split
  · split
    · simpa using h
    · rw [Out.canonical_next]
      exact canonical_getD (fun t ht => canonical_moveBytes h ht) (by simpa using h)
  · rw [Out.canonical_next]
    exact canonical_getD (fun t ht => canonical_walkLine h ht) h

@[simp] theorem canonical_execBarrierCount (c k : Nat) (s : State) (h : s.MemCanonical) : Out.Canonical (execBarrierCount c k s) := by
  unfold execBarrierCount
  repeat' split
  all_goals simp [h]

@[simp] theorem canonical_execBarvUpdate (h : Nat) (s : State) (hm : s.MemCanonical) : Out.Canonical (execBarvUpdate h s) := by
  unfold execBarvUpdate
  dsimp only
  split <;> simp [hm]

@[simp] theorem canonical_logSpot (s : State) (c : Nat) (ch : Channel) (side : Bool) (a : W64) (cls : Nat) (h : s.MemCanonical) :
    (logSpot s c ch side a cls).MemCanonical := by
  unfold logSpot
  dsimp only
  repeat' split
  all_goals simp [h]

@[simp] theorem canonical_execCopyFault (c ch : Nat) (peerError : Option PeerError) (s : State) (h : s.MemCanonical) :
    Out.Canonical (execCopyFault c ch peerError s) := by
  have hlog : ∀ k a space side cls written w (t : State), t.MemCanonical →
      (logCopyFault k a space side cls written (logSpot t c k side w cls)).MemCanonical :=
    fun _ _ _ _ _ _ _ t ht => canonical_logCopyFault _ _ _ _ _ _ _ (canonical_logSpot _ _ _ _ _ _ ht)
  unfold execCopyFault
  split
  · simpa using h
  split
  · simpa using h
  split
  · simpa using h
  dsimp only
  split
  · exact (Out.canonical_next _).mpr (hlog _ _ _ _ _ _ _ _ h)
  split
  · simpa using h
  · rw [Out.canonical_next]
    refine canonical_engineUpdate (fun t ht => ?_) h
    simp only [State.memCanonical_iff, mem_countAt, mem_releaseTo, State.store_mapStore, mem_markError]
    exact hlog _ _ _ _ _ _ _ _ ht

@[simp] theorem canonical_execCopyLost (c : Nat) (lost : LostCopy) (s : State) (h : s.MemCanonical) :
    Out.Canonical (execCopyLost c lost s) := by
  unfold execCopyLost
  dsimp only
  repeat' split
  all_goals simp [h]

@[simp] theorem canonical_execCopyComplete (c ch : Nat) (s : State) (h : s.MemCanonical) : Out.Canonical (execCopyComplete c ch s) := by
  unfold execCopyComplete
  split <;> simp [h]

@[simp] theorem mem_signalLevel3 (i : Nat) (s : State) : (signalLevel3 i s).store.mem = s.store.mem := by
  simp [signalLevel3]

@[simp] theorem canonical_execPbarArrival (h : Nat) (s : State) (hm : s.MemCanonical) : Out.Canonical (execPbarArrival h s) := by
  unfold execPbarArrival
  dsimp only
  split <;> simp [hm]

@[simp] theorem mem_mapPack (s : State) (i : Nat) (rs : List Nat) (f : Ctx → Ctx) : (State.mapPack s i rs f).store.mem = s.store.mem := by
  simp [State.mapPack]

@[simp] theorem canonical_execPbarRelease (h : Nat) (s : State) (hm : s.MemCanonical) : Out.Canonical (execPbarRelease h s) := by
  unfold execPbarRelease
  dsimp only
  split <;> simp [hm]

@[simp] theorem mem_say3 (i n : Nat) (x : Phase3) (s : State) : (say3 i n x s).store.mem = s.store.mem := by
  simp [say3]

@[simp] theorem mem_settlePack3 (s : State) (i : Nat) : (settlePack3 s i).store.mem = s.store.mem := by
  simp [settlePack3]

/-! ### Operations on their way -/

@[simp] theorem canonical_execResultLanding (h : Nat) (s : State) (hm : s.MemCanonical) : Out.Canonical (execResultLanding h s) := by
  simp [execResultLanding, hm]

@[simp] theorem canonical_execDeliver (h k : Nat) (s : State) (hm : s.MemCanonical) : Out.Canonical (execDeliver h k s) := by
  unfold execDeliver
  dsimp only
  split <;> simp [hm]

@[simp] theorem mem_mapOp (h age : Nat) (f : MemOp → MemOp) (s : State) : (mapOp h age f s).store.mem = s.store.mem := by
  simp [mapOp]

theorem mem_translateItems (core asid : Nat) (q : Requester) (xs : List Item) (s : State) :
    (translateItems core asid q xs s).2.store.mem = s.store.mem := by
  induction xs generalizing s with
  | nil => rfl
  | cons x xs ih =>
    have ht := mem_translate core asid x.va q s
    unfold translateItems
    split <;> rename_i heq <;> rw [heq] at ht
    · exact (ih _).trans ht
    · exact ht

@[simp] theorem canonical_failedOp (h : Nat) (o : MemOp) (va : W64) (w : Walked) (s : State) (hm : s.MemCanonical) :
    (failedOp h o va w s).MemCanonical := by
  unfold failedOp
  split <;> simp [hm]

@[simp] theorem canonical_selfPeerFault (h : Nat) (o : MemOp) (s : State) (hm : s.MemCanonical) : (selfPeerFault h o s).MemCanonical := by
  unfold selfPeerFault
  dsimp only
  split <;> simp [hm]

@[simp] theorem canonical_execTranslationResult (h : Nat) (s : State) (hm : s.MemCanonical) : Out.Canonical (execTranslationResult h s) := by
  unfold execTranslationResult
  dsimp only
  split
  · simpa using hm
  rename_i o _
  have ht : (translateItems (coreOf h) (s.cont (s.ctx h).cont).launch.asid o.kind.requester o.items s).2.MemCanonical := by
    rw [State.memCanonical_iff, mem_translateItems]; exact hm
  split <;> (repeat' split) <;> simp [hm, ht]

@[simp] theorem mem_holdBack (h : Nat) (o : MemOp) (s : State) : (holdBack h o s).store.mem = s.store.mem := by
  simp [holdBack]

@[simp] theorem canonical_poisonFault (h : Nat) (o : MemOp) (a : Access) (s : State) (hm : s.MemCanonical) :
    (poisonFault h o a s).MemCanonical := by
  simp [poisonFault, hm]

@[simp] theorem canonical_peerFault (h : Nat) (o : MemOp) (a : Access) (s : State) (hm : s.MemCanonical) :
    (peerFault h o a s).MemCanonical := by
  simp [peerFault, hm]

@[simp] theorem mem_finishAccess (h : Nat) (o : MemOp) (got : List (Nat × W64)) (s : State) :
    (finishAccess h o got s).store.mem = s.store.mem := by
  unfold finishAccess
  dsimp only
  split <;> simp

@[simp] theorem mem_setPts (h ts : Nat) (s : State) : (setPts h ts s).store.mem = s.store.mem := by
  simp [setPts]

@[simp] theorem canonical_performLoad (h : Nat) (o : MemOp) (a : Access) (s : State) (hm : s.MemCanonical) : (performLoad h o a s).MemCanonical := by
  unfold performLoad
  split
  · simp [hm]
  split
  · simpa using hm
  · rename_i x ts st hserve
    have hst := serveLoad_wf _ hm _ _ _ _ _ _ hserve
    simpa using hst

@[simp] theorem canonical_performStore (h : Nat) (o : MemOp) (a : Access) (s : State) (hm : s.MemCanonical) :
    (performStore h o a s).MemCanonical := by
  unfold performStore
  dsimp only
  split
  · simp [hm]
  split
  · simpa using hm
  · rename_i ts st hserve
    have hst := serveStore_wf _ hm _ _ _ _ _ _ _ _ hserve
    simpa using hst

@[simp] theorem canonical_execHomeLoadRequest (h : Nat) (s : State) (hm : s.MemCanonical) : Out.Canonical (execHomeLoadRequest h s) := by
  unfold execHomeLoadRequest
  split <;> simp [hm]

@[simp] theorem canonical_execHomeStoreRequest (h : Nat) (s : State) (hm : s.MemCanonical) : Out.Canonical (execHomeStoreRequest h s) := by
  unfold execHomeStoreRequest
  split <;> simp [hm]

@[simp] theorem canonical_execHomeOwnRequest (h : Nat) (s : State) (hm : s.MemCanonical) : Out.Canonical (execHomeOwnRequest h s) := by
  unfold execHomeOwnRequest
  split <;> simp [hm]

@[simp] theorem canonical_performAtomic (h : Nat) (o : MemOp) (a : Access) (op : AtomicOp) (b c : W64) (s : State) (hm : s.MemCanonical) :
    (performAtomic h o a op b c s).MemCanonical := by
  unfold performAtomic
  split
  · exact hm
  split
  · simpa using hm
  · rename_i old ts st hserve
    have hst := serveAtomic_wf _ hm _ _ _ _ _ _ _ _ hserve
    simpa using hst

@[simp] theorem canonical_execHomeAtomicRequest (h : Nat) (s : State) (hm : s.MemCanonical) : Out.Canonical (execHomeAtomicRequest h s) := by
  have hopen : ∀ line, Memory.wf (openHostAtomic s.store line).mem = true := fun line => openHostAtomic_wf _ hm line
  unfold execHomeAtomicRequest
  (repeat' split) <;> simp [hm, hopen]

@[simp] theorem canonical_execHostWriteCompletion (k : Nat) (s : State) (hm : s.MemCanonical) : Out.Canonical (execHostWriteCompletion k s) := by
  have hback : ∀ who line, Memory.wf (writeBackHost s.store who line).mem = true := fun who line => writeBackHost_wf _ hm who line
  unfold execHostWriteCompletion
  dsimp only
  (repeat' split) <;> simp [hm, hback]

@[simp] theorem canonical_execCaddPartialRequest (h : Nat) (s : State) (hm : s.MemCanonical) : Out.Canonical (execCaddPartialRequest h s) := by
  unfold execCaddPartialRequest
  split
  · simpa using hm
  split
  · split
    · simpa using hm
    split
    · simp [hm]
    dsimp only
    split
    · simpa using hm
    · rename_i ts st hserve
      have hst := serveCombine_wf _ hm _ _ _ _ _ _ _ hserve
      simpa using hst
  · simpa using hm

@[simp] theorem canonical_execStorePerformed (h : Nat) (s : State) (hm : s.MemCanonical) : Out.Canonical (execStorePerformed h s) := by
  unfold execStorePerformed
  split <;> simp [hm]

@[simp] theorem mem_performTake (h : Nat) (e : FeEntry) (d : DeliverTo) (s : State) : (performTake h e d s).store.mem = s.store.mem := by
  have hobserve : ∀ (t : State) (w : Nat × Nat) (f : Ctx → Ctx), (observeBy h (coreOf h) w.2 (t.mapCtx h f)).store.mem = t.store.mem :=
    fun t w f => by simp
  have hempty : ∀ st, (e.words.foldl (fun st w => setFull st (coreOf h) w.2 false) st).mem = st.mem :=
    fun st => mem_foldl_store (fun _ _ => mem_setFull ..) _ _
  simp [performTake, mem_foldl (fun t w => hobserve t w _), hempty]

@[simp] theorem mem_performRelease (h : Nat) (e : FeEntry) (s : State) : (performRelease h e s).store.mem = s.store.mem := by
  refine mem_foldl_store (fun st w => ?_) _ _
  rfl

@[simp] theorem canonical_execFeEntryPerform (h : Nat) (s : State) (hm : s.MemCanonical) : Out.Canonical (execFeEntryPerform h s) := by
  unfold execFeEntryPerform
  dsimp only
  repeat' split
  all_goals simp [hm]

@[simp] theorem canonical_execStreamFetch (h : Nat) (x : StreamWords) (s : State) (hm : s.MemCanonical) : Out.Canonical (execStreamFetch h x s) := by
  unfold execStreamFetch
  dsimp only
  split
  · simpa using hm
  split
  · simpa using hm
  · rw [Out.canonical_next, State.memCanonical_iff, mem_throughPort _ _ _ _ fun _ => by simp]
    exact hm

@[simp] theorem canonical_execHoldLimitExpiry (h : Nat) (s : State) (hm : s.MemCanonical) : Out.Canonical (execHoldLimitExpiry h s) := by
  simp [execHoldLimitExpiry, hm]

@[simp] theorem canonical_parkFault (h : Nat) (p : ParkWait) (w : Walked) (s : State) (hm : s.MemCanonical) :
    (parkFault h p w s).MemCanonical := by
  unfold parkFault
  split <;> simp [hm]

@[simp] theorem canonical_evaluatePark (h : Nat) (p : ParkWait) (s : State) (hm : s.MemCanonical) : (evaluatePark h p s).MemCanonical := by
  have ht := mem_translate (coreOf h) (s.cont (s.ctx h).cont).launch.asid p.va .reader s
  unfold evaluatePark
  dsimp only
  split <;> rename_i heq <;> rw [heq] at ht
  · rename_i t
    have htm : t.MemCanonical := (congrArg (Memory.wf · = true) ht).mpr hm
    split
    · exact canonical_poisonFault _ _ _ _ htm
    split
    · simpa using htm
    rename_i x ts st hserved
    have hst : Memory.wf st.mem = true := by
      split at hserved
      · obtain rfl := congrArg (fun r : Served => r.2.2) (Option.some.inj hserved)
        simpa using htm
      split at hserved
      · cases hserved
      · obtain rfl := congrArg (fun r : Served => r.2.2) (Option.some.inj hserved)
        simpa using readyToRead_wf _ htm _
    simpa using hst
  · exact canonical_parkFault _ _ _ _ ((congrArg (Memory.wf · = true) ht).mpr hm)

@[simp] theorem canonical_execParkWake (h : Nat) (s : State) (hm : s.MemCanonical) : Out.Canonical (execParkWake h s) := by
  unfold execParkWake
  split <;> simp [hm]

@[simp] theorem canonical_execParkPoll (h : Nat) (s : State) (hm : s.MemCanonical) : Out.Canonical (execParkPoll h s) := by
  unfold execParkPoll
  split <;> simp [hm]

/-! ### Directories and the host -/

@[simp] theorem canonical_execRecallOwner (line : Nat) (s : State) (h : s.MemCanonical) : Out.Canonical (execRecallOwner line s) := by
  unfold execRecallOwner
  split <;> simp [recallLine_wf, h]

@[simp] theorem canonical_execInvalidation (line d : Nat) (s : State) (h : s.MemCanonical) : Out.Canonical (execInvalidation line d s) := by
  unfold execInvalidation
  split <;> simp [h]

@[simp] theorem canonical_execCombineRecall (line d : Nat) (s : State) (h : s.MemCanonical) : Out.Canonical (execCombineRecall line d s) := by
  unfold execCombineRecall
  split <;> simp [combineDie_wf, h]

@[simp] theorem canonical_execOwnerWriteback (line : Nat) (s : State) (h : s.MemCanonical) : Out.Canonical (execOwnerWriteback line s) :=
  canonical_execRecallOwner line s h

@[simp] theorem canonical_execEvictionAnnounce (line c : Nat) (s : State) (h : s.MemCanonical) : Out.Canonical (execEvictionAnnounce line c s) := by
  unfold execEvictionAnnounce
  split <;> simp [evictCopy_wf, h]

@[simp] theorem readyForHost_wf (st : Store) (hst : Memory.wf st.mem = true) (line : Nat) (writes : Bool) :
    Memory.wf (readyForHost st line writes).mem = true := by
  simp [readyForHost, readyToWrite_wf, readyToRead_wf, hst]

@[simp] theorem canonical_hostStore (line : Nat) (x : BitVec 512) (mask : BitVec 16) (own : Bool) (s : State) (h : s.MemCanonical) :
    (hostStore line x mask own s).MemCanonical := by
  simp [hostStore, storeAtHome_wf, h]

@[simp] theorem mem_poisonedData (a : Nat) (s : State) : (poisonedData a s).store.mem = s.store.mem := by
  simp [poisonedData]

@[simp] theorem canonical_logHostAccess (pa : Nat) (s : State) (h : s.MemCanonical) : (logHostAccess pa s).MemCanonical := by
  simp [logHostAccess, h]

@[simp] theorem canonical_execBackInvalidationResponse (line : Nat) (dirty : Option (List Byte)) (s : State) (h : s.MemCanonical) :
    Out.Canonical (execBackInvalidationResponse line dirty s) := by
  unfold execBackInvalidationResponse
  dsimp only
  repeat' split
  all_goals simp [h]

@[simp] theorem mem_hostActive (s : State) : (hostActive s).store.mem = s.store.mem := by
  simp [hostActive]

@[simp] theorem canonical_hostLoad (a pa : Nat) (keep : Bool) (s : State) (h : s.MemCanonical) : (hostLoad a pa keep s).MemCanonical := by
  simp [hostLoad, h]

@[simp] theorem canonical_hostReadAt (a : Nat) (keep : Bool) (s : State) (h : s.MemCanonical) : (hostReadAt a keep s).MemCanonical := by
  unfold hostReadAt
  repeat' split
  all_goals simp [h]

@[simp] theorem canonical_execHostRead (a : Nat) (s : State) (h : s.MemCanonical) : Out.Canonical (execHostRead a s) := by
  simp [execHostRead, h]

@[simp] theorem canonical_execHostReadShared (a : Nat) (s : State) (h : s.MemCanonical) : Out.Canonical (execHostReadShared a s) := by
  simp [execHostReadShared, h]

@[simp] theorem canonical_hostWriteAt (a pa : Nat) (data : List Byte) (own : Bool) (s : State) (h : s.MemCanonical) :
    (hostWriteAt a pa data own s).MemCanonical := by
  simp [hostWriteAt, h]

@[simp] theorem canonical_execHostWrite (a : Nat) (data : List Byte) (own : Bool) (s : State) (h : s.MemCanonical) :
    Out.Canonical (execHostWrite a data own s) := by
  unfold execHostWrite
  split
  · simpa using h
  split <;> simp [memPutBytes_wf, h]

@[simp] theorem canonical_hostAtomicAt (a pa : Nat) (op : AtomicOp) (width : Nat) (b c : W64) (s : State) (h : s.MemCanonical) :
    (hostAtomicAt a pa op width b c s).MemCanonical := by
  simp [hostAtomicAt, logHostAccess, storeAtHome_wf, h]

@[simp] theorem canonical_execHostAtomic (a : Nat) (op : AtomicOp) (width : Nat) (b c : W64) (s : State) (h : s.MemCanonical) :
    Out.Canonical (execHostAtomic a op width b c s) := by
  unfold execHostAtomic
  repeat' split
  all_goals simp [h]

@[simp] theorem canonical_execControlFieldWrite (a : Nat) (data : List Byte) (s : State) (h : s.MemCanonical) :
    Out.Canonical (execControlFieldWrite a data s) := by
  simp [execControlFieldWrite, h]

@[simp] theorem canonical_homeDirectoryError (line : Nat) (hostDirty : Option (List Byte)) (dataLost : Bool) (s : State) (h : s.MemCanonical) :
    (homeDirectoryError line hostDirty dataLost s).MemCanonical := by
  have hline := combineLine_wf s.store h line
  have hdie := combineInDie_wf s.store h line
  suffices hlog : ∀ t : State, t.MemCanonical →
      (if dataLost then logError (64 * line) 1 2 (homeDie line) 0xFFFF (logError (64 * line) 1 1 (homeDie line) 0xFFFF t)
        else logError (64 * line) 1 1 (homeDie line) 0xFFFF t).MemCanonical by
    refine hlog _ ?_
    simp
    (repeat' split) <;> simp [memPutLine_wf, hline, hdie]
  intro t ht
  split <;> simp [ht]

@[simp] theorem canonical_dieDirectoryError (d line : Nat) (dataLost : Bool) (s : State) (h : s.MemCanonical) :
    (dieDirectoryError d line dataLost s).MemCanonical := by
  have hdie := combineDie_wf s.store h line d
  have hin := combineInDie_wf s.store h line
  have hs : Memory.wf s.store.mem = true := h
  suffices hlog : ∀ t : State, t.MemCanonical →
      (if dataLost then logError (64 * line) 2 2 d 0xFFFF (logError (64 * line) 2 1 d 0xFFFF t)
        else logError (64 * line) 2 1 d 0xFFFF t).MemCanonical by
    refine hlog _ ?_
    simp
    (repeat' split) <;> simp [memPutLine_wf, hdie, hin, hs]
  intro t ht
  split <;> simp [ht]

@[simp] theorem canonical_execDirectoryError (die : Option Nat) (line : Nat) (hostDirty : Option (List Byte)) (dataLost : Bool)
    (s : State) (h : s.MemCanonical) :
    Out.Canonical (execDirectoryError die line hostDirty dataLost s) := by
  unfold execDirectoryError
  repeat' split
  all_goals simp [h]

@[simp] theorem canonical_execTlbSoftError (k : Nat) (s : State) (h : s.MemCanonical) : Out.Canonical (execTlbSoftError k s) := by
  simp [execTlbSoftError, h]

/-! ### The control family -/

@[simp] theorem mem_branch (t : W64) (s : State) : (branch t s).store.mem = s.store.mem := by
  simp [branch]

@[simp] theorem canonical_execBr (o : BitVec 22) (s : State) (h : s.MemCanonical) : Out.Canonical (execBr o s) := by
  simp [execBr, h]

@[simp] theorem canonical_execBc (sense : Bool) (n : Reg3) (o : BitVec 22) (s : State) (h : s.MemCanonical) :
    Out.Canonical (execBc sense n o s) := by
  simp [execBc, h]

@[simp] theorem canonical_execCall (o : BitVec 22) (s : State) (h : s.MemCanonical) : Out.Canonical (execCall o s) := by
  simp [execCall, h]

@[simp] theorem canonical_execJr (d a : Reg) (s : State) (h : s.MemCanonical) : Out.Canonical (execJr d a s) := by
  simp [execJr, h]

@[simp] theorem canonical_execRet (s : State) (h : s.MemCanonical) : Out.Canonical (execRet s) := by
  simp [execRet, h]

@[simp] theorem mem_landLoop (l : LoopState) (s : State) : (landLoop l s).store.mem = s.store.mem := by
  simp [landLoop]

@[simp] theorem canonical_execLoop (o : BitVec 22) (s : State) (h : s.MemCanonical) : Out.Canonical (execLoop o s) := by
  unfold execLoop
  split <;> simp [h]

@[simp] theorem canonical_execLsetup (a : Reg) (e : BitVec 3) (r : Bool) (s : State) (h : s.MemCanonical) :
    Out.Canonical (execLsetup a e r s) := by
  simp [execLsetup, h]

@[simp] theorem canonical_execWait (l st c t : BitVec 4) (s : State) (h : s.MemCanonical) : Out.Canonical (execWait l st c t s) := by
  simp [execWait, h]

@[simp] theorem canonical_execFenceEng (s : State) (h : s.MemCanonical) : Out.Canonical (execFenceEng s) := by
  simp [execFenceEng, h]

@[simp] theorem mem_releaseStep (h : Nat) (s : State) : (releaseStep h s).1.store.mem = s.store.mem := by
  unfold releaseStep
  dsimp only
  (repeat' split) <;> rfl

@[simp] theorem mem_acquireDrop (h : Nat) (s : State) : (acquireDrop h s).store.mem = s.store.mem := by
  simp [acquireDrop]

@[simp] theorem canonical_execFenceSysAcq (s : State) (h : s.MemCanonical) : Out.Canonical (execFenceSysAcq s) := by
  simp [execFenceSysAcq, h]

@[simp] theorem canonical_execFenceSysRel (s : State) (h : s.MemCanonical) : Out.Canonical (execFenceSysRel s) := by
  simp [execFenceSysRel, h]

@[simp] theorem canonical_execFenceSys (s : State) (h : s.MemCanonical) : Out.Canonical (execFenceSys s) := by
  simp [execFenceSys, h]

@[simp] theorem canonical_execGear (g w : Bool) (s : State) (h : s.MemCanonical) : Out.Canonical (execGear g w s) := by
  simp [execGear, h]

@[simp] theorem canonical_execPhase (o : BitVec 12) (i : BitVec 4) (e : BitVec 3) (m : BitVec 7) (s : State) (h : s.MemCanonical) :
    Out.Canonical (execPhase o i e m s) := by
  simp [execPhase, h]

@[simp] theorem canonical_execDone (a : Reg) (s : State) (h : s.MemCanonical) : Out.Canonical (execDone a s) := by
  simp [execDone, h]

@[simp] theorem mem_goBehind (h : Nat) (s : State) : (goBehind h s).store.mem = s.store.mem := by
  simp [goBehind]

@[simp] theorem canonical_execYield (s : State) (h : s.MemCanonical) : Out.Canonical (execYield s) := by
  simp [execYield, h]

@[simp] theorem canonical_execPark (a b : Reg) (w : Bool) (s : State) (h : s.MemCanonical) : Out.Canonical (execPark a b w s) := by
  simp [execPark, h]

@[simp] theorem canonical_callOwner (code : Nat) (s : State) (h : s.MemCanonical) : Out.Canonical (callOwner code s) := by
  simp [callOwner, h]

@[simp] theorem canonical_execTrap (code : BitVec 20) (s : State) (h : s.MemCanonical) : Out.Canonical (execTrap code s) := by
  simp [execTrap, h]

@[simp] theorem canonical_execBrk (code : BitVec 20) (s : State) (h : s.MemCanonical) : Out.Canonical (execBrk code s) := by
  simp [execBrk, h]

/-! ### The distributor -/

@[simp] theorem canonical_logTroubles (ts : List (Nat × Nat)) (s : State) (h : s.MemCanonical) : (logTroubles ts s).MemCanonical :=
  canonical_foldl (fun _ _ ht => canonical_logError _ _ _ _ _ _ ht) _ h

theorem canonical_distLoad {pa n : Nat} {s : State} {r : Nat × State} (h : s.MemCanonical) (hr : distLoad pa n s = some r) : r.2.MemCanonical := by
  have hlog : (if (dirOf s.store (pa / 64)).poison then logTroubles [(4, 64 * (pa / 64))] s else s).MemCanonical := by
    split
    · exact canonical_logTroubles _ _ h
    · exact h
  unfold distLoad at hr
  dsimp only at hr
  generalize (if (dirOf s.store (pa / 64)).poison then logTroubles [(4, 64 * (pa / 64))] s else s) = t at hr hlog
  split at hr
  · obtain rfl := Option.some.inj hr
    simpa using hlog
  split at hr
  · cases hr
  · obtain rfl := Option.some.inj hr
    simpa using readyToRead_wf _ hlog _

@[simp] theorem canonical_readLines (ls : List Nat) (s : State) (h : s.MemCanonical) : (readLines ls s).MemCanonical := by
  refine canonical_foldl (fun t l ht => ?_) _ h
  split
  · rename_i heq; exact canonical_distLoad ht heq
  · exact ht

@[simp] theorem canonical_withLines (ls : List Nat) (k : State → Out) (s : State) (h : s.MemCanonical) (hk : (k s).Canonical) :
    Out.Canonical (withLines ls k s) := by
  unfold withLines
  split
  · exact hk
  · simpa using h

@[simp] theorem mem_saveWindow (core base size seat pos : Nat) (st : Store) : (saveWindow core base size seat pos st).2.mem = st.mem := rfl

@[simp] theorem mem_saveTile (core phys rank t : Nat) (st : Store) : (saveTile core phys rank t st).2.mem = st.mem := rfl

@[simp] theorem canonical_keepPart (i : Nat) (p : KennelPart) (s : State) (h : s.MemCanonical) : (keepPart i p s).MemCanonical := by
  simp [keepPart, h]

@[simp] theorem canonical_saveSeat (i k : Nat) (x : Seat) (n : Need) (s : State) (h : s.MemCanonical) : (saveSeat i k x n s).MemCanonical := by
  unfold saveSeat
  dsimp only
  apply canonical_foldl fun t e ht => canonical_keepPart _ _ _ (by simpa using ht)
  apply canonical_foldl fun t j ht => canonical_keepPart _ _ _ (by simpa using ht)
  exact canonical_foldl (fun t j ht => by simpa using canonical_keepPart _ _ _ ht) _ h

@[simp] theorem canonical_markKennel (i : Nat) (s : State) (h : s.MemCanonical) : (markKennel i s).MemCanonical := by
  simp [markKennel, h]

@[simp] theorem canonical_saveAll (i : Nat) (s : State) (h : s.MemCanonical) : (saveAll i s).MemCanonical :=
  canonical_foldl (fun _ _ ht => canonical_markKennel _ _ (canonical_saveSeat _ _ _ _ _ ht)) _ h

@[simp] theorem mem_loadScratch (core base : Nat) (bytes : List Byte) (st : Store) : (loadScratch core base bytes st).mem = st.mem := by
  refine mem_foldl_store (fun st w => ?_) _ _
  rfl

@[simp] theorem mem_placeNew (i : Nat) (seats : List Seat) (s : State) : (placeNew i seats s).store.mem = s.store.mem := by
  refine mem_foldl (fun t e => mem_foldl (fun t j => ?_) _ _) _ _
  dsimp only
  split <;> simp

@[simp] theorem mem_foldCounters (i : Nat) (s : State) : (foldCounters i s).store.mem = s.store.mem := by
  simp [foldCounters]

@[simp] theorem mem_clearRoom (core : Nat) (r : Room) (st : Store) : (clearRoom core r st).mem = st.mem := by
  have hw : (r.windows.foldl (fun st w => scratchClear st core w.1 w.2) st).mem = st.mem :=
    mem_foldl_store (fun _ _ => mem_scratchClear ..) _ _
  exact (mem_foldl_store (fun _ _ => mem_saveTile ..) _ _).trans hw

@[simp] theorem mem_freeCont (i : Nat) (s : State) : (freeCont i s).store.mem = s.store.mem := by
  simp [freeCont]

@[simp] theorem mem_settleSeats (i : Nat) (seats : List Seat) (fresh : Bool) (s : State) :
    (settleSeats i seats fresh s).store.mem = s.store.mem := by
  simp [settleSeats]

theorem mem_tryPlace {i : Nat} {except : List Nat} {s t : State} (ht : tryPlace i except s = some t) : t.store.mem = s.store.mem := by
  simp only [tryPlace] at ht
  split at ht
  · obtain ⟨_, _, rfl⟩ := Option.map_eq_some_iff.mp ht; rfl
  split at ht
  · obtain rfl := Option.some.inj ht; rfl
  · obtain ⟨_, _, rfl⟩ := Option.map_eq_some_iff.mp ht; rfl

@[simp] theorem mem_grantSeats (seats : List Seat) (s : State) : (grantSeats seats s).store.mem = s.store.mem := by
  refine mem_foldl (fun t x => ?_) _ _
  rfl

@[simp] theorem canonical_finishPlacing (s : State) (i : Nat) (h : s.MemCanonical) : (finishPlacing s i).MemCanonical := by
  unfold finishPlacing
  split <;> simp [h]

@[simp] theorem canonical_finishPlacings (s : State) (h : s.MemCanonical) : (finishPlacings s).MemCanonical :=
  canonical_foldl (fun t i ht => canonical_finishPlacing t i ht) _ h

theorem mem_preempt {i : Nat} {s t : State} (ht : preempt i s = some t) : t.store.mem = s.store.mem := by
  unfold preempt at ht
  split at ht
  · obtain rfl := Option.some.inj ht; rfl
  · obtain ⟨vs, _, rfl⟩ := Option.map_eq_some_iff.mp ht
    exact mem_foldl (fun t v => by simp) _ _

@[simp] theorem mem_passOver (is : List Nat) (s : State) : (passOver is s).store.mem = s.store.mem := by
  induction is generalizing s with
  | nil => rfl
  | cons i is ih =>
    unfold passOver
    split
    · rename_i hplace; exact (ih _).trans (mem_tryPlace hplace)
    split
    · rename_i hplace; exact (ih _).trans (mem_tryPlace hplace)
    split
    · rename_i hpre; exact mem_preempt hpre
    split
    · rfl
    · exact ih _

@[simp] theorem canonical_pass (s : State) (h : s.MemCanonical) : (pass s).MemCanonical := by
  have hdue : ∀ due, (if s.dev.passDue = due then s else s.mapDev fun d => { d with passDue := due }).MemCanonical := fun due => by
    split <;> exact h
  unfold pass
  dsimp only
  generalize hdue' : (if s.dev.passDue = _ then s else s.mapDev _) = t
  have ht : t.MemCanonical := hdue' ▸ hdue _
  split
  · exact ht
  split
  · simpa using ht
  · simp [ht]

@[simp] theorem canonical_passAgain (s : State) (h : s.MemCanonical) : (passAgain s).MemCanonical := by
  simp [passAgain, h]

@[simp] theorem canonical_enterQueued (i : Nat) (s : State) (h : s.MemCanonical) : (enterQueued i s).MemCanonical := by
  simp [enterQueued, h]

@[simp] theorem canonical_execResourceReport (c : Nat) (s : State) (h : s.MemCanonical) : Out.Canonical (execResourceReport c s) := by
  simp [execResourceReport, h]

@[simp] theorem canonical_execGangIssueStart (i : Nat) (s : State) (h : s.MemCanonical) : Out.Canonical (execGangIssueStart i s) := by
  simp [execGangIssueStart, h]

@[simp] theorem mem_restorePart (i : Nat) (s : State) (p : KennelPart) : (restorePart i s p).store.mem = s.store.mem := by
  unfold restorePart
  dsimp only
  repeat' split
  all_goals simp

@[simp] theorem canonical_execKennelRestore (i : Nat) (s : State) (h : s.MemCanonical) : Out.Canonical (execKennelRestore i s) := by
  unfold execKennelRestore
  dsimp only
  split
  · simpa using h
  refine canonical_withLines _ _ _ h ?_
  have ht := canonical_logTroubles (poisonedLines s (kennelLines (s.cont i))) s h
  split
  · exact (Out.canonical_next _).mpr (canonical_recordUnrepairable _ _ _ ht)
  · refine (Out.canonical_next _).mpr (canonical_writeLine _ _ ?_)
    exact canonical_foldl (fun t p ht => by simpa using ht) _ ht

@[simp] theorem canonical_execPriorityBoost (i : Nat) (s : State) (h : s.MemCanonical) : Out.Canonical (execPriorityBoost i s) := by
  simp [execPriorityBoost, h]

@[simp] theorem canonical_execBlockingTimeout (i : Nat) (s : State) (h : s.MemCanonical) : Out.Canonical (execBlockingTimeout i s) := by
  simp [execBlockingTimeout, h]

@[simp] theorem canonical_execResidencyFloorExpiry (i : Nat) (s : State) (h : s.MemCanonical) :
    Out.Canonical (execResidencyFloorExpiry i s) := by
  simp [execResidencyFloorExpiry, h]

@[simp] theorem mem_haltAll (i : Nat) (s : State) : (haltAll i s).store.mem = s.store.mem := by
  simp [haltAll]

@[simp] theorem canonical_endAndFree (i : Nat) (st : ContState) (cause : Nat) (exit : W64) (s : State) (h : s.MemCanonical) :
    (endAndFree i st cause exit s).MemCanonical := by
  simp [endAndFree, h]

@[simp] theorem canonical_execHaltComplete (i : Nat) (s : State) (h : s.MemCanonical) : Out.Canonical (execHaltComplete i s) := by
  unfold execHaltComplete
  repeat' split
  all_goals simp [h]

@[simp] theorem canonical_takeCommand (i : Nat) (s : State) (h : s.MemCanonical) : (takeCommand i s).MemCanonical := by
  simp [takeCommand, h]

theorem canonical_command {i : Nat} {mine : W64 → Bool} {may : Bool} {ls : List Nat} {act : Nat → State → State} {s : State}
    (hact : ∀ seq t, t.MemCanonical → (act seq t).MemCanonical) (h : s.MemCanonical) : Out.Canonical (command i mine may ls act s) := by
  unfold command
  split
  · simpa using h
  refine canonical_withLines _ _ _ h ?_
  dsimp only
  split
  · exact (Out.canonical_next _).mpr (canonical_takeCommand i s h)
  split
  · exact canonical_withLines _ _ _ h ((Out.canonical_next _).mpr (hact _ _ (canonical_takeCommand i s h)))
  · simpa using h

@[simp] theorem canonical_answer (i seq result : Nat) (s : State) (h : s.MemCanonical) : (answer i seq result s).MemCanonical := by
  simp [answer, h]

@[simp] theorem mem_acknowledged (i seq : Nat) (s : State) : (acknowledged i seq s).store.mem = s.store.mem := by
  simp [acknowledged]

@[simp] theorem mem_takeEarly (i : Nat) (s : State) : (takeEarly i s).store.mem = s.store.mem := by
  have hfold : ∀ as : List EarlyArrival, (as.foldl (fun s a => s.mapCont i (Cont.arrive3 a.src a.level3)) s).store.mem = s.store.mem :=
    fun as => mem_foldl (fun _ _ => by rfl) _ _
  simp only [takeEarly, State.store_mapDev, hfold]

@[simp] theorem canonical_startWith (i seq key : Nat) (s : State) (h : s.MemCanonical) : (startWith i seq key s).MemCanonical := by
  have hread := canonical_readLines (blockLines s i launchLists) s h
  unfold startWith
  dsimp only
  split
  · exact canonical_enterEnd _ _ _ _ _ (canonical_writeFault _ _ _ (canonical_distWrite _ _ _ hread))
  split
  · refine canonical_enterQueued _ _ ?_
    rw [State.memCanonical_iff, mem_takeEarly]
    exact canonical_distWrite _ _ _ hread
  · refine (congrArg (Memory.wf · = true) (mem_foldl (fun _ _ => by simp) _ _)).mpr (canonical_writeState _ _ ?_)
    simp [hread]

@[simp] theorem canonical_execStart (i : Nat) (s : State) (h : s.MemCanonical) : Out.Canonical (execStart i s) := by
  refine canonical_command (fun seq t ht => ?_) h
  split
  · exact canonical_answer _ _ _ _ ht
  have hread := canonical_logTroubles (sealTroubles (readLines (blockLines t i [0x80]) t) i) _ (canonical_readLines (blockLines t i [0x80]) t ht)
  dsimp only
  split
  · exact canonical_answer _ _ _ _ hread
  · exact canonical_startWith _ _ _ _ (canonical_logTroubles _ _ hread)

@[simp] theorem canonical_execParkCmd (i : Nat) (s : State) (h : s.MemCanonical) : Out.Canonical (execParkCmd i s) := by
  refine canonical_command (fun seq t ht => ?_) h
  split <;> simp [ht]

@[simp] theorem canonical_execUnpark (i : Nat) (s : State) (h : s.MemCanonical) : Out.Canonical (execUnpark i s) := by
  refine canonical_command (fun seq t ht => ?_) h
  split
  case h_4 =>
    dsimp only
    split
    · exact canonical_enterQueued _ _ (by simpa using ht)
    · exact canonical_writeState i _ (by simpa using ht)
  all_goals simp [ht]

@[simp] theorem canonical_execKill (i : Nat) (s : State) (h : s.MemCanonical) : Out.Canonical (execKill i s) := by
  refine canonical_command (fun seq t ht => ?_) h
  split <;> simp [ht]

@[simp] theorem canonical_applyDisposition (i seq rank : Nat) (s : State) (h : s.MemCanonical) : (applyDisposition i seq rank s).MemCanonical := by
  have hread := canonical_readLines (blockLines s i [0x1C0]) s h
  unfold applyDisposition
  dsimp only
  split
  · exact canonical_answer _ _ _ _ (canonical_nextFault _ _ (by simpa using hread))
  · simp [hread]
  · exact canonical_answer _ _ _ _ hread

theorem canonical_resumeWith {i seq : Nat} {act : State → State} {s : State} (hact : (act s).MemCanonical) (h : s.MemCanonical) :
    (resumeWith i seq act s).MemCanonical := by
  unfold resumeWith
  split
  · exact canonical_answer _ _ _ _ h
  · exact hact
  · exact hact
  · exact hact
  · exact canonical_answer _ _ _ _ h

@[simp] theorem canonical_execResumeFault (i : Nat) (s : State) (h : s.MemCanonical) : Out.Canonical (execResumeFault i s) := by
  refine canonical_command (fun seq t ht => canonical_resumeWith ?_ ht) h
  split
  · exact canonical_applyDisposition _ _ _ _ ht
  · exact canonical_answer _ _ _ _ ht

@[simp] theorem canonical_execResumeHostCall (i : Nat) (s : State) (h : s.MemCanonical) : Out.Canonical (execResumeHostCall i s) := by
  refine canonical_command (fun seq t ht => canonical_resumeWith ?_ ht) h
  split
  · have hread := canonical_readLines (blockLines t i [0xC0]) t ht
    refine canonical_answer _ _ _ _ ?_
    simp only [State.memCanonical_iff, State.store_mapCont]
    split
    · simpa using hread
    · simpa using hread
  · exact canonical_answer _ _ _ _ ht

@[simp] theorem canonical_execRefresh (i : Nat) (s : State) (h : s.MemCanonical) : Out.Canonical (execRefresh i s) :=
  canonical_command (fun _ _ ht => canonical_writeState _ _ (by simpa using ht)) h

@[simp] theorem canonical_execMalformedCommand (i : Nat) (s : State) (h : s.MemCanonical) : Out.Canonical (execMalformedCommand i s) :=
  canonical_command (fun _ _ ht => canonical_answer _ _ _ _ ht) h

@[simp] theorem mem_dropRegistryWake (i : Nat) (s : State) : (dropRegistryWake i s).store.mem = s.store.mem := by
  simp [dropRegistryWake]

theorem canonical_servingEntry {i : Nat} {k : State → Out} {s : State} (hk : (k s).Canonical) (h : s.MemCanonical) :
    Out.Canonical (servingEntry i k s) := by
  unfold servingEntry
  split
  · exact canonical_withLines _ _ _ h hk
  · simpa using h

@[simp] theorem canonical_takeEntry (i : Nat) (s : State) (h : s.MemCanonical) : (takeEntry i s).MemCanonical := by
  simp [takeEntry, h]

@[simp] theorem canonical_execRegisterBlock (i : Nat) (s : State) (h : s.MemCanonical) : Out.Canonical (execRegisterBlock i s) := by
  refine canonical_servingEntry ?_ h
  have htake := canonical_takeEntry i s h
  dsimp only
  split
  · simpa using h
  split
  · exact (Out.canonical_next _).mpr htake
  · exact (Out.canonical_next _).mpr (canonical_writeState _ _ (by simpa using htake))

@[simp] theorem canonical_execUnregisterBlock (i : Nat) (s : State) (h : s.MemCanonical) : Out.Canonical (execUnregisterBlock i s) := by
  refine canonical_servingEntry ?_ h
  have htake := canonical_takeEntry i s h
  dsimp only
  split
  · simpa using h
  split
  · exact (Out.canonical_next _).mpr htake
  split
  · split
    · simpa using htake
    · simpa using h
  · exact (Out.canonical_next _).mpr (canonical_logError _ _ _ _ _ _ (canonical_distWrite _ _ _ htake))

@[simp] theorem canonical_evaluateList (asid : Nat) (es : List (W64 × W64)) (s : State) (h : s.MemCanonical) :
    (evaluateList asid es s).2.MemCanonical := by
  induction es generalizing s with
  | nil => exact h
  | cons e es ih =>
    unfold evaluateList
    split
    · exact canonical_logTroubles _ _ h
    split
    · simpa using h
    · rename_i hload
      exact ih _ (canonical_distLoad h hload)

@[simp] theorem canonical_evaluateWaits (i : Nat) (s : State) (h : s.MemCanonical) : (evaluateWaits i s).MemCanonical := by
  have hlist := canonical_evaluateList (s.cont i).launch.asid (s.cont i).launch.waits s h
  unfold evaluateWaits
  dsimp only
  split <;> rename_i heq <;> rw [heq] at hlist
  · exact hlist
  split
  · refine (congrArg (Memory.wf · = true) (mem_foldl (fun _ _ => by simp) _ _)).mpr (canonical_enterQueued _ _ ?_)
    exact hlist
  · exact hlist

@[simp] theorem canonical_execWaitListEvaluation (i : Nat) (s : State) (h : s.MemCanonical) :
    Out.Canonical (execWaitListEvaluation i s) := by
  simp [execWaitListEvaluation, h]

@[simp] theorem canonical_execWaitListPoll (i : Nat) (s : State) (h : s.MemCanonical) : Out.Canonical (execWaitListPoll i s) := by
  simp [execWaitListPoll, h]

@[simp] theorem canonical_execWatchdogExpiry (i : Nat) (s : State) (h : s.MemCanonical) : Out.Canonical (execWatchdogExpiry i s) := by
  simp [execWatchdogExpiry, h]

@[simp] theorem canonical_execWatchdogStage2 (i : Nat) (s : State) (h : s.MemCanonical) : Out.Canonical (execWatchdogStage2 i s) := by
  simp [execWatchdogStage2, h]

@[simp] theorem canonical_execWatchdogStage3 (i c : Nat) (s : State) (h : s.MemCanonical) : Out.Canonical (execWatchdogStage3 i c s) := by
  have hfence : ∀ xs : List Nat, (xs.foldl (fun s x => s.mapCore x fun y => { y with fenced := true }) s).store.mem = s.store.mem :=
    fun xs => mem_foldl (fun _ _ => by rfl) _ _
  unfold execWatchdogStage3
  dsimp only
  split
  · simp [hfence, h]
  · simpa using h

@[simp] theorem mem_shiftTimes (n : Nat) (s : State) : (shiftTimes n s).store.mem = s.store.mem := by
  simp [shiftTimes]

theorem mem_rebaseRequests (runs : List Nat) (s : State) :
    (runs.foldl (fun s i => if (s.cont i).halt.isNone then requestHalt i .rebase s else s) s).store.mem = s.store.mem :=
  mem_foldl (fun _ _ => by simp) _ _

@[simp] theorem canonical_execTimestampRebase (s : State) (h : s.MemCanonical) : Out.Canonical (execTimestampRebase s) := by
  have hclear : ∀ (runs : List Nat) (t : State),
      (runs.foldl (fun s i => s.mapCont i fun c => { c with halt := none }) t).store.mem = t.store.mem :=
    fun runs t => mem_foldl (fun _ _ => by rfl) _ _
  unfold execTimestampRebase
  dsimp only
  split
  · split
    · refine (Out.canonical_next _).mpr (canonical_pass _ ?_)
      simpa [hclear] using h
    · simpa [mem_rebaseRequests] using h
  split
  · simpa [mem_rebaseRequests] using h
  · simpa using h

@[simp] theorem canonical_execPtsTick (s : State) (h : s.MemCanonical) : Out.Canonical (execPtsTick s) := by
  simp [execPtsTick, h]

/-! ### Power -/

@[simp] theorem canonical_execGearSettleStart (c : Nat) (s : State) (h : s.MemCanonical) : Out.Canonical (execGearSettleStart c s) := by
  simp [execGearSettleStart, h]

@[simp] theorem canonical_execGearChangeover (c : Nat) (s : State) (h : s.MemCanonical) : Out.Canonical (execGearChangeover c s) := by
  simp [execGearChangeover, h]

@[simp] theorem canonical_execChangeoverEnd (c : Nat) (s : State) (h : s.MemCanonical) : Out.Canonical (execChangeoverEnd c s) := by
  unfold execChangeoverEnd
  dsimp only
  split <;> simp [h]

@[simp] theorem canonical_execEnergyWindowRoll (c : Nat) (s : State) (h : s.MemCanonical) : Out.Canonical (execEnergyWindowRoll c s) := by
  simp [execEnergyWindowRoll, h]

@[simp] theorem canonical_execEnergyStall (c : Nat) (s : State) (h : s.MemCanonical) : Out.Canonical (execEnergyStall c s) := by
  simp [execEnergyStall, h]

@[simp] theorem canonical_execEmisRunClose (h : Nat) (s : State) (hm : s.MemCanonical) : Out.Canonical (execEmisRunClose h s) := by
  simp [execEmisRunClose, hm]

@[simp] theorem canonical_execSurchargeDecay (h : Nat) (s : State) (hm : s.MemCanonical) : Out.Canonical (execSurchargeDecay h s) := by
  simp [execSurchargeDecay, hm]

@[simp] theorem canonical_execLeashRecompute (d : Nat) (s : State) (h : s.MemCanonical) : Out.Canonical (execLeashRecompute d s) := by
  simp [execLeashRecompute, h]

@[simp] theorem mem_dieToken (t : Nat × State) (d : Nat) : (dieToken t d).2.store.mem = t.2.store.mem := rfl

@[simp] theorem canonical_execTokenRing (s : State) (h : s.MemCanonical) : Out.Canonical (execTokenRing s) := by
  unfold execTokenRing
  split
  · simpa using h
  · simpa [List.foldl] using h

@[simp] theorem mem_raiseBark (d q : Nat) (run : Bool) (s : State) : (raiseBark d q run s).store.mem = s.store.mem := by
  have hfold : ∀ cs : List Nat, (cs.foldl (fun t c => t.mapCore c (Core.takeBark (t.coreHeld c))) s).store.mem = s.store.mem :=
    fun cs => mem_foldl (fun _ _ => by rfl) _ _
  simp only [raiseBark, State.store_mapDev, hfold]

@[simp] theorem canonical_execBark (d q : Nat) (run : Bool) (s : State) (h : s.MemCanonical) : Out.Canonical (execBark d q run s) := by
  simp [execBark, h]

@[simp] theorem canonical_execBarkEnd (c : Nat) (s : State) (h : s.MemCanonical) : Out.Canonical (execBarkEnd c s) := by
  simp [execBarkEnd, h]

@[simp] theorem mem_wakeTrigger (h lanes : Nat) (s : State) : (wakeTrigger h lanes s).store.mem = s.store.mem := by
  simp [wakeTrigger]

@[simp] theorem canonical_execIdleEntry (level : Nat) (s : State) (h : s.MemCanonical) : Out.Canonical (execIdleEntry level s) := by
  unfold execIdleEntry
  split
  · refine canonical_withLines _ _ _ h ?_
    dsimp only
    split
    · simp only [Out.canonical_next, State.memCanonical_iff, State.store_mapDev]
      rw [mem_foldl fun _ _ => by rfl]
      exact canonical_readLines _ s h
    · simpa using h
  · simpa using h

@[simp] theorem canonical_execIdleResume (s : State) (h : s.MemCanonical) : Out.Canonical (execIdleResume s) := by
  simp [execIdleResume, h]

@[simp] theorem canonical_execIssueRotation (h : Nat) (s : State) (hm : s.MemCanonical) : Out.Canonical (execIssueRotation h s) := by
  simp [execIssueRotation, hm]

/-! ### Requests of the host, and the fabric -/

@[simp] theorem canonical_finishShoot (seq status : Nat) (s : State) (h : s.MemCanonical) : (finishShoot seq status s).MemCanonical := by
  simp [finishShoot, h]

@[simp] theorem canonical_takeShoot (s : State) (h : s.MemCanonical) : (takeShoot s).MemCanonical := by
  simp [takeShoot, h]

theorem canonical_shootRequest {mine : Nat → Bool} {act : State → State} {s : State} (hact : (act s).MemCanonical) (h : s.MemCanonical) :
    Out.Canonical (shootRequest mine act s) := by
  unfold shootRequest
  split
  · simpa using h
  refine canonical_withLines _ _ _ h ?_
  split
  · simpa using canonical_takeShoot s h
  split
  · simpa using hact
  · simpa using h

@[simp] theorem canonical_shootDown (drop : Nat → Nat → Nat → Bool) (s : State) (h : s.MemCanonical) : (shootDown drop s).MemCanonical := by
  simp [shootDown, h]

@[simp] theorem canonical_execShootDownRange (s : State) (h : s.MemCanonical) : Out.Canonical (execShootDownRange s) :=
  canonical_shootRequest (by dsimp only; split <;> simp [h]) h

@[simp] theorem canonical_execShootDownAsid (s : State) (h : s.MemCanonical) : Out.Canonical (execShootDownAsid s) :=
  canonical_shootRequest (canonical_shootDown _ _ h) h

@[simp] theorem canonical_execShootDownAll (s : State) (h : s.MemCanonical) : Out.Canonical (execShootDownAll s) :=
  canonical_shootRequest (canonical_shootDown _ _ h) h

@[simp] theorem canonical_execShootDownUnassignedKind (s : State) (h : s.MemCanonical) : Out.Canonical (execShootDownUnassignedKind s) :=
  canonical_shootRequest (canonical_finishShoot _ _ _ (canonical_takeShoot s h)) h

@[simp] theorem canonical_execShootDownComplete (s : State) (h : s.MemCanonical) : Out.Canonical (execShootDownComplete s) := by
  unfold execShootDownComplete
  split <;> simp [h]

@[simp] theorem canonical_takeSeal (s : State) (h : s.MemCanonical) : (takeSeal s).MemCanonical := by
  simp [takeSeal, h]

@[simp] theorem canonical_answerSeal (status : Nat) (s : State) (h : s.MemCanonical) : (answerSeal status s).MemCanonical := by
  simp [answerSeal, h]

theorem canonical_sealRequest {mine : Nat → Bool} {act : State → Out} {s : State} (hact : (act s).Canonical) (h : s.MemCanonical) :
    Out.Canonical (sealRequest mine act s) := by
  unfold sealRequest
  split
  · simpa using h
  refine canonical_withLines _ _ _ h ?_
  split
  · simpa using canonical_takeSeal s h
  split
  · exact hact
  · simpa using h

@[simp] theorem canonical_putVirtual (asid va : Nat) (bs : List Byte) (s : State) (h : s.MemCanonical) : (putVirtual asid va bs s).MemCanonical := by
  induction bs generalizing va s with
  | nil => exact h
  | cons b bs ih =>
    unfold putVirtual
    refine ih _ _ ?_
    split
    · exact canonical_distWrite _ _ _ h
    · exact h

@[simp] theorem canonical_sealImage (asid va : Nat) (s : State) (h : s.MemCanonical) : (sealImage asid va s).MemCanonical := by
  have hlog := canonical_logTroubles (imageTroubles s asid va) s h
  unfold sealImage
  dsimp only
  split
  · exact canonical_answerSeal _ _ hlog
  split
  · exact canonical_answerSeal _ _ hlog
  · refine canonical_answerSeal _ _ ?_
    rename_i r _ _
    generalize judge (logTroubles (imageTroubles s asid va) s) r = j
    have hput := canonical_putVirtual asid (va + 0x80) (leBytes 8 (verdictWord j.1.1 j.1.2)) _ (canonical_putVirtual asid (va + 0x40) j.2 _ hlog)
    split
    · simpa using hput
    · exact hput

@[simp] theorem canonical_execSealImage (s : State) (h : s.MemCanonical) : Out.Canonical (execSealImage s) :=
  canonical_sealRequest (canonical_withLines _ _ _ h (canonical_withLines _ _ _ h ((Out.canonical_next _).mpr (canonical_sealImage _ _ _ h)))) h

@[simp] theorem canonical_releaseSeal (digest : List Byte) (s : State) (h : s.MemCanonical) : (releaseSeal digest s).MemCanonical := by
  unfold releaseSeal
  split <;> simp [h]

@[simp] theorem canonical_execSealRelease (s : State) (h : s.MemCanonical) : Out.Canonical (execSealRelease s) := by
  refine canonical_sealRequest (canonical_withLines _ _ _ h ((Out.canonical_next _).mpr ?_)) h
  split
  · exact canonical_answerSeal _ _ (canonical_logTroubles _ _ h)
  · exact canonical_releaseSeal _ _ (canonical_logTroubles _ _ h)

@[simp] theorem canonical_execSealUnassignedKind (s : State) (h : s.MemCanonical) : Out.Canonical (execSealUnassignedKind s) :=
  canonical_sealRequest ((Out.canonical_next _).mpr (canonical_answerSeal _ _ h)) h

@[simp] theorem canonical_execSealComplete (s : State) (h : s.MemCanonical) : Out.Canonical (execSealComplete s) := by
  unfold execSealComplete
  split <;> simp [h]

@[simp] theorem canonical_writeHost (a : Nat) (data : List Byte) (s : State) (h : s.MemCanonical) : (writeHost a data s).MemCanonical :=
  memPutBytes_wf _ _ _ h

@[simp] theorem canonical_flushFrom (ns : List Notice) (s : State) (h : s.MemCanonical) : (flushFrom ns s).MemCanonical := by
  induction ns generalizing s with
  | nil => exact h
  | cons n ns ih =>
    unfold flushFrom
    split
    · exact ih _ h
    split
    · simpa using h
    · rename_i hload
      refine ih _ ?_
      split
      · exact canonical_distLoad h hload
      · exact canonical_writeHost _ _ _ (canonical_distLoad h hload)

@[simp] theorem canonical_flushNotices (s : State) (h : s.MemCanonical) : (flushNotices s).MemCanonical := by
  unfold flushNotices
  split
  · exact h
  · exact canonical_flushFrom _ _ h

@[simp] theorem canonical_takeAttest (s : State) (h : s.MemCanonical) : (takeAttest s).MemCanonical := by
  simp [takeAttest, h]

@[simp] theorem canonical_execAttestation (s : State) (h : s.MemCanonical) : Out.Canonical (execAttestation s) := by
  have htake := canonical_takeAttest s h
  unfold execAttestation
  split
  · simpa using h
  refine canonical_withLines _ _ _ h ?_
  dsimp only
  split
  · exact (Out.canonical_next _).mpr htake
  · exact (Out.canonical_next _).mpr (canonical_distWrite _ _ _ (canonical_writeHost _ _ _ htake))

@[simp] theorem canonical_execDeviceHeartbeat (s : State) (h : s.MemCanonical) : Out.Canonical (execDeviceHeartbeat s) := by
  simp [execDeviceHeartbeat, h]

@[simp] theorem canonical_execHeartbeatLoss (s : State) (h : s.MemCanonical) : Out.Canonical (execHeartbeatLoss s) := by
  simp [execHeartbeatLoss, h]

@[simp] theorem canonical_refusePeer (src pa cls : Nat) (s : State) (h : s.MemCanonical) : (refusePeer src pa cls s).MemCanonical := by
  simp [refusePeer, h]

@[simp] theorem canonical_peerStore (w : FabricWrite) (s : State) (h : s.MemCanonical) : (peerStore w s).2.MemCanonical := by
  have hst := homeStore_wf s.store h w.addr 0 w.data
  unfold peerStore
  split
  · exact canonical_refusePeer _ _ _ _ h
  split
  · simpa using h
  · simpa using hst

@[simp] theorem mem_setRefused (r : RefusedBytes) (s : State) : (setRefused r s).store.mem = s.store.mem := by
  simp [setRefused]

@[simp] theorem canonical_peerWindow (h : Nat) (w : FabricWrite) (s : State) (hm : s.MemCanonical) : (peerWindow h w s).2.MemCanonical := by
  unfold peerWindow
  dsimp only
  split
  · exact hm
  split
  · simpa using hm
  · dsimp only
    split
    · simpa using hm
    · simp [hm]

@[simp] theorem canonical_serveWrite (w : FabricWrite) (s : State) (h : s.MemCanonical) : (serveWrite w s).2.MemCanonical := by
  unfold serveWrite
  (repeat' split) <;> simp [h]

@[simp] theorem mem_peerCount (h : Nat) (m : BarrierSignal) (s : State) : (peerCount h m s).2.store.mem = s.store.mem := by
  unfold peerCount
  dsimp only
  (repeat' split) <;> simp

@[simp] theorem mem_arriveEarly (m : BarrierSignal) (s : State) : (arriveEarly m s).store.mem = s.store.mem := by
  unfold arriveEarly
  split
  · rfl
  · exact mem_foldl (fun _ _ => by rfl) _ _

@[simp] theorem canonical_serveSignal (m : BarrierSignal) (s : State) (h : s.MemCanonical) : (serveSignal m s).2.MemCanonical := by
  unfold serveSignal
  (repeat' split) <;> simp [h]

@[simp] theorem canonical_servePeerAtomic (r : PeerAtomic) (s : State) (h : s.MemCanonical) : (servePeerAtomic r s).2.MemCanonical := by
  unfold servePeerAtomic
  dsimp only
  split
  · exact h
  split
  · exact canonical_logError _ _ _ _ _ _ h
  split
  · exact canonical_logError _ _ _ _ _ _ h
  split
  · simpa using h
  · rename_i hserve
    have hst := serveAtomic_wf _ h _ _ _ _ _ _ _ _ hserve
    simpa using hst

@[simp] theorem canonical_serveAnswer (x : PeerAnswer) (s : State) (h : s.MemCanonical) : (serveAnswer x s).MemCanonical := by
  unfold serveAnswer
  repeat' split
  all_goals simp [h]

@[simp] theorem canonical_serve (m : FabricMsg) (s : State) (h : s.MemCanonical) : (m.serve s).2.MemCanonical := by
  cases m with
  | write w => exact canonical_serveWrite w s h
  | signal m => exact canonical_serveSignal m s h
  | atomic r => exact canonical_servePeerAtomic r s h
  | answer x => exact canonical_serveAnswer x s h

@[simp] theorem canonical_drainFrom (ms : List FabricMsg) (late : List Nat) (s : State) (h : s.MemCanonical) :
    (drainFrom ms late s).MemCanonical := by
  induction ms generalizing late s with
  | nil => exact h
  | cons m ms ih =>
    have hserve := canonical_serve m s h
    unfold drainFrom
    dsimp only
    split
    · exact ih _ _ h
    split <;> rename_i heq <;> rw [heq] at hserve
    · exact ih _ _ hserve
    · exact ih _ _ hserve

@[simp] theorem canonical_drainFabric (s : State) (h : s.MemCanonical) : (drainFabric s).MemCanonical := by
  unfold drainFabric
  split
  · exact h
  · exact canonical_drainFrom _ _ _ h

@[simp] theorem canonical_arriveFabric (m : FabricMsg) (s : State) (h : s.MemCanonical) : (arriveFabric m s).MemCanonical := by
  simp [arriveFabric, h]

@[simp] theorem canonical_execFabricWrite (w : FabricWrite) (s : State) (h : s.MemCanonical) : Out.Canonical (execFabricWrite w s) := by
  simp [execFabricWrite, h]

@[simp] theorem canonical_execFabricBarrierSignal (src packId : Nat) (level3 : Arrival3) (core pos barrier bytes : Nat)
    (fault : Option Nat) (s : State) (h : s.MemCanonical) :
    Out.Canonical (execFabricBarrierSignal src packId level3 core pos barrier bytes fault s) := by
  simp [execFabricBarrierSignal, h]

@[simp] theorem canonical_execPeerAtomicRequest (r : PeerAtomic) (s : State) (h : s.MemCanonical) :
    Out.Canonical (execPeerAtomicRequest r s) := by
  simp [execPeerAtomicRequest, h]

@[simp] theorem canonical_execPeerAtomicResponse (h : Nat) (error : Bool) (old : W64) (s : State) (hm : s.MemCanonical) :
    Out.Canonical (execPeerAtomicResponse h error old s) := by
  unfold execPeerAtomicResponse
  repeat' split
  all_goals simp [hm]

@[simp] theorem canonical_execFabricPortFailure (port : Nat) (s : State) (h : s.MemCanonical) :
    Out.Canonical (execFabricPortFailure port s) := by
  simp [execFabricPortFailure, h]

theorem memAfterReset_wf {m : List Host.Cell} (h : Memory.wf m = true) : Memory.wf (memAfterReset m) = true := by
  simp only [Memory.wf, Bool.and_eq_true, List.all_eq_true] at h ⊢
  exact ⟨Sparse.rising_filter _ _ h.1, fun e he => h.2 e (List.mem_of_mem_filter he)⟩

@[simp] theorem canonical_execDeviceReset (status : Nat) (s : State) (h : s.MemCanonical) : Out.Canonical (execDeviceReset status s) := by
  unfold execDeviceReset
  split
  · simpa using h
  · exact (Out.canonical_next _).mpr (memAfterReset_wf h)

/-! ### The scalar family -/

@[simp] theorem canonical_execNop (s : State) (h : s.MemCanonical) : Out.Canonical (execNop s) := by
  simp [execNop, h]

@[simp] theorem canonical_execAdd (d a b : Reg) (w : Bool) (s : State) (h : s.MemCanonical) : Out.Canonical (execAdd d a b w s) := by
  simp [execAdd, h]

@[simp] theorem canonical_execSub (d a b : Reg) (w : Bool) (s : State) (h : s.MemCanonical) : Out.Canonical (execSub d a b w s) := by
  simp [execSub, h]

@[simp] theorem canonical_execMul (d a b : Reg) (w : Bool) (s : State) (h : s.MemCanonical) : Out.Canonical (execMul d a b w s) := by
  simp [execMul, h]

@[simp] theorem canonical_execMulh (d a b : Reg) (w : Bool) (s : State) (h : s.MemCanonical) : Out.Canonical (execMulh d a b w s) := by
  simp [execMulh, h]

@[simp] theorem canonical_deliverOp (d : Reg) (srcs : List Reg) (x : W64) (s : State) (h : s.MemCanonical) :
    Out.Canonical (deliverOp d srcs x s) := by
  simp [deliverOp, h]

@[simp] theorem canonical_execDiv (d a b : Reg) (w : Bool) (s : State) (h : s.MemCanonical) : Out.Canonical (execDiv d a b w s) := by
  simp [execDiv, h]

@[simp] theorem canonical_execRem (d a b : Reg) (w : Bool) (s : State) (h : s.MemCanonical) : Out.Canonical (execRem d a b w s) := by
  simp [execRem, h]

@[simp] theorem canonical_execAnd (d a b : Reg) (s : State) (h : s.MemCanonical) : Out.Canonical (execAnd d a b s) := by
  simp [execAnd, h]

@[simp] theorem canonical_execOr (d a b : Reg) (s : State) (h : s.MemCanonical) : Out.Canonical (execOr d a b s) := by
  simp [execOr, h]

@[simp] theorem canonical_execXor (d a b : Reg) (s : State) (h : s.MemCanonical) : Out.Canonical (execXor d a b s) := by
  simp [execXor, h]

@[simp] theorem canonical_execAndn (d a b : Reg) (s : State) (h : s.MemCanonical) : Out.Canonical (execAndn d a b s) := by
  simp [execAndn, h]

@[simp] theorem canonical_execShl (d a b : Reg) (w : Bool) (s : State) (h : s.MemCanonical) : Out.Canonical (execShl d a b w s) := by
  simp [execShl, h]

@[simp] theorem canonical_execShr (d a b : Reg) (w : Bool) (s : State) (h : s.MemCanonical) : Out.Canonical (execShr d a b w s) := by
  simp [execShr, h]

@[simp] theorem canonical_execSra (d a b : Reg) (w : Bool) (s : State) (h : s.MemCanonical) : Out.Canonical (execSra d a b w s) := by
  simp [execSra, h]

@[simp] theorem canonical_execMin (d a b : Reg) (w : Bool) (s : State) (h : s.MemCanonical) : Out.Canonical (execMin d a b w s) := by
  simp [execMin, h]

@[simp] theorem canonical_execMax (d a b : Reg) (w : Bool) (s : State) (h : s.MemCanonical) : Out.Canonical (execMax d a b w s) := by
  simp [execMax, h]

@[simp] theorem canonical_execClz (d a : Reg) (s : State) (h : s.MemCanonical) : Out.Canonical (execClz d a s) := by
  simp [execClz, h]

@[simp] theorem canonical_execPopc (d a : Reg) (s : State) (h : s.MemCanonical) : Out.Canonical (execPopc d a s) := by
  simp [execPopc, h]

@[simp] theorem canonical_execMovGG (d a : Reg) (s : State) (h : s.MemCanonical) : Out.Canonical (execMovGG d a s) := by
  simp [execMovGG, h]

@[simp] theorem mem_landMask (d : Reg3) (x : W64) (s : State) : (landMask d x s).store.mem = s.store.mem := by
  simp [landMask]

@[simp] theorem canonical_execMovMG (d : Reg3) (a : Reg) (s : State) (h : s.MemCanonical) : Out.Canonical (execMovMG d a s) := by
  simp [execMovMG, h]

@[simp] theorem canonical_execMovGM (d : Reg) (a : Reg3) (s : State) (h : s.MemCanonical) : Out.Canonical (execMovGM d a s) := by
  simp [execMovGM, h]

@[simp] theorem canonical_execSel (d a b : Reg) (j : Reg3) (s : State) (h : s.MemCanonical) : Out.Canonical (execSel d a b j s) := by
  simp [execSel, h]

@[simp] theorem canonical_execCmp (n : Reg3) (a b : Reg) (w : Bool) (c : Cond) (s : State) (h : s.MemCanonical) :
    Out.Canonical (execCmp n a b w c s) := by
  simp [execCmp, h]

@[simp] theorem canonical_execAddi (d a : Reg) (i : BitVec 14) (s : State) (h : s.MemCanonical) : Out.Canonical (execAddi d a i s) := by
  simp [execAddi, h]

@[simp] theorem canonical_execLi (d : Reg) (i : BitVec 20) (s : State) (h : s.MemCanonical) : Out.Canonical (execLi d i s) := by
  simp [execLi, h]

@[simp] theorem canonical_execLih (d : Reg) (i : BitVec 20) (s : State) (h : s.MemCanonical) : Out.Canonical (execLih d i s) := by
  simp [execLih, h]

@[simp] theorem canonical_execAddr (d a b : Reg) (sh : BitVec 3) (s : State) (h : s.MemCanonical) :
    Out.Canonical (execAddr d a b sh s) := by
  simp [execAddr, h]

@[simp] theorem canonical_execMand (d a b : Reg3) (s : State) (h : s.MemCanonical) : Out.Canonical (execMand d a b s) := by
  simp [execMand, h]

@[simp] theorem canonical_execMor (d a b : Reg3) (s : State) (h : s.MemCanonical) : Out.Canonical (execMor d a b s) := by
  simp [execMor, h]

@[simp] theorem canonical_execMnot (d a : Reg3) (s : State) (h : s.MemCanonical) : Out.Canonical (execMnot d a s) := by
  simp [execMnot, h]

@[simp] theorem canonical_execMpop (d : Reg) (a : Reg3) (s : State) (h : s.MemCanonical) : Out.Canonical (execMpop d a s) := by
  simp [execMpop, h]

@[simp] theorem canonical_execMfirst (d : Reg) (a : Reg3) (s : State) (h : s.MemCanonical) : Out.Canonical (execMfirst d a s) := by
  simp [execMfirst, h]

@[simp] theorem canonical_execTime (d : Reg) (s : State) (h : s.MemCanonical) : Out.Canonical (execTime d s) := by
  simp [execTime, h]

@[simp] theorem canonical_execCycles (d : Reg) (s : State) (h : s.MemCanonical) : Out.Canonical (execCycles d s) := by
  simp [execCycles, h]

@[simp] theorem canonical_execFmtsetImm (n : Reg2) (r : BitVec 14) (s : State) (h : s.MemCanonical) :
    Out.Canonical (execFmtsetImm n r s) := by
  simp [execFmtsetImm, h]

@[simp] theorem canonical_execFmtsetReg (n : Reg2) (a : Reg) (s : State) (h : s.MemCanonical) : Out.Canonical (execFmtsetReg n a s) := by
  simp [execFmtsetReg, h]

@[simp] theorem mem_issueCounter (d : Reg) (n : SysReg) (x : Nat) (s : State) : (issueCounter d n x s).store.mem = s.store.mem := by
  simp [issueCounter]

@[simp] theorem canonical_execRdsr (d : Reg) (n : SysReg) (s : State) (h : s.MemCanonical) : Out.Canonical (execRdsr d n s) := by
  unfold execRdsr
  split <;> simp [h]

@[simp] theorem canonical_execWrsr (a : Reg) (n : SysReg) (s : State) (h : s.MemCanonical) : Out.Canonical (execWrsr a n s) := by
  unfold execWrsr
  split <;> simp [h]

/-! ### The vector family -/

@[simp] theorem canonical_arith2 (op : ElemOp) (L : Nat) (d a : Reg) (b : VSrc) (m : Reg3) (t : ElemType) (s : State) (h : s.MemCanonical) :
    Out.Canonical (arith2 op L d a b m t s) := by
  simp [arith2, h]

@[simp] theorem canonical_execVadd (d a : Reg) (b : VSrc) (m : Reg3) (t : ElemType) (s : State) (h : s.MemCanonical) :
    Out.Canonical (execVadd d a b m t s) := by
  simp [execVadd, h]

@[simp] theorem canonical_execVsub (d a : Reg) (b : VSrc) (m : Reg3) (t : ElemType) (s : State) (h : s.MemCanonical) :
    Out.Canonical (execVsub d a b m t s) := by
  simp [execVsub, h]

@[simp] theorem canonical_execVmul (d a : Reg) (b : VSrc) (m : Reg3) (t : ElemType) (s : State) (h : s.MemCanonical) :
    Out.Canonical (execVmul d a b m t s) := by
  simp [execVmul, h]

@[simp] theorem canonical_execVmin (d a : Reg) (b : VSrc) (m : Reg3) (t : ElemType) (s : State) (h : s.MemCanonical) :
    Out.Canonical (execVmin d a b m t s) := by
  simp [execVmin, h]

@[simp] theorem canonical_execVmax (d a : Reg) (b : VSrc) (m : Reg3) (t : ElemType) (s : State) (h : s.MemCanonical) :
    Out.Canonical (execVmax d a b m t s) := by
  simp [execVmax, h]

@[simp] theorem canonical_execVfma (d a : Reg) (b : VSrc) (m : Reg3) (t : ElemType) (s : State) (h : s.MemCanonical) :
    Out.Canonical (execVfma d a b m t s) := by
  simp [execVfma, h]

@[simp] theorem canonical_execVabs (d a : Reg) (m : Reg3) (t : ElemType) (s : State) (h : s.MemCanonical) :
    Out.Canonical (execVabs d a m t s) := by
  simp [execVabs, h]

@[simp] theorem canonical_execVneg (d a : Reg) (m : Reg3) (t : ElemType) (s : State) (h : s.MemCanonical) :
    Out.Canonical (execVneg d a m t s) := by
  simp [execVneg, h]

@[simp] theorem canonical_execVand (d a : Reg) (b : VSrc) (m : Reg3) (t : ElemType) (s : State) (h : s.MemCanonical) :
    Out.Canonical (execVand d a b m t s) := by
  simp [execVand, h]

@[simp] theorem canonical_execVor (d a : Reg) (b : VSrc) (m : Reg3) (t : ElemType) (s : State) (h : s.MemCanonical) :
    Out.Canonical (execVor d a b m t s) := by
  simp [execVor, h]

@[simp] theorem canonical_execVxor (d a : Reg) (b : VSrc) (m : Reg3) (t : ElemType) (s : State) (h : s.MemCanonical) :
    Out.Canonical (execVxor d a b m t s) := by
  simp [execVxor, h]

@[simp] theorem canonical_moveLanes (d a : Reg) (L : Nat) (mask : W64) (f : Nat → Nat) (s : State) (h : s.MemCanonical) :
    Out.Canonical (moveLanes d a L mask f s) := by
  simp [moveLanes, h]

@[simp] theorem canonical_execVsel (d a : Reg) (b : VSrc) (m : Reg3) (t : ElemType) (s : State) (h : s.MemCanonical) :
    Out.Canonical (execVsel d a b m t s) := by
  simp [execVsel, h]

@[simp] theorem canonical_execVmov (d a : Reg) (m : Reg3) (t : ElemType) (s : State) (h : s.MemCanonical) :
    Out.Canonical (execVmov d a m t s) := by
  simp [execVmov, h]

@[simp] theorem canonical_execVbcast (d a : Reg) (l : BitVec 6) (m : Reg3) (t : ElemType) (s : State) (h : s.MemCanonical) :
    Out.Canonical (execVbcast d a l m t s) := by
  simp [execVbcast, h]

@[simp] theorem canonical_execVrot (d a : Reg) (n : BitVec 6) (m : Reg3) (t : ElemType) (s : State) (h : s.MemCanonical) :
    Out.Canonical (execVrot d a n m t s) := by
  simp [execVrot, h]

@[simp] theorem canonical_execVperm (d a : Reg) (b : VSrc) (m : Reg3) (t : ElemType) (s : State) (h : s.MemCanonical) :
    Out.Canonical (execVperm d a b m t s) := by
  simp [execVperm, h]

@[simp] theorem canonical_shiftOp (op : ShiftOp) (d a : Reg) (b : VSrc) (m : Reg3) (t : ElemType) (s : State) (h : s.MemCanonical) :
    Out.Canonical (shiftOp op d a b m t s) := by
  simp [shiftOp, h]

@[simp] theorem canonical_execVshl (d a : Reg) (b : VSrc) (m : Reg3) (t : ElemType) (s : State) (h : s.MemCanonical) :
    Out.Canonical (execVshl d a b m t s) := by
  simp [execVshl, h]

@[simp] theorem canonical_execVshr (d a : Reg) (b : VSrc) (m : Reg3) (t : ElemType) (s : State) (h : s.MemCanonical) :
    Out.Canonical (execVshr d a b m t s) := by
  simp [execVshr, h]

@[simp] theorem canonical_execVsra (d a : Reg) (b : VSrc) (m : Reg3) (t : ElemType) (s : State) (h : s.MemCanonical) :
    Out.Canonical (execVsra d a b m t s) := by
  simp [execVsra, h]

@[simp] theorem canonical_execVcmp (c : VCond) (d : Reg3) (a : Reg) (b : VSrc) (m : Reg3) (t : ElemType) (s : State) (h : s.MemCanonical) :
    Out.Canonical (execVcmp c d a b m t s) := by
  simp [execVcmp, h]

@[simp] theorem canonical_execVcvt (d a : Reg) (r : Rounding) (src : ElemType) (m : Reg3) (q : Bool) (t : ElemType) (s : State) (h : s.MemCanonical) :
    Out.Canonical (execVcvt d a r src m q t s) := by
  simp [execVcvt, h]

@[simp] theorem canonical_execVpack (d a : Reg) (q : Bool) (r : Rounding) (t : ElemType) (s : State) (h : s.MemCanonical) :
    Out.Canonical (execVpack d a q r t s) := by
  simp [execVpack, h]

@[simp] theorem canonical_execVunpk (d a : Reg) (p : BitVec 2) (t : ElemType) (s : State) (h : s.MemCanonical) :
    Out.Canonical (execVunpk d a p t s) := by
  simp [execVunpk, h]

@[simp] theorem canonical_execVdot4 (d a : Reg) (b : VSrc) (m : Reg3) (t : ElemType) (s : State) (h : s.MemCanonical) :
    Out.Canonical (execVdot4 d a b m t s) := by
  simp [execVdot4, h]

@[simp] theorem canonical_execVscan (d a : Reg) (m : Reg3) (t : ElemType) (s : State) (h : s.MemCanonical) :
    Out.Canonical (execVscan d a m t s) := by
  simp [execVscan, h]

@[simp] theorem canonical_specialVec (fn : SpecialFn) (d a : Reg) (m : Reg3) (t : ElemType) (s : State) (h : s.MemCanonical) :
    Out.Canonical (specialVec fn d a m t s) := by
  simp [specialVec, h]

@[simp] theorem canonical_execVrcp (d a : Reg) (m : Reg3) (t : ElemType) (s : State) (h : s.MemCanonical) :
    Out.Canonical (execVrcp d a m t s) := by
  simp [execVrcp, h]

@[simp] theorem canonical_execVrsq (d a : Reg) (m : Reg3) (t : ElemType) (s : State) (h : s.MemCanonical) :
    Out.Canonical (execVrsq d a m t s) := by
  simp [execVrsq, h]

@[simp] theorem canonical_execVsqrt (d a : Reg) (m : Reg3) (t : ElemType) (s : State) (h : s.MemCanonical) :
    Out.Canonical (execVsqrt d a m t s) := by
  simp [execVsqrt, h]

@[simp] theorem canonical_execVexp2 (d a : Reg) (m : Reg3) (t : ElemType) (s : State) (h : s.MemCanonical) :
    Out.Canonical (execVexp2 d a m t s) := by
  simp [execVexp2, h]

@[simp] theorem canonical_execVlog2 (d a : Reg) (m : Reg3) (t : ElemType) (s : State) (h : s.MemCanonical) :
    Out.Canonical (execVlog2 d a m t s) := by
  simp [execVlog2, h]

@[simp] theorem canonical_execVtanh (d a : Reg) (m : Reg3) (t : ElemType) (s : State) (h : s.MemCanonical) :
    Out.Canonical (execVtanh d a m t s) := by
  simp [execVtanh, h]

@[simp] theorem canonical_execVred (o : RedOp) (n : Reg2) (a : Reg) (m : Reg3) (t : ElemType) (s : State) (h : s.MemCanonical) :
    Out.Canonical (execVred o n a m t s) := by
  unfold execVred
  dsimp only
  split <;> simp [h]

@[simp] theorem canonical_execVdrain (d : Reg) (n : Reg2) (m : Reg3) (t : ElemType) (s : State) (h : s.MemCanonical) :
    Out.Canonical (execVdrain d n m t s) := by
  simp [execVdrain, h]

/-! ### Every instruction and event -/

/-- Whatever an instruction or an event answers, memory keeps its form: each has its lemma above. -/
theorem canonical_exec (i : Instr) (s : State) (h : s.MemCanonical) : Out.Canonical (exec i s) := by
  cases i <;> simp only [exec] <;> simp [h]

/-- The stores of a bundle in progress: what its slots have done, and what slot 0 has achieved while it waits. -/
def Slots.Canonical (r : Slots) : Prop := r.st.MemCanonical ∧ ∀ p, r.progress = some p → p.MemCanonical

/-! ### Issue, and what follows by itself -/

theorem canonical_runSlot {hw : Nat} {r : Slots} {e : Nat × Instr} (h : r.Canonical) :
    (∀ r', runSlot hw r e = .ok r' → r'.Canonical) ∧ ∀ o, runSlot hw r e = .error o → o.Canonical := by
  have hexec := canonical_exec e.2 { r.st with focusCtx := hw, focusSlot := e.1, signal := .none } h.1
  unfold runSlot
  split
  · rename_i t ht
    have hs : t.MemCanonical := hexec t ht
    split <;> refine ⟨fun r' hr => ?_, fun o ho => nomatch ho⟩ <;> cases hr
    · exact ⟨hs, h.2⟩
    · refine ⟨h.1, fun p hp => ?_⟩
      dsimp only at hp
      split at hp
      · exact Option.some.inj hp ▸ hs
      · exact h.2 p hp
    · exact h
  · exact ⟨fun r' hr => (nomatch hr), fun o ho => Except.error.inj ho ▸ hexec⟩

theorem canonical_runSlots {hw : Nat} {es : List (Nat × Instr)} {r : Slots} (h : r.Canonical) :
    (∀ r', runSlots hw es r = .ok r' → r'.Canonical) ∧ ∀ o, runSlots hw es r = .error o → o.Canonical := by
  induction es generalizing r with
  | nil => exact ⟨fun r' hr => Except.ok.inj hr ▸ h, fun o ho => nomatch ho⟩
  | cons e es ih =>
    obtain ⟨hok, herror⟩ := canonical_runSlot (hw := hw) (e := e) h
    unfold runSlots
    split
    · rename_i heq; exact ih (hok _ heq)
    · rename_i heq
      exact ⟨fun r' hr => (nomatch hr), fun o ho => Except.error.inj ho ▸ herror _ heq⟩

@[simp] theorem mem_reuseBits (h : Nat) (c : Ctx) (b : Bundle) (es : List (Nat × Instr)) (s : State) :
    (reuseBits h c b es s).store.mem = s.store.mem := by
  simp [reuseBits]

@[simp] theorem mem_chargeBundle (h : Nat) (c : Ctx) (b : Bundle) (lanes : Nat) (s : State) :
    (chargeBundle h c b lanes s).store.mem = s.store.mem := by
  simp [chargeBundle]

@[simp] theorem mem_finishBundle (h : Nat) (before : Ctx) (b : Bundle) (es : List (Nat × Instr)) (s : State) :
    (finishBundle h before b es s).store.mem = s.store.mem := by
  simp [finishBundle]

theorem canonical_stallBundle (hw : Nat) {r : Slots} {s : State} (hr : r.Canonical) (h : s.MemCanonical) : (stallBundle hw r s).MemCanonical := by
  unfold stallBundle
  dsimp only
  split
  · rename_i p heq; exact hr.2 p heq
  · exact h

@[simp] theorem mem_beginBundle (h : Nat) (s : State) : (beginBundle h s).store.mem = s.store.mem := by
  simp [beginBundle]

theorem canonical_runBundle (hw : Nat) (b : Bundle) {s : State} (h : s.MemCanonical) : Out.Canonical (runBundle hw b s) := by
  have hbegin : (beginBundle hw s).MemCanonical := by simpa using h
  obtain ⟨hok, herror⟩ := canonical_runSlots (hw := hw) (es := executing (s.ctx hw).regs.q b)
    (r := { st := beginBundle hw s, stalled := false, fault := none, progress := none }) ⟨hbegin, fun _ hp => nomatch hp⟩
  unfold runBundle
  dsimp only
  split
  · rename_i heq; exact herror _ heq
  · rename_i r heq
    have hr := hok _ heq
    split
    · exact (Out.canonical_next _).mpr (canonical_stallBundle hw hr h)
    split
    · exact (Out.canonical_next _).mpr (canonical_takePrecise _ _ _ _ s h)
    · refine (Out.canonical_next _).mpr ?_
      rw [State.memCanonical_iff, mem_finishBundle]
      exact hr.1

theorem canonical_issueBundle (hw : Nat) {s : State} (h : s.MemCanonical) : Out.Canonical (issueBundle hw s) := by
  unfold issueBundle
  split
  · simpa using h
  split
  · exact (Out.canonical_next _).mpr (canonical_takePrecise _ _ _ _ _ h)
  split
  · simp
  · exact canonical_runBundle hw _ h

@[simp] theorem mem_endContext (h : Nat) (exit : W64) (s : State) : (endContext h exit s).store.mem = s.store.mem := by
  simp [endContext]

@[simp] theorem mem_settleEnd (h : Nat) (s : State) : (settleEnd h s).store.mem = s.store.mem := by
  unfold settleEnd
  dsimp only
  split <;> simp

@[simp] theorem canonical_presentCall (i rank : Nat) (c : Ctx) (code : Nat) (s : State) (h : s.MemCanonical) :
    (presentCall i rank c code s).MemCanonical := by
  simp [presentCall, h]

@[simp] theorem canonical_nextCall (i : Nat) (s : State) (h : s.MemCanonical) : (nextCall i s).MemCanonical := by
  unfold nextCall
  repeat' split
  all_goals simp [h]

@[simp] theorem mem_settleCall (h : Nat) (s : State) : (settleCall h s).store.mem = s.store.mem := by
  unfold settleCall
  dsimp only
  repeat' split
  all_goals simp

@[simp] theorem canonical_settleLost (h : Nat) (s : State) (hm : s.MemCanonical) : (settleLost h s).MemCanonical := by
  unfold settleLost
  dsimp only
  split <;> simp [hm]

@[simp] theorem canonical_settleCtx (s : State) (h : Nat) (hm : s.MemCanonical) : (settleCtx s h).MemCanonical := by
  simp [settleCtx, hm]

@[simp] theorem canonical_settleCont (s : State) (i : Nat) (h : s.MemCanonical) : (settleCont s i).MemCanonical := by
  simp [settleCont, h]

@[simp] theorem mem_prunePorts (s : State) : (prunePorts s).store.mem = s.store.mem := by
  simp [prunePorts]

@[simp] theorem mem_dropWatches (s : State) : (dropWatches s).store.mem = s.store.mem := by
  simp [dropWatches]

@[simp] theorem canonical_settle (s : State) (h : s.MemCanonical) : (settle s).MemCanonical := by
  have hctxs := fun l => canonical_foldl (fun t h ht => canonical_settleCtx t h ht) l (s := endWaits s) (by simpa using h)
  have hpacks : ∀ (l : List Nat) (t : State), (l.foldl settlePack3 t).store.mem = t.store.mem :=
    fun l t => mem_foldl (fun t i => mem_settlePack3 t i) l t
  unfold settle
  simp only [State.memCanonical_iff, mem_dropWatches, mem_prunePorts]
  refine canonical_finishPlacings _ (canonical_flushNotices _ (canonical_passAgain _ (canonical_flushActs _ (canonical_drainFabric _ ?_))))
  refine canonical_foldl (fun t i ht => canonical_settleCont t i ht) _ ?_
  rw [State.memCanonical_iff, hpacks]
  exact hctxs _

/-! ### Time -/

@[simp] theorem mem_nextArray (c : Nat) (s : State) : (nextArray c s).store.mem = s.store.mem := by
  unfold nextArray
  dsimp only
  repeat' split
  all_goals simp

@[simp] theorem mem_loseTurns (keep : List Nat) (c : Nat) (s : State) : (loseTurns keep c s).store.mem = s.store.mem := by
  simp [loseTurns]

@[simp] theorem mem_landResults (c : Nat) (s : State) : (landResults c s).store.mem = s.store.mem := by
  simp [landResults]

@[simp] theorem mem_nextCoreCycle (s : State) (c : Nat) : (nextCoreCycle s c).store.mem = s.store.mem := by
  simp [nextCoreCycle]

@[simp] theorem mem_tick (s : State) : (tick s).store.mem = s.store.mem := by
  unfold tick
  exact mem_foldl (fun t c => mem_nextCoreCycle t c) _ _

theorem canonical_andThen {o : Out} {f : State → State} (ho : o.Canonical) (hf : ∀ t, t.MemCanonical → (f t).MemCanonical) :
    Out.Canonical (andThen o f) := by
  cases o with
  | next t => exact (Out.canonical_next _).mpr (hf t ((Out.canonical_next t).mp ho))
  | fault f => exact Out.canonical_fault f
  | refused r => exact Out.canonical_refused r

theorem canonical_move (m : Move) {s : State} (h : s.MemCanonical) : Out.Canonical (move m s) := by
  cases m with
  | event i =>
    simp only [move]
    split
    · exact (Out.canonical_next s).mpr h
    · exact canonical_andThen (canonical_exec i s h) canonical_settle
  | issue hw => exact canonical_andThen (canonical_issueBundle hw h) canonical_settle
  | tick => exact (Out.canonical_next _).mpr (canonical_settle _ (by simpa using h))

/-- Settles O3: memory is written by `memPutBytes` and `memPutLine` alone, which keep the form; so every instruction, every event and all that
follows a move by itself keeps it. -/
theorem stepKeepsMemoryCanonical : Obligations.StepKeepsMemoryCanonical := by
  unfold Obligations.StepKeepsMemoryCanonical
  intro s t h hstep
  unfold step at hstep
  split at hstep
  · rename_i m ms _
    exact canonical_move m (s := { s with agenda := ms }) h t hstep
  · exact canonical_move _ h t hstep

/-! ### One step -/

@[simp] theorem mem_withFetchWord (s : State) (_nbits w : Nat) : (State.withFetchWord s _nbits w).store.mem = s.store.mem := by
  simp [State.withFetchWord]

end Sys2Proof.Machine

/-! SUPPORT. A counterexample to the statement on requests at a line's home: a load from a core that holds a partial of the line. -/

namespace Sys2Proof.Machine

/-- A store in which core 0 holds a partial of line 0, the L2 of its die a tracked copy, and the host owns the line. -/
def partialBesideCopy : Store :=
  { Store.empty with
    copies := [(copyKey 0 0, { state := .combining .n32 .add, data := 0, mask := 1, wts := 0, rts := 0 }),
      (copyKey 256 0, { state := .shared, data := 0, mask := 0, wts := 0, rts := 0 })]
    dirs := [(0, { clearDir 0 with state := .ownedByHost })] }

/-- The core asks the home, past the copy in its die's L2 (R143, R162), and the home must first ask the host. -/
theorem serveLoad_partialBesideCopy : serveLoad partialBesideCopy 0 0 .si 0 0 = none :=
  Option.isNone_iff_eq_none.mp (by decide)

/-- No copy of core 0 serves the load: a partial serves none. -/
theorem copyAt_partialBesideCopy_not_serves {c : Copy} (hc : copyAt partialBesideCopy 0 0 = some c) : copyServes c .si 0 = false := by
  have held : copyAt partialBesideCopy 0 0 =
    some { state := .combining .n32 .add, data := 0, mask := 1, wts := 0, rts := 0 } := rfl
  obtain rfl := Option.some.inj (held.symm.trans hc)
  rfl

/-- Refutes O54: a load that no copy of its core serves is to read the valid copy in its die's L2 that the die does not own. The model asks one
thing more of that path: a core that holds a partial of the line loads from the home, which combines it (R143, R162). With the line the host's,
the load even has to wait. What the clause does not ask is that the core holds no partial. -/
theorem not_homeRequestsAct : ¬ Obligations.HomeRequestsAct := by
  unfold Obligations.HomeRequestsAct
  rintro ⟨-, -, -, -, served⟩
  obtain ⟨device, -⟩ := served partialBesideCopy 0 0 0 0 .si 0 0
  obtain ⟨-, -, near, -⟩ := device (by decide)
  have noneServes : ¬ ∃ c, copyAt partialBesideCopy 0 0 = some c ∧ copyServes c .si 0 = true := by
    rintro ⟨c, hc, serves⟩
    simp [copyAt_partialBesideCopy_not_serves hc] at serves
  obtain ⟨st, loaded⟩ := near noneServes (by decide) { state := .shared, data := 0, mask := 0, wts := 0, rts := 0 } rfl rfl rfl
  rw [serveLoad_partialBesideCopy] at loaded
  exact Option.some_ne_none _ loaded.symm

end Sys2Proof.Machine

/-! SUPPORT. A counterexample to the statement on commands: a continuation whose entry the registry's list holds twice. -/

namespace Sys2Proof.Machine

/-- A machine after reset but for two entries of continuation 0: an idle one, which is the one read, and behind it one that is QUEUED. -/
def registeredTwice : State :=
  { State.reset with dev := { State.reset.dev with
      conts := [(0, Cont.idle 0), (0, { Cont.idle 0 with state := .queued })] } }

/-- The end of continuation 0 runs the pass (R215, R228), which meets the entry that is still QUEUED and places it. -/
theorem state_endAndFree_registeredTwice : ((endAndFree 0 .killed 4 0 registeredTwice).cont 0).state = .running := by decide

/-- Refutes O57: a continuation that ends and frees its room is to be in its end state afterwards. The pass that then runs takes the QUEUED
entries of the list one by one, and of a list that holds a continuation twice it places the second entry, which sets the state of the first.
What the clause does not ask is that the list holds each continuation once. -/
theorem not_commandsAct : ¬ Obligations.CommandsAct := by
  unfold Obligations.CommandsAct
  rintro ⟨-, -, -, -, ends, -⟩
  obtain ⟨ended, -⟩ := ends registeredTwice 0 4 .killed 0 (by decide) (by decide)
  rw [state_endAndFree_registeredTwice] at ended
  exact ContState.noConfusion ended

end Sys2Proof.Machine

/-! SUPPORT. A counterexample to the statement on the lines of the device: a shoot-down request that cores still combine. -/

namespace Sys2Proof.Machine

/-- A machine after reset but for a shoot-down request of kind 2 that has woken the distributor: core 0 holds a partial of the request's line, which
adds the 1 of its sequence. -/
def combinedRequest : State :=
  let line := (Device.booted.dcb + 0x40) / 64
  { State.reset with
    store := { Store.empty with
      mem := [(Device.booted.dcb + 0x4A, 2)]
      dirs := [(line, { clearDir line with state := .partials 1 .n32 .add })]
      copies := [(copyKey 0 line, { state := .combining .n32 .add, data := 1, mask := 1, wts := 0, rts := 0 })] }
    dev := { Device.booted with shootWake := true } }

/-- Whether an outcome leaves the wake of the shoot-down line standing. -/
def shootWakes : Out → Bool
  | .next t => t.dev.shootWake
  | _ => false

/-- The load of the request combines the partial at the home (R170), which is a write of the line and wakes the distributor once more. -/
theorem shootWakes_combinedRequest : shootWakes (exec .shootDownAll combinedRequest) = true := by decide +kernel

/-- Refutes O58: a shoot-down is to leave no wake of its line. The distributor takes the wake first and then loads the line; where cores hold
partials of it, the load combines them, and the line that changed wakes it again. What the clause does not ask is that nobody combines in the
request's line. -/
theorem not_deviceLinesAct : ¬ Obligations.DeviceLinesAct := by
  unfold Obligations.DeviceLinesAct
  rintro ⟨lines, -⟩
  obtain ⟨-, -, -, -, all, -⟩ := lines combinedRequest
  have request : dcbNat combinedRequest 0x40 8 ≠ combinedRequest.dev.shootSeen := by decide +kernel
  have given : hostKeeps combinedRequest [(combinedRequest.dev.dcb + 0x40) / 64] = [] := by decide +kernel
  obtain ⟨t, shot, quiet, -⟩ := all ⟨⟨rfl, rfl, given⟩, request⟩ (by decide +kernel)
  have wakes := shootWakes_combinedRequest
  rw [shot] at wakes
  exact Bool.false_ne_true (quiet.symm.trans wakes)

end Sys2Proof.Machine

/-! SUPPORT. The statement on power, clause by clause: gears, energy windows, the leash and the token, barks, idle states, the rotation. -/

namespace Sys2Proof.Machine

/-! ### Lists of contexts and cores mapped under their keys -/

theorem Sparse.find_map_of_fst {α β : Type} (F : Nat × α → Nat × β) (hF : ∀ e, (F e).1 = e.1) (m : Sparse α) (k : Nat) :
    Sparse.find (m.map F) k = (m.find k).map fun x => (F (k, x)).2 := by
  have hkey : F = fun e => (e.1, (F e).2) := funext fun e => Prod.ext (hF e) rfl
  rw [hkey, Sparse.find_map]

/-- A context of a state is one that it lists, or the empty one. -/
theorem State.ctx_of_find {s : State} {h : Nat} {c : Ctx} (hc : Sparse.find s.ctxs h = some c) : s.ctx h = c := by
  simp [State.ctx, Sparse.get, hc]

theorem State.core_of_find {s : State} {k : Nat} {x : Core} (hx : Sparse.find s.cores k = some x) : s.core k = x := by
  simp [State.core, Sparse.get, hx]

/-- A context read back from a list mapped under its keys. -/
theorem State.ctx_of_map {s t : State} {F : Nat × Ctx → Nat × Ctx} (ht : t.ctxs = s.ctxs.map F) (hF : ∀ e, (F e).1 = e.1) {h : Nat} {c : Ctx}
    (hc : Sparse.find s.ctxs h = some c) : t.ctx h = (F (h, c)).2 :=
  State.ctx_of_find (by rw [ht, Sparse.find_map_of_fst F hF, hc]; rfl)

theorem State.core_of_map {s t : State} {F : Nat × Core → Nat × Core} (ht : t.cores = s.cores.map F) (hF : ∀ e, (F e).1 = e.1) {k : Nat} {x : Core}
    (hx : Sparse.find s.cores k = some x) : t.core k = (F (k, x)).2 :=
  State.core_of_find (by rw [ht, Sparse.find_map_of_fst F hF, hx]; rfl)

/-- What a map under the keys leaves of every context it leaves of the contexts read back. -/
theorem State.ctx_map_rel {s t : State} {F : Nat × Ctx → Nat × Ctx} (R : Ctx → Ctx → Prop) (hR : ∀ c, R c c) (ht : t.ctxs = s.ctxs.map F)
    (hF : ∀ e, (F e).1 = e.1) (hstep : ∀ e : Nat × Ctx, R e.2 (F e).2) (h : Nat) : R (s.ctx h) (t.ctx h) := by
  simp only [State.ctx, Sparse.get, ht, Sparse.find_map_of_fst F hF]
  cases Sparse.find s.ctxs h with
  | none => exact hR _
  | some c => exact hstep (h, c)

/-! ### Gears (R242, R244) -/

theorem execGearSettleStart_differs {s : State} {c : Nat} (hs : (s.core c).settling = none) (ht : targetRun s c ≠ (s.core c).run) :
    execGearSettleStart c s = .next (s.mapCore c fun k => { k with settling := some (targetRun s c), readying := 369 }) := by
  simp [execGearSettleStart, hs, ht, readyingTime]

theorem execGearChangeover_ready {s : State} {c : Nat} (hs : (s.core c).settling.isSome = true) (hp : (s.core c).pause = 0)
    (hi : (s.core c).issued = false)
    (hl : (s.core c).cycleLeft = (if (s.core c).run then 2 else 5) * (if (s.core c).long then 2 else 1)) :
    execGearChangeover c s = .next (s.mapCore c fun k => { k with pause := 5 }) := by
  have hstart : (s.core c).atCycleStart = true := by simp [Core.atCycleStart, Core.thisCycle, cycleLength, hl]
  simp [execGearChangeover, hs, hp, hi, hstart]

theorem execChangeoverEnd_last {s : State} {c : Nat} {t : Bool} (hs : (s.core c).settling = some t) (hp : (s.core c).pause = 1)
    (hb : (s.core c).barkOwed = false) :
    execChangeoverEnd c s = .next ((s.mapStore fun st => (s.core c).staging.foldl (fun st w => scratchPutBytes st c w.addr w.data) st).mapCore c
      fun k => { k with run := t, settling := none, readying := 0, pause := 0, staging := [],
                        cycleLeft := (if t then 2 else 5) * (if k.long then 2 else 1) }) := by
  simp [execChangeoverEnd, hs, hp, hb, Core.thisCycle, cycleLength]

/-! ### Energy windows (R246, R249, R250) -/

theorem runDue_eq_false {s : State} {c : Nat} (h : ∀ e ∈ s.ctxs, e.1 / 4 = c → e.2.energy.windows < 16) : runDue s c = false := by
  simp only [runDue, residents, coreOf, List.any_eq_false, List.mem_filter, beq_iff_eq, decide_eq_true_eq, and_imp]
  exact fun e he hc => Nat.not_le.mpr (h e he hc)

theorem execEnergyWindowRoll_closes {s : State} {c : Nat} (hw : 256 ≤ (s.core c).windowCycle)
    (hr : ∀ e ∈ s.ctxs, e.1 / 4 = c → e.2.energy.windows < 16) :
    let k := s.core c
    ∃ t, execEnergyWindowRoll c s = .next t ∧
      t.core c = { k with charges := (k.sum :: k.charges).take 4, sum := 0, stalled := false, windowCycle := k.windowCycle - 256,
                          grant := k.nextGrant - (if k.run then k.sum - k.grant else (3 * k.sum - 8 * k.grant) / 8) } ∧
      SameRegsAndMemory s t := by
  have hcloses : ¬ ((s.core c).windowCycle < 256 ∨ runDue s c = true) := by
    rw [runDue_eq_false hr]
    simpa using hw
  refine ⟨_, if_neg hcloses, Sparse.get_put_same _ s.cores c _, fun h => ?_, rfl⟩
  refine State.ctx_map_rel (fun a b => b.regs = a.regs) (fun _ => rfl) rfl (fun e => ?_) (fun e => ?_) h
  · split <;> rfl
  · split <;> rfl

theorem execEnergyStall_past {s : State} {c : Nat} (hp : (s.core c).pastGrant = true) (hh : s.coreHeld c = false) :
    execEnergyStall c s = .next (s.mapCore c fun k => { k with stalled := true }) := by
  simp [execEnergyStall, hp, hh]

theorem execEmisRunClose_full {s : State} {h : Nat} (hk : (Sparse.find s.ctxs h).isSome = true) (hw : 16 ≤ (s.ctx h).energy.windows) :
    let e := (s.ctx h).energy
    ∃ t, execEmisRunClose h s = .next t ∧ (t.ctx h).energy.windows = 0 ∧
      (t.ctx h).regs.emis = (s.ctx h).regs.emis + (if 8 * e.declared < 7 * e.measured then 1 else 0) ∧
      (t.ctx h).energy.step = (if 8 * e.declared < 7 * e.measured then min 3 (e.step + 1) else e.step) := by
  intro e
  have hfull : ¬ (!(Sparse.find s.ctxs h).isSome || decide (e.windows < 16)) = true := by simp [hk, e, hw]
  by_cases hm : 8 * e.declared < 7 * e.measured
  · refine ⟨_, (if_neg hfull).trans (if_pos hm), ?_⟩
    simp [hm, Ctx.countEvent, e]
  · refine ⟨_, (if_neg hfull).trans (if_neg hm), ?_⟩
    simp [hm, e]

theorem execSurchargeDecay_quiet {s : State} {h : Nat} (hk : (Sparse.find s.ctxs h).isSome = true) (hq : 64 ≤ (s.ctx h).energy.quiet)
    (hw : (s.ctx h).energy.windows < 16) :
    execSurchargeDecay h s =
      .next (s.mapCtx h fun c => { c with energy := { (s.ctx h).energy with step := (s.ctx h).energy.step - 1, quiet := 0 } }) := by
  simp only [execSurchargeDecay, hk, hq, hw, and_self, if_true]

/-! ### The leash and the token ring (R248, R258) -/

theorem execLeashRecompute_due {s : State} {d : Nat} (hd : d < 4) (ha : (s.die d).leashAge + 2600 ≤ s.refHalf) :
    ∃ t, execLeashRecompute d s = .next t ∧ t.ctxs = s.ctxs ∧ t.store = s.store ∧
      ∀ j x, Sparse.find s.cores j = some x → t.core j = if j / 64 = d then
        { x with nextGrant := if (busyCores s d).contains j = true then scaledGrant (s.budgetNow d) (dieDemand s d) x.demand else 0 } else x := by
  have hdue : ¬ (4 ≤ d ∨ s.refHalf < (s.die d).leashAge + micros 1) := by simp only [micros]; omega
  refine ⟨_, if_neg hdue, rfl, rfl, fun j x hx => ?_⟩
  rw [State.core_of_map (F := fun e => if e.1 / 64 = d then (e.1, { e.2 with
      nextGrant := if (busyCores s d).contains e.1 then scaledGrant (s.budgetNow d) (dieDemand s d) e.2.demand else 0 }) else e)
    rfl (fun e => by dsimp only; split <;> rfl) hx]
  dsimp only
  split <;> rfl

theorem execTokenRing_due {s : State} (h : s.dev.tokenAge + 2600 ≤ s.refHalf) :
    execTokenRing s = .next (([0, 1, 2, 3].foldl dieToken (0, s)).2.mapDev fun d => { d with tokenAge := s.refHalf / 2600 * 2600 }) :=
  if_neg (by simp only [micros]; omega)

/-! ### Barks (R255, R256) -/

theorem execBark_heard {s : State} {d q : Nat} {run : Bool} (hd : d < 4) (hq : q < 4) (hb : blanked s d q run = false) :
    execBark d q run s = .next (raiseBark d q run s) :=
  if_neg (by simp [hb]; omega)

theorem execBark_blanked {s : State} {d q : Nat} {run : Bool} (hb : blanked s d q run = true) : execBark d q run s = .next s :=
  if_pos (by simp [hb])

/-- Barks change cores only, and the device's list of blanked detectors. -/
theorem dev_foldl_takeBark (cs : List Nat) (s : State) :
    (cs.foldl (fun s c => s.mapCore c (Core.takeBark (s.coreHeld c))) s).dev = s.dev := by
  induction cs generalizing s with
  | nil => rfl
  | cons c cs ih => exact ih _

theorem blank_raiseBark (s : State) (d q : Nat) (run : Bool) :
    Sparse.get 0 (raiseBark d q run s).dev.blank (detector d q run) = blankTime s (barkCores s d q run) run + 1 := by
  simp [raiseBark]

theorem le_foldl_max (f : Nat → Nat) (cs : List Nat) (m : Nat) :
    m ≤ cs.foldl (fun m c => max m (f c)) m ∧ ∀ c ∈ cs, f c ≤ cs.foldl (fun m c => max m (f c)) m := by
  induction cs generalizing m with
  | nil => simp
  | cons x cs ih =>
    obtain ⟨hm, hcs⟩ := ih (max m (f x))
    refine ⟨by simp only [List.foldl_cons]; omega, fun c hc => ?_⟩
    rcases List.mem_cons.mp hc with rfl | hc
    · simp only [List.foldl_cons]; omega
    · exact hcs c hc

theorem cycleLeft_le_blankTime {s : State} {cs : List Nat} {run : Bool} {c : Nat} (hc : c ∈ cs) :
    (s.core c).cycleLeft + (if run then 140 else 350) ≤ blankTime s cs run := by
  have hmax := (le_foldl_max (fun c => (s.core c).cycleLeft) cs 0).2 c hc
  cases run <;> simp only [blankTime, cycleLength, if_true, Bool.false_eq_true, if_false] <;> omega

theorem raiseBark_blanks (s : State) (d q : Nat) (run : Bool) :
    let blank := Sparse.get 0 (raiseBark d q run s).dev.blank (detector d q run)
    (if run then 140 else 350) < blank ∧ ∀ j < 16, let x := s.core (64 * d + 16 * q + j)
      x.run = run → x.gated = false → x.cycleLeft + (if run then 140 else 350) < blank := by
  intro blank
  have hblank : blank = blankTime s (barkCores s d q run) run + 1 := blank_raiseBark s d q run
  refine ⟨?_, ?_⟩
  · cases run <;> simp only [hblank, blankTime, cycleLength, if_true, Bool.false_eq_true, if_false] <;> omega
  · intro j hj x hrun hgated
    have hmem : 64 * d + 16 * q + j ∈ barkCores s d q run := by
      simp only [barkCores, List.mem_filter, List.mem_map, List.mem_range, Bool.and_eq_true, beq_iff_eq, Bool.not_eq_true']
      exact ⟨⟨j, hj, rfl⟩, hrun, hgated⟩
    rw [hblank]
    exact Nat.lt_succ_of_le (cycleLeft_le_blankTime hmem)

theorem execBarkEnd_halving {s : State} {c : Nat} (hh : (s.core c).halve = 1)
    (hb : Sparse.get 0 s.dev.blank (detector (c / 64) (c % 64 / 16) (s.core c).run) ≠ 1) :
    execBarkEnd c s = .next (s.mapCore c fun k => { k with halve := 0 }) := by
  simp [execBarkEnd, hh, hb]

/-! ### Idle states (R259, R260) -/

theorem execIdleEntry_asks {s : State} {level : Nat} (hi : s.dev.idle = 0) (hl : level ≠ 0) (hp : packageIdle s = true)
    (ha : 5200 ≤ s.dev.idleAge) (hk : hostKeeps s [(s.dev.dcb + 0x28) / 64] ≠ []) :
    execIdleEntry level s = .next (askLines (hostKeeps s [(s.dev.dcb + 0x28) / 64]) s) := by
  have hopen : s.dev.idle = 0 ∧ level ≠ 0 ∧ packageIdle s ∧ micros 2 ≤ s.dev.idleAge := ⟨hi, hl, hp, ha⟩
  rw [execIdleEntry, if_pos hopen, withLines, if_neg (by simpa using hk)]

/-- Gating cores one by one gates those of the list. -/
theorem gated_foldl_mapCore (cs : List Nat) (s : State) {j : Nat} (hj : j ∈ cs ∨ (s.core j).gated = true) :
    ((cs.foldl (fun s c => s.mapCore c fun k => { k with gated := true }) s).core j).gated = true := by
  induction cs generalizing s with
  | nil => simpa using hj
  | cons c cs ih =>
    refine ih _ ?_
    rcases hj with hj | hj
    · rcases List.mem_cons.mp hj with rfl | hj
      · exact Or.inr (by simp)
      · exact Or.inl hj
    · exact Or.inr (by rw [State.core_mapCore]; split <;> simp_all)

theorem store_foldl_mapCore (f : Core → Core) (cs : List Nat) (s : State) :
    (cs.foldl (fun s c => s.mapCore c f) s).store = s.store ∧ (cs.foldl (fun s c => s.mapCore c f) s).ctxs = s.ctxs := by
  induction cs generalizing s with
  | nil => exact ⟨rfl, rfl⟩
  | cons c cs ih => exact ih _

theorem two_le_resumeTime (level : Nat) : 2 ≤ resumeTime level := by
  unfold resumeTime
  split <;> decide

theorem execIdleEntry_enters {s : State} {level : Nat} (hi : s.dev.idle = 0) (hl : level ≠ 0) (hp : packageIdle s = true)
    (hk : hostKeeps s [(s.dev.dcb + 0x28) / 64] = []) (hd : level = deepestIdle s) (ha : 2600 * resumeTime level ≤ s.dev.idleAge) :
    let r := readLines [(s.dev.dcb + 0x28) / 64] s
    ∃ t, execIdleEntry level s = .next t ∧ t.dev.idle = level ∧ (∀ j < 256, (t.core j).gated = true) ∧ t.ctxs = r.ctxs ∧ t.store = r.store := by
  have hlong : micros 2 ≤ s.dev.idleAge := by
    have := two_le_resumeTime level
    simp only [micros]; omega
  have hopen : s.dev.idle = 0 ∧ level ≠ 0 ∧ packageIdle s ∧ micros 2 ≤ s.dev.idleAge := ⟨hi, hl, hp, hlong⟩
  have hgives : (hostKeeps s [(s.dev.dcb + 0x28) / 64]).isEmpty = true := by rw [hk]; rfl
  have hcores := store_foldl_mapCore (fun k => { k with gated := true }) (List.range 256) (readLines [(s.dev.dcb + 0x28) / 64] s)
  refine ⟨_, by rw [execIdleEntry, if_pos hopen, withLines, if_pos hgives, if_pos ⟨hd, ha⟩], rfl, fun j hj => ?_, ?_, ?_⟩
  · rw [State.core_mapDev]
    exact gated_foldl_mapCore _ _ (Or.inl (List.mem_range.mpr hj))
  · rw [State.ctxs_mapDev]
    exact hcores.2
  · rw [State.store_mapDev]
    exact hcores.1

theorem execIdleResume_idle {s : State} (hi : s.dev.idle ≠ 0) :
    ∃ t, execIdleResume s = .next t ∧ t.dev.idle = 0 ∧ (∀ j x, Sparse.find s.cores j = some x → (t.core j).gated = false) ∧
      t.ctxs = s.ctxs ∧ t.store = s.store := by
  have hleave : leaveIdle s = { s with cores := s.cores.map fun e => (e.1, { e.2 with gated := false })
                                       dev := { s.dev with idle := 0, idleAge := 0 } } := if_neg hi
  refine ⟨_, rfl, by rw [hleave], fun j x hx => ?_, by rw [hleave], by rw [hleave]⟩
  rw [State.core_of_map (congrArg State.cores hleave) (fun _ => rfl) hx]

/-! ### Rotation (R232) -/

theorem execIssueRotation_due {s : State} {h : Nat} (hr : 4096 ≤ (s.ctx h).runCycles) (hk : (Sparse.find s.ctxs h).isSome = true)
    (hh : s.coreHeld (h / 4) = false) : execIssueRotation h s = .next (goBehind h s) := by
  have hdue : 4096 ≤ (s.ctx h).runCycles ∧ (Sparse.find s.ctxs h).isSome ∧ !s.coreHeld (coreOf h) := ⟨hr, hk, by simp [coreOf, hh]⟩
  exact if_pos hdue

/-- Settles O60, event by event. -/
theorem powerEventsAct : Obligations.PowerEventsAct := by
  unfold Obligations.PowerEventsAct
  intro s c h d q level run k e known
  exact ⟨execGearSettleStart_differs, execGearChangeover_ready, fun _ => execChangeoverEnd_last, execEnergyWindowRoll_closes, execEnergyStall_past,
    execEmisRunClose_full, execSurchargeDecay_quiet, execLeashRecompute_due, rfl, execTokenRing_due, fun _ => rfl, execBark_heard,
    fun _ _ => execBark_blanked, by simp [blanked], raiseBark_blanks s d q run, fun hp => by simp [Core.takeBark, hp], execBarkEnd_halving,
    fun hi hl hp => ⟨execIdleEntry_asks hi hl hp, execIdleEntry_enters hi hl hp⟩, execIdleResume_idle, execIssueRotation_due⟩

end Sys2Proof.Machine

/-! SUPPORT. The statement on directories and the host: what leaves a line, what the home records, what the host reads and writes. -/

namespace Sys2Proof.Machine

/-! ### Owners and copies of a line read back -/

/-- In a rising table every key behind the first is above it. -/
theorem Sparse.lt_of_mem_of_rising {α : Type} {m : Sparse α} {lo : Nat} (h : Sparse.risingFrom (some lo) m = true) {e : Nat × α} (he : e ∈ m) :
    lo < e.1 := by
  by_contra hle
  have hfound := Sparse.find_of_mem (Sparse.rising_none m lo h) he
  rw [Sparse.find_none_of_rising m lo e.1 h (by omega)] at hfound
  cases hfound

/-- The first entry that a test picks is the first still once it is written over with another that the test picks. -/
theorem Sparse.find?_put {α : Type} {p : Nat × α → Bool} {key : Nat} {x y : α} (hy : p (key, y) = true) :
    ∀ {m : Sparse α}, Sparse.risingFrom none m = true → List.find? p m = some (key, x) → List.find? p (Sparse.put m key y) = some (key, y)
  | [], _, hf => by cases hf
  | (j, z) :: r, hm, hf => by
    have hr : Sparse.risingFrom (some j) r = true := hm
    by_cases hz : p (j, z) = true
    · rw [List.find?_cons_of_pos hz] at hf
      obtain ⟨rfl, rfl⟩ := Prod.mk.inj (Option.some.inj hf)
      rw [Sparse.put, if_neg (lt_irrefl j), if_pos rfl, List.find?_cons_of_pos hy]
    · rw [List.find?_cons_of_neg hz] at hf
      have hlt : j < key := Sparse.lt_of_mem_of_rising hr (List.mem_of_find?_eq_some hf)
      rw [Sparse.put, if_neg (by omega), if_neg (by omega), List.find?_cons_of_neg hz]
      exact Sparse.find?_put hy (Sparse.rising_none r j hr) hf

/-- Whether an entry of the table of copies is an owner's of a line. -/
def ownsLine (line : Nat) (e : Nat × Copy) : Bool := e.1 / 512 == line && e.2.state.owns

theorem ownerCopy_eq_find? (st : Store) (line : Nat) :
    ownerCopy st line = (st.copies.find? (ownsLine line)).map fun e => (e.1 % 512, e.2) := by
  rw [ownerCopy, copiesOf, List.find?_map, List.find?_filter]
  congr 2
  funext e
  rw [ownsLine]
  cases e.1 / 512 == line <;> simp

/-- The entry that the owner's copy stands in. -/
theorem find?_ownsLine {st : Store} {line h : Nat} {k : Copy} (ho : ownerCopy st line = some (h, k)) :
    st.copies.find? (ownsLine line) = some (copyKey h line, k) := by
  rw [ownerCopy_eq_find?, Option.map_eq_some_iff] at ho
  obtain ⟨⟨key, c⟩, hfound, hkey⟩ := ho
  obtain ⟨rfl, rfl⟩ := Prod.mk.inj hkey
  have howns := List.find?_some hfound
  simp only [ownsLine, Bool.and_eq_true, beq_iff_eq] at howns
  rw [hfound, show copyKey (key % 512) line = key by simp only [copyKey]; omega]

/-- The owner's copy, written over as an owner's, is the owner's still. -/
theorem ownerCopy_putCopy {st : Store} {line h : Nat} {k k' : Copy} (hr : Sparse.risingFrom none st.copies = true)
    (ho : ownerCopy st line = some (h, k)) (hk : k'.state.owns = true) : ownerCopy (putCopy st h line k') line = some (h, k') := by
  have hh := holder_lt_of_ownerCopy st ho
  have hline : (line * 512 + h) / 512 = line := by omega
  have hput : (putCopy st h line k').copies.find? (ownsLine line) = some (copyKey h line, k') :=
    Sparse.find?_put (by simp [ownsLine, copyKey, hline, hk]) hr (find?_ownsLine ho)
  rw [ownerCopy_eq_find?, hput, Option.map_some, show copyKey h line % 512 = h by simp only [copyKey]; omega]

theorem owns_of_ownerCopy {st : Store} {line h : Nat} {k : Copy} (ho : ownerCopy st line = some (h, k)) : k.state.owns = true :=
  List.find?_some (p := fun e : Nat × Copy => e.2.state.owns) ho

/-- The copies left once those of a line that a test picks are dropped. -/
theorem copiesOf_dropWhere (st : Store) (line : Nat) (p : Nat → Copy → Bool) :
    copiesOf (dropWhere st line p) line = (copiesOf st line).filter fun e => !p e.1 e.2 := by
  simp only [copiesOf, dropWhere, List.filter_map, List.filter_filter]
  congr 1
  refine List.filter_congr fun e _ => ?_
  cases e.1 / 512 == line <;> simp

/-- Dropping copies that no owner has leaves the owner's. -/
theorem ownerCopy_dropWhere {st : Store} {line h : Nat} {k : Copy} (p : Nat → Copy → Bool) (hp : ∀ x c, c.state.owns = true → p x c = false)
    (ho : ownerCopy st line = some (h, k)) : ownerCopy (dropWhere st line p) line = some (h, k) := by
  rw [ownerCopy, copiesOf_dropWhere, List.find?_filter, ← ho, ownerCopy]
  congr 1
  funext e
  by_cases ho : e.2.state.owns = true <;> simp [ho, hp]

theorem owns_not_shared (c : Copy) (h : c.state.owns = true) : (c.state == .shared) = false := by
  rw [beq_eq_false_iff_ne]
  rintro hs
  rw [hs] at h
  cases h

/-! ### What the tables keep: rising keys, and the entry of the line -/

theorem dirOf_dropWhere (st : Store) (line l : Nat) (p : Nat → Copy → Bool) : dirOf (dropWhere st line p) l = dirOf st l := rfl

/-- Shared copies of a line whose home tracks them are invalidated: they go, and the home keeps the last of their reads. -/
theorem invalidateWhere_of_tracked {st : Store} {line : Nat} {p : Nat → Bool} {hs : BitVec 5} (h : (dirOf st line).state = .tracked hs) :
    invalidateWhere st line p = setDir (dropWhere st line fun x c => c.state == .shared && p x) line
      { dirOf st line with rts := max (dirOf st line).rts (readTop st line p) } := by
  rw [invalidateWhere, foldRead]
  simp only [dirOf_dropWhere, h]

/-- The last read of the shared copies that a test picks is none of them before. -/
theorem rts_le_readTop {st : Store} {line : Nat} {p : Nat → Bool} {e : Nat × Copy} (he : e ∈ copiesOf st line) (hs : e.2.state = .shared)
    (hp : p e.1 = true) : e.2.rts ≤ readTop st line p := by
  have hfold : ∀ (l : List (Nat × Copy)) (r : Nat),
      r ≤ l.foldl (fun r e => if e.2.state == .shared && p e.1 then max r e.2.rts else r) r ∧
      (e ∈ l → e.2.rts ≤ l.foldl (fun r e => if e.2.state == .shared && p e.1 then max r e.2.rts else r) r) := by
    intro l
    induction l with
    | nil => simp
    | cons x l ih =>
      intro r
      rw [List.foldl_cons]
      obtain ⟨hr, hl⟩ := ih (if x.2.state == .shared && p x.1 then max r x.2.rts else r)
      refine ⟨le_trans (by split <;> omega) hr, fun hmem => ?_⟩
      rcases List.mem_cons.mp hmem with rfl | hmem
      · refine le_trans ?_ hr
        simp [hs, hp]
      · exact hl hmem
  exact (hfold _ 0).2 he

/-! ### Lines that go home (R155, R164, R170) -/

/-- A line that a core or engine owns goes home: memory has the owner's data, the home its timestamps, and the owner no copy. -/
theorem recallLine_of_owner {st : Store} {line x h : Nat} {k : Copy} (hd : Sparse.risingFrom none st.dirs = true)
    (hs : (dirOf st line).state = .owned x) (ho : ownerCopy st line = some (h, k)) (hp : partialsOf st line = [])
    (hr : Sparse.risingFrom none st.copies = true) :
    let u := recallLine st line
    (dirOf u line).state = .untracked ∧ (dirOf u line).wts = k.wts ∧ k.rts ≤ (dirOf u line).rts ∧
      u.mem = memPutLine st.mem line k.data 0xFFFF ∧ copyAt u h line = none := by
  intro u
  let v := dropWhere st line fun _ c => c.state == .shared && true
  let k' : Copy := { k with rts := max k.rts (readTop st line fun _ => true) }
  have hcombined : combineInDie st line = st := by rw [combineInDie, hp]; rfl
  have hv : ownerCopy v line = some (h, k) :=
    ownerCopy_dropWhere _ (fun _ c hc => by rw [owns_not_shared c hc]; rfl) ho
  have hread : invalidateWhere st line (fun _ => true) = putCopy v h line k' := by
    rw [invalidateWhere, foldRead]
    simp only [dirOf_dropWhere, hs]
    rw [show ownerCopy (dropWhere st line fun _ c => c.state == .shared && true) line = some (h, k) from hv]
  have hvr : Sparse.risingFrom none v.copies = true := Sparse.rising_filter _ _ hr
  have howner : ownerCopy (putCopy v h line k') line = some (h, k') :=
    ownerCopy_putCopy hvr hv (owns_of_ownerCopy (k := k) ho)
  have hu : u = setDir (dropCopy { putCopy v h line k' with
      mem := memPutLine st.mem line k.data 0xFFFF, engineUse := (putCopy v h line k').engineUse.filter (· != line) } h line) line
      { dirOf (putCopy v h line k') line with state := .untracked, wts := k.wts, rts := max k'.rts (dirOf (putCopy v h line k') line).rts } := by
    simp only [u, recallLine, hcombined, hread, howner]
    rfl
  have hdir := dirOf_setDir_same (st := dropCopy { putCopy v h line k' with
      mem := memPutLine st.mem line k.data 0xFFFF, engineUse := (putCopy v h line k').engineUse.filter (· != line) } h line) hd line
      { dirOf (putCopy v h line k') line with state := .untracked, wts := k.wts, rts := max k'.rts (dirOf (putCopy v h line k') line).rts }
  rw [hu, hdir]
  refine ⟨rfl, rfl, ?_, rfl, ?_⟩
  · exact le_trans (le_max_left k.rts _) (le_max_left _ _)
  · rw [copyAt_setDir]
    exact copyAt_dropCopy_same _ _ _ (Sparse.rising_put _ _ _ hvr)

theorem exec_recallOwner {s : State} {line x : Nat} (h : (dirOf s.store line).state = .owned x) :
    exec (.recallOwner line) s = .next (noteCombines s (s.mapStore fun st => recallLine st line)) ∧
    exec (.ownerWriteback line) s = .next (noteCombines s (s.mapStore fun st => recallLine st line)) := by
  refine ⟨show execRecallOwner line s = _ from ?_, show execOwnerWriteback line s = _ from ?_⟩
  · rw [execRecallOwner, h]
  · rw [execOwnerWriteback, h]

/-- A sharing die's copies are invalidated: they go, memory stays, and the home keeps their last read and the sharers left. -/
theorem exec_invalidation {s : State} {line d : Nat} {hs : BitVec 5} (hd : Sparse.risingFrom none s.store.dirs = true)
    (h : (dirOf s.store line).state = .tracked hs) (hdie : d < 4) (hbit : hs.getLsbD d = true) :
    ∃ t, exec (.invalidation line d) s = .next t ∧
      (∀ e ∈ copiesOf t.store line, e.2.state = .shared → holderDie e.1 ≠ d) ∧ t.store.mem = s.store.mem ∧
      (∀ e ∈ copiesOf s.store line, e.2.state = .shared → holderDie e.1 = d → e.2.rts ≤ (dirOf t.store line).rts) ∧
      (dirOf t.store line).state =
        if hs &&& ~~~(BitVec.ofNat 5 (2 ^ d)) = 0 then .untracked else .tracked (hs &&& ~~~(BitVec.ofNat 5 (2 ^ d))) := by
  let v := dropWhere s.store line fun x c => c.state == .shared && holderDie x == d
  let e := { dirOf s.store line with rts := max (dirOf s.store line).rts (readTop s.store line fun x => holderDie x == d) }
  let left := hs &&& ~~~(dieBit d)
  have hdir : dirOf (setDir v line e) line = e := dirOf_setDir_same (st := v) hd line e
  have hend : dirOf (setDir (setDir v line e) line { e with state := if left = 0 then .untracked else .tracked left }) line = _ :=
    dirOf_setDir_same (st := setDir v line e) (Sparse.rising_set _ _ _ _ hd) line _
  refine ⟨s.mapStore fun st => setDir (setDir v line e) line { e with state := if left = 0 then .untracked else .tracked left }, ?_, ?_, rfl, ?_, ?_⟩
  · change execInvalidation line d s = _
    simp only [execInvalidation, h]
    rw [if_pos ⟨hdie, hbit⟩, State.mapStore, invalidateWhere_of_tracked h, hdir]
    rfl
  · intro x hx hshared hdie
    have hmem : x ∈ copiesOf v line := hx
    rw [copiesOf_dropWhere] at hmem
    simpa [hshared, hdie] using (List.mem_filter.mp hmem).2
  · intro x hx hshared hdie
    rw [State.store_mapStore, hend]
    exact le_trans (rts_le_readTop hx hshared (by simpa using hdie)) (le_max_right _ _)
  · rw [State.store_mapStore, hend]
    rfl

theorem CopyState.isPartial_iff (x : CopyState) : x.isPartial = true ↔ ∃ t o, x = .combining t o := by
  cases x <;> simp [CopyState.isPartial]

theorem CopyState.owns_iff (x : CopyState) : x.owns = true ↔ x = .owned ∨ x = .modified := by
  cases x <;> simp [CopyState.owns]

/-- An evicted copy leaves as its state asks. -/
theorem exec_evictionAnnounce {s : State} {line c : Nat} {k : Copy} (h : copyAt s.store c line = some k) :
    let leaves := fun (f : Store → Store) => exec (.evictionAnnounce line c) s = .next (noteCombines s (s.mapStore f))
    (c < 264 → (k.state.isPartial = true → leaves fun st => evictPartial st c line) ∧ (k.state = .shared → leaves fun st => evictShared st line c) ∧
      (k.state.owns = true → leaves fun st => recallLine st line) ∧ (k.state = .leased → leaves fun st => dropCopy st c line)) ∧
    (k.state = .hostDirty → (c, line) ∉ s.dev.hostWrites → exec (.evictionAnnounce line c) s =
      .next (s.mapDev fun d => { d with hostWrites := d.hostWrites ++ [(c, line)] })) := by
  have hc : (copyAt s.store c line).map Copy.state = some k.state := by rw [h]; rfl
  have hevicts : ∀ (x : CopyState) (f : Store → Store), c < 264 → k.state = x → x ≠ .hostDirty → evictCopy s.store c line = f s.store →
      exec (.evictionAnnounce line c) s = .next (noteCombines s (s.mapStore f)) := by
    intro x f hlt hx hstate hf
    change execEvictionAnnounce line c s = _
    rw [hx] at hc
    have hproxy : c < proxyHolder := hlt
    cases x <;> simp only [execEvictionAnnounce, hc, if_pos hproxy, State.mapStore, hf]
    exact absurd rfl hstate
  refine ⟨fun hlt => ⟨fun hp => ?_, fun hs => ?_, fun ho => ?_, fun hl => ?_⟩, fun hdirty hnot => ?_⟩
  · obtain ⟨t, o, hk⟩ := (CopyState.isPartial_iff _).mp hp
    exact hevicts _ _ hlt hk CopyState.noConfusion (by rw [evictCopy, hc, hk])
  · exact hevicts _ _ hlt hs CopyState.noConfusion (by rw [evictCopy, hc, hs])
  · rcases (CopyState.owns_iff _).mp ho with hk | hk
    · exact hevicts _ _ hlt hk CopyState.noConfusion (by rw [evictCopy, hc, hk])
    · exact hevicts _ _ hlt hk CopyState.noConfusion (by rw [evictCopy, hc, hk])
  · exact hevicts _ _ hlt hl CopyState.noConfusion (by rw [evictCopy, hc, hl])
  · change execEvictionAnnounce line c s = _
    rw [execEvictionAnnounce, hc, hdirty]
    exact if_neg (by simpa using hnot)

/-! ### The table of entries keeps its rising keys -/

section
variable {st : Store} (hd : Sparse.risingFrom none st.dirs = true)
include hd

theorem risingDirs_setDir (line : Nat) (d : DirEntry) : Sparse.risingFrom none (setDir st line d).dirs = true := Sparse.rising_set _ _ _ _ hd

theorem risingDirs_invalidateWhere (line : Nat) (p : Nat → Bool) : Sparse.risingFrom none (invalidateWhere st line p).dirs = true := by
  unfold invalidateWhere foldRead
  split
  · split <;> exact hd
  · exact Sparse.rising_set _ _ _ _ hd

theorem risingDirs_takePartial (line : Nat) (e : Nat × Copy) : Sparse.risingFrom none (takePartial line st e).dirs = true := by
  unfold takePartial
  split
  · dsimp only
    split
    · exact hd
    · exact Sparse.rising_set _ _ _ _ hd
  · exact hd

theorem risingDirs_takePartials (line : Nat) (ps : List (Nat × Copy)) :
    Sparse.risingFrom none (ps.foldl (takePartial line) st).dirs = true :=
  foldl_keeps (fun v : Store => Sparse.risingFrom none v.dirs = true) _ ps st hd fun _ e h => risingDirs_takePartial h line e

theorem risingDirs_combineDie (line die : Nat) : Sparse.risingFrom none (combineDie st line die).dirs = true := by
  unfold combineDie
  dsimp only
  split
  · exact Sparse.rising_set _ _ _ _ (risingDirs_takePartials hd _ _)
  · exact risingDirs_takePartials hd _ _

theorem risingDirs_combineLine (line : Nat) : Sparse.risingFrom none (combineLine st line).dirs = true := by
  have hdies := foldl_keeps (fun v : Store => Sparse.risingFrom none v.dirs = true) (fun v die => combineDie v line die) (List.range 4) st hd
    fun _ die h => risingDirs_combineDie h line die
  exact risingDirs_setDir hdies line _

theorem risingDirs_recallLine (line : Nat) : Sparse.risingFrom none (recallLine st line).dirs = true := by
  have hcombined : Sparse.risingFrom none (invalidateWhere (combineInDie st line) line fun _ => true).dirs = true :=
    risingDirs_invalidateWhere (risingDirs_takePartials hd _ _) _ _
  unfold recallLine
  dsimp only
  split <;> exact Sparse.rising_set _ _ _ _ hcombined

theorem risingDirs_readyToRead (line : Nat) : Sparse.risingFrom none (readyToRead st line).dirs = true := by
  unfold readyToRead
  split
  · exact risingDirs_recallLine hd line
  · exact risingDirs_combineLine hd line
  · exact hd

theorem risingDirs_readyToWrite (line : Nat) : Sparse.risingFrom none (readyToWrite st line).dirs = true := by
  unfold readyToWrite
  split
  · exact Sparse.rising_set _ _ _ _ (risingDirs_invalidateWhere hd _ _)
  · exact risingDirs_readyToRead hd line

theorem risingDirs_readyForHost (line : Nat) (writes : Bool) : Sparse.risingFrom none (readyForHost st line writes).dirs = true := by
  unfold readyForHost
  split_ifs
  · exact Sparse.rising_set _ _ _ _ hd
  · exact risingDirs_readyToWrite hd line
  · exact risingDirs_readyToRead hd line

theorem risingDirs_storeAtHome (line pts : Nat) (mask : BitVec 16) (x : BitVec 512) :
    Sparse.risingFrom none (storeAtHome st line pts mask x).2.dirs = true := Sparse.rising_set _ _ _ _ hd

end

/-! ### Lines that the host gives up (R164, R225) -/

theorem HomeState.without_host (hs : BitVec 5) :
    HomeState.without 4 (.tracked hs) = if hs &&& 0xF = 0 then .untracked else .tracked (hs &&& 0xF) := by
  have hbits : ~~~(dieBit 4) = (0xF : BitVec 5) := by decide
  simp only [HomeState.without, hbits]

theorem exec_backInvalidationResponse (s : State) (line : Nat) :
    let s' := s.mapDev fun d => { d with backInv := d.backInv.filter (· != line) }
    let becomes := fun (x : HomeState) => s'.mapStore fun st => setDir st line { dirOf st line with state := x }
    (ownedByHost s.store line = true →
      (∀ bytes, s.dev.hostSilent = false → exec (.backInvalidationResponse line (some bytes)) s =
        .next (hostStore line (BitVec.ofNat 512 (ofLeBytes bytes)) 0xFFFF false s')) ∧
      (∀ bytes, s.dev.hostSilent = true → exec (.backInvalidationResponse line (some bytes)) s =
        .next ((becomes .untracked).output (.hostError (64 * line)))) ∧
      exec (.backInvalidationResponse line none) s = .next (becomes .untracked)) ∧
    (∀ hs x, (dirOf s.store line).state = .tracked hs → exec (.backInvalidationResponse line x) s =
      .next (becomes (if hs &&& 0xF = 0 then .untracked else .tracked (hs &&& 0xF)))) := by
  intro s' becomes
  refine ⟨fun ho => ?_, fun hs x ht => ?_⟩
  · have hown : (dirOf s.store line).state = .ownedByHost := by simpa [ownedByHost] using ho
    have howned : ownedByHost s'.store line = true := ho
    have hfree : (dirOf s'.store line).state = .ownedByHost := hown
    refine ⟨fun bytes hs => show execBackInvalidationResponse line _ s = _ from ?_, fun bytes hs => show execBackInvalidationResponse line _ s = _ from ?_,
      show execBackInvalidationResponse line none s = _ from ?_⟩
    · have hloud : s'.dev.hostSilent = false := hs
      simp only [execBackInvalidationResponse]
      rw [show ownedByHost (s.mapDev fun d => { d with backInv := d.backInv.filter (· != line) }).store line = true from ho]
      simp [hs, s']
    · simp only [execBackInvalidationResponse]
      rw [show ownedByHost (s.mapDev fun d => { d with backInv := d.backInv.filter (· != line) }).store line = true from ho]
      simp [hs, State.mapStore, hown, becomes, s']
    · simp only [execBackInvalidationResponse]
      simp [State.mapStore, hown, becomes, s']
  · have hnot : ownedByHost s.store line = false := by simp [ownedByHost, ht]
    change execBackInvalidationResponse line x s = _
    simp only [execBackInvalidationResponse]
    simp [hnot, State.mapStore, ht, becomes, s', HomeState.without_host]

/-! ### Entries in error (R173, R201) -/

theorem hostSilent_noteCombines (before s : State) : (noteCombines before s).dev.hostSilent = s.dev.hostSilent := by
  refine foldl_keeps (fun t : State => t.dev.hostSilent = s.dev.hostSilent) _ _ _ rfl fun t line ht => ?_
  split
  · exact ht
  · exact ht

/-- The data that the host gives up with an entry of the home directory in error, as it is taken. -/
def takenFromHost (s : State) (line : Nat) (given : Option (List Byte)) : Option (List Byte) :=
  if s.dev.hostSilent then none else if ownedByHost s.store line then given else none

/-- The store with a line's copies taken home in an error of its home entry: memory has the newest data. -/
def gatheredHome (s : State) (line : Nat) (given : Option (List Byte)) : Store :=
  let st := match (dirOf s.store line).state with | .partials .. => combineLine s.store line | _ => combineInDie s.store line
  match newestDirty st line, takenFromHost s line given with
  | some c, _ => { st with mem := memPutLine st.mem line c.data 0xFFFF }
  | none, some bytes => { st with mem := memPutLine st.mem line (BitVec.ofNat 512 (ofLeBytes bytes)) 0xFFFF }
  | none, none => st

/-- The store after the recovery of an entry of the home directory. -/
def recoveredHome (s : State) (line : Nat) (given : Option (List Byte)) (lost : Bool) : Store :=
  let st := gatheredHome s line given
  let v := dropWhere { st with engineUse := st.engineUse.filter (· != line) } line (fun _ _ => true)
  setDir v line { dirOf v line with state := .untracked, wts := topTimestamp s, rts := topTimestamp s, poison := lost || (dirOf v line).poison }

theorem risingDirs_gatheredHome {s : State} (hd : Sparse.risingFrom none s.store.dirs = true) (line : Nat) (given : Option (List Byte)) :
    Sparse.risingFrom none (gatheredHome s line given).dirs = true := by
  have hcombined : Sparse.risingFrom none
      (match (dirOf s.store line).state with | .partials .. => combineLine s.store line | _ => combineInDie s.store line).dirs = true := by
    split
    · exact risingDirs_combineLine hd line
    · exact risingDirs_takePartials hd _ _
  unfold gatheredHome
  dsimp only
  split <;> exact hcombined

/-- The state after that recovery, before it is reported. -/
def homeRecovered (s : State) (line : Nat) (given : Option (List Byte)) (lost : Bool) : State :=
  let u := noteCombines s { s with store := recoveredHome s line given lost }
  if (takenFromHost s line given).isSome then noteWrite line u else u

theorem store_homeRecovered (s : State) (line : Nat) (given : Option (List Byte)) (lost : Bool) :
    (homeRecovered s line given lost).store = recoveredHome s line given lost := by
  obtain ⟨-, hstore, -⟩ := noteCombines_spec s { s with store := recoveredHome s line given lost }
  unfold homeRecovered
  dsimp only
  split <;> exact hstore

theorem hostSilent_homeRecovered (s : State) (line : Nat) (given : Option (List Byte)) (lost : Bool) :
    (homeRecovered s line given lost).dev.hostSilent = s.dev.hostSilent := by
  have h := hostSilent_noteCombines s { s with store := recoveredHome s line given lost }
  unfold homeRecovered
  dsimp only
  split <;> exact h

theorem homeDirectoryError_eq (s : State) (line : Nat) (given : Option (List Byte)) (lost : Bool) :
    homeDirectoryError line given lost s =
      (let asked := (homeRecovered s line given lost).output (.backInvalidate line)
       let dropped := s.dev.hostSilent = true ∧ ownedByHost s.store line = true ∧ given.isSome = true
       let t := logError (64 * line) 1 1 (homeDie line) 0xFFFF (if dropped then asked.output (.hostError (64 * line)) else asked)
       if lost then logError (64 * line) 1 2 (homeDie line) 0xFFFF t else t) := by
  have hsilent := hostSilent_homeRecovered s line given lost
  have hreturned : ((if ownedByHost s.store line then given else none).isSome = true) ↔ ownedByHost s.store line = true ∧ given.isSome = true := by
    split <;> simp_all
  have hdropped : ((homeRecovered s line given lost).dev.hostSilent && (if ownedByHost s.store line then given else none).isSome) = true ↔
      s.dev.hostSilent = true ∧ ownedByHost s.store line = true ∧ given.isSome = true := by
    rw [Bool.and_eq_true, hsilent, hreturned]
  dsimp only
  rw [← if_congr hdropped rfl rfl]
  rfl

/-- An entry of the home directory in error is recovered (R173): nobody has a copy any more, and the line's timestamps follow all others. -/
theorem exec_directoryError_home {s : State} (line : Nat) (hd : Sparse.risingFrom none s.store.dirs = true) (given : Option (List Byte)) (lost : Bool)
    (hh : isHostLine line = false) : ∃ u : State,
      (let asked := u.output (.backInvalidate line)
       let dropped := s.dev.hostSilent = true ∧ ownedByHost s.store line = true ∧ given.isSome = true
       let t := logError (64 * line) 1 1 (homeDie line) 0xFFFF (if dropped then asked.output (.hostError (64 * line)) else asked)
       exec (.directoryError none line given lost) s = .next (if lost then logError (64 * line) 1 2 (homeDie line) 0xFFFF t else t)) ∧
      copiesOf u.store line = [] ∧ (dirOf u.store line).state = .untracked ∧
        (dirOf u.store line).wts = topTimestamp s ∧ (dirOf u.store line).rts = topTimestamp s ∧
        (lost = true → (dirOf u.store line).poison = true) ∧
        (∀ bytes, given = some bytes → ownedByHost s.store line = true → copiesOf s.store line = [] → u.store.mem =
          if s.dev.hostSilent then s.store.mem else memPutLine s.store.mem line (BitVec.ofNat 512 (ofLeBytes bytes)) 0xFFFF) := by
  have hdir : dirOf (recoveredHome s line given lost) line = _ :=
    dirOf_setDir_same (st := dropWhere { gatheredHome s line given with
      engineUse := (gatheredHome s line given).engineUse.filter (· != line) } line fun _ _ => true) (risingDirs_gatheredHome hd line given) line _
  refine ⟨homeRecovered s line given lost, ?_, ?_⟩
  · change execDirectoryError none line given lost s = _
    rw [execDirectoryError, hh, if_neg Bool.false_ne_true]
    exact congrArg Host.Outcome.next (homeDirectoryError_eq s line given lost)
  · rw [store_homeRecovered, hdir]
    refine ⟨?_, rfl, rfl, rfl, fun hl => ?_, fun bytes hb ho hc => ?_⟩
    · change copiesOf (dropWhere _ line fun _ _ => true) line = []
      rw [copiesOf_dropWhere]
      simp
    · simp [hl]
    · have hown : (dirOf s.store line).state = .ownedByHost := by simpa [ownedByHost] using ho
      have hcombined : combineInDie s.store line = s.store := by rw [combineInDie, partialsOf, hc]; rfl
      have hnewest : newestDirty s.store line = none := by rw [newestDirty, hc]; rfl
      change (gatheredHome s line given).mem = _
      cases hs : s.dev.hostSilent <;> simp [gatheredHome, hown, hcombined, hnewest, takenFromHost, hs, ho, hb]

/-- The store with the copies of a die taken home in an error of its directory's entry. -/
def gatheredDie (s : State) (line d : Nat) : Store :=
  let st := match (dirOf s.store line).state with
    | .partials .. => combineDie s.store line d
    | .owned o => if o = d then combineInDie s.store line else s.store
    | _ => s.store
  let dirty := ((copiesOf st line).filter fun e => holderDie e.1 == d && e.2.state == .modified)
  match newestDirty { st with copies := dirty.map fun e => (copyKey e.1 line, e.2) } line with
  | some c => { st with mem := memPutLine st.mem line c.data 0xFFFF }
  | none => st

theorem risingDirs_gatheredDie {s : State} (hd : Sparse.risingFrom none s.store.dirs = true) (line d : Nat) :
    Sparse.risingFrom none (gatheredDie s line d).dirs = true := by
  have hcombined : Sparse.risingFrom none
      (match (dirOf s.store line).state with
        | .partials .. => combineDie s.store line d
        | .owned o => if o = d then combineInDie s.store line else s.store
        | _ => s.store).dirs = true := by
    split
    · exact risingDirs_combineDie hd line d
    · split
      · exact risingDirs_takePartials hd _ _
      · exact hd
    · exact hd
  unfold gatheredDie
  dsimp only
  split <;> exact hcombined

/-- The store after the recovery of an entry of a die's directory. -/
def recoveredDie (s : State) (line d : Nat) (lost : Bool) : Store :=
  let v := dropWhere (gatheredDie s line d) line (fun h _ => holderDie h == d)
  let e := dirOf v line
  setDir v line { e with state := e.state.without d, wts := topTimestamp s, rts := topTimestamp s, poison := lost || e.poison }

/-- An entry of a die's directory in error is recovered within the die (R173): the die has no copy any more. -/
theorem exec_directoryError_die {s : State} (line d : Nat) (hd : Sparse.risingFrom none s.store.dirs = true) (given : Option (List Byte)) (lost : Bool)
    (hh : isHostLine line = false) (hdie : d < 4) : ∃ u : State,
      (let t := logError (64 * line) 2 1 d 0xFFFF u
       exec (.directoryError (some d) line given lost) s = .next (if lost then logError (64 * line) 2 2 d 0xFFFF t else t)) ∧
      (∀ e ∈ copiesOf u.store line, holderDie e.1 ≠ d) ∧
        (dirOf u.store line).wts = topTimestamp s ∧ (dirOf u.store line).rts = topTimestamp s ∧
        (lost = true → (dirOf u.store line).poison = true) := by
  have hdir : dirOf (recoveredDie s line d lost) line = _ :=
    dirOf_setDir_same (st := dropWhere (gatheredDie s line d) line fun h _ => holderDie h == d) (risingDirs_gatheredDie hd line d) line _
  obtain ⟨-, hstore, -⟩ := noteCombines_spec s { s with store := recoveredDie s line d lost }
  refine ⟨noteCombines s { s with store := recoveredDie s line d lost }, ?_, ?_⟩
  · change execDirectoryError (some d) line given lost s = _
    rw [execDirectoryError, hh, if_neg Bool.false_ne_true]
    exact congrArg Host.Outcome.next (if_pos hdie)
  · rw [hstore, hdir]
    refine ⟨fun e he => ?_, rfl, rfl, fun hl => by simp [hl]⟩
    have hmem : e ∈ copiesOf (dropWhere (gatheredDie s line d) line fun h _ => holderDie h == d) line := he
    rw [copiesOf_dropWhere] at hmem
    simpa using (List.mem_filter.mp hmem).2

theorem exec_tlbSoftError_tlb {s : State} {d : Nat} (h : d < s.store.tlbs.length) :
    exec (.tlbSoftError d) s = .next (s.mapStore fun st => { st with tlbs := st.tlbs.eraseIdx d }) := by
  change execTlbSoftError d s = _
  simp [execTlbSoftError, State.mapStore, h]

theorem exec_tlbSoftError_walk {s : State} {d : Nat} (h : s.store.tlbs.length ≤ d) :
    exec (.tlbSoftError d) s = .next (s.mapStore fun st => { st with walks := st.walks.eraseIdx (d - st.tlbs.length) }) := by
  change execTlbSoftError d s = _
  simp [execTlbSoftError, State.mapStore, h]

/-! ### Accesses of the host (R154, R208, R262, R263) -/

/-- Where the link carries the host's accesses. -/
theorem hostRefused_eq_false (u : State) : u.hostRefused = false ↔ u.dev.boot = 1 ∧ u.dev.hostSilent = false := by
  simp [State.hostRefused]

section
variable {s : State} {a pa : Nat} (hp : s.dev.hdm a = some pa) (ha : a < 2 ^ 60)
include hp ha

theorem exec_hostRead : exec (.hostRead a) s = .next (hostLoad a pa false s) := by
  change Host.Outcome.next (hostReadAt a false s) = _
  rw [hostReadAt, if_neg (by simpa [configBase] using ha), hp]

theorem exec_hostReadShared : exec (.hostReadShared a) s = .next (hostLoad a pa true s) := by
  change Host.Outcome.next (hostReadAt a true s) = _
  rw [hostReadAt, if_neg (by simpa [configBase] using ha), hp]

theorem exec_hostWrite {data : List Byte} {own : Bool} (hl : inOneLine a data.length = true ∨ data = [] ∧ own = true) :
    exec (.hostWrite a data own) s = .next (hostWriteAt a pa data own s) := by
  change execHostWrite a data own s = _
  have hopen : ¬ (configBase ≤ a ∨ ¬ (inOneLine a data.length = true ∨ data = [] ∧ own = true)) :=
    not_or.mpr ⟨not_le.mpr ha, not_not.mpr hl⟩
  rw [execHostWrite, if_neg (by simpa using hopen), hp]

theorem exec_controlFieldWrite {data : List Byte} (hl : inOneLine a data.length = true) :
    exec (.controlFieldWrite a data) s = .next (hostWriteAt a pa data false s) := exec_hostWrite hp ha (.inl hl)

end

/-- 64 zero bytes with the poison indication. -/
theorem poisonedData_eq (a : Nat) (u : State) : poisonedData a u = u.output (.hostData a (List.replicate 64 0) true) := rfl

section
variable (s : State) (a pa : Nat) (keep : Bool)

theorem hostLoad_refused (h : (hostActive s).hostRefused = true) :
    hostLoad a pa keep s = (hostActive s).output (.hostData a (List.replicate 64 0) true) := by
  rw [hostLoad]
  exact if_pos h

theorem hostLoad_breaks (h : (hostActive s).hostRefused = false) (hb : (hostActive s).dev.breaksAccess (64 * (pa / 64)) 64 = true) :
    hostLoad a pa keep s = logHostAccess pa ((hostActive s).output (.hostData a (List.replicate 64 0) true)) := by
  rw [hostLoad]
  exact (if_neg (by simp [h])).trans (if_pos hb)

theorem hostLoad_poisoned (h : (hostActive s).hostRefused = false) (hb : (hostActive s).dev.breaksAccess (64 * (pa / 64)) 64 = false)
    (hpo : (dirOf (hostActive s).store (pa / 64)).poison = true) : hostLoad a pa keep s =
      logError (64 * (pa / 64)) 3 4 (homeDie (pa / 64)) 0xFFFF ((hostActive s).output (.hostData a (List.replicate 64 0) true)) := by
  rw [hostLoad]
  exact (if_neg (by simp [h])).trans ((if_neg (by simp [hb])).trans (if_pos hpo))

/-- The state at the home of a line that the host reads. -/
def hostReads (u : State) (line : Nat) : State := noteCombines u { u with store := readyForHost u.store line false }

theorem hostLoad_once (h : (hostActive s).hostRefused = false) (hb : (hostActive s).dev.breaksAccess (64 * (pa / 64)) 64 = false)
    (hpo : (dirOf (hostActive s).store (pa / 64)).poison = false) :
    let v := hostReads (hostActive s) (pa / 64)
    hostLoad a pa false s = v.output (.hostData a (memBytes v.store.mem (64 * (pa / 64)) 64) false) := by
  intro v
  rw [hostLoad]
  exact (if_neg (by simp [h])).trans ((if_neg (by simp [hb])).trans (if_neg (by simp [hpo])))

/-- The sharers that a home tracks. -/
def HomeState.sharers : HomeState → BitVec 5
  | .tracked x => x
  | _ => 0

theorem hostLoad_shared (h : (hostActive s).hostRefused = false) (hb : (hostActive s).dev.breaksAccess (64 * (pa / 64)) 64 = false)
    (hpo : (dirOf (hostActive s).store (pa / 64)).poison = false) :
    ∃ (sh : BitVec 5) (t : State), hostLoad a pa true s = t.output (.hostData a (memBytes t.store.mem (64 * (pa / 64)) 64) false) ∧
      t = (hostReads (hostActive s) (pa / 64)).mapStore fun st =>
        setDir st (pa / 64) { dirOf st (pa / 64) with state := .tracked (sh ||| 0x10) } := by
  refine ⟨(dirOf (readyForHost (hostActive s).store (pa / 64) false) (pa / 64)).state.sharers, _, ?_, rfl⟩
  rw [hostLoad]
  exact (if_neg (by simp [h])).trans ((if_neg (by simp [hb])).trans (if_neg (by simp [hpo])))

end

section
variable (s : State) (a pa : Nat) (own : Bool)

theorem hostWriteAt_refused_data {data : List Byte} (hne : data ≠ []) (h : (hostActive s).hostRefused = true) :
    hostWriteAt a pa data own s = (hostActive s).output (.hostError a) := by
  rw [hostWriteAt]
  refine (if_pos h).trans ?_
  simp [hne]

theorem hostWriteAt_refused_own (h : (hostActive s).hostRefused = true) :
    hostWriteAt a pa [] own s = (hostActive s).output (.hostData a (List.replicate 64 0) true) := by
  rw [hostWriteAt]
  exact if_pos h

theorem hostWriteAt_stores {data : List Byte} (hne : data ≠ []) (h : (hostActive s).hostRefused = false)
    (hb : (hostActive s).dev.breaksAccess pa data.length = false) :
    hostWriteAt a pa data own s =
      hostStore (pa / 64) (hostWords (hostActive s) pa data).1 (hostWords (hostActive s) pa data).2 own (hostActive s) := by
  have hlen : max 1 data.length = data.length := max_eq_right (List.length_pos_iff.mpr hne)
  rw [hostWriteAt, hlen]
  simp [h, hb, hne]

/-- A read for ownership returns the line as it stands at the home. -/
theorem hostWriteAt_owns (h : (hostActive s).hostRefused = false) (hb : (hostActive s).dev.breaksAccess pa 1 = false)
    (hpo : (dirOf (hostActive s).store (pa / 64)).poison = false) :
    let t := hostStore (pa / 64) (hostWords (hostActive s) pa []).1 (hostWords (hostActive s) pa []).2 true (hostActive s)
    hostWriteAt a pa [] true s = t.output (.hostData a (memBytes t.store.mem (64 * (pa / 64)) 64) false) := by
  rw [hostWriteAt]
  simp [h, hb, hpo]

end

/-- After a store of the host that asks for ownership the host owns the line. -/
theorem state_hostStore_own {u : State} (hd : Sparse.risingFrom none u.store.dirs = true) (line : Nat) (x : BitVec 512) (mask : BitVec 16) :
    (dirOf (hostStore line x mask true u).store line).state = .ownedByHost := by
  have hstored := risingDirs_storeAtHome (risingDirs_readyForHost hd line true) line 0 mask x
  have howned := dirOf_setDir_same hstored line
    { dirOf (storeAtHome (readyForHost u.store line true) line 0 mask x).2 line with state := .ownedByHost }
  obtain ⟨-, hstore, -⟩ := noteCombines_spec u { u with store := setDir _ line _ }
  exact congrArg DirEntry.state ((congrArg (dirOf · line) hstore).trans howned)

theorem store_hostActive (s : State) : (hostActive s).store = s.store := by
  unfold hostActive leaveIdle
  split <;> rfl

section
variable {s : State} {a pa : Nat} (op : AtomicOp) {w : Nat} (b c : W64)

theorem exec_hostAtomic (hp : s.dev.hdm a = some pa) (hl : inOneLine a w = true) :
    exec (.hostAtomic a op w b c) s = .next (hostAtomicAt a pa op w b c s) := by
  change execHostAtomic a op w b c s = _
  rw [execHostAtomic, hl, hp]
  rfl

theorem hostAtomicAt_refused (h : (hostActive s).hostRefused = true) :
    hostAtomicAt a pa op w b c s = (hostActive s).output (.hostError a) := by
  rw [hostAtomicAt]
  exact if_pos h

theorem hostAtomicAt_performs (h : (hostActive s).hostRefused = false) (hb : (hostActive s).dev.breaksAccess pa w = false)
    (hpo : (dirOf (hostActive s).store (pa / 64)).poison = false) :
    let u := hostActive s
    let st := readyForHost u.store (pa / 64) true
    let old := memNat st.mem pa w
    let new := atomicFn op (8 * w) old (b.toNat % 256 ^ w) (c.toNat % 256 ^ w)
    let x := lineSet (lineData st.mem (pa / 64)) (pa % 64) w new
    hostAtomicAt a pa op w b c s = (noteWrite (pa / 64) (noteCombines u
      { u with store := (storeAtHome st (pa / 64) 0 (wordMask (pa % 64) w) x).2 })).output (.hostOld a (BitVec.ofNat 64 old)) := by
  intro u st old new x
  rw [hostAtomicAt]
  exact (if_neg (by simp [h])).trans ((if_neg (by simp [hb])).trans (if_neg (by simp [hpo])))

end

theorem inOneLine_iff (pa n : Nat) : inOneLine pa n = true ↔ 0 < n ∧ pa % 64 + n ≤ 64 := by
  simp [inOneLine]

/-- What the host does outside the ranges of the device's memory: its own memory changes as it writes. -/
theorem exec_hostWrite_outside {s : State} {a : Nat} {data : List Byte} {own : Bool} (hp : s.dev.hdm a = none) (ha : a < hostBase)
    (hlen : 0 < data.length) (hl : a % 64 + data.length ≤ 64) :
    exec (.hostWrite a data own) s = .next (s.mapStore fun st => { st with mem := memPutBytes st.mem (hostBase + a) data }) := by
  have hline : inOneLine a data.length = true := (inOneLine_iff _ _).mpr ⟨hlen, hl⟩
  have hconfig : ¬ configBase ≤ a := by simp only [configBase, hostBase] at *; omega
  change execHostWrite a data own s = _
  simp [execHostWrite, hline, hconfig, hp, ha]

theorem exec_hostRead_outside {s : State} {a : Nat} (hp : s.dev.hdm a = none) (ha : a < hostBase) : exec (.hostRead a) s = .next s := by
  have hconfig : ¬ configBase ≤ a := by simp only [configBase, hostBase] at *; omega
  change Host.Outcome.next (hostReadAt a false s) = _
  rw [hostReadAt, if_neg hconfig, hp]

theorem exec_hostRead_config (s : State) (o : Nat) :
    exec (.hostRead (2 ^ 60 + o)) s = .next (s.output (.hostData (2 ^ 60 + o) (s.dev.capability.drop o) false)) := by
  change Host.Outcome.next (hostReadAt (2 ^ 60 + o) false s) = _
  rw [hostReadAt, if_pos (by simp [configBase]), show 2 ^ 60 + o - configBase = o by simp [configBase]]

theorem hdm_gddr (d : Device) {dpa : Nat} (h : dpa < 2 ^ 40) : d.hdm (d.hdmGddr + dpa) = some dpa := by
  have hin : d.hdmGddr ≤ d.hdmGddr + dpa ∧ d.hdmGddr + dpa < d.hdmGddr + lpddrBase := by simp only [lpddrBase]; omega
  rw [Device.hdm, if_pos hin, Nat.add_sub_cancel_left]

theorem hdm_lpddr (d : Device) {dpa : Nat} (hlo : 2 ^ 40 ≤ dpa) (hhi : dpa < 2 ^ 40 + 2 ^ 44) (hd : d.hdmGddr + 2 ^ 40 ≤ d.hdmLpddr) :
    d.hdm (d.hdmLpddr + (dpa - 2 ^ 40)) = some dpa := by
  have hout : ¬ (d.hdmGddr ≤ d.hdmLpddr + (dpa - 2 ^ 40) ∧ d.hdmLpddr + (dpa - 2 ^ 40) < d.hdmGddr + lpddrBase) := by
    simp only [lpddrBase]; omega
  have hin : d.hdmLpddr ≤ d.hdmLpddr + (dpa - 2 ^ 40) ∧ d.hdmLpddr + (dpa - 2 ^ 40) < d.hdmLpddr + 2 ^ 44 := by omega
  rw [Device.hdm, if_neg hout, if_pos hin, Nat.add_sub_cancel_left]
  simp only [lpddrBase]
  exact congrArg some (by omega)

/-- The accesses of the host to an address of the ranges that the link carries. -/
theorem hostAccesses {s : State} {a pa : Nat} (data : List Byte) (own : Bool) (op : AtomicOp) (w : Nat) (b c : W64) (hp : s.dev.hdm a = some pa)
    (ha : a < 2 ^ 60) :
    let u := hostActive s
    let line := pa / 64
    let up := u.dev.boot = 1 ∧ u.dev.hostSilent = false
    let fits := fun (n : Nat) => 0 < n ∧ pa % 64 + n ≤ 64 ∧ a % 64 + n ≤ 64
    let bad : State := u.output (.hostData a (List.replicate 64 0) true)
    (up → u.dev.breaksAccess (64 * line) 64 = false → (dirOf u.store line).poison = false →
      let v := noteCombines u { u with store := readyForHost u.store line false }
      exec (.hostRead a) s = .next (v.output (.hostData a (memBytes v.store.mem (64 * line) 64) false)) ∧
      ∃ sh t, exec (.hostReadShared a) s = .next (t.output (.hostData a (memBytes t.store.mem (64 * line) 64) false)) ∧
        t = v.mapStore fun st => setDir st line { dirOf st line with state := .tracked (sh ||| 0x10) }) ∧
    (up → u.dev.breaksAccess (64 * line) 64 = true → exec (.hostRead a) s = .next (logHostAccess pa bad) ∧
      exec (.hostReadShared a) s = .next (logHostAccess pa bad)) ∧
    (up → u.dev.breaksAccess (64 * line) 64 = false → (dirOf u.store line).poison = true →
      exec (.hostRead a) s = .next (logError (64 * line) 3 4 (homeDie line) 0xFFFF bad)) ∧
    (¬ up → exec (.hostRead a) s = .next bad ∧ exec (.hostReadShared a) s = .next bad ∧ exec (.hostWrite a [] true) s = .next bad ∧
      (fits data.length → exec (.hostWrite a data own) s = .next (u.output (.hostError a)) ∧
        exec (.controlFieldWrite a data) s = .next (u.output (.hostError a))) ∧
      (fits w → exec (.hostAtomic a op w b c) s = .next (u.output (.hostError a)))) ∧
    (up → fits data.length → u.dev.breaksAccess pa data.length = false →
      let x := hostWords u pa data
      exec (.hostWrite a data own) s = .next (hostStore line x.1 x.2 own u) ∧
      exec (.controlFieldWrite a data) s = .next (hostStore line x.1 x.2 false u)) ∧
    (up → u.dev.breaksAccess pa 1 = false → (dirOf u.store line).poison = false → Sparse.risingFrom none s.store.dirs = true →
      ∃ t : State, exec (.hostWrite a [] true) s = .next (t.output (.hostData a (memBytes t.store.mem (64 * line) 64) false)) ∧
        (dirOf t.store line).state = HomeState.ownedByHost) ∧
    (up → fits w → u.dev.breaksAccess pa w = false → (dirOf u.store line).poison = false →
      let st := readyForHost u.store line true
      let old := memNat st.mem pa w
      let new := atomicFn op (8 * w) old (b.toNat % 256 ^ w) (c.toNat % 256 ^ w)
      let x := lineSet (lineData st.mem line) (pa % 64) w new
      exec (.hostAtomic a op w b c) s = .next ((noteWrite line (noteCombines u
        { u with store := (storeAtHome st line 0 (wordMask (pa % 64) w) x).2 })).output (.hostOld a (BitVec.ofNat 64 old)))) := by
  intro u line up fits bad
  have carries : up → u.hostRefused = false := (hostRefused_eq_false u).mpr
  have refuses : ¬ up → u.hostRefused = true := fun h => Bool.of_not_eq_false fun k => h ((hostRefused_eq_false u).mp k)
  have nonempty : fits data.length → data ≠ [] := fun h => List.length_pos_iff.mp h.1
  have inLine : ∀ {n}, fits n → inOneLine a n = true := fun h => (inOneLine_iff _ _).mpr ⟨h.1, h.2.2⟩
  have reads := exec_hostRead hp ha
  have shares := exec_hostReadShared hp ha
  have owns := exec_hostWrite hp ha (data := []) (own := true) (.inr ⟨rfl, rfl⟩)
  have writes : fits data.length → exec (.hostWrite a data own) s = .next (hostWriteAt a pa data own s) :=
    fun h => exec_hostWrite hp ha (.inl (inLine h))
  have controls : fits data.length → exec (.controlFieldWrite a data) s = .next (hostWriteAt a pa data false s) :=
    fun h => exec_controlFieldWrite hp ha (inLine h)
  have atomics : fits w → exec (.hostAtomic a op w b c) s = .next (hostAtomicAt a pa op w b c s) := fun h => exec_hostAtomic op b c hp (inLine h)
  refine ⟨fun hu hb hpo => ⟨?_, ?_⟩, fun hu hb => ⟨?_, ?_⟩, fun hu hb hpo => ?_,
    fun hu => ⟨?_, ?_, ?_, fun hf => ⟨?_, ?_⟩, fun hf => ?_⟩, fun hu hf hb => ⟨?_, ?_⟩, fun hu hb hpo hd => ?_, fun hu hf hb hpo => ?_⟩
  · rw [reads, hostLoad_once s a pa (carries hu) hb hpo]
    rfl
  · obtain ⟨sh, t, hload, ht⟩ := hostLoad_shared s a pa (carries hu) hb hpo
    exact ⟨sh, t, by rw [shares, hload], ht⟩
  · rw [reads, hostLoad_breaks s a pa false (carries hu) hb]
  · rw [shares, hostLoad_breaks s a pa true (carries hu) hb]
  · rw [reads, hostLoad_poisoned s a pa false (carries hu) hb hpo]
  · rw [reads, hostLoad_refused s a pa false (refuses hu)]
  · rw [shares, hostLoad_refused s a pa true (refuses hu)]
  · rw [owns, hostWriteAt_refused_own s a pa true (refuses hu)]
  · rw [writes hf, hostWriteAt_refused_data s a pa own (nonempty hf) (refuses hu)]
  · rw [controls hf, hostWriteAt_refused_data s a pa false (nonempty hf) (refuses hu)]
  · rw [atomics hf, hostAtomicAt_refused op b c (refuses hu)]
  · rw [writes hf, hostWriteAt_stores s a pa own (nonempty hf) (carries hu) hb]
  · rw [controls hf, hostWriteAt_stores s a pa false (nonempty hf) (carries hu) hb]
  · refine ⟨_, by rw [owns, hostWriteAt_owns s a pa (carries hu) hb hpo], ?_⟩
    exact state_hostStore_own (by rw [store_hostActive]; exact hd) _ _ _
  · rw [atomics hf, hostAtomicAt_performs op b c (carries hu) hb hpo]

/-- No field of the device control block that bring-up fills covers a reserved byte. -/
theorem fieldByte_of_reserved : ∀ o < 0x200, dcbField o = false → fieldByte dcbFields o = 0 := by decide +kernel

theorem initialByte_of_reserved {a : Nat} (h : isReserved a = true) : initialByte a = 0 := by
  rw [isReserved, Bool.and_eq_true, Bool.not_eq_true'] at h
  rw [initialByte]
  split
  · exact fieldByte_of_reserved _ (by omega) h.2
  · rfl

/-- Settles O56, event by event. -/
theorem coherenceAndHostAct : Obligations.CoherenceAndHostAct := by
  unfold Obligations.CoherenceAndHostAct
  refine ⟨fun s line d c hd => ⟨?_, ?_, ?_, ?_, ?_, ?_, ?_, ?_, ?_⟩, fun s a pa data own op w b c hp ha => hostAccesses data own op w b c hp ha,
    fun s a data own hp ha hlen hl => ⟨exec_hostWrite_outside hp ha hlen hl, exec_hostRead_outside hp ha⟩, exec_hostRead_config,
    fun d dpa => ⟨hdm_gddr d, hdm_lpddr d⟩,
    fun s a hm hr => (memRead_reserved s.store.mem a hm hr).trans (initialByte_of_reserved hr)⟩
  · intro x hs
    obtain ⟨recalls, returns⟩ := exec_recallOwner hs
    exact ⟨recalls, returns, fun h k => recallLine_of_owner hd hs⟩
  · exact fun hs ht hdie hbit => exec_invalidation hd ht hdie hbit
  · intro ds t o hs
    change execCombineRecall line d s = _
    rw [execCombineRecall, hs]
  · exact fun k hk => exec_evictionAnnounce hk
  · exact exec_backInvalidationResponse s line
  · exact fun given lost hh => exec_directoryError_home line hd given lost hh
  · exact fun given lost hh hdie => exec_directoryError_die line d hd given lost hh hdie
  · exact exec_tlbSoftError_tlb
  · exact exec_tlbSoftError_walk

end Sys2Proof.Machine

/-! SUPPORT. The statement on the engines: the array, the copy engine, barrier counts, and the barriers of packs. -/

namespace Sys2Proof.Machine

/-! ### The array (R130, R138, R139) -/

theorem exec_matrixOpStart {s : State} {c : Nat} {o : MatOp} (hidle : ∀ q ∈ ((refillQueue c s).core c).queue, q.running = false)
    (hl : (refillQueue c s).leashed c = false) (hg : ((refillQueue c s).core c).gated = false) (hp : ((refillQueue c s).core c).pause = 0)
    (ho : readyOp (refillQueue c s) [] ((refillQueue c s).core c).queue = some o) :
    let s' := refillQueue c s
    let u := s'.mapCore c fun k => { k with queue := k.queue.map fun q => if q = o then q.begin (s'.ctx o.ctx).phase else q }
    let isMma := match o.kind with | .mma .. => true | _ => false
    exec (.matrixOpStart c) s = .next (if isMma = true ∧ o.started = false ∧ (s'.ctx o.ctx).phase = none
      then u.mapCtx o.ctx fun x => x.countEvent .undecl o.age else u) := by
  intro s' u isMma
  have hnone : ((refillQueue c s).core c).queue.any (·.running) = false := List.any_eq_false.mpr fun q hq => by simp [hidle q hq]
  change execMatrixOpStart c s = _
  have hstart : execMatrixOpStart c s = .next (if isMma && !o.started && (s'.ctx o.ctx).phase.isNone
      then u.mapCtx o.ctx fun x => x.countEvent .undecl o.age else u) := by
    simp only [execMatrixOpStart, hnone, hl, hg, hp, ho]
    rfl
  rw [hstart]
  refine congrArg Host.Outcome.next (if_congr ?_ rfl rfl)
  simp [and_assoc]

/-- An operation whose last step ends through the port. -/
theorem exec_matrixOpRetire {s : State} {c : Nat} {o : MatOp}
    (ho : (s.core c).queue.find? (fun o => o.running && o.left == 0 && o.done + 1 == o.steps) = some o) :
    let room := o.stores = true → stagingRoom s c (1024 * transferBytes o.kind) = true
    (¬ room → exec (.matrixOpRetire c) s = .next (leavePorts .matrix s)) ∧
    (room → exec (.matrixOpRetire c) s = .next (throughPort .matrix c (o.touches s) (fun u =>
      ({ o with done := o.steps, flags := o.flags ||| (o.perform u).1 } : MatOp).retire
        ((o.perform u).2.mapCore c fun k => { k with queue := k.queue.erase o })) s)) := by
  intro room
  have hlast : o.done + 1 = o.steps := by
    have h := List.find?_some ho
    simp only [Bool.and_eq_true, beq_iff_eq] at h
    exact h.2
  have hthrough : exec (.matrixOpRetire c) s = .next (throughArray c o (fun o' s => o'.retire (s.mapCore c fun k => { k with queue := k.queue.erase o })) s) := by
    change execMatrixOpRetire c s = _
    rw [execMatrixOpRetire, ho]
  have hfull : (o.stores && !stagingRoom s c (1024 * transferBytes o.kind)) = true ↔ ¬ room := by
    simp [room]
  refine ⟨fun h => ?_, fun h => ?_⟩
  · rw [hthrough, throughArray, if_pos (hfull.mpr h)]
  · rw [hthrough, throughArray, if_neg (fun k => hfull.mp k h), hlast]

/-! ### Bytes of a copy, and the lines of a walk (R130, R172, R181, R246) -/

section
variable {s : State} {c n : Nat} {k : Channel} (hk : (s.core c).channels.find n = some k) (hgate : gateOpen s k = true)
include hk hgate

theorem exec_copyBytesLanded_copy {off len : Nat} (hkind : k.kind = .copy) (hs : k.stopped = false) (hf : k.fresh off len = true)
    (hp : (s.core c).pause = 0) (hroom : s.dieRoom c (k.units len) = true) :
    exec (.copyBytesLanded c n off len) s = .next ((moveBytes c n off len k s).getD (leavePorts (.copy c n) s)) := by
  change execCopyBytesLanded c n off len s = _
  simp [execCopyBytesLanded, hk, hgate, hkind, hs, hf, hp, hroom]

theorem exec_copyBytesLanded_walk {off len : Nat} {t : State} (hkind : k.kind ≠ .copy) (ht : walkLine c n off k s = some t) :
    exec (.copyBytesLanded c n off len) s = .next t := by
  change execCopyBytesLanded c n off len s = _
  cases hkk : k.kind <;> simp_all [execCopyBytesLanded]

end

/-- Whether bytes of a copy can be read and written where they lie, and their buffers have room. -/
def copyAble (s : State) (c off len : Nat) (k : Channel) : Prop :=
  let js := (List.range len).map (off + ·)
  (∀ x ∈ js.map (sourceSpot s c k) ++ js.map (destSpot s c k), x.usable = true) ∧
    ∀ e ∈ cellsOf (js.map (destSpot s c k)), stagingRoom s e.1 len = true

section
variable (s : State) (c n off len : Nat) (k : Channel)

theorem copyAble_iff :
    let js := (List.range len).map (off + ·)
    let to' := js.map (destSpot s c k)
    (!((js.map (sourceSpot s c k)).all Spot.usable && to'.all Spot.usable && (cellsOf to').all fun e => stagingRoom s e.1 len)) = false ↔
      copyAble s c off len k := by
  intro js to'
  rw [Bool.not_eq_false', Bool.and_eq_true, Bool.and_eq_true, List.all_eq_true, List.all_eq_true, List.all_eq_true, copyAble]
  exact and_congr_left' List.forall_mem_append.symm

theorem moveBytes_unable (h : ¬ copyAble s c off len k) : moveBytes c n off len k s = none := by
  rw [moveBytes]
  exact if_pos (Bool.of_not_eq_false fun hf => h ((copyAble_iff s c off len k).mp hf))

/-- The places that bytes of a copy are read from, and those that they are written to. -/
def copySources : List Spot := ((List.range len).map (off + ·)).map (sourceSpot s c k)

def copyDests : List Spot := ((List.range len).map (off + ·)).map (destSpot s c k)

def copyCells : List (Nat × Nat) := cellsOf (copySources s c off len k) ++ cellsOf (copyDests s c off len k)

/-- What follows the stores of a copy's bytes. -/
def moveStored (ys : List (Spot × Byte)) : Except Nat (Nat × State) → Option State
  | .error l => some (askHost l (leavePorts (.copy c n) s))
  | .ok (ts, u) => some (charge c (k.units len) (landChannel c n off len ts k
      (usePorts (.copy c n) (copyCells s c off len k) (sendBytes (cellBytes ys u) k ys))))

/-- What follows the loads of a copy's bytes. -/
def moveLoaded : Except Nat (List (Nat × BitVec 512) × Store) → Option State
  | .error l => some (askHost l (leavePorts (.copy c n) s))
  | .ok (lines, st) =>
    let s1 := noteCombines s { s with store := st }
    let ys := List.zip (copyDests s c off len k) ((copySources s c off len k).map (Spot.value s1.store lines))
    let bytes := memoryBytes ys
    moveStored s c n off len k ys (engineStores c (engineTs s k) bytes (bytes.map (·.1 / 64)).dedup s1)

/-- Bytes that can move wait at the ports of their banks. -/
theorem moveBytes_waits (h : copyAble s c off len k) (hp : portsFree s (.copy c n) (copyCells s c off len k) = false) :
    moveBytes c n off len k s = some (queuePorts (.copy c n) (copyCells s c off len k) s) := by
  have hports : (!portsFree s (.copy c n) (copyCells s c off len k)) = true := by rw [hp]; rfl
  rw [moveBytes]
  exact (if_neg (Bool.not_eq_true _ ▸ (copyAble_iff s c off len k).mpr h)).trans (if_pos hports)

/-- Through the ports they move as their loads and stores perform. -/
theorem moveBytes_moves (h : copyAble s c off len k) (hp : portsFree s (.copy c n) (copyCells s c off len k) = true) :
    moveBytes c n off len k s = moveLoaded s c n off len k
      (engineLoads c (engineTs s k) s.lease (((copySources s c off len k).filterMap Spot.physical).map (· / 64)).dedup s.store) := by
  have hports : ¬ (!portsFree s (.copy c n) (copyCells s c off len k)) = true := by rw [hp]; exact Bool.false_ne_true
  rw [moveBytes]
  refine (if_neg (Bool.not_eq_true _ ▸ (copyAble_iff s c off len k).mpr h)).trans ((if_neg hports).trans ?_)
  rw [moveLoaded.eq_def]
  rfl

end

theorem exec_copyBytesLanded_ways {s : State} {c n : Nat} {k : Channel} (hk : (s.core c).channels.find n = some k) (hgate : gateOpen s k = true)
    {off len : Nat} (hkind : k.kind = .copy) (hs : k.stopped = false) (hf : k.fresh off len = true) (hp : (s.core c).pause = 0) :
    let units := (k.landedBytes + len) / 64 - k.landedBytes / 64
    let js := (List.range len).map (off + ·)
    let from' := js.map (sourceSpot s c k)
    let to' := js.map (destSpot s c k)
    let cells := cellsOf from' ++ cellsOf to'
    let asks := fun (l : Nat) => exec (.copyBytesLanded c n off len) s = .next (askHost l (leavePorts (.copy c n) s))
    let able := (∀ x ∈ from' ++ to', x.usable = true) ∧ ∀ e ∈ cellsOf to', stagingRoom s e.1 len = true
    s.dieRoom c units = true →
    (¬ able → exec (.copyBytesLanded c n off len) s = .next (leavePorts (.copy c n) s)) ∧
    (able → portsFree s (.copy c n) cells = false → exec (.copyBytesLanded c n off len) s = .next (queuePorts (.copy c n) cells s)) ∧
    (able → portsFree s (.copy c n) cells = true → let pts := engineTs s k
      let lines := ((from'.filterMap Spot.physical).map (· / 64)).dedup
      (∀ l, engineLoads c pts s.lease lines s.store = .error l → asks l) ∧
      ∀ xs st, engineLoads c pts s.lease lines s.store = .ok (xs, st) →
        let s1 := noteCombines s { s with store := st }
        let ys := List.zip to' (from'.map (Spot.value s1.store xs))
        let bytes := memoryBytes ys
        let stored := engineStores c pts bytes (bytes.map (·.1 / 64)).dedup s1
        (∀ l, stored = .error l → asks l) ∧
        ∀ ts u, stored = .ok (ts, u) → exec (.copyBytesLanded c n off len) s =
          .next (charge c units (landChannel c n off len ts k (usePorts (.copy c n) cells (sendBytes (cellBytes ys u) k ys))))) := by
  intro units js from' to' cells asks able hroom
  have hmove := exec_copyBytesLanded_copy hk hgate hkind hs hf hp hroom
  have moves : ∀ {t}, moveBytes c n off len k s = some t → exec (.copyBytesLanded c n off len) s = .next t := fun ht => by rw [hmove, ht]; rfl
  refine ⟨fun h => ?_, fun h hports => moves (moveBytes_waits s c n off len k h hports), fun h hports => ?_⟩
  · rw [hmove, moveBytes_unable s c n off len k h]
    rfl
  · have hable := moveBytes_moves s c n off len k h hports
    refine ⟨fun l hl => moves (hable.trans (congrArg (moveLoaded s c n off len k) hl)), fun xs st hload => ?_⟩
    have hloaded := hable.trans (congrArg (moveLoaded s c n off len k) hload)
    exact ⟨fun l hl => moves (hloaded.trans (congrArg (moveStored s c n off len k _) hl)),
      fun ts u hu => moves (hloaded.trans (congrArg (moveStored s c n off len k _) hu))⟩

/-- What the landing of bytes leaves: they are in the channel's list, and their count is on its way to the object. -/
theorem landChannel_lands (s : State) (c n off len ts : Nat) (k : Channel) :
    let k' := { k with landed := (off, len) :: k.landed }
    let w0 := k.dst.getD 0 0
    let t := landChannel c n off len ts k s
    (t.core c).channels = Sparse.put (s.core c).channels n k' ∧ t.store = s.store ∧ t.ctxs = s.ctxs ∧
    (k.kind = .copy ∧ walkSpace w0 = 4 → t.dev.outputs = s.dev.outputs ++ [.signal (walkPeer (k.dst.getD 3 0)) (s.cont k.cont).launch.pack
      (walkCore w0) (walkPos w0) k.bar len none] ∧ (t.core c).counts = (s.core c).counts) ∧
    (¬ (k.kind = .copy ∧ walkSpace w0 = 4) → t.dev = s.dev ∧ (t.core c).counts = (s.core c).counts ++
      [{ cont := k.cont, rank := if k.kind = .copy then windowRank s k w0 else k.rank, off := k.bar, bytes := len, ts := ts, chan := n }]) := by
  intro k' w0 t
  by_cases hfar : k.kind = .copy ∧ walkSpace w0 = 4
  · have ht : t = (s.mapCore c fun x => { x with channels := Sparse.put x.channels n k' }).output
        (.signal (walkPeer (k.dst.getD 3 0)) (s.cont k.cont).launch.pack (walkCore w0) (walkPos w0) k.bar len none) := if_pos hfar
    rw [ht]
    refine ⟨?_, rfl, rfl, fun _ => ⟨rfl, ?_⟩, fun h => absurd hfar h⟩
    · rw [State.core_output, State.core_mapCore_self]
    · rw [State.core_output, State.core_mapCore_self]
  · have ht : t = s.mapCore c fun x => { x with
        channels := Sparse.put x.channels n k'
        counts := x.counts ++ [{ cont := k.cont, rank := if k.kind = .copy then windowRank s k w0 else k.rank, off := k.bar, bytes := len,
                                 ts := ts, chan := n }] } := if_neg hfar
    rw [ht]
    refine ⟨?_, rfl, rfl, fun h => absurd h hfar, fun _ => ⟨rfl, ?_⟩⟩
    · rw [State.core_mapCore_self]
    · rw [State.core_mapCore_self]

/-! ### Faults of a copy (R181, R182, R208) -/

/-- What is first found along a range is found at its number, and at no lower one. -/
theorem findSome?_range {α : Type} {f : Nat → Option α} {n : Nat} {x : α} (h : (List.range n).findSome? f = some x) :
    ∃ j < n, f j = some x ∧ ∀ i < j, f i = none := by
  obtain ⟨before, j, after, hrange, hj, hbefore⟩ := List.findSome?_eq_some_iff.mp h
  have hsorted : (before ++ j :: after).Pairwise (· < ·) := hrange ▸ List.pairwise_lt_range
  have hmem : ∀ i, i ∈ before ++ j :: after ↔ i < n := fun i => hrange ▸ List.mem_range
  obtain ⟨-, htail, -⟩ := List.pairwise_append.mp hsorted
  refine ⟨j, (hmem j).mp (by simp), hj, fun i hi => hbefore i ?_⟩
  have hin := (hmem i).mpr (lt_trans hi ((hmem j).mp (by simp)))
  rcases List.mem_append.mp hin with hb | hrest
  · exact hb
  · rcases List.mem_cons.mp hrest with rfl | hafter
    · exact absurd hi (lt_irrefl _)
    · exact absurd hi (lt_asymm ((List.pairwise_cons.mp htail).1 i hafter))

/-- The fault of a channel's own at one byte, where it is still to move. -/
def spotFault (s : State) (c : Nat) (k : Channel) (j : Nat) : Option (Bool × W64 × Nat) :=
  if k.fresh j 1 then
    match sourceSpot s c k j, destSpot s c k j with
    | .bad cls, _ => some (false, copyAddr k.src k.srcBase j, cls)
    | _, .bad cls => some (true, copyAddr k.dst k.dstBase j, cls)
    | _, _ => none
  else none

theorem ownFault_eq (s : State) (c : Nat) (k : Channel) : ownFault s c k = (List.range k.total).findSome? (spotFault s c k) := rfl

theorem spotFault_eq_some {s : State} {c : Nat} {k : Channel} {j : Nat} {side : Bool} {a : W64} {cls : Nat}
    (h : spotFault s c k j = some (side, a, cls)) : k.fresh j 1 = true ∧
      a = copyAddr (if side then k.dst else k.src) (if side then k.dstBase else k.srcBase) j ∧
      (if side then destSpot s c k j else sourceSpot s c k j) = .bad cls := by
  unfold spotFault at h
  split at h
  · split at h
    case h_1 _ cls' hs => simp_all
    case h_2 _ cls' hs => simp_all
    case h_3 => cases h
  · cases h

theorem not_bad_of_spotFault_eq_none {s : State} {c : Nat} {k : Channel} {i : Nat} (h : spotFault s c k i = none) (hf : k.fresh i 1 = true)
    (x : Nat) : sourceSpot s c k i ≠ .bad x ∧ destSpot s c k i ≠ .bad x := by
  unfold spotFault at h
  rw [if_pos hf] at h
  split at h
  case h_1 => cases h
  case h_2 => cases h
  case h_3 _ _ hsource hdest => exact ⟨hsource x, hdest x⟩

/-- The first byte of a channel that is still to move and whose source or destination is bad. -/
theorem ownFault_eq_some {s : State} {c : Nat} {k : Channel} {side : Bool} {a : W64} {cls : Nat} (h : ownFault s c k = some (side, a, cls)) :
    ∃ j < k.total, k.fresh j 1 = true ∧ a = copyAddr (if side then k.dst else k.src) (if side then k.dstBase else k.srcBase) j ∧
      (if side then destSpot s c k j else sourceSpot s c k j) = .bad cls ∧
      ∀ i < j, k.fresh i 1 = true → ∀ x, sourceSpot s c k i ≠ .bad x ∧ destSpot s c k i ≠ .bad x := by
  obtain ⟨j, hj, hfault, hbefore⟩ := findSome?_range h
  obtain ⟨hfresh, ha, hbad⟩ := spotFault_eq_some hfault
  exact ⟨j, hj, hfresh, ha, hbad, fun i hi hf => not_bad_of_spotFault_eq_none (hbefore i hi) hf⟩

theorem firstFault_peer {s : State} {c : Nat} {k : Channel} {e : PeerError} {side : Bool} {a : W64} {cls : Nat}
    (h : firstFault s c k (some e) = some (side, a, cls)) :
    side = true ∧ a = copyAddr k.dst k.dstBase e.first ∧ cls = if walkSpace (k.dst.getD 0 0) = 4 then 5 else 4 := by
  simp only [firstFault] at h
  split at h
  · obtain ⟨rfl, rfl, rfl⟩ := by simpa using h
    exact ⟨rfl, rfl, rfl⟩
  · cases h

theorem exec_copyFault_none {s : State} {c n : Nat} {k : Channel} {e : Option PeerError} (hk : (s.core c).channels.find n = some k)
    (hf : firstFault s c k e = none) : exec (.copyFault c n e) s = .next s := by
  change execCopyFault c n e s = _
  simp only [execCopyFault, hk, hf]
  split <;> rfl

/-! ### What the log of a copy fault leaves (R182, R208) -/

/-- The distributor at work, with nothing of what has left the device taken back. -/
structure State.Reports (s t : State) : Prop where
  distributes : Distributes s t
  grows : ∃ l, t.dev.outputs = s.dev.outputs ++ l

namespace State.Reports

theorem refl (s : State) : s.Reports s := ⟨.refl s, [], (List.append_nil _).symm⟩

theorem trans {s t u : State} (h : s.Reports t) (k : t.Reports u) : s.Reports u := by
  obtain ⟨x, hx⟩ := h.grows
  obtain ⟨y, hy⟩ := k.grows
  exact ⟨h.distributes.trans k.distributes, x ++ y, by rw [hy, hx, List.append_assoc]⟩

theorem distWrite (pa : Nat) (data : List Byte) (s : State) : s.Reports (distWrite pa data s) := by
  obtain ⟨d, -, ls, hls⟩ := distWrite_spec pa data s
  exact ⟨d, _, hls⟩

theorem mapDev (s : State) (f : Device → Device) (hf : (f s.dev).outputs = s.dev.outputs) : s.Reports (s.mapDev f) :=
  ⟨.mapDev s f, [], hf.trans (List.append_nil _).symm⟩

theorem mapCont (s : State) (i : Nat) (f : Cont → Cont) : s.Reports (s.mapCont i f) := ⟨.mapCont s i f, [], (List.append_nil _).symm⟩

theorem output (s : State) (o : Output) : s.Reports (s.output o) := ⟨.output s o, [o], rfl⟩

theorem interrupt (v : Nat) (s : State) : s.Reports (interrupt v s) := by
  unfold Machine.interrupt
  split
  · exact refl s
  · split
    · exact output s _
    · exact mapDev s _ rfl

/-- An entry in the error log. -/
theorem logError (pa source kind die h : Nat) (s : State) : s.Reports (logError pa source kind die h s) :=
  ((distWrite _ _ s).trans (distWrite _ _ _)).trans ((mapDev _ _ rfl).trans ((interrupt 1 _).trans (output _ _)))

theorem logWalk (core h : Nat) (w : Walked) (s : State) : s.Reports (logWalk core h w s) := by
  unfold Machine.logWalk
  split
  · exact logError _ _ _ _ _ s
  · exact refl s

theorem logSpot (s : State) (c : Nat) (k : Channel) (side : Bool) (a : W64) (cls : Nat) : s.Reports (logSpot s c k side a cls) := by
  have hwalk : ∀ w : Walked, s.Reports (match w with
      | .found pa _ _ _ => if cls = 3 then Machine.logError (pa / 64 * 64) 5 4 (dieOf c) k.ctx s else s
      | w => Machine.logWalk c k.ctx w s) := by
    intro w
    cases w with
    | found pa _ _ _ =>
      dsimp only
      split
      · exact logError _ _ _ _ _ s
      · exact refl s
    | failed => exact logWalk _ _ _ s
  unfold Machine.logSpot
  dsimp only
  generalize (if side then k.dst else k.src).getD 0 0 = w
  split
  · exact refl s
  · exact hwalk _

theorem logCopyFault (k : Channel) (addr space : Nat) (side : Bool) (cls written : Nat) (u : State) :
    u.Reports (logCopyFault k addr space side cls written u) := (mapCont u _ _).trans (distWrite _ _ _)

theorem mem_outputs {s t : State} (h : s.Reports t) {o : Output} (ho : o ∈ s.dev.outputs) : o ∈ t.dev.outputs := by
  obtain ⟨l, hl⟩ := h.grows
  rw [hl]
  exact List.mem_append_left _ ho

end State.Reports

/-! ### A copy that faults, is lost, or is complete (R181 to R183) -/

/-- What the log of a copy fault writes. -/
def copyFaultLogged (c : Nat) (k : Channel) (e : Option PeerError) (side : Bool) (a : W64) (cls : Nat) (t : State) : State :=
  logCopyFault k a.toNat (walkSpace ((if side then k.dst else k.src).getD 0 0)) side cls (k.landedBytes - (e.map PeerError.refused).getD 0)
    (logSpot t c k side a cls)

theorem reports_copyFaultLogged (c : Nat) (k : Channel) (e : Option PeerError) (side : Bool) (a : W64) (cls : Nat) (t : State) :
    t.Reports (copyFaultLogged c k e side a cls t) := (State.Reports.logSpot t c k side a cls).trans (.logCopyFault _ _ _ _ _ _ _)

/-- The channel stops, and all its bytes count. -/
def stopChannel (c n : Nat) (k : Channel) (s : State) : State :=
  s.mapCore c fun x => { x with counts := x.counts.filter (fun m => m.chan != n), channels := Sparse.put x.channels n { k with stopped := true, counted := k.total } }

/-- The stopped channel is found in every state with the cores of the one in which it stopped. -/
theorem find_channel_of_stopped {c n : Nat} {k : Channel} {s t : State} (h : t.cores = (stopChannel c n k s).cores) :
    ∃ k', (t.core c).channels.find n = some k' ∧ k'.stopped = true ∧ k'.counted = k.total := by
  have hfound : Sparse.find t.cores c = some _ := (congrArg (Sparse.find · c) h).trans (Sparse.find_put_same s.cores c _)
  refine ⟨{ k with stopped := true, counted := k.total }, ?_, rfl, rfl⟩
  rw [State.core_of_find hfound, Sparse.find_put_same]

/-- A marked object shows its error (R182). -/
theorem getLsbD_markError (core addr m : Nat) (st : Store) : (scratchWord (markError core addr m st) core (addr + 12)).getLsbD 1 = true := by
  have hword : ∀ x : W32, x ≠ 0 → scratchWord (scratchCount st core (addr + 12) x) core (addr + 12) = x := by
    intro x hx
    rw [scratchWord, scratchCount, Sparse.set, if_neg hx, Sparse.get_put_same]
  have hbit : ∀ x : W32, x.getLsbD 1 = true → x ≠ 0 := by
    rintro x hx rfl
    exact absurd hx (by decide)
  rw [markError]
  generalize hx : (if (scratchWord st core (addr + 12) ||| 2).extractLsb' 8 24 = 0 then _ else _) = x
  have hset : x.getLsbD 1 = true := by
    rw [← hx]
    split <;> simp
  rw [hword x (hbit x hset)]
  exact hset

/-- Where a copy fault has its effect. -/
theorem copyFault_open {s : State} {k : Channel} (hgate : gateOpen s k = true) (hkind : k.kind = .copy) (hs : k.stopped = false)
    (hspace : walkSpace (k.dst.getD 0 0) = 4 → s.dev.record.ports ≠ 0) :
    ¬ (k.kind ≠ .copy || k.stopped || !gateOpen s k || (walkSpace (k.dst.getD 0 0) == 4 && s.dev.record.ports == 0)) = true := by
  simp only [hkind, hs, hgate, Bool.or_eq_true, Bool.and_eq_true, beq_iff_eq, decide_eq_true_eq, ne_eq, not_true_eq_false, Bool.not_true,
    Bool.false_eq_true, false_or, not_and]
  exact hspace

theorem throughPort_free {u : PortUser} {core : Nat} {addrs : List Nat} {s : State} (f : State → State) (h : portFree s u core addrs = true) :
    throughPort u core addrs f s = f (usePort u core addrs s) := if_pos h

theorem throughPort_busy {u : PortUser} {core : Nat} {addrs : List Nat} {s : State} (f : State → State) (h : portFree s u core addrs = false) :
    throughPort u core addrs f s = queuePort u core addrs s := if_neg (by rw [h]; exact Bool.false_ne_true)

/-- A copy fault at an object of this device, in `u`: logged, the channel stopped, and the object marked. -/
def copyFaultMarked (s : State) (c n h : Nat) (k : Channel) (e : Option PeerError) (side : Bool) (a : W64) (cls : Nat) (u : State) : State :=
  let t := copyFaultLogged c k e side a cls (stopChannel c n k u)
  t.mapStore (markError (h / 4) ((s.ctx h).coreAddr k.bar) (t.cont k.cont).copyFaults)

theorem cores_copyFaultMarked (s : State) (c n h : Nat) (k : Channel) (e : Option PeerError) (side : Bool) (a : W64) (cls : Nat) (u : State) :
    (copyFaultMarked s c n h k e side a cls u).cores = (stopChannel c n k u).cores := by
  rw [copyFaultMarked, State.cores_mapStore]
  exact (reports_copyFaultLogged c k e side a cls (stopChannel c n k u)).distributes.cores

theorem cores_releaseTo (core addr ts : Nat) (s : State) : (releaseTo core addr ts s).cores = s.cores := rfl

theorem scratchWord_releaseTo (core addr ts : Nat) (s : State) (c a : Nat) :
    scratchWord (releaseTo core addr ts s).store c a = scratchWord s.store c a := rfl

theorem getLsbD_copyFaultMarked (s : State) (c n h : Nat) (k : Channel) (e : Option PeerError) (side : Bool) (a : W64) (cls : Nat) (u : State) :
    (scratchWord (copyFaultMarked s c n h k e side a cls u).store (h / 4) ((s.ctx h).coreAddr k.bar + 12)).getLsbD 1 = true := by
  rw [copyFaultMarked, State.store_mapStore]
  exact getLsbD_markError _ _ _ _

/-- A copy fault at an object of this device: the channel stops, and the object shows the error, before all bytes still to count do. -/
theorem exec_copyFault_counted {s : State} {c n h : Nat} {k : Channel} {e : Option PeerError} {side : Bool} {a : W64} {cls : Nat}
    (hk : (s.core c).channels.find n = some k) (hgate : gateOpen s k = true) (hkind : k.kind = .copy) (hs : k.stopped = false)
    (hf : firstFault s c k e = some (side, a, cls)) (hspace : walkSpace (k.dst.getD 0 0) ≠ 4)
    (hw : s.windowHw k.cont (windowRank s k (k.dst.getD 0 0)) = some h) (hp : (s.core (h / 4)).pause = 0) :
    let obj := (s.ctx h).coreAddr k.bar
    (portFree s (.copy c n) (h / 4) [obj] = false → exec (.copyFault c n e) s = .next (queuePort (.copy c n) (h / 4) [obj] s)) ∧
    (portFree s (.copy c n) (h / 4) [obj] = true →
      ∃ t, exec (.copyFault c n e) s = .next (countAt (h / 4) obj (k.total - k.counted) false t) ∧
        (∃ k', (t.core c).channels.find n = some k' ∧ k'.stopped = true ∧ k'.counted = k.total) ∧
        (scratchWord t.store (h / 4) (obj + 12)).getLsbD 1 = true) := by
  intro obj
  let ts := (((s.core c).counts.filter fun m => m.chan == n).map CountMsg.ts).foldl max 0
  have hexec : exec (.copyFault c n e) s = .next (engineUpdate (.copy c n) (h / 4) obj
      (fun u => countAt (h / 4) obj (k.total - k.counted) false (releaseTo (h / 4) obj ts (copyFaultMarked s c n h k e side a cls u))) s) := by
    change execCopyFault c n e s = _
    rw [execCopyFault, hk]
    dsimp only
    rw [if_neg (copyFault_open hgate hkind hs fun h4 => absurd h4 hspace), hf]
    dsimp only
    rw [if_neg hspace, hw]
    rfl
  rw [hexec, engineUpdate, if_pos hp]
  refine ⟨fun hport => by rw [throughPort_busy _ hport], fun hport => ?_⟩
  refine ⟨releaseTo (h / 4) obj ts (copyFaultMarked s c n h k e side a cls (usePort (.copy c n) (h / 4) [obj] s)), by rw [throughPort_free _ hport],
    find_channel_of_stopped ((cores_releaseTo _ _ _ _).trans (cores_copyFaultMarked s c n h k e side a cls _)), ?_⟩
  rw [scratchWord_releaseTo]
  exact getLsbD_copyFaultMarked s c n h k e side a cls _

/-- A copy fault at a peer's object: the channel stops, and the signal tells the peer how many bytes are not coming. -/
theorem exec_copyFault_remote {s : State} {c n : Nat} {k : Channel} {e : Option PeerError} {side : Bool} {a : W64} {cls : Nat}
    (hk : (s.core c).channels.find n = some k) (hgate : gateOpen s k = true) (hkind : k.kind = .copy) (hs : k.stopped = false)
    (hf : firstFault s c k e = some (side, a, cls)) (hspace : walkSpace (k.dst.getD 0 0) = 4) (hports : s.dev.record.ports ≠ 0) :
    ∃ t, exec (.copyFault c n e) s = .next t ∧
      (∃ k', (t.core c).channels.find n = some k' ∧ k'.stopped = true ∧ k'.counted = k.total) ∧
      .signal (walkPeer (k.dst.getD 3 0)) (s.cont k.cont).launch.pack (walkCore (k.dst.getD 0 0)) (walkPos (k.dst.getD 0 0)) k.bar
        (k.total - k.landedBytes) (some ((s.cont k.cont).copyFaults + 1)) ∈ t.dev.outputs := by
  let told := s.output (.signal (walkPeer (k.dst.getD 3 0)) (s.cont k.cont).launch.pack (walkCore (k.dst.getD 0 0)) (walkPos (k.dst.getD 0 0)) k.bar
    (k.total - k.landedBytes) (some ((s.cont k.cont).copyFaults + 1)))
  have hreports := reports_copyFaultLogged c k e side a cls (stopChannel c n k told)
  refine ⟨copyFaultLogged c k e side a cls (stopChannel c n k told), ?_, find_channel_of_stopped hreports.distributes.cores, ?_⟩
  · change execCopyFault c n e s = _
    simp only [execCopyFault, hk, hf]
    exact (if_neg (copyFault_open hgate hkind hs fun _ => hports)).trans (if_pos hspace)
  · exact hreports.mem_outputs (List.mem_append_right _ (List.mem_singleton.mpr rfl))

/-- The first byte still to move stands at no byte behind one that is. -/
theorem firstUnsent_le {k : Channel} {x : Nat} (h : k.fresh x 1 = true) : k.firstUnsent ≤ x := by
  have hx : x < k.total := by
    simp only [Channel.fresh, Bool.and_eq_true, decide_eq_true_eq] at h
    omega
  rw [Channel.firstUnsent]
  cases hfind : (List.range k.total).find? fun j => k.fresh j 1 with
  | none => exact absurd h (by simpa using List.find?_eq_none.mp hfind x (List.mem_range.mpr hx))
  | some j =>
    by_contra hlt
    obtain ⟨-, -, hbefore⟩ := List.find?_range_eq_some.mp hfind
    exact absurd h (by simpa using hbefore x (by simpa using hlt))

end Sys2Proof.Machine

/-! SUPPORT. The statement on the engines, continued: lost and complete copies, counts at objects, and the barriers of packs. -/

namespace Sys2Proof.Machine

/-! ### A copy that is lost, or is complete (R181 to R183) -/

/-- A copy is not lost at a byte behind the first that is still to move. -/
theorem exec_copyLost_later {s : State} {c n : Nat} {k : Channel} (hk : (s.core c).channels.find n = some k) {j x : Nat} (hx : x < j)
    (hfresh : k.fresh x 1 = true) : exec (.copyLost c { ch := n, first := j }) s = .next s := by
  have hlater : k.firstUnsent < j := lt_of_le_of_lt (firstUnsent_le hfresh) hx
  change execCopyLost c { ch := n, first := j } s = _
  simp only [execCopyLost, hk]
  exact if_pos (by simp [hlater])

/-- What is recorded of a copy that is lost at its byte `j`. -/
def lostInfo (k : Channel) (j : Nat) : FaultInfo :=
  { cls := .copyLost, addr := (copyAddr k.dst k.dstBase j).toNat, intent := some .write, slot := 0xFF, replay := 0,
    ctx := k.ctx, rank := k.rank, pc := k.pc, asid := k.asid, level := 0xFF, entry := 0, repairable := false }

theorem le_firstUnsent {k : Channel} {j : Nat} (hj : j < k.total) (h : ∀ x < j, k.fresh x 1 = false) : j ≤ k.firstUnsent := by
  rw [Channel.firstUnsent]
  cases hfind : (List.range k.total).find? fun x => k.fresh x 1 with
  | none => exact hj.le
  | some x =>
    by_contra hlt
    obtain ⟨hfresh, -, -⟩ := List.find?_range_eq_some.mp hfind
    exact Bool.false_ne_true ((h x (by simpa using hlt)).symm.trans hfresh)

theorem exec_copyLost {s : State} {c n : Nat} {k : Channel} (hk : (s.core c).channels.find n = some k) (hgate : gateOpen s k = true)
    {j : Nat} (hkind : k.kind = .copy) (hs : k.stopped = false) (hspace : walkSpace (k.dst.getD 0 0) = 4) (hj : j < k.total)
    (h : ∀ x < j, k.fresh x 1 = false) :
    let u := s.mapCore c fun x => { x with channels := Sparse.erase x.channels n }
    exec (.copyLost c { ch := n, first := j }) s = match s.hwOf k.cont k.rank with
      | some h => .next (u.mapCtx h fun x => { x with lost := some (lostInfo k j) })
      | none => .next (if (s.cont k.cont).state.isEnd then u else recordUnrepairable k.cont (lostInfo k j) u) := by
  have hopen : ¬ (k.kind ≠ .copy || k.stopped || walkSpace (k.dst.getD 0 0) ≠ 4 || !gateOpen s k || decide (k.total ≤ j)
      || decide (k.firstUnsent < j)) = true := by
    rw [hspace]
    simp [hkind, hs, hgate, hj, le_firstUnsent hj h]
  intro u
  change execCopyLost c { ch := n, first := j } s = _
  simp only [execCopyLost, hk]
  exact if_neg hopen

/-- A command whose bytes have all counted (or, at a peer, landed) frees its channel. -/
theorem exec_copyComplete {s : State} {c n : Nat} {k : Channel} (hk : (s.core c).channels.find n = some k)
    (hend : if k.kind = .copy ∧ walkSpace (k.dst.getD 0 0) = 4 then k.stopped = true ∨ k.landedBytes = k.total else k.counted = k.total) :
    exec (.copyComplete c n) s = .next (s.mapCore c fun x => { x with channels := Sparse.erase x.channels n }) := by
  have hended : k.ended = true := by
    rw [Channel.ended]
    split at hend
    case isTrue hpeer => rwa [if_pos hpeer, Bool.or_eq_true, beq_iff_eq]
    case isFalse hlocal => rwa [if_neg hlocal, beq_iff_eq]
  change execCopyComplete c n s = _
  simp only [execCopyComplete, hk]
  exact if_pos hended

/-! ### Counts on their way to an object (R148, R186, R279) -/

theorem exec_barrierCount {s : State} {c n h : Nat} {m : CountMsg} (hm : (s.core c).counts[n]? = some m)
    (hw : s.windowHw m.cont m.rank = some h) (hp : (s.core (h / 4)).pause = 0) :
    let obj := (s.ctx h).coreAddr m.off
    exec (.barrierCount c n) s = .next (throughPort (.count c) (h / 4) [obj] (fun u => countAt (h / 4) obj m.bytes false
      (releaseTo (h / 4) obj m.ts (u.mapCore c fun x =>
        { x with counts := x.counts.eraseIdx n
                 channels := Sparse.adjust x.channels m.chan fun y => { y with counted := y.counted + m.bytes } }))) s) := by
  intro obj
  change execBarrierCount c n s = _
  simp only [execBarrierCount, hm, hw]
  exact congrArg _ (if_pos hp)

section
variable {s : State} {h : Nat} {b : Barv} {bs : List Barv} (hb : (s.ctx h).work.barvs = b :: bs)
  (hgate : (s.ctx h).performedBelow b.gate = true) (hw : s.windowHw (s.ctx h).cont (s.ctx h).rank = some h)
include hb hgate hw

/-- The oldest `barv` of a context leaves its list. -/
theorem exec_barvUpdate : exec (.barvUpdate h) s =
    let gone := fun (s : State) => s.mapCtx h fun c => { c with work := { c.work with barvs := bs } }
    .next (if b.bytes = 0 ∧ !b.arrive then gone s
      else engineUpdate (.barv h) (h / 4) b.addr (fun u =>
        countAt (h / 4) b.addr b.bytes b.arrive (releaseTo (h / 4) b.addr (s.ctx h).pts (gone u))) s) := by
  change execBarvUpdate h s = _
  simp only [execBarvUpdate, hb]
  exact if_neg (by simp [hgate, hw])

theorem exec_barvUpdate_nothing (hbytes : b.bytes = 0) (ha : b.arrive = false) :
    exec (.barvUpdate h) s = .next (s.mapCtx h fun c => { c with work := { c.work with barvs := bs } }) := by
  rw [exec_barvUpdate hb hgate hw]
  exact congrArg _ (if_pos ⟨hbytes, by rw [ha]; rfl⟩)

theorem exec_barvUpdate_counts (hsome : 0 < b.bytes ∨ b.arrive = true) (hp : (s.core (h / 4)).pause = 0) :
    exec (.barvUpdate h) s = .next (throughPort (.barv h) (h / 4) [b.addr] (fun u => countAt (h / 4) b.addr b.bytes b.arrive
      (releaseTo (h / 4) b.addr (s.ctx h).pts (u.mapCtx h fun c => { c with work := { c.work with barvs := bs } }))) s) := by
  have hcounts : ¬ (b.bytes = 0 ∧ (!b.arrive) = true) := by
    rintro ⟨hzero, hno⟩
    rcases hsome with hpos | harr
    · omega
    · rw [harr] at hno
      exact absurd hno (by decide)
  rw [exec_barvUpdate hb hgate hw]
  exact congrArg _ ((if_neg hcounts).trans (if_pos hp))

end

/-! ### The barriers of packs (R188, R191, R192) -/

theorem exec_pbarArrival {s : State} {h : Nat} {p : PbarWait} (hp : (s.ctx h).work.pbar = some p) (ha : p.arrived = false)
    (hawake : (s.ctx h).awake = true) (hgate : (s.ctx h).performedBelow p.gate = true) (hbarv : ∀ b ∈ (s.ctx h).work.barvs, p.gate ≤ b.gate)
    (hchan : ∀ e ∈ s.channelsOf (s.ctx h).cont (s.ctx h).rank, intoPack s (s.ctx h).cont (s.ctx h).rank p.level e.2.2 = false) :
    let t := s.mapCtx h fun c => { c with dropped := c.dropped || p.drop, work := { c.work with pbar := some { p with arrived := true } } }
    exec (.pbarArrival h) s = .next (if p.level = 3 then signalLevel3 (s.ctx h).cont t else t) := by
  have hbarvs : (s.ctx h).work.barvs.any (fun b => decide (b.gate < p.gate)) = false :=
    List.any_eq_false.mpr fun b hb => by simpa using hbarv b hb
  have hchans : (s.channelsOf (s.ctx h).cont (s.ctx h).rank).any
      (fun e => intoPack s (s.ctx h).cont (s.ctx h).rank p.level e.2.2) = false :=
    List.any_eq_false.mpr fun e he => by rw [hchan e he]; exact Bool.false_ne_true
  intro t
  change execPbarArrival h s = _
  simp only [execPbarArrival, hp]
  exact if_neg (by rw [ha, hawake, hgate, hbarvs, hchans]; decide)

/-- The arrival of a device at a level-3 barrier is told once. -/
theorem outputs_signalLevel3 (s : State) (i : Nat) :
    let cn := s.cont i
    let all := List.range cn.launch.contexts
    let m := if (∀ r ∈ all, r ∈ cn.ended) then 2 ^ 64 - 1 else cn.signals3 + 1
    cn.launch.pack ≠ 0 → cn.signals3 < m → allArrived s i 0 3 m = true → (signalLevel3 i s).dev.outputs = s.dev.outputs ++
      [.arrival cn.launch.pack { nth := m, pack3 := cn.launch.l3count, gear := releaseGear s i 3 m all, drop := anyWaits s i 3 m all (·.drop),
                                 phase := .arrived }] := by
  intro cn all m hpack hm harr
  have hall : (all.all cn.ended.contains = true) ↔ ∀ r ∈ all, r ∈ cn.ended := by simp
  have hnth : (if all.all cn.ended.contains then lastNth else cn.signals3 + 1) = m := if_congr hall rfl rfl
  have hsent : ¬ (cn.launch.pack = 0 ∨ m ≤ cn.signals3 ∨ (!allArrived s i 0 3 m) = true) := by
    rw [harr]
    simp [hpack, hm]
  simp only [signalLevel3]
  rw [hnth, if_neg hsent]
  rfl

section
variable {s : State} {i : Nat} {rs : List Nat} {f : Ctx → Ctx}

theorem store_mapPack : (s.mapPack i rs f).store = s.store := rfl

/-- What becomes of a member's context. -/
theorem mem_ctxs_mapPack {e : Nat × Ctx} (he : e ∈ s.ctxs) (hi : e.2.cont = i) (hr : e.2.rank ∈ rs) : (e.1, f e.2) ∈ (s.mapPack i rs f).ctxs := by
  refine List.mem_map.mpr ⟨e, he, if_pos ⟨hi, ?_⟩⟩
  exact List.contains_iff_mem.mpr hr

end

theorem raisePbar_of_waits {c : Ctx} {q : PbarWait} (hq : c.work.pbar = some q) {l n : Nat} (hl : q.level = l) (hn : q.nth = n) (g : Option Bool) :
    Ctx.raisePbar l n g c = { c with dropped := false, gearReq := c.gearReq || q.drop && g == some true, work := { c.work with pbar := some { q with raised := true } } } := by
  rw [Ctx.raisePbar, hq]
  exact if_pos ⟨hl, hn⟩

theorem gearReq_releasePbar (l n : Nat) (g : Option Bool) (d : Bool) (top : Nat) (c : Ctx) :
    (Ctx.releasePbar l n g d top c).gearReq = g.getD c.gearReq := by
  have hinner : ∀ o : Option PbarWait, (match o with
      | some p => if p.level = l ∧ p.nth = n then
          { c with dropped := false, pts := max c.pts top, work := { c.work with pbar := some { p with released := true, gear := g, drop := d } } }
        else c
      | none => c).gearReq = c.gearReq := by
    rintro (_ | p)
    · rfl
    · dsimp only
      split <;> rfl
  cases g with
  | none => exact hinner c.work.pbar
  | some x => rfl

theorem releasePbar_of_waits {c : Ctx} {q : PbarWait} (hq : c.work.pbar = some q) {l n : Nat} (hl : q.level = l) (hn : q.nth = n)
    (g : Option Bool) (d : Bool) (top : Nat) :
    (Ctx.releasePbar l n g d top c).work.pbar = some { q with released := true, gear := g, drop := d } ∧
      (Ctx.releasePbar l n g d top c).dropped = false ∧ (Ctx.releasePbar l n g d top c).pts = max c.pts top := by
  simp only [Ctx.releasePbar, hq, hl, hn, and_self, if_true]
  cases g <;> exact ⟨rfl, rfl, rfl⟩

/-- The members go on past the timestamp of every one of them. -/
theorem le_memberTop {s : State} {i r : Nat} {rs : List Nat} (hr : r ∈ rs) {x : Ctx} (hx : s.ctxOf i r = some x) : x.pts ≤ memberTop s i rs := by
  have h := (le_foldl_max (fun r => ((s.ctxOf i r).map (·.pts)).getD 0) rs
    (if rs.any (s.cont i).ended.contains then (s.cont i).endTop else 0)).2 r hr
  rw [hx] at h
  exact h

/-- A `pbar` at which all members have arrived. -/
theorem exec_pbarRelease {s : State} {h : Nat} {p : PbarWait} (hp : (s.ctx h).work.pbar = some p) (ha : p.arrived = true) (hr : p.released = false)
    (hall : allArrived s (s.ctx h).cont (s.ctx h).rank p.level p.nth = true)
    (hdev : p.level = 3 → (s.cont (s.ctx h).cont).allDevices p.nth = true) :
    let i := (s.ctx h).cont
    let rs := members s i (s.ctx h).rank p.level
    let g := (releaseGear s i p.level p.nth rs).or (if p.level = 3 then (s.cont i).remoteGear p.nth else none)
    let d := anyWaits s i p.level p.nth rs (·.drop) || p.level == 3 && (s.cont i).remoteDrop p.nth
    exec (.pbarRelease h) s =
      if d && !p.raised then .next (s.mapPack i rs (Ctx.raisePbar p.level p.nth g))
      else if d && !(packRaised s i p.level p.nth rs && (p.level != 3 || (s.cont i).allSaid (s.cont i).raised3 p.nth)) then .next s
      else .next (s.mapPack i rs (Ctx.releasePbar p.level p.nth g d (memberTop s i rs))) := by
  have hdevs : (p.level != 3 || (s.cont (s.ctx h).cont).allDevices p.nth) = true := by
    by_cases h3 : p.level = 3
    · rw [hdev h3, Bool.or_true]
    · rw [bne_iff_ne.mpr h3, Bool.true_or]
  intro i rs g d
  change execPbarRelease h s = _
  simp only [execPbarRelease, hp]
  exact if_neg (by rw [hr, ha, hall, hdevs]; decide)

/-- A device has raised its members, and so has every other of the pack. -/
theorem packUp_iff {s : State} {i n : Nat} {p : PbarWait} {rs : List Nat} :
    (packRaised s i p.level n rs && (p.level != 3 || (s.cont i).allSaid (s.cont i).raised3 n)) = true ↔
      packRaised s i p.level n rs = true ∧ (p.level = 3 → (s.cont i).allSaid (s.cont i).raised3 n = true) := by
  rw [Bool.and_eq_true, Bool.or_eq_true, bne_iff_ne, ne_eq, ← imp_iff_not_or]

/-- What the members of a pack become once all of them have arrived. -/
theorem pbarRelease_members {s : State} {h : Nat} {p : PbarWait} (hp : (s.ctx h).work.pbar = some p) (ha : p.arrived = true)
    (hr : p.released = false) :
    let i := (s.ctx h).cont
    let rs := members s i (s.ctx h).rank p.level
    let g := (releaseGear s i p.level p.nth rs).or (if p.level = 3 then (s.cont i).remoteGear p.nth else none)
    let d := anyWaits s i p.level p.nth rs (·.drop) || p.level == 3 && (s.cont i).remoteDrop p.nth
    let up := packRaised s i p.level p.nth rs = true ∧ (p.level = 3 → (s.cont i).allSaid (s.cont i).raised3 p.nth = true)
    allArrived s i (s.ctx h).rank p.level p.nth = true → (p.level = 3 → (s.cont i).allDevices p.nth = true) →
    (d = true → p.raised = false → ∃ t, exec (.pbarRelease h) s = .next t ∧ t.store = s.store ∧
      ∀ e ∈ s.ctxs, e.2.cont = i → e.2.rank ∈ rs → ∃ e' ∈ t.ctxs, e'.1 = e.1 ∧
        ∀ q, e.2.work.pbar = some q → q.level = p.level → q.nth = p.nth → e'.2.dropped = false ∧
          e'.2.gearReq = (e.2.gearReq || q.drop && g == some true) ∧ e'.2.work.pbar = some { q with raised := true }) ∧
    (d = true → p.raised = true → ¬ up → exec (.pbarRelease h) s = .next s) ∧
    (d = false ∨ p.raised = true ∧ up → ∃ t, exec (.pbarRelease h) s = .next t ∧ t.store = s.store ∧
      ∀ e ∈ s.ctxs, e.2.cont = i → e.2.rank ∈ rs → ∃ e' ∈ t.ctxs, e'.1 = e.1 ∧ e'.2.gearReq = g.getD e.2.gearReq ∧
        ∀ q, e.2.work.pbar = some q → q.level = p.level → q.nth = p.nth →
          e'.2.work.pbar = some { q with released := true, gear := g, drop := d } ∧ e'.2.dropped = false ∧ e.2.pts ≤ e'.2.pts ∧
          ∀ r ∈ rs, ∀ x, s.ctxOf i r = some x → x.pts ≤ e'.2.pts) := by
  intro i rs g d up hall hdev
  have hexec : exec (.pbarRelease h) s = if d && !p.raised then .next (s.mapPack i rs (Ctx.raisePbar p.level p.nth g))
      else if d && !(packRaised s i p.level p.nth rs && (p.level != 3 || (s.cont i).allSaid (s.cont i).raised3 p.nth)) then .next s
      else .next (s.mapPack i rs (Ctx.releasePbar p.level p.nth g d (memberTop s i rs))) := exec_pbarRelease hp ha hr hall hdev
  refine ⟨fun hd hraised => ?_, fun hd hraised hup => ?_, fun hgo => ?_⟩
  · refine ⟨_, hexec.trans (if_pos (by rw [hd, hraised]; rfl)), rfl, fun e he hi hr => ⟨_, mem_ctxs_mapPack he hi hr, rfl, fun q hq hl hn => ?_⟩⟩
    rw [raisePbar_of_waits hq hl hn]
    exact ⟨rfl, rfl, rfl⟩
  · have hwait := Bool.not_eq_true _ |>.mp (mt packUp_iff.mp hup)
    exact hexec.trans ((if_neg (by rw [hraised]; simp)).trans (if_pos (by rw [hd, hwait]; rfl)))
  · have hraised : ¬ (d && !p.raised) = true := by
      rcases hgo with hd | ⟨hraised, -⟩
      · simp [hd]
      · simp [hraised]
    have hwaits : ¬ (d && !(packRaised s i p.level p.nth rs && (p.level != 3 || (s.cont i).allSaid (s.cont i).raised3 p.nth))) = true := by
      rcases hgo with hd | ⟨-, hup⟩
      · simp [hd]
      · rw [packUp_iff.mpr hup]
        simp
    refine ⟨_, hexec.trans ((if_neg hraised).trans (if_neg hwaits)), rfl,
      fun e he hi hr => ⟨_, mem_ctxs_mapPack he hi hr, rfl, gearReq_releasePbar .., fun q hq hl hn => ?_⟩⟩
    obtain ⟨hpbar, hdropped, hpts⟩ := releasePbar_of_waits hq hl hn g d (memberTop s i rs)
    exact ⟨hpbar, hdropped, hpts ▸ le_max_left .., fun r hr x hx => hpts ▸ (le_memberTop hr hx).trans (le_max_right ..)⟩

/-! ### Counting at an object (R186) -/

/-- The word that a count leaves at an address, of a canonical scratchpad. -/
theorem scratchWord_scratchCount {st : Store} (hr : Sparse.risingFrom none st.scratch = true) (core addr : Nat) (x : W32) (a : Nat) :
    scratchWord (scratchCount st core addr x) core a = if a / 4 = addr / 4 then x else scratchWord st core a := by
  have hkey : scratchKey core a = scratchKey core addr ↔ a / 4 = addr / 4 := by
    rw [scratchKey, scratchKey, Nat.add_left_cancel_iff]
  rw [scratchWord, scratchCount, Sparse.get_set 0 _ _ _ _ hr]
  exact if_congr hkey rfl rfl

theorem rising_scratchCount {st : Store} (hr : Sparse.risingFrom none st.scratch = true) (core addr : Nat) (x : W32) :
    Sparse.risingFrom none (scratchCount st core addr x).scratch = true := Sparse.rising_set 0 st.scratch _ x hr

theorem scratchWord_countObject {st : Store} (hr : Sparse.risingFrom none st.scratch = true) (core addr b : Nat) (arrive : Bool) (a : Nat) :
    let w := fun (j : Nat) => scratchWord st core (addr + 4 * j)
    let r := countWords (w 0) (w 1) (w 2) (w 3) b arrive
    scratchWord (countObject core addr b arrive st) core a = if a / 4 = addr / 4 + 1 then r.1 else if a / 4 = addr / 4 + 2 then r.2.1
      else if a / 4 = addr / 4 + 3 then r.2.2 else scratchWord st core a := by
  intro w r
  have h1 := rising_scratchCount hr core (addr + 4) r.1
  have h2 := rising_scratchCount h1 core (addr + 8) r.2.1
  change scratchWord (scratchCount (scratchCount (scratchCount st core (addr + 4) r.1) core (addr + 8) r.2.1) core (addr + 12) r.2.2) core a = _
  rw [scratchWord_scratchCount h2, scratchWord_scratchCount h1, scratchWord_scratchCount hr]
  have e1 : (addr + 4) / 4 = addr / 4 + 1 := by omega
  have e2 : (addr + 8) / 4 = addr / 4 + 2 := by omega
  have e3 : (addr + 12) / 4 = addr / 4 + 3 := by omega
  rw [e1, e2, e3]
  by_cases c1 : a / 4 = addr / 4 + 1
  · rw [if_neg (by omega), if_neg (by omega), if_pos c1, if_pos c1]
  by_cases c2 : a / 4 = addr / 4 + 2
  · rw [if_neg (by omega), if_pos c2, if_neg c1, if_pos c2]
  · rw [if_neg c2, if_neg c1, if_neg c1, if_neg c2]

/-- A flipped phase changes only what the object carries. -/
theorem carryFlip_spec (core obj : Nat) (before : Bool) (s : State) : (carryFlip core obj before s).ctxs = s.ctxs ∧
    (carryFlip core obj before s).store.mem = s.store.mem ∧ (carryFlip core obj before s).store.scratch = s.store.scratch := by
  rw [carryFlip]
  split <;> exact ⟨rfl, rfl, rfl⟩

theorem scratchWord_of_scratch {st st' : Store} (h : st'.scratch = st.scratch) (core a : Nat) : scratchWord st' core a = scratchWord st core a := by
  rw [scratchWord, scratchWord, h]

theorem countAt_spec (s : State) (core addr b : Nat) (arrive : Bool) (hr : Sparse.risingFrom none s.store.scratch = true) :
    let t := countAt core addr b arrive s
    let w := fun (j : Nat) => scratchWord s.store core (addr + 4 * j)
    let r := countWords (w 0) (w 1) (w 2) (w 3) b arrive
    t.store.mem = s.store.mem ∧
    (∀ a, scratchWord t.store core a = if a / 4 = addr / 4 + 1 then r.1 else if a / 4 = addr / 4 + 2 then r.2.1
      else if a / 4 = addr / 4 + 3 then r.2.2 else scratchWord s.store core a) ∧
    ∀ h, (t.ctx h).regs = (s.ctx h).regs ∧
      (∀ x p, (s.ctx h).work.bwait = some (x, p) →
        ((s.ctx h).watches = true ∧ phaseOf t.store (h / 4) x = p → (t.ctx h).work.bwait = none ∧
          (t.ctx h).pts = max (s.ctx h).pts (carried t.store (objectKey (h / 4) x)).1) ∧
        (¬ ((s.ctx h).watches = true ∧ phaseOf t.store (h / 4) x = p) → t.ctx h = s.ctx h)) := by
  intro t w r
  let v := carryFlip core addr (phaseOf s.store core addr) (s.mapStore (countObject core addr b arrive))
  obtain ⟨hctxs, hmem, hscratch⟩ := carryFlip_spec core addr (phaseOf s.store core addr) (s.mapStore (countObject core addr b arrive))
  have hctx : ∀ h, t.ctx h = endWait v h (s.ctx h) := by
    intro h
    have hv : v.ctx h = s.ctx h := congrArg (fun cs => Sparse.get Ctx.placed cs h) hctxs
    exact (ctx_endWaits v h).trans (by rw [hv])
  refine ⟨hmem, fun a => (scratchWord_of_scratch hscratch core a).trans (scratchWord_countObject hr core addr b arrive a), fun h => ⟨?_, fun x p hx => ⟨?_, ?_⟩⟩⟩
  · rw [hctx, regs_endWait]
  · rintro ⟨hwatch, hphase⟩
    rw [hctx, endWait_ends (s := v) hx hwatch hphase]
    exact ⟨rfl, rfl⟩
  · intro hnot
    rw [hctx, endWait, hx]
    refine if_neg fun hends => hnot ?_
    rw [Bool.and_eq_true, beq_iff_eq] at hends
    exact hends

theorem append_eq_ofNat (n a : BitVec 16) : n ++ a = BitVec.ofNat 32 (n.toNat * 2 ^ 16 + a.toNat) := by
  refine BitVec.eq_of_toNat_eq ?_
  have hn := n.isLt
  have ha := a.isLt
  rw [BitVec.toNat_append, Nat.shiftLeft_eq, mul_comm, ← Nat.two_pow_add_eq_or_of_lt ha, BitVec.toNat_ofNat, mul_comm]
  omega

/-- The words after a count, by the numbers that they hold. -/
theorem countedWords_eq (need got fl : W32) (needA gotA : BitVec 16) :
    (if need.toNat ≤ got.toNat ∧ gotA = needA then (got - need, needA ++ (0 : BitVec 16), fl ^^^ 1) else (got, needA ++ gotA, fl)) =
      if need.toNat ≤ got.toNat ∧ gotA.toNat = needA.toNat then
        (BitVec.ofNat 32 (got.toNat - need.toNat), BitVec.ofNat 32 (needA.toNat * 2 ^ 16), fl ^^^ 1)
      else (BitVec.ofNat 32 got.toNat, BitVec.ofNat 32 (needA.toNat * 2 ^ 16 + gotA.toNat), fl) := by
  by_cases hflip : need.toNat ≤ got.toNat ∧ gotA = needA
  · have hsub : got - need = BitVec.ofNat 32 (got.toNat - need.toNat) :=
      BitVec.eq_of_toNat_eq (by rw [BitVec.toNat_sub_of_le hflip.1, BitVec.toNat_ofNat, Nat.mod_eq_of_lt (by omega)])
    rw [if_pos hflip, if_pos ⟨hflip.1, congrArg _ hflip.2⟩, hsub, append_eq_ofNat]
    exact congrArg (fun x => (BitVec.ofNat 32 (got.toNat - need.toNat), BitVec.ofNat 32 x, fl ^^^ 1)) (Nat.add_zero _)
  · rw [if_neg hflip, if_neg fun h => hflip ⟨h.1, BitVec.eq_of_toNat_eq h.2⟩, append_eq_ofNat, BitVec.ofNat_toNat, BitVec.setWidth_eq]

/-- The words of R186. -/
theorem countWords_eq (need got arr fl : W32) (b : Nat) (r : Bool) :
    let needA := arr.toNat / 2 ^ 16
    let gotA := arr.toNat % 2 ^ 16
    let past := 2 ^ 32 ≤ got.toNat + b
    let overrun := r = true ∧ gotA = needA
    let sum := min (got.toNat + b) (2 ^ 32 - 1)
    let gotA' := if r = true ∧ gotA ≠ needA then (gotA + 1) % 2 ^ 16 else gotA
    let flags := if past ∨ overrun then fl ||| 2 else fl
    countWords need got arr fl b r =
      if need.toNat ≤ sum ∧ gotA' = needA then (BitVec.ofNat 32 (sum - need.toNat), BitVec.ofNat 32 (needA * 2 ^ 16), flags ^^^ 1)
      else (BitVec.ofNat 32 sum, BitVec.ofNat 32 (needA * 2 ^ 16 + gotA'), flags) := by
  intro needA gotA past overrun sum gotA' flags
  have hneedA : (arr.extractLsb' 16 16).toNat = needA := by
    rw [BitVec.extractLsb'_toNat, Nat.shiftRight_eq_div_pow]
    exact Nat.mod_eq_of_lt (by omega)
  have hgotA : (arr.extractLsb' 0 16).toNat = gotA := by
    rw [BitVec.extractLsb'_toNat, Nat.shiftRight_zero]
  have hover : (r && arr.extractLsb' 0 16 == arr.extractLsb' 16 16) = decide overrun := by
    rw [Bool.eq_iff_iff, Bool.and_eq_true, beq_iff_eq, decide_eq_true_eq, ← BitVec.toNat_inj, hneedA, hgotA]
  have hsum : (if 0xFFFFFFFF < got.toNat + b then (0xFFFFFFFF : W32) else got + BitVec.ofNat 32 b).toNat = sum := by
    split
    · have := got.isLt
      change 2 ^ 32 - 1 = min (got.toNat + b) (2 ^ 32 - 1)
      omega
    · rw [BitVec.toNat_add, BitVec.toNat_ofNat]
      change _ = min (got.toNat + b) (2 ^ 32 - 1)
      omega
  have harr : (if r && !decide overrun then arr.extractLsb' 0 16 + 1 else arr.extractLsb' 0 16).toNat = gotA' := by
    by_cases hcount : r = true ∧ gotA ≠ needA
    · have hnew : (r && !decide overrun) = true := by simp [overrun, hcount]
      rw [if_pos hnew, BitVec.toNat_add, hgotA]
      exact (if_pos hcount).symm
    · have hold : (r && !decide overrun) = false := by
        rw [Bool.and_eq_false_imp]
        intro hr
        simpa [overrun, hr] using fun hne => hcount ⟨hr, hne⟩
      rw [hold, if_neg Bool.false_ne_true, hgotA]
      exact (if_neg hcount).symm
  have hflags : (if decide (0xFFFFFFFF < got.toNat + b) || decide overrun then fl ||| 2 else fl) = flags := by
    refine if_congr ?_ rfl rfl
    rw [Bool.or_eq_true, decide_eq_true_eq, decide_eq_true_eq]
    exact Iff.rfl
  unfold countWords
  dsimp only
  rw [hover, countedWords_eq, hflags, hneedA, harr]
  simp only [decide_eq_true_eq, hsum]

/-- A lost copy is recorded with its context, or with its continuation where the context is no more. -/
theorem exec_copyLost_ways {s : State} {c n : Nat} {k : Channel} (hk : (s.core c).channels.find n = some k) (hgate : gateOpen s k = true)
    {j : Nat} (hkind : k.kind = .copy) (hs : k.stopped = false) (hspace : walkSpace (k.dst.getD 0 0) = 4) (hj : j < k.total)
    (h : ∀ x < j, k.fresh x 1 = false) :
    let u := s.mapCore c fun x => { x with channels := Sparse.erase x.channels n }
    ∃ f : FaultInfo, f.cls = .copyLost ∧ f.repairable = false ∧ f.pc = k.pc ∧ f.addr = (copyAddr k.dst k.dstBase j).toNat ∧
      (∀ h, s.hwOf k.cont k.rank = some h →
        exec (.copyLost c { ch := n, first := j }) s = .next (u.mapCtx h fun x => { x with lost := some f })) ∧
      (s.hwOf k.cont k.rank = none → (s.cont k.cont).state.isEnd = false →
        exec (.copyLost c { ch := n, first := j }) s = .next (recordUnrepairable k.cont f u)) := by
  have hlost := exec_copyLost hk hgate hkind hs hspace hj h
  refine ⟨lostInfo k j, rfl, rfl, rfl, rfl, fun h hh => ?_, fun hh hend => ?_⟩
  · rw [hlost, hh]
  · rw [hlost, hh]
    exact congrArg _ (if_neg (by rw [hend]; exact Bool.false_ne_true))

/-- Settles O55, each event by its own equation. -/
theorem engineEventsAct : Obligations.EngineEventsAct := by
  refine ⟨fun s c n h => ?_, fun s core addr b arrive hr => countAt_spec s core addr b arrive hr, countWords_eq⟩
  intro through
  refine ⟨fun hidle hl hg hp o ho => exec_matrixOpStart hidle hl hg hp ho, fun o ho => exec_matrixOpRetire ho, fun k hk hgate => ?_,
    fun k hk hend => exec_copyComplete hk hend, fun m hm hw hp => exec_barrierCount hm hw hp, fun b bs hb hgate hw => ?_,
    fun p hp ha hawake hgate hbarv hchan => exec_pbarArrival hp ha hawake hgate hbarv hchan, outputs_signalLevel3 s n,
    fun p hp ha hr => pbarRelease_members hp ha hr⟩
  · exact ⟨fun off len hkind hs hf hp => exec_copyBytesLanded_ways hk hgate hkind hs hf hp, fun off len t => exec_copyBytesLanded_walk hk hgate,
      fun off len ts => landChannel_lands s c n off len ts k, fun side a cls hf => ownFault_eq_some hf, fun e side a cls hf => firstFault_peer hf,
      fun e _ _ hf => exec_copyFault_none hk hf,
      fun e side a cls h hkind hs hf hspace hw hp => exec_copyFault_counted hk hgate hkind hs hf hspace hw hp,
      fun e side a cls hkind hs hf hspace hports => exec_copyFault_remote hk hgate hkind hs hf hspace hports,
      fun j x hx hfresh => exec_copyLost_later hk hx hfresh,
      fun j hkind hs hspace hj hfirst => exec_copyLost_ways hk hgate hkind hs hspace hj hfirst⟩
  · exact ⟨exec_barvUpdate_nothing hb hgate hw, exec_barvUpdate_counts hb hgate hw⟩

end Sys2Proof.Machine

/-! SUPPORT. The statement on what reaches a context: arrivals, translations, the engine port, streams, pushes, and full/empty words. -/

namespace Sys2Proof.Machine

/-! ### Values that arrive (R93, R117) -/

theorem exec_deliver {s : State} {h k : Nat} {d : Deliver} (hd : (s.ctx h).work.delivers[k]? = some d)
    (holder : d.load = true → ∀ e ∈ (s.ctx h).work.delivers.take k, e.load = false) :
    exec (.deliver h k) s = .next (arrive h d (s.mapCtx h fun c => { c with work := { c.work with delivers := c.work.delivers.eraseIdx k } })) := by
  have hgoes : ¬ (d.load && ((s.ctx h).work.delivers.take k).any (·.load)) = true := by
    rw [Bool.and_eq_true, List.any_eq_true]
    rintro ⟨hload, e, he, hel⟩
    exact Bool.false_ne_true ((holder hload e he).symm.trans hel)
  change execDeliver h k s = _
  simp only [execDeliver, hd]
  exact if_neg hgoes

/-- A value finds no older result that is due at its destination. -/
theorem arrive_applies {s : State} {h : Nat} {d : Deliver} (hd : ∀ p ∈ (s.ctx h).work.landing, p.eff.hits d.dest = false) :
    arrive h d s = applyPending h s { due := (s.ctx h).nowCount, age := d.age, eff := d.effect, held := true } := by
  have hnone : (s.ctx h).work.landing.filter (fun p => !p.held && decide (p.age < d.age) && p.eff.hits d.dest) = [] :=
    List.filter_eq_nil_iff.mpr fun p hp => by simp [hd p hp]
  rw [arrive, hnone]
  rfl

theorem arrive_g {s : State} {h r : Nat} {d : Deliver} (hr : d.dest = .g r) (hd : ∀ p ∈ (s.ctx h).work.landing, p.eff.hits d.dest = false) :
    arrive h d s = s.mapCtx h fun c => { c with regs := c.regs.writeG r (d.value.getD 0 0) } := by
  have heff : d.effect = .g r (d.value.getD 0 0) := by
    rw [Deliver.effect, hr]
  rw [arrive_applies hd]
  exact applyPending_g heff h s

/-- A value that arrives for a `g` register is read there. -/
theorem exec_deliver_g {s : State} {h k r : Nat} {d : Deliver} (hd : (s.ctx h).work.delivers[k]? = some d)
    (holder : d.load = true → ∀ e ∈ (s.ctx h).work.delivers.take k, e.load = false) (hdest : d.dest = .g r) (h0 : r ≠ 0)
    (hland : ∀ p ∈ (s.ctx h).work.landing, p.eff.hits d.dest = false) (hrise : Sparse.risingFrom none (s.ctx h).regs.g = true) :
    ∃ t, exec (.deliver h k) s = .next t ∧ (t.ctx h).work.delivers = (s.ctx h).work.delivers.eraseIdx k ∧
      ∀ j, (t.ctx h).regs.readG j = if j = r then d.value.headD 0 else (s.ctx h).regs.readG j := by
  let u := s.mapCtx h fun c => { c with work := { c.work with delivers := c.work.delivers.eraseIdx k } }
  have hu : u.ctx h = { s.ctx h with work := { (s.ctx h).work with delivers := (s.ctx h).work.delivers.eraseIdx k } } := s.ctx_mapCtx_self h _
  have hulanding : ∀ p ∈ (u.ctx h).work.landing, p.eff.hits d.dest = false := by rw [hu]; exact hland
  refine ⟨_, exec_deliver hd holder, ?_⟩
  rw [arrive_g hdest hulanding, State.ctx_mapCtx_self, hu]
  refine ⟨rfl, fun j => ?_⟩
  have hhead : d.value.getD 0 0 = d.value.headD 0 := by cases d.value <;> rfl
  rw [Regs.readG_writeG _ _ _ _ hrise, hhead]
  exact if_congr (and_iff_left h0) rfl rfl

/-! ### Translations (R97, R140, R199) -/

/-- A translation changes no more than the store. -/
theorem translate_eq (core asid : Nat) (va : W64) (q : Requester) (s : State) : ∃ st, (translate core asid va q s).2 = { s with store := st } := by
  unfold translate
  split
  · exact ⟨_, rfl⟩
  · split
    · exact ⟨_, rfl⟩
    · split
      · exact ⟨_, rfl⟩
      · split <;> exact ⟨_, rfl⟩

theorem translateItems_eq (core asid : Nat) (q : Requester) (xs : List Item) (s : State) :
    ∃ st, (translateItems core asid q xs s).2 = { s with store := st } := by
  induction xs generalizing s with
  | nil => exact ⟨_, rfl⟩
  | cons x xs ih =>
    obtain ⟨st, hst⟩ := translate_eq core asid x.va q s
    unfold translateItems
    split <;> rename_i heq <;> rw [heq] at hst
    · dsimp only at hst
      subst hst
      exact ih { s with store := st }
    · exact ⟨st, hst⟩

section
variable {s : State} {h : Nat} {o : MemOp} (ho : (s.ctx h).work.memOps.find? (fun o => !o.translated) = some o)
include ho

theorem exec_translationResult_waits {e : W64 × Walked}
    (he : (translateItems (h / 4) (s.cont (s.ctx h).cont).launch.asid o.kind.requester o.items s).1.2 = some e) (hf : (s.ctx h).fault ≠ none) :
    exec (.translationResult h) s = .next s := by
  change execTranslationResult h s = _
  simp only [execTranslationResult, ho, coreOf, he]
  exact if_pos (Option.isSome_iff_ne_none.mpr hf)

theorem exec_translationResult_fails {va : W64} {w : Walked}
    (he : (translateItems (h / 4) (s.cont (s.ctx h).cont).launch.asid o.kind.requester o.items s).1.2 = some (va, w)) (hf : (s.ctx h).fault = none) :
    exec (.translationResult h) s =
      .next (failedOp h o va w (translateItems (h / 4) (s.cont (s.ctx h).cont).launch.asid o.kind.requester o.items s).2) := by
  change execTranslationResult h s = _
  simp only [execTranslationResult, ho, coreOf, he]
  exact if_neg (by rw [hf]; exact Bool.false_ne_true)

theorem exec_translationResult_succeeds :
    let r := translateItems (h / 4) (s.cont (s.ctx h).cont).launch.asid o.kind.requester o.items s
    r.1.2 = none → selfPeer r.2 o r.1.1 = false → exec (.translationResult h) s =
      .next (mapOp h o.age (fun o => { o with translated := true, accesses := accessesOf o.perLane r.1.1 }) r.2) := by
  intro r hnone hpeer
  change execTranslationResult h s = _
  simp only [execTranslationResult, ho]
  rw [show (translateItems (coreOf h) (s.cont (s.ctx h).cont).launch.asid o.kind.requester o.items s) = r from rfl, hnone]
  exact if_neg (by rw [hpeer]; exact Bool.false_ne_true)

end

/-- What parking for a fault leaves of its context, whatever it records. -/
theorem ctx_takeFault (h : Nat) (f : FaultInfo) (s : State) :
    let c := (takeFault h f s).ctx h
    c.fault = some f ∧ c.work.memOps = (s.ctx h).work.memOps ∧ c.work.replay = (s.ctx h).work.replay ∧ c.regs = (s.ctx h).regs ∧
      c.pc = (s.ctx h).pc := by
  obtain ⟨hdist, hfault⟩ := takeFault_spec h f s
  have hfreeze := freezeQueue_ctx h h (s.mapCtx h fun c =>
    { c with fault := some f, runCycles := 0, work := { c.work.closeHold with streams := c.work.streams.map Stream.dropFetched } })
  have hpark := hfreeze.trans (hdist.ctx h)
  obtain ⟨hregs, -, hpc, -, -, hmem, hreplay, -, -, -⟩ := hpark
  rw [State.ctx_mapCtx_self] at hregs hpc hmem hreplay
  exact ⟨hfault, hmem, hreplay, hregs, hpc⟩

/-- A deferred fault puts its operation and every later one in the replay list, and parks the context (R97, R99). -/
theorem ctx_takeDeferred (h : Nat) (f : FaultInfo) (more : Nat) (s : State) :
    let t := takeDeferred h f more s
    let ops := (s.ctx h).work.memOps
    (t.ctx h).work.memOps = ops.filter (·.translated) ∧ (t.ctx h).work.replay = ops.filter (fun o => !o.translated) ++ (s.ctx h).work.replay ∧
      (t.ctx h).fault = some { f with replay := (t.ctx h).work.replay.length + more } ∧ (t.ctx h).regs = (s.ctx h).regs ∧
      (t.ctx h).pc = (s.ctx h).pc := by
  let u := s.mapCtx h fun c =>
    { c with work := { c.work with memOps := c.work.memOps.filter (·.translated), replay := c.work.memOps.filter (fun o => !o.translated) ++ c.work.replay } }
  have hu : u.ctx h = { s.ctx h with work := { (s.ctx h).work with
      memOps := (s.ctx h).work.memOps.filter (·.translated)
      replay := (s.ctx h).work.memOps.filter (fun o => !o.translated) ++ (s.ctx h).work.replay } } := s.ctx_mapCtx_self h _
  obtain ⟨hfault, hmem, hreplay, hregs, hpc⟩ := ctx_takeFault h { f with replay := (u.ctx h).work.replay.length + more }
    (u.mapCont (u.ctx h).cont fun c => { c with parks := c.parks + 1 })
  have hkept := hreplay.trans (congrArg (·.work.replay) hu)
  intro t ops
  refine ⟨hmem.trans (congrArg (·.work.memOps) hu), hkept, hfault.trans ?_, hregs.trans (congrArg (·.regs) hu), hpc.trans (congrArg (·.pc) hu)⟩
  have hlength : (t.ctx h).work.replay.length = (u.ctx h).work.replay.length := congrArg List.length hreplay
  rw [hlength]

theorem exec_translationResult_faults {s : State} {h : Nat} {o : MemOp} (ho : (s.ctx h).work.memOps.find? (fun o => !o.translated) = some o)
    {va : W64} {cls : FaultClass} {level : Nat} {entry : W64} {rep : Bool} {miss : Option (Nat × Nat)}
    (he : (translateItems (h / 4) (s.cont (s.ctx h).cont).launch.asid o.kind.requester o.items s).1.2 = some (va, .failed cls level entry rep miss))
    (hf : (s.ctx h).fault = none) :
    ∃ t f, exec (.translationResult h) s = .next t ∧ (t.ctx h).fault = some f ∧ f.cls = cls ∧ f.addr = va.toNat ∧ f.slot = o.slot ∧
      f.pc = o.pc ∧ f.level = level ∧ f.repairable = rep ∧ (t.ctx h).work.memOps = (s.ctx h).work.memOps.filter (·.translated) ∧
      (t.ctx h).work.replay = (s.ctx h).work.memOps.filter (fun o => !o.translated) ++ (s.ctx h).work.replay ∧
      f.replay = (t.ctx h).work.replay.length + (if (s.ctx h).work.park.isSome then 1 else 0) ∧ (t.ctx h).regs = (s.ctx h).regs ∧
      (t.ctx h).pc = (s.ctx h).pc := by
  obtain ⟨st, hst⟩ := translateItems_eq (h / 4) (s.cont (s.ctx h).cont).launch.asid o.kind.requester o.items s
  have hexec := exec_translationResult_fails ho he hf
  rw [hst] at hexec
  let u : State := { s with store := st }
  have hlog := (State.Reports.logWalk (h / 4) h (.failed cls level entry rep miss) u).distributes.ctx h
  obtain ⟨hmem, hreplay, hfault, hregs, hpc⟩ := ctx_takeDeferred h (walkFault h o.slot o.pc va o.kind.requester cls level entry rep u)
    (s.ctx h).parkEntries (logWalk (h / 4) h (.failed cls level entry rep miss) u)
  rw [hlog.memOps] at hmem hreplay
  rw [hlog.replay] at hreplay
  exact ⟨_, _, hexec, hfault, rfl, rfl, rfl, rfl, rfl, rfl, hmem, hreplay, rfl, hregs.trans hlog.regs, hpc.trans hlog.pc⟩

/-! ### Operations that leave a context (R142, R119) -/

theorem exec_storePerformed {s : State} {h : Nat} {o : MemOp} {os : List MemOp} (ho : (s.ctx h).work.memOps = o :: os) (ht : o.translated = true)
    (ha : o.accesses = []) (hd : o.dest = none) :
    exec (.storePerformed h) s = .next (s.mapCtx h fun c => { c with work := { c.work with memOps := os } }) := by
  change execStorePerformed h s = _
  simp only [execStorePerformed, ho]
  exact if_pos (by rw [ht, ha, hd]; rfl)

theorem exec_holdLimitExpiry {s : State} {h : Nat} {w : HoldWindow} (hw : (s.ctx h).work.hold = some w) (hl : 64 ≤ w.cycles) :
    exec (.holdLimitExpiry h) s = .next (s.mapCtx h fun c => { c with work := { c.work with hold := none, holdFault := true } }) := by
  have hover : (s.ctx h).work.overran = true := by
    rw [Work.overran, hw]
    exact decide_eq_true hl
  change execHoldLimitExpiry h s = _
  rw [execHoldLimitExpiry, if_pos hover]
  refine congrArg Host.Outcome.next ?_
  rw [State.mapCtx, State.mapCtx, Work.closeHold, hover, Bool.or_true]

end Sys2Proof.Machine

/-! SUPPORT. The statement on what reaches a context, continued: the engine port, streams, pushes, and the heads of full/empty queues. -/

namespace Sys2Proof.Machine

/-! ### Full/empty entries (R110, R112) -/

section
variable {s : State} {h : Nat} {e : FeEntry} {es : List FeEntry} (he : (s.ctx h).work.feq = e :: es)
include he

theorem exec_feEntryPerform (hready : feReady s h e = true) (hawake : (s.ctx h).awake = true) (hp : (s.core (h / 4)).pause = 0) :
    exec (.feEntryPerform h) s = .next (throughPort (.entry h) (h / 4) (e.words.map (·.2)) (fun s =>
      let s := s.mapCtx h fun c => { c with work := { c.work with feq := es } }
      match e.load with
      | some d => performTake h e d s
      | none => performRelease h e s) s) := by
  have hgo : ¬ (!feReady s h e || !(s.ctx h).awake || (s.core (h / 4)).pause != 0) = true := by
    rw [hready, hawake, hp]
    decide
  change execFeEntryPerform h s = _
  simp only [execFeEntryPerform, he]
  exact if_neg hgo

theorem exec_feEntryPerform_waits (hready : feReady s h e = false) : exec (.feEntryPerform h) s = .next s := by
  change execFeEntryPerform h s = _
  simp only [execFeEntryPerform, he]
  exact if_pos (by rw [hready]; rfl)

end

/-- An entry is ready where its words have the bits that it waits for, and a store's earlier accesses have performed. -/
theorem feReady_iff {s : State} {h : Nat} {e : FeEntry} (hover : ∀ w ∈ e.words, fesetOver s h w.2 4 = false) :
    feReady s h e = true ↔ (∀ w ∈ e.words, isFull s.store (h / 4) w.2 = e.load.isSome) ∧ (e.load.isSome = true ∨
      (∀ o ∈ (s.ctx h).work.memOps ++ (s.ctx h).work.replay, e.seq ≤ o.seq) ∧ ∀ p, (s.ctx h).work.park = some p → e.seq ≤ p.seq) := by
  have hwords : e.words.all (fun w => isFull s.store (h / 4) w.2 == e.load.isSome && !fesetOver s h w.2 4) = true ↔
      ∀ w ∈ e.words, isFull s.store (h / 4) w.2 = e.load.isSome := by
    rw [List.all_eq_true]
    refine forall₂_congr fun w hw => ?_
    rw [hover w hw, Bool.not_false, Bool.and_true, beq_iff_eq]
  have hpark : (s.ctx h).work.park.all (fun p => decide (e.seq ≤ p.seq)) = true ↔ ∀ p, (s.ctx h).work.park = some p → e.seq ≤ p.seq := by
    cases (s.ctx h).work.park <;> simp
  rw [feReady]
  rw [Bool.and_eq_true, Bool.or_eq_true, Bool.and_eq_true, hpark]
  exact and_congr hwords (or_congr_right (and_congr_left' (by rw [List.all_eq_true]; simp only [decide_eq_true_eq])))

theorem feEntryPerform_ways {s : State} {h : Nat} {e : FeEntry} {es : List FeEntry} (he : (s.ctx h).work.feq = e :: es)
    (hawake : (s.ctx h).awake = true) (hp : (s.core (h / 4)).pause = 0) (hover : ∀ w ∈ e.words, fesetOver s h w.2 4 = false) :
    let addrs := e.words.map (·.2)
    let through := fun (t : State) => exec (.feEntryPerform h) s =
      .next (if portFree s (.entry h) (h / 4) addrs = true then t else queuePort (.entry h) (h / 4) addrs s)
    let used := usePort (.entry h) (h / 4) addrs s
    let mine := used.mapCtx h fun c => { c with work := { c.work with feq := es } }
    (∀ d, e.load = some d → (∀ w ∈ e.words, isFull s.store (h / 4) w.2 = true) → through (performTake h e d mine)) ∧
    (e.load = none → (∀ w ∈ e.words, isFull s.store (h / 4) w.2 = false) →
      (∀ o ∈ (s.ctx h).work.memOps ++ (s.ctx h).work.replay, e.seq ≤ o.seq) →
      (∀ p, (s.ctx h).work.park = some p → e.seq ≤ p.seq) → through (performRelease h e mine)) ∧
    ((∃ w ∈ e.words, isFull s.store (h / 4) w.2 ≠ e.load.isSome) → exec (.feEntryPerform h) s = .next s) := by
  intro addrs through used mine
  refine ⟨fun d hd hfull => ?_, fun hnone hempty hops hpark => ?_, fun ⟨w, hw, hne⟩ => ?_⟩
  · have hload : e.load.isSome = true := by rw [hd]; rfl
    have hx := exec_feEntryPerform he ((feReady_iff hover).mpr ⟨fun w hw => (hfull w hw).trans hload.symm, .inl hload⟩) hawake hp
    rw [hd] at hx
    exact hx
  · have hload : e.load.isSome = false := by rw [hnone]; rfl
    have hx := exec_feEntryPerform he ((feReady_iff hover).mpr ⟨fun w hw => (hempty w hw).trans hload.symm, .inr ⟨hops, hpark⟩⟩) hawake hp
    rw [hnone] at hx
    exact hx
  · refine exec_feEntryPerform_waits he (Bool.not_eq_true _ |>.mp fun hready => ?_)
    exact hne (((feReady_iff hover).mp hready).1 w hw)

/-! ### Words of streams that are read ahead (R117, R118) -/

theorem exec_streamFetch {s : State} {h x a : Nat} {y : Stream} {words : W64} (hy : (s.ctx h).bound x = some y) (hreads : y.writes = false) (ha : a < 4) :
    let c := s.ctx h
    let core := h / 4
    let j := y.taken + a
    let lanes := (y.lanesOf j).filter fun i => words.getLsbD i && !y.hasRead j i
    let addrs := (lanes.map fun i => (y.laneBytes j i).map fun e => c.base + e.2.toNat).flatten
    j < y.length → y.entryInside j c.window = true → c.awake = true → lanes ≠ [] → (s.core core).pause = 0 →
    let u := usePort (.stream h x) core addrs s
    exec (.streamFetch h { reg := x, ahead := a, words := words }) s =
      .next (if portFree s (.stream h x) core addrs = true then
          u.mapCtx h fun c => { c with work := { c.work with streams := c.work.streams.map fun z =>
            if z.id = y.id then (z.fetchWords u.store core c.base j lanes) else z } }
        else queuePort (.stream h x) core addrs s) := by
  intro c core j lanes addrs hj hinside hawake hlanes hp u
  have hgo : ¬ (y.writes || decide (4 ≤ a) || decide (y.length ≤ j) || !y.entryInside j c.window || !c.awake || lanes.isEmpty ||
      (s.core core).pause != 0) = true := by
    simp [hreads, ha, hj, hinside, hawake, hlanes, hp]
  change execStreamFetch h { reg := x, ahead := a, words := words } s = _
  simp only [execStreamFetch, hy]
  exact if_neg hgo

/-- What a fetch reads of an entry: each of its words, once. -/
theorem find_foldl_put (key : Nat → Nat) (f : Nat → W32) (lanes : List Nat) (m : Sparse W32) (k : Nat) :
    Sparse.find (lanes.foldl (fun p i => Sparse.put p (key i) (f i)) m) k =
      lanes.foldl (fun r i => if k = key i then some (f i) else r) (Sparse.find m k) := by
  induction lanes generalizing m with
  | nil => rfl
  | cons i lanes ih =>
    rw [List.foldl_cons, List.foldl_cons, ih]
    by_cases hk : k = key i
    · rw [if_pos hk, hk, Sparse.find_put_same]
    · rw [if_neg hk, Sparse.find_put_other _ _ _ _ hk]

theorem foldl_some_of_key {key : Nat → Nat} (f : Nat → W32) {k i : Nat} (lanes : List Nat) (hkey : ∀ j ∈ lanes, k = key j ↔ j = i) (r : Option W32) :
    lanes.foldl (fun r j => if k = key j then some (f j) else r) r = if i ∈ lanes then some (f i) else r := by
  induction lanes generalizing r with
  | nil => rw [if_neg List.not_mem_nil]; rfl
  | cons j lanes ih =>
    rw [List.foldl_cons, ih fun l hl => hkey l (List.mem_cons_of_mem _ hl)]
    by_cases hj : j = i
    · subst hj
      rw [if_pos ((hkey j List.mem_cons_self).mpr rfl), if_pos List.mem_cons_self]
      split <;> rfl
    · rw [if_neg (mt (hkey j List.mem_cons_self).mp hj)]
      exact if_congr (by rw [List.mem_cons]; exact ⟨.inr, fun h => h.resolve_left (Ne.symm hj)⟩) rfl rfl

theorem fetchWords_spec (x : Stream) (st : Store) (core base j : Nat) (lanes : List Nat) (hlanes : ∀ i ∈ lanes, i < 64) :
    let z := x.fetchWords st core base j lanes
    let key := fun (j i : Nat) => 64 * j + i
    z = { x with words := z.words } ∧
    (∀ k i, i < 64 → Sparse.find z.words (key k i) =
      if k = j ∧ i ∈ lanes then some (x.readLane st core base j i) else Sparse.find x.words (key k i)) ∧
    (x.fetched j = true ↔ ∀ i ∈ x.lanesOf j, (Sparse.find x.words (key j i)).isSome = true) ∧
    x.entry j = (List.range 64).map fun i => Sparse.get 0 x.words (key j i) := by
  intro z key
  refine ⟨rfl, fun k i hi => ?_, List.all_eq_true, rfl⟩
  change Sparse.find (lanes.foldl (fun p i => Sparse.put p (wordsKey j + i) (x.readLane st core base j i)) x.words) (64 * k + i) = _
  rw [find_foldl_put (fun i => wordsKey j + i)]
  by_cases hk : k = j
  · have hkey : ∀ l ∈ lanes, 64 * k + i = wordsKey j + l ↔ l = i := by
      intro l _
      rw [wordsKey]
      omega
    rw [foldl_some_of_key _ lanes hkey]
    exact if_congr (by simp [hk]) rfl rfl
  · have hkey : ∀ l ∈ lanes, 64 * k + i = wordsKey j + l ↔ l = 64 := by
      intro l hl
      have := hlanes l hl
      rw [wordsKey]
      omega
    rw [foldl_some_of_key _ lanes hkey, if_neg fun h64 => lt_irrefl 64 (hlanes 64 h64), if_neg fun h => hk h.1]

/-! ### Pushes (R111, R121, R244) -/

theorem foldl_engineWrite_runs {core : Nat} (bytes : List (Nat × Byte)) {s : State} (hp : (s.core core).pause = 0) :
    bytes.foldl (fun s e => engineWrite core e.1 [e.2] s) s = s.mapStore fun st => bytes.foldl (fun st e => scratchPutBytes st core e.1 [e.2]) st := by
  induction bytes generalizing s with
  | nil => rfl
  | cons e bytes ih =>
    have hstep : engineWrite core e.1 [e.2] s = s.mapStore fun st => scratchPutBytes st core e.1 [e.2] := if_pos hp
    rw [List.foldl_cons, hstep, ih (s := s.mapStore fun st => scratchPutBytes st core e.1 [e.2]) hp]
    rfl

theorem foldl_engineWrite_stages {core : Nat} (bytes : List (Nat × Byte)) {s : State} (hp : (s.core core).pause ≠ 0) :
    let t := bytes.foldl (fun s e => engineWrite core e.1 [e.2] s) s
    t.ctxs = s.ctxs ∧ t.store = s.store ∧ (t.core core).staging = (s.core core).staging ++ bytes.map fun e => { addr := e.1, data := [e.2] } := by
  induction bytes generalizing s with
  | nil => exact ⟨rfl, rfl, (List.append_nil _).symm⟩
  | cons e bytes ih =>
    have hstep : engineWrite core e.1 [e.2] s = s.mapCore core fun k => { k with staging := k.staging ++ [{ addr := e.1, data := [e.2] }] } := if_neg hp
    have hcore : (engineWrite core e.1 [e.2] s).core core = { s.core core with staging := (s.core core).staging ++ [{ addr := e.1, data := [e.2] }] } := by
      rw [hstep, State.core_mapCore_self]
    obtain ⟨hctxs, hstore, hstaging⟩ := ih (s := engineWrite core e.1 [e.2] s) (by rw [hcore]; exact hp)
    refine ⟨hctxs.trans (by rw [hstep]; rfl), hstore.trans (by rw [hstep]; rfl), hstaging.trans ?_⟩
    rw [hcore, List.map_cons, List.append_assoc]
    rfl

theorem pushEntry_spec (s : State) (h id : Nat) (bytes : List (Nat × Byte)) :
    let core := h / 4
    let t := pushEntry h id bytes s
    (t.ctx h).work.streams = (s.ctx h).work.streams.map (fun z => if z.id = id then { z with written := z.written + 1 } else z) ∧
    ((s.core core).pause = 0 → t.store = bytes.foldl (fun st e => scratchPutBytes st core e.1 [e.2]) s.store) ∧
    ((s.core core).pause ≠ 0 → t.store = s.store ∧
      (t.core core).staging = (s.core core).staging ++ bytes.map fun e => { addr := e.1, data := [e.2] }) := by
  intro core t
  let u := bytes.foldl (fun s e => engineWrite core e.1 [e.2] s) s
  have ht : t = u.mapCtx h fun c => { c with work := { c.work with
      streams := c.work.streams.map fun y => if y.id == id then { y with written := y.written + 1 } else y } } := rfl
  have hctxs : u.ctxs = s.ctxs := by
    by_cases hp : (s.core core).pause = 0
    · rw [show u = _ from foldl_engineWrite_runs bytes hp]
      rfl
    · exact (foldl_engineWrite_stages bytes hp).1
  have hctx : u.ctx h = s.ctx h := congrArg (fun cs => Sparse.get Ctx.placed cs h) hctxs
  refine ⟨?_, fun hp => ?_, fun hp => ?_⟩
  · rw [ht, State.ctx_mapCtx_self, hctx]
    exact List.map_congr_left fun z _ => if_congr beq_iff_eq rfl rfl
  · rw [ht, State.store_mapCtx, show u = _ from foldl_engineWrite_runs bytes hp]
    rfl
  · obtain ⟨-, hstore, hstaging⟩ := foldl_engineWrite_stages (core := core) bytes hp
    exact ⟨hstore, hstaging⟩

theorem landPush_ways {s : State} {h id : Nat} (lanes : List W32) (p : Pending) {y : Stream}
    (hy : ((s.ctx h).work.streams.find? fun z => z.id == id) = some y) :
    let c := s.ctx h
    let core := h / 4
    let bytes := y.pushBytes c.base lanes
    let addrs := bytes.map (·.1)
    let waits := (∃ q ∈ c.work.landing, q.eff.isPush = true ∧ q.due ≤ c.nowCount) ∨ s.windowHw c.cont c.rank ≠ some h ∨
      ((s.core core).pause ≠ 0 ∧ 16384 < ((s.core core).staging.map (·.data.length)).sum + bytes.length)
    let keeps := fun (u : State) => u.mapCtx h fun c => { c with work := { c.work with landing := c.work.landing ++ [p] } }
    (waits → landPush h id lanes p s = keeps s) ∧
    (¬ waits → landPush h id lanes p s = if portFree s (.push h p.age) core addrs = true then pushEntry h id bytes (usePort (.push h p.age) core addrs s)
      else keeps (queuePort (.push h p.age) core addrs s)) := by
  intro c core bytes addrs waits keeps
  have hwaits : (c.pushWaits || s.windowHw c.cont c.rank != some h || !stagingRoom s core bytes.length) = true ↔ waits := by
    have hpush : c.pushWaits = true ↔ ∃ q ∈ c.work.landing, q.eff.isPush = true ∧ q.due ≤ c.nowCount := by
      simp [Ctx.pushWaits, Ctx.hasCome]
    have hroom : (!stagingRoom s core bytes.length) = true ↔
        (s.core core).pause ≠ 0 ∧ 16384 < ((s.core core).staging.map (·.data.length)).sum + bytes.length := by
      simp [stagingRoom]
    rw [Bool.or_eq_true, Bool.or_eq_true, hpush, hroom, bne_iff_ne, or_assoc]
  have hland : landPush h id lanes p s = if c.pushWaits || s.windowHw c.cont c.rank != some h || !stagingRoom s core bytes.length then keeps s
      else if portFree s (.push h p.age) core addrs then pushEntry h id bytes (usePort (.push h p.age) core addrs s)
      else keeps (queuePort (.push h p.age) core addrs s) := by
    simp only [landPush, hy]
    rfl
  exact ⟨fun h => hland.trans (if_pos (hwaits.mpr h)), fun h => hland.trans (if_neg (mt hwaits.mp h))⟩

/-! ### The engine port (R107, R121) -/

theorem banksOf_mem {addrs : List Nat} {b : Nat} : b ∈ banksOf addrs ↔ ∃ a ∈ addrs, a / 65536 = b := by
  rw [banksOf, List.mem_dedup, List.mem_map]

theorem request_banks (k : Core) (u : PortUser) (banks : List Nat) : (k.request u banks).banks = banks ∧ (k.request u banks).user = u := by
  rw [Core.request]
  cases hfind : k.portWaits.find? fun w => w.user == u && w.banks == banks with
  | none => exact ⟨rfl, rfl⟩
  | some w =>
    have hw := List.find?_some (p := fun w : PortWait => w.user == u && w.banks == banks) hfind
    rw [Bool.and_eq_true, beq_iff_eq, beq_iff_eq] at hw
    exact ⟨hw.2, hw.1⟩

/-- A requester that does not wait yet asks in this cycle. -/
theorem request_new {k : Core} {u : PortUser} (banks : List Nat) (h : ∀ v ∈ k.portWaits, v.user ≠ u) :
    k.request u banks = { user := u, banks := banks, since := k.cycles } := by
  have hnone : k.portWaits.find? (fun w => w.user == u && w.banks == banks) = none :=
    List.find?_eq_none.mpr fun v hv => by simp [h v hv]
  rw [Core.request, hnone]
  rfl

theorem request_mem_ask (k : Core) (u : PortUser) (banks : List Nat) : k.request u banks ∈ (k.ask u banks k.cycles).portWaits := by
  rw [Core.request, Core.ask]
  cases hfind : k.portWaits.find? fun w => w.user == u && w.banks == banks with
  | none =>
    have hany : ¬ (k.portWaits.any fun w => w.user == u && w.banks == banks) = true := by
      rw [List.any_eq_true]
      rintro ⟨w, hw, hmatch⟩
      exact List.find?_eq_none.mp hfind w hw hmatch
    rw [if_neg hany]
    exact List.mem_append_right _ (List.mem_singleton.mpr rfl)
  | some w =>
    have hany : (k.portWaits.any fun w => w.user == u && w.banks == banks) = true :=
      List.any_eq_true.mpr ⟨w, List.mem_of_find?_eq_some hfind, List.find?_some (p := fun w : PortWait => w.user == u && w.banks == banks) hfind⟩
    rw [if_pos hany]
    exact List.mem_of_find?_eq_some hfind

theorem mem_ask_of_mem {k : Core} {u : PortUser} {v : PortWait} (hv : v ∈ k.portWaits) (hu : v.user ≠ u) (banks : List Nat) (since : Nat) :
    v ∈ (k.ask u banks since).portWaits := by
  rw [Core.ask]
  split
  · exact hv
  · exact List.mem_append_left _ (List.mem_filter.mpr ⟨hv, bne_iff_ne.mpr hu⟩)

/-- Who goes through an open window of a context. -/
theorem passes_iff {s : State} {h : Nat} {w : HoldWindow} {u : PortUser} : u.passes s h w = true ↔
    (∃ r, u = .stream h r ∨ u = .push h r) ∨ (u = .entry h ∧ ∃ x, (s.ctx h).work.feq.head? = some x ∧ x.seq < w.entries) := by
  cases u with
  | entry x =>
    simp only [PortUser.passes, Bool.and_eq_true, beq_iff_eq, reduceCtorEq, or_self, exists_const, false_or, PortUser.entry.injEq, Option.any_eq_true,
      decide_eq_true_eq]
  | _ => simp [PortUser.passes]

/-- A bank is held where an open window of its core holds it against the requester. -/
theorem heldAgainst_iff {s : State} {u : PortUser} {core bank : Nat} : heldAgainst s u core bank = true ↔
    ∃ e ∈ s.ctxs, e.1 / 4 = core ∧ ∃ w, e.2.work.openHold = some w ∧ bank ∈ w.banks ∧ ¬ ((∃ r, u = .stream e.1 r ∨ u = .push e.1 r) ∨
      (u = .entry e.1 ∧ ∃ x, (s.ctx e.1).work.feq.head? = some x ∧ x.seq < w.entries)) := by
  rw [heldAgainst, List.any_eq_true]
  refine exists_congr fun e => and_congr_right fun _ => ?_
  rw [Bool.and_eq_true, beq_iff_eq, Option.any_eq_true]
  refine and_congr_right fun _ => exists_congr fun w => and_congr_right fun _ => ?_
  rw [Bool.and_eq_true, List.contains_iff_mem, Bool.not_eq_true', Bool.eq_false_iff, ne_eq, passes_iff]

theorem banksOpen_iff {s : State} {u : PortUser} {core : Nat} {addrs : List Nat} : banksOpen s u core (banksOf addrs) = true ↔
    ∀ a ∈ addrs, a / 65536 ∉ (s.core core).port ∧ ¬ heldAgainst s u core (a / 65536) = true := by
  rw [banksOpen, List.all_eq_true]
  have hone : ∀ b, (!(s.core core).port.contains b && !heldAgainst s u core b) = true ↔ b ∉ (s.core core).port ∧ ¬ heldAgainst s u core b = true := by
    simp
  refine ⟨fun h a ha => (hone _).mp (h _ (banksOf_mem.mpr ⟨a, ha, rfl⟩)), fun h b hb => ?_⟩
  obtain ⟨a, ha, rfl⟩ := banksOf_mem.mp hb
  exact (hone _).mpr (h a ha)

theorem portFree_eq (s : State) (u : PortUser) (core : Nat) (addrs : List Nat) : let w := (s.core core).request u (banksOf addrs)
    portFree s u core addrs = (addrs.isEmpty || decide (w.since < (s.core core).cycles) && banksOpen s u core (banksOf addrs) &&
      !(s.core core).portWaits.any fun v => portBefore s core v w) := by
  intro w
  rw [portFree]
  rw [(request_banks (s.core core) u (banksOf addrs)).1]

theorem portFree_opens {s : State} {u : PortUser} {core : Nat} {addrs : List Nat} (h : portFree s u core addrs = true) {a : Nat} (ha : a ∈ addrs) :
    ((s.core core).request u (banksOf addrs)).since < (s.core core).cycles ∧ banksOpen s u core (banksOf addrs) = true := by
  have hsome : addrs.isEmpty = false := List.isEmpty_eq_false_iff.mpr (List.ne_nil_of_mem ha)
  rw [portFree_eq, hsome, Bool.false_or, Bool.and_eq_true, Bool.and_eq_true, decide_eq_true_eq] at h
  exact h.1

/-- With no other that waits, the port serves a requester of an earlier cycle whose banks are open. -/
theorem portFree_alone {s : State} {u : PortUser} {core : Nat} {addrs : List Nat} (halone : ∀ v ∈ (s.core core).portWaits, v.user = u)
    (hsince : ((s.core core).request u (banksOf addrs)).since < (s.core core).cycles) (hopen : banksOpen s u core (banksOf addrs) = true) :
    portFree s u core addrs = true := by
  have hnone : ((s.core core).portWaits.any fun v => portBefore s core v ((s.core core).request u (banksOf addrs))) = false := by
    refine List.any_eq_false.mpr fun v hv => ?_
    have hsame : (v.user != ((s.core core).request u (banksOf addrs)).user) = false := by
      rw [(request_banks (s.core core) u (banksOf addrs)).2, halone v hv]
      exact bne_self_eq_false _
    rw [portBefore, PortWait.meets, hsame]
    simp
  rw [portFree_eq, decide_eq_true hsince, hopen, hnone]
  simp

/-- A request that came before, or before it in the round, stands against another where its banks can serve it. -/
theorem portFree_behind {s : State} {u : PortUser} {core : Nat} {addrs : List Nat} {v : PortWait} (hv : v ∈ (s.core core).portWaits) (hu : v.user ≠ u)
    (hbank : ∃ a ∈ addrs, a / 65536 ∈ v.banks)
    (hbefore : let wait := (s.core core).request u (banksOf addrs)
      v.since < wait.since ∨ v.since = wait.since ∧ roundBefore (s.core core).portLast v.user u = true)
    (hopen : banksOpen s v.user core v.banks = true) (helse : ∀ e ∈ s.cores, e.1 ≠ core → ∀ y ∈ e.2.portWaits, y.user ≠ v.user) :
    portFree s u core addrs = false := by
  obtain ⟨hbanks, huser⟩ := request_banks (s.core core) u (banksOf addrs)
  obtain ⟨a, ha, hva⟩ := hbank
  have hmeets : v.meets ((s.core core).request u (banksOf addrs)) = true := by
    rw [PortWait.meets, hbanks, huser, Bool.and_eq_true, bne_iff_ne, List.any_eq_true]
    exact ⟨hu, _, hva, List.contains_iff_mem.mpr (banksOf_mem.mpr ⟨a, ha, rfl⟩)⟩
  have hfirst : v.before (s.core core).portLast ((s.core core).request u (banksOf addrs)) = true := by
    rw [PortWait.before, huser, Bool.or_eq_true, Bool.and_eq_true, decide_eq_true_eq, beq_iff_eq]
    exact hbefore
  have hothers : (s.cores.all fun e => e.1 == core || (e.2.portWaits.filter (·.user == v.user)).all fun x =>
      banksOpen s x.user e.1 x.banks && !e.2.portWaits.any fun y => y.meets x && y.before e.2.portLast x) = true := by
    refine List.all_eq_true.mpr fun e he => ?_
    by_cases hcore : e.1 = core
    · rw [beq_iff_eq.mpr hcore, Bool.true_or]
    · have hnone : e.2.portWaits.filter (·.user == v.user) = [] :=
        List.filter_eq_nil_iff.mpr fun y hy => by simpa using helse e he hcore y hy
      rw [hnone]
      exact Bool.or_true _
  have hstands : ((s.core core).portWaits.any fun x => portBefore s core x ((s.core core).request u (banksOf addrs))) = true := by
    refine List.any_eq_true.mpr ⟨v, hv, ?_⟩
    rw [portBefore, hmeets, hfirst, hopen, hothers]
    rfl
  rw [portFree_eq, hstands, List.isEmpty_eq_false_iff.mpr (List.ne_nil_of_mem ha)]
  simp

theorem core_usePort {u : PortUser} {core : Nat} {addrs : List Nat} (s : State) (h : addrs ≠ []) : (usePort u core addrs s).core core =
    { s.core core with
      port := ((banksOf addrs).filter fun b => !(s.core core).port.contains b) ++ (s.core core).port
      portWaits := (s.core core).portWaits.filter fun w => w.user != u
      portLast := u.number } := by
  rw [usePort, if_neg (by simpa using h), State.core_mapCore_self]

theorem core_queuePort {u : PortUser} {core : Nat} {addrs : List Nat} (s : State) (h : addrs ≠ []) :
    (queuePort u core addrs s).core core = (s.core core).ask u (banksOf addrs) (s.core core).cycles := by
  rw [queuePort, if_neg (by simpa using h), State.core_mapCore_self]

theorem mem_port_usePort {u : PortUser} {core : Nat} {addrs : List Nat} (s : State) {a : Nat} (ha : a ∈ addrs) :
    a / 65536 ∈ ((usePort u core addrs s).core core).port := by
  rw [core_usePort s (List.ne_nil_of_mem ha), List.mem_append, List.mem_filter]
  by_cases hp : a / 65536 ∈ (s.core core).port
  · exact .inr hp
  · exact .inl ⟨banksOf_mem.mpr ⟨a, ha, rfl⟩, by simpa using hp⟩

theorem mem_queuePort_of_mem {s : State} {u : PortUser} {core : Nat} {v : PortWait} (hv : v ∈ (s.core core).portWaits) (hu : v.user ≠ u)
    (addrs : List Nat) : v ∈ ((queuePort u core addrs s).core core).portWaits := by
  by_cases h : addrs = []
  · subst h
    exact hv
  · rw [core_queuePort s h]
    exact mem_ask_of_mem hv hu _ _

end Sys2Proof.Machine

/-! SUPPORT. The statement on what reaches a context, finished: what a full/empty load takes, and what a full/empty store leaves. -/

namespace Sys2Proof.Machine

/-! ### What a full/empty load takes (R110, R148) -/

/-- A state that has another only behind in the timestamp of one context. -/
structure State.Later (h : Nat) (s t : State) : Prop where
  store : t.store = s.store
  ctx : t.ctx h = { s.ctx h with pts := (t.ctx h).pts }
  pts : (s.ctx h).pts ≤ (t.ctx h).pts

namespace State.Later

variable {h : Nat} {s t u : State}

theorem refl (h : Nat) (s : State) : s.Later h s := ⟨rfl, rfl, le_rfl⟩

theorem trans (a : s.Later h t) (b : t.Later h u) : s.Later h u :=
  ⟨b.store.trans a.store, by rw [b.ctx, a.ctx], a.pts.trans b.pts⟩

/-- What a context acquires. -/
theorem acquire (h n : Nat) (s : State) : s.Later h (s.mapCtx h fun c => { c with pts := max c.pts n }) := by
  refine ⟨rfl, ?_, ?_⟩ <;> rw [s.ctx_mapCtx_self]
  exact le_max_left ..

theorem observeBy (h core addr : Nat) (s : State) : s.Later h (observeBy h core addr s) := by
  unfold Machine.observeBy
  split
  · exact acquire h _ s
  · exact refl h s

end State.Later

/-- The reads of words by a context: each acquires what its word carries. -/
def acquireWords (h core : Nat) (words : List (Nat × Nat)) (s : State) : State :=
  words.foldl (fun s w => observeBy h core w.2 (s.mapCtx h fun c => { c with pts := max c.pts (carried s.store (wordKey core w.2)).1 })) s

theorem later_acquireWords (h core : Nat) (words : List (Nat × Nat)) (s : State) : s.Later h (acquireWords h core words s) ∧
    ∀ w ∈ words, (carried s.store (wordKey core w.2)).1 ≤ ((acquireWords h core words s).ctx h).pts := by
  induction words generalizing s with
  | nil => exact ⟨.refl h s, nofun⟩
  | cons w words ih =>
    let u := s.mapCtx h fun c => { c with pts := max c.pts (carried s.store (wordKey core w.2)).1 }
    have hstep : u.Later h (observeBy h core w.2 u) := .observeBy h core w.2 u
    obtain ⟨hrest, hwords⟩ := ih (observeBy h core w.2 u)
    have hu : (u.ctx h).pts = max (s.ctx h).pts (carried s.store (wordKey core w.2)).1 := by rw [s.ctx_mapCtx_self]
    refine ⟨(State.Later.acquire h _ s).trans (hstep.trans hrest), fun x hx => ?_⟩
    rcases List.mem_cons.mp hx with rfl | hx
    · exact (le_max_right _ _).trans (hu.symm.le.trans (hstep.trans hrest).pts)
    · have hstore : (observeBy h core w.2 u).store = s.store := hstep.store
      rw [← hstore]
      exact hwords x hx

/-- The words that are taken become empty. -/
def emptyWords (core : Nat) (words : List (Nat × Nat)) (st : Store) : Store := words.foldl (fun st w => setFull st core w.2 false) st

theorem emptyWords_frame (core : Nat) (words : List (Nat × Nat)) (st : Store) :
    (emptyWords core words st).mem = st.mem ∧ (emptyWords core words st).scratch = st.scratch :=
  foldl_keeps (fun t : Store => t.mem = st.mem ∧ t.scratch = st.scratch) _ words st ⟨rfl, rfl⟩ fun _ _ ht => ht

/-- Aligned addresses of a core have keys of their own. -/
theorem scratchKey_eq_iff {core a b : Nat} (ha : a % 4 = 0) (hb : b % 4 = 0) : scratchKey core a = scratchKey core b ↔ a = b := by
  rw [scratchKey, scratchKey]
  omega

theorem isFull_emptyWords {core : Nat} {words : List (Nat × Nat)} (hw : ∀ w ∈ words, w.2 % 4 = 0) {st : Store}
    (hr : Sparse.risingFrom none st.full = true) {a : Nat} (ha : a % 4 = 0) :
    isFull (emptyWords core words st) core a = (isFull st core a && !(words.map (·.2)).contains a) := by
  induction words generalizing st with
  | nil => exact (Bool.and_true _).symm
  | cons w words ih =>
    have hrise : Sparse.risingFrom none (setFull st core w.2 false).full = true := Sparse.rising_set false st.full (scratchKey core w.2) false hr
    have hfold : emptyWords core (w :: words) st = emptyWords core words (setFull st core w.2 false) := rfl
    rw [hfold, ih (fun x hx => hw x (List.mem_cons_of_mem _ hx)) hrise, isFull_setFull hr, List.map_cons, List.contains_cons]
    by_cases hwa : a = w.2
    · rw [if_pos (congrArg _ hwa), beq_iff_eq.mpr hwa]
      simp
    · rw [if_neg (mt (scratchKey_eq_iff ha (hw w List.mem_cons_self)).mp hwa), beq_eq_false_iff_ne.mpr hwa, Bool.false_or]

/-- The state in which the values of a full/empty load arrive. -/
def takenWords (h : Nat) (e : FeEntry) (s : State) : State :=
  let t := acquireWords h (h / 4) e.words s
  if e.keep then t else t.mapStore (emptyWords (h / 4) e.words)

/-- The values of a full/empty load, on their way. -/
def takenValues (h : Nat) (e : FeEntry) (d : DeliverTo) (s : State) : Deliver :=
  { dest := d, age := e.age, value := valuesFor d (e.words.map fun w => (w.1, (scratchWord s.store (h / 4) w.2).setWidth 64)), load := false,
    peer := false, lines := 0, counter := none }

theorem performTake_eq (h : Nat) (e : FeEntry) (d : DeliverTo) (s : State) :
    performTake h e d s = arrive h (takenValues h e d s) (takenWords h e s) := rfl

theorem ctx_takenWords (h : Nat) (e : FeEntry) (s : State) : ((takenWords h e s).ctx h) = (acquireWords h (h / 4) e.words s).ctx h := by
  rw [takenWords]
  split <;> rfl

theorem takenWords_frame (h : Nat) (e : FeEntry) (s : State) :
    (takenWords h e s).store.mem = s.store.mem ∧ (takenWords h e s).store.scratch = s.store.scratch := by
  have hstore := (later_acquireWords h (h / 4) e.words s).1.store
  rw [takenWords]
  split
  · exact ⟨congrArg Store.mem hstore, congrArg Store.scratch hstore⟩
  · obtain ⟨hmem, hscratch⟩ := emptyWords_frame (h / 4) e.words (acquireWords h (h / 4) e.words s).store
    exact ⟨hmem.trans (congrArg Store.mem hstore), hscratch.trans (congrArg Store.scratch hstore)⟩

theorem isFull_takenWords {h : Nat} {e : FeEntry} {s : State} (hw : ∀ w ∈ e.words, w.2 % 4 = 0) (hr : Sparse.risingFrom none s.store.full = true)
    {a : Nat} (ha : a % 4 = 0) : isFull (takenWords h e s).store (h / 4) a =
      (isFull s.store (h / 4) a && !(!e.keep && (e.words.map (·.2)).contains a)) := by
  have hstore := (later_acquireWords h (h / 4) e.words s).1.store
  rw [takenWords]
  cases e.keep with
  | true =>
    rw [if_pos rfl, hstore, Bool.not_true, Bool.false_and, Bool.not_false, Bool.and_true]
  | false =>
    rw [if_neg Bool.false_ne_true, State.store_mapStore, hstore, isFull_emptyWords hw hr ha, Bool.not_false, Bool.true_and]

/-! ### What an arrival leaves -/

theorem full_applyPending (h : Nat) (s : State) (p : Pending) : (applyPending h s p).store.full = s.store.full := by
  obtain ⟨due, age, eff, held⟩ := p
  cases eff with
  | push id x => exact (sameQueues_landPush h s id x _).full
  | _ => rfl

theorem scratch_applyPending {h : Nat} {s : State} {p : Pending} (hp : p.eff.isPush = false) : (applyPending h s p).store.scratch = s.store.scratch := by
  obtain ⟨due, age, eff, held⟩ := p
  cases eff with
  | push id x => exact absurd hp.symm Bool.false_ne_true
  | _ => rfl

theorem pts_applyPending (h : Nat) (s : State) (p : Pending) : ((applyPending h s p).ctx h).pts = (s.ctx h).pts := by
  obtain ⟨w, hw⟩ := ctx_applyPending h s p
  rw [hw]
  obtain ⟨due, age, eff, held⟩ := p
  cases eff <;> rfl

theorem isPush_effect {d : Deliver} (hd : ∀ id mask, d.dest ≠ .push id mask) : d.effect.isPush = false := by
  obtain ⟨dest, age, value, load, peer, lines, counter⟩ := d
  cases dest with
  | push id mask => exact absurd rfl (hd id mask)
  | _ => rfl

/-- An arrival lands at once, or waits to. -/
theorem arrive_ways (h : Nat) (d : Deliver) (s : State) :
    (∃ due, arrive h d s = applyPending h s { due := due, age := d.age, eff := d.effect, held := true }) ∨
    ∃ p, arrive h d s = s.mapCtx h fun c => { c with work := { c.work with landing := c.work.landing ++ [p] } } := by
  unfold arrive
  dsimp only
  split
  · exact .inl ⟨_, rfl⟩
  · exact .inr ⟨_, rfl⟩

theorem arrive_frame (h : Nat) (d : Deliver) (s : State) : (arrive h d s).store.mem = s.store.mem ∧ (arrive h d s).store.full = s.store.full ∧
    ((∀ id mask, d.dest ≠ .push id mask) → (arrive h d s).store.scratch = s.store.scratch) ∧ ((arrive h d s).ctx h).pts = (s.ctx h).pts := by
  rcases arrive_ways h d s with ⟨due, hp⟩ | ⟨p, hp⟩
  · rw [hp]
    exact ⟨mem_applyPending .., full_applyPending .., fun hd => scratch_applyPending (isPush_effect hd), pts_applyPending ..⟩
  · rw [hp]
    exact ⟨rfl, rfl, fun _ => rfl, by rw [State.ctx_mapCtx_self]⟩

/-- A vector value that arrives merges its lanes. -/
theorem readV_arrive {h p : Nat} {mask : W64} {d : Deliver} {s : State} (hd : d.dest = .v p mask)
    (hland : ∀ q ∈ (s.ctx h).work.landing, q.eff.hits d.dest = false) (hr : Sparse.risingFrom none (s.ctx h).regs.v = true) :
    ((arrive h d s).ctx h).regs.readV p = mergeLanes mask ((s.ctx h).regs.readV p) (d.value.map fun x => x.setWidth 32) := by
  have heff : d.effect = .v p mask (d.value.map fun x => x.setWidth 32) := by rw [Deliver.effect, hd]
  rw [arrive_applies hland, heff]
  obtain ⟨w, hw⟩ := ctx_applyPending h s { due := (s.ctx h).nowCount, age := d.age, eff := .v p mask (d.value.map fun x => x.setWidth 32), held := true }
  rw [hw]
  exact (Regs.readV_writeV _ p p mask _ hr).trans (if_pos rfl)

/-- Of values with lanes of their own, each is found at its lane. -/
theorem find?_lane {words : List (Nat × Nat)} (hnodup : (words.map (·.1)).Nodup) (f : Nat → W64) {w : Nat × Nat} (hw : w ∈ words) :
    (words.map fun w => (w.1, f w.2)).find? (fun e => e.1 == w.1) = some (w.1, f w.2) := by
  induction words with
  | nil => exact absurd hw List.not_mem_nil
  | cons x words ih =>
    rw [List.map_cons, List.nodup_cons] at hnodup
    rw [List.map_cons, List.find?_cons]
    rcases List.mem_cons.mp hw with rfl | hw'
    · rw [beq_self_eq_true]
    · have hne : x.1 ≠ w.1 := fun heq => hnodup.1 (heq ▸ List.mem_map_of_mem hw')
      rw [beq_eq_false_iff_ne.mpr hne]
      exact ih hnodup.2 hw'

theorem performTake_spec {s : State} {h : Nat} {e : FeEntry} (hwords : ∀ w ∈ e.words, w.2 % 4 = 0) (hrise : Sparse.risingFrom none s.store.full = true)
    (d : DeliverTo) :
    let c := s.ctx h
    let core := h / 4
    let t := performTake h e d s
    t.store.mem = s.store.mem ∧ ((∀ id mask, d ≠ .push id mask) → t.store.scratch = s.store.scratch) ∧
    (∀ a, a % 4 = 0 → a < 2 ^ 21 → isFull t.store core a = (isFull s.store core a && !(!e.keep && (e.words.map (·.2)).contains a))) ∧
    (∀ w ∈ e.words, (carried s.store (wordKey core w.2)).1 ≤ (t.ctx h).pts) ∧ c.pts ≤ (t.ctx h).pts ∧
    ((∀ p ∈ c.work.landing, p.eff.hits d = false) →
      (∀ r i a, d = .g r → r ≠ 0 → e.words = [(i, a)] → Sparse.risingFrom none c.regs.g = true →
        (t.ctx h).regs.readG r = (scratchWord s.store core a).setWidth 64) ∧
      (∀ p mask, d = .v p mask → Sparse.risingFrom none c.regs.v = true → (e.words.map (·.1)).Nodup → ∀ w ∈ e.words, w.1 < 64 →
        mask.getLsbD w.1 = true → ((t.ctx h).regs.readV p).getD w.1 0 = scratchWord s.store core w.2)) := by
  intro c core t
  obtain ⟨hlater, hcarried⟩ := later_acquireWords h (h / 4) e.words s
  obtain ⟨hmem, hscratch⟩ := takenWords_frame h e s
  obtain ⟨hamem, hafull, hascratch, hapts⟩ := arrive_frame h (takenValues h e d s) (takenWords h e s)
  have hctx : (takenWords h e s).ctx h = { c with pts := ((acquireWords h (h / 4) e.words s).ctx h).pts } := (ctx_takenWords h e s).trans hlater.ctx
  have hpts : (t.ctx h).pts = ((acquireWords h (h / 4) e.words s).ctx h).pts := hapts.trans (congrArg Ctx.pts (ctx_takenWords h e s))
  refine ⟨hamem.trans hmem, fun hd => (hascratch hd).trans hscratch, fun a ha _ => ?_, fun w hw => hpts ▸ hcarried w hw, hpts ▸ hlater.pts, fun hland => ?_⟩
  · have hfull : isFull t.store core a = isFull (takenWords h e s).store core a := congrArg (fun m => Sparse.get false m (scratchKey core a)) hafull
    exact hfull.trans (isFull_takenWords hwords hrise ha)
  · have hlanding : ∀ p ∈ ((takenWords h e s).ctx h).work.landing, p.eff.hits d = false := by rw [hctx]; exact hland
    refine ⟨fun r i a hd h0 hone hg => ?_, fun p mask hd hv hnodup w hw hlane hmask => ?_⟩
    · subst hd
      have ht : t = (takenWords h e s).mapCtx h fun c => { c with regs := c.regs.writeG r ((takenValues h e (.g r) s).value.getD 0 0) } :=
        arrive_g (d := takenValues h e (.g r) s) rfl hlanding
      have hvalue : (takenValues h e (.g r) s).value.getD 0 0 = (scratchWord s.store core a).setWidth 64 := by
        rw [takenValues, hone]
        rfl
      rw [ht, State.ctx_mapCtx_self, hctx, hvalue]
      exact (Regs.readG_writeG _ _ _ _ hg).trans (if_pos ⟨rfl, h0⟩)
    · subst hd
      have hregs : ((takenWords h e s).ctx h).regs = c.regs := by rw [hctx]
      have hread : (t.ctx h).regs.readV p = mergeLanes mask (c.regs.readV p) ((takenValues h e (.v p mask) s).value.map fun x => x.setWidth 32) :=
        (readV_arrive (d := takenValues h e (.v p mask) s) rfl hlanding (hregs ▸ hv)).trans (by rw [hregs])
      rw [hread, mergeLanes_getD _ _ _ hlane, if_pos hmask, takenValues, valuesFor, List.map_map, getD_map_range _ _ _ _ hlane]
      · rw [Function.comp, find?_lane hnodup (fun a => (scratchWord s.store core a).setWidth 64) hw]
        exact BitVec.setWidth_setWidth_of_le (scratchWord s.store core w.2) (show 32 ≤ 64 by decide)
      · nofun

/-! ### What a full/empty store leaves (R110, R148) -/

/-- The word of a full/empty store at its address, full, with the timestamp that it carries. -/
def releaseWord (core pts : Nat) (st : Store) (w : (Nat × Nat) × W32) : Store :=
  setCarried (setFull (scratchStore st core w.1.2 w.2) core w.1.2 true) (wordKey core w.1.2) (pts, 0)

theorem performRelease_eq (h : Nat) (e : FeEntry) (s : State) :
    performRelease h e s = s.mapStore fun st => (List.zip e.words e.data).foldl (releaseWord (h / 4) (s.ctx h).pts) st := rfl

/-- The forms of the lists that a full/empty store changes. -/
structure Store.WordsRise (st : Store) : Prop where
  scratch : Sparse.risingFrom none st.scratch = true
  full : Sparse.risingFrom none st.full = true
  released : Sparse.risingFrom none st.released = true

section
variable {core pts : Nat} {st : Store} (hr : st.WordsRise) (w : (Nat × Nat) × W32)
include hr

theorem wordsRise_releaseWord : (releaseWord core pts st w).WordsRise :=
  ⟨Sparse.rising_set 0 st.scratch _ _ hr.scratch, Sparse.rising_set false st.full (scratchKey core w.1.2) true hr.full, Sparse.rising_set (0, 0) st.released _ _ hr.released⟩

theorem releaseWord_reads (a : Nat) :
    scratchWord (releaseWord core pts st w) core a = (if scratchKey core a = scratchKey core w.1.2 then w.2 else scratchWord st core a) ∧
    isFull (releaseWord core pts st w) core a = (if scratchKey core a = scratchKey core w.1.2 then true else isFull st core a) ∧
    carried (releaseWord core pts st w) (wordKey core a) =
      if wordKey core a = wordKey core w.1.2 then (pts, 0) else carried st (wordKey core a) :=
  ⟨Sparse.get_set 0 st.scratch _ _ _ hr.scratch, isFull_setFull (st := scratchStore st core w.1.2 w.2) hr.full core w.1.2 true core a,
    Sparse.get_set (0, 0) st.released _ _ _ hr.released⟩

end

/-- Two stores read the same of a word. -/
def SameWord (core a : Nat) (st st' : Store) : Prop := scratchWord st' core a = scratchWord st core a ∧ isFull st' core a = isFull st core a ∧
  carried st' (wordKey core a) = carried st (wordKey core a)

theorem releaseWords_other {core pts a : Nat} (ha : a % 4 = 0) (l : List ((Nat × Nat) × W32)) (hl : ∀ w ∈ l, w.1.2 % 4 = 0 ∧ w.1.2 ≠ a) {st : Store}
    (hr : st.WordsRise) : SameWord core a st (l.foldl (releaseWord core pts) st) := by
  induction l generalizing st with
  | nil => exact ⟨rfl, rfl, rfl⟩
  | cons w l ih =>
    obtain ⟨hw, hne⟩ := hl w List.mem_cons_self
    have hkey : scratchKey core a ≠ scratchKey core w.1.2 := fun h => hne ((scratchKey_eq_iff ha hw).mp h).symm
    obtain ⟨h1, h2, h3⟩ := releaseWord_reads (core := core) (pts := pts) hr w a
    obtain ⟨i1, i2, i3⟩ := ih (fun x hx => hl x (List.mem_cons_of_mem _ hx)) (wordsRise_releaseWord (core := core) (pts := pts) hr w)
    refine ⟨i1.trans (h1.trans (if_neg hkey)), i2.trans (h2.trans (if_neg hkey)), i3.trans (h3.trans (if_neg ?_))⟩
    rw [wordKey, wordKey]
    omega

theorem releaseWords_named {core pts : Nat} (l : List ((Nat × Nat) × W32)) (hl : ∀ w ∈ l, w.1.2 % 4 = 0) (hnodup : (l.map (·.1.2)).Nodup) {st : Store}
    (hr : st.WordsRise) {w : (Nat × Nat) × W32} (hw : w ∈ l) :
    let st' := l.foldl (releaseWord core pts) st
    scratchWord st' core w.1.2 = w.2 ∧ isFull st' core w.1.2 = true ∧ carried st' (wordKey core w.1.2) = (pts, 0) := by
  induction l generalizing st with
  | nil => exact absurd hw List.not_mem_nil
  | cons x l ih =>
    rw [List.map_cons, List.nodup_cons] at hnodup
    have hrise := wordsRise_releaseWord (core := core) (pts := pts) hr x
    have hrest : ∀ y ∈ l, y.1.2 % 4 = 0 := fun y hy => hl y (List.mem_cons_of_mem _ hy)
    rcases List.mem_cons.mp hw with rfl | hw'
    · obtain ⟨h1, h2, h3⟩ := releaseWord_reads (core := core) (pts := pts) hr w w.1.2
      obtain ⟨i1, i2, i3⟩ := releaseWords_other (core := core) (pts := pts) (hl w List.mem_cons_self) l
        (fun y hy => ⟨hrest y hy, fun heq => hnodup.1 (heq ▸ List.mem_map_of_mem hy)⟩) hrise
      exact ⟨i1.trans (h1.trans (if_pos rfl)), i2.trans (h2.trans (if_pos rfl)), i3.trans (h3.trans (if_pos rfl))⟩
    · exact ih hrest hnodup.2 hrise hw'

theorem mem_releaseWords (core pts : Nat) (l : List ((Nat × Nat) × W32)) (st : Store) : (l.foldl (releaseWord core pts) st).mem = st.mem :=
  foldl_keeps (fun t : Store => t.mem = st.mem) _ l st rfl fun _ _ ht => ht

theorem performRelease_spec {s : State} {h : Nat} {e : FeEntry} (hwords : ∀ w ∈ e.words, w.2 % 4 = 0) (hfull : Sparse.risingFrom none s.store.full = true)
    (hlen : e.data.length = e.words.length) (hnodup : (e.words.map (·.2)).Nodup) (hscratch : Sparse.risingFrom none s.store.scratch = true)
    (hreleased : Sparse.risingFrom none s.store.released = true) :
    let core := h / 4
    let t := performRelease h e s
    t.ctxs = s.ctxs ∧ t.store.mem = s.store.mem ∧
    (∀ e' ∈ List.zip e.words e.data, scratchWord t.store core e'.1.2 = e'.2 ∧ isFull t.store core e'.1.2 = true ∧
      carried t.store (wordKey core e'.1.2) = ((s.ctx h).pts, 0)) ∧
    (∀ a, a % 4 = 0 → a < 2 ^ 21 → ¬ a ∈ e.words.map (·.2) → scratchWord t.store core a = scratchWord s.store core a ∧
      isFull t.store core a = isFull s.store core a) := by
  intro core t
  have hr : s.store.WordsRise := ⟨hscratch, hfull, hreleased⟩
  have hmem : ∀ w ∈ List.zip e.words e.data, w.1 ∈ e.words := fun w hw => (List.of_mem_zip hw).1
  have hnames : (List.zip e.words e.data).map (·.1.2) = e.words.map (·.2) := by
    have hfst : (List.zip e.words e.data).map Prod.fst = e.words := List.map_fst_zip hlen.ge
    calc (List.zip e.words e.data).map (·.1.2) = ((List.zip e.words e.data).map Prod.fst).map (·.2) := (List.map_map ..).symm
      _ = e.words.map (·.2) := by rw [hfst]
  refine ⟨rfl, mem_releaseWords .., fun e' he' => ?_, fun a ha _ hnot => ?_⟩
  · exact releaseWords_named _ (fun w hw => hwords _ (hmem w hw)) (hnames ▸ hnodup) hr he'
  · obtain ⟨h1, h2, -⟩ := releaseWords_other (core := core) (pts := (s.ctx h).pts) ha (List.zip e.words e.data)
      (fun w hw => ⟨hwords _ (hmem w hw), fun heq => hnot (heq ▸ List.mem_map_of_mem (hmem w hw))⟩) hr
    exact ⟨h1, h2⟩

/-- What the engine port serves, and who waits at it. -/
theorem port_spec (s : State) (u : PortUser) (core : Nat) (addrs : List Nat) : let k := s.core core
    let passes := fun (h : Nat) (w : HoldWindow) => (∃ r, u = .stream h r ∨ u = .push h r) ∨
      (u = .entry h ∧ ∃ x, (s.ctx h).work.feq.head? = some x ∧ x.seq < w.entries)
    let held := fun (a : Nat) => ∃ e ∈ s.ctxs, e.1 / 4 = core ∧ ∃ w, e.2.work.openHold = some w ∧ a / 65536 ∈ w.banks ∧ ¬ passes e.1 w
    let wait : PortWait := k.request u (banksOf addrs)
    (portFree s u core addrs = true → ∀ a ∈ addrs, a / 65536 ∉ k.port ∧ ¬ held a ∧ wait.since < k.cycles) ∧
    ((∀ v ∈ k.portWaits, v.user = u) → wait.since < k.cycles → (∀ a ∈ addrs, a / 65536 ∉ k.port ∧ ¬ held a) → portFree s u core addrs = true) ∧
    (∀ v ∈ k.portWaits, v.user ≠ u → (∃ a ∈ addrs, a / 65536 ∈ v.banks) →
      v.since < wait.since ∨ v.since = wait.since ∧ roundBefore k.portLast v.user u = true → banksOpen s v.user core v.banks = true →
      (∀ e ∈ s.cores, e.1 ≠ core → ∀ y ∈ e.2.portWaits, y.user ≠ v.user) → portFree s u core addrs = false) ∧
    (addrs ≠ [] → (∀ a ∈ addrs, a / 65536 ∈ ((usePort u core addrs s).core core).port) ∧
      (∀ v ∈ ((usePort u core addrs s).core core).portWaits, v.user ≠ u) ∧
      wait ∈ ((queuePort u core addrs s).core core).portWaits ∧
      ((∀ v ∈ k.portWaits, v.user ≠ u) → wait.since = k.cycles)) ∧
    (∀ v ∈ k.portWaits, v.user ≠ u → v ∈ ((queuePort u core addrs s).core core).portWaits) := by
  intro k passes held wait
  have hheld : ∀ a, held a ↔ heldAgainst s u core (a / 65536) = true := fun a => heldAgainst_iff.symm
  refine ⟨fun hfree a ha => ?_, fun halone hsince hopen => ?_, fun v hv hu hbank hbefore hopen helse => portFree_behind hv hu hbank hbefore hopen helse,
    fun hsome => ⟨fun a ha => mem_port_usePort s ha, fun v hv => ?_, ?_, fun hnew => ?_⟩, fun v hv hu => mem_queuePort_of_mem hv hu addrs⟩
  · obtain ⟨hsince, hopen⟩ := portFree_opens hfree ha
    obtain ⟨hport, hnot⟩ := banksOpen_iff.mp hopen a ha
    exact ⟨hport, mt (hheld a).mp hnot, hsince⟩
  · refine portFree_alone halone hsince (banksOpen_iff.mpr fun a ha => ?_)
    obtain ⟨hport, hnot⟩ := hopen a ha
    exact ⟨hport, mt (hheld a).mpr hnot⟩
  · rw [core_usePort s hsome] at hv
    exact bne_iff_ne.mp (List.mem_filter.mp hv).2
  · rw [core_queuePort s hsome]
    exact request_mem_ask k u (banksOf addrs)
  · rw [show wait = _ from request_new (banksOf addrs) hnew]

/-- Settles O53, each event by its own equation. -/
theorem pipelineEventsAct : Obligations.PipelineEventsAct := by
  refine ⟨fun s h k x words => ?_, fun x st core base j lanes hlanes _ => fetchWords_spec x st core base j lanes hlanes, port_spec,
    fun s h e hwords hrise => ⟨fun d => performTake_spec (fun w hw => (hwords w hw).1) hrise d, fun hlen hnodup hscratch hreleased =>
      performRelease_spec (fun w hw => (hwords w hw).1) hrise hlen hnodup hscratch hreleased⟩⟩
  exact ⟨rfl,
    fun d hd holder => ⟨exec_deliver hd holder, fun r hdest h0 hland hrise => exec_deliver_g hd holder hdest h0 hland hrise⟩,
    fun o ho => ⟨fun e he hf => exec_translationResult_waits ho he hf, fun va cls level entry rep miss he hf => exec_translationResult_faults ho he hf,
      exec_translationResult_succeeds ho⟩,
    fun o os ho ht ha hd => exec_storePerformed ho ht ha hd,
    fun e es he hawake hp hover => feEntryPerform_ways he hawake hp hover,
    fun y a hy hreads ha => exec_streamFetch hy hreads ha,
    fun id lanes p y hy => ⟨(landPush_ways lanes p hy).1, (landPush_ways lanes p hy).2, pushEntry_spec s h id _⟩,
    fun w hw hl => exec_holdLimitExpiry hw hl⟩

end Sys2Proof.Machine

/-! SUPPORT. The statement on the distributor: its events, halts, the watchdog, and the rebase. -/

namespace Sys2Proof.Machine

/-! ### Reports of resources (R226) -/

/-- The number of the bits at which a predicate holds. -/
def bitsWhere (n : Nat) (p : Nat → Bool) : Nat := ((List.range n).filter p).foldl (fun m j => m + 2 ^ j) 0

theorem bitsWhere_succ (n : Nat) (p : Nat → Bool) : bitsWhere (n + 1) p = bitsWhere n p + if p n then 2 ^ n else 0 := by
  rw [bitsWhere, List.range_succ, List.filter_append, List.foldl_append]
  cases hp : p n <;> simp [hp, bitsWhere]

theorem bitsWhere_lt (n : Nat) (p : Nat → Bool) : bitsWhere n p < 2 ^ n := by
  induction n with
  | zero => exact Nat.one_pos
  | succ n ih =>
    rw [bitsWhere_succ, pow_succ]
    split <;> omega

theorem testBit_bitsWhere {n q : Nat} (p : Nat → Bool) (hq : q < n) : (bitsWhere n p).testBit q = p q := by
  induction n with
  | zero => exact absurd hq (Nat.not_lt_zero q)
  | succ n ih =>
    have hlt := bitsWhere_lt n p
    rw [bitsWhere_succ]
    rcases Nat.lt_succ_iff_lt_or_eq.mp hq with hq | rfl
    · cases p n with
      | false => exact ih hq
      | true =>
        rw [if_pos rfl, add_comm, Nat.testBit_two_pow_add_gt hq]
        exact ih hq
    · cases hp : p q with
      | false =>
        rw [if_neg Bool.false_ne_true]
        exact Nat.testBit_lt_two_pow hlt
      | true =>
        rw [if_pos rfl, add_comm, Nat.testBit_two_pow_add_eq, Nat.testBit_lt_two_pow hlt]
        rfl

theorem getLsbD_bitsWhere {n q : Nat} (p : Nat → Bool) (hq : q < n) : (BitVec.ofNat n (bitsWhere n p)).getLsbD q = p q := by
  rw [BitVec.getLsbD_ofNat, testBit_bitsWhere p hq, decide_eq_true hq, Bool.true_and]

/-- What is held of a core, of any kind. -/
theorem mem_joinRooms {α : Type} {core : Nat} {rooms : List (Nat × Room)} {kind : Room → List α} {y : α} :
    y ∈ (((rooms.filter fun x => x.1 == core).map (·.2)).map kind).flatten ↔ ∃ x ∈ rooms, x.1 = core ∧ y ∈ kind x.2 := by
  rw [List.mem_flatten]
  constructor
  · rintro ⟨l, hl, hy⟩
    obtain ⟨r, hr, rfl⟩ := List.mem_map.mp hl
    obtain ⟨x, hx, rfl⟩ := List.mem_map.mp hr
    obtain ⟨hmem, hcore⟩ := List.mem_filter.mp hx
    exact ⟨x, hmem, beq_iff_eq.mp hcore, hy⟩
  · rintro ⟨x, hx, hcore, hy⟩
    exact ⟨_, List.mem_map_of_mem (List.mem_map_of_mem (List.mem_filter.mpr ⟨hx, beq_iff_eq.mpr hcore⟩)), hy⟩

/-- What stands on a core is what a continuation has there. -/
theorem mem_standingOn {α : Type} {s : State} {core : Nat} (kind : Room → List α) {y : α}
    (hkind : ∀ rs, kind (joinRooms core rs) = (((rs.filter fun x => x.1 == core).map (·.2)).map kind).flatten) :
    y ∈ kind (standingOn s core) ↔ ∃ e ∈ s.dev.conts, ∃ x ∈ e.2.rooms, x.1 = core ∧ y ∈ kind x.2 := by
  rw [standingOn, hkind, mem_joinRooms]
  constructor
  · rintro ⟨x, hx, hcore, hy⟩
    obtain ⟨l, hl, hxl⟩ := List.mem_flatten.mp hx
    obtain ⟨e, he, rfl⟩ := List.mem_map.mp hl
    exact ⟨e, he, x, hxl, hcore, hy⟩
  · rintro ⟨e, he, x, hx, hcore, hy⟩
    exact ⟨x, List.mem_flatten.mpr ⟨_, List.mem_map_of_mem he, hx⟩, hcore, hy⟩

theorem reportOf_bits (s : State) (d : Nat) :
    let held := fun (p : Room → Prop) => ∃ e ∈ s.dev.conts, ∃ x ∈ e.2.rooms, x.1 = d ∧ p x.2
    let r := reportOf s d
    (∀ p < 4, r.positions.getLsbD p = true ↔ ¬ held fun x => p ∈ x.positions) ∧ (∀ t < 4, r.tiles.getLsbD t = true ↔ ¬ held fun x => t ∈ x.tiles) ∧
    (∀ b < 32, r.banks.getLsbD b = true ↔ ¬ held fun x => ∃ w ∈ x.windows, overlap (65536 * b) 65536 w.1 w.2 = true) ∧
    r.run = (s.core d).run ∧ r.fenced = (s.core d).fenced := by
  intro held r
  refine ⟨fun p hp => ?_, fun t ht => ?_, fun b hb => ?_, rfl, rfl⟩
  · rw [show r.positions.getLsbD p = _ from getLsbD_bitsWhere (fun j => !(standingOn s d).positions.contains j) hp, Bool.not_eq_true', Bool.eq_false_iff,
      ne_eq, List.contains_iff_mem, mem_standingOn Room.positions fun _ => rfl]
  · rw [show r.tiles.getLsbD t = _ from getLsbD_bitsWhere (fun j => !(standingOn s d).tiles.contains j) ht, Bool.not_eq_true', Bool.eq_false_iff,
      ne_eq, List.contains_iff_mem, mem_standingOn Room.tiles fun _ => rfl]
  · rw [show r.banks.getLsbD b = _ from getLsbD_bitsWhere (fun j => !(standingOn s d).windows.any fun w => overlap (65536 * j) 65536 w.1 w.2) hb,
      Bool.not_eq_true', Bool.eq_false_iff, ne_eq, List.any_eq_true]
    refine not_congr ⟨?_, ?_⟩
    · rintro ⟨w, hw, hover⟩
      obtain ⟨e, he, x, hx, hcore, hwx⟩ := (mem_standingOn Room.windows fun _ => rfl).mp hw
      exact ⟨e, he, x, hx, hcore, w, hwx, hover⟩
    · rintro ⟨e, he, x, hx, hcore, w, hwx, hover⟩
      exact ⟨w, (mem_standingOn Room.windows fun _ => rfl).mpr ⟨e, he, x, hx, hcore, hwx⟩, hover⟩

/-! ### Placed gangs that begin to issue, and the kennel (R227, R236) -/

/-- What asked for a halt goes on, with every context of the continuation halted (R231). -/
def haltEffect (i : Nat) (why : HaltFor) (s : State) : Out :=
  let clear := s.mapCont i fun c => { c with halt := none }
  match why with
  | .preempt _ => .next (enterQueued i clear)
  | .park ack => .next (writeState i (clear.mapCont i fun c =>
      { c with state := .parked, ineligible := true, ack := ack, result := 0, parks := c.parks + 1 }))
  | .kill ack =>
    if (s.cont i).state.isEnd then .next (pass ((freeCont i s).mapCont i fun c => { c with halt := none }))
    else .next (endAndFree i .killed 4 0 (clear.mapCont i fun c => { c with ack := ack.getD c.ack, result := 0 }))
  | .watchdog => .next (endAndFree i .killed 5 0 clear)
  | .rebase => .next s

section
variable {s : State} {i : Nat}

theorem exec_resourceReport_due {d : Nat} (hd : d < 256) (h : reportDue s d = true) : exec (.resourceReport d) s =
    .next (pass (s.mapDev fun x => { x with reports := Sparse.put x.reports d (reportOf s d) })) := if_pos ⟨hd, h⟩

theorem exec_resourceReport_same {d : Nat} (h : reportDue s d = false) : exec (.resourceReport d) s = .next s :=
  if_neg fun hd => Bool.false_ne_true (h.symm.trans hd.2)

theorem exec_gangIssueStart (hs : (s.cont i).state = .running) (hp : (s.cont i).placing = none) (hk : (s.cont i).kennel = []) :
    exec (.gangIssueStart i) s = .next { s with ctxs := s.ctxs.map fun e =>
      if e.2.cont = i ∧ (e.2.started = false ∨ e.2.halted = true ∧ (s.cont i).halt = none) then (e.1, { e.2.again e.1 with started := true }) else e } := by
  have hready : (s.cont i).state = .running ∧ (s.cont i).placing.isNone ∧ (s.cont i).kennel.isEmpty := ⟨hs, by rw [hp]; rfl, by rw [hk]; rfl⟩
  change execGangIssueStart i s = _
  rw [execGangIssueStart, if_pos hready]
  simp only [Bool.not_eq_true', Option.isNone_iff_eq_none]

/-- Where a restore can go on. -/
theorem kennelRestore_open (hs : (s.cont i).state = .running) (hp : (s.cont i).placing = none) (hk : (s.cont i).kennel ≠ [])
    (hpause : ∀ x ∈ (s.cont i).seats, (s.core x.core).pause = 0) (hacts : s.dev.acts = []) :
    ¬ ((s.cont i).state ≠ .running ∨ (s.cont i).placing.isSome ∨ (s.cont i).kennel.isEmpty ∨
      (s.cont i).seats.any (fun x => (s.core x.core).pause != 0) ∨ !s.dev.acts.isEmpty) := by
  have hseats : (s.cont i).seats.any (fun x => (s.core x.core).pause != 0) = false := List.any_eq_false.mpr fun x hx => by simp [hpause x hx]
  rw [hs, hp, hseats, hacts, List.isEmpty_eq_false_iff.mpr hk]
  decide

/-- A restore loads its lines, and checks what it has read. -/
theorem exec_kennelRestore (hs : (s.cont i).state = .running) (hp : (s.cont i).placing = none) (hk : (s.cont i).kennel ≠ [])
    (hpause : ∀ x ∈ (s.cont i).seats, (s.core x.core).pause = 0) (hacts : s.dev.acts = []) :
    let c := s.cont i
    let t := logTroubles (poisonedLines s (kennelLines c)) s
    let f : FaultInfo := { cls := .kennel, addr := 0, intent := none, slot := 0xFF, replay := 0, ctx := 0xFFFF, rank := 0xFFFF, pc := 0,
                           asid := c.launch.asid, level := 0xFF, entry := 0, repairable := false }
    exec (.kennelRestore i) s = if (hostKeeps s (kennelLines c)).isEmpty then
      if !kennelIntact s c then .next (recordUnrepairable i f t)
      else .next (writeLine i ((c.kennel.foldl (restorePart i) t).mapCont i fun c => { c with kennel := [], kennelSaves := [], kennelled := false }))
    else .next (askLines (hostKeeps s (kennelLines c)) s) :=
  if_neg (kennelRestore_open hs hp hk hpause hacts)

theorem kennelIntact_iff {c : Cont} : kennelIntact s c = true ↔ ∀ x ∈ c.kennelSaves, sha3 (latestBytes s.store x.first x.len) = x.digest := by
  rw [kennelIntact, List.all_eq_true]
  exact forall₂_congr fun _ _ => beq_iff_eq

theorem kennelRestore_ways (hs : (s.cont i).state = .running) (hp : (s.cont i).placing = none) (hk : (s.cont i).kennel ≠ [])
    (hpause : ∀ x ∈ (s.cont i).seats, (s.core x.core).pause = 0) (hacts : s.dev.acts = []) :
    let c := s.cont i
    let t := logTroubles (poisonedLines s (kennelLines c)) s
    (hostKeeps s (kennelLines c) ≠ [] → exec (.kennelRestore i) s = .next (askLines (hostKeeps s (kennelLines c)) s)) ∧
    (hostKeeps s (kennelLines c) = [] → (∀ x ∈ c.kennelSaves, sha3 (latestBytes s.store x.first x.len) = x.digest) →
      exec (.kennelRestore i) s = .next (writeLine i
        ((c.kennel.foldl (restorePart i) t).mapCont i fun c => { c with kennel := [], kennelSaves := [], kennelled := false }))) ∧
    (hostKeeps s (kennelLines c) = [] → (∃ x ∈ c.kennelSaves, sha3 (latestBytes s.store x.first x.len) ≠ x.digest) →
      ∃ f, exec (.kennelRestore i) s = .next (recordUnrepairable i f t) ∧ f.cls = FaultClass.kennel ∧ f.repairable = false) := by
  intro c t
  have hexec := exec_kennelRestore hs hp hk hpause hacts
  refine ⟨fun hkeep => ?_, fun hkeep hsame => ?_, fun hkeep hdiff => ?_⟩
  · exact hexec.trans (if_neg fun hempty => hkeep (List.isEmpty_iff.mp hempty))
  · have hintact : ¬ (!kennelIntact s c) = true := by rw [kennelIntact_iff.mpr hsame]; decide
    exact hexec.trans ((if_pos (List.isEmpty_iff.mpr hkeep)).trans (if_neg hintact))
  · have hchanged : (!kennelIntact s c) = true := by
      rw [Bool.not_eq_true', Bool.eq_false_iff, ne_eq, kennelIntact_iff]
      push Not
      exact hdiff
    exact ⟨_, hexec.trans ((if_pos (List.isEmpty_iff.mpr hkeep)).trans (if_pos hchanged)), rfl, rfl⟩

theorem exec_kennelRestore_writes (hacts : s.dev.acts ≠ []) : exec (.kennelRestore i) s = .next s := by
  refine if_pos (.inr (.inr (.inr (.inr ?_))))
  rw [List.isEmpty_eq_false_iff.mpr hacts]
  rfl

/-! ### Time in QUEUED and on the cores (R228 to R230) -/

theorem exec_priorityBoost (hs : (s.cont i).state = .queued) (hi : (s.cont i).ineligible = false) (hb : (s.cont i).boost < 2)
    (ha : (s.cont i).boostAge + 2600 * 250 ≤ s.refHalf) : exec (.priorityBoost i) s =
      .next (pass (s.mapCont i fun c => { c with boost := c.boost + 1, boostAge := c.boostAge + 2600 * 250 })) :=
  if_pos ⟨hs, by rw [hi]; rfl, hb, ha⟩

theorem exec_blockingTimeout (hs : (s.cont i).state = .queued) (hb : (s.cont i).blocking = false) (ha : (s.cont i).queuedAge + 2600 * 1000 ≤ s.refHalf) :
    exec (.blockingTimeout i) s = .next (pass (s.mapCont i fun c => { c with blocking := true })) :=
  if_pos ⟨hs, by rw [hb]; rfl, ha⟩

theorem exec_residencyFloorExpiry (hs : (s.cont i).state = .running) (ha : (s.cont i).residentAge + 2600 * 100 ≤ s.refHalf) :
    exec (.residencyFloorExpiry i) s = .next (pass s) := if_pos ⟨hs, ha⟩

/-! ### Halts (R231, R234, R244) -/

theorem exec_haltComplete {why : HaltFor} (hh : (s.cont i).halt = some why) : exec (.haltComplete i) s =
    if !canHalt s i || (why.frees && !unpaused s i) || (why.keeps && allDone s i) then .next s else haltEffect i why (haltAll i s) := by
  change execHaltComplete i s = _
  simp only [execHaltComplete, hh]
  rfl

/-- A halt whose contexts can all stop. -/
theorem haltComplete_ways (hc : canHalt s i = true) :
    let c := s.cont i
    let t := haltAll i s
    let clear := t.mapCont i fun c => { c with halt := none }
    (allDone s i = true → ((∃ j, c.halt = some (.preempt j)) ∨ ∃ seq, c.halt = some (.park seq)) → exec (.haltComplete i) s = .next s) ∧
    (∀ j, c.halt = some (.preempt j) → allDone s i = false → exec (.haltComplete i) s = .next (enterQueued i clear)) ∧
    (∀ seq, c.halt = some (.park seq) → allDone s i = false → exec (.haltComplete i) s = .next (writeState i (clear.mapCont i fun c =>
      { c with state := .parked, ineligible := true, ack := seq, result := 0, parks := c.parks + 1 }))) ∧
    (unpaused s i = false → ((∃ seq, c.halt = some (.kill seq)) ∨ c.halt = some .watchdog) → exec (.haltComplete i) s = .next s) ∧
    (∀ seq, c.halt = some (.kill seq) → unpaused s i = true → (t.cont i).state.isEnd = false → exec (.haltComplete i) s =
      .next (endAndFree i .killed 4 0 (clear.mapCont i fun c => { c with ack := seq.getD c.ack, result := 0 }))) ∧
    (∀ seq, c.halt = some (.kill seq) → unpaused s i = true → (t.cont i).state.isEnd = true → exec (.haltComplete i) s =
      .next (pass ((freeCont i t).mapCont i fun c => { c with halt := none }))) ∧
    (c.halt = some .watchdog → unpaused s i = true → exec (.haltComplete i) s = .next (endAndFree i .killed 5 0 clear)) ∧
    (c.halt = some .rebase → exec (.haltComplete i) s = .next t) := by
  intro c t clear
  have goes : ∀ {why : HaltFor}, (why.frees && !unpaused s i) = false → (why.keeps && allDone s i) = false →
      ¬ (!canHalt s i || (why.frees && !unpaused s i) || (why.keeps && allDone s i)) = true := by
    intro why hf hk
    rw [hc, hf, hk]
    decide
  refine ⟨?_, fun j hj hdone => ?_, fun seq hj hdone => ?_, ?_, fun seq hj hu hend => ?_, fun seq hj hu hend => ?_, fun hj hu => ?_, fun hj => ?_⟩
  · rintro hdone (⟨j, hj⟩ | ⟨seq, hj⟩)
    · exact (exec_haltComplete hj).trans (if_pos (by rw [hdone]; exact Bool.or_true _))
    · exact (exec_haltComplete hj).trans (if_pos (by rw [hdone]; exact Bool.or_true _))
  · exact (exec_haltComplete hj).trans (if_neg (goes rfl (by rw [hdone]; rfl)))
  · exact (exec_haltComplete hj).trans (if_neg (goes rfl (by rw [hdone]; rfl)))
  · rintro hu (⟨seq, hj⟩ | hj)
    · exact (exec_haltComplete hj).trans (if_pos (by rw [hu]; simp [HaltFor.frees]))
    · exact (exec_haltComplete hj).trans (if_pos (by rw [hu]; simp [HaltFor.frees]))
  · exact (exec_haltComplete hj).trans ((if_neg (goes (by rw [hu]; rfl) rfl)).trans (if_neg (by rw [hend]; exact Bool.false_ne_true)))
  · exact (exec_haltComplete hj).trans ((if_neg (goes (by rw [hu]; rfl) rfl)).trans (if_pos hend))
  · exact (exec_haltComplete hj).trans (if_neg (goes (by rw [hu]; rfl) rfl))
  · exact (exec_haltComplete hj).trans (if_neg (goes rfl rfl))

theorem exec_haltComplete_waits (h : canHalt s i = false ∨ (s.cont i).halt = none) : exec (.haltComplete i) s = .next s := by
  cases hh : (s.cont i).halt with
  | none =>
    change execHaltComplete i s = _
    rw [execHaltComplete, hh]
  | some why =>
    have hc : canHalt s i = false := h.resolve_right (by rw [hh]; nofun)
    exact (exec_haltComplete hh).trans (if_pos (by rw [hc]; rfl))

theorem allDone_iff : allDone s i = true ↔ (∃ e ∈ s.contexts i, e.ended ≠ none) ∧ (∀ e ∈ s.contexts i, e.ended ≠ none) ∧
    (s.cont i).faultPending = false := by
  rw [allDone, Bool.and_eq_true, Bool.and_eq_true, Bool.not_eq_true', Bool.not_eq_true', List.isEmpty_eq_false_iff, List.all_eq_true]
  simp only [Option.isSome_iff_ne_none]
  constructor
  · rintro ⟨⟨hsome, hall⟩, hfault⟩
    obtain ⟨e, he⟩ := List.exists_mem_of_ne_nil _ hsome
    exact ⟨⟨e, he, hall e he⟩, hall, hfault⟩
  · rintro ⟨⟨e, he, -⟩, hall, hfault⟩
    exact ⟨⟨List.ne_nil_of_mem he, hall⟩, hfault⟩

theorem canHalt_iff : canHalt s i = true ↔ (s.cont i).placing = none ∧ ((s.cont i).state = .running → (s.cont i).kennel = []) ∧
    ∀ e ∈ s.ctxs, e.2.cont = i → e.2.work.openHold = none := by
  rw [canHalt, Bool.and_eq_true, Bool.and_eq_true, List.all_eq_true, Option.isNone_iff_eq_none, Bool.or_eq_true, bne_iff_ne, List.isEmpty_iff,
    and_assoc, ← imp_iff_not_or]
  simp only [List.mem_filter, beq_iff_eq, Option.isNone_iff_eq_none, and_imp]

/-! ### The watchdog (R239) -/

theorem mapCont_mapCont (f g : Cont → Cont) : (s.mapCont i f).mapCont i g = s.mapCont i fun c => g (f c) := by
  have hconts : Sparse.adjust (Sparse.adjust s.dev.conts i f) i g = Sparse.adjust s.dev.conts i fun c => g (f c) := by
    cases hfind : Sparse.find s.dev.conts i with
    | none => simp [Sparse.adjust, hfind]
    | some c => simp [Sparse.adjust, hfind]
  rw [State.mapCont, State.mapCont, State.mapCont, State.mapDev, State.mapDev, State.mapDev]
  exact congrArg (fun x => { s with dev := { s.dev with conts := x } }) hconts

/-- A continuation that an operation looks at as it changes it. -/
theorem mapCont_congr {f g : Cont → Cont} (h : f (s.cont i) = g (s.cont i)) : s.mapCont i f = s.mapCont i g := by
  have hconts : Sparse.adjust s.dev.conts i f = Sparse.adjust s.dev.conts i g := by
    cases hfind : Sparse.find s.dev.conts i with
    | none => simp [Sparse.adjust, hfind]
    | some c =>
      have hc : s.cont i = c := by simp [State.cont, Sparse.get, hfind]
      rw [hc] at h
      simp [Sparse.adjust, hfind, h]
  rw [State.mapCont, State.mapCont, State.mapDev, State.mapDev]
  exact congrArg (fun x => { s with dev := { s.dev with conts := x } }) hconts

/-- Stage 1 takes the place of any halt but a KILL. -/
theorem exec_watchdogExpiry (hs : (s.cont i).state = .running ∨ (s.cont i).state = .queued ∨ (s.cont i).state = .parked)
    (hkill : ∀ seq, (s.cont i).halt ≠ some (.kill seq)) (hstage : (s.cont i).stage = 0)
    (hclock : 2600 * (if (s.cont i).launch.watchdog = 0 then 100000 else (s.cont i).launch.watchdog) ≤ (s.cont i).clock) :
    exec (.watchdogExpiry i) s = .next (s.mapCont i fun c => { c.abandonHalt with stage := 1, stageAge := s.refHalf, halt := some .watchdog }) := by
  have hlive : ((s.cont i).state == .running || (s.cont i).state == .queued || (s.cont i).state == .parked) = true := by
    rcases hs with h | h | h <;> rw [h] <;> rfl
  have hkilled : (!(match (s.cont i).halt with | some (.kill _) => true | _ => false)) = true := by
    split
    next seq hh => exact absurd hh (hkill seq)
    next => rfl
  refine (if_pos ⟨hlive, hkilled, hstage, hclock⟩).trans (congrArg _ ?_)
  exact mapCont_mapCont _ _

theorem watchdogExpiry_ways (hs : (s.cont i).state = .running ∨ (s.cont i).state = .queued ∨ (s.cont i).state = .parked)
    (hstage : (s.cont i).stage = 0)
    (hclock : 2600 * (if (s.cont i).launch.watchdog = 0 then 100000 else (s.cont i).launch.watchdog) ≤ (s.cont i).clock) :
    let c := s.cont i
    ((c.halt = none ∨ c.halt = some .rebase ∨ ∃ j, c.halt = some (.preempt j)) → exec (.watchdogExpiry i) s =
      .next (s.mapCont i fun c => { c with stage := 1, stageAge := s.refHalf, halt := some .watchdog })) ∧
    (∀ seq, c.halt = some (.park seq) → exec (.watchdogExpiry i) s = .next
      (s.mapCont i fun c => { c with stage := 1, stageAge := s.refHalf, halt := some .watchdog, ack := seq, result := 1 })) ∧
    (∀ seq, c.halt = some (.kill seq) → exec (.watchdogExpiry i) s = .next s) := by
  intro c
  refine ⟨fun hh => ?_, fun seq hh => ?_, fun seq hh => ?_⟩
  · have habandon : c.abandonHalt = { c with halt := none } := by
      rcases hh with hh | hh | ⟨j, hh⟩ <;> rw [Cont.abandonHalt, hh]
    have hkill : ∀ seq, c.halt ≠ some (.kill seq) := by
      rcases hh with hh | hh | ⟨j, hh⟩ <;> rw [hh] <;> nofun
    rw [exec_watchdogExpiry hs hkill hstage hclock]
    refine congrArg _ (mapCont_congr ?_)
    rw [habandon]
  · have habandon : c.abandonHalt = { c with ack := seq, result := 1, halt := none } := by rw [Cont.abandonHalt, hh]
    rw [exec_watchdogExpiry hs (by rw [hh]; nofun) hstage hclock]
    refine congrArg _ (mapCont_congr ?_)
    rw [habandon]
  · refine if_neg ?_
    rintro ⟨-, hkilled, -, -⟩
    rw [hh] at hkilled
    exact Bool.false_ne_true hkilled

theorem exec_watchdogStage2 (hstage : (s.cont i).stage = 1) (hh : (s.cont i).halt = some .watchdog) (ha : (s.cont i).stageAge + 2600 * 20 ≤ s.refHalf) :
    ∃ t, exec (.watchdogStage2 i) s = .next t ∧ t.store = s.store ∧ (∀ h, (t.ctx h).regs = (s.ctx h).regs) ∧
      (∀ h e, Sparse.find s.ctxs h = some e → t.ctx h = if e.cont = i ∧ stillRuns s i (h / 4) = true
        then { e with work := { Work.empty with nextStream := e.work.nextStream } } else e) ∧
      ∀ k x, Sparse.find s.cores k = some x → t.core k = if stillRuns s i k = true then { x with
        queue := x.queue.filter (fun o => !(s.ctxsOf i).contains o.ctx), channels := x.channels.filter (fun y => y.2.cont != i),
        counts := x.counts.filter (fun m => m.cont != i) } else x := by
  have hctxkey : ∀ e : Nat × Ctx, (if e.2.cont = i ∧ stillRuns s i (coreOf e.1) = true then
      (e.1, { e.2 with work := { Work.empty with nextStream := e.2.work.nextStream } }) else e).1 = e.1 := by
    intro e
    split <;> rfl
  have hcorekey : ∀ e : Nat × Core, (if stillRuns s i e.1 = true then (e.1, e.2.reset i (s.ctxsOf i)) else e).1 = e.1 := by
    intro e
    split <;> rfl
  refine ⟨_, if_pos ⟨hstage, hh, ha⟩, rfl, fun h => ?_, fun h e he => ?_, fun k x hx => ?_⟩
  · refine State.ctx_map_rel (fun c d => d.regs = c.regs) (fun _ => rfl) rfl hctxkey (fun e => ?_) h
    split <;> rfl
  · refine (State.ctx_of_map rfl hctxkey he).trans ?_
    rw [apply_ite Prod.snd]
    rfl
  · refine (State.core_of_map rfl hcorekey hx).trans ?_
    rw [apply_ite Prod.snd]
    rfl

theorem exec_watchdogStage3 {d : Nat} (hstage : (s.cont i).stage = 2) (hh : (s.cont i).halt = some .watchdog)
    (ha : (s.cont i).stageAge + 2600 * 100 ≤ s.refHalf) (hseat : ∃ x ∈ (s.cont i).seats, x.core = d) (hu : unpaused s i = true) :
    let t := (((s.cont i).seats.map Seat.core).filter fun x => x == d || stillRuns s i x).foldl (fun s x => s.mapCore x fun y => { y with fenced := true }) s
    exec (.watchdogStage3 i d) s = .next (endAndFree i .killed 5 0
      ((distWrite (t.dev.dcb + 0xD0) (leBytes 32 (fencedMask t)) t).output (.management 0x80))) := by
  have hany : (s.cont i).seats.any (fun x => x.core == d) = true := by
    obtain ⟨x, hx, hd⟩ := hseat
    exact List.any_eq_true.mpr ⟨x, hx, beq_iff_eq.mpr hd⟩
  exact if_pos ⟨hstage, hh, ha, hany, hu⟩

theorem exec_ptsTick : ∃ t, exec .ptsTick s = .next t ∧ t.store = s.store ∧ ∀ h e, Sparse.find s.ctxs h = some e →
    (t.ctx h).pts = if 32 ≤ e.ptsTicks then e.pts + 1 else e.pts := by
  refine ⟨_, rfl, rfl, fun h e he => ?_⟩
  rw [State.ctx_of_map (F := fun e => (e.1, e.2.ptsTick)) rfl (fun _ => rfl) he]
  dsimp only [Ctx.ptsTick]
  split <;> rfl

end

end Sys2Proof.Machine

/-! SUPPORT. The statement on the distributor, continued: the rebase of timestamps, and the pass. -/

namespace Sys2Proof.Machine

/-! ### The rebase (R147) -/

theorem Sparse.mem_of_find {α : Type} {m : Sparse α} {k : Nat} {x : α} (h : m.find k = some x) : (k, x) ∈ m := by
  induction m with
  | nil => cases h
  | cons e r ih =>
    obtain ⟨j, y⟩ := e
    simp only [Sparse.find] at h
    split at h
    next hj =>
      cases h
      subst hj
      exact List.mem_cons_self
    next =>
      split at h
      · cases h
      · exact List.mem_cons_of_mem _ (ih h)

section
variable {s : State}

/-- The continuations that run. -/
def runningConts (s : State) : List Nat := (s.dev.conts.filter fun e => e.2.state == .running).map (·.1)

theorem mem_runningConts {j : Nat} : j ∈ runningConts s ↔ ∃ k, (j, k) ∈ s.dev.conts ∧ k.state = .running := by
  rw [runningConts, List.mem_map]
  constructor
  · rintro ⟨e, he, rfl⟩
    obtain ⟨hmem, hrun⟩ := List.mem_filter.mp he
    exact ⟨e.2, hmem, beq_iff_eq.mp hrun⟩
  · rintro ⟨k, hk, hrun⟩
    exact ⟨(j, k), List.mem_filter.mpr ⟨hk, beq_iff_eq.mpr hrun⟩, rfl⟩

theorem mem_runningConts_of_find (hr : Sparse.risingFrom none s.dev.conts = true) {j : Nat} {k : Cont} (hk : Sparse.find s.dev.conts j = some k) :
    j ∈ runningConts s ↔ k.state = .running := by
  rw [mem_runningConts]
  constructor
  · rintro ⟨k', hk', hrun⟩
    have hsame := (Sparse.find_of_mem hr hk').symm.trans hk
    cases hsame
    exact hrun
  · exact fun hrun => ⟨k, Sparse.mem_of_find hk, hrun⟩

theorem State.cont_of_find {j : Nat} {k : Cont} (hk : Sparse.find s.dev.conts j = some k) : s.cont j = k := by
  simp [State.cont, Sparse.get, hk]

/-- What a change of one continuation leaves of the table. -/
theorem find_conts_mapCont {j : Nat} {k : Cont} (hk : Sparse.find s.dev.conts j = some k) (i : Nat) (f : Cont → Cont) :
    Sparse.find (s.mapCont i f).dev.conts j = some (if j = i then f k else k) := by
  change Sparse.find (Sparse.adjust s.dev.conts i f) j = _
  by_cases hj : j = i
  · subst hj
    rw [Sparse.find_adjust_same, hk, if_pos rfl]
    rfl
  · rw [Sparse.find_adjust_other _ _ _ _ hj, hk, if_neg hj]

/-- A halt for the rebase, asked of a continuation that has none. -/
def askRebase (s : State) (i : Nat) : State := if (s.cont i).halt.isNone then requestHalt i .rebase s else s

theorem askRebase_frame (s : State) (i : Nat) :
    (askRebase s i).store = s.store ∧ (askRebase s i).ctxs = s.ctxs ∧ (askRebase s i).dev.rebase = s.dev.rebase := by
  rw [askRebase]
  split <;> exact ⟨rfl, rfl, rfl⟩

theorem find_conts_askRebase {j : Nat} {k : Cont} (hk : Sparse.find s.dev.conts j = some k) (i : Nat) :
    Sparse.find (askRebase s i).dev.conts j = some (if j = i ∧ k.halt = none then { k with halt := some .rebase } else k) := by
  rw [askRebase]
  by_cases hnone : (s.cont i).halt.isNone = true
  · rw [if_pos hnone, show requestHalt i .rebase s = s.mapCont i fun c => { c with halt := some .rebase } from rfl, find_conts_mapCont hk]
    refine congrArg some ?_
    by_cases hj : j = i
    · subst hj
      rw [State.cont_of_find hk, Option.isNone_iff_eq_none] at hnone
      rw [if_pos rfl, if_pos ⟨rfl, hnone⟩]
    · rw [if_neg hj, if_neg fun h => hj h.1]
  · rw [if_neg hnone, hk, if_neg]
    rintro ⟨rfl, hnone'⟩
    rw [State.cont_of_find hk] at hnone
    exact hnone (Option.isNone_iff_eq_none.mpr hnone')

theorem foldl_askRebase_frame (is : List Nat) (s : State) :
    let t := is.foldl askRebase s
    t.store = s.store ∧ t.ctxs = s.ctxs ∧ t.dev.rebase = s.dev.rebase :=
  foldl_keeps (fun t : State => t.store = s.store ∧ t.ctxs = s.ctxs ∧ t.dev.rebase = s.dev.rebase) askRebase is s ⟨rfl, rfl, rfl⟩
    fun t i ⟨hs, hc, hd⟩ => by
      obtain ⟨hs', hc', hd'⟩ := askRebase_frame t i
      exact ⟨hs'.trans hs, hc'.trans hc, hd'.trans hd⟩

theorem find_conts_foldl_askRebase (is : List Nat) {s : State} {j : Nat} {k : Cont} (hk : Sparse.find s.dev.conts j = some k) :
    Sparse.find (is.foldl askRebase s).dev.conts j = some (if j ∈ is ∧ k.halt = none then { k with halt := some .rebase } else k) := by
  induction is generalizing s k with
  | nil => rw [if_neg fun h => List.not_mem_nil h.1]; exact hk
  | cons i is ih =>
    rw [List.foldl_cons, ih (find_conts_askRebase hk i)]
    refine congrArg some ?_
    by_cases hhalt : k.halt = none
    · by_cases hj : j = i
      · rw [if_pos (⟨hj, hhalt⟩ : j = i ∧ k.halt = none), if_neg (by rintro ⟨-, h⟩; cases h), if_pos ⟨hj ▸ List.mem_cons_self, hhalt⟩]
      · rw [if_neg fun h : j = i ∧ k.halt = none => hj h.1]
        exact if_congr (and_congr_left' ⟨List.mem_cons_of_mem _, fun h => (List.mem_cons.mp h).resolve_left hj⟩) rfl rfl
    · rw [if_neg fun h : j = i ∧ k.halt = none => hhalt h.2, if_neg fun h => hhalt h.2, if_neg fun h => hhalt h.2]

/-- A rebase begins: every continuation that runs is asked to halt. -/
theorem exec_timestampRebase_begins (hrebase : s.dev.rebase = false) (htop : 2 ^ 47 < topTimestamp s) (hr : Sparse.risingFrom none s.dev.conts = true) :
    ∃ t, exec .timestampRebase s = .next t ∧ t.dev.rebase = true ∧ t.store = s.store ∧ t.ctxs = s.ctxs ∧
      ∀ j k, Sparse.find s.dev.conts j = some k → t.cont j = if k.state = .running ∧ k.halt = none then { k with halt := some .rebase } else k := by
  let u := s.mapDev fun d => { d with rebase := true }
  have hexec : exec .timestampRebase s = .next ((runningConts s).foldl askRebase u) :=
    (if_neg (by rw [hrebase]; exact Bool.false_ne_true)).trans (if_pos htop)
  obtain ⟨hstore, hctxs, hdev⟩ := foldl_askRebase_frame (runningConts s) u
  refine ⟨_, hexec, hdev, hstore, hctxs, fun j k hk => ?_⟩
  rw [State.cont_of_find (find_conts_foldl_askRebase (runningConts s) (s := u) hk)]
  exact if_congr (and_congr_left' (mem_runningConts_of_find hr hk)) rfl rfl

/-- The halts of a rebase are over. -/
def endHalt (s : State) (i : Nat) : State := s.mapCont i fun c => { c with halt := none }

theorem foldl_endHalt_frame (is : List Nat) (s : State) :
    let t := is.foldl endHalt s
    t.store = s.store ∧ t.ctxs = s.ctxs ∧ t.dev.largest = s.dev.largest :=
  foldl_keeps (fun t : State => t.store = s.store ∧ t.ctxs = s.ctxs ∧ t.dev.largest = s.dev.largest) endHalt is s ⟨rfl, rfl, rfl⟩
    fun _ _ ht => ht

theorem find_conts_foldl_endHalt (is : List Nat) {s : State} {j : Nat} {k : Cont} (hk : Sparse.find s.dev.conts j = some k) :
    ∃ k', Sparse.find (is.foldl endHalt s).dev.conts j = some k' ∧ k'.kennel = k.kennel := by
  induction is generalizing s k with
  | nil => exact ⟨k, hk, rfl⟩
  | cons i is ih =>
    obtain ⟨k', hk', hkennel⟩ := ih (find_conts_mapCont hk i fun c => { c with halt := none })
    refine ⟨k', hk', hkennel.trans ?_⟩
    split <;> rfl

/-- The state of which the pass runs once a rebase has shifted every timestamp. -/
def rebased (s : State) : State :=
  let t := (runningConts s).foldl endHalt (shiftTimes (rebaseAmount s) s)
  { t.mapDev (fun d => { d with rebase := false }) with
    ctxs := t.ctxs.map fun e => if (runningConts s).contains e.2.cont then (e.1, e.2.again e.1) else e }

theorem exec_timestampRebase_shifts (hrebase : s.dev.rebase = true)
    (hhalted : ∀ e ∈ s.dev.conts, e.2.state = .running → (s.cont e.1).halt = some .rebase ∧ canHalt s e.1 = true ∧
      ∀ x ∈ s.ctxs, x.2.cont = e.1 → x.2.halted = true) : exec .timestampRebase s = .next (pass (rebased s)) := by
  have hall : ((runningConts s).all fun i => (s.cont i).halt == some .rebase && canHalt s i && (s.ctxs.all fun e => e.2.cont != i || e.2.halted)) = true := by
    refine List.all_eq_true.mpr fun j hj => ?_
    obtain ⟨k, hk, hrun⟩ := mem_runningConts.mp hj
    obtain ⟨hhalt, hcan, hctxs⟩ := hhalted (j, k) hk hrun
    have hx : (s.ctxs.all fun e => e.2.cont != j || e.2.halted) = true := by
      refine List.all_eq_true.mpr fun x hx => ?_
      by_cases hc : x.2.cont = j
      · rw [hctxs x hx hc, Bool.or_true]
      · rw [bne_iff_ne.mpr hc, Bool.true_or]
    rw [hhalt, hcan, hx]
    rfl
  exact (if_pos hrebase).trans (if_pos hall)

theorem shiftReleased_window {n : Nat} {f : Ctx → Ctx} {ps : List KennelPart} {a b : Nat} {words : Sparse W32} {full : Sparse Bool} {marks : List Nat}
    {xs : Sparse (Nat × Nat)} (h : KennelPart.window a b words full marks xs ∈ ps) :
    KennelPart.window a b words full marks (shiftReleased n xs) ∈ shiftKennel n f ps := List.mem_map.mpr ⟨_, h, rfl⟩

/-- A context with its timestamps less an amount. -/
def lowerCtx (n : Nat) (c : Ctx) : Ctx :=
  { c with pts := c.pts - n, work := { c.work with prefs := c.work.prefs.map fun p => { p with pts := p.pts - n } } }

theorem ctxs_shiftTimes (n : Nat) (s : State) : (shiftTimes n s).ctxs = s.ctxs.map fun e => (e.1, lowerCtx n e.2) := rfl

theorem rebased_spec (s : State) : let n := leastPts s - 1
    let lower := fun (xs : Sparse (Nat × Nat)) => (xs.map fun e => (e.1, (e.2.1 - n, e.2.2 - n))).filter fun e => e.2 != (0, 0)
    let u := rebased s
    u.dev.rebase = false ∧ u.dev.largest = s.dev.largest - n ∧ u.store.mem = s.store.mem ∧
    (∀ h e, Sparse.find s.ctxs h = some e → (u.ctx h).pts = e.pts - n) ∧ u.store.released = lower s.store.released ∧
    (∀ j k a b words full marks xs, Sparse.find s.dev.conts j = some k → KennelPart.window a b words full marks xs ∈ k.kennel →
      ∃ k', Sparse.find u.dev.conts j = some k' ∧ KennelPart.window a b words full marks (lower xs) ∈ k'.kennel) ∧
    ∀ x y, Sparse.find s.store.copies x = some y → Sparse.find u.store.copies x = some { y with wts := y.wts - n, rts := y.rts - n } := by
  intro n lower u
  let v := shiftTimes (rebaseAmount s) s
  obtain ⟨hstore, hctxs, hlargest⟩ := foldl_endHalt_frame (runningConts s) v
  have hmem : u.store.mem = v.store.mem := congrArg Store.mem hstore
  have hreleased : u.store.released = v.store.released := congrArg Store.released hstore
  refine ⟨rfl, hlargest, hmem, fun h e he => ?_, hreleased, fun j k a b words full marks xs hk hx => ?_, fun x y hy => ?_⟩
  · have hv : Sparse.find v.ctxs h = some (lowerCtx n e) := by
      rw [show v.ctxs = _ from ctxs_shiftTimes n s, Sparse.find_map, he]
      rfl
    have hkey : ∀ e : Nat × Ctx, (if (runningConts s).contains e.2.cont then (e.1, e.2.again e.1) else e).1 = e.1 := by
      intro e
      split <;> rfl
    have hu : u.ctx h = (if (runningConts s).contains (lowerCtx n e).cont then (h, (lowerCtx n e).again h) else (h, lowerCtx n e)).2 :=
      State.ctx_of_map (s := v) (congrArg _ hctxs) hkey hv
    rw [hu]
    split <;> rfl
  · have hv : Sparse.find v.dev.conts j = some { k with
        kennel := shiftKennel n (lowerCtx n) k.kennel
        endTop := k.endTop - n } := by
      change Sparse.find (s.dev.conts.map _) j = _
      rw [Sparse.find_map, hk]
      rfl
    obtain ⟨k', hk', hkennel⟩ := find_conts_foldl_endHalt (runningConts s) hv
    refine ⟨k', hk', hkennel ▸ ?_⟩
    exact shiftReleased_window hx
  · rw [show u.store.copies = v.store.copies from congrArg Store.copies hstore]
    change Sparse.find (s.store.copies.map _) x = _
    rw [Sparse.find_map, hy]
    rfl

theorem foldl_min_le {α : Type} (f : α → Nat) (l : List α) (m : Nat) :
    l.foldl (fun m e => min m (f e)) m ≤ m ∧ ∀ e ∈ l, l.foldl (fun m e => min m (f e)) m ≤ f e := by
  induction l generalizing m with
  | nil => exact ⟨le_rfl, fun _ h => absurd h List.not_mem_nil⟩
  | cons x l ih =>
    obtain ⟨hm, hl⟩ := ih (min m (f x))
    refine ⟨hm.trans (min_le_left ..), fun e he => ?_⟩
    rcases List.mem_cons.mp he with rfl | he
    · exact hm.trans (min_le_right ..)
    · exact hl e he

theorem leastPts_le (s : State) : (∀ e ∈ s.ctxs, leastPts s ≤ e.2.pts) ∧ leastPts s ≤ s.dev.largest := by
  have hpart : ∀ (m : Nat) (p : KennelPart), (match p with | .ctx _ c => min m c.pts | _ => m) ≤ m := by
    rintro m (_ | _ | _)
    · exact min_le_left ..
    · exact le_rfl
    · exact le_rfl
  have hkennel : ∀ (m : Nat) (ps : List KennelPart), ps.foldl (fun m p => match p with | .ctx _ c => min m c.pts | _ => m) m ≤ m := fun m ps =>
    foldl_keeps (fun x => x ≤ m) _ ps m le_rfl fun x p hx => (hpart x p).trans hx
  have hconts : ∀ m, leastPts s ≤ m ∨ ¬ s.ctxs.foldl (fun m e => min m e.2.pts) s.dev.largest ≤ m := by
    intro m
    by_cases hm : s.ctxs.foldl (fun m e => min m e.2.pts) s.dev.largest ≤ m
    · exact .inl (foldl_keeps (fun x => x ≤ m) _ s.dev.conts _ hm fun x e hx => (hkennel x e.2.kennel).trans hx)
    · exact .inr hm
  obtain ⟨hlargest, hctxs⟩ := foldl_min_le (fun e => e.2.pts) s.ctxs s.dev.largest
  exact ⟨fun e he => (hconts _).resolve_right (not_not.mpr (hctxs e he)), (hconts _).resolve_right (not_not.mpr hlargest)⟩

end

end Sys2Proof.Machine

/-! SUPPORT. The statement on the distributor, continued: the orders of the pass and of the victims, and the seats of a gang. -/

namespace Sys2Proof.Machine

/-! ### Lists sorted by insertion -/

section
variable {α : Type} {ins : α → List α → List α} {before : α → α → Bool} (hnil : ∀ x, ins x [] = [x])
  (hcons : ∀ x y ys, ins x (y :: ys) = if before x y then x :: y :: ys else y :: ins x ys)
include hnil hcons

theorem perm_inserted (x : α) (l : List α) : (ins x l).Perm (x :: l) := by
  induction l with
  | nil => rw [hnil]
  | cons y ys ih =>
    rw [hcons]
    split
    · exact .refl _
    · exact (ih.cons y).trans (.swap x y ys)

theorem perm_sorted (l : List α) : (l.foldr ins []).Perm l := by
  induction l with
  | nil => exact .refl _
  | cons x l ih => exact (perm_inserted hnil hcons x _).trans (ih.cons x)

variable {R : α → α → Prop} (hbefore : ∀ x y, before x y = true → R x y) (hafter : ∀ x y, before x y = false → R y x)
  (htrans : ∀ x y z, R x y → R y z → R x z)
include hbefore hafter htrans

theorem pairwise_inserted (x : α) {l : List α} (hl : l.Pairwise R) : (ins x l).Pairwise R := by
  induction l with
  | nil =>
    rw [hnil]
    exact List.pairwise_singleton R x
  | cons y ys ih =>
    obtain ⟨hy, hys⟩ := List.pairwise_cons.mp hl
    rw [hcons]
    cases hb : before x y with
    | true =>
      have hxy := hbefore x y hb
      refine List.pairwise_cons.mpr ⟨fun z hz => ?_, hl⟩
      rcases List.mem_cons.mp hz with rfl | hz
      · exact hxy
      · exact htrans x y z hxy (hy z hz)
    | false =>
      refine List.pairwise_cons.mpr ⟨fun z hz => ?_, ih hys⟩
      rcases List.mem_cons.mp ((perm_inserted hnil hcons x ys).mem_iff.mp hz) with rfl | hz
      · exact hafter z y hb
      · exact hy z hz

theorem pairwise_sorted (l : List α) : (l.foldr ins []).Pairwise R := by
  induction l with
  | nil => exact List.Pairwise.nil
  | cons x l ih => exact pairwise_inserted hnil hcons hbefore hafter htrans x ih

end

/-! ### The order of the pass (R228, R229) -/

section
variable {s : State} {i : Nat}

theorem mem_waitingOrder {j : Nat} : j ∈ waitingOrder s ↔ ∃ c, (j, c) ∈ s.dev.conts ∧ c.state = .queued ∧ c.ineligible = false ∧ c.halt = none := by
  have hwaits : ∀ c : Cont, c.waiting = true ↔ c.state = .queued ∧ c.ineligible = false ∧ c.halt = none := by
    intro c
    rw [Cont.waiting, Bool.and_eq_true, Bool.and_eq_true, beq_iff_eq, Bool.not_eq_true', Option.isNone_iff_eq_none, and_assoc]
  have hperm := perm_sorted (ins := insertWaiting) (fun _ => rfl) (fun _ _ _ => rfl) (s.dev.conts.filter fun e => e.2.waiting)
  rw [waitingOrder, List.mem_map]
  constructor
  · rintro ⟨e, he, rfl⟩
    obtain ⟨hmem, hwait⟩ := List.mem_filter.mp (hperm.mem_iff.mp he)
    exact ⟨e.2, hmem, (hwaits e.2).mp hwait⟩
  · rintro ⟨c, hc, hwait⟩
    exact ⟨(j, c), hperm.mem_iff.mpr (List.mem_filter.mpr ⟨hc, (hwaits c).mpr hwait⟩), rfl⟩

/-- One waiting continuation stands no later in the pass than another. -/
def NoLater (x y : Cont) : Prop := y.effective < x.effective ∨ y.effective = x.effective ∧ x.queuedAge ≤ y.queuedAge

theorem standsBefore_noLater (x y : Cont) :
    (standsBefore x y = true → NoLater x y) ∧ (standsBefore x y = false → NoLater y x) := by
  have hiff : standsBefore x y = true ↔ y.effective < x.effective ∨ x.effective = y.effective ∧ x.queuedAge < y.queuedAge := by
    rw [standsBefore, Bool.or_eq_true, Bool.and_eq_true, decide_eq_true_eq, beq_iff_eq, decide_eq_true_eq]
  refine ⟨fun h => ?_, fun h => ?_⟩
  · rw [hiff] at h
    unfold NoLater
    omega
  · rw [Bool.eq_false_iff, ne_eq, hiff] at h
    unfold NoLater
    omega

theorem effective_queued {c : Cont} (h : c.state = .queued) : c.effective = c.launch.priority + min 2 c.boost :=
  if_neg (by rw [h]; decide)

theorem waitingOrder_sorted (hr : Sparse.risingFrom none s.dev.conts = true) : (waitingOrder s).Pairwise fun a b => let x := s.cont a; let y := s.cont b
    ¬ x.launch.priority + min 2 x.boost < y.launch.priority + min 2 y.boost ∧
      (x.launch.priority + min 2 x.boost = y.launch.priority + min 2 y.boost → x.queuedAge ≤ y.queuedAge) := by
  have hperm := perm_sorted (ins := insertWaiting) (fun _ => rfl) (fun _ _ _ => rfl) (s.dev.conts.filter fun e => e.2.waiting)
  have hsorted : ((s.dev.conts.filter fun e => e.2.waiting).foldr insertWaiting []).Pairwise fun a b => NoLater a.2 b.2 :=
    pairwise_sorted (ins := insertWaiting) (fun _ => rfl) (fun _ _ _ => rfl) (fun x y => (standsBefore_noLater x.2 y.2).1)
      (fun x y => (standsBefore_noLater x.2 y.2).2) (fun x y z hxy hyz => by unfold NoLater at *; omega) _
  have hread : ∀ e ∈ (s.dev.conts.filter fun e => e.2.waiting).foldr insertWaiting [], s.cont e.1 = e.2 ∧ e.2.state = .queued := by
    intro e he
    obtain ⟨hmem, hwait⟩ := List.mem_filter.mp (hperm.mem_iff.mp he)
    rw [Cont.waiting, Bool.and_eq_true, Bool.and_eq_true, beq_iff_eq] at hwait
    exact ⟨State.cont_of_find (Sparse.find_of_mem hr hmem), hwait.1.1⟩
  refine List.pairwise_map.mpr (hsorted.imp_of_mem fun {a b} ha hb hab => ?_)
  obtain ⟨hac, hqa⟩ := hread a ha
  obtain ⟨hbc, hqb⟩ := hread b hb
  unfold NoLater at hab
  rw [effective_queued hqa, effective_queued hqb] at hab
  rw [hac, hbc]
  omega

/-! ### The pass (R164, R228, R230) -/

/-- The flag of a pass that waits for the host. -/
theorem mapDev_passDue (s : State) (b : Bool) :
    (if s.dev.passDue = b then s else s.mapDev fun d => { d with passDue := b }) = s.mapDev fun d => { d with passDue := b } := by
  split
  next hp => exact congrArg (fun b => { s with dev := { s.dev with passDue := b } }) hp
  next => rfl

/-- The pass of a state, by whether it must wait for the host. -/
theorem pass_eq (s : State) : pass s =
    let due := !(waitingOrder s).isEmpty && !(kennelKept s).isEmpty
    let u := s.mapDev fun d => { d with passDue := due }
    if (waitingOrder s).isEmpty then u
    else if due then askLines (kennelKept s) u else passOver (waitingOrder s) (readLines (kennelReads s) u) := by
  simp only [pass, mapDev_passDue]
  rfl

theorem pass_nobody (h : waitingOrder s = []) : pass s = s.mapDev fun d => { d with passDue := false } := by
  rw [pass_eq, h]
  rfl

theorem pass_goes (h : waitingOrder s ≠ []) (hk : kennelKept s = []) :
    pass s = passOver (waitingOrder s) (readLines (kennelReads s) (s.mapDev fun d => { d with passDue := false })) := by
  rw [pass_eq, hk, List.isEmpty_eq_false_iff.mpr h]
  rfl

theorem pass_asks (h : waitingOrder s ≠ []) (hk : kennelKept s ≠ []) :
    pass s = askLines (kennelKept s) (s.mapDev fun d => { d with passDue := true }) := by
  rw [pass_eq, List.isEmpty_eq_false_iff.mpr hk, List.isEmpty_eq_false_iff.mpr h]
  rfl

theorem mem_kennelKept {l : Nat} : l ∈ kennelKept s ↔ hostBlocks s.store l false = true ∧ ∃ e ∈ s.dev.conts,
    (e.2.state = .running ∨ e.2.state = .queued ∨ e.2.state = .parked) ∧ l = (e.2.block + 0x400) / 64 := by
  have hroom : ∀ c : Cont, (c.state == .running || c.state == .queued || c.state == .parked) = true ↔
      c.state = .running ∨ c.state = .queued ∨ c.state = .parked := by
    intro c
    rw [Bool.or_eq_true, Bool.or_eq_true, beq_iff_eq, beq_iff_eq, beq_iff_eq, or_assoc]
  rw [kennelKept, hostKeeps, List.mem_filter, and_comm]
  refine and_congr_right fun _ => ?_
  rw [kennelReads, List.mem_map]
  constructor
  · rintro ⟨e, he, rfl⟩
    obtain ⟨hmem, hstate⟩ := List.mem_filter.mp he
    exact ⟨e, hmem, (hroom e.2).mp hstate, rfl⟩
  · rintro ⟨e, he, hstate, rfl⟩
    exact ⟨e, List.mem_filter.mpr ⟨he, (hroom e.2).mpr hstate⟩, rfl⟩

theorem passOver_placed {is : List Nat} {t : State} (h : tryPlace i [] s = some t) : passOver (i :: is) s = passOver is t := by
  rw [passOver, h]

theorem passOver_taking {is : List Nat} {t : State} (h : tryPlace i [] s = none) (ht : tryPlace i (takeable s i) s = some t) :
    passOver (i :: is) s = passOver is t := by
  rw [passOver, h, ht]

theorem passOver_preempting {is : List Nat} {t : State} (h : tryPlace i [] s = none) (ht : tryPlace i (takeable s i) s = none)
    (hp : preempt i s = some t) : passOver (i :: is) s = t := by
  rw [passOver, h, ht, hp]

theorem passOver_nothing {is : List Nat} (h : tryPlace i [] s = none) (ht : tryPlace i (takeable s i) s = none) (hp : preempt i s = none) :
    passOver (i :: is) s = if (s.cont i).blocking = true then s else passOver is s := by
  rw [passOver, h, ht, hp]

/-! ### Placement (R227, R236, R377) -/

variable {except : List Nat}

theorem tryPlace_first (h : (s.cont i).seats = []) :
    tryPlace i except s = (fitGang s i (s.cont i).launch except).map fun x => settleSeats i x true s :=
  if_pos (List.isEmpty_iff.mpr h)

theorem tryPlace_returns (h : canReturn s i except = true) : tryPlace i except s = some (settleSeats i (s.cont i).seats false s) := by
  have hseats : ¬ (s.cont i).seats.isEmpty = true := by
    intro hempty
    rw [canReturn, hempty] at h
    exact Bool.false_ne_true h
  exact (if_neg hseats).trans (if_pos h)

theorem tryPlace_elsewhere (h : (s.cont i).seats ≠ []) (hr : canReturn s i except = false) :
    tryPlace i except s = (fitGang s i (s.cont i).launch except).map fun x => settleSeats i x false s :=
  (if_neg fun hempty => h (List.isEmpty_iff.mp hempty)).trans (if_neg (by rw [hr]; exact Bool.false_ne_true))

/-- What is reserved for another stands against a placement, whoever the other is. -/
theorem reserved_heldOn {α : Type} (kind : Room → List α)
    (hkind : ∀ core rs, kind (joinRooms core rs) = (((rs.filter fun x => x.1 == core).map (·.2)).map kind).flatten)
    {j : Nat} {k : Cont} (hk : (j, k) ∈ s.dev.conts) (hj : j ≠ i) {x : Nat × Nat × Room} (hx : x ∈ k.reserved) {y : α} (hy : y ∈ kind x.2.2) :
    y ∈ kind (heldOn s i except x.2.1) := by
  rw [heldOn, hkind, mem_joinRooms]
  refine ⟨x.2, List.mem_flatten.mpr ⟨_, List.mem_map_of_mem hk, ?_⟩, rfl, hy⟩
  rw [if_neg (fun h : (j == i) = true => hj (beq_iff_eq.mp h))]
  exact List.mem_append_right _ (List.mem_map_of_mem hx)

theorem reserved_stands {j : Nat} {k : Cont} (hk : (j, k) ∈ s.dev.conts) (hj : j ≠ i) {x : Nat × Nat × Room} (hx : x ∈ k.reserved) :
    let r := heldOn s i except x.2.1
    (∀ p ∈ x.2.2.positions, p ∈ r.positions) ∧ (∀ w ∈ x.2.2.windows, w ∈ r.windows) ∧ ∀ y ∈ x.2.2.tiles, y ∈ r.tiles :=
  ⟨fun _ => reserved_heldOn Room.positions (fun _ _ => rfl) hk hj hx, fun _ => reserved_heldOn Room.windows (fun _ _ => rfl) hk hj hx,
    fun _ => reserved_heldOn Room.tiles (fun _ _ => rfl) hk hj hx⟩

theorem settleSeats_spec (seats : List Seat) (fresh : Bool) (h : (Sparse.find s.dev.conts i).isSome = true) : let t := settleSeats i seats fresh s
    (t.cont i).state = .running ∧ (t.cont i).seats = seats ∧ (t.cont i).placing = some fresh ∧ (t.cont i).residentAge = s.refHalf ∧
      (t.cont i).boost = 0 ∧ (t.cont i).reserved = [] ∧ t.cores = s.cores ∧ t.ctxs = s.ctxs ∧ t.store = s.store := by
  intro t
  have ht : t.cont i = _ := State.cont_mapCont_self s i _ h
  rw [ht]
  exact ⟨rfl, rfl, rfl, rfl, rfl, rfl, rfl, rfl, rfl⟩

end

end Sys2Proof.Machine

/-! SUPPORT. The statement on the distributor, continued: the seats that a gang is given. -/

namespace Sys2Proof.Machine

/-! ### The lowest of a rising list -/

/-- What stands before an entry taken from a rising list is taken too. -/
theorem mem_take_of_lt {l : List Nat} (hl : l.Pairwise (· < ·)) {n a b : Nat} (ha : a ∈ l.take n) (hb : b ∈ l) (hlt : b < a) : b ∈ l.take n := by
  by_contra hnot
  have hdrop : b ∈ l.drop n := by
    rw [← List.take_append_drop n l, List.mem_append] at hb
    exact hb.resolve_left hnot
  rw [← List.take_append_drop n l, List.pairwise_append] at hl
  exact absurd hlt (lt_asymm (hl.2.2 a ha b hdrop))

theorem pairwise_range_filter (n : Nat) (p : Nat → Bool) : ((List.range n).filter p).Pairwise (· < ·) := List.pairwise_lt_range.filter p

/-- The lowest numbers below a bound at which a predicate holds. -/
theorem lowest_spec (n k : Nat) (p : Nat → Bool) {a : Nat} (ha : a ∈ ((List.range n).filter p).take k) :
    a < n ∧ p a = true ∧ ∀ b < a, p b = true → b ∈ ((List.range n).filter p).take k := by
  have hmem := List.mem_of_mem_take ha
  obtain ⟨hrange, hp⟩ := List.mem_filter.mp hmem
  have hlt := List.mem_range.mp hrange
  exact ⟨hlt, hp, fun b hb hpb => mem_take_of_lt (pairwise_range_filter n p) ha
    (List.mem_filter.mpr ⟨List.mem_range.mpr (hb.trans hlt), hpb⟩) hb⟩

/-- Equal shares of a list, joined, are its beginning. -/
theorem flatten_shares {α : Type} (l : List α) (n t : Nat) : ((List.range n).map fun j => (l.drop (j * t)).take t).flatten = l.take (n * t) := by
  induction n with
  | zero => rw [Nat.zero_mul]; rfl
  | succ n ih =>
    rw [List.range_succ, List.map_append, List.flatten_append, ih, Nat.succ_mul, List.take_add]
    simp

theorem lowestWindows_eq (size : Nat) (taken : List (Nat × Nat)) (n : Nat) (bases : List Nat) :
    lowestWindows size taken n bases = (bases.filter fun b => !taken.any fun w => overlap b size w.1 w.2).take n := by
  induction bases generalizing n with
  | nil => cases n <;> simp [lowestWindows]
  | cons b bs ih =>
    cases n with
    | zero => rfl
    | succ n =>
      rw [lowestWindows]
      cases hb : taken.any fun w => overlap b size w.1 w.2 with
      | true => rw [if_pos rfl, ih, List.filter_cons_of_neg (by rw [hb]; decide)]
      | false => rw [if_neg Bool.false_ne_true, ih, List.filter_cons_of_pos (by rw [hb]; rfl), List.take_succ_cons]

/-! ### A seat on one core (R227) -/

/-- The aligned bases of a core, in order. -/
def windowBases (size : Nat) : List Nat := (List.range (2 ^ 21 / size)).map (· * size)

theorem mem_windowBases {size b : Nat} (hs : 0 < size) : b ∈ windowBases size ↔ b % size = 0 ∧ b + size ≤ 2 ^ 21 := by
  rw [windowBases, List.mem_map]
  constructor
  · rintro ⟨q, hq, rfl⟩
    refine ⟨Nat.mul_mod_left q size, ?_⟩
    rw [← Nat.succ_mul]
    exact (Nat.mul_le_mul_right size (List.mem_range.mp hq)).trans (Nat.div_mul_le_self _ _)
  · rintro ⟨hmod, hle⟩
    have hmul : b / size * size = b := Nat.div_mul_cancel (Nat.dvd_of_mod_eq_zero hmod)
    refine ⟨b / size, List.mem_range.mpr ?_, hmul⟩
    rw [← Nat.succ_le_iff, Nat.le_div_iff_mul_le hs, Nat.succ_mul, hmul]
    exact hle

theorem pairwise_windowBases {size : Nat} (hs : 0 < size) : (windowBases size).Pairwise (· < ·) :=
  List.pairwise_map.mpr (List.pairwise_lt_range.imp fun {_ _} h => Nat.mul_lt_mul_of_pos_right h hs)

/-- The windows that a core offers. -/
def freeWindows (size n : Nat) (taken : List (Nat × Nat)) : List Nat := lowestWindows size taken n (windowBases size)

theorem freeWindows_spec {size n : Nat} (hs : 0 < size) {taken : List (Nat × Nat)} {b : Nat} (hb : b ∈ freeWindows size n taken) :
    b % size = 0 ∧ b + size ≤ 2 ^ 21 ∧ (∀ w ∈ taken, overlap b size w.1 w.2 = false) ∧
      ∀ d < b, d % size = 0 → d ∉ freeWindows size n taken → ∃ w ∈ taken, overlap d size w.1 w.2 = true := by
  rw [freeWindows, lowestWindows_eq] at hb
  obtain ⟨hbase, hfree⟩ := List.mem_filter.mp (List.mem_of_mem_take hb)
  obtain ⟨hmod, hle⟩ := (mem_windowBases hs).mp hbase
  rw [Bool.not_eq_true', List.any_eq_false] at hfree
  refine ⟨hmod, hle, fun w hw => Bool.eq_false_iff.mpr (hfree w hw), fun d hd hdmod hnot => ?_⟩
  by_contra hnone
  push Not at hnone
  have hdfree : (!taken.any fun w => overlap d size w.1 w.2) = true := by
    rw [Bool.not_eq_true', List.any_eq_false]
    exact hnone
  have hdbase : d ∈ windowBases size := (mem_windowBases hs).mpr ⟨hdmod, by omega⟩
  rw [freeWindows, lowestWindows_eq] at hnot
  exact hnot (mem_take_of_lt ((pairwise_windowBases hs).filter _) hb (List.mem_filter.mpr ⟨hdbase, hdfree⟩) hd)

theorem pairwise_freeWindows {size n : Nat} (hs : 0 < size) (taken : List (Nat × Nat)) : (freeWindows size n taken).Pairwise (· < ·) := by
  rw [freeWindows, lowestWindows_eq]
  exact ((pairwise_windowBases hs).filter _).sublist (List.take_sublist _ _)

theorem length_freeWindows_le (size n : Nat) (taken : List (Nat × Nat)) : (freeWindows size n taken).length ≤ n := by
  rw [freeWindows, lowestWindows_eq]
  exact List.length_take_le _ _

theorem window_pos (l : Launch) : 0 < l.window := Nat.two_pow_pos _

section
variable {s : State} {i : Nat} {l : Launch} {except : List Nat}

/-- The free positions, or tiles, of a core. -/
def freeOf (taken : List Nat) : List Nat := (List.range 4).filter fun p => !taken.contains p

/-- The seat that a core offers, where its room is enough. -/
theorem seatOn_eq_some {core : Nat} {x : Seat} (h : seatOn s i l except core = some x) :
    let r := heldOn s i except core
    let n := if l.shared then 1 else l.perCore
    let ws := freeWindows l.window n r.windows
    (s.core core).fenced = false ∧ l.perCore ≤ (freeOf r.positions).length ∧ n ≤ ws.length ∧ l.perCore * l.tiles ≤ (freeOf r.tiles).length ∧
      x = { core := core, positions := (freeOf r.positions).take l.perCore,
            bases := if l.shared then List.replicate l.perCore (ws.headD 0) else ws,
            tiles := (List.range l.perCore).map fun j => ((freeOf r.tiles).drop (j * l.tiles)).take l.tiles } := by
  intro r n ws
  have hfenced : (s.core core).fenced = false := by
    by_contra hf
    exact absurd ((if_pos (Bool.not_eq_false _ ▸ hf)).symm.trans h) nofun
  have hroom : ¬ ((freeOf r.positions).length < l.perCore ∨ ws.length < n ∨ (freeOf r.tiles).length < l.perCore * l.tiles) := by
    intro hsmall
    exact absurd ((if_pos hsmall).symm.trans ((if_neg (by rw [hfenced]; exact Bool.false_ne_true)).symm.trans h)) nofun
  have hx := (if_neg hroom).symm.trans ((if_neg (by rw [hfenced]; exact Bool.false_ne_true)).symm.trans h)
  push Not at hroom
  exact ⟨hfenced, hroom.1, hroom.2.1, hroom.2.2, (Option.some.inj hx).symm⟩

/-- What a seat's positions are: the lowest free ones. -/
theorem mem_freeOf_take {taken : List Nat} {k p : Nat} (hp : p ∈ (freeOf taken).take k) :
    p < 4 ∧ p ∉ taken ∧ ∀ q < p, q ∉ taken → q ∈ (freeOf taken).take k := by
  obtain ⟨hlt, hfree, hlow⟩ := lowest_spec 4 k (fun p => !taken.contains p) hp
  exact ⟨hlt, by simpa using hfree, fun q hq hnot => hlow q hq (by simpa using hnot)⟩

/-- The window bases of a seat: one for all its contexts, or one each. -/
def seatBases (l : Launch) (taken : List (Nat × Nat)) : List Nat :=
  if l.shared then List.replicate l.perCore ((freeWindows l.window 1 taken).headD 0) else freeWindows l.window l.perCore taken

theorem seatBases_spec {taken : List (Nat × Nat)} (hroom : (if l.shared then 1 else l.perCore) ≤
      (freeWindows l.window (if l.shared then 1 else l.perCore) taken).length) :
    (seatBases l taken).length = l.perCore ∧
    (∀ b ∈ seatBases l taken, b % l.window = 0 ∧ b + l.window ≤ 2 ^ 21 ∧ ∀ w ∈ taken, overlap b l.window w.1 w.2 = false) ∧
    (l.shared = false → (seatBases l taken).Pairwise (· < ·)) ∧ (l.shared = true → ∀ b ∈ seatBases l taken, ∀ d ∈ seatBases l taken, b = d) ∧
    ∀ b ∈ seatBases l taken, ∀ d, d < b → d % l.window = 0 → d ∉ seatBases l taken → ∃ w ∈ taken, overlap d l.window w.1 w.2 = true := by
  cases hshared : l.shared with
  | false =>
    have hbases : seatBases l taken = freeWindows l.window l.perCore taken := if_neg (by rw [hshared]; exact Bool.false_ne_true)
    rw [hshared] at hroom
    rw [hbases]
    refine ⟨le_antisymm (length_freeWindows_le ..) hroom, fun b hb => ?_, fun _ => pairwise_freeWindows (window_pos l) _, nofun, fun b hb => ?_⟩
    · obtain ⟨hmod, hle, hfree, -⟩ := freeWindows_spec (window_pos l) hb
      exact ⟨hmod, hle, hfree⟩
    · exact (freeWindows_spec (window_pos l) hb).2.2.2
  | true =>
    rw [hshared] at hroom
    obtain ⟨base, hone⟩ := List.length_eq_one_iff.mp (le_antisymm (length_freeWindows_le l.window 1 taken) hroom)
    have hbases : seatBases l taken = List.replicate l.perCore base := (if_pos hshared).trans (by rw [hone]; rfl)
    obtain ⟨hmod, hle, hfree, hlow⟩ := freeWindows_spec (window_pos l) (hone ▸ List.mem_singleton.mpr rfl)
    rw [hbases]
    refine ⟨List.length_replicate, fun b hb => ?_, nofun, fun _ b hb d hd => (List.eq_of_mem_replicate hb).trans (List.eq_of_mem_replicate hd).symm,
      fun b hb d hd hdmod _ => ?_⟩
    · rw [List.eq_of_mem_replicate hb]
      exact ⟨hmod, hle, hfree⟩
    · rw [List.eq_of_mem_replicate hb] at hd
      exact hlow d hd hdmod (by rw [hone]; exact fun h => hd.ne (List.mem_singleton.mp h))

theorem seatOn_spec {core : Nat} {x : Seat} (h : seatOn s i l except core = some x) : let r := heldOn s i except x.core
    x.core = core ∧ (s.core x.core).fenced = false ∧ x.positions.length = l.perCore ∧ x.positions.Pairwise (· < ·) ∧
    (∀ p ∈ x.positions, p < 4 ∧ p ∉ r.positions ∧ ∀ q, q < p → q ∉ r.positions → q ∈ x.positions) ∧ x.bases.length = l.perCore ∧
    (∀ b ∈ x.bases, b % l.window = 0 ∧ (0 < l.perCore → b + l.window ≤ 2 ^ 21 ∧ ∀ w ∈ r.windows, overlap b l.window w.1 w.2 = false)) ∧
    (l.shared = false → x.bases.Pairwise (· < ·)) ∧ (l.shared = true → ∀ b ∈ x.bases, ∀ d ∈ x.bases, b = d) ∧
    (∀ b ∈ x.bases, ∀ d, d < b → d % l.window = 0 → d ∉ x.bases → ∃ w ∈ r.windows, overlap d l.window w.1 w.2 = true) ∧
    x.tiles.flatten.length = l.perCore * l.tiles ∧ x.tiles.flatten.Pairwise (· < ·) ∧
    ∀ y ∈ x.tiles.flatten, y < 4 ∧ y ∉ r.tiles ∧ ∀ z, z < y → z ∉ r.tiles → z ∈ x.tiles.flatten := by
  obtain ⟨hfenced, hpos, hwin, htiles, rfl⟩ := seatOn_eq_some h
  intro r
  have hflat : ((List.range l.perCore).map fun j => ((freeOf r.tiles).drop (j * l.tiles)).take l.tiles).flatten =
      (freeOf r.tiles).take (l.perCore * l.tiles) := flatten_shares _ _ _
  have hbases : (if l.shared then List.replicate l.perCore ((freeWindows l.window (if l.shared then 1 else l.perCore) r.windows).headD 0)
      else freeWindows l.window (if l.shared then 1 else l.perCore) r.windows) = seatBases l r.windows := by
    rw [seatBases]
    cases l.shared <;> rfl
  obtain ⟨hlen, hfree, hrise, hsame, hlow⟩ := seatBases_spec hwin
  dsimp only
  rw [hflat, hbases]
  refine ⟨rfl, hfenced, List.length_take_of_le hpos, (pairwise_range_filter 4 _).sublist (List.take_sublist _ _), fun p hp => mem_freeOf_take hp, hlen,
    fun b hb => ⟨(hfree b hb).1, fun _ => (hfree b hb).2⟩, hrise, hsame, hlow, List.length_take_of_le htiles,
    (pairwise_range_filter 4 _).sublist (List.take_sublist _ _), fun y hy => mem_freeOf_take hy⟩

end

end Sys2Proof.Machine

/-! SUPPORT. The statement on the distributor, continued: a gang over the fewest dies, the lowest cores among those. -/

namespace Sys2Proof.Machine

/-! ### The order of core lists (R227) -/

theorem lexLess_total (a b : List Nat) : lexLess a b = true ∨ lexLess b a = true := by
  induction a generalizing b with
  | nil => exact .inl rfl
  | cons x a ih =>
    cases b with
    | nil => exact .inr rfl
    | cons y b =>
      rcases lt_trichotomy x y with h | rfl | h
      · exact .inl (by simp [lexLess, h])
      · simpa [lexLess] using ih b
      · exact .inr (by simp [lexLess, h])

theorem lexLess_trans {a b c : List Nat} (hab : lexLess a b = true) (hbc : lexLess b c = true) : lexLess a c = true := by
  induction a generalizing b c with
  | nil => rfl
  | cons x a ih =>
    cases b with
    | nil => cases hab
    | cons y b =>
      cases c with
      | nil => cases hbc
      | cons z c =>
        simp only [lexLess, Bool.or_eq_true, Bool.and_eq_true, decide_eq_true_eq, beq_iff_eq] at hab hbc ⊢
        rcases hab with hxy | ⟨rfl, hab⟩
        · rcases hbc with hyz | ⟨rfl, -⟩
          · exact .inl (hxy.trans hyz)
          · exact .inl hxy
        · rcases hbc with hyz | ⟨rfl, hbc⟩
          · exact .inl hyz
          · exact .inr ⟨rfl, ih hab hbc⟩

/-- The lowest of some seat lists. -/
def lowestSeats (xs : List (List Seat)) : Option (List Seat) :=
  xs.foldl (fun (b : Option (List Seat)) x => match b with
    | none => some x
    | some y => if lexLess (x.map Seat.core) (y.map Seat.core) then some x else b) none

/-- The fold keeps the lowest of what it has met. -/
theorem lowestSeats_from (xs : List (List Seat)) (y : List Seat) : ∃ z, xs.foldl (fun (b : Option (List Seat)) x => match b with
      | none => some x
      | some y => if lexLess (x.map Seat.core) (y.map Seat.core) then some x else b) (some y) = some z ∧ (z = y ∨ z ∈ xs) ∧
    lexLess (z.map Seat.core) (y.map Seat.core) = true ∧ ∀ x ∈ xs, lexLess (z.map Seat.core) (x.map Seat.core) = true := by
  induction xs generalizing y with
  | nil => exact ⟨y, rfl, .inl rfl, (lexLess_total _ _).elim id id, fun _ h => absurd h List.not_mem_nil⟩
  | cons x xs ih =>
    rw [List.foldl_cons]
    by_cases hless : lexLess (x.map Seat.core) (y.map Seat.core) = true
    · obtain ⟨z, hz, hin, hzx, hall⟩ := ih x
      refine ⟨z, by simpa only [hless, if_true] using hz, .inr ?_, lexLess_trans hzx hless, fun w hw => ?_⟩
      · rcases hin with rfl | hin
        · exact List.mem_cons_self
        · exact List.mem_cons_of_mem _ hin
      · rcases List.mem_cons.mp hw with rfl | hw
        · exact hzx
        · exact hall w hw
    · obtain ⟨z, hz, hin, hzy, hall⟩ := ih y
      refine ⟨z, by simpa only [hless, Bool.false_eq_true, if_false] using hz, hin.imp_right (List.mem_cons_of_mem _), hzy, fun w hw => ?_⟩
      rcases List.mem_cons.mp hw with rfl | hw
      · exact lexLess_trans hzy ((lexLess_total _ _).resolve_left hless)
      · exact hall w hw

theorem lowestSeats_spec (xs : List (List Seat)) : (lowestSeats xs = none → xs = []) ∧
    ∀ z, lowestSeats xs = some z → z ∈ xs ∧ ∀ x ∈ xs, lexLess (z.map Seat.core) (x.map Seat.core) = true := by
  cases xs with
  | nil => exact ⟨fun _ => rfl, nofun⟩
  | cons x xs =>
    obtain ⟨z, hz, hin, hzx, hall⟩ := lowestSeats_from xs x
    have hlow : lowestSeats (x :: xs) = some z := hz
    rw [hlow]
    refine ⟨nofun, ?_⟩
    rintro _ ⟨⟩
    refine ⟨?_, fun w hw => ?_⟩
    · rcases hin with rfl | hin
      · exact List.mem_cons_self
      · exact List.mem_cons_of_mem _ hin
    · rcases List.mem_cons.mp hw with rfl | hw
      · exact hzx
      · exact hall w hw

/-- What is first found along a rising list is found at no lower entry. -/
theorem findSome?_rising {α : Type} {f : Nat → Option α} {l : List Nat} (hl : l.Pairwise (· < ·)) {x : α} (h : l.findSome? f = some x) :
    ∃ k ∈ l, f k = some x ∧ ∀ j ∈ l, j < k → f j = none := by
  obtain ⟨before, k, after, rfl, hk, hbefore⟩ := List.findSome?_eq_some_iff.mp h
  refine ⟨k, by simp, hk, fun j hj hlt => hbefore j ?_⟩
  rcases List.mem_append.mp hj with hb | hrest
  · exact hb
  · obtain ⟨-, htail, -⟩ := List.pairwise_append.mp hl
    rcases List.mem_cons.mp hrest with rfl | hafter
    · exact absurd hlt (lt_irrefl _)
    · exact absurd hlt (lt_asymm ((List.pairwise_cons.mp htail).1 j hafter))

/-! ### Gangs over dies (R227) -/

section
variable (s : State) (i : Nat) (l : Launch) (except : List Nat)

/-- The cores that offer a seat. -/
def openCores : List Nat := (List.range 256).filter fun c => (seatOn s i l except c).isSome

/-- The seats that cores offer. -/
def openSeats : List Seat := (List.range 256).filterMap (seatOn s i l except)

/-- The lowest seats on a set of dies, as many as a gang takes. -/
def gangOn (ds : List Nat) : List Seat := ((openSeats s i l except).filter fun x => ds.contains (dieOf x.core)).take l.gang

/-- The gangs that fit on a number of dies. -/
def gangsOver (k : Nat) : List (List Seat) :=
  (dieSets k).filterMap fun ds => if (gangOn s i l except ds).length = l.gang then some (gangOn s i l except ds) else none

theorem fitGang_eq : fitGang s i l except = [1, 2, 3, 4].findSome? fun k => lowestSeats (gangsOver s i l except k) := rfl

theorem mem_dieSets {ds : List Nat} {k : Nat} : ds ∈ dieSets k ↔ ds ∈ [0, 1, 2, 3].sublists ∧ ds.length = k := by
  rw [dieSets, List.mem_filter, beq_iff_eq]

theorem mem_gangsOver {k : Nat} {seats : List Seat} : seats ∈ gangsOver s i l except k ↔
    ∃ ds ∈ [0, 1, 2, 3].sublists, ds.length = k ∧ (gangOn s i l except ds).length = l.gang ∧ seats = gangOn s i l except ds := by
  rw [gangsOver, List.mem_filterMap]
  constructor
  · rintro ⟨ds, hds, hseats⟩
    obtain ⟨hsub, hlen⟩ := mem_dieSets.mp hds
    split at hseats
    next hgang => exact ⟨ds, hsub, hlen, hgang, (Option.some.inj hseats).symm⟩
    next => cases hseats
  · rintro ⟨ds, hsub, hlen, hgang, rfl⟩
    exact ⟨ds, mem_dieSets.mpr ⟨hsub, hlen⟩, if_pos hgang⟩

theorem mem_openSeats {x : Seat} (hx : x ∈ openSeats s i l except) : x.core < 256 ∧ seatOn s i l except x.core = some x := by
  obtain ⟨c, hc, hseat⟩ := List.mem_filterMap.mp hx
  have hcore : x.core = c := (seatOn_spec hseat).1
  rw [hcore]
  exact ⟨List.mem_range.mp hc, hseat⟩

theorem cores_openSeats : (openSeats s i l except).map Seat.core = openCores s i l except := by
  rw [openSeats, openCores]
  induction List.range 256 with
  | nil => rfl
  | cons c cs ih =>
    cases hseat : seatOn s i l except c with
    | none => rw [List.filterMap_cons_none hseat, List.filter_cons_of_neg (by rw [hseat]; decide), ih]
    | some x =>
      rw [List.filterMap_cons_some hseat, List.filter_cons_of_pos (by rw [hseat]; rfl), List.map_cons, ih, (seatOn_spec hseat).1]

theorem cores_gangOn (ds : List Nat) :
    (gangOn s i l except ds).map Seat.core = ((openCores s i l except).filter fun c => ds.contains (c / 64)).take l.gang := by
  rw [gangOn, List.map_take, ← cores_openSeats, List.filter_map]
  rfl

theorem length_gangOn (ds : List Nat) : (gangOn s i l except ds).length = l.gang ↔
    l.gang ≤ ((openCores s i l except).filter fun c => ds.contains (c / 64)).length := by
  rw [← List.length_map (f := Seat.core), cores_gangOn, List.length_take]
  exact min_eq_left_iff

theorem pairwise_openCores : (openCores s i l except).Pairwise (· < ·) := pairwise_range_filter 256 _

variable {s i l except} {seats : List Seat}

/-- Some seats of a gang stand on as many dies as they name. -/
theorem dies_sublist (hseats : ∀ x ∈ seats, x.core < 256) : let dies := (seats.map fun x => x.core / 64).dedup
    ∃ ds ∈ [0, 1, 2, 3].sublists, ds.length = dies.length ∧ ∀ x ∈ seats, ds.contains (x.core / 64) = true := by
  intro dies
  have hfour : ∀ d ∈ dies, d ∈ [0, 1, 2, 3] := by
    intro d hd
    obtain ⟨x, hx, rfl⟩ := List.mem_map.mp (List.mem_dedup.mp hd)
    have := hseats x hx
    have hd4 : x.core / 64 < 4 := by omega
    interval_cases x.core / 64 <;> decide
  let ds := [0, 1, 2, 3].filter fun d => dies.contains d
  have hmem : ∀ d, d ∈ ds ↔ d ∈ dies := fun d => by
    rw [List.mem_filter, List.contains_iff_mem]
    exact ⟨fun h => h.2, fun h => ⟨hfour d h, h⟩⟩
  have hperm : ds.Perm dies := (List.perm_ext_iff_of_nodup (List.Nodup.filter _ (by decide)) (List.nodup_dedup _)).mpr hmem
  refine ⟨ds, List.mem_sublists.mpr List.filter_sublist, hperm.length_eq, fun x hx => ?_⟩
  exact List.contains_iff_mem.mpr ((hmem _).mpr (List.mem_dedup.mpr (List.mem_map_of_mem hx)))

theorem fitGang_dies (h : fitGang s i l except = some seats) :
    let offering := openCores s i l except
    let dies := (seats.map fun x => x.core / 64).dedup
    seats.length = l.gang ∧ (seats.map Seat.core).Pairwise (· < ·) ∧ (∀ x ∈ seats, x.core < 256 ∧ seatOn s i l except x.core = some x) ∧
      (∀ ds ∈ [0, 1, 2, 3].sublists, ds.length < dies.length → (offering.filter fun c => ds.contains (c / 64)).length < l.gang) ∧
      ∀ ds ∈ [0, 1, 2, 3].sublists, ds.length = dies.length → l.gang ≤ (offering.filter fun c => ds.contains (c / 64)).length →
        lexLess (seats.map Seat.core) ((offering.filter fun c => ds.contains (c / 64)).take l.gang) = true := by
  intro offering dies
  rw [fitGang_eq] at h
  obtain ⟨k, hk, hlow, hfewer⟩ := findSome?_rising (by decide) h
  obtain ⟨hin, hleast⟩ := (lowestSeats_spec _).2 seats hlow
  obtain ⟨ds0, hds0, hlen0, hgang0, hseats⟩ := (mem_gangsOver s i l except).mp hin
  have hlength : seats.length = l.gang := hseats ▸ hgang0
  have hopen : ∀ x ∈ seats, x ∈ openSeats s i l except ∧ ds0.contains (x.core / 64) = true := by
    intro x hx
    rw [hseats] at hx
    exact List.mem_filter.mp (List.mem_of_mem_take hx)
  have hseat : ∀ x ∈ seats, x.core < 256 ∧ seatOn s i l except x.core = some x := fun x hx => mem_openSeats s i l except (hopen x hx).1
  have hsub : (seats.map Seat.core).Sublist offering := by
    rw [hseats, cores_gangOn]
    exact (List.take_sublist _ _).trans List.filter_sublist
  have hnone : ∀ ds ∈ [0, 1, 2, 3].sublists, 0 < ds.length → ds.length < k → (offering.filter fun c => ds.contains (c / 64)).length < l.gang := by
    intro ds hds hpos hlt
    have hk4 : k ≤ 4 := by
      simp only [List.mem_cons, List.not_mem_nil, or_false] at hk
      omega
    have hempty : gangsOver s i l except ds.length = [] := (lowestSeats_spec _).1 (hfewer ds.length (by simp; omega) hlt)
    by_contra hge
    have hmem : gangOn s i l except ds ∈ gangsOver s i l except ds.length :=
      (mem_gangsOver s i l except).mpr ⟨ds, hds, rfl, (length_gangOn s i l except ds).mpr (not_lt.mp hge), rfl⟩
    rw [hempty] at hmem
    exact List.not_mem_nil hmem
  refine ⟨hlength, (pairwise_openCores s i l except).sublist hsub, hseat, ?_⟩
  rcases Nat.eq_zero_or_pos l.gang with hzero | hpos
  · have hnil : seats = [] := List.length_eq_zero_iff.mp (hlength.trans hzero)
    subst hnil
    exact ⟨fun ds _ hlt => absurd hlt (Nat.not_lt_zero _), fun ds _ _ _ => rfl⟩
  · have hk' : dies.length = k := by
      obtain ⟨ds, hds, hlen, hon⟩ := dies_sublist fun x hx => (hseat x hx).1
      have hle : dies.length ≤ k := by
        rw [← hlen0]
        refine (List.subperm_of_subset (List.nodup_dedup _) fun d hd => ?_).length_le
        obtain ⟨x, hx, rfl⟩ := List.mem_map.mp (List.mem_dedup.mp hd)
        exact List.contains_iff_mem.mp (hopen x hx).2
      refine le_antisymm hle (not_lt.mp fun hlt => ?_)
      have hall : ((seats.map Seat.core).filter fun c => ds.contains (c / 64)) = seats.map Seat.core := by
        refine List.filter_eq_self.mpr fun c hc => ?_
        obtain ⟨x, hx, rfl⟩ := List.mem_map.mp hc
        exact hon x hx
      have hroom : l.gang ≤ (offering.filter fun c => ds.contains (c / 64)).length := by
        have hle' := (hsub.filter fun c => ds.contains (c / 64)).length_le
        rwa [hall, List.length_map, hlength] at hle'
      have hsome : 0 < ds.length := by
        obtain ⟨x, hx⟩ := List.exists_mem_of_length_pos (hlength ▸ hpos)
        exact List.length_pos_of_mem (List.contains_iff_mem.mp (hon x hx))
      exact absurd (hnone ds hds hsome (hlen ▸ hlt)) (not_lt.mpr hroom)
    refine ⟨fun ds hds hlt => ?_, fun ds hds hlen hroom => ?_⟩
    · rcases Nat.eq_zero_or_pos ds.length with hempty | hsome
      · rw [List.length_eq_zero_iff.mp hempty]
        simpa using hpos
      · exact hnone ds hds hsome (hk' ▸ hlt)
    · rw [← cores_gangOn]
      exact hleast _ ((mem_gangsOver s i l except).mpr ⟨ds, hds, hlen.trans hk', (length_gangOn s i l except ds).mpr hroom, rfl⟩)

end

end Sys2Proof.Machine

/-! SUPPORT. The statement on the distributor, finished: whose room may be taken, pre-emption, and the end of a placement. -/

namespace Sys2Proof.Machine

section
variable {s : State} {i : Nat}

/-! ### Whose room may be taken (R220, R230, R377) -/

theorem mem_takeable {j : Nat} : j ∈ takeable s i ↔ ∃ c, (j, c) ∈ s.dev.conts ∧ j ≠ i ∧ c.halt = none ∧ evictable s j = true ∧
    (c.state = .parked ∨ c.state = .queued ∧ ((∃ x ∈ (s.cont i).reserved, x.1 = j) ∨ standsBefore (s.cont i) c = true)) := by
  have hgives : ∀ e : Nat × Cont, (e.1 != i && e.2.halt.isNone && evictable s e.1 &&
      (e.2.state == .parked || (e.2.state == .queued && ((s.cont i).victim e.1 || standsBefore (s.cont i) e.2)))) = true ↔
      e.1 ≠ i ∧ e.2.halt = none ∧ evictable s e.1 = true ∧
        (e.2.state = .parked ∨ e.2.state = .queued ∧ ((∃ x ∈ (s.cont i).reserved, x.1 = e.1) ∨ standsBefore (s.cont i) e.2 = true)) := by
    intro e
    simp only [Bool.and_eq_true, Bool.or_eq_true, bne_iff_ne, beq_iff_eq, Option.isNone_iff_eq_none, Cont.victim, List.any_eq_true, and_assoc]
  rw [takeable, List.mem_map]
  constructor
  · rintro ⟨e, he, rfl⟩
    obtain ⟨hmem, htake⟩ := List.mem_filter.mp he
    exact ⟨e.2, hmem, (hgives e).mp htake⟩
  · rintro ⟨c, hc, htake⟩
    exact ⟨(j, c), List.mem_filter.mpr ⟨hc, (hgives (j, c)).mpr htake⟩, rfl⟩

/-- Whether a continuation may be pre-empted for another. -/
def mayPreempt (s : State) (i : Nat) (e : Nat × Cont) : Bool :=
  e.2.state == .running && e.2.halt.isNone && decide (e.2.effective < (s.cont i).effective) && evictable s e.1 &&
    (decide (e.2.launch.priority < (s.cont i).launch.priority) || decide (e.2.residentAge + micros 100 ≤ s.refHalf))

theorem victims_eq (s : State) (i : Nat) : victims s i = ((s.dev.conts.filter (mayPreempt s i)).foldr insertVictim []).map (·.1) := rfl

theorem effective_running {c : Cont} (h : c.state = .running) : c.effective = c.launch.priority := if_pos h

theorem mayPreempt_iff {e : Nat × Cont} : mayPreempt s i e = true ↔ e.2.state = .running ∧ e.2.halt = none ∧
    e.2.launch.priority < (s.cont i).effective ∧ evictable s e.1 = true ∧
      (e.2.launch.priority < (s.cont i).launch.priority ∨ e.2.residentAge + 260000 ≤ s.refHalf) := by
  rw [mayPreempt]
  simp only [Bool.and_eq_true, Bool.or_eq_true, beq_iff_eq, Option.isNone_iff_eq_none, decide_eq_true_eq, and_assoc]
  refine and_congr_right fun hrun => ?_
  rw [effective_running hrun]
  exact Iff.rfl

theorem perm_victims (s : State) (i : Nat) : ((s.dev.conts.filter (mayPreempt s i)).foldr insertVictim []).Perm (s.dev.conts.filter (mayPreempt s i)) :=
  perm_sorted (ins := insertVictim) (fun _ => rfl) (fun _ _ _ => rfl) _

theorem mem_victims {j : Nat} : j ∈ victims s i ↔ ∃ c, (j, c) ∈ s.dev.conts ∧ c.state = .running ∧ c.halt = none ∧
    c.launch.priority < (s.cont i).effective ∧ evictable s j = true ∧
      (c.launch.priority < (s.cont i).launch.priority ∨ c.residentAge + 260000 ≤ s.refHalf) := by
  rw [victims_eq, List.mem_map]
  constructor
  · rintro ⟨e, he, rfl⟩
    obtain ⟨hmem, hmay⟩ := List.mem_filter.mp ((perm_victims s i).mem_iff.mp he)
    exact ⟨e.2, hmem, mayPreempt_iff.mp hmay⟩
  · rintro ⟨c, hc, hmay⟩
    exact ⟨(j, c), (perm_victims s i).mem_iff.mpr (List.mem_filter.mpr ⟨hc, mayPreempt_iff.mpr hmay⟩), rfl⟩

/-- One victim is taken no later than another. -/
def TakenNoLater (x y : Cont) : Prop := x.effective < y.effective ∨ x.effective = y.effective ∧ y.residentAge ≤ x.residentAge

theorem victims_sorted (hr : Sparse.risingFrom none s.dev.conts = true) : (victims s i).Pairwise fun a b => let x := s.cont a; let y := s.cont b
    x.launch.priority ≤ y.launch.priority ∧ (x.launch.priority = y.launch.priority → y.residentAge ≤ x.residentAge) := by
  have horder : ∀ x y : Nat × Cont, (x.2.effective < y.2.effective || (x.2.effective == y.2.effective && y.2.residentAge < x.2.residentAge)) = true ↔
      x.2.effective < y.2.effective ∨ x.2.effective = y.2.effective ∧ y.2.residentAge < x.2.residentAge := by
    intro x y
    rw [Bool.or_eq_true, Bool.and_eq_true, decide_eq_true_eq, beq_iff_eq, decide_eq_true_eq]
  have hsorted : ((s.dev.conts.filter (mayPreempt s i)).foldr insertVictim []).Pairwise fun a b => TakenNoLater a.2 b.2 := by
    refine pairwise_sorted (ins := insertVictim) (fun _ => rfl) (fun _ _ _ => rfl) (fun x y h => ?_) (fun x y h => ?_)
      (fun x y z hxy hyz => by unfold TakenNoLater at *; omega) _
    · rw [horder] at h
      unfold TakenNoLater
      omega
    · rw [Bool.eq_false_iff, ne_eq, horder] at h
      unfold TakenNoLater
      omega
  refine List.pairwise_map.mpr (hsorted.imp_of_mem fun {a b} ha hb hab => ?_)
  have hread : ∀ e ∈ (s.dev.conts.filter (mayPreempt s i)).foldr insertVictim [], s.cont e.1 = e.2 ∧ e.2.effective = e.2.launch.priority := by
    intro e he
    obtain ⟨hmem, hmay⟩ := List.mem_filter.mp ((perm_victims s i).mem_iff.mp he)
    exact ⟨State.cont_of_find (Sparse.find_of_mem hr hmem), effective_running (mayPreempt_iff.mp hmay).1⟩
  obtain ⟨hac, hpa⟩ := hread a ha
  obtain ⟨hbc, hpb⟩ := hread b hb
  unfold TakenNoLater at hab
  rw [hpa, hpb] at hab
  rw [hac, hbc]
  omega

/-- No continuation is its own victim. -/
theorem not_mem_victims_self (hr : Sparse.risingFrom none s.dev.conts = true) : i ∉ victims s i := by
  intro hi
  obtain ⟨c, hc, hrun, -, hlow, -⟩ := mem_victims.mp hi
  have hcont : s.cont i = c := State.cont_of_find (Sparse.find_of_mem hr hc)
  rw [hcont, effective_running hrun] at hlow
  exact lt_irrefl _ hlow

/-! ### The first victims that make room (R230) -/

/-- Whether the gang of i fits with the room of some of its victims. -/
def fitsWith (s : State) (i : Nat) (except vs : List Nat) : Bool := (fitGang s i (s.cont i).launch (except ++ vs)).isSome

theorem enoughVictims_nil (except taken : List Nat) : enoughVictims s i except taken [] =
    if taken.isEmpty then none else if fitsWith s i except taken then some taken else none := rfl

theorem enoughVictims_cons (except taken : List Nat) (v : Nat) (vs : List Nat) : enoughVictims s i except taken (v :: vs) =
    if !taken.isEmpty && fitsWith s i except taken then some taken else enoughVictims s i except (taken ++ [v]) vs := rfl

theorem enoughVictims_none {except : List Nat} (vs : List Nat) {taken : List Nat}
    (h : ∀ n, 0 < n → taken.length ≤ n → n ≤ (taken ++ vs).length → ¬ fitsWith s i except ((taken ++ vs).take n) = true) :
    enoughVictims s i except taken vs = none := by
  induction vs generalizing taken with
  | nil =>
    rw [enoughVictims_nil]
    split
    · rfl
    next hsome =>
      have hpos : 0 < taken.length := List.length_pos_iff.mpr fun hnil => hsome (List.isEmpty_iff.mpr hnil)
      rw [List.append_nil] at h
      exact if_neg (by simpa using h taken.length hpos le_rfl le_rfl)
  | cons v vs ih =>
    have hnot : ¬ (!taken.isEmpty && fitsWith s i except taken) = true := by
      rw [Bool.and_eq_true, Bool.not_eq_true', List.isEmpty_eq_false_iff]
      rintro ⟨hsome, hfits⟩
      have hpos : 0 < taken.length := List.length_pos_iff.mpr hsome
      exact h taken.length hpos le_rfl (by simp) (by simpa using hfits)
    rw [enoughVictims_cons, if_neg hnot]
    refine ih fun n hpos hle hn => ?_
    rw [List.append_assoc] at hn ⊢
    exact h n hpos ((by simp : taken.length ≤ (taken ++ [v]).length).trans hle) hn

theorem enoughVictims_first {except : List Nat} (vs : List Nat) {taken : List Nat} {n : Nat} (hpos : 0 < n) (hle : taken.length ≤ n)
    (hn : n ≤ (taken ++ vs).length) (hfits : fitsWith s i except ((taken ++ vs).take n) = true)
    (hfirst : ∀ m, 0 < m → taken.length ≤ m → m < n → ¬ fitsWith s i except ((taken ++ vs).take m) = true) :
    enoughVictims s i except taken vs = some ((taken ++ vs).take n) := by
  induction vs generalizing taken with
  | nil =>
    rw [List.append_nil] at hn hfits ⊢
    have hall : taken.take n = taken := List.take_of_length_le (by omega)
    have hsome : ¬ taken.isEmpty = true := fun hempty => by
      rw [List.isEmpty_iff.mp hempty, List.length_nil] at hn
      omega
    rw [hall] at hfits ⊢
    rw [enoughVictims_nil, if_neg hsome, if_pos hfits]
  | cons v vs ih =>
    rcases Nat.eq_or_lt_of_le hle with rfl | hlt
    · have htake : (taken ++ v :: vs).take taken.length = taken := List.take_left
      have hnow : (!taken.isEmpty && fitsWith s i except taken) = true := by
        rw [Bool.and_eq_true, Bool.not_eq_true', List.isEmpty_eq_false_iff]
        exact ⟨List.length_pos_iff.mp hpos, htake ▸ hfits⟩
      rw [enoughVictims_cons, if_pos hnow, htake]
    · have hnot : ¬ (!taken.isEmpty && fitsWith s i except taken) = true := by
        rw [Bool.and_eq_true, Bool.not_eq_true', List.isEmpty_eq_false_iff]
        rintro ⟨hsome, hnow⟩
        exact hfirst taken.length (List.length_pos_iff.mpr hsome) le_rfl hlt (by rw [List.take_left]; exact hnow)
      have hassoc : taken ++ [v] ++ vs = taken ++ v :: vs := by simp
      rw [enoughVictims_cons, if_neg hnot, ← hassoc]
      refine ih (by simpa using hlt) (hassoc ▸ hn) (hassoc ▸ hfits) fun m hm hlem hmn => ?_
      rw [hassoc]
      exact hfirst m hm (by simp at hlem; omega) hmn

/-! ### Pre-emption (R230, R377) -/

/-- A victim asked to halt, with its room reserved for another. -/
def takeVictim (i : Nat) (s : State) (v : Nat) : State :=
  requestHalt v (.preempt i) (s.mapCont i fun c => { c with reserved := c.reserved ++ roomOf s v })

theorem preempt_eq (s : State) (i : Nat) : preempt i s =
    if s.dev.conts.any (fun e => e.2.halt == some (.preempt i)) then some s
    else (enoughVictims s i (takeable s i) [] (victims s i)).map fun vs => vs.foldl (takeVictim i) s := rfl

theorem ctxs_takeVictims (vs : List Nat) (s : State) : (vs.foldl (takeVictim i) s).ctxs = s.ctxs :=
  foldl_keeps (fun t : State => t.ctxs = s.ctxs) _ vs s rfl fun _ _ ht => ht

theorem find_conts_takeVictim {w : Nat} {k : Cont} (hk : Sparse.find s.dev.conts w = some k) {v : Nat} (hv : v ≠ i) :
    Sparse.find (takeVictim i s v).dev.conts w = some (if w = v then { k with halt := some (.preempt i) } else
      if w = i then { k with reserved := k.reserved ++ roomOf s v } else k) := by
  have hstep : takeVictim i s v = (s.mapCont i fun c => { c with reserved := c.reserved ++ roomOf s v }).mapCont v fun c =>
    { c with halt := some (.preempt i) } := rfl
  rw [hstep, find_conts_mapCont (find_conts_mapCont hk i _)]
  refine congrArg some ?_
  by_cases hw : w = v
  · rw [if_pos hw, if_pos hw, if_neg fun h => hv (hw.symm.trans h)]
  · rw [if_neg hw, if_neg hw]

/-- The room of a victim does not change as others are taken. -/
theorem roomOf_takeVictim (s : State) (i v w : Nat) : roomOf (takeVictim i s v) w = roomOf s w := by
  have hsame : ∀ (t : State) (j : Nat) (f : Cont → Cont), (∀ c, (f c).seats = c.seats ∧ ∀ m x, (f c).roomAt true m x = c.roomAt true m x) →
      roomOf (t.mapCont j f) w = roomOf t w := by
    intro t j f hf
    by_cases hw : w = j
    · subst hw
      cases hfind : Sparse.find t.dev.conts w with
      | none =>
        have hcont : (t.mapCont w f).cont w = t.cont w := by simp [State.cont, State.mapCont, State.mapDev, Sparse.adjust, hfind]
        rw [roomOf, roomOf, hcont]
      | some c =>
        obtain ⟨hseats, hroom⟩ := hf (t.cont w)
        rw [roomOf, roomOf, State.cont_mapCont_self t w f (by rw [hfind]; rfl), hseats]
        exact List.map_congr_left fun x _ => by rw [hroom]
    · rw [roomOf, roomOf, State.cont_mapCont_other t j w f hw]
  exact (hsame _ v (fun c => { c with halt := some (.preempt i) }) fun _ => ⟨rfl, fun _ _ => rfl⟩).trans
    (hsame s i (fun c => { c with reserved := c.reserved ++ roomOf s v }) fun _ => ⟨rfl, fun _ _ => rfl⟩)

theorem find_conts_takeVictims (vs : List Nat) (hi : i ∉ vs) {s : State} {w : Nat} {k : Cont} (hk : Sparse.find s.dev.conts w = some k) :
    Sparse.find (vs.foldl (takeVictim i) s).dev.conts w = some (if w ∈ vs then { k with halt := some (.preempt i) } else
      if w = i then { k with reserved := k.reserved ++ (vs.map (roomOf s)).flatten } else k) := by
  induction vs generalizing s k with
  | nil =>
    rw [if_neg List.not_mem_nil, List.map_nil, List.flatten_nil, List.append_nil, ite_self]
    exact hk
  | cons v vs ih =>
    obtain ⟨hv, hvs⟩ := not_or.mp (mt List.mem_cons.mpr hi)
    have hrooms : vs.map (roomOf (takeVictim i s v)) = vs.map (roomOf s) := List.map_congr_left fun u _ => roomOf_takeVictim s i v u
    rw [List.foldl_cons, ih hvs (find_conts_takeVictim hk (Ne.symm hv)), hrooms, List.map_cons, List.flatten_cons]
    refine congrArg some ?_
    by_cases hw : w = v
    · subst hw
      rw [if_pos rfl, if_pos List.mem_cons_self, if_neg (Ne.symm hv)]
      split <;> rfl
    · rw [if_neg hw]
      by_cases hin : w ∈ vs
      · have hne : w ≠ i := fun h => hvs (h ▸ hin)
        rw [if_pos hin, if_pos (List.mem_cons_of_mem _ hin), if_neg hne]
      · rw [if_neg hin, if_neg fun h => (List.mem_cons.mp h).elim hw hin]
        by_cases hwi : w = i
        · rw [if_pos hwi, if_pos hwi, if_pos hwi, List.append_assoc]
        · rw [if_neg hwi, if_neg hwi, if_neg hwi]

theorem roomOf_eq (s : State) (v : Nat) : roomOf s v = (s.cont v).seats.mapIdx fun m x => (v, x.core, (s.cont v).roomAt true m x) := by
  rw [roomOf, numbered]
  exact List.ext_getElem (by simp) (by simp)

theorem preempt_ways (hno : ∀ e ∈ s.dev.conts, e.2.halt ≠ some (.preempt i)) (hr : Sparse.risingFrom none s.dev.conts = true) : let fits := fun (n : Nat) =>
      (fitGang s i (s.cont i).launch (takeable s i ++ (victims s i).take n)).isSome = true
    (∀ n, 0 < n → n ≤ (victims s i).length → fits n → (∀ m, 0 < m → m < n → ¬ fits m) → ∃ t, preempt i s = some t ∧ t.ctxs = s.ctxs ∧
      ∀ v k, Sparse.find s.dev.conts v = some k → t.cont v =
        if v ∈ (victims s i).take n then { k with halt := some (.preempt i) } else if v = i then
          { k with reserved := k.reserved ++ (((victims s i).take n).map fun v => (s.cont v).seats.mapIdx fun m x =>
            (v, x.core, (s.cont v).roomAt true m x)).flatten } else k) ∧
    ((∀ n, 0 < n → n ≤ (victims s i).length → ¬ fits n) → preempt i s = none) := by
  intro fits
  have hpreempt : preempt i s = (enoughVictims s i (takeable s i) [] (victims s i)).map fun vs => vs.foldl (takeVictim i) s := by
    rw [preempt_eq]
    refine if_neg fun hany => ?_
    obtain ⟨e, he, hhalt⟩ := List.any_eq_true.mp hany
    exact hno e he (beq_iff_eq.mp hhalt)
  refine ⟨fun n hpos hn hfits hfirst => ?_, fun hnone => ?_⟩
  · have henough : enoughVictims s i (takeable s i) [] (victims s i) = some ((victims s i).take n) :=
      enoughVictims_first (victims s i) hpos (Nat.zero_le n) hn hfits fun m hm _ hlt => hfirst m hm hlt
    refine ⟨_, by rw [hpreempt, henough]; rfl, ctxs_takeVictims _ s, fun v k hk => ?_⟩
    have hself : i ∉ (victims s i).take n := fun h => not_mem_victims_self hr (List.mem_of_mem_take h)
    rw [State.cont_of_find (find_conts_takeVictims _ hself hk), List.map_congr_left fun v _ => roomOf_eq s v]
  · have henough : enoughVictims s i (takeable s i) [] (victims s i) = none :=
      enoughVictims_none (victims s i) fun n hpos _ hn => hnone n hpos hn
    rw [hpreempt, henough]
    rfl

theorem preempt_again (h : ∃ e ∈ s.dev.conts, e.2.halt = some (.preempt i)) : preempt i s = some s := by
  obtain ⟨e, he, hhalt⟩ := h
  exact if_pos (List.any_eq_true.mpr ⟨e, he, by simpa using hhalt⟩)

/-! ### The end of a placement (R20, R227, R235) -/

theorem quiescent_iff {j : Nat} : quiescent s j = true ↔
    ∀ x ∈ s.ctxs, x.2.cont = j → x.2.work.memOps = [] ∧ x.2.work.delivers = [] ∧ releasing s x.2 = false := by
  simp only [quiescent, List.all_eq_true, List.mem_filter, Bool.and_eq_true, beq_iff_eq, List.isEmpty_iff, Bool.not_eq_true', and_imp, and_assoc]

theorem savesReady_iff : savesReady s i = true ↔ (∀ x ∈ (s.cont i).seats, (s.core x.core).pause = 0) ∧ ∀ e ∈ savesDue s i,
    (s.core e.2.2.1.core).pause = 0 ∧ hostBlocks s.store (((s.cont e.1).block + 0x400) / 64) false = false ∧
      ∀ x ∈ s.ctxs, x.2.cont = e.1 → x.2.work.memOps = [] ∧ x.2.work.delivers = [] ∧ releasing s x.2 = false := by
  have hline : ∀ j, (hostKeeps s (blockLines s j [0x400])).isEmpty = true ↔ hostBlocks s.store (((s.cont j).block + 0x400) / 64) false = false := by
    intro j
    rw [List.isEmpty_iff, hostKeeps, List.filter_eq_nil_iff]
    simp [blockLines]
  rw [savesReady]
  simp only [Bool.and_eq_true, List.all_eq_true, beq_iff_eq, hline, quiescent_iff]
  constructor
  · rintro ⟨⟨hdue, hseats⟩, hhost⟩
    exact ⟨hseats, fun e he => ⟨(hdue e he).2, hhost e he, (hdue e he).1⟩⟩
  · rintro ⟨hseats, hdue⟩
    exact ⟨⟨fun e he => ⟨(hdue e he).2.2, (hdue e he).1⟩, hseats⟩, fun e he => (hdue e he).2.1⟩

theorem finishPlacing_waits (h : savesReady s i = false) : finishPlacing s i = s := by
  rw [finishPlacing]
  split
  · rfl
  · exact if_pos (by rw [h]; rfl)

/-- The state of a placement whose saves are done. -/
def placed (s : State) (i : Nat) : State := (saveAll i s).mapCont i fun c => { c with placing := none, leaving := [] }

theorem finishPlacing_ready {fresh : Bool} (h : savesReady s i = true) (hp : (s.cont i).placing = some fresh) :
    finishPlacing s i = writeState i (if fresh then placeNew i ((placed s i).cont i).seats (grantSeats ((placed s i).cont i).seats (placed s i))
      else grantSeats ((placed s i).cont i).seats (placed s i)) := by
  rw [finishPlacing, hp]
  exact if_neg (by rw [h]; decide)

theorem finishPlacing_first (h : savesReady s i = true) (hp : (s.cont i).placing = some true) :
    finishPlacing s i = writeState i (placeNew i ((placed s i).cont i).seats (grantSeats ((placed s i).cont i).seats (placed s i))) := by
  rw [finishPlacing_ready h hp, if_pos rfl]

theorem finishPlacing_again (h : savesReady s i = true) (hp : (s.cont i).placing = some false) :
    finishPlacing s i = writeState i (grantSeats ((placed s i).cont i).seats (placed s i)) := by
  rw [finishPlacing_ready h hp, if_neg Bool.false_ne_true]

end

/-- Settles O59, each clause by the lemma on what it speaks of. -/
theorem distributorActs : Obligations.DistributorActs := by
  refine ⟨fun s i d => ?_, fun s t i is => ?_, fun s i except seats l => ?_, fun s i j => ?_⟩
  · exact ⟨exec_resourceReport_due, exec_resourceReport_same, reportOf_bits s d, exec_gangIssueStart,
      fun hs hp hk hpause hacts => kennelRestore_ways hs hp hk hpause hacts, fun _ _ _ hacts => exec_kennelRestore_writes hacts,
      exec_priorityBoost, exec_blockingTimeout, exec_residencyFloorExpiry, fun hc => haltComplete_ways hc, exec_haltComplete_waits,
      allDone_iff, canHalt_iff, fun hs hstage hclock => watchdogExpiry_ways hs hstage hclock, exec_watchdogStage2,
      fun hstage hh ha hseat hu => exec_watchdogStage3 hstage hh ha hseat hu, exec_timestampRebase_begins,
      fun hrebase hhalted => ⟨rebased s, exec_timestampRebase_shifts hrebase hhalted, rebased_spec s⟩, leastPts_le s, exec_ptsTick⟩
  · exact ⟨rfl, pass_nobody, pass_goes, pass_asks, fun l => mem_kennelKept, fun j => mem_waitingOrder, waitingOrder_sorted, passOver_placed,
      passOver_taking, fun hn ht => ⟨passOver_preempting hn ht, passOver_nothing hn ht⟩⟩
  · refine ⟨tryPlace_first, tryPlace_returns, tryPlace_elsewhere, fun j k hk hj x hx => reserved_stands hk hj hx, settleSeats_spec seats, fun hfit => ?_⟩
    obtain ⟨hlen, hcores, hseats, hfewer, hlowest⟩ := fitGang_dies hfit
    refine ⟨hlen, hcores, fun x hx => ?_, hfewer, hlowest⟩
    obtain ⟨hlt, hseat⟩ := hseats x hx
    exact ⟨hlt, (seatOn_spec hseat).2⟩
  · exact ⟨mem_takeable, mem_victims, victims_sorted, preempt_ways, preempt_again, finishPlacing_waits, savesReady_iff,
      fun h => ⟨finishPlacing_first h, finishPlacing_again h⟩, fun k => ⟨rfl, rfl⟩,
      fun seats k p x => ⟨rfl, rfl, rfl, rfl, rfl, rfl⟩⟩

end Sys2Proof.Machine
